-- ==== Sys2Proof/Word.lean ====
section
/-! DEFINITION. The words of the machine and their plainest arithmetic. -/

set_option Elab.async false

namespace Sys2Proof

/-- A byte of memory. -/
abbrev Byte := BitVec 8
/-- A 32-bit register or descriptor word. -/
abbrev Word := BitVec 32
/-- A 64-bit register, line index, position or time. -/
abbrev DWord := BitVec 64

/-- A natural number as a 32-bit word, modulo 2^32. -/
abbrev w32 (n : Nat) : Word := BitVec.ofNat 32 n
/-- A natural number as a 64-bit word, modulo 2^64. -/
abbrev w64 (n : Nat) : DWord := BitVec.ofNat 64 n

/-- The least of a list of numbers, if there is one. -/
def listMin? : List Nat → Option Nat
  | [] => none
  | a :: t => match listMin? t with
    | none => some a
    | some b => some (if a ≤ b then a else b)

/-- Bit k of a natural number, as 0 or 1. -/
def bitN (n k : Nat) : Nat := n / 2 ^ k % 2

/-- Division rounded up. -/
def cdiv (a b : Nat) : Nat := (a + b - 1) / b

/-- Division rounded half up, of non-negative numbers. -/
def rdiv (a b : Nat) : Nat := (a + b / 2) / b

/-- A number held between two limits. -/
def clampN (lo hi n : Nat) : Nat := if n < lo then lo else if hi < n then hi else n

/-- An integer held between two limits. -/
def clampI (lo hi n : Int) : Int := if n < lo then lo else if hi < n then hi else n

/-- A `w`-bit two's complement field read as an integer. -/
def toSigned (w n : Nat) : Int := if n < 2 ^ (w - 1) then (n : Int) else (n : Int) - 2 ^ w

/-- An integer as a `w`-bit two's complement field. -/
def ofSigned (w : Nat) (i : Int) : Nat := (i % (2 ^ w : Int)).toNat

/-- Addition that stops at a limit (a saturating counter). -/
def satAdd (lim a b : Nat) : Nat := if lim < a + b then lim else a + b

/-- The little-endian value of a list of bytes. -/
def leNat : List Byte → Nat
  | [] => 0
  | b :: t => b.toNat + 256 * leNat t

/-- The `k` little-endian bytes of a number, modulo 256^k. -/
def leBytes : Nat → Nat → List Byte
  | 0, _ => []
  | k + 1, n => BitVec.ofNat 8 n :: leBytes k (n / 256)

end Sys2Proof
end

