-- ==== Sys2Proof/Syntax.lean ====
section
/-! DEFINITION. The commands of the block and the operands they carry. -/

namespace Sys2Proof

/-- A line engine LE0 to LE17 (R27). -/
abbrev Eng := Fin 18

/-- Format A of R52: guard N and P, registers D, A and B, function FN. -/
structure FmtA where
  n : Bool
  p : BitVec 3
  d : BitVec 5
  a : BitVec 5
  b : BitVec 5
  fn : BitVec 6
  deriving DecidableEq, Repr

/-- Format A (special) of R52: the special register number SR in place of B and FN. -/
structure FmtS where
  n : Bool
  p : BitVec 3
  d : BitVec 5
  a : BitVec 5
  sr : BitVec 11
  deriving DecidableEq, Repr

/-- Format I of R52. -/
structure FmtI where
  d : BitVec 5
  fn : BitVec 4
  imm : BitVec 16
  deriving DecidableEq, Repr

/-- Format M of R52. -/
structure FmtM where
  d : BitVec 5
  a : BitVec 5
  s : Bool
  sz : BitVec 2
  off : BitVec 12
  deriving DecidableEq, Repr

/-- Format B of R52. -/
structure FmtB where
  n : Bool
  p : BitVec 3
  l : Bool
  disp : BitVec 20
  deriving DecidableEq, Repr

/-- Format X of R52, two words. -/
structure FmtX where
  n : Bool
  p : BitVec 3
  d : BitVec 5
  a : BitVec 5
  fn : BitVec 11
  imm : Word
  deriving DecidableEq, Repr

/-- Who performs a register access: the host through BAR0 (R113), or an engine through its io space (R35). -/
inductive Accessor
  | host
  | engine (e : Eng)
  deriving DecidableEq, Repr

/-- A host request at BAR2 (R115): a read of a number of bytes, or a write of bytes with byte enables (`none` is a byte
that is not enabled). -/
inductive Bar2Op
  | read (len : Nat)
  | write (bytes : List (Option Byte))
  deriving DecidableEq, Repr

/-- The three link resets of R119. -/
inductive LinkReset
  | functionLevel | hot | linkDown
  deriving DecidableEq, Repr

/-- The end of an AVSBus transaction (R45): an accepted write, a Voltage read in millivolts, or no valid response. -/
inductive AvsReply
  | accepted
  | voltage (mv : Nat)
  | failed
  deriving DecidableEq, Repr

/-- One bar of the frame section of a profile (R11, R102): its tiles as (port, tile) in list order, its lookahead and
drop depth, its distance from IB0 in WPU (R15), the first decode lane and the number of lanes it takes. -/
structure BarFrame where
  tiles : List (Fin 16 × Fin 32)
  lookahead : Nat
  depth : Nat
  dist : DWord
  deriving DecidableEq, Repr

/-- One table of KIND 0 (R87, R88): its id, the Tarn engine addresses of bank A and bank B, and its size in bytes. -/
structure TableSpec where
  id : BitVec 16
  bankA : Word
  bankB : Word
  size : Nat
  deriving DecidableEq, Repr

/-- The frame section of a profile (R102). The spec lists what it holds and gives no byte layout, so it is carried as
structured data beside the bytes of the image. `fifos` is the line FIFO of each port: its Tarn offset and its bytes (R20). -/
structure Frame where
  bars : List (Fin 8 × BarFrame)
  origin : DWord
  pitch : Word
  lineRate : Nat
  fifos : List (Fin 16 × Nat × Nat)
  tables : List TableSpec
  tarnOther : Nat
  dramChannels : List (Fin 4)
  roles : List (Fin 16 × Eng)
  classL : Bool
  hash : Bool
  deriving DecidableEq, Repr

/-- What the host buffer of a PRF_STAGE message holds: the bytes of the image and the meaning of its frame section. -/
structure ImageData where
  bytes : List Byte
  frame : Frame
  deriving DecidableEq, Repr

/-- An access granted at a protected memory (R355, R356): a read of 1 to 64 bytes, or a write. -/
inductive TarnOp
  | read (len : Nat)
  | write (bytes : List Byte)
  deriving DecidableEq, Repr

/-- The requesters of R360: an engine, DMA, the host through BAR2, a bar pipeline for a line, a head-port feeder, the camera
pipeline. -/
inductive TarnReq
  | engine | dma | bar2
  | bar (b : Fin 8) (line : DWord)
  | feeder (p : Fin 16) (line : DWord)
  | camera
  deriving DecidableEq, Repr

/-- An upstream training frame as it is received (R264): whether its marker and CRC are good, its fields, the bit position at
which it arrives, and for an echo the interval of R274 in 1/64 LTU. -/
structure TrainFrame where
  good : Bool
  clk : Bool
  lockA : Bool
  lockB : Bool
  echo : Bool
  precap : Bool
  skew : BitVec 6
  eyeA : BitVec 16
  eyeB : BitVec 16
  ubit : BitVec 9
  rt : BitVec 24
  deriving DecidableEq, Repr


/-- What the device learns of a channel at Boot (R325, R326, R350): ranks, density in Gb, module or down devices, the codes and serial
number, the highest speed code, and the RFM threshold when RFM is required. -/
structure ChanPop where
  ranks : Nat
  dens : Nat
  isModule : Bool
  modCode : Nat
  dramCode : Nat
  serial : Nat
  speed : Nat
  rfm : Option Nat
  deriving DecidableEq, Repr

/-- What Boot finds on a DRAM channel (R326): nothing, a population image whose CRC fails, or a population. -/
inductive ChanFound
  | absent
  | bad
  | found (p : ChanPop)
  deriving DecidableEq, Repr

/-- What Boot meets outside the device (R479, R500, R503, R504): the straps, whether PB locks, whether the flash answers with a good
directory, whether firmware copies A and B and the Starter profile pass verification, and the population of each channel. -/
structure BootInfo where
  straps : BitVec 3
  pbLocked : Bool
  flash : Bool
  copyA : Bool
  copyB : Bool
  starter : Bool
  chans : Vector ChanFound 4
  deriving DecidableEq, Repr

/-- The ports of the DRAM controller (R332). -/
inductive DramPort
  | rt (b : Fin 8) | records | ing | dma | host | scrub
  deriving DecidableEq, Repr

/-- A request at a DRAM port (R332): the next 512 bytes of a stripe for a fetcher (instance, group, stripe), or a read or a write. -/
inductive DramOp
  | fetch (inst group stripe : Nat)
  | read (addr : BitVec 40) (len : Nat)
  | write (addr : BitVec 40) (bytes : List Byte)
  deriving DecidableEq, Repr

/-- What MR4 of one rank reports (R340): the channel and rank, the refresh code, whether it asks for doubled refresh, and whether it
reports a temperature above the operating range. -/
structure Mr4 where
  chan : Fin 4
  rank : Fin 2
  code : BitVec 3
  doubled : Bool
  beyond : Bool
  deriving DecidableEq, Repr

/-- The instructions of the JTAG TAP (R489). -/
inductive TapInstr
  | bypass | idcode | sample | extest | debugPort
  deriving DecidableEq, Repr

/-- The triggers of a power-on reset (R498): PORST_N, or one of the three supply detectors. -/
inductive ResetTrigger
  | pin | vio18 | vsram | vcore
  deriving DecidableEq, Repr

/-- The commands of the block: one constructor per row of spec/opcode_table.json, in its order. A host access, a message of
the standard press program, an engine instruction with the engine that executes it, or an event of a unit or a partner. -/
inductive Instr
  /-- REGISTER_WRITE (R8): A write to a register field that has no row of its own takes effect by its access code (RW, W1C, W1S, WO). -/
  | registerWrite (by_ : Accessor) (off : BitVec 21) (v : Word)
  /-- READ_CLEAR (R8): A read of an RC field returns the value and clears it, while an event at the same instant stays set for the next read. -/
  | readClear (off : BitVec 21)
  /-- LATCHING_READ (R225): A read of a LO half (POSLO, RFNEXTLO, NS and the like) latches the matching HI half for the next read. -/
  | latchingRead (off : BitVec 21)
  /-- BAR0_HOLE_ACCESS (R114): A host BAR0 access to a hole, of the wrong size or misaligned, returns 0 or all ones, or is ignored, and reports ring.bar0_hole or ring.bar0_size. -/
  | bar0HoleAccess (write : Bool) (off : BitVec 21) (size : Nat)
  /-- BAR2_REQUEST (R116): A host BAR2 read or write reaches Tarn or the DRAM aperture, or is refused by range or by a closed window. -/
  | bar2Request (off : BitVec 26) (op : Bar2Op)
  /-- APER_WRITE (R116): A write of RING.APER applies to every BAR2 request received after it. -/
  | aperWrite (v : Word)
  /-- PCIE_RESET (R119): A function level reset, hot reset or link-down resets RING, MSI-X and DEV.NEG and returns the host interface to Negotiate without stopping the line path. -/
  | pcieReset (kind : LinkReset)
  /-- NEG_GO (R118): A write of DEV.NEG.GO checks FEATREQ and IFVER, then either activates the features or refuses them. -/
  | negGo (v : Word)
  /-- QUEUE_PAIR_CONFIG (R123): A write of RING.QCFG.EN starts or stops a queue pair and, when it starts one, resets its heads, tails and phase. -/
  | queuePairConfig (q : Fin 64) (v : Word)
  /-- SQ_TAIL_DOORBELL (R121): A write of an SQ tail doorbell sets the tail and posts the doorbell event, or sets QCFG.ERR for a value out of range. -/
  | sqTailDoorbell (q : Fin 64) (v : Word)
  /-- CQ_HEAD_DOORBELL (R121): A write of a CQ head doorbell frees completion slots, or is ignored when it would pass the tail. -/
  | cqHeadDoorbell (q : Fin 64) (v : Word)
  /-- ENTRY_START (R128): The standard press program starts the oldest pending SQ entry of a queue pair and dispatches it by its opcode. -/
  | entryStart (q : Fin 64) (entry : Option (List Word))
  /-- COMPLETION_POST (R122): A completion is written into a free CQ slot with its phase, and its interrupt is raised; it is held back while the CQ is full. -/
  | completionPost (q : Fin 64) (ok : Bool)
  /-- COALESCE_TIMEOUT (R135): The oldest unconsumed completion has waited TIME µs, so the vector is raised. -/
  | coalesceTimeout (q : Fin 64)
  /-- VECTOR_UNMASK (R135): Unmasking an MSI-X vector whose pending bit is set raises that vector. -/
  | vectorUnmask (v : Fin 128)
  /-- RAISE (R135): A write of RING.RAISE raises one MSI-X vector. -/
  | raise (v : Word)
  /-- DEV_STATUS (R130): Returns DEV.STATE and the live profile version. -/
  | devStatus (tok : Nat)
  /-- FAULT_READ (R430): Writes the held history entries from a given SEQ to host memory, in ascending SEQ. -/
  | faultRead (tok : Nat) (ok : Bool)
  /-- EVENT_ARM (R132): Arms an asynchronous event entry, or completes it at once with an event that is held. -/
  | eventArm (tok : Nat)
  /-- PRF_STAGE (R103): Loads a profile image as the Draft after its staging checks. -/
  | prfStage (tok : Nat) (img : Option ImageData)
  /-- PRF_PROVE (R103): Applies the Draft as the Proving profile through one profile group. -/
  | prfProve (tok : Nat)
  /-- PRF_PROMOTE (R103): Makes Proving the Standing profile and rewrites the boot flash slots. -/
  | prfPromote (tok : Nat)
  /-- PRF_ABANDON (R103): Applies the Standing profile again and returns Proving to Draft. -/
  | prfAbandon (tok : Nat)
  /-- PRF_ROLLBACK (R106): Applies the Previous profile as the new Standing profile. -/
  | prfRollback (tok : Nat)
  /-- PRF_STARTER (R103): Applies the Starter profile. -/
  | prfStarter (tok : Nat)
  /-- PRF_STATUS (R103): Writes the five profile versions and the pending profile group's state. -/
  | prfStatus (tok : Nat) (ok : Bool)
  /-- JOB_OPEN (R130): Creates a job with its panel count, gap, resolution and start column, and recomputes the leads. -/
  | jobOpen (tok : Nat)
  /-- PANEL_DEFINE (R139): Records one panel of the open job after checking its form and sizes. -/
  | panelDefine (tok : Nat)
  /-- INGEST (R146): Reads raw, pre-compressed or secure lines of a panel from the host into the DRAM store. -/
  | ingest (tok : Nat) (data : Option (List Byte))
  /-- JOB_CLOSE (R130): Closes the definition of the job once every panel is defined. -/
  | jobClose (tok : Nat)
  /-- JOB_CANCEL (R130): Stops all bars and aborts every outstanding INGEST and PRINT message of the job. -/
  | jobCancel (tok : Nat)
  /-- PRINT_START (R130): Resolves and commits the job start line on every bar and issues START to each fire scheduler. -/
  | printStart (tok : Nat)
  /-- PRINT_PAUSE (R130): Issues STOP at a line that meets the lead on every bar, and enters Paused when the last bar stops. -/
  | printPause (tok : Nat)
  /-- PRINT_RESUME (R130): Resolves and commits a resume line on every bar and restarts the fire schedulers. -/
  | printResume (tok : Nat)
  /-- PRINT_STOP (R130): Stops all bars, drains the job and returns the device to Ready. -/
  | printStop (tok : Nat)
  /-- MEAS_READ_RAILS (R466): MEAS_READ kind 0 writes the supply rail record and restarts the least and greatest values. -/
  | measReadRails (tok : Nat) (ok : Bool)
  /-- MEAS_READ_TEMPERATURES (R466): MEAS_READ kind 1 writes the die temperature record. -/
  | measReadTemperatures (tok : Nat) (ok : Bool)
  /-- MEAS_READ_TELEMETRY (R322): MEAS_READ kind 2 writes the last telemetry of every segment. -/
  | measReadTelemetry (tok : Nat) (ok : Bool)
  /-- MEAS_READ_CABLES (R281): MEAS_READ kind 3 writes the cable measurement record of every port. -/
  | measReadCables (tok : Nat) (ok : Bool)
  /-- MEAS_READ_SLACK (R47): MEAS_READ kind 4 writes the slack gauge record captured at one instant. -/
  | measReadSlack (tok : Nat) (ok : Bool)
  /-- MEAS_READ_ENCODERS (R234): MEAS_READ kind 5 writes the encoder position, speed and bar position record. -/
  | measReadEncoders (tok : Nat) (ok : Bool)
  /-- MEAS_READ_DRAM (R350): MEAS_READ kind 6 writes the DRAM population record. -/
  | measReadDram (tok : Nat) (ok : Bool)
  /-- MEAS_READ_CAPABILITIES (R322): MEAS_READ kind 7 writes the bar node and segment capability descriptors. -/
  | measReadCapabilities (tok : Nat) (ok : Bool)
  /-- MEAS_READ_CAMERAS (R388): MEAS_READ kind 8 writes the camera presence and format record. -/
  | measReadCameras (tok : Nat) (ok : Bool)
  /-- MEAS_LOAD (R460): Sends LOADREQ to one segment to start a test-pulse load measurement. -/
  | measLoad (tok : Nat)
  /-- ALU (R56): Performs an integer operation of two registers chosen by FN. -/
  | alu (e : Eng) (w : FmtA)
  /-- CMP (R56): Compares two registers into a predicate. -/
  | cmp (e : Eng) (w : FmtA)
  /-- PLOG (R56): Combines two predicates into a third. -/
  | plog (e : Eng) (w : FmtA)
  /-- MUL (R56): Multiplies two registers, keeping the low or high 64 bits. -/
  | mul (e : Eng) (w : FmtA)
  /-- DIV (R56): Divides two registers, or traps DIVZERO. -/
  | div (e : Eng) (w : FmtA)
  /-- SEL (R56): Selects one of two registers by a predicate. -/
  | sel (e : Eng) (w : FmtA)
  /-- MOVI (R57): Loads or inserts a 16-bit constant into a register. -/
  | movi (e : Eng) (w : FmtI)
  /-- ADDI (R57): Adds a sign-extended immediate to a register. -/
  | addi (e : Eng) (w : FmtI)
  /-- ANDI (R57): ANDs a shifted immediate into a register. -/
  | andi (e : Eng) (w : FmtI)
  /-- ORI (R57): ORs a shifted immediate into a register. -/
  | ori (e : Eng) (w : FmtI)
  /-- XORI (R57): XORs a shifted immediate into a register. -/
  | xori (e : Eng) (w : FmtI)
  /-- SHI (R57): Shifts or rotates a register by an immediate. -/
  | shi (e : Eng) (w : FmtI)
  /-- CMPEQI (R57): Compares a register with an immediate for equality into a predicate. -/
  | cmpeqi (e : Eng) (w : FmtI)
  /-- CMPLTI (R57): Compares a register with an immediate, signed, into a predicate. -/
  | cmplti (e : Eng) (w : FmtI)
  /-- CMPLTUI (R57): Compares a register with an immediate, unsigned, into a predicate. -/
  | cmpltui (e : Eng) (w : FmtI)
  /-- MOVX (R57): Loads a 32-bit immediate into a register. -/
  | movx (e : Eng) (w : FmtX)
  /-- ADDX (R57): Adds a sign-extended 32-bit immediate to a register. -/
  | addx (e : Eng) (w : FmtX)
  /-- LD (R58): Loads 1 to 8 bytes from local, Tarn or io space, or traps. -/
  | ld (e : Eng) (w : FmtM)
  /-- ST (R58): Stores 1 to 8 bytes to local, Tarn or io space, or traps. -/
  | st (e : Eng) (w : FmtM)
  /-- LDX (R58): Loads with a 32-bit offset. -/
  | ldx (e : Eng) (w : FmtX)
  /-- STX (R58): Stores with a 32-bit offset. -/
  | stx (e : Eng) (w : FmtX)
  /-- ATOM (R60): Performs an indivisible compare-and-swap, fetch-and-add or swap on a Tarn word. -/
  | atom (e : Eng) (w : FmtA)
  /-- FENCE (R60): Waits until every earlier access of the engine is complete and visible. -/
  | fence (e : Eng) (w : FmtA)
  /-- BR (R61): Branches by a displacement, optionally linking. -/
  | br (e : Eng) (w : FmtB)
  /-- JMPR (R61): Jumps to a register target, optionally linking. -/
  | jmpr (e : Eng) (w : FmtA)
  /-- TRAP (R61): Takes a software trap SWTRAP. -/
  | trap (e : Eng) (w : FmtA)
  /-- RETT (R61): Returns from a trap handler. -/
  | rett (e : Eng) (w : FmtA)
  /-- HALT (R61): Puts the engine in state Halted, keeping its claim and role. -/
  | halt (e : Eng) (w : FmtA)
  /-- NOP (R61): Does nothing for one step. -/
  | nop (e : Eng) (w : FmtA)
  /-- MFS (R51): Reads a special register, removing a DMA completion entry when it reads s.dmacq. -/
  | mfs (e : Eng) (w : FmtS)
  /-- MTS (R51): Writes a special register. -/
  | mts (e : Eng) (w : FmtS)
  /-- SELFT (R75): Runs the engine's built-in logic self-test. -/
  | selft (e : Eng) (w : FmtA) (mismatch : DWord)
  /-- WAIT (R62): Sleeps on masked event inputs with an optional timeout, or returns at once when the condition already holds. -/
  | wait (e : Eng) (w : FmtA)
  /-- WAIT_WAKE (R62): A sleeping WAIT finds its ANY or ALL condition true and consumes the counts. -/
  | waitWake (e : Eng)
  /-- WAIT_TIMEOUT (R62): A sleeping WAIT reaches its timeout with the condition false and returns 0. -/
  | waitTimeout (e : Eng)
  /-- EVCNT (R63): Reads the pending count of an event input without consuming it. -/
  | evcnt (e : Eng) (w : FmtA)
  /-- ARMP (R64): Arms or disarms a position compare channel. -/
  | armp (e : Eng) (w : FmtA)
  /-- ARMT (R64): Arms or disarms a time compare channel. -/
  | armt (e : Eng) (w : FmtA)
  /-- DLN (R65): Sets a deadline on gauge 8 to 15, or marks its completion and records the slack. -/
  | dln (e : Eng) (w : FmtA)
  /-- SEND (R66): Delivers a 16-byte message to an engine mailbox, or returns FULL or NOENGINE. -/
  | send (e : Eng) (w : FmtA)
  /-- RECV (R66): Removes the oldest message from the engine's own mailbox. -/
  | recv (e : Eng) (w : FmtA)
  /-- DMA (R67): Issues a DMA descriptor, waiting for a free place when eight are in flight. -/
  | dma (e : Eng) (w : FmtA)
  /-- DESC (R69): Issues a role-gate descriptor with the engine's role, claim and line. -/
  | desc (e : Eng) (w : FmtA)
  /-- GCLM (R69): Reads the recorded claim of a gate. -/
  | gclm (e : Eng) (w : FmtA)
  /-- CGOPEN (R70): Allocates a commit group for the engine's role. -/
  | cgopen (e : Eng) (w : FmtA)
  /-- CGW (R85): Adds a register word write to a group. -/
  | cgw (e : Eng) (w : FmtA)
  /-- CGT (R87): Adds a table-block entry to a group, copying KIND 1 data. -/
  | cgt (e : Eng) (w : FmtA)
  /-- CGC (R90): Commits a group at a boundary, resolving it and checking its lead, conflicts and segment targets. -/
  | cgc (e : Eng) (w : FmtA)
  /-- CGA (R84): Aborts an open or committed group, or releases an applied or aborted one. -/
  | cga (e : Eng) (w : FmtA)
  /-- CGS (R70): Reads a group's status word. -/
  | cgs (e : Eng) (w : FmtA)
  /-- CKPT (R72): Writes a checkpoint of local data into the role's non-current bank. -/
  | ckpt (e : Eng) (w : FmtA)
  /-- RSTR (R73): Restores the current checkpoint of a role, retrying on CRC failure. -/
  | rstr (e : Eng) (w : FmtA)
  /-- CLAIM (R74): Takes a role with a claim built from an epoch and the engine number. -/
  | claim (e : Eng) (w : FmtA)
  /-- YIELD (R74): Gives up the engine's claim and role. -/
  | yield (e : Eng) (w : FmtA)
  /-- ELOAD (R80): Checks a program image and loads it into a target engine, or refuses it with a code. -/
  | eload (e : Eng) (w : FmtA)
  /-- IMAGE_START (R81): An accepted image has been copied, and the target is set up and enters Running. -/
  | imageStart (e : Eng)
  /-- GATE_GRANT (R28): A descriptor granted into a role gate is compared with the recorded claim and accepted or returned STALE or WRONGROLE. -/
  | gateGrant (gate : Fin 34) (e : Eng)
  /-- START (R245): A FIRE gate START sets the next line and credit and arms the bar's fire scheduler. -/
  | fireStart (b : Fin 8)
  /-- STOP (R245): A FIRE gate STOP makes the scheduler commit no line from the given line on. -/
  | fireStop (b : Fin 8)
  /-- UNIT_COMPLETION (R31): A unit finishes a descriptor and posts its completion event once every output is visible. -/
  | unitCompletion (gate : Fin 34)
  /-- UNIT_STALL (R45): A gate has held an accepted descriptor longer than ENG.STALLTO, so the unit is stopped and eng.unit_stall reported. -/
  | unitStall (gate : Fin 34)
  /-- EVROUTE_WRITE (R34): A write of ENG.EVROUTE enables or routes an event input, ignoring SRC while EN stays 1. -/
  | evrouteWrite (e : Eng) (i : Fin 64) (v : Word)
  /-- SWEV_RAISE (R33): A write of ENG.SWEV posts one pulse of each selected software event source. -/
  | swevRaise (v : Word)
  /-- GAUGE_CLRMIN (R48): A write of ENG.GAUGE.CLRMIN resets SLACKMIN. -/
  | gaugeClrmin (g : Fin 16) (v : Word)
  /-- LINE_COMPLETE (R41): The last word of a line reaches every port FIFO of the bar, and its slack is recorded in the gauge. -/
  | lineComplete (b : Fin 8) (line : DWord)
  /-- DEADLINE_MISS (R42): A deadline passes with its line not complete, so MISSCNT counts it, eng.deadline_miss is reported and the miss flag is marked. -/
  | deadlineMiss (g : Fin 16) (line : DWord)
  /-- PACE_UPDATE (R26): Each 1 µs of TB0 stores the replica ring count in ENG.PACE.COUNT and checks it against MIN. -/
  | paceUpdate (count : BitVec 16)
  /-- AVS_ENABLE (R46): Setting ENG.AVSCTL.EN reads the regulator voltage and writes it as the first request. -/
  | avsEnable (v : Word) (regulator : Option Nat)
  /-- AVS_EVALUATION (R44): Each PERIOD the voltage loop raises, lowers or keeps the core voltage request from the least slack. -/
  | avsEvaluation
  /-- AVS_TRANSACTION_DONE (R45): An AVSBus transaction ends and is accepted, retried or reported as eng.avs_bus. -/
  | avsTransactionDone (reply : AvsReply)
  /-- AVS_SETTLE_END (R45): The settle time ends, BUSY falls and event 0x162 is posted. -/
  | avsSettleEnd
  /-- AVS_MISMATCH (R45): A Voltage read has differed from the request by more than 20 mV for 1 ms. -/
  | avsMismatch
  /-- AVSLIM_WRITE (R48): A write of ENG.AVSLIM sets the limits, or is ignored and sets LIMERR. -/
  | avslimWrite (v : Word)
  /-- LINE_BOUNDARY (R243): The fire timebase reaches a committed line's instant, so the line boundary event is posted and s.fline advances. -/
  | lineBoundary (b : Fin 8)
  /-- TIME_SWITCH (R90): A time base reaches a TIME group's value, including by a step, and the group's targets switch. -/
  | timeSwitch (g : Fin 64)
  /-- TQUERY (R88): A write of CMT.TQUERY looks up a table id and places its banks in CMT.TANS. -/
  | tquery (v : Word)
  /-- ENCODE_BLOCK (R163): A free encode lane codes a block, verifies it and re-codes it on a mismatch. -/
  | encodeBlock (l : Fin 16) (mismatch : Bool)
  /-- BLOCK_STORE (R143): A coded block is copied into the store ring and its map entry written, waiting while the block does not fit. -/
  | blockStore (tok : Nat)
  /-- STORE_WAIT_TIMEOUT (R143): No store space frees within the time limit, so the INGEST completes with NOSPACE. -/
  | storeWaitTimeout (tok : Nat)
  /-- PRECOMPRESSED_BLOCK (R147): A pre-compressed block of an INGEST buffer is checked and stored, or refused. -/
  | precompressedBlock (tok : Nat)
  /-- GCM_TAG_CHECK (R149): A secure envelope's tag is checked after decryption, and its blocks are mapped or freed. -/
  | gcmTagCheck (tok : Nat)
  /-- SPILLWAY_RETURN (R170): A Spillway buffer returns to the pool and the lowest waiting lane resumes. -/
  | spillwayReturn (l : Fin 16)
  /-- SPILL_TIMEOUT (R170): Every lane with a block has been out of space for OOSTO, so one block is abandoned. -/
  | spillTimeout
  /-- DECODE_ROW_SET (R178): A free decode lane takes the lowest ready row set and decodes it, stopping on a decoder error. -/
  | decodeRowSet (b : Fin 8)
  /-- PANIC_LONG (R182): A bar's panic has lasted longer than IBF.LTOL. -/
  | panicLong (b : Fin 8)
  /-- BAR_LINE (R196): A bar pipeline separates, screens and duty-limits one printed line into the port line FIFOs. -/
  | barLine (b : Fin 8)
  /-- BAND_START (R215): A write of SCN.BAND.GO starts a check band at the next line, or is ignored during a band. -/
  | bandStart (b : Fin 8) (v : Word)
  /-- MAPBASE_WRITE (R202): A write of SCN.MAPBASE moves the nozzle map, or is ignored when it would pass the end of Tarn. -/
  | mapbaseWrite (v : Word)
  /-- ENCODER_EDGE (R222): A filtered encoder line changes, so the position is counted and speed and stretch are updated. -/
  | encoderEdge (k : Fin 2) (a b : Bool)
  /-- SIGNAL_LOSS (R222): An encoder pair has stayed below the fail-safe threshold for 1 µs. -/
  | signalLoss (k : Fin 2)
  /-- INDEX_EDGE (R223): A rising Z edge latches the position and checks counts per index. -/
  | indexEdge (k : Fin 2)
  /-- SPEED_WINDOW_END (R227): A speed window ends, giving the COUNT speed and switching between modes. -/
  | speedWindowEnd (k : Fin 2)
  /-- STANDSTILL (R229): No counted edge for ENC.STILL, so the speed becomes zero and unknown. -/
  | standstill (k : Fin 2)
  /-- POSITION_COMPARE_PULSE (R226): A position compare channel reaches its target, pulses and disarms. -/
  | positionComparePulse (k : Fin 32)
  /-- FIRE_EVALUATION (R240): Each 32 LTU a bar's scheduler evaluates the next lines and commits those within the horizon. -/
  | fireEvaluation (b : Fin 8)
  /-- TELEMETRY_STALE (R252): A segment has sent no telemetry for TELSTALE intervals and is treated as above the soft limit. -/
  | telemetryStale (sg : Fin 2048)
  /-- PORT_ENABLE (R265): Setting HLP.CTL.EN starts link-up of a port, or test mode. -/
  | portEnable (p : Fin 16) (v : Word)
  /-- PORT_DISABLE (R268): Clearing HLP.CTL.EN stops every lane and the clock of a port at once. -/
  | portDisable (p : Fin 16) (v : Word)
  /-- UPSTREAM_TRAINING_FRAME (R264): A training frame from the bar node advances link-up through lock, deskew, equalisation and echo measurement. -/
  | upstreamTrainingFrame (p : Fin 16) (f : TrainFrame)
  /-- LINKUP_TIMEOUT (R268): A link-up attempt exceeds LUTO, so the clock stops and the attempt is counted. -/
  | linkupTimeout (p : Fin 16)
  /-- LINKUP_RESTART (R268): The 100 µs pause after a failed attempt or a port down ends and a new link-up starts. -/
  | linkupRestart (p : Fin 16)
  /-- SLIP (R267): A write of HLP.SLIP moves the upstream word boundary or one lane's delay in manual mode. -/
  | slip (p : Fin 16) (v : Word)
  /-- FFE_WRITE (R269): A write of HLP.FFE sets equaliser taps, or is refused when C0 would fall below 32. -/
  | ffeWrite (p : Fin 16) (l : Fin 2) (v : Word)
  /-- RECALIBRATE (R273): A write of HLP.CAL.GO recalibrates one lane while its partner carries the port. -/
  | recalibrate (p : Fin 16) (v : Word)
  /-- PATTERN_INJECT (R277): A write of PGEN.INJ inverts one bit of the next PRBS symbol. -/
  | patternInject (p : Fin 16) (v : Word)
  /-- FRAME_INJECT (R279): A write of HLP.INJ.GO inverts NBITS bits of the next mission frame on a lane. -/
  | frameInject (p : Fin 16) (v : Word)
  /-- DOWNSTREAM_FRAME (R292): At each frame slot the device fills a downstream frame with messages by priority and sends it. -/
  | downstreamFrame (p : Fin 16)
  /-- UPSTREAM_FRAME (R290): An upstream mission frame is checked by its CRC and its messages are taken, or it is discarded. -/
  | upstreamFrame (p : Fin 16) (frame : List Word)
  /-- ACK (R305): An acknowledgement ends a control message exchange. -/
  | ackMsg (p : Fin 16) (m : List Word)
  /-- BNCAP (R310): A bar node descriptor sets PDLY from its FAN, or fails the port. -/
  | bncap (p : Fin 16) (m : List Word)
  /-- CAP (R316): A segment descriptor moves the segment to Standby or Refused. -/
  | cap (p : Fin 16) (m : List Word)
  /-- SLOTINFO (R312): A segment declares a waveform slot's validity, depth, rate and lead. -/
  | slotinfo (p : Fin 16) (m : List Word)
  /-- STAGED (R308): A segment reports that it holds a staged block, or cannot stage it. -/
  | staged (p : Fin 16) (m : List Word)
  /-- APPLIED (R308): A segment reports that it applied a group at line n. -/
  | applied (p : Fin 16) (m : List Word)
  /-- TELEM (R251): Segment telemetry updates TEMP, the pulse-width trim and the temperature limits. -/
  | telem (p : Fin 16) (m : List Word)
  /-- EVENT (R314): A segment event such as HOT, DATA_MISSING or RESTART is handled. -/
  | segEvent (p : Fin 16) (m : List Word)
  /-- LOADRES (R462): A load measurement result is copied into SENS.LRES and completes MEAS_LOAD. -/
  | loadres (p : Fin 16) (m : List Word)
  /-- BNSTAT (R288): A bar node status updates presence and lane state, and may fail a lane or take the port down. -/
  | bnstat (p : Fin 16) (m : List Word)
  /-- FLOSS (R302): A report of an uncorrectable frame makes the device resend its line messages when it still holds the frame. -/
  | floss (p : Fin 16) (m : List Word)
  /-- ACK_TIMEOUT (R305): A control message goes unanswered for ACKTO and is resent or given up. -/
  | ackTimeout (p : Fin 16) (tok : BitVec 12)
  /-- STAGE_TIMEOUT (R308): No STAGED arrives within ACKTO, so the block is resent to the segments that have not answered. -/
  | stageTimeout (g : Fin 64) (k : Nat)
  /-- APPLIED_TIMEOUT (R308): No APPLIED arrives after line n, so the segment is quieted and removed from SEGEN. -/
  | appliedTimeout (g : Fin 64) (sg : Fin 2048)
  /-- PING_PERIOD (R315): The PING period ends and a PING is sent to each Standby or Active segment. -/
  | pingPeriod (p : Fin 16)
  /-- SEGEN_WRITE (R317): A software write of HLK.SEGEN sets the printing segments, or is ignored while printing. -/
  | segenWrite (p : Fin 16) (w : Fin 4) (v : Word)
  /-- DRAM_REQUEST (R333): A port's DRAM request is accepted into a channel, or waits for a place. -/
  | dramRequest (port : DramPort) (req : DramOp)
  /-- DRAM_COMMAND_SLOT (R334): At each command slot the channel issues the first request by its scheduling rules. -/
  | dramCommandSlot (c : Fin 4)
  /-- BURST_DECODE (R346): A read burst is decoded by the symbol code, corrected or declared uncorrectable. -/
  | burstDecode (c : Fin 4) (err : List (Fin 16 × Fin 10 × BitVec 4))
  /-- REFRESH_INTERVAL (R337): A Class S tREFI ends and REFab is issued, postponed or pulled in. -/
  | refreshInterval (c : Fin 4) (rank : Fin 2)
  /-- REFRESH_WINDOW (R339): A Class L refresh window starts on every enabled channel. -/
  | refreshWindow
  /-- MR4_POLL (R340): Each TPOLL the device reads MR4 of every rank and doubles or restores the refresh rate. -/
  | mr4Poll (codes : List Mr4)
  /-- SELF_REFRESH_ENTRY (R338): An idle Class S channel enters self-refresh after SRIDLE. -/
  | selfRefreshEntry (c : Fin 4)
  /-- TSET_WRITE (R342): A write of TSET.SPEED clears VALID and starts the derivation of the timing set. -/
  | tsetWrite (k : Fin 2) (v : Word)
  /-- TIMING_DERIVED (R342): A timing set has been derived and VALID is set. -/
  | timingDerived (k : Fin 2) (cl : BitVec 8)
  /-- FREQUENCY_CHANGE (R343): A write of DMC.FCHG.GO starts a change to another timing set, or is refused. -/
  | frequencyChange (v : Word)
  /-- FREQUENCY_CHANGE_DONE (R343): The change completes and requests resume on the new set, or it fails and returns to the old one. -/
  | frequencyChangeDone (ok : Bool)
  /-- PATROL_SCRUB (R347): The patrol scrub reads the next DRAM line and writes it back corrected. -/
  | patrolScrub
  /-- ECC_INJECT (R347): A write of DMC.INJ.GO arms a symbol injection into the next full-line write. -/
  | eccInject (c : Fin 4) (v : Word)
  /-- DQS_OSCILLATOR_RUN (R349): Each RCAL.PERIOD the controller reads the DQS oscillator and shifts the write delay. -/
  | dqsOscillatorRun (c : Fin 4) (drift : Nat)
  /-- DRAM_TRAINING (R348): A DRAM channel finishes training at Boot, or fails. -/
  | dramTraining (c : Fin 4) (ok : Bool)
  /-- TARN_ACCESS (R355): A granted Tarn or local store access reads with correction or writes with check bits. -/
  | tarnAccess (m : Fin 50) (off : Nat) (req : TarnReq) (op : TarnOp)
  /-- TARN_INIT (R358): A write of TARN.INIT.GO starts clearing the valid bits of a range, or is refused. -/
  | tarnInit (v : Word)
  /-- TARN_INIT_DONE (R358): A valid-bit clear reaches the end of its range and BUSY falls. -/
  | tarnInitDone
  /-- TARN_SCRUB (R362): The scrub reads a valid line, corrects it and detects hard errors. -/
  | tarnScrub (hard : Bool)
  /-- REMAP_WRITE (R363): A write of TARN.RMAP copies a line into or out of a spare line. -/
  | remapWrite (m : Fin 50) (k : Fin 16) (v : Word)
  /-- DMAHALT_WRITE (R361): Writing 1 to a TARN.DMAHALT bit resumes a halted DMA channel. -/
  | dmahaltWrite (v : Word)
  /-- DMA_COMPLETION (R67): A DMA transfer ends, its completion entry is queued and its event posted. -/
  | dmaCompletion (e : Eng) (k : Fin 8)
  /-- CHECKER_TEST_WRITE (R365): A write of TARN.TCTL turns masked writes or raw reads on or off, except while printing. -/
  | checkerTestWrite (m : Fin 50) (v : Word)
  /-- CAMERA_ENABLE (R371): Setting CAM.PCTL.EN enables a camera port, or is refused on a bank voltage mismatch. -/
  | cameraEnable (k : Fin 2) (v : Word) (io : Bool)
  /-- FRAME_START (R372): An active FVAL edge begins a camera frame. -/
  | frameStart (k : Fin 2)
  /-- CAMERA_LINE (R372): A camera line is received, stamped and fixed to W pixels, or dropped. -/
  | cameraLine (k : Fin 2) (ds : List (BitVec 16))
  /-- FRAME_END (R372): FVAL ends and the frame is completed, padded or cut to H lines. -/
  | frameEnd (k : Fin 2)
  /-- PIPELINE_LINE (R375): The camera pipeline takes a whole line, filters it and feeds the streams and measurement units. -/
  | pipelineLine
  /-- CAMERA_ABSENT (R371): An enabled camera's pixel clock has been absent for 1 ms. -/
  | cameraAbsent (k : Fin 2)
  /-- CAMERA_CLOCK_TIMEOUT (R415): A pixel clock stops within a frame for CAMTO, so the frame ends short. -/
  | cameraClockTimeout (k : Fin 2)
  /-- TRIGGER_PULSE (R374): The position reaches a trigger target and CP_TRIG pulses. -/
  | triggerPulse (k : Fin 2)
  /-- STROBE (R374): The strobe delay after a trigger ends and CP_STRB begins. -/
  | strobe (k : Fin 2)
  /-- ARM (R379): A CAM gate ARM starts position triggers from s0. -/
  | arm
  /-- DISARM (R379): A CAM gate DISARM ends the trigger pulses. -/
  | disarm
  /-- PATCH (R381): A CAM gate PATCH measures the patch strip over one strip period. -/
  | patch
  /-- BAND (R382): A CAM gate BAND measures the density and offset of every nozzle of a check band. -/
  | band
  /-- TIME_STEP (R393): A write of TBCTL.STEPGO steps a time base once at the next tick, or is refused. -/
  | timeStep (k : Fin 4) (v : Word)
  /-- TIME_BASE_RESET (R393): A write of TBCTL.RST resets a time base, or is refused. -/
  | timeBaseReset (k : Fin 4) (v : Word)
  /-- RATE_WRITE (R392): A write of TIME.RATE sets the rate, clamped at 500 ppm. -/
  | rateWrite (k : Fin 4) (v : Word)
  /-- SNAPSHOT (R395): A write of TIME.SNAP.GO captures every time base, C and the position at one tick. -/
  | snapshot (v : Word)
  /-- TIME_COMPARE_PULSE (R395): A time compare channel reaches its target, pulses and disarms. -/
  | timeComparePulse (k : Fin 32)
  /-- FRAME_TRANSMIT (R399): An eligible transmit head descriptor is sent, timestamped and written back, or handled as late. -/
  | frameTransmit (j : Fin 2)
  /-- FRAME_RECEIVE (R401): An accepted Ethernet frame is timestamped and written into the receive ring. -/
  | frameReceive (j : Fin 2) (frame : List Byte) (fcsOk : Bool)
  /-- ETH_LINK_LOSS (R396): An Ethernet link is lost and eth.link_down is reported. -/
  | ethLinkLoss (j : Fin 2)
  /-- REFERENCE_WINDOW (R406): Each 10 µs window the reference cycle count is checked, and a loss halts the device. -/
  | referenceWindow (count : Nat)
  /-- PLL_UNLOCK (R406): A PLL loses lock, so its islands are treated as stopped and the device halts. -/
  | pllUnlock (p : Fin 4)
  /-- CROSSING_STOP (R414): A crossing request is unacknowledged for XTO, so the crossing is stopped. -/
  | crossingStop (i : Fin 29) (crossing : BitVec 20)
  /-- ONESIDED_DETECT (R411): A crossing end receives a foreign generation and both ends are held. -/
  | onesidedDetect (i : Fin 29) (core : Bool) (crossing : BitVec 20)
  /-- ISLAND_RESET (R412): A write of XING.IRST.GO resets an island and its crossing ends, or is refused. -/
  | islandReset (v : Word)
  /-- OSC_TRIM_UPDATE (R416): Each millisecond the OSC-I trim code is set from the sensor and OTRIM. -/
  | oscTrimUpdate
  /-- OSC_MEASURE (R416): Each 10 ms OSC-I is counted against PB, setting CORR or reporting drift. -/
  | oscMeasure (count : Nat)
  /-- FAULT_REPORT (R424): The hub acknowledges a reporting pair, records the report and starts the reaction of its class. -/
  | faultReport (code : BitVec 16)
  /-- BROKEN_PAIR (R421): A reporting pair stays broken longer than SKEW and is set aside. -/
  | brokenPair (code : BitVec 16) (ns : Nat)
  /-- LEVEL_SOURCE_IDLE (R429): A level source's condition ends, setting TRANS when its latch is still set. -/
  | levelSourceIdle (code : BitVec 16)
  /-- RAIL_WALK (R422): The hub pulses the test input of the next source in the rail walk. -/
  | railWalk (answers : Bool)
  /-- RAIL_TEST_TIMEOUT (R422): A tested source does not report within 2 µs and flt.rail_test is reported. -/
  | railTestTimeout
  /-- INJECT (R432): A write of FLT.INJ.GO forces one report from a source, or is refused. -/
  | injectFault (v : Word)
  /-- CLRALL (R433): A write of FLT.CLRALL.GO clears every LATCH and TRANS. -/
  | clrall (v : Word)
  /-- FIRST_FAULT_CLEAR (R428): Writing 1 to FLT.FFCODE.VALID clears the first-fault record. -/
  | firstFaultClear (v : Word)
  /-- CLASS_WRITE (R423): A write of a CCFG class setting is clamped to its range and ignored for SEC codes in Certified. -/
  | classWrite (code : BitVec 16) (v : Word)
  /-- BEAT (R439): A write of SPR.BEAT by a role holder restarts its heartbeat interval. -/
  | beat (by_ : Accessor)
  /-- GIVEUP (R439): A write of SPR.GIVEUP marks the engine failed and triggers a cold takeover when it holds a role. -/
  | giveup (by_ : Accessor)
  /-- ASSERT (R436): A write of SPR.ASSERT raises the role record, halting a missed holder in a warm pair. -/
  | assertClaim (by_ : Accessor) (v : Word)
  /-- HEARTBEAT_TIMEOUT (R439): A role holder writes no BEAT for HBTO, so a takeover or a standby message follows. -/
  | heartbeatTimeout (r : Fin 16) (standby : Bool)
  /-- COLD_TAKEOVER (R441): The sequencer halts the old holder, chooses a spare and loads the role's image into it. -/
  | coldTakeover (r : Fin 16)
  /-- ADC_CONVERSION (R451): The ADC converts the next channel and averages and checks the rail limits. -/
  | adcConversion (raw : BitVec 12)
  /-- ADC_SELF_CALIBRATION (R451): Each ACALMS the ADC converts its references and updates its calibration. -/
  | adcSelfCalibration (rl rh : BitVec 12)
  /-- TEMP_CONVERSION (R455): Each 100 µs the die sensors convert, are cross-checked, and TJMAX is compared with the limits. -/
  | tempConversion (rs : List (BitVec 16))
  /-- SHUTDOWN_RECORD (R459): The OTP shutdown record is written from the VAUX domain. -/
  | shutdownRecord
  /-- CALIBRATION_PASS (R465): Each millisecond the scheduler starts the due calibration units. -/
  | calibrationPass (rl rh : BitVec 12)
  /-- VERIFY (R477): Checks a signed wrapper and records its payload as a verified region. -/
  | verify (v : Word)
  /-- RELEASE (R480): Frees a verified region. -/
  | release (v : Word)
  /-- LICENCE (R483): Unwraps a licence into a key store slot. -/
  | licence (v : Word)
  /-- KEYDROP (R483): Frees a key store slot. -/
  | keydrop (v : Word)
  /-- LCS_ADVANCE (R471): Moves the lifecycle state with a signed token. -/
  | lcsAdvance (v : Word)
  /-- KEYREG (R474): Registers an integrator slot's key hash in Provisioned. -/
  | keyreg (v : Word)
  /-- REVOKE (R474): Revokes an integrator signing slot. -/
  | revoke (v : Word)
  /-- AUDIT_READ (R480): Copies audit entries from a given SEQ to Tarn. -/
  | auditRead (v : Word)
  /-- AUDIT_SEAL (R487): Writes a signed seal over the audit chain. -/
  | auditSeal (v : Word)
  /-- METER_READ (R480): Copies the 64 meter records to Tarn. -/
  | meterRead (v : Word)
  /-- DBG_UNLOCK (R489): Unlocks the debug access port with a signed token, zeroising the key store. -/
  | dbgUnlock (v : Word)
  /-- SECURITY_COMMAND_DONE (R480): A security command ends, BUSY clears and CMDSTAT is written. -/
  | securityCommandDone
  /-- AUDIT_ACK (R487): A write of SEC.AUDACK lets the audit ring overwrite entries up to a seal. -/
  | auditAck (v : Word)
  /-- GLITCH (R488): A supply or clock glitch ends the security operation in progress and may tamper the key store. -/
  | glitch
  /-- TAMPER (R488): A mesh or temperature tamper zeroises the key store. -/
  | tamper (temperature : Bool)
  /-- JTAG_INSTRUCTION (R489): A TAP instruction is accepted only as the lifecycle state permits. -/
  | jtagInstruction (t : TapInstr)
  /-- POWER_ON_RESET (R498): PORST_N low or a supply detector resets everything outside the VAUX domain. -/
  | powerOnReset (t : ResetTrigger)
  /-- BOOT_START (R503): PORST_N rises, and the valid bits are cleared, OTP loaded, straps latched and Boot begun. -/
  | bootStart (info : BootInfo)
  /-- BOOT_COMPLETE (R503): Boot ends with DEV.STATE Negotiate and SYS.BOOTT recorded. -/
  | bootComplete (standing previous : Bool)
  /-- VCORE_REMOVAL (R497): VCORE has stayed below 0.30 V for 10 ms, which ends Grave. -/
  | vcoreRemoval
  /-- SOFTWARE_RESET (R499): A write of SYS.RST.GO with the key resets the device or delays the reset. -/
  | softwareReset (v : Word) (flash : Bool)
  /-- DEFERRED_RESET (R499): The work that delayed a software reset ends, and the reset takes place. -/
  | deferredReset
  /-- JTAG_RESET (R498): TRST_N low resets the TAP controller only. -/
  | jtagReset
  /-- STANDBY_ENTRY (R506): Setting SYS.PMODE.STBY stops the ports, cameras and DRAM and lowers VCORE, or is refused. -/
  | standbyEntry (v : Word)
  /-- STANDBY_EXIT (R506): Clearing SYS.PMODE.STBY restores DRAM, relinks the ports and admits the segments. -/
  | standbyExit (v : Word)
  /-- WATCHDOG_EXPIRY (R514): No write of SYS.WDOG for MS ms reports sys.watchdog. -/
  | watchdogExpiry
  /-- BUS_TRANSACTION (R514): A write of SYS.BUSCMD.GO starts an I²C, I3C, PMBus or AVSBus transaction, or is refused. -/
  | busTransaction (v : Word)
  /-- BUS_TRANSACTION_DONE (R514): A management bus transaction ends, filling BUSDATA or setting ERR. -/
  | busTransactionDone (ok : Bool) (data : Word)
  /-- ENCODER_SIGNAL_RETURN (R222): The differential voltage of an encoder pair rises above the fail-safe threshold again, STAT.LOS clears and the enc.signal_loss level source returns to idle. -/
  | encoderSignalReturn (k : Fin 2)
  /-- ETH_LINK_UP (R396): An Ethernet port regains PCS block lock, ESTAT.LINK becomes 1, waiting heads resume and the eth.link_down level condition ends. -/
  | ethLinkUp (j : Fin 2)
  /-- CAMERA_CLOCK_PRESENT (R371): A camera's pixel clock starts again, PSTAT.PRESENT rises, re-arming the cam.absent report and ending its level condition. -/
  | cameraClockPresent (k : Fin 2) (khz : Word)
  /-- PLL_LOCK (R517): An enabled PLL regains lock, so that every enabled PLL is locked and the xing.pll_unlock level condition ends. -/
  | pllLock (p : Fin 4)
  /-- CROSSING_RESUME (R414): The clock of a stopped island runs again and a transfer completes, so the crossing leaves the stopped state. -/
  | crossingResume (i : Fin 29)
  /-- VAUX_LOSS (R475): VAUX is lost, zeroising the key store, meter, FLT.GRAVE and the other VAUX-held state, to be noted as VAUXLOST at the next Boot. -/
  | vauxLoss
  deriving DecidableEq, Repr

end Sys2Proof
end

