-- ==== Sys2Proof/Config.lean ====
section
/-! DEFINITION. What the spec leaves open and one machine fixes: free values as constants without a body. Nothing can
evaluate them, so a statement about one holds for every value. Each is named in a row of notes/assumptions. -/

namespace Sys2Proof

/-- A free 32-bit value, from the counter `State.freeCtr` at the step that draws it (log entry 3). -/
opaque freeWord : Nat → BitVec 32

end Sys2Proof
end

