-- ==== Sys2Proof/Machine/Tab.lean ====
section
/-! DEFINITION. Sparse tables as plain data: a list of (key, value) pairs with strictly rising keys that lists no entry
equal to what an unlisted key reads as. Every bank of registers, every memory and every array of units of the machine is
held in one. -/

namespace Sys2Proof.Machine

/-- A sparse table from natural-number keys. What an unlisted key reads as is given by the reader. -/
abbrev Tab (α : Type) := List (Nat × α)

/-- The value at key `n`: the listed one, else the default `d n`. -/
def Tab.get {α : Type} (d : Nat → α) : Tab α → Nat → α
  | [], n => d n
  | (k, v) :: t, n => if n < k then d n else if n = k then v else Tab.get d t n

/-- The entries whose key is above `n`. -/
def Tab.above {α : Type} (n : Nat) : Tab α → Tab α
  | [] => []
  | (k, v) :: t => if n < k then (k, v) :: t else Tab.above n t

/-- The table with `v` at key `n`, in canonical form: an entry equal to the default is not listed. -/
def Tab.put {α : Type} [DecidableEq α] (d : Nat → α) : Tab α → Nat → α → Tab α
  | [], n, v => if v = d n then [] else [(n, v)]
  | (k, w) :: t, n, v =>
    if n < k then (if v = d n then (k, w) :: t else (n, v) :: (k, w) :: t)
    else if n = k then (if v = d n then Tab.above n t else (n, v) :: Tab.above n t)
    else (k, w) :: Tab.put d t n v

/-- The canonical form: keys strictly rising from `lo` on, no entry equal to its default. -/
def Tab.wfFrom {α : Type} [DecidableEq α] (d : Nat → α) : Nat → Tab α → Bool
  | _, [] => true
  | lo, (k, v) :: t => decide (lo ≤ k) && decide (v ≠ d k) && Tab.wfFrom d (k + 1) t

/-- The canonical form of a whole table. -/
def Tab.wf {α : Type} [DecidableEq α] (d : Nat → α) (t : Tab α) : Bool := Tab.wfFrom d 0 t

/-- The table with every entry whose key passes `p` dropped (it reads as the default). -/
def Tab.drop {α : Type} (p : Nat → Bool) (t : Tab α) : Tab α := t.filter (fun e => !p e.1)

/-- The table with `f` applied to every listed entry, in canonical form. -/
def Tab.mapE {α : Type} [DecidableEq α] (d : Nat → α) (f : Nat → α → α) (t : Tab α) : Tab α :=
  (t.map (fun e => (e.1, f e.1 e.2))).filter (fun e => decide (e.2 ≠ d e.1))

end Sys2Proof.Machine
end

