-- ==== Sys2Proof/Machine/Crc.lean ====
section
/-! DEFINITION. CRC-32C (R72, R166, R290): reflected, initial value and final XOR 0xFFFF_FFFF. -/

namespace Sys2Proof.Machine

/-- `k` shifts of the reflected CRC-32C register. -/
def crcShift : Nat → Nat → Nat
  | 0, r => r
  | k + 1, r => crcShift k (if r % 2 = 1 then Nat.xor (r / 2) 0x82F63B78 else r / 2)

/-- The register after some bytes. -/
def crcBytes : List (BitVec 8) → Nat → Nat
  | [], r => r
  | b :: t, r => crcBytes t (crcShift 8 (Nat.xor r b.toNat))

/-- CRC-32C of some bytes. -/
def crc32c (bs : List (BitVec 8)) : BitVec 32 := BitVec.ofNat 32 (Nat.xor (crcBytes bs 0xFFFFFFFF) 0xFFFFFFFF)

end Sys2Proof.Machine
end

