-- ==== Sys2Proof/Machine/Codec.lean ====
section
/-! DEFINITION. Input forms and the line codec (R138 to R141, R150 to R166): block headers, predictors, contexts, code tables, the
row encoder of the device and the normative row decoder. -/

namespace Sys2Proof.Machine

/-! ### Input forms (R138) -/

/-- The sample depth B of a form code; none for a code that R138 does not list. -/
def formDepth (f : Nat) : Option Nat :=
  if f = 1 ∨ f = 2 ∨ f = 3 then some 10
  else if f % 16 ≤ 7 then
    (match f / 16 with
     | 1 => some 8
     | 2 => some 12
     | 3 => some 2
     | 4 => some 3
     | 5 => some 4
     | _ => none)
  else none

/-- Whether a form is pre-screened. -/
def formScreened (f : Nat) : Bool := 0x30 ≤ f && f ≤ 0x57

/-- The planes N of a per-ink or pre-screened form. -/
def formPlanes (f : Nat) : Nat := f % 16 + 1

/-- The channels of contone line `y` in channel order, each with its row width in a stripe of width `w` (R138, R141). In 4:2:0, Cb is
channel 1 and Cr channel 2. -/
def formRows (f w y : Nat) : List (Nat × Nat) :=
  let half := (w + 1) / 2
  if f = 1 then [(0, w), (1, w), (2, w)]
  else if f = 2 then [(0, w), (1, half), (2, half)]
  else if f = 3 then (if y % 2 = 0 then [(0, w), (1, half)] else [(0, w), (2, half)])
  else (List.range (formPlanes f)).map (fun k => (k, w))

/-- Every channel of a form with its row width. -/
def formChans (f w : Nat) : List (Nat × Nat) := if f = 3 then formRows 2 w 0 else formRows f w 0

/-- Twice the samples per pixel of a form (R180). -/
def formSpp2 (f : Nat) : Nat := if f = 1 then 6 else if f = 2 then 4 else if f = 3 then 3 else 2 * formPlanes f

/-- The stripes of a panel of width `w` (R141). -/
def stripesOf (w : Nat) : Nat := cdiv w 2048
/-- The width of stripe `k`. -/
def stripeWidth (w k : Nat) : Nat := min 2048 (w - 2048 * k)

/-! ### Raw contone (R140) -/

/-- The bits of bytes, bit j of the string being bit j mod 8 of byte j div 8. -/
def bitsLsb (bs : List Byte) : List Bool := bs.flatMap (fun b => (List.range 8).map b.getLsbD)

/-- `n` samples of `b` bits from a bit string, least significant bit first. -/
def samplesLsb (b : Nat) : Nat → List Bool → List Nat
  | 0, _ => []
  | n + 1, bits => ((bits.take b).foldr (fun x a => x.toNat + 2 * a) 0) :: samplesLsb b n (bits.drop b)

/-- The bytes of the channel rows of one contone line of a panel. -/
def rowBytes (b w : Nat) : Nat := cdiv (w * b) 8

/-- The bytes of contone line `y` of a panel. -/
def lineBytes (f w y : Nat) : Nat :=
  ((formRows f w y).map (fun r => rowBytes ((formDepth f).getD 8) r.2)).foldl (· + ·) 0

/-- The bytes of contone lines `y` to `y + n - 1`. -/
def linesBytes (f w : Nat) : Nat → Nat → Nat
  | _, 0 => 0
  | y, n + 1 => lineBytes f w y + linesBytes f w (y + 1) n

/-- The channel rows of one line from its bytes: (channel, samples). -/
def parseRows (b : Nat) : List (Nat × Nat) → List Byte → List (Nat × List Nat)
  | [], _ => []
  | (c, w) :: t, bs =>
    let n := rowBytes b w
    (c, samplesLsb b w (bitsLsb (bs.take n))) :: parseRows b t (bs.drop n)

/-- The lines from `y` on of a raw buffer. -/
def parseLines (f w : Nat) : (y n : Nat) → List Byte → List (List (Nat × List Nat))
  | _, 0, _ => []
  | y, n + 1, bs =>
    let k := lineBytes f w y
    parseRows ((formDepth f).getD 8) (formRows f w y) (bs.take k) :: parseLines f w (y + 1) n (bs.drop k)

/-- The part of a channel row that lies in stripe `k` of a panel of width `w` (R141). -/
def stripeRow (f w k : Nat) (r : Nat × List Nat) : Nat × List Nat :=
  let half := decide (f = 2 ∨ f = 3) && decide (r.1 ≠ 0)
  let sw := stripeWidth w k
  if half then (r.1, (r.2.drop (1024 * k)).take ((sw + 1) / 2)) else (r.1, (r.2.drop (2048 * k)).take sw)

/-! ### Predictors and contexts (R153 to R157) -/

/-- Predictor `i` (R154). -/
def predict (i a b c d bd : Nat) : Nat :=
  let A : Int := a
  let B : Int := b
  let C : Int := c
  let p : Int := match i with
    | 0 => A
    | 1 => B
    | 2 => if max A B ≤ C then min A B else if C ≤ min A B then max A B else A + B - C
    | 3 => A + B - C
    | 4 => (A + B + 1) / 2
    | 5 => A + (B - C) / 2
    | 6 => B + (A - C) / 2
    | _ => (A + (d : Int) + 1) / 2
  (clampI 0 (2 ^ bd - 1) p).toNat

/-- The distance of two samples. -/
def dist (x y : Nat) : Nat := if x ≤ y then y - x else x - y

/-- The context of a position (R156). -/
def codeCtx (a b c d bd : Nat) : Nat :=
  let g := dist d b + dist b c + dist c a
  let g10 := if 10 ≤ bd then g / 2 ^ (bd - 10) else g * 2 ^ (10 - bd)
  if g10 = 0 then 0 else if g10 ≤ 2 then 1 else if g10 ≤ 6 then 2 else if g10 ≤ 14 then 3 else if g10 ≤ 30 then 4
  else if g10 ≤ 62 then 5 else if g10 ≤ 126 then 6 else 7

/-- The mapped residue of `v` predicted as `p` (R157). -/
def mapResidue (v p bd : Nat) : Nat :=
  let e : Int := (((v : Int) - p + 2 ^ (bd - 1)) % (2 ^ bd)) - 2 ^ (bd - 1)
  (if 0 ≤ e then 2 * e else -2 * e - 1).toNat

/-- The sample of a mapped residue (R162). -/
def unmapResidue (m p bd : Nat) : Nat :=
  let e : Int := if m % 2 = 1 then -(((m + 1) / 2 : Nat) : Int) else ((m / 2 : Nat) : Int)
  (((p : Int) + e) % (2 ^ bd)).toNat

/-- The number of binary digits of a number, below 2^`k`. -/
def bitLen : (k n : Nat) → Nat
  | 0, _ => 0
  | k + 1, n => if n = 0 then 0 else 1 + bitLen k (n / 2)

/-! ### Code tables (R158 to R161) -/

/-- The static code lengths (R161): for each context, symbols 0 to 12, RUN, COPY. -/
def staticTables : List (List Nat) :=
  [[1, 3, 4, 5, 6, 7, 8, 9, 10, 11, 12, 13, 13, 3, 3],
   [2, 2, 3, 4, 5, 6, 7, 8, 9, 10, 11, 12, 12, 3, 3],
   [3, 2, 2, 3, 4, 5, 6, 7, 8, 9, 10, 11, 11, 4, 4],
   [4, 3, 2, 2, 3, 4, 5, 6, 7, 8, 9, 10, 10, 5, 5],
   [5, 4, 3, 2, 2, 3, 4, 5, 6, 7, 8, 9, 9, 6, 6],
   [6, 5, 4, 3, 2, 2, 3, 4, 5, 6, 7, 8, 8, 7, 7],
   [7, 6, 5, 4, 3, 2, 2, 3, 4, 5, 6, 7, 7, 8, 8],
   [8, 7, 6, 5, 4, 3, 2, 2, 3, 4, 5, 6, 6, 9, 9]]

/-- The canonical code of symbol `s` of length `l` (R159): the codes before it in order of length and number, scaled to its length. -/
def canonCode (lens : List Nat) (s l : Nat) : Nat :=
  (lens.zipIdx.map (fun e => if 0 < e.1 ∧ (e.1 < l ∨ (e.1 = l ∧ e.2 < s)) then 2 ^ (l - e.1) else 0)).foldl (· + ·) 0

/-- The `n` low bits of a number, most significant first. -/
def bitsMsb : Nat → Nat → List Bool
  | 0, _ => []
  | n + 1, v => (bitN v n == 1) :: bitsMsb n v

/-- The code word of a symbol in a context. -/
def symbolBits (tables : List (List Nat)) (ctx s : Nat) : List Bool :=
  let lens := tables.getD ctx []
  let l := lens.getD s 0
  bitsMsb l (canonCode lens s l)

/-- The length field of a run or copy (R158): L − 2 in order-0 exponential Golomb form. -/
def golombBits (u : Nat) : List Bool :=
  let n := bitLen 32 (u + 1) - 1
  List.replicate n false ++ bitsMsb (n + 1) (u + 1)

/-- Whether the lengths of a dynamic table fill the code space exactly with at least two symbols (R160). -/
def tableOk (lens : List Nat) : Bool :=
  2 ≤ (lens.filter (fun l => 0 < l)).length &&
    (lens.map (fun l => if l = 0 then 0 else 2 ^ (15 - l))).foldl (· + ·) 0 == 2 ^ 15

/-! ### Histories (R152, R155) -/

/-- The history of one channel: up[] and sel[]. -/
structure ChanHist where
  up : List Nat
  sel : List Nat
  deriving DecidableEq, Repr

/-- A reset history (R152). -/
def ChanHist.fresh (w bd : Nat) : ChanHist :=
  { up := List.replicate w (2 ^ (bd - 1)), sel := List.replicate (cdiv w 64) 2 }

/-- The samples of a row with their neighbours (R153): (cur, a, b, c, d). -/
def neighboursOf : (a c : Nat) → List Nat → List Nat → List (Nat × Nat × Nat × Nat × Nat)
  | a, c, v :: cs, b :: us => (v, a, b, c, us.headD b) :: neighboursOf v b cs us
  | _, _, _, _ => []

/-- The sum of absolute differences of predictor `i` over a segment. -/
def sadOf (bd i : Nat) : List (Nat × Nat × Nat × Nat × Nat) → Nat
  | [] => 0
  | (v, a, b, c, d) :: t => dist v (predict i a b c d bd) + sadOf bd i t

/-- The predictor below `n` with the least sum; ties keep the lower one (R155). -/
def bestPred (bd : Nat) (seg : List (Nat × Nat × Nat × Nat × Nat)) : Nat → Nat × Nat
  | 0 => (0, sadOf bd 0 seg)
  | n + 1 =>
    let (i, s) := bestPred bd seg n
    let t := sadOf bd (n + 1) seg
    if t < s then (n + 1, t) else (i, s)

/-- The selectors of the segments of 64 samples (R155); `fuel` segments at most. -/
def selectors (bd : Nat) : Nat → List (Nat × Nat × Nat × Nat × Nat) → List Nat
  | 0, _ => []
  | _, [] => []
  | k + 1, l => (bestPred bd (l.take 64) 7).1 :: selectors bd k (l.drop 64)

/-- The history after a row (R155). -/
def ChanHist.next (h : ChanHist) (cur : List Nat) (bd : Nat) : ChanHist :=
  let u0 := h.up.headD 0
  { up := cur, sel := selectors bd (cur.length / 64 + 1) (neighboursOf u0 u0 cur h.up) }

/-! ### The device encoder (R163) -/

/-- The length of the run of `a` at the front of a row. -/
def runLen (a : Nat) : List Nat → Nat
  | [] => 0
  | v :: t => if v = a then runLen a t + 1 else 0

/-- The length of the copy at the front of a row. -/
def copyLen : List Nat → List Nat → Nat
  | v :: t, u :: us => if v = u then copyLen t us + 1 else 0
  | _, _ => 0

/-- One channel row coded from position `x` on (R163). -/
def encodeFrom (tables : List (List Nat)) (bd : Nat) (sel : List Nat) :
    (fuel x a c : Nat) → List Nat → List Nat → List Bool
  | 0, _, _, _, _, _ => []
  | _, _, _, _, [], _ => []
  | k + 1, x, a, c, v :: cs, us =>
    let b := us.headD 0
    let d := (us.drop 1).headD b
    let ctx := codeCtx a b c d bd
    let r := runLen a (v :: cs)
    let p := copyLen (v :: cs) us
    let l := max r p
    if 4 ≤ l then
      symbolBits tables ctx (if p ≤ r then 13 else 14) ++ golombBits (l - 2) ++
        encodeFrom tables bd sel k (x + l) ((v :: cs).getD (l - 1) 0) (us.getD (l - 1) 0) ((v :: cs).drop l) (us.drop l)
    else
      let m := mapResidue v (predict (sel.getD (x / 64) 2) a b c d bd) bd
      let cl := bitLen 32 m
      symbolBits tables ctx cl ++ bitsMsb (cl - 1) m ++ encodeFrom tables bd sel k (x + 1) v b cs (us.drop 1)

/-- A channel row as the device codes it. -/
def encodeRow (bd : Nat) (h : ChanHist) (row : List Nat) : List Bool :=
  let u0 := h.up.headD 0
  encodeFrom staticTables bd h.sel (row.length + 1) 0 u0 u0 row h.up

/-- The histories of a block's channels, by channel number. -/
abbrev Hists := List (Nat × ChanHist)

def histOf (hs : Hists) (c w bd : Nat) : ChanHist := ((hs.find? (fun e => e.1 == c)).map (·.2)).getD (ChanHist.fresh w bd)
def histPut (hs : Hists) (c : Nat) (h : ChanHist) : Hists := (c, h) :: hs.filter (fun e => e.1 != c)

/-- The rows of one line coded in order. -/
def encodeLine (bd : Nat) : List (Nat × List Nat) → Hists → List Bool × Hists
  | [], hs => ([], hs)
  | (c, row) :: t, hs =>
    let h := histOf hs c row.length bd
    let (bits, hs') := encodeLine bd t (histPut hs c (h.next row bd))
    (encodeRow bd h row ++ bits, hs')

/-- The lines of a block coded in order. -/
def encodeLines (bd : Nat) : List (List (Nat × List Nat)) → Hists → List Bool
  | [], _ => []
  | l :: t, hs =>
    let (bits, hs') := encodeLine bd l hs
    bits ++ encodeLines bd t hs'

/-- Bits as bytes, bit 7 first (R151), padded with 0 bits to `n` bytes. -/
def packMsb : Nat → List Bool → List Byte
  | 0, _ => []
  | n + 1, bs =>
    BitVec.ofNat 8 ((List.range 8).foldl (fun a i => 2 * a + (bs.getD i false).toNat) 0) :: packMsb n (bs.drop 8)

/-- The bits of bytes, bit 7 first (R151). -/
def unpackMsb (bs : List Byte) : List Bool := bs.flatMap (fun b => bitsMsb 8 b.toNat)

/-- The body of a block of lines (R151, R163), a multiple of 8 bytes. -/
def encodeBody (f : Nat) (lines : List (List (Nat × List Nat))) : List Byte :=
  let bits := encodeLines ((formDepth f).getD 8) lines []
  packMsb (cdiv bits.length 64 * 8) bits

/-- The bytes over which the travelling check value is taken (R166). -/
def scrcBytes (rows : List (Nat × List Nat)) : List Byte := rows.flatMap (fun r => r.2.flatMap (fun v => leBytes 2 v))

/-- SCRC of a block (R166). -/
def scrcOf (lines : List (List (Nat × List Nat))) : Word := crc32c (lines.flatMap scrcBytes)

/-! ### Block headers (R150) -/

/-- The fields of a block header. -/
structure BlockHdr where
  sync : Nat
  flags : Nat
  form : Nat
  panel : Nat
  stripe : Nat
  first : Nat
  lines : Nat
  width : Nat
  body : Nat
  scrc : Nat
  hcrcOk : Bool
  rsvOk : Bool
  deriving DecidableEq, Repr

def BlockHdr.dyn (h : BlockHdr) : Bool := bitN h.flags 0 == 1
def BlockHdr.cont (h : BlockHdr) : Bool := bitN h.flags 1 == 1
def BlockHdr.flush (h : BlockHdr) : Bool := bitN h.flags 2 == 1
def BlockHdr.tcrc (h : BlockHdr) : Bool := bitN h.flags 3 == 1

/-- A little-endian field of some bytes. -/
def leAt (bs : List Byte) (off n : Nat) : Nat := leNat ((bs.drop off).take n)

/-- A header read from 32 bytes. -/
def parseHdr (bs : List Byte) : BlockHdr :=
  { sync := leAt bs 0 2, flags := leAt bs 2 1, form := leAt bs 3 1, panel := leAt bs 4 2, stripe := leAt bs 6 2, first := leAt bs 8 4,
    lines := leAt bs 12 2, width := leAt bs 14 2, body := leAt bs 16 4, scrc := leAt bs 20 4,
    hcrcOk := crc32c (bs.take 0x18) == w32 (leAt bs 0x18 4), rsvOk := leAt bs 2 1 / 16 == 0 && leAt bs 0x1C 4 == 0 }

/-- The 32 bytes of a header that the device writes (R150, R163). -/
def makeHdr (flags form panel stripe first lines width body scrc : Nat) : List Byte :=
  let h := leBytes 2 0x5A3C ++ leBytes 1 flags ++ leBytes 1 form ++ leBytes 2 panel ++ leBytes 2 stripe ++ leBytes 4 first ++
    leBytes 2 lines ++ leBytes 2 width ++ leBytes 4 body ++ leBytes 4 scrc
  h ++ leBytes 4 (crc32c h).toNat ++ leBytes 4 0

/-! ### The decoder (R160, R162, R171) -/

/-- The conditions at which a decoder stops (R171), `short` where the bits at hand have run out. -/
inductive DecErr
  | badTable | illegalCode | runOverrun | short
  deriving DecidableEq, Repr

/-- `n` bits as a number. -/
def readBits (n : Nat) (bs : List Bool) : Except DecErr (Nat × List Bool) :=
  if bs.length < n then .error .short else .ok ((bs.take n).foldl (fun a b => 2 * a + b.toNat) 0, bs.drop n)

/-- One symbol by a code table: `l` bits read so far with value `v`; at most `k` more. -/
def readSymbol (lens : List Nat) : (k l v : Nat) → List Bool → Except DecErr (Nat × List Bool)
  | 0, _, _, _ => .error .illegalCode
  | _, _, _, [] => .error .short
  | k + 1, l, v, b :: bs =>
    let v' := 2 * v + b.toNat
    match lens.zipIdx.find? (fun e => e.1 == l + 1 && canonCode lens e.2 (l + 1) == v') with
    | some e => .ok (e.2, bs)
    | none => readSymbol lens k (l + 1) v' bs

/-- The prefix of an exponential Golomb field: its zeros, at most 10. -/
def readZeros : (k n : Nat) → List Bool → Except DecErr (Nat × List Bool)
  | _, _, [] => .error .short
  | _, n, true :: bs => .ok (n, bs)
  | 0, _, false :: _ => .error .illegalCode
  | k + 1, n, false :: bs => readZeros k (n + 1) bs

/-- One channel row decoded from position `x` on (R162): the samples from there, and the bits left. `a` and `c` are the neighbours
at `x`, `us` the samples of up[] from `x` on, `left` the samples to go. -/
def decodeFrom (tables : List (List Nat)) (bd : Nat) (sel : List Nat) :
    (fuel x left a c : Nat) → List Nat → List Bool → Except DecErr (List Nat × List Bool)
  | 0, _, _, _, _, _, bs => .ok ([], bs)
  | k + 1, x, left, a, c, us, bs =>
    if left = 0 then .ok ([], bs)
    else
      let b := us.headD 0
      let d := (us.drop 1).headD b
      match readSymbol (tables.getD (codeCtx a b c d bd) []) 15 0 0 bs with
      | .error e => .error e
      | .ok (sym, bs) =>
        if sym = 13 ∨ sym = 14 then
          match readZeros 10 0 bs with
          | .error e => .error e
          | .ok (n, bs) =>
            match readBits n bs with
            | .error e => .error e
            | .ok (v, bs) =>
              let l := 2 ^ n + v + 1
              if left < l then .error .runOverrun
              else
                let seg := if sym = 13 then List.replicate l a else us.take l
                match decodeFrom tables bd sel k (x + l) (left - l) (seg.getD (l - 1) 0) (us.getD (l - 1) 0) (us.drop l) bs with
                | .error e => .error e
                | .ok (r, bs) => .ok (seg ++ r, bs)
        else if bd < sym then .error .illegalCode
        else
          match readBits (sym - 1) bs with
          | .error e => .error e
          | .ok (v, bs) =>
            let m := if sym < 2 then sym else 2 ^ (sym - 1) + v
            let s := unmapResidue m (predict (sel.getD (x / 64) 2) a b c d bd) bd
            match decodeFrom tables bd sel k (x + 1) (left - 1) s b (us.drop 1) bs with
            | .error e => .error e
            | .ok (r, bs) => .ok (s :: r, bs)

/-- One channel row of width `w`. -/
def decodeRow (tables : List (List Nat)) (bd w : Nat) (h : ChanHist) (bs : List Bool) : Except DecErr (List Nat × List Bool) :=
  let u0 := h.up.headD 0
  decodeFrom tables bd h.sel (w + 1) 0 w u0 u0 h.up bs

/-- The rows of one line, with the histories after them (R155). -/
def decodeLine (tables : List (List Nat)) (bd : Nat) :
    List (Nat × Nat) → Hists → List Bool → Except DecErr (List (Nat × List Nat) × Hists × List Bool)
  | [], hs, bs => .ok ([], hs, bs)
  | (c, w) :: t, hs, bs =>
    let h := histOf hs c w bd
    match decodeRow tables bd w h bs with
    | .error e => .error e
    | .ok (row, bs) =>
      match decodeLine tables bd t (histPut hs c (h.next row bd)) bs with
      | .error e => .error e
      | .ok (rows, hs, bs) => .ok ((c, row) :: rows, hs, bs)

/-- The lengths of one dynamic table entry. -/
def readLens : Nat → List Bool → Except DecErr (List Nat × List Bool)
  | 0, bs => .ok ([], bs)
  | n + 1, bs =>
    match readBits 4 bs with
    | .error e => .error e
    | .ok (v, bs) =>
      match readLens n bs with
      | .error e => .error e
      | .ok (l, bs) => .ok (v :: l, bs)

/-- The dynamic table header (R160): the tables of the contexts from the list of static ones. -/
def readTables : List (List Nat) → List Bool → Except DecErr (List (List Nat) × List Bool)
  | [], bs => .ok ([], bs)
  | st :: t, bs =>
    match readBits 1 bs with
    | .error e => .error e
    | .ok (f, bs) =>
      match (if f = 0 then .ok (st, bs) else readLens 15 bs) with
      | .error e => .error e
      | .ok (lens, bs) =>
        if f = 1 ∧ !tableOk lens then .error .badTable
        else match readTables t bs with
          | .error e => .error e
          | .ok (r, bs) => .ok (lens :: r, bs)

/-- How the decoding of a whole body ends (R171). -/
inductive BodyRes
  | ok (lines : List (List (Nat × List Nat))) (hists : Hists)
  | err (e : DecErr)
  | trailing
  | crc
  deriving DecidableEq, Repr

/-- The lines of a body from line `y` on. -/
def decodeLines (tables : List (List Nat)) (f w bd : Nat) :
    (n y : Nat) → Hists → List Bool → Except DecErr (List (List (Nat × List Nat)) × Hists × List Bool)
  | 0, _, hs, bs => .ok ([], hs, bs)
  | n + 1, y, hs, bs =>
    match decodeLine tables bd (formRows f w y) hs bs with
    | .error e => .error e
    | .ok (rows, hs, bs) =>
      match decodeLines tables f w bd n (y + 1) hs bs with
      | .error e => .error e
      | .ok (ls, hs, bs) => .ok (rows :: ls, hs, bs)

/-- A whole body decoded (R162, R171) from the given histories. -/
def decodeBody (h : BlockHdr) (hists : Hists) (body : List Byte) : BodyRes :=
  let bd := (formDepth h.form).getD 8
  let bits := unpackMsb body
  match (if h.dyn then readTables staticTables bits else .ok (staticTables, bits)) with
  | .error e => .err e
  | .ok (tables, bs) =>
    match decodeLines tables h.form h.width bd h.lines h.first hists bs with
    | .error e => .err e
    | .ok (ls, hs, bs) =>
      if 64 ≤ bs.length ∨ bs.any id then .trailing
      else if h.tcrc ∧ scrcOf ls ≠ w32 h.scrc then .crc
      else .ok ls hs

end Sys2Proof.Machine
end

