-- ==== Sys2Proof/Machine/FaultCodes.lean ====
section
/-! DEFINITION. The fault codes of stepping B0 (R435 and the fault tables of the block chapters: R49, R110, R137, R173,
R195, R220, R236, R255, R283, R324, R352, R367, R390, R403, R419, R434, R449, R468, R492, R515), each with its default
class, its permitted range and its kind of source (R517). -/

namespace Sys2Proof.Machine

/-- A row of a fault table: code, default class, lowest and highest permitted class (0 Note, 1 Corrected, 2 Line, 3 Job,
4 Device, 5 Grave), and whether the source is a level source (R517). -/
structure CodeRow where
  code : Nat
  dflt : Nat
  lo : Nat
  hi : Nat
  level : Bool
  deriving DecidableEq, Repr

namespace C
def ring_bar0_hole : Nat := 0x0101
def ring_bar0_size : Nat := 0x0102
def ring_bar2_range : Nat := 0x0103
def ring_bar2_denied : Nat := 0x0104
def ring_doorbell_range : Nat := 0x0105
def ring_cq_full : Nat := 0x0106
def ring_feature : Nat := 0x0107
def ring_link_reset : Nat := 0x0108
def ring_host_dma : Nat := 0x0109
def eng_deadline_miss : Nat := 0x0201
def eng_slack_low : Nat := 0x0202
def eng_avs_bus : Nat := 0x0203
def eng_avs_mismatch : Nat := 0x0204
def eng_unit_stall : Nat := 0x0205
def eng_gate_stale : Nat := 0x0206
def eng_event_overflow : Nat := 0x0207
def eng_pace_low : Nat := 0x0208
def eng_trap_unhandled : Nat := 0x0209
def cmt_late : Nat := 0x0301
def cmt_conflict : Nat := 0x0302
def cmt_full : Nat := 0x0303
def cmt_target : Nat := 0x0304
def cmt_table : Nat := 0x0305
def cmt_seg_stage : Nat := 0x0306
def cmt_seg_apply_missed : Nat := 0x0307
def cmt_write_after_commit : Nat := 0x0308
def cmt_panel_deferred : Nat := 0x0309
def cmt_profile_revert : Nat := 0x030a
def codec_bad_sync : Nat := 0x0401
def codec_header_crc : Nat := 0x0402
def codec_bad_table : Nat := 0x0403
def codec_illegal_code : Nat := 0x0404
def codec_run_overrun : Nat := 0x0405
def codec_body_overrun : Nat := 0x0406
def codec_body_trailing : Nat := 0x0407
def codec_crc : Nat := 0x0408
def codec_history : Nat := 0x0409
def codec_verify_mismatch : Nat := 0x040a
def codec_verify_fail : Nat := 0x040b
def codec_out_of_space : Nat := 0x040c
def codec_spill_abandon : Nat := 0x040d
def codec_block_too_large : Nat := 0x040e
def ing_block_refused : Nat := 0x040f
def ing_gcm_tag : Nat := 0x0410
def ing_secure_seq : Nat := 0x0411
def ing_store_full : Nat := 0x0412
def ibf_underrun : Nat := 0x0501
def ibf_panel_missing : Nat := 0x0502
def ibf_no_plane : Nat := 0x0503
def ibf_panic_long : Nat := 0x0504
def scn_unhideable : Nat := 0x0601
def scn_table_invalid : Nat := 0x0602
def scn_patch_range : Nat := 0x0603
def scn_duty_thin : Nat := 0x0604
def scn_seg_thin : Nat := 0x0605
def scn_proof_lost : Nat := 0x0606
def scn_nozzle_dead : Nat := 0x0607
def scn_nozzle_revived : Nat := 0x0608
def scn_band_skipped : Nat := 0x0609
def fire_line_skip : Nat := 0x0701
def fire_overspeed : Nat := 0x0702
def fire_pos_passed : Nat := 0x0703
def fire_late_line : Nat := 0x0704
def fire_late_run : Nat := 0x0705
def fire_temp_soft : Nat := 0x0706
def fire_temp_hard : Nat := 0x0707
def fire_telemetry_stale : Nat := 0x0708
def fire_trim_clamp : Nat := 0x0709
def fire_gate_op : Nat := 0x070a
def enc_illegal : Nat := 0x0801
def enc_edge_rate : Nat := 0x0802
def enc_signal_loss : Nat := 0x0803
def enc_index_mismatch : Nat := 0x0804
def enc_stretch_range : Nat := 0x0805
def hlp_lane_fail : Nat := 0x0901
def hlp_lane_restored : Nat := 0x0902
def hlp_port_down : Nat := 0x0903
def hlp_up_loss : Nat := 0x0904
def hlp_linkup_timeout : Nat := 0x0905
def hlp_linkup_failed : Nat := 0x0906
def hlp_skew_range : Nat := 0x0907
def hlp_cable_long : Nat := 0x0908
def hlp_tap_limit : Nat := 0x0909
def hlp_cal_abandon : Nat := 0x090a
def hlk_line_lost : Nat := 0x0a01
def hlk_ack_timeout : Nat := 0x0a02
def hlk_seg_lost : Nat := 0x0a03
def hlk_seg_incompatible : Nat := 0x0a04
def hlk_seg_changed : Nat := 0x0a05
def hlk_bn_refused : Nat := 0x0a06
def hlk_segen_direct : Nat := 0x0a07
def hlk_proto : Nat := 0x0a08
def dmc_ecc_corrected : Nat := 0x0b01
def dmc_ecc_uncorr : Nat := 0x0b02
def dmc_symbol_degraded : Nat := 0x0b03
def dmc_train_fail : Nat := 0x0b04
def dmc_recal_fail : Nat := 0x0b05
def dmc_refresh_hot : Nat := 0x0b06
def dmc_dram_overtemp : Nat := 0x0b07
def dmc_ltol_short : Nat := 0x0b08
def dmc_rfm_throttle : Nat := 0x0b09
def dmc_pop_mismatch : Nat := 0x0b0a
def dmc_spd : Nat := 0x0b0b
def dmc_range : Nat := 0x0b0c
def tarn_corrected : Nat := 0x0c01
def tarn_uncorr : Nat := 0x0c02
def tarn_remap : Nat := 0x0c03
def tarn_remap_full : Nat := 0x0c04
def tarn_scrub_late : Nat := 0x0c05
def cam_frame_short : Nat := 0x0d01
def cam_frame_long : Nat := 0x0d02
def cam_frame_late : Nat := 0x0d03
def cam_line_width : Nat := 0x0d04
def cam_line_drop : Nat := 0x0d05
def cam_io_mismatch : Nat := 0x0d06
def cam_absent : Nat := 0x0d07
def cam_loop_limit : Nat := 0x0d08
def cam_loop_range : Nat := 0x0d09
def cam_loop_stale : Nat := 0x0d0a
def cam_gate_op : Nat := 0x0d0b
def time_step_refused : Nat := 0x0e01
def time_rate_limit : Nat := 0x0e02
def time_reset_refused : Nat := 0x0e03
def time_ptp_offset : Nat := 0x0e04
def eth_late_frame : Nat := 0x0e05
def eth_link_down : Nat := 0x0e06
def eth_desc_bad : Nat := 0x0e07
def xing_clock_stop : Nat := 0x0f01
def xing_onesided : Nat := 0x0f02
def xing_write_refused : Nat := 0x0f03
def xing_pll_unlock : Nat := 0x0f04
def xing_ref_loss : Nat := 0x0f05
def xing_osc_drift : Nat := 0x0f06
def flt_rail_broken : Nat := 0x1001
def flt_rail_test : Nat := 0x1002
def flt_history_overrun : Nat := 0x1003
def spr_hb_lost : Nat := 0x1101
def spr_takeover : Nat := 0x1102
def spr_no_spare : Nat := 0x1103
def spr_diag_fail : Nat := 0x1104
def spr_stood_down : Nat := 0x1105
def spr_healed : Nat := 0x1106
def sens_rail_low : Nat := 0x1201
def sens_rail_high : Nat := 0x1202
def sens_ts_disagree : Nat := 0x1203
def sens_ts_many : Nat := 0x1204
def sens_tj_warn : Nat := 0x1205
def sens_tj_high : Nat := 0x1206
def sens_tj_shutdown : Nat := 0x1207
def sens_otp_full : Nat := 0x1208
def sens_load_fault : Nat := 0x1209
def sens_cal_overdue : Nat := 0x120a
def sens_adc_cal : Nat := 0x120b
def sec_boot_fail : Nat := 0x1301
def sec_boot_fallback : Nat := 0x1302
def sec_boot_unsigned : Nat := 0x1303
def sec_vreg_write : Nat := 0x1304
def sec_svn_full : Nat := 0x1305
def sec_no_key : Nat := 0x1306
def sec_meter_exhausted : Nat := 0x1307
def sec_audit_full : Nat := 0x1308
def sec_glitch : Nat := 0x1309
def sec_tamper : Nat := 0x130a
def sys_watchdog : Nat := 0x1401
def sys_brownout : Nat := 0x1402
def sys_strap : Nat := 0x1403
def sys_flash : Nat := 0x1404
def sys_bus : Nat := 0x1405
end C

/-- The codes of one block, by block id. -/
def codeRows : Nat → List CodeRow
  | 1 => [⟨0x0101, 0, 0, 2, false⟩, ⟨0x0102, 0, 0, 2, false⟩, ⟨0x0103, 0, 0, 2, false⟩, ⟨0x0104, 0, 0, 3, false⟩, ⟨0x0105, 0, 0, 3, false⟩, ⟨0x0106, 0, 0, 2, true⟩, ⟨0x0107, 0, 0, 2, false⟩, ⟨0x0108, 0, 0, 3, false⟩, ⟨0x0109, 0, 0, 3, false⟩]
  | 2 => [⟨0x0201, 0, 0, 3, false⟩, ⟨0x0202, 0, 0, 2, false⟩, ⟨0x0203, 3, 2, 4, false⟩, ⟨0x0204, 3, 2, 4, false⟩, ⟨0x0205, 4, 3, 4, false⟩, ⟨0x0206, 0, 0, 2, false⟩, ⟨0x0207, 0, 0, 2, false⟩, ⟨0x0208, 3, 2, 4, true⟩, ⟨0x0209, 3, 2, 4, false⟩]
  | 3 => [⟨0x0301, 0, 0, 3, false⟩, ⟨0x0302, 0, 0, 3, false⟩, ⟨0x0303, 0, 0, 2, false⟩, ⟨0x0304, 0, 0, 2, false⟩, ⟨0x0305, 0, 0, 2, false⟩, ⟨0x0306, 2, 0, 3, false⟩, ⟨0x0307, 3, 2, 4, false⟩, ⟨0x0308, 0, 0, 2, false⟩, ⟨0x0309, 0, 0, 2, false⟩, ⟨0x030a, 0, 0, 3, false⟩]
  | 4 => [⟨0x0401, 2, 0, 3, false⟩, ⟨0x0402, 2, 0, 3, false⟩, ⟨0x0403, 2, 0, 3, false⟩, ⟨0x0404, 2, 0, 3, false⟩, ⟨0x0405, 2, 0, 3, false⟩, ⟨0x0406, 2, 0, 3, false⟩, ⟨0x0407, 2, 0, 3, false⟩, ⟨0x0408, 2, 2, 4, false⟩, ⟨0x0409, 2, 0, 3, false⟩, ⟨0x040a, 1, 1, 3, false⟩, ⟨0x040b, 3, 3, 4, false⟩, ⟨0x040c, 0, 0, 2, false⟩, ⟨0x040d, 0, 0, 3, false⟩, ⟨0x040e, 3, 2, 3, false⟩, ⟨0x040f, 0, 0, 3, false⟩, ⟨0x0410, 3, 3, 4, false⟩, ⟨0x0411, 3, 3, 4, false⟩, ⟨0x0412, 0, 0, 3, false⟩]
  | 5 => [⟨0x0501, 2, 0, 3, false⟩, ⟨0x0502, 2, 0, 3, false⟩, ⟨0x0503, 0, 0, 2, false⟩, ⟨0x0504, 0, 0, 3, false⟩]
  | 6 => [⟨0x0601, 0, 0, 3, false⟩, ⟨0x0602, 3, 2, 4, false⟩, ⟨0x0603, 0, 0, 2, false⟩, ⟨0x0604, 0, 0, 2, false⟩, ⟨0x0605, 0, 0, 3, false⟩, ⟨0x0606, 0, 0, 2, false⟩, ⟨0x0607, 0, 0, 3, false⟩, ⟨0x0608, 0, 0, 2, false⟩, ⟨0x0609, 0, 0, 2, false⟩]
  | 7 => [⟨0x0701, 2, 0, 3, false⟩, ⟨0x0702, 3, 2, 4, false⟩, ⟨0x0703, 0, 0, 3, false⟩, ⟨0x0704, 2, 0, 3, false⟩, ⟨0x0705, 3, 2, 4, false⟩, ⟨0x0706, 0, 0, 3, true⟩, ⟨0x0707, 3, 3, 4, true⟩, ⟨0x0708, 0, 0, 3, true⟩, ⟨0x0709, 0, 0, 2, false⟩, ⟨0x070a, 0, 0, 2, false⟩]
  | 8 => [⟨0x0801, 0, 0, 3, false⟩, ⟨0x0802, 0, 0, 3, false⟩, ⟨0x0803, 3, 0, 4, true⟩, ⟨0x0804, 0, 0, 3, false⟩, ⟨0x0805, 0, 0, 3, false⟩]
  | 9 => [⟨0x0901, 1, 1, 3, false⟩, ⟨0x0902, 0, 0, 2, false⟩, ⟨0x0903, 3, 2, 4, false⟩, ⟨0x0904, 3, 2, 4, false⟩, ⟨0x0905, 0, 0, 3, false⟩, ⟨0x0906, 3, 3, 4, false⟩, ⟨0x0907, 0, 0, 3, false⟩, ⟨0x0908, 0, 0, 3, false⟩, ⟨0x0909, 0, 0, 2, false⟩, ⟨0x090a, 0, 0, 3, false⟩]
  | 10 => [⟨0x0a01, 2, 0, 3, false⟩, ⟨0x0a02, 0, 0, 3, false⟩, ⟨0x0a03, 3, 2, 4, false⟩, ⟨0x0a04, 0, 0, 3, false⟩, ⟨0x0a05, 0, 0, 3, false⟩, ⟨0x0a06, 3, 3, 4, false⟩, ⟨0x0a07, 0, 0, 2, false⟩, ⟨0x0a08, 0, 0, 3, false⟩]
  | 11 => [⟨0x0b01, 1, 1, 3, false⟩, ⟨0x0b02, 3, 2, 4, false⟩, ⟨0x0b03, 0, 0, 3, false⟩, ⟨0x0b04, 4, 3, 4, false⟩, ⟨0x0b05, 3, 2, 4, false⟩, ⟨0x0b06, 0, 0, 2, true⟩, ⟨0x0b07, 3, 3, 4, true⟩, ⟨0x0b08, 0, 0, 3, false⟩, ⟨0x0b09, 0, 0, 2, false⟩, ⟨0x0b0a, 0, 0, 3, false⟩, ⟨0x0b0b, 3, 0, 4, false⟩, ⟨0x0b0c, 0, 0, 2, false⟩]
  | 12 => [⟨0x0c01, 1, 1, 3, false⟩, ⟨0x0c02, 2, 2, 4, false⟩, ⟨0x0c03, 0, 0, 3, false⟩, ⟨0x0c04, 0, 0, 3, false⟩, ⟨0x0c05, 0, 0, 2, false⟩]
  | 13 => [⟨0x0d01, 0, 0, 3, false⟩, ⟨0x0d02, 0, 0, 3, false⟩, ⟨0x0d03, 0, 0, 3, false⟩, ⟨0x0d04, 0, 0, 3, false⟩, ⟨0x0d05, 0, 0, 3, false⟩, ⟨0x0d06, 3, 0, 4, false⟩, ⟨0x0d07, 0, 0, 3, true⟩, ⟨0x0d08, 0, 0, 3, false⟩, ⟨0x0d09, 0, 0, 3, false⟩, ⟨0x0d0a, 0, 0, 3, false⟩, ⟨0x0d0b, 0, 0, 2, false⟩]
  | 14 => [⟨0x0e01, 0, 0, 3, false⟩, ⟨0x0e02, 0, 0, 2, false⟩, ⟨0x0e03, 0, 0, 2, false⟩, ⟨0x0e04, 0, 0, 3, false⟩, ⟨0x0e05, 0, 0, 3, false⟩, ⟨0x0e06, 0, 0, 3, true⟩, ⟨0x0e07, 0, 0, 2, false⟩]
  | 15 => [⟨0x0f01, 3, 2, 4, false⟩, ⟨0x0f02, 4, 3, 5, true⟩, ⟨0x0f03, 0, 0, 2, false⟩, ⟨0x0f04, 4, 4, 5, true⟩, ⟨0x0f05, 4, 4, 5, true⟩, ⟨0x0f06, 0, 0, 3, false⟩]
  | 16 => [⟨0x1001, 4, 3, 5, false⟩, ⟨0x1002, 3, 0, 4, false⟩, ⟨0x1003, 0, 0, 3, false⟩]
  | 17 => [⟨0x1101, 0, 0, 3, false⟩, ⟨0x1102, 0, 0, 3, false⟩, ⟨0x1103, 4, 3, 4, false⟩, ⟨0x1104, 0, 0, 3, false⟩, ⟨0x1105, 0, 0, 2, false⟩, ⟨0x1106, 0, 0, 2, false⟩]
  | 18 => [⟨0x1201, 3, 0, 4, true⟩, ⟨0x1202, 3, 0, 4, true⟩, ⟨0x1203, 0, 0, 3, false⟩, ⟨0x1204, 4, 3, 5, false⟩, ⟨0x1205, 0, 0, 3, true⟩, ⟨0x1206, 3, 3, 4, true⟩, ⟨0x1207, 5, 5, 5, false⟩, ⟨0x1208, 0, 0, 3, false⟩, ⟨0x1209, 0, 0, 3, false⟩, ⟨0x120a, 0, 0, 3, false⟩, ⟨0x120b, 3, 0, 4, false⟩]
  | 19 => [⟨0x1301, 4, 4, 5, false⟩, ⟨0x1302, 0, 0, 3, false⟩, ⟨0x1303, 0, 0, 3, false⟩, ⟨0x1304, 0, 0, 3, false⟩, ⟨0x1305, 0, 0, 3, false⟩, ⟨0x1306, 3, 2, 3, false⟩, ⟨0x1307, 3, 0, 3, false⟩, ⟨0x1308, 3, 3, 4, true⟩, ⟨0x1309, 0, 0, 4, false⟩, ⟨0x130a, 5, 4, 5, false⟩]
  | 20 => [⟨0x1401, 4, 3, 4, false⟩, ⟨0x1402, 0, 0, 3, false⟩, ⟨0x1403, 0, 0, 3, false⟩, ⟨0x1404, 3, 0, 4, false⟩, ⟨0x1405, 0, 0, 3, false⟩]
  | _ => []

/-- The row of a code, if the code is implemented (R433, CCFG.IMPL). -/
def codeRow (c : Nat) : Option CodeRow := (codeRows (c / 256)).find? (fun r => r.code == c)

/-- Every implemented code, in ascending order (R422). -/
def allCodes : List Nat := (List.range 21).flatMap (fun k => (codeRows k).map (·.code))

end Sys2Proof.Machine
end

