-- ==== Sys2Proof/Machine/RegMap.lean ====
section
/-! DEFINITION. The register map of BAR0: every register block of the spec, its registers (offset, number of
instances, field access codes and reset values) and one name per field, transcribed from the offset tables and the field
tables of chapters 02 to 22 (R48, R109, R136, R172, R194, R219, R235, R254, R282, R323, R351, R366, R389, R402, R418,
R433, R448, R467, R491, R514). Field tables are data: the code that reads them is in Machine/Ops.lean. -/

namespace Sys2Proof.Machine

/-- The access codes of R8. -/
inductive Acc
  | rw | ro | wo | w1c | w1s | rc
  deriving DecidableEq, Repr

/-- One field of a register: highest bit, lowest bit, access code (R8), reset value. -/
structure FieldSpec where
  hi : Nat
  lo : Nat
  acc : Acc
  rst : Nat
  deriving DecidableEq, Repr

/-- A register, or an array of `n1 × n2` instances of it: the instance (i, j) sits at BAR0 offset
`base + s1 * i + s2 * j`. -/
structure RegDef where
  base : Nat
  n1 : Nat
  s1 : Nat
  n2 : Nat
  s2 : Nat
  fields : List FieldSpec
  deriving DecidableEq, Repr

/-- The place of one named field: the register's offset and strides, its lowest bit and its width. -/
structure Fld where
  base : Nat
  s1 : Nat
  s2 : Nat
  lo : Nat
  wid : Nat
  deriving DecidableEq, Repr

/-- The BAR0 offset of instance (i, j) of a field's register. -/
def Fld.off (f : Fld) (i j : Nat) : Nat := f.base + f.s1 * i + f.s2 * j

/-- The BAR0 offset of instance (i, j) of a register. -/
def RegDef.off (r : RegDef) (i j : Nat) : Nat := r.base + r.s1 * i + r.s2 * j

namespace R
def ENG_PACE : RegDef := ⟨0x20000, 1, 0x0, 1, 0x0, [⟨31, 16, .rw, 0x28a⟩, ⟨15, 0, .ro, 0⟩]⟩
def ENG_AVSCTL : RegDef := ⟨0x20010, 1, 0x0, 1, 0x0, [⟨31, 31, .rw, 0⟩, ⟨30, 30, .rw, 1⟩, ⟨29, 24, .rw, 0x32⟩, ⟨23, 16, .rw, 4⟩, ⟨15, 12, .rw, 2⟩, ⟨9, 0, .rw, 0x64⟩]⟩
def ENG_AVSLIM : RegDef := ⟨0x20014, 1, 0x0, 1, 0x0, [⟨15, 8, .rw, 0x1e⟩, ⟨7, 0, .rw, 0⟩]⟩
def ENG_AVSTHR : RegDef := ⟨0x20018, 1, 0x0, 1, 0x0, [⟨31, 16, .rw, 0xfa⟩, ⟨15, 0, .rw, 0x60⟩]⟩
def ENG_AVSSTAT : RegDef := ⟨0x2001c, 1, 0x0, 1, 0x0, [⟨31, 31, .ro, 0⟩, ⟨30, 30, .w1c, 0⟩, ⟨23, 16, .ro, 0⟩, ⟨15, 8, .ro, 0⟩, ⟨7, 0, .ro, 0⟩]⟩
def ENG_STALLTO : RegDef := ⟨0x20020, 1, 0x0, 1, 0x0, [⟨15, 0, .rw, 0x3e8⟩]⟩
def ENG_SWEV : RegDef := ⟨0x20024, 1, 0x0, 1, 0x0, [⟨15, 0, .wo, 0⟩]⟩
def ENG_GAUGE : RegDef := ⟨0x20100, 16, 0x10, 1, 0x0, [⟨31, 31, .rw, 0⟩, ⟨30, 30, .wo, 0⟩, ⟨29, 29, .rw, 1⟩, ⟨28, 28, .rw, 1⟩]⟩
def ENG_SLACK : RegDef := ⟨0x20104, 16, 0x10, 1, 0x0, [⟨31, 31, .ro, 0⟩, ⟨23, 0, .ro, 0⟩]⟩
def ENG_SLACKMIN : RegDef := ⟨0x20108, 16, 0x10, 1, 0x0, [⟨31, 31, .ro, 0⟩, ⟨23, 0, .ro, 0x7fffff⟩]⟩
def ENG_MISSCNT : RegDef := ⟨0x2010c, 16, 0x10, 1, 0x0, [⟨31, 0, .rc, 0⟩]⟩
def ENG_EVROUTE : RegDef := ⟨0x21000, 18, 0x200, 64, 0x4, [⟨31, 31, .rw, 0⟩, ⟨30, 30, .w1c, 0⟩, ⟨25, 10, .ro, 0⟩, ⟨9, 0, .rw, 0⟩]⟩
def ENG_ESTAT : RegDef := ⟨0x21100, 18, 0x200, 1, 0x0, [⟨31, 28, .ro, 0⟩, ⟨23, 20, .ro, 0⟩, ⟨19, 19, .ro, 0⟩, ⟨11, 8, .ro, 0⟩, ⟨7, 0, .ro, 0⟩]⟩
def CMT_NEXTTK : RegDef := ⟨0x30000, 1, 0x0, 1, 0x0, [⟨31, 0, .ro, 1⟩]⟩
def CMT_TQUERY : RegDef := ⟨0x30004, 1, 0x0, 1, 0x0, [⟨15, 0, .wo, 0⟩]⟩
def CMT_TANS : RegDef := ⟨0x30008, 1, 0x0, 1, 0x0, [⟨31, 31, .ro, 0⟩, ⟨30, 30, .ro, 0⟩, ⟨19, 0, .ro, 0⟩]⟩
def CMT_LEAD : RegDef := ⟨0x30010, 8, 0x4, 1, 0x0, [⟨8, 0, .ro, 0xc2⟩]⟩
def CMT_PVER : RegDef := ⟨0x30040, 5, 0x4, 1, 0x0, [⟨31, 0, .rw, 0⟩]⟩
def CMT_GSTAT : RegDef := ⟨0x30800, 64, 0x20, 1, 0x0, [⟨31, 29, .ro, 0⟩, ⟨28, 25, .ro, 0⟩, ⟨24, 24, .ro, 0⟩, ⟨23, 20, .ro, 0⟩, ⟨19, 13, .ro, 0⟩, ⟨12, 0, .ro, 0⟩]⟩
def CMT_GBND : RegDef := ⟨0x30804, 64, 0x20, 1, 0x0, [⟨31, 31, .ro, 0⟩, ⟨30, 28, .ro, 0⟩, ⟨27, 25, .ro, 0⟩]⟩
def CMT_GTKT : RegDef := ⟨0x30808, 64, 0x20, 1, 0x0, [⟨31, 0, .ro, 0⟩]⟩
def CMT_GLINELO : RegDef := ⟨0x3080c, 64, 0x20, 1, 0x0, [⟨31, 0, .ro, 0⟩]⟩
def CMT_GLINEHI : RegDef := ⟨0x30810, 64, 0x20, 1, 0x0, [⟨31, 0, .ro, 0⟩]⟩
def DEV_IDENT : RegDef := ⟨0x0, 1, 0x0, 1, 0x0, [⟨31, 16, .ro, 0x8820⟩, ⟨15, 8, .ro, 0xb0⟩]⟩
def DEV_STATE : RegDef := ⟨0x4, 1, 0x0, 1, 0x0, [⟨31, 28, .ro, 1⟩]⟩
def DEV_FEATOFF : RegDef := ⟨0x10, 1, 0x0, 1, 0x0, [⟨31, 0, .ro, 0⟩]⟩
def DEV_FEATREQ : RegDef := ⟨0x14, 1, 0x0, 1, 0x0, [⟨31, 0, .rw, 0⟩]⟩
def DEV_FEATACT : RegDef := ⟨0x18, 1, 0x0, 1, 0x0, [⟨31, 0, .ro, 0⟩]⟩
def DEV_NEG : RegDef := ⟨0x1c, 1, 0x0, 1, 0x0, [⟨31, 31, .wo, 0⟩, ⟨30, 30, .ro, 0⟩, ⟨29, 29, .w1c, 0⟩, ⟨23, 16, .rw, 0⟩, ⟨15, 8, .ro, 1⟩, ⟨7, 0, .ro, 1⟩]⟩
def RING_APER : RegDef := ⟨0x10000, 1, 0x0, 1, 0x0, [⟨31, 31, .rw, 0⟩, ⟨15, 0, .rw, 0⟩]⟩
def RING_MISCIV : RegDef := ⟨0x10004, 1, 0x0, 1, 0x0, [⟨14, 8, .rw, 0x41⟩, ⟨6, 0, .rw, 0x40⟩]⟩
def RING_RAISE : RegDef := ⟨0x10008, 1, 0x0, 1, 0x0, [⟨6, 0, .wo, 0⟩]⟩
def RING_QCFG : RegDef := ⟨0x11000, 64, 0x20, 1, 0x0, [⟨31, 31, .rw, 0⟩, ⟨30, 30, .ro, 0⟩, ⟨29, 29, .rw, 0⟩, ⟨22, 16, .rw, 0⟩, ⟨11, 0, .rw, 0⟩]⟩
def RING_QCOAL : RegDef := ⟨0x11004, 64, 0x20, 1, 0x0, [⟨31, 24, .rw, 0⟩, ⟨15, 0, .rw, 0⟩]⟩
def RING_QSTAT : RegDef := ⟨0x11008, 64, 0x20, 1, 0x0, [⟨31, 31, .ro, 0⟩, ⟨27, 16, .ro, 0⟩, ⟨11, 0, .ro, 0⟩]⟩
def RING_SQBASELO : RegDef := ⟨0x1100c, 64, 0x20, 1, 0x0, [⟨31, 0, .rw, 0⟩]⟩
def RING_SQBASEHI : RegDef := ⟨0x11010, 64, 0x20, 1, 0x0, [⟨31, 0, .rw, 0⟩]⟩
def RING_CQBASELO : RegDef := ⟨0x11014, 64, 0x20, 1, 0x0, [⟨31, 0, .rw, 0⟩]⟩
def RING_CQBASEHI : RegDef := ⟨0x11018, 64, 0x20, 1, 0x0, [⟨31, 0, .rw, 0⟩]⟩
def RING_SQTAIL : RegDef := ⟨0x18000, 64, 0x8, 1, 0x0, [⟨11, 0, .rw, 0⟩]⟩
def RING_CQHEAD : RegDef := ⟨0x18004, 64, 0x8, 1, 0x0, [⟨11, 0, .rw, 0⟩]⟩
def ING_CTL : RegDef := ⟨0x40000, 1, 0x0, 1, 0x0, [⟨31, 31, .rw, 0⟩, ⟨30, 30, .rw, 1⟩, ⟨29, 29, .rw, 1⟩, ⟨28, 28, .rw, 0⟩, ⟨27, 27, .rw, 0⟩, ⟨15, 0, .rw, 0xffff⟩]⟩
def ING_STAT : RegDef := ⟨0x40004, 1, 0x0, 1, 0x0, [⟨31, 28, .ro, 0⟩, ⟨20, 16, .ro, 0⟩, ⟨15, 15, .ro, 0⟩]⟩
def ING_STBASE : RegDef := ⟨0x40010, 1, 0x0, 1, 0x0, [⟨19, 0, .rw, 0⟩]⟩
def ING_STSIZE : RegDef := ⟨0x40014, 1, 0x0, 1, 0x0, [⟨19, 0, .rw, 0⟩]⟩
def ING_MAPBASE : RegDef := ⟨0x40020, 1, 0x0, 1, 0x0, [⟨19, 0, .rw, 0⟩]⟩
def ING_MAPSIZE : RegDef := ⟨0x40024, 1, 0x0, 1, 0x0, [⟨19, 0, .rw, 0⟩]⟩
def ING_STWPTR : RegDef := ⟨0x40018, 1, 0x0, 1, 0x0, [⟨29, 0, .ro, 0⟩]⟩
def ING_STFREE : RegDef := ⟨0x4001c, 1, 0x0, 1, 0x0, [⟨29, 0, .ro, 0⟩]⟩
def ING_PTBASE : RegDef := ⟨0x40028, 1, 0x0, 1, 0x0, [⟨19, 0, .rw, 0⟩]⟩
def ING_OBCFG : RegDef := ⟨0x40030, 1, 0x0, 1, 0x0, [⟨29, 16, .rw, 0⟩, ⟨7, 0, .rw, 0x20⟩]⟩
def ING_SPWCFG : RegDef := ⟨0x40034, 1, 0x0, 1, 0x0, [⟨29, 16, .rw, 0⟩, ⟨11, 0, .rw, 0x100⟩]⟩
def ING_SPWSTAT : RegDef := ⟨0x40038, 1, 0x0, 1, 0x0, [⟨27, 16, .ro, 0⟩, ⟨11, 0, .ro, 0⟩]⟩
def ING_OOSTO : RegDef := ⟨0x4003c, 1, 0x0, 1, 0x0, [⟨15, 0, .rw, 0x7d0⟩]⟩
def ING_BLKCNT : RegDef := ⟨0x40040, 1, 0x0, 1, 0x0, [⟨31, 0, .rc, 0⟩]⟩
def ING_VERCNT : RegDef := ⟨0x40044, 1, 0x0, 1, 0x0, [⟨31, 0, .rc, 0⟩]⟩
def ING_LSTAT : RegDef := ⟨0x40100, 16, 0x4, 1, 0x0, [⟨31, 28, .ro, 0⟩, ⟨27, 16, .ro, 0⟩, ⟨7, 0, .ro, 0⟩]⟩
def IBF_CTL : RegDef := ⟨0x50000, 8, 0x1000, 1, 0x0, [⟨31, 31, .rw, 0⟩, ⟨30, 30, .rw, 0⟩, ⟨29, 27, .rw, 0⟩, ⟨26, 26, .rw, 1⟩]⟩
def IBF_STAT : RegDef := ⟨0x50004, 8, 0x1000, 1, 0x0, [⟨31, 31, .ro, 0⟩, ⟨19, 16, .ro, 0⟩, ⟨15, 0, .ro, 0xffff⟩]⟩
def IBF_LANES : RegDef := ⟨0x50008, 8, 0x1000, 1, 0x0, [⟨23, 16, .rw, 0⟩, ⟨7, 0, .rw, 0⟩]⟩
def IBF_SIZING : RegDef := ⟨0x5000c, 8, 0x1000, 1, 0x0, [⟨31, 28, .rw, 0xa⟩, ⟨27, 27, .rw, 0⟩, ⟨22, 18, .rw, 3⟩, ⟨17, 0, .rw, 0⟩]⟩
def IBF_WEIR : RegDef := ⟨0x50010, 8, 0x1000, 1, 0x0, [⟨31, 16, .rw, 0x20⟩, ⟨15, 0, .rw, 0x40⟩]⟩
def IBF_LTOL : RegDef := ⟨0x50014, 8, 0x1000, 1, 0x0, [⟨15, 0, .rw, 0x19⟩]⟩
def IBF_GROUND : RegDef := ⟨0x50018, 8, 0x1000, 1, 0x0, [⟨15, 0, .rw, 0⟩]⟩
def IBF_PBASE : RegDef := ⟨0x5001c, 8, 0x1000, 1, 0x0, [⟨11, 0, .rw, 0⟩]⟩
def IBF_PBSTAT : RegDef := ⟨0x50020, 8, 0x1000, 1, 0x0, [⟨31, 31, .ro, 0⟩, ⟨30, 0, .ro, 0⟩]⟩
def IBF_RECBASE : RegDef := ⟨0x50024, 8, 0x1000, 1, 0x0, [⟨19, 0, .rw, 0⟩]⟩
def IBF_UNDCNT : RegDef := ⟨0x50030, 8, 0x1000, 1, 0x0, [⟨31, 0, .rc, 0⟩]⟩
def IBF_PANICCNT : RegDef := ⟨0x50038, 8, 0x1000, 1, 0x0, [⟨31, 0, .rc, 0⟩]⟩
def IBF_UNDLAST : RegDef := ⟨0x50034, 8, 0x1000, 1, 0x0, [⟨31, 28, .ro, 0⟩, ⟨21, 16, .ro, 0⟩]⟩
def SCN_MAPBASE : RegDef := ⟨0x60000, 1, 0x0, 1, 0x0, [⟨9, 0, .rw, 0⟩]⟩
def SCN_CHAR : RegDef := ⟨0x60004, 1, 0x0, 1, 0x0, [⟨31, 24, .rw, 0x40⟩, ⟨23, 16, .rw, 0xda⟩, ⟨15, 8, .rw, 8⟩, ⟨2, 0, .rw, 2⟩]⟩
def SCN_CTL : RegDef := ⟨0x61000, 8, 0x400, 1, 0x0, [⟨31, 31, .rw, 0⟩, ⟨30, 30, .rw, 1⟩, ⟨29, 29, .rw, 1⟩, ⟨28, 28, .rw, 1⟩, ⟨27, 27, .rw, 0⟩, ⟨26, 26, .rw, 0⟩, ⟨25, 25, .rw, 0⟩, ⟨22, 20, .rw, 0⟩, ⟨18, 16, .rw, 0⟩, ⟨1, 0, .rw, 0⟩]⟩
def SCN_STAT : RegDef := ⟨0x61004, 8, 0x400, 1, 0x0, [⟨31, 31, .ro, 0⟩, ⟨30, 30, .ro, 0⟩, ⟨16, 0, .ro, 0⟩]⟩
def SCN_HIDE : RegDef := ⟨0x61008, 8, 0x400, 1, 0x0, [⟨23, 16, .rw, 0x20⟩, ⟨13, 8, .rw, 8⟩, ⟨5, 0, .rw, 0x18⟩]⟩
def SCN_HCEIL : RegDef := ⟨0x6100c, 8, 0x400, 1, 0x0, [⟨15, 0, .rw, 0xffff⟩]⟩
def SCN_PHASE : RegDef := ⟨0x61010, 8, 0x400, 1, 0x0, [⟨31, 16, .rw, 0⟩, ⟨15, 0, .rw, 0⟩]⟩
def SCN_NDUTY : RegDef := ⟨0x61020, 8, 0x400, 4, 0x4, [⟨22, 16, .rw, 0x10⟩, ⟨7, 0, .rw, 0⟩]⟩
def SCN_SDUTY : RegDef := ⟨0x61014, 8, 0x400, 1, 0x0, [⟨31, 25, .rw, 8⟩, ⟨19, 0, .rw, 0⟩]⟩
def SCN_BAND : RegDef := ⟨0x61018, 8, 0x400, 1, 0x0, [⟨31, 31, .rw, 0⟩, ⟨27, 24, .rw, 3⟩, ⟨20, 16, .rw, 4⟩, ⟨4, 0, .rw, 0x10⟩]⟩
def SCN_UNHCNT : RegDef := ⟨0x61040, 8, 0x400, 1, 0x0, [⟨31, 0, .rc, 0⟩]⟩
def SCN_THINCNT : RegDef := ⟨0x61044, 8, 0x400, 1, 0x0, [⟨31, 0, .rc, 0⟩]⟩
def SCN_SEGTHIN : RegDef := ⟨0x61048, 8, 0x400, 1, 0x0, [⟨31, 0, .rc, 0⟩]⟩
def SCN_PSLOST : RegDef := ⟨0x6104c, 8, 0x400, 1, 0x0, [⟨31, 0, .rc, 0⟩]⟩
def SCN_CLIPCNT : RegDef := ⟨0x61050, 8, 0x400, 1, 0x0, [⟨31, 0, .rc, 0⟩]⟩
def SCN_NPIDX : RegDef := ⟨0x61100, 8, 0x400, 32, 0x8, [⟨31, 31, .rw, 0⟩, ⟨19, 0, .rw, 0⟩]⟩
def SCN_NPREC : RegDef := ⟨0x61104, 8, 0x400, 32, 0x8, [⟨31, 0, .rw, 0⟩]⟩
def ENC_GCTL : RegDef := ⟨0x80000, 1, 0x0, 1, 0x0, [⟨31, 31, .rw, 0⟩, ⟨0, 0, .rw, 0⟩]⟩
def ENC_SPDCFG : RegDef := ⟨0x80004, 1, 0x0, 1, 0x0, [⟨31, 24, .rw, 0x40⟩, ⟨23, 16, .rw, 0x20⟩, ⟨15, 12, .rw, 4⟩, ⟨9, 0, .rw, 0x64⟩]⟩
def ENC_STILL : RegDef := ⟨0x80008, 1, 0x0, 1, 0x0, [⟨15, 0, .rw, 0x2710⟩]⟩
def ENC_STRCFG : RegDef := ⟨0x8000c, 1, 0x0, 1, 0x0, [⟨31, 28, .rw, 4⟩, ⟨27, 16, .rw, 0x64⟩, ⟨15, 0, .rw, 0x4e20⟩]⟩
def ENC_PTCTL : RegDef := ⟨0x80010, 2, 0x4, 1, 0x0, [⟨31, 31, .rw, 0⟩, ⟨0, 0, .rw, 0⟩]⟩
def ENC_STRETCH : RegDef := ⟨0x80018, 1, 0x0, 1, 0x0, [⟨31, 0, .ro, 0⟩]⟩
def ENC_SPEED : RegDef := ⟨0x8010c, 2, 0x40, 1, 0x0, [⟨31, 0, .ro, 0⟩]⟩
def ENC_LAMBDA : RegDef := ⟨0x80020, 8, 0x4, 1, 0x0, [⟨16, 0, .rw, 0⟩]⟩
def ENC_CTL : RegDef := ⟨0x80100, 2, 0x40, 1, 0x0, [⟨31, 31, .rw, 0⟩, ⟨30, 30, .rw, 0⟩, ⟨29, 29, .rw, 1⟩, ⟨28, 28, .rw, 1⟩, ⟨27, 24, .rw, 3⟩]⟩
def ENC_SCALE : RegDef := ⟨0x80104, 2, 0x40, 1, 0x0, [⟨31, 0, .rw, 0⟩]⟩
def ENC_STAT : RegDef := ⟨0x80108, 2, 0x40, 1, 0x0, [⟨31, 31, .ro, 1⟩, ⟨30, 30, .ro, 1⟩, ⟨29, 29, .ro, 0⟩, ⟨28, 28, .ro, 0⟩, ⟨27, 27, .ro, 0⟩, ⟨26, 26, .ro, 0⟩, ⟨25, 25, .w1c, 0⟩, ⟨24, 24, .w1c, 0⟩, ⟨23, 23, .w1c, 0⟩]⟩
def ENC_POSLO : RegDef := ⟨0x80110, 2, 0x40, 1, 0x0, [⟨31, 0, .rw, 0⟩]⟩
def ENC_POSHI : RegDef := ⟨0x80114, 2, 0x40, 1, 0x0, [⟨31, 0, .rw, 0⟩]⟩
def ENC_ZPOSLO : RegDef := ⟨0x80118, 2, 0x40, 1, 0x0, [⟨31, 0, .ro, 0⟩]⟩
def ENC_ZPOSHI : RegDef := ⟨0x8011c, 2, 0x40, 1, 0x0, [⟨31, 0, .ro, 0⟩]⟩
def ENC_ZCPR : RegDef := ⟨0x80120, 2, 0x40, 1, 0x0, [⟨31, 0, .rw, 0⟩]⟩
def ENC_ILLCNT : RegDef := ⟨0x80124, 2, 0x40, 1, 0x0, [⟨31, 0, .rc, 0⟩]⟩
def FIRE_GCFG : RegDef := ⟨0x70000, 1, 0x0, 1, 0x0, [⟨31, 28, .rw, 4⟩, ⟨23, 16, .rw, 0x10⟩, ⟨15, 8, .rw, 4⟩, ⟨7, 0, .rw, 0x40⟩]⟩
def FIRE_THEAD : RegDef := ⟨0x70004, 1, 0x0, 1, 0x0, [⟨27, 24, .rw, 5⟩, ⟨23, 16, .rw, 0x46⟩, ⟨15, 8, .rw, 0x3c⟩]⟩
def FIRE_DERATE : RegDef := ⟨0x70008, 1, 0x0, 1, 0x0, [⟨8, 0, .rw, 0x1e0⟩]⟩
def FIRE_PWMAX : RegDef := ⟨0x7000c, 1, 0x0, 1, 0x0, [⟨7, 0, .rw, 0x80⟩]⟩
def FIRE_SEGLEAD : RegDef := ⟨0x70010, 1, 0x0, 1, 0x0, [⟨23, 0, .ro, 0⟩]⟩
def FIRE_PDLY : RegDef := ⟨0x70080, 16, 0x4, 1, 0x0, [⟨15, 0, .rw, 0⟩]⟩
def FIRE_CTL : RegDef := ⟨0x70100, 8, 0x40, 1, 0x0, [⟨31, 31, .rw, 0⟩, ⟨30, 28, .rw, 0⟩]⟩
def FIRE_STAT : RegDef := ⟨0x70104, 8, 0x40, 1, 0x0, [⟨31, 29, .ro, 0⟩, ⟨28, 28, .ro, 0⟩, ⟨27, 27, .ro, 0⟩, ⟨26, 26, .ro, 0⟩]⟩
def FIRE_HORIZON : RegDef := ⟨0x70108, 8, 0x40, 1, 0x0, [⟨31, 16, .ro, 0x6ddd⟩, ⟨15, 0, .rw, 0x6ddd⟩]⟩
def FIRE_TMIN : RegDef := ⟨0x7010c, 8, 0x40, 1, 0x0, [⟨23, 0, .ro, 0⟩]⟩
def FIRE_TBURST : RegDef := ⟨0x70110, 8, 0x40, 1, 0x0, [⟨23, 0, .ro, 0⟩]⟩
def FIRE_PWK : RegDef := ⟨0x70114, 8, 0x40, 1, 0x0, [⟨31, 16, .rw, 0⟩, ⟨15, 0, .rw, 0⟩]⟩
def FIRE_PWREF : RegDef := ⟨0x70118, 8, 0x40, 1, 0x0, [⟨31, 16, .rw, 0x280⟩, ⟨15, 0, .rw, 0⟩]⟩
def FIRE_SKIPCNT : RegDef := ⟨0x7011c, 8, 0x40, 1, 0x0, [⟨31, 0, .rc, 0⟩]⟩
def FIRE_LATECNT : RegDef := ⟨0x70120, 8, 0x40, 1, 0x0, [⟨31, 0, .rc, 0⟩]⟩
def FIRE_STOPLO : RegDef := ⟨0x70124, 8, 0x40, 1, 0x0, [⟨31, 0, .ro, 0⟩]⟩
def FIRE_STOPHI : RegDef := ⟨0x70128, 8, 0x40, 1, 0x0, [⟨31, 0, .ro, 0⟩]⟩
def FIRE_SEG : RegDef := ⟨0x72000, 2048, 0x4, 1, 0x0, [⟨31, 31, .ro, 0⟩, ⟨30, 30, .ro, 0⟩, ⟨29, 29, .ro, 0⟩, ⟨24, 16, .rw, 0⟩, ⟨15, 0, .ro, 0⟩]⟩
def HLP_CTL : RegDef := ⟨0x90000, 16, 0x1000, 1, 0x0, [⟨31, 31, .rw, 0⟩, ⟨30, 30, .rw, 0⟩, ⟨29, 29, .rw, 1⟩, ⟨28, 28, .rw, 0⟩, ⟨27, 27, .rw, 0⟩, ⟨26, 26, .rw, 1⟩, ⟨19, 16, .rw, 3⟩, ⟨15, 0, .rw, 0x1388⟩]⟩
def HLP_STAT : RegDef := ⟨0x90004, 16, 0x1000, 1, 0x0, [⟨31, 28, .ro, 0⟩, ⟨27, 26, .ro, 3⟩, ⟨25, 25, .ro, 0⟩, ⟨24, 24, .ro, 0⟩, ⟨23, 23, .ro, 0⟩, ⟨22, 22, .ro, 0⟩, ⟨21, 21, .ro, 0⟩, ⟨20, 20, .ro, 0⟩]⟩
def HLP_SLIP : RegDef := ⟨0x90008, 16, 0x1000, 1, 0x0, [⟨3, 2, .wo, 0⟩, ⟨1, 1, .wo, 0⟩, ⟨0, 0, .wo, 0⟩]⟩
def HLP_SKEW : RegDef := ⟨0x9000c, 16, 0x1000, 1, 0x0, [⟨24, 16, .ro, 0⟩, ⟨12, 8, .ro, 0⟩, ⟨4, 0, .ro, 0⟩]⟩
def HLP_FFE : RegDef := ⟨0x90010, 16, 0x1000, 2, 0x4, [⟨31, 24, .ro, 0x33⟩, ⟨23, 16, .rw, 0⟩, ⟨15, 8, .rw, 0xf8⟩, ⟨7, 0, .rw, 0xfc⟩]⟩
def HLP_CAL : RegDef := ⟨0x90018, 16, 0x1000, 1, 0x0, [⟨31, 31, .wo, 0⟩, ⟨30, 30, .rw, 0⟩, ⟨29, 29, .w1c, 0⟩, ⟨28, 28, .w1c, 0⟩, ⟨27, 27, .w1c, 0⟩, ⟨23, 16, .rw, 4⟩, ⟨15, 8, .rw, 0x10⟩, ⟨7, 4, .rw, 8⟩]⟩
def HLP_RTT : RegDef := ⟨0x9001c, 16, 0x1000, 1, 0x0, [⟨31, 31, .ro, 0⟩, ⟨30, 24, .ro, 0⟩, ⟨15, 0, .ro, 0⟩]⟩
def HLP_CABLE : RegDef := ⟨0x90020, 16, 0x1000, 1, 0x0, [⟨31, 24, .rw, 0xc8⟩, ⟨23, 14, .ro, 0⟩, ⟨13, 0, .ro, 0⟩]⟩
def HLP_PGEN : RegDef := ⟨0x90024, 16, 0x1000, 1, 0x0, [⟨31, 31, .rw, 0⟩, ⟨30, 30, .rw, 0⟩, ⟨29, 29, .rw, 0⟩, ⟨28, 26, .rw, 0⟩, ⟨25, 25, .wo, 0⟩]⟩
def HLP_PCHK : RegDef := ⟨0x90028, 16, 0x1000, 1, 0x0, [⟨31, 31, .rw, 0⟩, ⟨30, 29, .rw, 0⟩, ⟨28, 26, .rw, 0⟩, ⟨25, 25, .ro, 0⟩]⟩
def HLP_PERR : RegDef := ⟨0x9002c, 16, 0x1000, 1, 0x0, [⟨31, 0, .rc, 0⟩]⟩
def HLP_INJ : RegDef := ⟨0x90030, 16, 0x1000, 1, 0x0, [⟨31, 31, .wo, 0⟩, ⟨30, 30, .rw, 0⟩, ⟨24, 20, .rw, 1⟩, ⟨10, 0, .rw, 0⟩]⟩
def HLP_LNKCNT : RegDef := ⟨0x90034, 16, 0x1000, 1, 0x0, [⟨31, 16, .rc, 0⟩, ⟨15, 8, .rc, 0⟩, ⟨7, 0, .rc, 0⟩]⟩
def HLK_CFG : RegDef := ⟨0xa0000, 1, 0x0, 1, 0x0, [⟨31, 31, .rw, 1⟩, ⟨30, 28, .rw, 3⟩, ⟨27, 24, .rw, 3⟩, ⟨23, 16, .rw, 0xa⟩, ⟨15, 0, .rw, 0xc8⟩]⟩
def HLK_PSTAT : RegDef := ⟨0xa1000, 16, 0x40, 1, 0x0, [⟨31, 29, .ro, 0⟩, ⟨28, 24, .ro, 0⟩, ⟨15, 0, .ro, 0⟩]⟩
def HLK_SEGEN : RegDef := ⟨0xa1010, 16, 0x40, 4, 0x4, [⟨31, 0, .rw, 0⟩]⟩
def HLK_FECCOR : RegDef := ⟨0xa1020, 16, 0x40, 1, 0x0, [⟨31, 0, .rc, 0⟩]⟩
def HLK_FECUNC : RegDef := ⟨0xa1024, 16, 0x40, 1, 0x0, [⟨31, 0, .rc, 0⟩]⟩
def HLK_RESEND : RegDef := ⟨0xa1028, 16, 0x40, 1, 0x0, [⟨31, 0, .rc, 0⟩]⟩
def HLK_DISCARD : RegDef := ⟨0xa102c, 16, 0x40, 1, 0x0, [⟨31, 0, .rc, 0⟩]⟩
def HLK_UPCRC : RegDef := ⟨0xa1030, 16, 0x40, 1, 0x0, [⟨31, 0, .rc, 0⟩]⟩
def HLK_SEG : RegDef := ⟨0xa8000, 2048, 0x4, 1, 0x0, [⟨31, 29, .ro, 0⟩, ⟨28, 24, .ro, 0⟩, ⟨23, 16, .rc, 0⟩, ⟨15, 0, .ro, 0⟩]⟩
def DMC_CTL : RegDef := ⟨0xb0000, 1, 0x0, 1, 0x0, [⟨31, 31, .rw, 0⟩, ⟨30, 30, .rw, 1⟩, ⟨29, 29, .rw, 0⟩, ⟨19, 16, .rw, 0⟩]⟩
def DMC_STAT : RegDef := ⟨0xb0004, 1, 0x0, 1, 0x0, [⟨31, 31, .ro, 0⟩, ⟨30, 30, .ro, 0⟩, ⟨29, 29, .ro, 0⟩, ⟨28, 28, .ro, 0⟩, ⟨23, 20, .ro, 0⟩, ⟨19, 16, .ro, 0⟩, ⟨7, 0, .ro, 0⟩]⟩
def DMC_ILV : RegDef := ⟨0xb0008, 1, 0x0, 1, 0x0, [⟨3, 0, .rw, 4⟩]⟩
def DMC_PRIO : RegDef := ⟨0xb000c, 1, 0x0, 1, 0x0, [⟨31, 24, .rw, 0x10⟩, ⟨23, 16, .rw, 0x30⟩, ⟨15, 8, .rw, 0x10⟩, ⟨7, 0, .rw, 0x14⟩]⟩
def DMC_PAGE : RegDef := ⟨0xb0010, 1, 0x0, 1, 0x0, [⟨15, 0, .rw, 0x64⟩]⟩
def DMC_SRCFG : RegDef := ⟨0xb0014, 1, 0x0, 1, 0x0, [⟨31, 31, .rw, 1⟩, ⟨30, 16, .ro, 0⟩, ⟨15, 0, .rw, 0x32⟩]⟩
def DMC_TEMP : RegDef := ⟨0xb0018, 1, 0x0, 1, 0x0, [⟨31, 24, .rw, 1⟩, ⟨23, 20, .rw, 4⟩, ⟨7, 0, .ro, 0⟩]⟩
def DMC_RFWIN : RegDef := ⟨0xb001c, 1, 0x0, 1, 0x0, [⟨31, 16, .ro, 0⟩, ⟨15, 0, .ro, 0⟩]⟩
def DMC_RFNEXTLO : RegDef := ⟨0xb0020, 1, 0x0, 1, 0x0, [⟨31, 0, .ro, 0⟩]⟩
def DMC_RFNEXTHI : RegDef := ⟨0xb0024, 1, 0x0, 1, 0x0, [⟨31, 0, .ro, 0⟩]⟩
def DMC_FCHG : RegDef := ⟨0xb0028, 1, 0x0, 1, 0x0, [⟨31, 31, .wo, 0⟩, ⟨30, 30, .rw, 0⟩, ⟨29, 29, .w1c, 0⟩, ⟨28, 28, .w1c, 0⟩, ⟨15, 0, .ro, 0⟩]⟩
def DMC_RCAL : RegDef := ⟨0xb002c, 1, 0x0, 1, 0x0, [⟨15, 8, .rw, 0xa⟩, ⟨7, 0, .rw, 0x20⟩]⟩
def DMC_SCRUB : RegDef := ⟨0xb0030, 1, 0x0, 1, 0x0, [⟨31, 31, .rw, 1⟩, ⟨23, 16, .rw, 0x10⟩, ⟨15, 0, .rw, 0x18⟩]⟩
def DMC_TSET : RegDef := ⟨0xb0040, 2, 0x4, 1, 0x0, [⟨31, 31, .ro, 0⟩, ⟨27, 24, .rw, 4⟩, ⟨23, 16, .ro, 0⟩, ⟨15, 0, .ro, 0⟩]⟩
def DMC_CHSTAT : RegDef := ⟨0xb1000, 4, 0x100, 1, 0x0, [⟨31, 28, .ro, 0⟩, ⟨27, 27, .ro, 0⟩, ⟨26, 25, .ro, 0⟩, ⟨22, 16, .ro, 0⟩, ⟨15, 0, .ro, 0⟩]⟩
def DMC_CECNT : RegDef := ⟨0xb1004, 4, 0x100, 1, 0x0, [⟨31, 0, .rc, 0⟩]⟩
def DMC_UECNT : RegDef := ⟨0xb1008, 4, 0x100, 1, 0x0, [⟨31, 0, .rc, 0⟩]⟩
def DMC_SYMCE : RegDef := ⟨0xb1040, 4, 0x100, 10, 0x4, [⟨31, 0, .rc, 0⟩]⟩
def DMC_ELOGLO : RegDef := ⟨0xb100c, 4, 0x100, 1, 0x0, [⟨31, 6, .ro, 0⟩]⟩
def DMC_ELOGHI : RegDef := ⟨0xb1010, 4, 0x100, 1, 0x0, [⟨31, 31, .ro, 0⟩, ⟨23, 20, .ro, 0⟩, ⟨19, 16, .ro, 0⟩, ⟨7, 0, .ro, 0⟩]⟩
def DMC_INJ : RegDef := ⟨0xb1014, 4, 0x100, 1, 0x0, [⟨31, 31, .wo, 0⟩, ⟨30, 30, .rw, 0⟩, ⟨29, 26, .rw, 0⟩, ⟨25, 22, .rw, 1⟩, ⟨21, 18, .rw, 0⟩, ⟨11, 8, .rw, 0⟩, ⟨3, 0, .rw, 1⟩]⟩
def DMC_ECCTEST : RegDef := ⟨0xb1018, 4, 0x100, 1, 0x0, [⟨31, 31, .rw, 0⟩]⟩
def DMC_ESYN : RegDef := ⟨0xb101c, 4, 0x100, 1, 0x0, [⟨8, 8, .ro, 0⟩, ⟨7, 4, .ro, 0⟩, ⟨3, 0, .ro, 0⟩]⟩
def TARN_CTL : RegDef := ⟨0xc0000, 1, 0x0, 1, 0x0, [⟨31, 31, .rw, 1⟩, ⟨30, 30, .rw, 1⟩, ⟨15, 0, .rw, 0x3c⟩]⟩
def TARN_STAT : RegDef := ⟨0xc0004, 1, 0x0, 1, 0x0, [⟨31, 31, .w1c, 0⟩]⟩
def TARN_INIT : RegDef := ⟨0xc0008, 1, 0x0, 1, 0x0, [⟨31, 31, .wo, 0⟩, ⟨30, 30, .ro, 0⟩, ⟨5, 0, .rw, 0⟩]⟩
def TARN_INITRNG : RegDef := ⟨0xc000c, 1, 0x0, 1, 0x0, [⟨31, 16, .rw, 0⟩, ⟨15, 0, .rw, 0⟩]⟩
def TARN_DMAHALT : RegDef := ⟨0xc0010, 1, 0x0, 1, 0x0, [⟨17, 0, .w1c, 0⟩]⟩
def TARN_MSTAT : RegDef := ⟨0xc1000, 50, 0x80, 1, 0x0, [⟨31, 31, .w1c, 0⟩, ⟨20, 16, .ro, 0⟩]⟩
def TARN_CECNT : RegDef := ⟨0xc1004, 50, 0x80, 1, 0x0, [⟨31, 0, .rc, 0⟩]⟩
def TARN_UECNT : RegDef := ⟨0xc1008, 50, 0x80, 1, 0x0, [⟨31, 0, .rc, 0⟩]⟩
def TARN_ELOG : RegDef := ⟨0xc100c, 50, 0x80, 1, 0x0, [⟨31, 31, .ro, 0⟩, ⟨30, 26, .ro, 0⟩, ⟨20, 15, .ro, 0⟩, ⟨14, 0, .ro, 0⟩]⟩
def TARN_TCTL : RegDef := ⟨0xc1010, 50, 0x80, 1, 0x0, [⟨31, 31, .rw, 0⟩, ⟨30, 30, .rw, 0⟩]⟩
def TARN_TMASK : RegDef := ⟨0xc1014, 50, 0x80, 1, 0x0, [⟨12, 8, .rw, 0⟩, ⟨7, 0, .rw, 0⟩]⟩
def TARN_TRAW : RegDef := ⟨0xc1018, 50, 0x80, 1, 0x0, [⟨4, 0, .ro, 0⟩]⟩
def TARN_RMAP : RegDef := ⟨0xc1040, 50, 0x80, 16, 0x4, [⟨31, 31, .rw, 0⟩, ⟨14, 0, .rw, 0⟩]⟩
def CAM_PCTL : RegDef := ⟨0xd0100, 2, 0x100, 1, 0x0, [⟨31, 31, .rw, 0⟩, ⟨30, 30, .rw, 0⟩, ⟨29, 29, .rw, 0⟩, ⟨28, 28, .rw, 0⟩, ⟨27, 27, .rw, 0⟩, ⟨26, 26, .rw, 0⟩, ⟨2, 0, .rw, 0⟩]⟩
def CAM_PSTAT : RegDef := ⟨0xd0104, 2, 0x100, 1, 0x0, [⟨31, 31, .ro, 0⟩, ⟨30, 30, .ro, 0⟩, ⟨29, 29, .ro, 0⟩, ⟨28, 28, .w1c, 0⟩, ⟨15, 0, .ro, 0⟩]⟩
def CAM_GEOM : RegDef := ⟨0xd0108, 2, 0x100, 1, 0x0, [⟨31, 16, .rw, 1⟩, ⟨14, 0, .rw, 0x800⟩]⟩
def CAM_TRIG : RegDef := ⟨0xd010c, 2, 0x100, 1, 0x0, [⟨30, 30, .rw, 0⟩, ⟨23, 16, .rw, 0xa⟩, ⟨15, 0, .rw, 0x3e8⟩]⟩
def CAM_TINT : RegDef := ⟨0xd0110, 2, 0x100, 1, 0x0, [⟨31, 0, .rw, 0⟩]⟩
def CAM_STRB : RegDef := ⟨0xd0114, 2, 0x100, 1, 0x0, [⟨31, 16, .rw, 0⟩, ⟨15, 0, .rw, 0⟩]⟩
def CAM_NR : RegDef := ⟨0xd0118, 2, 0x100, 1, 0x0, [⟨31, 31, .rw, 0⟩, ⟨8, 0, .rw, 0x100⟩]⟩
def CAM_FFBASE : RegDef := ⟨0xd011c, 2, 0x100, 1, 0x0, [⟨31, 31, .rw, 0⟩, ⟨19, 0, .rw, 0⟩]⟩
def CAM_DISTLO : RegDef := ⟨0xd0120, 2, 0x100, 1, 0x0, [⟨31, 0, .rw, 0⟩]⟩
def CAM_DISTHI : RegDef := ⟨0xd0124, 2, 0x100, 1, 0x0, [⟨31, 0, .rw, 0⟩]⟩
def CAM_PPC : RegDef := ⟨0xd0128, 2, 0x100, 1, 0x0, [⟨31, 0, .rw, 0⟩]⟩
def CAM_XOFF : RegDef := ⟨0xd0140, 2, 0x100, 8, 0x4, [⟨31, 0, .rw, 0⟩]⟩
def CAM_FRCNT : RegDef := ⟨0xd012c, 2, 0x100, 1, 0x0, [⟨31, 0, .rc, 0⟩]⟩
def CAM_DROPCNT : RegDef := ⟨0xd0130, 2, 0x100, 1, 0x0, [⟨31, 0, .rc, 0⟩]⟩
def CAM_FLAST : RegDef := ⟨0xd0134, 2, 0x100, 1, 0x0, [⟨31, 31, .ro, 0⟩, ⟨30, 30, .ro, 0⟩, ⟨29, 29, .ro, 0⟩, ⟨28, 28, .ro, 0⟩, ⟨27, 27, .ro, 0⟩, ⟨26, 26, .ro, 0⟩, ⟨15, 0, .ro, 0⟩]⟩
def CAM_SCTL : RegDef := ⟨0xd0180, 2, 0x100, 4, 0x10, [⟨31, 31, .rw, 0⟩, ⟨27, 26, .rw, 0⟩, ⟨25, 24, .rw, 0⟩, ⟨14, 0, .rw, 0⟩]⟩
def CAM_SWIN : RegDef := ⟨0xd0184, 2, 0x100, 4, 0x10, [⟨31, 16, .rw, 0⟩, ⟨14, 0, .rw, 0⟩]⟩
def CAM_SBASE : RegDef := ⟨0xd0188, 2, 0x100, 4, 0x10, [⟨31, 24, .rw, 0⟩, ⟨19, 0, .rw, 0⟩]⟩
def CAM_SPTR : RegDef := ⟨0xd018c, 2, 0x100, 4, 0x10, [⟨31, 0, .ro, 0⟩]⟩
def TIME_SNAP : RegDef := ⟨0xe0000, 1, 0x0, 1, 0x0, [⟨31, 31, .wo, 0⟩, ⟨30, 30, .ro, 0⟩]⟩
def TIME_SNAPCLO : RegDef := ⟨0xe0004, 1, 0x0, 1, 0x0, [⟨31, 0, .ro, 0⟩]⟩
def TIME_SNAPCHI : RegDef := ⟨0xe0008, 1, 0x0, 1, 0x0, [⟨31, 0, .ro, 0⟩]⟩
def TIME_SNAPPLO : RegDef := ⟨0xe000c, 1, 0x0, 1, 0x0, [⟨31, 0, .ro, 0⟩]⟩
def TIME_SNAPPHI : RegDef := ⟨0xe0010, 1, 0x0, 1, 0x0, [⟨31, 0, .ro, 0⟩]⟩
def TIME_TBCTL : RegDef := ⟨0xe0100, 4, 0x40, 1, 0x0, [⟨31, 31, .rw, 0⟩, ⟨30, 30, .wo, 0⟩, ⟨29, 29, .wo, 0⟩, ⟨28, 28, .rw, 0⟩, ⟨27, 26, .rw, 0⟩, ⟨23, 16, .rw, 0⟩]⟩
def TIME_TBSTAT : RegDef := ⟨0xe0104, 4, 0x40, 1, 0x0, [⟨31, 31, .ro, 0⟩, ⟨30, 30, .w1c, 0⟩, ⟨29, 29, .w1c, 0⟩, ⟨28, 28, .w1c, 0⟩]⟩
def TIME_NS : RegDef := ⟨0xe0108, 4, 0x40, 1, 0x0, [⟨31, 0, .ro, 0⟩]⟩
def TIME_SECLO : RegDef := ⟨0xe010c, 4, 0x40, 1, 0x0, [⟨31, 0, .ro, 0⟩]⟩
def TIME_SECHI : RegDef := ⟨0xe0110, 4, 0x40, 1, 0x0, [⟨31, 0, .ro, 0⟩]⟩
def TIME_SNNS : RegDef := ⟨0xe0124, 4, 0x40, 1, 0x0, [⟨31, 0, .ro, 0⟩]⟩
def TIME_SNSECLO : RegDef := ⟨0xe0128, 4, 0x40, 1, 0x0, [⟨31, 0, .ro, 0⟩]⟩
def TIME_SNSECHI : RegDef := ⟨0xe012c, 4, 0x40, 1, 0x0, [⟨31, 0, .ro, 0⟩]⟩
def TIME_RATE : RegDef := ⟨0xe0114, 4, 0x40, 1, 0x0, [⟨31, 0, .rw, 0⟩]⟩
def TIME_STEPA : RegDef := ⟨0xe0118, 4, 0x40, 1, 0x0, [⟨31, 0, .rw, 0⟩]⟩
def TIME_STEPB : RegDef := ⟨0xe011c, 4, 0x40, 1, 0x0, [⟨31, 0, .rw, 0⟩]⟩
def TIME_STEPC : RegDef := ⟨0xe0120, 4, 0x40, 1, 0x0, [⟨31, 0, .rw, 0⟩]⟩
def TIME_ECTL : RegDef := ⟨0xe0800, 2, 0x100, 1, 0x0, [⟨31, 31, .rw, 0⟩, ⟨27, 26, .rw, 1⟩]⟩
def TIME_ESTAT : RegDef := ⟨0xe0804, 2, 0x100, 1, 0x0, [⟨31, 31, .ro, 0⟩]⟩
def TIME_MACLO : RegDef := ⟨0xe0808, 2, 0x100, 1, 0x0, [⟨31, 0, .rw, 0⟩]⟩
def TIME_MACHI : RegDef := ⟨0xe080c, 2, 0x100, 1, 0x0, [⟨31, 0, .rw, 0⟩]⟩
def TIME_TXLAT : RegDef := ⟨0xe0810, 2, 0x100, 1, 0x0, [⟨31, 0, .rw, 0⟩]⟩
def TIME_RXLAT : RegDef := ⟨0xe0814, 2, 0x100, 1, 0x0, [⟨31, 0, .rw, 0⟩]⟩
def TIME_RXBASE : RegDef := ⟨0xe0818, 2, 0x100, 1, 0x0, [⟨19, 0, .rw, 0⟩]⟩
def TIME_RXCFG : RegDef := ⟨0xe081c, 2, 0x100, 1, 0x0, [⟨19, 0, .rw, 0⟩]⟩
def TIME_RXPTR : RegDef := ⟨0xe0820, 2, 0x100, 1, 0x0, [⟨31, 0, .ro, 0⟩]⟩
def TIME_RXDROP : RegDef := ⟨0xe0824, 2, 0x100, 1, 0x0, [⟨31, 0, .rc, 0⟩]⟩
def TIME_FCSERR : RegDef := ⟨0xe0828, 2, 0x100, 1, 0x0, [⟨31, 0, .rc, 0⟩]⟩
def TIME_LATETOL : RegDef := ⟨0xe082c, 2, 0x100, 1, 0x0, [⟨31, 0, .rw, 0x64⟩]⟩
def TIME_LATEWPU : RegDef := ⟨0xe0830, 2, 0x100, 1, 0x0, [⟨31, 0, .rw, 0x10000⟩]⟩
def TIME_QBASE : RegDef := ⟨0xe0840, 2, 0x100, 4, 0x10, [⟨19, 0, .rw, 0⟩]⟩
def TIME_QCFG : RegDef := ⟨0xe0844, 2, 0x100, 4, 0x10, [⟨31, 31, .rw, 0⟩, ⟨11, 0, .rw, 0⟩]⟩
def TIME_QHEAD : RegDef := ⟨0xe0848, 2, 0x100, 4, 0x10, [⟨11, 0, .ro, 0⟩]⟩
def TIME_QTAIL : RegDef := ⟨0xe084c, 2, 0x100, 4, 0x10, [⟨11, 0, .rw, 0⟩]⟩
def XING_CTL : RegDef := ⟨0xf0000, 1, 0x0, 1, 0x0, [⟨23, 16, .rw, 0x32⟩, ⟨15, 0, .rw, 0xa⟩]⟩
def XING_STAT : RegDef := ⟨0xf0004, 1, 0x0, 1, 0x0, [⟨31, 31, .ro, 0⟩, ⟨30, 27, .ro, 0⟩, ⟨26, 26, .w1c, 0⟩]⟩
def XING_IRST : RegDef := ⟨0xf0008, 1, 0x0, 1, 0x0, [⟨31, 31, .wo, 0⟩, ⟨4, 0, .rw, 0⟩]⟩
def XING_OSC : RegDef := ⟨0xf000c, 1, 0x0, 1, 0x0, [⟨31, 31, .ro, 0⟩, ⟨27, 16, .ro, 0⟩, ⟨11, 0, .ro, 0⟩]⟩
def XING_LASTREF : RegDef := ⟨0xf0010, 1, 0x0, 1, 0x0, [⟨20, 0, .ro, 0⟩]⟩
def XING_OTRIM : RegDef := ⟨0xf0040, 16, 0x4, 1, 0x0, [⟨11, 0, .ro, 0⟩]⟩
def XING_ISTAT : RegDef := ⟨0xf0100, 29, 0x4, 1, 0x0, [⟨31, 30, .ro, 0⟩, ⟨29, 29, .w1c, 0⟩, ⟨28, 28, .ro, 0⟩, ⟨27, 27, .w1c, 0⟩, ⟨2, 0, .ro, 0⟩]⟩
def FLT_CTL : RegDef := ⟨0x100000, 1, 0x0, 1, 0x0, [⟨26, 24, .rw, 3⟩, ⟨15, 8, .rw, 0x28⟩, ⟨7, 0, .rw, 0x64⟩]⟩
def FLT_STAT : RegDef := ⟨0x100004, 1, 0x0, 1, 0x0, [⟨31, 31, .w1c, 0⟩, ⟨30, 30, .w1c, 0⟩, ⟨29, 29, .w1c, 0⟩, ⟨2, 0, .ro, 0⟩]⟩
def FLT_HSEQ : RegDef := ⟨0x100008, 1, 0x0, 1, 0x0, [⟨31, 0, .ro, 1⟩]⟩
def FLT_HSTAT : RegDef := ⟨0x10000c, 1, 0x0, 1, 0x0, [⟨31, 26, .ro, 0⟩, ⟨15, 0, .rc, 0⟩]⟩
def FLT_FFSEQ : RegDef := ⟨0x100010, 1, 0x0, 1, 0x0, [⟨31, 0, .ro, 0⟩]⟩
def FLT_FFCODE : RegDef := ⟨0x100014, 1, 0x0, 1, 0x0, [⟨31, 31, .w1c, 0⟩, ⟨18, 16, .ro, 0⟩, ⟨15, 0, .ro, 0⟩]⟩
def FLT_FFTIMELO : RegDef := ⟨0x100018, 1, 0x0, 1, 0x0, [⟨31, 0, .ro, 0⟩]⟩
def FLT_FFTIMEHI : RegDef := ⟨0x10001c, 1, 0x0, 1, 0x0, [⟨31, 0, .ro, 0⟩]⟩
def FLT_INJ : RegDef := ⟨0x100020, 1, 0x0, 1, 0x0, [⟨31, 31, .wo, 0⟩, ⟨30, 30, .rw, 0⟩, ⟨15, 0, .rw, 0⟩]⟩
def FLT_GRAVE : RegDef := ⟨0x100024, 1, 0x0, 1, 0x0, [⟨31, 31, .w1c, 0⟩, ⟨15, 0, .ro, 0⟩]⟩
def FLT_GRAVEARG : RegDef := ⟨0x100028, 1, 0x0, 1, 0x0, [⟨31, 0, .ro, 0⟩]⟩
def FLT_CLRALL : RegDef := ⟨0x100030, 1, 0x0, 1, 0x0, [⟨0, 0, .wo, 0⟩]⟩
def FLT_HIST : RegDef := ⟨0x100100, 32, 0x20, 8, 0x4, [⟨31, 0, .ro, 0⟩]⟩
def FLT_CCFG : RegDef := ⟨0x108000, 21, 0x100, 64, 0x4, [⟨31, 31, .ro, 0⟩, ⟨30, 28, .ro, 0⟩, ⟨27, 25, .ro, 0⟩, ⟨24, 22, .ro, 0⟩, ⟨21, 21, .w1c, 0⟩, ⟨20, 20, .w1c, 0⟩, ⟨19, 19, .rw, 0⟩, ⟨18, 16, .rw, 0⟩, ⟨15, 15, .ro, 0⟩, ⟨14, 14, .ro, 0⟩, ⟨13, 13, .ro, 0⟩]⟩
def FLT_CCNT : RegDef := ⟨0x10a000, 21, 0x100, 64, 0x4, [⟨31, 0, .rc, 0⟩]⟩
def SPR_CTL : RegDef := ⟨0x110000, 1, 0x0, 1, 0x0, [⟨31, 31, .rw, 0⟩, ⟨15, 0, .rw, 0x3c⟩]⟩
def SPR_POOL : RegDef := ⟨0x110004, 1, 0x0, 1, 0x0, [⟨17, 0, .rw, 0x30000⟩]⟩
def SPR_FAILED : RegDef := ⟨0x110008, 1, 0x0, 1, 0x0, [⟨17, 0, .w1c, 0⟩]⟩
def SPR_BEAT : RegDef := ⟨0x11000c, 1, 0x0, 1, 0x0, [⟨31, 0, .wo, 0⟩]⟩
def SPR_GIVEUP : RegDef := ⟨0x110010, 1, 0x0, 1, 0x0, [⟨31, 0, .wo, 0⟩]⟩
def SPR_ASSERT : RegDef := ⟨0x110014, 1, 0x0, 1, 0x0, [⟨31, 0, .wo, 0⟩]⟩
def SPR_TKSTAT : RegDef := ⟨0x110018, 1, 0x0, 1, 0x0, [⟨31, 31, .ro, 0⟩, ⟨27, 24, .ro, 0⟩, ⟨20, 16, .ro, 0⟩, ⟨15, 0, .rc, 0⟩]⟩
def SPR_DUPCNT : RegDef := ⟨0x11001c, 1, 0x0, 1, 0x0, [⟨31, 0, .rc, 0⟩]⟩
def SPR_RCTL : RegDef := ⟨0x110100, 16, 0x10, 1, 0x0, [⟨31, 31, .rw, 0⟩, ⟨30, 30, .rw, 0⟩, ⟨28, 24, .rw, 0⟩, ⟨20, 16, .rw, 0⟩, ⟨15, 0, .rw, 0x32⟩]⟩
def SPR_RCLAIM : RegDef := ⟨0x110104, 16, 0x10, 1, 0x0, [⟨31, 0, .ro, 0⟩]⟩
def SPR_IMG : RegDef := ⟨0x110108, 16, 0x10, 1, 0x0, [⟨31, 6, .rw, 0⟩]⟩
def SPR_LASTLO : RegDef := ⟨0x110200, 8, 0x8, 1, 0x0, [⟨31, 0, .ro, 0⟩]⟩
def SPR_LASTHI : RegDef := ⟨0x110204, 8, 0x8, 1, 0x0, [⟨31, 0, .ro, 0⟩]⟩
def SENS_CTL : RegDef := ⟨0x120000, 1, 0x0, 1, 0x0, [⟨31, 31, .rw, 1⟩, ⟨15, 0, .rw, 0x3e8⟩]⟩
def SENS_TCFG : RegDef := ⟨0x120004, 1, 0x0, 1, 0x0, [⟨23, 16, .rw, 8⟩, ⟨15, 0, .rw, 0xf0⟩]⟩
def SENS_TLIM : RegDef := ⟨0x120008, 1, 0x0, 1, 0x0, [⟨23, 16, .rw, 0x73⟩, ⟨15, 8, .rw, 0x69⟩, ⟨7, 0, .rw, 3⟩]⟩
def SENS_TJ : RegDef := ⟨0x12000c, 1, 0x0, 1, 0x0, [⟨31, 28, .ro, 0⟩, ⟨27, 24, .ro, 0⟩, ⟨15, 0, .ro, 0⟩]⟩
def SENS_OTSTAT : RegDef := ⟨0x120010, 1, 0x0, 1, 0x0, [⟨31, 31, .ro, 0⟩, ⟨5, 0, .ro, 0⟩]⟩
def SENS_OTREC : RegDef := ⟨0x120080, 32, 0x4, 1, 0x0, [⟨31, 0, .ro, 0⟩]⟩
def SENS_LRES : RegDef := ⟨0x120100, 12, 0x4, 1, 0x0, [⟨31, 0, .ro, 0⟩]⟩
def SENS_LCFG : RegDef := ⟨0x120014, 1, 0x0, 1, 0x0, [⟨31, 24, .rw, 0x14⟩, ⟨23, 16, .rw, 0x14⟩, ⟨15, 8, .rw, 0x3c⟩, ⟨7, 0, .rw, 0x8c⟩]⟩
def SENS_LTO : RegDef := ⟨0x120018, 1, 0x0, 1, 0x0, [⟨15, 0, .rw, 0x32⟩]⟩
def SENS_LSTAT : RegDef := ⟨0x12001c, 1, 0x0, 1, 0x0, [⟨31, 31, .ro, 0⟩, ⟨23, 16, .ro, 0⟩, ⟨15, 0, .ro, 0⟩]⟩
def SENS_CSCH : RegDef := ⟨0x120020, 1, 0x0, 1, 0x0, [⟨31, 31, .rw, 1⟩, ⟨27, 24, .rw, 4⟩, ⟨15, 0, .rw, 0xe10⟩]⟩
def SENS_TS : RegDef := ⟨0x120040, 12, 0x4, 1, 0x0, [⟨31, 31, .w1c, 0⟩, ⟨30, 30, .ro, 0⟩, ⟨15, 0, .ro, 0⟩]⟩
def SENS_ACH : RegDef := ⟨0x120200, 24, 0x10, 1, 0x0, [⟨31, 31, .rw, 0⟩, ⟨27, 24, .rw, 4⟩, ⟨23, 16, .rw, 4⟩, ⟨15, 0, .rw, 0⟩]⟩
def SENS_ALIM : RegDef := ⟨0x120204, 24, 0x10, 1, 0x0, [⟨31, 16, .rw, 0⟩, ⟨15, 0, .rw, 0⟩]⟩
def SENS_AVAL : RegDef := ⟨0x120208, 24, 0x10, 1, 0x0, [⟨31, 31, .ro, 0⟩, ⟨30, 30, .ro, 0⟩, ⟨15, 0, .ro, 0⟩]⟩
def SENS_CUNIT : RegDef := ⟨0x120400, 37, 0x10, 1, 0x0, [⟨31, 31, .rw, 1⟩, ⟨27, 24, .rw, 0⟩, ⟨15, 0, .rw, 0⟩]⟩
def SENS_CUSTAT : RegDef := ⟨0x120404, 37, 0x10, 1, 0x0, [⟨31, 31, .ro, 0⟩, ⟨30, 30, .ro, 0⟩, ⟨29, 16, .rc, 0⟩, ⟨15, 0, .ro, 0⟩]⟩
def SENS_CUTIME : RegDef := ⟨0x120408, 37, 0x10, 1, 0x0, [⟨31, 0, .ro, 0⟩]⟩
def SEC_LCS : RegDef := ⟨0x130000, 1, 0x0, 1, 0x0, [⟨31, 28, .ro, 0⟩, ⟨27, 27, .w1c, 0⟩, ⟨26, 26, .ro, 0⟩, ⟨25, 22, .ro, 0⟩]⟩
def SEC_CMD : RegDef := ⟨0x130004, 1, 0x0, 1, 0x0, [⟨31, 31, .wo, 0⟩, ⟨30, 30, .ro, 0⟩, ⟨29, 29, .w1c, 0⟩, ⟨15, 8, .rw, 0⟩, ⟨7, 0, .rw, 0⟩]⟩
def SEC_CMDADDR : RegDef := ⟨0x130008, 1, 0x0, 1, 0x0, [⟨31, 6, .rw, 0⟩]⟩
def SEC_CMDSTAT : RegDef := ⟨0x13000c, 1, 0x0, 1, 0x0, [⟨31, 24, .ro, 0⟩, ⟨15, 0, .ro, 0⟩]⟩
def SEC_TAMPER : RegDef := ⟨0x130010, 1, 0x0, 1, 0x0, [⟨31, 31, .w1c, 0⟩, ⟨23, 16, .ro, 0⟩, ⟨15, 0, .rc, 0⟩]⟩
def SEC_AUDSEQ : RegDef := ⟨0x130014, 1, 0x0, 1, 0x0, [⟨31, 16, .rc, 0⟩, ⟨15, 0, .rw, 0⟩]⟩
def SEC_AUDACK : RegDef := ⟨0x130018, 1, 0x0, 1, 0x0, [⟨31, 0, .rw, 0⟩]⟩
def SEC_DBGCHAL : RegDef := ⟨0x130020, 8, 0x4, 1, 0x0, [⟨31, 0, .ro, 0⟩]⟩
def SEC_VBASE : RegDef := ⟨0x130100, 8, 0x8, 1, 0x0, [⟨31, 0, .ro, 0⟩]⟩
def SEC_VLEN : RegDef := ⟨0x130104, 8, 0x8, 1, 0x0, [⟨31, 0, .ro, 0⟩]⟩
def SYS_RST : RegDef := ⟨0x140000, 1, 0x0, 1, 0x0, [⟨31, 31, .wo, 0⟩, ⟨30, 30, .ro, 0⟩, ⟨15, 0, .wo, 0⟩]⟩
def SYS_RSTCAUSE : RegDef := ⟨0x140004, 1, 0x0, 1, 0x0, [⟨6, 6, .w1c, 0⟩, ⟨5, 5, .w1c, 0⟩, ⟨4, 4, .w1c, 0⟩, ⟨3, 3, .w1c, 0⟩, ⟨2, 2, .w1c, 0⟩, ⟨1, 1, .w1c, 0⟩]⟩
def SYS_STRAP : RegDef := ⟨0x140008, 1, 0x0, 1, 0x0, [⟨2, 2, .ro, 0⟩, ⟨1, 0, .ro, 0⟩]⟩
def SYS_PMODE : RegDef := ⟨0x14000c, 1, 0x0, 1, 0x0, [⟨31, 31, .rw, 0⟩, ⟨30, 30, .ro, 0⟩, ⟨29, 29, .w1c, 0⟩, ⟨15, 0, .ro, 0⟩]⟩
def SYS_WDOG : RegDef := ⟨0x140010, 1, 0x0, 1, 0x0, [⟨31, 31, .rw, 0⟩, ⟨15, 0, .rw, 0x64⟩]⟩
def SYS_HOURS : RegDef := ⟨0x140014, 1, 0x0, 1, 0x0, [⟨31, 0, .ro, 0⟩]⟩
def SYS_BUSCMD : RegDef := ⟨0x140018, 1, 0x0, 1, 0x0, [⟨31, 31, .wo, 0⟩, ⟨30, 30, .ro, 0⟩, ⟨29, 29, .w1c, 0⟩, ⟨28, 28, .w1c, 0⟩, ⟨27, 26, .rw, 0⟩, ⟨23, 16, .rw, 0⟩, ⟨15, 12, .rw, 0⟩, ⟨11, 8, .rw, 0⟩]⟩
def SYS_BUSDATA : RegDef := ⟨0x14001c, 1, 0x0, 1, 0x0, [⟨31, 0, .rw, 0⟩]⟩
def SYS_GPIOCTL : RegDef := ⟨0x140020, 1, 0x0, 1, 0x0, [⟨31, 16, .rw, 0⟩, ⟨15, 0, .rw, 0⟩]⟩
def SYS_GPIOIN : RegDef := ⟨0x140024, 1, 0x0, 1, 0x0, [⟨31, 16, .ro, 0⟩, ⟨15, 0, .ro, 0⟩]⟩
def SYS_BOOTT : RegDef := ⟨0x140028, 1, 0x0, 1, 0x0, [⟨31, 0, .ro, 0⟩]⟩
def MSIX_ADDRLO : RegDef := ⟨0x1f0000, 128, 0x10, 1, 0x0, [⟨31, 2, .rw, 0⟩]⟩
def MSIX_ADDRHI : RegDef := ⟨0x1f0004, 128, 0x10, 1, 0x0, [⟨31, 0, .rw, 0⟩]⟩
def MSIX_DATA : RegDef := ⟨0x1f0008, 128, 0x10, 1, 0x0, [⟨31, 0, .rw, 0⟩]⟩
def MSIX_CTRL : RegDef := ⟨0x1f000c, 128, 0x10, 1, 0x0, [⟨0, 0, .rw, 1⟩]⟩
def MSIX_PBA : RegDef := ⟨0x1f8000, 4, 0x4, 1, 0x0, [⟨31, 0, .ro, 0⟩]⟩
end R

namespace F
def ENG_PACE_MIN : Fld := ⟨0x20000, 0x0, 0x0, 16, 16⟩
def ENG_PACE_COUNT : Fld := ⟨0x20000, 0x0, 0x0, 0, 16⟩
def ENG_AVSCTL_EN : Fld := ⟨0x20010, 0x0, 0x0, 31, 1⟩
def ENG_AVSCTL_MISSJUMP : Fld := ⟨0x20010, 0x0, 0x0, 30, 1⟩
def ENG_AVSCTL_SETTLE : Fld := ⟨0x20010, 0x0, 0x0, 24, 6⟩
def ENG_AVSCTL_HOLD : Fld := ⟨0x20010, 0x0, 0x0, 16, 8⟩
def ENG_AVSCTL_UPSTEP : Fld := ⟨0x20010, 0x0, 0x0, 12, 4⟩
def ENG_AVSCTL_PERIOD : Fld := ⟨0x20010, 0x0, 0x0, 0, 10⟩
def ENG_AVSLIM_VMAX : Fld := ⟨0x20014, 0x0, 0x0, 8, 8⟩
def ENG_AVSLIM_VMIN : Fld := ⟨0x20014, 0x0, 0x0, 0, 8⟩
def ENG_AVSTHR_HIGH : Fld := ⟨0x20018, 0x0, 0x0, 16, 16⟩
def ENG_AVSTHR_LOW : Fld := ⟨0x20018, 0x0, 0x0, 0, 16⟩
def ENG_AVSSTAT_BUSY : Fld := ⟨0x2001c, 0x0, 0x0, 31, 1⟩
def ENG_AVSSTAT_LIMERR : Fld := ⟨0x2001c, 0x0, 0x0, 30, 1⟩
def ENG_AVSSTAT_VREQ : Fld := ⟨0x2001c, 0x0, 0x0, 16, 8⟩
def ENG_AVSSTAT_VREAD : Fld := ⟨0x2001c, 0x0, 0x0, 8, 8⟩
def ENG_AVSSTAT_CALM : Fld := ⟨0x2001c, 0x0, 0x0, 0, 8⟩
def ENG_STALLTO_TIMEOUT : Fld := ⟨0x20020, 0x0, 0x0, 0, 16⟩
def ENG_SWEV_RAISE : Fld := ⟨0x20024, 0x0, 0x0, 0, 16⟩
def ENG_GAUGE_EN : Fld := ⟨0x20100, 0x10, 0x0, 31, 1⟩
def ENG_GAUGE_CLRMIN : Fld := ⟨0x20100, 0x10, 0x0, 30, 1⟩
def ENG_GAUGE_AVS : Fld := ⟨0x20100, 0x10, 0x0, 29, 1⟩
def ENG_GAUGE_MISSREP : Fld := ⟨0x20100, 0x10, 0x0, 28, 1⟩
def ENG_SLACK_VALID : Fld := ⟨0x20104, 0x10, 0x0, 31, 1⟩
def ENG_SLACK_VALUE : Fld := ⟨0x20104, 0x10, 0x0, 0, 24⟩
def ENG_SLACKMIN_VALID : Fld := ⟨0x20108, 0x10, 0x0, 31, 1⟩
def ENG_SLACKMIN_VALUE : Fld := ⟨0x20108, 0x10, 0x0, 0, 24⟩
def ENG_MISSCNT_COUNT : Fld := ⟨0x2010c, 0x10, 0x0, 0, 32⟩
def ENG_EVROUTE_EN : Fld := ⟨0x21000, 0x200, 0x4, 31, 1⟩
def ENG_EVROUTE_OVF : Fld := ⟨0x21000, 0x200, 0x4, 30, 1⟩
def ENG_EVROUTE_COUNT : Fld := ⟨0x21000, 0x200, 0x4, 10, 16⟩
def ENG_EVROUTE_SRC : Fld := ⟨0x21000, 0x200, 0x4, 0, 10⟩
def ENG_ESTAT_STATE : Fld := ⟨0x21100, 0x200, 0x0, 28, 4⟩
def ENG_ESTAT_ROLE : Fld := ⟨0x21100, 0x200, 0x0, 20, 4⟩
def ENG_ESTAT_HOLDS : Fld := ⟨0x21100, 0x200, 0x0, 19, 1⟩
def ENG_ESTAT_DMAFLT : Fld := ⟨0x21100, 0x200, 0x0, 8, 4⟩
def ENG_ESTAT_TRAP : Fld := ⟨0x21100, 0x200, 0x0, 0, 8⟩
def CMT_NEXTTK_TICKET : Fld := ⟨0x30000, 0x0, 0x0, 0, 32⟩
def CMT_TQUERY_ID : Fld := ⟨0x30004, 0x0, 0x0, 0, 16⟩
def CMT_TANS_VALID : Fld := ⟨0x30008, 0x0, 0x0, 31, 1⟩
def CMT_TANS_LIVE : Fld := ⟨0x30008, 0x0, 0x0, 30, 1⟩
def CMT_TANS_STANDBY : Fld := ⟨0x30008, 0x0, 0x0, 0, 20⟩
def CMT_LEAD_LINES : Fld := ⟨0x30010, 0x4, 0x0, 0, 9⟩
def CMT_PVER_VERSION : Fld := ⟨0x30040, 0x4, 0x0, 0, 32⟩
def CMT_GSTAT_STATE : Fld := ⟨0x30800, 0x20, 0x0, 29, 3⟩
def CMT_GSTAT_CAUSE : Fld := ⟨0x30800, 0x20, 0x0, 25, 4⟩
def CMT_GSTAT_EXCL : Fld := ⟨0x30800, 0x20, 0x0, 24, 1⟩
def CMT_GSTAT_ROLE : Fld := ⟨0x30800, 0x20, 0x0, 20, 4⟩
def CMT_GSTAT_NTAB : Fld := ⟨0x30800, 0x20, 0x0, 13, 7⟩
def CMT_GSTAT_NWORD : Fld := ⟨0x30800, 0x20, 0x0, 0, 13⟩
def CMT_GBND_DEFER : Fld := ⟨0x30804, 0x20, 0x0, 31, 1⟩
def CMT_GBND_KIND : Fld := ⟨0x30804, 0x20, 0x0, 28, 3⟩
def CMT_GBND_SEL : Fld := ⟨0x30804, 0x20, 0x0, 25, 3⟩
def CMT_GTKT_VALUE : Fld := ⟨0x30808, 0x20, 0x0, 0, 32⟩
def CMT_GLINELO_VALUE : Fld := ⟨0x3080c, 0x20, 0x0, 0, 32⟩
def CMT_GLINEHI_VALUE : Fld := ⟨0x30810, 0x20, 0x0, 0, 32⟩
def DEV_IDENT_PART : Fld := ⟨0x0, 0x0, 0x0, 16, 16⟩
def DEV_IDENT_STEPPING : Fld := ⟨0x0, 0x0, 0x0, 8, 8⟩
def DEV_STATE_STATE : Fld := ⟨0x4, 0x0, 0x0, 28, 4⟩
def DEV_FEATOFF_BITS : Fld := ⟨0x10, 0x0, 0x0, 0, 32⟩
def DEV_FEATREQ_BITS : Fld := ⟨0x14, 0x0, 0x0, 0, 32⟩
def DEV_FEATACT_BITS : Fld := ⟨0x18, 0x0, 0x0, 0, 32⟩
def DEV_NEG_GO : Fld := ⟨0x1c, 0x0, 0x0, 31, 1⟩
def DEV_NEG_DONE : Fld := ⟨0x1c, 0x0, 0x0, 30, 1⟩
def DEV_NEG_REFUSED : Fld := ⟨0x1c, 0x0, 0x0, 29, 1⟩
def DEV_NEG_IFVER : Fld := ⟨0x1c, 0x0, 0x0, 16, 8⟩
def DEV_NEG_IFMIN : Fld := ⟨0x1c, 0x0, 0x0, 8, 8⟩
def DEV_NEG_IFMAX : Fld := ⟨0x1c, 0x0, 0x0, 0, 8⟩
def RING_APER_EN : Fld := ⟨0x10000, 0x0, 0x0, 31, 1⟩
def RING_APER_BASE : Fld := ⟨0x10000, 0x0, 0x0, 0, 16⟩
def RING_MISCIV_STATEIV : Fld := ⟨0x10004, 0x0, 0x0, 8, 7⟩
def RING_MISCIV_FLTIV : Fld := ⟨0x10004, 0x0, 0x0, 0, 7⟩
def RING_RAISE_VECTOR : Fld := ⟨0x10008, 0x0, 0x0, 0, 7⟩
def RING_QCFG_EN : Fld := ⟨0x11000, 0x20, 0x0, 31, 1⟩
def RING_QCFG_ERR : Fld := ⟨0x11000, 0x20, 0x0, 30, 1⟩
def RING_QCFG_OWN : Fld := ⟨0x11000, 0x20, 0x0, 29, 1⟩
def RING_QCFG_IV : Fld := ⟨0x11000, 0x20, 0x0, 16, 7⟩
def RING_QCFG_SIZE : Fld := ⟨0x11000, 0x20, 0x0, 0, 12⟩
def RING_QCOAL_CNT : Fld := ⟨0x11004, 0x20, 0x0, 24, 8⟩
def RING_QCOAL_TIME : Fld := ⟨0x11004, 0x20, 0x0, 0, 16⟩
def RING_QSTAT_CQFULL : Fld := ⟨0x11008, 0x20, 0x0, 31, 1⟩
def RING_QSTAT_SQHEAD : Fld := ⟨0x11008, 0x20, 0x0, 16, 12⟩
def RING_QSTAT_CQTAIL : Fld := ⟨0x11008, 0x20, 0x0, 0, 12⟩
def RING_SQBASELO_ADDR : Fld := ⟨0x1100c, 0x20, 0x0, 0, 32⟩
def RING_SQBASEHI_ADDR : Fld := ⟨0x11010, 0x20, 0x0, 0, 32⟩
def RING_CQBASELO_ADDR : Fld := ⟨0x11014, 0x20, 0x0, 0, 32⟩
def RING_CQBASEHI_ADDR : Fld := ⟨0x11018, 0x20, 0x0, 0, 32⟩
def RING_SQTAIL_INDEX : Fld := ⟨0x18000, 0x8, 0x0, 0, 12⟩
def RING_CQHEAD_INDEX : Fld := ⟨0x18004, 0x8, 0x0, 0, 12⟩
def ING_CTL_EN : Fld := ⟨0x40000, 0x0, 0x0, 31, 1⟩
def ING_CTL_DAC : Fld := ⟨0x40000, 0x0, 0x0, 30, 1⟩
def ING_CTL_TCRC : Fld := ⟨0x40000, 0x0, 0x0, 29, 1⟩
def ING_CTL_REQTCRC : Fld := ⟨0x40000, 0x0, 0x0, 28, 1⟩
def ING_CTL_PCCHK : Fld := ⟨0x40000, 0x0, 0x0, 27, 1⟩
def ING_CTL_LANEN : Fld := ⟨0x40000, 0x0, 0x0, 0, 16⟩
def ING_STAT_ACTIVE : Fld := ⟨0x40004, 0x0, 0x0, 28, 4⟩
def ING_STAT_OOS : Fld := ⟨0x40004, 0x0, 0x0, 16, 5⟩
def ING_STAT_NSWAIT : Fld := ⟨0x40004, 0x0, 0x0, 15, 1⟩
def ING_STBASE_MIB : Fld := ⟨0x40010, 0x0, 0x0, 0, 20⟩
def ING_STSIZE_MIB : Fld := ⟨0x40014, 0x0, 0x0, 0, 20⟩
def ING_MAPBASE_MIB : Fld := ⟨0x40020, 0x0, 0x0, 0, 20⟩
def ING_MAPSIZE_MIB : Fld := ⟨0x40024, 0x0, 0x0, 0, 20⟩
def ING_STWPTR_UNITS : Fld := ⟨0x40018, 0x0, 0x0, 0, 30⟩
def ING_STFREE_UNITS : Fld := ⟨0x4001c, 0x0, 0x0, 0, 30⟩
def ING_PTBASE_ADDR : Fld := ⟨0x40028, 0x0, 0x0, 0, 20⟩
def ING_OBCFG_BASE : Fld := ⟨0x40030, 0x0, 0x0, 16, 14⟩
def ING_OBCFG_SIZE : Fld := ⟨0x40030, 0x0, 0x0, 0, 8⟩
def ING_SPWCFG_BASE : Fld := ⟨0x40034, 0x0, 0x0, 16, 14⟩
def ING_SPWCFG_NUM : Fld := ⟨0x40034, 0x0, 0x0, 0, 12⟩
def ING_SPWSTAT_FREE : Fld := ⟨0x40038, 0x0, 0x0, 16, 12⟩
def ING_SPWSTAT_PEAK : Fld := ⟨0x40038, 0x0, 0x0, 0, 12⟩
def ING_OOSTO_TIMEOUT : Fld := ⟨0x4003c, 0x0, 0x0, 0, 16⟩
def ING_BLKCNT_COUNT : Fld := ⟨0x40040, 0x0, 0x0, 0, 32⟩
def ING_VERCNT_COUNT : Fld := ⟨0x40044, 0x0, 0x0, 0, 32⟩
def ING_LSTAT_STATE : Fld := ⟨0x40100, 0x4, 0x0, 28, 4⟩
def ING_LSTAT_SPW : Fld := ⟨0x40100, 0x4, 0x0, 16, 12⟩
def ING_LSTAT_STRIPE : Fld := ⟨0x40100, 0x4, 0x0, 0, 8⟩
def IBF_CTL_EN : Fld := ⟨0x50000, 0x1000, 0x0, 31, 1⟩
def IBF_CTL_CUP : Fld := ⟨0x50000, 0x1000, 0x0, 30, 1⟩
def IBF_CTL_PLANE : Fld := ⟨0x50000, 0x1000, 0x0, 27, 3⟩
def IBF_CTL_TLEN : Fld := ⟨0x50000, 0x1000, 0x0, 26, 1⟩
def IBF_STAT_PANIC : Fld := ⟨0x50004, 0x1000, 0x0, 31, 1⟩
def IBF_STAT_AHEAD : Fld := ⟨0x50004, 0x1000, 0x0, 16, 4⟩
def IBF_STAT_LEVEL : Fld := ⟨0x50004, 0x1000, 0x0, 0, 16⟩
def IBF_LANES_FIRST : Fld := ⟨0x50008, 0x1000, 0x0, 16, 8⟩
def IBF_LANES_COUNT : Fld := ⟨0x50008, 0x1000, 0x0, 0, 8⟩
def IBF_SIZING_SB : Fld := ⟨0x5000c, 0x1000, 0x0, 28, 4⟩
def IBF_SIZING_RES600 : Fld := ⟨0x5000c, 0x1000, 0x0, 27, 1⟩
def IBF_SIZING_SPP2 : Fld := ⟨0x5000c, 0x1000, 0x0, 18, 5⟩
def IBF_SIZING_MAXW : Fld := ⟨0x5000c, 0x1000, 0x0, 0, 18⟩
def IBF_WEIR_HYS : Fld := ⟨0x50010, 0x1000, 0x0, 16, 16⟩
def IBF_WEIR_LEVEL : Fld := ⟨0x50010, 0x1000, 0x0, 0, 16⟩
def IBF_LTOL_US : Fld := ⟨0x50014, 0x1000, 0x0, 0, 16⟩
def IBF_GROUND_TONE : Fld := ⟨0x50018, 0x1000, 0x0, 0, 16⟩
def IBF_PBASE_INDEX : Fld := ⟨0x5001c, 0x1000, 0x0, 0, 12⟩
def IBF_PBSTAT_DEFER : Fld := ⟨0x50020, 0x1000, 0x0, 31, 1⟩
def IBF_PBSTAT_INST : Fld := ⟨0x50020, 0x1000, 0x0, 0, 31⟩
def IBF_RECBASE_MIB : Fld := ⟨0x50024, 0x1000, 0x0, 0, 20⟩
def IBF_UNDCNT_COUNT : Fld := ⟨0x50030, 0x1000, 0x0, 0, 32⟩
def IBF_PANICCNT_COUNT : Fld := ⟨0x50038, 0x1000, 0x0, 0, 32⟩
def IBF_UNDLAST_CAUSE : Fld := ⟨0x50034, 0x1000, 0x0, 28, 4⟩
def IBF_UNDLAST_STRIPE : Fld := ⟨0x50034, 0x1000, 0x0, 16, 6⟩
def SCN_MAPBASE_BASE : Fld := ⟨0x60000, 0x0, 0x0, 0, 10⟩
def SCN_CHAR_DEADTH : Fld := ⟨0x60004, 0x0, 0x0, 24, 8⟩
def SCN_CHAR_WEAKTH : Fld := ⟨0x60004, 0x0, 0x0, 16, 8⟩
def SCN_CHAR_OFFTH : Fld := ⟨0x60004, 0x0, 0x0, 8, 8⟩
def SCN_CHAR_CONSEC : Fld := ⟨0x60004, 0x0, 0x0, 0, 3⟩
def SCN_CTL_EN : Fld := ⟨0x61000, 0x400, 0x0, 31, 1⟩
def SCN_CTL_CTEN : Fld := ⟨0x61000, 0x400, 0x0, 30, 1⟩
def SCN_CTL_HIDEEN : Fld := ⟨0x61000, 0x400, 0x0, 29, 1⟩
def SCN_CTL_STITCH : Fld := ⟨0x61000, 0x400, 0x0, 28, 1⟩
def SCN_CTL_DUTYEN : Fld := ⟨0x61000, 0x400, 0x0, 27, 1⟩
def SCN_CTL_LEDGE : Fld := ⟨0x61000, 0x400, 0x0, 26, 1⟩
def SCN_CTL_REDGE : Fld := ⟨0x61000, 0x400, 0x0, 25, 1⟩
def SCN_CTL_LMASK : Fld := ⟨0x61000, 0x400, 0x0, 20, 3⟩
def SCN_CTL_RMASK : Fld := ⟨0x61000, 0x400, 0x0, 16, 3⟩
def SCN_CTL_DEPTH : Fld := ⟨0x61000, 0x400, 0x0, 0, 2⟩
def SCN_STAT_TBAD : Fld := ⟨0x61004, 0x400, 0x0, 31, 1⟩
def SCN_STAT_BAND : Fld := ⟨0x61004, 0x400, 0x0, 30, 1⟩
def SCN_STAT_UNHCOL : Fld := ⟨0x61004, 0x400, 0x0, 0, 17⟩
def SCN_HIDE_MINW : Fld := ⟨0x61008, 0x400, 0x0, 16, 8⟩
def SCN_HIDE_W2 : Fld := ⟨0x61008, 0x400, 0x0, 8, 6⟩
def SCN_HIDE_W1 : Fld := ⟨0x61008, 0x400, 0x0, 0, 6⟩
def SCN_HCEIL_TONE : Fld := ⟨0x6100c, 0x400, 0x0, 0, 16⟩
def SCN_PHASE_YPH : Fld := ⟨0x61010, 0x400, 0x0, 16, 16⟩
def SCN_PHASE_XPH : Fld := ⟨0x61010, 0x400, 0x0, 0, 16⟩
def SCN_NDUTY_WIN : Fld := ⟨0x61020, 0x400, 0x4, 16, 7⟩
def SCN_NDUTY_MAX : Fld := ⟨0x61020, 0x400, 0x4, 0, 8⟩
def SCN_SDUTY_SWIN : Fld := ⟨0x61014, 0x400, 0x0, 25, 7⟩
def SCN_SDUTY_SMAX : Fld := ⟨0x61014, 0x400, 0x0, 0, 20⟩
def SCN_BAND_GO : Fld := ⟨0x61018, 0x400, 0x0, 31, 1⟩
def SCN_BAND_LVL : Fld := ⟨0x61018, 0x400, 0x0, 24, 4⟩
def SCN_BAND_DASH : Fld := ⟨0x61018, 0x400, 0x0, 16, 5⟩
def SCN_BAND_PITCH : Fld := ⟨0x61018, 0x400, 0x0, 0, 5⟩
def SCN_UNHCNT_COUNT : Fld := ⟨0x61040, 0x400, 0x0, 0, 32⟩
def SCN_THINCNT_COUNT : Fld := ⟨0x61044, 0x400, 0x0, 0, 32⟩
def SCN_SEGTHIN_COUNT : Fld := ⟨0x61048, 0x400, 0x0, 0, 32⟩
def SCN_PSLOST_COUNT : Fld := ⟨0x6104c, 0x400, 0x0, 0, 32⟩
def SCN_CLIPCNT_COUNT : Fld := ⟨0x61050, 0x400, 0x0, 0, 32⟩
def SCN_NPIDX_VALID : Fld := ⟨0x61100, 0x400, 0x8, 31, 1⟩
def SCN_NPIDX_INDEX : Fld := ⟨0x61100, 0x400, 0x8, 0, 20⟩
def SCN_NPREC_RECORD : Fld := ⟨0x61104, 0x400, 0x8, 0, 32⟩
def ENC_GCTL_SCOMP : Fld := ⟨0x80000, 0x0, 0x0, 31, 1⟩
def ENC_GCTL_REF : Fld := ⟨0x80000, 0x0, 0x0, 0, 1⟩
def ENC_SPDCFG_SWUP : Fld := ⟨0x80004, 0x0, 0x0, 24, 8⟩
def ENC_SPDCFG_SWDN : Fld := ⟨0x80004, 0x0, 0x0, 16, 8⟩
def ENC_SPDCFG_NAV : Fld := ⟨0x80004, 0x0, 0x0, 12, 4⟩
def ENC_SPDCFG_WIN : Fld := ⟨0x80004, 0x0, 0x0, 0, 10⟩
def ENC_STILL_US : Fld := ⟨0x80008, 0x0, 0x0, 0, 16⟩
def ENC_STRCFG_SH : Fld := ⟨0x8000c, 0x0, 0x0, 28, 4⟩
def ENC_STRCFG_WIN : Fld := ⟨0x8000c, 0x0, 0x0, 16, 12⟩
def ENC_STRCFG_LIM : Fld := ⟨0x8000c, 0x0, 0x0, 0, 16⟩
def ENC_PTCTL_EN : Fld := ⟨0x80010, 0x4, 0x0, 31, 1⟩
def ENC_PTCTL_SRC : Fld := ⟨0x80010, 0x4, 0x0, 0, 1⟩
def ENC_STRETCH_VALUE : Fld := ⟨0x80018, 0x0, 0x0, 0, 32⟩
def ENC_SPEED_VALUE : Fld := ⟨0x8010c, 0x40, 0x0, 0, 32⟩
def ENC_LAMBDA_LAMBDA : Fld := ⟨0x80020, 0x4, 0x0, 0, 17⟩
def ENC_CTL_EN : Fld := ⟨0x80100, 0x40, 0x0, 31, 1⟩
def ENC_CTL_DIR : Fld := ⟨0x80100, 0x40, 0x0, 30, 1⟩
def ENC_CTL_INTERP : Fld := ⟨0x80100, 0x40, 0x0, 29, 1⟩
def ENC_CTL_TERM : Fld := ⟨0x80100, 0x40, 0x0, 28, 1⟩
def ENC_CTL_FILT : Fld := ⟨0x80100, 0x40, 0x0, 24, 4⟩
def ENC_SCALE_SCALE : Fld := ⟨0x80104, 0x40, 0x0, 0, 32⟩
def ENC_STAT_STILL : Fld := ⟨0x80108, 0x40, 0x0, 31, 1⟩
def ENC_STAT_UNKNOWN : Fld := ⟨0x80108, 0x40, 0x0, 30, 1⟩
def ENC_STAT_SETTLING : Fld := ⟨0x80108, 0x40, 0x0, 29, 1⟩
def ENC_STAT_MODE : Fld := ⟨0x80108, 0x40, 0x0, 28, 1⟩
def ENC_STAT_DIRN : Fld := ⟨0x80108, 0x40, 0x0, 27, 1⟩
def ENC_STAT_LOS : Fld := ⟨0x80108, 0x40, 0x0, 26, 1⟩
def ENC_STAT_ILL : Fld := ⟨0x80108, 0x40, 0x0, 25, 1⟩
def ENC_STAT_ZERR : Fld := ⟨0x80108, 0x40, 0x0, 24, 1⟩
def ENC_STAT_RATE : Fld := ⟨0x80108, 0x40, 0x0, 23, 1⟩
def ENC_POSLO_WPU : Fld := ⟨0x80110, 0x40, 0x0, 0, 32⟩
def ENC_POSHI_WPU : Fld := ⟨0x80114, 0x40, 0x0, 0, 32⟩
def ENC_ZPOSLO_WPU : Fld := ⟨0x80118, 0x40, 0x0, 0, 32⟩
def ENC_ZPOSHI_WPU : Fld := ⟨0x8011c, 0x40, 0x0, 0, 32⟩
def ENC_ZCPR_VALUE : Fld := ⟨0x80120, 0x40, 0x0, 0, 32⟩
def ENC_ILLCNT_VALUE : Fld := ⟨0x80124, 0x40, 0x0, 0, 32⟩
def FIRE_GCFG_OVN : Fld := ⟨0x70000, 0x0, 0x0, 28, 4⟩
def FIRE_GCFG_LATEMAX : Fld := ⟨0x70000, 0x0, 0x0, 16, 8⟩
def FIRE_GCFG_TELSTALE : Fld := ⟨0x70000, 0x0, 0x0, 8, 8⟩
def FIRE_GCFG_TELLINES : Fld := ⟨0x70000, 0x0, 0x0, 0, 8⟩
def FIRE_THEAD_HYS : Fld := ⟨0x70004, 0x0, 0x0, 24, 4⟩
def FIRE_THEAD_HARD : Fld := ⟨0x70004, 0x0, 0x0, 16, 8⟩
def FIRE_THEAD_SOFT : Fld := ⟨0x70004, 0x0, 0x0, 8, 8⟩
def FIRE_DERATE_WTRIM : Fld := ⟨0x70008, 0x0, 0x0, 0, 9⟩
def FIRE_PWMAX_TRMAX : Fld := ⟨0x7000c, 0x0, 0x0, 0, 8⟩
def FIRE_SEGLEAD_LTU : Fld := ⟨0x70010, 0x0, 0x0, 0, 24⟩
def FIRE_PDLY_DLY : Fld := ⟨0x70080, 0x4, 0x0, 0, 16⟩
def FIRE_CTL_EN : Fld := ⟨0x70100, 0x40, 0x0, 31, 1⟩
def FIRE_CTL_SLOT : Fld := ⟨0x70100, 0x40, 0x0, 28, 3⟩
def FIRE_STAT_STATE : Fld := ⟨0x70104, 0x40, 0x0, 29, 3⟩
def FIRE_STAT_OVSTOP : Fld := ⟨0x70104, 0x40, 0x0, 28, 1⟩
def FIRE_STAT_HOTSTOP : Fld := ⟨0x70104, 0x40, 0x0, 27, 1⟩
def FIRE_STAT_LATESTOP : Fld := ⟨0x70104, 0x40, 0x0, 26, 1⟩
def FIRE_HORIZON_EFF : Fld := ⟨0x70108, 0x40, 0x0, 16, 16⟩
def FIRE_HORIZON_SET : Fld := ⟨0x70108, 0x40, 0x0, 0, 16⟩
def FIRE_TMIN_LTU : Fld := ⟨0x7010c, 0x40, 0x0, 0, 24⟩
def FIRE_TBURST_LTU : Fld := ⟨0x70110, 0x40, 0x0, 0, 24⟩
def FIRE_PWK_KT : Fld := ⟨0x70114, 0x40, 0x0, 16, 16⟩
def FIRE_PWK_KV : Fld := ⟨0x70114, 0x40, 0x0, 0, 16⟩
def FIRE_PWREF_TREF : Fld := ⟨0x70118, 0x40, 0x0, 16, 16⟩
def FIRE_PWREF_VREF : Fld := ⟨0x70118, 0x40, 0x0, 0, 16⟩
def FIRE_SKIPCNT_COUNT : Fld := ⟨0x7011c, 0x40, 0x0, 0, 32⟩
def FIRE_LATECNT_COUNT : Fld := ⟨0x70120, 0x40, 0x0, 0, 32⟩
def FIRE_STOPLO_LINE : Fld := ⟨0x70124, 0x40, 0x0, 0, 32⟩
def FIRE_STOPHI_LINE : Fld := ⟨0x70128, 0x40, 0x0, 0, 32⟩
def FIRE_SEG_DERATE : Fld := ⟨0x72000, 0x4, 0x0, 31, 1⟩
def FIRE_SEG_HOT : Fld := ⟨0x72000, 0x4, 0x0, 30, 1⟩
def FIRE_SEG_STALE : Fld := ⟨0x72000, 0x4, 0x0, 29, 1⟩
def FIRE_SEG_TRIM : Fld := ⟨0x72000, 0x4, 0x0, 16, 9⟩
def FIRE_SEG_TEMP : Fld := ⟨0x72000, 0x4, 0x0, 0, 16⟩
def HLP_CTL_EN : Fld := ⟨0x90000, 0x1000, 0x0, 31, 1⟩
def HLP_CTL_MANUAL : Fld := ⟨0x90000, 0x1000, 0x0, 30, 1⟩
def HLP_CTL_PRECODE : Fld := ⟨0x90000, 0x1000, 0x0, 29, 1⟩
def HLP_CTL_TEST : Fld := ⟨0x90000, 0x1000, 0x0, 28, 1⟩
def HLP_CTL_LOOP : Fld := ⟨0x90000, 0x1000, 0x0, 27, 1⟩
def HLP_CTL_RESTORE : Fld := ⟨0x90000, 0x1000, 0x0, 26, 1⟩
def HLP_CTL_RETRY : Fld := ⟨0x90000, 0x1000, 0x0, 16, 4⟩
def HLP_CTL_LUTO : Fld := ⟨0x90000, 0x1000, 0x0, 0, 16⟩
def HLP_STAT_STATE : Fld := ⟨0x90004, 0x1000, 0x0, 28, 4⟩
def HLP_STAT_MODE : Fld := ⟨0x90004, 0x1000, 0x0, 26, 2⟩
def HLP_STAT_LOCKA : Fld := ⟨0x90004, 0x1000, 0x0, 25, 1⟩
def HLP_STAT_LOCKB : Fld := ⟨0x90004, 0x1000, 0x0, 24, 1⟩
def HLP_STAT_LOCKU : Fld := ⟨0x90004, 0x1000, 0x0, 23, 1⟩
def HLP_STAT_CLK : Fld := ⟨0x90004, 0x1000, 0x0, 22, 1⟩
def HLP_STAT_PRE : Fld := ⟨0x90004, 0x1000, 0x0, 21, 1⟩
def HLP_STAT_CALRUN : Fld := ⟨0x90004, 0x1000, 0x0, 20, 1⟩
def HLP_SLIP_LANE : Fld := ⟨0x90008, 0x1000, 0x0, 2, 2⟩
def HLP_SLIP_KIND : Fld := ⟨0x90008, 0x1000, 0x0, 1, 1⟩
def HLP_SLIP_GO : Fld := ⟨0x90008, 0x1000, 0x0, 0, 1⟩
def HLP_SKEW_UBIT : Fld := ⟨0x9000c, 0x1000, 0x0, 16, 9⟩
def HLP_SKEW_DB : Fld := ⟨0x9000c, 0x1000, 0x0, 8, 5⟩
def HLP_SKEW_DA : Fld := ⟨0x9000c, 0x1000, 0x0, 0, 5⟩
def HLP_FFE_C0 : Fld := ⟨0x90010, 0x1000, 0x4, 24, 8⟩
def HLP_FFE_CP2 : Fld := ⟨0x90010, 0x1000, 0x4, 16, 8⟩
def HLP_FFE_CP1 : Fld := ⟨0x90010, 0x1000, 0x4, 8, 8⟩
def HLP_FFE_CM1 : Fld := ⟨0x90010, 0x1000, 0x4, 0, 8⟩
def HLP_CAL_GO : Fld := ⟨0x90018, 0x1000, 0x0, 31, 1⟩
def HLP_CAL_LANE : Fld := ⟨0x90018, 0x1000, 0x0, 30, 1⟩
def HLP_CAL_DONE : Fld := ⟨0x90018, 0x1000, 0x0, 29, 1⟩
def HLP_CAL_REFUSED : Fld := ⟨0x90018, 0x1000, 0x0, 28, 1⟩
def HLP_CAL_ABANDONED : Fld := ⟨0x90018, 0x1000, 0x0, 27, 1⟩
def HLP_CAL_HYST : Fld := ⟨0x90018, 0x1000, 0x0, 16, 8⟩
def HLP_CAL_DWELL : Fld := ⟨0x90018, 0x1000, 0x0, 8, 8⟩
def HLP_CAL_MAXSTEP : Fld := ⟨0x90018, 0x1000, 0x0, 4, 4⟩
def HLP_RTT_VALID : Fld := ⟨0x9001c, 0x1000, 0x0, 31, 1⟩
def HLP_RTT_TRIM : Fld := ⟨0x9001c, 0x1000, 0x0, 24, 7⟩
def HLP_RTT_RAW : Fld := ⟨0x9001c, 0x1000, 0x0, 0, 16⟩
def HLP_CABLE_VP : Fld := ⟨0x90020, 0x1000, 0x0, 24, 8⟩
def HLP_CABLE_LTU : Fld := ⟨0x90020, 0x1000, 0x0, 14, 10⟩
def HLP_CABLE_MM : Fld := ⟨0x90020, 0x1000, 0x0, 0, 14⟩
def HLP_PGEN_EN : Fld := ⟨0x90024, 0x1000, 0x0, 31, 1⟩
def HLP_PGEN_LA : Fld := ⟨0x90024, 0x1000, 0x0, 30, 1⟩
def HLP_PGEN_LB : Fld := ⟨0x90024, 0x1000, 0x0, 29, 1⟩
def HLP_PGEN_PAT : Fld := ⟨0x90024, 0x1000, 0x0, 26, 3⟩
def HLP_PGEN_INJ : Fld := ⟨0x90024, 0x1000, 0x0, 25, 1⟩
def HLP_PCHK_EN : Fld := ⟨0x90028, 0x1000, 0x0, 31, 1⟩
def HLP_PCHK_SRC : Fld := ⟨0x90028, 0x1000, 0x0, 29, 2⟩
def HLP_PCHK_PAT : Fld := ⟨0x90028, 0x1000, 0x0, 26, 3⟩
def HLP_PCHK_LOCK : Fld := ⟨0x90028, 0x1000, 0x0, 25, 1⟩
def HLP_PERR_COUNT : Fld := ⟨0x9002c, 0x1000, 0x0, 0, 32⟩
def HLP_INJ_GO : Fld := ⟨0x90030, 0x1000, 0x0, 31, 1⟩
def HLP_INJ_LANE : Fld := ⟨0x90030, 0x1000, 0x0, 30, 1⟩
def HLP_INJ_NBITS : Fld := ⟨0x90030, 0x1000, 0x0, 20, 5⟩
def HLP_INJ_START : Fld := ⟨0x90030, 0x1000, 0x0, 0, 11⟩
def HLP_LNKCNT_LINKUPS : Fld := ⟨0x90034, 0x1000, 0x0, 16, 16⟩
def HLP_LNKCNT_FAILOVER : Fld := ⟨0x90034, 0x1000, 0x0, 8, 8⟩
def HLP_LNKCNT_RECAL : Fld := ⟨0x90034, 0x1000, 0x0, 0, 8⟩
def HLK_CFG_RESEND : Fld := ⟨0xa0000, 0x0, 0x0, 31, 1⟩
def HLK_CFG_RETRY : Fld := ⟨0xa0000, 0x0, 0x0, 28, 3⟩
def HLK_CFG_LOSTN : Fld := ⟨0xa0000, 0x0, 0x0, 24, 4⟩
def HLK_CFG_PING : Fld := ⟨0xa0000, 0x0, 0x0, 16, 8⟩
def HLK_CFG_ACKTO : Fld := ⟨0xa0000, 0x0, 0x0, 0, 16⟩
def HLK_PSTAT_BNSTATE : Fld := ⟨0xa1000, 0x40, 0x0, 29, 3⟩
def HLK_PSTAT_BUFDMIN : Fld := ⟨0xa1000, 0x40, 0x0, 24, 5⟩
def HLK_PSTAT_FAN : Fld := ⟨0xa1000, 0x40, 0x0, 0, 16⟩
def HLK_SEGEN_EN : Fld := ⟨0xa1010, 0x40, 0x4, 0, 32⟩
def HLK_FECCOR_COUNT : Fld := ⟨0xa1020, 0x40, 0x0, 0, 32⟩
def HLK_FECUNC_COUNT : Fld := ⟨0xa1024, 0x40, 0x0, 0, 32⟩
def HLK_RESEND_COUNT : Fld := ⟨0xa1028, 0x40, 0x0, 0, 32⟩
def HLK_DISCARD_COUNT : Fld := ⟨0xa102c, 0x40, 0x0, 0, 32⟩
def HLK_UPCRC_COUNT : Fld := ⟨0xa1030, 0x40, 0x0, 0, 32⟩
def HLK_SEG_STATE : Fld := ⟨0xa8000, 0x4, 0x0, 29, 3⟩
def HLK_SEG_BUFD : Fld := ⟨0xa8000, 0x4, 0x0, 24, 5⟩
def HLK_SEG_MISSCNT : Fld := ⟨0xa8000, 0x4, 0x0, 16, 8⟩
def HLK_SEG_LEAD : Fld := ⟨0xa8000, 0x4, 0x0, 0, 16⟩
def DMC_CTL_EN : Fld := ⟨0xb0000, 0x0, 0x0, 31, 1⟩
def DMC_CTL_HASH : Fld := ⟨0xb0000, 0x0, 0x0, 30, 1⟩
def DMC_CTL_LREQ : Fld := ⟨0xb0000, 0x0, 0x0, 29, 1⟩
def DMC_CTL_CHEN : Fld := ⟨0xb0000, 0x0, 0x0, 16, 4⟩
def DMC_STAT_CLASSL : Fld := ⟨0xb0004, 0x0, 0x0, 31, 1⟩
def DMC_STAT_HOT : Fld := ⟨0xb0004, 0x0, 0x0, 30, 1⟩
def DMC_STAT_FCBUSY : Fld := ⟨0xb0004, 0x0, 0x0, 29, 1⟩
def DMC_STAT_ACTSET : Fld := ⟨0xb0004, 0x0, 0x0, 28, 1⟩
def DMC_STAT_TRAINED : Fld := ⟨0xb0004, 0x0, 0x0, 20, 4⟩
def DMC_STAT_ACTIVE : Fld := ⟨0xb0004, 0x0, 0x0, 16, 4⟩
def DMC_STAT_CAPGIB : Fld := ⟨0xb0004, 0x0, 0x0, 0, 8⟩
def DMC_ILV_GRAIN : Fld := ⟨0xb0008, 0x0, 0x0, 0, 4⟩
def DMC_PRIO_HITMAX : Fld := ⟨0xb000c, 0x0, 0x0, 24, 8⟩
def DMC_PRIO_WHI : Fld := ⟨0xb000c, 0x0, 0x0, 16, 8⟩
def DMC_PRIO_WLO : Fld := ⟨0xb000c, 0x0, 0x0, 8, 8⟩
def DMC_PRIO_AGEMAX : Fld := ⟨0xb000c, 0x0, 0x0, 0, 8⟩
def DMC_PAGE_HOLD : Fld := ⟨0xb0010, 0x0, 0x0, 0, 16⟩
def DMC_SRCFG_SREN : Fld := ⟨0xb0014, 0x0, 0x0, 31, 1⟩
def DMC_SRCFG_SRXLAT : Fld := ⟨0xb0014, 0x0, 0x0, 16, 15⟩
def DMC_SRCFG_SRIDLE : Fld := ⟨0xb0014, 0x0, 0x0, 0, 16⟩
def DMC_TEMP_TPOLL : Fld := ⟨0xb0018, 0x0, 0x0, 24, 8⟩
def DMC_TEMP_COOLN : Fld := ⟨0xb0018, 0x0, 0x0, 20, 4⟩
def DMC_TEMP_MR4MAX : Fld := ⟨0xb0018, 0x0, 0x0, 0, 8⟩
def DMC_RFWIN_INTERVAL : Fld := ⟨0xb001c, 0x0, 0x0, 16, 16⟩
def DMC_RFWIN_LEN : Fld := ⟨0xb001c, 0x0, 0x0, 0, 16⟩
def DMC_RFNEXTLO_NS : Fld := ⟨0xb0020, 0x0, 0x0, 0, 32⟩
def DMC_RFNEXTHI_NS : Fld := ⟨0xb0024, 0x0, 0x0, 0, 32⟩
def DMC_FCHG_GO : Fld := ⟨0xb0028, 0x0, 0x0, 31, 1⟩
def DMC_FCHG_TARGET : Fld := ⟨0xb0028, 0x0, 0x0, 30, 1⟩
def DMC_FCHG_DONE : Fld := ⟨0xb0028, 0x0, 0x0, 29, 1⟩
def DMC_FCHG_REFUSED : Fld := ⟨0xb0028, 0x0, 0x0, 28, 1⟩
def DMC_FCHG_LAST : Fld := ⟨0xb0028, 0x0, 0x0, 0, 16⟩
def DMC_RCAL_DRIFT : Fld := ⟨0xb002c, 0x0, 0x0, 8, 8⟩
def DMC_RCAL_PERIOD : Fld := ⟨0xb002c, 0x0, 0x0, 0, 8⟩
def DMC_SCRUB_EN : Fld := ⟨0xb0030, 0x0, 0x0, 31, 1⟩
def DMC_SCRUB_DEGTHR : Fld := ⟨0xb0030, 0x0, 0x0, 16, 8⟩
def DMC_SCRUB_HOURS : Fld := ⟨0xb0030, 0x0, 0x0, 0, 16⟩
def DMC_TSET_VALID : Fld := ⟨0xb0040, 0x4, 0x0, 31, 1⟩
def DMC_TSET_SPEED : Fld := ⟨0xb0040, 0x4, 0x0, 24, 4⟩
def DMC_TSET_CL : Fld := ⟨0xb0040, 0x4, 0x0, 16, 8⟩
def DMC_TSET_TRFC : Fld := ⟨0xb0040, 0x4, 0x0, 0, 16⟩
def DMC_CHSTAT_STATE : Fld := ⟨0xb1000, 0x100, 0x0, 28, 4⟩
def DMC_CHSTAT_FORM : Fld := ⟨0xb1000, 0x100, 0x0, 27, 1⟩
def DMC_CHSTAT_RANKS : Fld := ⟨0xb1000, 0x100, 0x0, 25, 2⟩
def DMC_CHSTAT_DENGB : Fld := ⟨0xb1000, 0x100, 0x0, 16, 7⟩
def DMC_CHSTAT_CAPMIB : Fld := ⟨0xb1000, 0x100, 0x0, 0, 16⟩
def DMC_CECNT_COUNT : Fld := ⟨0xb1004, 0x100, 0x0, 0, 32⟩
def DMC_UECNT_COUNT : Fld := ⟨0xb1008, 0x100, 0x0, 0, 32⟩
def DMC_SYMCE_COUNT : Fld := ⟨0xb1040, 0x100, 0x4, 0, 32⟩
def DMC_ELOGLO_ADDR : Fld := ⟨0xb100c, 0x100, 0x0, 6, 26⟩
def DMC_ELOGHI_UE : Fld := ⟨0xb1010, 0x100, 0x0, 31, 1⟩
def DMC_ELOGHI_SYM : Fld := ⟨0xb1010, 0x100, 0x0, 20, 4⟩
def DMC_ELOGHI_BEAT : Fld := ⟨0xb1010, 0x100, 0x0, 16, 4⟩
def DMC_ELOGHI_ADDR : Fld := ⟨0xb1010, 0x100, 0x0, 0, 8⟩
def DMC_INJ_GO : Fld := ⟨0xb1014, 0x100, 0x0, 31, 1⟩
def DMC_INJ_TWO : Fld := ⟨0xb1014, 0x100, 0x0, 30, 1⟩
def DMC_INJ_BEAT : Fld := ⟨0xb1014, 0x100, 0x0, 26, 4⟩
def DMC_INJ_SYM2 : Fld := ⟨0xb1014, 0x100, 0x0, 22, 4⟩
def DMC_INJ_MASK2 : Fld := ⟨0xb1014, 0x100, 0x0, 18, 4⟩
def DMC_INJ_SYM : Fld := ⟨0xb1014, 0x100, 0x0, 8, 4⟩
def DMC_INJ_MASK : Fld := ⟨0xb1014, 0x100, 0x0, 0, 4⟩
def DMC_ECCTEST_RAW : Fld := ⟨0xb1018, 0x100, 0x0, 31, 1⟩
def DMC_ESYN_VALID : Fld := ⟨0xb101c, 0x100, 0x0, 8, 1⟩
def DMC_ESYN_S2 : Fld := ⟨0xb101c, 0x100, 0x0, 4, 4⟩
def DMC_ESYN_S1 : Fld := ⟨0xb101c, 0x100, 0x0, 0, 4⟩
def TARN_CTL_SCRUB : Fld := ⟨0xc0000, 0x0, 0x0, 31, 1⟩
def TARN_CTL_AUTOREMAP : Fld := ⟨0xc0000, 0x0, 0x0, 30, 1⟩
def TARN_CTL_PASS : Fld := ⟨0xc0000, 0x0, 0x0, 0, 16⟩
def TARN_STAT_INITREF : Fld := ⟨0xc0004, 0x0, 0x0, 31, 1⟩
def TARN_INIT_GO : Fld := ⟨0xc0008, 0x0, 0x0, 31, 1⟩
def TARN_INIT_BUSY : Fld := ⟨0xc0008, 0x0, 0x0, 30, 1⟩
def TARN_INIT_MEM : Fld := ⟨0xc0008, 0x0, 0x0, 0, 6⟩
def TARN_INITRNG_COUNT : Fld := ⟨0xc000c, 0x0, 0x0, 16, 16⟩
def TARN_INITRNG_FIRST : Fld := ⟨0xc000c, 0x0, 0x0, 0, 16⟩
def TARN_DMAHALT_HALT : Fld := ⟨0xc0010, 0x0, 0x0, 0, 18⟩
def TARN_MSTAT_RMERR : Fld := ⟨0xc1000, 0x80, 0x0, 31, 1⟩
def TARN_MSTAT_RMUSED : Fld := ⟨0xc1000, 0x80, 0x0, 16, 5⟩
def TARN_CECNT_COUNT : Fld := ⟨0xc1004, 0x80, 0x0, 0, 32⟩
def TARN_UECNT_COUNT : Fld := ⟨0xc1008, 0x80, 0x0, 0, 32⟩
def TARN_ELOG_UE : Fld := ⟨0xc100c, 0x80, 0x0, 31, 1⟩
def TARN_ELOG_SYN : Fld := ⟨0xc100c, 0x80, 0x0, 26, 5⟩
def TARN_ELOG_BYTE : Fld := ⟨0xc100c, 0x80, 0x0, 15, 6⟩
def TARN_ELOG_LINE : Fld := ⟨0xc100c, 0x80, 0x0, 0, 15⟩
def TARN_TCTL_EN : Fld := ⟨0xc1010, 0x80, 0x0, 31, 1⟩
def TARN_TCTL_RAW : Fld := ⟨0xc1010, 0x80, 0x0, 30, 1⟩
def TARN_TMASK_CMASK : Fld := ⟨0xc1014, 0x80, 0x0, 8, 5⟩
def TARN_TMASK_DMASK : Fld := ⟨0xc1014, 0x80, 0x0, 0, 8⟩
def TARN_TRAW_CHK : Fld := ⟨0xc1018, 0x80, 0x0, 0, 5⟩
def TARN_RMAP_VALID : Fld := ⟨0xc1040, 0x80, 0x4, 31, 1⟩
def TARN_RMAP_LINE : Fld := ⟨0xc1040, 0x80, 0x4, 0, 15⟩
def CAM_PCTL_EN : Fld := ⟨0xd0100, 0x100, 0x0, 31, 1⟩
def CAM_PCTL_IOV : Fld := ⟨0xd0100, 0x100, 0x0, 30, 1⟩
def CAM_PCTL_PCLKPOL : Fld := ⟨0xd0100, 0x100, 0x0, 29, 1⟩
def CAM_PCTL_FVPOL : Fld := ⟨0xd0100, 0x100, 0x0, 28, 1⟩
def CAM_PCTL_LVPOL : Fld := ⟨0xd0100, 0x100, 0x0, 27, 1⟩
def CAM_PCTL_DVEN : Fld := ⟨0xd0100, 0x100, 0x0, 26, 1⟩
def CAM_PCTL_FMT : Fld := ⟨0xd0100, 0x100, 0x0, 0, 3⟩
def CAM_PSTAT_PRESENT : Fld := ⟨0xd0104, 0x100, 0x0, 31, 1⟩
def CAM_PSTAT_IOSENSE : Fld := ⟨0xd0104, 0x100, 0x0, 30, 1⟩
def CAM_PSTAT_INFRAME : Fld := ⟨0xd0104, 0x100, 0x0, 29, 1⟩
def CAM_PSTAT_IOERR : Fld := ⟨0xd0104, 0x100, 0x0, 28, 1⟩
def CAM_PSTAT_LASTW : Fld := ⟨0xd0104, 0x100, 0x0, 0, 16⟩
def CAM_GEOM_H : Fld := ⟨0xd0108, 0x100, 0x0, 16, 16⟩
def CAM_GEOM_W : Fld := ⟨0xd0108, 0x100, 0x0, 0, 15⟩
def CAM_TRIG_POL : Fld := ⟨0xd010c, 0x100, 0x0, 30, 1⟩
def CAM_TRIG_WIDTH : Fld := ⟨0xd010c, 0x100, 0x0, 16, 8⟩
def CAM_TRIG_LATE : Fld := ⟨0xd010c, 0x100, 0x0, 0, 16⟩
def CAM_TINT_WPU : Fld := ⟨0xd0110, 0x100, 0x0, 0, 32⟩
def CAM_STRB_DELAY : Fld := ⟨0xd0114, 0x100, 0x0, 16, 16⟩
def CAM_STRB_WIDTH : Fld := ⟨0xd0114, 0x100, 0x0, 0, 16⟩
def CAM_NR_SNR : Fld := ⟨0xd0118, 0x100, 0x0, 31, 1⟩
def CAM_NR_K : Fld := ⟨0xd0118, 0x100, 0x0, 0, 9⟩
def CAM_FFBASE_EN : Fld := ⟨0xd011c, 0x100, 0x0, 31, 1⟩
def CAM_FFBASE_ADDR : Fld := ⟨0xd011c, 0x100, 0x0, 0, 20⟩
def CAM_DISTLO_WPU : Fld := ⟨0xd0120, 0x100, 0x0, 0, 32⟩
def CAM_DISTHI_WPU : Fld := ⟨0xd0124, 0x100, 0x0, 0, 32⟩
def CAM_PPC_PPC : Fld := ⟨0xd0128, 0x100, 0x0, 0, 32⟩
def CAM_XOFF_X : Fld := ⟨0xd0140, 0x100, 0x4, 0, 32⟩
def CAM_FRCNT_COUNT : Fld := ⟨0xd012c, 0x100, 0x0, 0, 32⟩
def CAM_DROPCNT_COUNT : Fld := ⟨0xd0130, 0x100, 0x0, 0, 32⟩
def CAM_FLAST_SHORT : Fld := ⟨0xd0134, 0x100, 0x0, 31, 1⟩
def CAM_FLAST_LONG : Fld := ⟨0xd0134, 0x100, 0x0, 30, 1⟩
def CAM_FLAST_LATE : Fld := ⟨0xd0134, 0x100, 0x0, 29, 1⟩
def CAM_FLAST_DROP : Fld := ⟨0xd0134, 0x100, 0x0, 28, 1⟩
def CAM_FLAST_LINEERR : Fld := ⟨0xd0134, 0x100, 0x0, 27, 1⟩
def CAM_FLAST_UNCORR : Fld := ⟨0xd0134, 0x100, 0x0, 26, 1⟩
def CAM_FLAST_FRAME : Fld := ⟨0xd0134, 0x100, 0x0, 0, 16⟩
def CAM_SCTL_EN : Fld := ⟨0xd0180, 0x100, 0x10, 31, 1⟩
def CAM_SCTL_HDEC : Fld := ⟨0xd0180, 0x100, 0x10, 26, 2⟩
def CAM_SCTL_VDEC : Fld := ⟨0xd0180, 0x100, 0x10, 24, 2⟩
def CAM_SCTL_X0 : Fld := ⟨0xd0180, 0x100, 0x10, 0, 15⟩
def CAM_SWIN_Y0 : Fld := ⟨0xd0184, 0x100, 0x10, 16, 16⟩
def CAM_SWIN_NW : Fld := ⟨0xd0184, 0x100, 0x10, 0, 15⟩
def CAM_SBASE_SIZE : Fld := ⟨0xd0188, 0x100, 0x10, 24, 8⟩
def CAM_SBASE_BASE : Fld := ⟨0xd0188, 0x100, 0x10, 0, 20⟩
def CAM_SPTR_OFFSET : Fld := ⟨0xd018c, 0x100, 0x10, 0, 32⟩
def TIME_SNAP_GO : Fld := ⟨0xe0000, 0x0, 0x0, 31, 1⟩
def TIME_SNAP_VALID : Fld := ⟨0xe0000, 0x0, 0x0, 30, 1⟩
def TIME_SNAPCLO_VALUE : Fld := ⟨0xe0004, 0x0, 0x0, 0, 32⟩
def TIME_SNAPCHI_VALUE : Fld := ⟨0xe0008, 0x0, 0x0, 0, 32⟩
def TIME_SNAPPLO_VALUE : Fld := ⟨0xe000c, 0x0, 0x0, 0, 32⟩
def TIME_SNAPPHI_VALUE : Fld := ⟨0xe0010, 0x0, 0x0, 0, 32⟩
def TIME_TBCTL_EN : Fld := ⟨0xe0100, 0x40, 0x0, 31, 1⟩
def TIME_TBCTL_RST : Fld := ⟨0xe0100, 0x40, 0x0, 30, 1⟩
def TIME_TBCTL_STEPGO : Fld := ⟨0xe0100, 0x40, 0x0, 29, 1⟩
def TIME_TBCTL_STEPREL : Fld := ⟨0xe0100, 0x40, 0x0, 28, 1⟩
def TIME_TBCTL_SRC : Fld := ⟨0xe0100, 0x40, 0x0, 26, 2⟩
def TIME_TBCTL_DOMAIN : Fld := ⟨0xe0100, 0x40, 0x0, 16, 8⟩
def TIME_TBSTAT_STEPPED : Fld := ⟨0xe0104, 0x40, 0x0, 31, 1⟩
def TIME_TBSTAT_STEPREF : Fld := ⟨0xe0104, 0x40, 0x0, 30, 1⟩
def TIME_TBSTAT_RSTREF : Fld := ⟨0xe0104, 0x40, 0x0, 29, 1⟩
def TIME_TBSTAT_RATECLAMP : Fld := ⟨0xe0104, 0x40, 0x0, 28, 1⟩
def TIME_NS_VALUE : Fld := ⟨0xe0108, 0x40, 0x0, 0, 32⟩
def TIME_SECLO_VALUE : Fld := ⟨0xe010c, 0x40, 0x0, 0, 32⟩
def TIME_SECHI_VALUE : Fld := ⟨0xe0110, 0x40, 0x0, 0, 32⟩
def TIME_SNNS_VALUE : Fld := ⟨0xe0124, 0x40, 0x0, 0, 32⟩
def TIME_SNSECLO_VALUE : Fld := ⟨0xe0128, 0x40, 0x0, 0, 32⟩
def TIME_SNSECHI_VALUE : Fld := ⟨0xe012c, 0x40, 0x0, 0, 32⟩
def TIME_RATE_RATE : Fld := ⟨0xe0114, 0x40, 0x0, 0, 32⟩
def TIME_STEPA_VALUE : Fld := ⟨0xe0118, 0x40, 0x0, 0, 32⟩
def TIME_STEPB_VALUE : Fld := ⟨0xe011c, 0x40, 0x0, 0, 32⟩
def TIME_STEPC_VALUE : Fld := ⟨0xe0120, 0x40, 0x0, 0, 32⟩
def TIME_ECTL_EN : Fld := ⟨0xe0800, 0x100, 0x0, 31, 1⟩
def TIME_ECTL_PTB : Fld := ⟨0xe0800, 0x100, 0x0, 26, 2⟩
def TIME_ESTAT_LINK : Fld := ⟨0xe0804, 0x100, 0x0, 31, 1⟩
def TIME_MACLO_ADDR : Fld := ⟨0xe0808, 0x100, 0x0, 0, 32⟩
def TIME_MACHI_ADDR : Fld := ⟨0xe080c, 0x100, 0x0, 0, 32⟩
def TIME_TXLAT_LAT : Fld := ⟨0xe0810, 0x100, 0x0, 0, 32⟩
def TIME_RXLAT_LAT : Fld := ⟨0xe0814, 0x100, 0x0, 0, 32⟩
def TIME_RXBASE_VALUE : Fld := ⟨0xe0818, 0x100, 0x0, 0, 20⟩
def TIME_RXCFG_VALUE : Fld := ⟨0xe081c, 0x100, 0x0, 0, 20⟩
def TIME_RXPTR_OFFSET : Fld := ⟨0xe0820, 0x100, 0x0, 0, 32⟩
def TIME_RXDROP_COUNT : Fld := ⟨0xe0824, 0x100, 0x0, 0, 32⟩
def TIME_FCSERR_COUNT : Fld := ⟨0xe0828, 0x100, 0x0, 0, 32⟩
def TIME_LATETOL_VALUE : Fld := ⟨0xe082c, 0x100, 0x0, 0, 32⟩
def TIME_LATEWPU_VALUE : Fld := ⟨0xe0830, 0x100, 0x0, 0, 32⟩
def TIME_QBASE_ADDR : Fld := ⟨0xe0840, 0x100, 0x10, 0, 20⟩
def TIME_QCFG_EN : Fld := ⟨0xe0844, 0x100, 0x10, 31, 1⟩
def TIME_QCFG_SIZE : Fld := ⟨0xe0844, 0x100, 0x10, 0, 12⟩
def TIME_QHEAD_INDEX : Fld := ⟨0xe0848, 0x100, 0x10, 0, 12⟩
def TIME_QTAIL_INDEX : Fld := ⟨0xe084c, 0x100, 0x10, 0, 12⟩
def XING_CTL_CAMTO : Fld := ⟨0xf0000, 0x0, 0x0, 16, 8⟩
def XING_CTL_XTO : Fld := ⟨0xf0000, 0x0, 0x0, 0, 16⟩
def XING_STAT_REFOK : Fld := ⟨0xf0004, 0x0, 0x0, 31, 1⟩
def XING_STAT_LOCK : Fld := ⟨0xf0004, 0x0, 0x0, 27, 4⟩
def XING_STAT_IRSTREF : Fld := ⟨0xf0004, 0x0, 0x0, 26, 1⟩
def XING_IRST_GO : Fld := ⟨0xf0008, 0x0, 0x0, 31, 1⟩
def XING_IRST_ISLAND : Fld := ⟨0xf0008, 0x0, 0x0, 0, 5⟩
def XING_OSC_CALVALID : Fld := ⟨0xf000c, 0x0, 0x0, 31, 1⟩
def XING_OSC_CODE : Fld := ⟨0xf000c, 0x0, 0x0, 16, 12⟩
def XING_OSC_CORR : Fld := ⟨0xf000c, 0x0, 0x0, 0, 12⟩
def XING_LASTREF_OFFSET : Fld := ⟨0xf0010, 0x0, 0x0, 0, 21⟩
def XING_OTRIM_TRIM : Fld := ⟨0xf0040, 0x4, 0x0, 0, 12⟩
def XING_ISTAT_STATE : Fld := ⟨0xf0100, 0x4, 0x0, 30, 2⟩
def XING_ISTAT_STALL : Fld := ⟨0xf0100, 0x4, 0x0, 29, 1⟩
def XING_ISTAT_ONESIDED : Fld := ⟨0xf0100, 0x4, 0x0, 28, 1⟩
def XING_ISTAT_REFUSED : Fld := ⟨0xf0100, 0x4, 0x0, 27, 1⟩
def XING_ISTAT_GEN : Fld := ⟨0xf0100, 0x4, 0x0, 0, 3⟩
def FLT_CTL_FFMIN : Fld := ⟨0x100000, 0x0, 0x0, 24, 3⟩
def FLT_CTL_SKEW : Fld := ⟨0x100000, 0x0, 0x0, 8, 8⟩
def FLT_CTL_RWALK : Fld := ⟨0x100000, 0x0, 0x0, 0, 8⟩
def FLT_STAT_JOBHOLD : Fld := ⟨0x100004, 0x0, 0x0, 31, 1⟩
def FLT_STAT_CLSERR : Fld := ⟨0x100004, 0x0, 0x0, 30, 1⟩
def FLT_STAT_INJREF : Fld := ⟨0x100004, 0x0, 0x0, 29, 1⟩
def FLT_STAT_HICLASS : Fld := ⟨0x100004, 0x0, 0x0, 0, 3⟩
def FLT_HSEQ_NEXT : Fld := ⟨0x100008, 0x0, 0x0, 0, 32⟩
def FLT_HSTAT_FILL : Fld := ⟨0x10000c, 0x0, 0x0, 26, 6⟩
def FLT_HSTAT_LOST : Fld := ⟨0x10000c, 0x0, 0x0, 0, 16⟩
def FLT_FFSEQ_SEQ : Fld := ⟨0x100010, 0x0, 0x0, 0, 32⟩
def FLT_FFCODE_VALID : Fld := ⟨0x100014, 0x0, 0x0, 31, 1⟩
def FLT_FFCODE_CLASS : Fld := ⟨0x100014, 0x0, 0x0, 16, 3⟩
def FLT_FFCODE_CODE : Fld := ⟨0x100014, 0x0, 0x0, 0, 16⟩
def FLT_FFTIMELO_NS : Fld := ⟨0x100018, 0x0, 0x0, 0, 32⟩
def FLT_FFTIMEHI_NS : Fld := ⟨0x10001c, 0x0, 0x0, 0, 32⟩
def FLT_INJ_GO : Fld := ⟨0x100020, 0x0, 0x0, 31, 1⟩
def FLT_INJ_DRY : Fld := ⟨0x100020, 0x0, 0x0, 30, 1⟩
def FLT_INJ_CODE : Fld := ⟨0x100020, 0x0, 0x0, 0, 16⟩
def FLT_GRAVE_VALID : Fld := ⟨0x100024, 0x0, 0x0, 31, 1⟩
def FLT_GRAVE_CODE : Fld := ⟨0x100024, 0x0, 0x0, 0, 16⟩
def FLT_GRAVEARG_ARG : Fld := ⟨0x100028, 0x0, 0x0, 0, 32⟩
def FLT_CLRALL_GO : Fld := ⟨0x100030, 0x0, 0x0, 0, 1⟩
def FLT_HIST_WORD : Fld := ⟨0x100100, 0x20, 0x4, 0, 32⟩
def FLT_CCFG_IMPL : Fld := ⟨0x108000, 0x100, 0x4, 31, 1⟩
def FLT_CCFG_DEF : Fld := ⟨0x108000, 0x100, 0x4, 28, 3⟩
def FLT_CCFG_MIN : Fld := ⟨0x108000, 0x100, 0x4, 25, 3⟩
def FLT_CCFG_MAX : Fld := ⟨0x108000, 0x100, 0x4, 22, 3⟩
def FLT_CCFG_LATCH : Fld := ⟨0x108000, 0x100, 0x4, 21, 1⟩
def FLT_CCFG_TRANS : Fld := ⟨0x108000, 0x100, 0x4, 20, 1⟩
def FLT_CCFG_QUIET : Fld := ⟨0x108000, 0x100, 0x4, 19, 1⟩
def FLT_CCFG_CLASS : Fld := ⟨0x108000, 0x100, 0x4, 16, 3⟩
def FLT_CCFG_LEVEL : Fld := ⟨0x108000, 0x100, 0x4, 15, 1⟩
def FLT_CCFG_RAILBAD : Fld := ⟨0x108000, 0x100, 0x4, 14, 1⟩
def FLT_CCFG_ACTIVE : Fld := ⟨0x108000, 0x100, 0x4, 13, 1⟩
def FLT_CCNT_COUNT : Fld := ⟨0x10a000, 0x100, 0x4, 0, 32⟩
def SPR_CTL_EN : Fld := ⟨0x110000, 0x0, 0x0, 31, 1⟩
def SPR_CTL_SWAPS : Fld := ⟨0x110000, 0x0, 0x0, 0, 16⟩
def SPR_POOL_ENG : Fld := ⟨0x110004, 0x0, 0x0, 0, 18⟩
def SPR_FAILED_ENG : Fld := ⟨0x110008, 0x0, 0x0, 0, 18⟩
def SPR_BEAT_VALUE : Fld := ⟨0x11000c, 0x0, 0x0, 0, 32⟩
def SPR_GIVEUP_VALUE : Fld := ⟨0x110010, 0x0, 0x0, 0, 32⟩
def SPR_ASSERT_VALUE : Fld := ⟨0x110014, 0x0, 0x0, 0, 32⟩
def SPR_TKSTAT_BUSY : Fld := ⟨0x110018, 0x0, 0x0, 31, 1⟩
def SPR_TKSTAT_ROLE : Fld := ⟨0x110018, 0x0, 0x0, 24, 4⟩
def SPR_TKSTAT_ENGINE : Fld := ⟨0x110018, 0x0, 0x0, 16, 5⟩
def SPR_TKSTAT_COUNT : Fld := ⟨0x110018, 0x0, 0x0, 0, 16⟩
def SPR_DUPCNT_COUNT : Fld := ⟨0x11001c, 0x0, 0x0, 0, 32⟩
def SPR_RCTL_WATCH : Fld := ⟨0x110100, 0x10, 0x0, 31, 1⟩
def SPR_RCTL_PAIR : Fld := ⟨0x110100, 0x10, 0x0, 30, 1⟩
def SPR_RCTL_STBY : Fld := ⟨0x110100, 0x10, 0x0, 24, 5⟩
def SPR_RCTL_HOME : Fld := ⟨0x110100, 0x10, 0x0, 16, 5⟩
def SPR_RCTL_HBTO : Fld := ⟨0x110100, 0x10, 0x0, 0, 16⟩
def SPR_RCLAIM_CLAIM : Fld := ⟨0x110104, 0x10, 0x0, 0, 32⟩
def SPR_IMG_ADDR : Fld := ⟨0x110108, 0x10, 0x0, 6, 26⟩
def SPR_LASTLO_LINE : Fld := ⟨0x110200, 0x8, 0x0, 0, 32⟩
def SPR_LASTHI_LINE : Fld := ⟨0x110204, 0x8, 0x0, 0, 32⟩
def SENS_CTL_EN : Fld := ⟨0x120000, 0x0, 0x0, 31, 1⟩
def SENS_CTL_ACALMS : Fld := ⟨0x120000, 0x0, 0x0, 0, 16⟩
def SENS_TCFG_N : Fld := ⟨0x120004, 0x0, 0x0, 16, 8⟩
def SENS_TCFG_DIFF : Fld := ⟨0x120004, 0x0, 0x0, 0, 16⟩
def SENS_TLIM_HIGH : Fld := ⟨0x120008, 0x0, 0x0, 16, 8⟩
def SENS_TLIM_WARN : Fld := ⟨0x120008, 0x0, 0x0, 8, 8⟩
def SENS_TLIM_HYS : Fld := ⟨0x120008, 0x0, 0x0, 0, 8⟩
def SENS_TJ_SRC : Fld := ⟨0x12000c, 0x0, 0x0, 28, 4⟩
def SENS_TJ_NFAIL : Fld := ⟨0x12000c, 0x0, 0x0, 24, 4⟩
def SENS_TJ_TJMAX : Fld := ⟨0x12000c, 0x0, 0x0, 0, 16⟩
def SENS_OTSTAT_FULL : Fld := ⟨0x120010, 0x0, 0x0, 31, 1⟩
def SENS_OTSTAT_COUNT : Fld := ⟨0x120010, 0x0, 0x0, 0, 6⟩
def SENS_OTREC_WORD : Fld := ⟨0x120080, 0x4, 0x0, 0, 32⟩
def SENS_LRES_WORD : Fld := ⟨0x120100, 0x4, 0x0, 0, 32⟩
def SENS_LCFG_AMP : Fld := ⟨0x120014, 0x0, 0x0, 24, 8⟩
def SENS_LCFG_WIDTH : Fld := ⟨0x120014, 0x0, 0x0, 16, 8⟩
def SENS_LCFG_LOPCT : Fld := ⟨0x120014, 0x0, 0x0, 8, 8⟩
def SENS_LCFG_HIPCT : Fld := ⟨0x120014, 0x0, 0x0, 0, 8⟩
def SENS_LTO_MS : Fld := ⟨0x120018, 0x0, 0x0, 0, 16⟩
def SENS_LSTAT_BUSY : Fld := ⟨0x12001c, 0x0, 0x0, 31, 1⟩
def SENS_LSTAT_RESULT : Fld := ⟨0x12001c, 0x0, 0x0, 16, 8⟩
def SENS_LSTAT_SEG : Fld := ⟨0x12001c, 0x0, 0x0, 0, 16⟩
def SENS_CSCH_AUTO : Fld := ⟨0x120020, 0x0, 0x0, 31, 1⟩
def SENS_CSCH_MAXPAR : Fld := ⟨0x120020, 0x0, 0x0, 24, 4⟩
def SENS_CSCH_AGE : Fld := ⟨0x120020, 0x0, 0x0, 0, 16⟩
def SENS_TS_FAILED : Fld := ⟨0x120040, 0x4, 0x0, 31, 1⟩
def SENS_TS_SUBST : Fld := ⟨0x120040, 0x4, 0x0, 30, 1⟩
def SENS_TS_VALUE : Fld := ⟨0x120040, 0x4, 0x0, 0, 16⟩
def SENS_ACH_EN : Fld := ⟨0x120200, 0x10, 0x0, 31, 1⟩
def SENS_ACH_AVG : Fld := ⟨0x120200, 0x10, 0x0, 24, 4⟩
def SENS_ACH_CNT : Fld := ⟨0x120200, 0x10, 0x0, 16, 8⟩
def SENS_ACH_GAIN : Fld := ⟨0x120200, 0x10, 0x0, 0, 16⟩
def SENS_ALIM_HI : Fld := ⟨0x120204, 0x10, 0x0, 16, 16⟩
def SENS_ALIM_LO : Fld := ⟨0x120204, 0x10, 0x0, 0, 16⟩
def SENS_AVAL_LOW : Fld := ⟨0x120208, 0x10, 0x0, 31, 1⟩
def SENS_AVAL_HIGH : Fld := ⟨0x120208, 0x10, 0x0, 30, 1⟩
def SENS_AVAL_MV : Fld := ⟨0x120208, 0x10, 0x0, 0, 16⟩
def SENS_CUNIT_EN : Fld := ⟨0x120400, 0x10, 0x0, 31, 1⟩
def SENS_CUNIT_TS : Fld := ⟨0x120400, 0x10, 0x0, 24, 4⟩
def SENS_CUNIT_DELTA : Fld := ⟨0x120400, 0x10, 0x0, 0, 16⟩
def SENS_CUSTAT_DUE : Fld := ⟨0x120404, 0x10, 0x0, 31, 1⟩
def SENS_CUSTAT_RUN : Fld := ⟨0x120404, 0x10, 0x0, 30, 1⟩
def SENS_CUSTAT_COUNT : Fld := ⟨0x120404, 0x10, 0x0, 16, 14⟩
def SENS_CUSTAT_TREF : Fld := ⟨0x120404, 0x10, 0x0, 0, 16⟩
def SENS_CUTIME_SEC : Fld := ⟨0x120408, 0x10, 0x0, 0, 32⟩
def SEC_LCS_STATE : Fld := ⟨0x130000, 0x0, 0x0, 28, 4⟩
def SEC_LCS_VAUXLOST : Fld := ⟨0x130000, 0x0, 0x0, 27, 1⟩
def SEC_LCS_DBGOPEN : Fld := ⟨0x130000, 0x0, 0x0, 26, 1⟩
def SEC_LCS_REVOKED : Fld := ⟨0x130000, 0x0, 0x0, 22, 4⟩
def SEC_CMD_GO : Fld := ⟨0x130004, 0x0, 0x0, 31, 1⟩
def SEC_CMD_BUSY : Fld := ⟨0x130004, 0x0, 0x0, 30, 1⟩
def SEC_CMD_REFUSED : Fld := ⟨0x130004, 0x0, 0x0, 29, 1⟩
def SEC_CMD_ARG : Fld := ⟨0x130004, 0x0, 0x0, 8, 8⟩
def SEC_CMD_OP : Fld := ⟨0x130004, 0x0, 0x0, 0, 8⟩
def SEC_CMDADDR_ADDR : Fld := ⟨0x130008, 0x0, 0x0, 6, 26⟩
def SEC_CMDSTAT_STATUS : Fld := ⟨0x13000c, 0x0, 0x0, 24, 8⟩
def SEC_CMDSTAT_RESULT : Fld := ⟨0x13000c, 0x0, 0x0, 0, 16⟩
def SEC_TAMPER_LATCH : Fld := ⟨0x130010, 0x0, 0x0, 31, 1⟩
def SEC_TAMPER_CAUSE : Fld := ⟨0x130010, 0x0, 0x0, 16, 8⟩
def SEC_TAMPER_GLITCH : Fld := ⟨0x130010, 0x0, 0x0, 0, 16⟩
def SEC_AUDSEQ_LOST : Fld := ⟨0x130014, 0x0, 0x0, 16, 16⟩
def SEC_AUDSEQ_FROM : Fld := ⟨0x130014, 0x0, 0x0, 0, 16⟩
def SEC_AUDACK_SEQ : Fld := ⟨0x130018, 0x0, 0x0, 0, 32⟩
def SEC_DBGCHAL_WORD : Fld := ⟨0x130020, 0x4, 0x0, 0, 32⟩
def SEC_VBASE_VALUE : Fld := ⟨0x130100, 0x8, 0x0, 0, 32⟩
def SEC_VLEN_VALUE : Fld := ⟨0x130104, 0x8, 0x0, 0, 32⟩
def SYS_RST_GO : Fld := ⟨0x140000, 0x0, 0x0, 31, 1⟩
def SYS_RST_PEND : Fld := ⟨0x140000, 0x0, 0x0, 30, 1⟩
def SYS_RST_KEY : Fld := ⟨0x140000, 0x0, 0x0, 0, 16⟩
def SYS_RSTCAUSE_VCOREOFF : Fld := ⟨0x140004, 0x0, 0x0, 6, 1⟩
def SYS_RSTCAUSE_SOFT : Fld := ⟨0x140004, 0x0, 0x0, 5, 1⟩
def SYS_RSTCAUSE_PIN : Fld := ⟨0x140004, 0x0, 0x0, 4, 1⟩
def SYS_RSTCAUSE_BVIO18 : Fld := ⟨0x140004, 0x0, 0x0, 3, 1⟩
def SYS_RSTCAUSE_BVSRAM : Fld := ⟨0x140004, 0x0, 0x0, 2, 1⟩
def SYS_RSTCAUSE_BVCORE : Fld := ⟨0x140004, 0x0, 0x0, 1, 1⟩
def SYS_STRAP_SPDSRC : Fld := ⟨0x140008, 0x0, 0x0, 2, 1⟩
def SYS_STRAP_BOOT : Fld := ⟨0x140008, 0x0, 0x0, 0, 2⟩
def SYS_PMODE_STBY : Fld := ⟨0x14000c, 0x0, 0x0, 31, 1⟩
def SYS_PMODE_ACTIVE : Fld := ⟨0x14000c, 0x0, 0x0, 30, 1⟩
def SYS_PMODE_REFUSED : Fld := ⟨0x14000c, 0x0, 0x0, 29, 1⟩
def SYS_PMODE_EXITUS : Fld := ⟨0x14000c, 0x0, 0x0, 0, 16⟩
def SYS_WDOG_EN : Fld := ⟨0x140010, 0x0, 0x0, 31, 1⟩
def SYS_WDOG_MS : Fld := ⟨0x140010, 0x0, 0x0, 0, 16⟩
def SYS_HOURS_HOURS : Fld := ⟨0x140014, 0x0, 0x0, 0, 32⟩
def SYS_BUSCMD_GO : Fld := ⟨0x140018, 0x0, 0x0, 31, 1⟩
def SYS_BUSCMD_BUSY : Fld := ⟨0x140018, 0x0, 0x0, 30, 1⟩
def SYS_BUSCMD_ERR : Fld := ⟨0x140018, 0x0, 0x0, 29, 1⟩
def SYS_BUSCMD_REFUSED : Fld := ⟨0x140018, 0x0, 0x0, 28, 1⟩
def SYS_BUSCMD_BUS : Fld := ⟨0x140018, 0x0, 0x0, 26, 2⟩
def SYS_BUSCMD_ADDR : Fld := ⟨0x140018, 0x0, 0x0, 16, 8⟩
def SYS_BUSCMD_WLEN : Fld := ⟨0x140018, 0x0, 0x0, 12, 4⟩
def SYS_BUSCMD_RLEN : Fld := ⟨0x140018, 0x0, 0x0, 8, 4⟩
def SYS_BUSDATA_DATA : Fld := ⟨0x14001c, 0x0, 0x0, 0, 32⟩
def SYS_GPIOCTL_DIR : Fld := ⟨0x140020, 0x0, 0x0, 16, 16⟩
def SYS_GPIOCTL_OUT : Fld := ⟨0x140020, 0x0, 0x0, 0, 16⟩
def SYS_GPIOIN_DIR : Fld := ⟨0x140024, 0x0, 0x0, 16, 16⟩
def SYS_GPIOIN_IN : Fld := ⟨0x140024, 0x0, 0x0, 0, 16⟩
def SYS_BOOTT_US : Fld := ⟨0x140028, 0x0, 0x0, 0, 32⟩
def MSIX_ADDRLO_ADDR : Fld := ⟨0x1f0000, 0x10, 0x0, 2, 30⟩
def MSIX_ADDRHI_ADDR : Fld := ⟨0x1f0004, 0x10, 0x0, 0, 32⟩
def MSIX_DATA_DATA : Fld := ⟨0x1f0008, 0x10, 0x0, 0, 32⟩
def MSIX_CTRL_MASK : Fld := ⟨0x1f000c, 0x10, 0x0, 0, 1⟩
def MSIX_PBA_PENDING : Fld := ⟨0x1f8000, 0x4, 0x0, 0, 32⟩
end F

/-- The registers of each block, by block id (R113). -/
def blockRegs : Nat → List RegDef
  | 0 => [R.DEV_IDENT, R.DEV_STATE, R.DEV_FEATOFF, R.DEV_FEATREQ, R.DEV_FEATACT, R.DEV_NEG]
  | 1 => [R.RING_APER, R.RING_MISCIV, R.RING_RAISE, R.RING_QCFG, R.RING_QCOAL, R.RING_QSTAT, R.RING_SQBASELO, R.RING_SQBASEHI, R.RING_CQBASELO, R.RING_CQBASEHI, R.RING_SQTAIL, R.RING_CQHEAD]
  | 2 => [R.ENG_PACE, R.ENG_AVSCTL, R.ENG_AVSLIM, R.ENG_AVSTHR, R.ENG_AVSSTAT, R.ENG_STALLTO, R.ENG_SWEV, R.ENG_GAUGE, R.ENG_SLACK, R.ENG_SLACKMIN, R.ENG_MISSCNT, R.ENG_EVROUTE, R.ENG_ESTAT]
  | 3 => [R.CMT_NEXTTK, R.CMT_TQUERY, R.CMT_TANS, R.CMT_LEAD, R.CMT_PVER, R.CMT_GSTAT, R.CMT_GBND, R.CMT_GTKT, R.CMT_GLINELO, R.CMT_GLINEHI]
  | 4 => [R.ING_CTL, R.ING_STAT, R.ING_STBASE, R.ING_STSIZE, R.ING_MAPBASE, R.ING_MAPSIZE, R.ING_STWPTR, R.ING_STFREE, R.ING_PTBASE, R.ING_OBCFG, R.ING_SPWCFG, R.ING_SPWSTAT, R.ING_OOSTO, R.ING_BLKCNT, R.ING_VERCNT, R.ING_LSTAT]
  | 5 => [R.IBF_CTL, R.IBF_STAT, R.IBF_LANES, R.IBF_SIZING, R.IBF_WEIR, R.IBF_LTOL, R.IBF_GROUND, R.IBF_PBASE, R.IBF_PBSTAT, R.IBF_RECBASE, R.IBF_UNDCNT, R.IBF_PANICCNT, R.IBF_UNDLAST]
  | 6 => [R.SCN_MAPBASE, R.SCN_CHAR, R.SCN_CTL, R.SCN_STAT, R.SCN_HIDE, R.SCN_HCEIL, R.SCN_PHASE, R.SCN_NDUTY, R.SCN_SDUTY, R.SCN_BAND, R.SCN_UNHCNT, R.SCN_THINCNT, R.SCN_SEGTHIN, R.SCN_PSLOST, R.SCN_CLIPCNT, R.SCN_NPIDX, R.SCN_NPREC]
  | 7 => [R.FIRE_GCFG, R.FIRE_THEAD, R.FIRE_DERATE, R.FIRE_PWMAX, R.FIRE_SEGLEAD, R.FIRE_PDLY, R.FIRE_CTL, R.FIRE_STAT, R.FIRE_HORIZON, R.FIRE_TMIN, R.FIRE_TBURST, R.FIRE_PWK, R.FIRE_PWREF, R.FIRE_SKIPCNT, R.FIRE_LATECNT, R.FIRE_STOPLO, R.FIRE_STOPHI, R.FIRE_SEG]
  | 8 => [R.ENC_GCTL, R.ENC_SPDCFG, R.ENC_STILL, R.ENC_STRCFG, R.ENC_PTCTL, R.ENC_STRETCH, R.ENC_SPEED, R.ENC_LAMBDA, R.ENC_CTL, R.ENC_SCALE, R.ENC_STAT, R.ENC_POSLO, R.ENC_POSHI, R.ENC_ZPOSLO, R.ENC_ZPOSHI, R.ENC_ZCPR, R.ENC_ILLCNT]
  | 9 => [R.HLP_CTL, R.HLP_STAT, R.HLP_SLIP, R.HLP_SKEW, R.HLP_FFE, R.HLP_CAL, R.HLP_RTT, R.HLP_CABLE, R.HLP_PGEN, R.HLP_PCHK, R.HLP_PERR, R.HLP_INJ, R.HLP_LNKCNT]
  | 10 => [R.HLK_CFG, R.HLK_PSTAT, R.HLK_SEGEN, R.HLK_FECCOR, R.HLK_FECUNC, R.HLK_RESEND, R.HLK_DISCARD, R.HLK_UPCRC, R.HLK_SEG]
  | 11 => [R.DMC_CTL, R.DMC_STAT, R.DMC_ILV, R.DMC_PRIO, R.DMC_PAGE, R.DMC_SRCFG, R.DMC_TEMP, R.DMC_RFWIN, R.DMC_RFNEXTLO, R.DMC_RFNEXTHI, R.DMC_FCHG, R.DMC_RCAL, R.DMC_SCRUB, R.DMC_TSET, R.DMC_CHSTAT, R.DMC_CECNT, R.DMC_UECNT, R.DMC_SYMCE, R.DMC_ELOGLO, R.DMC_ELOGHI, R.DMC_INJ, R.DMC_ECCTEST, R.DMC_ESYN]
  | 12 => [R.TARN_CTL, R.TARN_STAT, R.TARN_INIT, R.TARN_INITRNG, R.TARN_DMAHALT, R.TARN_MSTAT, R.TARN_CECNT, R.TARN_UECNT, R.TARN_ELOG, R.TARN_TCTL, R.TARN_TMASK, R.TARN_TRAW, R.TARN_RMAP]
  | 13 => [R.CAM_PCTL, R.CAM_PSTAT, R.CAM_GEOM, R.CAM_TRIG, R.CAM_TINT, R.CAM_STRB, R.CAM_NR, R.CAM_FFBASE, R.CAM_DISTLO, R.CAM_DISTHI, R.CAM_PPC, R.CAM_XOFF, R.CAM_FRCNT, R.CAM_DROPCNT, R.CAM_FLAST, R.CAM_SCTL, R.CAM_SWIN, R.CAM_SBASE, R.CAM_SPTR]
  | 14 => [R.TIME_SNAP, R.TIME_SNAPCLO, R.TIME_SNAPCHI, R.TIME_SNAPPLO, R.TIME_SNAPPHI, R.TIME_TBCTL, R.TIME_TBSTAT, R.TIME_NS, R.TIME_SECLO, R.TIME_SECHI, R.TIME_SNNS, R.TIME_SNSECLO, R.TIME_SNSECHI, R.TIME_RATE, R.TIME_STEPA, R.TIME_STEPB, R.TIME_STEPC, R.TIME_ECTL, R.TIME_ESTAT, R.TIME_MACLO, R.TIME_MACHI, R.TIME_TXLAT, R.TIME_RXLAT, R.TIME_RXBASE, R.TIME_RXCFG, R.TIME_RXPTR, R.TIME_RXDROP, R.TIME_FCSERR, R.TIME_LATETOL, R.TIME_LATEWPU, R.TIME_QBASE, R.TIME_QCFG, R.TIME_QHEAD, R.TIME_QTAIL]
  | 15 => [R.XING_CTL, R.XING_STAT, R.XING_IRST, R.XING_OSC, R.XING_LASTREF, R.XING_OTRIM, R.XING_ISTAT]
  | 16 => [R.FLT_CTL, R.FLT_STAT, R.FLT_HSEQ, R.FLT_HSTAT, R.FLT_FFSEQ, R.FLT_FFCODE, R.FLT_FFTIMELO, R.FLT_FFTIMEHI, R.FLT_INJ, R.FLT_GRAVE, R.FLT_GRAVEARG, R.FLT_CLRALL, R.FLT_HIST, R.FLT_CCFG, R.FLT_CCNT]
  | 17 => [R.SPR_CTL, R.SPR_POOL, R.SPR_FAILED, R.SPR_BEAT, R.SPR_GIVEUP, R.SPR_ASSERT, R.SPR_TKSTAT, R.SPR_DUPCNT, R.SPR_RCTL, R.SPR_RCLAIM, R.SPR_IMG, R.SPR_LASTLO, R.SPR_LASTHI]
  | 18 => [R.SENS_CTL, R.SENS_TCFG, R.SENS_TLIM, R.SENS_TJ, R.SENS_OTSTAT, R.SENS_OTREC, R.SENS_LRES, R.SENS_LCFG, R.SENS_LTO, R.SENS_LSTAT, R.SENS_CSCH, R.SENS_TS, R.SENS_ACH, R.SENS_ALIM, R.SENS_AVAL, R.SENS_CUNIT, R.SENS_CUSTAT, R.SENS_CUTIME]
  | 19 => [R.SEC_LCS, R.SEC_CMD, R.SEC_CMDADDR, R.SEC_CMDSTAT, R.SEC_TAMPER, R.SEC_AUDSEQ, R.SEC_AUDACK, R.SEC_DBGCHAL, R.SEC_VBASE, R.SEC_VLEN]
  | 20 => [R.SYS_RST, R.SYS_RSTCAUSE, R.SYS_STRAP, R.SYS_PMODE, R.SYS_WDOG, R.SYS_HOURS, R.SYS_BUSCMD, R.SYS_BUSDATA, R.SYS_GPIOCTL, R.SYS_GPIOIN, R.SYS_BOOTT]
  | 31 => [R.MSIX_ADDRLO, R.MSIX_ADDRHI, R.MSIX_DATA, R.MSIX_CTRL, R.MSIX_PBA]
  | _ => []

end Sys2Proof.Machine
end

