-- ==== Sys2Proof/Machine/State.lean ====
section
/-! DEFINITION. The state of the block: every register (in one sparse register file keyed by BAR0 offset), every memory,
every queue, counter and mode the spec gives the device outside its registers, and the queue of waiting commands. Plain
data throughout. -/

namespace Sys2Proof.Machine

/-- Why the machine stops with a fault. -/
inductive Fault
  /-- Raised by no meaning of this model: the spec's error conditions are effects on the state (an error flag, a report, a
  trap of an engine). Kept so that the type is inhabited. Safe. -/
  | none
  deriving DecidableEq, Repr

/-- Why the machine refuses a command. -/
inductive Refusal
  /-- A command whose meaning this model does not give yet. Safe: nothing can be proved of it. -/
  | notModelled (mnemonic : String)
  deriving DecidableEq, Repr

/-! ### Fault reports (chapter 18) -/

/-- A report that waits at its source for the hub's acknowledgement (R420): its ARG, the reported line when it names a bar,
the pending count, and whether it was injected (R432), injected dry, or made by the rails (R421, R422). -/
structure WaitRep where
  arg : Word
  line : Option DWord
  pend : Nat
  injected : Bool
  dry : Bool
  rail : Bool
  deriving DecidableEq, Repr

/-- The fault hub outside its registers: the waiting reports of each source, the sources whose level condition lasts
(R420), the times of the last reports of the rate-limited conditions, and the rail walk (R422). -/
structure FltState where
  waiting : Tab (List WaitRep)
  levels : Tab Bool
  lastAt : Tab Nat
  walkNext : Nat
  walkStart : Nat
  walkAt : Nat
  walkTest : Option (Nat × Nat)
  deriving DecidableEq, Repr

/-! ### Engines and gates (chapters 02, 03, 19) -/

/-- A message in an engine's mailbox (R66): the sender, and the two 64-bit halves. -/
structure Mail where
  src : BitVec 5
  lo : DWord
  hi : DWord
  deriving DecidableEq, Repr

/-- A sleeping WAIT (R62): the mask, the mode, the TB0 instant of the timeout and the destination register. -/
structure WaitSt where
  mask : DWord
  all : Bool
  until_ : Option DWord
  d : BitVec 5
  deriving DecidableEq, Repr

/-- A DMA descriptor in flight (R67). -/
structure DmaJob where
  srcSp : Nat
  dstSp : Nat
  tag : Nat
  len : Nat
  src : Nat
  dst : Nat
  ev : Bool
  deriving DecidableEq, Repr

/-- An instruction in which its engine waits: DESC until the gate decides (R69), ELOAD until the target runs (R81), and DMA
until one of the eight descriptors in flight completes (R36). -/
inductive Stall
  | desc (gate : Nat) (d : BitVec 5)
  | eload (target : Nat) (d : BitVec 5)
  | dma (job : DmaJob) (d : BitVec 5)
  deriving DecidableEq, Repr

/-- An image that is being loaded into an engine (R81, R441): its Tarn address, and the engine whose ELOAD started it
(none: the spare sequencer, with the role and epoch of step 4). -/
structure LoadJob where
  addr : Nat
  by_ : Option Nat
  role : Nat
  epoch : Nat
  deriving DecidableEq, Repr

/-- The program-visible state of one line engine (R50, R51) and what it has outstanding. State, role and last trap cause
stand in ENG.ESTAT. -/
structure Engine where
  g : Tab DWord
  p : BitVec 8
  pc : Word
  claim : Word
  line : DWord
  gsel : BitVec 4
  epc : Word
  ecause : BitVec 8
  eval : DWord
  tvec : Word
  status : BitVec 3
  steps : DWord
  msrc : BitVec 5
  dmacq : List DWord
  dmaLost : Bool
  ckbase : Word
  roles : BitVec 16
  mailbox : List Mail
  wait : Option WaitSt
  stall : Option Stall
  loading : Option LoadJob
  dma : List DmaJob
  deriving DecidableEq, Repr

/-- A role-gate descriptor (R29): the fields of words 0 to 3 and the unit's words 4 to 7, the engine that issued it, the
time at which the gate accepted it, and whether its unit has finished it. -/
structure Desc where
  op : BitVec 8
  role : BitVec 4
  fence : Bool
  cev : Bool
  tag : BitVec 16
  claim : Word
  line : DWord
  w4 : Word
  w5 : Word
  w6 : Word
  w7 : Word
  engine : Nat
  at_ : Nat
  done : Bool
  deriving DecidableEq, Repr

/-- A role gate (R28, R30): the recorded claim, the accepted descriptors in order, the descriptors engines are presenting,
and whether its unit was stopped (R45). -/
structure Gate where
  claim : Word
  queue : List Desc
  presented : List Desc
  stopped : Bool
  deriving DecidableEq, Repr

/-- The parts of the voltage loop, the gauges and the replica ring outside the registers (R41 to R46): the pending deadline
of gauges 8 to 15 and whether it passed, the least slack since the last evaluation, the miss flag, the time of the last
evaluation, an AVSBus transaction in progress with the failures so far and the requested code, the end of the settle time,
since when a Voltage read has differed, and the consecutive PACE counts below MIN. -/
structure EngState where
  deadline : Tab (Option DWord)
  passed : Tab Bool
  least : Option Int
  missFlag : Bool
  lastEval : Nat
  avsReq : Option Nat
  avsFails : Nat
  settleEnd : Option Nat
  differs : Option Nat
  paceLow : Nat
  deriving DecidableEq, Repr

/-- A position or time compare channel (R64): armed, its target, falling (position) or its time base (time). -/
structure Chan where
  armed : Bool
  target : DWord
  sel : BitVec 2
  deriving DecidableEq, Repr

/-- The spare sequencer outside its registers (R439, R441, R445): the start of the holder's and the standby's interval of
each role, whether each has missed its beat, and the takeover triggers that wait. -/
structure SprState where
  beatAt : Tab (Option Nat)
  stbyAt : Tab (Option Nat)
  missed : Tab Bool
  pendingTake : List Nat
  oldHolder : Option Nat
  deriving DecidableEq, Repr

/-! ### Commit groups and profiles (chapter 04) -/

/-- A table-block entry of a group (R87): a bank switch, or a segment parameter block with its copied data and mask. -/
inductive TabEntry
  | bank (id : BitVec 16)
  | segParam (param : BitVec 16) (port : Nat) (mask : BitVec 128) (data : List Byte)
  deriving DecidableEq, Repr

/-- A block staged for a group (R307): its parameter number, port and data, the segments that have not answered yet, the end of
the answer time once its last STAGE has been sent, and the times it was sent again. -/
structure StagedBlock where
  param : BitVec 16
  port : Nat
  mask : Nat
  waiting : Nat
  data : List Byte
  due : Option Nat
  tries : Nat
  deriving DecidableEq, Repr

/-- A commit group outside its status registers: the targets that have not switched yet, in order (word writes and table
entries); the value of its boundary; whether a target has switched; the blocks it staged, the first segment that refused
or failed, whether the check instant has passed, and the segments that have not applied it yet with the end of their answer
time. -/
structure Group where
  words : List (Nat × Word)
  tabs : List TabEntry
  bval : DWord
  begun : Bool
  blocks : List StagedBlock
  failed : Option Nat
  checked : Bool
  unapplied : List (Nat × Nat)
  deriving DecidableEq, Repr

/-- A press profile (R100, R101, R102). -/
structure Profile where
  version : Word
  keeptrim : Bool
  frame : Frame
  regs : List (Nat × Word)
  tabs : List (BitVec 16 × List Byte)
  segs : List (BitVec 16 × Nat × BitVec 128 × List Byte)
  deriving DecidableEq, Repr

/-- A message of the standard press program that has started (R128): its token, queue pair, the words of its SQ entry and
the SQ head after it was taken. -/
structure Msg where
  tok : Nat
  q : Nat
  words : List Word
  sqhead : Nat
  live : Bool
  deriving DecidableEq, Repr

/-- A profile group that waits (R104): the group, the message that asked for it (none: the watch of R107 or Boot), what it does
(0 prove, 1 abandon, 2 rollback, 3 starter), its watch length in m, the profile, and the device settings as they stood
before (R105). -/
structure PrfPend where
  group : Nat
  msg : Option Msg
  kind : Nat
  watch : Nat
  prof : Profile
  saved : List (Nat × Word)
  deriving DecidableEq, Repr

/-- The profiles the device holds (R103, R108), the profile group that waits, and the end of the watch of R107. -/
structure PrfState where
  live : Option Profile
  draft : Option Profile
  proving : Option Profile
  standing : Option Profile
  previous : Option Profile
  starter : Profile
  flash : List Profile
  pend : Option PrfPend
  watchEnd : Option DWord
  deriving DecidableEq, Repr

/-! ### The host interface (chapter 05) -/

/-- A completion that has not been written to its CQ yet (R126). -/
structure Cmpl where
  q : Nat
  cid : Nat
  status : Nat
  res0 : Word
  res1 : Word
  sqhead : Nat
  deriving DecidableEq, Repr

/-- The queues, messages, interrupts and bus results of the host interface: the started messages, the completions held, the
phase of each CQ, the completions the driver has not consumed, the armed EVENT_ARM messages,
the held events and whether one was lost, the next token, the number of times each vector was raised, the word and the bytes last
returned to a host read and whether they were poisoned, and the bytes the device wrote to host memory. In `times`, for each CQ, the
instant + 1 at which each unconsumed completion was posted, 0 once its wait has raised the vector (R135). -/
structure HostState where
  started : List Msg
  held : List Cmpl
  phase : Tab Bool
  times : Tab (List Nat)
  cqFullRep : Tab Bool
  armed : List Msg
  events : List (Nat × Word)
  eventLost : Bool
  nextTok : Nat
  raised : Tab Nat
  rdata : Word
  rdata2 : List Byte
  poisoned : Bool
  mem : Tab Byte
  deriving DecidableEq, Repr

/-! ### Jobs (chapters 01, 05) -/

/-- A panel of the open job (R17, R130, R145): its form, sizes, repeat count and background, whether an envelope of it was
accepted and with which KEYID, its block map, and whether it has been freed. -/
structure Panel where
  form : Nat
  w : Nat
  h : Nat
  reps : Nat
  bg : Word
  secure : Bool
  keyid : Word
  mapAddr : Nat
  freed : Bool
  deriving DecidableEq, Repr

/-- A block that the store holds (R143, R144): its panel, its entry in the panel's block map, its place in the ring (with the
bytes skipped before it), its length and its lines. -/
structure StoredBlock where
  panel : Nat
  entry : Nat
  addr : Nat
  skipped : Nat
  bytes : Nat
  lines : Nat
  deriving DecidableEq, Repr

/-- The open job (R130): its number, gap, resolution (1200 ppi), start column, panels so far, whether it was closed, its
start line once printing, whether event 0x03 was posted, and the last SEQ of an accepted envelope. -/
structure Job where
  id : Nat
  count : Nat
  gap : Nat
  r1200 : Bool
  x0 : Nat
  panels : List Panel
  closed : Bool
  start : Option Nat
  seenStart : Bool
  seq : Option Nat
  deriving DecidableEq, Repr

/-- What an outstanding PRINT message waits for (R130): PRINT_PAUSE for its stop line, PRINT_STOP and JOB_CANCEL for the last
bar. -/
structure PrintOp where
  kind : Nat
  msg : Msg
  line : Nat
  deriving DecidableEq, Repr

/-- The job store of the standard press program: the open job, whether it has finished on the last bar, the next job number, and the
outstanding PRINT messages. -/
structure JobState where
  job : Option Job
  ending : Bool
  nextId : Nat
  ops : List PrintOp
  deriving DecidableEq, Repr

/-! ### Fire schedulers (chapter 10) -/

/-- The fire scheduler of one bar outside its registers (R240 to R248): the next line it has not committed, the credit c,
t_last, the instant of the line before, the line of a STOP, the committed lines whose instant has not come (line, instant),
the latest committed lines newest first, the overspeed and late runs, the last committed line, whether START has completed,
the lines for which fire.line_skip, fire.pos_passed and fire.late_line were last reported, the lines complete in the FIFOs
with the instant in ns, those whose slack was recorded, the lines whose deadline passed unmet,
the first line after START, the descriptors at the head of the gate's queue that the scheduler has taken, and hmin (R241). -/
structure FireBar where
  next : Nat
  credit : Nat
  tLast : Option Nat
  tPrev : Option Nat
  stopAt : Option Nat
  sched : List (Nat × Nat)
  hist : List (Nat × Nat)
  ovRun : Nat
  lateRun : Nat
  lastCommit : Option Nat
  started : Bool
  skipRep : Option Nat
  posRep : Option Nat
  lateRep : Option Nat
  complete : List (Nat × Nat)
  recorded : List Nat
  missed : List Nat
  first : Nat
  taken : Nat
  hmin : Nat
  deriving DecidableEq, Repr

/-! ### Head links (chapters 11, 12) -/

/-- A tap calibration in progress (R270): the lane, the tap (0 CM1, 1 CP1, 2 CP2), whether the direction is −1, the steps
moved, the best eye, the frames waited and the last eye value of a good frame. -/
structure TapCal where
  lane : Nat
  tap : Nat
  neg : Bool
  moved : Nat
  best : Option Nat
  waited : Nat
  eye : Option Nat
  deriving DecidableEq, Repr

/-- What a resting lane of a port in state Up is doing (R272, R273). -/
inductive LanePhase
  | lock
  | eq (c : TapCal)
  | deskew (tries : Nat)
  | idle
  deriving DecidableEq, Repr

/-- The resting lane of a port in state Up: which lane, whether it recalibrates (R273), and its phase. -/
structure LaneJob where
  lane : Nat
  recal : Bool
  phase : LanePhase
  deriving DecidableEq, Repr

/-- An unanswered control message (R305): token, MTYPE, DST, the whole message, the time at which it counts as unanswered (once
it has been sent), and the times it was sent again. -/
structure Pend where
  tok : Nat
  mtype : Nat
  dst : Nat
  words : List Word
  due : Option Nat
  tries : Nat
  deriving DecidableEq, Repr

/-- A copy of a sent frame (R302): its number and its messages. -/
structure FrameCopy where
  k : Nat
  msgs : List (List Word)
  deriving DecidableEq, Repr

/-- The line that a feeder sends (R296): its index, the runs of port-line words not yet sent (first word, count), and whether
its header has been sent. -/
structure FeedLine where
  line : Nat
  runs : List (Nat × Nat)
  hdr : Bool
  deriving DecidableEq, Repr

/-- An error injection armed on a lane (R279). -/
structure FrameInj where
  lane : Nat
  nbits : Nat
  start : Nat
  deriving DecidableEq, Repr

/-- A head port outside its registers: the link-up attempt (its start, the end of the pause before the next, the failed
attempts, the run of good upstream frames, the skew corrections, the tap calibration, the echoes counted and their sum),
whether the bar node can decode precoding, the run of bad upstream frames, the resting lane, the epoch E_p and whether its
frame has been sent, the next frame number, the scrambler states of lanes A and B, the messages that wait
(FIRE, resent, control), the line being sent and the next line to send, the copies of sent frames, the unanswered messages,
the next token, the twelve BNCAP words, an armed injection, and the 64 words last sent on each lane. -/
structure Port where
  startAt : Nat
  pauseEnd : Option Nat
  attempts : Nat
  good : Nat
  tries : Nat
  cal : Option TapCal
  echoes : Nat
  echoSum : Nat
  precap : Bool
  upBad : Nat
  lane : Option LaneJob
  epoch : Option Nat
  k : Nat
  scrA : Nat
  scrB : Nat
  fireQ : List (List Word)
  resendQ : List (List Word)
  ctlQ : List (List Word)
  feed : Option FeedLine
  nextLine : Nat
  sent : List FrameCopy
  pend : List Pend
  nextTok : Nat
  bncap : List Word
  inj : Option FrameInj
  lastA : List Word
  lastB : List Word
  deriving DecidableEq, Repr

/-- A head segment as the device knows it: the twelve CAP words, the eight waveform slots (valid, depth, rate, lead) declared,
when CAPQ was answered, the unanswered PINGs, the SERIAL and SLOTGEN held before the port went down, the words of the last
TELEM, the line of the last TELEM, the staged blocks that contain JOIN, and whether the trim clamp was reported in this
job. -/
structure Seg where
  cap : List Word
  slots : List (Nat × Bool × Nat × Nat × Nat)
  capAt : Option Nat
  pingMiss : Nat
  held : Option (Nat × Nat)
  tel1 : Word
  tel2 : Word
  telLine : Option Nat
  joinGroup : Option Nat
  clampRep : Bool
  deriving DecidableEq, Repr

/-! ### The ingest unit (chapter 06) -/

/-- The history of a stripe (R152) and where it stands: the panel instance, and the group after whose last line it was left. -/
structure StripeHist where
  inst : Nat
  group : Nat
  hists : Hists
  deriving DecidableEq, Repr

/-- A block of a raw INGEST that is not in the store yet (R141, R146): its group and stripe, its lines, whether it is flushed, the
lane that may not code it again (R167), the mismatches so far, and its coded bytes (header and body) once it is coded. -/
structure IngBlock where
  group : Nat
  stripe : Nat
  rows : List (List (Nat × List Nat))
  flush : Bool
  notLane : Option Nat
  tries : Nat
  coded : Option (List Byte)
  lane : Option Nat
  deriving DecidableEq, Repr

/-- An INGEST in progress (R134, R142 to R149): its message, panel, range and kind (0 raw, 1 pre-compressed, 2 secure), the raw blocks
left, the bytes left of a pre-compressed buffer and the next group and stripe due, the bytes of mapped groups and of the group in
progress, since when it waits for store space, the report of a block of a secure envelope that R147 refuses, the envelope's sequence number,
KEYID, tag result and unmapped entries (entry index, address, lines, bytes), and the checker's histories by stripe (R147). -/
structure IngJob where
  msg : Msg
  panel : Nat
  first : Nat
  count : Nat
  kind : Nat
  blocks : List IngBlock
  data : List Byte
  group : Nat
  stripe : Nat
  stored : Nat
  partBytes : Nat
  waitAt : Option Nat
  verdict : Option Nat
  seq : Nat
  keyid : Word
  tagOk : Bool
  unmapped : List (Nat × Nat × Nat × Nat)
  hists : Tab (Option StripeHist)
  deriving DecidableEq, Repr

/-- An encode lane with a block (R169, R170): the INGEST and block, the coded bytes, the Spillway buffers it needs and holds, since
when it is out of space, for an abandoned block the buffers that must be free before it is coded again, and whether its block is in
the store. -/
structure EncLane where
  tok : Nat
  group : Nat
  stripe : Nat
  code : List Byte
  need : Nat
  spw : List Nat
  oosAt : Option Nat
  again : Option Nat
  done : Bool
  deriving DecidableEq, Repr

/-- The ingest unit outside its registers: the INGEST messages in progress, the blocks in the store in ring order, the bytes of
the map area that are allocated (R145), and the encode lanes that have a block. -/
structure IngState where
  jobs : List IngJob
  store : List StoredBlock
  mapNext : Nat
  lanes : Tab (Option EncLane)
  deriving DecidableEq, Repr

/-! ### The bar pipelines (chapters 07, 08) -/

/-- A group of one stripe that a bar's fetcher has begun (R174, R175): the panel instance and panel, the panel record, the group and
stripe, the block once its map entry was found (address, bytes, lines, header), the cause for which it is not delivered
(R190), the body bytes requested and arrived, the lines that arrived ahead of their turn, the bytes that wait in the window with the bits of the first one already
decoded, the next line to decode, the code tables once read, the check value so far, and the first contone line wanted. -/
structure FetchGroup where
  inst : Nat
  panel : Nat
  recIx : Nat
  form : Nat
  width : Nat
  group : Nat
  stripe : Nat
  found : Bool
  addr : Nat
  lines : Nat
  hdr : Option BlockHdr
  cause : Nat
  asked : Nat
  got : Nat
  parts : List (Nat × List Byte)
  win : List Byte
  bit : Nat
  line : Nat
  tables : List (List Nat)
  crc : Nat
  deriving DecidableEq, Repr

/-- A decoded row set in a bar's line buffer (R178, R179). -/
structure RowSet where
  inst : Nat
  stripe : Nat
  line : Nat
  rows : List (Nat × List Nat)
  deriving DecidableEq, Repr

/-- The pipeline of one bar outside its registers: the groups begun, the history of each stripe with the instance and group
after whose end it stands (R176), the line buffer, the next line the fetcher starts, the last line separation started, the lines written and not yet complete in the FIFOs, the instances whose panel record the fetcher found
missing, the groups, instances and line groups already reported, the panic (since when, whether reported), the levels of the latest
lines by tile position for the duty windows (R212 to R214), the first line of a running check band, the instances of PBASE
changes, and the threshold head last checked (its place × 8 + the depth). -/
structure BarPipe where
  groups : List FetchGroup
  hists : Tab (Option StripeHist)
  buf : List RowSet
  fetched : Option Nat
  sep : Option Nat
  undRep : List (Nat × Nat)
  written : List Nat
  noRec : List Nat
  missRep : List Nat
  planeRep : List Nat
  lineRep : Tab (Option Nat)
  panicAt : Option Nat
  panicRep : Bool
  recent : List (Nat × List (List Nat))
  band : Option Nat
  headOf : Option Nat
  deriving DecidableEq, Repr

/-! ### DRAM (chapter 13) -/

/-- A request in a DRAM channel (R333): its port, its 64-byte lines in that channel, each with the sixteen beats of ten symbols that
stood there when the request was accepted (R331), whether it writes, when it was queued, and for a fetcher the instance, group and
stripe it reads for. -/
structure DReq where
  port : DramPort
  lines : List (Nat × List (List Nat))
  write : Bool
  at_ : Nat
  who : Option (Nat × Nat × Nat)
  deriving DecidableEq, Repr

/-- A DRAM channel outside its registers: the queued requests, the read requests issued whose bursts are not all decoded, whether
writes go first (R334), the consecutive hits that passed an older request, the open row, the prediction counter and the hold end of
each bank (R335), the REFab postponed for each rank (R337), the last request, for each rank the cool reads it still needs while it
is hot (R340), the hottest MR4 code since MEAS_READ, the rolling activation counts (R341), an armed injection, and the shift of the
write delay in ps (R349). -/
structure DramChan where
  queue : List DReq
  issued : List DReq
  drain : Bool
  hits : Nat
  rows : Tab (Option Nat)
  pred : Tab Nat
  hold : Tab (Option Nat)
  postponed : Tab Nat
  lastReq : Nat
  heat : Tab Nat
  worst : Nat
  acts : Tab Nat
  inj : Option Word
  shift : Nat
  deriving DecidableEq, Repr

/-- The DRAM controller outside its registers: the stored data bytes by DRAM address, the difference between the stored check bits
of each beat and the encoding of its data (by address ÷ 4), the channels, the population, a frequency change in progress
(target, start), the timing sets trained, the end of each derivation, the patrol scrub's next line, the oscillator runs, the
time CTL.EN rose, the end of the present Class L window, whether the last MR4 poll found a rank above its operating range, and what the last test read returned. -/
structure DmcState where
  data : Tab Byte
  chk : Tab Byte
  chans : Tab DramChan
  pop : Tab (Option ChanPop)
  change : Option (Nat × Nat)
  trained : List Nat
  derive : Tab (Option Nat)
  scrubAt : Nat
  runs : Nat
  enAt : Nat
  winEnd : Nat
  beyond : Bool
  out : List Byte
  outBad : Bool
  deriving DecidableEq, Repr

/-! ### Security (chapter 21) -/

/-- A slot of the key store (R475, R483): LIMIT in mm, USED in 2^-32 mm, OVER in lines; `metered` is METRES > 0. -/
structure KeySlot where
  keyid : Word
  lseq : Word
  design : DWord
  key : List Byte
  metered : Bool
  limit : Nat
  used : Nat
  beyond : Nat
  deriving DecidableEq, Repr

/-- An entry of the audit log (R486). -/
structure AuditEntry where
  seq : Nat
  time : Nat
  type : Nat
  lcs : Nat
  arg : List Word
  chain : List Byte
  deriving DecidableEq, Repr

/-- The command that the security controller carries out (R480): its operation, argument and address, the status that the checks made at its
start give, and the wrapper (for every command but VERIFY with its payload) as it was read then. -/
structure SecCmd where
  op : Nat
  arg : Nat
  addr : Nat
  status : Nat
  data : List Byte
  deriving DecidableEq, Repr

/-- The security controller outside its registers: OTP (lifecycle groups, device key, slot hashes, slot revocation bits, SVN counters),
the key store, dropped licences (R483), the audit ring with its next SEQ, the last CHAIN, the seals held (last SEQ covered, bytes), the number
of acknowledged entries, the command in progress, the range a running VERIFY has
made read-only (engine address, length), the regions whose RELEASE waits for a copy, the lines of a metered stop (X, slot), the instants of the
latest glitches, the cause of a tamper while only VAUX was present, whether VAUX was lost, and the accepted TAP instruction (R489). -/
structure SecState where
  groups : Tab (BitVec 16)
  duk : List Byte
  hashes : Tab (Option (List Byte))
  revoked : BitVec 5
  svn : Tab Nat
  slots : Tab (Option KeySlot)
  dropped : List (Word × Word)
  audit : List AuditEntry
  audNext : Nat
  chain : List Byte
  seals : List (Nat × List Byte)
  acked : Nat
  cmd : Option SecCmd
  prot : Option (Nat × Nat)
  relPend : List Nat
  meterStop : Option (Nat × Nat)
  glitchAt : List Nat
  vauxTamper : Nat
  vauxLost : Bool
  tap : Nat
  deriving DecidableEq, Repr

/-! ### Sensing and calibration (chapter 20) -/

/-- An ADC channel (R451, R452): the sum and number of the samples so far, the consecutive values below LO and above HI, and the least and
greatest value since the last MEAS_READ of kind 0. -/
structure AdcChan where
  sum : Nat
  n : Nat
  low : Nat
  high : Nat
  least : Option Nat
  greatest : Option Nat
  deriving DecidableEq, Repr

/-- A calibration unit (R464, R465): whether it has completed, the TB0 nanoseconds from which its age counts, since when it is due, and
whether sens.cal_overdue was reported. -/
structure CalUnit where
  done : Bool
  base : Option Nat
  dueAt : Option Nat
  beyond : Bool
  deriving DecidableEq, Repr

/-- Sensing outside its registers: the ADC channels, the channel converted last, the reference codes in use (R451), the consecutive
disagreements of each sensor (R455), whether TJMAX has reached WARN and HIGH (R457), the sensors that were hot at the last conversion
(R458), the shutdown record that waits (sensor, °C), THERM_N low, the OTP shutdown records, the time at which the VAUX hour counter was 0
(R459), the calibration units, and the load measurement in progress (its message and segment). -/
structure SensState where
  chans : Tab AdcChan
  last : Option Nat
  rl : Nat
  rh : Nat
  dis : Tab Nat
  warned : Bool
  highed : Bool
  hot : List Nat
  shutRec : Option (Nat × Nat)
  therm : Bool
  otp : List Word
  hourBase : Nat
  units : Tab CalUnit
  load : Option (Msg × Nat)
  deriving DecidableEq, Repr

/-! ### Cameras (chapter 15) -/

/-- A camera frame whose lines are not all processed, or whose FVAL is active (R372): its number and flags. -/
structure CamFrame where
  num : Nat
  late : Bool
  short : Bool
  long : Bool
  drop : Bool
  lineErr : Bool
  uncorr : Bool
  done : Bool
  deriving DecidableEq, Repr

/-- A line in a port's input buffer (R372, R376): its frame, its line in the frame, its stamp in WPU, the number of PAD lines it stands for
(0 for a received line), whether it was dropped, and its widened components. -/
structure CamLine where
  frame : Nat
  idx : Nat
  stamp : Nat
  pads : Nat
  drop : Bool
  pix : List Nat
  deriving DecidableEq, Repr

/-- The block that a stream collects (R377): its rows, and the stamp, frame, line and ORed flags of its header. -/
structure CamStream where
  rows : List (List Nat)
  stamp : Nat
  frame : Nat
  line : Nat
  flags : Nat
  deriving DecidableEq, Repr

/-- A patch of the patch table (R380). -/
structure PatchRec where
  cx0 : Nat
  ncol : Nat
  bar : Nat
  comp : Nat
  y0 : Nat
  height : Nat
  tone : Nat
  target : Nat
  deriving DecidableEq, Repr

/-- A PATCH in progress (R381): the result address, the period's first line, ORIGIN, PERIOD and GUARD, the patches, and for each the sum,
the count and the lines used. -/
structure PatchOp where
  addr : Nat
  first : Nat
  origin : Nat
  period : Nat
  guard : Nat
  recs : List PatchRec
  acc : List (Nat × Nat × Nat)
  deriving DecidableEq, Repr

/-- The sums A and X of a nozzle and its usable dash lines (R382). -/
structure NozAcc where
  a : Nat
  x : Nat
  n : Nat
  deriving DecidableEq, Repr

/-- A BAND in progress (R382): bar, WHITE, DASH, PITCH, AEXP, the result address, the start line and the nozzles' sums (by
tile position × 2,048 + nozzle). -/
structure BandOp where
  bar : Nat
  white : Nat
  dash : Nat
  pitch : Nat
  aexp : Nat
  addr : Nat
  start : Nat
  acc : Tab NozAcc
  deriving DecidableEq, Repr

/-- A camera port outside its registers: the time EN rose, whether cam.absent was reported since PRESENT last rose, the measured pixel clock
in kHz, whether FVAL is active in a frame, the next frame number, the lines received of the frame, the stamp at its FVAL edge, the times of its
first and last line, the frames, the input buffer, the first trigger pulse since the previous frame ended and since the present one had H
lines (time), the temporal filter and whether it holds a line of the frame, the line passed on last, the streams, the next trigger
target, the end of the trigger pulse, the strobes to come, the end of the strobe, the lines and the mean period of the last frame, the frames and
dropped lines since EN rose, and the operations in progress. -/
structure Cam where
  enAt : Nat
  absentRep : Bool
  khz : Nat
  open_ : Bool
  num : Nat
  received : Nat
  stamp0 : Nat
  firstAt : Nat
  lastAt : Nat
  frames : List CamFrame
  queue : List CamLine
  pulse : Option Nat
  pulseH : Option Nat
  acc : List Nat
  accOf : Option Nat
  prev : List Nat
  streams : Tab CamStream
  trig : Option Nat
  trigEnd : Nat
  strobes : List Nat
  strbEnd : Nat
  lastLines : Nat
  period : Nat
  frameCnt : Nat
  dropCnt : Nat
  patch : Option PatchOp
  band : Option BandOp
  deriving DecidableEq, Repr

/-- The CAM unit and the colour loop of the standard press program (R376, R384 to R387, R216, R218): the descriptors taken and not yet
completed, the port served last, the sums of the accepted periods with their number, the consecutive periods not accepted and whether
cam.loop_stale was reported, n_apply, for each bar the consecutive updates above ALARM and whether cam.loop_limit was reported in this
job, the trim group that waits with its line, the map patches of bands that wait (bar, first line, chunks of index and record) and the groups
that carry them, the bar banded last, and whether scn.band_skipped was reported in this job. -/
structure ColState where
  taken : Nat
  served : Nat
  sums : List (Nat × Nat)
  periods : Nat
  stale : Nat
  staleRep : Bool
  nApply : Nat
  alarms : Tab Nat
  limitRep : Tab Bool
  pend : Option (Nat × Nat)
  patches : List (Nat × Nat × List (List (Nat × Word)))
  groups : List Nat
  lastBand : Option Nat
  skipRep : Bool
  deriving DecidableEq, Repr

/-! ### Protected memory (chapter 14) -/

/-- The 24 tarns and 18 local stores: data bytes, the difference between each stored check field and the encoding of the
stored data (R354), the lines whose valid bit is 1 (R357), a clear in progress, the scrub's place, and the bytes the last
commanded access returned with whether one was uncorrectable. Keys: memory number ×
2^22 + byte offset, spare line k of a memory at offset 2^21 + 64 k. -/
structure TarnState where
  data : Tab Byte
  chk : Tab (BitVec 5)
  valid : Tab Bool
  initNext : Nat
  initEnd : Nat
  scrubAt : Nat
  remapFull : Tab Bool
  scrubStart : Nat
  scrubLate : Bool
  out : List Byte
  outBad : Bool
  deriving DecidableEq, Repr

/-! ### Time bases, Ethernet and encoders (chapters 09, 16) -/

/-- A time base (R391): seconds, nanoseconds and the fraction in 2^-32 ns; a step requested for the next tick (R393). -/
structure TimeBase where
  sec : Nat
  ns : Nat
  frac : Nat
  stepReq : Bool
  deriving DecidableEq, Repr

/-- An encoder input outside its registers (R221 to R230). -/
structure Encoder where
  /-- Position at the last counted edge, 2^-16 WPU (R224). -/
  pe : Nat
  /-- Sample (4 ns) of the last counted edge, when one has been counted. -/
  lastEdge : Option Nat
  /-- The last intervals between counted edges, newest first (R227). -/
  intervals : List Nat
  /-- Counted edges since settling began (R229). -/
  settle : Nat
  /-- The filtered levels of A, B and Z. -/
  lines : BitVec 3
  /-- The current speed window: edges counted, sample of the first and the last of them, both directions seen, and the sample
  at which the window began. -/
  winEdges : Nat
  winFirst : Nat
  winLast : Nat
  winMixed : Bool
  winStart : Nat
  winLen : Nat
  winDirNeg : Bool
  /-- An illegal transition was seen: averaging restarts at the next counted edge (R222). -/
  restart : Bool
  /-- The net count since the last index edge, once one was seen (R223). -/
  idxNet : Option Int
  deriving DecidableEq, Repr

/-- The stretch window of R230 and the bar accumulators of R231. -/
structure StretchState where
  open_ : Bool
  p0 : Nat
  p1 : Nat
  acc : Tab Int
  deriving DecidableEq, Repr

/-- The Ethernet ports outside their registers: the frames sent by each port, newest last, each with its FCS good or bad,
and the queued launch descriptors (port, queue, index) that a reset of their time base made late (R393). -/
structure EthState where
  sent : Tab (List (List Byte × Bool))
  late : List (Nat × Nat × Nat)
  deriving DecidableEq, Repr

/-! ### Clock islands, power and boot (chapters 17, 22) -/

/-- The clock islands outside their registers: the consecutive reference windows out of range (R406), the islands whose stop was
reported since they ran (R414), and the OTP trims (R416). -/
structure XingState where
  refBad : Nat
  stopRep : Tab Bool
  otpTrim : List (BitVec 12)
  deriving DecidableEq, Repr

/-- A management-bus transaction in progress (R514): its bus, address, lengths and the bytes to write. -/
structure BusOp where
  bus : Nat
  addr : Nat
  wlen : Nat
  rlen : Nat
  data : Word
  deriving DecidableEq, Repr

/-- Power and boot: since when VCORE is removed, whether a supply detector gave the last reset and whether software did, the time at which PORST_N rose, whether the
Boot ROM loaded the engines, the last write of SYS.WDOG, whether sys.watchdog was reported since, the Standby request that waits for a
frequency change, the ports to enable again at the exit, the start of a running exit, a management-bus transaction, and what flash keeps of the
nozzle map (R205) and of the remap entries (R364). -/
structure PowerState where
  vcoreOff : Option Nat
  brown : Bool
  soft : Bool
  bootAt : Nat
  bootOk : Bool
  wdogAt : Nat
  wdogRep : Bool
  stbyWait : Bool
  stbyPorts : List Nat
  exitAt : Option Nat
  bus : Option BusOp
  flashMap : Option (List Byte)
  flashRemap : List (Nat × Word)
  deriving DecidableEq, Repr

/-- The whole state of the device. -/
structure State where
  /-- The commands that wait, first in, first out. -/
  pending : List Instr
  /-- Nanoseconds since the supplies came up (the model's own count of time; log entry 2). -/
  now : Nat
  /-- The model's own counter from which free values are drawn (log entry 3). -/
  freeCtr : Nat
  /-- Fused as IH-8816 (R1, R2). -/
  fused8816 : Bool
  /-- The register file, by BAR0 offset (R113). -/
  regs : Tab Word
  /-- Halves latched by a read of the LO half, by BAR0 offset of the latched register (R225, R402, R433, R448). -/
  latch : Tab (Option Word)
  flt : FltState
  eng : EngState
  engines : Tab Engine
  gates : Tab Gate
  pchan : Tab Chan
  tchan : Tab Chan
  spr : SprState
  groups : Tab Group
  /-- Table ids whose live bank is B (R88). -/
  liveB : Tab Bool
  prf : PrfState
  host : HostState
  tarn : TarnState
  tb : Tab TimeBase
  enc : Tab Encoder
  str : StretchState
  eth : EthState
  /-- s.fline of each bar (R51, R243); all ones before the bar has posted a boundary (R425). -/
  fline : Tab DWord
  job : JobState
  fire : Tab FireBar
  ports : Tab Port
  segs : Tab Seg
  cams : Tab Cam
  col : ColState
  ing : IngState
  pipes : Tab BarPipe
  dmc : DmcState
  sec : SecState
  sens : SensState
  xing : XingState
  pwr : PowerState
  /-- The value of `now` at the last device reset: the fire timebase C is 0 there (R237). -/
  cBase : Nat
  deriving DecidableEq, Repr

/-! ### Reset -/

def Engine.reset : Engine :=
  { g := [], p := 0, pc := 0, claim := 0, line := 0, gsel := 0, epc := 0, ecause := 0, eval := 0, tvec := 0, status := 0,
    steps := 0, msrc := 0, dmacq := [], dmaLost := false, ckbase := 0, roles := 0, mailbox := [], wait := none,
    stall := none, loading := none, dma := [] }

def JobState.reset : JobState := { job := none, ending := false, nextId := 1, ops := [] }

def FireBar.reset : FireBar :=
  { next := 0, credit := 0, tLast := none, tPrev := none, stopAt := none, sched := [], hist := [], ovRun := 0, lateRun := 0,
    lastCommit := none, started := false, skipRep := none, posRep := none, lateRep := none, complete := [], recorded := [],
    missed := [], first := 0, taken := 0, hmin := 1758 }

def Port.reset : Port :=
  { startAt := 0, pauseEnd := none, attempts := 0, good := 0, tries := 0, cal := none, echoes := 0, echoSum := 0,
    precap := false, upBad := 0, lane := none, epoch := none, k := 0, scrA := 0x7FFFFF, scrB := 0x7FFFFF, fireQ := [], resendQ := [], ctlQ := [], feed := none, nextLine := 0, sent := [], pend := [], nextTok := 0,
    bncap := [], inj := none, lastA := [], lastB := [] }

def IngState.reset : IngState := { jobs := [], store := [], mapNext := 0, lanes := [] }

def BarPipe.reset : BarPipe :=
  { groups := [], hists := [], buf := [], fetched := none, sep := none, undRep := [], written := [], noRec := [], missRep := [], planeRep := [], lineRep := [],
    panicAt := none, panicRep := false, recent := [], band := none, headOf := none }

def DramChan.reset : DramChan :=
  { queue := [], issued := [], drain := false, hits := 0, rows := [], pred := [], hold := [], postponed := [], lastReq := 0,
    heat := [], worst := 0, acts := [], inj := none, shift := 0 }

def DmcState.reset : DmcState :=
  { data := [], chk := [], chans := [], pop := [], change := none, trained := [], derive := [], scrubAt := 0, runs := 0, enAt := 0,
    winEnd := 0, beyond := false, out := [], outBad := false }

/-- OTP of a Blank device: nothing programmed (R471, R472). -/
def SecState.reset : SecState :=
  { groups := [], duk := [], hashes := [], revoked := 0, svn := [], slots := [], dropped := [], audit := [], audNext := 0, chain := List.replicate 32 0,
    seals := [], acked := 0, cmd := none, prot := none, relPend := [], meterStop := none, glitchAt := [], vauxTamper := 0, vauxLost := false, tap := 0 }

def AdcChan.reset : AdcChan := { sum := 0, n := 0, low := 0, high := 0, least := none, greatest := none }

def CalUnit.reset : CalUnit := { done := false, base := none, dueAt := none, beyond := false }

/-- The reference codes before the first self-calibration are those of ideal references (log entry 20). -/
def SensState.reset : SensState :=
  { chans := [], last := none, rl := 512, rh := 3584, dis := [], warned := false, highed := false, hot := [], shutRec := none,
    therm := false, otp := [], hourBase := 0, units := [], load := none }

def XingState.reset : XingState := { refBad := 0, stopRep := [], otpTrim := List.replicate 16 0 }

def PowerState.reset : PowerState :=
  { vcoreOff := none, brown := false, soft := false, bootAt := 0, bootOk := false, wdogAt := 0, wdogRep := false, stbyWait := false, stbyPorts := [],
    exitAt := none, bus := none, flashMap := none, flashRemap := [] }

def Cam.reset : Cam :=
  { enAt := 0, absentRep := false, khz := 0, open_ := false, num := 0, received := 0, stamp0 := 0, firstAt := 0, lastAt := 0, frames := [],
    queue := [], pulse := none, pulseH := none, acc := [], accOf := none, prev := [], streams := [], trig := none, trigEnd := 0,
    strobes := [], strbEnd := 0, lastLines := 0, period := 0, frameCnt := 0, dropCnt := 0, patch := none, band := none }

def ColState.reset : ColState :=
  { taken := 0, served := 1, sums := [], periods := 0, stale := 0, staleRep := false, nApply := 0, alarms := [], limitRep := [],
    pend := none, patches := [], groups := [], lastBand := none, skipRep := false }

def Seg.reset : Seg :=
  { cap := [], slots := [], capAt := none, pingMiss := 0, held := none, tel1 := 0, tel2 := 0, telLine := none,
    joinGroup := none, clampRep := false }

def Gate.reset : Gate := { claim := 0, queue := [], presented := [], stopped := false }

def Chan.reset : Chan := { armed := false, target := 0, sel := 0 }

def Group.reset : Group :=
  { words := [], tabs := [], bval := 0, begun := false, blocks := [], failed := none, checked := false, unapplied := [] }

def Frame.empty : Frame :=
  { bars := [], origin := 0, pitch := 0, lineRate := 0, fifos := [], tables := [], tarnOther := 0, dramChannels := [],
    roles := [], classL := false, hash := false }

def Profile.empty : Profile :=
  { version := 0x01000000, keeptrim := false, frame := Frame.empty, regs := [], tabs := [], segs := [] }

def TimeBase.reset : TimeBase := { sec := 0, ns := 0, frac := 0, stepReq := false }

def Encoder.reset : Encoder :=
  { pe := 0, lastEdge := none, intervals := [], settle := 0, lines := 0, winEdges := 0, winFirst := 0, winLast := 0,
    winMixed := false, winStart := 0, winLen := 25000, winDirNeg := false, restart := false, idxNet := none }

def FltState.reset : FltState :=
  { waiting := [], levels := [], lastAt := [], walkNext := 0, walkStart := 0, walkAt := 0, walkTest := none }

def EngState.reset : EngState :=
  { deadline := [], passed := [], least := none, missFlag := false, lastEval := 0, avsReq := none, avsFails := 0,
    settleEnd := none, differs := none, paceLow := 0 }

def SprState.reset : SprState := { beatAt := [], stbyAt := [], missed := [], pendingTake := [], oldHolder := none }

def PrfState.reset : PrfState :=
  { live := none, draft := none, proving := none, standing := none, previous := none, starter := Profile.empty, flash := [],
    pend := none, watchEnd := none }

def HostState.reset : HostState :=
  { started := [], held := [], phase := [], times := [], cqFullRep := [], armed := [], events := [], eventLost := false,
    nextTok := 0, raised := [], rdata := 0, rdata2 := [], poisoned := false, mem := [] }

def TarnState.reset : TarnState :=
  { data := [], chk := [], valid := [], initNext := 0, initEnd := 0, scrubAt := 0, remapFull := [], scrubStart := 0,
    scrubLate := false, out := [], outBad := false }

/-- The machine right after power-on reset (R498, and the reset column of every field table). -/
def State.reset : State :=
  { pending := [], now := 0, freeCtr := 0, fused8816 := false, regs := [], latch := [], flt := FltState.reset,
    eng := EngState.reset, engines := [], gates := [], pchan := [], tchan := [], spr := SprState.reset, groups := [],
    liveB := [], prf := PrfState.reset, host := HostState.reset, tarn := TarnState.reset, tb := [], enc := [],
    str := { open_ := false, p0 := 0, p1 := 0, acc := [] }, eth := { sent := [], late := [] },
    fline := [], job := JobState.reset, fire := [], ports := [], segs := [], cams := [], col := ColState.reset,
    ing := IngState.reset, pipes := [], dmc := DmcState.reset, sec := SecState.reset, sens := SensState.reset,
    xing := XingState.reset, pwr := PowerState.reset, cBase := 0 }

end Sys2Proof.Machine
end

