-- ==== Sys2Proof/Machine/Regs.lean ====
section
/-! DEFINITION. The register file: finding a register behind an offset, its value at reset, reading and writing whole
registers and fields, and the access codes of R8. -/

namespace Sys2Proof.Machine

/-- The instance of a register at an offset, if the offset is one of its instances. -/
def RegDef.inst (r : RegDef) (off : Nat) : Option (Nat × Nat) :=
  if off < r.base then none
  else
    let d := off - r.base
    if r.s1 = 0 then (if d = 0 then some (0, 0) else none)
    else
      let i := d / r.s1
      let rem := d % r.s1
      if r.n1 ≤ i then none
      else if r.s2 = 0 then (if rem = 0 then some (i, 0) else none)
      else if rem % r.s2 = 0 && rem / r.s2 < r.n2 then some (i, rem / r.s2) else none

/-- The register behind a BAR0 offset, with its instance. -/
def findIn : List RegDef → Nat → Option (RegDef × Nat × Nat)
  | [], _ => none
  | r :: t, off => match r.inst off with
    | some (i, j) => some (r, i, j)
    | none => findIn t off

/-- The register behind a BAR0 offset (R113), none where the offset has no register. -/
def regAt (off : Nat) : Option (RegDef × Nat × Nat) := findIn (blockRegs (off / 0x10000)) off

/-- The reset values of one register's fields, put together. -/
def fieldsReset : List FieldSpec → Nat
  | [] => 0
  | f :: t => f.rst * 2 ^ f.lo + fieldsReset t

/-- The default lower and upper limits, the gain and the enable of ADC channel `ch` (R450). -/
def adcDefault (ch : Nat) : Nat × Nat × Nat × Nat :=
  match ch with
  | 16 => (680, 870, 1200, 1)
  | 17 => (760, 840, 1200, 1)
  | 18 => (1067, 1133, 2400, 1)
  | 19 => (870, 930, 1200, 1)
  | 20 => (1164, 1236, 2400, 1)
  | 21 => (1710, 1890, 2400, 1)
  | 22 => (3135, 3465, 4800, 1)
  | 23 => (1710, 1890, 2400, 1)
  | _ => (0, 65535, 1200, 0)

/-- The default sensor and DELTA of calibration unit `u` (R463). -/
def calDefault (u : Nat) : Nat × Nat :=
  if u < 32 then (u / 2 / 4, 128) else if u < 36 then (8 + (u - 32), 80) else (5, 160)

/-- CCFG of a code at reset (R433): IMPL, DEF, MIN, MAX, CLASS and LEVEL from its fault table. -/
def ccfgReset (c : Nat) : Nat :=
  match codeRow c with
  | none => 0
  | some r => 2 ^ 31 + r.dflt * 2 ^ 28 + r.lo * 2 ^ 25 + r.hi * 2 ^ 22 + r.dflt * 2 ^ 16 + (if r.level then 2 ^ 15 else 0)

/-- The fault code whose CCFG or CCNT is the register at instance (k, i) of the FLT arrays. -/
def codeOf (k i : Nat) : Nat := k * 256 + i

/-- The reset value of the register at an offset: the reset column of its field table, with the values that depend on the
instance. -/
def regReset (off : Nat) : Word :=
  match regAt off with
  | none => 0
  | some (r, i, j) =>
    let base := fieldsReset r.fields
    let v :=
      if r.base = 0x11000 then base + i * 2 ^ 16                          -- RING.QCFG.IV = q
      else if r.base = 0xe0100 then base + (if i = 0 then 2 ^ 31 else 0)  -- TIME.TBCTL.EN of TB0
      else if r.base = 0x108000 then ccfgReset (codeOf i j)               -- FLT.CCFG
      else if r.base = 0x110100 then base + i * 2 ^ 16                    -- SPR.RCTL.HOME = r
      else if r.base = 0x120200 then                                      -- SENS.ACH
        base + (adcDefault i).2.2.2 * 2 ^ 31 + (adcDefault i).2.2.1
      else if r.base = 0x120204 then (adcDefault i).2.1 * 2 ^ 16 + (adcDefault i).1  -- SENS.ALIM
      else if r.base = 0x120400 then base + (calDefault i).1 * 2 ^ 24 + (calDefault i).2  -- SENS.CUNIT
      else base
    BitVec.ofNat 32 v

/-- A field of a word, as a number. -/
def fieldOf (w : Word) (lo wid : Nat) : Nat := w.toNat / 2 ^ lo % 2 ^ wid

/-- A word with a field replaced (modulo the field's width). -/
def fieldPut (w : Word) (lo wid v : Nat) : Word :=
  BitVec.ofNat 32 (w.toNat - fieldOf w lo wid * 2 ^ lo + v % 2 ^ wid * 2 ^ lo)

/-- The stored word of the register at an offset. -/
def State.rd (s : State) (off : Nat) : Word := Tab.get regReset s.regs off

/-- The state with a word stored at an offset: the hardware's own write, which no access code limits. -/
def State.wr (s : State) (off : Nat) (v : Word) : State := { s with regs := Tab.put regReset s.regs off v }

/-- A field of a register, as a number. -/
def State.get (s : State) (f : Fld) (i : Nat := 0) (j : Nat := 0) : Nat := fieldOf (s.rd (f.off i j)) f.lo f.wid

/-- The state with a field of a register set by hardware. -/
def State.set (s : State) (f : Fld) (v : Nat) (i : Nat := 0) (j : Nat := 0) : State :=
  s.wr (f.off i j) (fieldPut (s.rd (f.off i j)) f.lo f.wid v)

/-- A one-bit field read as a truth value. -/
def State.on (s : State) (f : Fld) (i : Nat := 0) (j : Nat := 0) : Bool := s.get f i j == 1

/-- A signed field. -/
def State.getI (s : State) (f : Fld) (i : Nat := 0) (j : Nat := 0) : Int := toSigned f.wid (s.get f i j)

/-- A counter field that stops at its greatest value. -/
def State.bump (s : State) (f : Fld) (n : Nat := 1) (i : Nat := 0) (j : Nat := 0) : State :=
  s.set f (satAdd (2 ^ f.wid - 1) (s.get f i j) n) i j

/-- Two 32-bit registers as one 64-bit value. -/
def State.get64 (s : State) (lo hi : Fld) (i : Nat := 0) : Nat := s.get lo i + 2 ^ 32 * s.get hi i

/-- A 64-bit value into two 32-bit registers. -/
def State.set64 (s : State) (lo hi : Fld) (v : Nat) (i : Nat := 0) : State :=
  (s.set lo v i).set hi (v / 2 ^ 32) i

/-- What a software write leaves in one field (R8): the field's old and written values give the new one. -/
def accWrite (a : Acc) (wid old new : Nat) : Nat :=
  match a with
  | .rw => new
  | .w1c => Nat.land old (2 ^ wid - 1 - new)
  | .w1s => Nat.lor old new
  | .ro => old
  | .rc => old
  | .wo => 0

/-- What a software write of `v` leaves in a register whose fields are given (R8); reserved bits stay 0 (R9). -/
def swMerge : List FieldSpec → Word → Word → Nat
  | [], _, _ => 0
  | f :: t, old, v =>
    let wid := f.hi + 1 - f.lo
    accWrite f.acc wid (fieldOf old f.lo wid) (fieldOf v f.lo wid) * 2 ^ f.lo + swMerge t old v

/-- A software write by the access codes alone (R8, R9). An offset with no register behind it is left alone. -/
def State.swWrite (s : State) (off : Nat) (v : Word) : State :=
  match regAt off with
  | none => s
  | some (r, _, _) => s.wr off (BitVec.ofNat 32 (swMerge r.fields (s.rd off) v))

/-- What a software read shows of a register's stored word: WO fields read as 0 (R8), reserved bits as 0 (R9). -/
def readMask : List FieldSpec → Word → Nat
  | [], _ => 0
  | f :: t, w =>
    let wid := f.hi + 1 - f.lo
    (if f.acc = .wo then 0 else fieldOf w f.lo wid) * 2 ^ f.lo + readMask t w

/-- What a read leaves behind: RC fields are cleared (R8). -/
def readClear : List FieldSpec → Word → Word
  | [], w => w
  | f :: t, w => readClear t (if f.acc = .rc then fieldPut w f.lo (f.hi + 1 - f.lo) 0 else w)

/-- The register instances that R2 disables on the IH-8816: those of head ports 8 to 15, of their segments, and of DRAM
channels 2 and 3. -/
def fusedOff (off : Nat) : Bool :=
  (0x98000 ≤ off && off < 0xa0000)                          -- HLP(8) to HLP(15)
  || (0xa1200 ≤ off && off < 0xa1400)                       -- HLK per port
  || (0xa9000 ≤ off && off < 0xaa000)                       -- HLK.SEG
  || (0x700a0 ≤ off && off < 0x700c0)                       -- FIRE.PDLY
  || (0x73000 ≤ off && off < 0x74000)                       -- FIRE.SEG
  || (0xb1200 ≤ off && off < 0xb1400)                       -- DMC per channel

/-- Whether a register instance is disabled by fuse in this state (R2). -/
def State.fused (s : State) (off : Nat) : Bool := s.fused8816 && fusedOff off

/-- Whether head port `p` is present (R2). -/
def State.portPresent (s : State) (p : Nat) : Bool := p < (if s.fused8816 then 8 else 16)

/-- Whether DRAM channel `c` is present (R2). -/
def State.chPresent (s : State) (c : Nat) : Bool := c < (if s.fused8816 then 2 else 4)

end Sys2Proof.Machine
end

