-- ==== Sys2Proof/Machine/Ops.lean ====
section
/-! DEFINITION. The operations every chapter shares: time, fault reports (R420), event pulses (R32, R33), interrupts
(R135), device state changes (R132), and protected memory (R353 to R359). -/

namespace Sys2Proof.Machine

/-! ### Time -/

/-- Time base `k`. -/
def State.tbase (s : State) (k : Nat) : TimeBase := Tab.get (fun _ => TimeBase.reset) s.tb k

/-- The 64-bit nanosecond form of time base `k` (R391). -/
def State.tbNs (s : State) (k : Nat) : Nat := ((s.tbase k).sec * 1000000000 + (s.tbase k).ns) % 2 ^ 64

/-- The fire timebase C in LTU (R237): one LTU is 128/225 ns. -/
def State.fireC (s : State) : Nat := (s.now - s.cBase) * 225 / 128 % 2 ^ 64

/-- The nanosecond form of an instant of the fire timebase (R237). -/
def ltuNs (c : Nat) : Nat := c * 128 / 225

/-- The encoder sample counter: one sample each 4 ns (R221). -/
def State.sample (s : State) : Nat := s.now / 4

/-- The next free value (log entry 3): the counter advances, the value is the opaque constant's. -/
def State.drawFree (s : State) : Word × State := (freeWord s.freeCtr, { s with freeCtr := s.freeCtr + 1 })

/-- Whether `us` microseconds of the independent timer have passed since `t0` (R413). -/
def State.elapsedUs (s : State) (t0 us : Nat) : Bool := t0 + us * 1000 ≤ s.now

/-! ### Fault reports -/

/-- The ARG of a report (R425): bar or 0xF, unit or 0xFF, detail. -/
def mkArg (bar unit : Option Nat) (detail : Nat) : Word :=
  w32 ((bar.getD 15 % 16) * 2 ^ 28 + (unit.getD 255 % 256) * 2 ^ 20 + detail % 2 ^ 20)

/-- Adds one to the pending count of the first waiting report with ARG `arg`, if there is one. -/
def mergeWaiting (arg : Word) : List WaitRep → Option (List WaitRep)
  | [] => none
  | w :: t =>
    if w.arg = arg then some ({ w with pend := satAdd 65535 w.pend 1 } :: t)
    else (mergeWaiting arg t).map (w :: ·)

/-- Adds one to the pending count of the newest waiting report. -/
def mergeNewest : List WaitRep → List WaitRep
  | [] => []
  | [w] => [{ w with pend := satAdd 65535 w.pend 1 }]
  | w :: t => w :: mergeNewest t

/-- The reports that wait at a source after one more detection (R420, R421). -/
def enqueueRep (r : WaitRep) (l : List WaitRep) : List WaitRep :=
  match mergeWaiting r.arg l with
  | some l' => l'
  | none => if l.length < 8 then l ++ [r] else mergeNewest l

/-- The waiting reports of a source. -/
def State.waitingReps (s : State) (code : Nat) : List WaitRep := Tab.get (fun _ => []) s.flt.waiting code

/-- Whether the source of a code is a level source (R517). -/
def isLevel (code : Nat) : Bool := (codeRow code).any (·.level)

/-- A detection at the source of `code` (R420): it waits for the hub's acknowledgement. -/
def State.reportRep (s : State) (code : Nat) (r : WaitRep) : State :=
  { s with flt := { s.flt with
      waiting := Tab.put (fun _ => []) s.flt.waiting code (enqueueRep r (s.waitingReps code)),
      levels := if isLevel code then Tab.put (fun _ => false) s.flt.levels code true else s.flt.levels } }

/-- A detection with ARG `arg`, naming a line when it names a bar. -/
def State.report (s : State) (code : Nat) (arg : Word) (line : Option DWord := none) : State :=
  s.reportRep code { arg := arg, line := line, pend := 0, injected := false, dry := false, rail := false }

/-- A report made at most once in each `period` ns for one key. -/
def State.reportLimited (s : State) (code : Nat) (key period : Nat) (arg : Word) (line : Option DWord := none) : State :=
  let k := code * 2 ^ 16 + key
  let last := Tab.get (fun _ => 0) s.flt.lastAt k
  if last ≠ 0 ∧ s.now < last - 1 + period then s
  else
    let s := { s with flt := { s.flt with lastAt := Tab.put (fun _ => 0) s.flt.lastAt k (s.now + 1) } }
    s.report code arg line

/-- Forgets a rate limit, so that the next detection reports at once. -/
def State.clearLimit (s : State) (code key : Nat) : State :=
  { s with flt := { s.flt with lastAt := Tab.put (fun _ => 0) s.flt.lastAt (code * 2 ^ 16 + key) 0 } }

/-! ### Events -/

/-- Whether an offset is one of the ENG.EVROUTE registers. -/
def isEvroute (off : Nat) : Bool := 0x21000 ≤ off && off < 0x21000 + 18 * 0x200 && (off - 0x21000) % 0x200 < 0x100

/-- Whether an EVROUTE register is enabled and routed to a source (R33). -/
def routedTo (src : Nat) (w : Word) : Bool := fieldOf w 31 1 == 1 && fieldOf w 0 10 == src

/-- One pulse at an event input: the count rises by one up to 65,535, where the pulse is lost and OVF is set (R32). -/
def pulseInput (w : Word) : Word :=
  if fieldOf w 10 16 < 65535 then fieldPut w 10 16 (fieldOf w 10 16 + 1) else fieldPut w 30 1 1

/-- The offsets of the inputs routed to a source whose count is already 65,535. -/
def overflowing (src : Nat) (regs : Tab Word) : List Nat :=
  (regs.filter (fun e => isEvroute e.1 && routedTo src e.2 && fieldOf e.2 10 16 == 65535)).map (·.1)

/-- One report of eng.event_overflow for each lost pulse; engine as unit, input as detail. -/
def reportOverflows : List Nat → State → State
  | [], s => s
  | off :: t, s =>
    let d := off - 0x21000
    reportOverflows t (s.report C.eng_event_overflow (mkArg none (some (d / 0x200)) (d % 0x200 / 4)))

/-- One pulse of an event source: every input routed to it receives it (R32, R33). -/
def State.postEvent (s : State) (src : Nat) : State :=
  let lost := overflowing src s.regs
  let regs := Tab.mapE regReset (fun off w => if isEvroute off && routedTo src w then pulseInput w else w) s.regs
  reportOverflows lost { s with regs := regs }

/-! ### Interrupts and the device state -/

/-- Raises an MSI-X vector, or sets its pending bit while it is masked (R135). -/
def State.raiseVec (s : State) (v : Nat) : State :=
  if s.on F.MSIX_CTRL_MASK v then
    s.set F.MSIX_PBA_PENDING (Nat.lor (s.get F.MSIX_PBA_PENDING (v / 32)) (2 ^ (v % 32))) (v / 32)
  else
    { s with host := { s.host with raised := Tab.put (fun _ => 0) s.host.raised v (Tab.get (fun _ => 0) s.host.raised v + 1) } }

/-- The bytes of the first word of a message: its fields. -/
def Msg.opc (m : Msg) : Nat := fieldOf (m.words.getD 0 0) 24 8
def Msg.fence (m : Msg) : Bool := fieldOf (m.words.getD 0 0) 19 1 == 1
def Msg.quiet (m : Msg) : Bool := fieldOf (m.words.getD 0 0) 18 1 == 1
def Msg.cid (m : Msg) : Nat := fieldOf (m.words.getD 0 0) 0 16
/-- ARG0 stands in word 1, ARG1 to ARG11 in words 5 to 15 (R125). -/
def Msg.arg (m : Msg) (k : Nat) : Word := if k = 0 then m.words.getD 1 0 else m.words.getD (k + 4) 0
def Msg.ptr (m : Msg) : Nat := (m.words.getD 2 0).toNat + 2 ^ 32 * (m.words.getD 3 0).toNat
def Msg.len (m : Msg) : Nat := (m.words.getD 4 0).toNat

/-- The completion status codes of R127. -/
inductive Status
  | ok | badopc | badfield | state | check | version | signature | frame | notneg | hostdma | aborted | busy | queue
  | nospace | licence
  deriving DecidableEq, Repr

def Status.code : Status → Nat
  | .ok => 0x00 | .badopc => 0x01 | .badfield => 0x02 | .state => 0x03 | .check => 0x04 | .version => 0x05
  | .signature => 0x06 | .frame => 0x07 | .notneg => 0x08 | .hostdma => 0x09 | .aborted => 0x0A | .busy => 0x0B
  | .queue => 0x0C | .nospace => 0x0D | .licence => 0x0E

/-- Ends a started message: its completion is held until COMPLETION_POST writes it (R122). A QUIET message with status OK
makes no entry (R125), and one whose queue pair was stopped or reset makes none (R119, R123). -/
def State.completeRaw (s : State) (m : Msg) (status : Nat) (r0 r1 : Word) : State :=
  let started := s.host.started.filter (fun x => x.tok ≠ m.tok)
  let held := if m.live && !(m.quiet && status == 0) then
      s.host.held ++ [{ q := m.q, cid := m.cid, status := status, res0 := r0, res1 := r1, sqhead := m.sqhead }]
    else s.host.held
  { s with host := { s.host with started := started, held := held } }

/-- Ends a started message with one of the statuses of R127. -/
def State.complete (s : State) (m : Msg) (st : Status) (r0 : Word := 0) (r1 : Word := 0) : State :=
  s.completeRaw m st.code r0 r1

/-- An asynchronous event of R132: it completes the oldest armed EVENT_ARM entry, or it is held, or it is lost. -/
def State.hostEvent (s : State) (code : Nat) (param : Word) : State :=
  match s.host.armed with
  | m :: rest =>
    let s' := { s with host := { s.host with armed := rest, eventLost := false } }
    s'.complete m .ok (w32 (code + (if s.host.eventLost then 2 ^ 31 else 0))) param
  | [] =>
    if s.host.events.length < 64 then { s with host := { s.host with events := s.host.events ++ [(code, param)] } }
    else { s with host := { s.host with eventLost := true } }

/-- The codes of DEV.STATE.STATE (R136). -/
abbrev stReset := 1
abbrev stBoot := 2
abbrev stNegotiate := 3
abbrev stReady := 4
abbrev stPrinting := 5
abbrev stPaused := 6
abbrev stHalted := 7
abbrev stGrave := 8

/-- DEV.STATE.STATE. -/
def State.dev (s : State) : Nat := s.get F.DEV_STATE_STATE

/-- A change of DEV.STATE raises STATEIV (R135) and is event 0x01 (R132). -/
def State.setDev (s : State) (st : Nat) : State :=
  if s.dev = st then s
  else
    let s := s.set F.DEV_STATE_STATE st
    (s.raiseVec (s.get F.RING_MISCIV_STATEIV)).hostEvent 0x01 (w32 st)

/-- A feature bit of R117 is active. -/
def State.feature (s : State) (bit : Nat) : Bool := bitN (s.get F.DEV_FEATACT_BITS) bit == 1

/-- Whether DEV.STATE is Printing. -/
def State.printing (s : State) : Bool := s.dev == stPrinting
/-- Whether DEV.STATE is Printing or Paused. -/
def State.printingOrPaused (s : State) : Bool := s.dev == stPrinting || s.dev == stPaused

/-! ### Islands (R404) -/

/-- The states of XING.ISTAT (R418). -/
abbrev isRunning : Nat := 0
abbrev isStopped : Nat := 1
abbrev isHeld : Nat := 2
abbrev isAbsent : Nat := 3

def State.island (s : State) (i : Nat) : Nat := s.get F.XING_ISTAT_STATE i

/-- Whether crossings of island `i` carry nothing. -/
def State.islandDead (s : State) (i : Nat) : Bool := s.island i == isStopped || s.island i == isHeld

/-- The report of a stop, made once until the island runs again. -/
def State.noteStop (s : State) (i crossing : Nat) : State :=
  if Tab.get (fun _ => false) s.xing.stopRep i then s
  else
    ({ s with xing := { s.xing with stopRep := Tab.put (fun _ => false) s.xing.stopRep i true } } : State).report
      C.xing_clock_stop (mkArg none (some i) crossing)

/-- The island whose crossing a register access passes (R404, R407); registers of the core have none. -/
def regIsland (off : Nat) : Option Nat :=
  if 0x80000 ≤ off ∧ off < 0x90000 then some 26
  else if 0x90000 ≤ off ∧ off < 0xa0000 then some (1 + (off - 0x90000) / 0x1000)
  else if 0xb1000 ≤ off ∧ off < 0xb1400 then some (17 + (off - 0xb1000) / 0x100)
  else if 0xd0100 ≤ off ∧ off < 0xd0300 then some (24 + (off - 0xd0100) / 0x100)
  else if 0xe0000 ≤ off ∧ off < 0xe0800 then some 27
  else if 0xe0800 ≤ off ∧ off < 0xe0a00 then some (22 + (off - 0xe0800) / 0x100)
  else if 0x140018 ≤ off ∧ off < 0x140028 then some 28
  else none

/-- The stopped or held island of a register access (R411, R414). -/
def State.deadIsland (s : State) (off : Nat) : Option Nat :=
  match regIsland off with
  | some i => if s.islandDead i then some i else none
  | none => none

/-- A write of the register at an offset, whose effect is `f`: Grave ignores it (R427), a register disabled by fuse ignores it (R2), and a
stopped or held crossing discards it (R411, R414). -/
def State.busWrite (s : State) (off : Nat) (f : State → State) : State :=
  if s.dev = stGrave || s.fused off then s
  else match s.deadIsland off with
    | some i => s.noteStop i 0
    | none => f s

/-! ### Protected memory -/

/-- The four low check bits of R354 as the XOR of data bits. -/
def check4 (d : Byte) : BitVec 4 :=
  let b := fun (k : Nat) => d.getLsbD k
  let c0 := b 0 ^^ b 1 ^^ b 3 ^^ b 4 ^^ b 6
  let c1 := b 0 ^^ b 2 ^^ b 3 ^^ b 5 ^^ b 6
  let c2 := b 1 ^^ b 2 ^^ b 3 ^^ b 7
  let c3 := b 4 ^^ b 5 ^^ b 6 ^^ b 7
  BitVec.ofNat 4 (c0.toNat + 2 * c1.toNat + 4 * c2.toNat + 8 * c3.toNat)

/-- The XOR of the low `n` bits of a number. -/
def parity : Nat → Nat → Bool
  | 0, _ => false
  | n + 1, v => (v % 2 == 1) ^^ parity n (v / 2)

/-- The check field of a byte (R354). -/
def encode5 (d : Byte) : BitVec 5 :=
  let c := check4 d
  let c4 := parity 8 d.toNat ^^ parity 4 c.toNat
  BitVec.ofNat 5 (c.toNat + (if c4 then 16 else 0))

/-- How a byte was read (R355). -/
inductive ByteRes
  | clean
  | corrected (syn : Nat)
  | uncorr (syn : Nat)
  deriving DecidableEq, Repr

/-- The data bit at a code position of R354, none for the positions of check bits. -/
def posBit : Nat → Option Nat
  | 3 => some 0 | 5 => some 1 | 6 => some 2 | 7 => some 3 | 9 => some 4 | 10 => some 5 | 11 => some 6 | 12 => some 7
  | _ => none

/-- Decoding of one stored byte and its stored check field (R355). The number in the result is the SYN field: [4] p,
[3:0] s. -/
def decodeByte (d : Byte) (c : BitVec 5) : Byte × ByteRes :=
  let s := Nat.xor (check4 d).toNat (c.toNat % 16)
  let p := parity 8 d.toNat ^^ parity 5 c.toNat
  match p, s with
  | false, 0 => (d, .clean)
  | true, 0 => (d, .corrected 16)
  | true, s =>
    if s ≤ 12 then
      (match posBit s with
       | some k => d ^^^ BitVec.ofNat 8 (2 ^ k)
       | none => d, .corrected (16 + s))
    else (d, .uncorr (16 + s))
  | false, s => (d, .uncorr s)

/-- The key of byte `off` of memory `m`. -/
def memKey (m off : Nat) : Nat := m * 2 ^ 22 + off
/-- The memory of a key. -/
def keyMem (k : Nat) : Nat := k / 2 ^ 22
/-- The byte offset of a key within its memory. -/
def keyOff (k : Nat) : Nat := k % 2 ^ 22

/-- The key of a Tarn byte, by its offset from engine address 0x1000_0000 (R353). -/
def tarnKey (a : Nat) : Nat := memKey (a / 2 ^ 21) (a % 2 ^ 21)
/-- The key of a byte of the local store of engine `e` (R353). -/
def localKey (e a : Nat) : Nat := memKey (32 + e) a

/-- The spare lines of a memory (R363). -/
def spareCount (m : Nat) : Nat := if m < 24 then 16 else 4
/-- The lines of a memory (R353). -/
def lineCount (m : Nat) : Nat := if m < 24 then 32768 else 4096

/-- The lowest spare entry below `n` that stands in for a line of a memory (R363). -/
def findSpare (s : State) (m line : Nat) : Nat → Option Nat
  | 0 => none
  | n + 1 =>
    match findSpare s m line n with
    | some k => some k
    | none => if s.on F.TARN_RMAP_VALID m n && s.get F.TARN_RMAP_LINE m n == line then some n else none

/-- Where the byte of a key is stored: in its home line, or in the spare line that stands in for it (R363). -/
def State.physKey (s : State) (k : Nat) : Nat :=
  match findSpare s (keyMem k) (keyOff k / 64) (spareCount (keyMem k)) with
  | none => k
  | some j => memKey (keyMem k) (2 ^ 21 + 64 * j + keyOff k % 64)

/-- The valid bit of the line that stores a physical key (R357). -/
def State.lineValid (s : State) (pk : Nat) : Bool := Tab.get (fun _ => false) s.tarn.valid (pk / 64)

def State.storedData (s : State) (pk : Nat) : Byte := Tab.get (fun _ => 0) s.tarn.data pk
/-- The stored check field: the encoding of the stored data, changed by the recorded difference. -/
def State.storedChk (s : State) (pk : Nat) : BitVec 5 :=
  encode5 (s.storedData pk) ^^^ Tab.get (fun _ => 0) s.tarn.chk pk

/-- What a read of one byte gives (R355, R357): a line with valid 0 reads as 0 and decodes nothing. -/
def State.peekByte (s : State) (k : Nat) : Byte × ByteRes :=
  let pk := s.physKey k
  if s.lineValid pk then decodeByte (s.storedData pk) (s.storedChk pk) else (0, .clean)

/-- The keys of `n` consecutive bytes of a linear space. -/
def keysFrom (key : Nat → Nat) (a n : Nat) : List Nat := (List.range n).map (fun i => key (a + i))

/-- Counts and records one corrected or uncorrectable byte, and reports it (R359). `bar` and `line` are those of the
requester, when it names them (R360). -/
def noteByte (bar : Option Nat) (line : Option DWord) (k : Nat) (r : ByteRes) (s : State) : State :=
  let m := keyMem k
  let ln := keyOff k / 64
  let log := fun (s : State) (ue syn : Nat) =>
    s.wr (R.TARN_ELOG.off m 0) (w32 (ue * 2 ^ 31 + syn * 2 ^ 26 + (keyOff k % 64) * 2 ^ 15 + ln))
  match r with
  | .clean => s
  | .corrected syn =>
    (log (s.bump F.TARN_CECNT_COUNT 1 m) 0 syn).reportLimited C.tarn_corrected m 1000000 (mkArg none (some m) ln)
  | .uncorr syn => (log (s.bump F.TARN_UECNT_COUNT 1 m) 1 syn).report C.tarn_uncorr (mkArg bar (some m) ln) line

def noteAll (bar : Option Nat) (line : Option DWord) : List (Nat × Byte × ByteRes) → State → State
  | [], s => s
  | (k, _, r) :: t, s => noteAll bar line t (noteByte bar line k r s)

def ByteRes.isUncorr : ByteRes → Bool
  | .uncorr _ => true
  | _ => false

/-- The result of a protected read: the bytes as returned, whether one of them is uncorrectable, and the state after the
counts and reports of R359. -/
structure ReadRes where
  bytes : List Byte
  bad : Bool
  st : State

/-- An ordinary read of the bytes of some keys by one requester (R355, R359, R360). While TARN.TCTL(m).RAW is 1 the stored
bytes are returned without correction, TRAW takes the check field of the lowest byte, and nothing is counted (R365). -/
def State.readKeys (s : State) (keys : List Nat) (bar : Option Nat := none) (line : Option DWord := none) : ReadRes :=
  let m := keyMem (keys.headD 0)
  if s.on F.TARN_TCTL_RAW m then
    let raw := fun k => let pk := s.physKey k; if s.lineValid pk then s.storedData pk else 0
    let pk0 := s.physKey (keys.headD 0)
    { bytes := keys.map raw, bad := false,
      st := s.set F.TARN_TRAW_CHK (if s.lineValid pk0 then (s.storedChk pk0).toNat else 0) m }
  else
    let rs := keys.map (fun k => (k, s.peekByte k))
    { bytes := rs.map (fun r => r.2.1), bad := rs.any (fun r => r.2.2.isUncorr), st := noteAll bar line rs s }

/-- Drops every stored byte and check difference of the line of a physical key: a write to a line with valid 0 zeroes the
bytes it does not name (R357). -/
def State.clearLine (s : State) (pk : Nat) : State :=
  let inLine := fun k => k / 64 == pk / 64
  { s with tarn := { s.tarn with data := Tab.drop inLine s.tarn.data, chk := Tab.drop inLine s.tarn.chk,
                                 valid := Tab.put (fun _ => false) s.tarn.valid (pk / 64) true } }

/-- Stores a byte with a check field that differs from its encoding by `x`. -/
def State.storeRaw (s : State) (pk : Nat) (d : Byte) (x : BitVec 5) : State :=
  { s with tarn := { s.tarn with data := Tab.put (fun _ => 0) s.tarn.data pk d, chk := Tab.put (fun _ => 0) s.tarn.chk pk x } }

/-- A write of one byte (R356, R357). `masked`: the requester is an engine or BAR2, whose writes TARN.TCTL(m).EN masks
(R365). -/
def State.writeKey (s : State) (masked : Bool) (k : Nat) (d : Byte) : State :=
  let m := keyMem k
  let pk := s.physKey k
  let s' := if s.lineValid pk then s else s.clearLine pk
  if masked && s.on F.TARN_TCTL_EN m then
    let d' := d ^^^ BitVec.ofNat 8 (s.get F.TARN_TMASK_DMASK m)
    s'.storeRaw pk d' (encode5 d' ^^^ encode5 d ^^^ BitVec.ofNat 5 (s.get F.TARN_TMASK_CMASK m))
  else s'.storeRaw pk d 0

/-- A write of bytes at keys, in order. -/
def State.writeKeys (s : State) (masked : Bool) : List Nat → List Byte → State
  | k :: ks, d :: ds => (s.writeKey masked k d).writeKeys masked ks ds
  | _, _ => s

/-- The size of Tarn (R35). -/
abbrev tarnSize : Nat := 0x3000000
/-- The size of a local store (R35). -/
abbrev localSize : Nat := 0x40000

/-- A read of Tarn at a byte offset. -/
def State.readTarn (s : State) (a n : Nat) (bar : Option Nat := none) (line : Option DWord := none) : ReadRes :=
  s.readKeys (keysFrom tarnKey a n) bar line
/-- A read of an engine's local store. -/
def State.readLocal (s : State) (e a n : Nat) : ReadRes := s.readKeys (keysFrom (localKey e) a n)
/-- A unit's write of Tarn at a byte offset. -/
def State.writeTarn (s : State) (a : Nat) (bs : List Byte) (masked : Bool := false) : State :=
  s.writeKeys masked (keysFrom tarnKey a bs.length) bs
def State.writeLocal (s : State) (e a : Nat) (bs : List Byte) (masked : Bool := false) : State :=
  s.writeKeys masked (keysFrom (localKey e) a bs.length) bs

/-- The ranges that are read-only to engines, DMA and BAR2 (R477), as engine address and length: verified regions, and the range of a
running VERIFY. -/
def State.readOnly (s : State) : List (Nat × Nat) :=
  ((List.range 8).map (fun k => (s.get F.SEC_VBASE_VALUE k, s.get F.SEC_VLEN_VALUE k % 2 ^ 29))).filter (fun e => 0 < e.2) ++
    (match s.sec.prot with
     | some e => [e]
     | none => [])

/-- A write of Tarn by an engine, DMA or BAR2 (R365, R477): one that touches a read-only range is discarded and reported. -/
def State.writeTarnGuarded (s : State) (a : Nat) (bs : List Byte) (masked : Bool) : State :=
  if s.readOnly.any (fun e => a + 0x10000000 < e.1 + e.2 && e.1 < a + 0x10000000 + bs.length) then
    s.report C.sec_vreg_write (mkArg none none ((a + 0x10000000) / 4096))
  else s.writeTarn a bs masked

/-! ### Host memory -/

/-- A device write of bytes to host memory. -/
def State.writeHost (s : State) (a : Nat) (bs : List Byte) : State :=
  { s with host := { s.host with mem :=
      (List.zip (List.range bs.length) bs).foldl (fun t e => Tab.put (fun _ => 0) t ((a + e.1) % 2 ^ 64) e.2) s.host.mem } }

/-! ### Engines and gates -/

def State.engine (s : State) (e : Nat) : Engine := Tab.get (fun _ => Engine.reset) s.engines e
def State.setEngine (s : State) (e : Nat) (x : Engine) : State :=
  { s with engines := Tab.put (fun _ => Engine.reset) s.engines e x }
def State.gate (s : State) (g : Nat) : Gate := Tab.get (fun _ => Gate.reset) s.gates g
def State.setGate (s : State) (g : Nat) (x : Gate) : State := { s with gates := Tab.put (fun _ => Gate.reset) s.gates g x }
def State.group (s : State) (g : Nat) : Group := Tab.get (fun _ => Group.reset) s.groups g
def State.setGroup (s : State) (g : Nat) (x : Group) : State := { s with groups := Tab.put (fun _ => Group.reset) s.groups g x }

/-- The states of ENG.ESTAT (R48). -/
abbrev esCold := 0
abbrev esLoading := 1
abbrev esRunning := 2
abbrev esWaiting := 3
abbrev esTrapped := 4
abbrev esDiagnosing := 5
abbrev esHalted := 6

def State.estate (s : State) (e : Nat) : Nat := s.get F.ENG_ESTAT_STATE e
def State.setEstate (s : State) (e st : Nat) : State := s.set F.ENG_ESTAT_STATE st e
def State.holds (s : State) (e : Nat) : Bool := s.on F.ENG_ESTAT_HOLDS e
def State.roleOf (s : State) (e : Nat) : Nat := s.get F.ENG_ESTAT_ROLE e

/-- The holder of a role (R439): the engine numbered RCLAIM(r)[4:0] while RCLAIM(r) is not 0. -/
def State.holderOf (s : State) (r : Nat) : Option Nat :=
  let c := s.get F.SPR_RCLAIM_CLAIM r
  if c = 0 then none else some (c % 32)

/-- Whether a takeover may start (R439): SPR.CTL.EN is 1 and the device is neither Halted nor Grave. -/
def State.takeoverAllowed (s : State) : Bool := s.on F.SPR_CTL_EN && s.dev ≠ stHalted && s.dev ≠ stGrave

/-- Whether the takeover of role `r` is in progress (R439, R441). -/
def State.takeoverBusy (s : State) (r : Nat) : Bool := s.on F.SPR_TKSTAT_BUSY && s.get F.SPR_TKSTAT_ROLE == r

/-- A trigger for a takeover of role `r` (R439): ignored while that takeover is in progress, and dropped while the sequencer
may not start one. -/
def State.triggerTake (s : State) (r : Nat) : State :=
  if !s.takeoverAllowed || s.takeoverBusy r || s.spr.pendingTake.contains r then s
  else { s with spr := { s.spr with pendingTake := s.spr.pendingTake ++ [r] } }

/-- The triggers of a holder that stops (R439), for the roles below `n`. -/
def triggerHeld (e : Nat) : Nat → State → State
  | 0, s => s
  | n + 1, s =>
    let s := triggerHeld e n s
    if s.holderOf n = some e then s.triggerTake n else s

/-- An engine enters Trapped or Halted: while it holds a role this triggers a cold takeover (R439). Descriptors it was
presenting are withdrawn. -/
def State.stopEngine (s : State) (e st : Nat) : State :=
  let s := s.setEstate e st
  let s := match (s.engine e).stall with
    | some (.desc g _) => s.setGate g { s.gate g with presented := (s.gate g).presented.filter (fun d => d.engine ≠ e) }
    | _ => s
  let s := s.setEngine e { s.engine e with stall := none, wait := none }
  if s.holds e then triggerHeld e 16 s else s

/-- The role a gate serves (R27). -/
def gateRole (g : Nat) : Nat :=
  if g = 0 then 8 else if g ≤ 8 then g - 1 else if g ≤ 16 then g - 9 else if g ≤ 24 then 9 else if g ≤ 32 then 10 else 11

/-- s.fline of a bar. -/
def State.flineOf (s : State) (b : Nat) : DWord := Tab.get (fun _ => BitVec.allOnes 64) s.fline b

/-! ### Web position -/

def State.encoder (s : State) (k : Nat) : Encoder := Tab.get (fun _ => Encoder.reset) s.enc k
def State.setEncoder (s : State) (k : Nat) (x : Encoder) : State := { s with enc := Tab.put (fun _ => Encoder.reset) s.enc k x }

/-- The position of encoder `k` at the present sample in 2^-16 WPU (R225). -/
def State.posQ16 (s : State) (k : Nat) : Nat :=
  let e := s.encoder k
  if !s.on F.ENC_CTL_INTERP k || s.on F.ENC_STAT_STILL k || s.on F.ENC_STAT_UNKNOWN k || s.on F.ENC_STAT_SETTLING k then e.pe
  else
    let n := s.sample - e.lastEdge.getD s.sample
    let speed := (s.getI F.ENC_SPEED_VALUE k).natAbs
    let dq := speed * n * 1024 / 1000000
    let lim := s.get F.ENC_SCALE_SCALE k - 1
    let dq := if lim < dq then lim else dq
    if s.on F.ENC_STAT_DIRN k then (e.pe + 2 ^ 80 - dq) % 2 ^ 80 else (e.pe + dq) % 2 ^ 80

/-- The reference encoder (R224). -/
def State.refEnc (s : State) : Nat := s.get F.ENC_GCTL_REF
/-- The web position in WPU (R224, R225): s.pos. -/
def State.pos (s : State) : Nat := s.posQ16 s.refEnc / 2 ^ 16
/-- The bar position p_b in 2^-16 WPU (R231). -/
def State.barPosQ16 (s : State) (b : Nat) : Int := (s.posQ16 s.refEnc : Int) + Tab.get (fun _ => 0) s.str.acc b
/-- The bar position in whole WPU, modulo 2^64. -/
def State.barPos (s : State) (b : Nat) : Nat := (s.barPosQ16 b / 65536 % (2 ^ 64 : Int)).toNat

end Sys2Proof.Machine
end

