-- ==== Sys2Proof/Machine/Operands.lean ====
section
/-! DEFINITION. The engines as executors of instructions (chapter 03): registers and predicates, instruction words, guards,
retiring, and taking a trap (R50 to R55, R78). -/

namespace Sys2Proof.Machine

/-- General register `r` of an engine; g0 reads as 0 (R50). -/
def Engine.reg (x : Engine) (r : Nat) : DWord := if r = 0 then 0 else Tab.get (fun _ => 0) x.g r

/-- The engine with register `r` written; writes to g0 are discarded (R50). -/
def Engine.setReg (x : Engine) (r : Nat) (v : DWord) : Engine :=
  if r = 0 then x else { x with g := Tab.put (fun _ => 0) x.g r v }

/-- Predicate `k`; p0 reads as 1 (R50). -/
def Engine.pred (x : Engine) (k : Nat) : Bool := if k = 0 then true else bitN x.p.toNat k == 1

/-- The engine with predicate `k` written; writes to p0 are discarded (R50). -/
def Engine.setPred (x : Engine) (k : Nat) (v : Bool) : Engine :=
  if k = 0 then x
  else { x with p := BitVec.ofNat 8 (x.p.toNat - bitN x.p.toNat k * 2 ^ k + (if v then 2 ^ k else 0)) }

/-! ### Instruction words (R52) -/

def wordA (op : Nat) (w : FmtA) : Word :=
  w32 (op * 2 ^ 25 + w.n.toNat * 2 ^ 24 + w.p.toNat * 2 ^ 21 + w.d.toNat * 2 ^ 16 + w.a.toNat * 2 ^ 11 + w.b.toNat * 2 ^ 6
    + w.fn.toNat)
def wordS (op : Nat) (w : FmtS) : Word :=
  w32 (op * 2 ^ 25 + w.n.toNat * 2 ^ 24 + w.p.toNat * 2 ^ 21 + w.d.toNat * 2 ^ 16 + w.a.toNat * 2 ^ 11 + w.sr.toNat)
def wordI (op : Nat) (w : FmtI) : Word :=
  w32 (op * 2 ^ 25 + w.d.toNat * 2 ^ 20 + w.fn.toNat * 2 ^ 16 + w.imm.toNat)
def wordM (op : Nat) (w : FmtM) : Word :=
  w32 (op * 2 ^ 25 + w.d.toNat * 2 ^ 20 + w.a.toNat * 2 ^ 15 + w.s.toNat * 2 ^ 14 + w.sz.toNat * 2 ^ 12 + w.off.toNat)
def wordB (op : Nat) (w : FmtB) : Word :=
  w32 (op * 2 ^ 25 + w.n.toNat * 2 ^ 24 + w.p.toNat * 2 ^ 21 + w.l.toNat * 2 ^ 20 + w.disp.toNat)
def wordX (op : Nat) (w : FmtX) : Word :=
  w32 (op * 2 ^ 25 + w.n.toNat * 2 ^ 24 + w.p.toNat * 2 ^ 21 + w.d.toNat * 2 ^ 16 + w.a.toNat * 2 ^ 11 + w.fn.toNat)

/-! ### Traps (R77, R78) -/

/-- The trap causes of R77. -/
inductive Cause
  | illegal | align | space | uncorrFetch | uncorrData | divzero | norole | dmaForm | ioErr | swtrap | waitDead | owner
  | ckptLen | claimRange
  deriving DecidableEq, Repr

def Cause.code : Cause → Nat
  | .illegal => 0x01 | .align => 0x02 | .space => 0x03 | .uncorrFetch => 0x04 | .uncorrData => 0x05 | .divzero => 0x06
  | .norole => 0x07 | .dmaForm => 0x08 | .ioErr => 0x09 | .swtrap => 0x0A | .waitDead => 0x0B | .owner => 0x0C
  | .ckptLen => 0x0D | .claimRange => 0x0E

/-- Taking a trap at engine `e` (R78): the cause, the value and the instruction length are recorded; without a handler, or
inside one, the engine stops in state Trapped and eng.trap_unhandled is reported (unit: the engine; detail: the cause). -/
def State.trap (s : State) (e : Nat) (c : Cause) (val : DWord) (words : Nat) : State :=
  let x := s.engine e
  let st := BitVec.ofNat 3 (x.status.toNat % 2 + words * 2)
  let x' := { x with epc := x.pc, ecause := BitVec.ofNat 8 c.code, eval := val, status := st }
  let s := s.set F.ENG_ESTAT_TRAP c.code e
  if x.status.toNat % 2 = 1 ∨ x.tvec = 0 then
    ((s.setEngine e x').stopEngine e esTrapped).report C.eng_trap_unhandled (mkArg none (some e) c.code)
  else s.setEngine e { x' with status := BitVec.ofNat 3 (1 + words * 2), pc := x.tvec }

/-! ### Executing one instruction -/

/-- Whether engine `e` executes instructions: it is Running and waits in no instruction. -/
def State.running (s : State) (e : Nat) : Bool := s.estate e == esRunning && (s.engine e).stall.isNone

/-- Retires an instruction of `words` words at engine `e`, whose registers become those of `x`. -/
def State.retire (s : State) (e : Nat) (x : Engine) (words : Nat) : State :=
  s.setEngine e { x with pc := x.pc + w32 (4 * words), steps := x.steps + 1 }

/-- The fetch of an instruction from the local store (R50): its bytes are read under the memory's protection. -/
def State.fetch (s : State) (e words : Nat) : ReadRes := s.readLocal e (s.engine e).pc.toNat (4 * words)

/-- The first address outside the local store of an instruction that runs past it. -/
def State.pastLocal (s : State) (e : Nat) : DWord :=
  let pc := (s.engine e).pc.toNat
  w64 (if localSize < pc + 4 then pc else pc + 4)

/-- The frame of every instruction: an engine that does not run changes nothing; a fetch outside the local store traps SPACE (R35,
R50); an uncorrectable byte on the fetch traps UNCORR_FETCH (R360); a false guard takes one step and has no effect (R53); an undefined function or a field that must be 0
traps ILLEGAL (R54); otherwise the body runs. -/
def State.execAt (s : State) (e words : Nat) (word : Word) (guard : Engine → Bool) (legal : Bool) (body : State → State) :
    State :=
  if !s.running e then s
  else if localSize < (s.engine e).pc.toNat + 4 * words then s.trap e .space (s.pastLocal e) words
  else
    let f := s.fetch e words
    let s := f.st
    let x := s.engine e
    if f.bad then s.trap e .uncorrFetch (x.pc.setWidth 64) words
    else if !guard x then s.retire e x words
    else if !legal then s.trap e .illegal (word.setWidth 64) words
    else body s

/-- The guard of formats A, B and X (R53): p[P] XOR N. -/
def guardOf (n : Bool) (p : BitVec 3) (x : Engine) : Bool := x.pred p.toNat ^^ n

/-- An instruction of format A. -/
def State.execA (s : State) (op : Nat) (e : Eng) (w : FmtA) (legal : Bool) (body : State → State) : State :=
  s.execAt e 1 (wordA op w) (guardOf w.n w.p) legal body

/-- An instruction of format I. -/
def State.execI (s : State) (op : Nat) (e : Eng) (w : FmtI) (legal : Bool) (body : State → State) : State :=
  s.execAt e 1 (wordI op w) (fun _ => true) legal body

/-- An instruction of format X. -/
def State.execX (s : State) (op : Nat) (e : Eng) (w : FmtX) (legal : Bool) (body : State → State) : State :=
  s.execAt e 2 (wordX op w) (guardOf w.n w.p) legal body

/-- Retires a one-word instruction that writes register D. -/
def State.setD (s : State) (e : Nat) (d : BitVec 5) (v : DWord) (words : Nat := 1) : State :=
  s.retire e ((s.engine e).setReg d.toNat v) words

/-- Sign extension of a 16-bit immediate. -/
def sext16 (v : BitVec 16) : DWord := v.signExtend 64
/-- Sign extension of a 32-bit immediate. -/
def sext32 (v : Word) : DWord := v.signExtend 64
/-- Zero extension of a 16-bit immediate. -/
def zext16 (v : BitVec 16) : DWord := v.setWidth 64

end Sys2Proof.Machine
end

