-- ==== Sys2Proof/Machine/Flags.lean ====
section
/-! DEFINITION. Predicate computations: comparisons (R56, R57), the conditions of WAIT (R62) and of the compare channels
(R64), and the slack rule (R41). -/

namespace Sys2Proof.Machine

/-- The comparison FN of CMP (R56); none for a value not defined. -/
def cmpFn (fn : Nat) (a b : DWord) : Option Bool :=
  match fn with
  | 0 => some (a == b)
  | 1 => some (a != b)
  | 2 => some (a.slt b)
  | 3 => some (a.sle b)
  | 4 => some (a.ult b)
  | 5 => some (a.ule b)
  | 6 => some ((a &&& b) != 0)
  | _ => none

/-- The predicate operation FN of PLOG (R56). -/
def plogFn (fn : Nat) (a b : Bool) : Option Bool :=
  match fn with
  | 0 => some (a && b)
  | 1 => some (a || b)
  | 2 => some (a ^^ b)
  | 3 => some (a && !b)
  | _ => none

/-- The enabled inputs of a mask whose pending count is at least 1, as a bitmap over inputs below `n`: an input with EN = 0 never
counts (R62). -/
def readyBits (s : State) (e : Nat) (mask : DWord) : Nat → Nat
  | 0 => 0
  | n + 1 => readyBits s e mask n
      + (if mask.getLsbD n && s.on F.ENG_EVROUTE_EN e n && decide (0 < s.get F.ENG_EVROUTE_COUNT e n) then 2 ^ n else 0)

/-- The bitmap a WAIT would consume, or none while its condition is false (R62). A mask of 0 is a pure delay. -/
def waitCond (s : State) (e : Nat) (mask : DWord) (all : Bool) : Option DWord :=
  let r := w64 (readyBits s e mask 64)
  if mask = 0 then none
  else if all then (if r = mask then some mask else none)
  else if r = 0 then none else some r

/-- Takes 1 from the count of every input of a bitmap. -/
def consume (e : Nat) (bits : DWord) : Nat → State → State
  | 0, s => s
  | n + 1, s =>
    let s := consume e bits n s
    if bits.getLsbD n then s.set F.ENG_EVROUTE_COUNT (s.get F.ENG_EVROUTE_COUNT e n - 1) e n else s

/-- Position compare channel `k`. -/
def State.pchanOf (s : State) (k : Nat) : Chan := Tab.get (fun _ => Chan.reset) s.pchan k
/-- Time compare channel `k`. -/
def State.tchanOf (s : State) (k : Nat) : Chan := Tab.get (fun _ => Chan.reset) s.tchan k

/-- The condition of a position compare channel (R64): rising s.pos ≥ target, falling s.pos ≤ target. -/
def posReached (s : State) (c : Chan) : Bool :=
  if c.sel.toNat % 2 = 0 then decide (c.target.toNat ≤ s.pos) else decide (s.pos ≤ c.target.toNat)

/-- The condition of a time compare channel (R64): the time base ≥ target. -/
def timeReached (s : State) (c : Chan) : Bool := decide (c.target.toNat ≤ s.tbNs c.sel.toNat)

/-- The slack rule of R41, on a difference in ns: floor division by 16, saturated to signed 24 bits. -/
def slackOf (q : Int) : Int := clampI (-0x800000) 0x7FFFFF (q / 16)

/-- Records a slack in an enabled gauge (R41, R43): SLACK, SLACKMIN, the least slack of the voltage loop (R44), and event
0x161 when it is below ENG.AVSTHR.LOW. -/
def State.recordSlack (s : State) (g : Nat) (q : Int) : State :=
  if !s.on F.ENG_GAUGE_EN g then s
  else
    let v := slackOf q
    let s := (s.set F.ENG_SLACK_VALUE (ofSigned 24 v) g).set F.ENG_SLACK_VALID 1 g
    let s := (if v < s.getI F.ENG_SLACKMIN_VALUE g then s.set F.ENG_SLACKMIN_VALUE (ofSigned 24 v) g else s).set
      F.ENG_SLACKMIN_VALID 1 g
    let s := if s.on F.ENG_GAUGE_AVS g then
        { s with eng := { s.eng with least := some (match s.eng.least with
            | none => v
            | some l => if v < l then v else l) } }
      else s
    if v < (s.get F.ENG_AVSTHR_LOW : Int) then s.postEvent 0x161 else s

/-- A deadline passes unmet in an enabled gauge (R42): the count, the miss flag and the report. -/
def State.recordMiss (s : State) (g : Nat) (bar : Option Nat) (line : Option DWord) : State :=
  if !s.on F.ENG_GAUGE_EN g then s
  else
    let s := s.bump F.ENG_MISSCNT_COUNT 1 g
    let s := { s with eng := { s.eng with missFlag := true } }
    if s.on F.ENG_GAUGE_MISSREP g then
      s.report C.eng_deadline_miss (mkArg bar none 0) line
    else s

end Sys2Proof.Machine
end

