-- ==== Sys2Proof/Machine/Events.lean ====
section
/-! DEFINITION. Waiting on events, event counts, compare channels, gauge deadlines and mailboxes (R62 to R66, R226, R395). -/

namespace Sys2Proof.Machine

/-- WAIT (R62): FN[5:1] must be 0; mask 0 with timeout 0 traps WAIT_DEAD. -/
def doWait (e : Eng) (w : FmtA) (s : State) : State :=
  s.execA 0x48 e w (w.fn.toNat < 2) fun s =>
    let x := s.engine e
    let mask := x.reg w.a.toNat
    let tmo := x.reg w.b.toNat
    let all := w.fn.toNat = 1
    if mask = 0 ∧ tmo = 0 then s.trap e .waitDead 0 1
    else match waitCond s e mask all with
      | some bits => (consume e bits 64 s).setD e w.d bits
      | none =>
        let until_ := if tmo = 0 then none else some (w64 (s.tbNs 0) + tmo)
        (s.setEngine e { x with wait := some { mask := mask, all := all, until_ := until_, d := w.d } }).setEstate e esWaiting

def execWait (e : Eng) (w : FmtA) (s : State) : Host.Outcome State Fault Refusal := .next (doWait e w s)

/-- A sleeping WAIT ends with `bits` in its destination, and the engine runs on. -/
def State.endWait (s : State) (e : Nat) (d : BitVec 5) (bits : DWord) : State :=
  let s := s.setEngine e { s.engine e with wait := none }
  (s.setD e d bits).setEstate e esRunning

/-- WAIT_WAKE (R62): the condition of a sleeping WAIT is true, and its counts are consumed. -/
def doWaitWake (e : Eng) (s : State) : State :=
  match (s.engine e).wait with
  | none => s
  | some w =>
    if s.estate e ≠ esWaiting then s
    else match waitCond s e w.mask w.all with
      | none => s
      | some bits => (consume e bits 64 s).endWait e w.d bits

def execWaitWake (e : Eng) (s : State) : Host.Outcome State Fault Refusal := .next (doWaitWake e s)

/-- WAIT_TIMEOUT (R62): at the timeout a true condition wins; otherwise nothing is consumed and g[d] = 0. -/
def doWaitTimeout (e : Eng) (s : State) : State :=
  match (s.engine e).wait with
  | none => s
  | some w =>
    if s.estate e ≠ esWaiting then s
    else match w.until_ with
      | none => s
      | some t =>
        if s.tbNs 0 < t.toNat then s
        else match waitCond s e w.mask w.all with
          | some bits => (consume e bits 64 s).endWait e w.d bits
          | none => s.endWait e w.d 0

def execWaitTimeout (e : Eng) (s : State) : Host.Outcome State Fault Refusal := .next (doWaitTimeout e s)

/-- EVCNT (R63): the pending count of input FN; A and B must be 0. -/
def doEvcnt (e : Eng) (w : FmtA) (s : State) : State :=
  s.execA 0x49 e w (w.a = 0 ∧ w.b = 0) fun s => s.setD e w.d (w64 (s.get F.ENG_EVROUTE_COUNT e w.fn.toNat))

def execEvcnt (e : Eng) (w : FmtA) (s : State) : Host.Outcome State Fault Refusal := .next (doEvcnt e w s)

def State.setPchan (s : State) (k : Nat) (c : Chan) : State := { s with pchan := Tab.put (fun _ => Chan.reset) s.pchan k c }
def State.setTchan (s : State) (k : Nat) (c : Chan) : State := { s with tchan := Tab.put (fun _ => Chan.reset) s.tchan k c }

/-- Pulses a position compare channel that has reached its target, and disarms it (R64). -/
def State.pchanTest (s : State) (k : Nat) : State :=
  let c := s.pchanOf k
  if c.armed && posReached s c then (s.setPchan k { c with armed := false }).postEvent (0x010 + k) else s

/-- Pulses a time compare channel that has reached its target, and disarms it (R64). -/
def State.tchanTest (s : State) (k : Nat) : State :=
  let c := s.tchanOf k
  if c.armed && timeReached s c then (s.setTchan k { c with armed := false }).postEvent (0x030 + k) else s

/-- ARMP (R64): an old target already reached pulses first; a new target already reached pulses at once. -/
def doArmp (e : Eng) (w : FmtA) (s : State) : State :=
  s.execA 0x4A e w (w.fn.toNat < 4) fun s =>
    let k := w.b.toNat
    let target := (s.engine e).reg w.a.toNat
    let s := s.pchanTest k
    let was := (s.pchanOf k).armed
    let s := if bitN w.fn.toNat 1 = 1 then s.setPchan k { s.pchanOf k with armed := false }
      else (s.setPchan k { armed := true, target := target, sel := BitVec.ofNat 2 (w.fn.toNat % 2) }).pchanTest k
    s.setD e w.d (if was then 1 else 0)

def execArmp (e : Eng) (w : FmtA) (s : State) : Host.Outcome State Fault Refusal := .next (doArmp e w s)

/-- ARMT (R64): FN[1:0] names the time base, FN[2] disarms only. -/
def doArmt (e : Eng) (w : FmtA) (s : State) : State :=
  s.execA 0x4B e w (w.fn.toNat < 8) fun s =>
    let k := w.b.toNat
    let target := (s.engine e).reg w.a.toNat
    let s := s.tchanTest k
    let was := (s.tchanOf k).armed
    let s := if bitN w.fn.toNat 2 = 1 then s.setTchan k { s.tchanOf k with armed := false }
      else (s.setTchan k { armed := true, target := target, sel := BitVec.ofNat 2 (w.fn.toNat % 4) }).tchanTest k
    s.setD e w.d (if was then 1 else 0)

def execArmt (e : Eng) (w : FmtA) (s : State) : Host.Outcome State Fault Refusal := .next (doArmt e w s)

def execPositionComparePulse (k : Fin 32) (s : State) : Host.Outcome State Fault Refusal := .next (s.pchanTest k)

def execTimeComparePulse (k : Fin 32) (s : State) : Host.Outcome State Fault Refusal := .next (s.tchanTest k)

/-- The pending deadline of gauge `g` (R65). -/
def State.deadlineOf (s : State) (g : Nat) : Option DWord := Tab.get (fun _ => none) s.eng.deadline g

def State.setDeadline (s : State) (g : Nat) (d : Option DWord) : State :=
  { s with eng := { s.eng with deadline := Tab.put (fun _ => none) s.eng.deadline g d,
                               passed := Tab.put (fun _ => false) s.eng.passed g false } }

/-- DLN (R65): gauge B, 8 to 15; FN[0] = 0 sets a deadline, FN[0] = 1 marks completion (A must be 0). -/
def doDln (e : Eng) (w : FmtA) (s : State) : State :=
  let g := w.b.toNat
  s.execA 0x4C e w (8 ≤ g ∧ g ≤ 15 ∧ (w.fn = 0 ∨ (w.fn = 1 ∧ w.a = 0))) fun s =>
    if w.fn = 0 then
      let was := (s.deadlineOf g).isSome
      (s.setDeadline g (some ((s.engine e).reg w.a.toNat))).setD e w.d (if was then 1 else 0)
    else match s.deadlineOf g with
      | none => s.setD e w.d 1
      | some d => ((s.setDeadline g none).recordSlack g ((d.toNat : Int) - (s.tbNs 0 : Int))).setD e w.d 0

def execDln (e : Eng) (w : FmtA) (s : State) : Host.Outcome State Fault Refusal := .next (doDln e w s)

/-- SEND (R66): B must be even and FN 0. -/
def doSend (e : Eng) (w : FmtA) (s : State) : State :=
  s.execA 0x50 e w (w.b.toNat % 2 = 0 ∧ w.fn = 0) fun s =>
    let x := s.engine e
    let t := (x.reg w.a.toNat).toNat
    if 17 < t then s.setD e w.d 2
    else
      let y := s.engine t
      if 16 ≤ y.mailbox.length then s.setD e w.d 1
      else
        let m : Mail := { src := BitVec.ofNat 5 e, lo := x.reg w.b.toNat, hi := x.reg (w.b.toNat + 1) }
        ((s.setEngine t { y with mailbox := y.mailbox ++ [m] }).postEvent (0x090 + t)).setD e w.d 0

def execSend (e : Eng) (w : FmtA) (s : State) : Host.Outcome State Fault Refusal := .next (doSend e w s)

/-- RECV (R66): D must be even, B 0 and FN[5:3] 0; p[FN & 7] says whether a message was taken. -/
def doRecv (e : Eng) (w : FmtA) (s : State) : State :=
  s.execA 0x51 e w (w.d.toNat % 2 = 0 ∧ w.b = 0 ∧ w.fn.toNat < 8) fun s =>
    let x := s.engine e
    match x.mailbox with
    | [] => s.retire e (x.setPred (w.fn.toNat % 8) false) 1
    | m :: rest =>
      let x := { x with mailbox := rest, msrc := m.src }
      s.retire e (((x.setReg w.d.toNat m.lo).setReg (w.d.toNat + 1) m.hi).setPred (w.fn.toNat % 8) true) 1

def execRecv (e : Eng) (w : FmtA) (s : State) : Host.Outcome State Fault Refusal := .next (doRecv e w s)

end Sys2Proof.Machine
end

