-- ==== Sys2Proof/Machine/Press.lean ====
section
/-! DEFINITION. The press as the device sees it (chapter 01): the live profile's frame, fire positions (R16), the place of a
printed line in the job (R18), and the records of bars, ports and segments. -/

namespace Sys2Proof.Machine

/-! ### Bars, ports and segments -/

def State.fireBar (s : State) (b : Nat) : FireBar := Tab.get (fun _ => FireBar.reset) s.fire b
def State.setFireBar (s : State) (b : Nat) (x : FireBar) : State :=
  { s with fire := Tab.put (fun _ => FireBar.reset) s.fire b x }
def State.port (s : State) (p : Nat) : Port := Tab.get (fun _ => Port.reset) s.ports p
def State.setPort (s : State) (p : Nat) (x : Port) : State := { s with ports := Tab.put (fun _ => Port.reset) s.ports p x }
/-- Segment `sg` = p × 128 + q. -/
def State.seg (s : State) (sg : Nat) : Seg := Tab.get (fun _ => Seg.reset) s.segs sg
def State.setSeg (s : State) (sg : Nat) (x : Seg) : State := { s with segs := Tab.put (fun _ => Seg.reset) s.segs sg x }

/-- The frame of the live profile (R102); empty while no profile is live. -/
def State.liveFrame (s : State) : Frame := (s.prf.live.map (·.frame)).getD Frame.empty

/-- The frame entry of bar `b` in a frame, if the profile uses the bar. -/
def frameBar (f : Frame) (b : Nat) : Option BarFrame := (f.bars.find? (fun e => e.1.val == b)).map (·.2)

/-- The lookahead L of bar `b` (R19): 64 unless the live profile says otherwise. -/
def State.lookahead (s : State) (b : Nat) : Nat := ((frameBar s.liveFrame b).map (·.lookahead)).getD 64

/-- The bar that owns head port `p` (R12), if one does. -/
def frameOwner (f : Frame) (p : Nat) : Option Nat :=
  (f.bars.find? (fun e => e.2.tiles.any (fun t => t.1.val == p))).map (·.1.val)

/-- The bars of the live profile. -/
def State.bars (s : State) : List Nat := s.liveFrame.bars.map (·.1.val)

/-- The head ports of bar `b`, each once, ascending. -/
def State.barPorts (s : State) (b : Nat) : List Nat := (List.range 16).filter (fun p => frameOwner s.liveFrame p == some b)

/-- The tiles of head port `p`, ascending: the order of its blocks (R295). -/
def State.portTiles (s : State) (p : Nat) : List Nat :=
  match frameOwner s.liveFrame p with
  | none => []
  | some b => (List.range 32).filter
      (fun t => ((frameBar s.liveFrame b).map (·.tiles)).getD [] |>.any (fun e => e.1.val == p && e.2.val == t))

/-- The segment indices of a port line, in block order (R295). -/
def State.portSegs (s : State) (p : Nat) : List Nat :=
  (s.portTiles p).flatMap (fun t => [4 * t, 4 * t + 1, 4 * t + 2, 4 * t + 3])

/-- The segments of a bar, as p × 128 + q. -/
def State.barSegs (s : State) (b : Nat) : List Nat :=
  (s.barPorts b).flatMap (fun p => (s.portSegs p).map (fun q => p * 128 + q))

/-- Whether a segment's HLK.SEGEN bit is set. -/
def State.segen (s : State) (sg : Nat) : Bool :=
  bitN (s.get F.HLK_SEGEN_EN (sg / 128) (sg % 128 / 32)) (sg % 32) == 1

/-- HLK.SEG(s).STATE (R315). -/
def State.segState (s : State) (sg : Nat) : Nat := s.get F.HLK_SEG_STATE sg
abbrev sgAbsent := 0
abbrev sgPresent := 1
abbrev sgRefused := 2
abbrev sgStandby := 3
abbrev sgActive := 4
abbrev sgLost := 6

/-- The segment address of R130 and of a report: port [15:12], tile [11:7], segment [6:5]. -/
def segAddr (sg : Nat) : Nat := sg / 128 * 2 ^ 12 + sg % 128 / 4 * 2 ^ 7 + sg % 4 * 2 ^ 5

/-- Whether head port `p` is Up (R265). -/
def State.portUp (s : State) (p : Nat) : Bool := s.get F.HLP_STAT_STATE p == 6

/-- Whether the fire scheduler of a bar is Armed or Firing (R245). -/
def State.barActive (s : State) (b : Nat) : Bool := s.get F.FIRE_STAT_STATE b == 1 || s.get F.FIRE_STAT_STATE b == 2

/-! ### Fire positions -/

/-- The fire origin o_b of bar `b` (R15). -/
def State.origin (s : State) (b : Nat) : Nat :=
  (s.liveFrame.origin.toNat + ((frameBar s.liveFrame b).map (·.dist.toNat)).getD 0) % 2 ^ 64

/-- The fire position of line `n` of bar `b` in WPU (R16). -/
def State.firePos (s : State) (b n : Nat) : Nat :=
  (s.origin b + n * s.liveFrame.pitch.toNat / 65536 % 2 ^ 64) % 2 ^ 64

/-! ### What a bar prints at a line (R18) -/

/-- The place of a printed line: the panel, the instance counted over the whole job, and the contone line (none in the gap). -/
structure LinePlace where
  panel : Nat
  inst : Nat
  cline : Option Nat
  deriving DecidableEq, Repr

/-- R18 from panel `k` on, with `m` printed lines to go and `i0` instances passed. -/
def locateFrom (sc gap : Nat) : List Panel → (k m i0 : Nat) → Option LinePlace
  | [], _, _, _ => none
  | p :: rest, k, m, i0 =>
    let period := p.h * sc + gap
    if p.reps = 0 ∨ m < period * p.reps then
      let i := m % period
      some { panel := k, inst := i0 + m / period, cline := if i < p.h * sc then some (i / sc) else none }
    else locateFrom sc gap rest (k + 1) (m - period * p.reps) (i0 + p.reps)

/-- The scale s of R18: 1 for a 1200-lpi job, 2 for a 600-lpi job. -/
def Job.scale (j : Job) : Nat := if j.r1200 then 1 else 2

/-- What the job prints at line `n`; none before its start and after its last instance. -/
def Job.place (j : Job) (n : Nat) : Option LinePlace :=
  match j.start with
  | none => none
  | some nj => if n < nj then none else locateFrom j.scale j.gap j.panels 0 (n - nj) 0

/-- The printed lines of a job, none when a panel repeats until the job is stopped. -/
def Job.lines (j : Job) : Option Nat :=
  j.panels.foldl (fun a p => match a with
    | none => none
    | some t => if p.reps = 0 then none else some (t + (p.h * j.scale + j.gap) * p.reps)) (some 0)

/-- The first line of panel instance `k` of the job, counted from the job start (R90). -/
def instFirst (sc gap : Nat) : List Panel → (k base : Nat) → Option Nat
  | [], _, _ => none
  | p :: rest, k, base =>
    let period := p.h * sc + gap
    if p.reps = 0 ∨ k < p.reps then some (base + period * k)
    else instFirst sc gap rest (k - p.reps) (base + period * p.reps)

/-- The first content line of panel instance `k` of the running job (R90). -/
def Job.firstLine (j : Job) (k : Nat) : Option Nat :=
  match j.start with
  | none => none
  | some nj => (instFirst j.scale j.gap j.panels k 0).map (· + nj)

/-- CMT.LEAD(b) (R92). -/
def State.lead (s : State) (b : Nat) : Nat := s.get F.CMT_LEAD_LINES b

/-- The scale s of R92: that of the open job, 2 while no job is open. -/
def State.leadScale (s : State) : Nat := (s.job.job.map Job.scale).getD 2

/-- LEAD of every bar computed again (R92): for the bars below `n`. -/
def setLeads : Nat → State → State
  | 0, s => s
  | n + 1, s =>
    let s := setLeads n s
    s.set F.CMT_LEAD_LINES (s.lookahead n + 64 * s.leadScale + 2) n

/-- Whether a resolved point meets its lead (R92): s.fline + LEAD < n, s.fline all ones counting as before line 0. -/
def State.meetsLead (s : State) (b n : Nat) : Bool :=
  let f := (s.flineOf b).toNat
  if f = 2 ^ 64 - 1 then s.lead b ≤ n else f + s.lead b < n

/-- The ports that printing uses: those of every bar of the live profile. -/
def State.allSegs (s : State) : List Nat := s.bars.flatMap s.barSegs

end Sys2Proof.Machine
end

