-- ==== Sys2Proof/Machine/Eng.lean ====
section
/-! DEFINITION. The clockless engine array outside its engines (chapter 02): pace, the voltage loop (R44 to R46), event
routing (R34), gauges and deadlines (R41 to R43). -/

namespace Sys2Proof.Machine

/-! ### Pace -/

/-- PACE_UPDATE (R26, R45): `count` replica steps in the last 1 µs of TB0; the tenth consecutive count below MIN reports
eng.pace_low. -/
def doPaceUpdate (count : BitVec 16) (s : State) : State :=
  let s := s.set F.ENG_PACE_COUNT count.toNat
  let min_ := s.get F.ENG_PACE_MIN
  let low := if min_ ≠ 0 ∧ count.toNat < min_ then satAdd 11 s.eng.paceLow 1 else 0
  let s := { s with eng := { s.eng with paceLow := low } }
  if low = 10 then s.report C.eng_pace_low (mkArg none none 0) else s

def execPaceUpdate (count : BitVec 16) (s : State) : Host.Outcome State Fault Refusal := .next (doPaceUpdate count s)

/-! ### The voltage loop -/

/-- VMIN and VMAX of R44 as codes; codes above 30 of VMAX are taken as 30 (R48). -/
def State.vmaxCode (s : State) : Nat := min 30 (s.get F.ENG_AVSLIM_VMAX)
def State.vminCode (s : State) : Nat := s.get F.ENG_AVSLIM_VMIN

/-- Starts an AVSBus write of a request code (R44). -/
def State.avsWrite (s : State) (code : Nat) : State :=
  let s := s.set F.ENG_AVSSTAT_BUSY 1
  { s with eng := { s.eng with avsReq := some code, avsFails := 0 } }

/-- The code of a voltage rounded down to 5 mV, and held to the field. -/
def vreadCode (mv : Nat) : Nat := min 255 ((mv - 700) / 5)

/-- A Voltage read of `mv` millivolts (R45, R48): VREAD, and since when it differs from the request by more than 20 mV. -/
def State.voltageRead (s : State) (mv : Nat) : State :=
  let s := s.set F.ENG_AVSSTAT_VREAD (vreadCode mv)
  let req := 700 + 5 * s.get F.ENG_AVSSTAT_VREQ
  let off := req + 20 < mv || mv + 20 < req
  { s with eng := { s.eng with differs := if off then some (s.eng.differs.getD s.now) else none } }

/-- AVS_ENABLE (R46): a write of ENG.AVSCTL. When EN rises, the regulator voltage (none: no valid response) is rounded up to
5 mV within the limits and written as the first request. -/
def doAvsEnable (v : Word) (regulator : Option Nat) (s : State) : State :=
  let was := s.on F.ENG_AVSCTL_EN
  let s := s.swWrite (R.ENG_AVSCTL.off 0 0) v
  if was || !s.on F.ENG_AVSCTL_EN then s
  else
    let s := s.set F.ENG_AVSSTAT_CALM 0
    match regulator with
    | none => s.report C.eng_avs_bus (mkArg none none 0)
    | some mv =>
      let code := clampN s.vminCode s.vmaxCode (cdiv (mv - 700) 5)
      (s.set F.ENG_AVSSTAT_VREAD (vreadCode mv)).avsWrite code

def execAvsEnable (v : Word) (regulator : Option Nat) (s : State) : Host.Outcome State Fault Refusal :=
  .next (s.busWrite 0x20010 (fun s => doAvsEnable v regulator s))

/-- The request and the calm count that one evaluation of R44 gives, in codes. -/
def avsEval (jump : Bool) (slack : Option Int) (low high : Int) (vmin vmax v upstep hold calm : Nat) : Nat × Nat :=
  let above := match slack with
    | none => true
    | some x => decide (high < x)
  let below := match slack with
    | none => false
    | some x => decide (x < low)
  if jump then (vmax, 0)
  else if below then (min (v + upstep) vmax, 0)
  else if above then
    if hold ≤ calm + 1 then (max (v - 1) vmin, 0) else (v, calm + 1)
  else (v, 0)

/-- AVS_EVALUATION (R44): once in every PERIOD; skipped while BUSY is 1. eng.slack_low when the slack is below LOW while the
request is already VMAX (R49). -/
def doAvsEvaluation (s : State) : State :=
  if !s.on F.ENG_AVSCTL_EN || s.on F.ENG_AVSSTAT_BUSY then s
  else
    let low : Int := s.get F.ENG_AVSTHR_LOW
    let high : Int := s.get F.ENG_AVSTHR_HIGH
    let v := s.get F.ENG_AVSSTAT_VREQ
    let jump := s.eng.missFlag && s.on F.ENG_AVSCTL_MISSJUMP
    let slack := s.eng.least
    let r := avsEval jump slack low high s.vminCode s.vmaxCode v (max 1 (s.get F.ENG_AVSCTL_UPSTEP))
      (max 1 (s.get F.ENG_AVSCTL_HOLD)) (s.get F.ENG_AVSSTAT_CALM)
    let s := { s with eng := { s.eng with missFlag := false, least := none, lastEval := s.tbNs 0 } }
    let s := s.set F.ENG_AVSSTAT_CALM r.2
    let s := if slack.any (fun x => decide (x < low)) && v == s.vmaxCode then
        s.report C.eng_slack_low (mkArg none none 0) else s
    if r.1 ≠ v then s.avsWrite r.1 else s

def execAvsEvaluation (s : State) : Host.Outcome State Fault Refusal := .next (doAvsEvaluation s)

/-- The settle time of R45 begins. -/
def State.settle (s : State) : State :=
  { s with eng := { s.eng with avsReq := none, avsFails := 0,
                               settleEnd := some (s.now + 1000 * max 1 (s.get F.ENG_AVSCTL_SETTLE)) } }

/-- AVS_TRANSACTION_DONE (R45): a write accepted sets VREQ; a failed one is retried at most twice, and the third failure
reports eng.avs_bus; a Voltage read sets VREAD. BUSY then lasts for SETTLE µs. -/
def doAvsTransactionDone (reply : AvsReply) (s : State) : State :=
  match reply, s.eng.avsReq with
  | .voltage mv, _ => s.voltageRead mv
  | .accepted, some code => (s.set F.ENG_AVSSTAT_VREQ code).settle
  | .failed, some _ =>
    if s.eng.avsFails < 2 then { s with eng := { s.eng with avsFails := s.eng.avsFails + 1 } }
    else s.settle.report C.eng_avs_bus (mkArg none none 0)
  | _, none => s

def execAvsTransactionDone (reply : AvsReply) (s : State) : Host.Outcome State Fault Refusal :=
  .next (doAvsTransactionDone reply s)

/-- AVS_SETTLE_END (R45): BUSY falls and event 0x162 is posted. -/
def doAvsSettleEnd (s : State) : State :=
  match s.eng.settleEnd with
  | none => s
  | some t =>
    if s.now < t then s
    else (({ s with eng := { s.eng with settleEnd := none } } : State).set F.ENG_AVSSTAT_BUSY 0).postEvent 0x162

def execAvsSettleEnd (s : State) : Host.Outcome State Fault Refusal := .next (doAvsSettleEnd s)

/-- AVS_MISMATCH (R45): a Voltage read has differed from the request by more than 20 mV for more than 1 ms. -/
def doAvsMismatch (s : State) : State :=
  match s.eng.differs with
  | none => s
  | some t =>
    if s.now ≤ t + 1000000 then s
    else ({ s with eng := { s.eng with differs := none } } : State).report C.eng_avs_mismatch (mkArg none none 0)

def execAvsMismatch (s : State) : Host.Outcome State Fault Refusal := .next (doAvsMismatch s)

/-- AVSLIM_WRITE (R48): a write that would make VMIN greater than VMAX is ignored and sets LIMERR. -/
def doAvslimWrite (v : Word) (s : State) : State :=
  if min 30 (fieldOf v 8 8) < fieldOf v 0 8 then s.set F.ENG_AVSSTAT_LIMERR 1
  else s.swWrite (R.ENG_AVSLIM.off 0 0) v

def execAvslimWrite (v : Word) (s : State) : Host.Outcome State Fault Refusal := .next (s.busWrite 0x20014 (fun s => doAvslimWrite v s))

/-! ### Event routing -/

/-- EVROUTE_WRITE (R34): SRC is ignored while EN is 1 before and after the write; the count is kept. -/
def doEvrouteWrite (e : Eng) (i : Fin 64) (v : Word) (s : State) : State :=
  let off := R.ENG_EVROUTE.off e i
  let old := s.rd off
  let s := s.swWrite off v
  if fieldOf old 31 1 = 1 ∧ fieldOf v 31 1 = 1 then s.wr off (fieldPut (s.rd off) 0 10 (fieldOf old 0 10)) else s

def execEvrouteWrite (e : Eng) (i : Fin 64) (v : Word) (s : State) : Host.Outcome State Fault Refusal :=
  .next (s.busWrite (R.ENG_EVROUTE.off e i) (fun s => doEvrouteWrite e i v s))

/-- Posts software event 0x170 + k for each bit k below `n` of `v`. -/
def raiseSw (v : Word) : Nat → State → State
  | 0, s => s
  | n + 1, s =>
    let s := raiseSw v n s
    if v.getLsbD n then s.postEvent (0x170 + n) else s

/-- SWEV_RAISE (R33, R48). -/
def execSwevRaise (v : Word) (s : State) : Host.Outcome State Fault Refusal := .next (s.busWrite 0x20024 (fun s => raiseSw v 16 s))

/-! ### Gauges -/

/-- GAUGE_CLRMIN (R48): a write of ENG.GAUGE(g); CLRMIN sets SLACKMIN to 0x7F_FFFF, and a rising EN clears the VALID bits. -/
def doGaugeClrmin (g : Fin 16) (v : Word) (s : State) : State :=
  let was := s.on F.ENG_GAUGE_EN g
  let s := s.swWrite (R.ENG_GAUGE.off g 0) v
  let s := if fieldOf v 30 1 = 1 then s.set F.ENG_SLACKMIN_VALUE 0x7FFFFF g else s
  if !was && s.on F.ENG_GAUGE_EN g then (s.set F.ENG_SLACK_VALID 0 g).set F.ENG_SLACKMIN_VALID 0 g else s

def execGaugeClrmin (g : Fin 16) (v : Word) (s : State) : Host.Outcome State Fault Refusal := .next (s.busWrite (R.ENG_GAUGE.off g 0) (fun s => doGaugeClrmin g v s))

/-- The fire instant of a committed line of bar `b`, in LTU, as the fire scheduler holds it. -/
def State.instantOf (s : State) (b n : Nat) : Option Nat := ((s.fireBar b).hist.find? (fun e => e.1 == n)).map (·.2)

/-- The instant of the deadline of line `n` of bar `b` (R41), once line n − L is committed. -/
def State.deadlineAt (s : State) (b n : Nat) : Option Nat :=
  if n < s.lookahead b then none else s.instantOf b (n - s.lookahead b)

/-- Records the slack of a complete line whose deadline is known (R41). -/
def State.tryRecord (s : State) (b n : Nat) : State :=
  let x := s.fireBar b
  if x.recorded.contains n then s
  else match x.complete.find? (fun e => e.1 == n), s.deadlineAt b n with
    | some (_, c), some t =>
      (s.setFireBar b { x with recorded := (n :: x.recorded).take 1024 }).recordSlack b ((ltuNs t : Int) - (c : Int))
    | _, _ => s

/-- The last word of line `n` of bar `b` has been written into every port FIFO (R41). -/
def State.lineDone (s : State) (b n : Nat) : State :=
  let x := s.fireBar b
  if x.complete.any (fun e => e.1 == n) then s
  else (s.setFireBar b { x with complete := ((n, ltuNs s.fireC) :: x.complete).take 1024 }).tryRecord b n

/-- DEADLINE_MISS (R42, R43): the deadline of a line of a bar (gauges 0 to 7), or the deadline an engine program set (8 to 15),
passes with the line not complete. Counted once for each deadline. -/
def doDeadlineMiss (g : Fin 16) (line : DWord) (s : State) : State :=
  if g.val < 8 then
    let x := s.fireBar g
    match s.deadlineAt g line.toNat with
    | none => s
    | some t =>
      if s.fireC < t || x.missed.contains line.toNat || x.complete.any (fun e => e.1 == line.toNat) then s
      else (s.setFireBar g { x with missed := (line.toNat :: x.missed).take 1024 }).recordMiss g (some g) (some line)
  else match s.deadlineOf g with
    | none => s
    | some d =>
      if s.tbNs 0 < d.toNat || Tab.get (fun _ => false) s.eng.passed g then s
      else ({ s with eng := { s.eng with passed := Tab.put (fun _ => false) s.eng.passed g true } } : State).recordMiss
        g none none

def execDeadlineMiss (g : Fin 16) (line : DWord) (s : State) : Host.Outcome State Fault Refusal := .next (doDeadlineMiss g line s)

/-! ### The slack record -/

/-- One gauge entry of R47. -/
def gaugeEntry (s : State) (g : Nat) : List Byte :=
  let fl := s.get F.ENG_GAUGE_EN g + 2 * s.get F.ENG_SLACK_VALID g + 4 * s.get F.ENG_GAUGE_AVS g + 8 * s.get F.ENG_GAUGE_MISSREP g
  leBytes 4 fl ++ leBytes 4 (ofSigned 32 (s.getI F.ENG_SLACK_VALUE g)) ++
    leBytes 4 (ofSigned 32 (s.getI F.ENG_SLACKMIN_VALUE g)) ++ leBytes 4 (s.get F.ENG_MISSCNT_COUNT g)

/-- The 272 bytes of MEAS_READ kind 4 (R47). -/
def slackRecord (s : State) : List Byte :=
  (List.range 16).flatMap (gaugeEntry s) ++ leBytes 2 (s.get F.ENG_PACE_COUNT) ++ leBytes 1 (s.get F.ENG_AVSSTAT_VREQ) ++
    leBytes 1 (s.get F.ENG_AVSSTAT_VREAD) ++ leBytes 1 (s.get F.ENG_AVSSTAT_CALM) ++
    leBytes 11 (s.get F.ENG_AVSCTL_EN + 2 * s.get F.ENG_AVSSTAT_BUSY + 4 * (if s.eng.missFlag then 1 else 0))

end Sys2Proof.Machine
end

