-- ==== Sys2Proof/Machine/Crypto.lean ====
section
/-! DEFINITION. The algorithms that the spec names and that stand outside it: AES-256 with GCM, SHA-384 and ECDSA on
P-384 (R148, R473, R476; log entry 30). Bit strings are big-endian numbers. -/

namespace Sys2Proof.Machine

/-- The big-endian value of some bytes. -/
def beNat (bs : List (BitVec 8)) : Nat := bs.foldl (fun a b => 256 * a + b.toNat) 0

/-- The `k` big-endian bytes of a number. -/
def beList (k n : Nat) : List (BitVec 8) := (List.range k).map (fun i => BitVec.ofNat 8 (n / 256 ^ (k - 1 - i)))

/-! ### AES-256 -/

/-- Multiplication in GF(2^8) modulo x^8 + x^4 + x^3 + x + 1; the second factor bit by bit. -/
def aesMul : (k a b : Nat) → Nat
  | 0, _, _ => 0
  | k + 1, a, b =>
    let a2 := if 128 ≤ a then Nat.xor (2 * a) 0x11B else 2 * a
    Nat.xor (if b % 2 = 1 then a else 0) (aesMul k a2 (b / 2))

def gf8 (a b : Nat) : Nat := aesMul 8 a b

/-- The inverse of a byte: its 254th power. -/
def aesInv (a : Nat) : Nat :=
  let a2 := gf8 a a
  let a4 := gf8 a2 a2
  let a8 := gf8 a4 a4
  let a16 := gf8 a8 a8
  let a32 := gf8 a16 a16
  let a64 := gf8 a32 a32
  let a128 := gf8 a64 a64
  gf8 (gf8 (gf8 a2 a4) (gf8 a8 a16)) (gf8 (gf8 a32 a64) a128)

/-- A byte rotated left by `k`. -/
def rotl8 (a k : Nat) : Nat := (a * 2 ^ k + a / 2 ^ (8 - k)) % 256

/-- The S-box. -/
def sbox (a : Nat) : Nat :=
  let b := aesInv a
  Nat.xor (Nat.xor (Nat.xor b (rotl8 b 1)) (Nat.xor (rotl8 b 2) (rotl8 b 3))) (Nat.xor (rotl8 b 4) 0x63)

/-- The S-box as a list, so that a run computes it once. -/
def sboxes : List Nat := (List.range 256).map sbox

/-- The inverse S-box as a list. -/
def invSboxes : List Nat := (List.range 256).map (fun v => (sboxes.findIdx (· == v)))

/-- The four bytes of a key word, substituted. -/
def subWord (w : List Nat) : List Nat := w.map (fun b => sboxes.getD b 0)

def xorList (a b : List Nat) : List Nat := List.zipWith Nat.xor a b

/-- The key schedule: words newest first, `i` the number of the next. -/
def expandKey : (k i : Nat) → List (List Nat) → List (List Nat)
  | 0, _, ws => ws.reverse
  | k + 1, i, ws =>
    let prev := ws.headD []
    let back := ws.getD 7 []
    let t := if i % 8 = 0 then
        let r := subWord (prev.drop 1 ++ prev.take 1)
        xorList r [2 ^ (i / 8 - 1), 0, 0, 0]
      else if i % 8 = 4 then subWord prev else prev
    expandKey k (i + 1) (xorList back t :: ws)

/-- The sixty words of the schedule of a 32-byte key. -/
def keySchedule (key : List (BitVec 8)) : List (List Nat) :=
  let ws := (List.range 8).map (fun i => ((key.drop (4 * i)).take 4).map BitVec.toNat)
  expandKey 52 8 ws.reverse

/-- The round key `r` as sixteen bytes. -/
def roundKey (ks : List (List Nat)) (r : Nat) : List Nat := ((ks.drop (4 * r)).take 4).flatten

/-- ShiftRows on sixteen bytes in column order. -/
def shiftRows (b : List Nat) : List Nat := (List.range 16).map (fun i => b.getD ((i + 4 * (i % 4)) % 16) 0)
def invShiftRows (b : List Nat) : List Nat := (List.range 16).map (fun i => b.getD ((i + 16 - 4 * (i % 4)) % 16) 0)

/-- MixColumns with the first row of the matrix given. -/
def mixColumns (m : List Nat) (b : List Nat) : List Nat :=
  (List.range 16).map (fun i =>
    (List.range 4).foldl (fun a j => Nat.xor a (gf8 (b.getD (i / 4 * 4 + j) 0) (m.getD ((j + 4 - i % 4) % 4) 0))) 0)

/-- The rounds of an encryption from round `r` on. -/
def aesRounds (ks : List (List Nat)) : (k r : Nat) → List Nat → List Nat
  | 0, _, b => xorList (shiftRows (b.map (fun x => sboxes.getD x 0))) (roundKey ks 14)
  | k + 1, r, b =>
    aesRounds ks k (r + 1) (xorList (mixColumns [2, 3, 1, 1] (shiftRows (b.map (fun x => sboxes.getD x 0)))) (roundKey ks r))

/-- AES-256 encryption of one block. -/
def aesEnc (ks : List (List Nat)) (b : List Nat) : List Nat := aesRounds ks 13 1 (xorList b (roundKey ks 0))

/-- The rounds of a decryption down from round `k`. -/
def aesUnrounds (ks : List (List Nat)) : (k : Nat) → List Nat → List Nat
  | 0, b => xorList ((invShiftRows b).map (fun x => invSboxes.getD x 0)) (roundKey ks 0)
  | k + 1, b =>
    aesUnrounds ks k (mixColumns [14, 11, 13, 9] (xorList ((invShiftRows b).map (fun x => invSboxes.getD x 0)) (roundKey ks (k + 1))))

/-- AES-256 decryption of one block. -/
def aesDec (ks : List (List Nat)) (b : List Nat) : List Nat := aesUnrounds ks 13 (xorList b (roundKey ks 14))

/-- The sixteen bytes of a 128-bit number. -/
def blockBytes (n : Nat) : List Nat := (beList 16 n).map BitVec.toNat
def bytesBlock (b : List Nat) : Nat := b.foldl (fun a x => 256 * a + x) 0

/-! ### GCM -/

/-- Multiplication in GF(2^128) as GCM numbers its bits: bit 127 of the number is the first. -/
def gcmMul (x : Nat) : (k y : Nat) → Nat
  | 0, _ => 0
  | k + 1, v =>
    let v2 := if v % 2 = 1 then Nat.xor (v / 2) (0xE1 * 2 ^ 120) else v / 2
    Nat.xor (if x / 2 ^ k % 2 = 1 then v else 0) (gcmMul x k v2)

/-- GHASH of blocks. -/
def ghash (h : Nat) (xs : List Nat) : Nat := xs.foldl (fun y x => gcmMul (Nat.xor y x) 128 h) 0

/-- The 128-bit blocks of some bytes, the last padded with zeros; `k` at most. -/
def blocks16 : (k : Nat) → List (BitVec 8) → List Nat
  | 0, _ => []
  | _, [] => []
  | k + 1, bs => beNat ((bs ++ List.replicate 16 0).take 16) :: blocks16 k (bs.drop 16)

/-- AES-256-GCM decryption with a 96-bit IV: the plaintext, and whether the tag passes. -/
def gcmOpen (key iv aad ct tag : List (BitVec 8)) : List (BitVec 8) × Bool :=
  let ks := keySchedule key
  let enc := fun n => bytesBlock (aesEnc ks (blockBytes n))
  let j0 := beNat iv * 2 ^ 32
  let blk := fun bs => blocks16 (bs.length / 16 + 1) bs
  let s := ghash (enc 0) (blk aad ++ blk ct ++ [aad.length * 8 * 2 ^ 64 + ct.length * 8])
  let t := Nat.xor s (enc (j0 + 1))
  let stream := (List.range ((ct.length + 15) / 16)).flatMap (fun i => beList 16 (enc (j0 + (i + 2) % 2 ^ 32)))
  (List.zipWith (· ^^^ ·) ct stream, beNat tag == t)

/-! ### SHA-384 -/

/-- The round constants. -/
def shaK : List Nat :=
  [0x428a2f98d728ae22, 0x7137449123ef65cd, 0xb5c0fbcfec4d3b2f, 0xe9b5dba58189dbbc,
   0x3956c25bf348b538, 0x59f111f1b605d019, 0x923f82a4af194f9b, 0xab1c5ed5da6d8118,
   0xd807aa98a3030242, 0x12835b0145706fbe, 0x243185be4ee4b28c, 0x550c7dc3d5ffb4e2,
   0x72be5d74f27b896f, 0x80deb1fe3b1696b1, 0x9bdc06a725c71235, 0xc19bf174cf692694] ++
  [0xe49b69c19ef14ad2, 0xefbe4786384f25e3, 0x0fc19dc68b8cd5b5, 0x240ca1cc77ac9c65,
   0x2de92c6f592b0275, 0x4a7484aa6ea6e483, 0x5cb0a9dcbd41fbd4, 0x76f988da831153b5,
   0x983e5152ee66dfab, 0xa831c66d2db43210, 0xb00327c898fb213f, 0xbf597fc7beef0ee4,
   0xc6e00bf33da88fc2, 0xd5a79147930aa725, 0x06ca6351e003826f, 0x142929670a0e6e70] ++
  [0x27b70a8546d22ffc, 0x2e1b21385c26c926, 0x4d2c6dfc5ac42aed, 0x53380d139d95b3df,
   0x650a73548baf63de, 0x766a0abb3c77b2a8, 0x81c2c92e47edaee6, 0x92722c851482353b,
   0xa2bfe8a14cf10364, 0xa81a664bbc423001, 0xc24b8b70d0f89791, 0xc76c51a30654be30,
   0xd192e819d6ef5218, 0xd69906245565a910, 0xf40e35855771202a, 0x106aa07032bbd1b8] ++
  [0x19a4c116b8d2d0c8, 0x1e376c085141ab53, 0x2748774cdf8eeb99, 0x34b0bcb5e19b48a8,
   0x391c0cb3c5c95a63, 0x4ed8aa4ae3418acb, 0x5b9cca4f7763e373, 0x682e6ff3d6b2b8a3,
   0x748f82ee5defb2fc, 0x78a5636f43172f60, 0x84c87814a1f0ab72, 0x8cc702081a6439ec,
   0x90befffa23631e28, 0xa4506cebde82bde9, 0xbef9a3f7b2c67915, 0xc67178f2e372532b] ++
  [0xca273eceea26619c, 0xd186b8c721c0c207, 0xeada7dd6cde0eb1e, 0xf57d4f7fee6ed178,
   0x06f067aa72176fba, 0x0a637dc5a2c898a6, 0x113f9804bef90dae, 0x1b710b35131c471b,
   0x28db77f523047d84, 0x32caab7b40c72493, 0x3c9ebe0a15c9bebc, 0x431d67c49c100d4c,
   0x4cc5d4becb3e42b6, 0x597f299cfc657e2a, 0x5fcb6fab3ad6faec, 0x6c44198c4a475817]

/-- The initial hash value. -/
def shaH : List Nat :=
  [0xcbbb9d5dc1059ed8, 0x629a292a367cd507, 0x9159015a3070dd17, 0x152fecd8f70e5939,
   0x67332667ffc00b31, 0x8eb44a8768581511, 0xdb0c2e0d64f98fa7, 0x47b5481dbefa4fa4]

def rotr64 (x k : Nat) : Nat := (x / 2 ^ k + x * 2 ^ (64 - k)) % 2 ^ 64
def xor3 (a b c : Nat) : Nat := Nat.xor (Nat.xor a b) c

/-- The message schedule, newest word first, `k` words to go. -/
def shaSchedule : (k : Nat) → List Nat → List Nat
  | 0, ws => ws.reverse
  | k + 1, ws =>
    let w2 := ws.getD 1 0
    let w15 := ws.getD 14 0
    let s0 := xor3 (rotr64 w15 1) (rotr64 w15 8) (w15 / 2 ^ 7)
    let s1 := xor3 (rotr64 w2 19) (rotr64 w2 61) (w2 / 2 ^ 6)
    shaSchedule k ((ws.getD 15 0 + s0 + ws.getD 6 0 + s1) % 2 ^ 64 :: ws)

/-- One round. -/
def shaRound (v : List Nat) (kw : Nat × Nat) : List Nat :=
  match v with
  | [a, b, c, d, e, f, g, h] =>
    let t1 := h + xor3 (rotr64 e 14) (rotr64 e 18) (rotr64 e 41) + Nat.xor (Nat.land e f) (Nat.land (2 ^ 64 - 1 - e) g) + kw.1 + kw.2
    let t2 := xor3 (rotr64 a 28) (rotr64 a 34) (rotr64 a 39) + xor3 (Nat.land a b) (Nat.land a c) (Nat.land b c)
    [(t1 + t2) % 2 ^ 64, a, b, c, (d + t1) % 2 ^ 64, e, f, g]
  | _ => v

/-- The compression of one 128-byte block. -/
def shaBlock (h : List Nat) (b : List (BitVec 8)) : List Nat :=
  let ws := (List.range 16).map (fun i => beNat ((b.drop (8 * i)).take 8))
  let v := (List.zip shaK (shaSchedule 64 ws.reverse)).foldl shaRound h
  List.zipWith (fun x y => (x + y) % 2 ^ 64) h v

/-- The compression of `k` blocks. -/
def shaBlocks : (k : Nat) → List Nat → List (BitVec 8) → List Nat
  | 0, h, _ => h
  | k + 1, h, bs => shaBlocks k (shaBlock h (bs.take 128)) (bs.drop 128)

/-- SHA-384. -/
def sha384 (bs : List (BitVec 8)) : List (BitVec 8) :=
  let n := bs.length
  let pad := (128 - (n + 17) % 128) % 128
  let m := bs ++ [0x80] ++ List.replicate pad 0 ++ beList 16 (8 * n)
  ((shaBlocks (m.length / 128) shaH m).take 6).flatMap (beList 8)

/-! ### ECDSA on P-384 -/

def p384p : Nat := 2 ^ 384 - 2 ^ 128 - 2 ^ 96 + 2 ^ 32 - 1
def p384b : Nat := 0xb3312fa7e23ee7e4988e056be3f82d19181d9c6efe8141120314088f5013875ac656398d8a2ed19d2a85c8edd3ec2aef
def p384n : Nat := 0xffffffffffffffffffffffffffffffffffffffffffffffffc7634d81f4372ddf581a0db248b0a77aecec196accc52973
def p384g : Nat × Nat :=
  (0xaa87ca22be8b05378eb1c71ef320ad746e1d3b628ba79b9859f741e082542a385502f25dbf55296c3a545e3872760ab7,
   0x3617de4a96262c6f5d9e98bf9292dc29f8f41dbd289a147ce9da3113b5f0b8c00a60b1ce1d7e819d7a431d7c90ea0e5f)

/-- A power modulo `m`, with the `k` low bits of the exponent. -/
def powMod (m : Nat) : (k b e : Nat) → Nat
  | 0, _, _ => 1 % m
  | k + 1, b, e => (if e % 2 = 1 then b else 1) * powMod m k (b * b % m) (e / 2) % m

/-- The inverse modulo a prime. -/
def invMod (m a : Nat) : Nat := powMod m 384 (a % m) (m - 2)

/-- Addition of points; none is the point at infinity. -/
def ecAdd (a b : Option (Nat × Nat)) : Option (Nat × Nat) :=
  match a, b with
  | none, _ => b
  | _, none => a
  | some (x1, y1), some (x2, y2) =>
    let p := p384p
    if x1 = x2 ∧ (y1 + y2) % p = 0 then none
    else
      let l := if x1 = x2 then (3 * x1 * x1 + (p - 3)) * invMod p (2 * y1) % p
        else (y2 + p - y1) * invMod p (x2 + p - x1) % p
      let x3 := (l * l + 2 * p - x1 - x2) % p
      some (x3, (l * (x1 + p - x3) + p - y1) % p)

/-- A multiple of a point, by the `k` low bits of the factor. -/
def ecMul : (k e : Nat) → Option (Nat × Nat) → Option (Nat × Nat)
  | 0, _, _ => none
  | k + 1, e, q => ecAdd (if e % 2 = 1 then q else none) (ecMul k (e / 2) (ecAdd q q))

/-- Whether a signature (r, s) of a digest verifies with an uncompressed public key of 97 bytes. -/
def ecdsaVerify (key digest sig : List (BitVec 8)) : Bool :=
  let x := beNat ((key.drop 1).take 48)
  let y := beNat ((key.drop 49).take 48)
  let r := beNat (sig.take 48)
  let s := beNat ((sig.drop 48).take 48)
  let p := p384p
  let n := p384n
  if key.headD 0 ≠ 4 ∨ p ≤ x ∨ p ≤ y ∨ y * y % p ≠ (x * x * x + (p - 3) * x + p384b) % p ∨ r = 0 ∨ n ≤ r ∨ s = 0 ∨ n ≤ s then false
  else
    let w := invMod n s
    let z := beNat digest
    match ecAdd (ecMul 384 (z * w % n) (some p384g)) (ecMul 384 (r * w % n) (some (x, y))) with
    | none => false
    | some q => q.1 % n == r

/-- The public key of a private one, uncompressed. -/
def ecPublic (d : Nat) : List (BitVec 8) :=
  match ecMul 384 d (some p384g) with
  | none => List.replicate 97 0
  | some (x, y) => 4 :: beList 48 x ++ beList 48 y

/-- A signature of a digest with private key `d` and nonce `k`. -/
def ecdsaSign (d k : Nat) (digest : List (BitVec 8)) : List (BitVec 8) :=
  let n := p384n
  match ecMul 384 k (some p384g) with
  | none => List.replicate 96 0
  | some (x, _) =>
    let r := x % n
    beList 48 r ++ beList 48 (invMod n k * (beNat digest + r * d) % n)

/-- HMAC-SHA-384. -/
def hmac384 (key msg : List (BitVec 8)) : List (BitVec 8) :=
  let k := if 128 < key.length then sha384 key else key
  let k := k ++ List.replicate (128 - k.length) 0
  sha384 (k.map (· ^^^ 0x5C) ++ sha384 (k.map (· ^^^ 0x36) ++ msg))

end Sys2Proof.Machine
end

