-- ==== Sys2Proof/Machine/Audit.lean ====
section
/-! DEFINITION. The device identity key (R473), the audit log with its seals (R486, R487), and the meter (R484). -/

namespace Sys2Proof.Machine

/-! ### The device identity key -/

/-- HKDF-SHA-384 with no salt, for one block of at most 48 bytes (R473; log entry 30). -/
def hkdf384 (secret label : List Byte) (len : Nat) : List Byte := (hmac384 (hmac384 (List.replicate 48 0) secret) (label ++ [1])).take len

/-- The bytes of a label of ASCII characters. -/
def labelBytes (l : List Char) : List Byte := l.map (fun c => BitVec.ofNat 8 c.toNat)

/-- The lifecycle states (R471). -/
abbrev lsBlank := 0
abbrev lsProvisioned := 1
abbrev lsCertified := 2
abbrev lsOpen := 3
abbrev lsRetired := 4

/-- The private DIK (R473): derived from DUK with the label of the state; none in Blank, and none in Retired, for which R473 gives no label. -/
def State.dik (s : State) : Option Nat :=
  let st := s.get F.SEC_LCS_STATE
  if st = lsBlank ∨ st = lsRetired ∨ s.sec.duk = [] then none
  else
    let label := if st = lsOpen then ['I', 'H', 'N', '-', 'D', 'I', 'K', '-', 'O'] else ['I', 'H', 'N', '-', 'D', 'I', 'K', '-', 'C']
    some (beNat (hkdf384 s.sec.duk (labelBytes label) 48) % (p384n - 1) + 1)

/-- `n` free words (log entry 3). -/
def State.drawWords : Nat → State → List Word × State
  | 0, s => ([], s)
  | n + 1, s =>
    let (w, s) := s.drawFree
    let (ws, s) := s.drawWords n
    (w :: ws, s)

/-- `4 n` free bytes. -/
def State.drawBytes (s : State) (n : Nat) : List Byte × State :=
  let (ws, s) := s.drawWords n
  (ws.flatMap (fun w => leBytes 4 w.toNat), s)

/-! ### The audit log -/

/-- The entries of the audit ring. -/
abbrev auditRing : Nat := 16384

/-- Whether the next entry would overwrite an unacknowledged one (R487). -/
def State.auditFull (s : State) : Bool := s.sec.acked + auditRing ≤ s.sec.audNext

/-- Bytes 0x00 to 0x1F of an entry (R486). -/
def AuditEntry.head (e : AuditEntry) : List Byte :=
  leBytes 8 e.seq ++ leBytes 8 e.time ++ leBytes 2 e.type ++ leBytes 1 e.lcs ++ [0] ++
    (List.range 3).flatMap (fun k => leBytes 4 (e.arg.getD k 0).toNat)

/-- An entry as it lies in flash (R486). -/
def AuditEntry.bytes (e : AuditEntry) : List Byte := e.head ++ e.chain

/-- A seal over the last entry (R487): its SEQ, its TB0 and its CHAIN, signed with the DIK. The nonce of the signature is a free value. -/
def State.seal (s : State) : State :=
  match s.sec.audit.head?, s.dik with
  | some e, some d =>
    let body := leBytes 8 e.seq ++ leBytes 8 e.time ++ e.chain
    let (k, s) := s.drawBytes 12
    let bytes := body ++ ecdsaSign d (beNat k % (p384n - 1) + 1) (sha384 body)
    { s with sec := { s.sec with seals := (e.seq, bytes) :: s.sec.seals } }
  | _, _ => s

/-- One audit entry (R486), unless the log is full (R487): then LOST rises and sec.audit_full is reported. The newest entry stands first
in the ring. -/
def State.audit (s : State) (type : Nat) (arg : List Word) : State :=
  if s.auditFull then
    (s.bump F.SEC_AUDSEQ_LOST).report C.sec_audit_full (mkArg none none 0)
  else
    let e : AuditEntry := { seq := s.sec.audNext, time := s.tbNs 0, type := type, lcs := s.get F.SEC_LCS_STATE, arg := arg, chain := [] }
    let e := { e with chain := (sha384 (s.sec.chain ++ e.head)).take 32 }
    let s := { s with sec := { s.sec with audit := (e :: s.sec.audit).take auditRing, audNext := s.sec.audNext + 1, chain := e.chain } }
    if s.sec.audNext % 256 = 0 then s.seal else s

/-! ### The key store and the meter -/

/-- A slot of the key store. -/
def State.keySlot (s : State) (k : Nat) : Option KeySlot := Tab.get (fun _ => none) s.sec.slots k
def State.setKeySlot (s : State) (k : Nat) (x : Option KeySlot) : State :=
  { s with sec := { s.sec with slots := Tab.put (fun _ => none) s.sec.slots k x } }

/-- The slot number of a KEYID, if a slot holds it. -/
def State.slotOf (s : State) (keyid : Word) : Option Nat := (List.range 64).find? (fun k => (s.keySlot k).any (fun x => x.keyid == keyid))

/-- Whether a metered slot's USED has reached its LIMIT (R481, R485). -/
def KeySlot.exhausted (x : KeySlot) : Bool := x.metered && decide (x.limit * 2 ^ 32 ≤ x.used)

/-- Whole metres of a USED value. -/
def usedMetres (used : Nat) : Nat := used / (1000 * 2 ^ 32)

/-- The slot that meters a line of the job: that of a content line of a panel instance with FLAGS.SECURE (R484). -/
def State.meterSlot (s : State) (n : Nat) : Option Nat :=
  match s.job.job with
  | none => none
  | some j =>
    match j.place n with
    | none => none
    | some pl =>
      if pl.cline.isNone then none
      else match j.panels[pl.panel]? with
        | none => none
        | some p => if p.secure then s.slotOf p.keyid else none

/-- One counted line (R484, R486): the pitch is added to USED; each whole 100 m is an audit entry. `over`: the line also counts into OVER
(R485). -/
def State.countLine (s : State) (k : Nat) (beyond : Bool) : State :=
  match s.keySlot k with
  | none => s
  | some x =>
    let used := (x.used + s.liveFrame.pitch.toNat) % 2 ^ 96
    let s := s.setKeySlot k (some { x with used := used, beyond := if beyond then (x.beyond + 1) % 2 ^ 32 else x.beyond })
    if usedMetres x.used / 100 < usedMetres used / 100 then s.audit 5 [x.keyid, w32 k, w32 (usedMetres used)] else s

/-- Whether a remaining panel of the job draws on an exhausted slot (R485): those whose last instance is not finished. -/
def State.jobExhausted (s : State) (j : Job) : Bool :=
  j.panels.any (fun p => p.secure && !p.freed && ((s.slotOf p.keyid).bind s.keySlot).any KeySlot.exhausted)

end Sys2Proof.Machine
end

