-- ==== Sys2Proof/Machine/Cal.lean ====
section
/-! DEFINITION. The end of a calibration as the scheduler of R465 records it. -/

namespace Sys2Proof.Machine

def State.calUnit (s : State) (u : Nat) : CalUnit := Tab.get (fun _ => CalUnit.reset) s.sens.units u
def State.setCalUnit (s : State) (u : Nat) (x : CalUnit) : State :=
  { s with sens := { s.sens with units := Tab.put (fun _ => CalUnit.reset) s.sens.units u x } }

/-- The stored VALUE of the sensor a calibration unit is tied to, as its 16 bits (R463). -/
def State.unitTemp (s : State) (u : Nat) : Nat := s.get F.SENS_TS_VALUE (min 11 (s.get F.SENS_CUNIT_TS u))

/-- A calibration of unit `u` completes (R465): TREF, COUNT, CUTIME, DUE and RUN. -/
def State.calDone (s : State) (u : Nat) : State :=
  let s := (s.set F.SENS_CUSTAT_TREF (s.unitTemp u) u).bump F.SENS_CUSTAT_COUNT 1 u
  let s := ((s.set F.SENS_CUTIME_SEC (s.tbase 0).sec u).set F.SENS_CUSTAT_DUE 0 u).set F.SENS_CUSTAT_RUN 0 u
  s.setCalUnit u { done := true, base := some (s.tbNs 0), dueAt := none, beyond := false }

/-- A lane calibration of port `p` ends without completing (R465): CALRUN and RUN are 0, and the unit stays due. -/
def State.calEndPort (s : State) (p : Nat) : State :=
  ((s.set F.HLP_STAT_CALRUN 0 p).set F.SENS_CUSTAT_RUN 0 (2 * p)).set F.SENS_CUSTAT_RUN 0 (2 * p + 1)

end Sys2Proof.Machine
end

