-- ==== Sys2Proof/Machine/Dram.lean ====
section
/-! DEFINITION. DRAM as data (R329, R331, R344 to R347): addresses, the symbol code, and reads and writes of lines. -/

namespace Sys2Proof.Machine

def State.chan (s : State) (c : Nat) : DramChan := Tab.get (fun _ => DramChan.reset) s.dmc.chans c
def State.setChan (s : State) (c : Nat) (x : DramChan) : State :=
  { s with dmc := { s.dmc with chans := Tab.put (fun _ => DramChan.reset) s.dmc.chans c x } }

/-! ### Addresses (R329, R330) -/

/-- Whether channel `c` is in use: enabled, and Active or in self-refresh. -/
def State.chanInUse (s : State) (c : Nat) : Bool :=
  s.chPresent c && bitN (s.get F.DMC_CTL_CHEN) c == 1 && (s.get F.DMC_CHSTAT_STATE c == 4 || s.get F.DMC_CHSTAT_STATE c == 5)

/-- The enabled channels in ascending order. -/
def State.chans (s : State) : List Nat := (List.range 4).filter s.chanInUse

/-- The smallest capacity in use, bytes. -/
def State.chanBytes (s : State) : Nat := ((listMin? (s.chans.map (fun c => s.get F.DMC_CHSTAT_CAPMIB c))).getD 0) * 2 ^ 20

/-- The bytes of DRAM that addresses reach (R329). -/
def State.dramBytes (s : State) : Nat := s.chans.length * s.chanBytes

/-- The interleave grain (R329). -/
def State.grain (s : State) : Nat := 256 * 2 ^ min 8 (s.get F.DMC_ILV_GRAIN)

/-- The channel and the channel address of a DRAM address (R329). -/
def State.chanAddr (s : State) (a : Nat) : Nat × Nat :=
  let g := s.grain
  let u := a / g
  let n := s.chans.length
  (s.chans.getD (u % n) 0, u / n * g + a % g)

/-- Whether the island of channel `c` is stopped or held outside a frequency change (R411, R414). -/
def State.chanStopped (s : State) (c : Nat) : Bool :=
  (s.get F.XING_ISTAT_STATE (17 + c) == 1 || s.get F.XING_ISTAT_STATE (17 + c) == 2) && !s.on F.DMC_STAT_FCBUSY

/-- Whether a range of addresses touches a channel whose island is stopped. -/
def State.touchesStopped (s : State) (a n : Nat) : Bool :=
  s.chans.any s.chanStopped &&
    (List.range (a % s.grain + n + s.grain - 1)).any (fun i => i % s.grain == 0 && s.chanStopped (s.chanAddr (a / s.grain * s.grain + i)).1)

/-- Whether `n` bytes at an address are populated; an access that is not reports dmc.range (R329). A request to a channel whose
island is stopped ends in the same way (R414). -/
def State.dramOk (s : State) (a n : Nat) : Bool := a + n ≤ s.dramBytes && !s.touchesStopped a n

def State.dramRange (s : State) (a : Nat) : State :=
  s.reportLimited C.dmc_range 0 1000000 (mkArg none none (a / 2 ^ 20))

/-- The bank (rank, group and bank as one number) and the row of a channel address (R330). -/
def State.bankRow (s : State) (c loc : Nat) : Nat × Nat :=
  let two := s.get F.DMC_CHSTAT_RANKS c == 2
  let dens16 := s.get F.DMC_CHSTAT_DENGB c == 16
  let bg := loc / 2 ^ 13 % 8
  let baBits := if dens16 then 2 else 1
  let ba := loc / 2 ^ 16 % 2 ^ baBits
  let rank := if two then loc / 2 ^ 17 % 2 else 0
  let row := (if dens16 || two then loc / 2 ^ 18 else loc / 2 ^ 17) % 65536
  let hash := s.on F.DMC_CTL_HASH
  let bg := if hash then Nat.xor bg (row % 8) else bg
  let ba := if hash then Nat.xor ba (row / 8 % 2 ^ baBits) else ba
  (rank * 32 + ba * 8 + bg, row)

/-! ### The symbol code (R344, R345) -/

/-- Powers of α in GF(16). -/
def gfExp (k : Nat) : Nat := [1, 2, 4, 8, 3, 6, 12, 11, 5, 10, 7, 14, 15, 13, 9].getD (k % 15) 0
/-- The logarithm of a non-zero element. -/
def gfLog (x : Nat) : Nat := [0, 0, 1, 4, 2, 8, 5, 10, 3, 14, 9, 7, 6, 13, 11, 12].getD x 0
def gfMul (x y : Nat) : Nat := if x = 0 ∨ y = 0 then 0 else gfExp (gfLog x + gfLog y)

/-- The symbols v0 to v7 of a beat of data. -/
def beatSyms (d : List Byte) : List Nat := (List.range 8).map (fun i => leNat d / 16 ^ i % 16)

/-- The check byte of a beat (R344): v8 in bits [3:0], v9 in bits [7:4]. -/
def beatCheck (d : List Byte) : Nat :=
  let r := (beatSyms d).foldl (fun (r : Nat × Nat) v =>
    let fb := Nat.xor v r.1
    (Nat.xor r.2 (gfMul fb 6), gfMul fb 8)) (0, 0)
  r.1 + 16 * r.2

/-- The value of a codeword, highest power first, at α^k. -/
def synd (k : Nat) (vs : List Nat) : Nat := vs.foldl (fun a v => Nat.xor (gfMul a (gfExp k)) v) 0

/-- How a beat decodes (R345): no error, the symbol corrected and its error, or uncorrectable. -/
inductive BeatRes
  | clean
  | fix (sym err : Nat)
  | bad
  deriving DecidableEq, Repr

def decodeBeat (vs : List Nat) : BeatRes :=
  let s1 := synd 1 vs
  let s2 := synd 2 vs
  if s1 = 0 ∧ s2 = 0 then .clean
  else if s1 = 0 ∨ s2 = 0 then .bad
  else
    let p := (gfLog s2 + 15 - gfLog s1) % 15
    if 9 < p then .bad else .fix (9 - p) (gfExp (2 * gfLog s1 + 15 - gfLog s2))

/-! ### Stored lines -/

def State.dramByte (s : State) (a : Nat) : Byte := Tab.get (fun _ => 0) s.dmc.data a

/-- The stored data bytes of a line. -/
def State.rawLine (s : State) (a : Nat) : List Byte := (List.range 64).map (fun i => s.dramByte (a + i))

/-- The ten symbols of beat `j` of a line as stored. -/
def State.beatAt (s : State) (a j : Nat) : List Nat :=
  let d := (List.range 4).map (fun i => s.dramByte (a + 4 * j + i))
  let chk := Nat.xor (beatCheck d) (Tab.get (fun _ => 0) s.dmc.chk (a / 4 + j)).toNat
  beatSyms d ++ [chk % 16, chk / 16]

/-- Stores bytes at consecutive addresses. -/
def putBytes : Tab Byte → Nat → List Byte → Tab Byte
  | t, _, [] => t
  | t, a, b :: bs => putBytes (Tab.put (fun _ => 0) t a b) (a + 1) bs

/-- Drops the check differences of the 16 beats of a line. -/
def clearChk (t : Tab Byte) (a : Nat) : Tab Byte := Tab.drop (fun k => a / 4 ≤ k && k < a / 4 + 16) t

/-- The data byte pattern and check pattern of a symbol error: symbol `i`, mask `m`. -/
def symData (i m : Nat) : Nat := if i < 8 then m * 16 ^ i else 0
def symCheck (i m : Nat) : Nat := if i = 8 then m else if i = 9 then m * 16 else 0

/-- XORs a symbol error into beat `j` of a stored line. -/
def State.flipSym (s : State) (a j i m : Nat) : State :=
  let old := (List.range 4).map (fun k => s.dramByte (a + 4 * j + k))
  let chk := Nat.xor (beatCheck old) (Tab.get (fun _ => 0) s.dmc.chk (a / 4 + j)).toNat
  let new := leBytes 4 (Nat.xor (leNat old) (symData i m))
  let chk' := Nat.xor chk (symCheck i m)
  let diff := Tab.put (fun _ => 0) s.dmc.chk (a / 4 + j) (BitVec.ofNat 8 (Nat.xor chk' (beatCheck new)))
  { s with dmc := { s.dmc with data := putBytes s.dmc.data (a + 4 * j) new, chk := diff } }

/-- A full-line write (R344), with an armed injection (R347). -/
def State.writeLine (s : State) (a : Nat) (bs : List Byte) : State :=
  let s := { s with dmc := { s.dmc with data := putBytes s.dmc.data a bs, chk := clearChk s.dmc.chk a } }
  let c := (s.chanAddr a).1
  match (s.chan c).inj with
  | none => s
  | some w =>
    let s := s.setChan c { s.chan c with inj := none }
    let beat := fieldOf w 26 4
    let s := s.flipSym a beat (min 9 (fieldOf w 8 4)) (fieldOf w 0 4)
    if fieldOf w 30 1 = 1 then s.flipSym a beat (min 9 (fieldOf w 22 4)) (fieldOf w 18 4) else s

/-- What the decoding of a burst found (R345). -/
inductive BurstRes
  | clean
  | fixed (sym beat : Nat)
  | bad (beat : Nat)
  deriving DecidableEq, Repr

/-- The beats of a burst from `j` on: the result so far, and the corrected data words. -/
def decodeBeats : List (List Nat) → (j : Nat) → BurstRes → BurstRes × List Nat
  | [], _, r => (r, [])
  | vs :: t, j, r =>
    let word := (vs.take 8).zipIdx.foldl (fun a e => a + e.1 * 16 ^ e.2) 0
    match decodeBeat vs with
    | .clean => let (r', ws) := decodeBeats t (j + 1) r; (r', word :: ws)
    | .bad =>
      let (r', ws) := decodeBeats t (j + 1) (match r with | .bad k => .bad k | .fixed _ b => .bad b | .clean => .bad j)
      (r', word :: ws)
    | .fix i e =>
      let r1 := match r with
        | .clean => .fixed i j
        | .fixed k b => if k = i then .fixed k b else .bad b
        | .bad k => .bad k
      let (r', ws) := decodeBeats t (j + 1) r1
      (r', Nat.xor word (symData i e) :: ws)

/-- XORs symbol errors into the beats of a burst as it is read. -/
def applyErr (err : List (Fin 16 × Fin 10 × BitVec 4)) (beats : List (List Nat)) : List (List Nat) :=
  beats.zipIdx.map (fun e => e.1.zipIdx.map (fun v =>
    (err.filter (fun x => x.1.val == e.2 && x.2.1.val == v.2)).foldl (fun a x => Nat.xor a x.2.2.toNat) v.1))

/-- What a DRAM read returned: its bytes, whether one burst was uncorrectable, and the state after its counts and reports. -/
structure DramRes where
  bytes : List Byte
  bad : Bool
  st : State

/-- ELOG of channel `c` (R346, R351). -/
def State.dmcLog (s : State) (c a ue sym beat : Nat) : State :=
  let s := s.set F.DMC_ELOGLO_ADDR (a / 64) c
  s.wr (R.DMC_ELOGHI.off c 0) (w32 (ue * 2 ^ 31 + sym * 2 ^ 20 + beat * 2 ^ 16 + a / 2 ^ 32 % 256))

/-- The counts and reports of a decoded burst (R346). -/
def State.noteBurst (s : State) (c a : Nat) (r : BurstRes) : State :=
  match r with
  | .clean => s
  | .fixed sym beat =>
    let s := ((s.bump F.DMC_CECNT_COUNT 1 c).bump F.DMC_SYMCE_COUNT 1 c sym).dmcLog c a 0 sym beat
    let s := s.reportLimited C.dmc_ecc_corrected c 1000000 (mkArg none (some c) (a / 64))
    let thr := s.get F.DMC_SCRUB_DEGTHR
    if thr ≠ 0 ∧ s.get F.DMC_SYMCE_COUNT c sym = thr then s.report C.dmc_symbol_degraded (mkArg none (some c) sym) else s
  | .bad beat =>
    ((s.bump F.DMC_UECNT_COUNT 1 c).dmcLog c a 1 0 beat).report C.dmc_ecc_uncorr (mkArg none (some c) (a / 64))

/-- The sixteen beats of a line as stored. -/
def State.beatsAt (s : State) (a : Nat) : List (List Nat) := (List.range 16).map (fun j => s.beatAt a j)

/-- Decodes one read burst (R345, R346, R347): the beats of the line at `a` as they stood, with errors in the bits as read. -/
def State.decodeBurst (s : State) (a : Nat) (stored : List (List Nat)) (err : List (Fin 16 × Fin 10 × BitVec 4)) : DramRes :=
  let c := (s.chanAddr a).1
  let beats := applyErr err stored
  let raw := beats.map (fun vs => (vs.take 8).zipIdx.foldl (fun x e => x + e.1 * 16 ^ e.2) 0)
  if s.on F.DMC_ECCTEST_RAW c then
    let s := if s.on F.DMC_ESYN_VALID c then s else
      match beats.find? (fun vs => synd 1 vs != 0 || synd 2 vs != 0) with
      | none => s
      | some vs => ((s.set F.DMC_ESYN_VALID 1 c).set F.DMC_ESYN_S2 (synd 2 vs) c).set F.DMC_ESYN_S1 (synd 1 vs) c
    { bytes := raw.flatMap (leBytes 4), bad := false, st := s }
  else
    let (r, words) := decodeBeats beats 0 .clean
    let bad := match r with
      | .bad _ => true
      | _ => false
    { bytes := (if bad then raw else words).flatMap (leBytes 4), bad := bad, st := s.noteBurst c a r }

/-- Reads and decodes the burst at a line address. -/
def State.readBurst (s : State) (a : Nat) : DramRes := s.decodeBurst a (s.beatsAt a) []

/-- Reads the lines from `a` on, `n` of them. -/
def readLines : (n a : Nat) → State → DramRes
  | 0, _, s => { bytes := [], bad := false, st := s }
  | n + 1, a, s =>
    let r := s.readBurst a
    let t := readLines n (a + 64) r.st
    { bytes := r.bytes ++ t.bytes, bad := r.bad || t.bad, st := t.st }

/-- A read of `n` bytes at a populated address. -/
def State.readDram (s : State) (a n : Nat) : DramRes :=
  let first := a / 64 * 64
  let r := readLines ((a + n + 63) / 64 - a / 64) first s
  { r with bytes := (r.bytes.drop (a - first)).take n }

/-- A write of part of a line (R331, R346): read, correct, merge, encode and write. Over an uncorrectable line the merged line is
stored so that every later read is uncorrectable. -/
def State.writePart (s : State) (a : Nat) (bs : List Byte) : State :=
  let line := a / 64 * 64
  if bs.length = 64 then s.writeLine line bs
  else
    let r := s.readBurst line
    let off := a - line
    let merged := r.bytes.take off ++ bs ++ r.bytes.drop (off + bs.length)
    let s := r.st
    let d := { s.dmc with data := putBytes s.dmc.data line merged, chk := clearChk s.dmc.chk line }
    let d := if r.bad then
        { d with chk := (List.range 16).foldl (fun t j => Tab.put (fun _ => 0) t (line / 4 + j) 0x21) d.chk }
      else d
    { s with dmc := d }

/-- Writes of consecutive bytes, line by line; `k` lines at most. -/
def writeDramLines : (k a : Nat) → List Byte → State → State
  | 0, _, _, s => s
  | _, _, [], s => s
  | k + 1, a, bs, s =>
    let n := min bs.length (64 - a % 64)
    writeDramLines k (a + n) (bs.drop n) (s.writePart a (bs.take n))

/-- A write of bytes at a populated address. -/
def State.writeDram (s : State) (a : Nat) (bs : List Byte) : State := writeDramLines (bs.length / 64 + 2) a bs s

end Sys2Proof.Machine
end

