-- ==== Sys2Proof/Machine/Fetch.lean ====
section
/-! DEFINITION. Ink-bar fetch (R174 to R182): panel records and map entries, the groups a bar's fetcher begins, the fetch windows
and their level, and the decoding of row sets. -/

namespace Sys2Proof.Machine

def State.pipe (s : State) (b : Nat) : BarPipe := Tab.get (fun _ => BarPipe.reset) s.pipes b
def State.setPipe (s : State) (b : Nat) (x : BarPipe) : State := { s with pipes := Tab.put (fun _ => BarPipe.reset) s.pipes b x }

/-! ### Panel records (R145) -/

/-- A panel record as read: form, flags, stripes, width, height and the address of its block map. -/
structure PanelRec where
  form : Nat
  flags : Nat
  stripes : Nat
  width : Nat
  height : Nat
  map : Nat

def PanelRec.secure (r : PanelRec) : Bool := bitN r.flags 0 == 1

/-- The Tarn offset of panel record `k`. -/
def State.recAddr (s : State) (k : Nat) : Nat := s.get F.ING_PTBASE_ADDR * 64 + k * 32

/-- Panel record `k`, none when it is missing (R189): `k` above 4,095, an uncorrectable byte, or FLAGS.DEFINED 0. -/
def State.readRec (s : State) (k : Nat) (bar : Option Nat) (line : Option DWord) : Option PanelRec × State :=
  if 4096 ≤ k ∨ tarnSize < s.recAddr k + 32 then (none, s)
  else
    let r := s.readTarn (s.recAddr k) 32 bar line
    let x := { form := leAt r.bytes 0 1, flags := leAt r.bytes 1 1, stripes := leAt r.bytes 2 2, width := leAt r.bytes 4 4,
               height := leAt r.bytes 8 4, map := leAt r.bytes 16 8 % 2 ^ 40 }
    (if r.bad ∨ bitN x.flags 1 = 0 then none else some x, r.st)

/-! ### Groups -/

/-- The order of printing of two places: instance, then contone line. -/
def before (i1 y1 i2 y2 : Nat) : Bool := i1 < i2 || (i1 == i2 && y1 < y2)

/-- A group just begun on a stripe. -/
def FetchGroup.begin (inst panel recIx form width group stripe : Nat) : FetchGroup :=
  { inst := inst, panel := panel, recIx := recIx, form := form, width := width, group := group, stripe := stripe, found := false,
    addr := 0, lines := 0, hdr := none, cause := 0, asked := 0, got := 0, parts := [], win := [], bit := 0, line := 0, tables := [],
    crc := 0xFFFFFFFF }

/-- The groups of a bar with one replaced. -/
def putGroup (g : FetchGroup) (l : List FetchGroup) : List FetchGroup :=
  l.map (fun x => if x.inst = g.inst ∧ x.group = g.group ∧ x.stripe = g.stripe then g else x)

def State.setGroupOf (s : State) (b : Nat) (g : FetchGroup) : State :=
  s.setPipe b { s.pipe b with groups := putGroup g (s.pipe b).groups }

/-- The ARG of a codec report at fetch (R171): the bar, the stripe as unit, panel and group as detail. -/
def codecArg (bar : Option Nat) (panel stripe group : Nat) : Word :=
  mkArg bar (some stripe) (panel % 256 * 4096 + group % 4096)

/-- A decoder error of a block at fetch: the group is refused with a cause of R190. -/
def State.refuse (s : State) (b : Nat) (g : FetchGroup) (code cause : Nat) (report : Bool := true) : State :=
  let s := s.setGroupOf b { g with cause := cause }
  if report then s.report code (codecArg (some b) g.recIx g.stripe g.group) (some (s.flineOf b)) else s

/-- The header checks of R171 on a block found by its map entry. -/
def hdrBad (g : FetchGroup) (h : BlockHdr) (bytes : Nat) : Bool :=
  !h.hcrcOk || !h.rsvOk || decide (4194304 < h.body) || h.body % 8 != 0 || (formDepth h.form).isNone || h.lines == 0 ||
    decide (64 < h.lines) || h.width == 0 || decide (2048 < h.width) || h.form != g.form || h.panel != g.recIx || h.stripe != g.stripe ||
    h.first != 64 * g.group || decide (bytes < 32) || bytes != 32 + h.body

/-- Reads the map entry of a group that has not been found (R175), and the block's header once it is. -/
def State.readEntry (s : State) (b : Nat) (g : FetchGroup) : State :=
  match s.readRec g.recIx (some b) none with
  | (none, s) => s
  | (some r, s) =>
    let a := r.map + (g.group * r.stripes + g.stripe) * 16
    if !s.dramOk a 16 then s.dramRange a
    else
      let e := s.readDram a 16
      let s := e.st
      let lines := leAt e.bytes 6 1 % 128
      if e.bad then s.refuse b g 0 3 false
      else if lines = 0 then s
      else
        let addr := leAt e.bytes 0 4 + 2 ^ 32 * leAt e.bytes 4 1
        let bytes := leAt e.bytes 8 4
        let g := { g with found := true, addr := addr, lines := lines }
        if !s.dramOk addr 32 then (s.dramRange addr).refuse b g 0 3 false
        else
          let h := s.readDram addr 32
          let s := h.st
          let hd := parseHdr h.bytes
          let s := s.setGroupOf b { g with hdr := some hd, lines := min lines hd.lines }
          if h.bad then s.refuse b g 0 3 false
          else if hd.sync ≠ 0x5A3C then s.refuse b g C.codec_bad_sync 3
          else if hdrBad g hd bytes then s.refuse b g C.codec_header_crc 3
          else if !s.dramOk addr bytes then (s.dramRange addr).refuse b g 0 3 false
          else s

/-! ### The fetcher (R174, R175) -/

/-- F_b (R174): the line distance at which the fetcher of a bar starts a line. -/
def State.fetchLead (s : State) (b : Nat) : Nat := s.lookahead b + 64 * s.leadScale

/-- Every group of a bar whose entry has not been found reads it again. -/
def rereadEntries (b : Nat) : List FetchGroup → State → State
  | [], s => s
  | g :: t, s => rereadEntries b t (if g.found || g.cause ≠ 0 then s else s.readEntry b g)

/-- FETCH_LINE_START (R174): the fetcher of bar `b` starts line `n`. -/
def State.fetchLine (s : State) (b n : Nat) : State :=
  let s := s.setPipe b { s.pipe b with fetched := some n }
  if !s.on F.IBF_CTL_EN b then s
  else
    let s := match s.job.job.bind (fun j => j.place n) with
      | none => s
      | some pl =>
        match pl.cline with
        | none => s
        | some y =>
          let g := y / 64
          if (s.pipe b).groups.any (fun x => x.inst == pl.inst && x.group == g) || (s.pipe b).noRec.contains pl.inst then s
          else
            let ix := s.get F.IBF_PBASE_INDEX b + pl.panel
            match s.readRec ix (some b) (some (w64 n)) with
            | (none, s) => s.setPipe b { s.pipe b with noRec := pl.inst :: (s.pipe b).noRec }
            | (some r, s) =>
              let new := (List.range (stripesOf r.width)).map
                (fun k => FetchGroup.begin pl.inst pl.panel ix r.form (stripeWidth r.width k) g k)
              s.setPipe b { s.pipe b with groups := (s.pipe b).groups ++ new }
    rereadEntries b (s.pipe b).groups s

/-! ### Windows and their level (R181, R182) -/

/-- The bytes of one stripe's fetch window (R181), from the stripes in progress. -/
def State.winSize (s : State) (b : Nat) : Nat :=
  let n := ((s.pipe b).groups.map (·.stripe)).foldl max 0 + 1
  min 32768 (524288 / n / 512 * 512)

/-- The body bytes of a group. -/
def FetchGroup.body (g : FetchGroup) : Nat := (g.hdr.map (·.body)).getD 0

/-- Whether a group's block is being read. -/
def FetchGroup.reading (g : FetchGroup) : Bool := g.found && g.cause == 0 && decide (g.got < g.body)

/-- The buffered bytes of a stripe: those of every group of it in progress. -/
def stripeBytes (l : List FetchGroup) (k : Nat) : Nat :=
  (l.filter (fun g => g.stripe == k)).foldl (fun a g => a + g.win.length) 0

/-- The bytes a stripe has asked for and not decoded. -/
def stripeAsked (l : List FetchGroup) (k : Nat) : Nat :=
  (l.filter (fun g => g.stripe == k && g.cause == 0)).foldl (fun a g => a + g.win.length + (g.asked - g.got)) 0

/-- The level of a bar (R182), none when no stripe counts. -/
def State.levelOf (s : State) (b : Nat) : Option Nat :=
  let l := (s.pipe b).groups
  listMin? ((l.filter FetchGroup.reading).map (fun g => stripeBytes l g.stripe))

/-- IBF.STAT.LEVEL and panic, computed again (R182). -/
def State.updLevel (s : State) (b : Nat) : State :=
  let lv := s.levelOf b
  let units := (lv.map (fun v => min 0xFFFE (v / 64))).getD 0xFFFF
  let s := s.set F.IBF_STAT_LEVEL units b
  let weir := s.get F.IBF_WEIR_LEVEL b
  if s.on F.IBF_STAT_PANIC b then
    if weir + s.get F.IBF_WEIR_HYS b ≤ units ∨ lv.isNone then
      (s.set F.IBF_STAT_PANIC 0 b).setPipe b { s.pipe b with panicAt := none, panicRep := false }
    else s
  else if lv.any (fun v => decide (v / 64 < weir)) then
    ((s.set F.IBF_STAT_PANIC 1 b).bump F.IBF_PANICCNT_COUNT 1 b).setPipe b { s.pipe b with panicAt := some s.now, panicRep := false }
  else s

/-- PANIC_LONG (R182): a panic has lasted longer than LTOL; reported once per panic. -/
def doPanicLong (b : Fin 8) (s : State) : State :=
  let x := s.pipe b
  match x.panicAt with
  | none => s
  | some t =>
    if x.panicRep || !(s.on F.IBF_STAT_PANIC b) || !(decide (t + 1000 * s.get F.IBF_LTOL_US b < s.now)) then s
    else (s.setPipe b { x with panicRep := true }).report C.ibf_panic_long (mkArg (some b.val) none 0) (some (s.flineOf b))

def execPanicLong (b : Fin 8) (s : State) : Host.Outcome State Fault Refusal := .next (doPanicLong b s)

/-- Lines of a block that arrived ahead of their turn move into the window in order; `k` at most. -/
def drainParts : Nat → FetchGroup → FetchGroup
  | 0, g => g
  | k + 1, g =>
    let a := g.addr + 32 + g.got
    let line := a / 64 * 64
    if g.asked ≤ g.got then g
    else match g.parts.find? (fun p => p.1 == line) with
      | none => g
      | some p =>
        let n := min (64 - (a - line)) (g.asked - g.got)
        drainParts k { g with got := g.got + n, win := g.win ++ (p.2.drop (a - line)).take n,
                              parts := if (a - line) + n = 64 then g.parts.filter (fun q => q.1 != line) else g.parts }

/-- One line of a block arrives at the fetcher of bar `b` (R181, R346). -/
def State.fetchArrive (s : State) (b inst group stripe a : Nat) (bytes : List Byte) (bad : Bool) : State :=
  match (s.pipe b).groups.find? (fun g => g.inst == inst && g.group == group && g.stripe == stripe) with
  | none => s
  | some g =>
    if g.cause ≠ 0 then s
    else if bad then (s.refuse b g 0 3 false).updLevel b
    else (s.setGroupOf b (drainParts 16 { g with parts := (g.parts.filter (fun p => p.1 != a)) ++ [(a, bytes)] })).updLevel b

/-! ### The line buffer (R179) -/

/-- The bytes of a contone line in a bar's line buffer: each stripe and channel row at B bits, padded to 64 bits. -/
def bufLineBytes (form w : Nat) : Nat :=
  let bd := (formDepth form).getD 8
  ((List.range (stripesOf w)).flatMap (fun k => (formRows form (stripeWidth w k) 0).map (fun r => cdiv (r.2 * bd) 64 * 8))).foldl
    (· + ·) 0

/-- D_b for a panel (R179). -/
def bufDepth (form w : Nat) : Nat := if w = 0 then 8 else min 8 (1048576 / max 1 (bufLineBytes form w))

/-- The place of the line that separation reads (R179): instance and contone line; before a bar's first line, that of its first
line. -/
def State.sepPlace (s : State) (b : Nat) : Nat × Nat :=
  let n := (s.pipe b).sep.getD (s.fireBar b).first
  match s.job.job.bind (fun j => j.place n) with
  | none => (0, 0)
  | some pl => (pl.inst, match pl.cline with
    | some y => y
    | none => ((s.job.job.bind (fun j => j.panels[pl.panel]?)).map (·.h)).getD 0)

/-- How many contone lines a place lies beyond the line that separation reads (0: not beyond); an earlier instance counts as read. -/
def State.linesAhead (s : State) (b inst y : Nat) : Nat :=
  let (i0, y0) := s.sepPlace b
  if inst < i0 then 0
  else if inst = i0 then y - y0
  else
    let h := ((s.job.job.bind (fun j => j.place ((s.pipe b).sep.getD (s.fireBar b).first))).bind
      (fun pl => s.job.job.bind (fun j => j.panels[pl.panel]?))).map (·.h)
    (h.getD 0 - y0) + y

/-- Whether a contone line is complete on a stripe (R179); in 4:2:0 its partner line must be decoded too. -/
def completeOn (buf : List RowSet) (inst stripe form y : Nat) : Bool :=
  let has := fun v => buf.any (fun r => r.inst == inst && r.stripe == stripe && r.line == v)
  has y && (form != 3 || has (Nat.xor y 1))

/-! ### State records (R165, R176) -/

/-- The record of a stripe's history after group `g`. -/
def recordBytes (g : FetchGroup) (hs : Hists) : List Byte :=
  let chans := formChans g.form g.width
  let bd := (formDepth g.form).getD 8
  let head := leBytes 1 g.form ++ leBytes 1 chans.length ++ leBytes 2 0 ++ leBytes 2 g.stripe ++ leBytes 2 g.width ++
    leBytes 4 (64 * g.group + 64) ++ leBytes 2 g.recIx ++ List.replicate 50 0
  let pad := fun (l : List Byte) (n : Nat) => l ++ List.replicate (n - l.length) 0
  head ++ chans.flatMap (fun c => pad ((histOf hs c.1 c.2 bd).up.flatMap (leBytes 2)) (cdiv (2 * c.2) 64 * 64)) ++
    chans.flatMap (fun c => pad ((histOf hs c.1 c.2 bd).sel.map (BitVec.ofNat 8)) 64)

/-- The length of a record. -/
def recordLen (form w : Nat) : Nat :=
  64 + ((formChans form w).map (fun c => cdiv (2 * c.2) 64 * 64 + 64)).foldl (· + ·) 0

/-- The up[] rows of a record, channel by channel; the bytes left. -/
def parseUps : List (Nat × Nat) → List Byte → List (Nat × List Nat) × List Byte
  | [], bs => ([], bs)
  | (c, w) :: t, bs =>
    let up := (List.range w).map (fun i => leAt bs (2 * i) 2)
    let (r, e) := parseUps t (bs.drop (cdiv (2 * w) 64 * 64))
    ((c, up) :: r, e)

/-- The histories of a record, none when it does not match the block (R165). -/
def parseRecord (g : FetchGroup) (bs : List Byte) : Option Hists :=
  if leAt bs 0 1 ≠ g.form ∨ leAt bs 4 2 ≠ g.stripe ∨ leAt bs 6 2 ≠ g.width ∨ leAt bs 8 4 ≠ 64 * g.group ∨ leAt bs 12 2 ≠ g.recIx then none
  else
    let (ups, sels) := parseUps (formChans g.form g.width) (bs.drop 64)
    some (ups.zipIdx.map (fun e =>
      (e.1.1, { up := e.1.2, sel := (List.range (cdiv e.1.2.length 64)).map (fun j => leAt sels (64 * e.2 + j) 1 % 8) })))

/-- The DRAM address of a stripe's record after group `g` (R176). -/
def State.recordAddr (s : State) (b stripe group : Nat) : Nat :=
  s.get F.IBF_RECBASE_MIB b * 2 ^ 20 + (stripe * 4 + group % 4) * 0x9000

/-- Restores the record of group g − 1 (R176); none when it is missing or does not match. -/
def State.restoreHist (s : State) (b : Nat) (g : FetchGroup) : Option Hists × State :=
  let a := s.recordAddr b g.stripe (g.group - 1)
  let n := recordLen g.form g.width
  if !s.dramOk a n then (none, s.dramRange a)
  else
    let r := s.readDram a n
    (if r.bad then none else parseRecord g r.bytes, r.st)

/-- The history of a stripe where the bar's own decode left it. -/
def State.stripeHist (s : State) (b k : Nat) : Option StripeHist := Tab.get (fun _ => none) (s.pipe b).hists k

def State.setStripeHist (s : State) (b k : Nat) (x : Option StripeHist) : State :=
  s.setPipe b { s.pipe b with hists := Tab.put (fun _ => none) (s.pipe b).hists k x }

/-- The history with which a block starts (R164, R176): fresh for CONT 0; else what the bar's own decode of group g − 1 left, or the
record of group g − 1. None where it is refused. -/
def State.startHist (s : State) (b : Nat) (g : FetchGroup) (h : BlockHdr) : Option Hists × State :=
  if !h.cont then (some [], s)
  else if g.group = 0 then (none, s)
  else match s.stripeHist b g.stripe with
    | some x => if x.inst = g.inst ∧ x.group + 1 = g.group then (some x.hists, s) else s.restoreHist b g
    | none => s.restoreHist b g

/-! ### Decode lanes (R178, R179) -/

/-- A group found and not decoded to its end. -/
def FetchGroup.decoding (g : FetchGroup) : Bool := g.cause == 0 && g.hdr.any (fun h => decide (g.line < h.lines))

/-- The order in which lanes take row sets: contone line in printing order, then stripe. -/
def FetchGroup.ahead (g h : FetchGroup) : Bool :=
  let y := 64 * g.group + g.line
  let z := 64 * h.group + h.line
  before g.inst y h.inst z || (g.inst == h.inst && y == z && decide (g.stripe < h.stripe))

/-- Inserts a group in that order. -/
def insertGroup (g : FetchGroup) : List FetchGroup → List FetchGroup
  | [] => [g]
  | h :: t => if g.ahead h then g :: h :: t else h :: insertGroup g t

/-- The groups whose next line may be decoded next on their stripe, in order. -/
def decodeOrder (l : List FetchGroup) : List FetchGroup :=
  let open_ := l.filter (·.decoding)
  (open_.filter (fun g => !open_.any (fun h => h.stripe == g.stripe && before h.inst h.group g.inst g.group))).foldr insertGroup []

/-- The code of a decoder error (R171). -/
def DecErr.code : DecErr → Nat
  | .badTable => C.codec_bad_table
  | .illegalCode => C.codec_illegal_code
  | .runOverrun => C.codec_run_overrun
  | .short => C.codec_body_overrun

/-- The block of a stripe ends with its last line (R168, R171, R176): padding, check value, state record. -/
def State.blockEnd (s : State) (b : Nat) (g : FetchGroup) (h : BlockHdr) (rest : List Bool) (hs : Hists) : State :=
  if 64 ≤ rest.length + 8 * (g.body - g.got) ∨ rest.any id then
    (s.setStripeHist b g.stripe none).refuse b g C.codec_body_trailing 3
  else if h.tcrc ∧ Nat.xor g.crc 0xFFFFFFFF ≠ h.scrc then (s.setStripeHist b g.stripe none).refuse b g C.codec_crc 3
  else if h.cont then
    let a := s.recordAddr b g.stripe g.group
    let bs := recordBytes g hs
    if s.dramOk a bs.length then s.writeDram a bs else s.dramRange a
  else s

/-- The width of a panel as its record gave it: that of the stripes begun for a group. -/
def State.groupWidth (s : State) (b inst group : Nat) : Nat :=
  (((s.pipe b).groups.filter (fun g => g.inst == inst && g.group == group)).map (·.width)).foldl (· + ·) 0

/-- The outcome of taking one row set: decoded, refused, or not ready (none). -/
def State.takeRowSet (s : State) (b : Nat) (g : FetchGroup) : Option State :=
  match g.hdr with
  | none => none
  | some h =>
    let y := 64 * g.group + g.line
    if bufDepth g.form (s.groupWidth b g.inst g.group) ≤ s.linesAhead b g.inst y then none
    else
      let bd := (formDepth g.form).getD 8
      let bits := (unpackMsb g.win).drop g.bit
      let fail := fun (e : DecErr) (s : State) =>
        if e = .short ∧ g.got < g.body then none
        else some ((s.setStripeHist b g.stripe none).refuse b g e.code 3)
      let start := if g.line = 0 then s.startHist b g h else ((s.stripeHist b g.stripe).map (·.hists), s)
      match start with
      | (none, s) => some ((s.setStripeHist b g.stripe none).refuse b g C.codec_history 4)
      | (some hs, s) =>
        match (if g.line = 0 then (if h.dyn then readTables staticTables bits else .ok (staticTables, bits)) else .ok (g.tables, bits)) with
        | .error e => fail e s
        | .ok (tables, bs) =>
          match decodeLine tables bd (formRows g.form g.width y) hs bs with
          | .error e => fail e s
          | .ok (rows, hs, bs) =>
            let used := g.bit + (bits.length - bs.length)
            let g' := { g with win := g.win.drop (used / 8), bit := used % 8, line := g.line + 1, tables := tables,
                               crc := crcBytes (scrcBytes rows) g.crc }
            let (i0, y0) := s.sepPlace b
            let keep := !before g.inst (y / 2 * 2 + 1) i0 y0
            let s := s.setGroupOf b g'
            let s := s.setStripeHist b g.stripe (some { inst := g.inst, group := g.group, hists := hs })
            let s := if keep then
                let row : RowSet := { inst := g.inst, stripe := g.stripe, line := y, rows := rows }
                s.setPipe b { s.pipe b with buf := (s.pipe b).buf ++ [row] }
              else s
            some (if g'.line = h.lines then s.blockEnd b g' h bs hs else s)

/-- The first group of a list whose row set is ready. -/
def firstReady (s : State) (b : Nat) : List FetchGroup → Option State
  | [] => none
  | g :: t => match s.takeRowSet b g with
    | some s' => some s'
    | none => firstReady s b t

/-- Whether every stripe of a panel has a contone line complete. -/
def lineComplete (buf : List RowSet) (inst form w y : Nat) : Bool :=
  (List.range (stripesOf w)).all (fun k => completeOn buf inst k form y)

/-- IBF.STAT.AHEAD: the complete contone lines of the instance of separation's line that lie ahead of it, 0 to 8. -/
def State.updAhead (s : State) (b : Nat) : State :=
  let (i0, y0) := s.sepPlace b
  let x := s.pipe b
  let whole := fun y => match x.groups.find? (fun g => g.inst == i0 && g.group == y / 64) with
    | none => false
    | some g => lineComplete x.buf i0 g.form (s.groupWidth b i0 (y / 64)) y
  let n := ((List.range 9).filter (fun k => 0 < k && whole (y0 + k))).length
  s.set F.IBF_STAT_AHEAD (min 8 n) b

/-- DECODE_ROW_SET (R178): a free lane of bar `b` takes the ready row set with the lowest contone line and decodes it. -/
def doDecodeRowSet (b : Fin 8) (s : State) : State :=
  if !s.on F.IBF_CTL_EN b || s.get F.IBF_LANES_COUNT b == 0 then s
  else match firstReady s b (decodeOrder (s.pipe b).groups) with
    | none => s
    | some s => (s.updAhead b).updLevel b

def execDecodeRowSet (b : Fin 8) (s : State) : Host.Outcome State Fault Refusal := .next (doDecodeRowSet b s)

end Sys2Proof.Machine
end

