-- ==== Sys2Proof/Machine/DramCtl.lean ====
section
/-! DEFINITION. The DRAM controller at work (R328, R331 to R349): requests and command slots, bursts, refresh, frequency change, patrol
scrub, test, recalibration and training. -/

namespace Sys2Proof.Machine

/-! ### Places (R333) -/

/-- The requests of a channel in flight. -/
def State.flight (s : State) (c : Nat) : List DReq := (s.chan c).queue ++ (s.chan c).issued

/-- Whether a port is a real-time port of an enabled bar. -/
def State.rtEnabled (s : State) : DramPort → Bool
  | .rt b => s.on F.IBF_CTL_EN b
  | _ => false

/-- The enabled real-time ports. -/
def State.rtCount (s : State) : Nat := ((List.range 8).filter (fun b => s.on F.IBF_CTL_EN b)).length

/-- The requests of one port among some. -/
def portCount (p : DramPort) (l : List DReq) : Nat := (l.filter (fun r => r.port == p)).length

/-- The shared places in use: every request but the first four of each enabled real-time port. -/
def State.sharedUsed (s : State) (l : List DReq) : Nat :=
  l.length - ((List.range 8).filter (fun b => s.on F.IBF_CTL_EN b)).foldl (fun a b => a + min 4 (portCount (.rt (Fin.ofNat 8 b)) l)) 0

/-- Whether channel `c` has a place for one more request of a port. -/
def State.hasPlace (s : State) (c : Nat) (p : DramPort) : Bool :=
  let l := s.flight c
  (s.rtEnabled p && decide (portCount p l < 4)) || decide (s.sharedUsed l < 64 - 4 * s.rtCount)

/-- Whether the device has places for `k` more requests. -/
def State.devPlaces (s : State) (k : Nat) : Bool :=
  decide (((List.range 4).map (fun c => (s.flight c).length)).foldl (· + ·) 0 + k ≤ 256)

/-! ### Banks (R335, R341) -/

/-- The bank and row of a line. -/
def State.lineBank (s : State) (a : Nat) : Nat × Nat := s.bankRow (s.chanAddr a).1 (s.chanAddr a).2

/-- The prediction counter of a bank; 2 after reset. -/
def DramChan.predOf (x : DramChan) (k : Nat) : Nat := Tab.get (fun _ => 2) x.pred k
def DramChan.setPred (x : DramChan) (k v : Nat) : DramChan := { x with pred := Tab.put (fun _ => 2) x.pred k v }
def DramChan.rowOf (x : DramChan) (k : Nat) : Option Nat := Tab.get (fun _ => none) x.rows k
def DramChan.setRow (x : DramChan) (k : Nat) (v : Option Nat) : DramChan := { x with rows := Tab.put (fun _ => none) x.rows k v }
def DramChan.holdOf (x : DramChan) (k : Nat) : Option Nat := Tab.get (fun _ => none) x.hold k
def DramChan.setHold (x : DramChan) (k : Nat) (v : Option Nat) : DramChan := { x with hold := Tab.put (fun _ => none) x.hold k v }

/-- HOLD of a bank left open by prediction expires without a hit. -/
def DramChan.expire (x : DramChan) (now k : Nat) : DramChan :=
  match x.holdOf k with
  | none => x
  | some t => if t ≤ now then ((x.setHold k none).setRow k none).setPred k (x.predOf k - 1) else x

/-- A request arrives at a bank: one left open by prediction counts a hit or a miss. -/
def DramChan.arrive (x : DramChan) (now k row : Nat) : DramChan :=
  let x := x.expire now k
  match x.holdOf k with
  | none => x
  | some _ =>
    let x := x.setHold k none
    if x.rowOf k = some row then x.setPred k (min 3 (x.predOf k + 1)) else x.setPred k (x.predOf k - 1)

/-- All banks of one rank are precharged. -/
def DramChan.prechargeRank (x : DramChan) (r : Nat) : DramChan :=
  { x with rows := Tab.drop (fun k => k / 32 == r) x.rows, hold := Tab.drop (fun k => k / 32 == r) x.hold }

/-- All banks are precharged. -/
def DramChan.precharge (x : DramChan) : DramChan := { x with rows := [], hold := [] }

/-- The RFM threshold of a channel, where its population requires RFM (R341). -/
def State.rfmAt (s : State) (c : Nat) : Option Nat :=
  (Tab.get (fun _ => none) s.dmc.pop c).bind (fun (p : ChanPop) => p.rfm)

/-- A refresh or RFM lowers the activation counts of every bank by the threshold. -/
def State.relieve (s : State) (c n : Nat) : State :=
  match s.rfmAt c with
  | none => s
  | some t => s.setChan c { s.chan c with acts := Tab.mapE (fun _ => 0) (fun _ v => v - n * t) (s.chan c).acts }

/-- `n` REFab or RFMab of one rank (R337, R341): its banks are precharged, and their activation counts fall by the threshold each. -/
def State.refreshRank (s : State) (c r n : Nat) : State :=
  let s := s.setChan c ((s.chan c).prechargeRank r)
  match s.rfmAt c with
  | none => s
  | some t => s.setChan c { s.chan c with acts := Tab.mapE (fun _ => 0) (fun k v => if k / 32 = r then v - n * t else v) (s.chan c).acts }

/-- Every postponed REFab of a channel is issued. -/
def State.issueAll (s : State) (c : Nat) : State :=
  let ps := (s.chan c).postponed
  let s := s.setChan c { s.chan c with postponed := [] }
  ps.foldl (fun s e => s.refreshRank c e.1 e.2) s

/-- The banks whose count has reached the threshold. -/
def State.fullBanks (s : State) (c : Nat) : List Nat :=
  match s.rfmAt c with
  | none => []
  | some t => ((s.chan c).acts.filter (fun e => decide (t ≤ e.2))).map (·.1)

/-! ### Requests (R329, R331, R333) -/

/-- The 64-byte lines of `n` bytes at `a`. -/
def lineAddrs (a n : Nat) : List Nat :=
  (List.range ((a + n + 63) / 64 - a / 64)).map (fun i => (a / 64 + i) * 64)

/-- The channels that some lines touch. -/
def State.lineChans (s : State) (ls : List Nat) : List Nat :=
  (List.range 4).filter (fun c => ls.any (fun a => (s.chanAddr a).1 == c))

/-- A request enters the queue of channel `c`; a sleeping channel leaves self-refresh for it (R338). -/
def State.enqueueReq (s : State) (c : Nat) (p : DramPort) (write : Bool) (who : Option (Nat × Nat × Nat)) (ls : List Nat) : State :=
  let mine := ls.filter (fun a => (s.chanAddr a).1 == c)
  let x := mine.foldl (fun x a => x.arrive s.now (s.lineBank a).1 (s.lineBank a).2) (s.chan c)
  let r : DReq := { port := p, lines := mine.map (fun a => (a, if write then [] else s.beatsAt a)), write := write, at_ := s.now, who := who }
  let s := s.setChan c { x with queue := x.queue ++ [r], lastReq := s.now }
  if s.get F.DMC_CHSTAT_STATE c = 5 then s.set F.DMC_CHSTAT_STATE 4 c else s

/-- Accepts a request of `n` bytes at `a` on every channel it touches, or leaves it waiting (none). -/
def State.acceptReq (s : State) (p : DramPort) (write : Bool) (who : Option (Nat × Nat × Nat)) (a n : Nat) : Option State :=
  let ls := lineAddrs a n
  let cs := s.lineChans ls
  if cs.all (fun c => s.hasPlace c p) && s.devPlaces cs.length then
    some (cs.foldl (fun s c => s.enqueueReq c p write who ls) s)
  else none

/-- The next request of a fetcher for one stripe (R181): address and length, none while it has nothing to ask or no room. -/
def State.nextFetch (s : State) (b : Nat) (g : FetchGroup) : Option (Nat × Nat) :=
  let n := min 512 (g.body - g.asked)
  if g.cause ≠ 0 || g.hdr.isNone || n == 0 then none
  else if s.winSize b < stripeAsked (s.pipe b).groups g.stripe + n then none
  else if (s.pipe b).groups.any (fun h => h.stripe == g.stripe && before h.inst h.group g.inst g.group && h.cause == 0 &&
      decide (h.asked < h.body)) then none
  else some (g.addr + 32 + g.asked, n)

/-- DRAM_REQUEST (R329, R331, R332, R333). A write is in DRAM once it is accepted. -/
def doDramRequest (port : DramPort) (req : DramOp) (s : State) : State :=
  if !s.on F.DMC_CTL_EN || s.on F.DMC_STAT_FCBUSY then s
  else match req with
    | .fetch inst group stripe =>
      match port with
      | .rt b =>
        if !s.on F.IBF_CTL_EN b then s
        else match (s.pipe b).groups.find? (fun g => g.inst == inst && g.group == group && g.stripe == stripe) with
          | none => s
          | some g =>
            match s.nextFetch b g with
            | none => s
            | some (a, n) =>
              if s.touchesStopped a n then (s.dramRange a).refuse b g 0 3 false
              else match s.acceptReq port false (some (inst, group, stripe)) a n with
              | none => s
              | some s => s.setGroupOf b { g with asked := g.asked + n }
      | _ => s
    | .read addr len =>
      if len = 0 then s
      else if !s.dramOk addr.toNat len then s.dramRange addr.toNat
      else (s.acceptReq port false none addr.toNat len).getD s
    | .write addr bytes =>
      if bytes = [] then s
      else if !s.dramOk addr.toNat bytes.length then s.dramRange addr.toNat
      else match s.acceptReq port true none addr.toNat bytes.length with
        | none => s
        | some s => s.writeDram addr.toNat bytes

def execDramRequest (port : DramPort) (req : DramOp) (s : State) : Host.Outcome State Fault Refusal := .next (doDramRequest port req s)

/-! ### Command slots (R334, R335, R336, R341) -/

/-- Whether any real-time port is in panic. -/
def State.anyPanic (s : State) : Bool := (List.range 8).any (fun b => s.on F.IBF_STAT_PANIC b)

/-- The bank and row of a request: those of its first line. -/
def State.reqBank (s : State) (r : DReq) : Nat × Nat := s.lineBank ((r.lines.headD (0, [])).1)

/-- Whether a request finds its row open. -/
def State.isHit (s : State) (c : Nat) (r : DReq) : Bool := (s.chan c).rowOf (s.reqBank r).1 == some (s.reqBank r).2

/-- Whether request number `i` of a queue is a hit that would pass an older request to another row of its bank. -/
def State.passes (s : State) (q : List DReq) (i : Nat) (r : DReq) : Bool :=
  (q.take i).any (fun o => (s.reqBank o).1 == (s.reqBank r).1 && (s.reqBank o).2 != (s.reqBank r).2)

/-- The rules 2 to 6 of R334 as tests of a request with its place in the queue. -/
def State.slotRule (s : State) (c k : Nat) (q : List DReq) (e : DReq × Nat) : Bool :=
  let r := e.1
  match k with
  | 0 => (match r.port with
    | .rt b => s.on F.IBF_STAT_PANIC b
    | _ => false)
  | 1 => decide (r.at_ + 1000 * max 1 (s.get F.DMC_PRIO_AGEMAX) ≤ s.now)
  | 2 => (match r.port with
    | .rt _ => true
    | _ => false)
  | 3 => s.isHit c r && (!s.passes q e.2 r || decide ((s.chan c).hits < max 1 (s.get F.DMC_PRIO_HITMAX)))
  | _ => true

/-- The request a slot takes by the rules from `k` on: the oldest of the first rule that yields one, in the preferred direction. -/
def State.slotPick (s : State) (c : Nat) (q : List (DReq × Nat)) (all : List DReq) (writes : Bool) : (fuel k : Nat) → Option (DReq × Nat)
  | 0, _ => none
  | n + 1, k =>
    let l := q.filter (s.slotRule c k all)
    match l.find? (fun e => e.1.write == writes) with
    | some e => some e
    | none => match l.head? with
      | some e => some e
      | none => s.slotPick c q all writes n (k + 1)

/-- Whether writes go first (R334). -/
def State.drainNow (s : State) (c : Nat) : Bool :=
  let w := ((s.chan c).queue.filter (·.write)).length
  let hi := s.get F.DMC_PRIO_WHI
  let lo := min hi (s.get F.DMC_PRIO_WLO)
  if (s.chan c).drain then decide (lo < w) else decide (hi ≤ w) && decide (0 < w)

/-- Issues request number `i` of channel `c` (R335). -/
def State.issueReq (s : State) (c i : Nat) (r : DReq) : State :=
  let x := s.chan c
  let (k, row) := s.reqBank r
  let hit := s.isHit c r
  let pass := hit && s.passes x.queue i r
  let q := x.queue.eraseIdx i
  let x := { x with queue := q, issued := if r.write then x.issued else x.issued ++ [r], hits := if pass then x.hits + 1 else 0,
                    acts := if hit then x.acts else Tab.put (fun _ => 0) x.acts k (Tab.get (fun _ => 0) x.acts k + 1) }
  let x := x.setRow k (some row)
  let more := q.any (fun o => s.reqBank o == (k, row))
  let x := if more then x
    else if 2 ≤ x.predOf k then x.setHold k (some (s.now + s.get F.DMC_PAGE_HOLD)) else x.setRow k none
  s.setChan c x

/-- Issues one postponed REFab of the lowest rank that has one. -/
def State.issuePostponed (s : State) (c : Nat) : State :=
  match (s.chan c).postponed with
  | [] => s
  | (r, n) :: _ =>
    (s.setChan c { s.chan c with postponed := Tab.put (fun _ => 0) (s.chan c).postponed r (n - 1) }).refreshRank c r 1

/-- Whether a channel is enabled, active and clocked, and no Class L window is running. -/
def State.slotOpen (s : State) (c : Nat) : Bool :=
  s.on F.DMC_CTL_EN && s.chanInUse c && s.get F.DMC_CHSTAT_STATE c == 4 && !decide (s.now < s.dmc.winEnd)

/-- DRAM_COMMAND_SLOT (R334). -/
def doDramCommandSlot (c : Fin 4) (s : State) : State :=
  if !s.slotOpen c then s
  else
    let s := (s.chan c).hold.foldl (fun s e => s.setChan c ((s.chan c).expire s.now e.1)) s
    let full := s.fullBanks c
    let classL := s.on F.DMC_STAT_CLASSL
    if !classL && !full.isEmpty then s.refreshRank c (full.headD 0 / 32) 1
    else
      let q := (s.chan c).queue.zipIdx
      let ok := q.filter (fun e => s.isHit c e.1 || !full.contains (s.reqBank e.1).1)
      let s := if ok.length < q.length then s.reportLimited C.dmc_rfm_throttle c.val 1000000000 (mkArg none (some c.val) 0) else s
      let s := s.setChan c { s.chan c with drain := s.drainNow c }
      match s.slotPick c ok (s.chan c).queue (s.chan c).drain 5 0 with
      | some (r, i) => s.issueReq c i r
      | none => if (s.chan c).queue = [] ∧ !s.anyPanic then s.issuePostponed c else s

def execDramCommandSlot (c : Fin 4) (s : State) : Host.Outcome State Fault Refusal := .next (doDramCommandSlot c s)

/-- BURST_DECODE (R345, R346): the next burst of the oldest read in progress on channel `c`, with symbol errors as read. -/
def doBurstDecode (c : Fin 4) (err : List (Fin 16 × Fin 10 × BitVec 4)) (s : State) : State :=
  match (s.chan c).issued with
  | [] => s
  | r :: rest =>
    match r.lines with
    | [] => s.setChan c { s.chan c with issued := rest }
    | (a, beats) :: more =>
      let s := s.setChan c { s.chan c with issued := if more = [] then rest else { r with lines := more } :: rest }
      let d := s.decodeBurst a beats err
      let s := d.st
      match r.port, r.who with
      | .rt b, some (inst, group, stripe) => s.fetchArrive b inst group stripe a d.bytes d.bad
      | _, _ => { s with dmc := { s.dmc with out := d.bytes, outBad := d.bad } }

def execBurstDecode (c : Fin 4) (err : List (Fin 16 × Fin 10 × BitVec 4)) (s : State) : Host.Outcome State Fault Refusal :=
  .next (doBurstDecode c err s)

/-! ### Refresh (R336 to R341) -/

/-- REFRESH_INTERVAL (R337): the tREFI of a rank ends. While requests wait or a port is in panic, REFab is postponed, four at
most. -/
def doRefreshInterval (c : Fin 4) (rank : Fin 2) (s : State) : State :=
  if !s.on F.DMC_CTL_EN || s.on F.DMC_STAT_CLASSL || !s.chanInUse c || s.get F.DMC_CHSTAT_STATE c != 4 ||
      s.get F.DMC_CHSTAT_RANKS c ≤ rank then s
  else
    let x := s.chan c
    let n := Tab.get (fun _ => 0) x.postponed rank.val
    if (x.queue ≠ [] ∨ s.anyPanic) ∧ n < 4 then
      s.setChan c { x with postponed := Tab.put (fun _ => 0) x.postponed rank.val (n + 1) }
    else s.refreshRank c rank 1

def execRefreshInterval (c : Fin 4) (rank : Fin 2) (s : State) : Host.Outcome State Fault Refusal := .next (doRefreshInterval c rank s)

/-- The start of the next Class L window. -/
def State.rfNext (s : State) : Nat := s.get64 F.DMC_RFNEXTLO_NS F.DMC_RFNEXTHI_NS
def State.setRfNext (s : State) (t : Nat) : State := s.set64 F.DMC_RFNEXTLO_NS F.DMC_RFNEXTHI_NS t

/-- A Class L window starts now: every bank of every enabled channel is precharged and refreshed four times. -/
def State.startWindow (s : State) : State :=
  let s := s.chans.foldl (fun s c => (s.setChan c (s.chan c).precharge).relieve c 4) s
  { s with dmc := { s.dmc with winEnd := s.now + s.get F.DMC_RFWIN_LEN } }

/-- REFRESH_WINDOW (R339): RFNEXT has come. -/
def doRefreshWindow (s : State) : State :=
  if !s.on F.DMC_CTL_EN || !s.on F.DMC_STAT_CLASSL || s.on F.DMC_STAT_FCBUSY || decide (s.tbNs 0 < s.rfNext) then s
  else (s.setRfNext (s.rfNext + s.get F.DMC_RFWIN_INTERVAL)).startWindow

def execRefreshWindow (s : State) : Host.Outcome State Fault Refusal := .next (doRefreshWindow s)

/-- Whether a rank of a channel is hot (R340). -/
def State.chanHot (s : State) (c : Nat) : Bool := !(s.chan c).heat.isEmpty

/-- One MR4 read of a rank (R340). -/
def State.noteMr4 (s : State) (m : Mr4) : State :=
  let x := s.chan m.chan
  let h := Tab.get (fun _ => 0) x.heat m.rank.val
  let h' := if m.doubled || m.beyond then max 1 (s.get F.DMC_TEMP_COOLN) else h - 1
  s.setChan m.chan { x with heat := Tab.put (fun _ => 0) x.heat m.rank.val h', worst := max x.worst m.code.toNat }

/-- MR4_POLL (R340): the codes of every rank of the channels in use. -/
def doMr4Poll (codes : List Mr4) (s : State) : State :=
  if !s.on F.DMC_CTL_EN then s
  else
    let codes := codes.filter (fun m => s.chanInUse m.chan && decide (m.rank.val < s.get F.DMC_CHSTAT_RANKS m.chan))
    let was := s.on F.DMC_STAT_HOT
    let cold := s.chans.filter (fun c => !s.chanHot c)
    let s := codes.foldl (fun s m => s.noteMr4 m) s
    let s := s.set F.DMC_TEMP_MR4MAX ((codes.map (·.code.toNat)).foldl max 0)
    let beyond := codes.any (·.beyond)
    let s := { s with dmc := { s.dmc with beyond := beyond } }
    let s := match codes.find? (·.beyond) with
      | some m => s.report C.dmc_dram_overtemp (mkArg none (some m.chan.val) m.rank.val)
      | none => s
    let hot := s.chans.any s.chanHot
    let who := (s.chans.find? s.chanHot).getD 0
    let s := s.set F.DMC_STAT_HOT (if hot then 1 else 0)
    if s.on F.DMC_STAT_CLASSL then
      if hot && !was then
        let old := s.get F.DMC_RFWIN_INTERVAL
        let s := s.set F.DMC_RFWIN_INTERVAL 7800
        let s := if s.now < s.dmc.winEnd then s.setRfNext (s.rfNext - old + 7800)
          else (s.setRfNext (s.tbNs 0 + 7800)).startWindow
        s.report C.dmc_refresh_hot (mkArg none (some who) 0)
      else if !hot && was then s.set F.DMC_RFWIN_INTERVAL 15600
      else s
    else
      (cold.filter s.chanHot).foldl (fun s c =>
        if (s.chan c).postponed.isEmpty then s
        else (s.issueAll c).report C.dmc_refresh_hot (mkArg none (some c) 0)) s

def execMr4Poll (codes : List Mr4) (s : State) : Host.Outcome State Fault Refusal := .next (doMr4Poll codes s)

/-- The least declared tolerance of the enabled bars in ns, if one is enabled (R183). -/
def State.leastLtol (s : State) : Option Nat :=
  listMin? (((List.range 8).filter (fun b => s.on F.IBF_CTL_EN b)).map (fun b => 1000 * s.get F.IBF_LTOL_US b))

/-- SELF_REFRESH_ENTRY (R336, R338). -/
def doSelfRefreshEntry (c : Fin 4) (s : State) : State :=
  if !s.on F.DMC_CTL_EN || s.on F.DMC_STAT_CLASSL || s.on F.DMC_STAT_FCBUSY || !s.chanInUse c || s.get F.DMC_CHSTAT_STATE c != 4 ||
      !(s.flight c).isEmpty || !s.on F.DMC_SRCFG_SREN || s.anyPanic ||
      !decide ((s.chan c).lastReq + 1000 * max 1 (s.get F.DMC_SRCFG_SRIDLE) ≤ s.now) ||
      s.leastLtol.any (fun t => decide (t < s.get F.DMC_SRCFG_SRXLAT)) then s
  else (s.setChan c { (s.chan c).precharge with postponed := [] }).set F.DMC_CHSTAT_STATE 5 c

def execSelfRefreshEntry (c : Fin 4) (s : State) : Host.Outcome State Fault Refusal := .next (doSelfRefreshEntry c s)

/-! ### Class, enable and windows (R328, R339) -/

/-- tRFC1 in ns (R339): 295 with 16 Gb devices, 195 with 8 Gb devices. -/
def State.trfc (s : State) : Nat := if s.chans.any (fun c => s.get F.DMC_CHSTAT_DENGB c == 16) then 295 else 195

/-- STAT.ACTIVE and CAPGIB from the channels in use. -/
def State.updDmcStat (s : State) : State :=
  (s.set F.DMC_STAT_ACTIVE (s.chans.foldl (fun a c => a + 2 ^ c) 0)).set F.DMC_STAT_CAPGIB (s.dramBytes / 2 ^ 30)

/-- The class (R328). -/
def State.classNow (s : State) : Bool :=
  decide (3 ≤ s.chans.length) || decide (2 ^ 34 < s.dramBytes) || s.on F.DMC_CTL_LREQ

/-- dmc.ltol_short (R339). -/
def State.checkLtol (s : State) : State :=
  if s.on F.DMC_STAT_CLASSL && s.leastLtol.any (fun t => decide (t < s.get F.DMC_RFWIN_LEN)) then
    s.report C.dmc_ltol_short (mkArg none none 0) else s

/-- The controller is enabled: the class is decided, and Class L windows start 1 µs later. -/
def State.dmcEnable (s : State) : State :=
  let s := s.updDmcStat
  let l := s.classNow
  let s := s.set F.DMC_STAT_CLASSL (if l then 1 else 0)
  let s := { s with dmc := { s.dmc with enAt := s.now, winEnd := 0 } }
  if l then
    let s := s.set F.DMC_RFWIN_LEN (15 + 4 * s.trfc + 60)
    let s := s.set F.DMC_RFWIN_INTERVAL (if s.on F.DMC_STAT_HOT then 7800 else 15600)
    (s.setRfNext (s.tbNs 0 + 1000)).checkLtol
  else s.wr (R.DMC_RFWIN.off 0 0) 0

/-- The controller at a frame application (R328, R339): the class is decided again. -/
def State.dmcFrame (s : State) : State :=
  if !s.on F.DMC_CTL_EN then s else if s.classNow == s.on F.DMC_STAT_CLASSL then s.checkLtol else s.dmcEnable

/-- A software write of DMC.CTL: CHEN, HASH and LREQ are ignored while EN is 1. -/
def State.writeDmcCtl (s : State) (v : Word) : State :=
  let was := s.on F.DMC_CTL_EN
  let off := R.DMC_CTL.off 0 0
  if was then s.set F.DMC_CTL_EN (fieldOf v 31 1)
  else
    let s := s.swWrite off v
    if s.on F.DMC_CTL_EN then s.dmcEnable else s.updDmcStat

/-! ### Timing sets and frequency change (R342, R343) -/

/-- TSET_WRITE (R342): a write of SPEED clears VALID and starts the derivation. -/
def doTsetWrite (k : Fin 2) (v : Word) (s : State) : State :=
  let s := (s.swWrite (R.DMC_TSET.off k 0) v).set F.DMC_TSET_VALID 0 k
  { s with dmc := { s.dmc with derive := Tab.put (fun _ => none) s.dmc.derive k.val (some (s.now + 10000)),
                               trained := s.dmc.trained.filter (· != k.val) } }

def execTsetWrite (k : Fin 2) (v : Word) (s : State) : Host.Outcome State Fault Refusal := .next (s.busWrite (R.DMC_TSET.off k 0) (fun s => doTsetWrite k v s))

/-- TIMING_DERIVED (R342): the timings of set `k` stand, with the CAS latency of the population. -/
def doTimingDerived (k : Fin 2) (cl : BitVec 8) (s : State) : State :=
  match Tab.get (fun _ => none) s.dmc.derive k.val with
  | none => s
  | some _ =>
    let s := { s with dmc := { s.dmc with derive := Tab.put (fun _ => none) s.dmc.derive k.val none } }
    ((s.set F.DMC_TSET_VALID 1 k).set F.DMC_TSET_CL cl.toNat k).set F.DMC_TSET_TRFC s.trfc k

def execTimingDerived (k : Fin 2) (cl : BitVec 8) (s : State) : Host.Outcome State Fault Refusal := .next (doTimingDerived k cl s)

/-- FREQUENCY_CHANGE (R343): a write of DMC.FCHG. -/
def doFrequencyChange (v : Word) (s : State) : State :=
  let k := fieldOf v 30 1
  if fieldOf v 31 1 = 0 then s.swWrite (R.DMC_FCHG.off 0 0) v
  else if s.printing || s.on F.DMC_STAT_FCBUSY || k == s.get F.DMC_STAT_ACTSET || !s.on F.DMC_TSET_VALID k then
    s.set F.DMC_FCHG_REFUSED 1
  else
    let s := (s.swWrite (R.DMC_FCHG.off 0 0) v).set F.DMC_STAT_FCBUSY 1
    let s := if s.on F.DMC_STAT_CLASSL then s.startWindow else s.chans.foldl (fun s c => s.issueAll c) s
    { s with dmc := { s.dmc with change := some (k, s.now) } }

def execFrequencyChange (v : Word) (s : State) : Host.Outcome State Fault Refusal := .next (s.busWrite (R.DMC_FCHG.off 0 0) (fun s => doFrequencyChange v s))

/-- Requests resume: every channel leaves self-refresh, and Class L windows restart 1 µs later. -/
def State.resumeDram (s : State) : State :=
  let s := s.set F.DMC_STAT_FCBUSY 0
  let s := s.chans.foldl (fun s c => (s.setChan c { (s.chan c).precharge with lastReq := s.now }).set F.DMC_CHSTAT_STATE 4 c) s
  let s := { s with dmc := { s.dmc with change := none, winEnd := 0 } }
  if s.on F.DMC_STAT_CLASSL then s.setRfNext (s.tbNs 0 + 1000) else s

/-- FREQUENCY_CHANGE_DONE (R343): the requests in flight have completed and the change ends, on the new set or back on the former
one. -/
def doFrequencyChangeDone (ok : Bool) (s : State) : State :=
  match s.dmc.change with
  | none => s
  | some (k, t0) =>
    if s.chans.any (fun c => !(s.flight c).isEmpty) then s
    else if ok then
      let s := (s.set F.DMC_STAT_ACTSET k).resumeDram
      let s := { s with dmc := { s.dmc with trained := k :: s.dmc.trained.filter (· != k) } }
      (s.set F.DMC_FCHG_DONE 1).set F.DMC_FCHG_LAST (min 65535 ((s.now - t0) / 1000))
    else s.resumeDram.report C.dmc_recal_fail (mkArg none none k)

def execFrequencyChangeDone (ok : Bool) (s : State) : Host.Outcome State Fault Refusal := .next (doFrequencyChangeDone ok s)

/-! ### Patrol scrub and test (R347) -/

/-- SYMCE of every channel and position restarts. -/
def State.clearSymce (s : State) : State :=
  (List.range 40).foldl (fun s k => s.set F.DMC_SYMCE_COUNT 0 (k / 10) (k % 10)) s

/-- The patrol scrub stands at 64-byte line `n` (R347). -/
def State.setScrubAt (s : State) (n : Nat) : State := { s with dmc := { s.dmc with scrubAt := n } }

/-- PATROL_SCRUB (R347): the next line is read; a correctable one is written back corrected. -/
def doPatrolScrub (s : State) : State :=
  if !s.on F.DMC_CTL_EN || !s.on F.DMC_SCRUB_EN || s.on F.DMC_STAT_FCBUSY || s.dramBytes == 0 then s
  else
    let at_ := if s.dramBytes / 64 ≤ s.dmc.scrubAt then 0 else s.dmc.scrubAt
    let s := if at_ = 0 then s.clearSymce else s
    let a := at_ * 64
    let next := if at_ + 1 = s.dramBytes / 64 then 0 else at_ + 1
    let s := s.setScrubAt next
    let r := s.readBurst a
    let s := r.st
    if r.bad || s.on F.DMC_ECCTEST_RAW (s.chanAddr a).1 then s
    else { s with dmc := { s.dmc with data := putBytes s.dmc.data a r.bytes, chk := clearChk s.dmc.chk a } }

def execPatrolScrub (s : State) : Host.Outcome State Fault Refusal := .next (doPatrolScrub s)

/-- ECC_INJECT (R347): a write of DMC.INJ(c). -/
def doEccInject (c : Fin 4) (v : Word) (s : State) : State :=
  let s := s.swWrite (R.DMC_INJ.off c 0) v
  if fieldOf v 31 1 = 1 then s.setChan c { s.chan c with inj := some (s.rd (R.DMC_INJ.off c 0)) } else s

def execEccInject (c : Fin 4) (v : Word) (s : State) : Host.Outcome State Fault Refusal := .next (s.busWrite (R.DMC_INJ.off c 0) (fun s => doEccInject c v s))

/-- A write of DMC.ECCTEST(c): RAW rising forgets the captured syndrome. -/
def State.writeEcctest (s : State) (c : Nat) (v : Word) : State :=
  let was := s.on F.DMC_ECCTEST_RAW c
  let s := s.swWrite (R.DMC_ECCTEST.off c 0) v
  if !was && s.on F.DMC_ECCTEST_RAW c then s.wr (R.DMC_ESYN.off c 0) 0 else s

/-! ### Recalibration and training (R348, R349) -/

/-- One oscillator reading of channel `c` that has drifted by `drift` ps (R349). -/
def State.oscRun (s : State) (c drift : Nat) : State :=
  let thr := s.get F.DMC_RCAL_DRIFT
  let s := { s with dmc := { s.dmc with runs := s.dmc.runs + 1 } }.calDone (32 + c)
  if drift ≤ thr then s
  else
    let s := s.setChan c { s.chan c with shift := (s.chan c).shift + drift }
    if 4 * thr < drift then s.report C.dmc_recal_fail (mkArg none (some c) drift) else s

/-- DQS_OSCILLATOR_RUN (R349): in Class L a step runs inside a window only. -/
def doDqsOscillatorRun (c : Fin 4) (drift : Nat) (s : State) : State :=
  if !s.on F.DMC_CTL_EN || s.on F.DMC_STAT_FCBUSY || !s.chanInUse c ||
      (s.on F.DMC_STAT_CLASSL && !decide (s.now < s.dmc.winEnd)) then s
  else s.oscRun c drift

def execDqsOscillatorRun (c : Fin 4) (drift : Nat) (s : State) : Host.Outcome State Fault Refusal := .next (doDqsOscillatorRun c drift s)

/-- DRAM_TRAINING (R348): a channel in training at Boot passes or fails. -/
def doDramTraining (c : Fin 4) (ok : Bool) (s : State) : State :=
  if s.get F.DMC_CHSTAT_STATE c ≠ 2 then s
  else if ok then
    let s := s.set F.DMC_CHSTAT_STATE 4 c
    (s.set F.DMC_STAT_TRAINED (Nat.lor (s.get F.DMC_STAT_TRAINED) (2 ^ c.val))).updDmcStat
  else ((s.set F.DMC_CHSTAT_STATE 3 c).report C.dmc_train_fail (mkArg none (some c.val) 0)).updDmcStat

def execDramTraining (c : Fin 4) (ok : Bool) (s : State) : Host.Outcome State Fault Refusal := .next (doDramTraining c ok s)

end Sys2Proof.Machine
end

