-- ==== Sys2Proof/Machine/FaultHub.lean ====
section
/-! DEFINITION. The fault hub's record (R423, R425, R428, R430), the rail walk (R422), broken pairs (R421), injection (R432)
and the clears (R428, R429, R433). The reactions of the classes are in Machine/React.lean. -/

namespace Sys2Proof.Machine

/-- The SEQ after `n`: it wraps from 0xFFFF_FFFF to 1 (R425). -/
def nextSeq (n : Nat) : Nat := if n = 0xFFFFFFFF then 1 else n + 1

/-- How many entries ago SEQ `q` was given, when the next one is `next`. -/
def seqAge (next q : Nat) : Nat := if q < next then next - q else next + 0xFFFFFFFF - q

/-- Word `w` of the history entry in slot `s` (R425, R433). -/
def State.hist (s : State) (slot w : Nat) : Nat := (s.rd (R.FLT_HIST.off slot w)).toNat
def State.setHist (s : State) (slot w v : Nat) : State := s.wr (R.FLT_HIST.off slot w) (w32 v)

/-- The class of the entry in a slot. -/
def State.histClass (s : State) (slot : Nat) : Nat := s.hist slot 1 / 2 ^ 16 % 8

/-- The slots below `n` that hold an entry (SEQ is never 0). -/
def heldSlots (s : State) : Nat → List Nat
  | 0 => []
  | n + 1 => heldSlots s n ++ (if s.hist n 0 ≠ 0 then [n] else [])

/-- The slot of a list whose entry is the oldest. -/
def oldestOf (s : State) (next : Nat) : List Nat → Option Nat
  | [] => none
  | a :: t => match oldestOf s next t with
    | none => some a
    | some b => if seqAge next (s.hist b 0) ≤ seqAge next (s.hist a 0) then some a else some b

/-- The slot whose entry is the newest. -/
def newestOf (s : State) (next : Nat) : List Nat → Option Nat
  | [] => none
  | a :: t => match newestOf s next t with
    | none => some a
    | some b => if seqAge next (s.hist a 0) ≤ seqAge next (s.hist b 0) then some a else some b

/-- The slot a new entry takes (R430), and whether it overwrites an entry of class Job or above. -/
def State.histSlot (s : State) : Option Nat × Bool :=
  let next := s.get F.FLT_HSEQ_NEXT
  let held := heldSlots s 32
  if held.length < 32 then (some (next % 32), false)
  else match oldestOf s next (held.filter (fun k => s.histClass k < 3)) with
    | some k => (some k, false)
    | none => (oldestOf s next held, true)

/-- The class a report takes (R423): the setting of CCFG at the acknowledgement. -/
def State.classOf (s : State) (code : Nat) : Nat := s.get F.FLT_CCFG_CLASS (code / 256) (code % 256)

/-- Whether the entry of a report is suppressed (R424, R433): QUIET, ignored above Corrected. -/
def State.quietFor (s : State) (code : Nat) : Bool :=
  s.on F.FLT_CCFG_QUIET (code / 256) (code % 256) && s.classOf code ≤ 1

/-- The slot of the newest entry when it takes a further report with the same CODE and ARG (R425). -/
def State.mergeSlot (s : State) (code : Nat) (arg : Word) : Option Nat :=
  match newestOf s (s.get F.FLT_HSEQ_NEXT) (heldSlots s 32) with
  | none => none
  | some k =>
    let t := s.hist k 2 + 2 ^ 32 * s.hist k 3
    if s.hist k 1 % 65536 = code ∧ s.hist k 6 = arg.toNat ∧ s.tbNs 0 - t < 1000000 then some k else none

/-- Merges `n` further reports into the entry of a slot (R425). -/
def State.mergeInto (s : State) (slot n : Nat) : State :=
  let t := s.hist slot 2 + 2 ^ 32 * s.hist slot 3
  let rep := satAdd 65535 (s.hist slot 7 % 65536) n
  let dt := min 65535 ((s.tbNs 0 - t) / 1000000)
  s.setHist slot 7 (rep + dt * 65536)

/-- Writes a new entry into a slot (R425) and announces it: event 0x160, FLTIV, HSEQ and the host event of R132. -/
def State.newEntry (s : State) (slot code cls : Nat) (r : WaitRep) : State :=
  let seq := s.get F.FLT_HSEQ_NEXT
  let line := (r.line.getD (s.flineOf 0)).toNat
  let flags := cls + (if r.injected then 16 else 0) + (if r.rail then 32 else 0)
  let t := s.tbNs 0
  let fresh := s.hist slot 0 = 0
  let s := s.setHist slot 0 seq
  let s := s.setHist slot 1 (code + flags * 2 ^ 16 + s.dev * 2 ^ 24)
  let s := ((s.setHist slot 2 (t % 2 ^ 32)).setHist slot 3 (t / 2 ^ 32)).setHist slot 4 (line % 2 ^ 32)
  let s := ((s.setHist slot 5 (line / 2 ^ 32)).setHist slot 6 r.arg.toNat).setHist slot 7 (min 65535 r.pend)
  let s := if fresh then s.set F.FLT_HSTAT_FILL (s.get F.FLT_HSTAT_FILL + 1) else s
  let s := s.set F.FLT_HSEQ_NEXT (nextSeq seq)
  let s := s.postEvent 0x160
  (s.raiseVec (s.get F.RING_MISCIV_FLTIV)).hostEvent 0x02 (w32 seq)

/-- The first-fault record (R428): taken by the first report of at least class FFMIN that has an entry. -/
def State.firstFault (s : State) (slot code cls : Nat) : State :=
  if s.on F.FLT_FFCODE_VALID || cls < min 5 (s.get F.FLT_CTL_FFMIN) then s
  else
    let t := s.tbNs 0
    let w1 := s.hist slot 1
    let s := if bitN w1 22 = 0 then s.setHist slot 1 (w1 + 2 ^ 22) else s
    let s := (s.set F.FLT_FFSEQ_SEQ (s.hist slot 0)).set F.FLT_FFCODE_CODE code
    ((s.set F.FLT_FFCODE_CLASS cls).set F.FLT_FFCODE_VALID 1).set64 F.FLT_FFTIMELO_NS F.FLT_FFTIMEHI_NS t

/-- Steps 1 to 3 of R424 for one acknowledged report: LATCH and CCNT, the history entry, the first-fault record. -/
def State.recordReport (s : State) (code : Nat) (r : WaitRep) : State :=
  let k := code / 256
  let i := code % 256
  let cls := s.classOf code
  let s := (s.set F.FLT_CCFG_LATCH 1 k i).bump F.FLT_CCNT_COUNT (1 + r.pend) k i
  let s := if s.get F.FLT_STAT_HICLASS < cls then s.set F.FLT_STAT_HICLASS cls else s
  if s.quietFor code then s
  else match s.mergeSlot code r.arg with
    | some slot =>
      let s := s.mergeInto slot (1 + r.pend)
      if r.dry then s else s.firstFault slot code cls
    | none =>
      match s.histSlot with
      | (some slot, beyond) =>
        if beyond && code == C.flt_history_overrun then s
        else
          let s := if beyond then (s.bump F.FLT_HSTAT_LOST).report C.flt_history_overrun (mkArg none none 0) else s
          let s := s.newEntry slot code cls r
          if r.dry then s else s.firstFault slot code cls
      | (none, _) => s

/-- The oldest waiting report of a source is taken by the hub's acknowledgement (R420). -/
def State.takeWaiting (s : State) (code : Nat) : Option (WaitRep × State) :=
  match s.waitingReps code with
  | [] => none
  | r :: rest =>
    some (r, { s with flt := { s.flt with waiting := Tab.put (fun _ => []) s.flt.waiting code rest } })

/-- RAIL_WALK (R422): the next source of the walk is tested, one source each 10 µs, one walk each RWALK ms. A source that is
reporting is skipped. `answers`: the source drives the reporting state for one handshake. -/
def doRailWalk (answers : Bool) (s : State) : State :=
  let period := s.get F.FLT_CTL_RWALK
  match allCodes[s.flt.walkNext]? with
  | none => s
  | some code =>
    if period = 0 ∨ s.now < s.flt.walkAt ∨ s.flt.walkTest.isSome then s
    else
      let start := if s.flt.walkNext = 0 then s.now else s.flt.walkStart
      let last := s.flt.walkNext + 1 = allCodes.length
      let nextAt := if last then max (s.now + 10000) (start + period * 1000000) else s.now + 10000
      let busy := !(s.waitingReps code).isEmpty || Tab.get (fun _ => false) s.flt.levels code
      { s with flt := { s.flt with
          walkNext := if last then 0 else s.flt.walkNext + 1, walkStart := start, walkAt := nextAt,
          walkTest := if busy || answers then none else some (code, s.now) } }

def execRailWalk (answers : Bool) (s : State) : Host.Outcome State Fault Refusal := .next (doRailWalk answers s)

/-- RAIL_TEST_TIMEOUT (R422): the tested source has not reported within 2 µs. A real report meanwhile ends the test. -/
def doRailTestTimeout (s : State) : State :=
  match s.flt.walkTest with
  | none => s
  | some (code, t) =>
    if s.now < t + 2000 then s
    else
      let s' := { s with flt := { s.flt with walkTest := none } }
      if !(s.waitingReps code).isEmpty then s'
      else s'.reportRep C.flt_rail_test
        { arg := mkArg none none code, line := none, pend := 0, injected := false, dry := false, rail := true }

def execRailTestTimeout (s : State) : Host.Outcome State Fault Refusal := .next (doRailTestTimeout s)

/-- BROKEN_PAIR (R421): the pair of a source has been broken for `ns` nanoseconds; beyond SKEW it is set aside. -/
def doBrokenPair (code : BitVec 16) (ns : Nat) (s : State) : State :=
  let c := code.toNat
  if (codeRow c).isNone || s.on F.FLT_CCFG_RAILBAD (c / 256) (c % 256) || ns ≤ max 1 (s.get F.FLT_CTL_SKEW) then s
  else (s.set F.FLT_CCFG_RAILBAD 1 (c / 256) (c % 256)).reportRep C.flt_rail_broken
    { arg := mkArg none none c, line := none, pend := 0, injected := false, dry := false, rail := true }

def execBrokenPair (code : BitVec 16) (ns : Nat) (s : State) : Host.Outcome State Fault Refusal :=
  .next (doBrokenPair code ns s)

/-- INJECT (R432): a write of FLT.INJ. With GO = 1 it forces one report from source CODE, in the lifecycle states Blank and
Open. -/
def doInject (v : Word) (s : State) : State :=
  let s := s.swWrite (R.FLT_INJ.off 0 0) v
  if fieldOf v 31 1 = 0 then s
  else
    let code := fieldOf v 0 16
    let lcs := s.get F.SEC_LCS_STATE
    if (codeRow code).isNone || !(lcs == 0 || lcs == 3) then s.set F.FLT_STAT_INJREF 1
    else
      let r : WaitRep := { arg := mkArg none none 0, line := none, pend := 0, injected := true, dry := fieldOf v 30 1 == 1,
                           rail := false }
      { s with flt := { s.flt with
          waiting := Tab.put (fun _ => []) s.flt.waiting code (enqueueRep r (s.waitingReps code)) } }

def execInjectFault (v : Word) (s : State) : Host.Outcome State Fault Refusal := .next (s.busWrite 0x100020 (fun s => doInject v s))

/-- CLRALL (R433): a write of GO clears every LATCH and TRANS. -/
def doClrall (v : Word) (s : State) : State :=
  if fieldOf v 0 1 = 0 then s
  else
    let clr := fun off (w : Word) =>
      if 0x108000 ≤ off && off < 0x10A000 then fieldPut (fieldPut w 21 1 0) 20 1 0 else w
    { s with regs := Tab.mapE regReset clr s.regs }

def execClrall (v : Word) (s : State) : Host.Outcome State Fault Refusal := .next (s.busWrite 0x100030 (fun s => doClrall v s))

/-- FIRST_FAULT_CLEAR (R428): writing 1 to FLT.FFCODE.VALID clears the record. -/
def doFirstFaultClear (v : Word) (s : State) : State :=
  if fieldOf v 31 1 = 0 then s
  else ((s.wr (R.FLT_FFSEQ.off 0 0) 0).wr (R.FLT_FFCODE.off 0 0) 0).set64 F.FLT_FFTIMELO_NS F.FLT_FFTIMEHI_NS 0

def execFirstFaultClear (v : Word) (s : State) : Host.Outcome State Fault Refusal := .next (s.busWrite 0x100014 (fun s => doFirstFaultClear v s))

/-- CLASS_WRITE (R423): a software write of FLT.CCFG(code). CLASS is clamped to the permitted range; for codes of the SEC
block the field is ignored in the Certified state; an unimplemented code ignores the write. -/
def doClassWrite (code : BitVec 16) (v : Word) (s : State) : State :=
  let c := code.toNat
  match codeRow c with
  | none => s
  | some row =>
    let off := R.FLT_CCFG.off (c / 256) (c % 256)
    let old := s.get F.FLT_CCFG_CLASS (c / 256) (c % 256)
    let want := fieldOf v 16 3
    let cls := clampN row.lo row.hi want
    let s := s.swWrite off v
    if c / 256 = 0x13 ∧ s.get F.SEC_LCS_STATE = 2 then s.set F.FLT_CCFG_CLASS old (c / 256) (c % 256)
    else
      let s := s.set F.FLT_CCFG_CLASS cls (c / 256) (c % 256)
      if cls = want then s else s.set F.FLT_STAT_CLSERR 1

def execClassWrite (code : BitVec 16) (v : Word) (s : State) : Host.Outcome State Fault Refusal :=
  .next (s.busWrite (R.FLT_CCFG.off (code.toNat / 256) (code.toNat % 256)) (fun s => doClassWrite code v s))

end Sys2Proof.Machine
end

