-- ==== Sys2Proof/Machine/Host.lean ====
section
/-! DEFINITION. The host interface (R113 to R126, R135): BAR0 holes, BAR2, link resets, negotiation, queue pairs, completions and
interrupts. -/

namespace Sys2Proof.Machine

/-! ### BAR0 and BAR2 (R113 to R116) -/

/-- What the host's last read returned. -/
def State.hostRead (s : State) (v : Word) : State := { s with host := { s.host with rdata := v } }

/-- The register behind a BAR0 offset (R113); the TARN registers have no instances for memories 24 to 31 (R353). -/
def regBehind (off : Nat) : Option (RegDef × Nat × Nat) :=
  match regAt off with
  | some (r, i, j) => if 0xc1000 ≤ r.base ∧ r.base < 0xd0000 ∧ 24 ≤ i ∧ i < 32 then none else some (r, i, j)
  | none => none

/-- BAR0_HOLE_ACCESS (R114): an access of the wrong size, misaligned, or to an offset with no register behind it. -/
def doBar0HoleAccess (write : Bool) (off : BitVec 21) (size : Nat) (s : State) : State :=
  if size ≠ 4 ∨ off.toNat % 4 ≠ 0 then
    (if write then s else s.hostRead 0xFFFFFFFF).report C.ring_bar0_size (mkArg none none (off.toNat / 4))
  else if (regBehind off.toNat).isNone then
    (if write then s else s.hostRead 0).report C.ring_bar0_hole (mkArg none none (off.toNat / 4))
  else s

def execBar0HoleAccess (write : Bool) (off : BitVec 21) (size : Nat) (s : State) : Host.Outcome State Fault Refusal :=
  .next (doBar0HoleAccess write off size s)

/-- Whether a panel record of a secure panel is held (R482). -/
def State.secureHeld (s : State) : Bool := s.job.job.any (fun j => j.panels.any (fun p => p.secure && !p.freed))

/-- The lifecycle states (R471). -/
abbrev lcBlank := 0
abbrev lcProvisioned := 1
abbrev lcCertified := 2
abbrev lcOpen := 3
abbrev lcRetired := 4
def State.lcs (s : State) : Nat := s.get F.SEC_LCS_STATE

/-- The bytes that a host read of `n` bytes returns, and whether it completes with poisoned data. -/
def State.bar2Result (s : State) (bs : List Byte) (bad : Bool) : State :=
  { s with host := { s.host with rdata2 := s.host.rdata2 ++ bs, poisoned := s.host.poisoned || bad } }

/-- A BAR2 read of `n` bytes within one window (R115, R116). -/
def State.bar2Read (s : State) (off n : Nat) : State :=
  let zeros := List.replicate n (0 : Byte)
  let ones := List.replicate n (0xFF : Byte)
  let unit := mkArg none none (off / 4096)
  if n = 0 then s
  else if s.lcs = lcRetired then (s.bar2Result zeros false).report C.ring_bar2_denied unit
  else if off < tarnSize then
    let r := s.readTarn off n
    r.st.bar2Result r.bytes r.bad
  else if s.lcs = lcCertified && s.secureHeld then (s.bar2Result zeros false).report C.ring_bar2_denied unit
  else
    let a := s.get F.RING_APER_BASE * 0x1000000 + (off - tarnSize)
    if !s.on F.RING_APER_EN then (s.bar2Result ones false).report C.ring_bar2_range unit
    else if !s.dramOk a n then ((s.dramRange a).bar2Result ones false).report C.ring_bar2_range unit
    else
      let r := s.readDram a n
      r.st.bar2Result r.bytes r.bad

/-- The bytes enabled by a run of byte enables, as (offset, bytes) runs. -/
def enabledRuns : (off : Nat) → List (Option Byte) → List (Nat × List Byte)
  | _, [] => []
  | off, none :: t => enabledRuns (off + 1) t
  | off, some b :: t =>
    match enabledRuns (off + 1) t with
    | (o, bs) :: rest => if o = off + 1 then (off, b :: bs) :: rest else (off, [b]) :: (o, bs) :: rest
    | [] => [(off, [b])]

/-- A BAR2 write within one window. -/
def State.bar2Write (s : State) (off : Nat) (bs : List (Option Byte)) : State :=
  let unit := mkArg none none (off / 4096)
  if bs = [] then s
  else if s.lcs = lcRetired then s.report C.ring_bar2_denied unit
  else if off < tarnSize then (enabledRuns off bs).foldl (fun s e => s.writeTarnGuarded e.1 e.2 true) s
  else if s.lcs = lcCertified && s.secureHeld then s.report C.ring_bar2_denied unit
  else
    let a := s.get F.RING_APER_BASE * 0x1000000 + (off - tarnSize)
    if !s.on F.RING_APER_EN then s.report C.ring_bar2_range unit
    else if !s.dramOk a bs.length then (s.dramRange a).report C.ring_bar2_range unit
    else (enabledRuns a bs).foldl (fun s e => s.writeDram e.1 e.2) s

/-- BAR2_REQUEST (R115, R116): a request that crosses from Tarn into the aperture is served part by part. Grave
ignores writes (R427). -/
def doBar2Request (off : BitVec 26) (op : Bar2Op) (s : State) : State :=
  let a := off.toNat
  match op with
  | .read n =>
    let s := { s with host := { s.host with rdata2 := [], poisoned := false } }
    let k := if a < tarnSize then min n (tarnSize - a) else n
    (s.bar2Read a k).bar2Read (a + k) (n - k)
  | .write bs =>
    if s.dev = stGrave then s else
    let k := if a < tarnSize then min bs.length (tarnSize - a) else bs.length
    (s.bar2Write a (bs.take k)).bar2Write (a + k) (bs.drop k)

def execBar2Request (off : BitVec 26) (op : Bar2Op) (s : State) : Host.Outcome State Fault Refusal := .next (doBar2Request off op s)

/-- APER_WRITE (R116, R118): EN needs APERTURE. -/
def doAperWrite (v : Word) (s : State) : State :=
  if fieldOf v 31 1 = 1 ∧ !s.feature 8 then s.report C.ring_feature (mkArg none none 8) else s.swWrite (R.RING_APER.off 0 0) v

def execAperWrite (v : Word) (s : State) : Host.Outcome State Fault Refusal := .next (s.busWrite 0x10000 (fun s => doAperWrite v s))

/-! ### Negotiation and link resets (R118, R119) -/

/-- DEV.FEATOFF as it is set at entry to Negotiate (R117, R136): SECURE in Certified and Open, METER in Certified. -/
def State.setFeatoff (s : State) : State :=
  s.set F.DEV_FEATOFF_BITS (0x7E7 + (if s.lcs = lcCertified ∨ s.lcs = lcOpen then 8 else 0) + (if s.lcs = lcCertified then 16 else 0))

/-- A change of DEV.STATE that is no event of R132. -/
def State.setDevQuiet (s : State) (st : Nat) : State :=
  if s.dev = st then s else (s.set F.DEV_STATE_STATE st).raiseVec (s.get F.RING_MISCIV_STATEIV)

/-- NEG_GO (R118, R119): a write of DEV.NEG. -/
def doNegGo (v : Word) (s : State) : State :=
  let done := s.on F.DEV_NEG_DONE
  let s := s.swWrite (R.DEV_NEG.off 0 0) v
  let st := s.dev
  if fieldOf v 31 1 = 0 || done || !(st == stNegotiate || st == stPrinting || st == stPaused) then s
  else
    let req := s.get F.DEV_FEATREQ_BITS
    let ver := s.get F.DEV_NEG_IFVER
    let ok := Nat.land req (s.get F.DEV_FEATOFF_BITS) == req && bitN req 0 == 1 && decide (s.get F.DEV_NEG_IFMIN ≤ ver) &&
      decide (ver ≤ s.get F.DEV_NEG_IFMAX) && (st == stNegotiate || req == s.get F.DEV_FEATACT_BITS)
    if ok then
      let s := (s.set F.DEV_FEATACT_BITS req).set F.DEV_NEG_DONE 1
      if st = stNegotiate then s.setDevQuiet stReady else s
    else s.set F.DEV_NEG_REFUSED 1

def execNegGo (v : Word) (s : State) : Host.Outcome State Fault Refusal := .next (s.busWrite 0x1c (fun s => doNegGo v s))

/-- Every register of the RING block, the MSI-X table and DEV.NEG at its reset value. -/
def State.resetRing (s : State) : State :=
  { s with regs := Tab.drop (fun k => (0x10000 ≤ k && k < 0x20000) || (0x1f0000 ≤ k && k < 0x200000) || k == 0x1c) s.regs }

/-- The started messages after a link reset: an INGEST that has read nothing is cut off, every other one runs on without its
completion. -/
def cutOff (l : List Msg) (jobs : List IngJob) : List Msg :=
  (l.filter (fun m => m.opc ≠ 0x22 || jobs.any (fun j => j.msg.tok == m.tok))).map (fun m => { m with live := false })

/-- A message whose completion is discarded. -/
def Msg.dead (m : Msg) : Msg := { m with live := false }

/-- Applies a change to every message that units hold on to. -/
def State.mapMsgs (s : State) (f : Msg → Msg) : State :=
  let jobs : List IngJob := s.ing.jobs.map (fun j => { j with msg := f j.msg })
  let ops : List PrintOp := s.job.ops.map (fun o => { o with msg := f o.msg })
  let pend : Option PrfPend := s.prf.pend.map (fun p => { p with msg := p.msg.map f })
  let load : Option (Msg × Nat) := s.sens.load.map (fun e => (f e.1, e.2))
  { s with ing := { s.ing with jobs := jobs }, job := { s.job with ops := ops }, prf := { s.prf with pend := pend },
           sens := { s.sens with load := load } }

/-- PCIE_RESET (R119). -/
def doPcieReset (_kind : LinkReset) (s : State) : State :=
  let s := (s.resetRing).mapMsgs Msg.dead
  let started := (cutOff s.host.started s.ing.jobs).filter (fun m => m.opc ≠ 0x03)
  let s := { s with host := { s.host with
    started := started, held := [], phase := [], times := [], cqFullRep := [], armed := [] } }
  let s := if s.dev = stReady then s.setFeatoff.setDevQuiet stNegotiate else s
  s.report C.ring_link_reset (mkArg none none 0)

def execPcieReset (kind : LinkReset) (s : State) : Host.Outcome State Fault Refusal := .next (doPcieReset kind s)

/-! ### Queue pairs (R120 to R124) -/

/-- SIZE as it takes effect: 0 is taken as 1. -/
def State.qsize (s : State) (q : Nat) : Nat := max 1 (s.get F.RING_QCFG_SIZE q)

/-- Whether engine programs own a queue pair. -/
def State.qOwn (s : State) (q : Nat) : Bool := 16 ≤ q || s.on F.RING_QCFG_OWN q

/-- Stops a queue pair (R123): the completions of what was started are discarded. -/
def State.stopQueue (s : State) (q : Nat) : State :=
  let f := fun (m : Msg) => if m.q = q then m.dead else m
  let s := s.mapMsgs f
  { s with host := { s.host with
    started := s.host.started.map f, armed := s.host.armed.map f, held := s.host.held.filter (·.q ≠ q) } }

/-- Starts a queue pair (R123). -/
def State.startQueue (s : State) (q : Nat) : State :=
  let s := (s.wr (R.RING_QSTAT.off q 0) 0).set F.RING_QCFG_ERR 0 q
  let s := (s.set F.RING_SQTAIL_INDEX 0 q).set F.RING_CQHEAD_INDEX 0 q
  { s with host := { s.host with phase := Tab.put (fun _ => false) s.host.phase q true, times := Tab.put (fun _ => []) s.host.times q [],
                                 cqFullRep := Tab.put (fun _ => false) s.host.cqFullRep q false } }

/-- QUEUE_PAIR_CONFIG (R120, R123): a write of RING.QCFG(q). -/
def doQueuePairConfig (q : Fin 64) (v : Word) (s : State) : State :=
  let was := s.on F.RING_QCFG_EN q
  let s := s.set F.RING_QCFG_IV (fieldOf v 16 7) q
  if was then
    if fieldOf v 31 1 = 1 then s else (s.set F.RING_QCFG_EN 0 q).stopQueue q
  else
    let s := s.set F.RING_QCFG_SIZE (fieldOf v 0 12) q
    let s := if 16 ≤ q.val then s else s.set F.RING_QCFG_OWN (fieldOf v 29 1) q
    if s.qOwn q && !s.feature 1 && (q.val < 16 || fieldOf v 31 1 == 1) then s.report C.ring_feature (mkArg none (some q.val) 1)
    else if fieldOf v 31 1 = 1 then (s.set F.RING_QCFG_EN 1 q).startQueue q
    else s

def execQueuePairConfig (q : Fin 64) (v : Word) (s : State) : Host.Outcome State Fault Refusal := .next (s.busWrite (R.RING_QCFG.off q 0) (fun s => doQueuePairConfig q v s))

/-- A write of a base register: ignored while the queue pair is enabled; bits [11:0] of a LO register read as 0. -/
def State.writeQbase (s : State) (q : Nat) (off : Nat) (lo : Bool) (v : Word) : State :=
  if s.on F.RING_QCFG_EN q then s else s.wr off (if lo then w32 (v.toNat / 4096 * 4096) else v)

/-- SQ_TAIL_DOORBELL (R121). -/
def doSqTailDoorbell (q : Fin 64) (v : Word) (s : State) : State :=
  let t := fieldOf v 0 12
  if !s.on F.RING_QCFG_EN q then s.report C.ring_doorbell_range (mkArg none (some q.val) t)
  else if s.qsize q < t then (s.set F.RING_QCFG_ERR 1 q).report C.ring_doorbell_range (mkArg none (some q.val) t)
  else (s.set F.RING_SQTAIL_INDEX t q).postEvent (0x050 + q.val)

def execSqTailDoorbell (q : Fin 64) (v : Word) (s : State) : Host.Outcome State Fault Refusal := .next (s.busWrite (R.RING_SQTAIL.off q 0) (fun s => doSqTailDoorbell q v s))

/-- The places from `a` to `b` in a ring of `n`. -/
def ringDist (n a b : Nat) : Nat := (b + n - a % n) % n

/-- CQ_HEAD_DOORBELL (R121, R122). -/
def doCqHeadDoorbell (q : Fin 64) (v : Word) (s : State) : State :=
  let h := fieldOf v 0 12
  let n := s.qsize q + 1
  let old := s.get F.RING_CQHEAD_INDEX q
  let tail := s.get F.RING_QSTAT_CQTAIL q
  if !s.on F.RING_QCFG_EN q then s.report C.ring_doorbell_range (mkArg none (some q.val) h)
  else if n ≤ h ∨ ringDist n old tail < ringDist n old h then
    (s.set F.RING_QCFG_ERR 1 q).report C.ring_doorbell_range (mkArg none (some q.val) h)
  else
    let k := ringDist n old h
    let ts := (Tab.get (fun _ => []) s.host.times q.val).drop k
    let s := s.set F.RING_CQHEAD_INDEX h q
    let s := if 0 < k then s.set F.RING_QSTAT_CQFULL 0 q else s
    { s with host := { s.host with times := Tab.put (fun _ => []) s.host.times q.val ts,
                                   cqFullRep := if 0 < k then Tab.put (fun _ => false) s.host.cqFullRep q.val false else s.host.cqFullRep } }

def execCqHeadDoorbell (q : Fin 64) (v : Word) (s : State) : Host.Outcome State Fault Refusal := .next (s.busWrite (R.RING_CQHEAD.off q 0) (fun s => doCqHeadDoorbell q v s))

/-! ### Starting entries (R125, R128, R129) -/

/-- The highest argument a message names, none for an opcode that is not defined (R130). -/
def opArgs (opc : Nat) : Option Nat :=
  if opc = 0x20 then some 3 else if opc = 0x21 then some 5 else if opc = 0x22 then some 3
  else if opc = 0x30 ∨ opc = 0x32 then some 2
  else if opc = 1 ∨ opc = 2 ∨ opc = 3 ∨ (0x10 ≤ opc ∧ opc ≤ 0x16) ∨ opc = 0x23 ∨ opc = 0x24 ∨ opc = 0x31 ∨ opc = 0x33 ∨ opc = 0x40 ∨
    opc = 0x41 then some 0
  else none

/-- Whether a message is one of those that queue pair 0 carries out one at a time (R129). -/
def isSerial (opc : Nat) : Bool := (0x10 ≤ opc && opc ≤ 0x15) || (0x20 ≤ opc && opc ≤ 0x33 && opc != 0x22)

/-- Whether a reserved bit of word 0, or an argument the message does not name, is not 0. -/
def reservedBad (m : Msg) (named : Nat) : Bool :=
  fieldOf (m.words.getD 0 0) 20 4 != 0 || fieldOf (m.words.getD 0 0) 16 2 != 0 ||
    (List.range 12).any (fun k => named < k && m.arg k != 0)

/-- The statuses with which an entry ends as it is started: an undefined opcode, a reserved field, a queue pair that does not take
it, a measurement kind that does not exist. -/
def startStatus (m : Msg) : Option Status :=
  match opArgs m.opc with
  | none => some .badopc
  | some n =>
    if isSerial m.opc && m.q != 0 then some .queue
    else if reservedBad m n then some .badfield
    else if m.opc = 0x40 ∧ 8 < (m.arg 0).toNat then some .badfield
    else none

/-- Whether the standard press program serves a queue pair now (R121, R122, R128). -/
def State.serves (s : State) (q : Nat) : Bool :=
  s.on F.RING_QCFG_EN q && !s.on F.RING_QCFG_ERR q && !s.qOwn q && !s.on F.RING_QSTAT_CQFULL q && s.on F.DEV_NEG_DONE &&
    (s.dev == stReady || s.dev == stPrinting || s.dev == stPaused) && s.get F.RING_SQTAIL_INDEX q != s.get F.RING_QSTAT_SQHEAD q

/-- ENTRY_START (R128, R129): the device reads the oldest pending entry of a queue pair; `none` when the read fails, and then the
CID is a free value. -/
def doEntryStart (q : Fin 64) (entry : Option (List Word)) (s : State) : State :=
  if !s.serves q then s
  else
    let head := (s.get F.RING_QSTAT_SQHEAD q + 1) % (s.qsize q + 1)
    match entry with
    | none =>
      let (cid, s) := s.drawFree
      let s := s.set F.RING_QSTAT_SQHEAD head q
      let m : Msg := { tok := s.host.nextTok, q := q, words := [cid &&& 0xFFFF], sqhead := head, live := true }
      (s.complete m .hostdma).report C.ring_host_dma (mkArg none (some q.val) 0)
    | some ws =>
      let m : Msg := { tok := s.host.nextTok, q := q, words := ws, sqhead := head, live := true }
      let mine := s.host.started.any (fun x => x.q == q.val && x.live)
      if (m.fence && mine) || (isSerial m.opc && q.val == 0 && s.host.started.any (fun x => isSerial x.opc)) then s
      else
        let s := s.set F.RING_QSTAT_SQHEAD head q
        let s := { s with host := { s.host with nextTok := s.host.nextTok + 1 } }
        match startStatus m with
        | some st => s.complete m st
        | none => { s with host := { s.host with started := s.host.started ++ [m] } }

def execEntryStart (q : Fin 64) (entry : Option (List Word)) (s : State) : Host.Outcome State Fault Refusal :=
  .next (doEntryStart q entry s)

/-- The started message of a token, when it is the message `opc`; in Halted and Grave the standard press program carries none out (R426). -/
def State.msgOf (s : State) (tok opc : Nat) : Option Msg :=
  if s.dev = stHalted ∨ s.dev = stGrave then none else s.host.started.find? (fun m => m.tok == tok && m.opc == opc)

/-! ### Completions and interrupts (R122, R124, R126, R135) -/

/-- The sixteen bytes of a completion. -/
def Cmpl.bytes (c : Cmpl) (phase : Bool) : List Byte :=
  leBytes 4 c.res0.toNat ++ leBytes 4 c.res1.toNat ++ leBytes 4 (c.sqhead % 4096 * 2 ^ 16 + c.q % 64) ++
    leBytes 4 (c.status * 2 ^ 24 + (if phase then 2 ^ 16 else 0) + c.cid % 65536)

/-- Whether a CQ holds its interrupts back (R135). -/
def State.coalesces (s : State) (q : Nat) : Bool := s.feature 9 && s.rd (R.RING_QCOAL.off q 0) &&& 0xFF00FFFF != 0

/-- COMPLETION_POST (R122, R124, R126): the oldest held completion of a queue pair. `ok`: the host memory write succeeds. -/
def doCompletionPost (q : Fin 64) (ok : Bool) (s : State) : State :=
  match s.host.held.find? (fun c => c.q == q.val) with
  | none => s
  | some c =>
    let n := s.qsize q + 1
    let tail := s.get F.RING_QSTAT_CQTAIL q
    if !s.on F.RING_QCFG_EN q then { s with host := { s.host with held := s.host.held.filter (·.q ≠ q.val) } }
    else if (tail + 1) % n = s.get F.RING_CQHEAD_INDEX q then
      let s := s.set F.RING_QSTAT_CQFULL 1 q
      if Tab.get (fun _ => false) s.host.cqFullRep q.val then s
      else
        let s := { s with host := { s.host with cqFullRep := Tab.put (fun _ => false) s.host.cqFullRep q.val true } }
        s.report C.ring_cq_full (mkArg none (some q.val) 0)
    else
      let phase := Tab.get (fun _ => false) s.host.phase q.val
      let base := s.get64 F.RING_CQBASELO_ADDR F.RING_CQBASEHI_ADDR q
      let s := if ok then s.writeHost (base + 16 * tail) (c.bytes phase) else s.report C.ring_host_dma (mkArg none (some q.val) 0)
      let s := s.set F.RING_QSTAT_CQTAIL ((tail + 1) % n) q
      let ts := Tab.get (fun _ => []) s.host.times q.val ++ [s.now + 1]
      let s := { s with host := { s.host with
        held := s.host.held.erase c,
        phase := if tail + 1 = n then Tab.put (fun _ => false) s.host.phase q.val (!phase) else s.host.phase,
        times := Tab.put (fun _ => []) s.host.times q.val ts } }
      let s := s.set F.RING_QSTAT_CQFULL 0 q
      if !s.coalesces q || decide (max 1 (s.get F.RING_QCOAL_CNT q) ≤ ts.length) then s.raiseVec (s.get F.RING_QCFG_IV q) else s

def execCompletionPost (q : Fin 64) (ok : Bool) (s : State) : Host.Outcome State Fault Refusal := .next (doCompletionPost q ok s)

/-- COALESCE_TIMEOUT (R135): the oldest unconsumed completion has waited TIME µs. -/
def doCoalesceTimeout (q : Fin 64) (s : State) : State :=
  match Tab.get (fun _ => []) s.host.times q.val with
  | [] => s
  | t :: rest =>
    let us := s.get F.RING_QCOAL_TIME q
    if t = 0 || us == 0 || !s.coalesces q || decide (s.now + 1 < t + 1000 * us) then s
    else
      let s := { s with host := { s.host with times := Tab.put (fun _ => []) s.host.times q.val (0 :: rest) } }
      s.raiseVec (s.get F.RING_QCFG_IV q)

def execCoalesceTimeout (q : Fin 64) (s : State) : Host.Outcome State Fault Refusal := .next (doCoalesceTimeout q s)

/-- VECTOR_UNMASK (R135): a pending vector is raised when it is unmasked. -/
def doVectorUnmask (v : Fin 128) (s : State) : State :=
  let s := s.set F.MSIX_CTRL_MASK 0 v
  let w := s.get F.MSIX_PBA_PENDING (v / 32)
  if bitN w (v % 32) = 1 then (s.set F.MSIX_PBA_PENDING (w - 2 ^ (v.val % 32)) (v / 32)).raiseVec v else s

def execVectorUnmask (v : Fin 128) (s : State) : Host.Outcome State Fault Refusal := .next (s.busWrite (R.MSIX_CTRL.off v 0) (fun s => doVectorUnmask v s))

/-- RAISE (R135): a write of RING.RAISE. -/
def doRaise (v : Word) (s : State) : State := s.raiseVec (fieldOf v 0 7)

def execRaise (v : Word) (s : State) : Host.Outcome State Fault Refusal := .next (s.busWrite 0x10008 (fun s => doRaise v s))

/-! ### Messages that only read or arm (R130, R132, R430) -/

/-- DEV_STATUS (R130). -/
def doDevStatus (tok : Nat) (s : State) : State :=
  match s.msgOf tok 0x01 with
  | none => s
  | some m => s.complete m .ok (s.rd (R.DEV_STATE.off 0 0)) (s.rd (R.CMT_PVER.off 0 0))

def execDevStatus (tok : Nat) (s : State) : Host.Outcome State Fault Refusal := .next (doDevStatus tok s)

/-- EVENT_ARM (R132). -/
def doEventArm (tok : Nat) (s : State) : State :=
  match s.msgOf tok 0x03 with
  | none => s
  | some m =>
    if s.host.armed.any (fun x => x.tok == tok) then s
    else if !s.feature 10 then s.complete m .notneg
    else if 16 ≤ s.host.armed.length then s.complete m .busy
    else match s.host.events with
      | [] => { s with host := { s.host with armed := s.host.armed ++ [m] } }
      | (code, param) :: rest =>
        let lost := s.host.eventLost
        let s := { s with host := { s.host with events := rest, eventLost := false } }
        s.complete m .ok (w32 (code + (if lost then 2 ^ 31 else 0))) param

def execEventArm (tok : Nat) (s : State) : Host.Outcome State Fault Refusal := .next (doEventArm tok s)

/-- A message ends because a host memory access failed. -/
def State.hostFail (s : State) (m : Msg) : State := (s.complete m .hostdma).report C.ring_host_dma (mkArg none (some m.q) 0)

/-- Inserts a slot by the SEQ of its entry. -/
def insertSeq (s : State) (k : Nat) : List Nat → List Nat
  | [] => [k]
  | a :: t => if s.hist k 0 ≤ s.hist a 0 then k :: a :: t else a :: insertSeq s k t

/-- The 32 bytes of a history entry. -/
def State.histBytes (s : State) (k : Nat) : List Byte := (List.range 8).flatMap (fun w => leBytes 4 (s.hist k w))

/-- FAULT_READ (R430): RES1 with no entry written is a free value. -/
def doFaultRead (tok : Nat) (ok : Bool) (s : State) : State :=
  match s.msgOf tok 0x02 with
  | none => s
  | some m =>
    if m.len % 32 ≠ 0 then s.complete m .badfield
    else if !ok then s.hostFail m
    else
      let ks := ((heldSlots s 32).filter (fun k => (m.arg 0).toNat ≤ s.hist k 0)).foldr (insertSeq s) []
      let ks := ks.take (m.len / 32)
      let s := s.writeHost m.ptr (ks.flatMap s.histBytes)
      match ks.getLast? with
      | some k => s.complete m .ok (w32 ks.length) (w32 (nextSeq (s.hist k 0)))
      | none =>
        let (r, s) := s.drawFree
        s.complete m .ok 0 r

def execFaultRead (tok : Nat) (ok : Bool) (s : State) : Host.Outcome State Fault Refusal := .next (doFaultRead tok ok s)

/-- A MEAS_READ of kind `kind` that writes a record (R131); `after` is what the read itself changes once the record is written. -/
def State.measRead (s : State) (tok kind : Nat) (ok : Bool) (bytes : List Byte) (after : State → State := id) : State :=
  match s.msgOf tok 0x40 with
  | none => s
  | some m =>
    if (m.arg 0).toNat ≠ kind then s
    else if m.len < bytes.length then s.complete m .badfield
    else if !ok then s.hostFail m
    else (after (s.writeHost m.ptr bytes)).complete m .ok (w32 bytes.length)

/-- One entry of the population record (R350). -/
def State.popEntry (s : State) (c : Nat) : List Byte :=
  if !s.chPresent c then List.replicate 32 0
  else
    let p := Tab.get (fun _ => none) s.dmc.pop c
    let st := s.get F.DMC_CHSTAT_STATE c
    let rate := [3200, 4000, 4800, 5600, 6400].getD (s.get F.DMC_TSET_SPEED (s.get F.DMC_STAT_ACTSET)) 6400
    leBytes 1 st ++ leBytes 1 (s.get F.DMC_CHSTAT_FORM c) ++ leBytes 1 (s.get F.DMC_CHSTAT_RANKS c) ++
      leBytes 1 (s.get F.DMC_CHSTAT_DENGB c) ++ leBytes 2 rate ++ leBytes 2 0 ++ leBytes 4 (s.get F.DMC_CHSTAT_CAPMIB c) ++
      leBytes 2 ((p.map (·.modCode)).getD 0) ++ leBytes 2 ((p.map (·.dramCode)).getD 0) ++ leBytes 4 ((p.map (·.serial)).getD 0) ++
      leBytes 2 (s.chan c).worst ++ leBytes 2 0 ++ leBytes 4 (s.get F.DMC_CECNT_COUNT c) ++ leBytes 4 (s.get F.DMC_UECNT_COUNT c)

/-- MEAS_READ kind 6 (R350): the hottest MR4 codes start again. -/
def doMeasReadDram (tok : Nat) (ok : Bool) (s : State) : State :=
  s.measRead tok 6 ok ((List.range 4).flatMap s.popEntry)
    (fun s => (List.range 4).foldl (fun s c => s.setChan c { s.chan c with worst := 0 }) s)

def execMeasReadDram (tok : Nat) (ok : Bool) (s : State) : Host.Outcome State Fault Refusal := .next (doMeasReadDram tok ok s)

end Sys2Proof.Machine
end

