-- ==== Sys2Proof/Machine/Ingest.lean ====
section
/-! DEFINITION. Image ingest (R134, R140 to R149, R163, R166 to R170): the INGEST message, encode lanes, the Spillway, the store ring,
block maps and panel records. -/

namespace Sys2Proof.Machine

/-! ### Records of the unit -/

def State.ingJob (s : State) (tok : Nat) : Option IngJob := s.ing.jobs.find? (fun j => j.msg.tok == tok)

def State.setIngJob (s : State) (j : IngJob) : State :=
  { s with ing := { s.ing with jobs := s.ing.jobs.map (fun x => if x.msg.tok = j.msg.tok then j else x) } }

def State.encLane (s : State) (l : Nat) : Option EncLane := Tab.get (fun _ => none) s.ing.lanes l

def State.setEncLane (s : State) (l : Nat) (x : Option EncLane) : State :=
  { s with ing := { s.ing with lanes := Tab.put (fun _ => none) s.ing.lanes l x } }

/-- The encode lanes that have a block. -/
def State.busyLanes (s : State) : List (Nat × EncLane) :=
  (List.range 16).filterMap (fun l => (s.encLane l).map (fun x => (l, x)))

/-! ### The Spillway (R169, R170) -/

/-- The buffers in use. -/
def State.spwUsed (s : State) : List Nat := s.busyLanes.flatMap (fun e => e.2.spw)

/-- The free buffers of the pool. -/
def State.spwFree (s : State) : List Nat := (List.range (s.get F.ING_SPWCFG_NUM)).filter (fun k => !s.spwUsed.contains k)

/-- LSTAT.STATE of a lane. -/
def laneState (x : EncLane) : Nat :=
  if x.again.isSome then 4 else if x.oosAt.isSome then 2 else 3

/-- STAT, SPWSTAT and LSTAT from the state of the unit. -/
def State.updIng (s : State) : State :=
  let lanes := s.busyLanes
  let used := s.spwUsed.length
  let s := (List.range 16).foldl (fun s l => match s.encLane l with
    | none => s.wr (R.ING_LSTAT.off l 0) 0
    | some x => ((s.set F.ING_LSTAT_STATE (laneState x) l).set F.ING_LSTAT_SPW x.spw.length l).set F.ING_LSTAT_STRIPE x.stripe l) s
  let s := s.set F.ING_STAT_ACTIVE s.ing.jobs.length
  let s := s.set F.ING_STAT_OOS (lanes.filter (fun e => e.2.oosAt.isSome)).length
  let s := s.set F.ING_STAT_NSWAIT (if s.ing.jobs.any (fun j => j.waitAt.isSome) then 1 else 0)
  let s := s.set F.ING_SPWSTAT_FREE (s.get F.ING_SPWCFG_NUM - used)
  s.set F.ING_SPWSTAT_PEAK (max used (s.get F.ING_SPWSTAT_PEAK))

/-- The bytes of a primary buffer. -/
def State.primSize (s : State) : Nat := max 8 (s.get F.ING_OBCFG_SIZE) * 4096

/-- The Tarn offsets of a lane's primary buffer and of a Spillway buffer. -/
def State.primAddr (s : State) (l : Nat) : Nat := s.get F.ING_OBCFG_BASE * 4096 + l * s.primSize
def State.spwAddr (s : State) (k : Nat) : Nat := (s.get F.ING_SPWCFG_BASE + k) * 4096

/-- A unit's write of an output buffer; bytes beyond Tarn are lost. -/
def State.bufWrite (s : State) (a : Nat) (bs : List Byte) : State :=
  if a + bs.length ≤ tarnSize then s.writeTarn a bs else s

/-- The chunk of a body that its `j`-th Spillway buffer holds. -/
def State.spwChunk (s : State) (x : EncLane) (j : Nat) : List Byte :=
  ((x.code.drop (32 + s.primSize)).drop (4096 * j)).take 4096

/-- A lane takes free buffers, lowest first, until its block fits or the pool is empty; `k` at most. -/
def takeBuffers (l : Nat) : Nat → EncLane → State → EncLane × State
  | 0, x, s => (x, s)
  | k + 1, x, s =>
    if x.need ≤ x.spw.length then (x, s)
    else match s.spwFree with
      | [] => (x, s)
      | b :: _ =>
        let x' := { x with spw := x.spw ++ [b] }
        takeBuffers l k x' ((s.bufWrite (s.spwAddr b) (s.spwChunk x x.spw.length)).setEncLane l (some x'))

/-- The codec report of a block at ingest. -/
def EncLane.arg (x : EncLane) (panel : Nat) : Word := codecArg none panel x.stripe x.group

/-- The panel of an INGEST. -/
def State.panelOfTok (s : State) (tok : Nat) : Nat := ((s.ingJob tok).map (·.panel)).getD 0

/-- A coded block waits in its job for BLOCK_STORE. -/
def State.blockCoded (s : State) (x : EncLane) : State :=
  match s.ingJob x.tok with
  | none => s
  | some j => s.setIngJob { j with blocks := j.blocks.map (fun b =>
      if b.group = x.group ∧ b.stripe = x.stripe then { b with coded := some x.code } else b) }

/-- A lane goes on after it took buffers: its block is coded, or it is out of space. -/
def State.laneGoesOn (s : State) (l : Nat) (x : EncLane) : State :=
  if x.need ≤ x.spw.length then (s.setEncLane l (some { x with oosAt := none })).blockCoded x
  else (s.setEncLane l (some { x with oosAt := some s.now })).report C.codec_out_of_space (x.arg (s.panelOfTok x.tok))

/-- The waiting lanes take the free buffers, the lowest lane first; `k` at most. -/
def feedLanes : Nat → State → State
  | 0, s => s
  | k + 1, s =>
    match s.spwFree, s.busyLanes.find? (fun e => e.2.oosAt.isSome) with
    | _ :: _, some (l, x) =>
      let (x', s) := takeBuffers l 1 x s
      if x'.need ≤ x'.spw.length then feedLanes k (s.laneGoesOn l x')
      else if s.spwFree = [] then s.laneGoesOn l x'
      else feedLanes k s
    | _, _ => s

/-- A lane gives its block up and its buffers back. -/
def State.dropLane (s : State) (l : Nat) : State := feedLanes 4096 (s.setEncLane l none)

/-- Every lane of an INGEST gives its block up. -/
def State.dropLanes (s : State) (tok : Nat) : State :=
  (s.busyLanes.filter (fun e => e.2.tok == tok && !e.2.done)).foldl (fun s e => s.setEncLane e.1 none) s

/-! ### The store ring (R143) -/

/-- The units of 64 bytes of the ring. -/
def State.ringUnits (s : State) : Nat := s.get F.ING_STSIZE_MIB * 16384

/-- The place of a block of `u` units: its offset and the units skipped before it, none when it does not fit. -/
def State.ringPlace (s : State) (u : Nat) : Option (Nat × Nat) :=
  let n := s.ringUnits
  let w := s.get F.ING_STWPTR_UNITS
  let skip := if n < w + u then n - w else 0
  if n < u ∨ s.get F.ING_STFREE_UNITS < u + skip then none else some (if n < w + u then 0 else w, skip)

/-- The units a stored block takes. -/
def StoredBlock.units (b : StoredBlock) : Nat := cdiv b.bytes 64 + b.skipped

/-- Store bytes come back. -/
def State.freeUnits (s : State) (u : Nat) : State := s.set F.ING_STFREE_UNITS (s.get F.ING_STFREE_UNITS + u)

/-- The store bytes of a panel are freed (R17, R143). -/
def State.freeStore (s : State) (panel : Nat) : State :=
  let mine := s.ing.store.filter (fun b => b.panel == panel)
  let s := s.freeUnits ((mine.map (·.units)).foldl (· + ·) 0)
  { s with ing := { s.ing with store := s.ing.store.filter (fun b => b.panel != panel) } }

/-- The blocks of an envelope whose tag failed, newest first: while they are the newest of the ring, the write pointer goes back. -/
def rollBack (mine : List Nat) : (k : Nat) → State → State
  | 0, s => s
  | k + 1, s =>
    match s.ing.store.getLast? with
    | none => s
    | some b =>
      if !mine.contains b.addr then s
      else
        let pos := (b.addr - s.get F.ING_STBASE_MIB * 2 ^ 20) / 64
        let w := if 0 < b.skipped then s.ringUnits - b.skipped else pos
        let s := (s.freeUnits b.units).set F.ING_STWPTR_UNITS w
        rollBack mine k { s with ing := { s.ing with store := s.ing.store.dropLast } }

/-- The map entry of a block (R144). -/
def mapEntry (addr lines bytes : Nat) : List Byte :=
  leBytes 4 (addr % 2 ^ 32) ++ leBytes 4 (lines % 128 * 2 ^ 16 + addr / 2 ^ 32 % 256) ++ leBytes 4 bytes ++ leBytes 4 0

/-- The DRAM address of a map entry of a panel. -/
def State.entryAddr (s : State) (panel entry : Nat) : Nat :=
  ((s.job.job.bind (fun j => j.panels[panel]?)).map (·.mapAddr)).getD 0 + entry * 16

/-- Writes a map entry as one write. -/
def State.writeEntry (s : State) (panel entry addr lines bytes : Nat) : State :=
  let a := s.entryAddr panel entry
  if s.dramOk a 16 then s.writeDram a (mapEntry addr lines bytes) else s.dramRange a

/-- Writes a block into the store; none when it does not fit. The address is returned. -/
def State.placeBlock (s : State) (panel entry lines : Nat) (bs : List Byte) : Option (Nat × State) :=
  let u := cdiv bs.length 64
  match s.ringPlace u with
  | none => none
  | some (pos, skip) =>
    let a := s.get F.ING_STBASE_MIB * 2 ^ 20 + pos * 64
    let first := !s.ing.store.any (fun b => b.panel == panel)
    let s := if s.dramOk a bs.length then s.writeDram a bs else s.dramRange a
    let s := s.set F.ING_STFREE_UNITS (s.get F.ING_STFREE_UNITS - (u + skip))
    let s := s.set F.ING_STWPTR_UNITS (if pos + u = s.ringUnits then 0 else pos + u)
    let b : StoredBlock := { panel := panel, entry := entry, addr := a, skipped := skip, bytes := bs.length, lines := lines }
    let s := ({ s with ing := { s.ing with store := s.ing.store ++ [b] } }).bump F.ING_BLKCNT_COUNT
    let r := s.recAddr panel
    let s := if first then s.bufWrite (r + 24) (leBytes 4 pos) else s
    some (a, s.bufWrite (r + 28) (leBytes 4 (pos + u)))

/-! ### The end of an INGEST -/

/-- An INGEST ends: its lanes give up their blocks, and its message completes with RES0. -/
def State.endIngest (s : State) (j : IngJob) (st : Status) (bytes : Nat) : State :=
  let s := s.dropLanes j.msg.tok
  let s := feedLanes 4096 { s with ing := { s.ing with jobs := s.ing.jobs.filter (fun x => x.msg.tok ≠ j.msg.tok) } }
  (s.complete j.msg st (w32 bytes)).updIng

/-- The store space of an envelope that is not mapped is freed. -/
def State.freeEnvelope (s : State) (j : IngJob) : State := rollBack (j.unmapped.map (·.2.1)) j.unmapped.length s

/-- A block does not fit (R143): the INGEST waits while the device prints, and otherwise ends. -/
def State.noFit (s : State) (j : IngJob) : State :=
  if j.waitAt.isSome then s
  else if s.printing then (s.setIngJob { j with waitAt := some s.now }).updIng
  else ((s.freeEnvelope j).endIngest j .nospace j.stored).report C.ing_store_full (mkArg none none j.panel)

/-- The stripes of an INGEST's panel. -/
def State.jobStripes (s : State) (j : IngJob) : Nat :=
  ((s.job.job.bind (fun b => b.panels[j.panel]?)).map (fun p => stripesOf p.w)).getD 1

/-- A block of an INGEST is placed: its entry is written, or kept back until the envelope's tag is checked. None where it does not
fit. -/
def State.storeFor (s : State) (j : IngJob) (group stripe lines : Nat) (bs : List Byte) : Option State :=
  let n := s.jobStripes j
  let entry := group * n + stripe
  match s.placeBlock j.panel entry lines bs with
  | none => none
  | some (a, s) =>
    let part := if stripe + 1 = n then 0 else j.partBytes + bs.length
    let j := { j with stored := j.stored + bs.length, partBytes := part, waitAt := none,
                      unmapped := if j.kind = 2 then j.unmapped ++ [(entry, a, lines, bs.length)] else j.unmapped,
                      blocks := j.blocks.filter (fun b => !(b.group == group && b.stripe == stripe)) }
    let s := if j.kind = 2 then s else s.writeEntry j.panel entry a lines bs.length
    some (s.setIngJob j)

/-- The group after the last of an INGEST. -/
def IngJob.groupEnd (j : IngJob) : Nat := (j.first + j.count + 63) / 64

/-- Ends a raw or pre-compressed INGEST when its last block is stored. -/
def State.ingestDone (s : State) (tok : Nat) : State :=
  match s.ingJob tok with
  | none => s
  | some j =>
    if j.blocks ≠ [] ∨ j.kind = 2 ∨ (j.kind = 1 ∧ j.group < j.groupEnd) then s.updIng
    else if j.kind = 1 ∧ j.data ≠ [] then
      (s.endIngest j .badfield (j.stored - j.partBytes)).report C.ing_block_refused (mkArg none none j.panel)
    else s.endIngest j .ok j.stored

/-! ### Starting an INGEST (R142, R146, R148, R149) -/

/-- The blocks of a raw range of lines (R141, R142). -/
def rawBlocks (form w h first : Nat) (lines : List (List (Nat × List Nat))) : List IngBlock :=
  let last := first + lines.length
  (List.range (cdiv lines.length 64)).flatMap (fun i =>
    let g := first / 64 + i
    let ls := (lines.drop (64 * i)).take 64
    (List.range (stripesOf w)).map (fun k =>
      { group := g, stripe := k, rows := ls.map (fun l => l.map (stripeRow form w k)), flush := decide (ls.length < 64) && decide (last ≤ h),
        notLane := none, tries := 0, coded := none, lane := none }))

/-- Whether a job's uncompressed ingest exceeds the limit of R21. -/
def State.tooFast (s : State) (j : Job) (p : Panel) : Bool :=
  let x := p.w * formSpp2 p.form * s.liveFrame.lineRate
  decide (22400000000 * j.scale < x) || decide (192000000000 * j.scale < x * (formDepth p.form).getD 8)

/-- The key store slot of a KEYID (R481): none when no slot holds it or its metres are used up. -/
def State.keyFor (s : State) (keyid : Word) : Option KeySlot :=
  ((List.range 64).filterMap (fun k => Tab.get (fun _ => none) s.sec.slots k)).find?
    (fun (x : KeySlot) => x.keyid == keyid && !(x.metered && decide (x.limit * 2 ^ 32 ≤ x.used)))

/-- A new INGEST in progress. -/
def IngJob.begin (m : Msg) (panel first count kind : Nat) : IngJob :=
  { msg := m, panel := panel, first := first, count := count, kind := kind, blocks := [], data := [], group := first / 64, stripe := 0,
    stored := 0, partBytes := 0, waitAt := none, verdict := none, seq := 0, keyid := 0, tagOk := false, unmapped := [], hists := [] }

def State.addIngest (s : State) (j : IngJob) : State := ({ s with ing := { s.ing with jobs := s.ing.jobs ++ [j] } }).updIng

/-- A secure envelope (R148, R149, R481). -/
def State.startEnvelope (s : State) (m : Msg) (b : Job) (j : IngJob) (e : List Byte) : State :=
  let ct := leAt e 0x1C 4
  let refuse := fun (st : Status) (code : Nat) => (s.complete m st).report code (mkArg none none j.panel)
  if leAt e 0 4 ≠ 0x4A434553 ∨ leAt e 4 4 ≠ 1 ∨ leAt e 0x2C 4 ≠ 0 ∨ m.len ≠ ct + 64 ∨ ct % 8 ≠ 0 then refuse .badfield C.ing_block_refused
  else if leAt e 0x20 4 ≠ j.panel ∨ leAt e 0x24 4 ≠ j.first ∨ leAt e 0x28 4 ≠ j.count then refuse .badfield C.ing_block_refused
  else if b.seq.any (fun q => leAt e 0x0C 4 ≤ q) then refuse .signature C.ing_secure_seq
  else if s.auditFull then s.complete m .licence
  else match s.keyFor (w32 (leAt e 8 4)) with
    | none => refuse .licence C.sec_no_key
    | some k =>
      let r := gcmOpen k.key ((e.drop 0x10).take 12) (e.take 0x30) ((e.drop 0x30).take ct) ((e.drop (0x30 + ct)).take 16)
      s.addIngest { j with data := r.1, tagOk := r.2, seq := leAt e 0x0C 4, keyid := k.keyid }

/-- INGEST (R134, R142, R146, R148): the message starts once fewer than four are in progress. `data`: the host buffer, none when the
read fails. -/
def doIngest (tok : Nat) (data : Option (List Byte)) (s : State) : State :=
  match s.msgOf tok 0x22 with
  | none => s
  | some m =>
    if (s.ingJob tok).isSome ∨ 4 ≤ s.ing.jobs.length then s
    else
      let k := (m.arg 0).toNat
      let first := (m.arg 1).toNat
      let count := (m.arg 2).toNat
      let kind := (m.arg 3).toNat
      if 2 < kind then s.complete m .badfield
      else if (kind = 1 ∧ !s.feature 2) ∨ (kind = 2 ∧ !s.feature 3) then s.complete m .notneg
      else if !s.on F.ING_CTL_EN then s.complete m .state
      else match s.job.job with
        | none => s.complete m .state
        | some b =>
          match b.panels[k]? with
          | none => s.complete m .badfield
          | some p =>
            if (kind = 0 ∨ (kind = 1 ∧ s.on F.ING_CTL_PCCHK)) ∧ s.get F.ING_CTL_LANEN = 0 then s.complete m .state
            else if first % 64 ≠ 0 ∨ count = 0 ∨ p.h < first + count ∨ (p.form = 3 ∧ count % 2 = 1) then s.complete m .badfield
            else if kind = 0 ∧ m.len ≠ linesBytes p.form p.w first count then s.complete m .badfield
            else if kind = 0 ∧ s.tooFast b p then s.complete m .state
            else
              let j := IngJob.begin m k first count kind
              match data with
              | none => s.hostFail m
              | some bs =>
                let bs := bs.take m.len
                if kind = 0 then s.addIngest { j with blocks := rawBlocks p.form p.w p.h first (parseLines p.form p.w first count bs) }
                else if kind = 1 then s.addIngest { j with data := bs }
                else s.startEnvelope m b j bs

def execIngest (tok : Nat) (data : Option (List Byte)) (s : State) : Host.Outcome State Fault Refusal := .next (doIngest tok data s)

/-! ### Encode lanes (R163, R166, R167, R169) -/

/-- The first block of a raw INGEST that lane `l` may take. -/
def IngJob.nextBlock (j : IngJob) (l : Nat) : Option IngBlock :=
  if j.kind ≠ 0 then none else j.blocks.find? (fun b => b.coded.isNone && b.lane.isNone && b.notLane != some l)

/-- The first block that waits for a lane, in the order of the INGESTs. -/
def pickBlock (l : Nat) : List IngJob → Option (IngJob × IngBlock)
  | [] => none
  | j :: t => match j.nextBlock l with
    | some b => some (j, b)
    | none => pickBlock l t

/-- The bytes of a coded block: header and body (R150, R163, R166). -/
def State.codeBlock (s : State) (p : Panel) (panel : Nat) (b : IngBlock) : List Byte :=
  let body := encodeBody p.form b.rows
  let tcrc := s.on F.ING_CTL_TCRC
  let flags := (if b.flush then 4 else 0) + (if tcrc then 8 else 0)
  makeHdr flags p.form panel b.stripe (64 * b.group) b.rows.length (stripeWidth p.w b.stripe) body.length
    (if tcrc then (scrcOf b.rows).toNat else 0) ++ body

/-- A lane writes its body: the primary buffer, then Spillway buffers while the pool has some. A lane that holds every buffer of the
pool and still has no room abandons the block and ends the INGEST. -/
def State.laneWrites (s : State) (l : Nat) (x : EncLane) : State :=
  let s := (s.bufWrite (s.primAddr l) ((x.code.drop 32).take s.primSize)).setEncLane l (some x)
  let (x, s) := takeBuffers l x.need x s
  let s := s.laneGoesOn l x
  if x.spw.length < x.need ∧ x.spw.length = s.get F.ING_SPWCFG_NUM then
    match s.ingJob x.tok with
    | none => s.dropLane l
    | some j => (s.endIngest j .nospace j.stored).report C.codec_block_too_large (x.arg j.panel)
  else s.updIng

/-- Replaces a block of an INGEST. -/
def State.setIngBlock (s : State) (j : IngJob) (b : IngBlock) : State :=
  s.setIngJob { j with blocks := j.blocks.map (fun c => if c.group = b.group ∧ c.stripe = b.stripe then b else c) }

/-- ENCODE_BLOCK (R163, R167, R169, R170): lane `l` codes the next block, or an abandoned one again. `mismatch`: the checker decoder
finds a sample that differs. -/
def doEncodeBlock (l : Fin 16) (mismatch : Bool) (s : State) : State :=
  if !s.on F.ING_CTL_EN || bitN (s.get F.ING_CTL_LANEN) l == 0 then s
  else match s.encLane l with
    | some x =>
      match x.again with
      | some n => if n ≤ s.spwFree.length then s.laneWrites l { x with again := none } else s
      | none => s
    | none =>
      match pickBlock l s.ing.jobs with
      | none => s
      | some (j, b) =>
        match s.job.job.bind (fun x => x.panels[j.panel]?) with
        | none => s
        | some p =>
          let arg := codecArg none j.panel b.stripe b.group
          if mismatch && s.on F.ING_CTL_DAC then
            let s := s.bump F.ING_VERCNT_COUNT
            if b.tries = 0 then
              (s.setIngBlock j { b with notLane := some l.val, tries := 1 }).report C.codec_verify_mismatch arg
            else (s.endIngest j .aborted j.stored).report C.codec_verify_fail arg
          else
            let code := s.codeBlock p j.panel b
            let x : EncLane := { tok := j.msg.tok, group := b.group, stripe := b.stripe, code := code,
                                 need := cdiv (code.length - 32 - s.primSize) 4096, spw := [], oosAt := none, again := none, done := false }
            (s.setIngBlock j { b with lane := some l.val }).laneWrites l x

def execEncodeBlock (l : Fin 16) (mismatch : Bool) (s : State) : Host.Outcome State Fault Refusal := .next (doEncodeBlock l mismatch s)

/-- The coded block as it stands in the lane's buffers. -/
def State.laneBytes (s : State) (l : Nat) (x : EncLane) : List Byte × State :=
  let n := x.code.length - 32
  let prim := min n s.primSize
  let parts := (s.primAddr l, prim) :: x.spw.zipIdx.map (fun e => (s.spwAddr e.1, min 4096 (n - s.primSize - 4096 * e.2)))
  if parts.any (fun e => tarnSize < e.1 + e.2) then (x.code, s)
  else parts.foldl (fun (acc : List Byte × State) e =>
    let r := acc.2.readTarn e.1 e.2
    (acc.1 ++ r.bytes, r.st)) (x.code.take 32, s)

/-- The lane that holds a coded block. -/
def State.laneOf (s : State) (tok group stripe : Nat) : Option (Nat × EncLane) :=
  s.busyLanes.find? (fun e => e.2.tok == tok && e.2.group == group && e.2.stripe == stripe && !e.2.done)

/-- BLOCK_STORE (R143, R144): the next coded block of an INGEST is copied into the store. -/
def doBlockStore (tok : Nat) (s : State) : State :=
  match s.ingJob tok with
  | none => s
  | some j =>
    match j.blocks with
    | [] => s
    | b :: _ =>
      match b.coded with
      | none => s
      | some code =>
        let lane := s.laneOf tok b.group b.stripe
        let (bs, s') := match lane with
          | none => (code, s)
          | some (l, x) => s.laneBytes l x
        match s'.storeFor j b.group b.stripe (leAt code 0x0C 2) bs with
        | none => s.noFit j
        | some s =>
          let s := match lane with
            | none => s
            | some (l, x) => s.setEncLane l (if x.spw = [] then none else some { x with done := true })
          s.ingestDone tok

def execBlockStore (tok : Nat) (s : State) : Host.Outcome State Fault Refusal := .next (doBlockStore tok s)

/-- STORE_WAIT_TIMEOUT (R143). -/
def doStoreWaitTimeout (tok : Nat) (s : State) : State :=
  match s.ingJob tok with
  | none => s
  | some j =>
    match j.waitAt with
    | none => s
    | some t =>
      if s.elapsedUs t (1000 * max 1 (s.get F.ING_OOSTO_TIMEOUT)) then
        ((s.freeEnvelope j).endIngest j .nospace j.stored).report C.ing_store_full (mkArg none none j.panel)
      else s

def execStoreWaitTimeout (tok : Nat) (s : State) : Host.Outcome State Fault Refusal := .next (doStoreWaitTimeout tok s)

/-- SPILLWAY_RETURN (R170): a lane whose block is stored gives back one buffer. -/
def doSpillwayReturn (l : Fin 16) (s : State) : State :=
  match s.encLane l with
  | none => s
  | some x =>
    match x.spw with
    | [] => s
    | _ :: rest =>
      if !x.done then s
      else (feedLanes 4096 (s.setEncLane l (if rest = [] then none else some { x with spw := rest }))).updIng

def execSpillwayReturn (l : Fin 16) (s : State) : Host.Outcome State Fault Refusal := .next (doSpillwayReturn l s)

/-- The lane that holds the most buffers, the lowest on a tie. -/
def mostSpw : List (Nat × EncLane) → Option (Nat × EncLane)
  | [] => none
  | e :: t => match mostSpw t with
    | none => some e
    | some f => some (if f.2.spw.length ≤ e.2.spw.length then e else f)

/-- SPILL_TIMEOUT (R170): every lane with a block in progress has been out of space for OOSTO µs. -/
def doSpillTimeout (s : State) : State :=
  let lanes := s.busyLanes.filter (fun e => e.2.again.isNone)
  let old := fun (e : Nat × EncLane) => e.2.oosAt.any (fun t => s.elapsedUs t (max 1 (s.get F.ING_OOSTO_TIMEOUT)))
  if !lanes.all old then s
  else match mostSpw lanes with
    | none => s
    | some (l, x) =>
      let s := s.setEncLane l (some { x with spw := [], oosAt := none, again := some x.spw.length })
      ((feedLanes 4096 s).updIng).report C.codec_spill_abandon (x.arg (s.panelOfTok x.tok))

def execSpillTimeout (s : State) : Host.Outcome State Fault Refusal := .next (doSpillTimeout s)

/-! ### Pre-compressed and secure blocks (R147, R149) -/

/-- Whether the block before a continuous one held 64 lines (R164). -/
def State.contOk (s : State) (j : IngJob) : Bool :=
  let entry := (j.group - 1) * s.jobStripes j + j.stripe
  j.group ≠ 0 && ((s.ing.store.filter (fun b => b.panel == j.panel && b.entry == entry)).getLast?).any (fun b => b.lines == 64)

/-- The check of the next block of a buffer (R147): its header and length, or the code of the refusal. -/
def State.checkBlock (s : State) (j : IngJob) (p : Panel) : Except Nat (BlockHdr × Nat) :=
  let d := j.data
  let h := parseHdr (d.take 32)
  let lines := min 64 (j.first + j.count - 64 * j.group)
  if d.length < 32 then .error C.ing_block_refused
  else if h.sync ≠ 0x5A3C then .error C.codec_bad_sync
  else if !h.hcrcOk ∨ !h.rsvOk then .error C.codec_header_crc
  else if h.form ≠ p.form ∨ h.panel ≠ j.panel ∨ h.stripe ≠ j.stripe ∨ h.first ≠ 64 * j.group ∨ h.lines ≠ lines ∨
      h.width ≠ stripeWidth p.w j.stripe then .error C.ing_block_refused
  else if d.length < 32 + h.body ∨ 4194304 < h.body ∨ h.body % 8 ≠ 0 then .error C.ing_block_refused
  else if !h.tcrc ∧ s.on F.ING_CTL_REQTCRC then .error C.ing_block_refused
  else if h.cont ∧ !s.contOk j then .error C.codec_history
  else .ok (h, 32 + h.body)

/-- The checker decoder (R147): the histories after the block, or the code of the decoder error. A continuous block whose predecessor
the checker has not decoded in this INGEST is not decoded. -/
def State.pccheck (s : State) (j : IngJob) (h : BlockHdr) (body : List Byte) : Except Nat (Option Hists) :=
  let prev := (Tab.get (fun _ => none) j.hists j.stripe).bind (fun (x : StripeHist) => if x.group + 1 = j.group then some x.hists else none)
  if !s.on F.ING_CTL_PCCHK then .ok none
  else match (if h.cont then prev else some []) with
    | none => .ok none
    | some hs =>
      match decodeBody h hs body with
      | .ok _ hs => .ok (some hs)
      | .err e => .error e.code
      | .trailing => .error C.codec_body_trailing
      | .crc => .error C.codec_crc

/-- A block that R147 refuses ends the INGEST; in an envelope the verdict waits for the tag. -/
def State.refuseBlock (s : State) (j : IngJob) (code : Nat) : State :=
  if j.kind = 2 then (s.setIngJob { j with verdict := some code, data := [] }).updIng
  else (s.endIngest j .badfield (j.stored - j.partBytes)).report code (codecArg none j.panel j.stripe j.group)

/-- PRECOMPRESSED_BLOCK (R147, R149): the next block of an INGEST's buffer. -/
def doPrecompressedBlock (tok : Nat) (s : State) : State :=
  match s.ingJob tok with
  | none => s
  | some j =>
    if j.kind = 0 ∨ j.blocks ≠ [] ∨ j.verdict.isSome ∨ j.groupEnd ≤ j.group then s
    else match s.job.job.bind (fun x => x.panels[j.panel]?) with
      | none => s
      | some p =>
        match s.checkBlock j p with
        | .error code => s.refuseBlock j code
        | .ok (h, n) =>
          let bs := j.data.take n
          match s.pccheck j h (bs.drop 32) with
          | .error code => s.refuseBlock j code
          | .ok hs =>
            let last := j.stripe + 1 = s.jobStripes j
            let sh : Option StripeHist := hs.map (fun x => { inst := 0, group := j.group, hists := x })
            let j' := { j with data := j.data.drop n, group := if last then j.group + 1 else j.group,
                               stripe := if last then 0 else j.stripe + 1,
                               hists := Tab.put (fun _ => none) j.hists j.stripe sh }
            let b : IngBlock := { group := j.group, stripe := j.stripe, rows := [], flush := h.flush, notLane := none, tries := 0,
                                  coded := some bs, lane := none }
            let j' := { j' with blocks := [b] }
            let s := s.setIngJob j'
            match s.storeFor j' j.group j.stripe h.lines bs with
            | none => s.noFit j'
            | some s => s.ingestDone tok

def execPrecompressedBlock (tok : Nat) (s : State) : Host.Outcome State Fault Refusal := .next (doPrecompressedBlock tok s)

/-- An accepted envelope marks its panel (R149). -/
def State.markSecure (s : State) (j : IngJob) : State :=
  match s.job.job with
  | none => s
  | some b =>
    let ps := b.panels.zipIdx.map (fun e => if e.2 = j.panel then { e.1 with secure := true, keyid := j.keyid } else e.1)
    let s := { s with job := { s.job with job := some { b with panels := ps, seq := some j.seq } } }
    s.bufWrite (s.recAddr j.panel + 1) [3]

/-- GCM_TAG_CHECK (R149). -/
def doGcmTagCheck (tok : Nat) (s : State) : State :=
  match s.ingJob tok with
  | none => s
  | some j =>
    if j.kind ≠ 2 ∨ j.blocks ≠ [] ∨ (j.verdict.isNone ∧ j.group < j.groupEnd) then s
    else if !j.tagOk then
      ((s.freeEnvelope j).endIngest j .signature 0).report C.ing_gcm_tag (mkArg none none j.panel)
    else
      let s := j.unmapped.foldl (fun s e => s.writeEntry j.panel e.1 e.2.1 e.2.2.1 e.2.2.2) s
      let verdict := match j.verdict with
        | some c => some c
        | none => if j.data = [] then none else some C.ing_block_refused
      match verdict with
      | some c => (s.endIngest j .badfield (j.stored - j.partBytes)).report c (codecArg none j.panel j.stripe j.group)
      | none => (s.markSecure j).endIngest j .ok j.stored

def execGcmTagCheck (tok : Nat) (s : State) : Host.Outcome State Fault Refusal := .next (doGcmTagCheck tok s)

/-! ### The registers of the unit -/

/-- A software write of ING.CTL: with EN rising, PEAK starts again, and an empty store starts at its base. -/
def State.writeIngCtl (s : State) (v : Word) : State :=
  let was := s.on F.ING_CTL_EN
  let s := s.swWrite (R.ING_CTL.off 0 0) v
  if was || !s.on F.ING_CTL_EN then s
  else
    let s := s.set F.ING_SPWSTAT_PEAK 0
    let s := if s.ing.store = [] then (s.set F.ING_STWPTR_UNITS 0).set F.ING_STFREE_UNITS s.ringUnits else s
    s.updIng

/-- Every INGEST of a job that is in progress or waits completes with ABORTED (R134). -/
def State.abortIngests (s : State) : State :=
  let s := s.ing.jobs.foldl (fun s j => s.endIngest j .aborted j.stored) s
  (s.host.started.filter (fun m => m.opc == 0x22)).foldl (fun s m => s.complete m .aborted) s

end Sys2Proof.Machine
end

