-- ==== Sys2Proof/Machine/Gates.lean ====
section
/-! DEFINITION. Role gates, descriptors, claims and heartbeats (R27 to R31, R45, R69, R74, R436, R439, R444, R445). -/

namespace Sys2Proof.Machine

/-- Starts the interval of the holder of role `r` anew, or ends it while the role has no holder (R439). -/
def State.startBeat (s : State) (r : Nat) : State :=
  let t := if (s.holderOf r).isSome then some s.now else none
  { s with spr := { s.spr with beatAt := Tab.put (fun _ => none) s.spr.beatAt r t,
                               missed := Tab.put (fun _ => false) s.spr.missed r false } }

/-- Raises the role record of `r` to a higher claim (R436). A change of holder restarts the interval (R439); in a warm pair
whose holder missed its beat and has not beaten since, the old holder is halted when the standby's claim is recorded (R445). -/
def State.raiseRecord (s : State) (r : Nat) (claim : Word) : State :=
  if claim.toNat ≤ s.get F.SPR_RCLAIM_CLAIM r then s
  else
    let old := s.holderOf r
    let missed := Tab.get (fun _ => false) s.spr.missed r
    let s := s.set F.SPR_RCLAIM_CLAIM claim.toNat r
    if s.holderOf r = old then s
    else
      let s := s.startBeat r
      if s.on F.SPR_RCTL_PAIR r && s.holderOf r == some (s.get F.SPR_RCTL_STBY r) && missed then
        match old with
        | some e => s.setEstate e esHalted
        | none => s
      else s

/-- The engine addresses of R35 that hold descriptors: the local store, or Tarn. -/
def inLocal (a n : Nat) : Bool := a + n ≤ localSize
def inTarn (a n : Nat) : Bool := 0x10000000 ≤ a && a + n ≤ 0x10000000 + tarnSize

/-- A read of bytes at an engine address in the local store or in Tarn. -/
def State.readEng (s : State) (e a n : Nat) : ReadRes :=
  if a < localSize then s.readLocal e a n else s.readTarn (a - 0x10000000) n

/-- The `k`-th little-endian 32-bit word of some bytes. -/
def wordAt (bs : List Byte) (k : Nat) : Word := w32 (leNat ((bs.drop (4 * k)).take 4))

/-- The descriptor that DESC issues from 32 bytes of memory (R29, R69). -/
def mkDesc (s : State) (e : Nat) (bs : List Byte) : Desc :=
  let w0 := wordAt bs 0
  { op := BitVec.ofNat 8 (fieldOf w0 24 8), role := BitVec.ofNat 4 (s.roleOf e), fence := fieldOf w0 19 1 == 1,
    cev := fieldOf w0 18 1 == 1, tag := BitVec.ofNat 16 (fieldOf w0 0 16), claim := (s.engine e).claim,
    line := (s.engine e).line, w4 := wordAt bs 4, w5 := wordAt bs 5, w6 := wordAt bs 6, w7 := wordAt bs 7,
    engine := e, at_ := s.now, done := false }

/-- Whether a gate id names a gate (R27), one that is not disabled by fuse (R2). -/
def State.gateExists (s : State) (g : Nat) : Bool :=
  g ≤ 0x21 && !(0x19 ≤ g && g ≤ 0x20 && s.fused8816)

/-- DESC (R69): FN must be 0; the descriptor is presented at the gate and the engine waits until the gate decides. -/
def doDesc (e : Eng) (w : FmtA) (s : State) : State :=
  s.execA 0x59 e w (w.fn = 0) fun s =>
    let x := s.engine e
    let a := (x.reg w.a.toNat)
    let g := (x.reg w.b.toNat).toNat % 256
    if !s.holds e then s.trap e .norole 0x59 1
    else if !s.gateExists g then s.setD e w.d 3
    else if a.toNat % 32 ≠ 0 then s.trap e .align a 1
    else if !(inLocal a.toNat 32 || inTarn a.toNat 32) then s.trap e .space a 1
    else
      let r := s.readEng e a.toNat 32
      let s := r.st
      if r.bad then s.trap e .uncorrData a 1
      else
        let s := s.setGate g { s.gate g with presented := (s.gate g).presented ++ [mkDesc s e r.bytes] }
        s.setEngine e { s.engine e with stall := some (.desc g w.d) }

def execDesc (e : Eng) (w : FmtA) (s : State) : Host.Outcome State Fault Refusal := .next (doDesc e w s)

/-- GCLM (R69): the recorded claim of a gate, 0 for an id without a gate. -/
def doGclm (e : Eng) (w : FmtA) (s : State) : State :=
  s.execA 0x5A e w true fun s =>
    let g := ((s.engine e).reg w.a.toNat).toNat % 256
    s.setD e w.d (if s.gateExists g then (s.gate g).claim.setWidth 64 else 0)

def execGclm (e : Eng) (w : FmtA) (s : State) : Host.Outcome State Fault Refusal := .next (doGclm e w s)

/-- Ends a DESC with its result: 0 ACCEPTED, 1 STALE, 2 WRONGROLE (R69). -/
def State.endDesc (s : State) (e : Nat) (result : DWord) : State :=
  match (s.engine e).stall with
  | some (.desc _ d) => (s.setEngine e { s.engine e with stall := none }).setD e d result
  | _ => s

/-- LAST(b) of a BAR gate (R444). -/
def State.lastLine (s : State) (b : Nat) : Nat := s.get64 F.SPR_LASTLO_LINE F.SPR_LASTHI_LINE b

/-- A descriptor accepted by a gate: the recorded claim and the role record rise (R28, R436), and the descriptor is queued.
A BAR gate does no work for a duplicate line (R444). -/
def State.acceptDesc (s : State) (g : Nat) (d : Desc) : State :=
  let gt := s.gate g
  let s := if gt.claim.toNat < d.claim.toNat then
      (s.setGate g { gt with claim := d.claim }).raiseRecord (gateRole g) d.claim
    else s
  if 1 ≤ g ∧ g ≤ 8 ∧ d.line.toNat < s.lastLine (g - 1) then
    let s := s.bump F.SPR_DUPCNT_COUNT
    if d.cev then s.postEvent (0x0C0 + g) else s
  else
    let s := if 1 ≤ g ∧ g ≤ 8 then s.set64 F.SPR_LASTLO_LINE F.SPR_LASTHI_LINE (d.line.toNat + 1) (g - 1) else s
    s.setGate g { s.gate g with queue := (s.gate g).queue ++ [{ d with at_ := s.now }] }

/-- GATE_GRANT (R28, R30): the gate grants the descriptor that engine `e` presents. While its queue is full it grants
none. -/
def doGateGrant (g : Fin 34) (e : Eng) (s : State) : State :=
  let gt := s.gate g
  match gt.presented.find? (fun d => d.engine == e.val) with
  | none => s
  | some d =>
    if 16 ≤ gt.queue.length then s
    else
      let s := s.setGate g { gt with presented := gt.presented.filter (fun x => x.engine ≠ e.val) }
      if d.role.toNat ≠ gateRole g then
        (s.report C.eng_gate_stale (mkArg none (some g.val) d.claim.toNat)).endDesc e 2
      else if d.claim.toNat < gt.claim.toNat then
        (s.report C.eng_gate_stale (mkArg none (some g.val) d.claim.toNat)).endDesc e 1
      else (s.acceptDesc g d).endDesc e 0

def execGateGrant (g : Fin 34) (e : Eng) (s : State) : Host.Outcome State Fault Refusal := .next (doGateGrant g e s)

/-- Whether the unit behind a gate marks its descriptors as finished by rows of its own (BAR, FIRE and CAM gates). -/
def gateMarks (g : Nat) : Bool := (1 ≤ g && g ≤ 16) || g == 0x21

/-- Marks the oldest descriptor of a gate as finished. -/
def State.markDone (s : State) (g : Nat) : State :=
  match (s.gate g).queue with
  | [] => s
  | d :: rest => s.setGate g { s.gate g with queue := { d with done := true } :: rest }

/-- UNIT_COMPLETION (R31): the oldest descriptor leaves the queue, and its completion event is posted when CEV is 1. -/
def doUnitCompletion (g : Fin 34) (s : State) : State :=
  match (s.gate g).queue with
  | [] => s
  | d :: rest =>
    if (gateMarks g && !d.done) || (s.gate g).stopped then s
    else
      let s := s.setGate g { s.gate g with queue := rest }
      if d.cev then s.postEvent (0x0C0 + g.val) else s

/-- UNIT_STALL (R45): the independent timer finds an accepted descriptor held longer than STALLTO; the unit stops. -/
def doUnitStall (g : Fin 34) (s : State) : State :=
  match (s.gate g).queue with
  | [] => s
  | d :: _ =>
    let t := max 1 (s.get F.ENG_STALLTO_TIMEOUT)
    if (s.gate g).stopped || !(d.at_ + t * 1000 < s.now) then s
    else (s.setGate g { s.gate g with stopped := true }).report C.eng_unit_stall (mkArg none (some g.val) d.tag.toNat)

def execUnitStall (g : Fin 34) (s : State) : Host.Outcome State Fault Refusal := .next (doUnitStall g s)

/-- CLAIM (R74): the claim is (epoch << 5) | engine number. -/
def doClaim (e : Eng) (w : FmtA) (s : State) : State :=
  s.execA 0x6A e w true fun s =>
    let x := s.engine e
    let r := (x.reg w.a.toNat).toNat % 16
    let ep := x.reg w.b.toNat
    if ep = 0 ∨ 2 ^ 27 ≤ ep.toNat then s.trap e .claimRange ep 1
    else if !x.roles.getLsbD r then s.trap e .claimRange (w64 r) 1
    else
      let c := w32 (ep.toNat * 32 + e.val)
      let s := (s.set F.ENG_ESTAT_ROLE r e).set F.ENG_ESTAT_HOLDS 1 e
      (s.setEngine e { x with claim := c }).setD e w.d (c.setWidth 64)

def execClaim (e : Eng) (w : FmtA) (s : State) : Host.Outcome State Fault Refusal := .next (doClaim e w s)

/-- YIELD (R74): gives up claim and role; the gates keep their recorded claims. -/
def doYield (e : Eng) (w : FmtA) (s : State) : State :=
  s.execA 0x6B e w true fun s =>
    let s := (s.set F.ENG_ESTAT_ROLE 0 e).set F.ENG_ESTAT_HOLDS 0 e
    s.retire e { s.engine e with claim := 0 } 1

def execYield (e : Eng) (w : FmtA) (s : State) : Host.Outcome State Fault Refusal := .next (doYield e w s)

/-- The interval of each role below `n` whose holder or standby is `e` starts anew (R439, R445). -/
def beatRoles (e : Nat) : Nat → State → State
  | 0, s => s
  | n + 1, s =>
    let s := beatRoles e n s
    let s := if s.holderOf n = some e then s.startBeat n else s
    if s.on F.SPR_RCTL_PAIR n && s.get F.SPR_RCTL_STBY n == e then
      { s with spr := { s.spr with stbyAt := Tab.put (fun _ => none) s.spr.stbyAt n (some s.now) } }
    else s

/-- BEAT (R439): a write of SPR.BEAT by an engine; a write from any other accessor does not count. -/
def doBeat (by_ : Accessor) (s : State) : State :=
  match by_ with
  | .host => s
  | .engine e => beatRoles e 16 s

def execBeat (by_ : Accessor) (s : State) : Host.Outcome State Fault Refusal := .next (s.busWrite 0x11000c (fun s => doBeat by_ s))

/-- The roles below `n` whose holder is `e`. -/
def heldRoles (s : State) (e : Nat) : Nat → List Nat
  | 0 => []
  | n + 1 => heldRoles s e n ++ (if s.holderOf n = some e then [n] else [])

/-- Sets an engine's bit in SPR.FAILED. -/
def State.setFailed (s : State) (e : Nat) : State :=
  s.set F.SPR_FAILED_ENG (Nat.lor (s.get F.SPR_FAILED_ENG) (2 ^ e))

/-- GIVEUP (R439): the engine is marked failed; for a holder of roles each of them is taken over. -/
def doGiveup (by_ : Accessor) (s : State) : State :=
  match by_ with
  | .host => s
  | .engine e =>
    let s := s.setFailed e
    match heldRoles s e 16 with
    | [] => s.report C.spr_diag_fail (mkArg none none e.val)
    | rs => rs.foldl (fun s r => (s.report C.spr_diag_fail (mkArg none (some r) e.val)).triggerTake r) s

def execGiveup (by_ : Accessor) (s : State) : Host.Outcome State Fault Refusal := .next (s.busWrite 0x110010 (fun s => doGiveup by_ s))

/-- ASSERT (R436): a claim above the record, by an engine that holds the role. -/
def doAssert (by_ : Accessor) (v : Word) (s : State) : State :=
  match by_ with
  | .host => s
  | .engine e => if s.holds e then s.raiseRecord (s.roleOf e) v else s

def execAssertClaim (by_ : Accessor) (v : Word) (s : State) : Host.Outcome State Fault Refusal := .next (s.busWrite 0x110014 (fun s => doAssert by_ v s))

/-- Appends a message from the sequencer (s.msrc 0x1F) to an engine's mailbox, when it has room, and posts its event. -/
def State.seqMail (s : State) (t : Nat) (lo hi : DWord) : State :=
  let y := s.engine t
  if 16 ≤ y.mailbox.length then s
  else (s.setEngine t { y with mailbox := y.mailbox ++ [{ src := 0x1F, lo := lo, hi := hi }] }).postEvent (0x090 + t)

/-- The heartbeat limit of a role in µs (R448). -/
def State.hbto (s : State) (r : Nat) : Nat := max 1 (s.get F.SPR_RCTL_HBTO r)

/-- HEARTBEAT_TIMEOUT (R439, R445) of role `r`: of the holder, or of the warm standby. -/
def doHeartbeatTimeout (r : Fin 16) (standby : Bool) (s : State) : State :=
  match s.holderOf r with
  | none => s
  | some h =>
    let pair := s.on F.SPR_RCTL_PAIR r
    let stby := s.get F.SPR_RCTL_STBY r
    let start := Tab.get (fun _ => none) (if standby then s.spr.stbyAt else s.spr.beatAt) r.val
    match start with
    | none => s
    | some t =>
      if !s.on F.SPR_RCTL_WATCH r || (standby && !pair) || !s.elapsedUs t (s.hbto r) || s.takeoverBusy r then s
      else if !pair then
        let s := { s with spr := { s.spr with beatAt := Tab.put (fun _ => none) s.spr.beatAt r.val none } }
        (s.report C.spr_hb_lost (mkArg none (some r.val) h)).triggerTake r
      else
        let missedEng := if standby then stby else h
        let other := if standby then h else stby
        let s := if standby then { s with spr := { s.spr with stbyAt := Tab.put (fun _ => none) s.spr.stbyAt r.val none } }
          else { s with spr := { s.spr with beatAt := Tab.put (fun _ => none) s.spr.beatAt r.val none,
                                            missed := Tab.put (fun _ => false) s.spr.missed r.val true } }
        (s.seqMail other (w64 (r.val + 0x100)) (w64 missedEng)).report C.spr_hb_lost (mkArg none (some r.val) missedEng)

def execHeartbeatTimeout (r : Fin 16) (standby : Bool) (s : State) : Host.Outcome State Fault Refusal :=
  .next (doHeartbeatTimeout r standby s)

end Sys2Proof.Machine
end

