-- ==== Sys2Proof/Machine/LinkOps.lean ====
section
/-! DEFINITION. Shared operations of the head links: control messages and their tokens (R289, R293, R305), segment states
(R315), and what the device computes from the declarations of the segments (R241, R516). -/

namespace Sys2Proof.Machine

/-! ### Messages -/

/-- A downstream message header (R289). -/
def dnHeader (mtype len dst arg : Nat) : Word := w32 (mtype * 2 ^ 26 + len * 2 ^ 20 + dst * 2 ^ 12 + arg)

/-- A whole downstream message. -/
def dnMsg (mtype dst arg : Nat) (body : List Word) : List Word := dnHeader mtype body.length dst arg :: body

/-- A token that none of the unanswered messages carries, from `t` on (R305). -/
def freeToken (ps : List Pend) : (fuel t : Nat) → Nat
  | 0, t => t % 4096
  | k + 1, t => if ps.any (fun p => p.tok == t % 4096) then freeToken ps k (t + 1) else t % 4096

/-- Queues a control message that is not acknowledged. -/
def State.sendPlain (s : State) (p mtype dst arg : Nat) (body : List Word) : State :=
  let x := s.port p
  s.setPort p { x with ctlQ := x.ctlQ ++ [dnMsg mtype dst arg body] }

/-- Queues a control message that its recipient acknowledges, under a new token (R305). -/
def State.sendAcked (s : State) (p mtype dst : Nat) (body : List Word) : State :=
  let x := s.port p
  let tok := freeToken x.pend x.pend.length x.nextTok
  let m := dnMsg mtype dst tok body
  s.setPort p { x with ctlQ := x.ctlQ ++ [m], nextTok := (tok + 1) % 4096,
                       pend := x.pend ++ [{ tok := tok, mtype := mtype, dst := dst, words := m, due := none, tries := 0 }] }

/-- The drop depth of bar `b` in bits (SCN.CTL.DEPTH). -/
def State.depth (s : State) (b : Nat) : Nat := min 4 (s.get F.SCN_CTL_DEPTH b + 2)

/-- The bar that owns the port of a segment. -/
def State.segBar (s : State) (sg : Nat) : Option Nat := frameOwner s.liveFrame (sg / 128)

/-- The block number BLK of a segment (R295). -/
def State.blkOf (s : State) (sg : Nat) : Nat := (s.portSegs (sg / 128)).findIdx (· == sg % 128)

/-- SETUP to a segment (R306). -/
def State.sendSetup (s : State) (sg : Nat) : State :=
  let b := (s.segBar sg).getD 0
  let w1 := s.get F.FIRE_THEAD_HARD * 2 ^ 24 + s.get F.FIRE_THEAD_HYS * 2 ^ 20 + s.get F.FIRE_GCFG_TELLINES * 2 ^ 12 +
    s.get F.FIRE_DERATE_WTRIM
  let w2 := s.blkOf sg % 128 * 2 ^ 25 + s.get F.SCN_CTL_DEPTH b * 2 ^ 20
  s.sendAcked (sg / 128) 0x0A (sg % 128) [w32 w1, w32 w2]

/-- CAPQ, PING, ADMIT and DERATE to a segment (R293). -/
def State.sendCapq (s : State) (sg : Nat) : State := s.sendAcked (sg / 128) 0x09 (sg % 128) []
def State.sendPing (s : State) (sg : Nat) : State := s.sendAcked (sg / 128) 0x0C (sg % 128) []
def State.sendAdmit (s : State) (sg : Nat) : State := s.sendAcked (sg / 128) 0x0E (sg % 128) []
def State.sendDerate (s : State) (sg : Nat) (on : Bool) : State :=
  s.sendAcked (sg / 128) 0x0B (sg % 128) [if on then 1 else 0]

/-- QUIET(n) to a segment (R293, R319). -/
def State.sendQuiet (s : State) (sg n : Nat) : State :=
  s.sendPlain (sg / 128) 0x0D (sg % 128) 0 [w32 n, w32 (n / 2 ^ 32)]

/-- The four words of a 128-bit segment mask, bit q of the mask in word q div 32. -/
def maskWords (mask : Nat) : List Word := (List.range 4).map (fun i => w32 (mask / 2 ^ (32 * i)))

/-- UNSTAGE of a group's data to the masked segments of a port (R293). -/
def State.sendUnstage (s : State) (p mask g : Nat) : State := s.sendAcked p 0x11 0xFD (maskWords mask ++ [w32 g])

/-- The 32-bit little-endian words of a list of bytes. -/
def bytesToWords : List Byte → List Word
  | a :: b :: c :: d :: t => w32 (leNat [a, b, c, d]) :: bytesToWords t
  | [] => []
  | l => [w32 (leNat l)]

/-- The STAGE series of a block (R307): at most 51 data words in each message. -/
def stageMsgs (g param : Nat) (total mask line : Nat) : (fuel off : Nat) → List Word → List (List Word)
  | 0, _, _ => []
  | _, _, [] => []
  | k + 1, off, ws =>
    let part := ws.take 51
    dnMsg 0x10 0xFD 0 ([w32 (param * 2 ^ 16 + g * 2 ^ 10), w32 (total * 2 ^ 16 + off)] ++ maskWords mask ++
      [w32 line, w32 (line / 2 ^ 32)] ++ part) :: stageMsgs g param total mask line k (off + 204) (ws.drop 51)

/-- Queues the STAGE series of a block for the segments of `mask` (R307). -/
def State.sendStage (s : State) (g line : Nat) (b : StagedBlock) (mask : Nat) : State :=
  let x := s.port b.port
  let ws := bytesToWords b.data
  let ms := stageMsgs g b.param.toNat b.data.length mask line (ws.length + 1) 0 ws
  s.setPort b.port { x with ctlQ := x.ctlQ ++ ms }

/-! ### Declarations of the segments -/

/-- The waveform slot a segment declared: valid, depth, rate, lead. -/
def Seg.slot (x : Seg) (k : Nat) : Bool × Nat × Nat × Nat :=
  match x.slots.find? (fun e => e.1 == k) with
  | some (_, v, d, r, l) => (v, d, r, l)
  | none => (false, 0, 0, 0)

/-- The active slot of the segment's bar, as the segment declared it. -/
def State.activeSlot (s : State) (sg : Nat) : Bool × Nat × Nat × Nat :=
  (s.seg sg).slot (s.get F.FIRE_CTL_SLOT ((s.segBar sg).getD 0))

/-- The fire rate a segment declares for its bar's active slot (R516): 0 when the slot is not valid or has another depth. -/
def State.segRate (s : State) (sg : Nat) : Nat :=
  let (v, d, r, _) := s.activeSlot sg
  if v && d == s.depth ((s.segBar sg).getD 0) then r else 0

/-- The drop-depth limit of R21, in lines/s. -/
def depthLimit (d : Nat) : Nat := if d ≤ 2 then 100000 else if d = 3 then 66670 else 50000

/-- f_max of a bar (R516). -/
def State.fmax (s : State) (b : Nat) : Nat :=
  (s.barSegs b).foldl (fun a sg => if s.segState sg == sgActive && s.segen sg then min a (s.segRate sg) else a)
    (depthLimit (s.depth b))

/-- TMIN and TBURST of a bar computed again (R516). -/
def State.setRates (s : State) (b : Nat) : State :=
  let f := s.fmax b
  if f = 0 then (s.set F.FIRE_TMIN_LTU 0xFFFFFF b).set F.FIRE_TBURST_LTU 0xFFFFFF b
  else
    let tmin := min 0xFFFFFF (cdiv 1757812500 f)
    (s.set F.FIRE_TMIN_LTU tmin b).set F.FIRE_TBURST_LTU (cdiv (tmin * 10) 11) b

/-- FIRE.SEGLEAD (R241): the largest lead that a linked segment declares for its active slot. -/
def State.setSegLead (s : State) : State :=
  let lead := s.allSegs.foldl (fun a sg =>
    if s.segState sg == sgActive || s.segState sg == sgStandby then max a (s.activeSlot sg).2.2.2 else a) 0
  s.set F.FIRE_SEGLEAD_LTU (min lead 0xFFFFFF)

/-- FIRE.HORIZON(b).EFF from SET and hmin (R241). -/
def State.setEff (s : State) (b : Nat) : State :=
  s.set F.FIRE_HORIZON_EFF (min 65535 (max (s.get F.FIRE_HORIZON_SET b) ((s.fireBar b).hmin + 32))) b

/-- hmin of a bar computed again (R241). -/
def State.setHmin (s : State) (b : Nat) : State :=
  let pd := (s.barPorts b).foldl (fun a p => max a (s.get F.FIRE_PDLY_DLY p)) 0
  let s := s.setFireBar b { s.fireBar b with hmin := s.get F.FIRE_SEGLEAD_LTU + pd + 1758 }
  s.setEff b

/-- HLK.PSTAT(p).BUFDMIN (R316): the least BUFD of the port's Active segments, 0 without one. -/
def State.setBufdMin (s : State) (p : Nat) : State :=
  let bs := ((List.range 128).filter (fun q => s.segState (p * 128 + q) == sgActive)).map
    (fun q => s.get F.HLK_SEG_BUFD (p * 128 + q))
  s.set F.HLK_PSTAT_BUFDMIN ((listMin? bs).getD 0) p

/-- What depends on the segment set of a port, computed again. -/
def State.segSetChanged (s : State) (p : Nat) : State :=
  let s := (s.setBufdMin p).setSegLead
  match frameOwner s.liveFrame p with
  | some b => s.setRates b
  | none => s

/-- A segment enters a state (R315), with the action of its row. -/
def State.setSegState (s : State) (sg st : Nat) : State :=
  let s := s.set F.HLK_SEG_STATE st sg
  let s := if st = sgPresent then s.sendCapq sg else if st = sgStandby then s.sendSetup sg else s
  s.segSetChanged (sg / 128)

/-! ### Losing a port -/

/-- SERIAL and SLOTGEN of a CAP descriptor (R311). -/
def capSerial (cap : List Word) : Nat := (cap.getD 2 0).toNat + 2 ^ 32 * (cap.getD 3 0).toNat
def capSlotgen (cap : List Word) : Nat := (cap.getD 6 0).toNat

/-- Every segment of the port becomes Absent (R315); the identity of those that were admitted is held for the relink. -/
def segsAbsent (p : Nat) : Nat → State → State
  | 0, s => s
  | n + 1, s =>
    let s := segsAbsent p n s
    let sg := p * 128 + n
    let x := s.seg sg
    let s := if x = Seg.reset then s else
      s.setSeg sg { x with held := if x.cap = [] then x.held else some (capSerial x.cap, capSlotgen x.cap),
                           cap := [], slots := [], capAt := none, pingMiss := 0, joinGroup := none }
    if s.segState sg = sgAbsent then s else s.set F.HLK_SEG_STATE sgAbsent sg

/-- What a port going down or EN written 0 does to its segments, messages and lines (R315). -/
def State.dropSegments (s : State) (p : Nat) : State :=
  let s := segsAbsent p 128 s
  let x := s.port p
  -- an unanswered LOADREQ runs into its timeouts all the same, so that MEAS_LOAD completes (R462)
  let load := (x.pend.filter (fun q => q.mtype == 0x12)).map (fun q =>
    { q with due := some (q.due.getD (s.now + 1000000 * max 1 (s.get F.SENS_LTO_MS))) })
  let s := s.setPort p { x with fireQ := [], resendQ := [], ctlQ := [], feed := none, sent := [], pend := load, epoch := none }
  (s.set F.HLK_PSTAT_BNSTATE 0 p).segSetChanged p

/-- A port goes down with EN = 1 (R272): frames stop, and a new link-up starts after 100 µs. -/
def State.portDown (s : State) (p : Nat) : State :=
  let x := s.port p
  let s := s.setPort p { x with pauseEnd := some (s.now + 100000), lane := none, cal := none, upBad := 0, inj := none }
  let s := (((s.set F.HLP_STAT_STATE 0 p).set F.HLP_STAT_MODE 3 p).calEndPort p).set F.HLP_STAT_PRE 0 p
  let s := (((s.set F.HLP_STAT_LOCKA 0 p).set F.HLP_STAT_LOCKB 0 p).set F.HLP_STAT_LOCKU 0 p).set F.HLP_STAT_CLK 0 p
  (s.dropSegments p).report C.hlp_port_down (mkArg none (some p) 0)

end Sys2Proof.Machine
end

