-- ==== Sys2Proof/Machine/Web.lean ====
section
/-! DEFINITION. The encoder inputs: counting, speed, standstill, reversal, index, stretch and bar positions (R221 to R231). -/

namespace Sys2Proof.Machine

/-- The count of one quadrature change from (A, B) to (A', B') with DIR = 0 (R222): A leading B counts +1. -/
def quadCount (a b a' b' : Bool) : Int :=
  if a ≠ a' then (if a' = b then -1 else 1) else (if b' = a then 1 else -1)

/-- The speed magnitude of R228 for `k` intervals spanning `s` samples. -/
def speedMag (k scale s : Nat) : Nat := (k * scale * 250000 + 128 * s) / (256 * s) % 2 ^ 32

/-- NAV, at least 1 (R235). -/
def State.nav (s : State) : Nat := max 1 (s.get F.ENC_SPDCFG_NAV)
/-- WIN of the speed windows in µs, between its limits (R235). -/
def State.speedWin (s : State) : Nat := clampN 10 1000 (s.get F.ENC_SPDCFG_WIN)

/-- The sum of a list of intervals. -/
def sumN : List Nat → Nat
  | [] => 0
  | a :: t => a + sumN t

/-- Sets ENC.SPEED(k) from a magnitude and a direction (R228). -/
def State.setSpeed (s : State) (k mag : Nat) (neg : Bool) : State :=
  s.set F.ENC_SPEED_VALUE (ofSigned 32 (if neg then -(mag : Int) else (mag : Int))) k

/-- The speed in PERIOD mode from the intervals kept, newest first (R227). -/
def State.periodSpeed (s : State) (k : Nat) (ivs : List Nat) (neg : Bool) : State :=
  let used := ivs.take s.nav
  if used.isEmpty ∨ sumN used = 0 then s
  else s.setSpeed k (speedMag used.length (s.get F.ENC_SCALE_SCALE k) (sumN used)) neg

/-- Adds the share of the stretch of a change of the reference position to every bar's accumulator (R231). -/
def accumulate (dp e : Int) (lambda : Nat → Nat) : Nat → Tab Int → Tab Int
  | 0, t => t
  | n + 1, t =>
    let t := accumulate dp e lambda n t
    Tab.put (fun _ => 0) t n (Tab.get (fun _ => 0) t n + (dp * lambda n * e) / 2 ^ 40)

/-- The signed difference of two 80-bit positions. -/
def posDiff (a b : Nat) : Int := toSigned 80 ((a + 2 ^ 80 - b % 2 ^ 80) % 2 ^ 80)

/-- The stretch estimate after a window of advances d0 and d1 (R230). -/
def stretchNext (d0 d1 : Int) (sh : Nat) (e : Int) : Int := e + (((d1 - d0) * 2 ^ 24).tdiv d0 - e) / 2 ^ sh

/-- The stretch limit of R230. -/
def stretchLim (lim : Nat) : Int := ((lim * 16777216 + 500000) / 1000000 : Nat)

/-- A forward or backward counted edge as the stretch window sees it (R230): ENC0 carries the window, a reversal of either
encoder discards it. -/
def State.stretchEdge (s : State) (k : Nat) (reversed forward : Bool) : State :=
  if !s.on F.ENC_GCTL_SCOMP || s.on F.ENC_GCTL_REF then s
  else
    let discard : State := { s with str := { s.str with open_ := false } }
    if reversed || !forward then discard
    else if k ≠ 0 then s
    else
      let p0 := (s.encoder 0).pe
      let p1 := (s.encoder 1).pe
      let start := fun (s : State) => { s with str := { s.str with open_ := true, p0 := p0, p1 := p1 } }
      if !s.str.open_ then start s
      else
        let d0 := posDiff p0 s.str.p0
        let win := max 1 (s.get F.ENC_STRCFG_WIN) * 65536 * 65536
        if d0 < win then s
        else if s.on F.ENC_STAT_LOS 1 then start s
        else
          let e := stretchNext d0 (posDiff p1 s.str.p1) (s.get F.ENC_STRCFG_SH) (s.getI F.ENC_STRETCH_VALUE)
          let lim := stretchLim (s.get F.ENC_STRCFG_LIM)
          let s := start (s.set F.ENC_STRETCH_VALUE (ofSigned 32 (clampI (-lim) lim e)))
          if lim < e ∨ e < -lim then s.report C.enc_stretch_range (mkArg none (some 0) 0) else s

/-- One counted edge of encoder `k` (R222, R227 to R231). -/
def State.countEdge (s : State) (k : Nat) (neg : Bool) : State :=
  let x := s.encoder k
  let n := s.sample
  let scale := s.get F.ENC_SCALE_SCALE k
  let pe := (if neg then x.pe + 2 ^ 80 - scale else x.pe + scale) % 2 ^ 80
  let first := s.on F.ENC_STAT_STILL k || x.lastEdge.isNone
  let unknown := s.on F.ENC_STAT_UNKNOWN k
  let iv := n - x.lastEdge.getD n
  let reversed := !first && (s.on F.ENC_STAT_DIRN k != neg)
  -- position, direction, edge rate
  let s := s.set F.ENC_STAT_DIRN neg.toNat k
  let s := if !first && iv < 10 then
      (s.set F.ENC_STAT_RATE 1 k).reportLimited C.enc_edge_rate k 1000000 (mkArg none (some k) 0)
    else s
  -- the window of R227
  let mixed := x.winMixed || (0 < x.winEdges && x.winDirNeg != neg)
  let x := { x with pe := pe, lastEdge := some n, winEdges := x.winEdges + 1,
                    winFirst := if x.winEdges = 0 then n else x.winFirst, winLast := n, winMixed := mixed, winDirNeg := neg,
                    idxNet := x.idxNet.map (· + (if neg then -1 else 1)), restart := false }
  let restart := (s.encoder k).restart
  -- the speed rules of R229
  let s :=
    if first then
      (s.setEncoder k { x with intervals := [], settle := 0 }).set F.ENC_STAT_STILL 0 k
    else if unknown then
      if reversed then s.setEncoder k { x with intervals := [] }
      else ((s.setEncoder k { x with intervals := [iv] }).periodSpeed k [iv] neg).set F.ENC_STAT_UNKNOWN 0 k
    else if reversed then
      (((s.setEncoder k { x with intervals := [iv], settle := 0 }).periodSpeed k [iv] neg).set F.ENC_STAT_SETTLING 1 k).set
        F.ENC_STAT_MODE 0 k
    else
      let ivs := if restart then [] else (iv :: x.intervals).take 15
      let settle := if s.on F.ENC_STAT_SETTLING k then x.settle + 1 else 0
      let s := s.setEncoder k { x with intervals := ivs, settle := settle }
      let s := if s.on F.ENC_STAT_MODE k then s else s.periodSpeed k ivs neg
      if s.on F.ENC_STAT_SETTLING k && s.nav ≤ settle then s.set F.ENC_STAT_SETTLING 0 k else s
  -- the accumulators of R231 and the window of R230
  let s := if s.refEnc = k && s.on F.ENC_GCTL_SCOMP then
      let dp : Int := if neg then -(scale : Int) else (scale : Int)
      { s with str := { s.str with acc := accumulate dp (s.getI F.ENC_STRETCH_VALUE) (fun b => s.get F.ENC_LAMBDA_LAMBDA b)
                                            8 s.str.acc } }
    else s
  s.stretchEdge k reversed (!neg)

/-- ENCODER_EDGE (R222): the filtered lines A and B of encoder `k` take new levels; they are counted while CTL.EN is 1. -/
def doEncoderEdge (k : Fin 2) (a b : Bool) (s : State) : State :=
  if s.on F.ENC_STAT_LOS k then s
  else
    let x := s.encoder k
    let a0 := x.lines.getLsbD 0
    let b0 := x.lines.getLsbD 1
    let s := s.setEncoder k { x with lines := BitVec.ofNat 3 (a.toNat + 2 * b.toNat + 4 * (x.lines.getLsbD 2).toNat) }
    if !s.on F.ENC_CTL_EN k ∨ (a = a0 ∧ b = b0) then s
    else if a ≠ a0 ∧ b ≠ b0 then
      let s := s.setEncoder k { s.encoder k with restart := true }
      let s := ((s.bump F.ENC_ILLCNT_VALUE 1 k).set F.ENC_STAT_ILL 1 k)
      let s := { s with str := { s.str with open_ := false } }
      s.reportLimited C.enc_illegal k 1000000 (mkArg none (some k.val) 0)
    else
      let c := quadCount a0 b0 a b
      s.countEdge k (if s.on F.ENC_CTL_DIR k then 0 < c else c < 0)

def execEncoderEdge (k : Fin 2) (a b : Bool) (s : State) : Host.Outcome State Fault Refusal := .next (doEncoderEdge k a b s)

/-- SIGNAL_LOSS (R222): the lines are held and STAT.LOS is set while the condition lasts. -/
def doSignalLoss (k : Fin 2) (s : State) : State :=
  if s.on F.ENC_STAT_LOS k then s
  else
    let s := { s.set F.ENC_STAT_LOS 1 k with str := { s.str with open_ := false } }
    s.report C.enc_signal_loss (mkArg none (some k.val) 0)

def execSignalLoss (k : Fin 2) (s : State) : Host.Outcome State Fault Refusal := .next (doSignalLoss k s)

/-- ENCODER_SIGNAL_RETURN (R222): STAT.LOS clears. -/
def doEncoderSignalReturn (k : Fin 2) (s : State) : State := s.set F.ENC_STAT_LOS 0 k

def execEncoderSignalReturn (k : Fin 2) (s : State) : Host.Outcome State Fault Refusal := .next (doEncoderSignalReturn k s)

/-- INDEX_EDGE (R223): a rising edge of filtered Z latches the position and checks the count since the last index. -/
def doIndexEdge (k : Fin 2) (s : State) : State :=
  if !s.on F.ENC_CTL_EN k || s.on F.ENC_STAT_LOS k then s
  else
    let x := s.encoder k
    let cpr := s.get F.ENC_ZCPR_VALUE k
    let s := s.set64 F.ENC_ZPOSLO_WPU F.ENC_ZPOSHI_WPU (x.pe / 65536) k
    let s := s.setEncoder k { x with idxNet := some 0 }
    match x.idxNet with
    | none => s
    | some net =>
      if cpr = 0 ∨ net = cpr then s
      else (s.set F.ENC_STAT_ZERR 1 k).report C.enc_index_mismatch (mkArg none (some k.val) (ofSigned 20 (net - cpr)))

def execIndexEdge (k : Fin 2) (s : State) : Host.Outcome State Fault Refusal := .next (doIndexEdge k s)

/-- SPEED_WINDOW_END (R227): the window of encoder `k` ends, the mode changes by its edges, and COUNT mode takes the speed of
the window. -/
def doSpeedWindowEnd (k : Fin 2) (s : State) : State :=
  let x := s.encoder k
  if !s.on F.ENC_CTL_EN k || s.sample < x.winStart + x.winLen then s
  else
    let swup := s.get F.ENC_SPDCFG_SWUP
    let swdn := min (s.get F.ENC_SPDCFG_SWDN) swup
    let mode := s.on F.ENC_STAT_MODE k
    let count : Bool := if mode then decide (swdn ≤ x.winEdges) else (decide (swup ≤ x.winEdges) && decide (0 < x.winEdges) && !x.winMixed)
    let s := s.set F.ENC_STAT_MODE count.toNat k
    let span := x.winLast - x.winFirst
    let s := if count && 1 < x.winEdges && 0 < span && !s.on F.ENC_STAT_UNKNOWN k then
        s.setSpeed k (speedMag (x.winEdges - 1) (s.get F.ENC_SCALE_SCALE k) span) (s.on F.ENC_STAT_DIRN k)
      else s
    s.setEncoder k { x with winStart := x.winStart + x.winLen, winLen := s.speedWin * 250, winEdges := 0, winMixed := false }

def execSpeedWindowEnd (k : Fin 2) (s : State) : Host.Outcome State Fault Refusal := .next (doSpeedWindowEnd k s)

/-- STANDSTILL (R229): no counted edge for ENC.STILL.US µs. -/
def doStandstill (k : Fin 2) (s : State) : State :=
  let x := s.encoder k
  match x.lastEdge with
  | none => s
  | some n =>
    if s.on F.ENC_STAT_STILL k || s.sample < n + max 1 (s.get F.ENC_STILL_US) * 250 then s
    else
      let s := ((s.set F.ENC_SPEED_VALUE 0 k).set F.ENC_STAT_STILL 1 k).set F.ENC_STAT_UNKNOWN 1 k
      let s := (s.set F.ENC_STAT_SETTLING 0 k).set F.ENC_STAT_MODE 0 k
      s.setEncoder k { x with intervals := [], settle := 0 }

def execStandstill (k : Fin 2) (s : State) : Host.Outcome State Fault Refusal := .next (doStandstill k s)

/-- A write of ENC.CTL(k) (R229, R235): when EN rises the windows start, no edge has been counted and the speed is unknown. -/
def State.writeEncCtl (s : State) (k : Nat) (v : Word) : State :=
  let was := s.on F.ENC_CTL_EN k
  let s := s.swWrite (R.ENC_CTL.off k 0) v
  if !was && s.on F.ENC_CTL_EN k then
    let x := s.encoder k
    let s := ((s.set F.ENC_SPEED_VALUE 0 k).set F.ENC_STAT_UNKNOWN 1 k).set F.ENC_STAT_MODE 0 k
    let s := s.set F.ENC_STAT_SETTLING 0 k
    s.setEncoder k { x with lastEdge := none, intervals := [], settle := 0, winEdges := 0, winMixed := false,
                            winStart := s.sample, winLen := s.speedWin * 250, restart := false, idxNet := none }
  else s

/-- A write of ENC.GCTL (R230, R231): SCOMP is ignored while Printing or Paused; a rise of SCOMP clears every accumulator;
with SCOMP = 0, or REF selecting ENC1, the estimate is 0. -/
def State.writeEncGctl (s : State) (v : Word) : State :=
  let was := s.on F.ENC_GCTL_SCOMP
  let keep := s.printingOrPaused
  let s := s.swWrite (R.ENC_GCTL.off 0 0) v
  let s := if keep then s.set F.ENC_GCTL_SCOMP was.toNat else s
  let now := s.on F.ENC_GCTL_SCOMP
  let s := if !was && now then { s with str := { s.str with open_ := false, acc := [] } } else s
  if !now || s.on F.ENC_GCTL_REF then { s.set F.ENC_STRETCH_VALUE 0 with str := { s.str with open_ := false } } else s

/-- A software load of the integer part of P_k through POSLO or POSHI, only while EN is 0; it clears the fraction (R224). -/
def State.writeEncPos (s : State) (k : Nat) (hi : Bool) (v : Word) : State :=
  if s.on F.ENC_CTL_EN k then s
  else
    let x := s.encoder k
    let wpu := x.pe / 65536
    let wpu := if hi then wpu % 2 ^ 32 + v.toNat * 2 ^ 32 else wpu / 2 ^ 32 * 2 ^ 32 + v.toNat
    s.setEncoder k { x with pe := wpu * 65536 }

/-- The levels A, B and Z of pass-through output `j` (R232): the filtered lines of its source, low while EN is 0 or the source
has lost its signal, and in Grave (R427). -/
def State.encOut (s : State) (j : Nat) : BitVec 3 :=
  let k := s.get F.ENC_PTCTL_SRC j
  if s.on F.ENC_PTCTL_EN j && !s.on F.ENC_STAT_LOS k && s.dev ≠ stGrave then (s.encoder k).lines else 0

end Sys2Proof.Machine
end

