-- ==== Sys2Proof/Machine/GroupRegs.lean ====
section
/-! DEFINITION. Writes of the registers that a commit group may carry (R85): the write rules of the IBF, SCN, FIRE, HLK, ENC and
CAM blocks (R193, R219, R254, R317, R323, R389). -/

namespace Sys2Proof.Machine

/-- Keeps the old value of a field after a write. -/
def State.keep (s : State) (off : Nat) (old : Word) (lo wid : Nat) : State :=
  s.wr off (fieldPut (s.rd off) lo wid (fieldOf old lo wid))

/-- A write of an IBF register (R193): LANES, SIZING, WEIR, LTOL and RECBASE are ignored while IBF.CTL.EN is 1. -/
def State.writeIbf (s : State) (off : Nat) (v : Word) : State :=
  let b := (off - 0x50000) / 0x1000
  let r := off % 0x1000
  if s.on F.IBF_CTL_EN b && (r == 0x8 || r == 0xC || r == 0x10 || r == 0x14 || r == 0x24) then s else s.swWrite off v

/-- The bytes of the nozzle map (R202). -/
def State.mapBytes (s : State) : Nat := if s.fused8816 then 0x200000 else 0x400000

/-- Whether screening of some bar below `n` is enabled. -/
def scnAnyEn (s : State) : Nat → Bool
  | 0 => false
  | n + 1 => scnAnyEn s n || s.on F.SCN_CTL_EN n

/-- A write of SCN.MAPBASE (R202, R219): ignored while any bar screens, or when the map would pass the end of Tarn. -/
def State.writeMapbase (s : State) (v : Word) : State :=
  if scnAnyEn s 8 || decide (tarnSize < fieldOf v 0 10 * 65536 + s.mapBytes) then s
  else s.swWrite (R.SCN_MAPBASE.off 0 0) v

/-- A write of SCN.BAND(b) (R215): GO is ignored while a band runs. -/
def State.writeBand (s : State) (b : Nat) (v : Word) : State :=
  let off := R.SCN_BAND.off b 0
  let old := s.rd off
  let s := s.swWrite off v
  if s.on F.SCN_STAT_BAND b then s.keep off old 31 1 else s

/-- SETUP again to every segment of some ports that is in Standby or Active (R306). -/
def setupPorts : List Nat → State → State
  | [], s => s
  | p :: t, s =>
    let sgs := ((List.range 128).map (p * 128 + ·)).filter
      (fun sg => s.segState sg == sgStandby || s.segState sg == sgActive)
    setupPorts t (sgs.foldl (fun s sg => s.sendSetup sg) s)

/-- A write of an SCN register (R219). -/
def State.writeScn (s : State) (off : Nat) (v : Word) : State :=
  if off = 0x60000 then s.writeMapbase v
  else if off < 0x61000 then s.swWrite off v
  else
    let b := (off - 0x61000) / 0x400
    let r := (off - 0x61000) % 0x400
    if r = 0x18 then s.writeBand b v
    else if r = 0 then
      let old := s.rd off
      let s := s.swWrite off v
      if fieldOf old 31 1 = 1 then s.keep off old 0 2
      else if fieldOf (s.rd off) 0 2 = fieldOf old 0 2 then s
      else setupPorts (s.barPorts b) (s.setRates b)
    else s.swWrite off v

/-- LEAD of the active slot into HLK.SEG of every segment of a bar (R323). -/
def State.setLeadsOf (s : State) (b : Nat) : State :=
  ((s.barSegs b).foldl (fun s sg =>
    if s.segState sg == sgAbsent then s else s.set F.HLK_SEG_LEAD (min 65535 (s.activeSlot sg).2.2.2) sg) s).setSegLead

/-- A write of a FIRE register (R241, R254, R306, R516). -/
def State.writeFire (s : State) (off : Nat) (v : Word) : State :=
  let old := s.rd off
  if off = 0x70000 ∨ off = 0x70004 ∨ off = 0x70008 then
    let s := s.swWrite off v
    let telChanged := off = 0x70000 ∧ fieldOf old 0 8 ≠ fieldOf (s.rd off) 0 8
    let thChanged := off = 0x70004 ∧ fieldOf old 16 12 ≠ fieldOf (s.rd off) 16 12
    let dChanged := off = 0x70008 ∧ old ≠ s.rd off
    if telChanged ∨ thChanged ∨ dChanged then setupPorts (List.range 16) s else s
  else if 0x70100 ≤ off ∧ off < 0x70300 then
    let b := (off - 0x70100) / 0x40
    let r := (off - 0x70100) % 0x40
    let s := s.swWrite off v
    if r = 0 then
      let s := if s.barActive b then s.keep off old 31 1 else s
      if fieldOf old 28 3 = fieldOf (s.rd off) 28 3 then s else (s.setLeadsOf b).setRates b
    else if r = 8 then s.setEff b
    else s
  else s.swWrite off v

/-- A write of HLK.SEGEN(p, w) that takes effect (R317): the segment set of the port changes. While the device prints, a segment
that leaves goes to Standby (R306, R319). -/
def State.writeSegen (s : State) (p w : Nat) (v : Word) : State :=
  let s := s.wr (R.HLK_SEGEN.off p w) v
  let left := ((List.range 32).filter (fun k => !v.getLsbD k)).map (fun k => p * 128 + 32 * w + k)
  let s := if s.printingOrPaused then
      left.foldl (fun s sg => if s.segState sg = sgActive then s.setSegState sg sgStandby else s) s
    else s
  s.segSetChanged p

/-- A write of an HLK register. -/
def State.writeHlk (s : State) (off : Nat) (v : Word) : State :=
  if 0xa1000 ≤ off ∧ off < 0xa1400 ∧ 0x10 ≤ off % 0x40 ∧ off % 0x40 < 0x20 then
    s.writeSegen ((off - 0xa1000) / 0x40) ((off % 0x40 - 0x10) / 4) v
  else s.swWrite off v

/-- A write of an ENC register (R222 to R235). -/
def State.writeEnc (s : State) (off : Nat) (v : Word) : State :=
  match regAt off with
  | some (r, k, _) =>
    if r.base = R.ENC_CTL.base then s.writeEncCtl k v
    else if r.base = R.ENC_GCTL.base then s.writeEncGctl v
    else if r.base = R.ENC_POSLO.base then s.writeEncPos k false v
    else if r.base = R.ENC_POSHI.base then s.writeEncPos k true v
    else if r.base = R.ENC_SCALE.base ∧ s.on F.ENC_CTL_EN k then s
    else s.swWrite off v
  | none => s

def State.cam (s : State) (k : Nat) : Cam := Tab.get (fun _ => Cam.reset) s.cams k
def State.setCam (s : State) (k : Nat) (x : Cam) : State := { s with cams := Tab.put (fun _ => Cam.reset) s.cams k x }

/-- A write of CAM.PCTL(k) (R371, R372, R389): FMT is kept while EN is 1; EN is refused while IOV differs from the sensed voltage; frames
are numbered from 0 when EN rises. The lines of a port that is disabled are dropped (log entry 40); its trigger targets and its gate
operations stay. -/
def State.writePctl (s : State) (k : Nat) (v : Word) : State :=
  let off := R.CAM_PCTL.off k 0
  let old := s.rd off
  let wasEn := fieldOf old 31 1 = 1
  let s := s.swWrite off v
  let s := if wasEn then s.keep off old 0 3 else s
  let x := s.cam k
  if !wasEn && s.on F.CAM_PCTL_EN k then
    if s.get F.CAM_PCTL_IOV k ≠ s.get F.CAM_PSTAT_IOSENSE k then
      ((s.set F.CAM_PCTL_EN 0 k).set F.CAM_PSTAT_IOERR 1 k).report C.cam_io_mismatch (mkArg none (some k) 0)
    else s.setCam k { x with enAt := s.now, absentRep := false, open_ := false, num := 0, received := 0, frames := [], queue := [],
                             accOf := none, prev := [], streams := [], pulse := none, pulseH := none, frameCnt := 0, dropCnt := 0 }
  else if wasEn && !s.on F.CAM_PCTL_EN k then
    (s.setCam k { x with open_ := false, received := 0, frames := [], queue := [], streams := [] }).set F.CAM_PSTAT_INFRAME 0 k
  else s

/-- A write of a CAM register (R389): GEOM and FFBASE are ignored while PCTL.EN is 1. -/
def State.writeCam (s : State) (off : Nat) (v : Word) : State :=
  let k := (off - 0xd0100) / 0x100
  let r := (off - 0xd0100) % 0x100
  if r = 0 then s.writePctl k v
  else if (r = 8 ∨ r = 0x1C) ∧ s.on F.CAM_PCTL_EN k then s
  else s.swWrite off v

/-- A write of a register of a groupable block (R85), with the write rules of its block; a register disabled by fuse ignores it
(R2). -/
def State.blockWrite (s : State) (off : Nat) (v : Word) : State :=
  if s.fused off then s
  else match off / 0x10000 with
    | 0x5 => s.writeIbf off v
    | 0x6 => s.writeScn off v
    | 0x7 => s.writeFire off v
    | 0x8 => s.writeEnc off v
    | 0xA => s.writeHlk off v
    | 0xD => s.writeCam off v
    | _ => s.swWrite off v

/-- MAPBASE_WRITE (R202, R219). -/
def execMapbaseWrite (v : Word) (s : State) : Host.Outcome State Fault Refusal := .next (s.busWrite 0x60000 (fun s => s.writeMapbase v))

/-- BAND_START (R215): a write of SCN.BAND(b). -/
def execBandStart (b : Fin 8) (v : Word) (s : State) : Host.Outcome State Fault Refusal := .next (s.busWrite (R.SCN_BAND.off b 0) (fun s => s.writeBand b v))

/-- SEGEN_WRITE (R317): a software write of HLK.SEGEN is ignored while the device prints or is paused. -/
def doSegenWrite (p : Fin 16) (w : Fin 4) (v : Word) (s : State) : State :=
  if s.fused (R.HLK_SEGEN.off p w) then s
  else if s.printingOrPaused then s.report C.hlk_segen_direct (mkArg none (some p) 0)
  else s.writeSegen p w v

def execSegenWrite (p : Fin 16) (w : Fin 4) (v : Word) (s : State) : Host.Outcome State Fault Refusal := .next (s.busWrite (R.HLK_SEGEN.off p w) (fun s => doSegenWrite p w v s))

end Sys2Proof.Machine
end

