-- ==== Sys2Proof/Machine/Commit.lean ====
section
/-! DEFINITION. Commit groups (chapter 04): opening, filling, committing and aborting a group, its boundary, and the switching of
its targets, unit by unit (R82 to R99). -/

namespace Sys2Proof.Machine

/-- The states of CMT.GSTAT (R82). -/
abbrev cgFree := 0
abbrev cgOpen := 1
abbrev cgCommitted := 2
abbrev cgApplying := 3
abbrev cgApplied := 4
abbrev cgAborted := 5

def State.gstate (s : State) (g : Nat) : Nat := s.get F.CMT_GSTAT_STATE g

/-- The abort causes of R98. -/
abbrev caSoftware := 1
abbrev caFull := 2
abbrev caLate := 3
abbrev caConflict := 4
abbrev caTarget := 5
abbrev caTable := 6
abbrev caKind := 7
abbrev caSegment := 8
abbrev caJob := 9
abbrev caReset := 10

/-! ### Tables of KIND 0 -/

/-- The bank size of a table that a unit chapter defines (R186, R200, R209, R380, R383), none for any other id. -/
def tableSize (id : Nat) : Option Nat :=
  let cls := id / 4096
  let bar := id / 256 % 16
  let ix := id % 256
  if cls = 1 ∧ bar < 8 then
    (if ix = 0 then some 71936 else if ix = 1 then some 8192 else if ix = 2 then some 192 else none)
  else if cls = 2 ∧ bar < 8 then (if ix = 0 then some 787456 else if ix = 1 then some 131072 else none)
  else if id = 0x3F00 then some 4096
  else if id = 0x3F01 then some 64
  else none

/-- Whether the live bank of a table is B (R88). -/
def State.bankB (s : State) (id : Nat) : Bool := Tab.get (fun _ => false) s.liveB id

/-- The Tarn offset of the live (or the standby) bank of a table in the live frame. -/
def State.bankAddr (s : State) (id : Nat) (standby : Bool) : Option Nat :=
  (s.liveFrame.tables.find? (fun t => t.id.toNat == id)).map
    (fun t => (if s.bankB id ^^ standby then t.bankB else t.bankA).toNat - 0x10000000)

/-- TQUERY (R88, R109). -/
def doTquery (v : Word) (s : State) : State :=
  let id := fieldOf v 0 16
  match tableSize id, s.bankAddr id true with
  | some _, some a =>
    ((s.set F.CMT_TANS_VALID 1).set F.CMT_TANS_LIVE (s.bankB id).toNat).set F.CMT_TANS_STANDBY (a / 64)
  | _, _ => s.wr (R.CMT_TANS.off 0 0) 0

def execTquery (v : Word) (s : State) : Host.Outcome State Fault Refusal := .next (s.busWrite 0x30004 (fun s => doTquery v s))

/-! ### Home bars and units -/

/-- The units in which a target switches at a line (R93): the fetcher, the separation and screening units, the fire scheduler,
a port's feeder, the segments, or none (a target without a home bar). -/
inductive SwUnit
  | fetch
  | pipe
  | fire
  | feeder (p : Nat)
  | segs
  | noBar
  deriving DecidableEq, Repr

/-- The unit of a word write (R86, R193, R254, R317). -/
def wordUnit (off : Nat) : SwUnit :=
  match off / 0x10000 with
  | 0x5 => if off % 0x1000 = 0x1C then .fetch else .pipe
  | 0x6 => if off < 0x61000 then .noBar else .pipe
  | 0x7 => if 0x70100 ≤ off ∧ off < 0x70300 then .fire else .noBar
  | 0xA => if 0xa1000 ≤ off ∧ off < 0xa1400 then .feeder ((off - 0xa1000) / 0x40) else .noBar
  | _ => .noBar

/-- The home bar of a word write (R86). -/
def State.wordBar (s : State) (off : Nat) : Option Nat :=
  match wordUnit off with
  | .fetch => some ((off - 0x50000) / 0x1000)
  | .pipe => some (if off < 0x60000 then (off - 0x50000) / 0x1000 else (off - 0x61000) / 0x400)
  | .fire => some ((off - 0x70100) / 0x40)
  | .feeder p => frameOwner s.liveFrame p
  | _ => none

/-- The home bar of a table entry (R86, R87). -/
def State.tabBar (s : State) (t : TabEntry) : Option Nat :=
  match t with
  | .bank id => if id.toNat / 256 % 16 = 15 then none else some (id.toNat / 256 % 16)
  | .segParam _ p _ _ => frameOwner s.liveFrame p

/-- The unit of a table entry. -/
def tabUnit (t : TabEntry) : SwUnit :=
  match t with
  | .bank id => if id.toNat / 256 % 16 = 15 then .noBar else .pipe
  | .segParam _ _ _ _ => .segs

/-- The home bars of a group's targets. -/
def State.homeBars (s : State) (x : Group) : List Nat :=
  (List.range 8).filter (fun b => x.words.any (fun w => s.wordBar w.1 == some b) || x.tabs.any (fun t => s.tabBar t == some b))

/-- GLINE of a group. -/
def State.gline (s : State) (g : Nat) : Nat := s.get64 F.CMT_GLINELO_VALUE F.CMT_GLINEHI_VALUE g

/-! ### Aborting and completing -/

/-- UNSTAGE to the segments of a group's staged blocks whose port is Up (R97, R98). -/
def unstageAll (g : Nat) : List Nat → List StagedBlock → State → State
  | [], _, s => s
  | p :: ps, bs, s =>
    let mask := (bs.filter (fun b => b.port == p)).foldl (fun a b => Nat.lor a b.mask) 0
    unstageAll g ps bs (if mask ≠ 0 ∧ s.portUp p then s.sendUnstage p mask g else s)

/-- A group aborts with a cause (R98): no target changes, staged data are discarded, and event 0x100 + g is posted (R99). -/
def State.abortGroup (s : State) (g cause : Nat) : State :=
  let x := s.group g
  let s := unstageAll g (List.range 16) x.blocks s
  let s := s.setGroup g { Group.reset with unapplied := x.unapplied }
  ((s.set F.CMT_GSTAT_STATE cgAborted g).set F.CMT_GSTAT_CAUSE cause g).postEvent (0x100 + g)

/-- A report of a CMT code with a group number as its detail. -/
def State.cmtReport (s : State) (code g : Nat) : State := s.report code (mkArg none none g)

/-- A group whose last target has switched is Applied (R82, R99). -/
def State.groupApplied (s : State) (g : Nat) : State :=
  let x := s.group g
  if x.words = [] ∧ x.tabs = [] ∧ (s.gstate g = cgApplying ∨ s.gstate g = cgCommitted) ∧ x.begun then
    (s.set F.CMT_GSTAT_STATE cgApplied g).postEvent (0x100 + g)
  else s

/-! ### Switching -/

/-- One table entry switches: a bank becomes live; a segment parameter is applied by the segments themselves. -/
def State.switchTab (s : State) (t : TabEntry) : State :=
  match t with
  | .bank id => { s with liveB := Tab.put (fun _ => false) s.liveB id.toNat (!s.bankB id.toNat) }
  | .segParam _ _ _ _ => s

/-- IBF.PBSTAT after a write of IBF.PBASE by group `g` (R191): the instance at which it took effect, and whether it was deferred. `s` is the
state before the write, `s'` the state after it. -/
def State.notePbase (s : State) (g : Nat) (s' : State) (off : Nat) : State :=
  if off / 0x10000 = 5 ∧ off % 0x1000 = 0x1C then
    let b := (off - 0x50000) / 0x1000
    let inst := ((s.job.job.bind (fun j => j.place (s.gline g))).map (·.inst)).getD 0
    (s'.set F.IBF_PBSTAT_INST inst b).set F.IBF_PBSTAT_DEFER (s.get F.CMT_GBND_DEFER g) b
  else s'

/-- The targets of a group that pass the two tests switch, in order. -/
def State.switchIf (s : State) (g : Nat) (pw : Nat × Word → Bool) (pt : TabEntry → Bool) : State :=
  let x := s.group g
  let ws := x.words.filter pw
  let ts := x.tabs.filter pt
  if ws = [] ∧ ts = [] then s
  else
    let s := s.setGroup g { x with words := x.words.filter (fun w => !pw w), tabs := x.tabs.filter (fun t => !pt t) }
    let s := s.set F.CMT_GSTAT_STATE cgApplying g
    let s := ws.foldl (fun s w => s.notePbase g (s.blockWrite w.1 w.2) w.1) s
    ts.foldl (fun s t => s.switchTab t) s

/-- The targets of a group without a home bar switch. -/
def State.switchNoBar (s : State) (g : Nat) : State :=
  s.switchIf g (fun w => (s.wordBar w.1).isNone) (fun t => (s.tabBar t).isNone)

/-- A group begins to switch at an instant (R90): the targets without a home bar, and those of bars that process no lines. -/
def State.beginGroup (s : State) (g : Nat) : State :=
  let s := s.setGroup g { s.group g with begun := true }
  let idle := fun (b : Option Nat) => match b with
    | none => true
    | some b => !s.barActive b
  let s := s.switchIf g (fun w => idle (s.wordBar w.1)) (fun t => idle (s.tabBar t))
  s.groupApplied g

/-- The groups in Committed or Applying, in ticket order (R94). -/
def insertTk (key : Nat → Nat) (g : Nat) : List Nat → List Nat
  | [] => [g]
  | h :: t => if (key h + 2 ^ 32 - key g) % 2 ^ 32 < 2 ^ 31 then g :: h :: t else h :: insertTk key g t

def State.ticketOrder (s : State) : List Nat :=
  ((List.range 64).filter (fun g => s.gstate g == cgCommitted || s.gstate g == cgApplying)).foldl
    (fun l g => insertTk (fun k => s.get F.CMT_GTKT_VALUE k) g l) []

/-- Whether the targets of bar `b` of a group switch when a unit of the bar starts line `n` (R90). -/
def State.switchesAt (s : State) (g b n : Nat) : Bool :=
  match s.get F.CMT_GBND_KIND g with
  | 1 | 2 => if s.get F.CMT_GBND_SEL g = b then decide (s.gline g ≤ n) else (s.group g).begun
  | 3 => decide (s.gline g ≤ n)
  | _ => (s.group g).begun

/-- One group when unit `u` of bar `b` starts line `n`: its targets in that unit switch; with the first of them, or at the start of
the resolved line by the first unit of the named bar (for WEB with no home bar, of IB0), those without a home bar (R90). -/
def State.startUnit1 (s : State) (u : SwUnit) (b n g : Nat) : State :=
  if !s.switchesAt g b n then s
  else
    let kind := s.get F.CMT_GBND_KIND g
    let pw := fun (w : Nat × Word) => s.wordBar w.1 == some b && wordUnit w.1 == u
    let pt := fun (t : TabEntry) => s.tabBar t == some b && tabUnit t == u
    let x := s.group g
    let mine := x.words.any pw || x.tabs.any pt
    let first := u = .fetch ∧ ((kind = 1 ∨ kind = 2) ∧ s.get F.CMT_GBND_SEL g = b
      ∨ kind = 3 ∧ b = 0 ∧ s.homeBars x = [])
    if !mine && !decide first then s
    else
      let was := x.begun
      let s := s.setGroup g { x with begun := true }
      let s := s.switchIf g pw pt
      let s := if was then s
        else if mine || decide (kind = 3) then s.switchNoBar g
        else if s.homeBars (s.group g) = [] then s.switchNoBar g else s
      -- bars that process no lines take their targets at the instant (R90)
      let s := if was ∨ kind = 3 then s else
        s.switchIf g (fun w => (s.wordBar w.1).any (fun c => c != b && !s.barActive c))
          (fun t => (s.tabBar t).any (fun c => c != b && !s.barActive c))
      let s := if s.gstate g = cgApplying ∧ (s.group g).begun then s.switchNoBar g else s
      s.groupApplied g

/-- GROUP_SWITCH (R93): unit `u` of bar `b` starts line `n`; every group that switches there does so, in ticket order. -/
def State.startUnit (s : State) (u : SwUnit) (b n : Nat) : State :=
  s.ticketOrder.foldl (fun s g => s.startUnit1 u b n g) s

/-- TIME_SWITCH (R90): a TIME group whose time base has reached its value. -/
def doTimeSwitch (g : Fin 64) (s : State) : State :=
  if s.gstate g = cgCommitted ∧ s.get F.CMT_GBND_KIND g = 4 ∧ (s.group g).bval.toNat ≤ s.tbNs (s.get F.CMT_GBND_SEL g) ∧
      !(s.group g).begun then
    (s.set F.CMT_GSTAT_STATE cgApplying g).beginGroup g
  else s

def execTimeSwitch (g : Fin 64) (s : State) : Host.Outcome State Fault Refusal := .next (doTimeSwitch g s)

/-! ### Check instants and segments -/

/-- The first segment of a group's blocks that refused or has not answered (R97): port × 128 + q. -/
def firstMissing : List StagedBlock → Option Nat
  | [] => none
  | b :: t =>
    match (List.range 128).find? (fun q => bitN b.waiting q == 1) with
    | some q => some (b.port * 128 + q)
    | none => firstMissing t

/-- SEGMENT_STAGE_CHECK (R97) of one group at the boundary of line `m` of bar `b`: its first check instant. -/
def State.checkGroup (s : State) (b m g : Nat) : State :=
  let x := s.group g
  let kind := s.get F.CMT_GBND_KIND g
  let mine := if kind = 3 then (s.homeBars x).contains b else (kind = 1 ∨ kind = 2) ∧ s.get F.CMT_GBND_SEL g = b
  if s.gstate g ≠ cgCommitted ∨ x.blocks = [] ∨ x.checked ∨ !mine ∨ m + s.lead b < s.gline g + 2 then s
  else
    match x.failed.orElse (fun _ => firstMissing x.blocks) with
    | none => s.setGroup g { x with checked := true }
    | some sg =>
      (s.abortGroup g caSegment).report C.cmt_seg_stage (mkArg none (some (sg / 128)) (sg % 128))

/-- The segments of a mask on a port, as p × 128 + q. -/
def maskSegs (p mask : Nat) : List Nat := ((List.range 128).filter (fun q => bitN mask q == 1)).map (p * 128 + ·)

/-- The segments of a bar apply the blocks of a group at the boundary of line `n` (R308): the device awaits APPLIED of each. -/
def State.applySegs (s : State) (b n g : Nat) : State :=
  let x := s.group g
  let pt := fun (t : TabEntry) => s.tabBar t == some b && tabUnit t == .segs
  if !s.switchesAt g b n || !x.tabs.any pt then s
  else
    let due := s.now + 1000 * max 1 (s.get F.HLK_CFG_ACKTO)
    let sgs := (x.tabs.filter pt).flatMap (fun t => match t with
      | .segParam _ p m _ => maskSegs p m.toNat
      | .bank _ => [])
    let s := s.setGroup g { x with unapplied := x.unapplied ++ sgs.eraseDups.map (fun sg => (sg, due)) }
    s.startUnit1 .segs b n g

/-- The work of a line boundary on groups: check instants first, then the segments' switch (R93, R97, R308). -/
def State.groupsAtBoundary (s : State) (b m : Nat) : State :=
  let s := s.ticketOrder.foldl (fun s g => s.checkGroup b m g) s
  s.ticketOrder.foldl (fun s g => s.applySegs b m g) s

/-- The job stops (R98, R99): groups with a line boundary that have not begun abort with cause JOB; the targets that an Applying
group still has switch. -/
def State.groupsAtJobStop (s : State) : State :=
  s.ticketOrder.foldl (fun s g =>
    let kind := s.get F.CMT_GBND_KIND g
    if s.gstate g = cgCommitted ∧ (kind = 1 ∨ kind = 2 ∨ kind = 3) then s.abortGroup g caJob
    else if s.gstate g = cgApplying then
      (s.switchIf g (fun _ => true) (fun _ => true)).groupApplied g
    else s) s

/-- Every Open or Committed group aborts with cause RESET (R98); an Applying group completes. -/
def State.groupsAtHalt (s : State) : State :=
  (List.range 64).foldl (fun s g =>
    if s.gstate g = cgOpen ∨ s.gstate g = cgCommitted then s.abortGroup g caReset
    else if s.gstate g = cgApplying then (s.switchIf g (fun _ => true) (fun _ => true)).groupApplied g
    else s) s

/-! ### Filling a group -/

/-- Opens the lowest free group for a role; none when all 64 are taken (R70, R82). -/
def State.openGroup (s : State) (role : Nat) (excl : Bool) : Option (Nat × State) :=
  match (List.range 64).find? (fun g => s.gstate g == cgFree) with
  | none => none
  | some g =>
    let s := s.setGroup g { Group.reset with unapplied := (s.group g).unapplied }
    let s := ((s.wr (R.CMT_GSTAT.off g 0) 0).wr (R.CMT_GBND.off g 0) 0).wr (R.CMT_GTKT.off g 0) 0
    let s := s.set64 F.CMT_GLINELO_VALUE F.CMT_GLINEHI_VALUE 0 g
    some (g, ((s.set F.CMT_GSTAT_STATE cgOpen g).set F.CMT_GSTAT_ROLE role g).set F.CMT_GSTAT_EXCL excl.toNat g)

/-- Whether a group may carry a word write to an offset (R85). -/
def groupable (off : Nat) : Bool :=
  off % 4 == 0 && (regAt off).isSome && decide (off < 0x200000) &&
    ([0x5, 0x6, 0x7, 0x8, 0xA, 0xD].contains (off / 0x10000) || (decide (0x30040 ≤ off) && decide (off < 0x30054)))

/-- Adds a word write to an Open group (R83, R85). -/
def State.groupWord (s : State) (g off : Nat) (v : Word) : State :=
  if s.get F.CMT_GSTAT_NWORD g = 4096 then (s.abortGroup g caFull).cmtReport C.cmt_full g
  else if !groupable off then (s.abortGroup g caTarget).cmtReport C.cmt_target g
  else
    let x := s.group g
    (s.setGroup g { x with words := x.words.filter (fun w => w.1 != off) ++ [(off, v)] }).set
      F.CMT_GSTAT_NWORD (s.get F.CMT_GSTAT_NWORD g + 1) g

/-- Adds a table entry to an Open group (R83, R88): a second entry for one table id has no further effect. -/
def State.groupTab (s : State) (g : Nat) (t : TabEntry) : State :=
  if s.get F.CMT_GSTAT_NTAB g = 64 then (s.abortGroup g caFull).cmtReport C.cmt_full g
  else
    let x := s.group g
    let dup := match t with
      | .bank _ => x.tabs.contains t
      | .segParam _ _ _ _ => false
    (s.setGroup g (if dup then x else { x with tabs := x.tabs ++ [t] })).set F.CMT_GSTAT_NTAB (s.get F.CMT_GSTAT_NTAB g + 1) g

/-- A table-block descriptor of R87 read from its 32 bytes: the entry, with the source and length of a KIND 1 block; none when
it breaks a rule of the table. -/
def parseTab (bs : List Byte) : Option (TabEntry × Nat × Nat) :=
  let w := wordAt bs
  let kind := fieldOf (w 0) 28 4
  let id := BitVec.ofNat 16 (fieldOf (w 0) 0 16)
  let port := fieldOf (w 1) 16 4
  let mask := leNat ((bs.drop 16).take 16)
  let src := (w 2).toNat
  let len := (w 3).toNat
  if fieldOf (w 0) 16 12 ≠ 0 ∨ fieldOf (w 1) 20 12 ≠ 0 ∨ fieldOf (w 1) 0 16 ≠ 0 then none
  else if kind = 0 then
    if port ≠ 0 ∨ src ≠ 0 ∨ len ≠ 0 ∨ mask ≠ 0 then none else some (.bank id, 0, 0)
  else if kind = 1 then
    if src % 4 ≠ 0 ∨ len % 4 ≠ 0 ∨ len < 4 ∨ 4096 < len ∨ mask = 0 then none
    else some (.segParam id port (BitVec.ofNat 128 mask) [], src, len)
  else none

/-- CGT of an Open group (R87, R89): the descriptor and a KIND 1 block's data are read from Tarn. -/
def State.groupDesc (s : State) (g addr : Nat) : State :=
  let bad := fun (s : State) => (s.abortGroup g caTable).cmtReport C.cmt_table g
  if s.get F.CMT_GSTAT_NTAB g = 64 then (s.abortGroup g caFull).cmtReport C.cmt_full g
  else if addr % 32 ≠ 0 ∨ !inTarn addr 32 then bad s
  else
    let r := s.readTarn (addr - 0x10000000) 32
    let s := r.st
    if r.bad then bad s
    else match parseTab r.bytes with
      | none => bad s
      | some (.bank id, _, _) => if (tableSize id.toNat).isNone then bad s else s.groupTab g (.bank id)
      | some (.segParam id p m _, src, len) =>
        if !inTarn src len then bad s
        else
          let d := s.readTarn (src - 0x10000000) len
          if d.bad then bad d.st else d.st.groupTab g (.segParam id p m d.bytes)

/-! ### Committing (R90 to R97) -/

/-- The lines that a resolved point must exceed (R92): s.fline + LEAD, modulo 2^64. -/
def State.leadPoint (s : State) (b : Nat) : Nat := ((s.flineOf b).toNat + s.lead b) % 2 ^ 64

/-- The first panel instance from `k` on whose first line, relative to the job start, is above `target` (R92). -/
def instAfter (sc gap : Nat) : List Panel → (k idx base : Nat) → (target : Int) → Option (Nat × Nat)
  | [], _, _, _, _ => none
  | p :: rest, k, idx, base, target =>
    let period := p.h * sc + gap
    let j1 := if target < (base : Int) then 0 else (target - base).toNat / period + 1
    let j := max k j1
    if p.reps = 0 ∨ j < p.reps then some (idx + j, base + period * j)
    else instAfter sc gap rest (k - p.reps) (idx + p.reps) (base + period * p.reps) target

/-- The outcome of resolving a boundary (R90 to R92): the line and whether a PANEL was deferred, or the cause of the abort. -/
inductive Resolved
  | line (n : Nat) (deferred : Bool)
  | abort (cause : Nat)
  deriving DecidableEq, Repr

/-- The line of a WEB position (R91). -/
def webLine (pos origin pitch : Nat) : Option Nat :=
  if pos < origin then none else some (((pos - origin) * 65536 + pitch - 1) / pitch % 2 ^ 64)

/-- Resolves the boundary of a group at its grant (R90 to R92). -/
def State.resolve (s : State) (x : Group) (kind sel : Nat) (v : Nat) : Resolved :=
  match kind with
  | 1 => if s.leadPoint sel < v then .line v false else .abort caLate
  | 2 =>
    match s.job.job with
    | none => .abort caJob
    | some j =>
      match j.start with
      | none => .abort caJob
      | some nj =>
        let target : Int := (s.leadPoint sel : Int) - (nj : Int)
        match instAfter j.scale j.gap j.panels v 0 0 target with
        | none => .abort caJob
        | some (k, rel) => .line (nj + rel) (k != v)
  | 3 =>
    match webLine v (s.origin 0) s.liveFrame.pitch.toNat with
    | none => .abort caLate
    | some n => if (s.homeBars x).all (fun b => decide (s.leadPoint b < n)) then .line n false else .abort caLate
  | _ => .line 0 false

/-- Whether two targets of table entries are common (R95). -/
def tabCommon (a b : TabEntry) : Bool :=
  match a, b with
  | .bank i, .bank j => i == j
  | .segParam i p m _, .segParam j q k _ => i == j && p == q && (m &&& k) != 0
  | _, _ => false

/-- Whether groups `g` (being committed, with the given boundary) and `h` share a boundary and a target, one of them being EXCL
(R95). -/
def State.conflicts (s : State) (g h kind sel line : Nat) (v : DWord) : Bool :=
  let x := s.group g
  let y := s.group h
  let same := kind != 0 && s.get F.CMT_GBND_KIND h == kind && s.get F.CMT_GBND_SEL h == sel &&
    (if kind = 4 then y.bval == v else s.gline h == line)
  let common := x.words.any (fun w => y.words.any (fun u => u.1 == w.1)) || x.tabs.any (fun t => y.tabs.any (tabCommon t))
  same && common && (s.on F.CMT_GSTAT_EXCL g || s.on F.CMT_GSTAT_EXCL h)

/-- Whether the group carries a JOIN entry (R309) for a segment. -/
def hasJoin (x : Group) (sg : Nat) : Bool :=
  x.tabs.any (fun t => match t with
    | .segParam id p m _ => id == 0xFF00 && p == sg / 128 && m.getLsbD (sg % 128)
    | .bank _ => false)

/-- The segments whose SEGEN bit a word write would change to `v` (R317, R319). -/
def State.segenChange (s : State) (w : Nat × Word) (v : Bool) : List Nat :=
  match wordUnit w.1 with
  | .feeder p =>
    if w.1 % 0x40 < 0x10 ∨ 0x20 ≤ w.1 % 0x40 then []
    else
      let i := (w.1 % 0x40 - 0x10) / 4
      ((List.range 32).filter (fun k => w.2.getLsbD k == v && s.segen (p * 128 + 32 * i + k) != v)).map
        (fun k => p * 128 + 32 * i + k)
  | _ => []

/-- The check of R317 on a group that changes SEGEN: the offset that breaks it, if one does. -/
def State.segenBad (s : State) (x : Group) (kind : Nat) : Bool :=
  s.printingOrPaused && x.words.any (fun w =>
    match wordUnit w.1 with
    | .feeder _ => 0x10 ≤ w.1 % 0x40 && w.1 % 0x40 < 0x20 &&
        (kind != 2 || (s.segenChange w true).any (fun sg => !hasJoin x sg))
    | _ => false)

/-- The next commit ticket (R94): 0 and 0xFFFF_FFFF are skipped. -/
def nextTicket (t : Nat) : Nat := if t + 1 = 0xFFFFFFFF ∨ t + 1 = 0x100000000 then 1 else t + 1

/-- The blocks that a group stages, one for each KIND 1 entry (R307). -/
def stagedOf (x : Group) : List StagedBlock :=
  x.tabs.filterMap (fun t => match t with
    | .segParam id p m d =>
      some { param := id, port := p, mask := m.toNat, waiting := m.toNat, data := d, due := none, tries := 0 }
    | .bank _ => none)

/-- Sends the staging messages of a committed group (R96), and QUIET to the segments it makes leave (R319). -/
def State.stageGroup (s : State) (g line : Nat) : State :=
  let x := s.group g
  let bs := stagedOf x
  let s := s.setGroup g { x with blocks := bs }
  let s := bs.foldl (fun s b => s.sendStage g line b b.mask) s
  let joins := (bs.filter (fun b => b.param == 0xFF00)).flatMap (fun b => maskSegs b.port b.mask)
  let s := joins.foldl (fun s sg => s.setSeg sg { s.seg sg with joinGroup := some g }) s
  (x.words.flatMap (fun w => s.segenChange w false)).foldl (fun s sg => s.sendQuiet sg line) s

/-- A CGC grant on an Open group (R90 to R97, R317): the state after it, and the ticket (none when the group aborts). -/
def State.commitGroup (s : State) (g kind sel : Nat) (v : DWord) : Option Nat × State :=
  let s := ((s.set F.CMT_GBND_KIND kind g).set F.CMT_GBND_SEL sel g)
  let x := { s.group g with bval := v }
  let s := s.setGroup g x
  let ks := stagedOf x
  if ks ≠ [] ∧ (kind = 0 ∨ kind = 4) then (none, (s.abortGroup g caKind).cmtReport C.cmt_target g)
  else if ks.any (fun b => (frameOwner s.liveFrame b.port).isNone || !s.portPresent b.port) then
    (none, (s.abortGroup g caTable).cmtReport C.cmt_table g)
  else match s.resolve x kind sel v.toNat with
    | .abort c =>
      let s := s.abortGroup g c
      (none, if c = caLate then s.cmtReport C.cmt_late g else s)
    | .line n deferred =>
      if s.segenBad x kind then (none, (s.abortGroup g caTarget).cmtReport C.cmt_target g)
      else
        let others := s.ticketOrder.filter (fun h => h != g)
        if others.any (fun h => s.conflicts g h kind sel n v) then
          (none, (s.abortGroup g caConflict).cmtReport C.cmt_conflict g)
        else
          let s := if deferred then (s.set F.CMT_GBND_DEFER 1 g).cmtReport C.cmt_panel_deferred g else s
          let t := s.get F.CMT_NEXTTK_TICKET
          let s := (s.set F.CMT_NEXTTK_TICKET (nextTicket t)).set F.CMT_GTKT_VALUE t g
          let s := (s.set64 F.CMT_GLINELO_VALUE F.CMT_GLINEHI_VALUE n g).set F.CMT_GSTAT_STATE cgCommitted g
          let s := s.stageGroup g n
          let now := kind = 0 ∨ (kind = 4 ∧ v.toNat ≤ s.tbNs sel)
          (some t, if now then (s.set F.CMT_GSTAT_STATE cgApplying g).beginGroup g else s)

/-! ### The instructions (R70, R71, R84) -/

/-- The ownership checks of R71 for opcode `op`: the body runs unless the engine holds no role or another role owns the group. -/
def State.cgOwned (s : State) (op : Nat) (e : Eng) (g : Nat) (body : State → State) : State :=
  if !s.holds e then s.trap e .norole (w64 op) 1
  else if g < 64 ∧ s.gstate g ≠ cgFree ∧ s.get F.CMT_GSTAT_ROLE g ≠ s.roleOf e then s.trap e .owner (w64 g) 1
  else body s

/-- CGOPEN (R70). -/
def doCgopen (e : Eng) (w : FmtA) (s : State) : State :=
  s.execA 0x60 e w true fun s =>
    let v := (s.engine e).reg w.a.toNat
    if !s.holds e then s.trap e .norole 0x60 1
    else if 1 < v.toNat then s.trap e .illegal ((wordA 0x60 w).setWidth 64) 1
    else match s.openGroup (s.roleOf e) (v == 1) with
      | none => s.setD e w.d (BitVec.allOnes 64)
      | some (g, s) => s.setD e w.d (w64 g)

def execCgopen (e : Eng) (w : FmtA) (s : State) : Host.Outcome State Fault Refusal := .next (doCgopen e w s)

/-- What CGW and CGT do on a group that is not Open (R84). -/
def State.cgNotOpen (s : State) (g : Nat) : State :=
  let st := s.gstate g
  if g < 64 ∧ (st = cgCommitted ∨ st = cgApplying ∨ st = cgApplied) then s.cmtReport C.cmt_write_after_commit g else s

/-- CGW (R70, R85). -/
def doCgw (e : Eng) (w : FmtA) (s : State) : State :=
  s.execA 0x61 e w true fun s =>
    let x := s.engine e
    let g := (x.reg w.d.toNat).toNat
    s.cgOwned 0x61 e g fun s =>
      let s := if g < 64 ∧ s.gstate g = cgOpen then
          s.groupWord g (x.reg w.a.toNat).toNat ((x.reg w.b.toNat).setWidth 32)
        else s.cgNotOpen g
      s.retire e (s.engine e) 1

def execCgw (e : Eng) (w : FmtA) (s : State) : Host.Outcome State Fault Refusal := .next (doCgw e w s)

/-- CGT (R70, R87). -/
def doCgt (e : Eng) (w : FmtA) (s : State) : State :=
  s.execA 0x62 e w true fun s =>
    let x := s.engine e
    let g := (x.reg w.d.toNat).toNat
    s.cgOwned 0x62 e g fun s =>
      let s := if g < 64 ∧ s.gstate g = cgOpen then s.groupDesc g (x.reg w.a.toNat).toNat else s.cgNotOpen g
      s.retire e (s.engine e) 1

def execCgt (e : Eng) (w : FmtA) (s : State) : Host.Outcome State Fault Refusal := .next (doCgt e w s)

/-- CGC (R70, R90): FN[5:3] is the kind, FN[2:0] the bar or the time base. -/
def doCgc (e : Eng) (w : FmtA) (s : State) : State :=
  let kind := w.fn.toNat / 8
  let sel := w.fn.toNat % 8
  let legal := kind ≤ 4 ∧ ((kind = 0 ∨ kind = 3) → sel = 0) ∧ (kind = 4 → sel ≤ 3)
  s.execA 0x63 e w legal fun s =>
    let x := s.engine e
    let g := (x.reg w.a.toNat).toNat
    s.cgOwned 0x63 e g fun s =>
      if g < 64 ∧ s.gstate g = cgOpen then
        match s.commitGroup g kind sel (x.reg w.b.toNat) with
        | (some t, s) => s.setD e w.d (w64 t)
        | (none, s) => s.setD e w.d (BitVec.allOnes 64)
      else s.setD e w.d (BitVec.allOnes 64)

def execCgc (e : Eng) (w : FmtA) (s : State) : Host.Outcome State Fault Refusal := .next (doCgc e w s)

/-- CGA on a group (R84). -/
def State.cgaGroup (s : State) (g : Nat) : State :=
  let st := s.gstate g
  if 64 ≤ g then s
  else if st = cgOpen ∨ st = cgCommitted then s.abortGroup g caSoftware
  else if st = cgApplied ∨ st = cgAborted then
    (((s.wr (R.CMT_GSTAT.off g 0) 0).wr (R.CMT_GBND.off g 0) 0).wr (R.CMT_GTKT.off g 0) 0).set64
      F.CMT_GLINELO_VALUE F.CMT_GLINEHI_VALUE 0 g
  else s

/-- CGA (R70, R84). -/
def doCga (e : Eng) (w : FmtA) (s : State) : State :=
  s.execA 0x64 e w true fun s =>
    let g := ((s.engine e).reg w.a.toNat).toNat
    s.cgOwned 0x64 e g fun s =>
      let s := s.cgaGroup g
      s.retire e (s.engine e) 1

def execCga (e : Eng) (w : FmtA) (s : State) : Host.Outcome State Fault Refusal := .next (doCga e w s)

/-- CGS (R70, R109): the group's status word; 0 for a group number of 64 or above. -/
def doCgs (e : Eng) (w : FmtA) (s : State) : State :=
  s.execA 0x65 e w true fun s =>
    let g := ((s.engine e).reg w.a.toNat).toNat
    s.setD e w.d (if g < 64 then (s.rd (R.CMT_GSTAT.off g 0)).setWidth 64 else 0)

def execCgs (e : Eng) (w : FmtA) (s : State) : Host.Outcome State Fault Refusal := .next (doCgs e w s)

end Sys2Proof.Machine
end

