-- ==== Sys2Proof/Machine/HeadPhy.lean ====
section
/-! DEFINITION. The head link physical layer (chapter 11): link-up, equalisation, lane changes, cable measurement, test
patterns and error injection. -/

namespace Sys2Proof.Machine

/-! ### Taps -/

/-- The field of tap `t` of HLP.FFE: 0 CM1, 1 CP1, 2 CP2. -/
def tapFld (t : Nat) : Fld := if t = 0 then F.HLP_FFE_CM1 else if t = 1 then F.HLP_FFE_CP1 else F.HLP_FFE_CP2

/-- The taps of a lane as integers. -/
def State.tapVal (s : State) (p l t : Nat) : Int := s.getI (tapFld t) p l

/-- C0 of R269 from the three side taps, as an integer. -/
def c0Of (a b c : Int) : Int := 63 - a.natAbs - b.natAbs - c.natAbs

/-- Whether three side taps may be set (R269). -/
def tapsOk (a b c : Int) : Bool :=
  decide (a.natAbs ≤ 16) && decide (b.natAbs ≤ 16) && decide (c.natAbs ≤ 16) && decide (32 ≤ c0Of a b c)

/-- Stores the taps of a lane, with C0. -/
def State.putTaps (s : State) (p l : Nat) (a b c : Int) : State :=
  let s := (s.set F.HLP_FFE_CM1 (ofSigned 8 a) p l).set F.HLP_FFE_CP1 (ofSigned 8 b) p l
  (s.set F.HLP_FFE_CP2 (ofSigned 8 c) p l).set F.HLP_FFE_C0 (c0Of a b c).toNat p l

/-- The taps with tap `t` moved by `d`. -/
def movedTaps (s : State) (p l t : Nat) (d : Int) : Int × Int × Int :=
  let v := fun k => s.tapVal p l k + (if k = t then d else 0)
  (v 0, v 1, v 2)

/-! ### Tap calibration (R270) -/

/-- A calibration of lane `l` that begins: its first eye value is awaited. -/
def TapCal.start (l : Nat) : TapCal := { lane := l, tap := 0, neg := false, moved := 0, best := none, waited := 0, eye := none }

/-- The direction of a calibration step. -/
def TapCal.dir (c : TapCal) : Int := if c.neg then -1 else 1

/-- Tries steps until one has been set and its eye is awaited, or the calibration is over (none): the next step of the present
tap and direction, else the other direction, else the next tap. `fuel` bounds the six tap and direction pairs. -/
def calAdvance (p : Nat) : (fuel : Nat) → TapCal → State → Option TapCal × State
  | 0, _, s => (none, s)
  | k + 1, c, s =>
    if 3 ≤ c.tap then (none, s)
    else
      let next := if c.moved = 0 ∧ !c.neg then { c with neg := true, moved := 0 }
        else { c with tap := c.tap + 1, neg := false, moved := 0 }
      if max 1 (s.get F.HLP_CAL_MAXSTEP p) ≤ c.moved then calAdvance p k next s
      else
        let (a, b, d) := movedTaps s p c.lane c.tap c.dir
        if tapsOk a b d then (some { c with waited := 0, eye := none }, s.putTaps p c.lane a b d)
        else calAdvance p k next (s.report C.hlp_tap_limit (mkArg none (some p) c.lane))

/-- One upstream frame of a calibration (R270): after DWELL frames the last eye of a good frame decides the step. -/
def calFrame (p : Nat) (f : TrainFrame) (c : TapCal) (s : State) : Option TapCal × State :=
  let e := if f.good then some (if c.lane = 0 then f.eyeA.toNat else f.eyeB.toNat) else c.eye
  let c := { c with waited := c.waited + 1, eye := e }
  if c.waited < max 1 (s.get F.HLP_CAL_DWELL p) then (some c, s)
  else match e with
    | none => (some c, s)
    | some m =>
      match c.best with
      | none => calAdvance p 16 { c with best := some m } s
      | some best =>
        if best + s.get F.HLP_CAL_HYST p < m then calAdvance p 16 { c with best := some m, moved := c.moved + 1 } s
        else
          let (a, b, d) := movedTaps s p c.lane c.tap (-c.dir)
          let s := s.putTaps p c.lane a b d
          let next := if c.moved = 0 ∧ !c.neg then { c with neg := true, moved := 0 }
            else { c with tap := c.tap + 1, neg := false, moved := 0 }
          calAdvance p 16 next s

/-! ### Deskew (R266) -/

/-- The result of one SKEW reading. -/
inductive SkewRes
  | aligned
  | moved (tries : Nat)
  | failed
  deriving DecidableEq, Repr

/-- One SKEW reading (R266): the earlier lane is delayed by |SKEW| symbols, at most four times. -/
def deskew (p : Nat) (skew : Int) (tries : Nat) (s : State) : SkewRes × State :=
  if skew = 0 then (.aligned, s)
  else if 31 < skew.natAbs ∨ 4 ≤ tries then (.failed, s)
  else
    let f := if 0 < skew then F.HLP_SKEW_DA else F.HLP_SKEW_DB
    let v := s.get f p + skew.natAbs
    if 31 < v then (.failed, s) else (.moved (tries + 1), s.set f v p)

/-! ### Link-up -/

/-- A link-up attempt starts (R265 step 1). -/
def State.startLink (s : State) (p : Nat) : State :=
  let x := s.port p
  let s := s.setPort p { x with startAt := s.now, pauseEnd := none, good := 0, tries := 0, cal := none, echoes := 0,
                                echoSum := 0, lane := none, upBad := 0, precap := false }
  let s := (((s.set F.HLP_STAT_STATE 1 p).set F.HLP_STAT_MODE 3 p).set F.HLP_STAT_LOCKA 0 p).set F.HLP_STAT_LOCKB 0 p
  (((s.set F.HLP_STAT_LOCKU 0 p).set F.HLP_STAT_CLK 0 p).set F.HLP_STAT_PRE 0 p).set F.HLP_SKEW_DA 0 p |>.set F.HLP_SKEW_DB 0 p

/-- A link-up attempt fails with a report (R268): the clock stops for 100 µs, or the port is Failed after RETRY attempts. -/
def State.linkFail (s : State) (p code : Nat) : State :=
  let s := s.report code (mkArg none (some p) 0)
  let x := s.port p
  let n := x.attempts + 1
  if max 1 (s.get F.HLP_CTL_RETRY p) ≤ n then
    ((s.setPort p { x with attempts := n, pauseEnd := none, cal := none, lane := none }).set F.HLP_STAT_STATE 7 p).report
      C.hlp_linkup_failed (mkArg none (some p) 0)
  else
    (s.setPort p { x with attempts := n, pauseEnd := some (s.now + 100000), cal := none, lane := none }).set F.HLP_STAT_STATE 0 p

/-- The values of R275 from the mean round trip `rho` in 1/64 LTU, with hlp.cable_long. -/
def State.setCable (s : State) (p rho : Nat) : State :=
  let rtt := (rho + 63) / 64
  let one := (rho + 127) / 128
  let mm := (rho * max 1 (s.get F.HLP_CABLE_VP p) + 112) / 225
  let s := ((s.set F.HLP_RTT_RAW (min 65535 rho) p).set F.HLP_RTT_TRIM (one * 128 - rho) p).set F.HLP_RTT_VALID 1 p
  let s := (s.set F.HLP_CABLE_LTU (min 1023 rtt) p).set F.HLP_CABLE_MM (min 16383 mm) p
  if 13500 < rho then s.report C.hlp_cable_long (mkArg none (some p) 0) else s

/-- PDLY of a port from its round trip and FAN (R239), and hmin of its bar (R241). -/
def State.setPdly (s : State) (p : Nat) : State :=
  let s := s.set F.FIRE_PDLY_DLY ((s.get F.HLP_CABLE_LTU p + 1) / 2 + s.get F.HLK_PSTAT_FAN p) p
  match frameOwner s.liveFrame p with
  | some b => s.setHmin b
  | none => s

/-- LINK_UP (R265 step 8, R275): the cable is measured and the port enters Up; the first mission frame will carry EPOCH. -/
def State.linkUp (s : State) (p rho : Nat) : State :=
  let s := (s.setCable p rho).setPdly p
  let x := s.port p
  let pre := s.on F.HLP_CTL_PRECODE p && x.precap
  let s := s.setPort p { x with attempts := 0, cal := none, epoch := none, k := 0, scrA := 0x7FFFFF, scrB := 0x7FFFFF,
                                fireQ := [], resendQ := [], ctlQ := [], feed := none, sent := [],
                                pend := x.pend.filter (fun q => q.mtype == 0x12), bncap := [], upBad := 0, lane := none }
  let s := ((s.set F.HLP_STAT_STATE 6 p).set F.HLP_STAT_MODE 0 p).set F.HLP_STAT_PRE (if pre then 1 else 0) p
  let s := s.bump F.HLP_LNKCNT_LINKUPS 1 p
  (s.set F.HLK_PSTAT_BNSTATE 1 p).sendAcked p 0x08 0xFE []

/-- Deskew at step 5, from a frame that reports SKEW. -/
def State.deskewStep (s : State) (p : Nat) (skew : Int) : State :=
  if s.on F.HLP_CTL_MANUAL p then
    if skew = 0 then (s.setPort p { s.port p with cal := some (TapCal.start 0) }).set F.HLP_STAT_STATE 4 p else s
  else
    match deskew p skew (s.port p).tries s with
    | (.aligned, s) => (s.setPort p { s.port p with cal := some (TapCal.start 0) }).set F.HLP_STAT_STATE 4 p
    | (.moved t, s) => s.setPort p { s.port p with tries := t }
    | (.failed, s) => s.linkFail p C.hlp_skew_range

/-- Equalisation at step 6: lane A, then lane B, then the cable measurement. -/
def State.equaliseStep (s : State) (p : Nat) (f : TrainFrame) : State :=
  match (s.port p).cal with
  | none => s
  | some c =>
    match calFrame p f c s with
    | (some c', s) => s.setPort p { s.port p with cal := some c' }
    | (none, s) =>
      if c.lane = 0 then s.setPort p { s.port p with cal := some (TapCal.start 1) }
      else (s.setPort p { s.port p with cal := none, echoes := 0, echoSum := 0 }).set F.HLP_STAT_STATE 5 p

/-- One echo of step 7 (R274): 256 of them give the mean round trip, rounded to the nearest unit. -/
def State.echoStep (s : State) (p : Nat) (f : TrainFrame) : State :=
  if !f.good || !f.echo then s
  else
    let x := s.port p
    let n := x.echoes + 1
    let sum := x.echoSum + f.rt.toNat
    if n < 256 then s.setPort p { x with echoes := n, echoSum := sum }
    else (s.setPort p { x with echoes := 0, echoSum := 0 }).linkUp p (rdiv sum 256)

/-! ### Lanes of a port in state Up (R271 to R273) -/

/-- Two-lane mode from the next pair boundary: a lane that re-enters service restarts its scrambler (R286). -/
def State.twoLanes (s : State) (p l : Nat) : State :=
  let x := s.port p
  let x := if l = 0 then { x with scrA := 0x7FFFFF } else { x with scrB := 0x7FFFFF }
  (s.setPort p { x with lane := none }).set F.HLP_STAT_MODE 0 p

/-- A data lane fails in two-lane mode (R272): the other lane carries the port, and the failed lane trains. -/
def State.failLane (s : State) (p l : Nat) : State :=
  let s := s.setPort p { s.port p with lane := some { lane := l, recal := false, phase := .lock } }
  let s := (s.set F.HLP_STAT_MODE (if l = 0 then 2 else 1) p).calEndPort p
  (s.bump F.HLP_LNKCNT_FAILOVER 1 p).report C.hlp_lane_fail (mkArg none (some p) l)

/-- The resting lane of a port is ready again: two-lane mode where a recalibration ends or RESTORE is 1 (R272, R273). -/
def State.laneReady (s : State) (p : Nat) (j : LaneJob) : State :=
  if j.recal then
    ((((s.twoLanes p j.lane).set F.HLP_STAT_CALRUN 0 p).set F.HLP_CAL_DONE 1 p).bump F.HLP_LNKCNT_RECAL 1 p).calDone (2 * p + j.lane)
  else
    let s := s.report C.hlp_lane_restored (mkArg none (some p) j.lane)
    if s.on F.HLP_CTL_RESTORE p then s.twoLanes p j.lane
    else s.setPort p { s.port p with lane := some { j with phase := .idle } }

/-- A training frame while a lane of a port in state Up rests: lock, equalise, deskew (R272, R273). -/
def State.laneStep (s : State) (p : Nat) (f : TrainFrame) (j : LaneJob) : State :=
  let locked := if j.lane = 0 then f.lockA else f.lockB
  let setJ := fun (s : State) (ph : LanePhase) => s.setPort p { s.port p with lane := some { j with phase := ph } }
  if f.good && j.recal && !locked then s.failLane p j.lane
  else match j.phase with
    | .lock => if f.good && locked then setJ s (.eq (TapCal.start j.lane)) else s
    | .eq c =>
      match calFrame p f c s with
      | (some c', s) => setJ s (.eq c')
      | (none, s) => setJ s (.deskew 0)
    | .deskew t =>
      if !f.good then s
      else match deskew p (toSigned 6 f.skew.toNat) t s with
        | (.aligned, s) => s.laneReady p j
        | (.moved t', s) => setJ s (.deskew t')
        | (.failed, s) => (setJ s .lock).report C.hlp_skew_range (mkArg none (some p) 0)
    | .idle => if f.good && locked && s.on F.HLP_CTL_RESTORE p then s.twoLanes p j.lane else s

/-- The lock reports of a frame or message into HLP.STAT. -/
def State.noteLocks (s : State) (p : Nat) (clk a b : Bool) : State :=
  ((s.set F.HLP_STAT_CLK clk.toNat p).set F.HLP_STAT_LOCKA a.toNat p).set F.HLP_STAT_LOCKB b.toNat p

/-- What the lock reports of the bar node do to a port in state Up (R272, R273): `bad` names the lanes whose frames fail. -/
def State.laneReports (s : State) (p : Nat) (clk lockA lockB badA badB : Bool) : State :=
  let s := s.noteLocks p clk lockA lockB
  let failA := !lockA || badA
  let failB := !lockB || badB
  if !s.portUp p then s
  else if !clk || (!lockA && !lockB) then s.portDown p
  else match s.get F.HLP_STAT_MODE p, (s.port p).lane with
    | 0, _ => if failA && failB then s.portDown p else if failA then s.failLane p 0 else if failB then s.failLane p 1 else s
    | m, some j =>
      let carrierFails := if m = 1 then failA else failB
      let restLocked := if j.lane = 0 then lockA else lockB
      if carrierFails then
        if j.recal && restLocked then
          let s := (s.set F.HLP_CAL_ABANDONED 1 p).report C.hlp_cal_abandon (mkArg none (some p) j.lane)
          s.failLane p (1 - j.lane)
        else s.portDown p
      else if j.recal && !restLocked then s.failLane p j.lane
      else s
    | m, none => if (if m = 1 then failA else failB) then s.portDown p else s

/-! ### Commands -/

/-- UPSTREAM_TRAINING_FRAME (R264 to R275). -/
def doUpstreamTrainingFrame (p : Fin 16) (f : TrainFrame) (s : State) : State :=
  let st := s.get F.HLP_STAT_STATE p
  -- the upstream word boundary (R265 step 3, R267): found by the device, or by slips in manual mode
  let manual := s.on F.HLP_CTL_MANUAL p
  let hit := f.good && (f.ubit.toNat == s.get F.HLP_SKEW_UBIT p)
  let f' : TrainFrame := { f with good := hit }
  match st with
  | 1 =>
    let s := if hit || manual || !f.good then s else s.set F.HLP_SKEW_UBIT f.ubit.toNat p
    let good := f.good && (hit || !manual) && f.clk
    let x := s.port p
    let n := if good then (if hit then x.good + 1 else 1) else 0
    let s := s.setPort p { x with good := n, precap := f.precap }
    let s := if good then s.set F.HLP_STAT_CLK 1 p else s
    if 4 ≤ n then (s.set F.HLP_STAT_LOCKU 1 p).set F.HLP_STAT_STATE 2 p else s
  | 2 =>
    if !hit then s
    else
      let s := (s.setPort p { s.port p with precap := f.precap, tries := 0 }).noteLocks p f.clk f.lockA f.lockB
      if f.lockA && f.lockB then (s.set F.HLP_STAT_STATE 3 p).deskewStep p (toSigned 6 f.skew.toNat) else s
  | 3 => if hit then s.deskewStep p (toSigned 6 f.skew.toNat) else s
  | 4 => s.equaliseStep p f'
  | 5 => s.echoStep p f'
  | 6 =>
    match (s.port p).lane with
    | none => s
    | some j => s.laneStep p f j
  | _ => s

def execUpstreamTrainingFrame (p : Fin 16) (f : TrainFrame) (s : State) : Host.Outcome State Fault Refusal :=
  .next (doUpstreamTrainingFrame p f s)

/-- A software write of HLP.CTL(p) (R265, R268, R277). -/
def State.writeHlpCtl (s : State) (p : Nat) (v : Word) : State :=
  let off := R.HLP_CTL.off p 0
  let st := s.get F.HLP_STAT_STATE p
  let old := s.rd off
  let wasEn := fieldOf old 31 1 = 1
  let s := s.swWrite off v
  -- writes to TEST while STATE is not Down or Test are ignored
  let s := if st = 0 ∨ st = 8 then s else s.wr off (fieldPut (s.rd off) 28 1 (fieldOf old 28 1))
  let en := s.on F.HLP_CTL_EN p
  let test := s.on F.HLP_CTL_TEST p
  if !s.portPresent p then s.wr off old
  else if !en then
    let x := s.port p
    let s := s.setPort p { x with pauseEnd := none, cal := none, lane := none, attempts := 0, inj := none }
    let s := (((s.set F.HLP_STAT_STATE 0 p).set F.HLP_STAT_MODE 3 p).calEndPort p).set F.HLP_STAT_PRE 0 p
    let s := (((s.set F.HLP_STAT_LOCKA 0 p).set F.HLP_STAT_LOCKB 0 p).set F.HLP_STAT_LOCKU 0 p).set F.HLP_STAT_CLK 0 p
    if wasEn then s.dropSegments p else s
  else if !wasEn && st = 0 then
    if test then s.set F.HLP_STAT_STATE 8 p
    else ((s.setPort p { s.port p with attempts := 0 }).set F.HLP_RTT_VALID 0 p).startLink p
  else s

/-- PORT_ENABLE (R265): a write of HLP.CTL that sets EN. -/
def execPortEnable (p : Fin 16) (v : Word) (s : State) : Host.Outcome State Fault Refusal := .next (s.busWrite (R.HLP_CTL.off p 0) (fun s => s.writeHlpCtl p v))

/-- PORT_DISABLE (R268): a write of HLP.CTL that clears EN. -/
def execPortDisable (p : Fin 16) (v : Word) (s : State) : Host.Outcome State Fault Refusal := .next (s.busWrite (R.HLP_CTL.off p 0) (fun s => s.writeHlpCtl p v))

/-- LINKUP_TIMEOUT (R268): an attempt has lasted longer than LUTO. -/
def doLinkupTimeout (p : Fin 16) (s : State) : State :=
  let st := s.get F.HLP_STAT_STATE p
  if 1 ≤ st ∧ st ≤ 5 ∧ (s.port p).startAt + 1000 * max 1 (s.get F.HLP_CTL_LUTO p) < s.now then
    s.linkFail p C.hlp_linkup_timeout
  else s

def execLinkupTimeout (p : Fin 16) (s : State) : Host.Outcome State Fault Refusal := .next (doLinkupTimeout p s)

/-- LINKUP_RESTART (R268, R272): the 100 µs pause has ended. -/
def doLinkupRestart (p : Fin 16) (s : State) : State :=
  match (s.port p).pauseEnd with
  | none => s
  | some t => if s.on F.HLP_CTL_EN p && decide (t ≤ s.now) then s.startLink p else s

def execLinkupRestart (p : Fin 16) (s : State) : Host.Outcome State Fault Refusal := .next (doLinkupRestart p s)

/-- SLIP (R267): in manual mode, the upstream word boundary or the delay of one data lane. -/
def doSlip (p : Fin 16) (v : Word) (s : State) : State :=
  let kind := fieldOf v 1 1
  let lane := fieldOf v 2 2
  if fieldOf v 0 1 = 0 || !s.on F.HLP_CTL_MANUAL p || s.portUp p then s
  else if kind = 1 ∧ lane = 2 then s.set F.HLP_SKEW_UBIT ((s.get F.HLP_SKEW_UBIT p + 1) % 512) p
  else if kind = 0 ∧ lane = 0 then s.set F.HLP_SKEW_DA ((s.get F.HLP_SKEW_DA p + 1) % 32) p
  else if kind = 0 ∧ lane = 1 then s.set F.HLP_SKEW_DB ((s.get F.HLP_SKEW_DB p + 1) % 32) p
  else s

def execSlip (p : Fin 16) (v : Word) (s : State) : Host.Outcome State Fault Refusal := .next (s.busWrite (R.HLP_SLIP.off p 0) (fun s => doSlip p v s))

/-- Whether lane `l` carries mission frames. -/
def State.carries (s : State) (p l : Nat) : Bool :=
  s.portUp p && (s.get F.HLP_STAT_MODE p == 0 || s.get F.HLP_STAT_MODE p == l + 1)

/-- Whether lane `l` is being calibrated. -/
def State.calibrating (s : State) (p l : Nat) : Bool :=
  (s.port p).cal.any (fun c => c.lane == l) || (s.port p).lane.any (fun j => j.lane == l &&
    (match j.phase with
     | .eq _ => true
     | _ => false))

/-- FFE_WRITE (R269): ignored while the lane carries mission frames or is calibrated; refused when a tap or C0 would leave its
range. -/
def doFfeWrite (p : Fin 16) (l : Fin 2) (v : Word) (s : State) : State :=
  let a := toSigned 8 (fieldOf v 0 8)
  let b := toSigned 8 (fieldOf v 8 8)
  let c := toSigned 8 (fieldOf v 16 8)
  if !s.portPresent p || s.carries p l || s.calibrating p l || !tapsOk a b c then s else s.putTaps p l a b c

def execFfeWrite (p : Fin 16) (l : Fin 2) (v : Word) (s : State) : Host.Outcome State Fault Refusal := .next (s.busWrite (R.HLP_FFE.off p l) (fun s => doFfeWrite p l v s))

/-- RECALIBRATE (R273): a write of HLP.CAL(p); GO recalibrates LANE while its partner carries the port. -/
def doRecalibrate (p : Fin 16) (v : Word) (s : State) : State :=
  let s := s.swWrite (R.HLP_CAL.off p 0) v
  if fieldOf v 31 1 = 0 then s
  else if !s.portUp p || s.get F.HLP_STAT_MODE p != 0 || s.on F.HLP_STAT_CALRUN p then s.set F.HLP_CAL_REFUSED 1 p
  else
    let l := fieldOf v 30 1
    let s := s.setPort p { s.port p with lane := some { lane := l, recal := true, phase := .eq (TapCal.start l) } }
    (s.set F.HLP_STAT_MODE (if l = 0 then 2 else 1) p).set F.HLP_STAT_CALRUN 1 p

def execRecalibrate (p : Fin 16) (v : Word) (s : State) : Host.Outcome State Fault Refusal := .next (s.busWrite (R.HLP_CAL.off p 0) (fun s => doRecalibrate p v s))

/-- Whether the checker of a port checks a lane that its own generator feeds with the same PRBS pattern (R277, R278). -/
def State.loopChecked (s : State) (p : Nat) : Bool :=
  let src := s.get F.HLP_PCHK_SRC p
  let pat := fun (n : Nat) (top : Nat) => if top < n then 0 else n
  s.get F.HLP_STAT_STATE p == 8 && s.on F.HLP_CTL_LOOP p && s.on F.HLP_PGEN_EN p && s.on F.HLP_PCHK_EN p
    && ((src == 1 && s.on F.HLP_PGEN_LA p) || (src == 2 && s.on F.HLP_PGEN_LB p))
    && pat (s.get F.HLP_PGEN_PAT p) 5 == pat (s.get F.HLP_PCHK_PAT p) 3

/-- PCHK.LOCK follows the loopback path: 64 error-free bits pass at once in the time this model keeps (R278, log entry 12). -/
def State.checkerLock (s : State) (p : Nat) : State :=
  if s.get F.HLP_PCHK_SRC p = 1 ∨ s.get F.HLP_PCHK_SRC p = 2 then
    s.set F.HLP_PCHK_LOCK (if s.loopChecked p then 1 else 0) p
  else if s.on F.HLP_PCHK_EN p then s else s.set F.HLP_PCHK_LOCK 0 p

/-- PATTERN_INJECT (R277): a write of HLP.PGEN(p); INJ inverts one bit of the next PRBS symbol on each enabled lane, which a
locked loopback checker counts. -/
def doPatternInject (p : Fin 16) (v : Word) (s : State) : State :=
  let s := (s.swWrite (R.HLP_PGEN.off p 0) v).checkerLock p
  let prbs := s.get F.HLP_PGEN_PAT p ≠ 4 ∧ s.get F.HLP_PGEN_PAT p ≠ 5
  if fieldOf v 25 1 = 1 ∧ s.get F.HLP_STAT_STATE p = 8 ∧ s.on F.HLP_PGEN_EN p ∧ prbs then
    if s.loopChecked p && s.on F.HLP_PCHK_LOCK p then s.bump F.HLP_PERR_COUNT 1 p else s
  else s

def execPatternInject (p : Fin 16) (v : Word) (s : State) : Host.Outcome State Fault Refusal := .next (s.busWrite (R.HLP_PGEN.off p 0) (fun s => doPatternInject p v s))

/-- FRAME_INJECT (R279): a write of HLP.INJ(p); GO arms an injection into the next frame of a lane that carries frames. -/
def doFrameInject (p : Fin 16) (v : Word) (s : State) : State :=
  let s := s.swWrite (R.HLP_INJ.off p 0) v
  let l := fieldOf v 30 1
  if fieldOf v 31 1 = 0 || !s.carries p l then s
  else s.setPort p { s.port p with inj := some { lane := l, nbits := clampN 1 16 (fieldOf v 20 5), start := fieldOf v 0 11 } }

def execFrameInject (p : Fin 16) (v : Word) (s : State) : Host.Outcome State Fault Refusal := .next (s.busWrite (R.HLP_INJ.off p 0) (fun s => doFrameInject p v s))

/-- One entry of the cable record (R281). -/
def cableEntry (s : State) (p : Nat) : List Byte :=
  if !s.portPresent p then List.replicate 16 0
  else
    leBytes 1 (s.get F.HLP_STAT_STATE p) ++ leBytes 1 (s.get F.HLP_STAT_MODE p) ++ leBytes 2 (s.get F.HLP_RTT_RAW p) ++
      leBytes 2 (s.get F.HLP_CABLE_LTU p) ++ leBytes 2 (s.get F.HLP_RTT_TRIM p) ++ leBytes 2 (s.get F.HLP_CABLE_MM p) ++
      leBytes 2 (s.get F.FIRE_PDLY_DLY p) ++ leBytes 4 (s.get F.HLP_LNKCNT_LINKUPS p)

/-- The 256 bytes of MEAS_READ kind 3 (R281). -/
def cableRecord (s : State) : List Byte := (List.range 16).flatMap (cableEntry s)

end Sys2Proof.Machine
end

