-- ==== Sys2Proof/Machine/Link.lean ====
section
/-! DEFINITION. The head link protocol (chapter 12): downstream frames with their FEC and scrambler, the feeder, and the control
messages of bar nodes and segments. -/

namespace Sys2Proof.Machine

/-! ### FEC and scrambler (R285, R286) -/

/-- The generator g(x) of R285 without its leading term: the product of the minimal polynomials of α, α^3, …, α^15. -/
def bchPoly : Nat := 0xb946268e6527c3e1cd4ba01d

/-- One step of the division by g(x). -/
def bchStep (r : Nat) (b : Bool) : Nat :=
  let fb := (bitN r 95 == 1) ^^ b
  let sh := r * 2 % 2 ^ 96
  if fb then Nat.xor sh bchPoly else sh

/-- `k` further multiplications by x modulo g(x). -/
def bchShift : Nat → Nat → Nat
  | 0, r => r
  | k + 1, r => bchShift k (bchStep r false)

/-- The bits of a word, most significant first. -/
def wordBits (w : Word) : List Bool := (List.range 32).map (fun i => w.getLsbD (31 - i))

/-- The check polynomial of the 61 words of header and payload (R285): m(x) x^96 mod g(x), where frame bit i is the coefficient of
x^(2047 - i) in m(x). -/
def bchCheck (ws : List Word) : Nat := bchShift 96 ((ws.flatMap wordBits).foldl bchStep 0)

/-- One step of the scrambler of R286: its bit and its next state. -/
def scrStep (s : Nat) : Bool × Nat :=
  let b := (bitN s 22 + bitN s 4) % 2
  (b == 1, (s * 2 + b) % 2 ^ 23)

/-- Scrambles a bit string from a state (R286). -/
def scramble : List Bool → Nat → List Bool × Nat
  | [], s => ([], s)
  | b :: t, s =>
    let (x, s') := scrStep s
    let (r, e) := scramble t s'
    ((b ^^ x) :: r, e)

/-- Bits as words, most significant first; `n` words. -/
def packBits : Nat → List Bool → List Word
  | 0, _ => []
  | n + 1, bs => w32 ((bs.take 32).foldl (fun a b => 2 * a + b.toNat) 0) :: packBits n (bs.drop 32)

/-- Inverts the bits of an injection (R279) in a frame as transmitted. -/
def injectBits (j : FrameInj) (bs : List Bool) : List Bool :=
  let ps := (List.range j.nbits).map (fun i => (j.start + 128 * i) % 2048)
  bs.zipIdx.map (fun e => if ps.contains e.2 then !e.1 else e.1)

/-! ### The port line (R20, R295 to R299) -/

/-- The bytes of one FIFO slot of a port (R20). -/
def State.slotBytes (s : State) (p : Nat) : Nat :=
  (s.portSegs p).length * 64 * s.depth ((frameOwner s.liveFrame p).getD 0)

/-- The Tarn offset of the FIFO slot of line `n` on a port (R20; log entry 13): slots are used in turn. -/
def State.fifoAddr (s : State) (p n : Nat) : Option Nat :=
  match s.liveFrame.fifos.find? (fun e => e.1.val == p) with
  | none => none
  | some (_, base, bytes) =>
    let sl := s.slotBytes p
    if sl = 0 ∨ bytes < sl then none else some (base + n % (bytes / sl) * sl)

/-- The waveform slot that the header of line `n` carries (R249, R297): FIRE.CTL(b).SLOT as the groups that switch at or below line
`n` leave it. -/
def State.slotAt (s : State) (b n : Nat) : Nat :=
  s.ticketOrder.foldl (fun a g =>
    (s.group g).words.foldl (fun a w => if w.1 = R.FIRE_CTL.off b 0 ∧ s.switchesAt g b n then fieldOf w.2 28 3 else a) a)
    (s.get F.FIRE_CTL_SLOT b)

/-- The trim words of a LINE_HDR (R297): three 9-bit trims in each. -/
def trimWords : List Nat → List Word
  | a :: b :: c :: t => w32 (a + b * 2 ^ 9 + c * 2 ^ 18) :: trimWords t
  | [] => []
  | [a] => [w32 a]
  | [a, b] => [w32 (a + b * 2 ^ 9)]

/-- LINE_HDR of line `n` on a port (R297). -/
def State.lineHdr (s : State) (p b n : Nat) : List Word :=
  let trims := (s.portSegs p).map (fun q => s.get F.FIRE_SEG_TRIM (p * 128 + q))
  dnMsg 0x01 0xFF 0 ([w32 n, w32 (n / 2 ^ 32), w32 (s.slotAt b n * 2 ^ 29)] ++ trimWords trims)

/-- The runs of port-line words that the feeder sends (R295, R319): the blocks of the segments whose SEGEN bit is set, adjacent
blocks joined. -/
def blockRuns (len : Nat) : List Bool → (k : Nat) → List (Nat × Nat)
  | [], _ => []
  | false :: t, k => blockRuns len t (k + 1)
  | true :: t, k =>
    match blockRuns len t (k + 1) with
    | (st, c) :: r => if st = (k + 1) * len then (k * len, c + len) :: r else (k * len, len) :: (st, c) :: r
    | [] => [(k * len, len)]

/-- Whether line `n` may be begun on a port (R300): credit, the line complete, and the bar node's descriptor accepted (R310). -/
def State.mayFeed (s : State) (p b n : Nat) : Bool :=
  let x := s.fireBar b
  let bufd := s.get F.HLK_PSTAT_BUFDMIN p
  let credit := decide (n < x.first + bufd) || (s.instantOf b (n - bufd)).any
    (fun t => decide (t + s.get F.FIRE_PDLY_DLY p ≤ s.fireC))
  s.get F.HLK_PSTAT_BNSTATE p == 2 && s.barActive b && decide (x.first ≤ n) && credit &&
    x.complete.any (fun e => e.1 == n) && !(x.stopAt.any (fun m => decide (m ≤ n)))

/-- FIRE of a line on a port (R299): link time t − E_p − δ_p. -/
def State.fireMsg (s : State) (p n t flags : Nat) : List Word :=
  let lt := (t + 2 ^ 65 - (s.port p).epoch.getD 0 - s.get F.FIRE_PDLY_DLY p) % 2 ^ 64
  dnMsg 0x03 0xFF flags [w32 (n % 65536 * 65536), w32 lt, w32 (lt / 2 ^ 32)]

/-! ### Filling a frame (R292) -/

/-- Takes messages from a queue while they fit in the words left: those taken, those left, the words left, and whether the head
of what is left did not fit. -/
def takeFit : List (List Word) → Nat → List (List Word) × List (List Word) × Nat
  | [], r => ([], [], r)
  | m :: t, r =>
    if m.length ≤ r then
      let (a, b, r') := takeFit t (r - m.length)
      (m :: a, b, r')
    else ([], m :: t, r)

/-- Fills the rest of a frame with line messages (R292, R296 to R300): the messages, and the state after them. -/
def fillLines (p b : Nat) : (fuel room : Nat) → State → List (List Word) × State
  | 0, _, s => ([], s)
  | k + 1, room, s =>
    let x := s.port p
    match x.feed with
    | none =>
      let n := x.nextLine
      if !s.mayFeed p b n then ([], s)
      else
        let s' := s.startUnit (.feeder p) b n
        let h := s'.lineHdr p b n
        if room < h.length then ([], s)
        else
          let on := (s'.portSegs p).map (fun q => s'.segen (p * 128 + q))
          let runs := blockRuns (16 * s'.depth b) on 0
          let s' := s'.bump F.HLK_DISCARD_COUNT (on.filter (fun c => !c)).length p
          let fl : FeedLine := { line := n, runs := runs, hdr := true }
          let s' := s'.setPort p { s'.port p with feed := some fl }
          let (ms, s'') := fillLines p b k (room - h.length) s'
          (h :: ms, s'')
    | some f =>
      match f.runs with
      | [] => fillLines p b k room (s.setPort p { x with feed := none, nextLine := f.line + 1 })
      | (st, c) :: rest =>
        if room < 3 then ([], s)
        else
          let m := min c (min (room - 2) 58)
          match s.fifoAddr p f.line with
          | none => ([], s)
          | some a =>
            let r := s.readTarn (a + 4 * st) (4 * m) (some b) (some (w64 f.line))
            let s := r.st
            if r.bad then
              -- the line is not complete on this port (R360): the feeder gives it up, and R248 finds it late
              let fb := s.fireBar b
              let s := s.setFireBar b { fb with complete := fb.complete.filter (fun e => e.1 != f.line) }
              fillLines p b k room (s.setPort p { s.port p with feed := none, nextLine := f.line + 1 })
            else
              let msg := dnMsg 0x02 0xFF 0 ([w32 (f.line % 65536 * 65536 + st)] ++ bytesToWords r.bytes)
              let runs := if m = c then rest else (st + m, c - m) :: rest
              let s := s.setPort p { s.port p with feed := some { f with runs := runs } }
              let (ms, s) := fillLines p b k (room - msg.length) s
              (msg :: ms, s)

/-- Marks the control messages of a sent frame: the answer time of R305 and R308 begins at its end. -/
def State.noteSent (s : State) (p : Nat) (m : List Word) : State :=
  let h := m.headD 0
  let mtype := fieldOf h 26 6
  -- for LOADREQ the device uses SENS.LTO.MS in place of ACKTO (R460)
  let due := s.now + (if mtype = 0x12 then 1000000 * max 1 (s.get F.SENS_LTO_MS) else 1000 * max 1 (s.get F.HLK_CFG_ACKTO))
  if mtype = 0x10 then
    let w := m.getD 1 0
    let g := fieldOf w 10 6
    let x := s.group g
    s.setGroup g { x with blocks := x.blocks.map (fun b =>
      if b.port = p ∧ b.param.toNat = fieldOf w 16 16 then { b with due := some due } else b) }
  else
    let x := s.port p
    s.setPort p { x with pend := x.pend.map (fun q =>
      if q.mtype = mtype ∧ q.tok = fieldOf h 0 12 ∧ q.due.isNone then { q with due := some due } else q) }

/-- The line messages that fill the rest of a frame of a port (R292): none while no bar owns it. -/
def State.lineMsgs (s : State) (p room : Nat) : List (List Word) × State :=
  match frameOwner s.liveFrame p with
  | some b => fillLines p b 64 room s
  | none => ([], s)

/-- The messages of the next frame in their order of priority (R292), and the state without them. -/
def State.frameMsgs (s : State) (p : Nat) : List (List Word) × State :=
  let x := s.port p
  let (a, fireQ, r0) := takeFit x.fireQ 60
  let (c, resendQ, r1) := if fireQ = [] then takeFit x.resendQ r0 else ([], x.resendQ, 0)
  let (d, ctlQ, r2) := if fireQ = [] ∧ resendQ = [] then takeFit x.ctlQ r1 else ([], x.ctlQ, 0)
  let s := s.setPort p { x with fireQ := fireQ, resendQ := resendQ, ctlQ := ctlQ }
  if fireQ = [] ∧ resendQ = [] ∧ ctlQ = [] then
    let (e, s) := s.lineMsgs p r2
    (a ++ c ++ d ++ e, s)
  else (a ++ c ++ d, s)

/-- The words of frame `k` before its FEC (R284): the header, the messages, zeros. -/
def frameData (mode k : Nat) (body : List Word) : List Word :=
  w32 (mode * 2 ^ 30 + (if k = 0 then 2 ^ 29 else 0) + k % 8192 * 2 ^ 16 + body.length * 2 ^ 10) ::
    (body ++ List.replicate (60 - body.length) 0)

/-- A frame with its check bits (R285). -/
def fecWords (data : List Word) : List Word :=
  let check := bchCheck data
  data ++ [w32 (check / 2 ^ 64), w32 (check / 2 ^ 32), w32 check]

/-- Sends frame `k` with messages `msgs` on its lane (R271, R279, R284 to R286), keeps its copy (R302), and starts the answer times. -/
def State.sendFrame (s : State) (p k : Nat) (msgs : List (List Word)) : State :=
  let x := s.port p
  let mode := s.get F.HLP_STAT_MODE p
  let lane := if mode = 0 then k % 2 else mode - 1
  let e := scramble ((fecWords (frameData mode k msgs.flatten)).flatMap wordBits) (if lane = 0 then x.scrA else x.scrB)
  let hit := x.inj.any (fun j => j.lane == lane)
  let bits := match x.inj with
    | some j => if hit then injectBits j e.1 else e.1
    | none => e.1
  let out := packBits 64 bits
  let y : Port := { x with k := k + 1, inj := if hit then none else x.inj, sent := ({ k := k, msgs := msgs } :: x.sent).take 64,
                           scrA := if lane = 0 then e.2 else x.scrA, lastA := if lane = 0 then out else x.lastA,
                           scrB := if lane = 0 then x.scrB else e.2, lastB := if lane = 0 then x.lastB else out }
  msgs.foldl (fun s m => s.noteSent p m) (s.setPort p y)

/-- DOWNSTREAM_FRAME (R271, R284 to R300): one frame slot of a port in state Up. The first frame after link-up carries EPOCH, and E_p is C as
it is sent (R238, R304). -/
def doDownstreamFrame (p : Fin 16) (s : State) : State :=
  if !s.portUp p then s
  else
    let k := (s.port p).k
    let s := if k = 0 then s.setPort p { s.port p with epoch := some s.fireC } else s
    let r := s.frameMsgs p
    r.2.sendFrame p k r.1

def execDownstreamFrame (p : Fin 16) (s : State) : Host.Outcome State Fault Refusal := .next (doDownstreamFrame p s)

/-! ### Upstream messages: fields (R291) -/

/-- The fields of an upstream header. -/
def upType (m : List Word) : Nat := fieldOf (m.headD 0) 26 6
def upSrc (m : List Word) : Nat := fieldOf (m.headD 0) 15 7
def upBn (m : List Word) : Bool := fieldOf (m.headD 0) 14 1 == 1
def upArg (m : List Word) : Nat := fieldOf (m.headD 0) 0 14

/-- Whether a delivered message is of type `t` on a port in state Up. -/
def State.upOk (s : State) (p : Nat) (m : List Word) (t : Nat) : Bool := s.portUp p && upType m == t

/-- A delivered message pulses the event of its port (R33). -/
def State.upEvent (s : State) (p : Nat) (m : List Word) (t : Nat) : State := if s.upOk p m t then s.postEvent (0x140 + p) else s

/-- A Lost segment that answers is Present again (R315). -/
def State.fromSeg (s : State) (p : Nat) (m : List Word) : State :=
  let sg := p * 128 + upSrc m
  if !upBn m ∧ s.segState sg = sgLost then
    (s.setSeg sg { s.seg sg with pingMiss := 0 }).setSegState sg sgPresent
  else s

/-- Removes the unanswered message with a token; the message removed. -/
def State.takePend (s : State) (p tok : Nat) : Option Pend × State :=
  let x := s.port p
  (x.pend.find? (fun q => q.tok == tok), s.setPort p { x with pend := x.pend.filter (fun q => q.tok != tok) })

/-- ACK (R294, R305): the exchange ends; an accepted ADMIT returns the segment to Active; an answered PING clears the count. -/
def doAck (p : Fin 16) (m : List Word) (s : State) : State :=
  if !s.upOk p m 0x20 then s
  else
    let s := s.fromSeg p m
    match s.takePend p (upArg m % 4096) with
    | (none, s) => s
    | (some q, s) =>
      let sg := p * 128 + q.dst
      if upArg m / 4096 ≠ 0 then s
      else if q.mtype = 0x0E ∧ s.segState sg = sgStandby then s.setSegState sg sgActive
      else if q.mtype = 0x0C then s.setSeg sg { s.seg sg with pingMiss := 0 }
      else s

def execAckMsg (p : Fin 16) (m : List Word) (s : State) : Host.Outcome State Fault Refusal := .next (doAck p m (s.upEvent p m 0x20))

/-- The presence mask of the bar node (R310, R288, R315): for the segment indices below `n`. -/
def presence (p : Nat) (mask : Nat) : Nat → State → State
  | 0, s => s
  | n + 1, s =>
    let s := presence p mask n s
    let sg := p * 128 + n
    let st := s.segState sg
    if bitN mask n = 1 then (if st = sgAbsent then s.setSegState sg sgPresent else s)
    else if st = sgAbsent then s
    else (s.setSeg sg { s.seg sg with cap := [], slots := [], capAt := none, pingMiss := 0, joinGroup := none }).setSegState
      sg sgAbsent

/-- Four mask words as a number. -/
def maskOf (m : List Word) (k : Nat) : Nat :=
  (List.range 4).foldl (fun a i => a + (m.getD (k + i) 0).toNat * 2 ^ (32 * i)) 0

/-- BNCAP (R310): FAN sets PDLY (R239); a wrong version or a MSGLAT above 3,516 LTU fails the port. -/
def doBncap (p : Fin 16) (m : List Word) (s : State) : State :=
  if !s.upOk p m 0x21 then s
  else
    let (q, s) := s.takePend p (upArg m % 4096)
    if q.isNone then s
    else if fieldOf (m.getD 1 0) 24 8 ≠ 1 ∨ 3516 < fieldOf (m.getD 3 0) 0 16 then
      (((s.report C.hlk_bn_refused (mkArg none (some p) 0)).portDown p)).set F.HLK_PSTAT_BNSTATE 3 p
    else
      let s := s.setPort p { s.port p with bncap := m.drop 1 }
      let s := (s.set F.HLK_PSTAT_BNSTATE 2 p).set F.HLK_PSTAT_FAN (fieldOf (m.getD 2 0) 0 16) p
      presence p (maskOf m 4) 128 (s.setPdly p)

def execBncap (p : Fin 16) (m : List Word) (s : State) : Host.Outcome State Fault Refusal := .next (doBncap p m (s.upEvent p m 0x21))

/-- Whether a descriptor passes the conditions of R316 that CAP alone decides. -/
def State.capPasses (s : State) (sg : Nat) (c : List Word) : Bool :=
  let w0 := c.getD 0 0
  let w4 := c.getD 4 0
  let d := s.depth ((s.segBar sg).getD 0)
  fieldOf w0 0 8 == 1 && fieldOf w0 16 16 == 512 && fieldOf w4 d 1 == 1 && decide (2 ≤ fieldOf w4 8 8) &&
    decide (fieldOf w4 8 8 ≤ 16)

/-- CAP (R311, R315, R316): the segment goes to Standby or Refused; after a relink the same segment is admitted again. -/
def doCap (p : Fin 16) (m : List Word) (s : State) : State :=
  if !s.upOk p m 0x22 then s
  else
    let s := s.fromSeg p m
    let sg := p * 128 + upSrc m
    let x := s.port p
    match x.pend.find? (fun q => q.tok == upArg m % 4096 && q.mtype == 0x09) with
    | none => s
    | some q =>
      -- the eight SLOTINFO must follow within 1 ms, or CAPQ counts as unanswered
      let s := s.setPort p { x with pend := x.pend.map (fun r => if r.tok = q.tok then { r with due := some (s.now + 1000000) } else r) }
      let c := m.drop 1
      let s := s.setSeg sg { s.seg sg with cap := c, capAt := some s.now }
      if !s.capPasses sg c then (s.setSegState sg sgRefused).report C.hlk_seg_incompatible (mkArg none (some p) (upSrc m))
      else
        let s := (s.setSegState sg sgStandby).set F.HLK_SEG_BUFD (fieldOf (c.getD 4 0) 8 8) sg
        let bar := s.segBar sg
        match (s.seg sg).held with
        | none => s
        | some h =>
          if !s.segen sg then s
          else if h = (capSerial c, capSlotgen c) ∧ !(bar.any s.barActive) then s.sendAdmit sg
          else s.report C.hlk_seg_changed (mkArg none (some p) (upSrc m))

def execCap (p : Fin 16) (m : List Word) (s : State) : Host.Outcome State Fault Refusal := .next (doCap p m (s.upEvent p m 0x22))

/-- SLOTINFO (R312, R316): a slot's declaration; with the eighth after CAPQ the active slot is checked. -/
def doSlotinfo (p : Fin 16) (m : List Word) (s : State) : State :=
  if !s.upOk p m 0x23 then s
  else
    let s := s.fromSeg p m
    let sg := p * 128 + upSrc m
    let k := upArg m % 8
    let w1 := m.getD 1 0
    let x := s.seg sg
    let e := (k, fieldOf w1 31 1 == 1, fieldOf w1 24 4, (m.getD 2 0).toNat, (m.getD 3 0).toNat)
    let slots := x.slots.filter (fun t => t.1 != k) ++ [e]
    let s := s.setSeg sg { x with slots := slots }
    let s := s.set F.HLK_SEG_LEAD (min 65535 (s.activeSlot sg).2.2.2) sg
    let b := (s.segBar sg).getD 0
    let s := (s.setSegLead).setRates b
    if x.capAt.isSome ∧ 8 ≤ slots.length then
      let y := s.port p
      let s := s.setPort p { y with pend := y.pend.filter (fun q => !(q.mtype == 0x09 && q.dst == upSrc m)) }
      let s := s.setSeg sg { s.seg sg with capAt := none }
      let (v, d, r, _) := s.activeSlot sg
      if s.segState sg = sgStandby ∧ !(v && d == s.depth b && decide (s.liveFrame.lineRate ≤ r)) then
        s.report C.hlk_seg_incompatible (mkArg none (some p) (upSrc m))
      else s
    else s

def execSlotinfo (p : Fin 16) (m : List Word) (s : State) : Host.Outcome State Fault Refusal := .next (doSlotinfo p m (s.upEvent p m 0x23))

/-- STAGED (R308): a segment holds a staged block, or cannot accept it. -/
def doStaged (p : Fin 16) (m : List Word) (s : State) : State :=
  if !s.upOk p m 0x24 then s
  else
    let s := s.fromSeg p m
    let w := m.getD 1 0
    let g := fieldOf w 0 6
    let q := upSrc m
    let x := s.group g
    let mine := fun (b : StagedBlock) => b.port == p.val && b.param.toNat == fieldOf w 16 16 && bitN b.waiting q == 1
    if !x.blocks.any mine then s
    else
      let bs := x.blocks.map (fun b => if mine b then { b with waiting := b.waiting - 2 ^ q } else b)
      let failed := if upArg m / 4096 = 0 then x.failed else x.failed.orElse (fun _ => some (p.val * 128 + q))
      s.setGroup g { x with blocks := bs, failed := failed }

def execStaged (p : Fin 16) (m : List Word) (s : State) : Host.Outcome State Fault Refusal := .next (doStaged p m (s.upEvent p m 0x24))

/-- STAGE_TIMEOUT (R308): block `k` of group `g` goes again to the segments that have not answered. -/
def doStageTimeout (g : Fin 64) (k : Nat) (s : State) : State :=
  let x := s.group g
  match x.blocks[k]? with
  | none => s
  | some b =>
    if b.waiting = 0 ∨ !(b.due.any (fun t => decide (t ≤ s.now))) ∨ max 1 (s.get F.HLK_CFG_RETRY) ≤ b.tries ∨
        s.gstate g ≠ cgCommitted then s
    else
      let b' := { b with due := none, tries := b.tries + 1 }
      (s.setGroup g { x with blocks := x.blocks.set k b' }).sendStage g (s.gline g) b' b.waiting

def execStageTimeout (g : Fin 64) (k : Nat) (s : State) : Host.Outcome State Fault Refusal := .next (doStageTimeout g k s)

/-- APPLIED (R308, R318): a segment applied a group; a JOIN makes it Active. -/
def doApplied (p : Fin 16) (m : List Word) (s : State) : State :=
  if !s.upOk p m 0x25 then s
  else
    let s := s.fromSeg p m
    let g := upArg m % 64
    let sg := p * 128 + upSrc m
    let x := s.group g
    let s := s.setGroup g { x with unapplied := x.unapplied.filter (fun e => e.1 != sg) }
    if (s.seg sg).joinGroup = some g then
      -- the staleness count of R252 begins with the lines it fires
      let f := (s.flineOf ((s.segBar sg).getD 0)).toNat
      (s.setSeg sg { s.seg sg with joinGroup := none, telLine := some ((f + 1) % 2 ^ 64) }).setSegState sg sgActive
    else s

def execApplied (p : Fin 16) (m : List Word) (s : State) : Host.Outcome State Fault Refusal := .next (doApplied p m (s.upEvent p m 0x25))

/-- APPLIED_TIMEOUT (R308): cmt.seg_apply_missed; QUIET for the first uncommitted line, and the SEGEN bit is cleared. -/
def doAppliedTimeout (g : Fin 64) (sg : Fin 2048) (s : State) : State :=
  let x := s.group g
  if !x.unapplied.any (fun e => e.1 == sg.val && decide (e.2 ≤ s.now)) then s
  else
    let p := sg.val / 128
    let q := sg.val % 128
    let s := s.setGroup g { x with unapplied := x.unapplied.filter (fun e => e.1 != sg.val) }
    let s := s.report C.cmt_seg_apply_missed (mkArg none (some p) q)
    let s := s.sendQuiet sg (s.fireBar ((s.segBar sg).getD 0)).next
    let w := s.rd (R.HLK_SEGEN.off p (q / 32))
    let s := s.wr (R.HLK_SEGEN.off p (q / 32)) (fieldPut w (q % 32) 1 0)
    let s := s.setSeg sg { s.seg sg with joinGroup := none }
    if s.segState sg = sgActive then s.setSegState sg sgStandby else s.segSetChanged p

def execAppliedTimeout (g : Fin 64) (sg : Fin 2048) (s : State) : Host.Outcome State Fault Refusal := .next (doAppliedTimeout g sg s)

/-- BNSTAT (R288, R294, R272): corrected bits, presence, and the lanes. -/
def doBnstat (p : Fin 16) (m : List Word) (s : State) : State :=
  if !s.upOk p m 0x29 then s
  else
    let a := upArg m
    let s := s.bump F.HLK_FECCOR_COUNT (m.getD 1 0).toNat p
    let s := if s.get F.HLK_PSTAT_BNSTATE p = 2 then presence p (maskOf m 2) 128 s else s
    s.laneReports p (bitN a 0 == 1) (bitN a 1 == 1) (bitN a 2 == 1) (bitN a 3 == 1) (bitN a 4 == 1)

def execBnstat (p : Fin 16) (m : List Word) (s : State) : Host.Outcome State Fault Refusal := .next (doBnstat p m (s.upEvent p m 0x29))

/-- PING_PERIOD (R315): PING to each Standby or Active segment; a period of 0 disables it. -/
def doPingPeriod (p : Fin 16) (s : State) : State :=
  if !s.portUp p || s.get F.HLK_CFG_PING == 0 then s
  else (((List.range 128).map (p.val * 128 + ·)).filter
      (fun sg => s.segState sg == sgStandby || s.segState sg == sgActive)).foldl (fun s sg => s.sendPing sg) s

def execPingPeriod (p : Fin 16) (s : State) : Host.Outcome State Fault Refusal := .next (doPingPeriod p s)

/-- A control message whose last retry went unanswered (R305, R315). -/
def State.giveUp (s : State) (p : Nat) (q : Pend) : State :=
  let s := (s.takePend p q.tok).2
  let sg := p * 128 + q.dst
  let lost := fun (s : State) =>
    ((s.set F.HLK_SEG_STATE sgLost sg).segSetChanged p).report C.hlk_seg_lost (mkArg none (some p) q.dst)
  let s := s.report C.hlk_ack_timeout (mkArg none (some p) (q.dst % 256))
  if q.mtype = 0x0C then
    let n := (s.seg sg).pingMiss + 1
    let s := s.setSeg sg { s.seg sg with pingMiss := n }
    if max 1 (s.get F.HLK_CFG_LOSTN) ≤ n ∧ (s.segState sg = sgStandby ∨ s.segState sg = sgActive) then lost s else s
  else if q.mtype = 0x09 then lost (s.setSeg sg { s.seg sg with capAt := none })
  else s

end Sys2Proof.Machine
end

