-- ==== Sys2Proof/Machine/Screen.lean ====
section
/-! DEFINITION. One printed line through a bar's pipeline (chapters 07 and 08): the checks of each stripe and the fills (R188 to
R190), chroma and separation (R184 to R187), screening (R196 to R215), and the port line FIFOs (R197, R295). -/

namespace Sys2Proof.Machine

/-! ### Reads of tables and of the nozzle map (R360) -/

/-- A value read from Tarn: the keys whose read has an effect of its own (a corrected or uncorrectable byte, or a memory under RAW),
and whether a byte is uncorrectable. -/
structure Seen where
  v : Nat
  odd : List Nat
  bad : Bool

/-- One byte of Tarn as a unit reads it (R355, R365). -/
def State.seeByte (s : State) (a : Nat) : Seen :=
  let k := tarnKey a
  if s.on F.TARN_TCTL_RAW (keyMem k) then
    let pk := s.physKey k
    { v := (if s.lineValid pk then s.storedData pk else 0).toNat, odd := [k], bad := false }
  else
    let r := s.peekByte k
    { v := r.1.toNat, odd := if r.2 = .clean then [] else [k], bad := r.2.isUncorr }

/-- `n` little-endian bytes of Tarn. -/
def State.see (s : State) (a : Nat) : Nat → Seen
  | 0 => { v := 0, odd := [], bad := false }
  | n + 1 =>
    let x := s.seeByte a
    let y := s.see (a + 1) n
    { v := x.v + 256 * y.v, odd := x.odd ++ y.odd, bad := x.bad || y.bad }

/-- The counts and reports of the reads of one line, each byte once (R359, R360). -/
def State.noteSeen (s : State) (b n : Nat) (keys : List Nat) : State :=
  keys.eraseDups.foldl (fun s k => (s.readKeys [k] (some b) (some (w64 n))).st) s

/-! ### Separation (R184 to R187) -/

/-- What separation hands on for a column (R185): its kind (0 BLANK, 1 TONE, 2 DROP), its tone or level, the keys of R360 it read and
whether one was uncorrectable. -/
structure SepCol where
  kind : Nat
  d : Nat
  odd : List Nat
  bad : Bool

def SepCol.blank : SepCol := { kind := 0, d := 0, odd := [], bad := false }

/-- The tables of one bar for one line: the Tarn offsets of the live banks (R186), and TLEN. -/
structure SepTabs where
  lat : Nat
  lin : Nat
  trim : Nat
  tlen : Bool

def State.sepTabs (s : State) (b : Nat) : SepTabs :=
  let at_ := fun ix => (s.bankAddr (0x1000 + b * 256 + ix) false).getD 0
  { lat := at_ 0, lin := at_ 1, trim := at_ 2, tlen := s.on F.IBF_CTL_TLEN b }

/-- Linearisation and trim of a tone (R187). -/
def State.toneOf (s : State) (e : SepTabs) (t : Nat) : SepCol :=
  let u := t / 16
  let f := t % 16
  let a0 := s.see (e.lin + 2 * u) 2
  let a1 := s.see (e.lin + 2 * min (u + 1) 4095) 2
  let q : Int := (a0.v : Int) + (((a1.v : Int) - a0.v) * f + 8) / 16
  let odd := a0.odd ++ a1.odd
  let bad := a0.bad || a1.bad
  if e.tlen then
    let kk := q.toNat / 1024
    let g := q.toNat % 1024
    let t0 := s.see (e.trim + 2 * kk) 2
    let t1 := s.see (e.trim + 2 * kk + 2) 2
    let v0 := toSigned 16 t0.v
    let tr := v0 + ((toSigned 16 t1.v - v0) * g + 512) / 1024
    { kind := 1, d := (clampI 0 65535 (q + tr)).toNat, odd := odd ++ t0.odd ++ t1.odd, bad := bad || t0.bad || t1.bad }
  else { kind := 1, d := q.toNat, odd := odd, bad := bad }

/-- The four lattice nodes of a colour with their weights (R187): (weight, di, dj, dk). -/
def latWeights (fr fg fb : Nat) : List (Nat × Nat × Nat × Nat) :=
  if fg ≤ fr ∧ fb ≤ fg then [(32 - fr, 0, 0, 0), (fr - fg, 1, 0, 0), (fg - fb, 1, 1, 0), (fb, 1, 1, 1)]
  else if fb ≤ fr ∧ fg < fb then [(32 - fr, 0, 0, 0), (fr - fb, 1, 0, 0), (fb - fg, 1, 0, 1), (fg, 1, 1, 1)]
  else if fr < fb ∧ fg ≤ fr then [(32 - fb, 0, 0, 0), (fb - fr, 0, 0, 1), (fr - fg, 1, 0, 1), (fg, 1, 1, 1)]
  else if fr < fg ∧ fb ≤ fr then [(32 - fg, 0, 0, 0), (fg - fr, 0, 1, 0), (fr - fb, 1, 1, 0), (fb, 1, 1, 1)]
  else if fb ≤ fg ∧ fr < fb then [(32 - fg, 0, 0, 0), (fg - fb, 0, 1, 0), (fb - fr, 0, 1, 1), (fr, 1, 1, 1)]
  else [(32 - fb, 0, 0, 0), (fb - fg, 0, 0, 1), (fg - fr, 0, 1, 1), (fr, 1, 1, 1)]

/-- The tone of a colour (R187). -/
def State.colourOf (s : State) (e : SepTabs) (yv cbv crv : Nat) : SepCol :=
  let node := fun (di dj dk : Nat) => s.see (e.lat + (((yv / 32 + di) * 33 + (cbv / 32 + dj)) * 33 + (crv / 32 + dk)) * 2) 2
  let ns := (latWeights (yv % 32) (cbv % 32) (crv % 32)).map (fun w => (w.1, node w.2.1 w.2.2.1 w.2.2.2))
  let v := ns.foldl (fun a w => a + w.1 * w.2.v) 0
  let c := s.toneOf e ((v + 16) / 32)
  { c with odd := ns.flatMap (fun w => w.2.odd) ++ c.odd, bad := ns.any (fun w => w.2.bad) || c.bad }

/-- The rows of one contone line of an instance as the line buffer holds them: the samples of channel `ch` over the stripes below
`ns`, `sw` samples each but for the last (none where a stripe's row is not there). -/
def bufRow (buf : List RowSet) (inst y ch sw w ns : Nat) : Array (Option Nat) :=
  ((List.range ns).flatMap (fun k =>
    let n := min sw (w - sw * k)
    match buf.find? (fun r => r.inst == inst && r.stripe == k && r.line == y) with
    | none => List.replicate n none
    | some r => match r.rows.find? (fun c => c.1 == ch) with
      | none => List.replicate n none
      | some c => c.2.map some)).toArray

/-- The chroma of a pixel of a 4:2:2 or 4:2:0 row (R184); `ready k` says whether stripe `k` is complete for the line. -/
def up2 (row : Array (Option Nat)) (ready : Nat → Bool) (cup : Bool) (x w : Nat) : Nat :=
  let jx := x / 2
  let cw := (w + 1) / 2
  let v := (row.getD jx none).getD 0
  if !cup then v
  else
    let nj := if x % 2 = 1 then min (jx + 1) (cw - 1) else jx - 1
    let n := if ready (nj / 1024) then (row.getD nj none).getD v else v
    (3 * v + n + 2) / 4

/-! ### One line of a bar (R188 to R190) -/

/-- The tiles of a bar in list order: (port, tile) (R11). -/
def State.barTiles (s : State) (b : Nat) : List (Nat × Nat) :=
  (((frameBar s.liveFrame b).map (·.tiles)).getD []).map (fun t => (t.1.val, t.2.val))

/-- The columns of a bar (R13, R198). -/
def State.barCols (s : State) (b : Nat) : Nat := 2016 * (s.barTiles b).length + 32

/-- Why stripe `k` of a contone line may not be printed (R189, R190): 0 complete, 1 LATE, 2 NOTSTORED, 3 DECODE, 4 HISTORY. -/
def BarPipe.stripeCause (x : BarPipe) (inst y k : Nat) : Nat :=
  match x.groups.find? (fun g => g.inst == inst && g.group == y / 64 && g.stripe == k) with
  | none => 2
  | some g =>
    if !g.found then 2
    else if g.cause ≠ 0 then g.cause
    else if g.lines ≤ y % 64 then 2
    else if completeOn x.buf inst k g.form y then 0 else 1

/-- The first stripe below `n` that fails its check (R189), with the cause. -/
def firstFail (cause : Nat → Nat) : (n k : Nat) → Option (Nat × Nat)
  | 0, _ => none
  | n + 1, k => if cause k = 0 then firstFail cause n (k + 1) else some (k, cause k)

/-- R190: a filled line is counted and recorded, and reported at most once per group per bar. -/
def State.underrun (s : State) (b n inst g stripe cause : Nat) : State :=
  let s := ((s.bump F.IBF_UNDCNT_COUNT 1 b).set F.IBF_UNDLAST_CAUSE cause b).set F.IBF_UNDLAST_STRIPE stripe b
  if (s.pipe b).undRep.contains (inst, g) then s
  else (s.setPipe b { s.pipe b with undRep := (inst, g) :: (s.pipe b).undRep }).report C.ibf_underrun
    (mkArg (some b) (some stripe) cause) (some (w64 n))

/-- The background of a panel for a bar (R185, R188). -/
def State.background (s : State) (b : Nat) (e : SepTabs) (p : Panel) : SepCol :=
  if p.bg = 0 ∨ 0x30 ≤ p.form then .blank else s.toneOf e (s.get F.IBF_GROUND_TONE b)

/-- The output of separation for one column of a panel (R184, R185, R187). -/
def State.panelCol (s : State) (b : Nat) (e : SepTabs) (form w : Nat) (ready : Nat → Bool)
    (rows : List (Array (Option Nat))) (x : Nat) : SepCol :=
  let sample := fun (c : Nat) => (((rows[c]?).getD #[]).getD x none).getD 0
  if form < 4 then
    let cup := s.on F.IBF_CTL_CUP b
    let chroma := fun (c : Nat) => if form = 1 then sample c else up2 ((rows[c]?).getD #[]) ready cup x w
    s.colourOf e (sample 0) (chroma 1) (chroma 2)
  else
    let v := sample 0
    if form < 0x20 then s.toneOf e (v * 257)
    else if form < 0x30 then s.toneOf e (v * 16 + v / 256)
    else { kind := 2, d := v % 16, odd := [], bad := false }

/-- The rows that separation uses (R184, R185): the three channels of a Y′CbCr line, or the one plane. -/
def State.sepRows (s : State) (b inst y form w ns : Nat) : List (Array (Option Nat)) :=
  let buf := (s.pipe b).buf
  if form = 1 then [0, 1, 2].map (fun c => bufRow buf inst y c 2048 w ns)
  else if form = 2 then [bufRow buf inst y 0 2048 w ns, bufRow buf inst y 1 1024 ((w + 1) / 2) ns, bufRow buf inst y 2 1024 ((w + 1) / 2) ns]
  else if form = 3 then
    [bufRow buf inst y 0 2048 w ns, bufRow buf inst (y / 2 * 2) 1 1024 ((w + 1) / 2) ns,
     bufRow buf inst (y / 2 * 2 + 1) 2 1024 ((w + 1) / 2) ns]
  else [bufRow buf inst y (s.get F.IBF_CTL_PLANE b) 2048 w ns]

/-- The columns from 0 to `cols` − 1 with `f` between `lo` and `hi`, `bg` elsewhere. -/
def layCols (cols lo hi : Nat) (bg : SepCol) (f : Nat → SepCol) : List SepCol :=
  (List.range cols).map (fun c => if lo ≤ c ∧ c < hi then f c else bg)

/-- Separation of line `n` of bar `b` (R184 to R190): its columns, and the state with its reports. -/
def State.separate (s : State) (b n : Nat) : List SepCol × State :=
  let cols := s.barCols b
  let blank := List.replicate cols SepCol.blank
  match s.job.job with
  | none => (blank, s)
  | some j =>
    if !s.on F.IBF_CTL_EN b then (blank, s)
    else match j.place n with
      | none => (blank, s)
      | some pl =>
        match j.panels[pl.panel]? with
        | none => (blank, s)
        | some p =>
          let e := s.sepTabs b
          let bg := s.background b e p
          match pl.cline with
          | none => (List.replicate cols bg, s)
          | some y =>
            let x := s.pipe b
            let g := y / 64
            let mine := x.groups.filter (fun r => r.inst == pl.inst && r.group == g)
            if x.noRec.contains pl.inst && mine.isEmpty then
              if x.missRep.contains pl.inst then (blank, s)
              else (blank, (s.setPipe b { x with missRep := pl.inst :: x.missRep }).report C.ibf_panel_missing
                (mkArg (some b) none (pl.inst % 2 ^ 20)) (some (w64 n)))
            else
              let form := ((mine.head?).map (·.form)).getD p.form
              let w := if mine.isEmpty then p.w else s.groupWidth b pl.inst g
              let sc := j.scale
              let lo := j.x0
              let hi := min cols (lo + w * sc)
              if 0x10 ≤ form ∧ (formRows form 1 0).length ≤ s.get F.IBF_CTL_PLANE b then
                let s := if x.planeRep.contains pl.inst then s
                  else (s.setPipe b { x with planeRep := pl.inst :: x.planeRep }).report C.ibf_no_plane (mkArg (some b) none (pl.inst % 2 ^ 20))
                    (some (w64 n))
                (layCols cols lo hi bg (fun _ => .blank), s)
              else
                let cause := x.stripeCause pl.inst y
                -- the stripes whose first column lies on the bar
                let ns := ((List.range (stripesOf w)).filter (fun k => lo + 2048 * k * sc < cols)).length
                let fail := firstFail cause ns 0
                let fill := match fail with
                  | some (k, _) => lo + 2048 * k * sc
                  | none => hi
                let rows := s.sepRows b pl.inst y form w (stripesOf w)
                let out := layCols cols lo (min hi fill) bg
                  (fun c => s.panelCol b e form w (fun k => cause k == 0) rows ((c - lo) / sc))
                match fail with
                | none => (out, s)
                | some (k, cz) => (out, s.underrun b n pl.inst g k cz)

/-! ### Screening: columns, masks and the map (R198 to R204) -/

/-- What screening needs of a bar for one line: the tiles, the columns, the map records of each tile, the offsets of the column table, and
the keys of R360. -/
structure ScnEnv where
  tiles : List (Nat × Nat)
  cols : Nat
  map : Array (Array Seen)
  colt : Nat

/-- The nozzle records of a tile (R202). -/
def State.tileMap (s : State) (p t : Nat) : Array Seen :=
  ((List.range 2048).map (fun k => s.see (s.get F.SCN_MAPBASE_BASE * 65536 + (p * 65536 + t * 2048 + k) * 4) 4)).toArray

def State.scnEnv (s : State) (b : Nat) : ScnEnv :=
  let tiles := s.barTiles b
  { tiles := tiles, cols := s.barCols b, map := (tiles.map (fun t => s.tileMap t.1 t.2)).toArray,
    colt := (s.bankAddr (0x2001 + b * 256) false).getD 0 }

/-- The record of nozzle `k` of the tile at list position `i`. -/
def ScnEnv.rec_ (e : ScnEnv) (z : Nat × Nat) : Seen := (e.map.getD z.1 #[]).getD z.2 { v := 0, odd := [], bad := false }

/-- A record's STATE, CAP, GAIN and DCLASS (R202). -/
def recState (r : Nat) : Nat := r / 2 ^ 30 % 4
def recCap (r : Nat) : Nat := r / 2 ^ 26 % 16
def recGain (r : Nat) : Nat := r / 2 ^ 18 % 256
def recDclass (r : Nat) : Nat := r / 2 ^ 16 % 4
def ScnEnv.dead (e : ScnEnv) (z : Nat × Nat) : Bool := decide (2 ≤ recState (e.rec_ z).v)

/-- What stage 1 gives a column (R199): its firing nozzle (tile position, nozzle), its class (0 SKIP, 1 LIVE, 2 DEAD), and the reads it took. -/
structure ColClass where
  fn : Option (Nat × Nat)
  cls : Nat
  odd : List Nat
  bad : Bool

/-- Bit `j` of row `r` of blend mask `m` (R200). -/
def State.maskBit (s : State) (e : ScnEnv) (m r j : Nat) : Seen :=
  let x := s.seeByte (e.colt + 0x1FC00 + m * 64 + r * 4 + j / 8)
  { x with v := bitN x.v (j % 8) }

/-- A column whose one nozzle is `z`. -/
def ScnEnv.single (e : ScnEnv) (z : Nat × Nat) : ColClass :=
  let r := e.rec_ z
  { fn := some z, cls := if e.dead z then 2 else 1, odd := r.odd, bad := r.bad }

/-- Stage 1 (R199) for column `c` of line `n`. -/
def State.classify (s : State) (b n : Nat) (e : ScnEnv) (kind c : Nat) : ColClass :=
  let skip : ColClass := { fn := none, cls := 0, odd := [], bad := false }
  if kind = 0 then skip
  else
    let t := e.tiles.length
    let q := c / 2016
    let j := c % 2016
    let i := min q (t - 1)
    let r := n % 16
    let edge := fun (m : Seen) (print : Bool) (z : Nat × Nat) =>
      let x := e.single z
      if print then { x with odd := m.odd ++ x.odd, bad := m.bad || x.bad } else { skip with odd := m.odd, bad := m.bad }
    if c < 32 ∧ s.on F.SCN_CTL_LEDGE b then
      let m := s.maskBit e (s.get F.SCN_CTL_LMASK b) r c
      edge m (m.v == 1) (0, c)
    else if e.cols ≤ c + 32 ∧ s.on F.SCN_CTL_REDGE b then
      let m := s.maskBit e (s.get F.SCN_CTL_RMASK b) r (c + 32 - e.cols)
      edge m (m.v == 0) (t - 1, c - 2016 * (t - 1))
    else if j < 32 ∧ 1 ≤ q ∧ q + 1 ≤ t then
      let left := (i - 1, 2016 + j)
      let right := (i, j)
      let sel := s.seeByte (e.colt + 0x1FE00 + (i - 1))
      let m := s.maskBit e (sel.v % 8) r j
      let stitch := s.on F.SCN_CTL_STITCH b
      let (a, o) := if stitch ∧ m.v = 1 then (right, left) else (left, right)
      let odd := (if stitch then sel.odd ++ m.odd else []) ++ (e.rec_ a).odd ++ (e.rec_ o).odd
      let bad := (stitch && (sel.bad || m.bad)) || (e.rec_ a).bad || (e.rec_ o).bad
      if !e.dead a then { fn := some a, cls := 1, odd := odd, bad := bad }
      else if !e.dead o then { fn := some o, cls := 1, odd := odd, bad := bad }
      else { fn := none, cls := 2, odd := odd, bad := bad }
    else e.single (i, c - 2016 * i)

/-! ### The threshold head (R209, R210) -/

/-- The live threshold head of a bar. -/
structure ThrHead where
  at_ : Nat
  aw : Nat
  ah : Nat
  p : List Nat
  r : List Nat
  lmax : Nat
  valid : Bool
  odd : List Nat
  bad : Bool

/-- Whether a list of breakpoints increases strictly. -/
def increasing : List Nat → Bool
  | a :: b :: t => decide (a < b) && increasing (b :: t)
  | _ => true

/-- The live threshold head of bar `b`, with the validity of R210. -/
def State.thrHead (s : State) (b : Nat) : ThrHead :=
  let a := (s.bankAddr (0x2000 + b * 256) false).getD 0
  let d := s.depth b
  let lmax := 2 ^ d - 1
  let aw := s.see a 2
  let ah := s.see (a + 2) 2
  let dp := s.seeByte (a + 4)
  let ps := (List.range 16).map (fun k => s.see (a + 0x40 + 2 * k) 2)
  let rs := (List.range 15).map (fun k => s.see (a + 0x60 + 4 * k) 4)
  let p := ps.map (·.v)
  let all := [aw, ah, dp] ++ ps ++ rs
  { at_ := a, aw := aw.v, ah := ah.v, p := p, r := rs.map (·.v), lmax := lmax,
    valid := dp.v == d && aw.v % 64 == 0 && decide (64 ≤ aw.v ∧ aw.v ≤ 4096) && decide (1 ≤ ah.v ∧ ah.v ≤ 6144) &&
      decide (aw.v * ah.v ≤ 393216) && p.getD 0 1 == 0 && p.getD lmax 0 == 65535 && increasing (p.take (lmax + 1)),
    odd := all.flatMap (·.odd), bad := all.any (·.bad) }

/-- The check of a threshold head that became live (R210): TBAD, and scn.table_invalid once for each switch to an invalid bank. The bank and
depth last checked stand in `headOf`. -/
def State.checkHead (s : State) (b n : Nat) (h : ThrHead) : State :=
  let key := h.at_ * 8 + s.depth b
  let first := (s.pipe b).headOf ≠ some key
  let s := s.setPipe b { s.pipe b with headOf := some key }
  let s := s.set F.SCN_STAT_TBAD (!h.valid).toNat b
  if first ∧ !h.valid then s.report C.scn_table_invalid (mkArg (some b) none 0) (some (w64 n)) else s

/-! ### Patches (R203, R204) -/

/-- The patch slots of a bar at the start of a line, in ascending order: `k` slots from slot 32 − k on. -/
def applyPatches (b n : Nat) (tiles : List (Nat × Nat)) : Nat → State → State
  | 0, s => s
  | m + 1, s =>
    let k := 31 - m
    let s := if !s.on F.SCN_NPIDX_VALID b k then s
      else
        let ix := s.get F.SCN_NPIDX_INDEX b k
        let r := s.get F.SCN_NPREC_RECORD b k
        let s := s.set F.SCN_NPIDX_VALID 0 b k
        if tiles.contains (ix / 65536, ix / 2048 % 32) then
          s.writeTarn (s.get F.SCN_MAPBASE_BASE * 65536 + ix * 4) (leBytes 4 r)
        else s.report C.scn_patch_range (mkArg (some b) none ix) (some (w64 n))
    applyPatches b n tiles m s

/-! ### The tone stage (R206, R207) -/

/-- A column between the stages: its class and nozzle, kind, D, t1, and t2 or t3. -/
structure TCol where
  k : ColClass
  kind : Nat
  d : Nat
  t1 : Nat
  t2 : Nat

/-- Stage 2: column trim. -/
def State.trimCol (s : State) (b : Nat) (e : ScnEnv) (c : Nat) (x : SepCol) (k : ColClass) : TCol :=
  if x.kind = 1 ∧ s.on F.SCN_CTL_CTEN b then
    let ct := s.seeByte (e.colt + c)
    let t1 := (clampI 0 65535 (((x.d : Int) * (1024 + 2 * toSigned 8 ct.v) + 512) / 1024)).toNat
    { k := { k with odd := k.odd ++ ct.odd, bad := k.bad || ct.bad }, kind := x.kind, d := x.d, t1 := t1,
      t2 := if k.cls = 1 then t1 else 0 }
  else { k := k, kind := x.kind, d := x.d, t1 := x.d, t2 := if k.cls = 1 then x.d else 0 }

/-- The receivers of column `c` with their weights (R206). -/
def receivers (xs : Array TCol) (w1 w2 c : Nat) : List (Nat × Nat) :=
  let take := fun (r w : Nat) => match xs[r]? with
    | some x => if x.k.cls = 1 ∧ x.kind = 1 then [(r, w)] else []
    | none => []
  (if 2 ≤ c then take (c - 2) w2 else []) ++ (if 1 ≤ c then take (c - 1) w1 else []) ++ take (c + 1) w1 ++ take (c + 2) w2

/-- Stage 3: the shares of every dead column (R206), and the unhideable columns (R207). -/
def hideAll (w1 w2 minw : Nat) (src : Array TCol) : List Nat → Array TCol × List Nat → Array TCol × List Nat
  | [], a => a
  | c :: t, (out, unh) =>
    match src[c]? with
    | none => hideAll w1 w2 minw src t (out, unh)
    | some x =>
      if x.k.cls ≠ 2 ∨ x.kind ≠ 1 then hideAll w1 w2 minw src t (out, unh)
      else
        let rs := receivers src w1 w2 c
        let w := rs.foldl (fun a r => a + r.2) 0
        let unh := if w < minw then c :: unh else unh
        if w = 0 then hideAll w1 w2 minw src t (out, unh)
        else hideAll w1 w2 minw src t
          (rs.foldl (fun o r => o.modify r.1 (fun y => { y with t2 := y.t2 + (x.t1 * r.2 + w / 2) / w })) out, unh)

/-- A report made at most once per group of 64 lines per bar (R207, R208, R214); `key` tells the conditions apart. -/
def State.lineReport (s : State) (b n key code : Nat) (arg : Word) : State :=
  let x := s.pipe b
  if Tab.get (fun _ => none) x.lineRep key = some (n / 64) then s
  else (s.setPipe b { x with lineRep := Tab.put (fun _ => none) x.lineRep key (some (n / 64)) }).report code arg (some (w64 n))

/-! ### Thresholds and ceilings (R211) -/

/-- The largest k ≤ lmax with P[k] ≤ t. -/
def levelIndex (p : List Nat) (t : Nat) : Nat → Nat
  | 0 => 0
  | k + 1 => if p.getD (k + 1) 0 ≤ t then k + 1 else levelIndex p t k

/-- The segment cap sc of R211. -/
def State.segCap (s : State) (b : Nat) (p q : Nat) : Nat := if s.on F.FIRE_SEG_DERATE (p * 128 + q) then 2 ^ s.depth b - 2 else 15

/-- Stages 4 to 6 for one column: its level, and the reads it took. -/
def State.levelOfCol (s : State) (b n : Nat) (e : ScnEnv) (h : ThrHead) (ceil c : Nat) (x : TCol) (z : Nat × Nat) : Nat × Seen :=
  let r := (e.rec_ z).v
  let pt := e.tiles.getD z.1 (0, 0)
  let cap := if recCap r = 0 then 15 else recCap r
  let sc := s.segCap b pt.1 (pt.2 * 4 + z.2 / 512)
  let none_ : Seen := { v := 0, odd := [], bad := false }
  if x.kind = 1 then
    let t3 := if recState r = 1 ∧ recGain r ≠ 0 then min ceil ((x.t2 * (256 + recGain r) + 128) / 256) else x.t2
    let k := levelIndex h.p t3 h.lmax
    if k = h.lmax then (min h.lmax (min cap sc), none_)
    else
      let col := (c + s.get F.SCN_PHASE_XPH b) % h.aw
      let row := (n + s.get F.SCN_PHASE_YPH b) % h.ah
      let th := s.see (h.at_ + 1024 + (row * h.aw + col) * 2) 2
      let fr := min 65535 ((t3 - h.p.getD k 0) * h.r.getD k 0 / 65536)
      (min (k + (if th.v < fr then 1 else 0)) (min cap sc), th)
  else (min (min (x.d % 16) h.lmax) (min cap sc), none_)

/-! ### Duty limits (R212 to R214) -/

/-- The lines of `recent` in a window of `win` lines that ends with line n − 1. -/
def windowLines (recent : List (Nat × List (List Nat))) (n win : Nat) : List (List (Array Nat)) :=
  (recent.filter (fun l => l.1 < n && n < l.1 + win)).map (fun l => l.2.map (·.toArray))

/-- A duty window in lines: 1 to 64, at most L (R212, R213, R219). -/
def dutyWin (w l : Nat) : Nat := min (clampN 1 64 w) l

/-- Stage 7 for one tile: its levels, and the drops removed. -/
def thinTile (recs : Array Seen) (i : Nat) (wins : List (List (List (Array Nat)))) (maxs : List Nat) : List Nat → (k : Nat) → List Nat × Nat
  | [], _ => ([], 0)
  | lv :: t, k =>
    let (r, c) := thinTile recs i wins maxs t (k + 1)
    if lv = 0 then (0 :: r, c)
    else
      let d := recDclass ((recs.getD k { v := 0, odd := [], bad := false }).v)
      let mx := maxs.getD d 0
      let cnt := ((wins.getD d []).filter (fun l => (((l[i]?).getD #[]).getD k 0) != 0)).length
      if mx ≠ 0 ∧ mx < cnt + 1 then (0 :: r, c + 1) else (lv :: r, c)

/-- Stage 8 for one segment (R213): `fuel` visits from the k-th on, `e` units to remove. -/
def lowerSeg (st : Nat) : (fuel k e : Nat) → Array Nat → Array Nat
  | 0, _, _, lv => lv
  | f + 1, k, e, lv =>
    if e = 0 then lv
    else
      let j := (st + 37 * k) % 512
      if lv.getD j 0 > 0 then lowerSeg st f (k + 1) (e - 1) (lv.modify j (· - 1)) else lowerSeg st f (k + 1) e lv

/-- The sum of the levels of segment `q` of a tile. -/
def segLoad (lv : List Nat) (q : Nat) : Nat := ((lv.drop (512 * q)).take 512).foldl (· + ·) 0

/-- Stage 8 for one tile: its levels and the units removed from each of its segments. -/
def dutyTile (smax n : Nat) (prior : Nat → Nat) (lv : List Nat) : List (List Nat × Nat) :=
  (List.range 4).map (fun q =>
    let seg := (lv.drop (512 * q)).take 512
    let load := segLoad lv q
    let allowed := smax - prior q
    if load ≤ allowed then (seg, 0)
    else
      let e := load - allowed
      -- a pass of 512 visits removes at least one unit while a level is above 0; levels are at most 15
      ((lowerSeg (n * 181 % 512) (512 * 16) 0 e seg.toArray).toList, e))

/-- Stages 7 and 8 on a line's levels by tile (R212, R213). -/
def State.dutyStages (s : State) (b n : Nat) (e : ScnEnv) (lv : List (List Nat)) : List (List Nat) × State :=
  if !s.on F.SCN_CTL_DUTYEN b then (lv, s)
  else
    let recent := (s.pipe b).recent
    let l := s.lookahead b
    let wins := (List.range 4).map (fun d => windowLines recent n (dutyWin (s.get F.SCN_NDUTY_WIN b d) l))
    let maxs := (List.range 4).map (fun d => s.get F.SCN_NDUTY_MAX b d)
    let th := lv.zipIdx.map (fun t => thinTile (e.map.getD t.2 #[]) t.2 wins maxs t.1 0)
    let thin := th.foldl (fun a t => a + t.2) 0
    let s := if thin = 0 then s
      else (s.bump F.SCN_THINCNT_COUNT thin b).lineReport b n 2 C.scn_duty_thin (mkArg (some b) none 0)
    let lv := th.map (·.1)
    let smax := s.get F.SCN_SDUTY_SMAX b
    if smax = 0 then (lv, s)
    else
      let win := (recent.filter (fun r => r.1 < n && n < r.1 + dutyWin (s.get F.SCN_SDUTY_SWIN b) l)).map (·.2)
      let segs := lv.zipIdx.map (fun t => dutyTile smax n (fun q => win.foldl (fun a ln => a + segLoad (ln.getD t.2 []) q) 0) t.1)
      let cut := segs.zipIdx.flatMap (fun t => t.1.zipIdx.map (fun g => (t.2, g.2, g.1.2)))
      let total := cut.foldl (fun a g => a + g.2.2) 0
      let s := match cut.find? (fun g => g.2.2 != 0) with
        | none => s
        | some (i, q, _) =>
          let pt := e.tiles.getD i (0, 0)
          (s.bump F.SCN_SEGTHIN_COUNT total b).lineReport b n 3 C.scn_seg_thin (mkArg (some b) (some pt.1) (pt.2 * 4 + q))
      (segs.map (fun t => t.flatMap (·.1)), s)

/-! ### Check bands (R215) -/

/-- PITCH and DASH as R219 takes them. -/
def State.bandPitch (s : State) (b : Nat) : Nat := max 4 (s.get F.SCN_BAND_PITCH b)
def State.bandDash (s : State) (b : Nat) : Nat := clampN 1 16 (s.get F.SCN_BAND_DASH b)
/-- The lines of a band. -/
def State.bandLines (s : State) (b : Nat) : Nat := 2 * s.bandPitch b * s.bandDash b

def State.endBand (s : State) (b : Nat) : State :=
  ((s.setPipe b { s.pipe b with band := none }).set F.SCN_BAND_GO 0 b).set F.SCN_STAT_BAND 0 b

/-- The band at the start of a line: one begins while GO is 1; one whose lines have passed has ended. -/
def State.startBand (s : State) (b n : Nat) : State :=
  let s := match (s.pipe b).band with
    | none => if s.on F.SCN_BAND_GO b then (s.setPipe b { s.pipe b with band := some n }).set F.SCN_STAT_BAND 1 b else s
    | some _ => s
  match (s.pipe b).band with
  | some st => if n < st ∨ st + s.bandLines b ≤ n then s.endBand b else s
  | none => s

/-- The levels of band line `q`, by tile. -/
def State.bandLevels (s : State) (b q : Nat) (tiles : List (Nat × Nat)) : List (List Nat) :=
  let pitch := s.bandPitch b
  let dash := s.bandDash b
  let lvl := min (s.get F.SCN_BAND_LVL b) (2 ^ s.depth b - 1)
  tiles.zipIdx.map (fun t => (List.range 2048).map (fun k =>
    if t.2 % 2 = q / (pitch * dash) ∧ k % pitch = q % (pitch * dash) / dash then
      min lvl (s.segCap b t.1.1 (t.1.2 * 4 + k / 512))
    else 0))

/-! ### Stages 1 to 8 (R196) -/

/-- The levels of a line by tile and nozzle, from (nozzle, level) pairs. -/
def placeLevels (tiles : Nat) (ps : List ((Nat × Nat) × Nat)) : List (List Nat) :=
  let empty : Array (Array Nat) := (List.replicate tiles (List.replicate 2048 0).toArray).toArray
  let a := ps.foldl (fun (a : Array (Array Nat)) e => a.modify e.1.1 (fun r => r.set! e.1.2 e.2)) empty
  a.toList.map (·.toList)

/-- Stages 1 to 8 of line `n` of bar `b`. -/
def State.stages (s : State) (b n : Nat) (h : ThrHead) (sep : List SepCol) : List (List Nat) × State :=
  let e := s.scnEnv b
  let hide := s.on F.SCN_CTL_HIDEEN b
  let ceil := s.get F.SCN_HCEIL_TONE b
  let cols := sep.zipIdx.map (fun x => s.trimCol b e x.2 x.1 (s.classify b n e x.1.kind x.2))
  let src := cols.toArray
  let (out, unh) := if hide then
      hideAll (s.get F.SCN_HIDE_W1 b) (s.get F.SCN_HIDE_W2 b) (s.get F.SCN_HIDE_MINW b) src (List.range e.cols) (src, [])
    else (src, [])
  let beyond := fun (x : TCol) => decide (x.k.cls = 1 ∧ x.kind = 1 ∧ ceil < x.t2)
  let clip := (out.toList.filter beyond).length
  let lv := out.toList.zipIdx.map (fun x =>
    let y := if beyond x.1 then { x.1 with t2 := ceil } else x.1
    match y.k.fn with
    | none => (x.2, y, none)
    | some z => if y.k.cls ≠ 1 then (x.2, y, none) else (x.2, y, some (z, s.levelOfCol b n e h ceil x.2 y z)))
  -- the first affected column (R360): hiding reaches two columns
  let near := (lv.filter (fun x => x.2.1.k.bad)).map (fun x => if hide then x.1 - 2 else x.1)
  let far := (lv.filter (fun x => x.2.2.any (fun y => y.2.2.bad))).map (fun x => x.1)
  let cut := (listMin? (near ++ far)).getD e.cols
  let odd := lv.flatMap (fun x => x.2.1.k.odd ++ (x.2.2.map (fun y => y.2.2.odd)).getD [])
  let lost := (lv.filter (fun x => x.2.1.k.cls == 2 && x.2.1.kind == 2 && x.2.1.d % 16 != 0)).length
  let s := s.noteSeen b n odd
  let s := s.bump F.SCN_CLIPCNT_COUNT clip b
  let s := match unh with
    | [] => s
    | c :: _ => ((s.bump F.SCN_UNHCNT_COUNT unh.length b).set F.SCN_STAT_UNHCOL c b).lineReport b n 0 C.scn_unhideable (mkArg (some b) none c)
  let s := if lost = 0 then s
    else (s.bump F.SCN_PSLOST_COUNT lost b).lineReport b n 1 C.scn_proof_lost (mkArg (some b) none 0)
  let levels := placeLevels e.tiles.length
    (lv.filterMap (fun x => if x.1 < cut then x.2.2.map (fun y => (y.1, y.2.1)) else none))
  s.dutyStages b n e levels

/-- Screening of line `n` of bar `b` (R196, R210, R215): the levels by tile, and the state after it. -/
def State.screen (s : State) (b n : Nat) (sep : List SepCol) : List (List Nat) × State :=
  let tiles := s.barTiles b
  let zero := List.replicate tiles.length (List.replicate 2048 0)
  let s := applyPatches b n tiles 32 s
  let s := s.startBand b n
  let h := s.thrHead b
  let s := s.noteSeen b n h.odd
  let s := if h.bad then s else s.checkHead b n h
  let band := (s.pipe b).band
  let (lv, s) :=
    if h.bad ∨ !h.valid then (zero, s)
    else match band with
      | some st => (s.bandLevels b (n - st) tiles, s)
      | none => s.stages b n h sep
  let x := s.pipe b
  let s := s.setPipe b { x with recent := ((n, lv) :: x.recent.filter (fun r => r.1 != n)).take 64 }
  let s := match band with
    | some st => if n + 1 = st + s.bandLines b then s.endBand b else s
    | none => s
  (lv, s)

/-! ### The port line FIFOs (R197, R295) -/

/-- The bits of a level, most significant first. -/
def levelBits (d v : Nat) : List Bool := (List.range d).map (fun i => bitN v (d - 1 - i) == 1)

/-- The words of a bit string, most significant bit first, as little-endian bytes. -/
def wordBytes : Nat → List Bool → List Byte
  | 0, _ => []
  | n + 1, bs => leBytes 4 ((bs.take 32).foldl (fun a b => 2 * a + b.toNat) 0) ++ wordBytes n (bs.drop 32)

/-- The blocks of one port for a line (R295), from the levels of the bar's tiles. -/
def State.portLine (s : State) (b p : Nat) (lv : List (List Nat)) : List Byte :=
  let d := s.depth b
  let tiles := s.barTiles b
  (s.portSegs p).flatMap (fun q =>
    let i := tiles.findIdx (fun t => t.1 == p && t.2 == q / 4)
    let seg := ((lv.getD i []).drop (512 * (q % 4))).take 512
    wordBytes (16 * d) (seg.flatMap (levelBits d)))

/-- Writes a line into the FIFO of every port of the bar. -/
def State.putLine (s : State) (b n : Nat) (lv : List (List Nat)) : State :=
  (s.barPorts b).foldl (fun s p => match s.fifoAddr p n with
    | none => s
    | some a => s.writeTarn a (s.portLine b p lv)) s

/-! ### BAR_LINE -/

/-- Marks the unfinished descriptors of a line as finished. -/
def markLine (n : Nat) (l : List Desc) : List Desc := l.map (fun d => if d.line.toNat = n then { d with done := true } else d)

/-- What the line buffer and the fetcher keep once separation has started line `n` (R175, R179): rows of the line's own place and of later
ones; groups of the line's own group and of later ones, and earlier blocks whose lines the lanes still decode. After the last printed line of a
group the fetcher gives up the blocks it has not found. -/
def State.prunePipe (s : State) (b n : Nat) : State :=
  let x := s.pipe b
  match s.job.job.bind (fun j => j.place n) with
  | none => s
  | some pl =>
    let (i0, y0) := s.sepPlace b
    let next := s.job.job.bind (fun j => j.place (n + 1))
    let lastOf := fun (g : FetchGroup) => g.inst == pl.inst && pl.cline.any (fun y => y / 64 == g.group) &&
      !(next.any (fun q => q.inst == pl.inst && q.cline.any (fun y => y / 64 == g.group)))
    let past := fun (g : FetchGroup) => before g.inst (64 * g.group + 63) i0 y0
    s.setPipe b { x with
      buf := x.buf.filter (fun r => !before r.inst (r.line / 2 * 2 + 1) i0 y0),
      groups := x.groups.filter (fun g => if g.found && g.cause == 0 then !past g || g.decoding else !past g && !lastOf g) }

/-- BAR_LINE (R40, R184, R196): the pipeline of bar `b` takes the first descriptor of its gate that it has not processed, and writes its line
into the port FIFOs. -/
def doBarLine (b : Fin 8) (s : State) : State :=
  let g := 1 + b.val
  match (s.gate g).queue.find? (fun d => !d.done && !(s.pipe b).written.contains d.line.toNat) with
  | none => s
  | some d =>
    let n := d.line.toNat
    if (s.gate g).stopped then s
    else if (frameBar s.liveFrame b).isNone then s.setGate g { s.gate g with queue := markLine n (s.gate g).queue }
    else
      let s := s.startUnit .pipe b n
      let s := s.setPipe b { s.pipe b with sep := some n }
      let (sep, s) := s.separate b n
      -- columns from the first one whose tables could not be read carry nothing (R360)
      let cut := sep.findIdx (·.bad)
      let s := s.noteSeen b n (sep.flatMap (·.odd))
      let (lv, s) := s.screen b n (sep.zipIdx.map (fun c => if c.2 < cut then c.1 else SepCol.blank))
      let s := ((s.prunePipe b n).updLevel b).updAhead b
      (s.putLine b n lv).setPipe b { s.pipe b with written := n :: (s.pipe b).written }

def execBarLine (b : Fin 8) (s : State) : Host.Outcome State Fault Refusal := .next (doBarLine b s)

/-- LINE_COMPLETE (R31, R41): the last word of a line that the pipeline wrote has reached every port FIFO of the bar; its slack is recorded
and its descriptor is finished. -/
def doLineComplete (b : Fin 8) (line : DWord) (s : State) : State :=
  let x := s.pipe b
  let n := line.toNat
  if !x.written.contains n then s
  else
    let g := 1 + b.val
    let s := s.setPipe b { x with written := x.written.filter (· != n) }
    (s.setGate g { s.gate g with queue := markLine n (s.gate g).queue }).lineDone b n

def execLineComplete (b : Fin 8) (line : DWord) (s : State) : Host.Outcome State Fault Refusal := .next (doLineComplete b line s)

end Sys2Proof.Machine
end

