-- ==== Sys2Proof/Machine/Fire.lean ====
section
/-! DEFINITION. The fire schedulers (chapter 10): START and STOP (R245), evaluation and commit (R240 to R248), line boundaries (R243), the
stops of a job (R247, R248, R253), the meter (R484, R485), and the end of a job (R18, R130, R132). -/

namespace Sys2Proof.Machine

/-! ### Descriptors of a FIRE gate -/

/-- The gate of a fire scheduler (R27). -/
def fireGate (b : Nat) : Nat := 9 + b

/-- The first descriptor of the gate that the scheduler has not taken. -/
def State.nextFireDesc (s : State) (b : Nat) : Option Desc := (s.gate (fireGate b)).queue[(s.fireBar b).taken]?

/-- Drops that descriptor without a completion event (R245). -/
def State.dropFireDesc (s : State) (b : Nat) : State :=
  let g := s.gate (fireGate b)
  let s := s.setGate (fireGate b) { g with queue := g.queue.eraseIdx (s.fireBar b).taken }
  s.report C.fire_gate_op (mkArg (some b) none 0) (some (s.flineOf b))

/-- The first `k` descriptors of a queue whose operation passes `p` are finished. -/
def finishOps (p : Nat → Bool) : Nat → List Desc → List Desc
  | 0, l => l
  | _, [] => []
  | k + 1, d :: t => (if p d.op.toNat then { d with done := true } else d) :: finishOps p k t

def State.finishFireOps (s : State) (b : Nat) (p : Nat → Bool) : State :=
  let g := s.gate (fireGate b)
  s.setGate (fireGate b) { g with queue := finishOps p (s.fireBar b).taken g.queue }

/-! ### The end of a job -/

/-- Whether a bar of the live profile is Armed or Firing. -/
def State.anyBarActive (s : State) : Bool := s.bars.any s.barActive

/-- The audit entries of a job's end (R486): one for each slot a secure panel of it draws on. -/
def State.auditJobEnd (s : State) (j : Job) : State :=
  (((j.panels.filter (·.secure)).filterMap (fun p => s.slotOf p.keyid)).eraseDups).foldl
    (fun s k => match s.keySlot k with
      | some x => s.audit 5 [x.keyid, w32 k, w32 (usedMetres x.used)]
      | none => s) s

/-- What the bars' pipelines hold for a job is dropped. -/
def State.clearPipes (s : State) : State :=
  (List.range 8).foldl (fun s b =>
    let x := s.pipe b
    let y : BarPipe := { BarPipe.reset with band := x.band, headOf := x.headOf, written := x.written }
    (s.setPipe b y).updLevel b) s

/-- The job ends (R98, R99, R130, R134): its INGEST messages abort, its blocks are freed, the leads are computed again, and the device
returns to Ready. -/
def State.finishJob (s : State) : State :=
  match s.job.job with
  | none => s
  | some j =>
    let s := s.abortIngests
    let s := (List.range j.panels.length).foldl (fun s k => s.freeStore k) s
    let s := s.groupsAtJobStop
    let s := s.auditJobEnd j
    let s := { s with job := { s.job with job := none, ending := false } }
    let s := setLeads 8 s.clearPipes
    if s.printingOrPaused then s.setDev stReady else s

/-- The outstanding PRINT messages complete with ABORTED (R130): a pause that the device begins. -/
def State.abortPrint (s : State) : State :=
  let ops := s.job.ops.filter (fun o => o.kind < 2)
  let s := { s with job := { s.job with ops := s.job.ops.filter (fun o => 2 ≤ o.kind) } }
  ops.foldl (fun s o => s.complete o.msg .aborted) s

/-- The copy of the nozzle map in boot flash is rewritten where the map differs from it (R205); the remap entries in use are kept with it
(R364). -/
def State.saveMap (s : State) : State :=
  let r := s.readTarn (s.get F.SCN_MAPBASE_BASE * 65536) s.mapBytes
  let s := r.st
  let remap := s.regs.filter (fun e => (regAt e.1).any (fun x => x.1.base == R.TARN_RMAP.base) && fieldOf e.2 31 1 == 1)
  let s : State := { s with pwr := { s.pwr with flashRemap := remap } }
  if s.pwr.flashMap = some r.bytes then s else { s with pwr := { s.pwr with flashMap := some r.bytes } }

/-- One message that waited for the last bar: PRINT_PAUSE enters Paused, PRINT_STOP and JOB_CANCEL end the job (R130). -/
def State.endOp (s : State) (o : PrintOp) : State :=
  if o.kind = 0 then
    let s := if s.printing then s.setDev stPaused else s
    s.complete o.msg .ok (w32 o.line) (w32 (o.line / 2 ^ 32))
  else if o.kind = 1 then s.finishJob.saveMap.complete o.msg .ok
  else s.finishJob.complete o.msg .ok

/-- Once no bar is Armed or Firing, the messages that waited for it end, and a job that has finished on the last bar ends (R130). -/
def State.checkStopped (s : State) : State :=
  if s.anyBarActive then s
  else
    let ops := s.job.ops
    let s := ops.foldl State.endOp { s with job := { s.job with ops := [] } }
    if s.job.ending then s.finishJob else s

/-! ### Stopping -/

/-- The boundary of the last committed line (R245): Stopped, STOPLO and STOPHI, and the completions of STOP and of a START without a boundary. -/
def State.finalStop (s : State) (b : Nat) : State :=
  let x := s.fireBar b
  let s := (s.set F.FIRE_STAT_STATE 3 b).set64 F.FIRE_STOPLO_LINE F.FIRE_STOPHI_LINE x.next b
  (s.finishFireOps b (fun _ => true)).checkStopped

/-- Whether an active bar has reached its stop and no committed line waits for its instant. -/
def FireBar.atStop (x : FireBar) : Bool := x.stopAt.any (fun n => decide (n ≤ x.next)) && x.sched.isEmpty

/-- The bar commits no line from `n` on (R245): `n` not above the next line stops it before that line. -/
def State.stopBar (s : State) (b n : Nat) : State :=
  if !s.barActive b then s
  else
    let x := s.fireBar b
    let at_ := max n x.next
    let x := { x with stopAt := some (match x.stopAt with
      | none => at_
      | some m => min m at_) }
    let s := s.setFireBar b x
    if x.atStop then s.finalStop b else s

/-- Every active bar stops before its first line not committed, and the device enters Paused (R247, R248, R253, R424): `flag` is set on
the bars that `on` names. -/
def State.stopJob (s : State) (flag : Option Fld) (on : Nat → Bool) : State :=
  let bars := (List.range 8).filter s.barActive
  let s := bars.foldl (fun s b => match flag with
    | some f => if on b then s.set f 1 b else s
    | none => s) s
  let was := s.printing
  let s := if was then s.setDev stPaused else s
  let s := if bars ≠ [] ∨ was then s.abortPrint else s
  bars.foldl (fun s b => s.stopBar b (s.fireBar b).next) s

/-! ### Lines and leads -/

/-- The last line that counts as past for bar `b`, plus one (R92): s.fline of an active bar; else the line before its present position. -/
def State.passed (s : State) (b : Nat) : Nat :=
  let f := (s.flineOf b).toNat
  if s.barActive b ∧ f ≠ 2 ^ 64 - 1 then f + 1
  else
    let pos := s.barPos b
    let o := s.origin b
    if pos ≤ o then 0 else cdiv ((pos - o) * 65536) (max 1 s.liveFrame.pitch.toNat)

/-- The first line that meets the lead of R92 on every bar. -/
def State.leadLine (s : State) : Nat := (s.bars.map (fun b => s.passed b + s.lead b)).foldl max 0

/-- The lines of a check instant at a line that counts as passed (R93). -/
def State.checkGroups (s : State) (b m : Nat) : State := s.ticketOrder.foldl (fun s g => s.checkGroup b m g) s

/-- The panels whose last line every bar has fetched are freed (R18). -/
def State.freePanels (s : State) : State :=
  match s.job.job with
  | none => s
  | some j =>
    match j.start with
    | none => s
    | some nj =>
      let low := listMin? ((s.bars.filter (fun b => s.on F.IBF_CTL_EN b)).map (fun b => (s.pipe b).fetched.getD 0))
      let last := fun (k : Nat) =>
        let p := (j.panels[k]?)
        match p with
        | none => none
        | some p =>
          if p.reps = 0 then none
          else
            let base := ((j.panels.take k).map (fun (q : Panel) => (q.h * j.scale + j.gap) * q.reps)).foldl (· + ·) nj
            some (base + (p.h * j.scale + j.gap) * (p.reps - 1) + p.h * j.scale - 1)
      (List.range j.panels.length).foldl (fun s k =>
        match s.job.job with
        | none => s
        | some j' =>
          if (j'.panels[k]?).any (·.freed) || (j'.panels.take k).any (fun p => p.reps == 0) then s
          else if (last k).any (fun n => low.any (fun f => decide (n ≤ f))) then
            let s := s.freeStore k
            let ps := j'.panels.modify k (fun p => { p with freed := true })
            { s with job := { s.job with job := some { j' with panels := ps } } }
          else s) s

/-- The fetcher of bar `b` starts line `n` (R93, R174). -/
def State.startFetch (s : State) (b n : Nat) : State := ((s.startUnit .fetch b n).fetchLine b n).freePanels

/-! ### START and STOP (R245) -/

/-- The staleness reference of a segment (R252): the line after which the count begins. -/
def State.noteTelem (s : State) (sg line : Nat) : State := s.setSeg sg { s.seg sg with telLine := some line }

/-- The fire scheduler of bar `b` is armed at line `n` (R245). The lines before `n` count as passed, so the fetcher starts lines `n` to
n + F − 1 at once (R40, R174). -/
def State.startBar (s : State) (b n : Nat) : State :=
  let x := s.fireBar b
  let x := { x with next := n, credit := s.get F.FIRE_TMIN_LTU b, tLast := none, tPrev := none, stopAt := none, sched := [], hist := [],
                    ovRun := 0, lateRun := 0, lastCommit := none, started := false, recorded := [], missed := [], first := n }
  let s := s.setFireBar b x
  let s := (((s.set F.FIRE_STAT_OVSTOP 0 b).set F.FIRE_STAT_HOTSTOP 0 b).set F.FIRE_STAT_LATESTOP 0 b).set F.FIRE_STAT_STATE 1 b
  let s := { s with sec := { s.sec with meterStop := none } }
  let s := (s.barSegs b).foldl (fun s sg => if s.segState sg = sgActive then s.noteTelem sg n else s) s
  let s := (s.barPorts b).foldl (fun s p => s.setPort p { s.port p with feed := none, nextLine := n }) s
  let y := s.pipe b
  let s := s.setPipe b { y with groups := [], hists := [], buf := [], fetched := none, sep := none, noRec := [], recent := [] }
  let s := s.checkGroups b (n - 1)
  let s := (List.range (s.fetchLead b)).foldl (fun s k => s.startFetch b (n + k)) s
  (s.startUnit .fire b n).updLevel b

/-- Words 4 to 7 of a FIRE descriptor are 0 (R245). -/
def Desc.plain (d : Desc) : Bool := d.w4 == 0 && d.w5 == 0 && d.w6 == 0 && d.w7 == 0

/-- START (R245): the scheduler takes a descriptor that is no STOP. -/
def doStart (b : Fin 8) (s : State) : State :=
  match s.nextFireDesc b with
  | none => s
  | some d =>
    if d.op = 2 ∨ (s.gate (fireGate b)).stopped then s
    else if d.op ≠ 1 ∨ !d.plain ∨ s.barActive b ∨ !s.on F.FIRE_CTL_EN b ∨ (frameBar s.liveFrame b).isNone then s.dropFireDesc b
    else
      let x := s.fireBar b
      (s.setFireBar b { x with taken := x.taken + 1 }).startBar b d.line.toNat

def execFireStart (b : Fin 8) (s : State) : Host.Outcome State Fault Refusal := .next (doStart b s)

/-- STOP (R245). -/
def doStop (b : Fin 8) (s : State) : State :=
  match s.nextFireDesc b with
  | none => s
  | some d =>
    if d.op ≠ 2 ∨ (s.gate (fireGate b)).stopped then s
    else if !d.plain ∨ !s.barActive b then s.dropFireDesc b
    else
      let x := s.fireBar b
      (s.setFireBar b { x with taken := x.taken + 1 }).stopBar b d.line.toNat

def execFireStop (b : Fin 8) (s : State) : Host.Outcome State Fault Refusal := .next (doStop b s)

/-! ### The meter (R484, R485) -/

/-- A line that bar `b` commits as fired is counted on the first bar of the job; the line that exhausts a slot stops every bar at the first
line that meets the lead. -/
def State.meterLine (s : State) (b n : Nat) : State :=
  if listMin? s.bars ≠ some b then s
  else match s.meterSlot n with
    | none => s
    | some k =>
      match s.sec.meterStop with
      | some (x, k') => s.countLine k (decide (n < x) && k == k')
      | none =>
        let s := s.countLine k false
        if !(s.keySlot k).any KeySlot.exhausted then s
        else
          let x := s.leadLine
          let s := { s with sec := { s.sec with meterStop := some (x, k) } }
          let s := if s.printing then s.setDev stPaused else s
          let s := s.bars.foldl (fun s b => s.stopBar b x) s.abortPrint
          let s := match s.keySlot k with
            | some y => s.audit 6 [y.keyid, w32 k, w32 (usedMetres y.used)]
            | none => s
          s.report C.sec_meter_exhausted (mkArg none (some k) 0)

/-! ### Commit (R240 to R248) -/

/-- What becomes of a line at its commit (R240): the order of its rules. -/
inductive LineFate
  | fired
  | skipped
  | passed
  deriving DecidableEq, Repr

/-- A report made at most once per 64 lines per bar: whether it is made at line `n`, from the line of the last one. -/
def onceLine (last : Option Nat) (n : Nat) : Bool := !(last.any (fun m => decide (m ≤ n ∧ n < m + 64)))

/-- Whether the feeder has sent every frame of line `n` on port `p` (R248, R360). -/
def State.lineSent (s : State) (b p n : Nat) : Bool :=
  let x := s.port p
  s.portUp p && (s.fireBar b).complete.any (fun e => e.1 == n) &&
    (decide (n < x.nextLine) || x.feed.any (fun f => f.line == n && f.runs == []))

/-- The feeder discards what it holds of line `n` (R248). -/
def State.discardLine (s : State) (p n : Nat) : State :=
  let x := s.port p
  s.setPort p { x with feed := if x.feed.any (fun f => f.line == n) then none else x.feed,
                       nextLine := if x.nextLine ≤ n then n + 1 else x.nextLine }

/-- Sends FIRE on a port (R242, R299): only a port that is Up sends it. -/
def State.sendFire (s : State) (p n t flags : Nat) : State :=
  if !s.portUp p then s
  else s.setPort p { s.port p with fireQ := (s.port p).fireQ ++ [s.fireMsg p n t flags] }

/-- Line `n` is committed at `t` with FIRE flags for each port. -/
def State.commitLine (s : State) (b n t : Nat) (flags : Nat → Nat) : State :=
  let x := s.fireBar b
  let s := s.setFireBar b { x with next := (n + 1) % 2 ^ 64, tPrev := some t, hist := ((n, t) :: x.hist).take 1024,
                                   sched := x.sched ++ [(n, t)], lastCommit := some n }
  let s := if s.get F.FIRE_STAT_STATE b = 1 then s.set F.FIRE_STAT_STATE 2 b else s
  let s := (s.barPorts b).foldl (fun s p => s.sendFire p n t (flags p)) s
  let s := s.tryRecord b (n + s.lookahead b)
  s.startUnit .fire b (n + 1)

/-- The fate of line `n`, which R240 commits `t` LTU after `c` (R243, R246 to R248). The result: the state, and whether the line was committed. -/
def State.decideLine (s : State) (b n c t : Nat) : Bool × State :=
  let x := s.fireBar b
  let passed := decide (t < x.hmin)
  let tn := if passed then c else c + t
  let tmin := s.get F.FIRE_TMIN_LTU b
  let inf := decide (tmin = 0xFFFFFF)
  let i := match x.tPrev with
    | none => 0
    | some t0 => tn - t0
  let credit := match x.tPrev with
    | none => x.credit
    | some t0 => x.credit + tn - t0
  let ov := match x.tPrev with
    | none => x.ovRun
    | some _ => if inf ∨ 11 * i < 10 * tmin then x.ovRun + 1 else 0
  let s := s.setFireBar b { x with credit := credit, ovRun := ov }
  if max 1 (s.get F.FIRE_GCFG_OVN) ≤ ov then
    let s := s.report C.fire_overspeed (mkArg (some b) none 0) (some (w64 n))
    (false, s.stopJob (some F.FIRE_STAT_OVSTOP) (fun c => c == b))
  else
    let fires := !passed && !inf && decide (tmin ≤ credit) &&
      (x.tLast.isNone || x.tLast.any (fun l => decide (l + s.get F.FIRE_TBURST_LTU b ≤ tn)))
    if passed then
      let y := s.fireBar b
      let rep := onceLine y.posRep n
      let s := s.setFireBar b { y with posRep := if rep then some n else y.posRep }
      let s := if rep then s.report C.fire_pos_passed (mkArg (some b) none 0) (some (w64 n)) else s
      (true, (s.bump F.FIRE_SKIPCNT_COUNT 1 b).commitLine b n tn (fun _ => 2))
    else if !fires then
      let y := s.fireBar b
      let rep := onceLine y.skipRep n
      let s := s.setFireBar b { y with skipRep := if rep then some n else y.skipRep }
      let s := if rep then s.report C.fire_line_skip (mkArg (some b) none 0) (some (w64 n)) else s
      (true, (s.bump F.FIRE_SKIPCNT_COUNT 1 b).commitLine b n tn (fun _ => 2))
    else
      let late := (s.barPorts b).filter (fun p => !s.lineSent b p n)
      let y := s.fireBar b
      let rep := late ≠ [] ∧ onceLine y.lateRep n
      let run := if late = [] then 0 else y.lateRun + 1
      let s := s.setFireBar b { y with tLast := some tn, credit := min (credit - tmin) tmin, lateRun := run,
                                       lateRep := if rep then some n else y.lateRep }
      let s := s.bump F.FIRE_LATECNT_COUNT late.length b
      let s := if rep then s.report C.fire_late_line (mkArg (some b) late.head? 0) (some (w64 n)) else s
      if max 1 (s.get F.FIRE_GCFG_LATEMAX) ≤ run then
        let s := s.report C.fire_late_run (mkArg (some b) none 0) (some (w64 n))
        (false, s.stopJob (some F.FIRE_STAT_LATESTOP) (fun c => c == b))
      else
        let s := late.foldl (fun s p => s.discardLine p n) s
        let s := s.commitLine b n tn (fun p => if late.contains p then 1 else 0)
        (true, s.meterLine b n)

/-- Whether the scheduler of a bar may commit its next line (R240, R245, R426). -/
def State.mayCommit (s : State) (b : Nat) : Bool :=
  let x := s.fireBar b
  s.barActive b && s.on F.FIRE_CTL_EN b && s.dev ≠ stHalted && s.dev ≠ stGrave && (frameBar s.liveFrame b).isSome &&
    !(x.stopAt.any (fun m => decide (m ≤ x.next)))

/-- t of R240 for a target and a bar position in 2^-16 WPU at speed `v`. -/
def fireDelay (target ppos : Int) (v : Nat) : Nat :=
  if target ≤ ppos then 0 else ((target - ppos).toNat * 3515625 + 256 * v) / (512 * v)

/-- One evaluation (R240) at fixed `ppos`, `v` and `c`: `fuel` bounds the lines that can commit. -/
def evalLines (b c v : Nat) (ppos : Int) : Nat → State → State
  | 0, s => s
  | k + 1, s =>
    if !s.mayCommit b then s
    else
      let n := (s.fireBar b).next
      let t := fireDelay ((s.firePos b n : Int) * 65536) ppos v
      if s.get F.FIRE_HORIZON_EFF b < t then s
      else
        let r := s.decideLine b n c t
        let s := r.2
        if r.1 then evalLines b c v ppos k s else s

/-- The lines that one evaluation can commit: those whose position lies within the horizon of the present one. -/
def State.evalFuel (s : State) (b v : Nat) (ppos : Int) : Nat :=
  let reach := ppos + (512 * v * (s.get F.FIRE_HORIZON_EFF b + 1) / 3515625 : Nat) + 65536 - (s.origin b : Int) * 65536
  (reach / (max 1 s.liveFrame.pitch.toNat : Nat)).toNat + 3 - (s.fireBar b).next + 1

/-- FIRE_EVALUATION (R240). -/
def doFireEvaluation (b : Fin 8) (s : State) : State :=
  let r := s.refEnc
  let v := s.getI F.ENC_SPEED_VALUE r
  if v ≤ 0 ∨ s.on F.ENC_STAT_STILL r ∨ s.on F.ENC_STAT_UNKNOWN r ∨ !s.mayCommit b then s
  else
    let ppos := s.barPosQ16 b
    evalLines b s.fireC v.toNat ppos (s.evalFuel b v.toNat ppos) s

def execFireEvaluation (b : Fin 8) (s : State) : Host.Outcome State Fault Refusal := .next (doFireEvaluation b s)

/-! ### Line boundaries (R243) -/

/-- The committed line whose instant comes first. -/
def firstDue : List (Nat × Nat) → Option (Nat × Nat)
  | [] => none
  | e :: t => match firstDue t with
    | none => some e
    | some f => if e.2 ≤ f.2 then some e else some f

/-- The events of R132 at the boundary of line `n` of bar `b`. -/
def State.jobEvents (s : State) (b n : Nat) : State :=
  match s.job.job with
  | none => s
  | some j =>
    let first := listMin? s.bars = some b
    let last := (s.bars.foldl max 0) = b
    let s := if first ∧ j.start = some n ∧ !j.seenStart then
        ({ s with job := { s.job with job := some { j with seenStart := true } } } : State).hostEvent 0x03 (w32 n)
      else s
    if !last then s
    else match j.place n with
      | none => s
      | some pl =>
        let next := j.place (n + 1)
        let s := if next.any (fun q => q.inst == pl.inst) then s
          else
            s.hostEvent 0x04 (w32 pl.inst)
        if next.isNone ∧ !s.job.ending then
          ({ s with job := { s.job with ending := true } } : State).hostEvent 0x05 (w32 j.id)
        else s

/-- The lines that the fetcher starts at the boundary of line `n` (R174): every line not yet started up to n + F. -/
def State.fetchAt (s : State) (b n : Nat) : State :=
  let lead := s.fetchLead b
  let from_ := match (s.pipe b).fetched with
    | none => n + lead
    | some m => m + 1
  (List.range (n + lead + 1 - from_)).foldl (fun s k => s.startFetch b (from_ + k)) s

/-- The end of the watch of a Proving profile (R107): IB0 has passed its last line. -/
def State.watchPassed (s : State) (b n : Nat) : State :=
  if b = 0 ∧ s.prf.watchEnd.any (fun e => decide (e.toNat ≤ n)) then { s with prf := { s.prf with watchEnd := none } } else s

/-- LINE_BOUNDARY (R243): C has reached the instant of the earliest committed line of bar `b`. -/
def doLineBoundary (b : Fin 8) (s : State) : State :=
  let x := s.fireBar b
  match firstDue x.sched with
  | none => s
  | some (n, t) =>
    if s.fireC < t then s
    else
      let s := s.setFireBar b { x with sched := x.sched.filter (fun e => e.1 != n), started := true }
      let s := { s with fline := Tab.put (fun _ => BitVec.allOnes 64) s.fline b (w64 n) }
      let s := s.postEvent b.val
      let s := s.groupsAtBoundary b n
      let s := if s.barActive b then s.fetchAt b n else s
      let s := (s.jobEvents b n).watchPassed b n
      let s := s.finishFireOps b (· == 1)
      if (s.fireBar b).atStop && s.barActive b then s.finalStop b else s

end Sys2Proof.Machine
end

