-- ==== Sys2Proof/Machine/Security.lean ====
section
/-! DEFINITION. The security controller: signed wrappers (R476 to R478), the commands of SEC.CMD (R471 to R490), audit acknowledgement,
tamper and glitch (R488), and the JTAG instructions (R489). -/

namespace Sys2Proof.Machine

/-! ### OTP -/

/-- The bits that are set among the low `n` bits of a number. -/
def onesIn : Nat → Nat → Nat
  | 0, _ => 0
  | n + 1, v => v % 2 + onesIn n (v / 2)

/-- A lifecycle group (R472). -/
def State.lcsGroup (s : State) (g : Nat) : BitVec 16 := Tab.get (fun _ => 0) s.sec.groups g

/-- Whether a lifecycle group counts as written (R472). -/
def State.lcsGroupSet (s : State) (g : Nat) : Bool := 9 ≤ onesIn 16 (s.lcsGroup g).toNat

/-- The lifecycle state that OTP holds (R472): the highest group in which at least 9 bits are set. -/
def State.lcsOtp (s : State) : Nat :=
  if s.lcsGroupSet 4 then lsRetired else if s.lcsGroupSet 3 then lsOpen else if s.lcsGroupSet 2 then lsCertified
  else if s.lcsGroupSet 1 then lsProvisioned else lsBlank

/-- SEC.LCS shows what OTP holds (R491). -/
def State.loadLcs (s : State) : State :=
  (s.set F.SEC_LCS_STATE s.lcsOtp).set F.SEC_LCS_REVOKED (s.sec.revoked.toNat / 2)

/-- A new challenge (R471, R489). -/
def State.drawChallenge (s : State) : State :=
  (List.range 8).foldl (fun s i =>
    let (w, s) := s.drawFree
    s.set F.SEC_DBGCHAL_WORD w.toNat i) s

/-- The bytes of the challenge (R471). -/
def State.challenge (s : State) : List Byte := (List.range 8).flatMap (fun i => leBytes 4 (s.get F.SEC_DBGCHAL_WORD i))

/-- Zeroises the key store (R475). -/
def State.zeroise (s : State) : State := { s with sec := { s.sec with slots := [] } }

/-! ### Wrappers (R476, R477) -/

/-- The bytes of a wrapper before its payload. -/
abbrev wrapSize : Nat := 0x180

/-- Bytes of Tarn at an engine address, none where they do not lie in Tarn (log entry 44). -/
def State.readArgs (s : State) (a n : Nat) : Option (List Byte) × State :=
  if a < 0x10000000 ∨ 0x10000000 + tarnSize < a + n then (none, s)
  else
    let r := s.readTarn (a - 0x10000000) n
    (some r.bytes, r.st)

/-- The KIND that a command takes (R480): any for VERIFY. Operation 0 stands for the check of a staged profile (R103, R477). -/
def opTakes (op kind : Nat) : Bool :=
  match op with
  | 0 => kind == 2
  | 1 => 1 ≤ kind && kind ≤ 7
  | 3 => kind == 4
  | 5 => kind == 5
  | 6 => kind == 6
  | _ => kind == 7

/-- The public key of a wrapper. -/
def wrapKey (w : List Byte) : List Byte := (w.drop 0x80).take 97

/-- Whether a range of bytes is zero. -/
def zeroBytes (w : List Byte) (off n : Nat) : Bool := ((w.drop off).take n).all (· == 0)

/-- Check 1 of R477. -/
def wrapForm (op : Nat) (w : List Byte) : Bool :=
  leAt w 0 4 == 0x444E4753 && leAt w 4 2 == 1 && opTakes op (leAt w 6 1) && leAt w 7 1 ≤ 4 && leAt w 0x0A 2 / 2 == 0 &&
    zeroBytes w 0x50 48 && zeroBytes w 0xE1 31 && zeroBytes w 0x160 32

/-- Whether the hash of a wrapper's key is that of its slot (R473). A token presented in Blank, where OTP holds no MROOT yet, is taken
with the key it carries for slot 0 (log entry 45). -/
def State.keyFits (s : State) (w : List Byte) : Bool :=
  match Tab.get (fun _ => none) s.sec.hashes (leAt w 7 1) with
  | some h => h == sha384 (wrapKey w)
  | none => s.get F.SEC_LCS_STATE == lsBlank && leAt w 7 1 == 0 && leAt w 6 1 == 5

/-- What DEVBIND names this device by (R471, R476), none where nothing does. -/
def State.deviceId (s : State) (kind : Nat) : Option (List Byte) :=
  if s.get F.SEC_LCS_STATE = lsBlank then (if kind = 5 then some ((sha384 s.challenge).take 16) else none)
  else s.dik.map (fun d => (sha384 (ecPublic d)).take 16)

/-- Check 3 of R477, with the rule of R476 that a licence and a token are bound. -/
def State.bindFits (s : State) (w : List Byte) : Bool :=
  let kind := leAt w 6 1
  if zeroBytes w 0x10 16 then kind ≠ 4 ∧ kind ≠ 5 ∧ kind ≠ 7
  else s.deviceId kind == some ((w.drop 0x10).take 16)

/-- The SVN counter of a KIND. -/
def State.svnOf (s : State) (kind : Nat) : Nat := Tab.get (fun _ => 0) s.sec.svn kind

/-- The STATUS that checks 1 to 4 of R477 give (R480): 0 where they pass. -/
def State.wrapStatus (s : State) (op : Nat) (w : List Byte) : Nat :=
  let kind := leAt w 6 1
  if !wrapForm op w then 1
  else if !s.keyFits w then 2
  else if bitN s.sec.revoked.toNat (leAt w 7 1) = 1 then 8
  else if !s.bindFits w then 7
  else if kind ≤ 3 ∧ leAt w 8 2 < s.svnOf kind then 4
  else 0

/-- Checks 5 and 6 of R477. -/
def wrapSigned (w payload : List Byte) : Bool :=
  sha384 payload == (w.drop 0x20).take 48 && ecdsaVerify (wrapKey w) (sha384 (w.take 0x80)) ((w.drop 0x100).take 96)

/-- What a wrapper of KIND 1 to 3 with COMMIT = 1 does to the counter of its KIND (R478). -/
def State.commitSvn (s : State) (w : List Byte) : State :=
  let kind := leAt w 6 1
  let svn := leAt w 8 2
  if leAt w 0x0A 2 % 2 = 0 ∨ 3 < kind then s
  else
    let s := { s with sec := { s.sec with svn := Tab.put (fun _ => 0) s.sec.svn kind (max (s.svnOf kind) (min 64 svn)) } }
    if 64 < svn then s.report C.sec_svn_full (mkArg none (some kind) svn) else s

/-! ### Starting a command (R480) -/

/-- The controller takes a command: BUSY rises, the wrapper is read and checked as far as R477 step 4, and from there a VERIFY makes the
payload's range read-only. -/
def State.secStart (s : State) (op : Nat) (v : Word) : State :=
  let s := (s.swWrite (R.SEC_CMD.off 0 0) v).set F.SEC_CMD_BUSY 1
  let addr := s.get F.SEC_CMDADDR_ADDR * 64
  let arg := s.get F.SEC_CMD_ARG
  let put := fun (s : State) (st : Nat) (data : List Byte) =>
    { s with sec := { s.sec with cmd := some { op := op, arg := arg, addr := addr, status := st, data := data } } }
  if op = 1 ∨ op = 3 ∨ op = 5 ∨ op = 6 ∨ op = 10 then
    match s.readArgs addr wrapSize with
    | (none, s) => put s 1 []
    | (some w, s) =>
      let st := s.wrapStatus op w
      let len := leAt w 0x0C 4
      if st ≠ 0 then put s st w
      else if 0x10000000 + tarnSize < addr + wrapSize + len then put s 1 w
      else if op = 1 then put { s with sec := { s.sec with prot := some (addr + wrapSize, len) } } 0 w
      else
        match s.readArgs (addr + wrapSize) len with
        | (none, s) => put s 1 w
        | (some p, s) => put s 0 (w ++ p)
  else put s 0 []

/-- A write of SEC.CMD with GO = 1 and operation `op`; while BUSY is 1 it is ignored (R480). -/
def doSecGo (op : Nat) (mine : Bool) (v : Word) (s : State) : State :=
  if fieldOf v 31 1 = 0 ∨ fieldOf v 0 8 ≠ op ∨ !mine then s
  else if s.on F.SEC_CMD_BUSY then (s.swWrite (R.SEC_CMD.off 0 0) v).set F.SEC_CMD_REFUSED 1
  else s.secStart op v

/-- Whether the wrapper at CMDADDR is one of KIND 6 that asks for a revocation (R480): payload word 1 is 1. -/
def State.asksRevoke (s : State) : Bool :=
  match (s.readArgs (s.get F.SEC_CMDADDR_ADDR * 64 + wrapSize + 4) 4).1 with
  | some bs => leAt bs 0 4 == 1
  | none => false

def execVerify (v : Word) (s : State) : Host.Outcome State Fault Refusal := .next (s.busWrite 0x130004 (fun s => doSecGo 1 true v s))
def execRelease (v : Word) (s : State) : Host.Outcome State Fault Refusal := .next (s.busWrite 0x130004 (fun s => doSecGo 2 true v s))
def execLicence (v : Word) (s : State) : Host.Outcome State Fault Refusal := .next (s.busWrite 0x130004 (fun s => doSecGo 3 true v s))
def execKeydrop (v : Word) (s : State) : Host.Outcome State Fault Refusal := .next (s.busWrite 0x130004 (fun s => doSecGo 4 true v s))
def execLcsAdvance (v : Word) (s : State) : Host.Outcome State Fault Refusal := .next (s.busWrite 0x130004 (fun s => doSecGo 5 true v s))
/-- KEYREG (R474): operation 6 with payload word 1 other than 1. -/
def execKeyreg (v : Word) (s : State) : Host.Outcome State Fault Refusal := .next (s.busWrite 0x130004 (fun s => doSecGo 6 (!s.asksRevoke) v s))
/-- REVOKE (R474): operation 6 with payload word 1 equal to 1. -/
def execRevoke (v : Word) (s : State) : Host.Outcome State Fault Refusal := .next (s.busWrite 0x130004 (fun s => doSecGo 6 s.asksRevoke v s))
def execAuditRead (v : Word) (s : State) : Host.Outcome State Fault Refusal := .next (s.busWrite 0x130004 (fun s => doSecGo 7 true v s))
def execAuditSeal (v : Word) (s : State) : Host.Outcome State Fault Refusal := .next (s.busWrite 0x130004 (fun s => doSecGo 8 true v s))
def execMeterRead (v : Word) (s : State) : Host.Outcome State Fault Refusal := .next (s.busWrite 0x130004 (fun s => doSecGo 9 true v s))
def execDbgUnlock (v : Word) (s : State) : Host.Outcome State Fault Refusal := .next (s.busWrite 0x130004 (fun s => doSecGo 10 true v s))

/-! ### Ending a command -/

/-- BUSY falls and CMDSTAT is written (R480). A STATUS or RESULT that the spec does not state is a free value. -/
def State.secEnd (s : State) (status result : Option Nat) : State :=
  let (fs, s) := s.drawFree
  let (fr, s) := s.drawFree
  let s := (s.set F.SEC_CMDSTAT_STATUS (status.getD (fs.toNat % 256))).set F.SEC_CMDSTAT_RESULT (result.getD (fr.toNat % 65536))
  { s.set F.SEC_CMD_BUSY 0 with sec := { s.sec with cmd := none, prot := none } }

/-- The lowest free verified region (R477). -/
def State.freeRegion (s : State) : Option Nat := (List.range 8).find? (fun k => s.get F.SEC_VLEN_VALUE k == 0)

/-- The end of a VERIFY (R477, R478); an image that is refused is an audit entry (R486). -/
def State.verifyDone (s : State) (c : SecCmd) : State :=
  let len := leAt c.data 0x0C 4
  let kind := leAt c.data 6 1
  let refuse := fun (s : State) (st : Nat) => (s.secEnd (some st) none).audit 8 [w32 st, w32 kind, w32 c.addr]
  if c.status ≠ 0 then refuse s c.status
  else
    match s.readArgs (c.addr + wrapSize) len with
    | (none, s) => refuse s 1
    | (some p, s) =>
      if !wrapSigned c.data p then refuse s 2
      else match s.freeRegion with
        | none => s.secEnd (some 5) none
        | some k =>
          let s := (s.set F.SEC_VBASE_VALUE (c.addr + wrapSize) k).set F.SEC_VLEN_VALUE (kind * 2 ^ 29 + len) k
          (s.commitSvn c.data).secEnd (some 0) (some k)

/-- Frees a verified region (R477). -/
def State.freeVerified (s : State) (k : Nat) : State :=
  { (s.set F.SEC_VBASE_VALUE 0 k).set F.SEC_VLEN_VALUE 0 k with sec := { s.sec with relPend := s.sec.relPend.filter (· ≠ k) } }

/-- The end of a RELEASE (R477, R480): while an ELOAD copies the region's image it takes effect when that copy ends. -/
def State.releaseDone (s : State) (c : SecCmd) : State :=
  if 8 ≤ c.arg ∨ s.get F.SEC_VLEN_VALUE c.arg = 0 then s.secEnd none none
  else
    let copying := (List.range 18).any (fun e => (s.engine e).loading.any (fun l => l.addr == s.get F.SEC_VBASE_VALUE c.arg))
    let s := if copying then { s with sec := { s.sec with relPend := c.arg :: s.sec.relPend } } else s.freeVerified c.arg
    s.secEnd (some 0) (some c.arg)

/-- The key under which a licence carries its job key (R483), none where EPUB is no point of the curve. -/
def licenceKey (d : Nat) (p : List Byte) : Option (List Byte) :=
  let e := (p.drop 0x20).take 97
  let x := beNat ((e.drop 1).take 48)
  let y := beNat ((e.drop 49).take 48)
  if e.headD 0 ≠ 4 ∨ p384p ≤ x ∨ p384p ≤ y ∨ y * y % p384p ≠ (x * x * x + (p384p - 3) * x + p384b) % p384p then none
  else match ecMul 384 d (some (x, y)) with
    | none => none
    | some q => some (hkdf384 (beList 48 q.1) (labelBytes ['I', 'H', 'N', '-', 'L', 'I', 'C'] ++ p.take 4) 32)

/-- The job key of a licence (R483), none where the tag fails. -/
def openLicence (d : Nat) (p : List Byte) : Option (List Byte) :=
  match licenceKey d p with
  | none => none
  | some k =>
    let r := gcmOpen k ((p.drop 0x84).take 12) (p.take 0x20) ((p.drop 0x90).take 32) ((p.drop 0xB0).take 16)
    if r.2 then some r.1 else none

/-- Puts the key of a licence into a slot (R483): a slot that holds the KEYID keeps USED and OVER. -/
def State.loadLicence (s : State) (k : Nat) (p : List Byte) (key : List Byte) : State :=
  let metres := leAt p 0x10 4
  let old := s.keySlot k
  let s := s.setKeySlot k (some
    { keyid := w32 (leAt p 0 4), lseq := w32 (leAt p 4 4), design := BitVec.ofNat 64 (leAt p 8 8), key := key, metered := decide (0 < metres),
      limit := ((old.map (·.limit)).getD 0) + metres * 1000, used := (old.map (·.used)).getD 0, beyond := (old.map (·.beyond)).getD 0 })
  s.audit 3 [w32 (leAt p 0 4), w32 (leAt p 4 4), w32 metres]

/-- The LSEQ at which a KEYID was dropped (R483). -/
def State.droppedAt (s : State) (keyid : Word) : Option Word := (s.sec.dropped.find? (fun e => e.1 == keyid)).map (·.2)

/-- The end of a LICENCE (R483, R487). -/
def State.licenceDone (s : State) (c : SecCmd) : State :=
  let p := c.data.drop wrapSize
  let keyid := w32 (leAt p 0 4)
  let lseq := leAt p 4 4
  if c.status ≠ 0 then s.secEnd (some c.status) none
  else if !wrapSigned c.data p then s.secEnd (some 2) none
  else if p.length ≠ 192 ∨ !zeroBytes p 0x14 12 ∨ !zeroBytes p 0x81 3 then s.secEnd (some 1) none
  else if s.auditFull then (s.bump F.SEC_AUDSEQ_LOST).secEnd none none
  else if 0 < leAt p 0x10 4 ∧ !s.feature 4 then s.secEnd (some 3) none
  else
    match s.slotOf keyid with
    | some k =>
      if (s.keySlot k).any (fun x => decide (lseq ≤ x.lseq.toNat)) then s.secEnd (some 6) none
      else match s.dik.bind (fun d => openLicence d p) with
        | none => s.secEnd (some 2) none
        | some key => (s.loadLicence k p key).secEnd (some 0) (some k)
    | none =>
      if (s.droppedAt keyid).any (fun l => decide (lseq ≤ l.toNat)) then s.secEnd (some 6) none
      else match (List.range 64).find? (fun k => (s.keySlot k).isNone) with
        | none => s.secEnd (some 5) none
        | some k =>
          match s.dik.bind (fun d => openLicence d p) with
          | none => s.secEnd (some 2) none
          | some key => (s.loadLicence k p key).secEnd (some 0) (some k)

/-- The end of a KEYDROP (R483). -/
def State.keydropDone (s : State) (c : SecCmd) : State :=
  match s.keySlot c.arg with
  | none => s.secEnd none none
  | some x =>
    let s := s.setKeySlot c.arg none
    let s := { s with sec := { s.sec with dropped := (x.keyid, x.lseq) :: s.sec.dropped.filter (fun e => e.1 ≠ x.keyid) } }
    (s.audit 4 [x.keyid, x.lseq, w32 c.arg]).secEnd (some 0) (some c.arg)

/-- Whether R471 lists a transition for a token signed by a slot. -/
def lcsAllowed (src dst slot : Nat) : Option Bool :=
  if src = lsBlank ∧ dst = lsProvisioned then some (slot == 0)
  else if src = lsProvisioned ∧ dst = lsCertified then some true
  else if (src = lsProvisioned ∨ src = lsCertified) ∧ dst = lsOpen then some true
  else if src ≠ lsRetired ∧ dst = lsRetired then some true
  else none

/-- Programs a lifecycle group (R472). -/
def State.putGroup (s : State) (g : Nat) (v : BitVec 16) : State :=
  { s with sec := { s.sec with groups := Tab.put (fun _ => 0) s.sec.groups g v } }

/-- The transition to a lifecycle state (R471). -/
def State.enterLcs (s : State) (dst : Nat) (key : List Byte) : State :=
  let src := s.get F.SEC_LCS_STATE
  let s := s.putGroup dst 0xFFFF
  let s :=
    if dst = lsProvisioned then
      let (duk, s) := s.drawBytes 8
      { s with sec := { s.sec with duk := duk, hashes := Tab.put (fun _ => none) s.sec.hashes 0 (some (sha384 key)) } }
    else if dst = lsCertified then s.set F.SEC_LCS_DBGOPEN 0
    else if dst = lsOpen then s.zeroise
    else { s.zeroise with sec := { s.zeroise.sec with duk := List.replicate 32 0xFF } }
  s.loadLcs.audit 1 [w32 src, w32 dst, 0]

/-- The end of an LCS_ADVANCE (R471); a new challenge is drawn whether or not it succeeds. -/
def State.lcsDone (s : State) (c : SecCmd) : State :=
  let p := c.data.drop wrapSize
  let slot := leAt c.data 7 1
  let s :=
    if c.status ≠ 0 then s.secEnd (some c.status) none
    else if !wrapSigned c.data p then s.secEnd (some 2) none
    else if p.length < 4 then s.secEnd (some 1) none
    else match lcsAllowed (s.get F.SEC_LCS_STATE) (leAt p 0 4) slot with
      | none => s.secEnd (some 3) none
      | some false => s.secEnd (some 2) none
      | some true => (s.enterLcs (leAt p 0 4) (wrapKey c.data)).secEnd (some 0) none
  s.drawChallenge

/-- The end of a KEYREG or REVOKE (R474). -/
def State.keyregDone (s : State) (c : SecCmd) : State :=
  let p := c.data.drop wrapSize
  let signer := leAt c.data 7 1
  let slot := leAt p 0 4
  let lcs := s.get F.SEC_LCS_STATE
  if c.status ≠ 0 then s.secEnd (some c.status) none
  else if !wrapSigned c.data p then s.secEnd (some 2) none
  else if p.length ≠ 56 ∨ 1 < leAt p 4 4 then s.secEnd (some 1) none
  else if leAt p 4 4 = 0 then
    if lcs ≠ lsProvisioned then s.secEnd (some 3) none
    else if slot = 0 ∨ 4 < slot ∨ (Tab.get (fun _ => none) s.sec.hashes slot).isSome then s.secEnd none none
    else
      let s := { s with sec := { s.sec with hashes := Tab.put (fun _ => none) s.sec.hashes slot (some ((p.drop 8).take 48)) } }
      (s.audit 2 [w32 slot, 0, 0]).secEnd (some 0) (some slot)
  else if lcs = lsBlank then s.secEnd (some 3) none
  else if slot = 0 ∨ 4 < slot then s.secEnd none none
  else if signer ≠ 0 ∧ signer ≠ slot then s.secEnd (some 2) none
  else
    let s := { s with sec := { s.sec with revoked := s.sec.revoked ||| BitVec.ofNat 5 (2 ^ slot) } }
    (s.loadLcs.audit 2 [w32 slot, 1, 0]).secEnd (some 0) (some slot)

/-- A controller's write of Tarn at an engine address. -/
def State.writeArgs (s : State) (a : Nat) (bs : List Byte) : Option State :=
  if a < 0x10000000 ∨ 0x10000000 + tarnSize < a + bs.length then none else some (s.writeTarn (a - 0x10000000) bs)

/-- The end of an AUDIT_READ (R480): the held entries from the one whose SEQ has the low bits FROM, at most ARG × 4. -/
def State.auditReadDone (s : State) (c : SecCmd) : State :=
  let from_ := s.get F.SEC_AUDSEQ_FROM
  let es := (s.sec.audit.reverse.dropWhile (fun e => e.seq % 65536 ≠ from_)).take (c.arg * 4)
  match s.writeArgs c.addr (es.flatMap AuditEntry.bytes) with
  | none => s.secEnd none none
  | some s => s.secEnd (some 0) (some es.length)

/-- The record of a key store slot (R480; log entry 46): zeros where the slot is free. -/
def meterRecord (x : Option KeySlot) : List Byte :=
  match x with
  | none => List.replicate 32 0
  | some x => leBytes 4 x.keyid.toNat ++ leBytes 4 x.lseq.toNat ++ leBytes 8 x.design.toNat ++ leBytes 4 x.limit ++ leBytes 12 x.used

/-- The end of a METER_READ (R480). -/
def State.meterReadDone (s : State) (c : SecCmd) : State :=
  match s.writeArgs c.addr ((List.range 64).flatMap (fun k => meterRecord (s.keySlot k))) with
  | none => s.secEnd none none
  | some s => s.secEnd (some 0) (some 64)

/-- The end of an AUDIT_SEAL (R487). Without a DIK or an entry there is nothing to sign with or to seal (log entry 47). -/
def State.auditSealDone (s : State) : State :=
  if s.sec.audit = [] ∨ s.dik.isNone then s.secEnd none none else s.seal.secEnd (some 0) none

/-- The end of a DBG_UNLOCK (R489). -/
def State.dbgDone (s : State) (c : SecCmd) : State :=
  let p := c.data.drop wrapSize
  let lcs := s.get F.SEC_LCS_STATE
  let s :=
    if lcs ≠ lsProvisioned ∧ lcs ≠ lsOpen then s.secEnd (some 3) none
    else if c.status ≠ 0 then s.secEnd (some c.status) none
    else if leAt c.data 7 1 ≠ 0 ∨ !wrapSigned c.data p then s.secEnd (some 2) none
    else if p.take 32 ≠ s.challenge then s.secEnd none none
    else ((s.set F.SEC_LCS_DBGOPEN 1).zeroise.audit 10 [0, 0, 0]).secEnd (some 0) none
  s.drawChallenge

/-- SECURITY_COMMAND_DONE (R480): the command in progress ends with its effect. -/
def doSecurityCommandDone (s : State) : State :=
  match s.sec.cmd with
  | none => s
  | some c =>
    match c.op with
    | 1 => s.verifyDone c
    | 2 => s.releaseDone c
    | 3 => s.licenceDone c
    | 4 => s.keydropDone c
    | 5 => s.lcsDone c
    | 6 => s.keyregDone c
    | 7 => s.auditReadDone c
    | 8 => s.auditSealDone
    | 9 => s.meterReadDone c
    | 10 => s.dbgDone c
    | _ => s.secEnd none none

def execSecurityCommandDone (s : State) : Host.Outcome State Fault Refusal := .next (doSecurityCommandDone s)

/-! ### Audit acknowledgement -/

/-- AUDIT_ACK (R487): a write of SEC.AUDACK; one that names no held seal is ignored. -/
def doAuditAck (v : Word) (s : State) : State :=
  match s.sec.seals.find? (fun e => e.1 % 2 ^ 32 == v.toNat) with
  | none => s
  | some e =>
    let s := s.set F.SEC_AUDACK_SEQ v.toNat
    let s := { s with sec := { s.sec with acked := max s.sec.acked (e.1 + 1) } }
    s.audit 12 [v, w32 (e.1 / 2 ^ 32), 0]

def execAuditAck (v : Word) (s : State) : Host.Outcome State Fault Refusal := .next (s.busWrite 0x130018 (fun s => doAuditAck v s))

/-! ### Tamper and glitch (R488) -/

/-- What a glitch leaves of a lifecycle write (R472): fewer than 9 bits of the group may be set; which ones is a free value. -/
def State.cutOtp (s : State) (c : SecCmd) : State :=
  let dst := leAt c.data wrapSize 4
  if c.op ≠ 5 ∨ c.status ≠ 0 ∨ lcsAllowed (s.get F.SEC_LCS_STATE) dst (leAt c.data 7 1) ≠ some true then s
  else
    let (w, s) := s.drawFree
    let v := Nat.lor (s.lcsGroup dst).toNat (w.toNat % 65536)
    if onesIn 16 v < 9 then s.putGroup dst (BitVec.ofNat 16 v) else s

/-- Ends the security operation in progress with GLITCH (R488). -/
def State.endGlitch (s : State) : State :=
  match s.sec.cmd with
  | none => s
  | some c =>
    let s := (s.cutOtp c).secEnd (some 9) none
    if c.op = 5 ∨ c.op = 10 then s.drawChallenge else s

/-- A tamper event: the latch and its cause, the audit entry and the report; while only VAUX is present both wait for the next Boot. -/
def State.latchTamper (s : State) (cause : Nat) : State :=
  let s := (s.set F.SEC_TAMPER_LATCH 1).set F.SEC_TAMPER_CAUSE cause
  if s.pwr.vcoreOff.isSome then { s with sec := { s.sec with vauxTamper := cause } }
  else (s.audit 9 [w32 cause, 0, 0]).report C.sec_tamper (mkArg none none cause)

/-- GLITCH (R488). -/
def doGlitch (s : State) : State :=
  if s.pwr.vcoreOff.isSome then
    let (w, s) := s.drawFree
    s.zeroise.latchTamper (w.toNat % 256)
  else
    let recent := (s.now :: s.sec.glitchAt).filter (fun t => s.now < t + 1000000000)
    let s := (s.bump F.SEC_TAMPER_GLITCH).endGlitch
    let s := { s with sec := { s.sec with glitchAt := recent.take 3 } }
    let s := (s.audit 9 [0, 0, 0]).report C.sec_glitch (mkArg none none 0)
    if recent.length < 3 then s
    else
      let s := { s with sec := { s.sec with
        slots := Tab.mapE (fun _ => none) (fun _ x => x.map (fun (y : KeySlot) => { y with key := List.replicate 32 0, limit := y.used / 2 ^ 32 })) s.sec.slots } }
      s.latchTamper 3

def execGlitch (s : State) : Host.Outcome State Fault Refusal := .next (doGlitch s)

/-- TAMPER (R488): the shield mesh, or two sensors out of range. -/
def doTamper (temperature : Bool) (s : State) : State := s.zeroise.latchTamper (if temperature then 2 else 1)

def execTamper (temperature : Bool) (s : State) : Host.Outcome State Fault Refusal := .next (doTamper temperature s)

/-! ### JTAG (R489) -/

/-- The number by which SecState holds a TAP instruction. -/
def tapCode : TapInstr → Nat
  | .bypass => 0 | .idcode => 1 | .sample => 2 | .extest => 3 | .debugPort => 4

/-- Whether the lifecycle state permits a TAP instruction. -/
def State.tapAllowed (s : State) (t : TapInstr) : Bool :=
  let lcs := s.get F.SEC_LCS_STATE
  match t with
  | .bypass | .idcode => true
  | .sample | .extest => lcs ≠ lsCertified
  | .debugPort => lcs == lsBlank || ((lcs == lsProvisioned || lcs == lsOpen) && s.on F.SEC_LCS_DBGOPEN)

/-- JTAG_INSTRUCTION (R489): an instruction that the state does not offer changes nothing. -/
def doJtagInstruction (t : TapInstr) (s : State) : State :=
  if s.tapAllowed t then { s with sec := { s.sec with tap := tapCode t } } else s

def execJtagInstruction (t : TapInstr) (s : State) : Host.Outcome State Fault Refusal := .next (doJtagInstruction t s)

end Sys2Proof.Machine
end

