-- ==== Sys2Proof/Machine/Sens.lean ====
section
/-! DEFINITION. Sensing, thermal protection, the load measurement and the calibration scheduler (chapter 20). -/

namespace Sys2Proof.Machine

/-! ### The sense ADC (R450 to R452) -/

def State.adcChan (s : State) (c : Nat) : AdcChan := Tab.get (fun _ => AdcChan.reset) s.sens.chans c
def State.setAdcChan (s : State) (c : Nat) (x : AdcChan) : State :=
  { s with sens := { s.sens with chans := Tab.put (fun _ => AdcChan.reset) s.sens.chans c x } }

/-- The channel converted next (R450): the enabled channels in turn, in ascending number. -/
def State.nextAdc (s : State) : Option Nat :=
  let on := (List.range 24).filter (fun c => s.on F.SENS_ACH_EN c)
  match s.sens.last with
  | none => on.head?
  | some l => match on.find? (fun c => decide (l < c)) with
    | some c => some c
    | none => on.head?

/-- The self-calibrated code (R451), clamped. The division truncates toward 0, as in the spec's C. -/
def adcCode (raw rl rh : Nat) : Nat :=
  (clampI 0 4095 (512 + Int.tdiv (((raw : Int) - rl) * 3072 + Int.tdiv ((rh : Int) - rl) 2) ((rh : Int) - rl))).toNat

/-- One averaged value of a channel against its limits (R452). -/
def State.adcLimits (s : State) (c mv : Nat) : State :=
  let x := s.adcChan c
  let cnt := max 1 (s.get F.SENS_ACH_CNT c)
  let low := if mv < s.get F.SENS_ALIM_LO c then min 65535 (x.low + 1) else 0
  let high := if s.get F.SENS_ALIM_HI c < mv then min 65535 (x.high + 1) else 0
  let s := s.setAdcChan c { x with
    low := low, high := high, least := some (min (x.least.getD mv) mv), greatest := some (max (x.greatest.getD mv) mv) }
  let s := s.set F.SENS_AVAL_MV mv c
  let arg := mkArg none (some c) mv
  let s := if low = 0 ∧ high = 0 then (s.set F.SENS_AVAL_LOW 0 c).set F.SENS_AVAL_HIGH 0 c else s
  let s := if cnt ≤ low ∧ !s.on F.SENS_AVAL_LOW c then (s.set F.SENS_AVAL_LOW 1 c).report C.sens_rail_low arg else s
  if cnt ≤ high ∧ !s.on F.SENS_AVAL_HIGH c then (s.set F.SENS_AVAL_HIGH 1 c).report C.sens_rail_high arg else s

/-- ADC_CONVERSION (R450, R451, R452): one sample of the next enabled channel. -/
def doAdcConversion (raw : BitVec 12) (s : State) : State :=
  if !s.on F.SENS_CTL_EN then s
  else match s.nextAdc with
    | none => s
    | some c =>
      let s := { s with sens := { s.sens with last := some c } }
      let x := s.adcChan c
      let avg := min 8 (s.get F.SENS_ACH_AVG c)
      let sum := x.sum + adcCode raw.toNat s.sens.rl s.sens.rh
      if x.n + 1 ≠ 2 ^ avg then s.setAdcChan c { x with sum := sum, n := x.n + 1 }
      else
        let code := (sum + 2 ^ avg / 2) / 2 ^ avg
        let s := s.setAdcChan c { x with sum := 0, n := 0 }
        s.adcLimits c ((code * s.get F.SENS_ACH_GAIN c + 2048) / 4096)

def execAdcConversion (raw : BitVec 12) (s : State) : Host.Outcome State Fault Refusal := .next (doAdcConversion raw s)

/-- A self-calibration of the ADC (R451): codes outside their limits are discarded. An accepted one completes unit 36 (R465). -/
def State.adcCal (s : State) (rl rh : Nat) : State :=
  if 472 ≤ rl ∧ rl ≤ 552 ∧ rl + 2980 ≤ rh ∧ rh ≤ rl + 3164 then
    { s with sens := { s.sens with rl := rl, rh := rh } }.calDone 36
  else s.report C.sens_adc_cal (mkArg none (some 36) 0)

/-- ADC_SELF_CALIBRATION (R451). -/
def doAdcSelfCalibration (rl rh : BitVec 12) (s : State) : State :=
  if s.on F.SENS_CTL_EN then s.adcCal rl.toNat rh.toNat else s

def execAdcSelfCalibration (rl rh : BitVec 12) (s : State) : Host.Outcome State Fault Refusal :=
  .next (doAdcSelfCalibration rl rh s)

/-! ### Die temperature (R454 to R459) -/

/-- The neighbours of a sensor (R454): column n mod 4, row n div 4. -/
def tsNeighbours (n : Nat) : List Nat :=
  (if 4 ≤ n then [n - 4] else []) ++ (if n % 4 ≠ 0 then [n - 1] else []) ++ (if n % 4 ≠ 3 then [n + 1] else []) ++
    (if n < 8 then [n + 4] else [])

def State.tsFailed (s : State) (n : Nat) : Bool := s.on F.SENS_TS_FAILED n

/-- Inserts an integer into an ascending list. -/
def insertInt (a : Int) : List Int → List Int
  | [] => [a]
  | b :: t => if a ≤ b then a :: b :: t else b :: insertInt a t

/-- The median of some readings: the mean of the middle two, rounded down, of an even number (R455). -/
def median (l : List Int) : Option Int :=
  let r := l.foldr insertInt []
  let k := r.length
  if k = 0 then none
  else if k % 2 = 1 then r[k / 2]?
  else match r[k / 2 - 1]?, r[k / 2]? with
    | some a, some b => some (Int.fdiv (a + b) 2)
    | _, _ => none

/-- The reading of a sensor at this conversion. -/
def reading (rs : List (BitVec 16)) (n : Nat) : Int := ((rs.getD n 0).toInt)

/-- The readings of the neighbours of a sensor that are not failed. -/
def State.goodNeighbours (s : State) (rs : List (BitVec 16)) (n : Nat) : List Int :=
  ((tsNeighbours n).filter (fun k => !s.tsFailed k)).map (reading rs)

/-- How many sensors are failed. -/
def State.failedCount (s : State) : Nat := ((List.range 12).filter s.tsFailed).length

/-- A sensor fails (R455). -/
def State.failSensor (s : State) (n : Nat) : State :=
  let s := (s.set F.SENS_TS_FAILED 1 n).report C.sens_ts_disagree (mkArg none (some n) 0)
  let s := { s with sens := { s.sens with dis := Tab.put (fun _ => 0) s.sens.dis n 0 } }
  if s.failedCount = 4 then s.report C.sens_ts_many (mkArg none (some n) 0) else s

/-- The check of one sensor (R455). -/
def State.checkSensor (rs : List (BitVec 16)) (s : State) (n : Nat) : State :=
  if s.tsFailed n then s
  else
    let t := reading rs n
    let setDis := fun (s : State) (k : Nat) => { s with sens := { s.sens with dis := Tab.put (fun _ => 0) s.sens.dis n k } }
    if t < -880 ∨ 2400 < t then s.failSensor n
    else
      let ns := s.goodNeighbours rs n
      if ns.length < 2 then setDis s 0
      else match median ns with
        | none => s
        | some m =>
          if (s.get F.SENS_TCFG_DIFF : Int) < (t - m).natAbs then
            let k := Tab.get (fun _ => 0) s.sens.dis n + 1
            if max 1 (s.get F.SENS_TCFG_N) ≤ k then s.failSensor n else setDis s k
          else setDis s 0

/-- VALUE and SUBST of one sensor after the checks (R455): a failed sensor reads the median of its neighbours. -/
def State.putSensor (rs : List (BitVec 16)) (s : State) (n : Nat) : State :=
  if s.tsFailed n then
    let s := s.set F.SENS_TS_SUBST 1 n
    match median (s.goodNeighbours rs n) with
    | none => s
    | some m => s.set F.SENS_TS_VALUE (ofSigned 16 m) n
  else (s.set F.SENS_TS_SUBST 0 n).set F.SENS_TS_VALUE (rs.getD n 0).toNat n

/-- The hottest sensor that is not failed (R456): the lowest number on a tie. -/
def State.hottest (s : State) (rs : List (BitVec 16)) : Option (Nat × Int) :=
  (List.range 12).foldl (fun a n =>
    if s.tsFailed n then a
    else match a with
      | none => some (n, reading rs n)
      | some (k, t) => if t < reading rs n then some (n, reading rs n) else some (k, t)) none

/-- TJMAX against the limits (R457). -/
def State.tjLimits (s : State) (src : Nat) (t : Int) : State :=
  let high := min 124 (s.get F.SENS_TLIM_HIGH)
  let warn := min high (s.get F.SENS_TLIM_WARN)
  let hys : Int := s.get F.SENS_TLIM_HYS
  let arg := mkArg none (some src) (ofSigned 16 t)
  let one := fun (s : State) (lim : Nat) (was : Bool) (code : Nat) =>
    if (lim : Int) * 16 ≤ t then (if was then s else s.report code arg, true)
    else (s, was && !decide (t < ((lim : Int) - hys) * 16))
  let (s, w) := one s warn s.sens.warned C.sens_tj_warn
  let (s, h) := one s high s.sens.highed C.sens_tj_high
  { s with sens := { s.sens with warned := w, highed := h } }

/-- Whether a sensor supports a thermal shutdown at this conversion (R458). -/
def State.isHot (s : State) (rs : List (BitVec 16)) (n : Nat) : Bool :=
  !s.tsFailed n && decide (2000 ≤ reading rs n) &&
    (s.goodNeighbours rs n).any (fun t => decide (2000 - (s.get F.SENS_TCFG_DIFF : Int) ≤ t))

/-- Thermal shutdown (R458): the report, THERM_N, and the record that the VAUX domain will write. -/
def State.thermalShutdown (s : State) (n : Nat) (t : Int) : State :=
  if s.sens.therm then s
  else
    let s := s.report C.sens_tj_shutdown (mkArg none (some n) (ofSigned 16 t))
    { s with sens := { s.sens with therm := true, shutRec := some (n, min 255 (t / 16).toNat) } }

/-- Whether a calibration unit may be due at all (R463, R464). -/
def State.unitLive (s : State) (u : Nat) : Bool :=
  if u < 32 then s.portPresent (u / 2) && s.portUp (u / 2)
  else if u < 36 then s.chPresent (u - 32) && s.get F.DMC_CHSTAT_STATE (u - 32) == 4
  else true

/-- A unit becomes due (R464), or stops being due while its port or channel is not up. -/
def State.setDue (s : State) (u : Nat) : State :=
  if s.on F.SENS_CUSTAT_DUE u then s
  else (s.set F.SENS_CUSTAT_DUE 1 u).setCalUnit u { s.calUnit u with dueAt := some s.now, beyond := false }

/-- What a conversion means to one unit (R464): a unit that has never completed takes TREF from the first conversion while it is up. -/
def State.convUnit (s : State) (u : Nat) : State :=
  let x := s.calUnit u
  if !s.unitLive u then
    (s.set F.SENS_CUSTAT_DUE 0 u).setCalUnit u { x with dueAt := none, beyond := false, base := if x.done then x.base else none }
  else match x.base with
    | none => (s.set F.SENS_CUSTAT_TREF (s.unitTemp u) u).setCalUnit u { x with base := some (s.tbNs 0) }
    | some _ =>
      let d := s.get F.SENS_CUNIT_DELTA u
      let diff := (toSigned 16 (s.unitTemp u) - toSigned 16 (s.get F.SENS_CUSTAT_TREF u)).natAbs
      if s.on F.SENS_CUNIT_EN u && d != 0 && decide (d ≤ diff) then s.setDue u else s

/-- TEMP_CONVERSION (R454 to R458, R464): the twelve sensors convert. -/
def doTempConversion (rs : List (BitVec 16)) (s : State) : State :=
  if rs.length ≠ 12 then s
  else
    let s := (List.range 12).foldl (State.checkSensor rs) s
    let s := (List.range 12).foldl (State.putSensor rs) s
    let s := s.set F.SENS_TJ_NFAIL s.failedCount
    let s := match s.hottest rs with
      | none => s
      | some (n, t) => ((s.set F.SENS_TJ_SRC n).set F.SENS_TJ_TJMAX (ofSigned 16 t)).tjLimits n t
    let hot := (List.range 12).filter (s.isHot rs)
    let s := match hot.find? (fun n => s.sens.hot.contains n) with
      | none => s
      | some n => s.thermalShutdown n (reading rs n)
    let s := { s with sens := { s.sens with hot := hot } }
    (List.range 37).foldl State.convUnit s

def execTempConversion (rs : List (BitVec 16)) (s : State) : Host.Outcome State Fault Refusal := .next (doTempConversion rs s)

/-- The VAUX hour counter, modulo 2^19 (R459). -/
def State.hours (s : State) : Nat := (s.now - s.sens.hourBase) / 3600000000000 % 2 ^ 19

/-- Boot loads SENS.OTSTAT and OTREC from OTP (R459): FULL when all 32 records are written. -/
def State.loadOtrec (s : State) : State :=
  let s := (s.set F.SENS_OTSTAT_COUNT s.sens.otp.length).set F.SENS_OTSTAT_FULL (decide (32 ≤ s.sens.otp.length)).toNat
  (List.range s.sens.otp.length).foldl (fun s k => s.wr (R.SENS_OTREC.off k 0) (s.sens.otp.getD k 0)) s

/-- SHUTDOWN_RECORD (R458, R459). -/
def doShutdownRecord (s : State) : State :=
  match s.sens.shutRec with
  | none => s
  | some (n, c) =>
    let s := { s with sens := { s.sens with shutRec := none } }
    if 32 ≤ s.sens.otp.length then s.set F.SENS_OTSTAT_FULL 1
    else
      let w := w32 (2 ^ 31 + n * 2 ^ 27 + c * 2 ^ 19 + s.hours)
      { s with sens := { s.sens with otp := s.sens.otp ++ [w] } }

def execShutdownRecord (s : State) : Host.Outcome State Fault Refusal := .next (doShutdownRecord s)

/-! ### Load measurement (R460 to R462) -/

/-- MEAS_LOAD ends with RES0. -/
def State.loadDone (s : State) (res : Nat) : State :=
  let s := (s.set F.SENS_LSTAT_BUSY 0).set F.SENS_LSTAT_RESULT res
  match s.sens.load with
  | none => s
  | some (m, _) => { s with sens := { s.sens with load := none } }.complete m .ok (w32 res)

/-- The segment a segment address names, p × 128 + q. -/
def segOfAddr (a : Nat) : Nat := a / 2 ^ 12 % 16 * 128 + a / 2 ^ 7 % 32 * 4 + a / 2 ^ 5 % 4

/-- MEAS_LOAD (R130, R460, R462). -/
def doMeasLoad (tok : Nat) (s : State) : State :=
  match s.msgOf tok 0x41 with
  | none => s
  | some m =>
    let a := (m.arg 0).toNat
    let sg := segOfAddr a
    if s.sens.load.any (fun e => e.1.tok == tok) then s
    else if 2 ^ 16 ≤ a ∨ a % 32 ≠ 0 then s.complete m .badfield
    else if s.dev ≠ stReady ∨ s.on F.SYS_PMODE_STBY then s.complete m .state
    else if s.on F.SENS_LSTAT_BUSY then s.complete m .busy
    else
      let s := s.set F.SENS_LSTAT_SEG a
      let s := { s with sens := { s.sens with load := some (m, sg) } }
      if s.segState sg ≠ sgStandby ∧ s.segState sg ≠ sgActive then s.loadDone 1
      else if fieldOf ((s.seg sg).cap.getD 0 0) 8 1 = 0 then s.loadDone 2
      else (s.set F.SENS_LSTAT_BUSY 1).sendAcked (sg / 128) 0x12 (sg % 128) [s.rd (R.SENS_LCFG.off 0 0)]

def execMeasLoad (tok : Nat) (s : State) : Host.Outcome State Fault Refusal := .next (doMeasLoad tok s)

/-- LOADRES (R461, R462): the answer to the outstanding LOADREQ. -/
def doLoadres (p : Fin 16) (m : List Word) (s : State) : State :=
  if !s.upOk p m 0x28 then s
  else
    let s := s.fromSeg p m
    match (s.port p).pend.find? (fun q => q.tok == upArg m % 4096 && q.mtype == 0x12 && q.dst == upSrc m) with
    | none => s
    | some q =>
      let s := (s.takePend p q.tok).2
      let s := ((m.drop 1).take 12).zipIdx.foldl (fun s e => s.wr (R.SENS_LRES.off e.2 0) e.1) s
      match fieldOf (m.getD 1 0) 24 8 with
      | 0 =>
        if m.getD 4 0 = 0 then s.loadDone 0
        else (s.report C.sens_load_fault (mkArg none (some p.val) q.dst)).loadDone 6
      | 2 => s.loadDone 4
      | 3 => s.loadDone 5
      | _ =>
        -- a status the table does not list: RES0 is a free value
        let (r, s) := s.drawFree
        s.loadDone (r.toNat % 256)

def execLoadres (p : Fin 16) (m : List Word) (s : State) : Host.Outcome State Fault Refusal := .next (doLoadres p m (s.upEvent p m 0x28))

/-! ### The calibration scheduler (R463 to R465) -/

/-- The age rule and the overdue rule for one unit (R464, R465). -/
def State.ageUnit (s : State) (u : Nat) : State :=
  let age := s.get F.SENS_CSCH_AGE
  let x := s.calUnit u
  if age = 0 || !s.unitLive u then s
  else
    let s := if s.on F.SENS_CUNIT_EN u && x.base.any (fun b => decide (b + age * 1000000000 < s.tbNs 0)) then s.setDue u else s
    let x := s.calUnit u
    if s.on F.SENS_CUSTAT_DUE u && !x.beyond && x.dueAt.any (fun t => decide (t + 2 * age * 1000000000 ≤ s.now)) then
      (s.setCalUnit u { x with beyond := true }).report C.sens_cal_overdue (mkArg none (some u) 0)
    else s

/-- The lane calibrations that run. -/
def State.calsRunning (s : State) : Nat := ((List.range 16).filter (fun p => s.on F.HLP_STAT_CALRUN p)).length

/-- What the scheduler does about one due unit (R465); `rl` and `rh` are the reference codes, if it runs the ADC. -/
def State.runUnit (rl rh : Nat) (s : State) (u : Nat) : State :=
  if !s.on F.SENS_CUSTAT_DUE u || !s.on F.SENS_CUNIT_EN u || !s.unitLive u then s
  else if u < 32 then
    let p := u / 2
    if s.get F.HLP_STAT_MODE p ≠ 0 ∨ s.on F.HLP_STAT_CALRUN p ∨ max 1 (s.get F.SENS_CSCH_MAXPAR) ≤ s.calsRunning then s
    else
      let v := fieldPut (fieldPut (s.rd (R.HLP_CAL.off p 0)) 31 1 1) 30 1 (u % 2)
      (doRecalibrate (Fin.ofNat 16 p) v s).set F.SENS_CUSTAT_RUN 1 u
  else if u < 36 then
    if s.on F.DMC_STAT_FCBUSY then s else s.set F.SENS_CUSTAT_RUN 1 u
  else if s.on F.SENS_CTL_EN then s.adcCal rl rh
  else s

/-- CALIBRATION_PASS (R465): once every millisecond. -/
def doCalibrationPass (rl rh : BitVec 12) (s : State) : State :=
  let s := (List.range 37).foldl State.ageUnit s
  if s.on F.SENS_CSCH_AUTO then (List.range 37).foldl (State.runUnit rl.toNat rh.toNat) s else s

def execCalibrationPass (rl rh : BitVec 12) (s : State) : Host.Outcome State Fault Refusal := .next (doCalibrationPass rl rh s)

/-! ### MEAS_READ kinds 0 and 1 (R466) -/

/-- One entry of the rail record. -/
def State.railEntry (s : State) (c : Nat) : List Byte :=
  let x := s.adcChan c
  let mv := s.get F.SENS_AVAL_MV c
  leBytes 2 mv ++ leBytes 2 (x.least.getD mv) ++ leBytes 2 (x.greatest.getD mv) ++
    leBytes 1 (s.get F.SENS_ACH_EN c + 2 * s.get F.SENS_AVAL_LOW c + 4 * s.get F.SENS_AVAL_HIGH c) ++ leBytes 1 0

/-- MEAS_READ kind 0: the least and greatest values restart. -/
def doMeasReadRails (tok : Nat) (ok : Bool) (s : State) : State :=
  s.measRead tok 0 ok ((List.range 24).flatMap s.railEntry)
    (fun s => (List.range 24).foldl (fun s c => s.setAdcChan c { s.adcChan c with least := none, greatest := none }) s)

def execMeasReadRails (tok : Nat) (ok : Bool) (s : State) : Host.Outcome State Fault Refusal := .next (doMeasReadRails tok ok s)

/-- The temperature record. -/
def State.tempRecord (s : State) : List Byte :=
  (List.range 12).flatMap (fun n => leBytes 2 (s.get F.SENS_TS_VALUE n) ++
    leBytes 1 (s.get F.SENS_TS_FAILED n + 2 * s.get F.SENS_TS_SUBST n) ++ leBytes 1 0) ++
  leBytes 2 (s.get F.SENS_TJ_TJMAX) ++ leBytes 1 (s.get F.SENS_TJ_SRC) ++ leBytes 1 (s.get F.SENS_OTSTAT_COUNT) ++
  leBytes 4 ((s.sens.otp.getLast?.map BitVec.toNat).getD 0) ++ leBytes 8 0

/-- MEAS_READ kind 1. -/
def doMeasReadTemperatures (tok : Nat) (ok : Bool) (s : State) : State := s.measRead tok 1 ok s.tempRecord

def execMeasReadTemperatures (tok : Nat) (ok : Bool) (s : State) : Host.Outcome State Fault Refusal :=
  .next (doMeasReadTemperatures tok ok s)

end Sys2Proof.Machine
end

