-- ==== Sys2Proof/Machine/Halt.lean ====
section
/-! DEFINITION. The reactions of the fault classes (R424): JOBHOLD, Halted (R426) and Grave (R427). -/

namespace Sys2Proof.Machine

/-- The reaction of class Job (R424): JOBHOLD; while Printing, every bar stops before its first line not committed and the device enters
Paused. -/
def State.jobReaction (s : State) : State :=
  let s := s.set F.FLT_STAT_JOBHOLD 1
  if s.printing then s.stopJob none (fun _ => false) else s

/-- Step 2 of R426 for one engine: state Halted, its claim and role unchanged. -/
def State.haltEngine (s : State) (e : Nat) : State :=
  (s.setEngine e { s.engine e with stall := none, wait := none, loading := none }).setEstate e esHalted

/-- Step 2 of R426 for one gate: its queued descriptors and those presented to it are discarded. -/
def State.clearGate (s : State) (g : Nat) : State := s.setGate g { s.gate g with queue := [], presented := [] }

/-- A Standby that a fault of class Device or Grave ends (R506): STBY is cleared. -/
def State.clearStandby (s : State) : State :=
  let s := (s.set F.SYS_PMODE_STBY 0).set F.SYS_PMODE_ACTIVE 0
  { s with pwr := { s.pwr with stbyWait := false, stbyPorts := [], exitAt := none } }

/-- The steps of R426 before DEV.STATE changes. The fire schedulers commit no line once DEV.STATE is Halted. -/
def State.haltAll (s : State) : State :=
  let s := (List.range 18).foldl State.haltEngine s
  let s := (List.range 34).foldl State.clearGate s
  let s := (List.range 8).foldl (fun s b => s.setFireBar b { s.fireBar b with taken := 0 }) s
  s.groupsAtHalt.clearStandby

/-- Entry to Halted (R426): it takes its reaction from any state but Halted and Grave. -/
def State.enterHalted (s : State) : State :=
  if s.dev = stHalted ∨ s.dev = stGrave then s else s.haltAll.setDev stHalted

/-- The pins and ports that Grave turns off (R427). -/
def State.graveOff (s : State) : State :=
  let s := (List.range 16).foldl (fun s p => s.writeHlpCtl p (fieldPut (s.rd (R.HLP_CTL.off p 0)) 31 1 0)) s
  let s := (List.range 2).foldl (fun s j => (s.set F.TIME_ECTL_EN 0 j).set F.TIME_ESTAT_LINK 0 j) s
  (List.range 2).foldl (fun s k => s.setCam k { s.cam k with trig := none, trigEnd := 0, strobes := [], strbEnd := 0 }) s

/-- FLT.GRAVE and GRAVEARG take the first report of class Grave (R427). -/
def State.graveRecord (s : State) (code : Nat) (arg : Word) : State :=
  if s.on F.FLT_GRAVE_VALID then s
  else ((s.set F.FLT_GRAVE_CODE code).set F.FLT_GRAVE_VALID 1).set F.FLT_GRAVEARG_ARG arg.toNat

/-- Entry to Grave (R427). -/
def State.enterGrave (s : State) (code : Nat) (arg : Word) : State :=
  if s.dev = stGrave then s
  else
    let s := if s.dev = stHalted then s else s.haltAll
    (s.graveOff.graveRecord code arg).setDev stGrave

/-- The reaction of a report of class `cls` (R424). -/
def State.react (s : State) (code cls : Nat) (arg : Word) : State :=
  if cls = 3 then s.jobReaction
  else if cls = 4 then s.enterHalted
  else if cls = 5 then s.enterGrave code arg
  else s

end Sys2Proof.Machine
end

