-- ==== Sys2Proof/Machine/Xing.lean ====
section
/-! DEFINITION. Clock islands and crossings (chapter 17): the reference and the PLLs (R405, R406), stopped and one-sided crossings (R411 to
R415), island resets (R412), and the internal oscillator (R416, R417). -/

namespace Sys2Proof.Machine

/-! ### PLLs (R405) -/

/-- The PLL that feeds an island (0 PB, 1 PF, 2 PD, 3 PE); the PCIe and camera islands have none of the four. -/
def islandPll (i : Nat) : Option Nat :=
  if (1 ≤ i ∧ i ≤ 16) ∨ i = 21 then some 1
  else if 17 ≤ i ∧ i ≤ 20 then some 2
  else if i = 22 ∨ i = 23 then some 3
  else if 26 ≤ i ∧ i ≤ 28 then some 0
  else none

/-- XING.STAT.LOCK of a PLL: bit 30 is PB, bit 27 is PE (R418). -/
def State.pllLocked (s : State) (p : Nat) : Bool := bitN (s.get F.XING_STAT_LOCK) (3 - p) == 1
def State.setLock (s : State) (p : Nat) (on : Bool) : State :=
  let v := s.get F.XING_STAT_LOCK
  s.set F.XING_STAT_LOCK (v - bitN v (3 - p) * 2 ^ (3 - p) + on.toNat * 2 ^ (3 - p))

/-- A request in the queue of a stopped channel ends as beyond the populated capacity (R414): a fetcher's block is refused. -/
def State.dropReq (s : State) (r : DReq) : State :=
  let a := (r.lines.headD (0, [])).1
  let s := s.dramRange a
  match r.port, r.who with
  | .rt b, some (inst, group, stripe) =>
    match (s.pipe b).groups.find? (fun g => g.inst == inst && g.group == group && g.stripe == stripe) with
    | some g => s.refuse b g 0 3 false
    | none => s
  | _, _ => s

/-- The island of a DRAM channel stops or is held: its requests end. -/
def State.dropQueue (s : State) (c : Nat) : State :=
  let x := s.chan c
  (x.issued ++ x.queue).foldl State.dropReq (s.setChan c { x with queue := [], issued := [] })

/-- An island that is treated as stopped (R406, R414). -/
def State.stopIsland (s : State) (i : Nat) : State :=
  if s.island i ≠ isRunning then s
  else
    let s := (s.set F.XING_ISTAT_STATE isStopped i).set F.XING_ISTAT_STALL 1 i
    if 17 ≤ i ∧ i ≤ 20 then s.dropQueue (i - 17) else s

/-- The islands fed by the PLLs that `p` names. -/
def State.stopFed (s : State) (p : Nat → Bool) : State :=
  (List.range 29).foldl (fun s i => if (islandPll i).any p then s.stopIsland i else s) s

/-! ### The reference and the PLLs (R406) -/

/-- REFERENCE_WINDOW (R406): the reference cycles counted in 10 µs. -/
def doReferenceWindow (count : Nat) (s : State) : State :=
  let ok := decide (247 ≤ count ∧ count ≤ 253)
  let bad := if ok then 0 else s.xing.refBad + 1
  let s := (({ s with xing := { s.xing with refBad := min 2 bad } } : State)).set F.XING_STAT_REFOK ok.toNat
  if bad = 2 then ((s.stopFed (fun _ => true)).report C.xing_ref_loss (mkArg none none 0)).enterHalted else s

def execReferenceWindow (count : Nat) (s : State) : Host.Outcome State Fault Refusal := .next (doReferenceWindow count s)

/-- PLL_UNLOCK (R406): PLL `p` reports loss of lock; PB not locked 1 ms after Boot begins stops Boot instead. -/
def doPllUnlock (p : Fin 4) (s : State) : State :=
  let rep := fun (s : State) => s.report C.xing_pll_unlock (mkArg none none p.val)
  if s.pllLocked p then (rep ((s.setLock p false).stopFed (fun q => q == p.val))).enterHalted
  else if p.val = 0 ∧ s.dev = stBoot ∧ s.pwr.bootOk ∧ s.pwr.bootAt + 1000000 ≤ s.now then
    rep { s with pwr := { s.pwr with bootOk := false } }
  else s

def execPllUnlock (p : Fin 4) (s : State) : Host.Outcome State Fault Refusal := .next (doPllUnlock p s)

/-- PLL_LOCK (R405, R517): an enabled PLL reports lock. -/
def doPllLock (p : Fin 4) (s : State) : State := s.setLock p true

def execPllLock (p : Fin 4) (s : State) : Host.Outcome State Fault Refusal := .next (doPllLock p s)

/-! ### Stopped crossings (R414, R415) -/

/-- CROSSING_STOP (R414): a request of a crossing has stayed unacknowledged for XTO µs. A DRAM island is not stopped while FCBUSY is 1
(R405); a camera clock that stops between frames stops no crossing (R415). -/
def doCrossingStop (i : Fin 29) (crossing : BitVec 20) (s : State) : State :=
  if s.island i ≠ isRunning || (17 ≤ i.val && i.val ≤ 20 && s.on F.DMC_STAT_FCBUSY) ||
     ((i.val == 24 || i.val == 25) && !(s.cam (i.val - 24)).open_) then s
  else (s.stopIsland i).noteStop i crossing.toNat

def execCrossingStop (i : Fin 29) (crossing : BitVec 20) (s : State) : Host.Outcome State Fault Refusal :=
  .next (doCrossingStop i crossing s)

/-- Island `i` runs: its crossings carry transfers again. -/
def State.runIsland (s : State) (i : Nat) : State :=
  ({ s with xing := { s.xing with stopRep := Tab.put (fun _ => false) s.xing.stopRep i false } } : State).set F.XING_ISTAT_STATE isRunning i

/-- CROSSING_RESUME (R414): the clock of a stopped island runs again and a transfer completes. STALL stays. -/
def doCrossingResume (i : Fin 29) (s : State) : State :=
  let fed : Bool := match islandPll i with
    | none => true
    | some p => s.pllLocked p && decide (s.xing.refBad < 2)
  if s.island i == isStopped && fed then s.runIsland i else s

def execCrossingResume (i : Fin 29) (s : State) : Host.Outcome State Fault Refusal := .next (doCrossingResume i s)

/-! ### One-sided reset (R410 to R412) -/

/-- ONESIDED_DETECT (R411): an end receives a generation that is not its own; `core`: the core-side end was the one reset alone. -/
def doOnesidedDetect (i : Fin 29) (core : Bool) (crossing : BitVec 20) (s : State) : State :=
  if s.island i = isAbsent ∨ s.on F.XING_ISTAT_ONESIDED i then s
  else
    let s := (s.set F.XING_ISTAT_STATE isHeld i).set F.XING_ISTAT_ONESIDED 1 i
    let s := if core then s.set F.XING_ISTAT_GEN (s.get F.XING_ISTAT_GEN i + 1) i else s
    let s := if 17 ≤ i.val ∧ i.val ≤ 20 ∧ !s.on F.DMC_STAT_FCBUSY then s.dropQueue (i.val - 17) else s
    s.report C.xing_onesided (mkArg none (some i.val) crossing.toNat)

def execOnesidedDetect (i : Fin 29) (core : Bool) (crossing : BitVec 20) (s : State) : Host.Outcome State Fault Refusal :=
  .next (doOnesidedDetect i core crossing s)

/-- Whether the unit that an island serves is enabled (R412). -/
def State.islandUsed (s : State) (i : Nat) : Bool :=
  if 1 ≤ i ∧ i ≤ 16 then s.on F.HLP_CTL_EN (i - 1)
  else if 17 ≤ i ∧ i ≤ 20 then s.on F.DMC_CTL_EN
  else if i = 22 ∨ i = 23 then s.on F.TIME_ECTL_EN (i - 22)
  else if i = 24 ∨ i = 25 then s.on F.CAM_PCTL_EN (i - 24)
  else true

/-- ISLAND_RESET (R410, R412): a write of XING.IRST. -/
def doIslandReset (v : Word) (s : State) : State :=
  let s := s.swWrite (R.XING_IRST.off 0 0) v
  let i := fieldOf v 0 5
  if fieldOf v 31 1 = 0 ∨ 28 < i ∨ s.island i = isAbsent then s
  else if s.islandUsed i then s.set F.XING_STAT_IRSTREF 1
  else ((s.runIsland i).set F.XING_ISTAT_ONESIDED 0 i).set F.XING_ISTAT_GEN 0 i

def execIslandReset (v : Word) (s : State) : Host.Outcome State Fault Refusal := .next (s.busWrite 0xf0008 (fun s => doIslandReset v s))

/-! ### Oscillator compensation (R416, R417) -/

/-- The table part of the trim code at a sensor reading in 1/16 °C (R416). -/
def trimCode (otrim : Nat → Int) (ts : Int) : Int :=
  let t := clampI (-640) 1760 ts
  let i := min ((t + 640).toNat / 160) 14
  let f := (t + 640) - 160 * i
  otrim i + Int.fdiv ((otrim (i + 1) - otrim i) * f + 80) 160

/-- OSC_TRIM_UPDATE (R416): once every millisecond. -/
def doOscTrimUpdate (s : State) : State :=
  let n := if s.on F.SENS_TS_FAILED 5 then 6 else 5
  let code := trimCode (fun k => s.getI F.XING_OTRIM_TRIM k) (s.getI F.SENS_TS_VALUE n)
  let code := if s.on F.XING_OSC_CALVALID then code + s.getI F.XING_OSC_CORR else code
  s.set F.XING_OSC_CODE (ofSigned 12 code)

def execOscTrimUpdate (s : State) : Host.Outcome State Fault Refusal := .next (doOscTrimUpdate s)

/-- The units of 2^-14 nearest to an error of `e` cycles in 10^6. -/
def trimUnits (e : Int) : Int := Int.fdiv (e * 16384 + 500000) 1000000

/-- OSC_MEASURE (R416, R417): the OSC-I cycles counted in 10 ms of PB. -/
def doOscMeasure (count : Nat) (s : State) : State :=
  if !s.pllLocked 0 || !s.on F.XING_STAT_REFOK then s
  else
    let e : Int := (count : Int) - 1000000
    let corr := clampI (-2048) 2047 (s.getI F.XING_OSC_CORR - trimUnits e)
    let s := (s.set F.XING_OSC_CORR (ofSigned 12 corr)).set F.XING_OSC_CALVALID 1
    if 20000 < e.natAbs then s.report C.xing_osc_drift (mkArg none none 0) else s

def execOscMeasure (count : Nat) (s : State) : Host.Outcome State Fault Refusal := .next (doOscMeasure count s)

end Sys2Proof.Machine
end

