-- ==== Sys2Proof/Machine/Power.lean ====
section
/-! DEFINITION. Resets (R497 to R499), power modes (R505, R506), the watchdog and the management bus (R514). -/

namespace Sys2Proof.Machine

/-! ### What a reset leaves (R498) -/

/-- Keeps the registers at some offsets. -/
def State.keepRegs (s old : State) (p : Nat → Bool) : State :=
  { s with regs := old.regs.filter (fun e => p e.1) }

/-- The registers of the VAUX domain (R498). -/
def vauxReg (off : Nat) : Bool := off == 0x100024 || off == 0x100028 || off == 0x140004

/-- The registers that a software reset keeps besides (R426, R498, R500): history, HSEQ, the first-fault record and the straps. -/
def softReg (off : Nat) : Bool :=
  (0x100100 ≤ off && off < 0x100500) || off == 0x100008 || (0x100010 ≤ off && off < 0x100020) || off == 0x140008

/-- Everything outside the VAUX domain at its reset value (R498): OTP, fuses and flash keep what they hold. -/
def State.resetDevice (old : State) (soft : Bool) : State :=
  let s : State := { State.reset with
    pending := old.pending, now := old.now, freeCtr := old.freeCtr, fused8816 := old.fused8816, cBase := old.now,
    prf := { PrfState.reset with starter := old.prf.starter, flash := old.prf.flash },
    host := { HostState.reset with nextTok := old.host.nextTok, raised := old.host.raised, mem := old.host.mem },
    sec := { old.sec with cmd := none, prot := none, relPend := [], meterStop := none, glitchAt := [] },
    sens := { SensState.reset with otp := old.sens.otp, hourBase := old.sens.hourBase, therm := old.sens.therm },
    xing := { XingState.reset with otpTrim := old.xing.otpTrim },
    pwr := { PowerState.reset with
      vcoreOff := old.pwr.vcoreOff, brown := old.pwr.brown, soft := soft, flashMap := old.pwr.flashMap,
      flashRemap := old.pwr.flashRemap } }
  let s := s.keepRegs old (fun off => vauxReg off || (soft && softReg off))
  let s := ((s.set F.SEC_TAMPER_LATCH (old.get F.SEC_TAMPER_LATCH)).set F.SEC_TAMPER_CAUSE (old.get F.SEC_TAMPER_CAUSE)).set
    F.SEC_LCS_VAUXLOST (old.get F.SEC_LCS_VAUXLOST)
  let s := if soft then s.set F.FLT_HSTAT_FILL (old.get F.FLT_HSTAT_FILL) else { s with sec := { s.sec with tap := 0 } }
  s.drawChallenge

/-- POWER_ON_RESET (R498): in Grave, PORST_N is ignored and a detector counts towards R497 only. -/
def doPowerOnReset (t : ResetTrigger) (s : State) : State :=
  if s.dev = stGrave then s
  else
    let s := s.endGlitch.resetDevice false
    match t with
    | .pin => { s.set F.SYS_RSTCAUSE_PIN 1 with pwr := { s.pwr with brown := false } }
    | .vio18 => { s.set F.SYS_RSTCAUSE_BVIO18 1 with pwr := { s.pwr with brown := true } }
    | .vsram => { s.set F.SYS_RSTCAUSE_BVSRAM 1 with pwr := { s.pwr with brown := true } }
    | .vcore => { s.set F.SYS_RSTCAUSE_BVCORE 1 with pwr := { s.pwr with brown := true } }

def execPowerOnReset (t : ResetTrigger) (s : State) : Host.Outcome State Fault Refusal := .next (doPowerOnReset t s)

/-- The software reset itself (R498, R499). -/
def State.softReset (s : State) : State :=
  let s := (s.resetDevice true).set F.SYS_RSTCAUSE_SOFT 1
  { s with pwr := { s.pwr with brown := false } }

/-- SOFTWARE_RESET (R498, R499): a write of SYS.RST; `flash`: a page program or a sector erase is in progress. -/
def doSoftwareReset (v : Word) (flash : Bool) (s : State) : State :=
  if fieldOf v 31 1 = 0 ∨ fieldOf v 0 16 ≠ 0x5AFE ∨ s.dev = stGrave ∨ s.on F.SYS_RST_PEND then s
  else if s.sec.cmd.isSome then s.endGlitch.set F.SYS_RST_PEND 1
  else if flash || s.sens.shutRec.isSome then s.set F.SYS_RST_PEND 1
  else s.softReset

def execSoftwareReset (v : Word) (flash : Bool) (s : State) : Host.Outcome State Fault Refusal := .next (s.busWrite 0x140000 (fun s => doSoftwareReset v flash s))

/-- DEFERRED_RESET (R499): the work that delayed the reset has ended. -/
def doDeferredReset (s : State) : State :=
  if !s.on F.SYS_RST_PEND || s.sens.shutRec.isSome then s else s.softReset

def execDeferredReset (s : State) : Host.Outcome State Fault Refusal := .next (doDeferredReset s)

/-- JTAG_RESET (R498): TRST_N low selects the instruction of a TAP reset. -/
def doJtagReset (s : State) : State := { s with sec := { s.sec with tap := 0 } }

def execJtagReset (s : State) : Host.Outcome State Fault Refusal := .next (doJtagReset s)

/-- VCORE_REMOVAL (R497): it ends Grave and releases THERM_N, and only the VAUX domain stays. -/
def doVcoreRemoval (s : State) : State :=
  if s.pwr.vcoreOff.isSome then s
  else
    let s := (s.endGlitch.resetDevice false).set F.SYS_RSTCAUSE_VCOREOFF 1
    { s with sens := { s.sens with therm := false }, pwr := { s.pwr with vcoreOff := some s.now, brown := false } }

def execVcoreRemoval (s : State) : Host.Outcome State Fault Refusal := .next (doVcoreRemoval s)

/-- VAUX_LOSS (R475, R486, R498): the VAUX domain loses what it holds; the next SEQ of the audit log is that of the last entry in flash
plus 1. -/
def doVauxLoss (s : State) : State :=
  let s := s.endGlitch.zeroise
  let s := ((s.wr (R.FLT_GRAVE.off 0 0) 0).wr (R.FLT_GRAVEARG.off 0 0) 0).wr (R.SYS_RSTCAUSE.off 0 0) 0
  let s := ((s.set F.SEC_TAMPER_LATCH 0).set F.SEC_TAMPER_CAUSE 0).set F.SEC_LCS_VAUXLOST 0
  let next := match s.sec.audit.head? with
    | some e => e.seq + 1
    | none => 0
  { s with sec := { s.sec with dropped := [], audNext := next, vauxTamper := 0, vauxLost := true },
           sens := { s.sens with hourBase := s.now },
           pwr := { s.pwr with vcoreOff := s.pwr.vcoreOff.map (fun _ => s.now) } }

def execVauxLoss (s : State) : Host.Outcome State Fault Refusal := .next (doVauxLoss s)

/-! ### Standby (R505, R506) -/

/-- The device enters Standby. -/
def State.enterStandby (s : State) : State :=
  let ports := (List.range 16).filter (fun p => s.on F.HLP_CTL_EN p)
  let s := ports.foldl (fun s p => s.writeHlpCtl p (fieldPut (s.rd (R.HLP_CTL.off p 0)) 31 1 0)) s
  let s := s.chans.foldl (fun s c => (s.setChan c { (s.chan c).precharge with postponed := [] }).set F.DMC_CHSTAT_STATE 5 c) s
  let s := (List.range 2).foldl (fun s k => s.writePctl k (fieldPut (s.rd (R.CAM_PCTL.off k 0)) 31 1 0)) s
  let s := if s.on F.ENG_AVSCTL_EN then s.avsWrite s.vminCode else s
  { (s.set F.SYS_PMODE_STBY 1).set F.SYS_PMODE_ACTIVE 1 with
    pwr := { s.pwr with stbyWait := false, stbyPorts := ports, exitAt := none } }

/-- STANDBY_ENTRY (R506): a write of SYS.PMODE with STBY = 1. -/
def doStandbyEntry (v : Word) (s : State) : State :=
  let s := s.set F.SYS_PMODE_REFUSED (if fieldOf v 29 1 = 1 then 0 else s.get F.SYS_PMODE_REFUSED)
  if fieldOf v 31 1 = 0 || s.on F.SYS_PMODE_STBY then s
  else if s.dev ≠ stReady || s.job.job.isSome || !s.ing.jobs.isEmpty then s.set F.SYS_PMODE_REFUSED 1
  else if s.on F.DMC_STAT_FCBUSY then
    let s := s.set F.SYS_PMODE_STBY 1
    { s with pwr := { s.pwr with stbyWait := true } }
  else s.enterStandby

def execStandbyEntry (v : Word) (s : State) : Host.Outcome State Fault Refusal := .next (s.busWrite 0x14000c (fun s => doStandbyEntry v s))

/-- The Standby that waited for a frequency change begins once it has ended. -/
def State.standbyWaited (s : State) : State :=
  if s.pwr.stbyWait && !s.on F.DMC_STAT_FCBUSY then s.enterStandby else s

/-- STANDBY_EXIT (R506): a write of SYS.PMODE with STBY = 0. -/
def doStandbyExit (v : Word) (s : State) : State :=
  let s := s.set F.SYS_PMODE_REFUSED (if fieldOf v 29 1 = 1 then 0 else s.get F.SYS_PMODE_REFUSED)
  if fieldOf v 31 1 = 1 || !s.on F.SYS_PMODE_STBY then s
  else if s.pwr.stbyWait then
    let s := s.set F.SYS_PMODE_STBY 0
    { s with pwr := { s.pwr with stbyWait := false } }
  else
    let s := s.chans.foldl (fun s c => (s.setChan c { s.chan c with lastReq := s.now }).set F.DMC_CHSTAT_STATE 4 c) s
    let s := s.pwr.stbyPorts.foldl (fun s p => s.writeHlpCtl p (fieldPut (s.rd (R.HLP_CTL.off p 0)) 31 1 1)) s
    let s := (s.set F.SYS_PMODE_STBY 0).set F.SYS_PMODE_ACTIVE 0
    { s with pwr := { s.pwr with exitAt := some s.now } }

def execStandbyExit (v : Word) (s : State) : Host.Outcome State Fault Refusal := .next (s.busWrite 0x14000c (fun s => doStandbyExit v s))

/-- Whether every port that Standby had disabled is Up with its enabled segments Active. -/
def State.exitDone (s : State) : Bool :=
  s.pwr.stbyPorts.all (fun p => s.portUp p && (s.portSegs p).all (fun sg => !s.segen sg || s.segState sg == sgActive))

/-- The exit ends when the ports and segments are back, and after 5 ms at the latest (R506). -/
def State.standbyExited (s : State) : State :=
  match s.pwr.exitAt with
  | none => s
  | some t =>
    if s.exitDone || decide (t + 5000000 ≤ s.now) then
      let s := s.set F.SYS_PMODE_EXITUS (min 65535 ((s.now - t) / 1000))
      { s with pwr := { s.pwr with exitAt := none, stbyPorts := [] } }
    else s

/-- Whether a message that needs the line path completes with STATE (R506). -/
def State.noLinePath (s : State) : Bool := s.on F.SYS_PMODE_STBY || s.pwr.exitAt.isSome

/-! ### Watchdog and management bus (R514) -/

/-- A write of SYS.WDOG restarts its count. -/
def State.writeWdog (s : State) (v : Word) : State :=
  let s := s.swWrite (R.SYS_WDOG.off 0 0) v
  { s with pwr := { s.pwr with wdogAt := s.now, wdogRep := false } }

/-- WATCHDOG_EXPIRY (R514): no write for MS ms. -/
def doWatchdogExpiry (s : State) : State :=
  if !s.on F.SYS_WDOG_EN || s.pwr.wdogRep || s.now < s.pwr.wdogAt + 1000000 * max 10 (s.get F.SYS_WDOG_MS) then s
  else ({ s with pwr := { s.pwr with wdogRep := true } } : State).report C.sys_watchdog (mkArg none none 0)

def execWatchdogExpiry (s : State) : Host.Outcome State Fault Refusal := .next (doWatchdogExpiry s)

/-- BUS_TRANSACTION (R46, R514): a write of SYS.BUSCMD. -/
def doBusTransaction (v : Word) (s : State) : State :=
  let s := s.swWrite (R.SYS_BUSCMD.off 0 0) v
  if fieldOf v 31 1 = 0 then s
  else if s.on F.SYS_BUSCMD_BUSY || (fieldOf v 26 2 == 3 && s.on F.ENG_AVSCTL_EN) then s.set F.SYS_BUSCMD_REFUSED 1
  else
    let op : BusOp := { bus := fieldOf v 26 2, addr := fieldOf v 16 8, wlen := min 4 (fieldOf v 12 4), rlen := min 4 (fieldOf v 8 4),
                        data := s.rd (R.SYS_BUSDATA.off 0 0) }
    ({ s with pwr := { s.pwr with bus := some op } } : State).set F.SYS_BUSCMD_BUSY 1

def execBusTransaction (v : Word) (s : State) : Host.Outcome State Fault Refusal := .next (s.busWrite 0x140018 (fun s => doBusTransaction v s))

/-- BUS_TRANSACTION_DONE (R514): the bytes read stand in BUSDATA, or ERR is set. -/
def doBusTransactionDone (ok : Bool) (data : Word) (s : State) : State :=
  match s.pwr.bus with
  | none => s
  | some o =>
    let s := ({ s with pwr := { s.pwr with bus := none } } : State).set F.SYS_BUSCMD_BUSY 0
    if !ok then (s.set F.SYS_BUSCMD_ERR 1).report C.sys_bus (mkArg none none 0)
    else
      let w := 2 ^ (8 * (if o.bus = 3 then 4 else o.rlen))
      s.set F.SYS_BUSDATA_DATA (s.get F.SYS_BUSDATA_DATA / w * w + data.toNat % w)

def execBusTransactionDone (ok : Bool) (data : Word) (s : State) : Host.Outcome State Fault Refusal := .next (doBusTransactionDone ok data s)

end Sys2Proof.Machine
end

