-- ==== Sys2Proof/Machine/Cam.lean ====
section
/-! DEFINITION. Inspection cameras (chapter 15): ports, frames and lines (R370 to R373), triggers (R374), the pipeline and the streams
(R375 to R377), gate CAM (R379), patch strips (R381) and nozzle bands (R382). -/

namespace Sys2Proof.Machine

/-! ### Ports and frames (R370 to R373) -/

/-- GEOM as R389 takes it. -/
def State.camW (s : State) (k : Nat) : Nat := clampN 16 16384 (s.get F.CAM_GEOM_W k)
def State.camH (s : State) (k : Nat) : Nat := max 1 (s.get F.CAM_GEOM_H k)
/-- FMT as R370 takes it, and the components of a pixel. -/
def State.camFmt (s : State) (k : Nat) : Nat := if 4 < s.get F.CAM_PCTL_FMT k then 0 else s.get F.CAM_PCTL_FMT k
def State.camComps (s : State) (k : Nat) : Nat := if s.camFmt k = 4 then 3 else 1

/-- The widened components of some active clocks (R370). -/
def widen (fmt : Nat) (ds : List (BitVec 16)) : List Nat :=
  match fmt with
  | 1 | 4 => ds.map (fun d => let v := d.toNat % 1024; v * 64 + v / 16)
  | 2 => ds.map (fun d => let v := d.toNat % 4096; v * 16 + v / 256)
  | 3 => ds.map BitVec.toNat
  | _ => ds.flatMap (fun d => [d.toNat % 256 * 257, d.toNat / 256 * 257])

/-- CAMERA_ENABLE (R371): a write of CAM.PCTL(k) while the bank supply ball has the sensed voltage `io` (false 1.8 V, true 3.3 V). -/
def doCameraEnable (k : Fin 2) (v : Word) (io : Bool) (s : State) : State := (s.set F.CAM_PSTAT_IOSENSE io.toNat k).writePctl k v

def execCameraEnable (k : Fin 2) (v : Word) (io : Bool) (s : State) : Host.Outcome State Fault Refusal := .next (s.busWrite (R.CAM_PCTL.off k 0) (fun s => doCameraEnable k v io s))

/-- CAMERA_CLOCK_PRESENT (R371): at least 64 edges arrive in every 10 µs; the frequency measured, in kHz (R388). -/
def doCameraClockPresent (k : Fin 2) (khz : Word) (s : State) : State :=
  (s.set F.CAM_PSTAT_PRESENT 1 k).setCam k { s.cam k with absentRep := false, khz := khz.toNat }

def execCameraClockPresent (k : Fin 2) (khz : Word) (s : State) : Host.Outcome State Fault Refusal := .next (doCameraClockPresent k khz s)

/-- CAMERA_ABSENT (R371): PRESENT has been 0 for 1 ms while EN is 1. -/
def doCameraAbsent (k : Fin 2) (s : State) : State :=
  let x := s.cam k
  if !s.on F.CAM_PCTL_EN k || decide (s.now < x.enAt + 1000000) then s
  else
    let s := (s.set F.CAM_PSTAT_PRESENT 0 k).setCam k { x with absentRep := true, khz := 0 }
    if x.absentRep then s else s.report C.cam_absent (mkArg none (some k.val) 0)

def execCameraAbsent (k : Fin 2) (s : State) : Host.Outcome State Fault Refusal := .next (doCameraAbsent k s)

/-- Changes the record of a frame. -/
def Cam.modFrame (x : Cam) (num : Nat) (f : CamFrame → CamFrame) : Cam :=
  { x with frames := x.frames.map (fun e => if e.num = num then f e else e) }

def Cam.frame (x : Cam) (num : Nat) : Option CamFrame := x.frames.find? (fun e => e.num == num)

/-- The number of the frame whose FVAL is active. -/
def Cam.cur (x : Cam) : Nat := (x.num + 2 ^ 32 - 1) % 2 ^ 32

/-- FRAME_START (R372): an active edge of FVAL. -/
def doFrameStart (k : Fin 2) (s : State) : State :=
  let x := s.cam k
  if !s.on F.CAM_PCTL_EN k || x.open_ then s
  else
    let late := x.pulse.any (fun t => decide (t + 1000 * s.get F.CAM_TRIG_LATE k < s.now))
    let f : CamFrame := { num := x.num, late := late, short := false, long := false, drop := false, lineErr := false, uncorr := false,
                          done := false }
    let s := s.setCam k { x with open_ := true, num := (x.num + 1) % 2 ^ 32, received := 0, stamp0 := s.pos, firstAt := s.now,
                                 lastAt := s.now, frames := x.frames ++ [f], pulseH := none }
    let s := s.set F.CAM_PSTAT_INFRAME 1 k
    if late then s.report C.cam_frame_late (mkArg none (some k.val) 0) else s

def execFrameStart (k : Fin 2) (s : State) : Host.Outcome State Fault Refusal := .next (doFrameStart k s)

/-- The pixels that the input buffer holds (R376). -/
def State.camUsed (s : State) (k : Nat) : Nat := ((s.cam k).queue.filter (fun l => l.pads == 0 && !l.drop)).length * s.camW k

/-- A line of the frame in progress is dropped (R373): the count, the flag, and the report once per frame. -/
def State.noteDrop (s : State) (k num : Nat) (uncorr : Bool) : State :=
  let x := s.cam k
  let was := (x.frame num).any (·.drop)
  let y := x.modFrame num (fun f => { f with drop := true, uncorr := f.uncorr || uncorr })
  let s := (s.setCam k { y with dropCnt := x.dropCnt + 1 }).bump F.CAM_DROPCNT_COUNT 1 k
  if was then s else s.report C.cam_line_drop (mkArg none (some k) 0)

/-- A line too many (R372): it is discarded, and its frame is LONG. -/
def State.noteLong (s : State) (k : Nat) : State :=
  let x := s.cam k
  match x.frame x.cur with
  | none => s
  | some f =>
    let s := s.setCam k (x.modFrame f.num (fun f => { f with long := true }))
    let s := if f.done then s.set F.CAM_FLAST_LONG 1 k else s
    if f.long then s else s.report C.cam_frame_long (mkArg none (some k) 0)

/-- The pixels of a line fixed to `n` components of groups of `c` (R372): the last pixel repeats; with no pixel at all the values are
free. -/
def fixLine (n c : Nat) (v : List Nat) (s : State) : List Nat × State :=
  let v := v.take (v.length / c * c)
  if n ≤ v.length then (v.take n, s)
  else if v = [] then
    let (ws, s) := s.drawWords n
    (ws.map (fun w => w.toNat % 65536), s)
  else
    let last := v.drop (v.length - c)
    (v ++ (List.replicate ((n - v.length) / c) last).flatten, s)

/-- CAMERA_LINE (R370, R372, R376): the active clocks of one line. -/
def doCameraLine (k : Fin 2) (ds : List (BitVec 16)) (s : State) : State :=
  let x := s.cam k
  if !s.on F.CAM_PCTL_EN k || !x.open_ then s
  else
    let comps := s.camComps k
    let v := widen (s.camFmt k) ds
    let w := s.camW k
    let px := v.length / comps
    let s := s.set F.CAM_PSTAT_LASTW (min 65535 px) k
    let at_ := if x.received = 0 then s.now else x.firstAt
    let s := s.setCam k { x with received := x.received + 1, firstAt := at_, lastAt := s.now }
    if s.camH k ≤ x.received then s.noteLong k
    else
      let x := s.cam k
      let room := decide (s.camUsed k + w ≤ 32768)
      let (pix, s) := if room then fixLine (w * comps) comps v s else ([], s)
      let num := x.cur
      let l : CamLine := { frame := num, idx := x.received - 1, stamp := s.pos, pads := 0, drop := !room, pix := pix }
      let s := s.setCam k { x with queue := x.queue ++ [l] }
      let s := if px = w then s
        else
          let was := (x.frame num).any (·.lineErr)
          let s := s.setCam k ((s.cam k).modFrame num (fun f => { f with lineErr := true }))
          if was then s else s.report C.cam_line_width (mkArg none (some k.val) 0)
      let s := if room then s else s.noteDrop k num false
      if x.received = s.camH k then s.set F.CAM_PSTAT_INFRAME 0 k else s

def execCameraLine (k : Fin 2) (ds : List (BitVec 16)) (s : State) : Host.Outcome State Fault Refusal := .next (doCameraLine k ds s)

/-- The frame in progress ends (R372): PAD lines up to H, and what MEAS_READ shows of it (R388); the mean line period of fewer than two lines
is a free value. -/
def State.endFrame (s : State) (k : Nat) : State :=
  let x := s.cam k
  let h := s.camH k
  let n := x.received
  let (per, s) := if 2 ≤ n then ((x.lastAt - x.firstAt) / (n - 1), s)
    else
      let (w, s) := s.drawFree
      (w.toNat, s)
  let y := { x with open_ := false, lastLines := min 65535 n, period := per,
                    pulse := if h ≤ n then x.pulseH else none, pulseH := none }
  let y := if y.frames.any (fun f => f.num == x.cur && f.done) then { y with frames := y.frames.filter (fun f => f.num != x.cur) } else y
  let s := (s.setCam k y).set F.CAM_PSTAT_INFRAME 0 k
  if h ≤ n then s
  else
    let stamp := ((y.queue.filter (fun l => l.frame == x.cur)).getLast?.map (·.stamp)).getD x.stamp0
    let l : CamLine := { frame := x.cur, idx := n, stamp := stamp, pads := h - n, drop := false, pix := [] }
    let z := y.modFrame x.cur (fun f => { f with short := true })
    (s.setCam k { z with queue := z.queue ++ [l] }).report C.cam_frame_short (mkArg none (some k) 0)

/-- FRAME_END (R372): FVAL ends. -/
def doFrameEnd (k : Fin 2) (s : State) : State := if (s.cam k).open_ then s.endFrame k else s

def execFrameEnd (k : Fin 2) (s : State) : Host.Outcome State Fault Refusal := .next (doFrameEnd k s)

/-- CAMERA_CLOCK_TIMEOUT (R372, R415): the pixel clock has given no edge for CAMTO µs within a frame. -/
def doCameraClockTimeout (k : Fin 2) (s : State) : State :=
  if !(s.cam k).open_ then s
  else
    let s := if 10 ≤ s.get F.XING_CTL_CAMTO then s.set F.CAM_PSTAT_PRESENT 0 k else s
    s.endFrame k

def execCameraClockTimeout (k : Fin 2) (s : State) : Host.Outcome State Fault Refusal := .next (doCameraClockTimeout k s)

/-! ### Gate CAM (R379) -/

abbrev camGate : Nat := 33

/-- The first descriptor of the gate that the unit has not taken. -/
def State.nextCamDesc (s : State) : Option Desc := (s.gate camGate).queue[s.col.taken]?

/-- Refuses that descriptor: it is dropped without a completion event. -/
def State.refuseCam (s : State) (d : Desc) : State :=
  let g := s.gate camGate
  (s.setGate camGate { g with queue := g.queue.eraseIdx s.col.taken }).report C.cam_gate_op (mkArg none (some (d.w4.toNat % 2)) 0)

def State.takeCam (s : State) : State := { s with col := { s.col with taken := s.col.taken + 1 } }

/-- Marks the first unfinished of the first `n` descriptors that passes `p` as finished. -/
def finishFirst (p : Desc → Bool) : Nat → List Desc → List Desc
  | 0, l => l
  | _, [] => []
  | n + 1, d :: t => if !d.done && p d then { d with done := true } :: t else d :: finishFirst p n t

def State.finishCam (s : State) (op k : Nat) : State :=
  let g := s.gate camGate
  let p := fun (d : Desc) => d.op.toNat == op && d.w4.toNat % 2 == k
  s.setGate camGate { g with queue := finishFirst p s.col.taken g.queue }

/-- The line that a 32-bit line field denotes (R379). -/
def State.lineNear (s : State) (v : Nat) : Nat :=
  let f := (s.flineOf 0).toNat
  let n := f / 2 ^ 32 * 2 ^ 32 + v
  if n + 2 ^ 31 ≤ f then n + 2 ^ 32 else if f + 2 ^ 31 < n ∧ 2 ^ 32 ≤ n then n - 2 ^ 32 else n

/-- Whether an address is a result address: a Tarn engine address that is a multiple of 64. -/
def resultOk (a : Nat) : Bool := a % 64 == 0 && inTarn a 1

/-- Whether the camera unit may carry out a descriptor of operation `op`: EN of its camera, and its reserved bits. -/
def State.camDescOk (s : State) (d : Desc) : Bool :=
  let k := d.w4.toNat % 2
  let plain := d.w4.toNat < 2
  s.on F.CAM_PCTL_EN k && (match d.op.toNat with
    | 1 => plain && d.w5 == 0
    | 2 => plain && d.w5 == 0 && d.w6 == 0 && d.w7 == 0
    | 3 => plain && d.w5 == 0 && resultOk d.w6.toNat
    | 4 => fieldOf d.w4 14 2 == 0 && resultOk d.w6.toNat
    | _ => false)

/-- What the row of operation `op` does with the next descriptor: nothing when it is of another operation; a refusal; else `act`. ARM
also refuses the operations that do not exist. -/
def State.camDesc (s : State) (op : Nat) (act : Desc → State → State) : State :=
  match s.nextCamDesc with
  | none => s
  | some d =>
    let o := d.op.toNat
    let mine := o == op || (op == 1 && (o == 0 || decide (4 < o)))
    if !mine || (s.gate camGate).stopped then s
    else if !s.camDescOk d then s.refuseCam d
    else act d s

/-- ARM (R374, R379): trigger pulses from s0 on. -/
def doArm (s : State) : State :=
  s.camDesc 1 fun d s =>
    let k := d.w4.toNat % 2
    s.takeCam.setCam k { s.cam k with trig := some (d.w6.toNat + 2 ^ 32 * d.w7.toNat) }

def execArm (s : State) : Host.Outcome State Fault Refusal := .next (doArm s)

/-- DISARM (R379): no further pulses. An ARM that has given no pulse is over with it (log entry 41). -/
def doDisarm (s : State) : State :=
  s.camDesc 2 fun d s =>
    let k := d.w4.toNat % 2
    let s := s.takeCam.setCam k { s.cam k with trig := none }
    (s.finishCam 1 k).finishCam 2 k

def execDisarm (s : State) : Host.Outcome State Fault Refusal := .next (doDisarm s)

/-- The patch table of R380, as the live bank holds it when the descriptor is taken. -/
def parsePatches (bs : List Byte) : List PatchRec :=
  let u := fun (o n : Nat) => leNat ((bs.drop o).take n)
  (List.range (min 252 (u 12 2))).map (fun p =>
    let o := 64 + 16 * p
    { cx0 := u o 4, ncol := u (o + 4) 2, bar := u (o + 6) 1, comp := u (o + 7) 1, y0 := u (o + 8) 2, height := u (o + 10) 2,
      tone := u (o + 12) 2, target := u (o + 14) 2 })

/-- PATCH (R379, R381): waits while another PATCH of the camera is in progress. -/
def doPatch (s : State) : State :=
  s.camDesc 3 fun d s =>
    let k := d.w4.toNat % 2
    if (s.cam k).patch.isSome then s
    else
      let r := s.readTarn ((s.bankAddr 0x3F00 false).getD 0) 4096
      let s := r.st.takeCam
      let origin := leNat (r.bytes.take 8)
      let period := max 1 (leNat ((r.bytes.drop 8).take 4))
      let nmin := s.lineNear d.w7.toNat
      let first := if nmin ≤ origin then origin else origin + cdiv (nmin - origin) period * period
      let recs := parsePatches r.bytes
      let op : PatchOp := { addr := d.w6.toNat - 0x10000000, first := first, origin := origin, period := period,
                            guard := leNat ((r.bytes.drop 14).take 2), recs := recs, acc := recs.map (fun _ => (0, 0, 0)) }
      s.setCam k { s.cam k with patch := some op }

def execPatch (s : State) : Host.Outcome State Fault Refusal := .next (doPatch s)

/-- BAND (R379, R382): waits while another BAND of the camera is in progress. DASH and PITCH are taken as R219 takes them. -/
def doBand (s : State) : State :=
  s.camDesc 4 fun d s =>
    let k := d.w4.toNat % 2
    if (s.cam k).band.isSome then s
    else
      let op : BandOp := { bar := fieldOf d.w4 1 3, white := fieldOf d.w4 16 16, dash := clampN 1 16 (fieldOf d.w4 9 5),
                           pitch := max 4 (fieldOf d.w4 4 5), aexp := d.w5.toNat, addr := d.w6.toNat - 0x10000000,
                           start := s.lineNear d.w7.toNat, acc := [] }
      s.takeCam.setCam k { s.cam k with band := some op }

def execBand (s : State) : Host.Outcome State Fault Refusal := .next (doBand s)

/-! ### Triggers (R374) -/

/-- The target after a pulse at position `p`: the next one above it. -/
def nextTarget (t tint p : Nat) : Option Nat :=
  if tint = 0 then none else some (if p < t then t + tint else t + ((p - t) / tint + 1) * tint)

/-- TRIGGER_PULSE (R374): the position has reached the target. -/
def doTriggerPulse (k : Fin 2) (s : State) : State :=
  let x := s.cam k
  match x.trig with
  | none => s
  | some t =>
    if s.pos < t then s
    else
      let strb := if s.get F.CAM_STRB_WIDTH k = 0 then x.strobes else x.strobes ++ [s.now + 10 * s.get F.CAM_STRB_DELAY k]
      let s := s.setCam k { x with
        trig := nextTarget t (s.get F.CAM_TINT_WPU k) s.pos, trigEnd := s.now + 10 * max 1 (s.get F.CAM_TRIG_WIDTH k), strobes := strb,
        pulse := x.pulse.orElse (fun _ => some s.now),
        pulseH := if x.open_ && decide (s.camH k ≤ x.received) then x.pulseH.orElse (fun _ => some s.now) else x.pulseH }
      s.finishCam 1 k

def execTriggerPulse (k : Fin 2) (s : State) : Host.Outcome State Fault Refusal := .next (doTriggerPulse k s)

/-- STROBE (R374): the delay of the oldest strobe has ended. -/
def doStrobe (k : Fin 2) (s : State) : State :=
  let x := s.cam k
  match x.strobes with
  | [] => s
  | t :: rest =>
    if s.now < t then s
    else s.setCam k { x with strobes := rest, strbEnd := s.now + 10 * s.get F.CAM_STRB_WIDTH k }

def execStrobe (k : Fin 2) (s : State) : Host.Outcome State Fault Refusal := .next (doStrobe k s)

/-! ### The pipeline (R375) -/

/-- Spatial noise reduction (stage 2) of `w` pixels of `c` components. -/
def spatial (w c : Nat) (v : Array Nat) : List Nat :=
  (List.range (w * c)).map (fun i =>
    let x := i / c
    let m := i % c
    let at_ := fun (x : Nat) => v.getD (x * c + m) 0
    (at_ (x - 1) + 2 * at_ x + at_ (min (x + 1) (w - 1)) + 2) / 4)

/-- Temporal noise reduction (stage 3) of one component. -/
def temporal (k acc y : Nat) : Nat := ((acc : Int) + Int.fdiv (((y : Int) - acc) * k + 128) 256).toNat

/-- The flat field (stage 4) of one component. -/
def flat (v dark gain : Nat) : Nat := (clampI 0 65535 (Int.fdiv (((v : Int) - dark) * gain + 2048) 4096)).toNat

/-- Stages 2 to 4 for a received line (R375): the output, the temporal filter after it, and whether an uncorrectable byte was met
(R373). -/
def State.filterLine (s : State) (k frame : Nat) (v : List Nat) : (List Nat × List Nat × Bool) × State :=
  let x := s.cam k
  let c := s.camComps k
  let y := if s.on F.CAM_NR_SNR k then spatial (s.camW k) c v.toArray else v
  let kk := min 256 (s.get F.CAM_NR_K k)
  let acc := if x.accOf = some frame then List.zipWith (temporal kk) x.acc y else y
  if !s.on F.CAM_FFBASE_EN k then ((acc, acc, false), s)
  else
    let r := s.readTarn (s.get F.CAM_FFBASE_ADDR k * 64) (4 * acc.length)
    let t := r.bytes.toArray
    let u := fun (o : Nat) => (t.getD o 0).toNat + 256 * (t.getD (o + 1) 0).toNat
    ((acc.zipIdx.map (fun e => flat e.1 (u (4 * e.2)) (u (4 * e.2 + 2))), acc, r.bad), r.st)

/-! ### Streams (R377) -/

/-- One output line of a block: averages of 2^HDEC pixels by the rows present. -/
def blockMean (c hdec : Nat) (rows : List (List Nat)) : List Nat :=
  let rs := rows.map List.toArray
  let np := ((rows.headD []).length) / c
  let step := 2 ^ hdec
  (List.range (cdiv np step * c)).map (fun i =>
    let x0 := i / c * step
    let vs := rs.flatMap (fun r => (List.range (min step (np - x0))).map (fun j => r.getD ((x0 + j) * c + i % c) 0))
    let n := max 1 vs.length
    (vs.foldl (· + ·) 0 + n / 2) / n)

/-- A stream writes its block as a record: the header and the components, padded with free bytes; a record longer than the ring is not
written (log entry 42). -/
def State.emitBlock (s : State) (k j : Nat) (b : CamStream) : State :=
  let out := blockMean (s.camComps k) (s.get F.CAM_SCTL_HDEC k j) b.rows
  let size := s.get F.CAM_SBASE_SIZE k j * 16384
  let body := leBytes 8 b.stamp ++ leBytes 4 b.frame ++ leBytes 2 b.line ++ leBytes 2 b.flags ++ out.flatMap (leBytes 2)
  let pad := (16 - body.length % 16) % 16
  let (fill, s) := s.drawBytes ((pad + 3) / 4)
  let rec_ := body ++ fill.take pad
  if size < rec_.length then s
  else
    let off := s.get F.CAM_SPTR_OFFSET k j
    let off := if size < off + rec_.length then 0 else off
    let base := s.get F.CAM_SBASE_BASE k j * 64 + off
    let s := if base + rec_.length ≤ tarnSize then s.writeTarn base rec_ else s
    s.set F.CAM_SPTR_OFFSET (if off + rec_.length = size then 0 else off + rec_.length) k j

/-- A line reaches stream `j`. -/
def State.streamLine (s : State) (k : Nat) (l : CamLine) (flags : Nat) (out : List Nat) (j : Nat) : State :=
  if !s.on F.CAM_SCTL_EN k j || s.get F.CAM_SBASE_SIZE k j == 0 || decide (l.idx < s.get F.CAM_SWIN_Y0 k j) then s
  else
    let c := s.camComps k
    let x0 := s.get F.CAM_SCTL_X0 k j
    let nw := s.get F.CAM_SWIN_NW k j
    let row := out.drop (x0 * c)
    let row := if nw = 0 then row else row.take (nw * c)
    if row = [] then s
    else
      let x := s.cam k
      let empty : CamStream := { rows := [], stamp := l.stamp, frame := l.frame, line := l.idx, flags := 0 }
      let b := Tab.get (fun _ => empty) x.streams j
      let b := if b.rows = [] then empty else b
      let b := { b with rows := b.rows ++ [row], flags := Nat.lor b.flags flags }
      let none_ : CamStream := { rows := [], stamp := 0, frame := 0, line := 0, flags := 0 }
      if 2 ^ s.get F.CAM_SCTL_VDEC k j ≤ b.rows.length ∨ l.idx + 1 = s.camH k then
        (s.setCam k { x with streams := Tab.put (fun _ => none_) x.streams j none_ }).emitBlock k j b
      else s.setCam k { x with streams := Tab.put (fun _ => none_) x.streams j b }

/-! ### Measurement (R378, R381, R382) -/

/-- The printed line that a camera line shows (R378). -/
def State.printedLine (s : State) (k stamp : Nat) : Option Nat :=
  let o := s.origin 0 + s.get64 F.CAM_DISTLO_WPU F.CAM_DISTHI_WPU k
  let pitch := s.liveFrame.pitch.toNat
  if stamp < o ∨ pitch = 0 then none else some ((stamp - o) * 65536 / pitch)

/-- The camera position of a bar column, in 1/256 pixel (R378). -/
def State.camX (s : State) (k b c : Nat) : Int := s.getI F.CAM_XOFF_X k b + (c * s.get F.CAM_PPC_PPC k / 256 : Nat)

/-- The pixels of patch `p`: the first, and the one after the last (R381). -/
def State.patchPixels (s : State) (k : Nat) (p : PatchRec) : Nat × Nat :=
  let b := if p.bar = 15 then 0 else p.bar
  let lo := -(Int.fdiv (-(s.camX k b p.cx0)) 256)
  let hi := Int.fdiv (s.camX k b (p.cx0 + p.ncol)) 256
  (lo.toNat, min (s.camW k) hi.toNat)

/-- A line adds to a patch (R381). -/
def State.patchLine (s : State) (k row : Nat) (op : PatchOp) (out : Array Nat) (p : PatchRec) (a : Nat × Nat × Nat) : Nat × Nat × Nat :=
  if row < p.y0 + op.guard ∨ p.y0 + p.height < row + op.guard + 1 then a
  else
    let c := s.camComps k
    let (lo, hi) := s.patchPixels k p
    let vs := if p.comp < c then (List.range (hi - lo)).map (fun i => out.getD ((lo + i) * c + p.comp) 0) else []
    (a.1 + vs.foldl (· + ·) 0, a.2.1 + vs.length, a.2.2 + 1)

/-- The result of a PATCH (R381). -/
def PatchOp.result (op : PatchOp) : List Byte :=
  leBytes 8 op.first ++ leBytes 2 op.recs.length ++ leBytes 6 0 ++
    op.acc.flatMap (fun a => leBytes 8 a.1 ++ leBytes 4 a.2.1 ++ leBytes 2 (min 65535 a.2.2) ++ leBytes 2 0)

/-- The PATCH in progress takes a line that shows printed line `n`. -/
def State.measurePatch (s : State) (k n : Nat) (usable : Bool) (out : List Nat) : State :=
  let x := s.cam k
  match x.patch with
  | none => s
  | some op =>
    if op.first + op.period ≤ n then
      ((s.setCam k { x with patch := none }).writeTarn op.addr op.result).finishCam 3 k
    else if n < op.first || !usable then s
    else
      let o := out.toArray
      let acc := List.zipWith (s.patchLine k ((n - op.origin) % op.period) op o) op.recs op.acc
      s.setCam k { x with patch := some { op with acc := acc } }

/-- The window of a nozzle whose dash is expected at `xe` (R382): every pixel whose centre lies within PITCH / 2 columns of it. -/
def window (w pitch ppc : Nat) (xe : Int) : List Nat :=
  let half := pitch * ppc / 512
  let lo := Int.fdiv (xe - half - 128) 256
  (List.range (2 * half / 256 + 3)).filterMap (fun (i : Nat) =>
    let px : Int := lo + i
    if 0 ≤ px ∧ px < w ∧ (256 * px + 128 - xe).natAbs * 512 ≤ pitch * ppc then some px.toNat else none)

/-- A line adds to a nozzle (R382). -/
def State.nozzleLine (s : State) (k : Nat) (op : BandOp) (out : Array Nat) (i noz : Nat) (t : Tab NozAcc) : Tab NozAcc :=
  let c := s.camComps k
  let zero : NozAcc := { a := 0, x := 0, n := 0 }
  let px := window (s.camW k) op.pitch (s.get F.CAM_PPC_PPC k) (s.camX k op.bar (2016 * i + noz))
  let z := Tab.get (fun _ => zero) t (i * 2048 + noz)
  let z := px.foldl (fun (z : NozAcc) p =>
    let a := op.white - out.getD (p * c) 0
    { z with a := z.a + a, x := z.x + (256 * p + 128) * a }) z
  Tab.put (fun _ => zero) t (i * 2048 + noz) { z with n := z.n + 1 }

/-- The tiles of a bar of the live profile. -/
def State.tilesOf (s : State) (b : Nat) : Nat := (((frameBar s.liveFrame b).map (·.tiles)).getD []).length

/-- A band line adds to the nozzles that fire in it. -/
def State.bandLine (s : State) (k q : Nat) (op : BandOp) (out : List Nat) : Tab NozAcc :=
  let pd := op.pitch * op.dash
  let o := out.toArray
  let phase := q % pd / op.dash
  (List.range (s.tilesOf op.bar)).foldl (fun t i =>
    if i % 2 ≠ q / pd then t
    else (List.range ((2048 + op.pitch - 1 - phase) / op.pitch)).foldl
      (fun t m => s.nozzleLine k op o i (phase + m * op.pitch) t) t) op.acc

/-- The entry of a nozzle in a band result (R382). A division by 0 gives a free value. -/
def State.bandEntry (s : State) (k : Nat) (op : BandOp) (i noz : Nat) (z : NozAcc) : List Byte × State :=
  if z.n = 0 then ([0, 0, 0, 0], s)
  else
    let ppc := s.get F.CAM_PPC_PPC k
    let xe := s.camX k op.bar (2016 * i + noz)
    let xc : Int := if z.a = 0 then xe else ((z.x + z.a / 2) / z.a : Nat)
    let (raw, s) := if z.a = 0 then (0, s) else if op.aexp = 0 then
        let (w, s) := s.drawFree
        (w.toNat, s)
      else ((z.a * 256 + op.aexp / 2) / op.aexp, s)
    let (o, s) := if ppc = 0 then
        let (w, s) := s.drawFree
        (w.toNat % 256, s)
      else (min 255 (((xc - xe).natAbs * 256 * 21167 + ppc * 500) / (ppc * 1000)), s)
    (leBytes 2 (min 65535 raw) ++ leBytes 1 o ++ leBytes 1 (1 + (if 65535 < raw then 2 else 0)), s)

/-- The entries of `n` nozzles from nozzle `m` of tile `i` on. -/
def bandEntries (k : Nat) (op : BandOp) (i : Nat) : (n m : Nat) → State → List Byte × State
  | 0, _, s => ([], s)
  | n + 1, m, s =>
    let (e, s) := s.bandEntry k op i m (Tab.get (fun _ => { a := 0, x := 0, n := 0 }) op.acc (i * 2048 + m))
    let (r, s) := bandEntries k op i n (m + 1) s
    (e ++ r, s)

/-- The BAND in progress takes a line that shows printed line `n`. -/
def State.measureBand (s : State) (k n : Nat) (usable : Bool) (out : List Nat) : State :=
  let x := s.cam k
  match x.band with
  | none => s
  | some op =>
    if op.start + 2 * op.pitch * op.dash ≤ n then
      let s := s.setCam k { x with band := none }
      let s := (List.range (s.tilesOf op.bar)).foldl (fun s i =>
        let (bs, s) := bandEntries k op i 2048 0 s
        s.writeTarn (op.addr + i * 8192) bs) s
      s.finishCam 4 k
    else if n < op.start || !usable then s
    else s.setCam k { x with band := some { op with acc := s.bandLine k (n - op.start) op out } }

/-! ### A line through the pipeline -/

/-- The last line of a frame has been taken by every stream and by the measurement (R372): FLAST, FRCNT and the event. -/
def State.frameDone (s : State) (k num : Nat) : State :=
  let x := s.cam k
  match x.frame num with
  | none => s
  | some f =>
    let v := f.short.toNat * 2 ^ 31 + f.long.toNat * 2 ^ 30 + f.late.toNat * 2 ^ 29 + f.drop.toNat * 2 ^ 28 + f.lineErr.toNat * 2 ^ 27 +
      f.uncorr.toNat * 2 ^ 26 + num % 65536
    let y := if x.open_ ∧ x.cur = num then x.modFrame num (fun f => { f with done := true })
      else { x with frames := x.frames.filter (fun f => f.num != num) }
    let s := (s.setCam k { y with frameCnt := x.frameCnt + 1 }).wr (R.CAM_FLAST.off k 0) (w32 v)
    (s.bump F.CAM_FRCNT_COUNT 1 k).postEvent (0x150 + k)

/-- The output of a line (R373, R375): a PAD or DROP line, and one that meets an uncorrectable byte, repeats the line before; before
the first line its values are free. The result: the components and the flags of R377. -/
def State.lineOut (s : State) (k : Nat) (l : CamLine) : (List Nat × Nat) × State :=
  let repeat_ := fun (s : State) (flags : Nat) =>
    let x := s.cam k
    if x.prev ≠ [] then ((x.prev, flags), s)
    else
      let (ws, s) := s.drawWords (s.camW k * s.camComps k)
      ((ws.map (fun w => w.toNat % 65536), flags), s)
  if 0 < l.pads then repeat_ s 1
  else if l.drop then repeat_ s 2
  else
    let ((out, acc, bad), s) := s.filterLine k l.frame l.pix
    if bad then repeat_ (s.noteDrop k l.frame true) 6
    else ((out, 0), s.setCam k { s.cam k with acc := acc, accOf := some l.frame })

/-- PIPELINE_LINE (R375 to R378): a whole line, from the port not served last when both hold one. -/
def doPipelineLine (s : State) : State :=
  let ready := fun (k : Nat) => (s.cam k).queue ≠ []
  let k := 1 - s.col.served % 2
  let k := if ready k then k else 1 - k
  let x := s.cam k
  match x.queue with
  | [] => s
  | l :: rest =>
    let queue := if 1 < l.pads then { l with idx := l.idx + 1, pads := l.pads - 1 } :: rest else rest
    let s := { s.setCam k { x with queue := queue } with col := { s.col with served := k } }
    let ((out, flags), s) := s.lineOut k l
    let s := s.setCam k { s.cam k with prev := out }
    let late := (((s.cam k).frame l.frame).any (·.late)).toNat * 8
    let s := (List.range 4).foldl (fun s j => s.streamLine k l (flags + late) out j) s
    let s := match s.printedLine k l.stamp with
      | none => s
      | some n => (s.measurePatch k n (flags == 0) out).measureBand k n (flags == 0) out
    if l.idx + 1 = s.camH k then s.frameDone k l.frame else s

def execPipelineLine (s : State) : Host.Outcome State Fault Refusal := .next (doPipelineLine s)

/-! ### MEAS_READ kind 8 (R388) -/

/-- One entry of the camera record. -/
def State.camEntry (s : State) (k : Nat) : List Byte :=
  let x := s.cam k
  leBytes 1 (s.get F.CAM_PSTAT_PRESENT k) ++ leBytes 1 (s.get F.CAM_PSTAT_IOSENSE k) ++ leBytes 1 (s.get F.CAM_PCTL_FMT k) ++
    leBytes 1 ((s.rd (R.CAM_FLAST.off k 0)).toNat / 2 ^ 24) ++ leBytes 2 (s.get F.CAM_PSTAT_LASTW k) ++ leBytes 2 (s.get F.CAM_GEOM_W k) ++
    leBytes 2 x.lastLines ++ leBytes 2 (s.get F.CAM_GEOM_H k) ++ leBytes 4 x.khz ++ leBytes 4 x.period ++ leBytes 4 x.frameCnt ++
    leBytes 4 x.dropCnt ++ leBytes 4 0

end Sys2Proof.Machine
end

