-- ==== Sys2Proof/Machine/ColLoop.lean ====
section
/-! DEFINITION. What the standard press program does with camera results (R384 to R387: the colour loop; R216 to R218: check bands and
characterisation), and the completion of descriptors (R31). It does so only while COLOUR is in DEV.FEATACT (R117, log entry 43). -/

namespace Sys2Proof.Machine

/-- The role under which the program commits these groups: COL (R26). -/
abbrev colRole : Nat := 11

/-! ### The loop record (R383) -/

/-- The loop record, as the live bank of 0x3F01 holds it. -/
structure LoopRec where
  trims : Bool
  cols : Bool
  navg : Nat
  gain : Nat
  step : Nat
  limit : Nat
  dead : Nat
  settle : Nat
  ahead : Nat
  alarm : Nat
  alarmN : Nat
  stale : Nat
  ctGain : Nat
  ctStep : Nat
  ctLim : Nat

def parseLoop (bs : List Byte) : LoopRec :=
  let u := fun (o n : Nat) => leNat ((bs.drop o).take n)
  { trims := u 0 1 % 2 = 1, cols := u 0 1 / 2 % 2 = 1, navg := max 1 (u 1 1), gain := u 2 2, step := u 4 2, limit := min 32767 (u 6 2),
    dead := u 8 2, settle := u 10 2, ahead := max 2 (u 12 2), alarm := u 14 2, alarmN := max 1 (u 16 1), stale := u 17 1,
    ctGain := u 18 1, ctStep := u 19 1, ctLim := min 127 (u 20 1) }

/-- The live bank of a table, its first `n` bytes as the program reads them. -/
def State.readLiveBank (s : State) (id n : Nat) : List Byte × State :=
  match s.bankAddr id false with
  | none => ([], s)
  | some a => let r := s.readTarn a n; (r.bytes, r.st)

/-! ### Densities (R384) -/

/-- Whether (a ÷ b)^2000 ≥ 10^e. -/
def powGe (a b : Nat) (e : Int) : Bool :=
  if 0 ≤ e then decide (10 ^ e.toNat * b ^ 2000 ≤ a ^ 2000) else decide (b ^ 2000 ≤ a ^ 2000 * 10 ^ (-e).toNat)

/-- The largest d from `lo` on, within 2^k, with a ÷ b ≥ 10^((2 d − 1) ÷ 2000). -/
def densFrom (a b : Nat) : (k : Nat) → (lo : Int) → Int
  | 0, lo => lo
  | k + 1, lo => densFrom a b k (if powGe a b (2 * (lo + 2 ^ k) - 1) then lo + 2 ^ k else lo)

/-- 1000 × log10(w ÷ m) rounded to the nearest integer, of two means given as sum and count; none where it has no value. -/
def density (w m : Nat × Nat) : Option Int :=
  let a := w.1 * m.2
  let b := m.1 * w.2
  if a = 0 ∨ b = 0 then none else some (densFrom a b 16 (-32768))

/-- The densities of the patches; one that has no value is a free value. -/
def State.densities (s : State) (recs : List PatchRec) (sums : List (Nat × Nat)) : List Int × State :=
  (recs.zip sums).foldl (fun (acc : List Int × State) e =>
    let white := (recs.zip sums).find? (fun f => f.1.bar == 15 && f.1.comp == e.1.comp)
    match white.bind (fun f => density f.2 e.2) with
    | some d => (acc.1 ++ [d], acc.2)
    | none =>
      let (w, s) := acc.2.drawFree
      (acc.1 ++ [toSigned 16 (w.toNat % 65536)], s)) ([], s)

/-! ### Trim updates (R385) -/

/-- q of a tone by R187, without the trim. -/
def State.qOf (s : State) (b tone : Nat) : Nat × State :=
  let u := tone / 16
  let a := (s.bankAddr (0x1001 + b * 256) false).getD 0
  let r := s.readTarn (a + 2 * u) 2
  let r' := r.st.readTarn (a + 2 * min (u + 1) 4095) 2
  let l0 : Int := leNat r.bytes
  let l1 : Int := leNat r'.bytes
  ((l0 + Int.fdiv ((l1 - l0) * (tone % 16 : Nat) + 8) 16).toNat, r'.st)

/-- A patch of a bar as the loop sees it: q, TARGET, D. -/
structure LoopPatch where
  q : Int
  t : Int
  d : Int

/-- Inserts by q. -/
def insertPatch (p : LoopPatch) : List LoopPatch → List LoopPatch
  | [] => [p]
  | a :: l => if p.q ≤ a.q then p :: a :: l else a :: insertPatch p l

/-- Whether q and TARGET both increase strictly. -/
def bothRise : List LoopPatch → Bool
  | a :: b :: l => decide (a.q < b.q) && decide (a.t < b.t) && bothRise (b :: l)
  | _ => true

/-- dl of patch `i` (R385). -/
def loopDelta (r : LoopRec) (ps : Array LoopPatch) (i : Nat) : Int :=
  let z : LoopPatch := { q := 0, t := 0, d := 0 }
  let p := ps.getD i z
  let lo := ps.getD (i - 1) z
  let hi := ps.getD (min (i + 1) (ps.size - 1)) z
  let e := p.t - p.d
  if e.natAbs ≤ r.dead then 0
  else clampI (-(r.step : Int)) r.step (Int.tdiv (e * (hi.q - lo.q) * r.gain) ((hi.t - lo.t) * 256))

/-- The largest index below `n` whose q is at most `x`. -/
def lastBelow (ps : Array LoopPatch) (x : Int) : Nat → Nat
  | 0 => 0
  | n + 1 => if (ps.getD n { q := 0, t := 0, d := 0 }).q ≤ x then n else lastBelow ps x n

/-- The change of trim knot `kk`. -/
def knotDelta (ps : Array LoopPatch) (dl : Array Int) (kk : Nat) : Int :=
  let z : LoopPatch := { q := 0, t := 0, d := 0 }
  let n := ps.size
  let x : Int := 1024 * (kk : Int)
  let q := fun i => (ps.getD i z).q
  if x ≤ q 0 then Int.tdiv (dl.getD 0 0 * x) (q 0)
  else if q (n - 1) ≤ x then dl.getD (n - 1) 0
  else
    let j := lastBelow ps x n
    dl.getD j 0 + Int.tdiv ((dl.getD (j + 1) 0 - dl.getD j 0) * (x - q j)) (q (j + 1) - q j)

/-- cam.loop_limit, once per bar per job. -/
def State.loopLimit (s : State) (b : Nat) : State :=
  if Tab.get (fun _ => false) s.col.limitRep b then s
  else ({ s with col := { s.col with limitRep := Tab.put (fun _ => false) s.col.limitRep b true } } : State).report C.cam_loop_limit
    (mkArg (some b) none 0)

/-- The alarm count of a bar (R387): cam.loop_range when ALARMN consecutive updates lie above ALARM. -/
def State.loopAlarm (s : State) (r : LoopRec) (b : Nat) (ps : List LoopPatch) : State :=
  let n := if ps.any (fun p => decide (r.alarm < (p.t - p.d).natAbs)) then Tab.get (fun _ => 0) s.col.alarms b + 1 else 0
  let s := { s with col := { s.col with alarms := Tab.put (fun _ => 0) s.col.alarms b n } }
  if n = r.alarmN then s.report C.cam_loop_range (mkArg (some b) none 0) else s

/-- The update of one bar (R385): its new trim layer in the standby bank; whether it has changed. -/
def State.trimBar (s : State) (r : LoopRec) (b : Nat) (recs : List PatchRec) (ds : List Int) : Bool × State :=
  let mine := (recs.zip ds).filter (fun e => e.1.bar == b)
  let (ps, s) := mine.foldl (fun (acc : List LoopPatch × State) e =>
    let (q, s) := acc.2.qOf b e.1.tone
    (acc.1 ++ [{ q := q, t := e.1.target, d := e.2 }], s)) ([], s)
  let s := s.loopAlarm r b ps
  let kept := (ps.filter (fun p => decide (0 < p.q))).foldr insertPatch []
  if kept.length < 2 || !bothRise kept then (false, s)
  else
    let arr := kept.toArray
    let dl := ((List.range arr.size).map (loopDelta r arr)).toArray
    let (live, s) := s.readLiveBank (0x1002 + b * 256) 130
    let old := (List.range 65).map (fun kk => toSigned 16 (leNat ((live.drop (2 * kk)).take 2)))
    let raw := old.zipIdx.map (fun e => e.1 + knotDelta arr dl e.2)
    let new := raw.map (clampI (-(r.limit : Int)) r.limit)
    let s := if new = raw then s else s.loopLimit b
    match s.bankAddr (0x1002 + b * 256) true with
    | none => (false, s)
    | some a =>
      if new = old then (false, s) else (true, s.writeTarn a (new.flatMap (fun v => leBytes 2 (ofSigned 16 v))))

/-! ### Committing (R387) -/

/-- Releases the groups of the program that have ended (R84). -/
def State.releaseEnded (s : State) : State :=
  let ended := s.col.groups.filter (fun g => s.gstate g == cgApplied || s.gstate g == cgAborted)
  let s := ended.foldl (fun s g => s.cgaGroup g) s
  { s with col := { s.col with groups := s.col.groups.filter (fun g => !ended.contains g) } }

/-- Commits one update as a WEB group: the tables that have changed. LATE is tried again, `k` times in all. -/
def commitTrim (ahead : Nat) (ids : List Nat) : (k : Nat) → State → State
  | 0, s => s
  | k + 1, s =>
    match s.openGroup colRole false with
    | none => s
    | some (g, s) =>
      let s := ids.foldl (fun s id => s.groupTab g (.bank (BitVec.ofNat 16 id))) s
      let lead := (s.bars.map s.lead).foldl max 0
      let nc := ((s.flineOf 0).toNat + lead + ahead) % 2 ^ 64
      match s.commitGroup g 3 0 (w64 (s.firePos 0 nc)) with
      | (some _, s) => { s with col := { s.col with pend := some (g, nc) } }
      | (none, s) =>
        let late := s.get F.CMT_GSTAT_CAUSE g == caLate
        let s := s.cgaGroup g
        if late then commitTrim ahead ids k s else s

/-- Whether a profile group is in Committed or Applying (R104). -/
def State.profileWaits (s : State) : Bool := s.prf.pend.isSome

/-- The sums start anew. -/
def State.dropPeriods (s : State) : State := { s with col := { s.col with sums := [], periods := 0 } }

/-- The trim group that waits has applied or aborted (R387). -/
def State.colPoll (s : State) : State :=
  let s := s.releaseEnded
  match s.col.pend with
  | none => s
  | some (g, nc) =>
    if s.gstate g = cgApplied then
      let s := s.cgaGroup g
      ({ s with col := { s.col with pend := none, nApply := nc } } : State).dropPeriods
    else if s.gstate g = cgAborted ∨ s.gstate g = cgFree then
      ({ s.cgaGroup g with col := { s.col with pend := none } } : State).dropPeriods
    else s

/-- Adds the sums of a period. -/
def addSums (a b : List (Nat × Nat)) : List (Nat × Nat) :=
  if a = [] then b else List.zipWith (fun x y => (x.1 + y.1, x.2 + y.2)) a b

/-- One measured strip period (R384, R387). -/
def State.colPeriod (s : State) (addr : Nat) : State :=
  let (lb, s) := s.readLiveBank 0x3F01 64
  let (tb, s) := s.readLiveBank 0x3F00 4096
  let r := parseLoop lb
  let recs := parsePatches tb
  let res := s.readTarn (addr - 0x10000000) (16 + 16 * recs.length)
  let s := res.st
  let first := leNat (res.bytes.take 8)
  let new := (List.range recs.length).map (fun p =>
    (leNat ((res.bytes.drop (16 + 16 * p)).take 8), leNat ((res.bytes.drop (24 + 16 * p)).take 4)))
  let top := new.foldl (fun a e => max a e.2) 0
  if first < s.col.nApply + r.settle ∨ new.any (fun e => decide (2 * e.2 < top)) then
    let n := s.col.stale + 1
    let s := { s with col := { s.col with stale := n } }
    if r.stale ≤ n ∧ !s.col.staleRep then
      ({ s with col := { s.col with staleRep := true } } : State).report C.cam_loop_stale (mkArg none none 0)
    else s
  else
    let s := { s with col := { s.col with stale := 0, staleRep := false, sums := addSums s.col.sums new, periods := s.col.periods + 1 } }
    if s.col.periods < r.navg ∨ s.col.pend.isSome then s
    else
      let sums := s.col.sums
      let s := s.dropPeriods
      if s.profileWaits || !r.trims then s
      else
        let (ds, s) := s.densities recs sums
        let (ids, s) := s.bars.foldl (fun (acc : List Nat × State) b =>
          let (ch, s) := acc.2.trimBar r b recs ds
          (if ch then acc.1 ++ [0x1002 + b * 256] else acc.1, s)) ([], s)
        if ids = [] then s else commitTrim r.ahead ids 3 s

/-! ### Column trims (R386) -/

/-- The result entries of a band: for each nozzle (tile position, nozzle) its ρ, offset and flags. -/
def parseBand (tiles : Nat) (bs : List Byte) : List (Nat × Nat × Nat × Nat × Nat) :=
  let t := bs.toArray
  (List.range (tiles * 2048)).map (fun x =>
    let u := fun k => (t.getD (4 * x + k) 0).toNat
    (x / 2048, x % 2048, u 0 + 256 * u 1, u 2, u 3))

/-- The record of a nozzle of the tile at list position `i` of bar `b`, with its map index (R202). -/
def State.mapRecord (s : State) (b i k : Nat) : Nat × Nat :=
  let (p, t) := (s.barTiles b).getD i (0, 0)
  let ix := p * 65536 + t * 2048 + k
  (ix, (s.see (s.get F.SCN_MAPBASE_BASE * 65536 + ix * 4) 4).v)

/-- The mean ρ of the zones of 64 columns, truncated; none for a zone with fewer than 32 entries. -/
def State.zoneMeans (s : State) (b zones : Nat) (es : List (Nat × Nat × Nat × Nat × Nat)) : List (Option Nat) :=
  let good := es.filter (fun e => e.2.2.2.2 % 2 == 1 && recState (s.mapRecord b e.1 e.2.1).2 == 0)
  (List.range zones).map (fun z =>
    let mine := good.filter (fun e => (2016 * e.1 + e.2.1) / 64 == z)
    if mine.length < 32 then none else some ((mine.map (fun e => e.2.2.1)).foldl (· + ·) 0 / mine.length))

/-- The column trims of a bar after a band; the whole live bank is copied first. -/
def State.colTrims (s : State) (r : LoopRec) (b : Nat) (es : List (Nat × Nat × Nat × Nat × Nat)) : State :=
  if !r.cols || s.col.pend.isSome || s.profileWaits then s
  else
    let cols := s.barCols b
    let means := (s.zoneMeans b (cdiv cols 64) es).toArray
    let id := 0x2001 + b * 256
    let (live, s) := s.readLiveBank id 131072
    let raw := (live.take cols).zipIdx.map (fun e =>
      let old := toSigned 8 e.1.toNat
      match means.getD (e.2 / 64) none with
      | none => (old, old)
      | some m =>
        let d := clampI (-(r.ctStep : Int)) r.ctStep (Int.fdiv (2 * (256 - (m : Int)) * r.ctGain + 128) 256)
        (old + d, clampI (-(r.ctLim : Int)) r.ctLim (old + d)))
    let s := if raw.any (fun e => e.1 != e.2) then s.loopLimit b else s
    let new := raw.map (fun e => BitVec.ofNat 8 (ofSigned 8 e.2)) ++ live.drop cols
    match s.bankAddr id true with
    | none => s
    | some a => if new = live then s else commitTrim r.ahead [id] 3 (s.writeTarn a new)

/-! ### Characterisation (R217, R218) -/

/-- The record of a nozzle after a band (R217). -/
def State.character (s : State) (rec_ rho off : Nat) : Nat :=
  let state := recState rec_
  if bitN rec_ 15 = 1 ∨ state = 3 then rec_
  else
    let consec := max 1 (s.get F.SCN_CHAR_CONSEC)
    let dead := decide (rho < max 1 (s.get F.SCN_CHAR_DEADTH)) || decide (s.get F.SCN_CHAR_OFFTH < off)
    let weak := !dead && decide (rho < s.get F.SCN_CHAR_WEAKTH)
    let keep := rec_ % 2 ^ 9 + rec_ / 2 ^ 15 % 8 * 2 ^ 15 + rec_ / 2 ^ 26 % 16 * 2 ^ 26
    let mk := fun (st gain bad good : Nat) => keep + st * 2 ^ 30 + gain * 2 ^ 18 + bad * 2 ^ 12 + good * 2 ^ 9
    if dead || weak then
      let bad := min (rec_ / 2 ^ 12 % 8 + 1) 7
      if bad < consec then mk state (recGain rec_) bad 0
      else if dead then mk 2 (recGain rec_) bad 0
      else mk 1 (min 255 ((65536 + rho / 2) / rho - 256)) bad 0
    else
      let good := min (rec_ / 2 ^ 9 % 8 + 1) 7
      if consec ≤ good ∧ (state = 1 ∨ state = 2) then mk 0 0 0 good else mk state (recGain rec_) 0 good

/-- Cuts a list into chunks of 32. -/
def chunks32 {α : Type} : (fuel : Nat) → List α → List (List α)
  | 0, _ => []
  | _, [] => []
  | k + 1, l => l.take 32 :: chunks32 k (l.drop 32)

/-- The patches of a band that wait are committed, one group for each chunk, while groups are free (R218). -/
def commitChunks (b : Nat) : (n : Nat) → List (List (Nat × Word)) → State → (Nat × List (List (Nat × Word))) × State
  | n, [], s => ((n, []), s)
  | n, c :: rest, s =>
    match s.openGroup colRole false with
    | none => ((n, c :: rest), s)
    | some (g, s) =>
      let line := max n ((s.leadPoint b + 1) % 2 ^ 64)
      let s := c.zipIdx.foldl (fun s e =>
        (s.groupWord g (R.SCN_NPREC.off b e.2) e.1.2).groupWord g (R.SCN_NPIDX.off b e.2) (w32 (2 ^ 31 + e.1.1))) s
      let s := (s.commitGroup g 1 b (w64 line)).2
      commitChunks b (line + 1) rest { s with col := { s.col with groups := s.col.groups ++ [g] } }

def State.commitPatches (s : State) : State :=
  let ps := s.col.patches
  ps.foldl (fun s e =>
    let ((n, rest), s) := commitChunks e.1 e.2.1 e.2.2 s
    if rest = [] then s else { s with col := { s.col with patches := s.col.patches ++ [(e.1, n, rest)] } })
    { s with col := { s.col with patches := [] } }

/-- What the program makes of a band (R217, R218, R386). -/
def State.bandDone (s : State) (d : Desc) : State :=
  let b := fieldOf d.w4 1 3
  let tiles := (s.barTiles b).length
  let res := s.readTarn (d.w6.toNat - 0x10000000) (tiles * 8192)
  let s := res.st
  let es := parseBand tiles res.bytes
  let (lb, s) := s.readLiveBank 0x3F01 64
  let s := s.colTrims (parseLoop lb) b es
  let (changed, s) := es.foldl (fun (acc : List (Nat × Word) × State) e =>
    if e.2.2.2.2 % 2 = 0 then acc
    else
      let s := acc.2
      let (ix, old) := s.mapRecord b e.1 e.2.1
      let new := s.character old e.2.2.1 e.2.2.2.1
      if new = old then acc
      else
        let (p, t) := (s.barTiles b).getD e.1 (0, 0)
        let arg := mkArg (some b) (some p) (t * 4 + e.2.1 / 512)
        let s := if recState new = 2 ∧ recState old ≠ 2 then s.report C.scn_nozzle_dead arg (some (s.flineOf b)) else s
        let s := if recState new = 0 ∧ recState old ≠ 0 then s.report C.scn_nozzle_revived arg (some (s.flineOf b)) else s
        (acc.1 ++ [(ix, w32 new)], s)) ([], s)
  if changed = [] then s
  else
    ({ s with col := { s.col with patches := s.col.patches ++ [(b, 0, chunks32 (changed.length + 1) changed)] } } : State).commitPatches

/-! ### Bands in gaps (R216) -/

/-- The bar banded after bar `b`. -/
def nextBand (bars : List Nat) : Option Nat → Option Nat
  | none => bars.head?
  | some b => match bars.find? (fun c => decide (b < c)) with
    | some c => some c
    | none => bars.head?

/-- Starts bands in a gap from line `st` to before `stop`: each ends at least 16 lines before the gap ends. -/
def placeBands (stop : Nat) : (fuel st : Nat) → State → State
  | 0, _, s => s
  | k + 1, st, s =>
    match nextBand s.bars s.col.lastBand with
    | none => s
    | some b =>
      let len := s.bandLines b
      if stop < st + len + 16 then s
      else match s.openGroup colRole false with
        | none => s
        | some (g, s) =>
          let s := s.groupWord g (R.SCN_BAND.off b 0) (fieldPut (s.rd (R.SCN_BAND.off b 0)) 31 1 1)
          let s := (s.commitGroup g 1 b (w64 st)).2
          placeBands stop k (st + len + 16) { s with col := { s.col with groups := s.col.groups ++ [g], lastBand := some b } }

/-- At the boundary of line `m` of the first bar: a gap whose first line lies the largest lead ahead gets its bands. -/
def State.gapBands (s : State) (m : Nat) : State :=
  match s.job.job with
  | none => s
  | some j =>
    let g0 := m + (s.bars.map s.lead).foldl max 0
    let before := j.place (g0 - 1)
    let here := j.place g0
    if j.gap = 0 ∨ g0 = 0 ∨ !(before.any (fun p => p.cline.isSome)) ∨ !(here.any (fun p => p.cline.isNone)) then s
    else
      let last := s.col.lastBand
      let s := placeBands (g0 + j.gap) 64 (g0 + 16) s
      if s.col.lastBand ≠ last ∨ s.col.skipRep ∨ g0 + 16 + s.bandLines ((nextBand s.bars last).getD 0) + 16 ≤ g0 + j.gap then s
      else ({ s with col := { s.col with skipRep := true } } : State).report C.scn_band_skipped (mkArg (nextBand s.bars last) none 0)
        (some (w64 g0))

/-! ### Boundaries and completions -/

/-- What the program does at a line boundary. -/
def State.colBoundary (s : State) (b n : Nat) : State :=
  let s := s.colPoll
  if !s.feature 5 then s
  else
    let s := s.commitPatches
    if listMin? s.bars = some b then s.gapBands n else s

/-- LINE_BOUNDARY (R243), with what the standard press program does at it. -/
def doBoundary (b : Fin 8) (s : State) : State :=
  let due := (firstDue (s.fireBar b).sched).any (fun e => decide (e.2 ≤ s.fireC))
  let s := doLineBoundary b s
  if due then s.colBoundary b (s.flineOf b).toNat else s

def execLineBoundary (b : Fin 8) (s : State) : Host.Outcome State Fault Refusal := .next (doBoundary b s)

/-- UNIT_COMPLETION (R31, R384, R386): the oldest descriptor of a gate completes; the units that look ahead in their queue count one taken
descriptor less. -/
def doCompletion (g : Fin 34) (s : State) : State :=
  match (s.gate g).queue with
  | [] => s
  | d :: _ =>
    if (gateMarks g && !d.done) || (s.gate g).stopped then s
    else
      let s := doUnitCompletion g s
      if 9 ≤ g.val ∧ g.val ≤ 16 then
        let x := s.fireBar (g - 9)
        s.setFireBar (g - 9) { x with taken := x.taken - 1 }
      else if g.val = camGate then
        let s := { s with col := { s.col with taken := s.col.taken - 1 } }
        if !s.feature 5 then s
        else if d.op = 3 then s.colPoll.colPeriod d.w6.toNat
        else if d.op = 4 then s.colPoll.bandDone d
        else s
      else s

def execUnitCompletion (g : Fin 34) (s : State) : Host.Outcome State Fault Refusal := .next (doCompletion g s)

/-- MEAS_READ kind 8 (R388). -/
def doMeasReadCameras (tok : Nat) (ok : Bool) (s : State) : State := s.measRead tok 8 ok (s.camEntry 0 ++ s.camEntry 1)

def execMeasReadCameras (tok : Nat) (ok : Bool) (s : State) : Host.Outcome State Fault Refusal := .next (doMeasReadCameras tok ok s)

end Sys2Proof.Machine
end

