-- ==== Sys2Proof/Machine/TarnRows.lean ====
section
/-! DEFINITION. The commands of the protected memories: accesses, valid-bit clears, the scrub, remap and test modes (R353 to
R365). -/

namespace Sys2Proof.Machine

/-- Whether a number names a protected memory (R353). -/
def memExists (m : Nat) : Bool := m < 24 || (32 ≤ m && m < 50)

/-- The bytes of a memory. -/
def memSize (m : Nat) : Nat := lineCount m * 64

/-- The bar and line that a requester's report names (R360). -/
def TarnReqInfo (r : TarnReq) : Option Nat × Option DWord :=
  match r with
  | .bar b line => (some b.val, some line)
  | .feeder _ line => (none, some line)
  | _ => (none, none)

/-- TARN_ACCESS (R355, R356): an access of 1 to 64 bytes at offset `off` of memory `m`. -/
def doTarnAccess (m : Fin 50) (off : Nat) (req : TarnReq) (op : TarnOp) (s : State) : State :=
  if !memExists m then s
  else
    let keys := fun n => (List.range n).map (fun i => memKey m (off + i))
    match op with
    | .read n =>
      if memSize m < off + n then s
      else
        let r := s.readKeys (keys n) (TarnReqInfo req).1 (TarnReqInfo req).2
        { r.st with tarn := { r.st.tarn with out := r.bytes, outBad := r.bad } }
    | .write bs =>
      if memSize m < off + bs.length then s
      else s.writeKeys (req == .engine || req == .bar2) (keys bs.length) bs

def execTarnAccess (m : Fin 50) (off : Nat) (req : TarnReq) (op : TarnOp) (s : State) : Host.Outcome State Fault Refusal :=
  .next (doTarnAccess m off req op s)

/-- Whether a stored line (by physical index) belongs to a home line from `lo` to below `hi` of memory `m`. -/
def lineInRange (s : State) (m lo hi idx : Nat) : Bool :=
  let l := idx % 2 ^ 16
  idx / 2 ^ 16 == m &&
    (if l < 32768 then lo ≤ l && l < hi
     else
       let k := l - 32768
       s.on F.TARN_RMAP_VALID m k && lo ≤ s.get F.TARN_RMAP_LINE m k && s.get F.TARN_RMAP_LINE m k < hi)

/-- Clears the valid bits of lines from `lo` to below `hi` (R357, R358). -/
def State.clearValid (s : State) (m lo hi : Nat) : State :=
  { s with tarn := { s.tarn with valid := Tab.drop (lineInRange s m lo hi) s.tarn.valid } }

/-- TARN_INIT (R358): a write of TARN.INIT. -/
def doTarnInit (v : Word) (s : State) : State :=
  let go := fieldOf v 31 1 == 1
  let m := fieldOf v 0 6
  if go && s.on F.TARN_INIT_BUSY then s.set F.TARN_STAT_INITREF 1
  else
    let s := s.swWrite (R.TARN_INIT.off 0 0) v
    if !go then s
    else if !memExists m || (m < 24 && s.printing) then s.set F.TARN_STAT_INITREF 1
    else
      let first := s.get F.TARN_INITRNG_FIRST
      let count := s.get F.TARN_INITRNG_COUNT
      let stop := if count = 0 then lineCount m else min (lineCount m) (first + count)
      { s.set F.TARN_INIT_BUSY 1 with tarn := { s.tarn with initNext := first, initEnd := stop } }

def execTarnInit (v : Word) (s : State) : Host.Outcome State Fault Refusal := .next (s.busWrite 0xc0008 (fun s => doTarnInit v s))

/-- One bank step of a clear in progress: the next 64 lines (R358), in one tick. -/
def State.initTick (s : State) : State :=
  if !s.on F.TARN_INIT_BUSY then s
  else
    let lo := s.tarn.initNext
    let hi := min s.tarn.initEnd (lo + 64)
    let s := s.clearValid (s.get F.TARN_INIT_MEM) lo hi
    { s with tarn := { s.tarn with initNext := max lo hi } }

/-- TARN_INIT_DONE (R358): the clear reaches the end of its range, and BUSY falls. -/
def doTarnInitDone (s : State) : State :=
  if !s.on F.TARN_INIT_BUSY then s
  else
    let s := s.clearValid (s.get F.TARN_INIT_MEM) s.tarn.initNext s.tarn.initEnd
    { s with tarn := { s.tarn with initNext := s.tarn.initEnd } }.set F.TARN_INIT_BUSY 0

def execTarnInitDone (s : State) : Host.Outcome State Fault Refusal := .next (doTarnInitDone s)

/-- Copies one byte of a line between physical keys (R363): a correctable byte is copied corrected and counted, an
uncorrectable one keeps its stored check bits. `k` is the home key, under which errors are recorded (R364). -/
def State.copyByte (s : State) (k src dst : Nat) : State :=
  let d := s.storedData src
  let c := s.storedChk src
  match decodeByte d c with
  | (v, .clean) => s.storeRaw dst v 0
  | (v, .corrected syn) => (noteByte none none k (.corrected syn) s).storeRaw dst v 0
  | (_, .uncorr _) => s.storeRaw dst d (c ^^^ encode5 d)

/-- Copies the first `n` bytes of a line, and nothing of an invalid one. -/
def copyBytes (home src dst : Nat) : Nat → State → State
  | 0, s => s
  | n + 1, s => (copyBytes home src dst n s).copyByte (home + n) (src + n) (dst + n)

/-- Copies a line with its valid bit (R363). The three arguments are keys of byte 0: the home line, the source and the
destination. -/
def State.copyLine (s : State) (home src dst : Nat) : State :=
  if s.lineValid src then copyBytes home src dst 64 (s.clearLine dst)
  else { s with tarn := { s.tarn with valid := Tab.put (fun _ => false) s.tarn.valid (dst / 64) false } }

/-- The key of byte 0 of spare line `k` of a memory. -/
def spareKey (m k : Nat) : Nat := memKey m (2 ^ 21 + 64 * k)
/-- The key of byte 0 of home line `l` of a memory. -/
def homeKey (m l : Nat) : Nat := memKey m (64 * l)

/-- The entries below `n` of a memory that are in use. -/
def rmapUsed (s : State) (m : Nat) : Nat → Nat
  | 0 => 0
  | n + 1 => rmapUsed s m n + s.get F.TARN_RMAP_VALID m n

/-- Whether an entry below `n` other than `k` is in use for line `l`. -/
def rmapNames (s : State) (m k l : Nat) : Nat → Bool
  | 0 => false
  | n + 1 => rmapNames s m k l n || (n ≠ k && s.on F.TARN_RMAP_VALID m n && s.get F.TARN_RMAP_LINE m n == l)

/-- REMAP_WRITE (R363): a write of TARN.RMAP(m, k). -/
def doRemapWrite (m : Fin 50) (k : Fin 16) (v : Word) (s : State) : State :=
  let newV := fieldOf v 31 1 == 1
  let newL := fieldOf v 0 15
  if !memExists m then s
  else if spareCount m ≤ k || (newV && (rmapNames s m k newL 16 || lineCount m ≤ newL)) then s.set F.TARN_MSTAT_RMERR 1 m
  else
    let oldV := s.on F.TARN_RMAP_VALID m k
    let oldL := s.get F.TARN_RMAP_LINE m k
    let back := fun (s : State) => s.copyLine (homeKey m oldL) (spareKey m k) (homeKey m oldL)
    let into := fun (s : State) => s.copyLine (homeKey m newL) (homeKey m newL) (spareKey m k)
    let s := if oldV && !(newV && oldL == newL) then back s else s
    let s := if newV && !(oldV && oldL == newL) then into s else s
    let s := (s.set F.TARN_RMAP_VALID newV.toNat m k).set F.TARN_RMAP_LINE newL m k
    s.set F.TARN_MSTAT_RMUSED (rmapUsed s m 16) m

def execRemapWrite (m : Fin 50) (k : Fin 16) (v : Word) (s : State) : Host.Outcome State Fault Refusal :=
  .next (s.busWrite (R.TARN_RMAP.off m k) (fun s => doRemapWrite m k v s))

/-- DMAHALT_WRITE (R361): writing 1 to bit e resumes the DMA channel of engine e. -/
def doDmahaltWrite (v : Word) (s : State) : State := s.swWrite (R.TARN_DMAHALT.off 0 0) v

def execDmahaltWrite (v : Word) (s : State) : Host.Outcome State Fault Refusal := .next (s.busWrite 0xc0010 (fun s => doDmahaltWrite v s))

/-- CHECKER_TEST_WRITE (R365): a write of TARN.TCTL(m); one that sets EN or RAW is ignored while Printing or Paused. -/
def doCheckerTestWrite (m : Fin 50) (v : Word) (s : State) : State :=
  if !memExists m || (s.printingOrPaused && fieldOf v 30 2 != 0) then s else s.swWrite (R.TARN_TCTL.off m 0) v

def execCheckerTestWrite (m : Fin 50) (v : Word) (s : State) : Host.Outcome State Fault Refusal :=
  .next (s.busWrite (R.TARN_TCTL.off m 0) (fun s => doCheckerTestWrite m v s))

/-- The home line of a stored line, none for a home line that a spare stands in for and for a spare not in use. -/
def State.homeOf (s : State) (idx : Nat) : Option (Nat × Nat) :=
  let m := idx / 2 ^ 16
  let l := idx % 2 ^ 16
  if l < 32768 then (if (findSpare s m l (spareCount m)).isSome then none else some (m, l))
  else if s.on F.TARN_RMAP_VALID m (l - 32768) then some (m, s.get F.TARN_RMAP_LINE m (l - 32768)) else none

/-- The first stored valid line at or after a physical index that the scrub reads. -/
def nextScrub (s : State) (from_ : Nat) : Tab Bool → Option (Nat × Nat × Nat)
  | [] => none
  | (idx, v) :: t =>
    if idx < from_ || !v then nextScrub s from_ t
    else match s.homeOf idx with
      | some (m, l) => some (idx, m, l)
      | none => nextScrub s from_ t

/-- The lowest entry below the spare count that is not in use. -/
def freeRmap (s : State) (m : Nat) : Nat → Option Nat
  | 0 => none
  | n + 1 => match freeRmap s m n with
    | some k => some k
    | none => if s.on F.TARN_RMAP_VALID m n then none else some n

/-- The scrub's pass over the first `n` bytes of a line: corrections are counted and, unless the error is hard, written
back (R362). -/
def scrubBytes (hard : Bool) (home phys : Nat) : Nat → State → State
  | 0, s => s
  | n + 1, s =>
    let s := scrubBytes hard home phys n s
    match decodeByte (s.storedData (phys + n)) (s.storedChk (phys + n)) with
    | (_, .clean) => s
    | (v, .corrected syn) =>
      let s := noteByte none none (home + n) (.corrected syn) s
      if hard then s else s.storeRaw (phys + n) v 0
    | (_, .uncorr syn) => noteByte none none (home + n) (.uncorr syn) s

/-- Whether one of the first `n` bytes of a stored line needs correction. -/
def needsCorrection (s : State) (phys : Nat) : Nat → Bool
  | 0 => false
  | n + 1 => needsCorrection s phys n ||
      (match (decodeByte (s.storedData (phys + n)) (s.storedChk (phys + n))).2 with
       | .corrected _ => true
       | _ => false)

/-- TARN_SCRUB (R362, R364): the scrub reads the next valid line, memories and lines in ascending order. `hard`: a bit of the
line is stuck, so its second read still needs correction. -/
def doTarnScrub (hard : Bool) (s : State) : State :=
  if !s.on F.TARN_CTL_SCRUB then s
  else
    let pass := max 1 (s.get F.TARN_CTL_PASS) * 1000000000
    let late := !s.tarn.scrubLate && decide (s.tarn.scrubStart + 2 * pass < s.now)
    match nextScrub s s.tarn.scrubAt s.tarn.valid with
    | none => { s with tarn := { s.tarn with scrubAt := 0, scrubStart := s.now, scrubLate := false } }
    | some (idx, m, l) =>
      let phys := idx * 64
      let home := homeKey m l
      let s := if late then
          { s with tarn := { s.tarn with scrubLate := true } }.report C.tarn_scrub_late (mkArg none (some m) l)
        else s
      let bad := needsCorrection s phys 64
      let s := scrubBytes hard home phys 64 s
      let s := { s with tarn := { s.tarn with scrubAt := idx + 1 } }
      if !(bad && hard && s.on F.TARN_CTL_AUTOREMAP) then s
      else match freeRmap s m (spareCount m) with
        | none =>
          if Tab.get (fun _ => false) s.tarn.remapFull (m * 2 ^ 16 + l) then s
          else { s with tarn := { s.tarn with remapFull := Tab.put (fun _ => false) s.tarn.remapFull (m * 2 ^ 16 + l) true } }.report
            C.tarn_remap_full (mkArg none (some m) l)
        | some k =>
          if l < lineCount m && idx % 2 ^ 16 < 32768 then
            let s := s.copyLine home phys (spareKey m k)
            let s := (s.set F.TARN_RMAP_VALID 1 m k).set F.TARN_RMAP_LINE l m k
            (s.set F.TARN_MSTAT_RMUSED (rmapUsed s m 16) m).report C.tarn_remap (mkArg none (some m) l)
          else s

def execTarnScrub (hard : Bool) (s : State) : Host.Outcome State Fault Refusal := .next (doTarnScrub hard s)

end Sys2Proof.Machine
end

