-- ==== Sys2Proof/Machine/Time.lean ====
section
/-! DEFINITION. Time bases (R391 to R395) and the Ethernet ports (R396 to R401). -/

namespace Sys2Proof.Machine

/-! ### Time bases -/

/-- The step of R393 as it takes effect at a tick. -/
def stepTb (rel : Bool) (a b c : Nat) (t : TimeBase) : TimeBase :=
  if rel then
    let total : Int := (t.sec : Int) * 1000000000 + t.ns + toSigned 64 (b * 2 ^ 32 + a)
    let n := (total % (2 ^ 48 * 1000000000 : Int)).toNat
    { t with sec := n / 1000000000, ns := n % 1000000000, stepReq := false }
  else { sec := c % 65536 * 2 ^ 32 + b, ns := a, frac := 0, stepReq := false }

/-- The increment of R391: 4 ns + RATE × 2^-32 ns. -/
def advanceTb (rate : Int) (t : TimeBase) : TimeBase :=
  let total := (((t.ns * 2 ^ 32 + t.frac + 4 * 2 ^ 32 : Nat) : Int) + rate).toNat
  let ns := total / 2 ^ 32
  if ns < 1000000000 then { t with ns := ns, frac := total % 2 ^ 32 }
  else { t with ns := ns - 1000000000, frac := total % 2 ^ 32, sec := (t.sec + 1) % 2 ^ 48 }

/-- One tick of time base `k` (R391, R393): a requested step first, then the increment. -/
def State.tickTb (s : State) (k : Nat) : State :=
  if !s.on F.TIME_TBCTL_EN k then s
  else
    let t := s.tbase k
    let t := if t.stepReq then
        stepTb (s.on F.TIME_TBCTL_STEPREL k) (s.get F.TIME_STEPA_VALUE k) (s.get F.TIME_STEPB_VALUE k)
          (s.get F.TIME_STEPC_VALUE k) t
      else t
    { s with tb := Tab.put (fun _ => TimeBase.reset) s.tb k (advanceTb (s.getI F.TIME_RATE_RATE k) t) }

/-- One tick of 4 ns of the whole device: what a step does when no command waits (log entry 2). -/
def State.tick (s : State) : State :=
  ((({ s with now := s.now + 4 } : State).tickTb 0).tickTb 1 |>.tickTb 2).tickTb 3

/-- The time compare channels below `n` armed on time base `k` are disarmed without a pulse (R393). -/
def disarmOn (k : Nat) : Nat → State → State
  | 0, s => s
  | n + 1, s =>
    let s := disarmOn k n s
    let c := s.tchanOf n
    if c.armed && c.sel.toNat == k then { s with tchan := Tab.put (fun _ => Chan.reset) s.tchan n { c with armed := false } } else s

/-- Whether a group below `n` in Committed has a TIME boundary on time base `k` (R393). -/
def timeGroupOn (s : State) (k : Nat) : Nat → Bool
  | 0 => false
  | n + 1 => timeGroupOn s k n ||
      (s.get F.CMT_GSTAT_STATE n == 2 && s.get F.CMT_GBND_KIND n == 4 && s.get F.CMT_GBND_SEL n == k)

/-- The number of descriptors of a transmit queue. -/
def State.txSize (s : State) (j q : Nat) : Nat := max 1 (s.get F.TIME_QCFG_SIZE j q) + 1

/-- The Tarn offset of descriptor `i` of a transmit queue (R398, R402). -/
def State.txDesc (s : State) (j q i : Nat) : Nat := s.get F.TIME_QBASE_ADDR j q * 32 + i * 32

/-- The bytes of a descriptor as stored, for a look that reads nothing on a port's behalf. -/
def State.peekTarn (s : State) (a n : Nat) : List Byte := (keysFrom tarnKey a n).map (fun k => (s.peekByte k).1)

/-- The 32-bit word at a Tarn offset, as stored. -/
def State.peekWord (s : State) (a : Nat) : Nat := leNat (s.peekTarn a 4)

/-- The launch descriptors on time base `k` that wait in a queue, from index `i` on, at most `n`. -/
def launchIn (s : State) (k j q tail : Nat) : Nat → Nat → List (Nat × Nat × Nat)
  | 0, _ => []
  | n + 1, i =>
    if i = tail then []
    else
      let w0 := s.peekWord (s.txDesc j q i)
      let rest := launchIn s k j q tail n ((i + 1) % s.txSize j q)
      if bitN w0 29 = 1 ∧ w0 / 2 ^ 30 % 4 = k then (j, q, i) :: rest else rest

/-- Every launch descriptor queued on time base `k` (R393, R398). -/
def launchOn (s : State) (k : Nat) : List (Nat × Nat × Nat) :=
  (List.range 16).flatMap fun jq =>
    let j := jq / 8
    let q := jq % 8
    if s.on F.TIME_QCFG_EN j q then
      launchIn s k j q (s.get F.TIME_QTAIL_INDEX j q) 4096 (s.get F.TIME_QHEAD_INDEX j q)
    else []

/-- A requested reset of time base `k` (R393). -/
def State.resetTb (s : State) (k : Nat) : State :=
  if s.printingOrPaused || timeGroupOn s k 64 then
    (s.set F.TIME_TBSTAT_RSTREF 1 k).report C.time_reset_refused (mkArg none (some k) 0)
  else
    let late := launchOn s k
    let s := { s with tb := Tab.put (fun _ => TimeBase.reset) s.tb k TimeBase.reset, eth := { s.eth with late := s.eth.late ++ late } }
    disarmOn k 32 ((s.set F.TIME_RATE_RATE 0 k).set F.TIME_TBSTAT_STEPPED 0 k)

/-- A requested step of time base `k` (R393): refused when the step is used, on TB0 while Printing or Paused, or for an
absolute step with STEPA of at least 10^9. -/
def State.stepGo (s : State) (k : Nat) : State :=
  let bad := s.on F.TIME_TBSTAT_STEPPED k || (k == 0 && s.printingOrPaused)
    || (!s.on F.TIME_TBCTL_STEPREL k && decide (1000000000 ≤ s.get F.TIME_STEPA_VALUE k))
  if bad then (s.set F.TIME_TBSTAT_STEPREF 1 k).report C.time_step_refused (mkArg none (some k) 0)
  else
    let s := s.set F.TIME_TBSTAT_STEPPED 1 k
    { s with tb := Tab.put (fun _ => TimeBase.reset) s.tb k { s.tbase k with stepReq := true } }

/-- A write of TIME.TBCTL(k) (R393, R402): EN of TB0 stays 1; a rise of EN is a start. -/
def State.writeTbctl (s : State) (k : Nat) (v : Word) : State :=
  let was := s.on F.TIME_TBCTL_EN k
  let s := s.swWrite (R.TIME_TBCTL.off k 0) v
  let s := if k = 0 then s.set F.TIME_TBCTL_EN 1 0 else s
  let s := if !was && s.on F.TIME_TBCTL_EN k then s.set F.TIME_TBSTAT_STEPPED 0 k else s
  let s := if fieldOf v 30 1 = 1 then s.resetTb k else s
  if fieldOf v 29 1 = 1 then s.stepGo k else s

/-- TIME_STEP: a write of TBCTL with STEPGO. -/
def execTimeStep (k : Fin 4) (v : Word) (s : State) : Host.Outcome State Fault Refusal := .next (s.busWrite (R.TIME_TBCTL.off k 0) (fun s => s.writeTbctl k v))

/-- TIME_BASE_RESET: a write of TBCTL with RST. -/
def execTimeBaseReset (k : Fin 4) (v : Word) (s : State) : Host.Outcome State Fault Refusal := .next (s.busWrite (R.TIME_TBCTL.off k 0) (fun s => s.writeTbctl k v))

/-- RATE_WRITE (R392): a magnitude above 8,589,934 is clamped and reported. -/
def doRateWrite (k : Fin 4) (v : Word) (s : State) : State :=
  let r := v.toInt
  let c := clampI (-8589934) 8589934 r
  let s := s.set F.TIME_RATE_RATE (ofSigned 32 c) k
  if c = r then s else (s.set F.TIME_TBSTAT_RATECLAMP 1 k).report C.time_rate_limit (mkArg none (some k.val) 0)

def execRateWrite (k : Fin 4) (v : Word) (s : State) : Host.Outcome State Fault Refusal := .next (s.busWrite (R.TIME_RATE.off k 0) (fun s => doRateWrite k v s))

/-- Copies time base `k` into its SN registers (R395). -/
def State.snapTb (s : State) (k : Nat) : State :=
  let t := s.tbase k
  ((s.set F.TIME_SNNS_VALUE t.ns k).set F.TIME_SNSECLO_VALUE t.sec k).set F.TIME_SNSECHI_VALUE (t.sec / 2 ^ 32) k

/-- SNAPSHOT (R395): a write of TIME.SNAP with GO captures every time base, C and the position. -/
def doSnapshot (v : Word) (s : State) : State :=
  if fieldOf v 31 1 = 0 then s
  else
    let s := (((s.snapTb 0).snapTb 1).snapTb 2).snapTb 3
    let s := s.set64 F.TIME_SNAPCLO_VALUE F.TIME_SNAPCHI_VALUE s.fireC
    (s.set64 F.TIME_SNAPPLO_VALUE F.TIME_SNAPPHI_VALUE s.pos).set F.TIME_SNAP_VALID 1

def execSnapshot (v : Word) (s : State) : Host.Outcome State Fault Refusal := .next (s.busWrite 0xe0000 (fun s => doSnapshot v s))

/-! ### Ethernet -/

/-- A transmit descriptor (R398). -/
structure TxDesc where
  tb : Nat
  launch : Bool
  pos : Bool
  ts : Bool
  oneStep : Bool
  lateSend : Bool
  resv : Bool
  len : Nat
  buf : Nat
  when_ : Nat
  ptpOff : Nat

/-- The descriptor in 32 bytes. -/
def parseTx (bs : List Byte) : TxDesc :=
  let w := fun k => leNat ((bs.drop (4 * k)).take 4)
  { tb := w 0 / 2 ^ 30 % 4, launch := bitN (w 0) 29 == 1, pos := bitN (w 0) 28 == 1, ts := bitN (w 0) 27 == 1,
    oneStep := bitN (w 0) 26 == 1, lateSend := bitN (w 0) 25 == 1,
    resv := decide (w 0 / 2 ^ 14 % 2 ^ 11 ≠ 0) || decide (w 6 / 2 ^ 16 % 256 ≠ 0) || decide (w 7 / 2 ^ 16 % 2 ^ 15 ≠ 0),
    len := w 0 % 2 ^ 14, buf := w 1, when_ := w 2 + 2 ^ 32 * w 3, ptpOff := w 6 % 65536 }

/-- Whether a descriptor is completed with status 3 (R399). -/
def TxDesc.bad (d : TxDesc) : Bool :=
  (d.launch && d.pos) || d.resv || d.len < 60 || 9212 < d.len || d.buf % 8 ≠ 0 || d.buf < 0x10000000
    || 0x10000000 + tarnSize < d.buf + d.len || (d.oneStep && d.len < d.ptpOff + 44)

/-- Whether a head is late (R400): its launch time or position lies back by more than the tolerance, or a reset of its time
base made it late (R393). -/
def State.txLate (s : State) (j q i : Nat) (d : TxDesc) : Bool :=
  (d.launch && (decide (d.when_ + s.get F.TIME_LATETOL_VALUE j < s.tbNs d.tb) || s.eth.late.contains (j, q, i)))
    || (d.pos && decide (d.when_ + s.get F.TIME_LATEWPU_VALUE j < s.pos))

/-- Whether a head is eligible (R399). -/
def State.txEligible (s : State) (d : TxDesc) : Bool :=
  if d.launch then decide (d.when_ ≤ s.tbNs d.tb) else if d.pos then decide (d.when_ ≤ s.pos) else true

/-- The head descriptor of a queue, when the queue is enabled and not empty. -/
def State.txHead (s : State) (j q : Nat) : Option (Nat × TxDesc) :=
  let h := s.get F.TIME_QHEAD_INDEX j q
  if !s.on F.TIME_QCFG_EN j q || h = s.get F.TIME_QTAIL_INDEX j q then none
  else some (h, parseTx (s.peekTarn (s.txDesc j q h) 32))

/-- The time of a frame and its gap in ns at 10 Gbit/s: preamble 8, frame, FCS 4, gap 12 bytes. -/
def frameNs (len : Nat) : Nat := cdiv ((len + 24) * 8) 10

/-- Whether a frame of queue `q` would end after the pending launch time of another head (R399). -/
def txBlocked (s : State) (j q len : Nat) : Nat → Bool
  | 0 => false
  | n + 1 => txBlocked s j q len n ||
      (match s.txHead j n with
       | some (_, d) => n ≠ q && d.launch && !d.bad && decide (s.tbNs d.tb < d.when_)
                          && decide (d.when_ < s.tbNs d.tb + frameNs len)
       | none => false)

/-- The highest queue below `n` whose head can be handled now: bad, late, or eligible and not blocked (R399). -/
def txPick (s : State) (j : Nat) : Nat → Option (Nat × Nat × TxDesc)
  | 0 => none
  | n + 1 =>
    match s.txHead j n with
    | some (i, d) =>
      if d.bad || s.txLate j n i d || (s.txEligible d && !txBlocked s j n d.len 8) then some (n, i, d) else txPick s j n
    | none => txPick s j n

/-- A time base's time in 2^-16 ns with a signed compensation (R397). -/
def State.stamp16 (s : State) (k : Nat) (lat : Int) : Nat :=
  (((s.tbNs k * 65536 + (s.tbase k).frac / 65536 : Nat) : Int) + lat).toNat

/-- Replaces the bytes at an offset. -/
def patchAt (off : Nat) (new old : List Byte) : List Byte := old.take off ++ new ++ old.drop (off + new.length)

/-- The `k` big-endian bytes of a number. -/
def beBytes (k n : Nat) : List Byte := (leBytes k n).reverse

/-- A one-step Sync (R397): the origin timestamp, compensated by TXLAT, at PTPOFF + 34, and a UDP checksum of 0 for IPv4. -/
def oneStepFrame (sec ns off : Nat) (f : List Byte) : List Byte :=
  let f := patchAt (off + 34) (beBytes 6 sec ++ beBytes 4 ns) f
  let at_ := if f.getD 12 0 = 0x81 ∧ f.getD 13 0 = 0 then 16 else 12
  if f.getD at_ 0 = 0x08 ∧ f.getD (at_ + 1) 0 = 0 then
    let ip := at_ + 2
    let ihl := (f.getD ip 0).toNat % 16 * 4
    if (f.getD (ip + 9) 0) = 17 then patchAt (ip + ihl + 6) [0, 0] f else f
  else f

/-- Completes the head descriptor of a queue: write-back of the timestamp, STATUS and DONE, and the head advances (R398). -/
def State.txDone (s : State) (j q i status stamp : Nat) : State :=
  let a := s.txDesc j q i
  let w6 := s.peekWord (a + 24) % 2 ^ 24 + status * 2 ^ 24
  let s := s.writeTarn (a + 16) (leBytes 8 (stamp / 65536))
  let s := s.writeTarn (a + 24) (leBytes 4 w6)
  let s := s.writeTarn (a + 28) (leBytes 4 (2 ^ 31 + stamp % 65536))
  let s := { s with eth := { s.eth with late := s.eth.late.filter (fun x => x ≠ (j, q, i)) } }
  s.set F.TIME_QHEAD_INDEX ((i + 1) % s.txSize j q) j q

/-- Sends the frame of a head descriptor with a status (R398, R400). -/
def State.txSend (s : State) (j q i status : Nat) (d : TxDesc) : State :=
  let r := s.readTarn (d.buf - 0x10000000) d.len
  let s := r.st
  let t := s.tbase d.tb
  let lat := s.getI F.TIME_TXLAT_LAT j
  let origin := ((((t.sec * 1000000000 + t.ns) * 65536 + t.frac / 65536 : Nat) : Int) + lat).toNat / 65536
  let frame := if d.oneStep then oneStepFrame (origin / 1000000000) (origin % 1000000000) d.ptpOff r.bytes else r.bytes
  let sent := Tab.get (fun _ => []) s.eth.sent j ++ [(frame, !r.bad)]
  let s := { s with eth := { s.eth with sent := Tab.put (fun _ => []) s.eth.sent j sent } }
  let stamp := if d.ts then s.stamp16 d.tb lat else 0
  s.txDone j q i (if r.bad then 4 else status) stamp

/-- FRAME_TRANSMIT (R399, R400): port `j` handles the head it serves next. -/
def doFrameTransmit (j : Fin 2) (s : State) : State :=
  if !s.on F.TIME_ECTL_EN j || !s.on F.TIME_ESTAT_LINK j then s
  else match txPick s j 8 with
    | none => s
    | some (q, i, d) =>
      if d.bad then (s.txDone j q i 3 0).report C.eth_desc_bad (mkArg none (some j.val) q)
      else if s.txLate j q i d then
        let s := s.reportLimited C.eth_late_frame (j.val * 8 + q) 1000000 (mkArg none (some j.val) q)
        if d.lateSend then s.txSend j q i 2 d else s.txDone j q i 1 0
      else s.txSend j q i 0 d

def execFrameTransmit (j : Fin 2) (s : State) : Host.Outcome State Fault Refusal := .next (doFrameTransmit j s)

/-- Whether the receive filter of R396 passes a frame: own address, broadcast and the two PTP multicast addresses. -/
def State.rxPass (s : State) (j : Nat) (f : List Byte) : Bool :=
  let dst := f.take 6
  let own := (leBytes 4 (s.get F.TIME_MACHI_ADDR j)).take 2 ++ leBytes 4 (s.get F.TIME_MACLO_ADDR j)
  dst == own || dst == List.replicate 6 0xFF || dst == [0x01, 0x1B, 0x19, 0, 0, 0] || dst == [0x01, 0x80, 0xC2, 0, 0, 0x0E]

/-- Where the Ethertype stands: after the single VLAN tag, if there is one. -/
def etherAt (f : List Byte) : Nat := if f.getD 12 0 = 0x81 ∧ f.getD 13 0 = 0 then 16 else 12

/-- The flags of a receive record (R401): PTP event message, VLAN tag present. -/
def rxFlags (f : List Byte) : Nat :=
  let at_ := etherAt f
  let eth := (f.getD at_ 0, f.getD (at_ + 1) 0)
  let ihl := (f.getD (at_ + 2) 0).toNat % 16 * 4
  let udp := at_ + 2 + ihl
  let ptp := (eth = (0x88, 0xF7) && decide ((f.getD (at_ + 2) 0).toNat % 16 < 4))
    || (eth = (0x08, 0x00) && f.getD (at_ + 11) 0 = 17 && f.getD (udp + 2) 0 = 0x01 && f.getD (udp + 3) 0 = 0x3F)
  (if ptp then 1 else 0) + (if at_ = 16 then 2 else 0)

/-- FRAME_RECEIVE (R396, R401): a frame without its FCS arrives at port `j`. -/
def doFrameReceive (j : Fin 2) (f : List Byte) (fcsOk : Bool) (s : State) : State :=
  if !s.on F.TIME_ECTL_EN j || !s.on F.TIME_ESTAT_LINK j then s
  else if !fcsOk then s.bump F.TIME_FCSERR_COUNT 1 j
  else if !s.rxPass j f || f.length < 60 || 9212 < f.length then s.bump F.TIME_RXDROP_COUNT 1 j
  else
    let size := s.get F.TIME_RXCFG_VALUE j % 256 * 16384
    if size = 0 then s
    else
      let len := cdiv (32 + f.length) 32 * 32
      let p := s.get F.TIME_RXPTR_OFFSET j
      let off := if size < p + len then 0 else p
      let lat := s.getI F.TIME_RXLAT_LAT j
      let t0 := s.stamp16 0 lat
      let tp := s.stamp16 (s.get F.TIME_ECTL_PTB j) lat
      let hdr := leBytes 8 (t0 / 65536) ++ leBytes 2 t0 ++ leBytes 8 (tp / 65536) ++ leBytes 2 tp ++ leBytes 2 f.length
        ++ leBytes 2 (rxFlags f) ++ List.replicate 8 0
      let rec_ := hdr ++ f ++ List.replicate (len - 32 - f.length) 0
      (s.writeTarn (s.get F.TIME_RXBASE_VALUE j * 64 + off) rec_).set F.TIME_RXPTR_OFFSET (off + len) j

def execFrameReceive (j : Fin 2) (f : List Byte) (fcsOk : Bool) (s : State) : Host.Outcome State Fault Refusal :=
  .next (doFrameReceive j f fcsOk s)

/-- ETH_LINK_LOSS (R396): reported once per loss. -/
def doEthLinkLoss (j : Fin 2) (s : State) : State :=
  if s.on F.TIME_ESTAT_LINK j then (s.set F.TIME_ESTAT_LINK 0 j).report C.eth_link_down (mkArg none (some j.val) 0) else s

def execEthLinkLoss (j : Fin 2) (s : State) : Host.Outcome State Fault Refusal := .next (doEthLinkLoss j s)

/-- ETH_LINK_UP (R396): PCS block lock of an enabled port. -/
def doEthLinkUp (j : Fin 2) (s : State) : State :=
  if s.on F.TIME_ECTL_EN j then s.set F.TIME_ESTAT_LINK 1 j else s

def execEthLinkUp (j : Fin 2) (s : State) : Host.Outcome State Fault Refusal := .next (doEthLinkUp j s)

end Sys2Proof.Machine
end

