-- ==== Sys2Proof/Machine/Io.lean ====
section
/-! DEFINITION. Register accesses by the host (R113, R114) and by engines (R35): reads with their side effects (R8, R225), and writes with
the write rules of every block. -/

namespace Sys2Proof.Machine

/-! ### Reads -/

/-- The word of a register as hardware holds it now: the registers whose value follows a counter or a condition are computed here. -/
def State.liveWord (s : State) (r : RegDef) (i j off : Nat) : Word :=
  match r.base with
  | 0x0 => fieldPut (s.rd off) 16 16 (if s.fused8816 then 0x8816 else 0x8820)   -- DEV.IDENT.PART
  | 0x80110 => w32 (s.posQ16 i / 2 ^ 16)                                     -- ENC.POSLO
  | 0x80114 => w32 (s.posQ16 i / 2 ^ 48)                                     -- ENC.POSHI
  | 0xe0108 => w32 (s.tbase i).ns                                            -- TIME.NS
  | 0xe010c => w32 (s.tbase i).sec                                           -- TIME.SECLO
  | 0xe0110 => w32 ((s.tbase i).sec / 2 ^ 32)                                -- TIME.SECHI
  | 0x108000 =>                                                              -- FLT.CCFG.ACTIVE
    let c := codeOf i j
    let active := !(s.waitingReps c).isEmpty || Tab.get (fun _ => false) s.flt.levels c
    fieldPut (s.rd off) 13 1 active.toNat
  | 0x140014 => w32 ((s.now - s.sens.hourBase) / 3600000000000)              -- SYS.HOURS
  | _ => s.rd off

/-- The HI registers that a read of a LO register latches (R225, R342, R389, R402, R433, R448): their distances. -/
def latchesOf (r : RegDef) : List Nat :=
  match r.base with
  | 0x80110 | 0xb0020 | 0xd0120 | 0x100018 | 0x110200 => [4]
  | 0xe0108 => [4, 8]
  | _ => []

/-- A HI register takes the value it has now. -/
def State.latchHi (s : State) (off : Nat) : State :=
  match regAt off with
  | some (r, i, j) => { s with latch := Tab.put (fun _ => none) s.latch off (some (s.liveWord r i j off)) }
  | none => s

/-- A read of the register at an offset (R2, R8, R9, R225, R411, R414): the word read, and what the read leaves. -/
def State.ioRead (s : State) (off : Nat) : Word × State :=
  match regBehind off with
  | none => (0, s)
  | some (r, i, j) =>
    if s.fused off then (0, s)
    else match s.deadIsland off with
      | some k => (0xFFFFFFFF, s.noteStop k 0)
      | none =>
        let s1 := (latchesOf r).foldl (fun s d => s.latchHi (off + d)) s
        match Tab.get (fun _ => none) s1.latch off with
        | some w => (w, { s1 with latch := Tab.put (fun _ => none) s1.latch off none })
        | none =>
          let w := s.liveWord r i j off
          (w32 (readMask r.fields w), if r.fields.any (fun f => f.acc == .rc) then s1.wr off (readClear r.fields w) else s1)

/-- A host read of BAR0 (R113, R114). -/
def State.hostIoRead (s : State) (off : BitVec 21) : State :=
  if off.toNat % 4 ≠ 0 ∨ (regBehind off.toNat).isNone then doBar0HoleAccess false off 4 s
  else
    let (w, s) := s.ioRead off.toNat
    s.hostRead w

/-- READ_CLEAR (R8): a host read of a register with RC fields. -/
def doReadClear (off : BitVec 21) (s : State) : State := s.hostIoRead off

def execReadClear (off : BitVec 21) (s : State) : Host.Outcome State Fault Refusal := .next (doReadClear off s)

/-- LATCHING_READ (R225): a host read of a LO half, which latches its HI half for the next read of it. -/
def doLatchingRead (off : BitVec 21) (s : State) : State := s.hostIoRead off

def execLatchingRead (off : BitVec 21) (s : State) : Host.Outcome State Fault Refusal := .next (doLatchingRead off s)

/-! ### Writes -/

/-- A write of ENG.AVSCTL of which the regulator's first answer is not known: a free value (R46). -/
def State.writeAvsctl (s : State) (v : Word) : State :=
  if s.on F.ENG_AVSCTL_EN || fieldOf v 31 1 = 0 then doAvsEnable v none s
  else
    let (w, s) := s.drawFree
    doAvsEnable v (if fieldOf w 31 1 = 1 then none else some (fieldOf w 0 16)) s

/-- A write of RING.QCOAL(q): coalescing needs its feature (R118, R135). -/
def State.writeQcoal (s : State) (q off : Nat) (v : Word) : State :=
  if !s.feature 9 && v ≠ 0 then s.report C.ring_feature (mkArg none (some q) 9) else s.swWrite off v

/-- A write of SPR.CTL (R439): a rise of EN starts every interval anew. -/
def State.writeSprCtl (s : State) (v : Word) : State :=
  let was := s.on F.SPR_CTL_EN
  let s := s.swWrite 0x110000 v
  if !was && s.on F.SPR_CTL_EN then (List.range 16).foldl State.startBeat s else s

/-- A write of SPR.RCTL(r) (R439, R445): it writes HBTO, so the intervals of the holder and of a warm standby start anew. -/
def State.writeRctl (s : State) (r : Nat) (v : Word) : State :=
  let s := (s.swWrite (R.SPR_RCTL.off r 0) v).startBeat r
  let t := if s.on F.SPR_RCTL_PAIR r then some s.now else none
  { s with spr := { s.spr with stbyAt := Tab.put (fun _ => none) s.spr.stbyAt r t } }

/-- A write of FLT.GRAVE (R427, R433): 1 in VALID clears GRAVE and GRAVEARG. -/
def State.writeGrave (s : State) (v : Word) : State :=
  if fieldOf v 31 1 = 1 then (s.wr (R.FLT_GRAVE.off 0 0) 0).wr (R.FLT_GRAVEARG.off 0 0) 0 else s

/-- A write of SENS.ACH(c) (R467): GAIN of channels 16 to 23 is RO. -/
def State.writeAch (s : State) (c off : Nat) (v : Word) : State :=
  let old := s.get F.SENS_ACH_GAIN c
  let s := s.swWrite off v
  if 16 ≤ c then s.set F.SENS_ACH_GAIN old c else s

/-- A write of an MSI-X vector control word (R135): clearing MASK raises a pending vector. -/
def State.writeVector (s : State) (v : Nat) (w : Word) : State :=
  if fieldOf w 0 1 = 0 then doVectorUnmask (Fin.ofNat 128 v) s else s.set F.MSIX_CTRL_MASK 1 v

/-- The write rules of the DEV, RING, ENG, CMT and ING blocks. -/
def State.writeLow (s : State) (r : RegDef) (i j off : Nat) (v : Word) : State :=
  match r.base with
  | 0x1c => doNegGo v s
  | 0x10000 => doAperWrite v s
  | 0x10008 => doRaise v s
  | 0x11000 => doQueuePairConfig (Fin.ofNat 64 i) v s
  | 0x11004 => s.writeQcoal i off v
  | 0x1100c | 0x11014 => s.writeQbase i off true v
  | 0x11010 | 0x11018 => s.writeQbase i off false v
  | 0x18000 => doSqTailDoorbell (Fin.ofNat 64 i) v s
  | 0x18004 => doCqHeadDoorbell (Fin.ofNat 64 i) v s
  | 0x20010 => s.writeAvsctl v
  | 0x20014 => doAvslimWrite v s
  | 0x20024 => raiseSw v 16 s
  | 0x20100 => doGaugeClrmin (Fin.ofNat 16 i) v s
  | 0x21000 => doEvrouteWrite (Fin.ofNat 18 i) (Fin.ofNat 64 j) v s
  | 0x30004 => doTquery v s
  | 0x40000 => s.writeIngCtl v
  | 0x40010 | 0x40014 | 0x40020 | 0x40024 | 0x40028 | 0x40030 | 0x40034 => if s.on F.ING_CTL_EN then s else s.swWrite off v
  | _ => s.swWrite off v

/-- The write rules of the HLP, DMC, TARN and TIME blocks. -/
def State.writeMid (s : State) (r : RegDef) (i j off : Nat) (v : Word) : State :=
  match r.base with
  | 0x90000 => s.writeHlpCtl i v
  | 0x90008 => doSlip (Fin.ofNat 16 i) v s
  | 0x90010 => doFfeWrite (Fin.ofNat 16 i) (Fin.ofNat 2 j) v s
  | 0x90018 => doRecalibrate (Fin.ofNat 16 i) v s
  | 0x90024 => doPatternInject (Fin.ofNat 16 i) v s
  | 0x90028 => (s.swWrite off v).checkerLock i
  | 0x90030 => doFrameInject (Fin.ofNat 16 i) v s
  | 0xb0000 => s.writeDmcCtl v
  | 0xb0008 => if s.on F.DMC_CTL_EN then s else s.swWrite off v
  | 0xb0028 => doFrequencyChange v s
  | 0xb0040 => doTsetWrite (Fin.ofNat 2 i) v s
  | 0xb1014 => doEccInject (Fin.ofNat 4 i) v s
  | 0xb1018 => s.writeEcctest i v
  | 0xc0008 => doTarnInit v s
  | 0xc0010 => doDmahaltWrite v s
  | 0xc1010 => doCheckerTestWrite (Fin.ofNat 50 i) v s
  | 0xc1040 => doRemapWrite (Fin.ofNat 50 i) (Fin.ofNat 16 j) v s
  | 0xe0000 => doSnapshot v s
  | 0xe0100 => s.writeTbctl i v
  | 0xe0114 => doRateWrite (Fin.ofNat 4 i) v s
  | 0xe0818 | 0xe081c => if s.on F.TIME_ECTL_EN i then s else s.swWrite off v
  | 0xe0840 => if s.on F.TIME_QCFG_EN i j then s else s.swWrite off v
  | 0xe0844 => if s.on F.TIME_QCFG_EN i j then s.set F.TIME_QCFG_EN (fieldOf v 31 1) i j else s.swWrite off v
  | 0xe084c => if s.txSize i j ≤ fieldOf v 0 12 then s else s.swWrite off v
  | _ => s.swWrite off v

/-- The write rules of the XING, FLT, SPR, SENS, SEC and SYS blocks and of the MSI-X table. -/
def State.writeHigh (s : State) (by_ : Accessor) (r : RegDef) (i j off : Nat) (v : Word) : State :=
  match r.base with
  | 0xf0008 => doIslandReset v s
  | 0x100014 => doFirstFaultClear v s
  | 0x100020 => doInject v s
  | 0x100024 => s.writeGrave v
  | 0x100030 => doClrall v s
  | 0x108000 => doClassWrite (BitVec.ofNat 16 (codeOf i j)) v s
  | 0x110000 => s.writeSprCtl v
  | 0x11000c => doBeat by_ s
  | 0x110010 => doGiveup by_ s
  | 0x110014 => doAssert by_ v s
  | 0x110100 => s.writeRctl i v
  | 0x120200 => s.writeAch i off v
  | 0x130004 => if fieldOf v 31 1 = 1 then doSecGo (fieldOf v 0 8) true v s else s.swWrite off v
  | 0x130018 => doAuditAck v s
  | 0x140000 =>
    let (w, s) := s.drawFree
    doSoftwareReset v (fieldOf w 0 1 == 1) s
  | 0x14000c => if fieldOf v 31 1 = 1 then doStandbyEntry v s else doStandbyExit v s
  | 0x140010 => s.writeWdog v
  | 0x140018 => doBusTransaction v s
  | 0x1f000c => s.writeVector i v
  | _ => s.swWrite off v

/-- A write of the register at an offset, with the rules of its block (R8, R9). -/
def State.ioWrite (s : State) (by_ : Accessor) (off : Nat) (v : Word) : State :=
  match regBehind off with
  | none => s
  | some (r, i, j) =>
    match off / 0x10000 with
    | 0 | 1 | 2 | 3 | 4 => s.writeLow r i j off v
    | 5 | 6 | 7 | 8 | 13 => s.blockWrite off v
    | 10 => if r.base = 0xa1010 then doSegenWrite (Fin.ofNat 16 i) (Fin.ofNat 4 j) v s else s.blockWrite off v
    | 9 | 11 | 12 | 14 => s.writeMid r i j off v
    | _ => s.writeHigh by_ r i j off v

/-- REGISTER_WRITE (R8, R113, R114): a write by the host, or an engine's io store. -/
def doRegisterWrite (by_ : Accessor) (off : BitVec 21) (v : Word) (s : State) : State :=
  if off.toNat % 4 ≠ 0 ∨ (regBehind off.toNat).isNone then
    (if by_ = .host ∧ s.dev ≠ stGrave then doBar0HoleAccess true off 4 s else s)
  else s.busWrite off.toNat (fun s => s.ioWrite by_ off.toNat v)

def execRegisterWrite (by_ : Accessor) (off : BitVec 21) (v : Word) (s : State) : Host.Outcome State Fault Refusal :=
  .next (doRegisterWrite by_ off v s)

end Sys2Proof.Machine
end

