-- ==== Sys2Proof/Machine/Prof.lean ====
section
/-! DEFINITION. Press profiles (R100 to R108): staging an image as the Draft, its checks (R21, R133), applying a profile with one commit
group (R104 to R106), and the moves between the profile states (R103). -/

namespace Sys2Proof.Machine

/-! ### The image (R101) -/

/-- The register entries of an image. -/
def parseRegs (bs : List Byte) (n : Nat) : List (Nat × Word) :=
  (List.range n).map (fun i => (leAt bs (8 * i) 4, w32 (leAt bs (8 * i + 4) 4)))

/-- The table entries of an image from offset `pos`, and the offset after the last; none when an entry leaves the image. -/
def parseTables (img : List Byte) : (n pos : Nat) → Option (List (BitVec 16 × List Byte) × Nat)
  | 0, pos => some ([], pos)
  | n + 1, pos =>
    let len := leAt img (pos + 4) 4
    let off := leAt img (pos + 8) 4
    if img.length < pos + 16 + len ∨ img.length < off + len then none
    else match parseTables img n (pos + 16 + len) with
      | none => none
      | some (l, p) => some ((BitVec.ofNat 16 (leAt img pos 4), (img.drop off).take len) :: l, p)

/-- The segment parameter entries of an image from offset `pos`: each a KIND 1 descriptor (R87) with its data after it. -/
def parseSegs (img : List Byte) : (n pos : Nat) → Option (List (BitVec 16 × Nat × BitVec 128 × List Byte))
  | 0, _ => some []
  | n + 1, pos =>
    match parseTab ((img.drop pos).take 32) with
    | some (.segParam id port mask _, _, len) =>
      if img.length < pos + 32 + len then none
      else match parseSegs img n (pos + 32 + len) with
        | none => none
        | some l => some ((id, port, mask, (img.drop (pos + 32)).take len) :: l)
    | _ => none

/-- The image with its CRC field taken as 0 (R101). -/
def crcImage (img : List Byte) : List Byte := img.take 0x24 ++ [0, 0, 0, 0] ++ img.drop 0x28

/-- The profile of an image (R101); none when MAGIC or CRC is wrong, a reserved byte is not 0, or an entry leaves the image. -/
def parseProfile (img : List Byte) (frame : Frame) : Option Profile :=
  let len := leAt img 0x0C 4
  let img := img.take len
  let flen := leAt img 0x20 4
  let nreg := leAt img 0x10 4
  let flags := leAt img 0x1C 4
  if leAt img 0 4 ≠ 0x464F5250 ∨ len % 64 ≠ 0 ∨ len = 0 ∨ img.length < len ∨ 1 < flags ∨ !zeroBytes img 0x28 24 ∨
    leAt img 0x24 4 ≠ (crc32c (crcImage img)).toNat ∨ len < 64 + flen + 8 * nreg then none
  else match parseTables img (leAt img 0x14 4) (64 + flen + 8 * nreg) with
    | none => none
    | some (tabs, pos) =>
      match parseSegs img (leAt img 0x18 4) pos with
      | none => none
      | some segs => some { version := w32 (leAt img 4 4), keeptrim := flags == 1, frame := frame,
                            regs := parseRegs (img.drop (64 + flen)) nreg, tabs := tabs, segs := segs }

/-! ### Staging checks (R2, R12, R20, R21, R105, R133, R180) -/

/-- The word that a register has once a profile is applied: its last entry in the image, else its present value. -/
def State.staged (s : State) (p : Profile) (off : Nat) : Word :=
  ((p.regs.reverse.find? (fun e => e.1 == off)).map (·.2)).getD (s.rd off)

/-- The tiles of a bar on a port. -/
def barOnPort (b : BarFrame) (p : Nat) : Nat := (b.tiles.filter (fun t => t.1.val == p)).length

/-- The ports of a bar, ascending. -/
def barPortList (b : BarFrame) : List Nat := (List.range 16).filter (fun p => 0 < barOnPort b p)

/-- The tiles of a port over all bars. -/
def frameTilesOn (f : Frame) (p : Nat) : Nat := (f.bars.map (fun e => barOnPort e.2 p)).foldl (· + ·) 0

/-- Row 1 (R12): no port is shared by two bars or has more than 32 tiles. -/
def okPorts (f : Frame) : Bool :=
  (List.range 16).all (fun p => (f.bars.filter (fun e => 0 < barOnPort e.2 p)).length ≤ 1 && frameTilesOn f p ≤ 32)

/-- Row 2 (R2): the IH-8816 has no ports HP8 to HP15 and no DRAM channels 2 and 3. -/
def okFused (fused : Bool) (f : Frame) : Bool :=
  !fused || ((List.range 16).all (fun p => p < 8 || frameTilesOn f p == 0) && f.fifos.all (fun e => e.1.val < 8) &&
    f.dramChannels.all (fun c => c.val < 2))

/-- The lines that the FIFO of a port holds (R20). -/
def fifoLines (f : Frame) (p tiles depth : Nat) : Nat :=
  ((f.fifos.find? (fun e => e.1.val == p)).map (fun e => e.2.2)).getD 0 * 8 / max 1 (tiles * 2048 * depth)

/-- The bytes of Tarn that a frame allocates (R20): each table has two banks (R88). -/
def frameTarnBytes (f : Frame) : Nat :=
  (f.fifos.map (fun e => e.2.2)).foldl (· + ·) 0 + (f.tables.map (fun t => 2 * t.size)).foldl (· + ·) 0 + f.tarnOther

/-- Row 3 (R20, R202): the lookahead of each bar fits its port FIFOs, the allocations fit Tarn, and so does the nozzle map. -/
def State.okTarn (s : State) (p : Profile) : Bool :=
  p.frame.bars.all (fun e => (barPortList e.2).all (fun q => e.2.lookahead ≤ fifoLines p.frame q (barOnPort e.2 q) e.2.depth)) &&
    frameTarnBytes p.frame ≤ tarnSize &&
    p.regs.all (fun e => e.1 != 0x60000 || fieldOf e.2 0 10 * 65536 + s.mapBytes ≤ tarnSize)

/-- The line rate limit of R21 by drop depth. -/
def okRate (f : Frame) : Bool := f.bars.all (fun e => 2 ≤ e.2.depth && e.2.depth ≤ 4 && f.lineRate ≤ depthLimit e.2.depth)

/-- The line rate against the fire rates that the segments of the bars declare for the slot of the profile (R21, R249). -/
def State.okSegs (s : State) (p : Profile) : Bool :=
  p.frame.bars.all (fun e =>
    let slot := fieldOf (s.staged p (R.FIRE_CTL.off e.1.val 0)) 28 3
    e.2.tiles.all (fun t => (List.range 4).all (fun k =>
      let x := s.seg (t.1.val * 128 + 4 * t.2.val + k)
      let (v, d, r, _) := x.slot slot
      x.slots == [] || (v && d == e.2.depth && p.frame.lineRate ≤ r))))

/-- Port load: 26.37 Gbit/s. -/
def okLoad (f : Frame) : Bool :=
  f.bars.all (fun e => (barPortList e.2).all (fun q => barOnPort e.2 q * 2048 * e.2.depth * f.lineRate ≤ 26370000000))

/-- Separation: 11.2 G columns/s for each bar. -/
def okSep (f : Frame) : Bool := f.bars.all (fun e => (2016 * e.2.tiles.length + 32) * f.lineRate ≤ 11200000000)

/-- Screening: 28.8 G drops/s for each bar. -/
def okScreen (f : Frame) : Bool := f.bars.all (fun e => e.2.tiles.length * 2048 * f.lineRate ≤ 28800000000)

/-- What a bar declares in IBF.SIZING and IBF.LANES (R180). -/
structure Sizing where
  sb : Nat
  div : Nat
  spp2 : Nat
  maxw : Nat
  first : Nat
  count : Nat
  deriving DecidableEq, Repr

def State.sizing (s : State) (p : Profile) (b : Nat) : Sizing :=
  let z := s.staged p (R.IBF_SIZING.off b 0)
  let l := s.staged p (R.IBF_LANES.off b 0)
  { sb := fieldOf z 28 4, div := 1 + fieldOf z 27 1, spp2 := fieldOf z 18 5, maxw := fieldOf z 0 18, first := fieldOf l 16 8,
    count := fieldOf l 0 8 }

/-- The bytes of a line-buffer line with `full` rows of full width and `half` rows of half width (R179). -/
def Sizing.rowsBytes (z : Sizing) (full half : Nat) : Nat :=
  ((List.range (stripesOf z.maxw)).map (fun k =>
    let w := stripeWidth z.maxw k
    8 * (full * cdiv (w * z.sb) 64 + half * cdiv (cdiv w 2 * z.sb) 64))).foldl (· + ·) 0

/-- The bytes of the largest declared line: SPP2 = 4 is 4:2:2 or two planes, the larger of which counts. -/
def Sizing.lineBytes (z : Sizing) : Nat :=
  if z.spp2 = 4 then max (z.rowsBytes 2 0) (z.rowsBytes 1 2) else z.rowsBytes (z.spp2 / 2) (z.spp2 % 2)

/-- D_b for the declared sizing (R179). -/
def Sizing.depth (z : Sizing) : Nat := if z.lineBytes = 0 then 8 else min 8 (1048576 / z.lineBytes)

/-- The lanes that a declared sizing needs (R180). -/
def Sizing.lanes (z : Sizing) (rate : Nat) : Nat := cdiv (z.maxw * z.spp2 * rate) (1400000000 * z.div)

/-- The rows of R180 for one bar. -/
def Sizing.ok (z : Sizing) (rate : Nat) : Bool :=
  z.lanes rate ≤ z.count && 2048 * z.spp2 * rate ≤ 1400000000 * z.div && (if z.spp2 = 3 then 4 else 3) ≤ z.depth &&
    z.first + z.count ≤ 160

/-- The bars that a profile enables, with what they declare. -/
def State.sized (s : State) (p : Profile) : List Sizing :=
  ((List.range 8).filter (fun b => fieldOf (s.staged p (R.IBF_CTL.off b 0)) 31 1 == 1)).map (fun b => s.sizing p b)

/-- Row 11 (R21, R177, R180): lanes, stripe rate, buffer depth, and lane ranges that do not overlap. -/
def okLanes (zs : List Sizing) (rate : Nat) : Bool :=
  zs.all (fun z => z.ok rate) && (zs.map (fun z => z.lanes rate)).foldl (· + ·) 0 ≤ 160 &&
    zs.zipIdx.all (fun e => zs.zipIdx.all (fun g => e.2 == g.2 || e.1.first + e.1.count ≤ g.1.first || g.1.first + g.1.count ≤ e.1.first))

/-- The register entries that R105 permits. -/
def okReg (off : Nat) : Bool :=
  off % 4 == 0 && off < 0x1f0000 && (regBehind off).isSome && off != 0x140000 && 0x20000 ≤ off && off / 0x10000 != 0x13

/-- The check code of R133 for a profile, 0 when it passes. -/
def State.stageCheck (s : State) (p : Profile) : Nat :=
  let f := p.frame
  if !okPorts f then 1
  else if !okFused s.fused8816 f then 2
  else if !s.okTarn p then 3
  else if !f.bars.all (fun e => 0 < e.2.tiles.length && e.2.tiles.length ≤ 64) then 5
  else if !okRate f then 6
  else if !s.okSegs p then 7
  else if !okLoad f then 8
  else if !okSep f then 9
  else if !okScreen f then 10
  else if !okLanes (s.sized p) f.lineRate then 11
  else if !p.regs.all (fun e => okReg e.1) then 13
  else 0

/-! ### PRF_STAGE (R103) -/

/-- FORMAT and SERIAL of a version (R100). -/
def verFormat (v : Word) : Nat := fieldOf v 24 8
def verSerial (v : Word) : Nat := fieldOf v 0 24

/-- CMT.PVER(k): 0 Live, 1 Standing, 2 Previous, 3 Proving, 4 Draft. -/
def State.setPver (s : State) (k : Nat) (p : Option Profile) : State :=
  s.set F.CMT_PVER_VERSION ((p.map (fun x => x.version.toNat)).getD 0) k

/-- PVER(1) to PVER(4) from the profiles held. -/
def State.showPver (s : State) : State :=
  (((s.setPver 1 s.prf.standing).setPver 2 s.prf.previous).setPver 3 s.prf.proving).setPver 4 s.prf.draft

/-- The payload of a staged image once its wrapper is accepted (R477): in Provisioned and Certified it must be wrapped; elsewhere a wrapper
is passed over. The number is the STATUS of R477, 0 where it passes. -/
def State.unwrap (s : State) (bs : List Byte) : Nat × List Byte :=
  let img := bs.drop wrapSize
  if s.lcs = lcProvisioned ∨ s.lcs = lcCertified then
    let pay := img.take (leAt bs 0x0C 4)
    let st := s.wrapStatus 0 (bs.take wrapSize)
    (if st ≠ 0 then st else if wrapSigned (bs.take wrapSize) pay then 0 else 2, pay)
  else (0, if leAt bs 0 4 = 0x444E4753 then img else bs)

/-- The checks of R103 on an image that was read and whose signature passed. -/
def State.stageImage (s : State) (m : Msg) (img : List Byte) (frame : Frame) : State :=
  match parseProfile img frame with
  | none =>
    -- no check code is listed for MAGIC and CRC: RES1 is a free value
    let (r, s) := s.drawFree
    s.complete m .check 0 r
  | some p =>
    if verFormat p.version ≠ 1 ∨ s.prf.standing.any (fun q => decide (verSerial p.version ≤ verSerial q.version)) then s.complete m .version
    else
      let c := s.stageCheck p
      if c ≠ 0 then s.complete m .check 0 (w32 c)
      else
        let s := { s with prf := { s.prf with draft := some p } }
        (s.setPver 4 (some p)).complete m .ok p.version

/-- PRF_STAGE (R103): `img` is what the host buffer holds, none when the read fails. -/
def doPrfStage (tok : Nat) (img : Option ImageData) (s : State) : State :=
  match s.msgOf tok 0x10 with
  | none => s
  | some m =>
    match img with
    | none => s.hostFail m
    | some d =>
      let bs := d.bytes.take m.len
      let (st, img) := s.unwrap bs
      if st ≠ 0 then (s.complete m .signature).audit 8 [w32 st, 2, 0]
      else
        let s := if s.lcs = lcProvisioned ∨ s.lcs = lcCertified then s.commitSvn (bs.take wrapSize) else s
        s.stageImage m img d.frame

def execPrfStage (tok : Nat) (img : Option ImageData) (s : State) : Host.Outcome State Fault Refusal := .next (doPrfStage tok img s)

/-! ### Applying a profile (R102, R104, R105) -/

/-- The device settings of an image (R105): the entries that no group carries. -/
def Profile.settings (p : Profile) : List (Nat × Word) := p.regs.filter (fun e => !groupable e.1)

/-- The role of the standard press program under which profile groups are opened. -/
abbrev prfRole : Nat := 12

/-- The enable registers whose units ignore some writes while they are enabled (R105), with the offsets each one guards. -/
def enables : List (Nat × Nat × Nat) :=
  [(0x40000, 0x40000, 0x10000), (0xb0000, 0xb0000, 0x1000)] ++
  (List.range 2).map (fun j => (0xe0800 + 0x100 * j, 0xe0800 + 0x100 * j, 0x40)) ++
  (List.range 2).flatMap (fun j => (List.range 4).map (fun q =>
    (0xe0844 + 0x100 * j + 0x10 * q, 0xe0840 + 0x100 * j + 0x10 * q, 0x10))) ++
  (List.range 8).map (fun b => (0x50000 + 0x1000 * b, 0x50000 + 0x1000 * b, 0x1000)) ++
  (List.range 8).map (fun b => (0x61000 + 0x400 * b, 0x61000 + 0x400 * b, 0x400)) ++
  (List.range 2).map (fun k => (0x80100 + 0x40 * k, 0x80100 + 0x40 * k, 0x40)) ++
  (List.range 2).map (fun k => (0xd0100 + 0x100 * k, 0xd0100 + 0x100 * k, 0x100))

/-- Whether an offset is one of those enable registers. -/
def isEnable (off : Nat) : Bool := enables.any (fun e => e.1 == off)

/-- The enables that must fall before some entries are written: a set enable with an entry for another register of its unit; the nozzle
map's base is guarded by every bar's screening. -/
def State.openEnables (s : State) (es : List (Nat × Word)) : List (Nat × Word) :=
  (enables.filter (fun e => fieldOf (s.rd e.1) 31 1 == 1 &&
    es.any (fun w => (w.1 != e.1 && e.2.1 ≤ w.1 && w.1 < e.2.1 + e.2.2) || (w.1 == 0x60000 && 0x61000 ≤ e.1 && e.1 < 0x63000)))).map
    (fun e => (e.1, s.rd e.1))

/-- Writes of the standard press program through io, in order. -/
def State.sppWrites (s : State) (ws : List (Nat × Word)) : State := ws.foldl (fun s w => s.ioWrite .host w.1 w.2) s

/-- Device settings written with the enables of their units off meanwhile; an enable that the settings name takes their value. -/
def State.writeSettings (s : State) (es : List (Nat × Word)) : State :=
  let opened := s.openEnables es
  let s := s.sppWrites (opened.map (fun w => (w.1, fieldPut w.2 31 1 0)))
  let s := s.sppWrites (es.filter (fun w => !isEnable w.1))
  let s := s.sppWrites (es.filter (fun w => isEnable w.1))
  s.sppWrites (opened.filter (fun w => !es.any (fun v => v.1 == w.1)))

/-- The settings that the frame of a profile gives where its image has no entry for the register (R102, chapter 13, R447): the DRAM
channels, class and hashing, and the home engine of each role. -/
def State.frameSettings (s : State) (p : Profile) : List (Nat × Word) :=
  let f := p.frame
  let old := s.rd 0xb0000
  let chen := f.dramChannels.foldl (fun a c => Nat.lor a (2 ^ c.val)) 0
  let v := fieldPut (fieldPut (fieldPut (fieldPut old 31 1 1) 30 1 f.hash.toNat) 29 1 f.classL.toNat) 16 4 chen
  let ws := (if f.dramChannels = [] ∨ v = old then [] else [(0xb0000, fieldPut old 31 1 0), (0xb0000, v)]) ++
    (f.roles.map (fun e => (R.SPR_RCTL.off e.1.val 0, fieldPut (s.rd (R.SPR_RCTL.off e.1.val 0)) 16 5 e.2.val))).filter
      (fun w => s.rd w.1 != w.2)
  ws.filter (fun w => !p.regs.any (fun e => e.1 == w.1))

/-- Adds to a group while it is Open. -/
def State.whileOpen (s : State) (g : Nat) (f : State → State) : State := if s.gstate g = cgOpen then f s else s

/-- A KIND 0 entry of a profile group (R88, R106): the standby bank takes the contents first. A table that the frame gives no place aborts
the group with TABLE. -/
def State.profTable (s : State) (g : Nat) (id : BitVec 16) (bs : List Byte) : State :=
  s.whileOpen g fun s =>
    match tableSize id.toNat, s.bankAddr id.toNat false, s.bankAddr id.toNat true with
    | some n, some live, some a =>
      let bs := bs.take n
      if ((s.readTarn live bs.length).bytes == bs) then s
      else
        let s := if a + bs.length ≤ tarnSize then s.writeTarn a bs else s
        s.groupTab g (.bank id)
    | _, _, _ => (s.abortGroup g caTable).cmtReport C.cmt_table g

/-- The tables of a profile, with a zeroed trim layer for each bar that has one when KEEPTRIM is 0 (R104). -/
def Profile.tables (p : Profile) : List (BitVec 16 × List Byte) :=
  if p.keeptrim then p.tabs
  else
    let trims := ((List.range 8).map (fun b => BitVec.ofNat 16 (0x1002 + 256 * b))).filter (fun id => p.frame.tables.any (fun t => t.id == id))
    p.tabs.filter (fun t => !trims.contains t.1) ++ trims.map (fun id => (id, List.replicate 192 0))

/-- The segment parameters that differ from those of the live profile. -/
def State.changedSegs (s : State) (p : Profile) : List (BitVec 16 × Nat × BitVec 128 × List Byte) :=
  let old := (s.prf.live.map (·.segs)).getD []
  p.segs.filter (fun e => !old.contains e)

/-- What a profile group carries (R104): registers in image order with the enables last, changed tables, changed segment parameters, and
CMT.PVER(0). -/
def State.fillGroup (s : State) (g : Nat) (p : Profile) (segs : List (BitVec 16 × Nat × BitVec 128 × List Byte)) : State :=
  let ws := p.regs.filter (fun e => groupable e.1)
  let ws := ws.filter (fun w => !isEnable w.1) ++ ws.filter (fun w => isEnable w.1) ++ [(0x30040, p.version)]
  let s := ws.foldl (fun s w => s.whileOpen g (fun s => s.groupWord g w.1 w.2)) s
  let s := p.tables.foldl (fun s t => s.profTable g t.1 t.2) s
  segs.foldl (fun s e => s.whileOpen g (fun s => s.groupTab g (.segParam e.1 e.2.1 e.2.2.1 e.2.2.2))) s

/-- The WEB position of R104: the fire position of the first line of the next panel instance that meets the lead on every bar. -/
def State.nextInstPos (s : State) : Option Nat :=
  match s.job.job with
  | none => none
  | some j =>
    match j.start with
    | none => none
    | some nj =>
      let point := (s.bars.map (fun b => s.leadPoint b)).foldl max 0
      (instAfter j.scale j.gap j.panels 0 0 0 ((point : Int) - (nj : Int))).map (fun e => s.firePos 0 (nj + e.2))

/-- Whether the device settings of a profile stand already. -/
def State.settingsStand (s : State) (p : Profile) : Bool := p.settings.all (fun e => (s.ioRead e.1).1 == e.2)

/-- Whether R102 and R105 refuse a profile while a job is open. -/
def State.frameRefused (s : State) (p : Profile) : Bool :=
  s.job.job.isSome && (p.frame != s.liveFrame || !s.settingsStand p)

/-- The message of a profile move ends, where there is one. -/
def State.prfEnd (s : State) (m : Option Msg) (st : Status) (r0 r1 : Word := 0) : State :=
  match m with
  | some m => s.complete m st r0 r1
  | none => s

/-- Opens, fills and commits the group of a profile (R104, R105). `kind`: 0 prove, 1 abandon, 2 rollback, 3 starter, 4 Boot, 5 the revert of
R107. -/
def State.applyProfile (s : State) (p : Profile) (m : Option Msg) (kind watch : Nat) : State :=
  if s.frameRefused p then s.prfEnd m .frame
  else if s.prf.pend.isSome then s.prfEnd m .state
  else
    let web := if s.printing then s.nextInstPos else none
    if s.printing && web.isNone then s.prfEnd m .aborted 0 (w32 caJob)
    else match s.openGroup prfRole false with
      | none => s.prfEnd m .busy
      | some (g, s) =>
        -- no segment is linked at Boot
        let segs := if kind = 4 then [] else s.changedSegs p
        let noJob := s.job.job.isNone
        let es := if noJob then p.settings ++ s.frameSettings p else []
        let guards := if s.printing then [] else s.openEnables (p.regs.filter (fun e => groupable e.1))
        let saved := (es.map (fun e => (e.1, s.rd e.1))) ++ guards
        let s := s.writeSettings es
        let s := s.sppWrites (guards.map (fun w => (w.1, fieldPut w.2 31 1 0)))
        let old := s.prf.live
        let s := if s.printing then s else { s with prf := { s.prf with live := some p } }
        let s := s.fillGroup g p segs
        let s := s.whileOpen g (fun s => (match web with
          | some pos => s.commitGroup g 3 0 (BitVec.ofNat 64 pos)
          | none => s.commitGroup g 0 0 0).2)
        let s := { s with prf := { s.prf with
          pend := some { group := g, msg := m, kind := kind, watch := watch, prof := p, saved := saved } } }
        if s.gstate g = cgAborted then { s with prf := { s.prf with live := old } } else s

/-- The last line of a watch (R107): `watch` metres of substrate at IB0 from line `n`. -/
def State.watchLine (s : State) (n watch : Nat) : Option DWord :=
  if watch = 0 then none
  else some (BitVec.ofNat 64 (n + cdiv (watch * 65536000 * 65536) (max 1 s.liveFrame.pitch.toNat)))

/-- The profiles after a move has been applied (R103); the flash slots follow a rollback (R108). -/
def State.movedProfiles (s : State) (d : PrfPend) (n : Nat) : State :=
  let f := s.prf
  let f : PrfState := { f with live := some d.prof, pend := none }
  let f : PrfState := match d.kind with
    | 0 => { f with proving := some d.prof, draft := none, watchEnd := s.watchLine n d.watch }
    | 1 | 5 => { f with draft := f.proving, proving := none, watchEnd := none }
    | 2 => { f with standing := some d.prof, previous := none, draft := f.standing, flash := [d.prof] }
    | _ => f
  ({ s with prf := f } : State).showPver

/-- What follows a profile switch in the units: the leads (R92), hmin (R241), the rates (R516), the ports the profile uses (chapter 11), and
the colour loop (R387), and the class of DRAM (R328, R339). -/
def State.profileSwitched (s : State) (n : Nat) (ports : Bool) : State :=
  let s := setLeads 8 s
  let s := s.bars.foldl (fun s b => (s.setHmin b).setRates b) s
  let s := if ports then (s.bars.flatMap s.barPorts).foldl (fun s p =>
      if s.on F.HLP_CTL_EN p then s else s.writeHlpCtl p (fieldPut (s.rd (R.HLP_CTL.off p 0)) 31 1 1)) s
    else s
  ({ s with col := { s.col with nApply := n } } : State).dropPeriods.dmcFrame

/-- The profile group has been applied: the profile is live, the move is recorded and its message completes with the line (R130). -/
def State.prfApplied (s : State) (d : PrfPend) : State :=
  let now := s.get F.CMT_GBND_KIND d.group = 0
  let n := if now then 0 else s.gline d.group
  let guards := d.saved.filter (fun w => isEnable w.1 && groupable w.1 && !d.prof.regs.any (fun e => e.1 == w.1))
  let s := s.sppWrites guards
  let first := if now then ((s.flineOf 0).toNat + 1) % 2 ^ 64 else n
  let s := ((s.movedProfiles d first).profileSwitched first now).cgaGroup d.group
  let s := if d.kind = 5 then s.hostEvent 0x06 d.prof.version else s
  s.prfEnd d.msg .ok (w32 n) (w32 (n / 2 ^ 32))

/-- The profile group aborted: the settings stand as before, and the message completes with the cause (R105, R106). A rollback or an
abandonment is tried again at the next panel instance. -/
def State.prfAborted (s : State) (d : PrfPend) : State :=
  let cause := s.get F.CMT_GSTAT_CAUSE d.group
  let s := s.writeSettings (d.saved.filter (fun w => !groupable w.1))
  let s := s.sppWrites (d.saved.filter (fun w => groupable w.1))
  let s := ({ s with prf := { s.prf with pend := none } } : State).cgaGroup d.group
  let s := s.prfEnd d.msg .aborted 0 (w32 cause)
  if s.printing ∧ (d.kind = 1 ∨ d.kind = 2 ∨ d.kind = 5) then s.applyProfile d.prof none d.kind d.watch else s

/-- A profile group that has been Applied or Aborted is settled. -/
def State.prfSettle (s : State) : State :=
  match s.prf.pend with
  | none => s
  | some d =>
    let st := s.gstate d.group
    if st = cgApplied then s.prfApplied d else if st = cgAborted then s.prfAborted d else s

/-- A profile move of a message. -/
def State.moveProfile (s : State) (p : Profile) (m : Option Msg) (kind watch : Nat) : State := (s.applyProfile p m kind watch).prfSettle

/-! ### The messages (R103) -/

/-- PRF_PROVE (R103, R107). -/
def doPrfProve (tok : Nat) (s : State) : State :=
  match s.msgOf tok 0x11 with
  | none => s
  | some m =>
    if s.prf.pend.any (fun d => d.msg.any (fun x => x.tok == tok)) then s
    else if 65536 ≤ (m.arg 0).toNat then s.complete m .badfield
    else match s.prf.draft with
      | none => s.complete m .state
      | some p => if s.prf.proving.isSome then s.complete m .state else s.moveProfile p (some m) 0 (m.arg 0).toNat

def execPrfProve (tok : Nat) (s : State) : Host.Outcome State Fault Refusal := .next (doPrfProve tok s)

/-- PRF_PROMOTE (R103, R108): no target changes, and both flash slots are written. -/
def doPrfPromote (tok : Nat) (s : State) : State :=
  match s.msgOf tok 0x12 with
  | none => s
  | some m =>
    match s.prf.proving with
    | none => s.complete m .state
    | some p =>
      let f := s.prf
      let s := { s with prf := { f with standing := some p, previous := f.standing, proving := none, watchEnd := none,
                                        flash := p :: f.standing.toList } }
      s.showPver.complete m .ok p.version

def execPrfPromote (tok : Nat) (s : State) : Host.Outcome State Fault Refusal := .next (doPrfPromote tok s)

/-- The profile that an abandonment applies: the Standing, and the Starter where there is none. -/
def State.fallback (s : State) : Profile := s.prf.standing.getD s.prf.starter

/-- PRF_ABANDON (R103). -/
def doPrfAbandon (tok : Nat) (s : State) : State :=
  match s.msgOf tok 0x13 with
  | none => s
  | some m =>
    if s.prf.pend.any (fun d => d.msg.any (fun x => x.tok == tok)) then s
    else if s.prf.proving.isNone then s.complete m .state
    else s.moveProfile s.fallback (some m) 1 0

def execPrfAbandon (tok : Nat) (s : State) : Host.Outcome State Fault Refusal := .next (doPrfAbandon tok s)

/-- PRF_ROLLBACK (R103, R106). -/
def doPrfRollback (tok : Nat) (s : State) : State :=
  match s.msgOf tok 0x14 with
  | none => s
  | some m =>
    if s.prf.pend.any (fun d => d.msg.any (fun x => x.tok == tok)) then s
    else match s.prf.previous with
      | none => s.complete m .state
      | some p => if s.prf.proving.isSome then s.complete m .state else s.moveProfile p (some m) 2 0

def execPrfRollback (tok : Nat) (s : State) : Host.Outcome State Fault Refusal := .next (doPrfRollback tok s)

/-- PRF_STARTER (R103). -/
def doPrfStarter (tok : Nat) (s : State) : State :=
  match s.msgOf tok 0x15 with
  | none => s
  | some m =>
    if s.prf.pend.any (fun d => d.msg.any (fun x => x.tok == tok)) then s
    else s.moveProfile s.prf.starter (some m) 3 0

def execPrfStarter (tok : Nat) (s : State) : Host.Outcome State Fault Refusal := .next (doPrfStarter tok s)

/-- PRF_STATUS (R103, R130): the five versions, the pending group (all ones for none) and its CMT.GSTAT word. -/
def doPrfStatus (tok : Nat) (ok : Bool) (s : State) : State :=
  match s.msgOf tok 0x16 with
  | none => s
  | some m =>
    if m.len < 32 then s.complete m .badfield
    else if !ok then s.hostFail m
    else
      let ver := fun (k : Nat) => s.get F.CMT_PVER_VERSION k
      let g := match s.prf.pend with
        | some d => leBytes 4 d.group ++ leBytes 4 (s.rd (R.CMT_GSTAT.off d.group 0)).toNat
        | none => leBytes 4 0xFFFFFFFF ++ leBytes 4 0
      let s := s.writeHost m.ptr ((List.range 5).flatMap (fun k => leBytes 4 (ver k)) ++ g ++ leBytes 4 0)
      s.complete m .ok (w32 (ver 0))

def execPrfStatus (tok : Nat) (ok : Bool) (s : State) : Host.Outcome State Fault Refusal := .next (doPrfStatus tok ok s)

/-! ### The revert of R107 -/

/-- A fault during the watch of a Proving profile (R107): the Standing is applied again, and cmt.profile_revert is reported. -/
def State.revertProfile (s : State) : State :=
  if s.prf.watchEnd.isNone || s.prf.proving.isNone || s.prf.pend.any (fun d => d.kind == 5) then s
  else
    let s := s.report C.cmt_profile_revert (mkArg none none 0)
    let s := { s with prf := { s.prf with watchEnd := none } }
    s.moveProfile s.fallback none 5 0

end Sys2Proof.Machine
end

