-- ==== Sys2Proof/Machine/Job.lean ====
section
/-! DEFINITION. Jobs, panels and printing (R130, R139, R145, R180, R188), and the measurement records of the links, the gauges and the encoders
(R131, R234, R281, R322). -/

namespace Sys2Proof.Machine

/-! ### Jobs and panels -/

/-- The ink bars whose fetcher is enabled. -/
def State.fetchBars (s : State) : List Nat := (List.range 8).filter (fun b => s.on F.IBF_CTL_EN b)

/-- A job as JOB_OPEN creates it. -/
def Job.create (id count gap x0 : Nat) (r1200 : Bool) : Job :=
  { id := id, count := count, gap := gap, r1200 := r1200, x0 := x0, panels := [], closed := false, start := none, seenStart := false, seq := none }

/-- What is reported once in a job may be reported again. -/
def State.newJobReports (s : State) : State :=
  { s with segs := Tab.mapE (fun _ => Seg.reset) (fun _ x => { x with clampRep := false }) s.segs,
           col := { s.col with limitRep := [], skipRep := false } }

/-- JOB_OPEN (R92, R130, R180, R506). -/
def doJobOpen (tok : Nat) (s : State) : State :=
  match s.msgOf tok 0x20 with
  | none => s
  | some m =>
    let count := (m.arg 0).toNat
    let gap := (m.arg 1).toNat
    let res := (m.arg 2).toNat
    if s.job.job.isSome ∨ s.noLinePath then s.complete m .state
    else if count = 0 ∨ 4096 < count ∨ 65536 ≤ gap ∨ 2 ≤ res then s.complete m .badfield
    else if res = 1 ∧ s.fetchBars.any (fun b => s.on F.IBF_SIZING_RES600 b) then s.complete m .badfield
    else
      let id := s.job.nextId
      let j := Job.create id count gap (m.arg 3).toNat (res == 1)
      let s := { s with job := { s.job with job := some j, ending := false, nextId := (id + 1) % 2 ^ 32 }, ing := { s.ing with mapNext := 0 } }
      (setLeads 8 s.newJobReports).complete m .ok (w32 id)

def execJobOpen (tok : Nat) (s : State) : Host.Outcome State Fault Refusal := .next (doJobOpen tok s)

/-- Whether a panel fits the declared sizing of every enabled bar (R180). -/
def State.fitsSizing (s : State) (form w : Nat) : Bool :=
  s.fetchBars.all (fun b => w ≤ s.get F.IBF_SIZING_MAXW b && formSpp2 form ≤ s.get F.IBF_SIZING_SPP2 b &&
    (formDepth form).getD 0 ≤ s.get F.IBF_SIZING_SB b)

/-- The panel record of R145. -/
def panelRecord (form w h map : Nat) : List Byte :=
  leBytes 1 form ++ leBytes 1 2 ++ leBytes 2 (stripesOf w) ++ leBytes 4 w ++ leBytes 4 h ++ leBytes 4 0 ++ leBytes 8 (map % 2 ^ 40) ++
    leBytes 8 0

/-- Panel `k` of the job is recorded: its block map is allocated and holds no block, and its record is written (R144, R145). -/
def State.addPanel (s : State) (j : Job) (p : Panel) (bytes : Nat) : State :=
  let k := j.panels.length
  let s := if s.dramOk p.mapAddr bytes then s.writeDram p.mapAddr (List.replicate bytes 0) else s.dramRange p.mapAddr
  let s := s.bufWrite (s.recAddr k) (panelRecord p.form p.w p.h p.mapAddr)
  { s with job := { s.job with job := some { j with panels := j.panels ++ [p] } }, ing := { s.ing with mapNext := s.ing.mapNext + bytes } }

/-- The status with which a panel is refused (R139, R180, R188); none when it is accepted. -/
def State.panelStatus (s : State) (j : Job) (k w h bg form : Nat) : Option Status :=
  let pre := 3 ≤ form / 16
  if k ≠ j.panels.length ∨ j.count ≤ k then some .badfield
  else if (formDepth form).isNone then some .badfield
  else if pre ∧ !s.feature 7 then some .notneg
  else if (pre ∧ !j.r1200) ∨ (form = 3 ∧ h % 2 = 1) ∨ w = 0 ∨ 131072 < w ∨ h = 0 ∨ 2 ≤ bg then some .badfield
  else if !s.fitsSizing form w then some .badfield
  else none

/-- PANEL_DEFINE (R130, R139, R145, R180, R188). A panel whose map does not fit the map area completes with NOSPACE. -/
def doPanelDefine (tok : Nat) (s : State) : State :=
  match s.msgOf tok 0x21 with
  | none => s
  | some m =>
    match s.job.job with
    | none => s.complete m .state
    | some j =>
      if j.closed then s.complete m .state
      else
        let w := (m.arg 1).toNat
        let h := (m.arg 2).toNat
        let form := (m.arg 5).toNat
        match s.panelStatus j (m.arg 0).toNat w h (m.arg 4).toNat form with
        | some st => s.complete m st
        | none =>
          let bytes := cdiv h 64 * stripesOf w * 16
          if s.get F.ING_MAPSIZE_MIB * 2 ^ 20 < s.ing.mapNext + bytes then s.complete m .nospace
          else
            let p : Panel := { form := form, w := w, h := h, reps := (m.arg 3).toNat, bg := m.arg 4, secure := false, keyid := 0,
                               mapAddr := s.get F.ING_MAPBASE_MIB * 2 ^ 20 + s.ing.mapNext, freed := false }
            (s.addPanel j p bytes).complete m .ok

def execPanelDefine (tok : Nat) (s : State) : Host.Outcome State Fault Refusal := .next (doPanelDefine tok s)

/-- JOB_CLOSE (R130). -/
def doJobClose (tok : Nat) (s : State) : State :=
  match s.msgOf tok 0x23 with
  | none => s
  | some m =>
    match s.job.job with
    | none => s.complete m .state
    | some j =>
      if j.closed ∨ j.panels.length < j.count then s.complete m .state
      else ({ s with job := { s.job with job := some { j with closed := true } } } : State).complete m .ok

def execJobClose (tok : Nat) (s : State) : Host.Outcome State Fault Refusal := .next (doJobClose tok s)

/-- A PRINT message, or JOB_CANCEL, waits for the last bar, which stops at line `n` of bar `b` for each `b` (R130). -/
def State.stopAll (s : State) (kind : Nat) (m : Msg) (line : Nat) (at_ : Nat → Nat) : State :=
  let s := { s with job := { s.job with ops := s.job.ops ++ [{ kind := kind, msg := m, line := line }] } }
  let active := (List.range 8).filter s.barActive
  if active = [] then s.checkStopped else active.foldl (fun s b => s.stopBar b (at_ b)) s

/-- Whether a message is one that waits for the last bar. -/
def State.waitsStop (s : State) (tok : Nat) : Bool := s.job.ops.any (fun o => o.msg.tok == tok)

/-- JOB_CANCEL (R130, R134): every bar stops before its first line not committed. -/
def doJobCancel (tok : Nat) (s : State) : State :=
  match s.msgOf tok 0x24 with
  | none => s
  | some m =>
    if s.waitsStop tok then s
    else if s.job.job.isNone then s.complete m .state
    else s.abortPrint.abortIngests.stopAll 2 m 0 (fun b => (s.fireBar b).next)

def execJobCancel (tok : Nat) (s : State) : Host.Outcome State Fault Refusal := .next (doJobCancel tok s)

/-! ### Printing -/

/-- Whether PRINT_START and PRINT_RESUME complete with STATE for a reason of the press (R315, R424, R460, R506). -/
def State.mayNotPrint (s : State) : Bool :=
  s.on F.FLT_STAT_JOBHOLD || s.on F.SENS_LSTAT_BUSY || s.noLinePath || s.bars.isEmpty ||
    s.allSegs.any (fun sg => s.segen sg && s.segState sg != sgActive)

/-- The line at which PRINT_START and PRINT_RESUME start the bars (R91, R92, R130). -/
inductive StartLine
  | line (n : Nat)
  | bad
  | late
  deriving DecidableEq, Repr

def State.startLine (s : State) (m : Msg) : StartLine :=
  if m.arg 0 = 0 then .line s.leadLine
  else if m.arg 0 = 1 then
    match webLine ((m.arg 1).toNat + 2 ^ 32 * (m.arg 2).toNat) (s.origin 0) (max 1 s.liveFrame.pitch.toNat) with
    | none => .late
    | some n => if n < s.leadLine then .late else .line n
  else .bad

/-- Every bar starts at line `n` (R245); a bar whose scheduler is not enabled drops its START. With a finite job it stops at the job's end. -/
def State.launch (s : State) (j : Job) (n : Nat) : State :=
  let bars := s.bars
  let s := bars.foldl (fun s b =>
    if s.on F.FIRE_CTL_EN b && !s.barActive b then s.startBar b n
    else s.report C.fire_gate_op (mkArg (some b) none 0) (some (s.flineOf b))) s
  let s := s.setDev stPrinting
  match j.lines, j.start with
  | some l, some nj =>
    let s := { s with job := { s.job with ending := s.job.ending || decide (nj + l ≤ n) } }
    bars.foldl (fun s b => s.stopBar b (nj + l)) s
  | _, _ => s

/-- The start of printing once its line is resolved. -/
def State.startAt (s : State) (m : Msg) (j : Job) : State :=
  match s.startLine m with
  | .bad => s.complete m .badfield
  | .late => s.complete m .aborted 0 (w32 caLate)
  | .line n =>
    let j := { j with start := some (j.start.getD n) }
    let s := { s with job := { s.job with job := some j } }
    (s.launch j n).complete m .ok (w32 n) (w32 (n / 2 ^ 32))

/-- PRINT_START (R130, R315, R424, R485, R487). -/
def doPrintStart (tok : Nat) (s : State) : State :=
  match s.msgOf tok 0x30 with
  | none => s
  | some m =>
    match s.job.job with
    | none => s.complete m .state
    | some j =>
      if !j.closed || j.start.isSome || s.dev ≠ stReady || s.mayNotPrint then s.complete m .state
      else if s.jobExhausted j || (s.auditFull && j.panels.any (·.secure)) then s.complete m .licence
      else s.startAt m j

def execPrintStart (tok : Nat) (s : State) : Host.Outcome State Fault Refusal := .next (doPrintStart tok s)

/-- PRINT_RESUME (R130, R253, R485): refused while a segment of the job's bars is at its hard limit. -/
def doPrintResume (tok : Nat) (s : State) : State :=
  match s.msgOf tok 0x32 with
  | none => s
  | some m =>
    match s.job.job with
    | none => s.complete m .state
    | some j =>
      if j.start.isNone || s.dev ≠ stPaused || s.mayNotPrint || s.anyBarActive || s.allSegs.any (fun sg => s.on F.FIRE_SEG_HOT sg) then
        s.complete m .state
      else if s.jobExhausted j then s.complete m .licence
      else s.startAt m j

def execPrintResume (tok : Nat) (s : State) : Host.Outcome State Fault Refusal := .next (doPrintResume tok s)

/-- The first line of a panel instance from line `n` on (R130); `n` where no later instance starts. -/
def nextInstLine (j : Job) (n : Nat) : Nat :=
  match j.start with
  | none => n
  | some nj =>
    match instAfter j.scale j.gap j.panels 0 0 0 ((n : Int) - 1 - (nj : Int)) with
    | some (_, rel) => nj + rel
    | none => n

/-- PRINT_PAUSE (R130). -/
def doPrintPause (tok : Nat) (s : State) : State :=
  match s.msgOf tok 0x31 with
  | none => s
  | some m =>
    if s.waitsStop tok then s
    else match s.job.job with
      | none => s.complete m .state
      | some j =>
        if !s.printing then s.complete m .state
        else if 1 < (m.arg 0).toNat then s.complete m .badfield
        else
          let x := if m.arg 0 = 0 then nextInstLine j s.leadLine else s.leadLine
          s.stopAll 0 m x (fun _ => x)

def execPrintPause (tok : Nat) (s : State) : Host.Outcome State Fault Refusal := .next (doPrintPause tok s)

/-- PRINT_STOP (R130, R205). -/
def doPrintStop (tok : Nat) (s : State) : State :=
  match s.msgOf tok 0x33 with
  | none => s
  | some m =>
    if s.waitsStop tok then s
    else match s.job.job with
      | none => s.complete m .state
      | some j =>
        if j.start.isNone || !s.printingOrPaused then s.complete m .state
        else
          let x := s.leadLine
          s.stopAll 1 m x (fun _ => x)

def execPrintStop (tok : Nat) (s : State) : Host.Outcome State Fault Refusal := .next (doPrintStop tok s)

/-! ### Measurement records -/

/-- The telemetry entry of a segment (R322). -/
def State.telEntry (s : State) (sg : Nat) : List Byte :=
  if !s.portPresent (sg / 128) then List.replicate 8 0
  else
    let x := s.seg sg
    leBytes 2 (fieldOf x.tel1 16 16) ++ leBytes 2 (fieldOf x.tel1 0 16) ++ leBytes 2 (fieldOf x.tel2 16 16) ++
      leBytes 1 (fieldOf x.tel2 0 2) ++ leBytes 1 (s.segState sg)

/-- MEAS_READ kind 2 (R322). -/
def doMeasReadTelemetry (tok : Nat) (ok : Bool) (s : State) : State := s.measRead tok 2 ok ((List.range 2048).flatMap s.telEntry)

def execMeasReadTelemetry (tok : Nat) (ok : Bool) (s : State) : Host.Outcome State Fault Refusal := .next (doMeasReadTelemetry tok ok s)

/-- MEAS_READ kind 3 (R281). -/
def doMeasReadCables (tok : Nat) (ok : Bool) (s : State) : State := s.measRead tok 3 ok (cableRecord s)

def execMeasReadCables (tok : Nat) (ok : Bool) (s : State) : Host.Outcome State Fault Refusal := .next (doMeasReadCables tok ok s)

/-- MEAS_READ kind 4 (R47). -/
def doMeasReadSlack (tok : Nat) (ok : Bool) (s : State) : State := s.measRead tok 4 ok (slackRecord s)

def execMeasReadSlack (tok : Nat) (ok : Bool) (s : State) : Host.Outcome State Fault Refusal := .next (doMeasReadSlack tok ok s)

/-- The entry of an encoder (R234). -/
def State.encEntry (s : State) (k : Nat) : List Byte :=
  let e := s.encoder k
  let bit := fun (i : Nat) (f : Fld) => if s.on f k then 2 ^ i else 0
  let flags := bit 0 F.ENC_CTL_EN + bit 1 F.ENC_STAT_STILL + bit 2 F.ENC_STAT_UNKNOWN + bit 3 F.ENC_STAT_SETTLING + bit 4 F.ENC_STAT_MODE +
    bit 5 F.ENC_STAT_DIRN + bit 6 F.ENC_STAT_LOS + bit 7 F.ENC_STAT_ILL + bit 8 F.ENC_STAT_ZERR + bit 9 F.ENC_STAT_RATE
  leBytes 8 (e.pe / 65536) ++ leBytes 2 (e.pe % 65536) ++ leBytes 2 flags ++ leBytes 4 (s.get F.ENC_SPEED_VALUE k) ++
    leBytes 4 (s.get F.ENC_ZPOSLO_WPU k) ++ leBytes 4 (s.get F.ENC_ZPOSHI_WPU k) ++ leBytes 4 (s.get F.ENC_ILLCNT_VALUE k) ++ leBytes 4 0

/-- The 144 bytes of MEAS_READ kind 5 (R234). -/
def State.encRecord (s : State) : List Byte :=
  s.encEntry 0 ++ s.encEntry 1 ++ leBytes 8 s.pos ++ leBytes 4 (s.get F.ENC_STRETCH_VALUE) ++
    leBytes 1 (s.get F.ENC_GCTL_REF + 2 * s.get F.ENC_GCTL_SCOMP) ++ leBytes 3 0 ++ (List.range 8).flatMap (fun b => leBytes 8 (s.barPos b))

/-- MEAS_READ kind 5 (R234). -/
def doMeasReadEncoders (tok : Nat) (ok : Bool) (s : State) : State := s.measRead tok 5 ok s.encRecord

def execMeasReadEncoders (tok : Nat) (ok : Bool) (s : State) : Host.Outcome State Fault Refusal := .next (doMeasReadEncoders tok ok s)

/-- Words as bytes: `n` of them, 0 where the list is shorter. -/
def wordsOf (ws : List Word) (n : Nat) : List Byte := (List.range n).flatMap (fun i => leBytes 4 (ws.getD i 0).toNat)

/-- The bar node entry of a port (R322): words 1 to 3 of BNCAP and four zero bytes. -/
def State.bnEntry (s : State) (p : Nat) : List Byte :=
  if s.portPresent p then wordsOf (s.port p).bncap 3 ++ leBytes 4 0 else List.replicate 16 0

/-- The CAP of a segment (R311, R322). -/
def State.capEntry (s : State) (sg : Nat) : List Byte :=
  if s.portPresent (sg / 128) then wordsOf (s.seg sg).cap 12 else List.replicate 48 0

/-- MEAS_READ kind 7 (R322). -/
def doMeasReadCapabilities (tok : Nat) (ok : Bool) (s : State) : State :=
  s.measRead tok 7 ok ((List.range 16).flatMap s.bnEntry ++ (List.range 2048).flatMap s.capEntry)

def execMeasReadCapabilities (tok : Nat) (ok : Bool) (s : State) : Host.Outcome State Fault Refusal :=
  .next (doMeasReadCapabilities tok ok s)

end Sys2Proof.Machine
end

