-- ==== Sys2Proof/Machine/Boot.lean ====
section
/-! DEFINITION. Boot (R326, R479, R500, R503, R504): what PORST_N rising begins, and what ends in Negotiate. -/

namespace Sys2Proof.Machine

/-! ### Steps 1 and 2: OTP, straps and firmware -/

/-- SYS.STRAP is latched (R500): BOOT = 3 is taken as 0 outside Blank. -/
def State.latchStraps (s : State) (v : BitVec 3) : State :=
  if s.pwr.soft then s
  else
    let s := s.wr (R.SYS_STRAP.off 0 0) (v.setWidth 32)
    if v.toNat % 4 = 3 ∧ s.lcs ≠ lcBlank then (s.set F.SYS_STRAP_BOOT 0).report C.sys_strap (mkArg none none 0) else s

/-- The hour counter has stood while VCORE was removed (R459, R514). -/
def State.resumeHours (s : State) : State :=
  match s.pwr.vcoreOff with
  | none => s
  | some t => { s with pwr := { s.pwr with vcoreOff := none }, sens := { s.sens with hourBase := s.sens.hourBase + (s.now - t) } }

/-- What happened while only VAUX was present is recorded (R475, R486, R488). -/
def State.vauxEvents (s : State) : State :=
  let c := s.sec.vauxTamper
  let s := if c = 0 then s
    else
      let s := { s with sec := { s.sec with vauxTamper := 0 } }
      (s.audit 9 [w32 c, 0, 0]).report C.sec_tamper (mkArg none none c)
  if !s.sec.vauxLost then s
  else (({ s with sec := { s.sec with vauxLost := false } } : State).set F.SEC_LCS_VAUXLOST 1).audit 11 [0, 0, 0]

/-- The oscillator trims of OTP (R416). -/
def State.loadTrims (s : State) : State :=
  (List.range 16).foldl (fun s i => s.set F.XING_OTRIM_TRIM (s.xing.otpTrim.getD i 0).toNat i) s

/-- What OTP holds becomes visible: the lifecycle state, the shutdown records and the oscillator trims. -/
def State.loadOtp (s : State) : State :=
  let s := s.loadLcs.loadOtrec.loadTrims
  if 32 ≤ s.sens.otp.length then s.report C.sens_otp_full (mkArg none none 0) else s

/-- The islands of the IH-8816 that are absent (R404). -/
def State.markAbsent (s : State) : State :=
  if s.fused8816 then
    ([9, 10, 11, 12, 13, 14, 15, 16, 19, 20] : List Nat).foldl (fun s i => s.set F.XING_ISTAT_STATE isAbsent i) s
  else s

/-- A failure of Boot is an audit entry (R486). -/
def State.bootAudit (s : State) (code : Nat) : State := (s.report code (mkArg none none 0)).audit 7 [w32 code, 0, 0]

/-- The Boot ROM verifies the firmware bundle and the Starter profile (R479, R504): whether it loads the engines. -/
def State.verifyBoot (s : State) (i : BootInfo) : Bool × State :=
  let swap := s.get F.SYS_STRAP_BOOT = 2
  let first := if swap then i.copyB else i.copyA
  let second := if swap then i.copyA else i.copyB
  let st := s.lcs
  if !i.flash then (false, s.report C.sys_flash (mkArg none none 0))
  else if st = lcBlank then (true, s)
  else if !first && !second && st ≠ lcOpen then (false, s.bootAudit C.sec_boot_fail)
  else
    let s := if first then s else if second then s.bootAudit C.sec_boot_fallback else s.bootAudit C.sec_boot_unsigned
    if !i.starter && st ≠ lcOpen then (false, s.bootAudit C.sec_boot_fail) else (true, s)

/-! ### Steps 4 and 5: engines and DRAM -/

/-- Engine LE`r` runs the standard press program and holds role `r` with epoch 1 (R438); where its program stands is a free value. -/
def State.bootEngine (s : State) (r : Nat) : State :=
  let (pc, s) := s.drawFree
  let s := s.setEngine r { Engine.reset with pc := pc, claim := w32 (32 + r), roles := BitVec.ofNat 16 (2 ^ r) }
  ((s.set F.ENG_ESTAT_ROLE r r).set F.ENG_ESTAT_HOLDS 1 r).setEstate r esRunning

/-- Whether a population is an organisation of R325. -/
def orgOk (p : ChanPop) : Bool := (p.dens == 8 && (p.ranks == 1 || p.ranks == 2)) || (p.dens == 16 && p.ranks == 1)

/-- The capacity of a channel in MiB (R325). -/
def popMib (p : ChanPop) : Nat := p.ranks * p.dens * 1024

/-- One channel is found (R326). -/
def State.bootChan (s : State) (c : Nat) (f : ChanFound) : State :=
  if !s.chPresent c then s
  else
    let bad := fun (s : State) => (s.set F.DMC_CHSTAT_STATE 1 c).report C.dmc_spd (mkArg none (some c) 0)
    match f with
    | .absent => s.set F.DMC_CHSTAT_STATE 0 c
    | .bad => bad s
    | .found p =>
      if !orgOk p then bad s
      else
        let s := { s with dmc := { s.dmc with pop := Tab.put (fun _ => none) s.dmc.pop c (some p) } }
        let s := ((s.set F.DMC_CHSTAT_FORM p.isModule.toNat c).set F.DMC_CHSTAT_RANKS p.ranks c).set F.DMC_CHSTAT_DENGB p.dens c
        (s.set F.DMC_CHSTAT_CAPMIB (popMib p) c).set F.DMC_CHSTAT_STATE 2 c

/-- The populations of the channels in training. -/
def State.pops (s : State) : List (Nat × ChanPop) :=
  (List.range 4).filterMap (fun c => if s.get F.DMC_CHSTAT_STATE c = 2 then (Tab.get (fun _ => none) s.dmc.pop c).map (fun p => (c, p)) else none)

/-- The smallest capacity and the lowest speed are taken for all (R326). -/
def State.matchPops (s : State) : State :=
  let ps := s.pops
  match listMin? (ps.map (fun e => popMib e.2)), listMin? (ps.map (fun e => e.2.speed)) with
  | some cap, some speed =>
    let mixed := ps.any (fun e => ps.any (fun g => e.2.ranks != g.2.ranks || e.2.dens != g.2.dens))
    let slow := decide (speed < s.get F.DMC_TSET_SPEED 0)
    let s := ps.foldl (fun s e => s.set F.DMC_CHSTAT_CAPMIB cap e.1) s
    let s := if slow then s.set F.DMC_TSET_SPEED speed 0 else s
    if mixed || slow then s.report C.dmc_pop_mismatch (mkArg none none 0) else s
  | _, _ => s

/-- Step 5 (R326, R348): the population is read and every channel begins to train. The measured self-refresh exit bound is a free value. -/
def State.bootDram (s : State) (chans : Vector ChanFound 4) : State :=
  let s := chans.toList.zipIdx.foldl (fun s e => s.bootChan e.2 e.1) s
  let (w, s) := s.drawFree
  (s.set F.DMC_SRCFG_SRXLAT (w.toNat % 2 ^ 15)).matchPops

/-- BOOT_START (R503): PORST_N rises, or a software reset has ended. -/
def doBootStart (i : BootInfo) (s : State) : State :=
  if s.dev ≠ stReset then s
  else
    let s := { s.resumeHours with tarn := { s.tarn with data := [], chk := [], valid := [] } }
    let s := (s.loadOtp.latchStraps i.straps).markAbsent
    let s := (s.setLock 0 i.pbLocked).setDev stBoot
    let s := { s with pwr := { s.pwr with bootAt := s.now, bootOk := false } }
    let s := if s.pwr.brown then s.report C.sys_brownout (mkArg none none 0) else s
    let s := ({ s with pwr := { s.pwr with brown := false } } : State).vauxEvents
    match s.verifyBoot i with
    | (false, s) => s
    | (true, s) =>
      let s := (List.range 16).foldl State.bootEngine { s with pwr := { s.pwr with bootOk := true } }
      s.bootDram i.chans

def execBootStart (i : BootInfo) (s : State) : Host.Outcome State Fault Refusal := .next (doBootStart i s)

/-! ### Steps 6 to 9 -/

/-- Whether a channel still trains. -/
def State.training (s : State) : Bool := (List.range 4).any (fun c => s.get F.DMC_CHSTAT_STATE c == 2)

/-- The profiles in flash that pass their checks (R108): the Standing and the Previous. -/
def State.loadSlots (s : State) (standing previous : Bool) : State :=
  let f := s.prf
  let f : PrfState := { f with standing := if standing then f.flash[0]? else none, previous := if previous then f.flash[1]? else none }
  ({ s with prf := f } : State).showPver

/-- The copy of the nozzle map returns to Tarn (R205). -/
def State.loadMap (s : State) : State :=
  match s.pwr.flashMap with
  | none => s
  | some bs => s.bufWrite (s.get F.SCN_MAPBASE_BASE * 65536) bs

/-- The profile that Boot applies (R108): the Standing, else the Previous, else the Starter. -/
def State.bootProfile (s : State) : Profile := (s.prf.standing.orElse (fun _ => s.prf.previous)).getD s.prf.starter

/-- BOOT_COMPLETE (R503): the remap entries, the profile, the nozzle map and the ports, then Negotiate. `standing` and `previous`: the flash
slot passes its CRC and signature checks. -/
def doBootComplete (standing previous : Bool) (s : State) : State :=
  if s.dev ≠ stBoot || !s.pwr.bootOk || s.training then s
  else
    let s := s.sppWrites s.pwr.flashRemap
    let s := s.loadSlots standing previous
    let s := (s.moveProfile s.bootProfile none 4 0).loadMap
    let s := s.set F.SYS_BOOTT_US ((s.now - s.pwr.bootAt) / 1000 % 2 ^ 32)
    s.setFeatoff.setDev stNegotiate

def execBootComplete (standing previous : Bool) (s : State) : Host.Outcome State Fault Refusal := .next (doBootComplete standing previous s)

end Sys2Proof.Machine
end

