-- ==== Sys2Proof/Machine/Checkpoint.lean ====
section
/-! DEFINITION. Checkpoints (R72, R73). -/

namespace Sys2Proof.Machine

/-- The Tarn engine address of the checkpoint slot of role `r` (R72). -/
def ckSlot (x : Engine) (r : Nat) : Nat := x.ckbase.toNat + r * 0x10000

/-- A checkpoint bank as read: its header fields and data, none when its CRC-32C or its length is wrong (R72). -/
structure CkBank where
  seq : Nat
  line : DWord
  data : List Byte

/-- Reads a bank at a Tarn offset: the header, then LEN bytes of data, and checks the CRC-32C. An uncorrectable byte makes the bank
invalid. -/
def State.readBank (s : State) (a : Nat) : Option CkBank × State :=
  let h := s.readTarn a 64
  let len := leNat ((h.bytes.drop 0x14).take 4)
  if h.bad ∨ 32704 < len then (none, h.st)
  else
    let d := h.st.readTarn (a + 64) len
    if d.bad ∨ crc32c (h.bytes.take 0x1C ++ d.bytes) ≠ w32 (leNat ((h.bytes.drop 0x1C).take 4)) then (none, d.st)
    else (some { seq := leNat (h.bytes.take 8), line := w64 (leNat ((h.bytes.drop 8).take 8)), data := d.bytes }, d.st)

/-- The current checkpoint of a slot (R72): the valid bank with the higher SEQ, and its number. -/
def State.currentBank (s : State) (slot : Nat) : Option (Nat × CkBank) × State :=
  let (b0, s) := s.readBank slot
  let (b1, s) := s.readBank (slot + 0x8000)
  (match b0, b1 with
   | none, none => none
   | some x, none => some (0, x)
   | none, some y => some (1, y)
   | some x, some y => if y.seq < x.seq then some (0, x) else some (1, y), s)

/-- CKPT (R72): the bank that does not hold the current checkpoint is written, and g[d] takes the new SEQ. -/
def doCkpt (e : Eng) (w : FmtA) (s : State) : State :=
  s.execA 0x68 e w true fun s =>
    let x := s.engine e
    let a := (x.reg w.a.toNat).toNat
    let len := (x.reg w.b.toNat).toNat
    let slot := ckSlot x (s.roleOf e)
    if !s.holds e then s.trap e .norole 0x68 1
    else if len % 64 ≠ 0 ∨ len < 64 ∨ 32704 < len ∨ a % 64 ≠ 0 then s.trap e .ckptLen (w64 len) 1
    else if localSize < a + len then s.trap e .space (w64 (max a localSize)) 1
    else if !inTarn slot 0x10000 then
      s.trap e .space (w64 (if slot < 0x10000000 ∨ 0x10000000 + tarnSize ≤ slot then slot else 0x10000000 + tarnSize)) 1
    else
      let d := s.readLocal e a len
      if d.bad then d.st.trap e .uncorrData (w64 a) 1 else
      let (cur, s) := d.st.currentBank (slot - 0x10000000)
      let (bank, seq) := match cur with
        | none => (0, 1)
        | some (i, c) => (1 - i, (c.seq + 1) % 2 ^ 64)
      let hd := leBytes 8 seq ++ leBytes 8 x.line.toNat ++ leBytes 4 x.claim.toNat ++ leBytes 4 len ++ leBytes 4 (s.roleOf e)
      let crc := crc32c (hd ++ d.bytes)
      let base := slot - 0x10000000 + bank * 0x8000
      let s := s.writeTarnGuarded (base + 64) d.bytes true
      let s := s.writeTarnGuarded base (hd ++ leBytes 4 crc.toNat ++ List.replicate 32 0) true
      s.setD e w.d (w64 seq)

def execCkpt (e : Eng) (w : FmtA) (s : State) : Host.Outcome State Fault Refusal := .next (doCkpt e w s)

/-- RSTR (R73): the current checkpoint of role g[b] & 0xF into the local store. No CKPT rewrites the bank during the copy, so one
attempt decides. -/
def doRstr (e : Eng) (w : FmtA) (s : State) : State :=
  s.execA 0x69 e w true fun s =>
    let x := s.engine e
    let a := (x.reg w.a.toNat).toNat
    let slot := ckSlot x ((x.reg w.b.toNat).toNat % 16)
    if a % 64 ≠ 0 then s.trap e .align (w64 a) 1
    else if localSize ≤ a then s.trap e .space (w64 a) 1
    else if !inTarn slot 0x10000 then s.trap e .space (w64 slot) 1
    else match s.currentBank (slot - 0x10000000) with
      | (none, s) => s.setD e w.d (BitVec.allOnes 64)
      | (some (_, c), s) =>
        if localSize < a + c.data.length then s.trap e .space (w64 a) 1
        else
          let s := s.writeLocal e a c.data
          let s := s.setEngine e { s.engine e with line := c.line }
          s.setD e w.d (w64 c.data.length)

def execRstr (e : Eng) (w : FmtA) (s : State) : Host.Outcome State Fault Refusal := .next (doRstr e w s)

end Sys2Proof.Machine
end

