-- ==== Sys2Proof/Machine/Control.lean ====
section
/-! DEFINITION. Branches, traps, halting, special registers, the self-test and the fence (R51, R60, R61, R75). -/

namespace Sys2Proof.Machine

/-- Takes a branch or jump to a target, or traps ALIGN or SPACE at the branch with s.eval set to the target (R61). `x` holds
the link register already written. -/
def State.jumpTo (s : State) (e : Nat) (x : Engine) (target : DWord) : State :=
  if target.toNat % 4 ≠ 0 then s.trap e .align target 1
  else if localSize ≤ target.toNat then s.trap e .space target 1
  else s.setEngine e { x with pc := target.setWidth 32, steps := x.steps + 1 }

/-- BR (R61). -/
def doBr (e : Eng) (w : FmtB) (s : State) : State :=
  s.execAt e 1 (wordB 0x30 w) (guardOf w.n w.p) true fun s =>
    let x := s.engine e
    let target := x.pc.setWidth 64 + 4 * w.disp.signExtend 64
    s.jumpTo e (if w.l then x.setReg 31 (x.pc.setWidth 64 + 4) else x) target

def execBr (e : Eng) (w : FmtB) (s : State) : Host.Outcome State Fault Refusal := .next (doBr e w s)

/-- JMPR (R61): B and FN must be 0. -/
def doJmpr (e : Eng) (w : FmtA) (s : State) : State :=
  s.execA 0x31 e w (w.b = 0 ∧ w.fn = 0) fun s =>
    let x := s.engine e
    s.jumpTo e (x.setReg w.d.toNat (x.pc.setWidth 64 + 4)) (x.reg w.a.toNat)

def execJmpr (e : Eng) (w : FmtA) (s : State) : Host.Outcome State Fault Refusal := .next (doJmpr e w s)

/-- TRAP (R61): D, A and B must be 0; s.eval = FN. -/
def doTrap (e : Eng) (w : FmtA) (s : State) : State :=
  s.execA 0x32 e w (w.d = 0 ∧ w.a = 0 ∧ w.b = 0) fun s => s.trap e .swtrap (w.fn.setWidth 64) 1

def execTrap (e : Eng) (w : FmtA) (s : State) : Host.Outcome State Fault Refusal := .next (doTrap e w s)

/-- RETT (R61): traps ILLEGAL outside a trap handler. -/
def doRett (e : Eng) (w : FmtA) (s : State) : State :=
  s.execA 0x33 e w true fun s =>
    let x := s.engine e
    if x.status.toNat % 2 = 0 then s.trap e .illegal ((wordA 0x33 w).setWidth 64) 1
    else
      let ilen := x.status.toNat / 2
      let pc := if w.fn.toNat % 2 = 1 then x.epc + w32 (4 * ilen) else x.epc
      s.setEngine e { x with pc := pc, status := BitVec.ofNat 3 (2 * ilen), steps := x.steps + 1 }

def execRett (e : Eng) (w : FmtA) (s : State) : Host.Outcome State Fault Refusal := .next (doRett e w s)

/-- HALT (R61): state Halted, claim and role unchanged. -/
def doHalt (e : Eng) (w : FmtA) (s : State) : State :=
  s.execA 0x34 e w true fun s => (s.retire e (s.engine e) 1).stopEngine e esHalted

def execHalt (e : Eng) (w : FmtA) (s : State) : Host.Outcome State Fault Refusal := .next (doHalt e w s)

/-- NOP (R61): D, A, B and FN must be 0. -/
def doNop (e : Eng) (w : FmtA) (s : State) : State :=
  s.execA 0x35 e w (w.d = 0 ∧ w.a = 0 ∧ w.b = 0 ∧ w.fn = 0) fun s => s.retire e (s.engine e) 1

def execNop (e : Eng) (w : FmtA) (s : State) : Host.Outcome State Fault Refusal := .next (doNop e w s)

/-- s.role of an engine: [4] HOLDS, [3:0] the role held (R51). -/
def State.sRole (s : State) (e : Nat) : Nat := if s.holds e then 16 + s.roleOf e else 0

/-- The value of special register `n` at engine `e` (R51); none for a number not in the table. -/
def State.mfsVal (s : State) (e n : Nat) : Option DWord :=
  let x := s.engine e
  if n = 0x000 then some (w64 e)
  else if n = 0x001 then some (w64 (s.sRole e))
  else if n = 0x002 then some (x.claim.setWidth 64)
  else if n = 0x003 then some x.line
  else if n = 0x004 then some (x.gsel.setWidth 64)
  else if n = 0x005 then
    some (if s.on F.ENG_SLACK_VALID x.gsel.toNat then BitVec.ofInt 64 (s.getI F.ENG_SLACK_VALUE x.gsel.toNat) else 0x7FFFFF)
  else if n = 0x006 then some (w64 s.pos)
  else if 0x008 ≤ n ∧ n ≤ 0x00B then some (w64 (s.tbNs (n - 8)))
  else if 0x010 ≤ n ∧ n ≤ 0x017 then some (s.flineOf (n - 0x10))
  else if n = 0x020 then some (x.epc.setWidth 64)
  else if n = 0x021 then some (x.ecause.setWidth 64)
  else if n = 0x022 then some x.eval
  else if n = 0x023 then some (x.tvec.setWidth 64)
  else if n = 0x024 then some (x.status.setWidth 64)
  else if n = 0x028 then some x.steps
  else if n = 0x029 then some (x.msrc.setWidth 64)
  else if n = 0x02A then some (match x.dmacq with
    | [] => 0
    | v :: _ => if x.dmaLost then v ||| (1 <<< 62) else v)
  else if n = 0x02B then some (x.ckbase.setWidth 64)
  else none

/-- What reading a special register leaves behind: s.dmacq loses its oldest entry (R51, R68). -/
def Engine.afterMfs (x : Engine) (n : Nat) : Engine :=
  if n = 0x02A then { x with dmacq := x.dmacq.tail, dmaLost := if x.dmacq.isEmpty then x.dmaLost else false } else x

/-- MFS (R51). -/
def doMfs (e : Eng) (w : FmtS) (s : State) : State :=
  s.execAt e 1 (wordS 0x38 w) (guardOf w.n w.p) (s.mfsVal e w.sr.toNat).isSome fun s =>
    s.retire e (((s.engine e).afterMfs w.sr.toNat).setReg w.d.toNat ((s.mfsVal e w.sr.toNat).getD 0)) 1

def execMfs (e : Eng) (w : FmtS) (s : State) : Host.Outcome State Fault Refusal := .next (doMfs e w s)

/-- The engine after a write of special register `n` (R51); none for a register marked RO or not in the table. -/
def Engine.mts (x : Engine) (n : Nat) (v : DWord) : Option Engine :=
  match n with
  | 0x003 => some { x with line := v }
  | 0x004 => some { x with gsel := v.setWidth 4 }
  | 0x020 => some { x with epc := v.setWidth 32 }
  | 0x021 => some { x with ecause := v.setWidth 8 }
  | 0x022 => some { x with eval := v }
  | 0x023 => some { x with tvec := v.setWidth 32 }
  | 0x024 => some { x with status := v.setWidth 3 }
  | 0x02B => some { x with ckbase := v.setWidth 32 &&& 0xFFFF0000 }
  | _ => none

/-- MTS (R51): writes g[A]. -/
def doMts (e : Eng) (w : FmtS) (s : State) : State :=
  s.execAt e 1 (wordS 0x39 w) (guardOf w.n w.p) (Engine.reset.mts w.sr.toNat 0).isSome fun s =>
    let x := s.engine e
    s.retire e ((x.mts w.sr.toNat (x.reg w.a.toNat)).getD x) 1

def execMts (e : Eng) (w : FmtS) (s : State) : Host.Outcome State Fault Refusal := .next (doMts e w s)

/-- SELFT (R75): A, B and FN must be 0. The mismatch word, 0 when the test passes, is what the built-in self-test finds. -/
def doSelft (e : Eng) (w : FmtA) (mismatch : DWord) (s : State) : State :=
  s.execA 0x3A e w (w.a = 0 ∧ w.b = 0 ∧ w.fn = 0) fun s => s.setD e w.d mismatch

def execSelft (e : Eng) (w : FmtA) (mismatch : DWord) (s : State) : Host.Outcome State Fault Refusal :=
  .next (doSelft e w mismatch s)

/-- FENCE (R60): every field other than OP must be 0. Every earlier access has been performed in order already (log entry
5), so it only retires. -/
def doFence (e : Eng) (w : FmtA) (s : State) : State :=
  s.execA 0x23 e w (w.n = false ∧ w.p = 0 ∧ w.d = 0 ∧ w.a = 0 ∧ w.b = 0 ∧ w.fn = 0) fun s => s.retire e (s.engine e) 1

def execFence (e : Eng) (w : FmtA) (s : State) : Host.Outcome State Fault Refusal := .next (doFence e w s)

end Sys2Proof.Machine
end

