-- ==== Sys2Proof/Machine/EngIo.lean ====
section
/-! DEFINITION. Loads and stores of the engines (R58, R59): the local store, Tarn and the io space of R35. -/

namespace Sys2Proof.Machine

/-- Whether `n` bytes at an engine address lie in the io space (R35). -/
def inIo (a n : Nat) : Bool := 0x20000000 ≤ a && a + n ≤ 0x20200000

/-- The value of the bytes loaded, extended to 64 bits by its sign or by zeros (R58). -/
def extendLoad (sgn : Bool) (n v : Nat) : DWord :=
  if sgn then (BitVec.ofNat (8 * n) v).signExtend 64 else w64 v

/-- A load of 2^sz bytes at an address into register `d` (R58). -/
def State.loadMem (s : State) (e : Nat) (d : BitVec 5) (a : DWord) (sz : Nat) (sgn : Bool) (words : Nat) : State :=
  let n := 2 ^ sz
  let k := a.toNat
  if k % n ≠ 0 then s.trap e .align a words
  else if inLocal k n || inTarn k n then
    let r := if inLocal k n then s.readLocal e k n else s.readTarn (k - 0x10000000) n
    if r.bad then r.st.trap e .uncorrData a words else r.st.setD e d (extendLoad sgn n (leNat r.bytes)) words
  else if !inIo k n then s.trap e .space a words
  else if sz ≠ 2 then s.trap e .align a words
  else if (regBehind (k - 0x20000000)).isNone then s.trap e .ioErr a words
  else
    let (w, s) := s.ioRead (k - 0x20000000)
    s.setD e d (extendLoad sgn 4 w.toNat) words

/-- A store of the low 2^sz bytes of register `d` (R58). A store to SYS.RST that resets the device leaves nothing to retire. -/
def State.storeMem (s : State) (e : Eng) (d : BitVec 5) (a : DWord) (sz words : Nat) : State :=
  let n := 2 ^ sz
  let k := a.toNat
  let v := (s.engine e).reg d.toNat
  let bs := leBytes n v.toNat
  if k % n ≠ 0 then s.trap e .align a words
  else if inLocal k n then
    let s := s.writeLocal e k bs true
    s.retire e (s.engine e) words
  else if inTarn k n then
    let s := s.writeTarnGuarded (k - 0x10000000) bs true
    s.retire e (s.engine e) words
  else if !inIo k n then s.trap e .space a words
  else if sz ≠ 2 then s.trap e .align a words
  else if (regBehind (k - 0x20000000)).isNone then s.trap e .ioErr a words
  else
    let s := doRegisterWrite (.engine e) (BitVec.ofNat 21 (k - 0x20000000)) (w32 v.toNat) s
    if s.dev = stReset then s else s.retire e (s.engine e) words

/-- The effective address of LD and ST (R58). -/
def State.addrM (s : State) (e : Nat) (w : FmtM) : DWord := (s.engine e).reg w.a.toNat + w.off.signExtend 64 * w64 (2 ^ w.sz.toNat)

/-- The effective address of LDX and STX (R58). -/
def State.addrX (s : State) (e : Nat) (w : FmtX) : DWord := (s.engine e).reg w.a.toNat + sext32 w.imm

/-- LD (R58): S = 1 with SZ = 3 traps ILLEGAL. -/
def doLd (e : Eng) (w : FmtM) (s : State) : State :=
  s.execAt e 1 (wordM 0x20 w) (fun _ => true) (!(w.s && w.sz == 3)) fun s => s.loadMem e w.d (s.addrM e w) w.sz.toNat w.s 1

def execLd (e : Eng) (w : FmtM) (s : State) : Host.Outcome State Fault Refusal := .next (doLd e w s)

/-- ST (R58): S = 1 traps ILLEGAL. -/
def doSt (e : Eng) (w : FmtM) (s : State) : State :=
  s.execAt e 1 (wordM 0x21 w) (fun _ => true) (!w.s) fun s => s.storeMem e w.d (s.addrM e w) w.sz.toNat 1

def execSt (e : Eng) (w : FmtM) (s : State) : Host.Outcome State Fault Refusal := .next (doSt e w s)

/-- LDX (R58): S is FN[2], SZ is FN[1:0], and FN[10:3] must be 0. -/
def doLdx (e : Eng) (w : FmtX) (s : State) : State :=
  let sz := w.fn.toNat % 4
  let sgn := w.fn.getLsbD 2
  s.execX 0x42 e w (w.fn.toNat < 8 && !(sgn && sz == 3)) fun s => s.loadMem e w.d (s.addrX e w) sz sgn 2

def execLdx (e : Eng) (w : FmtX) (s : State) : Host.Outcome State Fault Refusal := .next (doLdx e w s)

/-- STX (R58). -/
def doStx (e : Eng) (w : FmtX) (s : State) : State :=
  s.execX 0x43 e w (w.fn.toNat < 4) fun s => s.storeMem e w.d (s.addrX e w) (w.fn.toNat % 4) 2

def execStx (e : Eng) (w : FmtX) (s : State) : Host.Outcome State Fault Refusal := .next (doStx e w s)

end Sys2Proof.Machine
end

