-- ==== Sys2Proof/Machine/EngMem.lean ====
section
/-! DEFINITION. Tarn atomics, engine DMA, program images and the cold takeover (R60, R67, R68, R79 to R81, R361, R441). -/

namespace Sys2Proof.Machine

/-! ### Atomics (R60) -/

/-- What ATOM stores (R60), none where the compare fails. -/
def atomNew (fn : Nat) (old d b : DWord) : Option DWord :=
  match fn with
  | 0 => if old = d then some b else none
  | 1 => some (old + b)
  | _ => some b

/-- ATOM (R60): FN 0 compare-and-swap, 1 fetch-and-add, 2 swap. -/
def doAtom (e : Eng) (w : FmtA) (s : State) : State :=
  s.execA 0x22 e w (w.fn.toNat < 3) fun s =>
    let x := s.engine e
    let a := x.reg w.a.toNat
    if !inTarn a.toNat 8 then s.trap e .space a 1
    else if a.toNat % 8 ≠ 0 then s.trap e .align a 1
    else
      let r := s.readTarn (a.toNat - 0x10000000) 8
      let s := r.st
      if r.bad then s.trap e .uncorrData a 1
      else
        let old := w64 (leNat r.bytes)
        let s := match atomNew w.fn.toNat old (x.reg w.d.toNat) (x.reg w.b.toNat) with
          | some v => s.writeTarnGuarded (a.toNat - 0x10000000) (leBytes 8 v.toNat) true
          | none => s
        s.setD e w.d old

def execAtom (e : Eng) (w : FmtA) (s : State) : Host.Outcome State Fault Refusal := .next (doAtom e w s)

/-! ### DMA (R67, R68, R361) -/

/-- Whether a range of a space lies in it: DRAM is checked at the transfer. -/
def dmaRange (sp a n : Nat) : Bool :=
  match sp with
  | 0 => inLocal a n
  | 1 => inTarn a n
  | _ => true

/-- The descriptor in 32 bytes (R67), none where its form is wrong. -/
def dmaForm (bs : List Byte) : Option DmaJob :=
  let w := fun k => wordAt bs k
  let j : DmaJob :=
    { srcSp := fieldOf (w 0) 28 4, dstSp := fieldOf (w 0) 24 4, tag := fieldOf (w 0) 0 16, len := (w 1).toNat,
      src := (w 2).toNat + 2 ^ 32 * fieldOf (w 3) 0 8, dst := (w 4).toNat + 2 ^ 32 * fieldOf (w 5) 0 8, ev := fieldOf (w 6) 31 1 == 1 }
  if 2 < j.srcSp ∨ 2 < j.dstSp ∨ (j.srcSp = 0 ∧ j.dstSp = 0) ∨ fieldOf (w 0) 16 8 ≠ 0 ∨ fieldOf (w 3) 8 24 ≠ 0 ∨ fieldOf (w 5) 8 24 ≠ 0 ∨
      fieldOf (w 6) 0 31 ≠ 0 ∨ w 7 ≠ 0 ∨ j.len % 8 ≠ 0 ∨ j.len < 8 ∨ 16777216 < j.len ∨ !dmaRange j.srcSp j.src j.len ∨
      !dmaRange j.dstSp j.dst j.len then none
  else some j

/-- A completion enters the engine's queue of 8 (R68), and its event is posted when EV is 1. -/
def State.dmaEntry (s : State) (e : Nat) (j : DmaJob) (status : Nat) : State :=
  let x := s.engine e
  let v := w64 (2 ^ 63 + status * 2 ^ 32 + j.tag)
  let full := 8 ≤ x.dmacq.length
  let s := s.setEngine e { x with dmacq := (if full then x.dmacq.drop 1 else x.dmacq) ++ [v], dmaLost := x.dmaLost || full }
  if j.ev then s.postEvent (0x0A2 + e) else s

/-- A descriptor goes into flight; while the channel is halted it transfers nothing and completes with status 3 (R361). -/
def State.dmaIssue (s : State) (e : Nat) (j : DmaJob) (d : BitVec 5) : State :=
  let s :=
    if bitN (s.get F.TARN_DMAHALT_HALT) e = 1 then s.dmaEntry e j 3
    else
      let x := s.engine e
      (s.setEngine e { x with dma := x.dma ++ [j] }).set F.ENG_ESTAT_DMAFLT (x.dma.length + 1) e
  s.setD e d 0

/-- DMA (R67): B and FN must be 0. -/
def doDma (e : Eng) (w : FmtA) (s : State) : State :=
  s.execA 0x58 e w (w.b = 0 ∧ w.fn = 0) fun s =>
    let x := s.engine e
    let a := x.reg w.a.toNat
    if a.toNat % 32 ≠ 0 then s.trap e .align a 1
    else if !(inLocal a.toNat 32 || inTarn a.toNat 32) then s.trap e .space a 1
    else
      let r := s.readEng e a.toNat 32
      let s := r.st
      if r.bad then s.trap e .uncorrData a 1
      else match dmaForm r.bytes with
        | none => s.trap e .dmaForm a 1
        | some j =>
          if 8 ≤ (s.engine e).dma.length then s.setEngine e { s.engine e with stall := some (.dma j w.d) } else s.dmaIssue e j w.d

def execDma (e : Eng) (w : FmtA) (s : State) : Host.Outcome State Fault Refusal := .next (doDma e w s)

/-- Reads a beat of a transfer's source. -/
def State.dmaRead (s : State) (e sp a n : Nat) : List Byte × Bool × State :=
  match sp with
  | 0 => let r := s.readLocal e a n; (r.bytes, r.bad, r.st)
  | 1 => let r := s.readTarn (a - 0x10000000) n; (r.bytes, r.bad, r.st)
  | _ => let r := s.readDram a n; (r.bytes, r.bad, r.st)

/-- Writes a beat to a transfer's destination. -/
def State.dmaWrite (s : State) (e sp a : Nat) (bs : List Byte) : State :=
  match sp with
  | 0 => s.writeLocal e a bs
  | 1 => s.writeTarnGuarded (a - 0x10000000) bs false
  | _ => s.writeDram a bs

/-- Copies `n` bytes beat by beat, at most `k` beats; the status is 2 at a beat with an uncorrectable error (R67). -/
def dmaBeats (e sp dp : Nat) : (k src dst n : Nat) → State → Nat × State
  | 0, _, _, _, s => (0, s)
  | k + 1, src, dst, n, s =>
    if n = 0 then (0, s)
    else
      let m := min n (64 - src % 64)
      let (bs, bad, s) := s.dmaRead e sp src m
      if bad then (2, s) else dmaBeats e sp dp k (src + m) (dst + m) (n - m) (s.dmaWrite e dp dst bs)

/-- The transfer of a descriptor and its status (R67). -/
def State.dmaTransfer (s : State) (e : Nat) (j : DmaJob) : Nat × State :=
  if j.srcSp = 2 ∧ !s.dramOk j.src j.len then (1, s.dramRange j.src)
  else if j.dstSp = 2 ∧ !s.dramOk j.dst j.len then (1, s.dramRange j.dst)
  else dmaBeats e j.srcSp j.dstSp (j.len / 64 + 2) j.src j.dst j.len s

/-- DMA_COMPLETION (R67, R68): the descriptor in place `k` of engine `e` ends; with status 2 the channel halts (R361). A DMA
instruction that waits for a place is issued. -/
def doDmaCompletion (e : Eng) (k : Fin 8) (s : State) : State :=
  match (s.engine e).dma[k.val]? with
  | none => s
  | some j =>
    let (st, s) := s.dmaTransfer e j
    let s := if st = 2 then s.set F.TARN_DMAHALT_HALT (Nat.lor (s.get F.TARN_DMAHALT_HALT) (2 ^ e.val)) else s
    let x := s.engine e
    let s := (s.setEngine e { x with dma := x.dma.eraseIdx k.val }).set F.ENG_ESTAT_DMAFLT (x.dma.length - 1) e
    let s := s.dmaEntry e j st
    match (s.engine e).stall with
    | some (.dma j' d) => (s.setEngine e { s.engine e with stall := none }).dmaIssue e j' d
    | _ => s

def execDmaCompletion (e : Eng) (k : Fin 8) (s : State) : Host.Outcome State Fault Refusal := .next (doDmaCompletion e k s)

/-! ### Program images (R79 to R81) -/

/-- The header of a program image (R79). -/
structure ImgHdr where
  entry : Nat
  text : Nat
  data : Nat
  bss : Nat
  tvec : Nat
  roles : Nat
  nroute : Nat
  ckbase : Nat
  crc : Nat

/-- The header in the first 64 bytes of an image. -/
def imgHdr (b : List Byte) : ImgHdr :=
  { entry := leNat ((b.drop 0x0C).take 4), text := leNat ((b.drop 0x10).take 4), data := leNat ((b.drop 0x14).take 4),
    bss := leNat ((b.drop 0x18).take 4), tvec := leNat ((b.drop 0x1C).take 4), roles := leNat ((b.drop 0x20).take 4),
    nroute := leNat ((b.drop 0x24).take 4), ckbase := leNat ((b.drop 0x2C).take 4), crc := leNat ((b.drop 0x30).take 4) }

/-- The bytes of the route table with its padding. -/
def ImgHdr.routeBytes (h : ImgHdr) : Nat := (h.nroute * 4 + 63) / 64 * 64
/-- The bytes of the whole image. -/
def ImgHdr.size (h : ImgHdr) : Nat := 64 + h.routeBytes + h.text + h.data

/-- Whether the fields of code 2 are right, the route table apart (R80). -/
def imgForm (b : List Byte) : Bool :=
  let f := fun o => leNat ((b.drop o).take 4)
  let h := imgHdr b
  f 0 == 0x4A4E5559 && f 4 == 1 && f 8 ≤ 1 && f 0x28 ≤ 32704 && h.entry % 4 == 0 && h.text % 64 == 0 && h.data % 64 == 0 && h.bss % 64 == 0 &&
    h.roles < 65536 && h.nroute ≤ 64 && (b.drop 0x34).all (· == 0)

/-- A route entry without a wrong bit (R79). -/
def routeForm (w : Word) : Bool := fieldOf w 22 9 == 0 && fieldOf w 10 6 == 0

/-- Whether an image is marked verified (R477). -/
def State.imageVerified (s : State) (a : Nat) : Bool :=
  (List.range 8).any (fun k => s.get F.SEC_VBASE_VALUE k == a && s.get F.SEC_VLEN_VALUE k / 2 ^ 29 == 1)

/-- The checks of R80 on an image at engine address `a` for target `t`, in their order: the code, and the state after the reads.
`self`: the executing engine. -/
def State.imageCode (s : State) (a t : Nat) (self : Option Nat) : Nat × State :=
  if 17 < t then (6, s)
  else if self = some t ∨ (s.estate t ≠ esCold ∧ s.estate t ≠ esHalted) then (1, s)
  else if s.get F.SEC_LCS_STATE = lsCertified ∧ !s.imageVerified a then (4, s)
  else if a % 64 ≠ 0 ∨ !inTarn a 64 then (2, s)
  else
    let r := s.readTarn (a - 0x10000000) 64
    let s := r.st
    let h := imgHdr r.bytes
    if r.bad then (3, s)
    else if !imgForm r.bytes ∨ !inTarn a h.size then (2, s)
    else
      let q := s.readTarn (a - 0x10000000 + 64) h.routeBytes
      let s := q.st
      if q.bad then (3, s)
      else if !(List.range h.nroute).all (fun i => routeForm (wordAt q.bytes i)) then (2, s)
      else if localSize < h.text + h.data + h.bss ∨ h.text ≤ h.entry then (5, s)
      else
        let d := s.readTarn (a - 0x10000000 + 64 + h.routeBytes) (h.text + h.data)
        if d.bad then (3, d.st)
        else if crc32c (r.bytes.take 0x30 ++ [0, 0, 0, 0] ++ r.bytes.drop 0x34 ++ q.bytes ++ d.bytes) ≠ w32 h.crc then (3, d.st)
        else (0, d.st)

/-- Step 1 of R81: the target enters Loading; its queues and inputs are emptied, and a halted DMA channel resumes (R361). -/
def State.startLoad (s : State) (t : Nat) (l : LoadJob) : State :=
  let s := s.setEngine t { s.engine t with mailbox := [], dmacq := [], dmaLost := false, wait := none, stall := none, loading := some l }
  let s := (List.range 64).foldl (fun s i => (s.set F.ENG_EVROUTE_EN 0 t i).set F.ENG_EVROUTE_COUNT 0 t i) s
  let s := s.set F.TARN_DMAHALT_HALT (s.get F.TARN_DMAHALT_HALT - bitN (s.get F.TARN_DMAHALT_HALT) t * 2 ^ t)
  s.setEstate t esLoading

/-- ELOAD (R80): FN must be 0. -/
def doEload (e : Eng) (w : FmtA) (s : State) : State :=
  s.execA 0x6C e w (w.fn = 0) fun s =>
    let x := s.engine e
    let a := (x.reg w.a.toNat).toNat
    let t := (x.reg w.b.toNat).toNat
    let r := s.imageCode a t (some e)
    let s := r.2
    if r.1 = 0 then
      let s := s.startLoad t { addr := a, by_ := some e.val, role := 0, epoch := 0 }
      s.setEngine e { s.engine e with stall := some (.eload t w.d) }
    else s.setD e w.d (w64 r.1)

def execEload (e : Eng) (w : FmtA) (s : State) : Host.Outcome State Fault Refusal := .next (doEload e w s)

/-- One entry of a route table is applied (R81). -/
def State.applyRoute (s : State) (t : Nat) (w : Word) : State :=
  let i := fieldOf w 16 6
  (s.set F.ENG_EVROUTE_EN (fieldOf w 31 1) t i).set F.ENG_EVROUTE_SRC (fieldOf w 0 10) t i

/-- Steps 2 to 4 of R81. -/
def State.startImage (s : State) (t addr : Nat) : State :=
  let a := addr - 0x10000000
  let r := s.readTarn a 64
  let h := imgHdr r.bytes
  let q := r.st.readTarn (a + 64) h.routeBytes
  let d := q.st.readTarn (a + 64 + h.routeBytes) (h.text + h.data)
  let s := (d.st.writeLocal t 0 d.bytes).writeLocal t (h.text + h.data) (List.replicate h.bss 0)
  let s := (List.range h.nroute).foldl (fun s i => s.applyRoute t (wordAt q.bytes i)) s
  let s := s.setEngine t { s.engine t with
    g := [], p := 0, line := 0, gsel := 0, status := 0, steps := 0, claim := 0, tvec := w32 h.tvec, ckbase := w32 (h.ckbase / 65536 * 65536),
    roles := BitVec.ofNat 16 h.roles, pc := w32 h.entry, loading := none }
  ((s.set F.ENG_ESTAT_ROLE 0 t).set F.ENG_ESTAT_HOLDS 0 t).setEstate t esRunning

/-- Step 4 of R441: the spare's message, its POOL bit, and BUSY. -/
def State.endTakeover (s : State) (t role epoch : Nat) : State :=
  let s := s.seqMail t (w64 role) (w64 epoch)
  let pool := s.get F.SPR_POOL_ENG
  (s.set F.SPR_POOL_ENG (pool - bitN pool t * 2 ^ t)).set F.SPR_TKSTAT_BUSY 0

/-- IMAGE_START (R81, R441, R477). -/
def doImageStart (e : Eng) (s : State) : State :=
  match (s.engine e).loading with
  | none => s
  | some l =>
    let s := s.startImage e l.addr
    let s := s.sec.relPend.foldl (fun s k => if s.get F.SEC_VBASE_VALUE k = l.addr then s.freeVerified k else s) s
    match l.by_ with
    | none => s.endTakeover e l.role l.epoch
    | some i =>
      match (s.engine i).stall with
      | some (.eload t d) => if t = e.val then (s.setEngine i { s.engine i with stall := none }).setD i d 0 else s
      | _ => s

def execImageStart (e : Eng) (s : State) : Host.Outcome State Fault Refusal := .next (doImageStart e s)

/-! ### Cold takeover (R441) -/

/-- Step 3: tries the engines from `18 - n` on; a refused load marks the engine failed and the next one is tried. -/
def takeSpare (r old addr epoch : Nat) : Nat → State → Bool × State
  | 0, s => (false, s)
  | n + 1, s =>
    let t := 17 - n
    let fits := t ≠ old ∧ bitN (s.get F.SPR_POOL_ENG) t = 1 ∧ bitN (s.get F.SPR_FAILED_ENG) t = 0 ∧ (s.estate t = esCold ∨ s.estate t = esHalted)
    if fits then
      let c := s.imageCode addr t none
      let s := c.2
      if c.1 = 0 then (true, (s.set F.SPR_TKSTAT_ENGINE t).startLoad t { addr := addr, by_ := none, role := r, epoch := epoch })
      else takeSpare r old addr epoch n ((s.setFailed t).report C.spr_diag_fail (mkArg none (some r) t))
    else takeSpare r old addr epoch n s

/-- COLD_TAKEOVER of role `r` (R439, R441): the lowest role whose trigger waits, while no takeover is in progress. -/
def doColdTakeover (r : Fin 16) (s : State) : State :=
  if !s.takeoverAllowed || s.on F.SPR_TKSTAT_BUSY || listMin? s.spr.pendingTake != some r.val then s
  else
    let s := { s with spr := { s.spr with pendingTake := s.spr.pendingTake.filter (· ≠ r.val) } }
    match s.holderOf r with
    | none => s
    | some h =>
      let s := ((s.set F.SPR_TKSTAT_BUSY 1).set F.SPR_TKSTAT_ROLE r).bump F.SPR_TKSTAT_COUNT
      let s := s.report C.spr_takeover (mkArg none (some r.val) h)
      let s := if s.estate h = esHalted then s else s.stopEngine h esHalted
      let addr := s.get F.SPR_IMG_ADDR r * 64
      let epoch := s.get F.SPR_RCLAIM_CLAIM r / 32 + 1
      if addr = 0 then (s.set F.SPR_TKSTAT_BUSY 0).report C.spr_no_spare (mkArg none (some r.val) h)
      else
        let p := takeSpare r h addr epoch 18 s
        let s := p.2
        if p.1 then s else (s.set F.SPR_TKSTAT_BUSY 0).report C.spr_no_spare (mkArg none (some r.val) h)

def execColdTakeover (r : Fin 16) (s : State) : Host.Outcome State Fault Refusal := .next (doColdTakeover r s)

end Sys2Proof.Machine
end

