-- ==== Sys2Proof/Machine/Integer.lean ====
section
/-! DEFINITION. The integer, predicate and constant instructions (R56, R57). -/

namespace Sys2Proof.Machine

/-- The number of set bits among the low `n` bits. -/
def popCount : Nat → Nat → Nat
  | 0, _ => 0
  | n + 1, v => v % 2 + popCount n (v / 2)

/-- The integer operation FN of ALU (R56); none for a value not defined, and for CLZ and POPC with B ≠ 0. -/
def aluFn (fn : Nat) (breg : BitVec 5) (a b : DWord) : Option DWord :=
  let n := b.toNat % 64
  match fn with
  | 0x00 => some (a + b)
  | 0x01 => some (a - b)
  | 0x02 => some (a &&& b)
  | 0x03 => some (a ||| b)
  | 0x04 => some (a ^^^ b)
  | 0x05 => some (a &&& ~~~b)
  | 0x06 => some (a <<< n)
  | 0x07 => some (a >>> n)
  | 0x08 => some (a.sshiftRight n)
  | 0x09 => some (if a.slt b then a else b)
  | 0x0A => some (if a.slt b then b else a)
  | 0x0B => some (if a.ult b then a else b)
  | 0x0C => some (if a.ult b then b else a)
  | 0x0D => if breg = 0 then some (if a = 0 then 64 else w64 (63 - Nat.log2 a.toNat)) else none
  | 0x0E => if breg = 0 then some (w64 (popCount 64 a.toNat)) else none
  | _ => none

/-- The product FN of MUL (R56). -/
def mulFn (fn : Nat) (a b : DWord) : Option DWord :=
  match fn with
  | 0 => some (a * b)
  | 1 => some (w64 (a.toNat * b.toNat / 2 ^ 64))
  | 2 => some (BitVec.ofInt 64 (a.toInt * b.toInt / 2 ^ 64))
  | _ => none

/-- The quotient or remainder FN of DIV (R56), for a non-zero divisor. -/
def divFn (fn : Nat) (a b : DWord) : Option DWord :=
  match fn with
  | 0 => some (a / b)
  | 1 => some (a % b)
  | 2 => some (a.sdiv b)
  | 3 => some (a.srem b)
  | _ => none

/-- ALU (R56). -/
def doAlu (e : Eng) (w : FmtA) (s : State) : State :=
  s.execA 0x01 e w (aluFn w.fn.toNat w.b 0 0).isSome fun s =>
    let x := s.engine e
    s.setD e w.d ((aluFn w.fn.toNat w.b (x.reg w.a.toNat) (x.reg w.b.toNat)).getD 0)

def execAlu (e : Eng) (w : FmtA) (s : State) : Host.Outcome State Fault Refusal := .next (doAlu e w s)

/-- CMP (R56): writes p[D & 7]; D[4:3] must be 0. -/
def doCmp (e : Eng) (w : FmtA) (s : State) : State :=
  s.execA 0x02 e w ((cmpFn w.fn.toNat 0 0).isSome && w.d.toNat < 8) fun s =>
    let x := s.engine e
    s.retire e (x.setPred (w.d.toNat % 8) ((cmpFn w.fn.toNat (x.reg w.a.toNat) (x.reg w.b.toNat)).getD false)) 1

def execCmp (e : Eng) (w : FmtA) (s : State) : Host.Outcome State Fault Refusal := .next (doCmp e w s)

/-- PLOG (R56): predicates only; bits [4:3] of D, A and B must be 0. -/
def doPlog (e : Eng) (w : FmtA) (s : State) : State :=
  s.execA 0x03 e w ((plogFn w.fn.toNat false false).isSome && w.d.toNat < 8 && w.a.toNat < 8 && w.b.toNat < 8) fun s =>
    let x := s.engine e
    s.retire e (x.setPred w.d.toNat ((plogFn w.fn.toNat (x.pred w.a.toNat) (x.pred w.b.toNat)).getD false)) 1

def execPlog (e : Eng) (w : FmtA) (s : State) : Host.Outcome State Fault Refusal := .next (doPlog e w s)

/-- MUL (R56). -/
def doMul (e : Eng) (w : FmtA) (s : State) : State :=
  s.execA 0x04 e w (mulFn w.fn.toNat 0 0).isSome fun s =>
    let x := s.engine e
    s.setD e w.d ((mulFn w.fn.toNat (x.reg w.a.toNat) (x.reg w.b.toNat)).getD 0)

def execMul (e : Eng) (w : FmtA) (s : State) : Host.Outcome State Fault Refusal := .next (doMul e w s)

/-- DIV (R56): a zero divisor traps DIVZERO with s.eval = 0 (R77). -/
def doDiv (e : Eng) (w : FmtA) (s : State) : State :=
  s.execA 0x05 e w (divFn w.fn.toNat 1 1).isSome fun s =>
    let x := s.engine e
    if x.reg w.b.toNat = 0 then s.trap e .divzero 0 1
    else s.setD e w.d ((divFn w.fn.toNat (x.reg w.a.toNat) (x.reg w.b.toNat)).getD 0)

def execDiv (e : Eng) (w : FmtA) (s : State) : Host.Outcome State Fault Refusal := .next (doDiv e w s)

/-- SEL (R56): FN[2:0] names the predicate, FN[5:3] must be 0. -/
def doSel (e : Eng) (w : FmtA) (s : State) : State :=
  s.execA 0x06 e w (w.fn.toNat < 8) fun s =>
    let x := s.engine e
    s.setD e w.d (if x.pred (w.fn.toNat % 8) then x.reg w.a.toNat else x.reg w.b.toNat)

def execSel (e : Eng) (w : FmtA) (s : State) : Host.Outcome State Fault Refusal := .next (doSel e w s)

/-- MOVI (R57): the half-word FN[1:0], the mode FN[3:2]; mode 3 traps ILLEGAL. -/
def doMovi (e : Eng) (w : FmtI) (s : State) : State :=
  s.execI 0x10 e w (w.fn.toNat < 12) fun s =>
    let x := s.engine e
    let sh := 16 * (w.fn.toNat % 4)
    let v : DWord :=
      match w.fn.toNat / 4 with
      | 0 => zext16 w.imm <<< sh
      | 1 => (x.reg w.d.toNat &&& ~~~((0xFFFF : DWord) <<< sh)) ||| (zext16 w.imm <<< sh)
      | _ => sext16 w.imm <<< sh
    s.setD e w.d v

def execMovi (e : Eng) (w : FmtI) (s : State) : Host.Outcome State Fault Refusal := .next (doMovi e w s)

/-- ADDI (R57): FN must be 0. -/
def doAddi (e : Eng) (w : FmtI) (s : State) : State :=
  s.execI 0x11 e w (w.fn = 0) fun s => s.setD e w.d ((s.engine e).reg w.d.toNat + sext16 w.imm)

def execAddi (e : Eng) (w : FmtI) (s : State) : Host.Outcome State Fault Refusal := .next (doAddi e w s)

/-- The immediate of ANDI, ORI and XORI: zero-extended and placed at half-word FN[1:0] (R57). -/
def logicImm (w : FmtI) : DWord := zext16 w.imm <<< (16 * (w.fn.toNat % 4))

/-- ANDI (R57): FN[3:2] must be 0. -/
def doAndi (e : Eng) (w : FmtI) (s : State) : State :=
  s.execI 0x12 e w (w.fn.toNat < 4) fun s => s.setD e w.d ((s.engine e).reg w.d.toNat &&& logicImm w)

def execAndi (e : Eng) (w : FmtI) (s : State) : Host.Outcome State Fault Refusal := .next (doAndi e w s)

/-- ORI (R57). -/
def doOri (e : Eng) (w : FmtI) (s : State) : State :=
  s.execI 0x13 e w (w.fn.toNat < 4) fun s => s.setD e w.d ((s.engine e).reg w.d.toNat ||| logicImm w)

def execOri (e : Eng) (w : FmtI) (s : State) : Host.Outcome State Fault Refusal := .next (doOri e w s)

/-- XORI (R57). -/
def doXori (e : Eng) (w : FmtI) (s : State) : State :=
  s.execI 0x14 e w (w.fn.toNat < 4) fun s => s.setD e w.d ((s.engine e).reg w.d.toNat ^^^ logicImm w)

def execXori (e : Eng) (w : FmtI) (s : State) : Host.Outcome State Fault Refusal := .next (doXori e w s)

/-- The shift FN of SHI (R57): shl, shr, sar, ror. -/
def shiFn (fn n : Nat) (a : DWord) : Option DWord :=
  match fn with
  | 0 => some (a <<< n)
  | 1 => some (a >>> n)
  | 2 => some (a.sshiftRight n)
  | 3 => some (a.rotateRight n)
  | _ => none

/-- SHI (R57): IMM[15:6] must be 0. -/
def doShi (e : Eng) (w : FmtI) (s : State) : State :=
  s.execI 0x15 e w ((shiFn w.fn.toNat 0 0).isSome && w.imm.toNat < 64) fun s =>
    s.setD e w.d ((shiFn w.fn.toNat (w.imm.toNat % 64) ((s.engine e).reg w.d.toNat)).getD 0)

def execShi (e : Eng) (w : FmtI) (s : State) : Host.Outcome State Fault Refusal := .next (doShi e w s)

/-- The compare-immediate instructions (R57): p[FN & 7] takes the comparison of g[D]; FN[3] must be 0. -/
def cmpImm (op : Nat) (c : DWord → DWord → Bool) (e : Eng) (w : FmtI) (s : State) : State :=
  s.execI op e w (w.fn.toNat < 8) fun s =>
    let x := s.engine e
    s.retire e (x.setPred (w.fn.toNat % 8) (c (x.reg w.d.toNat) (sext16 w.imm))) 1

def execCmpeqi (e : Eng) (w : FmtI) (s : State) : Host.Outcome State Fault Refusal :=
  .next (cmpImm 0x16 (fun a b => a == b) e w s)

def execCmplti (e : Eng) (w : FmtI) (s : State) : Host.Outcome State Fault Refusal :=
  .next (cmpImm 0x17 (fun a b => a.slt b) e w s)

def execCmpltui (e : Eng) (w : FmtI) (s : State) : Host.Outcome State Fault Refusal :=
  .next (cmpImm 0x18 (fun a b => a.ult b) e w s)

/-- MOVX (R57): FN 0 sign-extends, 1 places the immediate in the upper half over g[A], 2 zero-extends. -/
def doMovx (e : Eng) (w : FmtX) (s : State) : State :=
  s.execX 0x40 e w (w.fn.toNat < 3) fun s =>
    let v : DWord :=
      match w.fn.toNat with
      | 0 => sext32 w.imm
      | 1 => (w.imm.setWidth 64 <<< 32) ||| ((s.engine e).reg w.a.toNat &&& 0xFFFFFFFF)
      | _ => w.imm.setWidth 64
    s.setD e w.d v 2

def execMovx (e : Eng) (w : FmtX) (s : State) : Host.Outcome State Fault Refusal := .next (doMovx e w s)

/-- ADDX (R57): FN must be 0. -/
def doAddx (e : Eng) (w : FmtX) (s : State) : State :=
  s.execX 0x41 e w (w.fn = 0) fun s => s.setD e w.d ((s.engine e).reg w.a.toNat + sext32 w.imm) 2

def execAddx (e : Eng) (w : FmtX) (s : State) : Host.Outcome State Fault Refusal := .next (doAddx e w s)

end Sys2Proof.Machine
end

