-- ==== Sys2Proof/Machine/React.lean ====
section
/-! DEFINITION. The fault hub's acknowledgement of a report (R420 to R428, R107), the end of a level condition (R429, R517),
and what a tick of 4 ns does. -/

namespace Sys2Proof.Machine

/-- Whether a report of a code and class makes the standard press program revert a Proving profile (R107). -/
def revertsProfile (code cls : Nat) : Bool := 3 ≤ cls || code == C.eng_deadline_miss || code == C.ibf_underrun

/-- The hub acknowledges the report `r` of a source (R424): steps 1 to 3, the reaction of its class and the watch of R107. A dry
injection takes no reaction (R432). A Halted or Grave device runs no standard press program. -/
def State.acknowledge (s : State) (code : Nat) (r : WaitRep) : State :=
  let cls := s.classOf code
  let s := s.recordReport code r
  if r.dry then s
  else
    let s := s.react code cls r.arg
    if !revertsProfile code cls || s.dev == stHalted || s.dev == stGrave then s else s.revertProfile

/-- A real report that a source raises during its test is taken, and the test ends (R422). -/
def State.endTest (s : State) (code : Nat) : State :=
  match s.flt.walkTest with
  | none => s
  | some (c, _) => if c = code then { s with flt := { s.flt with walkTest := none } } else s

/-- FAULT_REPORT (R424): the hub acknowledges the oldest report that waits at the source `code`. A source set aside is ignored
(R421). -/
def doFaultReport (code : BitVec 16) (s : State) : State :=
  let c := code.toNat
  if s.on F.FLT_CCFG_RAILBAD (c / 256) (c % 256) then s
  else match (s.endTest c).takeWaiting c with
    | none => s
    | some (r, s) => s.acknowledge c r

def execFaultReport (code : BitVec 16) (s : State) : Host.Outcome State Fault Refusal := .next (doFaultReport code s)

/-! ### The end of a level condition (R429, R517) -/

/-- Whether a field is 0 in every segment register (R289). -/
def State.segsClear (s : State) (f : Fld) : Bool :=
  (List.range 16).all (fun p => (List.range 128).all (fun q => !s.on f (p * 128 + q)))

/-- Whether the condition of a level source has ended for every item it watches (R517). -/
def State.levelEnded (s : State) (code : Nat) : Bool :=
  if code = C.ring_cq_full then (List.range 64).all (fun q => !s.on F.RING_QSTAT_CQFULL q)
  else if code = C.eng_pace_low then s.eng.paceLow == 0
  else if code = C.fire_temp_soft then s.segsClear F.FIRE_SEG_DERATE
  else if code = C.fire_temp_hard then s.segsClear F.FIRE_SEG_HOT
  else if code = C.fire_telemetry_stale then s.segsClear F.FIRE_SEG_STALE
  else if code = C.enc_signal_loss then (List.range 2).all (fun k => !s.on F.ENC_STAT_LOS k)
  else if code = C.dmc_refresh_hot then !s.on F.DMC_STAT_HOT
  else if code = C.dmc_dram_overtemp then !s.dmc.beyond
  else if code = C.cam_absent then (List.range 2).all (fun k => !s.on F.CAM_PCTL_EN k || s.on F.CAM_PSTAT_PRESENT k)
  else if code = C.eth_link_down then (List.range 2).all (fun j => !s.on F.TIME_ECTL_EN j || s.on F.TIME_ESTAT_LINK j)
  else if code = C.xing_onesided then (List.range 29).all (fun i => !s.on F.XING_ISTAT_ONESIDED i)
  else if code = C.xing_pll_unlock then s.get F.XING_STAT_LOCK == 15
  else if code = C.xing_ref_loss then s.on F.XING_STAT_REFOK
  else if code = C.sens_rail_low then (List.range 24).all (fun k => !s.on F.SENS_AVAL_LOW k)
  else if code = C.sens_rail_high then (List.range 24).all (fun k => !s.on F.SENS_AVAL_HIGH k)
  else if code = C.sens_tj_warn then !s.sens.warned
  else if code = C.sens_tj_high then !s.sens.highed
  else if code = C.sec_audit_full then !s.auditFull
  else false

/-- The slot of the newest held entry of a source. -/
def State.newestEntryOf (s : State) (code : Nat) : Option Nat :=
  newestOf s (s.get F.FLT_HSEQ_NEXT) ((heldSlots s 32).filter (fun k => s.hist k 1 % 65536 == code))

/-- What the hub does when a level source whose LATCH is 1 returns to idle (R429): TRANS, and TRANSIENT in the newest entry. -/
def State.noteTransient (s : State) (code : Nat) : State :=
  if !s.on F.FLT_CCFG_LATCH (code / 256) (code % 256) then s
  else
    let s := s.set F.FLT_CCFG_TRANS 1 (code / 256) (code % 256)
    match s.newestEntryOf code with
    | none => s
    | some k => let w1 := s.hist k 1
                if bitN w1 19 = 0 then s.setHist k 1 (w1 + 2 ^ 19) else s

/-- LEVEL_SOURCE_IDLE (R429): the condition of a level source has ended for all its items, and the source returns to idle. -/
def doLevelSourceIdle (code : BitVec 16) (s : State) : State :=
  let c := code.toNat
  if !isLevel c || s.on F.FLT_CCFG_RAILBAD (c / 256) (c % 256) || !Tab.get (fun _ => false) s.flt.levels c ||
     !(s.waitingReps c).isEmpty || !s.levelEnded c then s
  else
    ({ s with flt := { s.flt with levels := Tab.put (fun _ => false) s.flt.levels c false } } : State).noteTransient c

def execLevelSourceIdle (code : BitVec 16) (s : State) : Host.Outcome State Fault Refusal := .next (doLevelSourceIdle code s)

/-! ### A tick -/

/-- What 4 ns without a command do: time passes, a Tarn clear goes on, a waiting Standby begins or ends, and the standard press
program settles a profile group (log entry 2). -/
def State.idle (s : State) : State := s.tick.initTick.standbyWaited.standbyExited.prfSettle

end Sys2Proof.Machine
end

