-- ==== Sys2Proof/Machine/Uplink.lean ====
section
/-! DEFINITION. What segments and bar nodes send up while the press runs: telemetry and the head temperature limits (R251 to R253,
R313), events (R314), lost frames (R302), unanswered messages (R305) and upstream frames (R290); and the end of a descriptor of a unit
(R31). -/

namespace Sys2Proof.Machine

/-! ### Head temperature limits (R253) -/

/-- The bar of a segment. -/
def State.barOf (s : State) (sg : Nat) : Nat := (s.segBar sg).getD 0

/-- A report about a segment of a bar (R425): the bar, the port, the segment index. -/
def State.segReport (s : State) (code sg : Nat) : State :=
  s.report code (mkArg (some (s.barOf sg)) (some (sg / 128)) (sg % 128)) (some (s.flineOf (s.barOf sg)))

/-- The soft limit: a segment that is not derated is derated. -/
def State.softLimit (s : State) (sg : Nat) : State :=
  if s.on F.FIRE_SEG_DERATE sg then s
  else ((s.set F.FIRE_SEG_DERATE 1 sg).sendDerate sg true).segReport C.fire_temp_soft sg

/-- The hard limit: every bar of the job stops with HOTSTOP, and the device enters Paused. -/
def State.hardLimit (s : State) (sg : Nat) : State :=
  if s.on F.FIRE_SEG_HOT sg then s
  else ((s.set F.FIRE_SEG_HOT 1 sg).stopJob (some F.FIRE_STAT_HOTSTOP) (fun _ => true)).segReport C.fire_temp_hard sg

/-- A reported temperature, in 1/16 °C, clears HOT below HARD − HYS. -/
def State.hotClear (s : State) (sg : Nat) (t : Int) : State :=
  if t ≤ ((s.get F.FIRE_THEAD_HARD : Int) - s.get F.FIRE_THEAD_HYS) * 16 then s.set F.FIRE_SEG_HOT 0 sg else s

/-- The comparison of a telemetry report with FIRE.THEAD. -/
def State.headLimits (s : State) (sg : Nat) (t : Int) : State :=
  let hard : Int := s.get F.FIRE_THEAD_HARD
  let soft : Int := min (s.get F.FIRE_THEAD_SOFT) (s.get F.FIRE_THEAD_HARD)
  let hys : Int := s.get F.FIRE_THEAD_HYS
  let s := if soft * 16 ≤ t then s.softLimit sg
    else if t ≤ (soft - hys) * 16 ∧ s.on F.FIRE_SEG_DERATE sg ∧ !s.on F.FIRE_SEG_STALE sg then
      (s.set F.FIRE_SEG_DERATE 0 sg).sendDerate sg false
    else s
  if hard * 16 ≤ t then s.hardLimit sg else s.hotClear sg t

/-! ### Telemetry (R251, R252, R313) -/

/-- The trim of R251 before the clamp; the shift of a signed value is a floor. -/
def trimOf (kt kv t tref v vref : Int) : Int := Int.fdiv (kt * (t - tref) + kv * (v - vref) + 128) 256

/-- The NRG role of the standard press program: the trim of a segment from its report. -/
def State.segTrim (s : State) (sg : Nat) (t : Int) (v : Nat) : State :=
  let b := s.barOf sg
  let tr := trimOf (s.getI F.FIRE_PWK_KT b) (s.getI F.FIRE_PWK_KV b) t (s.getI F.FIRE_PWREF_TREF b) v (s.get F.FIRE_PWREF_VREF b)
  let lim : Int := s.get F.FIRE_PWMAX_TRMAX
  let c := clampI (-lim) lim tr
  let s := s.set F.FIRE_SEG_TRIM (ofSigned 9 c) sg
  if c = tr ∨ (s.seg sg).clampRep then s
  else (s.setSeg sg { s.seg sg with clampRep := true }).segReport C.fire_trim_clamp sg

/-- TELEM (R251 to R253, R313). -/
def doTelem (p : Fin 16) (m : List Word) (s : State) : State :=
  if !s.upOk p m 0x26 then s
  else
    let s := s.fromSeg p m
    let sg := p * 128 + upSrc m
    let w1 := m.getD 1 0
    let t := toSigned 16 (fieldOf w1 16 16)
    let next := ((s.flineOf (s.barOf sg)).toNat + 1) % 2 ^ 64
    let s := s.setSeg sg { s.seg sg with tel1 := w1, tel2 := m.getD 2 0, telLine := some next }
    let s := (s.set F.FIRE_SEG_TEMP (fieldOf w1 16 16) sg).set F.FIRE_SEG_STALE 0 sg
    (s.segTrim sg t (fieldOf w1 0 16)).headLimits sg t

def execTelem (p : Fin 16) (m : List Word) (s : State) : Host.Outcome State Fault Refusal := .next (doTelem p m (s.upEvent p m 0x26))

/-- TELEMETRY_STALE (R252): TELSTALE × TELLINES lines have passed without a report. -/
def doTelemetryStale (sg : Fin 2048) (s : State) : State :=
  let b := s.barOf sg
  let n := ((s.flineOf b).toNat + 1) % 2 ^ 64
  let lim := max 1 (s.get F.FIRE_GCFG_TELSTALE) * max 1 (s.get F.FIRE_GCFG_TELLINES)
  if s.segState sg ≠ sgActive ∨ (s.segBar sg).isNone ∨ !s.barActive b ∨ s.on F.FIRE_SEG_STALE sg ∨
      !((s.seg sg).telLine.any (fun l => decide (l + lim ≤ n))) then s
  else ((s.set F.FIRE_SEG_STALE 1 sg).softLimit sg).segReport C.fire_telemetry_stale sg

def execTelemetryStale (sg : Fin 2048) (s : State) : Host.Outcome State Fault Refusal := .next (doTelemetryStale sg s)

/-! ### Segment events (R303, R314, R315) -/

/-- The line whose number ends in a line tag, nearest to the next line of the bar (R297 to R301). -/
def State.lineOfTag (s : State) (b tag : Nat) : Nat :=
  let next := (s.fireBar b).next
  let n := next / 65536 * 65536 + tag
  if n + 32768 < next then n + 65536 else if next + 32768 < n ∧ 65536 ≤ n then n - 65536 else n

/-- Lines lost on a segment (R303, R319). -/
def State.linesLost (s : State) (sg count tag : Nat) : State :=
  let b := s.barOf sg
  let s := s.bump F.HLK_SEG_MISSCNT count sg
  if s.segState sg = sgActive ∧ s.segen sg then
    s.report C.hlk_line_lost (mkArg (some b) (some (sg / 128)) (sg % 128)) (some (w64 (s.lineOfTag b tag)))
  else s

/-- EVENT (R314). -/
def doSegEvent (p : Fin 16) (m : List Word) (s : State) : State :=
  if !s.upOk p m 0x27 then s
  else
    let s := s.fromSeg p m
    let sg := p * 128 + upSrc m
    let w1 := m.getD 1 0
    match upArg m % 256 with
    | 0x01 => s.hardLimit sg
    | 0x02 => s.hotClear sg (toSigned 16 (fieldOf w1 0 16))
    | 0x03 => s.linesLost sg (fieldOf w1 0 16) (fieldOf w1 16 16)
    | 0x05 => s.linesLost sg 1 (fieldOf w1 0 16)
    | 0x07 =>
      if s.segState sg = sgActive then (s.setSegState sg sgStandby).report C.hlk_seg_changed (mkArg none (some p.val) (upSrc m))
      else s
    | _ => s

def execSegEvent (p : Fin 16) (m : List Word) (s : State) : Host.Outcome State Fault Refusal := .next (doSegEvent p m (s.upEvent p m 0x27))

/-! ### Lost frames and unanswered messages (R302, R305) -/

/-- The instant of a line as R302 takes it: its fire instant, or the one that R240 expects of it now; none when no instant is known. -/
def State.expectedInstant (s : State) (b n : Nat) : Option Nat :=
  match s.instantOf b n with
  | some t => some t
  | none =>
    let r := s.refEnc
    let v := s.getI F.ENC_SPEED_VALUE r
    if n < (s.fireBar b).next then some 0
    else if v ≤ 0 ∨ s.on F.ENC_STAT_STILL r ∨ s.on F.ENC_STAT_UNKNOWN r then none
    else some (s.fireC + fireDelay ((s.firePos b n : Int) * 65536) (s.barPosQ16 b) v.toNat)

/-- Whether a sent message is a line message that is still worth sending (R302). -/
def State.resendable (s : State) (p b : Nat) (m : List Word) : Bool :=
  let t := fieldOf (m.headD 0) 26 6
  let n := if t = 1 then (m.getD 1 0).toNat + 2 ^ 32 * (m.getD 2 0).toNat else s.lineOfTag b (fieldOf (m.getD 1 0) 16 16)
  let ahead := s.get F.FIRE_SEGLEAD_LTU + 2 * s.get F.FIRE_PDLY_DLY p + 256
  decide (1 ≤ t) && decide (t ≤ 3) && (match s.expectedInstant b n with
    | some i => decide (s.fireC + ahead ≤ i)
    | none => s.barActive b)

/-- FLOSS (R287, R302). -/
def doFloss (p : Fin 16) (m : List Word) (s : State) : State :=
  if !s.upOk p m 0x2A then s
  else
    let s := s.bump F.HLK_FECUNC_COUNT 1 p
    let x := s.port p
    match frameOwner s.liveFrame p, x.sent.find? (fun c => c.k % 4096 == upArg m % 4096) with
    | some b, some c =>
      let ms := c.msgs.filter (s.resendable p b)
      if !s.on F.HLK_CFG_RESEND || ms.isEmpty then s
      else (s.setPort p { x with resendQ := x.resendQ ++ ms }).bump F.HLK_RESEND_COUNT 1 p
    | _, _ => s

def execFloss (p : Fin 16) (m : List Word) (s : State) : Host.Outcome State Fault Refusal := .next (doFloss p m (s.upEvent p m 0x2A))

/-- ACK_TIMEOUT (R305, R462): the message goes again with the same token, at most RETRY times. While the port is down only a LOADREQ is
left, which cannot be sent. -/
def doAckTimeout (p : Fin 16) (tok : BitVec 12) (s : State) : State :=
  let x := s.port p
  match x.pend.find? (fun q => q.tok == tok.toNat) with
  | none => s
  | some q =>
    if !(q.due.any (fun t => decide (t ≤ s.now))) then s
    else if q.tries < max 1 (s.get F.HLK_CFG_RETRY) then
      let up := s.portUp p
      let due := if up then none else some (s.now + 1000000 * max 1 (s.get F.SENS_LTO_MS))
      let ps := x.pend.map (fun r => if r.tok = q.tok then { r with due := due, tries := r.tries + 1 } else r)
      s.setPort p { x with pend := ps, ctlQ := if up then x.ctlQ ++ [q.words] else x.ctlQ }
    else
      let s := s.giveUp p q
      if q.mtype = 0x12 then s.loadDone 3 else s

def execAckTimeout (p : Fin 16) (tok : BitVec 12) (s : State) : Host.Outcome State Fault Refusal := .next (doAckTimeout p tok s)

/-! ### Upstream frames (R290 to R294) -/

/-- The bytes of a word as R290 forms them: bit 0 of the frame is bit 7 of byte 0. -/
def beField (w : Word) : List Byte := (leBytes 4 w.toNat).reverse

/-- One delivered message, by its MTYPE; one that is not in the table is discarded and reported once per second. -/
def State.upMessage (s : State) (p : Fin 16) (m : List Word) : State :=
  let t := upType m
  let s' := s.upEvent p m t
  if t = 0x20 then doAck p m s'
  else if t = 0x21 then doBncap p m s'
  else if t = 0x22 then doCap p m s'
  else if t = 0x23 then doSlotinfo p m s'
  else if t = 0x24 then doStaged p m s'
  else if t = 0x25 then doApplied p m s'
  else if t = 0x26 then doTelem p m s'
  else if t = 0x27 then doSegEvent p m s'
  else if t = 0x28 then doLoadres p m s'
  else if t = 0x29 then doBnstat p m s'
  else if t = 0x2A then doFloss p m s'
  else s.reportLimited C.hlk_proto p 1000000000 (mkArg none (some p.val) t)

/-- The messages of a payload: a message that does not lie wholly inside it ends it. -/
def upMessages (p : Fin 16) : (fuel : Nat) → List Word → State → State
  | 0, _, s => s
  | _, [], s => s
  | k + 1, h :: t, s =>
    let len := fieldOf h 22 4
    if t.length < len then s else upMessages p k (t.drop len) (s.upMessage p (h :: t.take len))

/-- UPSTREAM_FRAME (R272, R290): a mission frame of 16 words reaches a port in state Up. -/
def doUpstreamFrame (p : Fin 16) (f : List Word) (s : State) : State :=
  if !s.portUp p || f.length != 16 then s
  else if crc32c ((f.take 15).flatMap beField) ≠ f.getD 15 0 then
    let s := s.bump F.HLK_UPCRC_COUNT 1 p
    let n := (s.port p).upBad + 1
    let s := s.setPort p { s.port p with upBad := n }
    if 8 ≤ n then (s.report C.hlp_up_loss (mkArg none (some p.val) 0)).portDown p else s
  else
    let s := s.setPort p { s.port p with upBad := 0 }
    upMessages p 14 ((f.drop 1).take (min 14 (fieldOf (f.getD 0 0) 12 4))) s

def execUpstreamFrame (p : Fin 16) (f : List Word) (s : State) : Host.Outcome State Fault Refusal := .next (doUpstreamFrame p f s)

end Sys2Proof.Machine
end

