-- ==== Sys2Proof/Machine/Dispatch.lean ====
section
/-! DEFINITION. One arm per command: a direct call of its meaning. -/

namespace Sys2Proof.Machine

/-- The effect of a command on everything but the queue. -/
def exec (i : Instr) (s : State) : Host.Outcome State Fault Refusal :=
  match i with
  | .registerWrite by_ off v => Sys2Proof.Machine.execRegisterWrite by_ off v s
  | .readClear off => Sys2Proof.Machine.execReadClear off s
  | .latchingRead off => Sys2Proof.Machine.execLatchingRead off s
  | .bar0HoleAccess write off size => Sys2Proof.Machine.execBar0HoleAccess write off size s
  | .bar2Request off op => Sys2Proof.Machine.execBar2Request off op s
  | .aperWrite v => Sys2Proof.Machine.execAperWrite v s
  | .pcieReset kind => Sys2Proof.Machine.execPcieReset kind s
  | .negGo v => Sys2Proof.Machine.execNegGo v s
  | .queuePairConfig q v => Sys2Proof.Machine.execQueuePairConfig q v s
  | .sqTailDoorbell q v => Sys2Proof.Machine.execSqTailDoorbell q v s
  | .cqHeadDoorbell q v => Sys2Proof.Machine.execCqHeadDoorbell q v s
  | .entryStart q entry => Sys2Proof.Machine.execEntryStart q entry s
  | .completionPost q ok => Sys2Proof.Machine.execCompletionPost q ok s
  | .coalesceTimeout q => Sys2Proof.Machine.execCoalesceTimeout q s
  | .vectorUnmask v => Sys2Proof.Machine.execVectorUnmask v s
  | .raise v => Sys2Proof.Machine.execRaise v s
  | .devStatus tok => Sys2Proof.Machine.execDevStatus tok s
  | .faultRead tok ok => Sys2Proof.Machine.execFaultRead tok ok s
  | .eventArm tok => Sys2Proof.Machine.execEventArm tok s
  | .prfStage tok img => Sys2Proof.Machine.execPrfStage tok img s
  | .prfProve tok => Sys2Proof.Machine.execPrfProve tok s
  | .prfPromote tok => Sys2Proof.Machine.execPrfPromote tok s
  | .prfAbandon tok => Sys2Proof.Machine.execPrfAbandon tok s
  | .prfRollback tok => Sys2Proof.Machine.execPrfRollback tok s
  | .prfStarter tok => Sys2Proof.Machine.execPrfStarter tok s
  | .prfStatus tok ok => Sys2Proof.Machine.execPrfStatus tok ok s
  | .jobOpen tok => Sys2Proof.Machine.execJobOpen tok s
  | .panelDefine tok => Sys2Proof.Machine.execPanelDefine tok s
  | .ingest tok data => Sys2Proof.Machine.execIngest tok data s
  | .jobClose tok => Sys2Proof.Machine.execJobClose tok s
  | .jobCancel tok => Sys2Proof.Machine.execJobCancel tok s
  | .printStart tok => Sys2Proof.Machine.execPrintStart tok s
  | .printPause tok => Sys2Proof.Machine.execPrintPause tok s
  | .printResume tok => Sys2Proof.Machine.execPrintResume tok s
  | .printStop tok => Sys2Proof.Machine.execPrintStop tok s
  | .measReadRails tok ok => Sys2Proof.Machine.execMeasReadRails tok ok s
  | .measReadTemperatures tok ok => Sys2Proof.Machine.execMeasReadTemperatures tok ok s
  | .measReadTelemetry tok ok => Sys2Proof.Machine.execMeasReadTelemetry tok ok s
  | .measReadCables tok ok => Sys2Proof.Machine.execMeasReadCables tok ok s
  | .measReadSlack tok ok => Sys2Proof.Machine.execMeasReadSlack tok ok s
  | .measReadEncoders tok ok => Sys2Proof.Machine.execMeasReadEncoders tok ok s
  | .measReadDram tok ok => Sys2Proof.Machine.execMeasReadDram tok ok s
  | .measReadCapabilities tok ok => Sys2Proof.Machine.execMeasReadCapabilities tok ok s
  | .measReadCameras tok ok => Sys2Proof.Machine.execMeasReadCameras tok ok s
  | .measLoad tok => Sys2Proof.Machine.execMeasLoad tok s
  | .alu e w => Sys2Proof.Machine.execAlu e w s
  | .cmp e w => Sys2Proof.Machine.execCmp e w s
  | .plog e w => Sys2Proof.Machine.execPlog e w s
  | .mul e w => Sys2Proof.Machine.execMul e w s
  | .div e w => Sys2Proof.Machine.execDiv e w s
  | .sel e w => Sys2Proof.Machine.execSel e w s
  | .movi e w => Sys2Proof.Machine.execMovi e w s
  | .addi e w => Sys2Proof.Machine.execAddi e w s
  | .andi e w => Sys2Proof.Machine.execAndi e w s
  | .ori e w => Sys2Proof.Machine.execOri e w s
  | .xori e w => Sys2Proof.Machine.execXori e w s
  | .shi e w => Sys2Proof.Machine.execShi e w s
  | .cmpeqi e w => Sys2Proof.Machine.execCmpeqi e w s
  | .cmplti e w => Sys2Proof.Machine.execCmplti e w s
  | .cmpltui e w => Sys2Proof.Machine.execCmpltui e w s
  | .movx e w => Sys2Proof.Machine.execMovx e w s
  | .addx e w => Sys2Proof.Machine.execAddx e w s
  | .ld e w => Sys2Proof.Machine.execLd e w s
  | .st e w => Sys2Proof.Machine.execSt e w s
  | .ldx e w => Sys2Proof.Machine.execLdx e w s
  | .stx e w => Sys2Proof.Machine.execStx e w s
  | .atom e w => Sys2Proof.Machine.execAtom e w s
  | .fence e w => Sys2Proof.Machine.execFence e w s
  | .br e w => Sys2Proof.Machine.execBr e w s
  | .jmpr e w => Sys2Proof.Machine.execJmpr e w s
  | .trap e w => Sys2Proof.Machine.execTrap e w s
  | .rett e w => Sys2Proof.Machine.execRett e w s
  | .halt e w => Sys2Proof.Machine.execHalt e w s
  | .nop e w => Sys2Proof.Machine.execNop e w s
  | .mfs e w => Sys2Proof.Machine.execMfs e w s
  | .mts e w => Sys2Proof.Machine.execMts e w s
  | .selft e w mismatch => Sys2Proof.Machine.execSelft e w mismatch s
  | .wait e w => Sys2Proof.Machine.execWait e w s
  | .waitWake e => Sys2Proof.Machine.execWaitWake e s
  | .waitTimeout e => Sys2Proof.Machine.execWaitTimeout e s
  | .evcnt e w => Sys2Proof.Machine.execEvcnt e w s
  | .armp e w => Sys2Proof.Machine.execArmp e w s
  | .armt e w => Sys2Proof.Machine.execArmt e w s
  | .dln e w => Sys2Proof.Machine.execDln e w s
  | .send e w => Sys2Proof.Machine.execSend e w s
  | .recv e w => Sys2Proof.Machine.execRecv e w s
  | .dma e w => Sys2Proof.Machine.execDma e w s
  | .desc e w => Sys2Proof.Machine.execDesc e w s
  | .gclm e w => Sys2Proof.Machine.execGclm e w s
  | .cgopen e w => Sys2Proof.Machine.execCgopen e w s
  | .cgw e w => Sys2Proof.Machine.execCgw e w s
  | .cgt e w => Sys2Proof.Machine.execCgt e w s
  | .cgc e w => Sys2Proof.Machine.execCgc e w s
  | .cga e w => Sys2Proof.Machine.execCga e w s
  | .cgs e w => Sys2Proof.Machine.execCgs e w s
  | .ckpt e w => Sys2Proof.Machine.execCkpt e w s
  | .rstr e w => Sys2Proof.Machine.execRstr e w s
  | .claim e w => Sys2Proof.Machine.execClaim e w s
  | .yield e w => Sys2Proof.Machine.execYield e w s
  | .eload e w => Sys2Proof.Machine.execEload e w s
  | .imageStart e => Sys2Proof.Machine.execImageStart e s
  | .gateGrant gate e => Sys2Proof.Machine.execGateGrant gate e s
  | .fireStart b => Sys2Proof.Machine.execFireStart b s
  | .fireStop b => Sys2Proof.Machine.execFireStop b s
  | .unitCompletion gate => Sys2Proof.Machine.execUnitCompletion gate s
  | .unitStall gate => Sys2Proof.Machine.execUnitStall gate s
  | .evrouteWrite e ix v => Sys2Proof.Machine.execEvrouteWrite e ix v s
  | .swevRaise v => Sys2Proof.Machine.execSwevRaise v s
  | .gaugeClrmin g v => Sys2Proof.Machine.execGaugeClrmin g v s
  | .lineComplete b line => Sys2Proof.Machine.execLineComplete b line s
  | .deadlineMiss g line => Sys2Proof.Machine.execDeadlineMiss g line s
  | .paceUpdate count => Sys2Proof.Machine.execPaceUpdate count s
  | .avsEnable v regulator => Sys2Proof.Machine.execAvsEnable v regulator s
  | .avsEvaluation => Sys2Proof.Machine.execAvsEvaluation s
  | .avsTransactionDone reply => Sys2Proof.Machine.execAvsTransactionDone reply s
  | .avsSettleEnd => Sys2Proof.Machine.execAvsSettleEnd s
  | .avsMismatch => Sys2Proof.Machine.execAvsMismatch s
  | .avslimWrite v => Sys2Proof.Machine.execAvslimWrite v s
  | .lineBoundary b => Sys2Proof.Machine.execLineBoundary b s
  | .timeSwitch g => Sys2Proof.Machine.execTimeSwitch g s
  | .tquery v => Sys2Proof.Machine.execTquery v s
  | .encodeBlock l mismatch => Sys2Proof.Machine.execEncodeBlock l mismatch s
  | .blockStore tok => Sys2Proof.Machine.execBlockStore tok s
  | .storeWaitTimeout tok => Sys2Proof.Machine.execStoreWaitTimeout tok s
  | .precompressedBlock tok => Sys2Proof.Machine.execPrecompressedBlock tok s
  | .gcmTagCheck tok => Sys2Proof.Machine.execGcmTagCheck tok s
  | .spillwayReturn l => Sys2Proof.Machine.execSpillwayReturn l s
  | .spillTimeout => Sys2Proof.Machine.execSpillTimeout s
  | .decodeRowSet b => Sys2Proof.Machine.execDecodeRowSet b s
  | .panicLong b => Sys2Proof.Machine.execPanicLong b s
  | .barLine b => Sys2Proof.Machine.execBarLine b s
  | .bandStart b v => Sys2Proof.Machine.execBandStart b v s
  | .mapbaseWrite v => Sys2Proof.Machine.execMapbaseWrite v s
  | .encoderEdge k a b => Sys2Proof.Machine.execEncoderEdge k a b s
  | .signalLoss k => Sys2Proof.Machine.execSignalLoss k s
  | .indexEdge k => Sys2Proof.Machine.execIndexEdge k s
  | .speedWindowEnd k => Sys2Proof.Machine.execSpeedWindowEnd k s
  | .standstill k => Sys2Proof.Machine.execStandstill k s
  | .positionComparePulse k => Sys2Proof.Machine.execPositionComparePulse k s
  | .fireEvaluation b => Sys2Proof.Machine.execFireEvaluation b s
  | .telemetryStale sg => Sys2Proof.Machine.execTelemetryStale sg s
  | .portEnable p v => Sys2Proof.Machine.execPortEnable p v s
  | .portDisable p v => Sys2Proof.Machine.execPortDisable p v s
  | .upstreamTrainingFrame p f => Sys2Proof.Machine.execUpstreamTrainingFrame p f s
  | .linkupTimeout p => Sys2Proof.Machine.execLinkupTimeout p s
  | .linkupRestart p => Sys2Proof.Machine.execLinkupRestart p s
  | .slip p v => Sys2Proof.Machine.execSlip p v s
  | .ffeWrite p l v => Sys2Proof.Machine.execFfeWrite p l v s
  | .recalibrate p v => Sys2Proof.Machine.execRecalibrate p v s
  | .patternInject p v => Sys2Proof.Machine.execPatternInject p v s
  | .frameInject p v => Sys2Proof.Machine.execFrameInject p v s
  | .downstreamFrame p => Sys2Proof.Machine.execDownstreamFrame p s
  | .upstreamFrame p frame => Sys2Proof.Machine.execUpstreamFrame p frame s
  | .ackMsg p m => Sys2Proof.Machine.execAckMsg p m s
  | .bncap p m => Sys2Proof.Machine.execBncap p m s
  | .cap p m => Sys2Proof.Machine.execCap p m s
  | .slotinfo p m => Sys2Proof.Machine.execSlotinfo p m s
  | .staged p m => Sys2Proof.Machine.execStaged p m s
  | .applied p m => Sys2Proof.Machine.execApplied p m s
  | .telem p m => Sys2Proof.Machine.execTelem p m s
  | .segEvent p m => Sys2Proof.Machine.execSegEvent p m s
  | .loadres p m => Sys2Proof.Machine.execLoadres p m s
  | .bnstat p m => Sys2Proof.Machine.execBnstat p m s
  | .floss p m => Sys2Proof.Machine.execFloss p m s
  | .ackTimeout p tok => Sys2Proof.Machine.execAckTimeout p tok s
  | .stageTimeout g k => Sys2Proof.Machine.execStageTimeout g k s
  | .appliedTimeout g sg => Sys2Proof.Machine.execAppliedTimeout g sg s
  | .pingPeriod p => Sys2Proof.Machine.execPingPeriod p s
  | .segenWrite p w v => Sys2Proof.Machine.execSegenWrite p w v s
  | .dramRequest port req => Sys2Proof.Machine.execDramRequest port req s
  | .dramCommandSlot c => Sys2Proof.Machine.execDramCommandSlot c s
  | .burstDecode c err => Sys2Proof.Machine.execBurstDecode c err s
  | .refreshInterval c rank => Sys2Proof.Machine.execRefreshInterval c rank s
  | .refreshWindow => Sys2Proof.Machine.execRefreshWindow s
  | .mr4Poll codes => Sys2Proof.Machine.execMr4Poll codes s
  | .selfRefreshEntry c => Sys2Proof.Machine.execSelfRefreshEntry c s
  | .tsetWrite k v => Sys2Proof.Machine.execTsetWrite k v s
  | .timingDerived k cl => Sys2Proof.Machine.execTimingDerived k cl s
  | .frequencyChange v => Sys2Proof.Machine.execFrequencyChange v s
  | .frequencyChangeDone ok => Sys2Proof.Machine.execFrequencyChangeDone ok s
  | .patrolScrub => Sys2Proof.Machine.execPatrolScrub s
  | .eccInject c v => Sys2Proof.Machine.execEccInject c v s
  | .dqsOscillatorRun c drift => Sys2Proof.Machine.execDqsOscillatorRun c drift s
  | .dramTraining c ok => Sys2Proof.Machine.execDramTraining c ok s
  | .tarnAccess m off req op => Sys2Proof.Machine.execTarnAccess m off req op s
  | .tarnInit v => Sys2Proof.Machine.execTarnInit v s
  | .tarnInitDone => Sys2Proof.Machine.execTarnInitDone s
  | .tarnScrub hard => Sys2Proof.Machine.execTarnScrub hard s
  | .remapWrite m k v => Sys2Proof.Machine.execRemapWrite m k v s
  | .dmahaltWrite v => Sys2Proof.Machine.execDmahaltWrite v s
  | .dmaCompletion e k => Sys2Proof.Machine.execDmaCompletion e k s
  | .checkerTestWrite m v => Sys2Proof.Machine.execCheckerTestWrite m v s
  | .cameraEnable k v io => Sys2Proof.Machine.execCameraEnable k v io s
  | .frameStart k => Sys2Proof.Machine.execFrameStart k s
  | .cameraLine k ds => Sys2Proof.Machine.execCameraLine k ds s
  | .frameEnd k => Sys2Proof.Machine.execFrameEnd k s
  | .pipelineLine => Sys2Proof.Machine.execPipelineLine s
  | .cameraAbsent k => Sys2Proof.Machine.execCameraAbsent k s
  | .cameraClockTimeout k => Sys2Proof.Machine.execCameraClockTimeout k s
  | .triggerPulse k => Sys2Proof.Machine.execTriggerPulse k s
  | .strobe k => Sys2Proof.Machine.execStrobe k s
  | .arm => Sys2Proof.Machine.execArm s
  | .disarm => Sys2Proof.Machine.execDisarm s
  | .patch => Sys2Proof.Machine.execPatch s
  | .band => Sys2Proof.Machine.execBand s
  | .timeStep k v => Sys2Proof.Machine.execTimeStep k v s
  | .timeBaseReset k v => Sys2Proof.Machine.execTimeBaseReset k v s
  | .rateWrite k v => Sys2Proof.Machine.execRateWrite k v s
  | .snapshot v => Sys2Proof.Machine.execSnapshot v s
  | .timeComparePulse k => Sys2Proof.Machine.execTimeComparePulse k s
  | .frameTransmit j => Sys2Proof.Machine.execFrameTransmit j s
  | .frameReceive j frame fcsOk => Sys2Proof.Machine.execFrameReceive j frame fcsOk s
  | .ethLinkLoss j => Sys2Proof.Machine.execEthLinkLoss j s
  | .referenceWindow count => Sys2Proof.Machine.execReferenceWindow count s
  | .pllUnlock p => Sys2Proof.Machine.execPllUnlock p s
  | .crossingStop ix crossing => Sys2Proof.Machine.execCrossingStop ix crossing s
  | .onesidedDetect ix core crossing => Sys2Proof.Machine.execOnesidedDetect ix core crossing s
  | .islandReset v => Sys2Proof.Machine.execIslandReset v s
  | .oscTrimUpdate => Sys2Proof.Machine.execOscTrimUpdate s
  | .oscMeasure count => Sys2Proof.Machine.execOscMeasure count s
  | .faultReport code => Sys2Proof.Machine.execFaultReport code s
  | .brokenPair code ns => Sys2Proof.Machine.execBrokenPair code ns s
  | .levelSourceIdle code => Sys2Proof.Machine.execLevelSourceIdle code s
  | .railWalk answers => Sys2Proof.Machine.execRailWalk answers s
  | .railTestTimeout => Sys2Proof.Machine.execRailTestTimeout s
  | .injectFault v => Sys2Proof.Machine.execInjectFault v s
  | .clrall v => Sys2Proof.Machine.execClrall v s
  | .firstFaultClear v => Sys2Proof.Machine.execFirstFaultClear v s
  | .classWrite code v => Sys2Proof.Machine.execClassWrite code v s
  | .beat by_ => Sys2Proof.Machine.execBeat by_ s
  | .giveup by_ => Sys2Proof.Machine.execGiveup by_ s
  | .assertClaim by_ v => Sys2Proof.Machine.execAssertClaim by_ v s
  | .heartbeatTimeout r standby => Sys2Proof.Machine.execHeartbeatTimeout r standby s
  | .coldTakeover r => Sys2Proof.Machine.execColdTakeover r s
  | .adcConversion raw => Sys2Proof.Machine.execAdcConversion raw s
  | .adcSelfCalibration rl rh => Sys2Proof.Machine.execAdcSelfCalibration rl rh s
  | .tempConversion rs => Sys2Proof.Machine.execTempConversion rs s
  | .shutdownRecord => Sys2Proof.Machine.execShutdownRecord s
  | .calibrationPass rl rh => Sys2Proof.Machine.execCalibrationPass rl rh s
  | .verify v => Sys2Proof.Machine.execVerify v s
  | .release v => Sys2Proof.Machine.execRelease v s
  | .licence v => Sys2Proof.Machine.execLicence v s
  | .keydrop v => Sys2Proof.Machine.execKeydrop v s
  | .lcsAdvance v => Sys2Proof.Machine.execLcsAdvance v s
  | .keyreg v => Sys2Proof.Machine.execKeyreg v s
  | .revoke v => Sys2Proof.Machine.execRevoke v s
  | .auditRead v => Sys2Proof.Machine.execAuditRead v s
  | .auditSeal v => Sys2Proof.Machine.execAuditSeal v s
  | .meterRead v => Sys2Proof.Machine.execMeterRead v s
  | .dbgUnlock v => Sys2Proof.Machine.execDbgUnlock v s
  | .securityCommandDone => Sys2Proof.Machine.execSecurityCommandDone s
  | .auditAck v => Sys2Proof.Machine.execAuditAck v s
  | .glitch => Sys2Proof.Machine.execGlitch s
  | .tamper temperature => Sys2Proof.Machine.execTamper temperature s
  | .jtagInstruction t => Sys2Proof.Machine.execJtagInstruction t s
  | .powerOnReset t => Sys2Proof.Machine.execPowerOnReset t s
  | .bootStart info => Sys2Proof.Machine.execBootStart info s
  | .bootComplete standing previous => Sys2Proof.Machine.execBootComplete standing previous s
  | .vcoreRemoval => Sys2Proof.Machine.execVcoreRemoval s
  | .softwareReset v flash => Sys2Proof.Machine.execSoftwareReset v flash s
  | .deferredReset => Sys2Proof.Machine.execDeferredReset s
  | .jtagReset => Sys2Proof.Machine.execJtagReset s
  | .standbyEntry v => Sys2Proof.Machine.execStandbyEntry v s
  | .standbyExit v => Sys2Proof.Machine.execStandbyExit v s
  | .watchdogExpiry => Sys2Proof.Machine.execWatchdogExpiry s
  | .busTransaction v => Sys2Proof.Machine.execBusTransaction v s
  | .busTransactionDone ok data => Sys2Proof.Machine.execBusTransactionDone ok data s
  | .encoderSignalReturn k => Sys2Proof.Machine.execEncoderSignalReturn k s
  | .ethLinkUp j => Sys2Proof.Machine.execEthLinkUp j s
  | .cameraClockPresent k khz => Sys2Proof.Machine.execCameraClockPresent k khz s
  | .pllLock p => Sys2Proof.Machine.execPllLock p s
  | .crossingResume ix => Sys2Proof.Machine.execCrossingResume ix s
  | .vauxLoss => Sys2Proof.Machine.execVauxLoss s

end Sys2Proof.Machine
end

