-- ==== Sys2Proof/WellFormed.lean ====
section
/-! DEFINITION. Which commands have operands that their sender can send: the limits the spec sets on the operands whose types
do not. A command that breaks one stands for nothing the hardware can be sent. -/

namespace Sys2Proof

/-- A BAR2 request carries 1 to 4,096 bytes and stays inside the window of 64 MiB (R111, R115). -/
def Bar2Op.wf (off : Nat) : Bar2Op → Bool
  | .read n => 1 ≤ n && n ≤ 4096 && off + n ≤ 2 ^ 26
  | .write bytes => 1 ≤ bytes.length && bytes.length ≤ 4096 && off + bytes.length ≤ 2 ^ 26

/-- An access at a protected memory covers 1 to 64 bytes of one line (R355, R356). -/
def TarnOp.wf (off : Nat) : TarnOp → Bool
  | .read n => 1 ≤ n && off % 64 + n ≤ 64
  | .write bytes => 1 ≤ bytes.length && off % 64 + bytes.length ≤ 64

/-- A DRAM request that carries an address stays within the 40-bit address space (R329). -/
def DramOp.wf : DramOp → Bool
  | .fetch _ _ _ => true
  | .read a n => 1 ≤ n && a.toNat + n ≤ 2 ^ 40
  | .write a bytes => 1 ≤ bytes.length && a.toNat + bytes.length ≤ 2 ^ 40

/-- An upstream message is a header word followed by LEN words (R291). -/
def messageWf (m : List Word) : Bool :=
  match m with
  | [] => false
  | h :: rest => rest.length == h.toNat / 2 ^ 22 % 16 && rest.length ≤ 13

/-- An AVSBus Voltage read answers 16 bits (R45). -/
def regulatorWf (r : Option Nat) : Bool := r.all (· < 65536)

/-- Whether a command's operands are ones its sender can send. -/
def Instr.wf : Instr → Bool
  | .registerWrite _ off _ => off.toNat % 4 == 0
  | .readClear off => off.toNat % 4 == 0
  | .latchingRead off => off.toNat % 4 == 0
  | .bar0HoleAccess _ _ size => 1 ≤ size
  | .bar2Request off op => op.wf off.toNat
  | .entryStart _ entry => entry.all (·.length == 16)
  | .avsEnable _ r => regulatorWf r
  | .upstreamFrame _ f => f.length == 16
  | .ackMsg _ m => messageWf m
  | .bncap _ m => messageWf m
  | .cap _ m => messageWf m
  | .slotinfo _ m => messageWf m
  | .staged _ m => messageWf m
  | .applied _ m => messageWf m
  | .telem _ m => messageWf m
  | .segEvent _ m => messageWf m
  | .loadres _ m => messageWf m
  | .bnstat _ m => messageWf m
  | .floss _ m => messageWf m
  | .dramRequest _ req => req.wf
  | .burstDecode _ err => err.length ≤ 160
  | .mr4Poll codes => codes.length ≤ 8
  | .tarnAccess _ off _ op => op.wf off
  | .tempConversion rs => rs.length == 12
  | _ => true

end Sys2Proof
end

