-- ==== Sys2Proof/Safety.lean ====
section
/-! DEFINITION. What a safe run is: no Grave, no Halted, no line lost; and the well-formedness of states, in the terms that
statements use. -/

namespace Sys2Proof.Machine

/-- Every memory of the device is in its one canonical form: addresses strictly rising, and no entry equal to what an unlisted
address reads as. The register file (R113), Tarn and the local stores (R355 to R357), DRAM (R329), host memory as the device
wrote it, and the OTP words of lifecycle groups and version numbers (R472, R478). -/
def Memory.wf (s : State) : Bool :=
  Tab.wf regReset s.regs && Tab.wf (fun _ => 0) s.tarn.data && Tab.wf (fun _ => 0) s.tarn.chk &&
  Tab.wf (fun _ => false) s.tarn.valid && Tab.wf (fun _ => 0) s.dmc.data && Tab.wf (fun _ => 0) s.host.mem &&
  Tab.wf (fun _ => 0) s.sec.groups && Tab.wf (fun _ => 0) s.sec.svn

/-- What OTP holds only grows (R459, R472, R474, R478): a programmed bit of a lifecycle group and a revocation stay, no recorded
security version number falls, and the shutdown records stay in place. -/
structure OtpGrows (s t : State) : Prop where
  groups : ∀ g k, (s.lcsGroup g).getLsbD k = true → (t.lcsGroup g).getLsbD k = true
  revoked : ∀ k, s.sec.revoked.getLsbD k = true → t.sec.revoked.getLsbD k = true
  svn : ∀ k, s.svnOf k ≤ t.svnOf k
  records : s.sens.otp <+: t.sens.otp

/-- What every command keeps: the queue (it is the sender's), the part the device was fused as (R1, R2), the model's time, the
canonical form of the memories and, in it, what OTP holds; free values are drawn in order, none twice. -/
structure Keeps (s t : State) : Prop where
  pending : t.pending = s.pending
  fused : t.fused8816 = s.fused8816
  now : t.now = s.now
  free : s.freeCtr ≤ t.freeCtr
  memory : Memory.wf s = true → Memory.wf t = true
  otp : Memory.wf s = true → OtpGrows s t

/-- Engine `e` executes instructions, and it fetches one of `words` words from inside its local store without an uncorrectable byte,
which leaves `t` (R35, R50, R360). -/
structure Fetches (s : State) (e words : Nat) (t : State) : Prop where
  runs : s.running e = true
  inside : (s.engine e).pc.toNat + 4 * words ≤ localSize
  good : (s.fetch e words).bad = false
  after : (s.fetch e words).st = t

/-- A write of the register at an offset takes effect: the device is not in Grave (R427), the register is not disabled by fuse (R2), and
its island neither stopped nor is held in reset (R411, R414). -/
structure Reaches (s : State) (off : Nat) : Prop where
  alive : s.dev ≠ stGrave
  present : s.fused off = false
  island : s.deadIsland off = none

/-- A safe state: neither Halted nor Grave (R426, R427), and no Job-class report holds printing (R424). -/
def State.safe (s : State) : Bool := s.dev != stHalted && s.dev != stGrave && !s.on F.FLT_STAT_JOBHOLD

end Sys2Proof.Machine
end

