-- ==== Sys2Proof/Certificates/Slice0/Obligations.lean ====
section
/-! DEFINITION. The statements for the provers. -/

open Sys2Proof Sys2Proof.Machine

/-! ### The block as a whole -/

/-- A step with a command waiting is that command, on the state with the rest of the queue (log entry 17). -/
def Obligations.StepTakesTheFront : Prop :=
  ∀ (s : State) (c : Instr) (rest : List Instr), step { s with pending := c :: rest } = exec c { s with pending := rest }

/-- With no command waiting a step is one tick of 4 ns (log entry 2, DESIGN CHOICE): the time alone moves on of what every command
keeps. -/
def Obligations.EmptyQueueIsOneTick : Prop :=
  ∀ s : State, s.pending = [] → ∃ t, step s = .next t ∧ t.now = s.now + 4 ∧ Keeps { s with now := s.now + 4 } t

/-- Every command completes, from every state, and keeps the queue, the part it was fused as, the time, the canonical form of the memories
and what OTP holds. That the memories are held as canonical lists is the model's own form (log entry 112). -/
def Obligations.EveryCommandCompletesAndKeeps : Prop :=
  ∀ (c : Instr) (s : State), ∃ t, exec c s = .next t ∧ Keeps s t

/-- The canonical form of every memory is an invariant of the step. The form is the model's own (log entry 112). -/
def Obligations.StepKeepsMemoriesCanonical : Prop :=
  ∀ s t : State, Memory.wf s = true → step s = .next t → Memory.wf t = true

/-- What OTP holds never shrinks (R459, R472, R474, R478): no step takes back a programmed bit of a lifecycle group, a revocation, a
security version number or a shutdown record. -/
def Obligations.OtpNeverShrinks : Prop :=
  ∀ s t : State, Memory.wf s = true → step s = .next t → OtpGrows s t

/-- What reset leaves: the memories are canonical, no command waits, the device is in Reset and no engine runs; every register holds the value
of its table, of which these stand for their blocks; and every fault code its default class, inside its range. -/
def Obligations.ResetValues : Prop :=
  (Memory.wf State.reset = true) ∧
  (State.reset.pending = [] ∧ State.reset.dev = stReset ∧ State.reset.engines = [] ∧ State.reset.job.job = none ∧
     (∀ off, State.reset.rd off = regReset off) ∧
     (∀ e ∈ [(F.TIME_TBCTL_EN, 0, 1), (F.TIME_TBCTL_EN, 1, 0), (F.FLT_CTL_FFMIN, 0, 3), (F.FLT_CTL_SKEW, 0, 40), (F.FLT_CTL_RWALK, 0, 100),
         (F.SENS_TLIM_HIGH, 0, 115), (F.SENS_TLIM_WARN, 0, 105), (F.SENS_CSCH_AGE, 0, 3600), (F.SENS_ACH_GAIN, 22, 4800),
         (F.SENS_ACH_EN, 15, 0), (F.SENS_ACH_EN, 16, 1), (F.SENS_CUNIT_DELTA, 33, 80), (F.CAM_NR_K, 1, 256), (F.CAM_GEOM_W, 0, 2048),
         (F.RING_QCFG_IV, 63, 63), (F.SPR_RCTL_HOME, 15, 15), (F.FLT_HSEQ_NEXT, 0, 1)],
       State.reset.get e.1 e.2.1 = e.2.2) ∧
     (∀ row ∈ (List.range 21).flatMap codeRows,
       State.reset.get F.FLT_CCFG_CLASS (row.code / 256) (row.code % 256) = row.dflt ∧ row.lo ≤ row.dflt ∧ row.dflt ≤ row.hi))

/-! ### Engine instructions -/

/-- A false guard takes one step and has no effect (R53), for every instruction of formats A, B and X: the pc and the count of retired
instructions move on, and nothing else changes after the fetch. -/
def Obligations.FalseGuardHasNoEffect : Prop :=
  (∀ x : Engine, guardOf true 0 x = false ∧ guardOf false 0 x = true) ∧ ∀ (e : Eng) (s t : State),
    (Fetches s e 1 t →
      (∀ (w : FmtA) (mm : DWord), guardOf w.n w.p (t.engine e) = false →
        ∀ c ∈ [Instr.alu e w, .cmp e w, .plog e w, .mul e w, .div e w, .sel e w, .atom e w, .fence e w, .jmpr e w, .trap e w, .rett e w,
          .halt e w, .nop e w, .selft e w mm, .wait e w, .evcnt e w, .armp e w, .armt e w, .dln e w, .send e w, .recv e w, .dma e w,
          .desc e w, .gclm e w, .cgopen e w, .cgw e w, .cgt e w, .cgc e w, .cga e w, .cgs e w, .ckpt e w, .rstr e w, .claim e w,
          .yield e w, .eload e w], exec c s = .next (t.retire e (t.engine e) 1)) ∧
      (∀ w : FmtS, guardOf w.n w.p (t.engine e) = false →
        ∀ c ∈ [Instr.mfs e w, .mts e w], exec c s = .next (t.retire e (t.engine e) 1)) ∧
      (∀ w : FmtB, guardOf w.n w.p (t.engine e) = false → exec (.br e w) s = .next (t.retire e (t.engine e) 1))) ∧
    (Fetches s e 2 t → ∀ w : FmtX, guardOf w.n w.p (t.engine e) = false →
      ∀ c ∈ [Instr.movx e w, .addx e w, .ldx e w, .stx e w], exec c s = .next (t.retire e (t.engine e) 2))

/-- Taking a trap (R78): the saved registers, ESTAT.TRAP and the pc change as the rule says and nothing else does; in a handler, or with
none, the engine stops in Trapped. An instruction with an undefined function, or with a field that must be 0 and is not, traps ILLEGAL with
the instruction word in s.eval (R54, R77). -/
def Obligations.TrapEntry : Prop :=
  (∀ (s : State) (e : Eng) (c : Cause) (val : DWord) (words : Nat),
     let x := s.engine e
     let y := { x with epc := x.pc, ecause := BitVec.ofNat 8 c.code, eval := val,
                       status := BitVec.ofNat 3 (x.status.toNat % 2 + words * 2) }
     (x.status.toNat % 2 = 1 ∨ x.tvec = 0 → s.trap e c val words =
       (((s.set F.ENG_ESTAT_TRAP c.code e).setEngine e y).stopEngine e esTrapped).report C.eng_trap_unhandled
         (mkArg none (some e) c.code)) ∧
     (x.status.toNat % 2 = 0 → x.tvec ≠ 0 → s.trap e c val words =
       (s.set F.ENG_ESTAT_TRAP c.code e).setEngine e { y with status := BitVec.ofNat 3 (1 + words * 2), pc := x.tvec })) ∧
  (∀ (e : Eng) (s t : State), Fetches s e 1 t → ∀ w : FmtA, guardOf w.n w.p (t.engine e) = true →
     (14 < w.fn.toNat ∨ (12 < w.fn.toNat ∧ w.b ≠ 0) → exec (.alu e w) s = .next (t.trap e .illegal ((wordA 0x01 w).setWidth 64) 1)) ∧
     (6 < w.fn.toNat ∨ 7 < w.d.toNat → exec (.cmp e w) s = .next (t.trap e .illegal ((wordA 0x02 w).setWidth 64) 1)) ∧
     (2 < w.fn.toNat → exec (.mul e w) s = .next (t.trap e .illegal ((wordA 0x04 w).setWidth 64) 1)) ∧
     (3 < w.fn.toNat → exec (.div e w) s = .next (t.trap e .illegal ((wordA 0x05 w).setWidth 64) 1)) ∧
     (w.d ≠ 0 ∨ w.a ≠ 0 ∨ w.b ≠ 0 → exec (.trap e w) s = .next (t.trap e .illegal ((wordA 0x32 w).setWidth 64) 1)) ∧
     ((t.engine e).status.toNat % 2 = 0 → exec (.rett e w) s = .next (t.trap e .illegal ((wordA 0x33 w).setWidth 64) 1)))

/-- The instructions that compute a general register or a predicate (R56, R57): the result is written to g[D], p[D & 7], or p[FN & 7] of a
compare-immediate; the instruction retires, and after the fetch nothing else changes. -/
def Obligations.IntegerResults : Prop :=
  (∀ (e : Eng) (s t : State),
     (Fetches s e 1 t →
       (∀ (w : FmtA) (v : DWord), guardOf w.n w.p (t.engine e) = true →
         let a := (t.engine e).reg w.a.toNat
         let b := (t.engine e).reg w.b.toNat
         (aluFn w.fn.toNat w.b a b = some v → exec (.alu e w) s = .next (t.setD e w.d v)) ∧
         (mulFn w.fn.toNat a b = some v → exec (.mul e w) s = .next (t.setD e w.d v)) ∧
         (b ≠ 0 → divFn w.fn.toNat a b = some v → exec (.div e w) s = .next (t.setD e w.d v)) ∧
         (w.fn.toNat < 8 → exec (.sel e w) s = .next (t.setD e w.d (if (t.engine e).pred w.fn.toNat then a else b)))) ∧
       (∀ w : FmtI,
         let d := (t.engine e).reg w.d.toNat
         let sh := 16 * (w.fn.toNat % 4)
         (w.fn.toNat < 4 → exec (.movi e w) s = .next (t.setD e w.d (zext16 w.imm <<< sh))) ∧
         (4 ≤ w.fn.toNat → w.fn.toNat < 8 → exec (.movi e w) s =
           .next (t.setD e w.d ((d &&& ~~~((0xFFFF : DWord) <<< sh)) ||| (zext16 w.imm <<< sh)))) ∧
         (8 ≤ w.fn.toNat → w.fn.toNat < 12 → exec (.movi e w) s = .next (t.setD e w.d (sext16 w.imm <<< sh))) ∧
         (w.fn = 0 → exec (.addi e w) s = .next (t.setD e w.d (d + sext16 w.imm))) ∧
         (w.fn.toNat < 4 → exec (.andi e w) s = .next (t.setD e w.d (d &&& (zext16 w.imm <<< sh)))) ∧
         (w.fn.toNat < 4 → exec (.ori e w) s = .next (t.setD e w.d (d ||| (zext16 w.imm <<< sh)))) ∧
         (w.fn.toNat < 4 → exec (.xori e w) s = .next (t.setD e w.d (d ^^^ (zext16 w.imm <<< sh)))) ∧
         (w.imm.toNat < 64 → ∀ v, shiFn w.fn.toNat w.imm.toNat d = some v → exec (.shi e w) s = .next (t.setD e w.d v)))) ∧
     (Fetches s e 2 t → ∀ w : FmtX, guardOf w.n w.p (t.engine e) = true →
       let a := (t.engine e).reg w.a.toNat
       (w.fn = 0 → exec (.movx e w) s = .next (t.setD e w.d (w.imm.signExtend 64) 2)) ∧
       (w.fn = 1 → exec (.movx e w) s = .next (t.setD e w.d ((w.imm.setWidth 64 <<< 32) ||| (a &&& 0xFFFFFFFF)) 2)) ∧
       (w.fn = 2 → exec (.movx e w) s = .next (t.setD e w.d (w.imm.setWidth 64) 2)) ∧
       (w.fn = 0 → exec (.addx e w) s = .next (t.setD e w.d (a + w.imm.signExtend 64) 2)))) ∧
  (∀ (e : Eng) (s t : State), Fetches s e 1 t →
     (∀ (w : FmtA) (v : Bool), guardOf w.n w.p (t.engine e) = true → w.d.toNat < 8 →
       (cmpFn w.fn.toNat ((t.engine e).reg w.a.toNat) ((t.engine e).reg w.b.toNat) = some v →
         exec (.cmp e w) s = .next (t.retire e ((t.engine e).setPred w.d.toNat v) 1)) ∧
       (w.a.toNat < 8 → w.b.toNat < 8 → plogFn w.fn.toNat ((t.engine e).pred w.a.toNat) ((t.engine e).pred w.b.toNat) = some v →
         exec (.plog e w) s = .next (t.retire e ((t.engine e).setPred w.d.toNat v) 1))) ∧
     (∀ w : FmtI, w.fn.toNat < 8 →
       let d := (t.engine e).reg w.d.toNat
       let put := fun v => t.retire e ((t.engine e).setPred w.fn.toNat v) 1
       exec (.cmpeqi e w) s = .next (put (d == sext16 w.imm)) ∧
       exec (.cmplti e w) s = .next (put (d.slt (sext16 w.imm))) ∧
       exec (.cmpltui e w) s = .next (put (d.ult (sext16 w.imm)))))

/-- A general register reads what was last written to it, and g0 reads 0 and discards writes; a predicate likewise, with p0 reading 1 (R50). -/
def Obligations.RegistersReadBack : Prop :=
  ∀ (x : Engine) (r q : Nat) (v : DWord) (b : Bool),
    ((x.setReg r v).reg q = if q = 0 then 0 else if q = r then v else x.reg q) ∧
    (r < 8 → q < 8 → (x.setPred r b).pred q = if q = 0 then true else if q = r then b else x.pred q)

/-- DIV of −2⁶³ by −1 gives −2⁶³ and REM of them 0, and neither traps; a zero divisor traps DIVZERO with s.eval 0 (R56, R77). -/
def Obligations.DivisionCorners : Prop :=
  ∀ (e : Eng) (s t : State) (w : FmtA), Fetches s e 1 t → guardOf w.n w.p (t.engine e) = true →
    let a := (t.engine e).reg w.a.toNat
    let b := (t.engine e).reg w.b.toNat
    (a = BitVec.intMin 64 → b = -1 → w.fn = 2 → exec (.div e w) s = .next (t.setD e w.d (BitVec.intMin 64))) ∧
    (a = BitVec.intMin 64 → b = -1 → w.fn = 3 → exec (.div e w) s = .next (t.setD e w.d 0)) ∧
    (b = 0 → w.fn.toNat < 4 → exec (.div e w) s = .next (t.trap e .divzero 0 1))

/-- Loads and stores of the local store (R58): the bytes are read or written at the effective address, the register takes the extended value,
and the instruction retires. A misaligned one traps ALIGN, and one outside the spaces of R35 traps SPACE, with the address in s.eval. -/
def Obligations.LocalLoadsAndStores : Prop :=
  (∀ (e : Eng) (s t : State),
     (Fetches s e 1 t → ∀ w : FmtM,
       let a := t.addrM e w
       let n := 2 ^ w.sz.toNat
       a.toNat % n = 0 → inLocal a.toNat n = true →
         (¬(w.s = true ∧ w.sz = 3) → (t.readLocal e a.toNat n).bad = false →
           exec (.ld e w) s = .next ((t.readLocal e a.toNat n).st.setD e w.d (extendLoad w.s n (leNat (t.readLocal e a.toNat n).bytes)))) ∧
         (w.s = false →
           let v := t.writeLocal e a.toNat (leBytes n ((t.engine e).reg w.d.toNat).toNat) true
           exec (.st e w) s = .next (v.retire e (v.engine e) 1))) ∧
     (Fetches s e 2 t → ∀ w : FmtX, guardOf w.n w.p (t.engine e) = true → w.fn.toNat < 8 →
       let a := t.addrX e w
       let n := 2 ^ (w.fn.toNat % 4)
       a.toNat % n = 0 → inLocal a.toNat n = true →
         (¬(w.fn.getLsbD 2 = true ∧ w.fn.toNat % 4 = 3) → (t.readLocal e a.toNat n).bad = false →
           exec (.ldx e w) s =
             .next ((t.readLocal e a.toNat n).st.setD e w.d (extendLoad (w.fn.getLsbD 2) n (leNat (t.readLocal e a.toNat n).bytes)) 2)) ∧
         (w.fn.toNat < 4 →
           let v := t.writeLocal e a.toNat (leBytes n ((t.engine e).reg w.d.toNat).toNat) true
           exec (.stx e w) s = .next (v.retire e (v.engine e) 2)))) ∧
  (∀ (e : Eng) (s t : State), Fetches s e 1 t → ∀ w : FmtM, w.s = false →
     let a := t.addrM e w
     let n := 2 ^ w.sz.toNat
     (a.toNat % n ≠ 0 → ∀ c ∈ [Instr.ld e w, .st e w], exec c s = .next (t.trap e .align a 1)) ∧
     (a.toNat % n = 0 → inLocal a.toNat n = false → inTarn a.toNat n = false → inIo a.toNat n = false →
       ∀ c ∈ [Instr.ld e w, .st e w], exec c s = .next (t.trap e .space a 1)))

/-- ATOM on an aligned word of Tarn (R60) reads it, stores what its function gives and returns the old value; FENCE with every other field
0 retires (its accesses are complete by log entry 5). -/
def Obligations.AtomicsAndFence : Prop :=
  ∀ (e : Eng) (s t : State), Fetches s e 1 t →
    (∀ w : FmtA, guardOf w.n w.p (t.engine e) = true → w.fn.toNat < 3 →
      let x := t.engine e
      let a := (x.reg w.a.toNat).toNat
      let r := t.readTarn (a - 0x10000000) 8
      let old := w64 (leNat r.bytes)
      inTarn a 8 = true → a % 8 = 0 → r.bad = false →
        (∀ v, atomNew w.fn.toNat old (x.reg w.d.toNat) (x.reg w.b.toNat) = some v →
          exec (.atom e w) s = .next ((r.st.writeTarnGuarded (a - 0x10000000) (leBytes 8 v.toNat) true).setD e w.d old)) ∧
        (atomNew w.fn.toNat old (x.reg w.d.toNat) (x.reg w.b.toNat) = none → exec (.atom e w) s = .next (r.st.setD e w.d old))) ∧
    exec (.fence e { n := false, p := 0, d := 0, a := 0, b := 0, fn := 0 }) s = .next (t.retire e (t.engine e) 1)

/-- Branches, jumps and the other control instructions (R61). A target that is not a multiple of 4 traps ALIGN at the branch, and one outside
the local store SPACE, with s.eval set to the target. -/
def Obligations.ControlInstructions : Prop :=
  (∀ (e : Eng) (s t : State), Fetches s e 1 t →
     let x := t.engine e
     let pc := x.pc.setWidth 64
     (∀ w : FmtB, guardOf w.n w.p x = true →
       let target : DWord := pc + 4 * w.disp.signExtend 64
       target.toNat % 4 = 0 → target.toNat < localSize →
         exec (.br e w) s = .next (t.setEngine e
           { (if w.l then x.setReg 31 (pc + 4) else x) with pc := target.setWidth 32, steps := x.steps + 1 })) ∧
     (∀ w : FmtA, guardOf w.n w.p x = true →
       (w.b = 0 → w.fn = 0 → (x.reg w.a.toNat).toNat % 4 = 0 → (x.reg w.a.toNat).toNat < localSize →
         exec (.jmpr e w) s = .next (t.setEngine e
           { x.setReg w.d.toNat (pc + 4) with pc := (x.reg w.a.toNat).setWidth 32, steps := x.steps + 1 })) ∧
       (w.d = 0 → w.a = 0 → w.b = 0 → exec (.trap e w) s = .next (t.trap e .swtrap (w.fn.setWidth 64) 1)) ∧
       (x.status.toNat % 2 = 1 → exec (.rett e w) s = .next (t.setEngine e
         { x with pc := if w.fn.toNat % 2 = 1 then x.epc + w32 (4 * (x.status.toNat / 2)) else x.epc,
                  status := BitVec.ofNat 3 (2 * (x.status.toNat / 2)), steps := x.steps + 1 })) ∧
       exec (.halt e w) s = .next ((t.retire e x 1).stopEngine e esHalted) ∧
       (w.d = 0 → w.a = 0 → w.b = 0 → w.fn = 0 → exec (.nop e w) s = .next (t.retire e x 1)))) ∧
  (∀ (e : Eng) (s t : State), Fetches s e 1 t → ∀ w : FmtA, guardOf w.n w.p (t.engine e) = true → w.b = 0 → w.fn = 0 →
     let a := (t.engine e).reg w.a.toNat
     (a.toNat % 4 ≠ 0 → exec (.jmpr e w) s = .next (t.trap e .align a 1)) ∧
     (a.toNat % 4 = 0 → localSize ≤ a.toNat → exec (.jmpr e w) s = .next (t.trap e .space a 1)))

/-- MFS reads and MTS writes the special registers of R51; SELFT returns the word its test gives (R75). -/
def Obligations.SpecialRegisters : Prop :=
  ∀ (e : Eng) (s t : State), Fetches s e 1 t →
    (∀ (w : FmtS) (v : DWord), guardOf w.n w.p (t.engine e) = true → s.mfsVal e w.sr.toNat ≠ none → t.mfsVal e w.sr.toNat = some v →
      exec (.mfs e w) s = .next (t.retire e (((t.engine e).afterMfs w.sr.toNat).setReg w.d.toNat v) 1)) ∧
    (∀ (w : FmtS) (y : Engine), guardOf w.n w.p (t.engine e) = true →
      (t.engine e).mts w.sr.toNat ((t.engine e).reg w.a.toNat) = some y → exec (.mts e w) s = .next (t.retire e y 1)) ∧
    (∀ (w : FmtA) (mm : DWord), guardOf w.n w.p (t.engine e) = true → w.a = 0 → w.b = 0 → w.fn = 0 →
      exec (.selft e w mm) s = .next (t.setD e w.d mm))

/-- WAIT, its wake-ups and EVCNT (R62, R63). ANY takes the enabled masked inputs with a count of at least 1, ALL needs every masked input to be
one of them, and a mask of 0 never wakes. -/
def Obligations.WaitingOnEvents : Prop :=
  (∀ (e : Eng) (s t : State),
     (Fetches s e 1 t → ∀ w : FmtA, guardOf w.n w.p (t.engine e) = true →
       let x := t.engine e
       let mask := x.reg w.a.toNat
       let tmo := x.reg w.b.toNat
       let all := decide (w.fn.toNat = 1)
       (w.fn.toNat < 2 → mask ≠ 0 ∨ tmo ≠ 0 →
         (∀ bits, waitCond t e mask all = some bits → exec (.wait e w) s = .next ((consume e bits 64 t).setD e w.d bits)) ∧
         (waitCond t e mask all = none → exec (.wait e w) s = .next ((t.setEngine e { x with
           wait := some { mask := mask, all := all, until_ := if tmo = 0 then none else some (w64 (t.tbNs 0) + tmo), d := w.d } }).setEstate e
             esWaiting))) ∧
       (w.fn.toNat < 2 → mask = 0 → tmo = 0 → exec (.wait e w) s = .next (t.trap e .waitDead 0 1)) ∧
       (w.a = 0 → w.b = 0 → exec (.evcnt e w) s = .next (t.setD e w.d (w64 (t.get F.ENG_EVROUTE_COUNT e w.fn.toNat))))) ∧
     (∀ w, (s.engine e).wait = some w → s.estate e = esWaiting →
       (∀ bits, waitCond s e w.mask w.all = some bits → exec (.waitWake e) s = .next ((consume e bits 64 s).endWait e w.d bits)) ∧
       (∀ i : DWord, w.until_ = some i → i.toNat ≤ s.tbNs 0 → waitCond s e w.mask w.all = none →
         exec (.waitTimeout e) s = .next (s.endWait e w.d 0)) ∧
       (∀ (i bits : DWord), w.until_ = some i → i.toNat ≤ s.tbNs 0 → waitCond s e w.mask w.all = some bits →
         exec (.waitTimeout e) s = .next ((consume e bits 64 s).endWait e w.d bits)))) ∧
  (∀ (s : State) (e : Eng) (mask : DWord),
     (waitCond s e 0 true = none ∧ waitCond s e 0 false = none) ∧
     (∀ bits, waitCond s e mask true = some bits → bits = mask ∧ mask ≠ 0 ∧
       ∀ i : Fin 64, mask.getLsbD i = true → s.on F.ENG_EVROUTE_EN e i = true ∧ 0 < s.get F.ENG_EVROUTE_COUNT e i) ∧
     (∀ bits, waitCond s e mask false = some bits → bits ≠ 0 ∧
       ∀ i : Fin 64, bits.getLsbD i =
         (mask.getLsbD i && s.on F.ENG_EVROUTE_EN e i && decide (0 < s.get F.ENG_EVROUTE_COUNT e i))))

/-- The compare channels (R64): arming sets the channel, a target already reached pulses at once and disarms, and g[D] says whether an
armed target was replaced; the pulse commands are the same test. -/
def Obligations.CompareChannels : Prop :=
  ∀ (e : Eng) (s t : State) (k : Fin 32),
    (Fetches s e 1 t → ∀ w : FmtA, guardOf w.n w.p (t.engine e) = true → w.b = BitVec.ofNat 5 k.val →
      let target := (t.engine e).reg w.a.toNat
      let p := t.pchanTest k
      let q := t.tchanTest k
      (w.fn.toNat < 2 → exec (.armp e w) s =
        .next (((p.setPchan k { armed := true, target := target, sel := BitVec.ofNat 2 w.fn.toNat }).pchanTest k).setD e w.d
          (if (p.pchanOf k).armed then 1 else 0))) ∧
      (w.fn.toNat < 4 → exec (.armt e w) s =
        .next (((q.setTchan k { armed := true, target := target, sel := BitVec.ofNat 2 w.fn.toNat }).tchanTest k).setD e w.d
          (if (q.tchanOf k).armed then 1 else 0)))) ∧
    (let c := s.pchanOf k
     c.armed = true → posReached s c = true →
       exec (.positionComparePulse k) s = .next ((s.setPchan k { c with armed := false }).postEvent (0x010 + k))) ∧
    (let c := s.tchanOf k
     c.armed = true → timeReached s c = true →
       exec (.timeComparePulse k) s = .next ((s.setTchan k { c with armed := false }).postEvent (0x030 + k)))

/-- The deadlines an engine program sets (R43, R65), and the deadlines that pass unmet (R42, R43). -/
def Obligations.ProgramDeadlines : Prop :=
  ∀ (e : Eng) (s t : State) (w : FmtA) (d : DWord), 8 ≤ w.b.toNat → w.b.toNat ≤ 15 →
    (Fetches s e 1 t → guardOf w.n w.p (t.engine e) = true →
      (w.fn = 0 → exec (.dln e w) s = .next ((t.setDeadline w.b.toNat (some ((t.engine e).reg w.a.toNat))).setD e w.d
        (if (t.deadlineOf w.b.toNat).isSome then 1 else 0))) ∧
      (w.fn = 1 → w.a = 0 → t.deadlineOf w.b.toNat = some d → exec (.dln e w) s =
        .next (((t.setDeadline w.b.toNat none).recordSlack w.b.toNat ((d.toNat : Int) - (t.tbNs 0 : Int))).setD e w.d 0)) ∧
      (w.fn = 1 → w.a = 0 → t.deadlineOf w.b.toNat = none → exec (.dln e w) s = .next (t.setD e w.d 1))) ∧
    (∀ (g : Fin 16) (n : DWord), 8 ≤ g.val → s.deadlineOf g = some d → d.toNat ≤ s.tbNs 0 → Tab.get (fun _ => false) s.eng.passed g = false →
      exec (.deadlineMiss g n) s = .next (({ s with eng := { s.eng with passed := Tab.put (fun _ => false) s.eng.passed g true } } : State).recordMiss
        g none none))

/-- SEND and RECV (R66). -/
def Obligations.Mailboxes : Prop :=
  ∀ (e : Eng) (s t : State), Fetches s e 1 t → ∀ w : FmtA, guardOf w.n w.p (t.engine e) = true →
    let x := t.engine e
    let dest := (x.reg w.a.toNat).toNat
    (w.b.toNat % 2 = 0 → w.fn = 0 →
      (dest ≤ 17 → (t.engine dest).mailbox.length < 16 → exec (.send e w) s = .next (((t.setEngine dest { t.engine dest with
          mailbox := (t.engine dest).mailbox ++ [{ src := BitVec.ofNat 5 e, lo := x.reg w.b.toNat, hi := x.reg (w.b.toNat + 1) }] }).postEvent
            (0x090 + dest)).setD e w.d 0)) ∧
      (dest ≤ 17 → 16 ≤ (t.engine dest).mailbox.length → exec (.send e w) s = .next (t.setD e w.d 1)) ∧
      (17 < dest → exec (.send e w) s = .next (t.setD e w.d 2))) ∧
    (w.d.toNat % 2 = 0 → w.b = 0 → w.fn.toNat < 8 →
      (x.mailbox = [] → exec (.recv e w) s = .next (t.retire e (x.setPred w.fn.toNat false) 1)) ∧
      (∀ m rest, x.mailbox = m :: rest → exec (.recv e w) s = .next (t.retire e
        (((({ x with mailbox := rest, msrc := m.src } : Engine).setReg w.d.toNat m.lo).setReg (w.d.toNat + 1) m.hi).setPred w.fn.toNat true) 1)))

/-- DMA (R67): a well-formed descriptor goes into flight and g[D] = 0, on a halted channel it completes at once with status 3 (R361), with
8 in flight the engine waits, and a malformed one traps DMA_FORM. DMA_COMPLETION (R68) makes the transfer, halts the channel at an
uncorrectable source, frees the place and records the completion; a waiting DMA is then issued. -/
def Obligations.EngineDma : Prop :=
  ∀ (e : Eng) (s t : State),
    (Fetches s e 1 t → ∀ w : FmtA, guardOf w.n w.p (t.engine e) = true → w.b = 0 → w.fn = 0 →
      let a := (t.engine e).reg w.a.toNat
      let r := t.readEng e a.toNat 32
      let x := r.st.engine e
      a.toNat % 32 = 0 → (inLocal a.toNat 32 || inTarn a.toNat 32) = true → r.bad = false →
        (dmaForm r.bytes = none → exec (.dma e w) s = .next (r.st.trap e .dmaForm a 1)) ∧
        (∀ j, dmaForm r.bytes = some j → x.dma.length < 8 → bitN (r.st.get F.TARN_DMAHALT_HALT) e = 0 → exec (.dma e w) s =
          .next (((r.st.setEngine e { x with dma := x.dma ++ [j] }).set F.ENG_ESTAT_DMAFLT (x.dma.length + 1) e).setD e w.d 0)) ∧
        (∀ j, dmaForm r.bytes = some j → x.dma.length < 8 → bitN (r.st.get F.TARN_DMAHALT_HALT) e = 1 →
          exec (.dma e w) s = .next ((r.st.dmaEntry e j 3).setD e w.d 0)) ∧
        (∀ j, dmaForm r.bytes = some j → 8 ≤ x.dma.length →
          exec (.dma e w) s = .next (r.st.setEngine e { x with stall := some (.dma j w.d) }))) ∧
    (∀ (k : Fin 8) (j : DmaJob), (s.engine e).dma[k.val]? = some j →
      let p := s.dmaTransfer e j
      let u := if p.1 = 2 then p.2.set F.TARN_DMAHALT_HALT (Nat.lor (p.2.get F.TARN_DMAHALT_HALT) (2 ^ e.val)) else p.2
      let v := ((u.setEngine e { u.engine e with dma := (u.engine e).dma.eraseIdx k.val }).set F.ENG_ESTAT_DMAFLT
        ((u.engine e).dma.length - 1) e).dmaEntry e j p.1
      ((∀ i d, (v.engine e).stall ≠ some (.dma i d)) → exec (.dmaCompletion e k) s = .next v) ∧
      (∀ i d, (v.engine e).stall = some (.dma i d) →
        exec (.dmaCompletion e k) s = .next ((v.setEngine e { v.engine e with stall := none }).dmaIssue e i d)))

/-- DESC presents a descriptor at its gate and the engine waits; the gate's grant (R28, R30) ends it with 0 ACCEPTED, 1 STALE or 2 WRONGROLE;
GCLM reads the recorded claim (R69). A unit's completion (R31): the oldest descriptor leaves its gate's queue, with event 0x0C0 + g when CEV
is 1; a unit that holds one longer than STALLTO stops and reports eng.unit_stall (R45). -/
def Obligations.DescriptorsAtGates : Prop :=
  (∀ (e : Eng) (s t : State),
     (Fetches s e 1 t → ∀ w : FmtA, guardOf w.n w.p (t.engine e) = true →
       let a := (t.engine e).reg w.a.toNat
       let g := ((t.engine e).reg w.b.toNat).toNat % 256
       let r := t.readEng e a.toNat 32
       let v := r.st.setGate g { r.st.gate g with presented := (r.st.gate g).presented ++ [mkDesc r.st e r.bytes] }
       (w.fn = 0 → t.holds e = true → t.gateExists g = true → a.toNat % 32 = 0 → (inLocal a.toNat 32 || inTarn a.toNat 32) = true →
         r.bad = false → exec (.desc e w) s = .next (v.setEngine e { v.engine e with stall := some (.desc g w.d) })) ∧
       (w.fn = 0 → t.holds e = false → exec (.desc e w) s = .next (t.trap e .norole 0x59 1)) ∧
       (w.fn = 0 → t.holds e = true → t.gateExists g = false → exec (.desc e w) s = .next (t.setD e w.d 3)) ∧
       (let h := a.toNat % 256
        exec (.gclm e w) s = .next (t.setD e w.d (if t.gateExists h then (t.gate h).claim.setWidth 64 else 0)))) ∧
     (∀ (g : Fin 34) (d : Desc), (s.gate g).presented.find? (fun x => x.engine == e.val) = some d → (s.gate g).queue.length < 16 →
       let u := s.setGate g { s.gate g with presented := (s.gate g).presented.filter (fun x => x.engine ≠ e.val) }
       let stale := u.report C.eng_gate_stale (mkArg none (some g.val) d.claim.toNat)
       (d.role.toNat ≠ gateRole g → exec (.gateGrant g e) s = .next (stale.endDesc e 2)) ∧
       (d.role.toNat = gateRole g → d.claim.toNat < (s.gate g).claim.toNat → exec (.gateGrant g e) s = .next (stale.endDesc e 1)) ∧
       (d.role.toNat = gateRole g → (s.gate g).claim.toNat ≤ d.claim.toNat →
         exec (.gateGrant g e) s = .next ((u.acceptDesc g d).endDesc e 0)))) ∧
  (∀ (s : State) (g : Fin 34) (d : Desc) (rest : List Desc), (s.gate g).queue = d :: rest → (s.gate g).stopped = false →
     (gateMarks g = false ∨ d.done = true →
       let u := s.setGate g { s.gate g with queue := rest }
       let v := if d.cev then u.postEvent (0x0C0 + g.val) else u
       let c : State := { v with col := { v.col with taken := v.col.taken - 1 } }
       (¬(9 ≤ g.val ∧ g.val ≤ 16) → g.val ≠ camGate → exec (.unitCompletion g) s = .next v) ∧
       (9 ≤ g.val → g.val ≤ 16 → exec (.unitCompletion g) s =
         .next (v.setFireBar (g - 9) { v.fireBar (g - 9) with taken := (v.fireBar (g - 9)).taken - 1 })) ∧
       (g.val = camGate → d.op ≠ 3 → d.op ≠ 4 → exec (.unitCompletion g) s = .next c) ∧
       (g.val = camGate → c.feature 5 = true → d.op = 3 → exec (.unitCompletion g) s = .next (c.colPoll.colPeriod d.w6.toNat)) ∧
       (g.val = camGate → c.feature 5 = true → d.op = 4 → exec (.unitCompletion g) s = .next (c.colPoll.bandDone d))) ∧
     (d.at_ + max 1 (s.get F.ENG_STALLTO_TIMEOUT) * 1000 < s.now → exec (.unitStall g) s = .next
       ((s.setGate g { s.gate g with stopped := true }).report C.eng_unit_stall (mkArg none (some g.val) d.tag.toNat))))

/-- CLAIM and YIELD (R74): the claim is (epoch << 5) | engine number, with the role in ESTAT; YIELD gives both up; an epoch of 0 or of 2²⁷
and above, or a role that the engine may not take, traps CLAIM_RANGE. BEAT, GIVEUP and ASSERT (R436, R439) by an engine, a missed beat without
a pair, and the cold takeover of the lowest role that waits (R441). -/
def Obligations.ClaimAndYield : Prop :=
  (∀ (e : Eng) (s t : State), Fetches s e 1 t → ∀ w : FmtA, guardOf w.n w.p (t.engine e) = true →
     let x := t.engine e
     let r := (x.reg w.a.toNat).toNat % 16
     let ep := x.reg w.b.toNat
     let c := w32 (ep.toNat * 32 + e.val)
     (ep ≠ 0 → ep.toNat < 2 ^ 27 → x.roles.getLsbD r = true → exec (.claim e w) s = .next
       ((((t.set F.ENG_ESTAT_ROLE r e).set F.ENG_ESTAT_HOLDS 1 e).setEngine e { x with claim := c }).setD e w.d (c.setWidth 64))) ∧
     (ep = 0 ∨ 2 ^ 27 ≤ ep.toNat → exec (.claim e w) s = .next (t.trap e .claimRange ep 1)) ∧
     (ep ≠ 0 → ep.toNat < 2 ^ 27 → x.roles.getLsbD r = false → exec (.claim e w) s = .next (t.trap e .claimRange (w64 r) 1)) ∧
     exec (.yield e w) s = .next (((t.set F.ENG_ESTAT_ROLE 0 e).set F.ENG_ESTAT_HOLDS 0 e).retire e { x with claim := 0 } 1)) ∧
  (∀ (e : Eng) (s : State) (v : Word) (r : Fin 16),
     (Reaches s 0x11000c → exec (.beat (.engine e)) s = .next (beatRoles e 16 s)) ∧
     (Reaches s 0x110010 → heldRoles (s.setFailed e) e 16 = [] →
       exec (.giveup (.engine e)) s = .next ((s.setFailed e).report C.spr_diag_fail (mkArg none none e.val))) ∧
     (Reaches s 0x110010 → ∀ k ks, heldRoles (s.setFailed e) e 16 = k :: ks → exec (.giveup (.engine e)) s = .next ((k :: ks).foldl
       (fun s r => (s.report C.spr_diag_fail (mkArg none (some r) e.val)).triggerTake r) (s.setFailed e))) ∧
     (Reaches s 0x110014 → s.holds e = true → exec (.assertClaim (.engine e) v) s = .next (s.raiseRecord (s.roleOf e) v)) ∧
     (∀ h t, s.holderOf r = some h → Tab.get (fun _ => none) s.spr.beatAt r.val = some t → s.on F.SPR_RCTL_WATCH r = true →
       s.on F.SPR_RCTL_PAIR r = false → s.elapsedUs t (s.hbto r) = true → s.takeoverBusy r = false →
       exec (.heartbeatTimeout r false) s = .next ((({ s with spr := { s.spr with beatAt := Tab.put (fun _ => none) s.spr.beatAt r.val none } } :
         State).report C.spr_hb_lost (mkArg none (some r.val) h)).triggerTake r)) ∧
     (∀ h, s.takeoverAllowed = true → s.on F.SPR_TKSTAT_BUSY = false → listMin? s.spr.pendingTake = some r.val → s.holderOf r = some h →
       let u := ((({ s with spr := { s.spr with pendingTake := s.spr.pendingTake.filter (· ≠ r.val) } } : State).set F.SPR_TKSTAT_BUSY 1).set
         F.SPR_TKSTAT_ROLE r).bump F.SPR_TKSTAT_COUNT |>.report C.spr_takeover (mkArg none (some r.val) h)
       let w := if u.estate h = esHalted then u else u.stopEngine h esHalted
       let p := takeSpare r h (w.get F.SPR_IMG_ADDR r * 64) (w.get F.SPR_RCLAIM_CLAIM r / 32 + 1) 18 w
       (w.get F.SPR_IMG_ADDR r ≠ 0 → p.1 = true → exec (.coldTakeover r) s = .next p.2) ∧
       (w.get F.SPR_IMG_ADDR r ≠ 0 → p.1 = false → exec (.coldTakeover r) s =
         .next ((p.2.set F.SPR_TKSTAT_BUSY 0).report C.spr_no_spare (mkArg none (some r.val) h))) ∧
       (w.get F.SPR_IMG_ADDR r = 0 → exec (.coldTakeover r) s =
         .next ((w.set F.SPR_TKSTAT_BUSY 0).report C.spr_no_spare (mkArg none (some r.val) h)))))

/-- ELOAD answers the code of R80, and with 0 the target enters Loading while the executing engine waits; IMAGE_START (R81) starts the
image and ends the ELOAD, or the takeover that asked for it. -/
def Obligations.EngineImages : Prop :=
  ∀ (e : Eng) (s t : State),
    (Fetches s e 1 t → ∀ w : FmtA, guardOf w.n w.p (t.engine e) = true → w.fn = 0 →
      let a := ((t.engine e).reg w.a.toNat).toNat
      let k := ((t.engine e).reg w.b.toNat).toNat
      let c := t.imageCode a k (some e.val)
      let u := c.2.startLoad k { addr := a, by_ := some e.val, role := 0, epoch := 0 }
      (c.1 = 0 → exec (.eload e w) s = .next (u.setEngine e { u.engine e with stall := some (.eload k w.d) })) ∧
      (c.1 ≠ 0 → exec (.eload e w) s = .next (c.2.setD e w.d (w64 c.1)))) ∧
    (∀ l : LoadJob, (s.engine e).loading = some l →
      let v := (s.startImage e l.addr).sec.relPend.foldl (fun s k => if s.get F.SEC_VBASE_VALUE k = l.addr then s.freeVerified k else s)
        (s.startImage e l.addr)
      (l.by_ = none → exec (.imageStart e) s = .next (v.endTakeover e l.role l.epoch)) ∧
      (∀ i d, l.by_ = some i → (v.engine i).stall = some (.eload e.val d) →
        exec (.imageStart e) s = .next ((v.setEngine i { v.engine i with stall := none }).setD i d 0)))

/-- The instructions on commit groups (R70, R71, R82 to R97): opening, adding word writes and table entries to an Open group, committing,
aborting or freeing, and the status word. Without a role they trap NOROLE, and on another role's group OWNER. -/
def Obligations.CommitGroupInstructions : Prop :=
  ∀ (e : Eng) (s t : State), Fetches s e 1 t → ∀ w : FmtA, guardOf w.n w.p (t.engine e) = true →
    let x := t.engine e
    let d := (x.reg w.d.toNat).toNat
    let a := (x.reg w.a.toNat).toNat
    let mine := fun g => t.holds e = true ∧ (g < 64 → t.gstate g ≠ cgFree → t.get F.CMT_GSTAT_ROLE g = t.roleOf e)
    let isOpen := fun g => g < 64 ∧ t.gstate g = cgOpen
    (t.holds e = true → a < 2 →
      (∀ g u, t.openGroup (t.roleOf e) (x.reg w.a.toNat == 1) = some (g, u) → exec (.cgopen e w) s = .next (u.setD e w.d (w64 g))) ∧
      (t.openGroup (t.roleOf e) (x.reg w.a.toNat == 1) = none → exec (.cgopen e w) s = .next (t.setD e w.d (BitVec.allOnes 64)))) ∧
    (mine d → isOpen d →
      (let u := t.groupWord d a ((x.reg w.b.toNat).setWidth 32)
       exec (.cgw e w) s = .next (u.retire e (u.engine e) 1)) ∧
      (let u := t.groupDesc d a
       exec (.cgt e w) s = .next (u.retire e (u.engine e) 1))) ∧
    (let kind := w.fn.toNat / 8
     let sel := w.fn.toNat % 8
     let c := t.commitGroup a kind sel (x.reg w.b.toNat)
     kind ≤ 4 → ((kind = 0 ∨ kind = 3) → sel = 0) → (kind = 4 → sel ≤ 3) → mine a → isOpen a →
       (∀ n, c.1 = some n → exec (.cgc e w) s = .next (c.2.setD e w.d (w64 n))) ∧
       (c.1 = none → exec (.cgc e w) s = .next (c.2.setD e w.d (BitVec.allOnes 64)))) ∧
    (mine a →
      let u := if 64 ≤ a then t else if t.gstate a = cgOpen ∨ t.gstate a = cgCommitted then t.abortGroup a caSoftware
        else if t.gstate a = cgApplied ∨ t.gstate a = cgAborted then
          (((t.wr (R.CMT_GSTAT.off a 0) 0).wr (R.CMT_GBND.off a 0) 0).wr (R.CMT_GTKT.off a 0) 0).set64 F.CMT_GLINELO_VALUE F.CMT_GLINEHI_VALUE 0 a
        else t
      exec (.cga e w) s = .next (u.retire e (u.engine e) 1)) ∧
    exec (.cgs e w) s = .next (t.setD e w.d (if a < 64 then (t.rd (R.CMT_GSTAT.off a 0)).setWidth 64 else 0)) ∧
    (t.holds e = false →
      exec (.cgopen e w) s = .next (t.trap e .norole 0x60 1) ∧ exec (.cgw e w) s = .next (t.trap e .norole 0x61 1) ∧
      exec (.cgt e w) s = .next (t.trap e .norole 0x62 1) ∧ exec (.cga e w) s = .next (t.trap e .norole 0x64 1)) ∧
    (t.holds e = true → a < 64 → t.gstate a ≠ cgFree → t.get F.CMT_GSTAT_ROLE a ≠ t.roleOf e →
      exec (.cga e w) s = .next (t.trap e .owner (w64 a) 1))

/-- A TIME group begins to switch when its time base has reached its value (R90); TQUERY answers the live bank and the standby bank's
address of a table that the frame places, and otherwise 0 (R88, R109). -/
def Obligations.TimeGroupsAndTables : Prop :=
  ∀ (s : State) (g : Fin 64) (v : Word),
    (s.gstate g = cgCommitted → s.get F.CMT_GBND_KIND g = 4 → (s.group g).bval.toNat ≤ s.tbNs (s.get F.CMT_GBND_SEL g) →
      (s.group g).begun = false → exec (.timeSwitch g) s = .next ((s.set F.CMT_GSTAT_STATE cgApplying g).beginGroup g)) ∧
    (Reaches s 0x30004 → ∀ n a, tableSize (fieldOf v 0 16) = some n → s.bankAddr (fieldOf v 0 16) true = some a → exec (.tquery v) s =
      .next (((s.set F.CMT_TANS_VALID 1).set F.CMT_TANS_LIVE (s.bankB (fieldOf v 0 16)).toNat).set F.CMT_TANS_STANDBY (a / 64))) ∧
    (Reaches s 0x30004 → tableSize (fieldOf v 0 16) = none → exec (.tquery v) s = .next (s.wr 0x30008 0))

/-- CKPT writes the bank that does not hold the current checkpoint with the next sequence number (R72), and RSTR copies the current one
into the local store, or answers all ones without one (R73). -/
def Obligations.Checkpoints : Prop :=
  ∀ (e : Eng) (s t : State), Fetches s e 1 t → ∀ w : FmtA, guardOf w.n w.p (t.engine e) = true →
    let x := t.engine e
    let a := (x.reg w.a.toNat).toNat
    (let len := (x.reg w.b.toNat).toNat
     let slot := ckSlot x (t.roleOf e)
     let d := t.readLocal e a len
     let c := d.st.currentBank (slot - 0x10000000)
     let q := match c.1 with
       | none => (0, 1)
       | some (i, k) => (1 - i, (k.seq + 1) % 2 ^ 64)
     let hd := leBytes 8 q.2 ++ leBytes 8 x.line.toNat ++ leBytes 4 x.claim.toNat ++ leBytes 4 len ++ leBytes 4 (c.2.roleOf e)
     let base := slot - 0x10000000 + q.1 * 0x8000
     let u := (c.2.writeTarnGuarded (base + 64) d.bytes true).writeTarnGuarded base
       (hd ++ leBytes 4 (crc32c (hd ++ d.bytes)).toNat ++ List.replicate 32 0) true
     t.holds e = true → len % 64 = 0 → 64 ≤ len → len ≤ 32704 → a % 64 = 0 → a + len ≤ localSize → inTarn slot 0x10000 = true → d.bad = false →
       exec (.ckpt e w) s = .next (u.setD e w.d (w64 q.2))) ∧
    (let slot := ckSlot x ((x.reg w.b.toNat).toNat % 16)
     let c := t.currentBank (slot - 0x10000000)
     a % 64 = 0 → a < localSize → inTarn slot 0x10000 = true →
       (c.1 = none → exec (.rstr e w) s = .next (c.2.setD e w.d (BitVec.allOnes 64))) ∧
       (∀ i k, c.1 = some (i, k) → a + k.data.length ≤ localSize →
         let u := c.2.writeLocal e a k.data
         exec (.rstr e w) s = .next ((u.setEngine e { u.engine e with line := k.line }).setD e w.d (w64 k.data.length))))

/-- The registers of the engine block with an effect of their own (R34, R48, R109): an event input keeps its source while it stays enabled,
ENG.SWEV posts its software events, and CLRMIN sets the least slack to 0x7F_FFFF. Pace and the voltage loop (R44 to R46): the tenth low count
reports eng.pace_low, the first request follows the regulator, an evaluation requests what R44 gives, a transaction is retried at most twice and
is followed by the settle time. -/
def Obligations.EngineBlockWrites : Prop :=
  (∀ (s : State) (e : Eng) (i : Fin 64) (g : Fin 16) (v : Word),
     (let off := R.ENG_EVROUTE.off e i
      Reaches s off →
        (fieldOf (s.rd off) 31 1 = 1 → fieldOf v 31 1 = 1 → exec (.evrouteWrite e i v) s =
          .next ((s.swWrite off v).wr off (fieldPut ((s.swWrite off v).rd off) 0 10 (fieldOf (s.rd off) 0 10)))) ∧
        (¬(fieldOf (s.rd off) 31 1 = 1 ∧ fieldOf v 31 1 = 1) → exec (.evrouteWrite e i v) s = .next (s.swWrite off v))) ∧
     (Reaches s 0x20024 → exec (.swevRaise v) s = .next (raiseSw v 16 s)) ∧
     (let off := R.ENG_GAUGE.off g 0
      let u := s.swWrite off v
      let r := if fieldOf v 30 1 = 1 then u.set F.ENG_SLACKMIN_VALUE 0x7FFFFF g else u
      Reaches s off →
        (s.on F.ENG_GAUGE_EN g = true → exec (.gaugeClrmin g v) s = .next r) ∧
        (s.on F.ENG_GAUGE_EN g = false → r.on F.ENG_GAUGE_EN g = true →
          exec (.gaugeClrmin g v) s = .next ((r.set F.ENG_SLACK_VALID 0 g).set F.ENG_SLACKMIN_VALID 0 g)))) ∧
  (∀ (s : State) (count : BitVec 16) (v : Word) (mv : Nat),
     (let u := s.set F.ENG_PACE_COUNT count.toNat
      let low := if u.get F.ENG_PACE_MIN ≠ 0 ∧ count.toNat < u.get F.ENG_PACE_MIN then satAdd 11 u.eng.paceLow 1 else 0
      let r : State := { u with eng := { u.eng with paceLow := low } }
      (low ≠ 10 → exec (.paceUpdate count) s = .next r) ∧
      (low = 10 → exec (.paceUpdate count) s = .next (r.report C.eng_pace_low (mkArg none none 0)))) ∧
     (Reaches s 0x20010 → s.on F.ENG_AVSCTL_EN = false → (s.swWrite 0x20010 v).on F.ENG_AVSCTL_EN = true →
       let u := (s.swWrite 0x20010 v).set F.ENG_AVSSTAT_CALM 0
       exec (.avsEnable v (some mv)) s = .next
         ((u.set F.ENG_AVSSTAT_VREAD (vreadCode mv)).avsWrite (clampN u.vminCode u.vmaxCode (cdiv (mv - 700) 5))) ∧
       exec (.avsEnable v none) s = .next (u.report C.eng_avs_bus (mkArg none none 0))) ∧
     (s.on F.ENG_AVSCTL_EN = true → s.on F.ENG_AVSSTAT_BUSY = false →
       let q := s.get F.ENG_AVSSTAT_VREQ
       let low : Int := s.get F.ENG_AVSTHR_LOW
       let r := avsEval (s.eng.missFlag && s.on F.ENG_AVSCTL_MISSJUMP) s.eng.least low (s.get F.ENG_AVSTHR_HIGH) s.vminCode s.vmaxCode q
         (max 1 (s.get F.ENG_AVSCTL_UPSTEP)) (max 1 (s.get F.ENG_AVSCTL_HOLD)) (s.get F.ENG_AVSSTAT_CALM)
       let u := ({ s with eng := { s.eng with missFlag := false, least := none, lastEval := s.tbNs 0 } } : State).set F.ENG_AVSSTAT_CALM r.2
       let w := if s.eng.least.any (fun x => decide (x < low)) && q == u.vmaxCode then u.report C.eng_slack_low (mkArg none none 0) else u
       (r.1 = q → exec .avsEvaluation s = .next w) ∧ (r.1 ≠ q → exec .avsEvaluation s = .next (w.avsWrite r.1))) ∧
     (exec (.avsTransactionDone (.voltage mv)) s = .next (s.voltageRead mv) ∧
       ∀ code, s.eng.avsReq = some code →
         exec (.avsTransactionDone .accepted) s = .next (s.set F.ENG_AVSSTAT_VREQ code).settle ∧
         (s.eng.avsFails < 2 →
           exec (.avsTransactionDone .failed) s = .next { s with eng := { s.eng with avsFails := s.eng.avsFails + 1 } }) ∧
         (2 ≤ s.eng.avsFails → exec (.avsTransactionDone .failed) s = .next (s.settle.report C.eng_avs_bus (mkArg none none 0)))) ∧
     (∀ n, s.eng.settleEnd = some n → n ≤ s.now → exec .avsSettleEnd s =
       .next ((({ s with eng := { s.eng with settleEnd := none } } : State).set F.ENG_AVSSTAT_BUSY 0).postEvent 0x162)) ∧
     (∀ n, s.eng.differs = some n → n + 1000000 < s.now → exec .avsMismatch s =
       .next (({ s with eng := { s.eng with differs := none } } : State).report C.eng_avs_mismatch (mkArg none none 0))) ∧
     (Reaches s 0x20014 →
       (min 30 (fieldOf v 8 8) < fieldOf v 0 8 → exec (.avslimWrite v) s = .next (s.set F.ENG_AVSSTAT_LIMERR 1)) ∧
       (fieldOf v 0 8 ≤ min 30 (fieldOf v 8 8) → exec (.avslimWrite v) s = .next (s.swWrite 0x20014 v))))

/-! ### Registers, the host and jobs -/

/-- What the access codes of R8 make of a software write and of a read: RW takes the value, RO and RC ignore it, W1C clears and W1S sets the bits
written as 1, WO acts and holds nothing, so it reads as 0, and RC is cleared by the read. A host write that reaches its register is the shared
register write; a fused register (R2) and the Grave (R427) ignore it; a read answers what the shared register read gives, and a fused register
reads as 0. -/
def Obligations.RegisterAccesses : Prop :=
  (∀ (wid old new : Nat) (lo hi : Nat) (w : Word), wid ≤ 32 → old < 2 ^ wid → new < 2 ^ wid →
     accWrite .rw wid old new = new ∧ accWrite .wo wid old new = 0 ∧ accWrite .ro wid old new = old ∧ accWrite .rc wid old new = old ∧
     (∀ i, i < wid → (accWrite .w1c wid old new).testBit i = (old.testBit i && !new.testBit i)) ∧
     (∀ i, i < wid → (accWrite .w1s wid old new).testBit i = (old.testBit i || new.testBit i)) ∧
     (lo ≤ hi → hi < 32 →
       readMask [{ hi := hi, lo := lo, acc := .wo, rst := 0 }] w = 0 ∧
       (readMask [{ hi := hi, lo := lo, acc := .ro, rst := 0 }] w) / 2 ^ lo = fieldOf w lo (hi + 1 - lo) ∧
       fieldOf (readClear [{ hi := hi, lo := lo, acc := .rc, rst := 0 }] w) lo (hi + 1 - lo) = 0)) ∧
  (∀ (s : State) (by_ : Accessor) (off : BitVec 21) (v : Word) (r : RegDef) (i j : Nat), off.toNat % 4 = 0 →
     regBehind off.toNat = some (r, i, j) →
       (Reaches s off.toNat → exec (.registerWrite by_ off v) s = .next (s.ioWrite by_ off.toNat v)) ∧
       (s.dev = stGrave ∨ s.fused off.toNat = true → exec (.registerWrite by_ off v) s = .next s) ∧
       exec (.readClear off) s = .next ((s.ioRead off.toNat).2.hostRead (s.ioRead off.toNat).1) ∧
       exec (.latchingRead off) s = .next ((s.ioRead off.toNat).2.hostRead (s.ioRead off.toNat).1) ∧
       (s.fused off.toNat = true → s.ioRead off.toNat = (0, s)))

/-- BAR0 outside its registers (R114) and BAR2 (R115, R116, R118): a hole reads as 0 and a wrong size as all ones, both reported; Tarn and the
DRAM aperture are read and written byte by byte; the aperture's enable needs its feature. -/
def Obligations.HostWindows : Prop :=
  ∀ (s : State) (off : BitVec 21) (a : BitVec 26) (size n : Nat) (v : Word) (bs : List (Option Byte)),
    (size ≠ 4 ∨ off.toNat % 4 ≠ 0 →
      exec (.bar0HoleAccess true off size) s = .next (s.report C.ring_bar0_size (mkArg none none (off.toNat / 4))) ∧
      exec (.bar0HoleAccess false off size) s = .next ((s.hostRead 0xFFFFFFFF).report C.ring_bar0_size (mkArg none none (off.toNat / 4)))) ∧
    (size = 4 → off.toNat % 4 = 0 → regBehind off.toNat = none →
      exec (.bar0HoleAccess true off size) s = .next (s.report C.ring_bar0_hole (mkArg none none (off.toNat / 4))) ∧
      exec (.bar0HoleAccess false off size) s = .next ((s.hostRead 0).report C.ring_bar0_hole (mkArg none none (off.toNat / 4)))) ∧
    (let t : State := { s with host := { s.host with rdata2 := [], poisoned := false } }
     s.lcs ≠ lcRetired → 0 < n → a.toNat + n ≤ tarnSize →
       let r := t.readTarn a.toNat n
       exec (.bar2Request a (.read n)) s = .next (r.st.bar2Result r.bytes r.bad)) ∧
    (s.dev ≠ stGrave → s.lcs ≠ lcRetired → bs ≠ [] → a.toNat + bs.length ≤ tarnSize →
      exec (.bar2Request a (.write bs)) s = .next ((enabledRuns a.toNat bs).foldl (fun s e => s.writeTarnGuarded e.1 e.2 true) s)) ∧
    (Reaches s 0x10000 →
      (fieldOf v 31 1 = 0 ∨ s.feature 8 = true → exec (.aperWrite v) s = .next (s.swWrite 0x10000 v)) ∧
      (fieldOf v 31 1 = 1 → s.feature 8 = false →
        exec (.aperWrite v) s = .next (s.report C.ring_feature (mkArg none none 8))))

/-- Negotiation (R118, R119): GO copies an acceptable request to FEATACT and sets DONE, entering Ready from Negotiate, refuses any other
request, and is ignored while DONE is 1. A link reset resets the RING block, the vectors and DEV.NEG, and Ready becomes Negotiate. -/
def Obligations.Negotiation : Prop :=
  ∀ (s : State) (v : Word) (kind : LinkReset),
    (Reaches s 0x1c →
      let u := s.swWrite 0x1c v
      let req := u.get F.DEV_FEATREQ_BITS
      let ver := u.get F.DEV_NEG_IFVER
      let ok := Nat.land req (u.get F.DEV_FEATOFF_BITS) = req ∧ bitN req 0 = 1 ∧ u.get F.DEV_NEG_IFMIN ≤ ver ∧ ver ≤ u.get F.DEV_NEG_IFMAX
      (fieldOf v 31 1 = 1 → s.on F.DEV_NEG_DONE = false → u.dev = stNegotiate → ok →
        exec (.negGo v) s = .next (((u.set F.DEV_FEATACT_BITS req).set F.DEV_NEG_DONE 1).setDevQuiet stReady)) ∧
      (fieldOf v 31 1 = 1 → s.on F.DEV_NEG_DONE = false → u.dev = stNegotiate → ¬ok → exec (.negGo v) s = .next (u.set F.DEV_NEG_REFUSED 1)) ∧
      (s.on F.DEV_NEG_DONE = true → exec (.negGo v) s = .next u)) ∧
    (Memory.wf s = true → ∃ t, exec (.pcieReset kind) s = .next t ∧ ∃ u : State, t = u.report C.ring_link_reset (mkArg none none 0) ∧
      u.host.held = [] ∧ u.host.armed = [] ∧ (∀ m ∈ u.host.started, m.live = false) ∧ u.rd 0x1c = regReset 0x1c ∧
      (∀ off, 0x10000 ≤ off → off < 0x20000 → u.rd off = regReset off) ∧
      u.dev = (if s.dev = stReady then stNegotiate else s.dev))

/-- Queue pairs (R120 to R123): their configuration and their doorbells. Starting an entry (R128 to R130) of a served queue pair: the head moves
on, and the message is started or ends with the status of its form; a failed read ends it with HOSTDMA. -/
def Obligations.QueuePairs : Prop :=
  (∀ (s : State) (q : Fin 64) (v : Word),
     (Reaches s (R.RING_QCFG.off q 0) →
       let u := s.set F.RING_QCFG_IV (fieldOf v 16 7) q
       (s.on F.RING_QCFG_EN q = true → fieldOf v 31 1 = 1 → exec (.queuePairConfig q v) s = .next u) ∧
       (s.on F.RING_QCFG_EN q = true → fieldOf v 31 1 = 0 → exec (.queuePairConfig q v) s = .next ((u.set F.RING_QCFG_EN 0 q).stopQueue q)) ∧
       (s.on F.RING_QCFG_EN q = false →
         let w := u.set F.RING_QCFG_SIZE (fieldOf v 0 12) q
         let x := if 16 ≤ q.val then w else w.set F.RING_QCFG_OWN (fieldOf v 29 1) q
         fieldOf v 31 1 = 1 →
           (x.qOwn q = false ∨ x.feature 1 = true → exec (.queuePairConfig q v) s = .next ((x.set F.RING_QCFG_EN 1 q).startQueue q)) ∧
           (x.qOwn q = true → x.feature 1 = false →
             exec (.queuePairConfig q v) s = .next (x.report C.ring_feature (mkArg none (some q.val) 1))))) ∧
     (Reaches s (R.RING_SQTAIL.off q 0) →
       let t := fieldOf v 0 12
       (s.on F.RING_QCFG_EN q = true → t ≤ s.qsize q →
         exec (.sqTailDoorbell q v) s = .next ((s.set F.RING_SQTAIL_INDEX t q).postEvent (0x050 + q.val))) ∧
       (s.on F.RING_QCFG_EN q = true → s.qsize q < t → exec (.sqTailDoorbell q v) s =
         .next ((s.set F.RING_QCFG_ERR 1 q).report C.ring_doorbell_range (mkArg none (some q.val) t))) ∧
       (s.on F.RING_QCFG_EN q = false →
         exec (.sqTailDoorbell q v) s = .next (s.report C.ring_doorbell_range (mkArg none (some q.val) t)))) ∧
     (Reaches s (R.RING_CQHEAD.off q 0) → s.on F.RING_QCFG_EN q = true →
       let h := fieldOf v 0 12
       let n := s.qsize q + 1
       let old := s.get F.RING_CQHEAD_INDEX q
       let far := ringDist n old (s.get F.RING_QSTAT_CQTAIL q) < ringDist n old h
       (n ≤ h ∨ far → exec (.cqHeadDoorbell q v) s =
         .next ((s.set F.RING_QCFG_ERR 1 q).report C.ring_doorbell_range (mkArg none (some q.val) h))) ∧
       (h < n → ¬far → ∃ t, exec (.cqHeadDoorbell q v) s = .next t ∧ t.get F.RING_CQHEAD_INDEX q = h ∧
         (0 < ringDist n old h → t.get F.RING_QSTAT_CQFULL q = 0) ∧ t.get F.RING_QSTAT_CQTAIL q = s.get F.RING_QSTAT_CQTAIL q))) ∧
  (∀ (s : State) (q : Fin 64) (ws : List Word), s.serves q = true →
     let head := (s.get F.RING_QSTAT_SQHEAD q + 1) % (s.qsize q + 1)
     let m : Msg := { tok := s.host.nextTok, q := q, words := ws, sqhead := head, live := true }
     let u := s.set F.RING_QSTAT_SQHEAD head q
     let w : State := { u with host := { u.host with nextTok := u.host.nextTok + 1 } }
     (¬(m.fence = true ∧ ∃ x ∈ s.host.started, x.q = q.val ∧ x.live = true) →
       ¬(isSerial m.opc = true ∧ q.val = 0 ∧ ∃ x ∈ s.host.started, isSerial x.opc = true) →
         (∀ st, startStatus m = some st → exec (.entryStart q (some ws)) s = .next (w.complete m st)) ∧
         (startStatus m = none →
           exec (.entryStart q (some ws)) s = .next { w with host := { w.host with started := w.host.started ++ [m] } })) ∧
     (let f := s.drawFree
      let d : Msg := { tok := f.2.host.nextTok, q := q, words := [f.1 &&& 0xFFFF], sqhead := head, live := true }
      exec (.entryStart q none) s = .next
        (((f.2.set F.RING_QSTAT_SQHEAD head q).complete d .hostdma).report C.ring_host_dma (mkArg none (some q.val) 0))))

/-- Completions and interrupts (R122, R124, R126, R135): the oldest completion of a queue pair is written to the slot at the tail with its
phase, and the vector is raised unless coalescing holds it back; a full CQ holds it; a late one raises the vector; an unmasked vector that
is pending is raised. -/
def Obligations.CompletionsAndInterrupts : Prop :=
  ∀ (s : State) (q : Fin 64) (v : Fin 128) (x : Word),
    (∀ c, s.host.held.find? (fun c => c.q == q.val) = some c → s.on F.RING_QCFG_EN q = true →
      let n := s.qsize q + 1
      let tail := s.get F.RING_QSTAT_CQTAIL q
      let phase := Tab.get (fun _ => false) s.host.phase q.val
      let b := s.writeHost (s.get64 F.RING_CQBASELO_ADDR F.RING_CQBASEHI_ADDR q + 16 * tail) (c.bytes phase)
      let d := b.set F.RING_QSTAT_CQTAIL ((tail + 1) % n) q
      let ts := Tab.get (fun _ => []) d.host.times q.val ++ [d.now + 1]
      let w := ({ d with host := { d.host with
        held := d.host.held.erase c,
        phase := if tail + 1 = n then Tab.put (fun _ => false) d.host.phase q.val (!phase) else d.host.phase,
        times := Tab.put (fun _ => []) d.host.times q.val ts } } : State).set F.RING_QSTAT_CQFULL 0 q
      ((tail + 1) % n ≠ s.get F.RING_CQHEAD_INDEX q → w.coalesces q = false → exec (.completionPost q true) s = .next (w.raiseVec (w.get F.RING_QCFG_IV q))) ∧
      ((tail + 1) % n = s.get F.RING_CQHEAD_INDEX q → Tab.get (fun _ => false) s.host.cqFullRep q.val = true →
        exec (.completionPost q true) s = .next (s.set F.RING_QSTAT_CQFULL 1 q))) ∧
    (∀ n rest, Tab.get (fun _ => []) s.host.times q.val = n :: rest → n ≠ 0 → s.get F.RING_QCOAL_TIME q ≠ 0 → s.coalesces q = true →
      n + 1000 * s.get F.RING_QCOAL_TIME q ≤ s.now + 1 → exec (.coalesceTimeout q) s = .next
        (({ s with host := { s.host with times := Tab.put (fun _ => []) s.host.times q.val (0 :: rest) } } : State).raiseVec
          (s.get F.RING_QCFG_IV q))) ∧
    (Reaches s (R.MSIX_CTRL.off v 0) →
      let u := s.set F.MSIX_CTRL_MASK 0 v
      let w := u.get F.MSIX_PBA_PENDING (v / 32)
      (bitN w (v % 32) = 0 → exec (.vectorUnmask v) s = .next u) ∧
      (bitN w (v % 32) = 1 →
        exec (.vectorUnmask v) s = .next ((u.set F.MSIX_PBA_PENDING (w - 2 ^ (v.val % 32)) (v / 32)).raiseVec v))) ∧
    (Reaches s 0x10008 → exec (.raise x) s = .next (s.raiseVec (fieldOf x 0 7)))

/-- The messages that only read or arm (R130, R132, R430): DEV_STATUS, EVENT_ARM and FAULT_READ. -/
def Obligations.StatusEventsAndHistory : Prop :=
  ∀ (s : State) (tok : Nat) (m : Msg),
    (s.msgOf tok 0x01 = some m → exec (.devStatus tok) s = .next (s.complete m .ok (s.rd 0x4) (s.rd (R.CMT_PVER.off 0 0)))) ∧
    (s.msgOf tok 0x03 = some m → (∀ x ∈ s.host.armed, x.tok ≠ tok) →
      (s.feature 10 = false → exec (.eventArm tok) s = .next (s.complete m .notneg)) ∧
      (s.feature 10 = true → 16 ≤ s.host.armed.length → exec (.eventArm tok) s = .next (s.complete m .busy)) ∧
      (s.feature 10 = true → s.host.armed.length < 16 → s.host.events = [] →
        exec (.eventArm tok) s = .next { s with host := { s.host with armed := s.host.armed ++ [m] } }) ∧
      (∀ code param rest, s.feature 10 = true → s.host.armed.length < 16 → s.host.events = (code, param) :: rest →
        exec (.eventArm tok) s = .next (({ s with host := { s.host with events := rest, eventLost := false } } : State).complete m .ok
          (w32 (code + (if s.host.eventLost then 2 ^ 31 else 0))) param))) ∧
    (s.msgOf tok 0x02 = some m →
      (m.len % 32 ≠ 0 → ∀ ok, exec (.faultRead tok ok) s = .next (s.complete m .badfield)) ∧
      (m.len % 32 = 0 → exec (.faultRead tok false) s = .next (s.hostFail m)) ∧
      (m.len % 32 = 0 →
        let ks := (((heldSlots s 32).filter (fun k => (m.arg 0).toNat ≤ s.hist k 0)).foldr (insertSeq s) []).take (m.len / 32)
        let u := s.writeHost m.ptr (ks.flatMap s.histBytes)
        ∀ k, ks.getLast? = some k →
          exec (.faultRead tok true) s = .next (u.complete m .ok (w32 ks.length) (w32 (nextSeq (u.hist k 0))))))

/-- MEAS_READ (R131): a kind whose record fits is written to the host's buffer and ends with its length; one that does not fit ends with
BADFIELD and writes nothing; a failed write ends with HOSTDMA. The rail record restarts the least and greatest values (R466), and the
DRAM record the hottest MR4 codes (R350). -/
def Obligations.MeasurementReads : Prop :=
  ∀ (s : State) (tok : Nat) (m : Msg), s.msgOf tok 0x40 = some m →
    let reads := fun (kind : Nat) (c : Bool → Instr) (bytes : List Byte) (after : State → State) => (m.arg 0).toNat = kind →
      (bytes.length ≤ m.len → exec (c true) s = .next ((after (s.writeHost m.ptr bytes)).complete m .ok (w32 bytes.length)) ∧
        exec (c false) s = .next (s.hostFail m)) ∧
      (m.len < bytes.length → ∀ ok, exec (c ok) s = .next (s.complete m .badfield))
    reads 0 (fun ok => .measReadRails tok ok) ((List.range 24).flatMap s.railEntry)
      (fun s => (List.range 24).foldl (fun s c => s.setAdcChan c { s.adcChan c with least := none, greatest := none }) s) ∧
    reads 1 (fun ok => .measReadTemperatures tok ok) s.tempRecord id ∧
    reads 2 (fun ok => .measReadTelemetry tok ok) ((List.range 2048).flatMap s.telEntry) id ∧
    reads 3 (fun ok => .measReadCables tok ok) (cableRecord s) id ∧
    reads 4 (fun ok => .measReadSlack tok ok) (slackRecord s) id ∧
    reads 5 (fun ok => .measReadEncoders tok ok) s.encRecord id ∧
    reads 6 (fun ok => .measReadDram tok ok) ((List.range 4).flatMap s.popEntry)
      (fun s => (List.range 4).foldl (fun s c => s.setChan c { s.chan c with worst := 0 }) s) ∧
    reads 7 (fun ok => .measReadCapabilities tok ok) ((List.range 16).flatMap s.bnEntry ++ (List.range 2048).flatMap s.capEntry) id ∧
    reads 8 (fun ok => .measReadCameras tok ok) (s.camEntry 0 ++ s.camEntry 1) id

/-- The profile messages (R103, R106): staging an image as the Draft, the moves that one group carries, promotion and the status record; a
message that breaks a condition of its row completes with STATE. -/
def Obligations.ProfileMessages : Prop :=
  ∀ (s : State) (tok : Nat) (m : Msg) (p : Profile),
    (s.msgOf tok 0x10 = some m → ∀ d : ImageData,
      let bs := d.bytes.take m.len
      let u := if s.lcs = lcProvisioned ∨ s.lcs = lcCertified then s.commitSvn (bs.take wrapSize) else s
      exec (.prfStage tok none) s = .next (s.hostFail m) ∧
      ((s.unwrap bs).1 ≠ 0 → exec (.prfStage tok (some d)) s = .next ((s.complete m .signature).audit 8 [w32 (s.unwrap bs).1, 2, 0])) ∧
      ((s.unwrap bs).1 = 0 → parseProfile (s.unwrap bs).2 d.frame = some p → verFormat p.version = 1 →
        s.prf.standing.any (fun q => decide (verSerial p.version ≤ verSerial q.version)) = false → u.prf.standing = s.prf.standing →
          (u.stageCheck p = 0 → exec (.prfStage tok (some d)) s =
            .next ((({ u with prf := { u.prf with draft := some p } } : State).setPver 4 (some p)).complete m .ok p.version)) ∧
          (u.stageCheck p ≠ 0 → exec (.prfStage tok (some d)) s = .next (u.complete m .check 0 (w32 (u.stageCheck p)))))) ∧
    (let waits := s.prf.pend.any (fun d => d.msg.any (fun x => x.tok == tok))
     waits = false →
      (s.msgOf tok 0x11 = some m → (m.arg 0).toNat < 65536 → s.prf.draft = some p → s.prf.proving = none →
        exec (.prfProve tok) s = .next (s.moveProfile p (some m) 0 (m.arg 0).toNat)) ∧
      (s.msgOf tok 0x11 = some m → (m.arg 0).toNat < 65536 → s.prf.draft = none ∨ s.prf.proving ≠ none →
        exec (.prfProve tok) s = .next (s.complete m .state)) ∧
      (s.msgOf tok 0x13 = some m → s.prf.proving ≠ none →
        exec (.prfAbandon tok) s = .next (s.moveProfile (s.prf.standing.getD s.prf.starter) (some m) 1 0)) ∧
      (s.msgOf tok 0x13 = some m → s.prf.proving = none → exec (.prfAbandon tok) s = .next (s.complete m .state)) ∧
      (s.msgOf tok 0x14 = some m → s.prf.previous = some p → s.prf.proving = none →
        exec (.prfRollback tok) s = .next (s.moveProfile p (some m) 2 0)) ∧
      (s.msgOf tok 0x15 = some m → exec (.prfStarter tok) s = .next (s.moveProfile s.prf.starter (some m) 3 0))) ∧
    (s.msgOf tok 0x12 = some m →
      (s.prf.proving = some p → exec (.prfPromote tok) s = .next (({ s with prf := { s.prf with
          standing := some p, previous := s.prf.standing, proving := none, watchEnd := none, flash := p :: s.prf.standing.toList } } :
            State).showPver.complete m .ok p.version)) ∧
      (s.prf.proving = none → exec (.prfPromote tok) s = .next (s.complete m .state))) ∧
    (s.msgOf tok 0x16 = some m →
      (m.len < 32 → ∀ ok, exec (.prfStatus tok ok) s = .next (s.complete m .badfield)) ∧
      (32 ≤ m.len → s.prf.pend = none → exec (.prfStatus tok true) s = .next ((s.writeHost m.ptr
        ((List.range 5).flatMap (fun k => leBytes 4 (s.get F.CMT_PVER_VERSION k)) ++ (leBytes 4 0xFFFFFFFF ++ leBytes 4 0) ++ leBytes 4 0)).complete m
          .ok (w32 (s.get F.CMT_PVER_VERSION 0)))))

/-- A profile whose frame or device settings differ from the present ones is not applied while a job is open: the move completes with
FRAME and changes nothing else (R102, R105). -/
def Obligations.FrameStaysWhileAJobIsOpen : Prop :=
  ∀ (s : State) (tok : Nat) (m : Msg) (p : Profile), s.job.job ≠ none → p.frame ≠ s.liveFrame ∨ s.settingsStand p = false →
    s.prf.pend = none →
      (s.msgOf tok 0x11 = some m → (m.arg 0).toNat < 65536 → s.prf.draft = some p → s.prf.proving = none →
        exec (.prfProve tok) s = .next (s.complete m .frame)) ∧
      (s.msgOf tok 0x13 = some m → s.prf.proving ≠ none → s.prf.standing.getD s.prf.starter = p →
        exec (.prfAbandon tok) s = .next (s.complete m .frame)) ∧
      (s.msgOf tok 0x14 = some m → s.prf.previous = some p → s.prf.proving = none →
        exec (.prfRollback tok) s = .next (s.complete m .frame)) ∧
      (s.msgOf tok 0x15 = some m → s.prf.starter = p → exec (.prfStarter tok) s = .next (s.complete m .frame))

/-- Jobs and printing (R130, R139, R145): a job is opened, its panels are recorded in order, it is closed, started, paused, resumed, stopped
or cancelled. -/
def Obligations.JobsAndPrinting : Prop :=
  ∀ (s : State) (tok : Nat) (m : Msg) (j : Job),
    (s.msgOf tok 0x20 = some m → s.noLinePath = false →
      (s.job.job ≠ none → exec (.jobOpen tok) s = .next (s.complete m .state)) ∧
      (s.job.job = none → 1 ≤ (m.arg 0).toNat → (m.arg 0).toNat ≤ 4096 → (m.arg 1).toNat < 65536 → m.arg 2 = 0 →
        exec (.jobOpen tok) s = .next ((setLeads 8 ({ s with
          job := { s.job with job := some (Job.create s.job.nextId (m.arg 0).toNat (m.arg 1).toNat (m.arg 3).toNat false), ending := false,
                              nextId := (s.job.nextId + 1) % 2 ^ 32 },
          ing := { s.ing with mapNext := 0 } } : State).newJobReports).complete m .ok (w32 s.job.nextId)))) ∧
    (s.msgOf tok 0x21 = some m → s.job.job = some j →
      let w := (m.arg 1).toNat
      let h := (m.arg 2).toNat
      let form := (m.arg 5).toNat
      let bytes := cdiv h 64 * stripesOf w * 16
      let status := s.panelStatus j (m.arg 0).toNat w h (m.arg 4).toNat form
      (j.closed = true → exec (.panelDefine tok) s = .next (s.complete m .state)) ∧
      (j.closed = false → ∀ st, status = some st → exec (.panelDefine tok) s = .next (s.complete m st)) ∧
      (j.closed = false → status = none → s.ing.mapNext + bytes ≤ s.get F.ING_MAPSIZE_MIB * 2 ^ 20 → exec (.panelDefine tok) s =
        .next ((s.addPanel j (Panel.mk form w h (m.arg 3).toNat (m.arg 4) false 0 (s.get F.ING_MAPBASE_MIB * 2 ^ 20 + s.ing.mapNext) false)
          bytes).complete m .ok))) ∧
    (s.msgOf tok 0x23 = some m → s.job.job = some j →
      (j.closed = false → j.count ≤ j.panels.length → exec (.jobClose tok) s =
        .next (({ s with job := { s.job with job := some { j with closed := true } } } : State).complete m .ok)) ∧
      (j.panels.length < j.count → exec (.jobClose tok) s = .next (s.complete m .state))) ∧
    (s.msgOf tok 0x24 = some m → s.waitsStop tok = false → s.job.job ≠ none →
      exec (.jobCancel tok) s = .next (s.abortPrint.abortIngests.stopAll 2 m 0 (fun b => (s.fireBar b).next))) ∧
    (s.msgOf tok 0x30 = some m → s.job.job = some j → s.dev = stReady → s.mayNotPrint = false → j.start = none →
      (j.closed = false → exec (.printStart tok) s = .next (s.complete m .state)) ∧
      (j.closed = true → s.jobExhausted j = true → exec (.printStart tok) s = .next (s.complete m .licence)) ∧
      (j.closed = true → s.jobExhausted j = false → s.auditFull = false → ∀ n, s.startLine m = .line n → exec (.printStart tok) s = .next
        ((({ s with job := { s.job with job := some { j with start := some n } } } : State).launch { j with start := some n } n).complete m .ok
          (w32 n) (w32 (n / 2 ^ 32))))) ∧
    (s.msgOf tok 0x32 = some m → s.job.job = some j → s.dev = stPaused → s.mayNotPrint = false → s.anyBarActive = false →
      s.jobExhausted j = false → ∀ nj, j.start = some nj →
        (s.allSegs.any (fun sg => s.on F.FIRE_SEG_HOT sg) = true → exec (.printResume tok) s = .next (s.complete m .state)) ∧
        (s.allSegs.any (fun sg => s.on F.FIRE_SEG_HOT sg) = false → ∀ n, s.startLine m = .line n → exec (.printResume tok) s = .next
          ((({ s with job := { s.job with job := some { j with start := some nj } } } : State).launch { j with start := some nj } n).complete m .ok
            (w32 n) (w32 (n / 2 ^ 32))))) ∧
    (s.msgOf tok 0x31 = some m → s.waitsStop tok = false → s.job.job = some j → s.printing = true →
      (m.arg 0 = 0 → exec (.printPause tok) s = .next (s.stopAll 0 m (nextInstLine j s.leadLine) (fun _ => nextInstLine j s.leadLine))) ∧
      (m.arg 0 = 1 → exec (.printPause tok) s = .next (s.stopAll 0 m s.leadLine (fun _ => s.leadLine)))) ∧
    (s.msgOf tok 0x33 = some m → s.waitsStop tok = false → s.job.job = some j → j.start ≠ none → s.printingOrPaused = true →
      exec (.printStop tok) s = .next (s.stopAll 1 m s.leadLine (fun _ => s.leadLine)))

/-- INGEST (R134, R142, R146): an accepted raw message gets its blocks, an accepted pre-compressed one its buffer; a failed read ends with
HOSTDMA and a disabled unit with STATE; while four are in progress the message waits. Coding, storing and mapping blocks (R143, R144, R147,
R149, R167, R169, R170): a free lane codes the next block, a coded block goes to the store, a pre-compressed block is checked first, and the tag
decides an envelope; the Spillway's buffers return one by one. -/
def Obligations.IngestStarts : Prop :=
  (∀ (s : State) (tok : Nat) (m : Msg) (b : Job) (p : Panel) (bs : List Byte), s.msgOf tok 0x22 = some m → s.ingJob tok = none →
     let k := (m.arg 0).toNat
     let first := (m.arg 1).toNat
     let count := (m.arg 2).toNat
     (4 ≤ s.ing.jobs.length → ∀ d, exec (.ingest tok d) s = .next s) ∧
     (s.ing.jobs.length < 4 → m.arg 3 = 0 →
       (s.on F.ING_CTL_EN = false → ∀ d, exec (.ingest tok d) s = .next (s.complete m .state)) ∧
       (s.on F.ING_CTL_EN = true → s.job.job = some b → b.panels[k]? = some p → s.get F.ING_CTL_LANEN ≠ 0 →
         (first % 64 ≠ 0 ∨ count = 0 ∨ p.h < first + count → ∀ d, exec (.ingest tok d) s = .next (s.complete m .badfield)) ∧
         (first % 64 = 0 → count ≠ 0 → first + count ≤ p.h → ¬(p.form = 3 ∧ count % 2 = 1) → m.len = linesBytes p.form p.w first count →
           s.tooFast b p = false →
             exec (.ingest tok (some bs)) s = .next (s.addIngest { IngJob.begin m k first count 0 with
               blocks := rawBlocks p.form p.w p.h first (parseLines p.form p.w first count (bs.take m.len)) }) ∧
             exec (.ingest tok none) s = .next (s.hostFail m)))) ∧
     (s.ing.jobs.length < 4 → m.arg 3 = 1 → s.feature 2 = true → s.on F.ING_CTL_EN = true → s.job.job = some b → b.panels[k]? = some p →
       s.get F.ING_CTL_LANEN ≠ 0 → first % 64 = 0 → count ≠ 0 → first + count ≤ p.h → ¬(p.form = 3 ∧ count % 2 = 1) →
         exec (.ingest tok (some bs)) s = .next (s.addIngest { IngJob.begin m k first count 1 with data := bs.take m.len }))) ∧
  (∀ (s : State) (tok : Nat) (l : Fin 16) (j : IngJob) (b : IngBlock),
     (∀ (g : Job) (p : Panel) (mismatch : Bool), s.on F.ING_CTL_EN = true → bitN (s.get F.ING_CTL_LANEN) l = 1 → s.encLane l = none →
       pickBlock l s.ing.jobs = some (j, b) → s.job.job = some g → g.panels[j.panel]? = some p →
         let code := s.codeBlock p j.panel b
         let x : EncLane := { tok := j.msg.tok, group := b.group, stripe := b.stripe, code := code,
                              need := cdiv (code.length - 32 - s.primSize) 4096, spw := [], oosAt := none, again := none, done := false }
         let arg := codecArg none j.panel b.stripe b.group
         let u := s.bump F.ING_VERCNT_COUNT
         (mismatch = false ∨ s.on F.ING_CTL_DAC = false →
           exec (.encodeBlock l mismatch) s = .next ((s.setIngBlock j { b with lane := some l.val }).laneWrites l x)) ∧
         (mismatch = true → s.on F.ING_CTL_DAC = true → b.tries = 0 → exec (.encodeBlock l mismatch) s =
           .next ((u.setIngBlock j { b with notLane := some l.val, tries := 1 }).report C.codec_verify_mismatch arg)) ∧
         (mismatch = true → s.on F.ING_CTL_DAC = true → b.tries ≠ 0 → exec (.encodeBlock l mismatch) s =
           .next ((u.endIngest j .aborted j.stored).report C.codec_verify_fail arg))) ∧
     (s.ingJob tok = some j →
       (∀ rest code, j.blocks = b :: rest → b.coded = some code → s.laneOf tok b.group b.stripe = none →
         (∀ t, s.storeFor j b.group b.stripe (leAt code 0x0C 2) code = some t → exec (.blockStore tok) s = .next (t.ingestDone tok)) ∧
         (s.storeFor j b.group b.stripe (leAt code 0x0C 2) code = none → exec (.blockStore tok) s = .next (s.noFit j))) ∧
       (∀ rest code n x t, j.blocks = b :: rest → b.coded = some code → s.laneOf tok b.group b.stripe = some (n, x) →
         (s.laneBytes n x).2.storeFor j b.group b.stripe (leAt code 0x0C 2) (s.laneBytes n x).1 = some t →
           exec (.blockStore tok) s = .next ((t.setEncLane n (if x.spw = [] then none else some { x with done := true })).ingestDone tok)) ∧
       (∀ n, j.waitAt = some n → s.elapsedUs n (1000 * max 1 (s.get F.ING_OOSTO_TIMEOUT)) = true → exec (.storeWaitTimeout tok) s =
         .next (((s.freeEnvelope j).endIngest j .nospace j.stored).report C.ing_store_full (mkArg none none j.panel))) ∧
       (∀ (g : Job) (p : Panel) (code : Nat), j.kind = 1 → j.blocks = [] → j.verdict = none → j.group < j.groupEnd → s.job.job = some g →
         g.panels[j.panel]? = some p → s.checkBlock j p = .error code → exec (.precompressedBlock tok) s =
           .next ((s.endIngest j .badfield (j.stored - j.partBytes)).report code (codecArg none j.panel j.stripe j.group))) ∧
       (∀ (g : Job) (p : Panel) (h : BlockHdr) (n : Nat) (t : State), j.kind ≠ 0 → j.blocks = [] → j.verdict = none → j.group < j.groupEnd →
         s.job.job = some g → g.panels[j.panel]? = some p → s.checkBlock j p = .ok (h, n) → s.on F.ING_CTL_PCCHK = false →
           let last := j.stripe + 1 = s.jobStripes j
           let k : IngJob := { j with
             data := j.data.drop n, group := if last then j.group + 1 else j.group,
             stripe := if last then 0 else j.stripe + 1, hists := Tab.put (fun _ => none) j.hists j.stripe none,
             blocks := [{ group := j.group, stripe := j.stripe, rows := [], flush := h.flush, notLane := none, tries := 0,
                          coded := some (j.data.take n), lane := none }] }
           (s.setIngJob k).storeFor k j.group j.stripe h.lines (j.data.take n) = some t →
             exec (.precompressedBlock tok) s = .next (t.ingestDone tok)) ∧
       (j.kind = 2 → j.blocks = [] → j.groupEnd ≤ j.group → j.verdict = none →
         (j.tagOk = false → exec (.gcmTagCheck tok) s =
           .next (((s.freeEnvelope j).endIngest j .signature 0).report C.ing_gcm_tag (mkArg none none j.panel))) ∧
         (j.tagOk = true → j.data = [] → exec (.gcmTagCheck tok) s =
           .next (((j.unmapped.foldl (fun s e => s.writeEntry j.panel e.1 e.2.1 e.2.2.1 e.2.2.2) s).markSecure j).endIngest j .ok j.stored)))) ∧
     (∀ x k rest, s.encLane l = some x → x.spw = k :: rest → x.done = true → exec (.spillwayReturn l) s =
       .next ((feedLanes 4096 (s.setEncLane l (if rest = [] then none else some { x with spw := rest }))).updIng)) ∧
     (let lanes := s.busyLanes.filter (fun e => e.2.again.isNone)
      (∀ e ∈ lanes, ∃ n, e.2.oosAt = some n ∧ s.elapsedUs n (max 1 (s.get F.ING_OOSTO_TIMEOUT)) = true) → ∀ x, mostSpw lanes = some (l.val, x) →
        let u := (feedLanes 4096 (s.setEncLane l (some { x with spw := [], oosAt := none, again := some x.spw.length }))).updIng
        exec .spillTimeout s = .next (u.report C.codec_spill_abandon (x.arg (s.panelOfTok x.tok)))))

/-! ### The line path -/

/-- START and STOP at a FIRE gate (R245): the first descriptor not taken is accepted in its states and dropped with fire.gate_op in others.
FIRE_EVALUATION (R240): nothing commits at standstill or at a speed not above 0; a line beyond the horizon waits; a line within it is decided
at C plus its delay, and the evaluation ends at the first line that does not commit. A line whose credit suffices, with every frame sent in time,
is fired at that instant (R243, R246, R248). The line pipeline (R40, R178, R182, R196, R202, R215, R317): a decode lane takes the first ready row
set; a bar's pipeline takes the first descriptor of its gate that it has not processed, separates, screens and writes the line; the last word of a
line finishes its descriptor; a boundary sets s.fline and posts its event; a panic longer than LTOL is reported once; and the writes of SCN.BAND,
SCN.MAPBASE and HLK.SEGEN obey what runs. -/
def Obligations.FiringALine : Prop :=
  (∀ (s : State) (b : Fin 8),
     (∀ d, s.nextFireDesc b = some d → (s.gate (fireGate b)).stopped = false →
       let x := s.fireBar b
       let u := s.setFireBar b { x with taken := x.taken + 1 }
       (d.op = 1 → d.plain = true → s.barActive b = false → s.on F.FIRE_CTL_EN b = true → (frameBar s.liveFrame b).isSome = true →
         exec (.fireStart b) s = .next (u.startBar b d.line.toNat)) ∧
       (d.op ≠ 2 → (d.op ≠ 1 ∨ d.plain = false ∨ s.barActive b = true ∨ s.on F.FIRE_CTL_EN b = false) →
         exec (.fireStart b) s = .next (s.dropFireDesc b)) ∧
       (d.op = 2 → d.plain = true → s.barActive b = true → exec (.fireStop b) s = .next (u.stopBar b d.line.toNat)) ∧
       (d.op = 2 → (d.plain = false ∨ s.barActive b = false) → exec (.fireStop b) s = .next (s.dropFireDesc b))) ∧
     (let r := s.refEnc
      let v := s.getI F.ENC_SPEED_VALUE r
      let delay := fun (u : State) => fireDelay ((u.firePos b (u.fireBar b).next : Int) * 65536) (s.barPosQ16 b) v.toNat
      (v ≤ 0 ∨ s.on F.ENC_STAT_STILL r = true ∨ s.on F.ENC_STAT_UNKNOWN r = true → exec (.fireEvaluation b) s = .next s) ∧
      (0 < v → s.on F.ENC_STAT_STILL r = false → s.on F.ENC_STAT_UNKNOWN r = false → s.mayCommit b = true →
        (s.get F.FIRE_HORIZON_EFF b < delay s → exec (.fireEvaluation b) s = .next s) ∧
        (delay s ≤ s.get F.FIRE_HORIZON_EFF b →
          let d := s.decideLine b (s.fireBar b).next s.fireC (delay s)
          d.1 = false ∨ d.2.mayCommit b = false ∨ d.2.get F.FIRE_HORIZON_EFF b < delay d.2 → exec (.fireEvaluation b) s = .next d.2))) ∧
     (∀ n c t t0, (s.fireBar b).tPrev = some t0 →
       let x := s.fireBar b
       let tmin := s.get F.FIRE_TMIN_LTU b
       x.hmin ≤ t → 10 * tmin ≤ 11 * (c + t - t0) → tmin ≠ 0xFFFFFF → tmin ≤ x.credit + (c + t) - t0 →
       (∀ l, x.tLast = some l → l + s.get F.FIRE_TBURST_LTU b ≤ c + t) →
       let u := s.setFireBar b { x with credit := x.credit + (c + t) - t0, ovRun := 0 }
       (∀ p ∈ u.barPorts b, u.lineSent b p n = true) →
       let w := u.setFireBar b { u.fireBar b with tLast := some (c + t), credit := min (x.credit + (c + t) - t0 - tmin) tmin, lateRun := 0 }
       s.decideLine b n c t = (true, ((w.bump F.FIRE_LATECNT_COUNT 0 b).commitLine b n (c + t) (fun _ => 0)).meterLine b n))) ∧
  (∀ (s : State) (b : Fin 8) (v : Word),
     (s.on F.IBF_CTL_EN b = true → s.get F.IBF_LANES_COUNT b ≠ 0 → ∀ u, firstReady s b (decodeOrder (s.pipe b).groups) = some u →
       exec (.decodeRowSet b) s = .next ((u.updAhead b).updLevel b)) ∧
     (s.on F.IBF_CTL_EN b = false ∨ s.get F.IBF_LANES_COUNT b = 0 → exec (.decodeRowSet b) s = .next s) ∧
     (∀ d, (s.gate (1 + b)).queue.find? (fun d => !d.done && !(s.pipe b).written.contains d.line.toNat) = some d →
       (s.gate (1 + b)).stopped = false → (frameBar s.liveFrame b).isSome = true →
         let n := d.line.toNat
         let s0 := s.startUnit .pipe b n
         let s1 := s0.setPipe b { s0.pipe b with sep := some n }
         let sep := (s1.separate b n).1
         let s2 := (s1.separate b n).2.noteSeen b n (sep.flatMap (·.odd))
         let cols := sep.zipIdx.map (fun c => if c.2 < sep.findIdx (·.bad) then c.1 else SepCol.blank)
         let s3 := (((s2.screen b n cols).2.prunePipe b n).updLevel b).updAhead b
         let t := (s3.putLine b n (s2.screen b n cols).1).setPipe b { s3.pipe b with written := n :: (s3.pipe b).written }
         exec (.barLine b) s = .next t ∧ (t.pipe b).written.contains n = true) ∧
     (∀ line : DWord,
       ((s.pipe b).written.contains line.toNat = false → exec (.lineComplete b line) s = .next s) ∧
       ((s.pipe b).written.contains line.toNat = true →
         let u := s.setPipe b { s.pipe b with written := (s.pipe b).written.filter (· != line.toNat) }
         exec (.lineComplete b line) s = .next
           ((u.setGate (1 + b) { u.gate (1 + b) with queue := markLine line.toNat (u.gate (1 + b)).queue }).lineDone b line.toNat))) ∧
     (∀ n t, firstDue (s.fireBar b).sched = some (n, t) →
       (s.fireC < t → exec (.lineBoundary b) s = .next s) ∧
       (t ≤ s.fireC →
         let x := s.fireBar b
         let s1 := s.setFireBar b { x with sched := x.sched.filter (fun e => e.1 != n), started := true }
         let s2 : State := { s1 with fline := Tab.put (fun _ => BitVec.allOnes 64) s1.fline b (w64 n) }
         let s3 := (s2.postEvent b).groupsAtBoundary b n
         let s4 := if s3.barActive b then s3.fetchAt b n else s3
         let s5 := ((s4.jobEvents b n).watchPassed b n).finishFireOps b (· == 1)
         let s6 := if (s5.fireBar b).atStop && s5.barActive b then s5.finalStop b else s5
         s2.flineOf b = w64 n ∧ exec (.lineBoundary b) s = .next (s6.colBoundary b (s6.flineOf b).toNat))) ∧
     (∀ t, (s.pipe b).panicAt = some t → (s.pipe b).panicRep = false → s.on F.IBF_STAT_PANIC b = true →
       (t + 1000 * s.get F.IBF_LTOL_US b < s.now → exec (.panicLong b) s = .next
         ((s.setPipe b { s.pipe b with panicRep := true }).report C.ibf_panic_long (mkArg (some b) none 0) (some (s.flineOf b)))) ∧
       (s.now ≤ t + 1000 * s.get F.IBF_LTOL_US b → exec (.panicLong b) s = .next s)) ∧
     (Reaches s (R.SCN_BAND.off b 0) →
       let off := R.SCN_BAND.off b 0
       (s.on F.SCN_STAT_BAND b = false → (s.swWrite off v).on F.SCN_STAT_BAND b = false → exec (.bandStart b v) s = .next (s.swWrite off v)) ∧
       ((s.swWrite off v).on F.SCN_STAT_BAND b = true → exec (.bandStart b v) s = .next ((s.swWrite off v).keep off (s.rd off) 31 1))) ∧
     (Reaches s 0x60000 →
       (scnAnyEn s 8 = true ∨ tarnSize < fieldOf v 0 10 * 65536 + s.mapBytes → exec (.mapbaseWrite v) s = .next s) ∧
       (scnAnyEn s 8 = false → fieldOf v 0 10 * 65536 + s.mapBytes ≤ tarnSize → exec (.mapbaseWrite v) s = .next (s.swWrite (R.SCN_MAPBASE.off 0 0) v))) ∧
     (∀ (p : Fin 16) (w : Fin 4), Reaches s (R.HLK_SEGEN.off p w) →
       (s.printingOrPaused = true → exec (.segenWrite p w v) s = .next (s.report C.hlk_segen_direct (mkArg none (some p.val) 0))) ∧
       (s.printingOrPaused = false → exec (.segenWrite p w v) s = .next ((s.wr (R.HLK_SEGEN.off p w) v).segSetChanged p))))

/-- The encoder inputs (R222, R223, R227, R229): one changed line counts SCALE up or down by its direction; both changed count nothing and
raise ILLCNT; a lost signal holds the lines until it returns; an index edge latches the position and checks the count since the last one; a
window's end sets the mode by its edges; and standstill clears the speed. -/
def Obligations.EncoderInputs : Prop :=
  ∀ (s : State) (k : Fin 2) (a b : Bool),
    let x := s.encoder k
    let a0 := x.lines.getLsbD 0
    let b0 := x.lines.getLsbD 1
    let scale := s.get F.ENC_SCALE_SCALE k
    (s.on F.ENC_STAT_LOS k = false →
      let u := s.setEncoder k { x with lines := BitVec.ofNat 3 (a.toNat + 2 * b.toNat + 4 * (x.lines.getLsbD 2).toNat) }
      (s.on F.ENC_CTL_EN k = false ∨ (a = a0 ∧ b = b0) → exec (.encoderEdge k a b) s = .next u) ∧
      (s.on F.ENC_CTL_EN k = true → (a = a0) ≠ (b = b0) →
        let neg : Bool := if s.on F.ENC_CTL_DIR k then 0 < quadCount a0 b0 a b else quadCount a0 b0 a b < 0
        exec (.encoderEdge k a b) s = .next (u.countEdge k neg) ∧
          ((u.countEdge k neg).encoder k).pe = (if neg then x.pe + 2 ^ 80 - scale else x.pe + scale) % 2 ^ 80) ∧
      (s.on F.ENC_CTL_EN k = true → a ≠ a0 → b ≠ b0 →
        let w := ((u.setEncoder k { u.encoder k with restart := true }).bump F.ENC_ILLCNT_VALUE 1 k).set F.ENC_STAT_ILL 1 k
        exec (.encoderEdge k a b) s = .next
          (({ w with str := { w.str with open_ := false } } : State).reportLimited C.enc_illegal k 1000000 (mkArg none (some k.val) 0)))) ∧
    (s.on F.ENC_STAT_LOS k = true → exec (.encoderEdge k a b) s = .next s ∧ exec (.signalLoss k) s = .next s) ∧
    (s.on F.ENC_STAT_LOS k = false →
      let u := s.set F.ENC_STAT_LOS 1 k
      exec (.signalLoss k) s = .next
        (({ u with str := { u.str with open_ := false } } : State).report C.enc_signal_loss (mkArg none (some k.val) 0))) ∧
    (∃ t, exec (.encoderSignalReturn k) s = .next t ∧ t = s.set F.ENC_STAT_LOS 0 k ∧ t.on F.ENC_STAT_LOS k = false) ∧
    (s.on F.ENC_CTL_EN k = true → s.on F.ENC_STAT_LOS k = false →
      let cpr := s.get F.ENC_ZCPR_VALUE k
      let u := (s.set64 F.ENC_ZPOSLO_WPU F.ENC_ZPOSHI_WPU (x.pe / 65536) k).setEncoder k { x with idxNet := some 0 }
      (x.idxNet = none ∨ cpr = 0 ∨ x.idxNet = some (cpr : Int) → exec (.indexEdge k) s = .next u) ∧
      (∀ net, x.idxNet = some net → cpr ≠ 0 → net ≠ cpr → exec (.indexEdge k) s =
        .next ((u.set F.ENC_STAT_ZERR 1 k).report C.enc_index_mismatch (mkArg none (some k.val) (ofSigned 20 (net - cpr)))))) ∧
    (s.on F.ENC_CTL_EN k = true → x.winStart + x.winLen ≤ s.sample →
      ∃ t, exec (.speedWindowEnd k) s = .next t ∧
        (s.on F.ENC_STAT_MODE k = false → t.on F.ENC_STAT_MODE k =
          (decide (s.get F.ENC_SPDCFG_SWUP ≤ x.winEdges) && decide (0 < x.winEdges) && !x.winMixed)) ∧
        (s.on F.ENC_STAT_MODE k = true → t.on F.ENC_STAT_MODE k =
          decide (min (s.get F.ENC_SPDCFG_SWDN) (s.get F.ENC_SPDCFG_SWUP) ≤ x.winEdges)) ∧
        t.encoder k = { x with winStart := x.winStart + x.winLen, winLen := s.speedWin * 250, winEdges := 0, winMixed := false }) ∧
    (∀ n, x.lastEdge = some n → s.on F.ENC_STAT_STILL k = false →
      (s.sample < n + max 1 (s.get F.ENC_STILL_US) * 250 → exec (.standstill k) s = .next s) ∧
      (n + max 1 (s.get F.ENC_STILL_US) * 250 ≤ s.sample → ∃ t, exec (.standstill k) s = .next t ∧
        t.get F.ENC_SPEED_VALUE k = 0 ∧ t.on F.ENC_STAT_STILL k = true ∧ t.on F.ENC_STAT_UNKNOWN k = true ∧
        t.on F.ENC_STAT_SETTLING k = false ∧ t.on F.ENC_STAT_MODE k = false ∧ t.encoder k = { x with intervals := [], settle := 0 }))

/-- Head ports (R265, R266, R268, R269, R273, R277, R279): enabling and disabling, the link-up steps that an upstream training frame takes,
the attempt limit and its restart, manual slips, tap writes, recalibration, and the two injections. -/
def Obligations.HeadPortLinkUp : Prop :=
  ∀ (s : State) (p : Fin 16) (v : Word) (f : TrainFrame),
    let st := s.get F.HLP_STAT_STATE p
    (Reaches s (R.HLP_CTL.off p 0) →
      exec (.portEnable p v) s = .next (s.writeHlpCtl p v) ∧ exec (.portDisable p v) s = .next (s.writeHlpCtl p v) ∧
      (s.portPresent p = true → fieldOf (s.rd (R.HLP_CTL.off p 0)) 31 1 = 0 → st = 0 →
        let u := s.swWrite (R.HLP_CTL.off p 0) v
        u.portPresent p = true → u.on F.HLP_CTL_EN p = true →
          (u.on F.HLP_CTL_TEST p = true → s.writeHlpCtl p v = u.set F.HLP_STAT_STATE 8 p) ∧
          (u.on F.HLP_CTL_TEST p = false →
            s.writeHlpCtl p v = ((u.setPort p { u.port p with attempts := 0 }).set F.HLP_RTT_VALID 0 p).startLink p))) ∧
    (let hit := f.good && (f.ubit.toNat == s.get F.HLP_SKEW_UBIT p)
     (st = 3 → hit = true → exec (.upstreamTrainingFrame p f) s = .next (s.deskewStep p (toSigned 6 f.skew.toNat))) ∧
     (st = 3 → hit = false → exec (.upstreamTrainingFrame p f) s = .next s) ∧
     (st = 4 → exec (.upstreamTrainingFrame p f) s = .next (s.equaliseStep p { f with good := hit })) ∧
     (st = 5 → exec (.upstreamTrainingFrame p f) s = .next (s.echoStep p { f with good := hit })) ∧
     (st = 6 → ∀ j, (s.port p).lane = some j → exec (.upstreamTrainingFrame p f) s = .next (s.laneStep p f j)) ∧
     (st = 0 ∨ st = 7 ∨ st = 8 → exec (.upstreamTrainingFrame p f) s = .next s) ∧
     (st = 1 → f.good = false → ∃ t, exec (.upstreamTrainingFrame p f) s = .next t ∧ (t.port p).good = 0 ∧ t.get F.HLP_STAT_STATE p = 1)) ∧
    (∀ c sk t,
      (sk = 0 ∨ 31 < sk.natAbs ∨ 4 ≤ t → deskew p sk t c = (if sk = 0 then .aligned else .failed, c)) ∧
      (sk ≠ 0 → sk.natAbs ≤ 31 → t < 4 →
        let g := if 0 < sk then F.HLP_SKEW_DA else F.HLP_SKEW_DB
        deskew p sk t c = if 31 < c.get g p + sk.natAbs then (.failed, c) else (.moved (t + 1), c.set g (c.get g p + sk.natAbs) p))) ∧
    (let late := (s.port p).startAt + 1000 * max 1 (s.get F.HLP_CTL_LUTO p) < s.now
     (1 ≤ st → st ≤ 5 → late → exec (.linkupTimeout p) s = .next (s.linkFail p C.hlp_linkup_timeout)) ∧
     (st = 0 ∨ 5 < st ∨ ¬late → exec (.linkupTimeout p) s = .next s)) ∧
    (∀ t, (s.port p).pauseEnd = some t →
      (s.on F.HLP_CTL_EN p = true → t ≤ s.now → exec (.linkupRestart p) s = .next (s.startLink p)) ∧
      (s.now < t → exec (.linkupRestart p) s = .next s)) ∧
    (Reaches s (R.HLP_SLIP.off p 0) → fieldOf v 0 1 = 1 → s.on F.HLP_CTL_MANUAL p = true → s.portUp p = false →
      (fieldOf v 1 1 = 1 → fieldOf v 2 2 = 2 →
        exec (.slip p v) s = .next (s.set F.HLP_SKEW_UBIT ((s.get F.HLP_SKEW_UBIT p + 1) % 512) p)) ∧
      (fieldOf v 1 1 = 0 → fieldOf v 2 2 = 0 →
        exec (.slip p v) s = .next (s.set F.HLP_SKEW_DA ((s.get F.HLP_SKEW_DA p + 1) % 32) p)) ∧
      (fieldOf v 1 1 = 0 → fieldOf v 2 2 = 1 →
        exec (.slip p v) s = .next (s.set F.HLP_SKEW_DB ((s.get F.HLP_SKEW_DB p + 1) % 32) p))) ∧
    (Reaches s (R.HLP_SLIP.off p 0) → s.on F.HLP_CTL_MANUAL p = false ∨ s.portUp p = true → exec (.slip p v) s = .next s) ∧
    (∀ l : Fin 2, Reaches s (R.HLP_FFE.off p l) →
      let a := toSigned 8 (fieldOf v 0 8)
      let b := toSigned 8 (fieldOf v 8 8)
      let c := toSigned 8 (fieldOf v 16 8)
      (s.carries p l = true ∨ s.calibrating p l = true ∨ tapsOk a b c = false → exec (.ffeWrite p l v) s = .next s) ∧
      (s.portPresent p = true → s.carries p l = false → s.calibrating p l = false → tapsOk a b c = true →
        exec (.ffeWrite p l v) s = .next (s.putTaps p l a b c))) ∧
    (Reaches s (R.HLP_CAL.off p 0) → fieldOf v 31 1 = 1 →
      let u := s.swWrite (R.HLP_CAL.off p 0) v
      let l := fieldOf v 30 1
      (u.portUp p = false ∨ u.get F.HLP_STAT_MODE p ≠ 0 ∨ u.on F.HLP_STAT_CALRUN p = true →
        exec (.recalibrate p v) s = .next (u.set F.HLP_CAL_REFUSED 1 p)) ∧
      (u.portUp p = true → u.get F.HLP_STAT_MODE p = 0 → u.on F.HLP_STAT_CALRUN p = false →
        exec (.recalibrate p v) s = .next (((u.setPort p { u.port p with
            lane := some { lane := l, recal := true, phase := .eq (TapCal.start l) } }).set
          F.HLP_STAT_MODE (if l = 0 then 2 else 1) p).set F.HLP_STAT_CALRUN 1 p))) ∧
    (Reaches s (R.HLP_PGEN.off p 0) →
      let u := (s.swWrite (R.HLP_PGEN.off p 0) v).checkerLock p
      (fieldOf v 25 1 = 0 ∨ u.loopChecked p = false ∨ u.on F.HLP_PCHK_LOCK p = false → exec (.patternInject p v) s = .next u) ∧
      (fieldOf v 25 1 = 1 → u.loopChecked p = true → u.on F.HLP_PCHK_LOCK p = true → u.get F.HLP_PGEN_PAT p < 4 →
        exec (.patternInject p v) s = .next (u.bump F.HLP_PERR_COUNT 1 p))) ∧
    (Reaches s (R.HLP_INJ.off p 0) →
      let u := s.swWrite (R.HLP_INJ.off p 0) v
      let l := fieldOf v 30 1
      (fieldOf v 31 1 = 0 ∨ u.carries p l = false → exec (.frameInject p v) s = .next u) ∧
      (fieldOf v 31 1 = 1 → u.carries p l = true → exec (.frameInject p v) s = .next
        (u.setPort p { u.port p with inj := some { lane := l, nbits := clampN 1 16 (fieldOf v 20 5), start := fieldOf v 0 11 } })))

/-- Link frames (R271, R272, R284, R290, R305, R315): one downstream frame a slot, numbered in turn and kept for a resend; an upstream frame
with a good CRC delivers its messages, a bad one is counted, and the eighth in a row takes the port down; an unanswered message goes again up
to RETRY times; PING goes to every Standby and Active segment. -/
def Obligations.LinkFrames : Prop :=
  ∀ (s : State) (p : Fin 16) (f : List Word) (tok : BitVec 12),
    (s.portUp p = false → exec (.downstreamFrame p) s = .next s ∧ exec (.upstreamFrame p f) s = .next s ∧ exec (.pingPeriod p) s = .next s) ∧
    (s.portUp p = true →
      let k := (s.port p).k
      let u := if k = 0 then s.setPort p { s.port p with epoch := some s.fireC } else s
      let t := (u.frameMsgs p).2.sendFrame p k (u.frameMsgs p).1
      exec (.downstreamFrame p) s = .next t ∧ (t.port p).k = k + 1 ∧
        (t.port p).sent.head? = some { k := k, msgs := (u.frameMsgs p).1 } ∧
        ((s.port p).fireQ = [] → (s.port p).resendQ = [] → (s.port p).ctlQ = [] → frameOwner s.liveFrame p = none → (u.frameMsgs p).1 = [])) ∧
    (s.portUp p = true → f.length = 16 →
      let x := s.port p
      (crc32c ((f.take 15).flatMap beField) = f.getD 15 0 → exec (.upstreamFrame p f) s =
        .next (upMessages p 14 ((f.drop 1).take (min 14 (fieldOf (f.getD 0 0) 12 4))) (s.setPort p { x with upBad := 0 }))) ∧
      (crc32c ((f.take 15).flatMap beField) ≠ f.getD 15 0 →
        let u := s.bump F.HLK_UPCRC_COUNT 1 p
        let w := u.setPort p { u.port p with upBad := x.upBad + 1 }
        (x.upBad < 7 → exec (.upstreamFrame p f) s = .next w) ∧
        (7 ≤ x.upBad → exec (.upstreamFrame p f) s = .next ((w.report C.hlp_up_loss (mkArg none (some p.val) 0)).portDown p)))) ∧
    (∀ q, (s.port p).pend.find? (fun q => q.tok == tok.toNat) = some q →
      let due := q.due.any (fun t => decide (t ≤ s.now))
      (due = false → exec (.ackTimeout p tok) s = .next s) ∧
      (due = true → q.tries < max 1 (s.get F.HLK_CFG_RETRY) → s.portUp p = true → exec (.ackTimeout p tok) s = .next
        (s.setPort p { s.port p with
          pend := (s.port p).pend.map (fun r => if r.tok = q.tok then { r with due := none, tries := r.tries + 1 } else r),
          ctlQ := (s.port p).ctlQ ++ [q.words] })) ∧
      (due = true → max 1 (s.get F.HLK_CFG_RETRY) ≤ q.tries → q.mtype ≠ 0x12 → exec (.ackTimeout p tok) s = .next (s.giveUp p q)) ∧
      (due = true → max 1 (s.get F.HLK_CFG_RETRY) ≤ q.tries → q.mtype = 0x12 → exec (.ackTimeout p tok) s = .next ((s.giveUp p q).loadDone 3))) ∧
    (s.portUp p = true → s.get F.HLK_CFG_PING ≠ 0 → exec (.pingPeriod p) s = .next
      ((((List.range 128).map (p.val * 128 + ·)).filter (fun sg => s.segState sg == sgStandby || s.segState sg == sgActive)).foldl
        (fun s sg => s.sendPing sg) s))

/-- Upstream messages (R251 to R253, R294, R302, R305, R308, R310 to R316): what each delivered message does, and the timeouts of a block, of
an APPLIED and of telemetry. -/
def Obligations.UpstreamMessages : Prop :=
  ∀ (s : State) (p : Fin 16) (m : List Word),
    (∀ t, s.upOk p m t = false →
      (t = 0x20 → exec (.ackMsg p m) s = .next s) ∧ (t = 0x21 → exec (.bncap p m) s = .next s) ∧
      (t = 0x22 → exec (.cap p m) s = .next s) ∧ (t = 0x23 → exec (.slotinfo p m) s = .next s) ∧
      (t = 0x24 → exec (.staged p m) s = .next s) ∧ (t = 0x25 → exec (.applied p m) s = .next s) ∧
      (t = 0x26 → exec (.telem p m) s = .next s) ∧ (t = 0x27 → exec (.segEvent p m) s = .next s) ∧
      (t = 0x29 → exec (.bnstat p m) s = .next s) ∧ (t = 0x2A → exec (.floss p m) s = .next s)) ∧
    (let u := s.postEvent (0x140 + p)
     let v := u.fromSeg p m
     let sg := p * 128 + upSrc m
     let tok := upArg m % 4096
     s.portUp p = true → u.portUp p = true →
       (upType m = 0x20 →
         (∀ w, v.takePend p tok = (none, w) → exec (.ackMsg p m) s = .next w) ∧
         (∀ q w, v.takePend p tok = (some q, w) →
           (upArg m / 4096 ≠ 0 → exec (.ackMsg p m) s = .next w) ∧
           (upArg m / 4096 = 0 → q.mtype = 0x0E → w.segState (p * 128 + q.dst) = sgStandby →
             exec (.ackMsg p m) s = .next (w.setSegState (p * 128 + q.dst) sgActive)) ∧
           (upArg m / 4096 = 0 → q.mtype = 0x0C → exec (.ackMsg p m) s = .next
             (w.setSeg (p * 128 + q.dst) { w.seg (p * 128 + q.dst) with pingMiss := 0 })))) ∧
       (upType m = 0x21 → ∀ q w, u.takePend p tok = (some q, w) →
         (fieldOf (m.getD 1 0) 24 8 ≠ 1 ∨ 3516 < fieldOf (m.getD 3 0) 0 16 → exec (.bncap p m) s = .next
           (((w.report C.hlk_bn_refused (mkArg none (some p) 0)).portDown p).set F.HLK_PSTAT_BNSTATE 3 p)) ∧
         (fieldOf (m.getD 1 0) 24 8 = 1 → fieldOf (m.getD 3 0) 0 16 ≤ 3516 →
           let w1 := w.setPort p { w.port p with bncap := m.drop 1 }
           let w2 := (w1.set F.HLK_PSTAT_BNSTATE 2 p).set F.HLK_PSTAT_FAN (fieldOf (m.getD 2 0) 0 16) p
           exec (.bncap p m) s = .next (presence p (maskOf m 4) 128 (w2.setPdly p)))) ∧
       (upType m = 0x22 → ∀ q, (v.port p).pend.find? (fun q => q.tok == tok && q.mtype == 0x09) = some q →
         let w := v.setPort p { v.port p with
           pend := (v.port p).pend.map (fun r => if r.tok = q.tok then { r with due := some (v.now + 1000000) } else r) }
         let x := w.setSeg sg { w.seg sg with cap := m.drop 1, capAt := some w.now }
         let y := (x.setSegState sg sgStandby).set F.HLK_SEG_BUFD (fieldOf ((m.drop 1).getD 4 0) 8 8) sg
         (x.capPasses sg (m.drop 1) = false → exec (.cap p m) s = .next
           ((x.setSegState sg sgRefused).report C.hlk_seg_incompatible (mkArg none (some p) (upSrc m)))) ∧
         (x.capPasses sg (m.drop 1) = true → (y.seg sg).held = none → exec (.cap p m) s = .next y) ∧
         (∀ h, x.capPasses sg (m.drop 1) = true → (y.seg sg).held = some h → y.segen sg = true →
           h = (capSerial (m.drop 1), capSlotgen (m.drop 1)) → y.segBar sg = none → exec (.cap p m) s = .next (y.sendAdmit sg))) ∧
       (upType m = 0x23 → (v.seg sg).capAt = none →
         let w1 := m.getD 1 0
         let e := (upArg m % 8, fieldOf w1 31 1 == 1, fieldOf w1 24 4, (m.getD 2 0).toNat, (m.getD 3 0).toNat)
         let w := v.setSeg sg { v.seg sg with slots := (v.seg sg).slots.filter (fun t => t.1 != upArg m % 8) ++ [e] }
         let x := w.set F.HLK_SEG_LEAD (min 65535 (w.activeSlot sg).2.2.2) sg
         exec (.slotinfo p m) s = .next (x.setSegLead.setRates ((x.segBar sg).getD 0))) ∧
       (upType m = 0x24 →
         let g := fieldOf (m.getD 1 0) 0 6
         let x := v.group g
         let mine := fun (b : StagedBlock) => b.port == p.val && b.param.toNat == fieldOf (m.getD 1 0) 16 16 && bitN b.waiting (upSrc m) == 1
         (x.blocks.any mine = false → exec (.staged p m) s = .next v) ∧
         (x.blocks.any mine = true → exec (.staged p m) s = .next (v.setGroup g { x with
           blocks := x.blocks.map (fun b => if mine b then { b with waiting := b.waiting - 2 ^ upSrc m } else b),
           failed := if upArg m / 4096 = 0 then x.failed else x.failed.orElse (fun _ => some sg) }))) ∧
       (upType m = 0x25 →
         let g := upArg m % 64
         let w := v.setGroup g { v.group g with unapplied := (v.group g).unapplied.filter (fun e => e.1 != sg) }
         ((w.seg sg).joinGroup ≠ some g → exec (.applied p m) s = .next w) ∧
         ((w.seg sg).joinGroup = some g → exec (.applied p m) s = .next
           ((w.setSeg sg { w.seg sg with joinGroup := none,
                                         telLine := some (((w.flineOf ((w.segBar sg).getD 0)).toNat + 1) % 2 ^ 64) }).setSegState sg sgActive))) ∧
       (upType m = 0x26 →
         let w1 := m.getD 1 0
         let t := toSigned 16 (fieldOf w1 16 16)
         let next := ((v.flineOf (v.barOf sg)).toNat + 1) % 2 ^ 64
         let w := v.setSeg sg { v.seg sg with tel1 := w1, tel2 := m.getD 2 0, telLine := some next }
         let x := (w.set F.FIRE_SEG_TEMP (fieldOf w1 16 16) sg).set F.FIRE_SEG_STALE 0 sg
         exec (.telem p m) s = .next ((x.segTrim sg t (fieldOf w1 0 16)).headLimits sg t)) ∧
       (upType m = 0x27 →
         (upArg m % 256 = 0x01 → exec (.segEvent p m) s = .next (v.hardLimit sg)) ∧
         (upArg m % 256 = 0x02 → exec (.segEvent p m) s = .next (v.hotClear sg (toSigned 16 (fieldOf (m.getD 1 0) 0 16)))) ∧
         (upArg m % 256 = 0x03 → exec (.segEvent p m) s = .next (v.linesLost sg (fieldOf (m.getD 1 0) 0 16) (fieldOf (m.getD 1 0) 16 16))) ∧
         (upArg m % 256 = 0x05 → exec (.segEvent p m) s = .next (v.linesLost sg 1 (fieldOf (m.getD 1 0) 0 16))) ∧
         (upArg m % 256 = 0x04 ∨ upArg m % 256 = 0x06 → exec (.segEvent p m) s = .next v) ∧
         (upArg m % 256 = 0x07 → v.segState sg = sgActive → exec (.segEvent p m) s = .next
           ((v.setSegState sg sgStandby).report C.hlk_seg_changed (mkArg none (some p.val) (upSrc m))))) ∧
       (upType m = 0x29 →
         let a := upArg m
         let w := u.bump F.HLK_FECCOR_COUNT (m.getD 1 0).toNat p
         let x := if w.get F.HLK_PSTAT_BNSTATE p = 2 then presence p (maskOf m 2) 128 w else w
         exec (.bnstat p m) s = .next (x.laneReports p (bitN a 0 == 1) (bitN a 1 == 1) (bitN a 2 == 1) (bitN a 3 == 1) (bitN a 4 == 1))) ∧
       (upType m = 0x2A →
         let w := u.bump F.HLK_FECUNC_COUNT 1 p
         (frameOwner w.liveFrame p = none → exec (.floss p m) s = .next w) ∧
         (∀ b c, frameOwner w.liveFrame p = some b → (w.port p).sent.find? (fun c => c.k % 4096 == upArg m % 4096) = some c →
           let ms := c.msgs.filter (w.resendable p b)
           w.on F.HLK_CFG_RESEND = true → ms ≠ [] → exec (.floss p m) s = .next
             ((w.setPort p { w.port p with resendQ := (w.port p).resendQ ++ ms }).bump F.HLK_RESEND_COUNT 1 p)))) ∧
    (∀ (g : Fin 64) (k : Nat) (b : StagedBlock), (s.group g).blocks[k]? = some b →
      (b.waiting ≠ 0 → b.due.any (fun t => decide (t ≤ s.now)) = true → b.tries < max 1 (s.get F.HLK_CFG_RETRY) → s.gstate g = cgCommitted →
        let b' := { b with due := none, tries := b.tries + 1 }
        exec (.stageTimeout g k) s = .next
          ((s.setGroup g { s.group g with blocks := (s.group g).blocks.set k b' }).sendStage g (s.gline g) b' b.waiting)) ∧
      (b.waiting = 0 ∨ max 1 (s.get F.HLK_CFG_RETRY) ≤ b.tries → exec (.stageTimeout g k) s = .next s)) ∧
    (∀ (g : Fin 64) (sg : Fin 2048),
      ((s.group g).unapplied.any (fun e => e.1 == sg.val && decide (e.2 ≤ s.now)) = false → exec (.appliedTimeout g sg) s = .next s) ∧
      ((s.group g).unapplied.any (fun e => e.1 == sg.val && decide (e.2 ≤ s.now)) = true →
        let q := sg.val % 128
        let u1 := s.setGroup g { s.group g with unapplied := (s.group g).unapplied.filter (fun e => e.1 != sg.val) }
        let u2 := u1.report C.cmt_seg_apply_missed (mkArg none (some (sg.val / 128)) q)
        let u3 := u2.sendQuiet sg (u2.fireBar ((u2.segBar sg).getD 0)).next
        let off := R.HLK_SEGEN.off (sg.val / 128) (q / 32)
        let u4 := u3.wr off (fieldPut (u3.rd off) (q % 32) 1 0)
        let u5 := u4.setSeg sg { u4.seg sg with joinGroup := none }
        exec (.appliedTimeout g sg) s =
          .next (if u5.segState sg = sgActive then u5.setSegState sg sgStandby else u5.segSetChanged (sg.val / 128)))) ∧
    (∀ sg : Fin 2048,
      let b := s.barOf sg
      let n := ((s.flineOf b).toNat + 1) % 2 ^ 64
      let lim := max 1 (s.get F.FIRE_GCFG_TELSTALE) * max 1 (s.get F.FIRE_GCFG_TELLINES)
      (s.segState sg = sgActive → (s.segBar sg).isSome = true → s.barActive b = true → s.on F.FIRE_SEG_STALE sg = false →
        (∃ l, (s.seg sg).telLine = some l ∧ l + lim ≤ n) →
          exec (.telemetryStale sg) s = .next (((s.set F.FIRE_SEG_STALE 1 sg).softLimit sg).segReport C.fire_telemetry_stale sg)) ∧
      (s.segState sg ≠ sgActive ∨ s.barActive b = false ∨ (∃ l, (s.seg sg).telLine = some l ∧ n < l + lim) →
        exec (.telemetryStale sg) s = .next s))

/-! ### Memories -/

/-- Requests and command slots (R329, R331, R333, R334, R345): an accepted write stands in DRAM at once; a request beyond the capacity has no
effect but dmc.range; one that finds no place waits; a command slot takes the first request of R334's rules; a burst is decoded where it ends.
Refresh, frequency, test and training (R337 to R349): a REFab each tREFI, postponed at most four times while requests wait; a Class L window at
RFNEXT; self-refresh only of an idle channel; the timing sets; the frequency change; the patrol scrub; error injection; drift; and training at
Boot. -/
def Obligations.DramRequests : Prop :=
  (∀ (s : State) (port : DramPort) (addr : BitVec 40) (c : Fin 4),
     (s.on F.DMC_CTL_EN = false ∨ s.on F.DMC_STAT_FCBUSY = true → ∀ req, exec (.dramRequest port req) s = .next s) ∧
     (s.on F.DMC_CTL_EN = true → s.on F.DMC_STAT_FCBUSY = false →
       (∀ bytes, bytes ≠ [] →
         (s.dramOk addr.toNat bytes.length = false → exec (.dramRequest port (.write addr bytes)) s = .next (s.dramRange addr.toNat)) ∧
         (s.dramOk addr.toNat bytes.length = true →
           (∀ u, s.acceptReq port true none addr.toNat bytes.length = some u →
             exec (.dramRequest port (.write addr bytes)) s = .next (u.writeDram addr.toNat bytes)) ∧
           (s.acceptReq port true none addr.toNat bytes.length = none → exec (.dramRequest port (.write addr bytes)) s = .next s))) ∧
       (∀ len, len ≠ 0 →
         (s.dramOk addr.toNat len = false → exec (.dramRequest port (.read addr len)) s = .next (s.dramRange addr.toNat)) ∧
         (s.dramOk addr.toNat len = true →
           exec (.dramRequest port (.read addr len)) s = .next ((s.acceptReq port false none addr.toNat len).getD s))) ∧
       (∀ b inst group stripe g a n, port = .rt b → s.on F.IBF_CTL_EN b = true →
         (s.pipe b).groups.find? (fun g => g.inst == inst && g.group == group && g.stripe == stripe) = some g →
         s.nextFetch b g = some (a, n) → s.touchesStopped a n = false →
         ∀ u, s.acceptReq port false (some (inst, group, stripe)) a n = some u →
           exec (.dramRequest port (.fetch inst group stripe)) s = .next (u.setGroupOf b { g with asked := g.asked + n }))) ∧
     (let ls := lineAddrs addr.toNat 64
      let cs := s.lineChans ls
      (s.devPlaces cs.length = false → ∀ w, s.acceptReq port w none addr.toNat 64 = none) ∧
      (cs.all (fun c => s.hasPlace c port) = true → s.devPlaces cs.length = true →
        ∀ w, s.acceptReq port w none addr.toNat 64 = some (cs.foldl (fun s c => s.enqueueReq c port w none ls) s))) ∧
     (s.slotOpen c = false → exec (.dramCommandSlot c) s = .next s) ∧
     (s.slotOpen c = true → (s.chan c).hold = [] → s.fullBanks c = [] →
       let u := s.setChan c { s.chan c with drain := s.drainNow c }
       let pick := u.slotPick c (s.chan c).queue.zipIdx (u.chan c).queue (u.chan c).drain 5 0
       (∀ r i, pick = some (r, i) → exec (.dramCommandSlot c) s = .next (u.issueReq c i r)) ∧
       (pick = none → (u.chan c).queue ≠ [] ∨ u.anyPanic = true → exec (.dramCommandSlot c) s = .next u) ∧
       (pick = none → (u.chan c).queue = [] → u.anyPanic = false → exec (.dramCommandSlot c) s = .next (u.issuePostponed c))) ∧
     (∀ err,
       ((s.chan c).issued = [] → exec (.burstDecode c err) s = .next s) ∧
       (∀ r rest a beats more, (s.chan c).issued = r :: rest → r.lines = (a, beats) :: more → r.who = none →
         let u := s.setChan c { s.chan c with issued := if more = [] then rest else { r with lines := more } :: rest }
         let d := u.decodeBurst a beats err
         exec (.burstDecode c err) s = .next { d.st with dmc := { d.st.dmc with out := d.bytes, outBad := d.bad } }))) ∧
  (∀ (s : State) (c : Fin 4) (k : Fin 2) (v : Word),
     (∀ rank : Fin 2, s.on F.DMC_CTL_EN = true → s.on F.DMC_STAT_CLASSL = false → s.chanInUse c = true → s.get F.DMC_CHSTAT_STATE c = 4 →
       rank.val < s.get F.DMC_CHSTAT_RANKS c →
       let x := s.chan c
       let n := Tab.get (fun _ => 0) x.postponed rank.val
       ((x.queue ≠ [] ∨ s.anyPanic = true) → n < 4 →
         exec (.refreshInterval c rank) s = .next (s.setChan c { x with postponed := Tab.put (fun _ => 0) x.postponed rank.val (n + 1) })) ∧
       ((x.queue = [] ∧ s.anyPanic = false) ∨ 4 ≤ n →
         exec (.refreshInterval c rank) s = .next (s.refreshRank c rank 1))) ∧
     (s.on F.DMC_CTL_EN = true → s.on F.DMC_STAT_CLASSL = true → s.on F.DMC_STAT_FCBUSY = false →
       (s.tbNs 0 < s.rfNext → exec .refreshWindow s = .next s) ∧
       (s.rfNext ≤ s.tbNs 0 → exec .refreshWindow s = .next ((s.setRfNext (s.rfNext + s.get F.DMC_RFWIN_INTERVAL)).startWindow))) ∧
     (∀ codes, s.on F.DMC_CTL_EN = false → exec (.mr4Poll codes) s = .next s) ∧
     (∀ codes, s.on F.DMC_CTL_EN = true → s.on F.DMC_STAT_CLASSL = false →
       let used := codes.filter (fun m => s.chanInUse m.chan && decide (m.rank.val < s.get F.DMC_CHSTAT_RANKS m.chan))
       ∃ t, exec (.mr4Poll codes) s = .next t ∧ t.get F.DMC_TEMP_MR4MAX = (used.map (·.code.toNat)).foldl max 0 % 256 ∧
         t.dmc.beyond = used.any (·.beyond)) ∧
     (s.on F.DMC_CTL_EN = true → s.on F.DMC_STAT_CLASSL = false → s.on F.DMC_STAT_FCBUSY = false → s.chanInUse c = true →
       s.get F.DMC_CHSTAT_STATE c = 4 → s.flight c = [] → s.on F.DMC_SRCFG_SREN = true → s.anyPanic = false → s.leastLtol = none →
       ((s.chan c).lastReq + 1000 * max 1 (s.get F.DMC_SRCFG_SRIDLE) ≤ s.now → exec (.selfRefreshEntry c) s =
         .next ((s.setChan c { (s.chan c).precharge with postponed := [] }).set F.DMC_CHSTAT_STATE 5 c)) ∧
       (s.now < (s.chan c).lastReq + 1000 * max 1 (s.get F.DMC_SRCFG_SRIDLE) → exec (.selfRefreshEntry c) s = .next s)) ∧
     (Reaches s (R.DMC_TSET.off k 0) →
       let u := (s.swWrite (R.DMC_TSET.off k 0) v).set F.DMC_TSET_VALID 0 k
       exec (.tsetWrite k v) s = .next { u with dmc := { u.dmc with
         derive := Tab.put (fun _ => none) u.dmc.derive k.val (some (u.now + 10000)), trained := u.dmc.trained.filter (· != k.val) } }) ∧
     (∀ cl t0, Tab.get (fun _ => none) s.dmc.derive k.val = some t0 →
       let u : State := { s with dmc := { s.dmc with derive := Tab.put (fun _ => none) s.dmc.derive k.val none } }
       exec (.timingDerived k cl) s =
         .next (((u.set F.DMC_TSET_VALID 1 k).set F.DMC_TSET_CL cl.toNat k).set F.DMC_TSET_TRFC u.trfc k)) ∧
     (Reaches s (R.DMC_FCHG.off 0 0) → fieldOf v 31 1 = 1 →
       (s.printing = true ∨ s.on F.DMC_STAT_FCBUSY = true ∨ fieldOf v 30 1 = s.get F.DMC_STAT_ACTSET ∨ s.on F.DMC_TSET_VALID (fieldOf v 30 1) = false →
         exec (.frequencyChange v) s = .next (s.set F.DMC_FCHG_REFUSED 1)) ∧
       (s.printing = false → s.on F.DMC_STAT_FCBUSY = false → fieldOf v 30 1 ≠ s.get F.DMC_STAT_ACTSET →
         s.on F.DMC_TSET_VALID (fieldOf v 30 1) = true →
         ∃ t, exec (.frequencyChange v) s = .next t ∧ t.dmc.change = some (fieldOf v 30 1, t.now))) ∧
     (∀ ok, (s.dmc.change = none → exec (.frequencyChangeDone ok) s = .next s) ∧
       (∀ set t0, s.dmc.change = some (set, t0) → (∀ c ∈ s.chans, (s.flight c).isEmpty = true) →
         exec (.frequencyChangeDone false) s = .next (s.resumeDram.report C.dmc_recal_fail (mkArg none none set)) ∧
         (let u := (s.set F.DMC_STAT_ACTSET set).resumeDram
          let w : State := { u with dmc := { u.dmc with trained := set :: u.dmc.trained.filter (· != set) } }
          exec (.frequencyChangeDone true) s = .next ((w.set F.DMC_FCHG_DONE 1).set F.DMC_FCHG_LAST (min 65535 ((w.now - t0) / 1000)))))) ∧
     (s.on F.DMC_CTL_EN = true → s.on F.DMC_SCRUB_EN = true → s.on F.DMC_STAT_FCBUSY = false → 0 < s.dmc.scrubAt →
       s.dmc.scrubAt + 1 < s.dramBytes / 64 →
       let r := (s.setScrubAt (s.dmc.scrubAt + 1)).readBurst (s.dmc.scrubAt * 64)
       (r.bad = true → exec .patrolScrub s = .next r.st) ∧
       (r.bad = false → r.st.on F.DMC_ECCTEST_RAW (r.st.chanAddr (s.dmc.scrubAt * 64)).1 = false → exec .patrolScrub s = .next
         { r.st with dmc := { r.st.dmc with data := putBytes r.st.dmc.data (s.dmc.scrubAt * 64) r.bytes,
                                            chk := clearChk r.st.dmc.chk (s.dmc.scrubAt * 64) } })) ∧
     (Reaches s (R.DMC_INJ.off c 0) →
       let u := s.swWrite (R.DMC_INJ.off c 0) v
       (fieldOf v 31 1 = 0 → exec (.eccInject c v) s = .next u) ∧
       (fieldOf v 31 1 = 1 → exec (.eccInject c v) s = .next (u.setChan c { u.chan c with inj := some (u.rd (R.DMC_INJ.off c 0)) }))) ∧
     (∀ drift, s.on F.DMC_CTL_EN = true → s.on F.DMC_STAT_FCBUSY = false → s.chanInUse c = true →
       s.on F.DMC_STAT_CLASSL = false ∨ s.now < s.dmc.winEnd →
       let u := ({ s with dmc := { s.dmc with runs := s.dmc.runs + 1 } } : State).calDone (32 + c)
       let w := u.setChan c { u.chan c with shift := (u.chan c).shift + drift }
       (drift ≤ s.get F.DMC_RCAL_DRIFT → exec (.dqsOscillatorRun c drift) s = .next u) ∧
       (s.get F.DMC_RCAL_DRIFT < drift → drift ≤ 4 * s.get F.DMC_RCAL_DRIFT → exec (.dqsOscillatorRun c drift) s = .next w) ∧
       (s.get F.DMC_RCAL_DRIFT < drift → 4 * s.get F.DMC_RCAL_DRIFT < drift →
         exec (.dqsOscillatorRun c drift) s = .next (w.report C.dmc_recal_fail (mkArg none (some c) drift)))) ∧
     (s.get F.DMC_CHSTAT_STATE c = 2 →
       let u := s.set F.DMC_CHSTAT_STATE 4 c
       exec (.dramTraining c true) s = .next ((u.set F.DMC_STAT_TRAINED (Nat.lor (u.get F.DMC_STAT_TRAINED) (2 ^ c.val))).updDmcStat) ∧
       exec (.dramTraining c false) s =
         .next (((s.set F.DMC_CHSTAT_STATE 3 c).report C.dmc_train_fail (mkArg none (some c.val) 0)).updDmcStat)) ∧
     (s.get F.DMC_CHSTAT_STATE c ≠ 2 → ∀ ok, exec (.dramTraining c ok) s = .next s))

/-- The protected memories (R354 to R365): reads and writes; valid-bit clears, refused while one runs, for no memory and for a tarn while printing;
the scrub's writing back; the remap entries; the halt of a DMA channel; and the checker test mode. A byte stored with its own check bits reads
clean; with the data bit at code position q inverted it reads corrected with the syndrome naming q; so with one check bit inverted; and with two
data bits inverted it is uncorrectable. -/
def Obligations.ProtectedMemories : Prop :=
  (∀ (s : State) (m : Fin 50) (k : Fin 16) (off : Nat) (req : TarnReq) (v : Word),
     (memExists m = false → ∀ op, exec (.tarnAccess m off req op) s = .next s) ∧
     (memExists m = true →
       let keys := fun n => (List.range n).map (fun i => memKey m (off + i))
       (∀ n, off + n ≤ memSize m →
         let r := s.readKeys (keys n) (TarnReqInfo req).1 (TarnReqInfo req).2
         exec (.tarnAccess m off req (.read n)) s = .next { r.st with tarn := { r.st.tarn with out := r.bytes, outBad := r.bad } }) ∧
       (∀ bs, off + bs.length ≤ memSize m →
         exec (.tarnAccess m off req (.write bs)) s = .next (s.writeKeys (req == .engine || req == .bar2) (keys bs.length) bs))) ∧
     (Reaches s 0xc0008 →
       let u := s.swWrite (R.TARN_INIT.off 0 0) v
       let mem := fieldOf v 0 6
       (fieldOf v 31 1 = 1 → s.on F.TARN_INIT_BUSY = true → exec (.tarnInit v) s = .next (s.set F.TARN_STAT_INITREF 1)) ∧
       (fieldOf v 31 1 = 0 → exec (.tarnInit v) s = .next u) ∧
       (fieldOf v 31 1 = 1 → s.on F.TARN_INIT_BUSY = false →
         (memExists mem = false ∨ (mem < 24 ∧ u.printing = true) → exec (.tarnInit v) s = .next (u.set F.TARN_STAT_INITREF 1)) ∧
         (memExists mem = true → 24 ≤ mem ∨ u.printing = false →
           exec (.tarnInit v) s = .next { u.set F.TARN_INIT_BUSY 1 with
             tarn := { u.tarn with
                       initNext := u.get F.TARN_INITRNG_FIRST
                       initEnd := if u.get F.TARN_INITRNG_COUNT = 0 then lineCount mem
                         else min (lineCount mem) (u.get F.TARN_INITRNG_FIRST + u.get F.TARN_INITRNG_COUNT) } }))) ∧
     (s.on F.TARN_INIT_BUSY = false → exec .tarnInitDone s = .next s) ∧
     (s.on F.TARN_INIT_BUSY = true → ∃ t, exec .tarnInitDone s = .next t ∧ t.on F.TARN_INIT_BUSY = false ∧
       t.tarn.valid = Tab.drop (lineInRange s (s.get F.TARN_INIT_MEM) s.tarn.initNext s.tarn.initEnd) s.tarn.valid) ∧
     (s.on F.TARN_CTL_SCRUB = false → ∀ hard, exec (.tarnScrub hard) s = .next s) ∧
     (s.on F.TARN_CTL_SCRUB = true → nextScrub s s.tarn.scrubAt s.tarn.valid = none → ∀ hard,
       exec (.tarnScrub hard) s = .next { s with tarn := { s.tarn with scrubAt := 0, scrubStart := s.now, scrubLate := false } }) ∧
     (∀ idx mm l, s.on F.TARN_CTL_SCRUB = true → nextScrub s s.tarn.scrubAt s.tarn.valid = some (idx, mm, l) → s.tarn.scrubLate = true →
       let u := scrubBytes false (homeKey mm l) (idx * 64) 64 s
       exec (.tarnScrub false) s = .next { u with tarn := { u.tarn with scrubAt := idx + 1 } }) ∧
     (Reaches s (R.TARN_RMAP.off m k) → memExists m = true →
       let newV := fieldOf v 31 1 == 1
       let newL := fieldOf v 0 15
       let oldV := s.on F.TARN_RMAP_VALID m k
       let oldL := s.get F.TARN_RMAP_LINE m k
       (spareCount m ≤ k ∨ (newV = true ∧ (rmapNames s m k newL 16 = true ∨ lineCount m ≤ newL)) →
         exec (.remapWrite m k v) s = .next (s.set F.TARN_MSTAT_RMERR 1 m)) ∧
       (k.val < spareCount m → (newV = true → rmapNames s m k newL 16 = false ∧ newL < lineCount m) →
         let s1 := if oldV && !(newV && oldL == newL) then s.copyLine (homeKey m oldL) (spareKey m k) (homeKey m oldL) else s
         let s2 := if newV && !(oldV && oldL == newL) then s1.copyLine (homeKey m newL) (homeKey m newL) (spareKey m k) else s1
         let s3 := (s2.set F.TARN_RMAP_VALID newV.toNat m k).set F.TARN_RMAP_LINE newL m k
         exec (.remapWrite m k v) s = .next (s3.set F.TARN_MSTAT_RMUSED (rmapUsed s3 m 16) m))) ∧
     (Reaches s 0xc0010 → exec (.dmahaltWrite v) s = .next (s.swWrite 0xc0010 v)) ∧
     (Reaches s (R.TARN_TCTL.off m 0) → memExists m = true →
       (s.printingOrPaused = true → fieldOf v 30 2 ≠ 0 → exec (.checkerTestWrite m v) s = .next s) ∧
       (s.printingOrPaused = false ∨ fieldOf v 30 2 = 0 → exec (.checkerTestWrite m v) s = .next (s.swWrite (R.TARN_TCTL.off m 0) v)))) ∧
  (∀ d : Byte, decodeByte d (encode5 d) = (d, .clean) ∧
     (∀ j : Fin 5, decodeByte d (encode5 d ^^^ BitVec.ofNat 5 (2 ^ j.val)) = (d, .corrected (16 + 2 ^ j.val % 16))) ∧
     (∀ q : Fin 13, ∀ i ∈ posBit q.val, decodeByte (d ^^^ BitVec.ofNat 8 (2 ^ i)) (encode5 d) = (d, .corrected (16 + q.val)) ∧
       ∀ r : Fin 13, ∀ j ∈ posBit r.val, q ≠ r →
         (decodeByte (d ^^^ BitVec.ofNat 8 (2 ^ i) ^^^ BitVec.ofNat 8 (2 ^ j)) (encode5 d)).2 = .uncorr (Nat.xor q.val r.val)))

/-! ### Cameras, time, clocks, faults and sensing -/

/-- The camera ports (R371 to R373, R376, R415): a clock that arrives; one that stays away 1 ms while EN is 1, reported once; a write of PCTL
that raises EN, refused with IOERR where the bank voltage is not the expected one, and starting afresh where it is; the start of a frame,
numbered and stamped with the web position; a line of W pixels that fits the input buffer, queued with its stamp; a line too many; and the end of
a frame that has all its lines, by FVAL or by a clock that stops. -/
def Obligations.CameraFrames : Prop :=
  ∀ (s : State) (k : Fin 2) (khz v : Word) (io : Bool) (ds : List (BitVec 16)),
    let x := s.cam k
    exec (.cameraClockPresent k khz) s =
      .next ((s.set F.CAM_PSTAT_PRESENT 1 k).setCam k { x with absentRep := false, khz := khz.toNat }) ∧
    (s.on F.CAM_PCTL_EN k = true → x.enAt + 1000000 ≤ s.now →
      let u := (s.set F.CAM_PSTAT_PRESENT 0 k).setCam k { x with absentRep := true, khz := 0 }
      exec (.cameraAbsent k) s = .next (if x.absentRep then u else u.report C.cam_absent (mkArg none (some k.val) 0))) ∧
    (Reaches s (R.CAM_PCTL.off k 0) →
      let u := s.set F.CAM_PSTAT_IOSENSE io.toNat k
      let w := u.swWrite (R.CAM_PCTL.off k 0) v
      fieldOf (u.rd (R.CAM_PCTL.off k 0)) 31 1 = 0 → w.on F.CAM_PCTL_EN k = true →
      (w.get F.CAM_PCTL_IOV k ≠ w.get F.CAM_PSTAT_IOSENSE k → exec (.cameraEnable k v io) s =
        .next (((w.set F.CAM_PCTL_EN 0 k).set F.CAM_PSTAT_IOERR 1 k).report C.cam_io_mismatch (mkArg none (some k.val) 0))) ∧
      (w.get F.CAM_PCTL_IOV k = w.get F.CAM_PSTAT_IOSENSE k → exec (.cameraEnable k v io) s =
        .next (w.setCam k { w.cam k with
          enAt := w.now, absentRep := false, open_ := false, num := 0, received := 0, frames := [], queue := [], accOf := none, prev := [],
          streams := [], pulse := none, pulseH := none, frameCnt := 0, dropCnt := 0 }))) ∧
    (s.on F.CAM_PCTL_EN k = true → x.open_ = false →
      let late := x.pulse.any (fun t => decide (t + 1000 * s.get F.CAM_TRIG_LATE k < s.now))
      let f : CamFrame := { num := x.num, late := late, short := false, long := false, drop := false, lineErr := false, uncorr := false,
                            done := false }
      let u := (s.setCam k { x with
        open_ := true, num := (x.num + 1) % 2 ^ 32, received := 0, stamp0 := s.pos, firstAt := s.now, lastAt := s.now,
        frames := x.frames ++ [f], pulseH := none }).set F.CAM_PSTAT_INFRAME 1 k
      exec (.frameStart k) s = .next (if late then u.report C.cam_frame_late (mkArg none (some k.val) 0) else u)) ∧
    (s.on F.CAM_PCTL_EN k = true → x.open_ = true →
      let row := widen (s.camFmt k) ds
      let n := s.camComps k
      let u := (s.set F.CAM_PSTAT_LASTW (min 65535 (row.length / n)) k).setCam k
        { x with received := x.received + 1, firstAt := if x.received = 0 then s.now else x.firstAt, lastAt := s.now }
      (u.camH k ≤ x.received → exec (.cameraLine k ds) s = .next (u.noteLong k)) ∧
      (x.received < u.camH k → u.camUsed k + s.camW k ≤ 32768 → row.length / n = s.camW k →
        let y := u.cam k
        let w := (fixLine (s.camW k * n) n row u).2
        let l : CamLine := { frame := y.cur, idx := y.received - 1, stamp := w.pos, pads := 0, drop := false,
                             pix := (fixLine (s.camW k * n) n row u).1 }
        let z := w.setCam k { y with queue := y.queue ++ [l] }
        exec (.cameraLine k ds) s = .next (if y.received = z.camH k then z.set F.CAM_PSTAT_INFRAME 0 k else z))) ∧
    (x.open_ = true → s.camH k ≤ x.received → 2 ≤ x.received →
      (∀ f ∈ x.frames, f.num ≠ x.cur ∨ f.done = false) →
      let u (s : State) : State := (s.setCam k { s.cam k with
        open_ := false, lastLines := min 65535 x.received, period := (x.lastAt - x.firstAt) / (x.received - 1), pulse := x.pulseH,
        pulseH := none }).set F.CAM_PSTAT_INFRAME 0 k
      exec (.frameEnd k) s = .next (u s) ∧
      (s.get F.XING_CTL_CAMTO < 10 → exec (.cameraClockTimeout k) s = .next (u s)))

/-- Gate CAM, triggers and the pipeline (R373 to R379): ARM, DISARM, PATCH and BAND each take their descriptor, one the camera may not take is
dropped and reported, and a second PATCH or BAND of a camera waits; a trigger pulse, its strobe and the next target; and the line that the
pipeline takes next: an added or dropped line repeats the output before it, and its frame is done with its last line. -/
def Obligations.CameraGateAndPipeline : Prop :=
  ∀ (s : State) (d : Desc) (k : Fin 2) (t : Nat) (l : CamLine) (rest : List CamLine),
    let c := d.w4.toNat % 2
    (s.nextCamDesc = some d → (s.gate 33).stopped = false →
      (s.camDescOk d = false →
        (d.op = 1 → exec .arm s = .next (s.refuseCam d)) ∧ (d.op = 2 → exec .disarm s = .next (s.refuseCam d)) ∧
        (d.op = 3 → exec .patch s = .next (s.refuseCam d)) ∧ (d.op = 4 → exec .band s = .next (s.refuseCam d))) ∧
      (s.camDescOk d = true →
        (d.op = 1 → exec .arm s = .next (s.takeCam.setCam c { s.cam c with trig := some (d.w6.toNat + 2 ^ 32 * d.w7.toNat) })) ∧
        (d.op = 2 → exec .disarm s = .next (((s.takeCam.setCam c { s.cam c with trig := none }).finishCam 1 c).finishCam 2 c)) ∧
        (d.op = 3 → (s.cam c).patch ≠ none → exec .patch s = .next s) ∧
        (d.op = 3 → (s.cam c).patch = none →
          let r := s.readTarn ((s.bankAddr 0x3F00 false).getD 0) 4096
          let u := r.st.takeCam
          let origin := leNat (r.bytes.take 8)
          let period := max 1 (leNat ((r.bytes.drop 8).take 4))
          let nmin := u.lineNear d.w7.toNat
          let op : PatchOp :=
            { addr := d.w6.toNat - 0x10000000, origin := origin, period := period, guard := leNat ((r.bytes.drop 14).take 2),
              first := if nmin ≤ origin then origin else origin + cdiv (nmin - origin) period * period,
              recs := parsePatches r.bytes, acc := (parsePatches r.bytes).map (fun _ => (0, 0, 0)) }
          exec .patch s = .next (u.setCam c { u.cam c with patch := some op })) ∧
        (d.op = 4 → (s.cam c).band ≠ none → exec .band s = .next s) ∧
        (d.op = 4 → (s.cam c).band = none →
          let op : BandOp :=
            { bar := fieldOf d.w4 1 3, white := fieldOf d.w4 16 16, dash := clampN 1 16 (fieldOf d.w4 9 5),
              pitch := max 4 (fieldOf d.w4 4 5), aexp := d.w5.toNat, addr := d.w6.toNat - 0x10000000, start := s.lineNear d.w7.toNat,
              acc := [] }
          exec .band s = .next (s.takeCam.setCam c { s.cam c with band := some op })))) ∧
    ((s.cam k).trig = some t → s.pos < t → exec (.triggerPulse k) s = .next s) ∧
    ((s.cam k).trig = some t → t ≤ s.pos → (s.cam k).open_ = false →
      exec (.triggerPulse k) s = .next ((s.setCam k { s.cam k with
        trig := nextTarget t (s.get F.CAM_TINT_WPU k) s.pos
        trigEnd := s.now + 10 * max 1 (s.get F.CAM_TRIG_WIDTH k)
        strobes := if s.get F.CAM_STRB_WIDTH k = 0 then (s.cam k).strobes
          else (s.cam k).strobes ++ [s.now + 10 * s.get F.CAM_STRB_DELAY k]
        pulse := (s.cam k).pulse.orElse (fun _ => some s.now) }).finishCam 1 k)) ∧
    (∀ tt more, (s.cam k).strobes = tt :: more → (s.now < tt → exec (.strobe k) s = .next s) ∧
      (tt ≤ s.now → exec (.strobe k) s =
        .next (s.setCam k { s.cam k with strobes := more, strbEnd := s.now + 10 * s.get F.CAM_STRB_WIDTH k }))) ∧
    (let j := if (s.cam (1 - s.col.served % 2)).queue ≠ [] then 1 - s.col.served % 2 else 1 - (1 - s.col.served % 2)
     (s.cam j).queue = l :: rest →
      let left := if 1 < l.pads then { l with idx := l.idx + 1, pads := l.pads - 1 } :: rest else rest
      let u : State := { s.setCam j { s.cam j with queue := left } with col := { s.col with served := j } }
      let o := u.lineOut j l
      let w := o.2.setCam j { o.2.cam j with prev := o.1.1 }
      let late := (((w.cam j).frame l.frame).any (·.late)).toNat * 8
      let y := (List.range 4).foldl (fun s i => s.streamLine j l (o.1.2 + late) o.1.1 i) w
      let z := match y.printedLine j l.stamp with
        | none => y
        | some n => (y.measurePatch j n (o.1.2 == 0) o.1.1).measureBand j n (o.1.2 == 0) o.1.1
      exec .pipelineLine s = .next (if l.idx + 1 = z.camH j then z.frameDone j l.frame else z) ∧
      (0 < l.pads → (u.cam j).prev ≠ [] → o = (((u.cam j).prev, 1), u)) ∧
      (l.pads = 0 → l.drop = true → (u.cam j).prev ≠ [] → o = (((u.cam j).prev, 2), u)))

/-- The time bases (R391 to R395): a step requested by STEPGO, used once, is refused on TB0 while printing or paused and for an absolute step
of 10⁹ ns or more; RST sets the time base and RATE to 0, disarms the channels armed on it, and is refused while printing or paused; a snapshot takes every time base, C and the web position; and the steps themselves, relative and absolute. -/
def Obligations.TimeBases : Prop :=
  ∀ (s : State) (k : Fin 4) (v : Word) (x : TimeBase) (a b c : Nat),
    (Reaches s (R.TIME_TBCTL.off k 0) → s.on F.TIME_TBCTL_EN k = true →
      let u := s.swWrite (R.TIME_TBCTL.off k 0) v
      let w := if k.val = 0 then u.set F.TIME_TBCTL_EN 1 0 else u
      (fieldOf v 30 1 = 0 → fieldOf v 29 1 = 1 →
        (w.on F.TIME_TBSTAT_STEPPED k = true ∨ (k = 0 ∧ w.printingOrPaused = true) ∨
            (w.on F.TIME_TBCTL_STEPREL k = false ∧ 1000000000 ≤ w.get F.TIME_STEPA_VALUE k) →
          exec (.timeStep k v) s =
            .next ((w.set F.TIME_TBSTAT_STEPREF 1 k).report C.time_step_refused (mkArg none (some k.val) 0))) ∧
        (w.on F.TIME_TBSTAT_STEPPED k = false → k ≠ 0 ∨ w.printingOrPaused = false →
          (w.on F.TIME_TBCTL_STEPREL k = true ∨ w.get F.TIME_STEPA_VALUE k < 1000000000) →
          let y := w.set F.TIME_TBSTAT_STEPPED 1 k
          exec (.timeStep k v) s =
            .next { y with tb := Tab.put (fun _ => TimeBase.reset) y.tb k { y.tbase k with stepReq := true } })) ∧
      (fieldOf v 30 1 = 1 → fieldOf v 29 1 = 0 →
        (w.printingOrPaused = true ∨ timeGroupOn w k 64 = true → exec (.timeBaseReset k v) s =
          .next ((w.set F.TIME_TBSTAT_RSTREF 1 k).report C.time_reset_refused (mkArg none (some k.val) 0))) ∧
        (w.printingOrPaused = false → timeGroupOn w k 64 = false →
          let y : State := { w with tb := Tab.put (fun _ => TimeBase.reset) w.tb k TimeBase.reset
                                    eth := { w.eth with late := w.eth.late ++ launchOn w k } }
          exec (.timeBaseReset k v) s =
            .next (disarmOn k 32 ((y.set F.TIME_RATE_RATE 0 k).set F.TIME_TBSTAT_STEPPED 0 k))))) ∧
    (Reaches s 0xe0000 → fieldOf v 31 1 = 1 →
      let u := (((s.snapTb 0).snapTb 1).snapTb 2).snapTb 3
      let w := u.set64 F.TIME_SNAPCLO_VALUE F.TIME_SNAPCHI_VALUE u.fireC
      exec (.snapshot v) s = .next ((w.set64 F.TIME_SNAPPLO_VALUE F.TIME_SNAPPHI_VALUE w.pos).set F.TIME_SNAP_VALID 1)) ∧
    (let t := stepTb true a b c x
     t.frac = x.frac ∧ t.ns < 1000000000 ∧ t.sec < 2 ^ 48 ∧
     ∃ q : Int, ((t.sec * 1000000000 + t.ns : Nat) : Int) =
       ((x.sec * 1000000000 + x.ns : Nat) : Int) + toSigned 64 (b * 2 ^ 32 + a) + q * (2 ^ 48 * 1000000000)) ∧
    stepTb false a b c x = { sec := c % 65536 * 2 ^ 32 + b, ns := a, frac := 0, stepReq := false } ∧
    (x.ns < 1000000000 → x.frac < 2 ^ 32 → x.sec < 2 ^ 48 → ∀ r : Int, r.natAbs ≤ 8589934 →
      let t := advanceTb r x
      t.ns < 1000000000 ∧ t.frac < 2 ^ 32 ∧ t.sec < 2 ^ 48 ∧
      ((((t.sec * 1000000000 + t.ns) * 2 ^ 32 + t.frac : Nat) : Int) =
          (((x.sec * 1000000000 + x.ns) * 2 ^ 32 + x.frac : Nat) : Int) + 4 * 2 ^ 32 + r ∨ x.sec = 2 ^ 48 - 1))

/-- RATE (R392): a write within ±8,589,934 is stored; one beyond is clamped to that magnitude, sets TBSTAT.RATECLAMP and reports
time.rate_limit; and a running time base takes the RATE that the register holds at its next tick. -/
def Obligations.RatesAreClamped : Prop :=
  ∀ (s : State) (k : Fin 4) (v : Word),
    (Reaches s (R.TIME_RATE.off k 0) →
      let clamped (r : Int) : State :=
        ((s.set F.TIME_RATE_RATE (ofSigned 32 r) k).set F.TIME_TBSTAT_RATECLAMP 1 k).report C.time_rate_limit (mkArg none (some k.val) 0)
      (-8589934 ≤ v.toInt → v.toInt ≤ 8589934 → exec (.rateWrite k v) s = .next (s.set F.TIME_RATE_RATE (ofSigned 32 v.toInt) k)) ∧
      (8589934 < v.toInt → exec (.rateWrite k v) s = .next (clamped 8589934)) ∧
      (v.toInt < -8589934 → exec (.rateWrite k v) s = .next (clamped (-8589934)))) ∧
    (s.on F.TIME_TBCTL_EN k = true → (s.tbase k).stepReq = false →
      (s.tickTb k).tbase k = advanceTb (s.getI F.TIME_RATE_RATE k) (s.tbase k))

/-- The Ethernet ports (R396 to R401): a bad descriptor, a late head, dropped or sent, and an eligible head; a frame with a bad FCS, one that
the filter does not pass, and one written to the receive ring with its timestamps; and a link that goes and comes. -/
def Obligations.EthernetFrames : Prop :=
  ∀ (s : State) (j : Fin 2) (f : List Byte),
    (s.on F.TIME_ECTL_EN j = true → s.on F.TIME_ESTAT_LINK j = true →
      (∀ q i d, txPick s j 8 = some (q, i, d) →
        let u := s.reportLimited C.eth_late_frame (j.val * 8 + q) 1000000 (mkArg none (some j.val) q)
        (d.bad = true → exec (.frameTransmit j) s = .next ((s.txDone j q i 3 0).report C.eth_desc_bad (mkArg none (some j.val) q))) ∧
        (d.bad = false → s.txLate j q i d = true → d.lateSend = true → exec (.frameTransmit j) s = .next (u.txSend j q i 2 d)) ∧
        (d.bad = false → s.txLate j q i d = true → d.lateSend = false → exec (.frameTransmit j) s = .next (u.txDone j q i 1 0)) ∧
        (d.bad = false → s.txLate j q i d = false → exec (.frameTransmit j) s = .next (s.txSend j q i 0 d))) ∧
      exec (.frameReceive j f false) s = .next (s.bump F.TIME_FCSERR_COUNT 1 j) ∧
      (s.rxPass j f = false ∨ f.length < 60 ∨ 9212 < f.length → exec (.frameReceive j f true) s = .next (s.bump F.TIME_RXDROP_COUNT 1 j)) ∧
      (s.rxPass j f = true → 60 ≤ f.length → f.length ≤ 9212 → 0 < s.get F.TIME_RXCFG_VALUE j % 256 →
        let len := cdiv (32 + f.length) 32 * 32
        let p := s.get F.TIME_RXPTR_OFFSET j
        let at_ := if s.get F.TIME_RXCFG_VALUE j % 256 * 16384 < p + len then 0 else p
        let t0 := s.stamp16 0 (s.getI F.TIME_RXLAT_LAT j)
        let tp := s.stamp16 (s.get F.TIME_ECTL_PTB j) (s.getI F.TIME_RXLAT_LAT j)
        let row := (leBytes 8 (t0 / 65536) ++ leBytes 2 t0 ++ leBytes 8 (tp / 65536) ++ leBytes 2 tp ++ leBytes 2 f.length ++
          leBytes 2 (rxFlags f) ++ List.replicate 8 0) ++ f ++ List.replicate (len - 32 - f.length) 0
        exec (.frameReceive j f true) s =
          .next ((s.writeTarn (s.get F.TIME_RXBASE_VALUE j * 64 + at_) row).set F.TIME_RXPTR_OFFSET (at_ + len) j)) ∧
      exec (.ethLinkLoss j) s = .next ((s.set F.TIME_ESTAT_LINK 0 j).report C.eth_link_down (mkArg none (some j.val) 0))) ∧
    (s.on F.TIME_ESTAT_LINK j = false → exec (.ethLinkLoss j) s = .next s) ∧
    (s.on F.TIME_ECTL_EN j = true → exec (.ethLinkUp j) s = .next (s.set F.TIME_ESTAT_LINK 1 j)) ∧
    (s.on F.TIME_ECTL_EN j = false → exec (.ethLinkUp j) s = .next s)

/-- Clock islands and crossings (R405 to R417): the reference window, lost in two windows together; a PLL that loses lock; stopped crossings,
which run again only with their clock; an end reset alone, held with the other until the island is reset; an island reset, refused while the
unit it serves is enabled; and the trim of the internal oscillator, from TS5, or TS6 where TS5 has failed, with the measured correction. -/
def Obligations.ClockIslands : Prop :=
  ∀ (s : State) (p : Fin 4) (i : Fin 29) (crossing : BitVec 20) (n : Nat) (v : Word),
    (247 ≤ n → n ≤ 253 → exec (.referenceWindow n) s =
      .next (({ s with xing := { s.xing with refBad := 0 } } : State).set F.XING_STAT_REFOK 1)) ∧
    (n < 247 ∨ 253 < n →
      let u (r : Nat) : State := ({ s with xing := { s.xing with refBad := r } } : State).set F.XING_STAT_REFOK 0
      (s.xing.refBad = 0 → exec (.referenceWindow n) s = .next (u 1)) ∧
      (s.xing.refBad = 1 → exec (.referenceWindow n) s =
        .next ((((u 2).stopFed (fun _ => true)).report C.xing_ref_loss (mkArg none none 0)).enterHalted))) ∧
    (s.pllLocked p = true → exec (.pllUnlock p) s =
      .next ((((s.setLock p false).stopFed (fun q => q == p.val)).report C.xing_pll_unlock (mkArg none none p.val)).enterHalted)) ∧
    (s.pllLocked 0 = false → s.dev = stBoot → s.pwr.bootOk = true → s.pwr.bootAt + 1000000 ≤ s.now →
      exec (.pllUnlock 0) s = .next (({ s with pwr := { s.pwr with bootOk := false } } : State).report C.xing_pll_unlock
        (mkArg none none 0))) ∧
    exec (.pllLock p) s = .next (s.setLock p true) ∧ (s.setLock p true).pllLocked p = true ∧
    (s.island i = 0 → (i.val < 17 ∨ 20 < i.val ∨ s.on F.DMC_STAT_FCBUSY = false) →
      (i.val = 24 ∨ i.val = 25 → (s.cam (i.val - 24)).open_ = true) →
      exec (.crossingStop i crossing) s = .next ((s.stopIsland i).noteStop i crossing.toNat)) ∧
    (17 ≤ i.val → i.val ≤ 20 → s.on F.DMC_STAT_FCBUSY = true → exec (.crossingStop i crossing) s = .next s) ∧
    (s.island i = 1 → (∀ q, islandPll i = some q → s.pllLocked q = true ∧ s.xing.refBad < 2) →
      exec (.crossingResume i) s = .next (s.runIsland i)) ∧
    (s.island i ≠ 1 → exec (.crossingResume i) s = .next s) ∧
    (s.island i ≠ 3 → s.on F.XING_ISTAT_ONESIDED i = false → i.val < 17 ∨ 20 < i.val → ∀ core,
      let u := (s.set F.XING_ISTAT_STATE 2 i).set F.XING_ISTAT_ONESIDED 1 i
      let w := if core then u.set F.XING_ISTAT_GEN (u.get F.XING_ISTAT_GEN i + 1) i else u
      exec (.onesidedDetect i core crossing) s = .next (w.report C.xing_onesided (mkArg none (some i.val) crossing.toNat))) ∧
    (Reaches s 0xf0008 → fieldOf v 31 1 = 1 → fieldOf v 0 5 ≤ 28 →
      let u := s.swWrite (R.XING_IRST.off 0 0) v
      let m := fieldOf v 0 5
      u.island m ≠ 3 →
      (u.islandUsed m = true → exec (.islandReset v) s = .next (u.set F.XING_STAT_IRSTREF 1)) ∧
      (u.islandUsed m = false → exec (.islandReset v) s =
        .next (((u.runIsland m).set F.XING_ISTAT_ONESIDED 0 m).set F.XING_ISTAT_GEN 0 m))) ∧
    (let ts := s.getI F.SENS_TS_VALUE (if s.on F.SENS_TS_FAILED 5 then 6 else 5)
     let code := trimCode (fun k => s.getI F.XING_OTRIM_TRIM k) ts
     exec .oscTrimUpdate s =
       .next (s.set F.XING_OSC_CODE (ofSigned 12 (if s.on F.XING_OSC_CALVALID then code + s.getI F.XING_OSC_CORR else code)))) ∧
    (s.pllLocked 0 = true → s.on F.XING_STAT_REFOK = true →
      let e : Int := (n : Int) - 1000000
      let u := (s.set F.XING_OSC_CORR (ofSigned 12 (clampI (-2048) 2047 (s.getI F.XING_OSC_CORR - trimUnits e)))).set F.XING_OSC_CALVALID 1
      exec (.oscMeasure n) s = .next (if 20000 < e.natAbs then u.report C.xing_osc_drift (mkArg none none 0) else u)) ∧
    (s.on F.XING_STAT_REFOK = false → exec (.oscMeasure n) s = .next s)

/-- What the hub does with the oldest report of a source (R420 to R428): the record, and nothing more for a dry injection and for classes Note
to Line; JOBHOLD for class Job, and while Printing the stop of the bars; Halted for class Device, from any state but Halted and Grave; Grave
for class Grave; a source set aside, or with nothing waiting, is ignored. A report whose entry is quiet only counts, one that merges goes into the
newest entry, and another takes the slot that the record gives it; the first-fault record follows, but for a dry injection. -/
def Obligations.FaultReactions : Prop :=
  ∀ (s : State) (code : BitVec 16) (r : WaitRep) (rest : List WaitRep),
    let c := code.toNat
    let ignored := s.on F.FLT_CCFG_RAILBAD (c / 256) (c % 256)
    (ignored = true → exec (.faultReport code) s = .next s) ∧
    (s.waitingReps c = [] → s.flt.walkTest = none → exec (.faultReport code) s = .next s) ∧
    (ignored = false → s.flt.walkTest = none → s.waitingReps c = r :: rest →
      let u : State := { s with flt := { s.flt with waiting := Tab.put (fun _ => []) s.flt.waiting c rest } }
      let cls := u.classOf c
      let w := u.recordReport c r
      (r.dry = true → exec (.faultReport code) s = .next w) ∧
      (r.dry = false →
        (cls ≤ 2 → c ≠ C.eng_deadline_miss → c ≠ C.ibf_underrun → exec (.faultReport code) s = .next w) ∧
        (cls = 3 → w.dev ≠ stHalted → w.dev ≠ stGrave → w.printing = false →
          exec (.faultReport code) s = .next ((w.set F.FLT_STAT_JOBHOLD 1).revertProfile)) ∧
        (cls = 3 → w.printing = true →
          let y := (w.set F.FLT_STAT_JOBHOLD 1).stopJob none (fun _ => false)
          exec (.faultReport code) s = .next (if y.dev = stHalted ∨ y.dev = stGrave then y else y.revertProfile)) ∧
        (cls = 4 → w.dev ≠ stHalted → w.dev ≠ stGrave → exec (.faultReport code) s = .next (w.haltAll.setDev stHalted)) ∧
        (cls = 4 → w.dev = stHalted ∨ w.dev = stGrave → exec (.faultReport code) s = .next w) ∧
        (cls = 5 → w.dev = stHalted → exec (.faultReport code) s = .next ((w.graveOff.graveRecord c r.arg).setDev stGrave)) ∧
        (cls = 5 → w.dev ≠ stHalted → w.dev ≠ stGrave →
          exec (.faultReport code) s = .next ((w.haltAll.graveOff.graveRecord c r.arg).setDev stGrave))) ∧
      (let y := (u.set F.FLT_CCFG_LATCH 1 (c / 256) (c % 256)).bump F.FLT_CCNT_COUNT (1 + r.pend) (c / 256) (c % 256)
       let z := if y.get F.FLT_STAT_HICLASS < cls then y.set F.FLT_STAT_HICLASS cls else y
       let noted (x : State) (slot : Nat) := if r.dry then x else x.firstFault slot c cls
       (z.quietFor c = true → w = z) ∧
       (z.quietFor c = false → ∀ slot,
         (z.mergeSlot c r.arg = some slot → w = noted (z.mergeInto slot (1 + r.pend)) slot) ∧
         (z.mergeSlot c r.arg = none → z.histSlot = (some slot, false) → w = noted (z.newEntry slot c cls r) slot))))

/-- The pairs, tests, injections and clears (R421 to R423, R428, R429, R432, R433): a broken pair beyond SKEW is set aside and reported; one
source of the rail walk is tested, and one that does not answer in 2 µs is reported; an injection is taken in Blank and Open only; CLRALL
and FFCODE clear; CLASS is clamped to the code's range; and a level source that returns to idle sets TRANS. -/
def Obligations.FaultHubUpkeep : Prop :=
  ∀ (s : State) (code : BitVec 16) (ns : Nat) (v : Word) (row : CodeRow),
    let c := code.toNat
    let k := c / 256
    let i := c % 256
    (codeRow c = some row → s.on F.FLT_CCFG_RAILBAD k i = false → max 1 (s.get F.FLT_CTL_SKEW) < ns →
      exec (.brokenPair code ns) s = .next ((s.set F.FLT_CCFG_RAILBAD 1 k i).reportRep C.flt_rail_broken
        { arg := mkArg none none c, line := none, pend := 0, injected := false, dry := false, rail := true })) ∧
    (ns ≤ max 1 (s.get F.FLT_CTL_SKEW) → exec (.brokenPair code ns) s = .next s) ∧
    (∀ n answers, allCodes[s.flt.walkNext]? = some n → s.get F.FLT_CTL_RWALK ≠ 0 → s.flt.walkAt ≤ s.now → s.flt.walkTest = none →
      0 < s.flt.walkNext → s.flt.walkNext + 1 < allCodes.length → s.waitingReps n = [] →
      Tab.get (fun _ => false) s.flt.levels n = false →
      exec (.railWalk answers) s = .next { s with flt := { s.flt with
        walkNext := s.flt.walkNext + 1, walkAt := s.now + 10000, walkTest := if answers then none else some (n, s.now) } }) ∧
    (∀ n t, s.flt.walkTest = some (n, t) → t + 2000 ≤ s.now → s.waitingReps n = [] →
      exec .railTestTimeout s = .next (({ s with flt := { s.flt with walkTest := none } } : State).reportRep C.flt_rail_test
        { arg := mkArg none none n, line := none, pend := 0, injected := false, dry := false, rail := true })) ∧
    (Reaches s 0x100020 → fieldOf v 31 1 = 1 →
      let u := s.swWrite (R.FLT_INJ.off 0 0) v
      let n := fieldOf v 0 16
      let r : WaitRep := { arg := mkArg none none 0, line := none, pend := 0, injected := true, dry := fieldOf v 30 1 == 1, rail := false }
      (codeRow n = none ∨ (u.get F.SEC_LCS_STATE ≠ 0 ∧ u.get F.SEC_LCS_STATE ≠ 3) →
        exec (.injectFault v) s = .next (u.set F.FLT_STAT_INJREF 1)) ∧
      (codeRow n ≠ none → u.get F.SEC_LCS_STATE = 0 ∨ u.get F.SEC_LCS_STATE = 3 →
        exec (.injectFault v) s = .next { u with flt := { u.flt with
          waiting := Tab.put (fun _ => []) u.flt.waiting n (enqueueRep r (u.waitingReps n)) } })) ∧
    (Reaches s 0x100030 → fieldOf v 0 1 = 1 → exec (.clrall v) s = .next { s with
      regs := Tab.mapE regReset
        (fun off w => if 0x108000 ≤ off && off < 0x10A000 then fieldPut (fieldPut w 21 1 0) 20 1 0 else w) s.regs }) ∧
    (Reaches s 0x100014 → fieldOf v 31 1 = 1 → exec (.firstFaultClear v) s =
      .next (((s.wr (R.FLT_FFSEQ.off 0 0) 0).wr (R.FLT_FFCODE.off 0 0) 0).set64 F.FLT_FFTIMELO_NS F.FLT_FFTIMEHI_NS 0)) ∧
    (Reaches s (R.FLT_CCFG.off k i) → codeRow c = some row → (k = 0x13 → s.get F.SEC_LCS_STATE ≠ 2) →
      let u := s.swWrite (R.FLT_CCFG.off k i) v
      let cls := clampN row.lo row.hi (fieldOf v 16 3)
      (k = 0x13 → u.get F.SEC_LCS_STATE ≠ 2) →
      exec (.classWrite code v) s = .next (if cls = fieldOf v 16 3 then u.set F.FLT_CCFG_CLASS cls k i
        else (u.set F.FLT_CCFG_CLASS cls k i).set F.FLT_STAT_CLSERR 1)) ∧
    (isLevel c = true → s.on F.FLT_CCFG_RAILBAD k i = false → Tab.get (fun _ => false) s.flt.levels c = true → s.waitingReps c = [] →
      s.levelEnded c = true →
      exec (.levelSourceIdle code) s =
        .next ((({ s with flt := { s.flt with levels := Tab.put (fun _ => false) s.flt.levels c false } } : State)).noteTransient c))

/-- The sense ADC and the die temperature (R450 to R459): a sample of the next enabled channel, and the average it completes; a
self-calibration inside its limits, and one discarded; a sensor outside -55 to 150 °C, or one that disagrees with its neighbours often enough,
fails; a whole conversion, its hottest sensor, its limits and the shutdown; and the shutdown record. -/
def Obligations.SensingAndShutdown : Prop :=
  ∀ (s : State) (raw rl rh : BitVec 12) (rs : List (BitVec 16)) (n : Nat),
    (s.on F.SENS_CTL_EN = true →
      (∀ c, s.nextAdc = some c →
        let u : State := { s with sens := { s.sens with last := some c } }
        let x := u.adcChan c
        let avg := min 8 (s.get F.SENS_ACH_AVG c)
        let sum := x.sum + adcCode raw.toNat s.sens.rl s.sens.rh
        (x.n + 1 ≠ 2 ^ avg → exec (.adcConversion raw) s = .next (u.setAdcChan c { x with sum := sum, n := x.n + 1 })) ∧
        (x.n + 1 = 2 ^ avg → exec (.adcConversion raw) s = .next ((u.setAdcChan c { x with sum := 0, n := 0 }).adcLimits c
          (((sum + 2 ^ avg / 2) / 2 ^ avg * s.get F.SENS_ACH_GAIN c + 2048) / 4096)))) ∧
      (472 ≤ rl.toNat ∧ rl.toNat ≤ 552 ∧ rl.toNat + 2980 ≤ rh.toNat ∧ rh.toNat ≤ rl.toNat + 3164 →
        exec (.adcSelfCalibration rl rh) s =
          .next (({ s with sens := { s.sens with rl := rl.toNat, rh := rh.toNat } } : State).calDone 36)) ∧
      (rl.toNat < 472 ∨ 552 < rl.toNat ∨ rh.toNat < rl.toNat + 2980 ∨ rl.toNat + 3164 < rh.toNat →
        exec (.adcSelfCalibration rl rh) s = .next (s.report C.sens_adc_cal (mkArg none (some 36) 0)))) ∧
    (s.tsFailed n = false →
      let ns := s.goodNeighbours rs n
      let count (k : Nat) : State := { s with sens := { s.sens with dis := Tab.put (fun _ => 0) s.sens.dis n k } }
      (reading rs n < -880 ∨ 2400 < reading rs n → s.checkSensor rs n = s.failSensor n) ∧
      (-880 ≤ reading rs n → reading rs n ≤ 2400 →
        (ns.length < 2 → s.checkSensor rs n = count 0) ∧
        (∀ m, 2 ≤ ns.length → median ns = some m →
          ((reading rs n - m).natAbs ≤ s.get F.SENS_TCFG_DIFF → s.checkSensor rs n = count 0) ∧
          (s.get F.SENS_TCFG_DIFF < (reading rs n - m).natAbs →
            let k := Tab.get (fun _ => 0) s.sens.dis n + 1
            s.checkSensor rs n = if max 1 (s.get F.SENS_TCFG_N) ≤ k then s.failSensor n else count k)))) ∧
    (rs.length = 12 →
      let a := (List.range 12).foldl (State.putSensor rs) ((List.range 12).foldl (State.checkSensor rs) s)
      let b := a.set F.SENS_TJ_NFAIL a.failedCount
      ∀ k t, b.hottest rs = some (k, t) →
        let c := ((b.set F.SENS_TJ_SRC k).set F.SENS_TJ_TJMAX (ofSigned 16 t)).tjLimits k t
        let hot := (List.range 12).filter (c.isHot rs)
        let d := match hot.find? (fun n => c.sens.hot.contains n) with
          | none => c
          | some n => c.thermalShutdown n (reading rs n)
        exec (.tempConversion rs) s = .next ((List.range 37).foldl State.convUnit { d with sens := { d.sens with hot := hot } })) ∧
    (∀ k c, s.sens.shutRec = some (k, c) →
      let u : State := { s with sens := { s.sens with shutRec := none } }
      (s.sens.otp.length < 32 → exec .shutdownRecord s = .next { u with sens := { u.sens with
        otp := u.sens.otp ++ [w32 (2 ^ 31 + k * 2 ^ 27 + c * 2 ^ 19 + u.hours)] } }) ∧
      (32 ≤ s.sens.otp.length → exec .shutdownRecord s = .next (u.set F.SENS_OTSTAT_FULL 1))) ∧
    (s.sens.shutRec = none → exec .shutdownRecord s = .next s)

/-- The load measurement and the calibration scheduler (R460 to R465): MEAS_LOAD asked of a segment that is up and can measure, and refused or
completed where it is not; the segment's answer copied and MEAS_LOAD completed by its status; a pass that starts due units only while AUTO
is 1, ages them, and a lane unit whose port cannot calibrate now stays as it is. -/
def Obligations.LoadsAndCalibration : Prop :=
  ∀ (s : State) (tok : Nat) (m : Msg) (p : Fin 16) (ws : List Word) (rl rh : BitVec 12) (u : Nat),
    (s.msgOf tok 0x41 = some m → s.sens.load.any (fun e => e.1.tok == tok) = false →
      let a := (m.arg 0).toNat
      let sg := segOfAddr a
      (2 ^ 16 ≤ a ∨ a % 32 ≠ 0 → exec (.measLoad tok) s = .next (s.complete m .badfield)) ∧
      (a < 2 ^ 16 → a % 32 = 0 →
        (s.dev ≠ stReady ∨ s.on F.SYS_PMODE_STBY = true → exec (.measLoad tok) s = .next (s.complete m .state)) ∧
        (s.dev = stReady → s.on F.SYS_PMODE_STBY = false →
          (s.on F.SENS_LSTAT_BUSY = true → exec (.measLoad tok) s = .next (s.complete m .busy)) ∧
          (s.on F.SENS_LSTAT_BUSY = false →
            let y := s.set F.SENS_LSTAT_SEG a
            let z : State := { y with sens := { y.sens with load := some (m, sg) } }
            (z.segState sg ≠ sgStandby → z.segState sg ≠ sgActive → exec (.measLoad tok) s = .next (z.loadDone 1)) ∧
            (z.segState sg = sgStandby ∨ z.segState sg = sgActive →
              (fieldOf ((z.seg sg).cap.getD 0 0) 8 1 = 0 → exec (.measLoad tok) s = .next (z.loadDone 2)) ∧
              (fieldOf ((z.seg sg).cap.getD 0 0) 8 1 = 1 → exec (.measLoad tok) s =
                .next ((z.set F.SENS_LSTAT_BUSY 1).sendAcked (sg / 128) 0x12 (sg % 128) [z.rd (R.SENS_LCFG.off 0 0)]))))))) ∧
    (let e := s.upEvent p ws 0x28
     e.upOk p ws 0x28 = true →
      let f := e.fromSeg p ws
      (∀ q, (f.port p).pend.find? (fun q => q.tok == upArg ws % 4096 && q.mtype == 0x12 && q.dst == upSrc ws) = some q →
        let g := (f.takePend p q.tok).2
        let h := ((ws.drop 1).take 12).zipIdx.foldl (fun s e => s.wr (R.SENS_LRES.off e.2 0) e.1) g
        let st := fieldOf (ws.getD 1 0) 24 8
        (st = 0 → ws.getD 4 0 = 0 → exec (.loadres p ws) s = .next (h.loadDone 0)) ∧
        (st = 0 → ws.getD 4 0 ≠ 0 →
          exec (.loadres p ws) s = .next ((h.report C.sens_load_fault (mkArg none (some p.val) q.dst)).loadDone 6)) ∧
        (st = 2 → exec (.loadres p ws) s = .next (h.loadDone 4)) ∧
        (st = 3 → exec (.loadres p ws) s = .next (h.loadDone 5)))) ∧
    (let aged := (List.range 37).foldl State.ageUnit s
     (aged.on F.SENS_CSCH_AUTO = true →
       exec (.calibrationPass rl rh) s = .next ((List.range 37).foldl (State.runUnit rl.toNat rh.toNat) aged)) ∧
     (aged.on F.SENS_CSCH_AUTO = false → exec (.calibrationPass rl rh) s = .next aged)) ∧
    (s.on F.SENS_CUSTAT_DUE u = true → s.on F.SENS_CUNIT_EN u = true → s.unitLive u = true →
      (u < 32 → s.get F.HLP_STAT_MODE (u / 2) ≠ 0 ∨ s.on F.HLP_STAT_CALRUN (u / 2) = true ∨
        max 1 (s.get F.SENS_CSCH_MAXPAR) ≤ s.calsRunning → s.runUnit rl.toNat rh.toNat u = s) ∧
      (32 ≤ u → u < 36 → s.runUnit rl.toNat rh.toNat u =
        if s.on F.DMC_STAT_FCBUSY then s else s.set F.SENS_CUSTAT_RUN 1 u)) ∧
    (s.on F.SENS_CUSTAT_DUE u = false → s.runUnit rl.toNat rh.toNat u = s)

/-! ### Security, resets and Boot -/

/-- A write of SEC.CMD with GO starts the operation it names, and one written while BUSY is 1 is refused (R480); a command without a wrapper
waits for its end with its argument; an end runs the operation that was started: in detail a VERIFY that passes or that its first checks refuse, a
KEYDROP, a licence whose LSEQ is not above the slot's, and a debug token in a state that takes none (R477, R480, R483, R489). -/
def Obligations.SecurityCommands : Prop :=
  ∀ (s : State) (v : Word) (c : SecCmd),
    (Reaches s 0x130004 → fieldOf v 31 1 = 1 →
      let go (op : Nat) (i : Instr) : Prop := fieldOf v 0 8 = op →
        (s.on F.SEC_CMD_BUSY = false → exec i s = .next (s.secStart op v)) ∧
        (s.on F.SEC_CMD_BUSY = true → exec i s = .next ((s.swWrite (R.SEC_CMD.off 0 0) v).set F.SEC_CMD_REFUSED 1))
      go 1 (.verify v) ∧ go 2 (.release v) ∧ go 3 (.licence v) ∧ go 4 (.keydrop v) ∧ go 5 (.lcsAdvance v) ∧
      (s.asksRevoke = false → go 6 (.keyreg v)) ∧ (s.asksRevoke = true → go 6 (.revoke v)) ∧
      go 7 (.auditRead v) ∧ go 8 (.auditSeal v) ∧ go 9 (.meterRead v) ∧ go 10 (.dbgUnlock v)) ∧
    (∀ op, op = 2 ∨ op = 4 ∨ op = 7 ∨ op = 8 ∨ op = 9 →
      let u := (s.swWrite (R.SEC_CMD.off 0 0) v).set F.SEC_CMD_BUSY 1
      let held : SecCmd := { op := op, arg := u.get F.SEC_CMD_ARG, addr := u.get F.SEC_CMDADDR_ADDR * 64, status := 0, data := [] }
      s.secStart op v = { u with sec := { u.sec with cmd := some held } }) ∧
    (s.sec.cmd = none → exec .securityCommandDone s = .next s) ∧
    (s.sec.cmd = some c →
      (c.op = 1 → exec .securityCommandDone s = .next (s.verifyDone c)) ∧ (c.op = 2 → exec .securityCommandDone s = .next (s.releaseDone c)) ∧
      (c.op = 3 → exec .securityCommandDone s = .next (s.licenceDone c)) ∧ (c.op = 4 → exec .securityCommandDone s = .next (s.keydropDone c)) ∧
      (c.op = 5 → exec .securityCommandDone s = .next (s.lcsDone c)) ∧ (c.op = 6 → exec .securityCommandDone s = .next (s.keyregDone c)) ∧
      (c.op = 7 → exec .securityCommandDone s = .next (s.auditReadDone c)) ∧ (c.op = 8 → exec .securityCommandDone s = .next s.auditSealDone) ∧
      (c.op = 9 → exec .securityCommandDone s = .next (s.meterReadDone c)) ∧ (c.op = 10 → exec .securityCommandDone s = .next (s.dbgDone c))) ∧
    (c.status = 0 → ∀ p u k, s.readArgs (c.addr + 0x180) (leAt c.data 0x0C 4) = (some p, u) → u.freeRegion = some k →
      s.verifyDone c =
        if wrapSigned c.data p then ((((u.set F.SEC_VBASE_VALUE (c.addr + 0x180) k).set F.SEC_VLEN_VALUE
          (leAt c.data 6 1 * 2 ^ 29 + leAt c.data 0x0C 4) k).commitSvn c.data).secEnd (some 0) (some k))
        else (u.secEnd (some 2) none).audit 8 [w32 2, w32 (leAt c.data 6 1), w32 c.addr]) ∧
    (c.status ≠ 0 → s.verifyDone c =
      (s.secEnd (some c.status) none).audit 8 [w32 c.status, w32 (leAt c.data 6 1), w32 c.addr]) ∧
    (∀ x, s.keySlot c.arg = some x →
      let u := s.setKeySlot c.arg none
      let w : State := { u with sec := { u.sec with dropped := (x.keyid, x.lseq) :: u.sec.dropped.filter (fun e => e.1 ≠ x.keyid) } }
      s.keydropDone c = (w.audit 4 [x.keyid, x.lseq, w32 c.arg]).secEnd (some 0) (some c.arg)) ∧
    (let p := c.data.drop 0x180
     c.status = 0 → p.length = 192 → zeroBytes p 0x14 12 = true → zeroBytes p 0x81 3 = true →
     s.auditFull = false → leAt p 0x10 4 = 0 ∨ s.feature 4 = true → ∀ k x, s.slotOf (w32 (leAt p 0 4)) = some k → s.keySlot k = some x →
       leAt p 4 4 ≤ x.lseq.toNat → s.licenceDone c = s.secEnd (some (if wrapSigned c.data p then 6 else 2)) none) ∧
    (s.get F.SEC_LCS_STATE ≠ lsProvisioned → s.get F.SEC_LCS_STATE ≠ lsOpen →
      s.dbgDone c = (s.secEnd (some 3) none).drawChallenge)

/-- The audit log, tamper, glitch and JTAG (R472, R486 to R489): an acknowledged seal frees the entries up to it; an entry takes the next SEQ
and chains to the one before, unless the log is full, when only LOST counts; a tamper event zeroises and latches; a glitch ends the
operation in progress, and the third within a second empties the keys; the TAP takes the instructions its lifecycle state allows. -/
def Obligations.AuditAndTamper : Prop :=
  ∀ (s : State) (v : Word) (ty : Nat) (arg : List Word) (t : TapInstr),
    (Reaches s 0x130018 →
      (∀ e, s.sec.seals.find? (fun e => e.1 % 2 ^ 32 == v.toNat) = some e →
        let u := s.set F.SEC_AUDACK_SEQ v.toNat
        let w : State := { u with sec := { u.sec with acked := max u.sec.acked (e.1 + 1) } }
        exec (.auditAck v) s = .next (w.audit 12 [v, w32 (e.1 / 2 ^ 32), 0])) ∧
      (s.sec.seals.find? (fun e => e.1 % 2 ^ 32 == v.toNat) = none → exec (.auditAck v) s = .next s)) ∧
    (s.auditFull = true →
      s.audit ty arg = (s.bump F.SEC_AUDSEQ_LOST).report C.sec_audit_full (mkArg none none 0)) ∧
    (s.auditFull = false → (s.sec.audNext + 1) % 256 ≠ 0 →
      let e : AuditEntry := { seq := s.sec.audNext, time := s.tbNs 0, type := ty, lcs := s.get F.SEC_LCS_STATE, arg := arg, chain := [] }
      let link := (sha384 (s.sec.chain ++ e.head)).take 32
      s.audit ty arg = { s with sec := { s.sec with
        audit := ({ e with chain := link } :: s.sec.audit).take 16384, audNext := s.sec.audNext + 1, chain := link } }) ∧
    (s.pwr.vcoreOff = none →
      (∀ warm, let cause := if warm then 2 else 1
        exec (.tamper warm) s = .next ((((s.zeroise.set F.SEC_TAMPER_LATCH 1).set F.SEC_TAMPER_CAUSE cause).audit 9 [w32 cause, 0, 0]).report
          C.sec_tamper (mkArg none none cause))) ∧
      (let recent := (s.now :: s.sec.glitchAt).filter (fun t => s.now < t + 1000000000)
       let u := (s.bump F.SEC_TAMPER_GLITCH).endGlitch
       let w : State := { u with sec := { u.sec with glitchAt := recent.take 3 } }
       let x := (w.audit 9 [0, 0, 0]).report C.sec_glitch (mkArg none none 0)
       (recent.length < 3 → exec .glitch s = .next x) ∧
       (3 ≤ recent.length →
         let y : State := { x with sec := { x.sec with
           slots := Tab.mapE (fun _ => none)
             (fun _ z => z.map (fun (y : KeySlot) => { y with key := List.replicate 32 0, limit := y.used / 2 ^ 32 })) x.sec.slots } }
         exec .glitch s = .next (y.latchTamper 3)))) ∧
    (s.tapAllowed t = true → exec (.jtagInstruction t) s = .next { s with sec := { s.sec with tap := tapCode t } }) ∧
    (s.tapAllowed t = false → exec (.jtagInstruction t) s = .next s) ∧
    s.tapAllowed .bypass = true ∧ s.tapAllowed .idcode = true ∧
    (s.get F.SEC_LCS_STATE = lsCertified → s.tapAllowed .sample = false ∧ s.tapAllowed .extest = false ∧ s.tapAllowed .debugPort = false)

/-- The resets (R427, R475, R497 to R499): the power-on sources, ignored in Grave, each recorded; the removal of VCORE; a software reset, taken
only with its key, outside Grave and while none waits, delayed by a flash operation or a shutdown record, after a security command in progress has
ended with GLITCH; the delayed reset; the reset of the TAP; the loss of VAUX, which empties the key store; and what every reset leaves: DEV.STATE
Reset, an empty job and no engine running, with the key store, the audit log and OTP as they were. -/
def Obligations.Resets : Prop :=
  ∀ (s : State) (t : ResetTrigger) (v : Word) (flash soft : Bool),
    (s.dev = stGrave → exec (.powerOnReset t) s = .next s) ∧
    (s.dev ≠ stGrave →
      let u := s.endGlitch.resetDevice false
      exec (.powerOnReset .pin) s = .next { u.set F.SYS_RSTCAUSE_PIN 1 with pwr := { u.pwr with brown := false } } ∧
      exec (.powerOnReset .vio18) s = .next { u.set F.SYS_RSTCAUSE_BVIO18 1 with pwr := { u.pwr with brown := true } } ∧
      exec (.powerOnReset .vsram) s = .next { u.set F.SYS_RSTCAUSE_BVSRAM 1 with pwr := { u.pwr with brown := true } } ∧
      exec (.powerOnReset .vcore) s = .next { u.set F.SYS_RSTCAUSE_BVCORE 1 with pwr := { u.pwr with brown := true } }) ∧
    (s.pwr.vcoreOff = none →
      let u := (s.endGlitch.resetDevice false).set F.SYS_RSTCAUSE_VCOREOFF 1
      exec .vcoreRemoval s = .next { u with sens := { u.sens with therm := false }, pwr := { u.pwr with vcoreOff := some u.now, brown := false } }) ∧
    (Reaches s 0x140000 →
      (fieldOf v 31 1 = 0 ∨ fieldOf v 0 16 ≠ 0x5AFE ∨ s.dev = stGrave ∨ s.on F.SYS_RST_PEND = true → exec (.softwareReset v flash) s = .next s) ∧
      (fieldOf v 31 1 = 1 → fieldOf v 0 16 = 0x5AFE → s.dev ≠ stGrave → s.on F.SYS_RST_PEND = false →
        (s.sec.cmd ≠ none → exec (.softwareReset v flash) s = .next (s.endGlitch.set F.SYS_RST_PEND 1)) ∧
        (s.sec.cmd = none → flash = true ∨ s.sens.shutRec ≠ none → exec (.softwareReset v flash) s = .next (s.set F.SYS_RST_PEND 1)) ∧
        (s.sec.cmd = none → flash = false → s.sens.shutRec = none →
          let u := (s.resetDevice true).set F.SYS_RSTCAUSE_SOFT 1
          exec (.softwareReset v flash) s = .next { u with pwr := { u.pwr with brown := false } }))) ∧
    (s.on F.SYS_RST_PEND = true → s.sens.shutRec = none → exec .deferredReset s = .next s.softReset) ∧
    (s.on F.SYS_RST_PEND = false → exec .deferredReset s = .next s) ∧
    exec .jtagReset s = .next { s with sec := { s.sec with tap := 0 } } ∧
    (∀ e rest, s.sec.cmd = none → s.sec.audit = e :: rest → ∃ u, exec .vauxLoss s = .next u ∧ u.sec.slots = [] ∧ u.sec.audNext = e.seq + 1 ∧
      u.sec.audit = s.sec.audit ∧ u.sec.vauxLost = true ∧ u.sec.vauxTamper = 0) ∧
    (let u := s.resetDevice soft
     u.dev = stReset ∧ u.engines = [] ∧ u.job = JobState.reset ∧ u.now = s.now ∧ u.pending = s.pending ∧ u.sens.otp = s.sens.otp ∧
       u.sec.slots = s.sec.slots ∧ u.sec.audit = s.sec.audit ∧ u.dmc = DmcState.reset ∧ u.tarn = TarnState.reset)

/-- Standby, the watchdog and the management bus (R505, R506, R514): entry, refused outside Ready, with a job open or an INGEST running, and
waiting for a frequency change; the exit, which brings the channels and the ports of before back; the watchdog, reported once; and a bus
transaction, refused while one runs, whose bytes stand in BUSDATA or whose ERR is set. -/
def Obligations.StandbyAndBus : Prop :=
  ∀ (s : State) (v data : Word) (ok : Bool),
    (Reaches s 0x14000c →
      let u := s.set F.SYS_PMODE_REFUSED (if fieldOf v 29 1 = 1 then 0 else s.get F.SYS_PMODE_REFUSED)
      (fieldOf v 31 1 = 1 → u.on F.SYS_PMODE_STBY = false →
        (u.dev ≠ stReady ∨ u.job.job.isSome = true ∨ u.ing.jobs ≠ [] → exec (.standbyEntry v) s = .next (u.set F.SYS_PMODE_REFUSED 1)) ∧
        (u.dev = stReady → u.job.job = none → u.ing.jobs = [] →
          (u.on F.DMC_STAT_FCBUSY = true →
            let w := u.set F.SYS_PMODE_STBY 1
            exec (.standbyEntry v) s = .next { w with pwr := { w.pwr with stbyWait := true } }) ∧
          (u.on F.DMC_STAT_FCBUSY = false → exec (.standbyEntry v) s = .next u.enterStandby))) ∧
      (fieldOf v 31 1 = 0 → u.on F.SYS_PMODE_STBY = true → u.pwr.stbyWait = false →
        let w := u.chans.foldl (fun s c => (s.setChan c { s.chan c with lastReq := s.now }).set F.DMC_CHSTAT_STATE 4 c) u
        let x := w.pwr.stbyPorts.foldl (fun s p => s.writeHlpCtl p (fieldPut (s.rd (R.HLP_CTL.off p 0)) 31 1 1)) w
        let y := (x.set F.SYS_PMODE_STBY 0).set F.SYS_PMODE_ACTIVE 0
        exec (.standbyExit v) s = .next { y with pwr := { y.pwr with exitAt := some y.now } }) ∧
      (fieldOf v 31 1 = 0 → u.on F.SYS_PMODE_STBY = true → u.pwr.stbyWait = true →
        let w := u.set F.SYS_PMODE_STBY 0
        exec (.standbyExit v) s = .next { w with pwr := { w.pwr with stbyWait := false } })) ∧
    (s.on F.SYS_WDOG_EN = true → s.pwr.wdogRep = false → s.pwr.wdogAt + 1000000 * max 10 (s.get F.SYS_WDOG_MS) ≤ s.now →
      exec .watchdogExpiry s =
        .next (({ s with pwr := { s.pwr with wdogRep := true } } : State).report C.sys_watchdog (mkArg none none 0))) ∧
    (s.now < s.pwr.wdogAt + 1000000 * max 10 (s.get F.SYS_WDOG_MS) → exec .watchdogExpiry s = .next s) ∧
    (Reaches s 0x140018 → fieldOf v 31 1 = 1 →
      let u := s.swWrite (R.SYS_BUSCMD.off 0 0) v
      (u.on F.SYS_BUSCMD_BUSY = true ∨ (fieldOf v 26 2 = 3 ∧ u.on F.ENG_AVSCTL_EN = true) →
        exec (.busTransaction v) s = .next (u.set F.SYS_BUSCMD_REFUSED 1)) ∧
      (u.on F.SYS_BUSCMD_BUSY = false → fieldOf v 26 2 ≠ 3 ∨ u.on F.ENG_AVSCTL_EN = false →
        let op : BusOp := { bus := fieldOf v 26 2, addr := fieldOf v 16 8, wlen := min 4 (fieldOf v 12 4), rlen := min 4 (fieldOf v 8 4),
                            data := u.rd (R.SYS_BUSDATA.off 0 0) }
        exec (.busTransaction v) s = .next ({ u with pwr := { u.pwr with bus := some op } }.set F.SYS_BUSCMD_BUSY 1))) ∧
    (∀ o, s.pwr.bus = some o →
      let u := ({ s with pwr := { s.pwr with bus := none } } : State).set F.SYS_BUSCMD_BUSY 0
      (ok = false → exec (.busTransactionDone ok data) s = .next ((u.set F.SYS_BUSCMD_ERR 1).report C.sys_bus (mkArg none none 0))) ∧
      (ok = true →
        let w := 2 ^ (8 * (if o.bus = 3 then 4 else o.rlen))
        exec (.busTransactionDone ok data) s =
          .next (u.set F.SYS_BUSDATA_DATA (u.get F.SYS_BUSDATA_DATA / w * w + data.toNat % w)))) ∧
    (s.pwr.bus = none → exec (.busTransactionDone ok data) s = .next s)

/-- Boot (R479, R500 to R504): it begins only in Reset, makes OTP visible, latches the straps and enters Boot; without a flash or a firmware
that may run it stays there; else the sixteen engines run and the channels train; and it ends, once no channel trains, with the profile
applied, the nozzle map loaded and DEV.STATE Negotiate. -/
def Obligations.Booting : Prop :=
  ∀ (s : State) (i : BootInfo) (standing previous : Bool),
    (s.dev ≠ stReset → exec (.bootStart i) s = .next s) ∧
    (s.dev = stReset →
      let a := { s.resumeHours with tarn := { s.tarn with data := [], chk := [], valid := [] } }
      let b := (a.loadOtp.latchStraps i.straps).markAbsent
      let c := (b.setLock 0 i.pbLocked).setDev stBoot
      let d : State := { c with pwr := { c.pwr with bootAt := c.now, bootOk := false } }
      let e := if d.pwr.brown then d.report C.sys_brownout (mkArg none none 0) else d
      let f := ({ e with pwr := { e.pwr with brown := false } } : State).vauxEvents
      ((f.verifyBoot i).1 = false → exec (.bootStart i) s = .next (f.verifyBoot i).2) ∧
      ((f.verifyBoot i).1 = true →
        let g := (f.verifyBoot i).2
        exec (.bootStart i) s =
          .next (((List.range 16).foldl State.bootEngine { g with pwr := { g.pwr with bootOk := true } }).bootDram i.chans)) ∧
      (i.flash = false → (f.verifyBoot i).1 = false) ∧
      (i.flash = true → f.lcs ≠ lcBlank → f.lcs ≠ lcOpen → i.copyA = false → i.copyB = false → (f.verifyBoot i).1 = false) ∧
      (i.flash = true → f.lcs ≠ lcBlank → f.lcs ≠ lcOpen → i.starter = false → (f.verifyBoot i).1 = false)) ∧
    (s.dev = stBoot → s.pwr.bootOk = true → s.training = false →
      let a := (s.sppWrites s.pwr.flashRemap).loadSlots standing previous
      let b := (a.moveProfile a.bootProfile none 4 0).loadMap
      let c := b.set F.SYS_BOOTT_US ((b.now - b.pwr.bootAt) / 1000 % 2 ^ 32)
      exec (.bootComplete standing previous) s = .next (c.setFeatoff.setDev stNegotiate) ∧
      (c.setFeatoff.setDev stNegotiate).dev = stNegotiate) ∧
    (s.dev ≠ stBoot ∨ s.pwr.bootOk = false ∨ s.training = true → exec (.bootComplete standing previous) s = .next s)
end

