-- ==== Sys2Proof/Laws/EngMem.lean ====
section
/-! SUPPORT. What a load and a store of an engine do in each space and on a bad address (R58, R59). -/

set_option Elab.async false

namespace Sys2Proof.Machine

variable {s : State} {d : BitVec 5} {a : DWord} {sz words : Nat} {sgn : Bool}

theorem State.loadMem_local {e : Nat} (h1 : a.toNat % 2 ^ sz = 0) (h2 : inLocal a.toNat (2 ^ sz) = true)
    (h3 : (s.readLocal e a.toNat (2 ^ sz)).bad = false) : s.loadMem e d a sz sgn words =
      (s.readLocal e a.toNat (2 ^ sz)).st.setD e d (extendLoad sgn (2 ^ sz) (leNat (s.readLocal e a.toNat (2 ^ sz)).bytes)) words := by
  simp [State.loadMem, h1, h2, h3]

theorem State.loadMem_tarn {e : Nat} (h1 : a.toNat % 2 ^ sz = 0) (h0 : inLocal a.toNat (2 ^ sz) = false)
    (h2 : inTarn a.toNat (2 ^ sz) = true) (h3 : (s.readTarn (a.toNat - 0x10000000) (2 ^ sz)).bad = false) :
    s.loadMem e d a sz sgn words = (s.readTarn (a.toNat - 0x10000000) (2 ^ sz)).st.setD e d
      (extendLoad sgn (2 ^ sz) (leNat (s.readTarn (a.toNat - 0x10000000) (2 ^ sz)).bytes)) words := by
  simp [State.loadMem, h1, h0, h2, h3]

theorem State.loadMem_misaligned {e : Nat} (h1 : a.toNat % 2 ^ sz ≠ 0) : s.loadMem e d a sz sgn words = s.trap e .align a words := by
  simp [State.loadMem, h1]

theorem State.loadMem_nowhere {e : Nat} (h1 : a.toNat % 2 ^ sz = 0) (h2 : inLocal a.toNat (2 ^ sz) = false)
    (h3 : inTarn a.toNat (2 ^ sz) = false) (h4 : inIo a.toNat (2 ^ sz) = false) :
    s.loadMem e d a sz sgn words = s.trap e .space a words := by
  simp [State.loadMem, h1, h2, h3, h4]

theorem State.storeMem_local {e : Eng} (h1 : a.toNat % 2 ^ sz = 0) (h2 : inLocal a.toNat (2 ^ sz) = true) : s.storeMem e d a sz words =
    (s.writeLocal e a.toNat (leBytes (2 ^ sz) ((s.engine e).reg d.toNat).toNat) true).retire e
      ((s.writeLocal e a.toNat (leBytes (2 ^ sz) ((s.engine e).reg d.toNat).toNat) true).engine e) words := by
  simp [State.storeMem, h1, h2]

theorem State.storeMem_tarn {e : Eng} (h1 : a.toNat % 2 ^ sz = 0) (h0 : inLocal a.toNat (2 ^ sz) = false)
    (h2 : inTarn a.toNat (2 ^ sz) = true) : s.storeMem e d a sz words =
    (s.writeTarnGuarded (a.toNat - 0x10000000) (leBytes (2 ^ sz) ((s.engine e).reg d.toNat).toNat) true).retire e
      ((s.writeTarnGuarded (a.toNat - 0x10000000) (leBytes (2 ^ sz) ((s.engine e).reg d.toNat).toNat) true).engine e) words := by
  simp [State.storeMem, h1, h0, h2]

theorem State.storeMem_misaligned {e : Eng} (h1 : a.toNat % 2 ^ sz ≠ 0) : s.storeMem e d a sz words = s.trap e .align a words := by
  simp [State.storeMem, h1]

theorem State.storeMem_nowhere {e : Eng} (h1 : a.toNat % 2 ^ sz = 0) (h2 : inLocal a.toNat (2 ^ sz) = false)
    (h3 : inTarn a.toNat (2 ^ sz) = false) (h4 : inIo a.toNat (2 ^ sz) = false) :
    s.storeMem e d a sz words = s.trap e .space a words := by
  simp [State.storeMem, h1, h2, h3, h4]

end Sys2Proof.Machine
end

