-- ==== Sys2Proof/Laws/Tab.lean ====
section
/-! SUPPORT. Sparse tables: what a read gives after a write, and that every operation keeps the canonical form. -/

set_option Elab.async false

namespace Sys2Proof.Machine

variable {α : Type} [DecidableEq α] {d : Nat → α}

theorem Tab.wfFrom_mono {t : Tab α} {lo lo' : Nat} (h : Tab.wfFrom d lo t = true) (hl : lo' ≤ lo) : Tab.wfFrom d lo' t = true := by
  cases t with
  | nil => rfl
  | cons e t =>
    obtain ⟨k, v⟩ := e
    simp only [Tab.wfFrom, Bool.and_eq_true, decide_eq_true_eq] at h ⊢
    exact ⟨⟨by omega, h.1.2⟩, h.2⟩

theorem Tab.above_wf {t : Tab α} {lo n : Nat} (h : Tab.wfFrom d lo t = true) : Tab.wfFrom d (n + 1) (Tab.above n t) = true := by
  induction t generalizing lo with
  | nil => rfl
  | cons e t ih =>
    obtain ⟨k, v⟩ := e
    simp only [Tab.wfFrom, Bool.and_eq_true, decide_eq_true_eq] at h
    simp only [Tab.above]
    split
    · simp only [Tab.wfFrom, Bool.and_eq_true, decide_eq_true_eq]
      exact ⟨⟨by omega, h.1.2⟩, h.2⟩
    · exact ih h.2

omit [DecidableEq α] in
/-- Entries at or below `n` do not matter to a read above it. -/
theorem Tab.get_above {t : Tab α} {n m : Nat} (hm : n < m) : Tab.get d (Tab.above n t) m = Tab.get d t m := by
  induction t with
  | nil => rfl
  | cons e t ih =>
    obtain ⟨k, v⟩ := e
    simp only [Tab.above]
    split
    · rfl
    · rw [ih]
      simp only [Tab.get]
      rw [if_neg (by omega), if_neg (by omega)]

omit [DecidableEq α] in
/-- With the entries at or below `n` dropped, a read at or below it gives the default. -/
theorem Tab.get_above_le {t : Tab α} {n m : Nat} (hm : m ≤ n) : Tab.get d (Tab.above n t) m = d m := by
  induction t with
  | nil => rfl
  | cons e t ih =>
    obtain ⟨k, v⟩ := e
    simp only [Tab.above]
    split
    · simp only [Tab.get]
      rw [if_pos (by omega)]
    · exact ih

/-- A write keeps the canonical form. -/
theorem Tab.put_wfFrom {t : Tab α} {lo n : Nat} {v : α} (h : Tab.wfFrom d lo t = true) (hn : lo ≤ n) :
    Tab.wfFrom d lo (Tab.put d t n v) = true := by
  induction t generalizing lo with
  | nil =>
    simp only [Tab.put]
    split
    · rfl
    · simp [Tab.wfFrom, *]
  | cons e t ih =>
    obtain ⟨k, w⟩ := e
    simp only [Tab.wfFrom, Bool.and_eq_true, decide_eq_true_eq] at h
    have tail : ∀ k', k' ≤ n + 1 → Tab.wfFrom d k' (Tab.above n t) = true := fun k' hk =>
      Tab.wfFrom_mono (Tab.above_wf h.2) hk
    simp only [Tab.put]
    split_ifs
    · simp only [Tab.wfFrom, Bool.and_eq_true, decide_eq_true_eq]
      exact ⟨⟨h.1.1, h.1.2⟩, h.2⟩
    · simp only [Tab.wfFrom, Bool.and_eq_true, decide_eq_true_eq]
      exact ⟨⟨hn, by assumption⟩, ⟨by omega, h.1.2⟩, h.2⟩
    · exact tail lo (by omega)
    · simp only [Tab.wfFrom, Bool.and_eq_true, decide_eq_true_eq]
      exact ⟨⟨hn, by assumption⟩, tail (n + 1) (Nat.le_refl _)⟩
    · simp only [Tab.wfFrom, Bool.and_eq_true, decide_eq_true_eq]
      exact ⟨⟨h.1.1, h.1.2⟩, ih h.2 (by omega)⟩

/-- A write keeps the canonical form of a whole table. -/
theorem Tab.put_wf {t : Tab α} {n : Nat} {v : α} (h : Tab.wf d t = true) : Tab.wf d (Tab.put d t n v) = true :=
  Tab.put_wfFrom h (Nat.zero_le _)

/-- Reading the key just written gives the value. -/
theorem Tab.get_put_same {t : Tab α} {n : Nat} {v : α} : Tab.get d (Tab.put d t n v) n = v := by
  induction t with
  | nil =>
    simp only [Tab.put]
    split <;> simp [Tab.get, *]
  | cons e t ih =>
    obtain ⟨k, w⟩ := e
    simp only [Tab.put]
    split_ifs with h1 h2 h3 h4
    · simp [Tab.get, h1, h2]
    · simp [Tab.get]
    · rw [h4]; exact Tab.get_above_le (Nat.le_refl _)
    · simp [Tab.get]
    · simp only [Tab.get]
      rw [if_neg h1, if_neg h3]
      exact ih

/-- Reading another key gives what it gave before. -/
theorem Tab.get_put_ne {t : Tab α} {n m : Nat} {v : α} (hm : m ≠ n) : Tab.get d (Tab.put d t n v) m = Tab.get d t m := by
  induction t with
  | nil =>
    simp only [Tab.put]
    split <;> simp [Tab.get, hm]
  | cons e t ih =>
    obtain ⟨k, w⟩ := e
    simp only [Tab.put]
    split_ifs with h1 h2 h3 h4
    · rfl
    · by_cases hlt : m < n
      · simp only [Tab.get]
        rw [if_pos hlt, if_pos (by omega)]
      · conv => lhs; simp only [Tab.get]
        rw [if_neg hlt, if_neg hm]
        simp only [Tab.get]
    · subst h3
      by_cases hlt : n < m
      · rw [Tab.get_above hlt]
        simp only [Tab.get]
        rw [if_neg (by omega), if_neg (by omega)]
      · rw [Tab.get_above_le (by omega)]
        simp only [Tab.get]
        rw [if_pos (by omega)]
    · subst h3
      simp only [Tab.get]
      by_cases hlt : n < m
      · rw [if_neg (by omega), if_neg hm, if_neg (by omega), if_neg hm, Tab.get_above hlt]
      · rw [if_pos (by omega), if_pos (by omega)]
    · simp only [Tab.get]
      rw [ih]

/-- Reading any key after a write. -/
theorem Tab.get_put {t : Tab α} {n m : Nat} {v : α} :
    Tab.get d (Tab.put d t n v) m = if m = n then v else Tab.get d t m := by
  split
  · next e => rw [e]; exact Tab.get_put_same
  · next e => exact Tab.get_put_ne e

/-- Dropping entries keeps the canonical form. -/
theorem Tab.filter_wfFrom {t : Tab α} {lo : Nat} {p : Nat × α → Bool} (h : Tab.wfFrom d lo t = true) :
    Tab.wfFrom d lo (t.filter p) = true := by
  induction t generalizing lo with
  | nil => rfl
  | cons e t ih =>
    obtain ⟨k, v⟩ := e
    simp only [Tab.wfFrom, Bool.and_eq_true, decide_eq_true_eq] at h
    rw [List.filter_cons]
    split
    · simp only [Tab.wfFrom, Bool.and_eq_true, decide_eq_true_eq]
      exact ⟨⟨h.1.1, h.1.2⟩, ih h.2⟩
    · exact ih (Tab.wfFrom_mono h.2 (by omega))

theorem Tab.filter_wf {t : Tab α} {p : Nat × α → Bool} (h : Tab.wf d t = true) : Tab.wf d (t.filter p) = true :=
  Tab.filter_wfFrom h

theorem Tab.drop_wf {t : Tab α} {p : Nat → Bool} (h : Tab.wf d t = true) : Tab.wf d (Tab.drop p t) = true :=
  Tab.filter_wfFrom h

/-- Rewriting every entry keeps the canonical form. -/
theorem Tab.mapE_wfFrom {t : Tab α} {lo : Nat} {f : Nat → α → α} (h : Tab.wfFrom d lo t = true) :
    Tab.wfFrom d lo (Tab.mapE d f t) = true := by
  induction t generalizing lo with
  | nil => rfl
  | cons e t ih =>
    obtain ⟨k, v⟩ := e
    simp only [Tab.wfFrom, Bool.and_eq_true, decide_eq_true_eq] at h
    simp only [Tab.mapE, List.map_cons, List.filter_cons]
    split
    · next hv =>
      simp only [Tab.wfFrom, Bool.and_eq_true, decide_eq_true_eq]
      exact ⟨⟨h.1.1, by simpa using hv⟩, ih h.2⟩
    · exact ih (Tab.wfFrom_mono h.2 (by omega))

theorem Tab.mapE_wf {t : Tab α} {f : Nat → α → α} (h : Tab.wf d t = true) : Tab.wf d (Tab.mapE d f t) = true :=
  Tab.mapE_wfFrom h

omit [DecidableEq α] in
/-- A dropped key reads as the default. -/
theorem Tab.get_drop {t : Tab α} {p : Nat → Bool} {n : Nat} (hp : p n = true) : Tab.get d (Tab.drop p t) n = d n := by
  induction t with
  | nil => rfl
  | cons e t ih =>
    obtain ⟨k, v⟩ := e
    simp only [Tab.drop, List.filter_cons] at ih ⊢
    split
    · rename_i hk
      simp only [Tab.get]
      split
      · rfl
      · split
        · rename_i hn; subst hn; simp [hp] at hk
        · exact ih
    · exact ih

/-- Below a table's first key nothing is listed. -/
theorem Tab.get_below {t : Tab α} {lo n : Nat} (h : Tab.wfFrom d lo t = true) (hn : n < lo) : Tab.get d t n = d n := by
  cases t with
  | nil => rfl
  | cons e t =>
    obtain ⟨k, v⟩ := e
    simp only [Tab.wfFrom, Bool.and_eq_true, decide_eq_true_eq] at h
    simp only [Tab.get]
    rw [if_pos (by omega)]

/-- A key that is not dropped keeps its value. -/
theorem Tab.get_drop_ne {t : Tab α} {lo n : Nat} {p : Nat → Bool} (h : Tab.wfFrom d lo t = true) (hp : p n = false) :
    Tab.get d (Tab.drop p t) n = Tab.get d t n := by
  induction t generalizing lo with
  | nil => rfl
  | cons e t ih =>
    obtain ⟨k, v⟩ := e
    simp only [Tab.wfFrom, Bool.and_eq_true, decide_eq_true_eq] at h
    have ih := ih h.2
    simp only [Tab.drop, List.filter_cons] at ih ⊢
    split
    · simp only [Tab.get, ih]
    · rename_i hk
      rw [ih]
      simp only [Tab.get]
      split
      · exact Tab.get_below h.2 (by omega)
      · split
        · rename_i hn; subst hn; simp [hp] at hk
        · rfl

end Sys2Proof.Machine
end

