-- ==== Sys2Proof/Laws/State.lean ====
section
/-! SUPPORT. What each update of State leaves: one lemma for a field and an update, and what a register, a field of a register
and an entry of a unit's table read as after a write. -/

set_option Elab.async false

namespace Sys2Proof.Machine

variable (s : State)

/-! ### Fields of a register word -/

theorem fieldOf_lt (w : Word) (lo wid : Nat) : fieldOf w lo wid < 2 ^ wid := Nat.mod_lt _ (Nat.two_pow_pos _)

/-- The field that was replaced reads as the value modulo its width. -/
theorem fieldOf_fieldPut {w : Word} {lo wid v : Nat} (h : lo + wid ≤ 32) : fieldOf (fieldPut w lo wid v) lo wid = v % 2 ^ wid := by
  have hw : w.toNat < 2 ^ 32 := w.isLt
  have e := Nat.div_add_mod w.toNat (2 ^ lo)
  have e2 := Nat.div_add_mod (w.toNat / 2 ^ lo) (2 ^ wid)
  have r1 : w.toNat % 2 ^ lo < 2 ^ lo := Nat.mod_lt _ (Nat.two_pow_pos _)
  have r3 : v % 2 ^ wid < 2 ^ wid := Nat.mod_lt _ (Nat.two_pow_pos _)
  simp only [fieldOf, fieldPut, BitVec.toNat_ofNat]
  generalize w.toNat % 2 ^ lo = r at e r1
  generalize hq : w.toNat / 2 ^ lo = q at e e2
  generalize q % 2 ^ wid = f at e2
  generalize hg : q / 2 ^ wid = g at e2
  generalize v % 2 ^ wid = u at r3
  have split : 2 ^ 32 = 2 ^ lo * (2 ^ wid * 2 ^ (32 - lo - wid)) := by
    rw [← Nat.pow_add, ← Nat.pow_add]; congr 1; omega
  have val : w.toNat - f * 2 ^ lo + u * 2 ^ lo = 2 ^ lo * (2 ^ wid * g + u) + r := by
    have : w.toNat = 2 ^ lo * (2 ^ wid * g) + f * 2 ^ lo + r := by rw [← e, ← e2]; ring
    rw [this, Nat.mul_add]
    have := Nat.mul_comm u (2 ^ lo)
    omega
  have gl : g < 2 ^ (32 - lo - wid) := by
    rw [← hg, ← hq, Nat.div_div_eq_div_mul, Nat.div_lt_iff_lt_mul (by positivity)]
    calc w.toNat < 2 ^ 32 := hw
      _ = _ := by rw [split]; ring
  have bound : 2 ^ lo * (2 ^ wid * g + u) + r < 2 ^ 32 := by
    rw [split]
    have : 2 ^ wid * g + u + 1 ≤ 2 ^ wid * 2 ^ (32 - lo - wid) := by
      calc 2 ^ wid * g + u + 1 ≤ 2 ^ wid * g + 2 ^ wid := by omega
        _ = 2 ^ wid * (g + 1) := by ring
        _ ≤ _ := Nat.mul_le_mul_left _ gl
    calc 2 ^ lo * (2 ^ wid * g + u) + r < 2 ^ lo * (2 ^ wid * g + u) + 2 ^ lo := by omega
      _ = 2 ^ lo * (2 ^ wid * g + u + 1) := by ring
      _ ≤ _ := Nat.mul_le_mul_left _ this
  rw [val, Nat.mod_eq_of_lt bound, Nat.mul_add_div (Nat.two_pow_pos _), Nat.div_eq_of_lt r1, Nat.add_zero,
    Nat.mul_add_mod, Nat.mod_eq_of_lt r3]

/-- A field apart from the one that was replaced keeps its value. -/
theorem fieldOf_fieldPut_ne {w : Word} {lo wid lo' wid' v : Nat} (h : lo + wid ≤ 32) (hd : lo' + wid' ≤ lo ∨ lo + wid ≤ lo') :
    fieldOf (fieldPut w lo wid v) lo' wid' = fieldOf w lo' wid' := by
  have hw : w.toNat < 2 ^ 32 := w.isLt
  have e := Nat.div_add_mod w.toNat (2 ^ lo)
  have e2 := Nat.div_add_mod (w.toNat / 2 ^ lo) (2 ^ wid)
  have r1 : w.toNat % 2 ^ lo < 2 ^ lo := Nat.mod_lt _ (Nat.two_pow_pos _)
  have r2 : w.toNat / 2 ^ lo % 2 ^ wid < 2 ^ wid := Nat.mod_lt _ (Nat.two_pow_pos _)
  have r3 : v % 2 ^ wid < 2 ^ wid := Nat.mod_lt _ (Nat.two_pow_pos _)
  simp only [fieldOf, fieldPut, BitVec.toNat_ofNat]
  generalize w.toNat % 2 ^ lo = r at e r1
  generalize hq : w.toNat / 2 ^ lo = q at e e2 r2
  generalize q % 2 ^ wid = f at e2 r2
  generalize hg : q / 2 ^ wid = g at e2
  generalize v % 2 ^ wid = u at r3
  have split : 2 ^ 32 = 2 ^ lo * (2 ^ wid * 2 ^ (32 - lo - wid)) := by
    rw [← Nat.pow_add, ← Nat.pow_add]; congr 1; omega
  have orig : w.toNat = 2 ^ lo * (2 ^ wid * g + f) + r := by rw [← e, ← e2]
  have val : w.toNat - f * 2 ^ lo + u * 2 ^ lo = 2 ^ lo * (2 ^ wid * g + u) + r := by
    have : w.toNat = 2 ^ lo * (2 ^ wid * g) + f * 2 ^ lo + r := by rw [orig]; ring
    rw [this, Nat.mul_add]
    have := Nat.mul_comm u (2 ^ lo)
    omega
  have gl : g < 2 ^ (32 - lo - wid) := by
    rw [← hg, ← hq, Nat.div_div_eq_div_mul, Nat.div_lt_iff_lt_mul (by positivity)]
    calc w.toNat < 2 ^ 32 := hw
      _ = _ := by rw [split]; ring
  have bound : 2 ^ lo * (2 ^ wid * g + u) + r < 2 ^ 32 := by
    rw [split]
    have : 2 ^ wid * g + u + 1 ≤ 2 ^ wid * 2 ^ (32 - lo - wid) := by
      calc 2 ^ wid * g + u + 1 ≤ 2 ^ wid * g + 2 ^ wid := by omega
        _ = 2 ^ wid * (g + 1) := by ring
        _ ≤ _ := Nat.mul_le_mul_left _ gl
    calc 2 ^ lo * (2 ^ wid * g + u) + r < 2 ^ lo * (2 ^ wid * g + u) + 2 ^ lo := by omega
      _ = 2 ^ lo * (2 ^ wid * g + u + 1) := by ring
      _ ≤ _ := Nat.mul_le_mul_left _ this
  rw [val, Nat.mod_eq_of_lt bound, orig]
  rcases hd with hd | hd
  · have hp : 2 ^ lo = 2 ^ lo' * (2 ^ wid' * 2 ^ (lo - lo' - wid')) := by
      rw [← Nat.pow_add, ← Nat.pow_add]; congr 1; omega
    have key : ∀ a : Nat, (2 ^ lo * a + r) / 2 ^ lo' % 2 ^ wid' = r / 2 ^ lo' % 2 ^ wid' := by
      intro a
      rw [hp, Nat.mul_assoc, Nat.mul_add_div (Nat.two_pow_pos _), Nat.mul_assoc, Nat.mul_add_mod]
    rw [key, key]
  · have hp : 2 ^ lo' = 2 ^ lo * (2 ^ wid * 2 ^ (lo' - lo - wid)) := by
      rw [← Nat.pow_add, ← Nat.pow_add]; congr 1; omega
    have key : ∀ a : Nat, a < 2 ^ wid → (2 ^ lo * (2 ^ wid * g + a) + r) / 2 ^ lo' = g / 2 ^ (lo' - lo - wid) := by
      intro a ha
      rw [hp, ← Nat.div_div_eq_div_mul, Nat.mul_add_div (Nat.two_pow_pos _), Nat.div_eq_of_lt r1, Nat.add_zero,
        ← Nat.div_div_eq_div_mul, Nat.mul_add_div (Nat.two_pow_pos _), Nat.div_eq_of_lt ha, Nat.add_zero]
    rw [key u r3, key f r2]

/-! ### Registers -/

theorem State.rd_wr {s : State} {o o' : Nat} {v : Word} : (s.wr o v).rd o' = if o' = o then v else s.rd o' := Tab.get_put

@[simp] theorem State.rd_wr_same {s : State} {o : Nat} {v : Word} : (s.wr o v).rd o = v := Tab.get_put_same

theorem State.rd_wr_ne {s : State} {o o' : Nat} {v : Word} (h : o' ≠ o) : (s.wr o v).rd o' = s.rd o' := Tab.get_put_ne h

/-- The field that was set reads as the value modulo its width. -/
theorem State.get_set {s : State} {f : Fld} {v i j : Nat} (h : f.lo + f.wid ≤ 32) :
    (s.set f v i j).get f i j = v % 2 ^ f.wid := by
  simp only [State.get, State.set, State.rd_wr_same]
  exact fieldOf_fieldPut h

/-- A field of another register keeps its value. -/
theorem State.get_set_off {s : State} {f g : Fld} {v i j k l : Nat} (h : g.off k l ≠ f.off i j) :
    (s.set f v i j).get g k l = s.get g k l := by
  simp only [State.get, State.set, State.rd_wr_ne h]

/-- Another field of the same register keeps its value. -/
theorem State.get_set_ne {s : State} {f g : Fld} {v i j k l : Nat} (h : f.lo + f.wid ≤ 32)
    (hd : g.lo + g.wid ≤ f.lo ∨ f.lo + f.wid ≤ g.lo) : (s.set f v i j).get g k l = s.get g k l := by
  simp only [State.get, State.set, State.rd_wr]
  split
  · next e => rw [e]; exact fieldOf_fieldPut_ne h hd
  · rfl

theorem State.get_lt {s : State} {f : Fld} {i j : Nat} : s.get f i j < 2 ^ f.wid := fieldOf_lt _ _ _

/-! ### wr -/

@[simp] theorem State.wr_pending (off : Nat) (v : Word) : (s.wr off v).pending = s.pending := rfl
@[simp] theorem State.wr_now (off : Nat) (v : Word) : (s.wr off v).now = s.now := rfl
@[simp] theorem State.wr_freeCtr (off : Nat) (v : Word) : (s.wr off v).freeCtr = s.freeCtr := rfl
@[simp] theorem State.wr_fused8816 (off : Nat) (v : Word) : (s.wr off v).fused8816 = s.fused8816 := rfl
@[simp] theorem State.wr_latch (off : Nat) (v : Word) : (s.wr off v).latch = s.latch := rfl
@[simp] theorem State.wr_flt (off : Nat) (v : Word) : (s.wr off v).flt = s.flt := rfl
@[simp] theorem State.wr_eng (off : Nat) (v : Word) : (s.wr off v).eng = s.eng := rfl
@[simp] theorem State.wr_engines (off : Nat) (v : Word) : (s.wr off v).engines = s.engines := rfl
@[simp] theorem State.wr_gates (off : Nat) (v : Word) : (s.wr off v).gates = s.gates := rfl
@[simp] theorem State.wr_pchan (off : Nat) (v : Word) : (s.wr off v).pchan = s.pchan := rfl
@[simp] theorem State.wr_tchan (off : Nat) (v : Word) : (s.wr off v).tchan = s.tchan := rfl
@[simp] theorem State.wr_spr (off : Nat) (v : Word) : (s.wr off v).spr = s.spr := rfl
@[simp] theorem State.wr_groups (off : Nat) (v : Word) : (s.wr off v).groups = s.groups := rfl
@[simp] theorem State.wr_liveB (off : Nat) (v : Word) : (s.wr off v).liveB = s.liveB := rfl
@[simp] theorem State.wr_prf (off : Nat) (v : Word) : (s.wr off v).prf = s.prf := rfl
@[simp] theorem State.wr_host (off : Nat) (v : Word) : (s.wr off v).host = s.host := rfl
@[simp] theorem State.wr_tarn (off : Nat) (v : Word) : (s.wr off v).tarn = s.tarn := rfl
@[simp] theorem State.wr_tb (off : Nat) (v : Word) : (s.wr off v).tb = s.tb := rfl
@[simp] theorem State.wr_enc (off : Nat) (v : Word) : (s.wr off v).enc = s.enc := rfl
@[simp] theorem State.wr_str (off : Nat) (v : Word) : (s.wr off v).str = s.str := rfl
@[simp] theorem State.wr_eth (off : Nat) (v : Word) : (s.wr off v).eth = s.eth := rfl
@[simp] theorem State.wr_fline (off : Nat) (v : Word) : (s.wr off v).fline = s.fline := rfl
@[simp] theorem State.wr_job (off : Nat) (v : Word) : (s.wr off v).job = s.job := rfl
@[simp] theorem State.wr_fire (off : Nat) (v : Word) : (s.wr off v).fire = s.fire := rfl
@[simp] theorem State.wr_ports (off : Nat) (v : Word) : (s.wr off v).ports = s.ports := rfl
@[simp] theorem State.wr_segs (off : Nat) (v : Word) : (s.wr off v).segs = s.segs := rfl
@[simp] theorem State.wr_cams (off : Nat) (v : Word) : (s.wr off v).cams = s.cams := rfl
@[simp] theorem State.wr_col (off : Nat) (v : Word) : (s.wr off v).col = s.col := rfl
@[simp] theorem State.wr_ing (off : Nat) (v : Word) : (s.wr off v).ing = s.ing := rfl
@[simp] theorem State.wr_pipes (off : Nat) (v : Word) : (s.wr off v).pipes = s.pipes := rfl
@[simp] theorem State.wr_dmc (off : Nat) (v : Word) : (s.wr off v).dmc = s.dmc := rfl
@[simp] theorem State.wr_sec (off : Nat) (v : Word) : (s.wr off v).sec = s.sec := rfl
@[simp] theorem State.wr_sens (off : Nat) (v : Word) : (s.wr off v).sens = s.sens := rfl
@[simp] theorem State.wr_xing (off : Nat) (v : Word) : (s.wr off v).xing = s.xing := rfl
@[simp] theorem State.wr_pwr (off : Nat) (v : Word) : (s.wr off v).pwr = s.pwr := rfl
@[simp] theorem State.wr_cBase (off : Nat) (v : Word) : (s.wr off v).cBase = s.cBase := rfl

/-! ### set -/

@[simp] theorem State.set_pending (f : Fld) (v i j : Nat) : (s.set f v i j).pending = s.pending := rfl
@[simp] theorem State.set_now (f : Fld) (v i j : Nat) : (s.set f v i j).now = s.now := rfl
@[simp] theorem State.set_freeCtr (f : Fld) (v i j : Nat) : (s.set f v i j).freeCtr = s.freeCtr := rfl
@[simp] theorem State.set_fused8816 (f : Fld) (v i j : Nat) : (s.set f v i j).fused8816 = s.fused8816 := rfl
@[simp] theorem State.set_latch (f : Fld) (v i j : Nat) : (s.set f v i j).latch = s.latch := rfl
@[simp] theorem State.set_flt (f : Fld) (v i j : Nat) : (s.set f v i j).flt = s.flt := rfl
@[simp] theorem State.set_eng (f : Fld) (v i j : Nat) : (s.set f v i j).eng = s.eng := rfl
@[simp] theorem State.set_engines (f : Fld) (v i j : Nat) : (s.set f v i j).engines = s.engines := rfl
@[simp] theorem State.set_gates (f : Fld) (v i j : Nat) : (s.set f v i j).gates = s.gates := rfl
@[simp] theorem State.set_pchan (f : Fld) (v i j : Nat) : (s.set f v i j).pchan = s.pchan := rfl
@[simp] theorem State.set_tchan (f : Fld) (v i j : Nat) : (s.set f v i j).tchan = s.tchan := rfl
@[simp] theorem State.set_spr (f : Fld) (v i j : Nat) : (s.set f v i j).spr = s.spr := rfl
@[simp] theorem State.set_groups (f : Fld) (v i j : Nat) : (s.set f v i j).groups = s.groups := rfl
@[simp] theorem State.set_liveB (f : Fld) (v i j : Nat) : (s.set f v i j).liveB = s.liveB := rfl
@[simp] theorem State.set_prf (f : Fld) (v i j : Nat) : (s.set f v i j).prf = s.prf := rfl
@[simp] theorem State.set_host (f : Fld) (v i j : Nat) : (s.set f v i j).host = s.host := rfl
@[simp] theorem State.set_tarn (f : Fld) (v i j : Nat) : (s.set f v i j).tarn = s.tarn := rfl
@[simp] theorem State.set_tb (f : Fld) (v i j : Nat) : (s.set f v i j).tb = s.tb := rfl
@[simp] theorem State.set_enc (f : Fld) (v i j : Nat) : (s.set f v i j).enc = s.enc := rfl
@[simp] theorem State.set_str (f : Fld) (v i j : Nat) : (s.set f v i j).str = s.str := rfl
@[simp] theorem State.set_eth (f : Fld) (v i j : Nat) : (s.set f v i j).eth = s.eth := rfl
@[simp] theorem State.set_fline (f : Fld) (v i j : Nat) : (s.set f v i j).fline = s.fline := rfl
@[simp] theorem State.set_job (f : Fld) (v i j : Nat) : (s.set f v i j).job = s.job := rfl
@[simp] theorem State.set_fire (f : Fld) (v i j : Nat) : (s.set f v i j).fire = s.fire := rfl
@[simp] theorem State.set_ports (f : Fld) (v i j : Nat) : (s.set f v i j).ports = s.ports := rfl
@[simp] theorem State.set_segs (f : Fld) (v i j : Nat) : (s.set f v i j).segs = s.segs := rfl
@[simp] theorem State.set_cams (f : Fld) (v i j : Nat) : (s.set f v i j).cams = s.cams := rfl
@[simp] theorem State.set_col (f : Fld) (v i j : Nat) : (s.set f v i j).col = s.col := rfl
@[simp] theorem State.set_ing (f : Fld) (v i j : Nat) : (s.set f v i j).ing = s.ing := rfl
@[simp] theorem State.set_pipes (f : Fld) (v i j : Nat) : (s.set f v i j).pipes = s.pipes := rfl
@[simp] theorem State.set_dmc (f : Fld) (v i j : Nat) : (s.set f v i j).dmc = s.dmc := rfl
@[simp] theorem State.set_sec (f : Fld) (v i j : Nat) : (s.set f v i j).sec = s.sec := rfl
@[simp] theorem State.set_sens (f : Fld) (v i j : Nat) : (s.set f v i j).sens = s.sens := rfl
@[simp] theorem State.set_xing (f : Fld) (v i j : Nat) : (s.set f v i j).xing = s.xing := rfl
@[simp] theorem State.set_pwr (f : Fld) (v i j : Nat) : (s.set f v i j).pwr = s.pwr := rfl
@[simp] theorem State.set_cBase (f : Fld) (v i j : Nat) : (s.set f v i j).cBase = s.cBase := rfl

/-! ### setEngine -/

@[simp] theorem State.setEngine_pending (e : Nat) (x : Engine) : (s.setEngine e x).pending = s.pending := rfl
@[simp] theorem State.setEngine_now (e : Nat) (x : Engine) : (s.setEngine e x).now = s.now := rfl
@[simp] theorem State.setEngine_freeCtr (e : Nat) (x : Engine) : (s.setEngine e x).freeCtr = s.freeCtr := rfl
@[simp] theorem State.setEngine_fused8816 (e : Nat) (x : Engine) : (s.setEngine e x).fused8816 = s.fused8816 := rfl
@[simp] theorem State.setEngine_regs (e : Nat) (x : Engine) : (s.setEngine e x).regs = s.regs := rfl
@[simp] theorem State.setEngine_latch (e : Nat) (x : Engine) : (s.setEngine e x).latch = s.latch := rfl
@[simp] theorem State.setEngine_flt (e : Nat) (x : Engine) : (s.setEngine e x).flt = s.flt := rfl
@[simp] theorem State.setEngine_eng (e : Nat) (x : Engine) : (s.setEngine e x).eng = s.eng := rfl
@[simp] theorem State.setEngine_gates (e : Nat) (x : Engine) : (s.setEngine e x).gates = s.gates := rfl
@[simp] theorem State.setEngine_pchan (e : Nat) (x : Engine) : (s.setEngine e x).pchan = s.pchan := rfl
@[simp] theorem State.setEngine_tchan (e : Nat) (x : Engine) : (s.setEngine e x).tchan = s.tchan := rfl
@[simp] theorem State.setEngine_spr (e : Nat) (x : Engine) : (s.setEngine e x).spr = s.spr := rfl
@[simp] theorem State.setEngine_groups (e : Nat) (x : Engine) : (s.setEngine e x).groups = s.groups := rfl
@[simp] theorem State.setEngine_liveB (e : Nat) (x : Engine) : (s.setEngine e x).liveB = s.liveB := rfl
@[simp] theorem State.setEngine_prf (e : Nat) (x : Engine) : (s.setEngine e x).prf = s.prf := rfl
@[simp] theorem State.setEngine_host (e : Nat) (x : Engine) : (s.setEngine e x).host = s.host := rfl
@[simp] theorem State.setEngine_tarn (e : Nat) (x : Engine) : (s.setEngine e x).tarn = s.tarn := rfl
@[simp] theorem State.setEngine_tb (e : Nat) (x : Engine) : (s.setEngine e x).tb = s.tb := rfl
@[simp] theorem State.setEngine_enc (e : Nat) (x : Engine) : (s.setEngine e x).enc = s.enc := rfl
@[simp] theorem State.setEngine_str (e : Nat) (x : Engine) : (s.setEngine e x).str = s.str := rfl
@[simp] theorem State.setEngine_eth (e : Nat) (x : Engine) : (s.setEngine e x).eth = s.eth := rfl
@[simp] theorem State.setEngine_fline (e : Nat) (x : Engine) : (s.setEngine e x).fline = s.fline := rfl
@[simp] theorem State.setEngine_job (e : Nat) (x : Engine) : (s.setEngine e x).job = s.job := rfl
@[simp] theorem State.setEngine_fire (e : Nat) (x : Engine) : (s.setEngine e x).fire = s.fire := rfl
@[simp] theorem State.setEngine_ports (e : Nat) (x : Engine) : (s.setEngine e x).ports = s.ports := rfl
@[simp] theorem State.setEngine_segs (e : Nat) (x : Engine) : (s.setEngine e x).segs = s.segs := rfl
@[simp] theorem State.setEngine_cams (e : Nat) (x : Engine) : (s.setEngine e x).cams = s.cams := rfl
@[simp] theorem State.setEngine_col (e : Nat) (x : Engine) : (s.setEngine e x).col = s.col := rfl
@[simp] theorem State.setEngine_ing (e : Nat) (x : Engine) : (s.setEngine e x).ing = s.ing := rfl
@[simp] theorem State.setEngine_pipes (e : Nat) (x : Engine) : (s.setEngine e x).pipes = s.pipes := rfl
@[simp] theorem State.setEngine_dmc (e : Nat) (x : Engine) : (s.setEngine e x).dmc = s.dmc := rfl
@[simp] theorem State.setEngine_sec (e : Nat) (x : Engine) : (s.setEngine e x).sec = s.sec := rfl
@[simp] theorem State.setEngine_sens (e : Nat) (x : Engine) : (s.setEngine e x).sens = s.sens := rfl
@[simp] theorem State.setEngine_xing (e : Nat) (x : Engine) : (s.setEngine e x).xing = s.xing := rfl
@[simp] theorem State.setEngine_pwr (e : Nat) (x : Engine) : (s.setEngine e x).pwr = s.pwr := rfl
@[simp] theorem State.setEngine_cBase (e : Nat) (x : Engine) : (s.setEngine e x).cBase = s.cBase := rfl
@[simp] theorem State.setEngine_rd (e : Nat) (x : Engine) (o : Nat) : (s.setEngine e x).rd o = s.rd o := rfl
@[simp] theorem State.setEngine_get (e : Nat) (x : Engine) (f : Fld) (i j : Nat) : (s.setEngine e x).get f i j = s.get f i j := rfl
@[simp] theorem State.setEngine_on (e : Nat) (x : Engine) (f : Fld) (i j : Nat) : (s.setEngine e x).on f i j = s.on f i j := rfl
theorem State.engine_setEngine (e : Nat) (x : Engine) (k' : Nat) : (s.setEngine e x).engine k' = if k' = e then x else s.engine k' := Tab.get_put
@[simp] theorem State.engine_setEngine_same (e : Nat) (x : Engine) : (s.setEngine e x).engine e = x := Tab.get_put_same

/-! ### setGate -/

@[simp] theorem State.setGate_pending (g : Nat) (x : Gate) : (s.setGate g x).pending = s.pending := rfl
@[simp] theorem State.setGate_now (g : Nat) (x : Gate) : (s.setGate g x).now = s.now := rfl
@[simp] theorem State.setGate_freeCtr (g : Nat) (x : Gate) : (s.setGate g x).freeCtr = s.freeCtr := rfl
@[simp] theorem State.setGate_fused8816 (g : Nat) (x : Gate) : (s.setGate g x).fused8816 = s.fused8816 := rfl
@[simp] theorem State.setGate_regs (g : Nat) (x : Gate) : (s.setGate g x).regs = s.regs := rfl
@[simp] theorem State.setGate_latch (g : Nat) (x : Gate) : (s.setGate g x).latch = s.latch := rfl
@[simp] theorem State.setGate_flt (g : Nat) (x : Gate) : (s.setGate g x).flt = s.flt := rfl
@[simp] theorem State.setGate_eng (g : Nat) (x : Gate) : (s.setGate g x).eng = s.eng := rfl
@[simp] theorem State.setGate_engines (g : Nat) (x : Gate) : (s.setGate g x).engines = s.engines := rfl
@[simp] theorem State.setGate_pchan (g : Nat) (x : Gate) : (s.setGate g x).pchan = s.pchan := rfl
@[simp] theorem State.setGate_tchan (g : Nat) (x : Gate) : (s.setGate g x).tchan = s.tchan := rfl
@[simp] theorem State.setGate_spr (g : Nat) (x : Gate) : (s.setGate g x).spr = s.spr := rfl
@[simp] theorem State.setGate_groups (g : Nat) (x : Gate) : (s.setGate g x).groups = s.groups := rfl
@[simp] theorem State.setGate_liveB (g : Nat) (x : Gate) : (s.setGate g x).liveB = s.liveB := rfl
@[simp] theorem State.setGate_prf (g : Nat) (x : Gate) : (s.setGate g x).prf = s.prf := rfl
@[simp] theorem State.setGate_host (g : Nat) (x : Gate) : (s.setGate g x).host = s.host := rfl
@[simp] theorem State.setGate_tarn (g : Nat) (x : Gate) : (s.setGate g x).tarn = s.tarn := rfl
@[simp] theorem State.setGate_tb (g : Nat) (x : Gate) : (s.setGate g x).tb = s.tb := rfl
@[simp] theorem State.setGate_enc (g : Nat) (x : Gate) : (s.setGate g x).enc = s.enc := rfl
@[simp] theorem State.setGate_str (g : Nat) (x : Gate) : (s.setGate g x).str = s.str := rfl
@[simp] theorem State.setGate_eth (g : Nat) (x : Gate) : (s.setGate g x).eth = s.eth := rfl
@[simp] theorem State.setGate_fline (g : Nat) (x : Gate) : (s.setGate g x).fline = s.fline := rfl
@[simp] theorem State.setGate_job (g : Nat) (x : Gate) : (s.setGate g x).job = s.job := rfl
@[simp] theorem State.setGate_fire (g : Nat) (x : Gate) : (s.setGate g x).fire = s.fire := rfl
@[simp] theorem State.setGate_ports (g : Nat) (x : Gate) : (s.setGate g x).ports = s.ports := rfl
@[simp] theorem State.setGate_segs (g : Nat) (x : Gate) : (s.setGate g x).segs = s.segs := rfl
@[simp] theorem State.setGate_cams (g : Nat) (x : Gate) : (s.setGate g x).cams = s.cams := rfl
@[simp] theorem State.setGate_col (g : Nat) (x : Gate) : (s.setGate g x).col = s.col := rfl
@[simp] theorem State.setGate_ing (g : Nat) (x : Gate) : (s.setGate g x).ing = s.ing := rfl
@[simp] theorem State.setGate_pipes (g : Nat) (x : Gate) : (s.setGate g x).pipes = s.pipes := rfl
@[simp] theorem State.setGate_dmc (g : Nat) (x : Gate) : (s.setGate g x).dmc = s.dmc := rfl
@[simp] theorem State.setGate_sec (g : Nat) (x : Gate) : (s.setGate g x).sec = s.sec := rfl
@[simp] theorem State.setGate_sens (g : Nat) (x : Gate) : (s.setGate g x).sens = s.sens := rfl
@[simp] theorem State.setGate_xing (g : Nat) (x : Gate) : (s.setGate g x).xing = s.xing := rfl
@[simp] theorem State.setGate_pwr (g : Nat) (x : Gate) : (s.setGate g x).pwr = s.pwr := rfl
@[simp] theorem State.setGate_cBase (g : Nat) (x : Gate) : (s.setGate g x).cBase = s.cBase := rfl
@[simp] theorem State.setGate_rd (g : Nat) (x : Gate) (o : Nat) : (s.setGate g x).rd o = s.rd o := rfl
@[simp] theorem State.setGate_get (g : Nat) (x : Gate) (f : Fld) (i j : Nat) : (s.setGate g x).get f i j = s.get f i j := rfl
@[simp] theorem State.setGate_on (g : Nat) (x : Gate) (f : Fld) (i j : Nat) : (s.setGate g x).on f i j = s.on f i j := rfl
theorem State.gate_setGate (g : Nat) (x : Gate) (k' : Nat) : (s.setGate g x).gate k' = if k' = g then x else s.gate k' := Tab.get_put
@[simp] theorem State.gate_setGate_same (g : Nat) (x : Gate) : (s.setGate g x).gate g = x := Tab.get_put_same

/-! ### setGroup -/

@[simp] theorem State.setGroup_pending (g : Nat) (x : Group) : (s.setGroup g x).pending = s.pending := rfl
@[simp] theorem State.setGroup_now (g : Nat) (x : Group) : (s.setGroup g x).now = s.now := rfl
@[simp] theorem State.setGroup_freeCtr (g : Nat) (x : Group) : (s.setGroup g x).freeCtr = s.freeCtr := rfl
@[simp] theorem State.setGroup_fused8816 (g : Nat) (x : Group) : (s.setGroup g x).fused8816 = s.fused8816 := rfl
@[simp] theorem State.setGroup_regs (g : Nat) (x : Group) : (s.setGroup g x).regs = s.regs := rfl
@[simp] theorem State.setGroup_latch (g : Nat) (x : Group) : (s.setGroup g x).latch = s.latch := rfl
@[simp] theorem State.setGroup_flt (g : Nat) (x : Group) : (s.setGroup g x).flt = s.flt := rfl
@[simp] theorem State.setGroup_eng (g : Nat) (x : Group) : (s.setGroup g x).eng = s.eng := rfl
@[simp] theorem State.setGroup_engines (g : Nat) (x : Group) : (s.setGroup g x).engines = s.engines := rfl
@[simp] theorem State.setGroup_gates (g : Nat) (x : Group) : (s.setGroup g x).gates = s.gates := rfl
@[simp] theorem State.setGroup_pchan (g : Nat) (x : Group) : (s.setGroup g x).pchan = s.pchan := rfl
@[simp] theorem State.setGroup_tchan (g : Nat) (x : Group) : (s.setGroup g x).tchan = s.tchan := rfl
@[simp] theorem State.setGroup_spr (g : Nat) (x : Group) : (s.setGroup g x).spr = s.spr := rfl
@[simp] theorem State.setGroup_liveB (g : Nat) (x : Group) : (s.setGroup g x).liveB = s.liveB := rfl
@[simp] theorem State.setGroup_prf (g : Nat) (x : Group) : (s.setGroup g x).prf = s.prf := rfl
@[simp] theorem State.setGroup_host (g : Nat) (x : Group) : (s.setGroup g x).host = s.host := rfl
@[simp] theorem State.setGroup_tarn (g : Nat) (x : Group) : (s.setGroup g x).tarn = s.tarn := rfl
@[simp] theorem State.setGroup_tb (g : Nat) (x : Group) : (s.setGroup g x).tb = s.tb := rfl
@[simp] theorem State.setGroup_enc (g : Nat) (x : Group) : (s.setGroup g x).enc = s.enc := rfl
@[simp] theorem State.setGroup_str (g : Nat) (x : Group) : (s.setGroup g x).str = s.str := rfl
@[simp] theorem State.setGroup_eth (g : Nat) (x : Group) : (s.setGroup g x).eth = s.eth := rfl
@[simp] theorem State.setGroup_fline (g : Nat) (x : Group) : (s.setGroup g x).fline = s.fline := rfl
@[simp] theorem State.setGroup_job (g : Nat) (x : Group) : (s.setGroup g x).job = s.job := rfl
@[simp] theorem State.setGroup_fire (g : Nat) (x : Group) : (s.setGroup g x).fire = s.fire := rfl
@[simp] theorem State.setGroup_ports (g : Nat) (x : Group) : (s.setGroup g x).ports = s.ports := rfl
@[simp] theorem State.setGroup_segs (g : Nat) (x : Group) : (s.setGroup g x).segs = s.segs := rfl
@[simp] theorem State.setGroup_cams (g : Nat) (x : Group) : (s.setGroup g x).cams = s.cams := rfl
@[simp] theorem State.setGroup_col (g : Nat) (x : Group) : (s.setGroup g x).col = s.col := rfl
@[simp] theorem State.setGroup_ing (g : Nat) (x : Group) : (s.setGroup g x).ing = s.ing := rfl
@[simp] theorem State.setGroup_pipes (g : Nat) (x : Group) : (s.setGroup g x).pipes = s.pipes := rfl
@[simp] theorem State.setGroup_dmc (g : Nat) (x : Group) : (s.setGroup g x).dmc = s.dmc := rfl
@[simp] theorem State.setGroup_sec (g : Nat) (x : Group) : (s.setGroup g x).sec = s.sec := rfl
@[simp] theorem State.setGroup_sens (g : Nat) (x : Group) : (s.setGroup g x).sens = s.sens := rfl
@[simp] theorem State.setGroup_xing (g : Nat) (x : Group) : (s.setGroup g x).xing = s.xing := rfl
@[simp] theorem State.setGroup_pwr (g : Nat) (x : Group) : (s.setGroup g x).pwr = s.pwr := rfl
@[simp] theorem State.setGroup_cBase (g : Nat) (x : Group) : (s.setGroup g x).cBase = s.cBase := rfl
@[simp] theorem State.setGroup_rd (g : Nat) (x : Group) (o : Nat) : (s.setGroup g x).rd o = s.rd o := rfl
@[simp] theorem State.setGroup_get (g : Nat) (x : Group) (f : Fld) (i j : Nat) : (s.setGroup g x).get f i j = s.get f i j := rfl
@[simp] theorem State.setGroup_on (g : Nat) (x : Group) (f : Fld) (i j : Nat) : (s.setGroup g x).on f i j = s.on f i j := rfl
theorem State.group_setGroup (g : Nat) (x : Group) (k' : Nat) : (s.setGroup g x).group k' = if k' = g then x else s.group k' := Tab.get_put
@[simp] theorem State.group_setGroup_same (g : Nat) (x : Group) : (s.setGroup g x).group g = x := Tab.get_put_same

/-! ### setEncoder -/

@[simp] theorem State.setEncoder_pending (k : Nat) (x : Encoder) : (s.setEncoder k x).pending = s.pending := rfl
@[simp] theorem State.setEncoder_now (k : Nat) (x : Encoder) : (s.setEncoder k x).now = s.now := rfl
@[simp] theorem State.setEncoder_freeCtr (k : Nat) (x : Encoder) : (s.setEncoder k x).freeCtr = s.freeCtr := rfl
@[simp] theorem State.setEncoder_fused8816 (k : Nat) (x : Encoder) : (s.setEncoder k x).fused8816 = s.fused8816 := rfl
@[simp] theorem State.setEncoder_regs (k : Nat) (x : Encoder) : (s.setEncoder k x).regs = s.regs := rfl
@[simp] theorem State.setEncoder_latch (k : Nat) (x : Encoder) : (s.setEncoder k x).latch = s.latch := rfl
@[simp] theorem State.setEncoder_flt (k : Nat) (x : Encoder) : (s.setEncoder k x).flt = s.flt := rfl
@[simp] theorem State.setEncoder_eng (k : Nat) (x : Encoder) : (s.setEncoder k x).eng = s.eng := rfl
@[simp] theorem State.setEncoder_engines (k : Nat) (x : Encoder) : (s.setEncoder k x).engines = s.engines := rfl
@[simp] theorem State.setEncoder_gates (k : Nat) (x : Encoder) : (s.setEncoder k x).gates = s.gates := rfl
@[simp] theorem State.setEncoder_pchan (k : Nat) (x : Encoder) : (s.setEncoder k x).pchan = s.pchan := rfl
@[simp] theorem State.setEncoder_tchan (k : Nat) (x : Encoder) : (s.setEncoder k x).tchan = s.tchan := rfl
@[simp] theorem State.setEncoder_spr (k : Nat) (x : Encoder) : (s.setEncoder k x).spr = s.spr := rfl
@[simp] theorem State.setEncoder_groups (k : Nat) (x : Encoder) : (s.setEncoder k x).groups = s.groups := rfl
@[simp] theorem State.setEncoder_liveB (k : Nat) (x : Encoder) : (s.setEncoder k x).liveB = s.liveB := rfl
@[simp] theorem State.setEncoder_prf (k : Nat) (x : Encoder) : (s.setEncoder k x).prf = s.prf := rfl
@[simp] theorem State.setEncoder_host (k : Nat) (x : Encoder) : (s.setEncoder k x).host = s.host := rfl
@[simp] theorem State.setEncoder_tarn (k : Nat) (x : Encoder) : (s.setEncoder k x).tarn = s.tarn := rfl
@[simp] theorem State.setEncoder_tb (k : Nat) (x : Encoder) : (s.setEncoder k x).tb = s.tb := rfl
@[simp] theorem State.setEncoder_str (k : Nat) (x : Encoder) : (s.setEncoder k x).str = s.str := rfl
@[simp] theorem State.setEncoder_eth (k : Nat) (x : Encoder) : (s.setEncoder k x).eth = s.eth := rfl
@[simp] theorem State.setEncoder_fline (k : Nat) (x : Encoder) : (s.setEncoder k x).fline = s.fline := rfl
@[simp] theorem State.setEncoder_job (k : Nat) (x : Encoder) : (s.setEncoder k x).job = s.job := rfl
@[simp] theorem State.setEncoder_fire (k : Nat) (x : Encoder) : (s.setEncoder k x).fire = s.fire := rfl
@[simp] theorem State.setEncoder_ports (k : Nat) (x : Encoder) : (s.setEncoder k x).ports = s.ports := rfl
@[simp] theorem State.setEncoder_segs (k : Nat) (x : Encoder) : (s.setEncoder k x).segs = s.segs := rfl
@[simp] theorem State.setEncoder_cams (k : Nat) (x : Encoder) : (s.setEncoder k x).cams = s.cams := rfl
@[simp] theorem State.setEncoder_col (k : Nat) (x : Encoder) : (s.setEncoder k x).col = s.col := rfl
@[simp] theorem State.setEncoder_ing (k : Nat) (x : Encoder) : (s.setEncoder k x).ing = s.ing := rfl
@[simp] theorem State.setEncoder_pipes (k : Nat) (x : Encoder) : (s.setEncoder k x).pipes = s.pipes := rfl
@[simp] theorem State.setEncoder_dmc (k : Nat) (x : Encoder) : (s.setEncoder k x).dmc = s.dmc := rfl
@[simp] theorem State.setEncoder_sec (k : Nat) (x : Encoder) : (s.setEncoder k x).sec = s.sec := rfl
@[simp] theorem State.setEncoder_sens (k : Nat) (x : Encoder) : (s.setEncoder k x).sens = s.sens := rfl
@[simp] theorem State.setEncoder_xing (k : Nat) (x : Encoder) : (s.setEncoder k x).xing = s.xing := rfl
@[simp] theorem State.setEncoder_pwr (k : Nat) (x : Encoder) : (s.setEncoder k x).pwr = s.pwr := rfl
@[simp] theorem State.setEncoder_cBase (k : Nat) (x : Encoder) : (s.setEncoder k x).cBase = s.cBase := rfl
@[simp] theorem State.setEncoder_rd (k : Nat) (x : Encoder) (o : Nat) : (s.setEncoder k x).rd o = s.rd o := rfl
@[simp] theorem State.setEncoder_get (k : Nat) (x : Encoder) (f : Fld) (i j : Nat) : (s.setEncoder k x).get f i j = s.get f i j := rfl
@[simp] theorem State.setEncoder_on (k : Nat) (x : Encoder) (f : Fld) (i j : Nat) : (s.setEncoder k x).on f i j = s.on f i j := rfl
theorem State.encoder_setEncoder (k : Nat) (x : Encoder) (k' : Nat) : (s.setEncoder k x).encoder k' = if k' = k then x else s.encoder k' := Tab.get_put
@[simp] theorem State.encoder_setEncoder_same (k : Nat) (x : Encoder) : (s.setEncoder k x).encoder k = x := Tab.get_put_same

/-! ### setPchan -/

@[simp] theorem State.setPchan_pending (k : Nat) (x : Chan) : (s.setPchan k x).pending = s.pending := rfl
@[simp] theorem State.setPchan_now (k : Nat) (x : Chan) : (s.setPchan k x).now = s.now := rfl
@[simp] theorem State.setPchan_freeCtr (k : Nat) (x : Chan) : (s.setPchan k x).freeCtr = s.freeCtr := rfl
@[simp] theorem State.setPchan_fused8816 (k : Nat) (x : Chan) : (s.setPchan k x).fused8816 = s.fused8816 := rfl
@[simp] theorem State.setPchan_regs (k : Nat) (x : Chan) : (s.setPchan k x).regs = s.regs := rfl
@[simp] theorem State.setPchan_latch (k : Nat) (x : Chan) : (s.setPchan k x).latch = s.latch := rfl
@[simp] theorem State.setPchan_flt (k : Nat) (x : Chan) : (s.setPchan k x).flt = s.flt := rfl
@[simp] theorem State.setPchan_eng (k : Nat) (x : Chan) : (s.setPchan k x).eng = s.eng := rfl
@[simp] theorem State.setPchan_engines (k : Nat) (x : Chan) : (s.setPchan k x).engines = s.engines := rfl
@[simp] theorem State.setPchan_gates (k : Nat) (x : Chan) : (s.setPchan k x).gates = s.gates := rfl
@[simp] theorem State.setPchan_tchan (k : Nat) (x : Chan) : (s.setPchan k x).tchan = s.tchan := rfl
@[simp] theorem State.setPchan_spr (k : Nat) (x : Chan) : (s.setPchan k x).spr = s.spr := rfl
@[simp] theorem State.setPchan_groups (k : Nat) (x : Chan) : (s.setPchan k x).groups = s.groups := rfl
@[simp] theorem State.setPchan_liveB (k : Nat) (x : Chan) : (s.setPchan k x).liveB = s.liveB := rfl
@[simp] theorem State.setPchan_prf (k : Nat) (x : Chan) : (s.setPchan k x).prf = s.prf := rfl
@[simp] theorem State.setPchan_host (k : Nat) (x : Chan) : (s.setPchan k x).host = s.host := rfl
@[simp] theorem State.setPchan_tarn (k : Nat) (x : Chan) : (s.setPchan k x).tarn = s.tarn := rfl
@[simp] theorem State.setPchan_tb (k : Nat) (x : Chan) : (s.setPchan k x).tb = s.tb := rfl
@[simp] theorem State.setPchan_enc (k : Nat) (x : Chan) : (s.setPchan k x).enc = s.enc := rfl
@[simp] theorem State.setPchan_str (k : Nat) (x : Chan) : (s.setPchan k x).str = s.str := rfl
@[simp] theorem State.setPchan_eth (k : Nat) (x : Chan) : (s.setPchan k x).eth = s.eth := rfl
@[simp] theorem State.setPchan_fline (k : Nat) (x : Chan) : (s.setPchan k x).fline = s.fline := rfl
@[simp] theorem State.setPchan_job (k : Nat) (x : Chan) : (s.setPchan k x).job = s.job := rfl
@[simp] theorem State.setPchan_fire (k : Nat) (x : Chan) : (s.setPchan k x).fire = s.fire := rfl
@[simp] theorem State.setPchan_ports (k : Nat) (x : Chan) : (s.setPchan k x).ports = s.ports := rfl
@[simp] theorem State.setPchan_segs (k : Nat) (x : Chan) : (s.setPchan k x).segs = s.segs := rfl
@[simp] theorem State.setPchan_cams (k : Nat) (x : Chan) : (s.setPchan k x).cams = s.cams := rfl
@[simp] theorem State.setPchan_col (k : Nat) (x : Chan) : (s.setPchan k x).col = s.col := rfl
@[simp] theorem State.setPchan_ing (k : Nat) (x : Chan) : (s.setPchan k x).ing = s.ing := rfl
@[simp] theorem State.setPchan_pipes (k : Nat) (x : Chan) : (s.setPchan k x).pipes = s.pipes := rfl
@[simp] theorem State.setPchan_dmc (k : Nat) (x : Chan) : (s.setPchan k x).dmc = s.dmc := rfl
@[simp] theorem State.setPchan_sec (k : Nat) (x : Chan) : (s.setPchan k x).sec = s.sec := rfl
@[simp] theorem State.setPchan_sens (k : Nat) (x : Chan) : (s.setPchan k x).sens = s.sens := rfl
@[simp] theorem State.setPchan_xing (k : Nat) (x : Chan) : (s.setPchan k x).xing = s.xing := rfl
@[simp] theorem State.setPchan_pwr (k : Nat) (x : Chan) : (s.setPchan k x).pwr = s.pwr := rfl
@[simp] theorem State.setPchan_cBase (k : Nat) (x : Chan) : (s.setPchan k x).cBase = s.cBase := rfl
@[simp] theorem State.setPchan_rd (k : Nat) (x : Chan) (o : Nat) : (s.setPchan k x).rd o = s.rd o := rfl
@[simp] theorem State.setPchan_get (k : Nat) (x : Chan) (f : Fld) (i j : Nat) : (s.setPchan k x).get f i j = s.get f i j := rfl
@[simp] theorem State.setPchan_on (k : Nat) (x : Chan) (f : Fld) (i j : Nat) : (s.setPchan k x).on f i j = s.on f i j := rfl
theorem State.pchanOf_setPchan (k : Nat) (x : Chan) (k' : Nat) : (s.setPchan k x).pchanOf k' = if k' = k then x else s.pchanOf k' := Tab.get_put
@[simp] theorem State.pchanOf_setPchan_same (k : Nat) (x : Chan) : (s.setPchan k x).pchanOf k = x := Tab.get_put_same

/-! ### setTchan -/

@[simp] theorem State.setTchan_pending (k : Nat) (x : Chan) : (s.setTchan k x).pending = s.pending := rfl
@[simp] theorem State.setTchan_now (k : Nat) (x : Chan) : (s.setTchan k x).now = s.now := rfl
@[simp] theorem State.setTchan_freeCtr (k : Nat) (x : Chan) : (s.setTchan k x).freeCtr = s.freeCtr := rfl
@[simp] theorem State.setTchan_fused8816 (k : Nat) (x : Chan) : (s.setTchan k x).fused8816 = s.fused8816 := rfl
@[simp] theorem State.setTchan_regs (k : Nat) (x : Chan) : (s.setTchan k x).regs = s.regs := rfl
@[simp] theorem State.setTchan_latch (k : Nat) (x : Chan) : (s.setTchan k x).latch = s.latch := rfl
@[simp] theorem State.setTchan_flt (k : Nat) (x : Chan) : (s.setTchan k x).flt = s.flt := rfl
@[simp] theorem State.setTchan_eng (k : Nat) (x : Chan) : (s.setTchan k x).eng = s.eng := rfl
@[simp] theorem State.setTchan_engines (k : Nat) (x : Chan) : (s.setTchan k x).engines = s.engines := rfl
@[simp] theorem State.setTchan_gates (k : Nat) (x : Chan) : (s.setTchan k x).gates = s.gates := rfl
@[simp] theorem State.setTchan_pchan (k : Nat) (x : Chan) : (s.setTchan k x).pchan = s.pchan := rfl
@[simp] theorem State.setTchan_spr (k : Nat) (x : Chan) : (s.setTchan k x).spr = s.spr := rfl
@[simp] theorem State.setTchan_groups (k : Nat) (x : Chan) : (s.setTchan k x).groups = s.groups := rfl
@[simp] theorem State.setTchan_liveB (k : Nat) (x : Chan) : (s.setTchan k x).liveB = s.liveB := rfl
@[simp] theorem State.setTchan_prf (k : Nat) (x : Chan) : (s.setTchan k x).prf = s.prf := rfl
@[simp] theorem State.setTchan_host (k : Nat) (x : Chan) : (s.setTchan k x).host = s.host := rfl
@[simp] theorem State.setTchan_tarn (k : Nat) (x : Chan) : (s.setTchan k x).tarn = s.tarn := rfl
@[simp] theorem State.setTchan_tb (k : Nat) (x : Chan) : (s.setTchan k x).tb = s.tb := rfl
@[simp] theorem State.setTchan_enc (k : Nat) (x : Chan) : (s.setTchan k x).enc = s.enc := rfl
@[simp] theorem State.setTchan_str (k : Nat) (x : Chan) : (s.setTchan k x).str = s.str := rfl
@[simp] theorem State.setTchan_eth (k : Nat) (x : Chan) : (s.setTchan k x).eth = s.eth := rfl
@[simp] theorem State.setTchan_fline (k : Nat) (x : Chan) : (s.setTchan k x).fline = s.fline := rfl
@[simp] theorem State.setTchan_job (k : Nat) (x : Chan) : (s.setTchan k x).job = s.job := rfl
@[simp] theorem State.setTchan_fire (k : Nat) (x : Chan) : (s.setTchan k x).fire = s.fire := rfl
@[simp] theorem State.setTchan_ports (k : Nat) (x : Chan) : (s.setTchan k x).ports = s.ports := rfl
@[simp] theorem State.setTchan_segs (k : Nat) (x : Chan) : (s.setTchan k x).segs = s.segs := rfl
@[simp] theorem State.setTchan_cams (k : Nat) (x : Chan) : (s.setTchan k x).cams = s.cams := rfl
@[simp] theorem State.setTchan_col (k : Nat) (x : Chan) : (s.setTchan k x).col = s.col := rfl
@[simp] theorem State.setTchan_ing (k : Nat) (x : Chan) : (s.setTchan k x).ing = s.ing := rfl
@[simp] theorem State.setTchan_pipes (k : Nat) (x : Chan) : (s.setTchan k x).pipes = s.pipes := rfl
@[simp] theorem State.setTchan_dmc (k : Nat) (x : Chan) : (s.setTchan k x).dmc = s.dmc := rfl
@[simp] theorem State.setTchan_sec (k : Nat) (x : Chan) : (s.setTchan k x).sec = s.sec := rfl
@[simp] theorem State.setTchan_sens (k : Nat) (x : Chan) : (s.setTchan k x).sens = s.sens := rfl
@[simp] theorem State.setTchan_xing (k : Nat) (x : Chan) : (s.setTchan k x).xing = s.xing := rfl
@[simp] theorem State.setTchan_pwr (k : Nat) (x : Chan) : (s.setTchan k x).pwr = s.pwr := rfl
@[simp] theorem State.setTchan_cBase (k : Nat) (x : Chan) : (s.setTchan k x).cBase = s.cBase := rfl
@[simp] theorem State.setTchan_rd (k : Nat) (x : Chan) (o : Nat) : (s.setTchan k x).rd o = s.rd o := rfl
@[simp] theorem State.setTchan_get (k : Nat) (x : Chan) (f : Fld) (i j : Nat) : (s.setTchan k x).get f i j = s.get f i j := rfl
@[simp] theorem State.setTchan_on (k : Nat) (x : Chan) (f : Fld) (i j : Nat) : (s.setTchan k x).on f i j = s.on f i j := rfl
theorem State.tchanOf_setTchan (k : Nat) (x : Chan) (k' : Nat) : (s.setTchan k x).tchanOf k' = if k' = k then x else s.tchanOf k' := Tab.get_put
@[simp] theorem State.tchanOf_setTchan_same (k : Nat) (x : Chan) : (s.setTchan k x).tchanOf k = x := Tab.get_put_same

/-! ### setFireBar -/

@[simp] theorem State.setFireBar_pending (b : Nat) (x : FireBar) : (s.setFireBar b x).pending = s.pending := rfl
@[simp] theorem State.setFireBar_now (b : Nat) (x : FireBar) : (s.setFireBar b x).now = s.now := rfl
@[simp] theorem State.setFireBar_freeCtr (b : Nat) (x : FireBar) : (s.setFireBar b x).freeCtr = s.freeCtr := rfl
@[simp] theorem State.setFireBar_fused8816 (b : Nat) (x : FireBar) : (s.setFireBar b x).fused8816 = s.fused8816 := rfl
@[simp] theorem State.setFireBar_regs (b : Nat) (x : FireBar) : (s.setFireBar b x).regs = s.regs := rfl
@[simp] theorem State.setFireBar_latch (b : Nat) (x : FireBar) : (s.setFireBar b x).latch = s.latch := rfl
@[simp] theorem State.setFireBar_flt (b : Nat) (x : FireBar) : (s.setFireBar b x).flt = s.flt := rfl
@[simp] theorem State.setFireBar_eng (b : Nat) (x : FireBar) : (s.setFireBar b x).eng = s.eng := rfl
@[simp] theorem State.setFireBar_engines (b : Nat) (x : FireBar) : (s.setFireBar b x).engines = s.engines := rfl
@[simp] theorem State.setFireBar_gates (b : Nat) (x : FireBar) : (s.setFireBar b x).gates = s.gates := rfl
@[simp] theorem State.setFireBar_pchan (b : Nat) (x : FireBar) : (s.setFireBar b x).pchan = s.pchan := rfl
@[simp] theorem State.setFireBar_tchan (b : Nat) (x : FireBar) : (s.setFireBar b x).tchan = s.tchan := rfl
@[simp] theorem State.setFireBar_spr (b : Nat) (x : FireBar) : (s.setFireBar b x).spr = s.spr := rfl
@[simp] theorem State.setFireBar_groups (b : Nat) (x : FireBar) : (s.setFireBar b x).groups = s.groups := rfl
@[simp] theorem State.setFireBar_liveB (b : Nat) (x : FireBar) : (s.setFireBar b x).liveB = s.liveB := rfl
@[simp] theorem State.setFireBar_prf (b : Nat) (x : FireBar) : (s.setFireBar b x).prf = s.prf := rfl
@[simp] theorem State.setFireBar_host (b : Nat) (x : FireBar) : (s.setFireBar b x).host = s.host := rfl
@[simp] theorem State.setFireBar_tarn (b : Nat) (x : FireBar) : (s.setFireBar b x).tarn = s.tarn := rfl
@[simp] theorem State.setFireBar_tb (b : Nat) (x : FireBar) : (s.setFireBar b x).tb = s.tb := rfl
@[simp] theorem State.setFireBar_enc (b : Nat) (x : FireBar) : (s.setFireBar b x).enc = s.enc := rfl
@[simp] theorem State.setFireBar_str (b : Nat) (x : FireBar) : (s.setFireBar b x).str = s.str := rfl
@[simp] theorem State.setFireBar_eth (b : Nat) (x : FireBar) : (s.setFireBar b x).eth = s.eth := rfl
@[simp] theorem State.setFireBar_fline (b : Nat) (x : FireBar) : (s.setFireBar b x).fline = s.fline := rfl
@[simp] theorem State.setFireBar_job (b : Nat) (x : FireBar) : (s.setFireBar b x).job = s.job := rfl
@[simp] theorem State.setFireBar_ports (b : Nat) (x : FireBar) : (s.setFireBar b x).ports = s.ports := rfl
@[simp] theorem State.setFireBar_segs (b : Nat) (x : FireBar) : (s.setFireBar b x).segs = s.segs := rfl
@[simp] theorem State.setFireBar_cams (b : Nat) (x : FireBar) : (s.setFireBar b x).cams = s.cams := rfl
@[simp] theorem State.setFireBar_col (b : Nat) (x : FireBar) : (s.setFireBar b x).col = s.col := rfl
@[simp] theorem State.setFireBar_ing (b : Nat) (x : FireBar) : (s.setFireBar b x).ing = s.ing := rfl
@[simp] theorem State.setFireBar_pipes (b : Nat) (x : FireBar) : (s.setFireBar b x).pipes = s.pipes := rfl
@[simp] theorem State.setFireBar_dmc (b : Nat) (x : FireBar) : (s.setFireBar b x).dmc = s.dmc := rfl
@[simp] theorem State.setFireBar_sec (b : Nat) (x : FireBar) : (s.setFireBar b x).sec = s.sec := rfl
@[simp] theorem State.setFireBar_sens (b : Nat) (x : FireBar) : (s.setFireBar b x).sens = s.sens := rfl
@[simp] theorem State.setFireBar_xing (b : Nat) (x : FireBar) : (s.setFireBar b x).xing = s.xing := rfl
@[simp] theorem State.setFireBar_pwr (b : Nat) (x : FireBar) : (s.setFireBar b x).pwr = s.pwr := rfl
@[simp] theorem State.setFireBar_cBase (b : Nat) (x : FireBar) : (s.setFireBar b x).cBase = s.cBase := rfl
@[simp] theorem State.setFireBar_rd (b : Nat) (x : FireBar) (o : Nat) : (s.setFireBar b x).rd o = s.rd o := rfl
@[simp] theorem State.setFireBar_get (b : Nat) (x : FireBar) (f : Fld) (i j : Nat) : (s.setFireBar b x).get f i j = s.get f i j := rfl
@[simp] theorem State.setFireBar_on (b : Nat) (x : FireBar) (f : Fld) (i j : Nat) : (s.setFireBar b x).on f i j = s.on f i j := rfl
theorem State.fireBar_setFireBar (b : Nat) (x : FireBar) (k' : Nat) : (s.setFireBar b x).fireBar k' = if k' = b then x else s.fireBar k' := Tab.get_put
@[simp] theorem State.fireBar_setFireBar_same (b : Nat) (x : FireBar) : (s.setFireBar b x).fireBar b = x := Tab.get_put_same

/-! ### setPort -/

@[simp] theorem State.setPort_pending (p : Nat) (x : Port) : (s.setPort p x).pending = s.pending := rfl
@[simp] theorem State.setPort_now (p : Nat) (x : Port) : (s.setPort p x).now = s.now := rfl
@[simp] theorem State.setPort_freeCtr (p : Nat) (x : Port) : (s.setPort p x).freeCtr = s.freeCtr := rfl
@[simp] theorem State.setPort_fused8816 (p : Nat) (x : Port) : (s.setPort p x).fused8816 = s.fused8816 := rfl
@[simp] theorem State.setPort_regs (p : Nat) (x : Port) : (s.setPort p x).regs = s.regs := rfl
@[simp] theorem State.setPort_latch (p : Nat) (x : Port) : (s.setPort p x).latch = s.latch := rfl
@[simp] theorem State.setPort_flt (p : Nat) (x : Port) : (s.setPort p x).flt = s.flt := rfl
@[simp] theorem State.setPort_eng (p : Nat) (x : Port) : (s.setPort p x).eng = s.eng := rfl
@[simp] theorem State.setPort_engines (p : Nat) (x : Port) : (s.setPort p x).engines = s.engines := rfl
@[simp] theorem State.setPort_gates (p : Nat) (x : Port) : (s.setPort p x).gates = s.gates := rfl
@[simp] theorem State.setPort_pchan (p : Nat) (x : Port) : (s.setPort p x).pchan = s.pchan := rfl
@[simp] theorem State.setPort_tchan (p : Nat) (x : Port) : (s.setPort p x).tchan = s.tchan := rfl
@[simp] theorem State.setPort_spr (p : Nat) (x : Port) : (s.setPort p x).spr = s.spr := rfl
@[simp] theorem State.setPort_groups (p : Nat) (x : Port) : (s.setPort p x).groups = s.groups := rfl
@[simp] theorem State.setPort_liveB (p : Nat) (x : Port) : (s.setPort p x).liveB = s.liveB := rfl
@[simp] theorem State.setPort_prf (p : Nat) (x : Port) : (s.setPort p x).prf = s.prf := rfl
@[simp] theorem State.setPort_host (p : Nat) (x : Port) : (s.setPort p x).host = s.host := rfl
@[simp] theorem State.setPort_tarn (p : Nat) (x : Port) : (s.setPort p x).tarn = s.tarn := rfl
@[simp] theorem State.setPort_tb (p : Nat) (x : Port) : (s.setPort p x).tb = s.tb := rfl
@[simp] theorem State.setPort_enc (p : Nat) (x : Port) : (s.setPort p x).enc = s.enc := rfl
@[simp] theorem State.setPort_str (p : Nat) (x : Port) : (s.setPort p x).str = s.str := rfl
@[simp] theorem State.setPort_eth (p : Nat) (x : Port) : (s.setPort p x).eth = s.eth := rfl
@[simp] theorem State.setPort_fline (p : Nat) (x : Port) : (s.setPort p x).fline = s.fline := rfl
@[simp] theorem State.setPort_job (p : Nat) (x : Port) : (s.setPort p x).job = s.job := rfl
@[simp] theorem State.setPort_fire (p : Nat) (x : Port) : (s.setPort p x).fire = s.fire := rfl
@[simp] theorem State.setPort_segs (p : Nat) (x : Port) : (s.setPort p x).segs = s.segs := rfl
@[simp] theorem State.setPort_cams (p : Nat) (x : Port) : (s.setPort p x).cams = s.cams := rfl
@[simp] theorem State.setPort_col (p : Nat) (x : Port) : (s.setPort p x).col = s.col := rfl
@[simp] theorem State.setPort_ing (p : Nat) (x : Port) : (s.setPort p x).ing = s.ing := rfl
@[simp] theorem State.setPort_pipes (p : Nat) (x : Port) : (s.setPort p x).pipes = s.pipes := rfl
@[simp] theorem State.setPort_dmc (p : Nat) (x : Port) : (s.setPort p x).dmc = s.dmc := rfl
@[simp] theorem State.setPort_sec (p : Nat) (x : Port) : (s.setPort p x).sec = s.sec := rfl
@[simp] theorem State.setPort_sens (p : Nat) (x : Port) : (s.setPort p x).sens = s.sens := rfl
@[simp] theorem State.setPort_xing (p : Nat) (x : Port) : (s.setPort p x).xing = s.xing := rfl
@[simp] theorem State.setPort_pwr (p : Nat) (x : Port) : (s.setPort p x).pwr = s.pwr := rfl
@[simp] theorem State.setPort_cBase (p : Nat) (x : Port) : (s.setPort p x).cBase = s.cBase := rfl
@[simp] theorem State.setPort_rd (p : Nat) (x : Port) (o : Nat) : (s.setPort p x).rd o = s.rd o := rfl
@[simp] theorem State.setPort_get (p : Nat) (x : Port) (f : Fld) (i j : Nat) : (s.setPort p x).get f i j = s.get f i j := rfl
@[simp] theorem State.setPort_on (p : Nat) (x : Port) (f : Fld) (i j : Nat) : (s.setPort p x).on f i j = s.on f i j := rfl
theorem State.port_setPort (p : Nat) (x : Port) (k' : Nat) : (s.setPort p x).port k' = if k' = p then x else s.port k' := Tab.get_put
@[simp] theorem State.port_setPort_same (p : Nat) (x : Port) : (s.setPort p x).port p = x := Tab.get_put_same

/-! ### setSeg -/

@[simp] theorem State.setSeg_pending (q : Nat) (x : Seg) : (s.setSeg q x).pending = s.pending := rfl
@[simp] theorem State.setSeg_now (q : Nat) (x : Seg) : (s.setSeg q x).now = s.now := rfl
@[simp] theorem State.setSeg_freeCtr (q : Nat) (x : Seg) : (s.setSeg q x).freeCtr = s.freeCtr := rfl
@[simp] theorem State.setSeg_fused8816 (q : Nat) (x : Seg) : (s.setSeg q x).fused8816 = s.fused8816 := rfl
@[simp] theorem State.setSeg_regs (q : Nat) (x : Seg) : (s.setSeg q x).regs = s.regs := rfl
@[simp] theorem State.setSeg_latch (q : Nat) (x : Seg) : (s.setSeg q x).latch = s.latch := rfl
@[simp] theorem State.setSeg_flt (q : Nat) (x : Seg) : (s.setSeg q x).flt = s.flt := rfl
@[simp] theorem State.setSeg_eng (q : Nat) (x : Seg) : (s.setSeg q x).eng = s.eng := rfl
@[simp] theorem State.setSeg_engines (q : Nat) (x : Seg) : (s.setSeg q x).engines = s.engines := rfl
@[simp] theorem State.setSeg_gates (q : Nat) (x : Seg) : (s.setSeg q x).gates = s.gates := rfl
@[simp] theorem State.setSeg_pchan (q : Nat) (x : Seg) : (s.setSeg q x).pchan = s.pchan := rfl
@[simp] theorem State.setSeg_tchan (q : Nat) (x : Seg) : (s.setSeg q x).tchan = s.tchan := rfl
@[simp] theorem State.setSeg_spr (q : Nat) (x : Seg) : (s.setSeg q x).spr = s.spr := rfl
@[simp] theorem State.setSeg_groups (q : Nat) (x : Seg) : (s.setSeg q x).groups = s.groups := rfl
@[simp] theorem State.setSeg_liveB (q : Nat) (x : Seg) : (s.setSeg q x).liveB = s.liveB := rfl
@[simp] theorem State.setSeg_prf (q : Nat) (x : Seg) : (s.setSeg q x).prf = s.prf := rfl
@[simp] theorem State.setSeg_host (q : Nat) (x : Seg) : (s.setSeg q x).host = s.host := rfl
@[simp] theorem State.setSeg_tarn (q : Nat) (x : Seg) : (s.setSeg q x).tarn = s.tarn := rfl
@[simp] theorem State.setSeg_tb (q : Nat) (x : Seg) : (s.setSeg q x).tb = s.tb := rfl
@[simp] theorem State.setSeg_enc (q : Nat) (x : Seg) : (s.setSeg q x).enc = s.enc := rfl
@[simp] theorem State.setSeg_str (q : Nat) (x : Seg) : (s.setSeg q x).str = s.str := rfl
@[simp] theorem State.setSeg_eth (q : Nat) (x : Seg) : (s.setSeg q x).eth = s.eth := rfl
@[simp] theorem State.setSeg_fline (q : Nat) (x : Seg) : (s.setSeg q x).fline = s.fline := rfl
@[simp] theorem State.setSeg_job (q : Nat) (x : Seg) : (s.setSeg q x).job = s.job := rfl
@[simp] theorem State.setSeg_fire (q : Nat) (x : Seg) : (s.setSeg q x).fire = s.fire := rfl
@[simp] theorem State.setSeg_ports (q : Nat) (x : Seg) : (s.setSeg q x).ports = s.ports := rfl
@[simp] theorem State.setSeg_cams (q : Nat) (x : Seg) : (s.setSeg q x).cams = s.cams := rfl
@[simp] theorem State.setSeg_col (q : Nat) (x : Seg) : (s.setSeg q x).col = s.col := rfl
@[simp] theorem State.setSeg_ing (q : Nat) (x : Seg) : (s.setSeg q x).ing = s.ing := rfl
@[simp] theorem State.setSeg_pipes (q : Nat) (x : Seg) : (s.setSeg q x).pipes = s.pipes := rfl
@[simp] theorem State.setSeg_dmc (q : Nat) (x : Seg) : (s.setSeg q x).dmc = s.dmc := rfl
@[simp] theorem State.setSeg_sec (q : Nat) (x : Seg) : (s.setSeg q x).sec = s.sec := rfl
@[simp] theorem State.setSeg_sens (q : Nat) (x : Seg) : (s.setSeg q x).sens = s.sens := rfl
@[simp] theorem State.setSeg_xing (q : Nat) (x : Seg) : (s.setSeg q x).xing = s.xing := rfl
@[simp] theorem State.setSeg_pwr (q : Nat) (x : Seg) : (s.setSeg q x).pwr = s.pwr := rfl
@[simp] theorem State.setSeg_cBase (q : Nat) (x : Seg) : (s.setSeg q x).cBase = s.cBase := rfl
@[simp] theorem State.setSeg_rd (q : Nat) (x : Seg) (o : Nat) : (s.setSeg q x).rd o = s.rd o := rfl
@[simp] theorem State.setSeg_get (q : Nat) (x : Seg) (f : Fld) (i j : Nat) : (s.setSeg q x).get f i j = s.get f i j := rfl
@[simp] theorem State.setSeg_on (q : Nat) (x : Seg) (f : Fld) (i j : Nat) : (s.setSeg q x).on f i j = s.on f i j := rfl
theorem State.seg_setSeg (q : Nat) (x : Seg) (k' : Nat) : (s.setSeg q x).seg k' = if k' = q then x else s.seg k' := Tab.get_put
@[simp] theorem State.seg_setSeg_same (q : Nat) (x : Seg) : (s.setSeg q x).seg q = x := Tab.get_put_same

/-! ### setChan -/

@[simp] theorem State.setChan_pending (c : Nat) (x : DramChan) : (s.setChan c x).pending = s.pending := rfl
@[simp] theorem State.setChan_now (c : Nat) (x : DramChan) : (s.setChan c x).now = s.now := rfl
@[simp] theorem State.setChan_freeCtr (c : Nat) (x : DramChan) : (s.setChan c x).freeCtr = s.freeCtr := rfl
@[simp] theorem State.setChan_fused8816 (c : Nat) (x : DramChan) : (s.setChan c x).fused8816 = s.fused8816 := rfl
@[simp] theorem State.setChan_regs (c : Nat) (x : DramChan) : (s.setChan c x).regs = s.regs := rfl
@[simp] theorem State.setChan_latch (c : Nat) (x : DramChan) : (s.setChan c x).latch = s.latch := rfl
@[simp] theorem State.setChan_flt (c : Nat) (x : DramChan) : (s.setChan c x).flt = s.flt := rfl
@[simp] theorem State.setChan_eng (c : Nat) (x : DramChan) : (s.setChan c x).eng = s.eng := rfl
@[simp] theorem State.setChan_engines (c : Nat) (x : DramChan) : (s.setChan c x).engines = s.engines := rfl
@[simp] theorem State.setChan_gates (c : Nat) (x : DramChan) : (s.setChan c x).gates = s.gates := rfl
@[simp] theorem State.setChan_pchan (c : Nat) (x : DramChan) : (s.setChan c x).pchan = s.pchan := rfl
@[simp] theorem State.setChan_tchan (c : Nat) (x : DramChan) : (s.setChan c x).tchan = s.tchan := rfl
@[simp] theorem State.setChan_spr (c : Nat) (x : DramChan) : (s.setChan c x).spr = s.spr := rfl
@[simp] theorem State.setChan_groups (c : Nat) (x : DramChan) : (s.setChan c x).groups = s.groups := rfl
@[simp] theorem State.setChan_liveB (c : Nat) (x : DramChan) : (s.setChan c x).liveB = s.liveB := rfl
@[simp] theorem State.setChan_prf (c : Nat) (x : DramChan) : (s.setChan c x).prf = s.prf := rfl
@[simp] theorem State.setChan_host (c : Nat) (x : DramChan) : (s.setChan c x).host = s.host := rfl
@[simp] theorem State.setChan_tarn (c : Nat) (x : DramChan) : (s.setChan c x).tarn = s.tarn := rfl
@[simp] theorem State.setChan_tb (c : Nat) (x : DramChan) : (s.setChan c x).tb = s.tb := rfl
@[simp] theorem State.setChan_enc (c : Nat) (x : DramChan) : (s.setChan c x).enc = s.enc := rfl
@[simp] theorem State.setChan_str (c : Nat) (x : DramChan) : (s.setChan c x).str = s.str := rfl
@[simp] theorem State.setChan_eth (c : Nat) (x : DramChan) : (s.setChan c x).eth = s.eth := rfl
@[simp] theorem State.setChan_fline (c : Nat) (x : DramChan) : (s.setChan c x).fline = s.fline := rfl
@[simp] theorem State.setChan_job (c : Nat) (x : DramChan) : (s.setChan c x).job = s.job := rfl
@[simp] theorem State.setChan_fire (c : Nat) (x : DramChan) : (s.setChan c x).fire = s.fire := rfl
@[simp] theorem State.setChan_ports (c : Nat) (x : DramChan) : (s.setChan c x).ports = s.ports := rfl
@[simp] theorem State.setChan_segs (c : Nat) (x : DramChan) : (s.setChan c x).segs = s.segs := rfl
@[simp] theorem State.setChan_cams (c : Nat) (x : DramChan) : (s.setChan c x).cams = s.cams := rfl
@[simp] theorem State.setChan_col (c : Nat) (x : DramChan) : (s.setChan c x).col = s.col := rfl
@[simp] theorem State.setChan_ing (c : Nat) (x : DramChan) : (s.setChan c x).ing = s.ing := rfl
@[simp] theorem State.setChan_pipes (c : Nat) (x : DramChan) : (s.setChan c x).pipes = s.pipes := rfl
@[simp] theorem State.setChan_sec (c : Nat) (x : DramChan) : (s.setChan c x).sec = s.sec := rfl
@[simp] theorem State.setChan_sens (c : Nat) (x : DramChan) : (s.setChan c x).sens = s.sens := rfl
@[simp] theorem State.setChan_xing (c : Nat) (x : DramChan) : (s.setChan c x).xing = s.xing := rfl
@[simp] theorem State.setChan_pwr (c : Nat) (x : DramChan) : (s.setChan c x).pwr = s.pwr := rfl
@[simp] theorem State.setChan_cBase (c : Nat) (x : DramChan) : (s.setChan c x).cBase = s.cBase := rfl
@[simp] theorem State.setChan_rd (c : Nat) (x : DramChan) (o : Nat) : (s.setChan c x).rd o = s.rd o := rfl
@[simp] theorem State.setChan_get (c : Nat) (x : DramChan) (f : Fld) (i j : Nat) : (s.setChan c x).get f i j = s.get f i j := rfl
@[simp] theorem State.setChan_on (c : Nat) (x : DramChan) (f : Fld) (i j : Nat) : (s.setChan c x).on f i j = s.on f i j := rfl
theorem State.chan_setChan (c : Nat) (x : DramChan) (k' : Nat) : (s.setChan c x).chan k' = if k' = c then x else s.chan k' := Tab.get_put
@[simp] theorem State.chan_setChan_same (c : Nat) (x : DramChan) : (s.setChan c x).chan c = x := Tab.get_put_same

/-! ### setCam -/

@[simp] theorem State.setCam_pending (k : Nat) (x : Cam) : (s.setCam k x).pending = s.pending := rfl
@[simp] theorem State.setCam_now (k : Nat) (x : Cam) : (s.setCam k x).now = s.now := rfl
@[simp] theorem State.setCam_freeCtr (k : Nat) (x : Cam) : (s.setCam k x).freeCtr = s.freeCtr := rfl
@[simp] theorem State.setCam_fused8816 (k : Nat) (x : Cam) : (s.setCam k x).fused8816 = s.fused8816 := rfl
@[simp] theorem State.setCam_regs (k : Nat) (x : Cam) : (s.setCam k x).regs = s.regs := rfl
@[simp] theorem State.setCam_latch (k : Nat) (x : Cam) : (s.setCam k x).latch = s.latch := rfl
@[simp] theorem State.setCam_flt (k : Nat) (x : Cam) : (s.setCam k x).flt = s.flt := rfl
@[simp] theorem State.setCam_eng (k : Nat) (x : Cam) : (s.setCam k x).eng = s.eng := rfl
@[simp] theorem State.setCam_engines (k : Nat) (x : Cam) : (s.setCam k x).engines = s.engines := rfl
@[simp] theorem State.setCam_gates (k : Nat) (x : Cam) : (s.setCam k x).gates = s.gates := rfl
@[simp] theorem State.setCam_pchan (k : Nat) (x : Cam) : (s.setCam k x).pchan = s.pchan := rfl
@[simp] theorem State.setCam_tchan (k : Nat) (x : Cam) : (s.setCam k x).tchan = s.tchan := rfl
@[simp] theorem State.setCam_spr (k : Nat) (x : Cam) : (s.setCam k x).spr = s.spr := rfl
@[simp] theorem State.setCam_groups (k : Nat) (x : Cam) : (s.setCam k x).groups = s.groups := rfl
@[simp] theorem State.setCam_liveB (k : Nat) (x : Cam) : (s.setCam k x).liveB = s.liveB := rfl
@[simp] theorem State.setCam_prf (k : Nat) (x : Cam) : (s.setCam k x).prf = s.prf := rfl
@[simp] theorem State.setCam_host (k : Nat) (x : Cam) : (s.setCam k x).host = s.host := rfl
@[simp] theorem State.setCam_tarn (k : Nat) (x : Cam) : (s.setCam k x).tarn = s.tarn := rfl
@[simp] theorem State.setCam_tb (k : Nat) (x : Cam) : (s.setCam k x).tb = s.tb := rfl
@[simp] theorem State.setCam_enc (k : Nat) (x : Cam) : (s.setCam k x).enc = s.enc := rfl
@[simp] theorem State.setCam_str (k : Nat) (x : Cam) : (s.setCam k x).str = s.str := rfl
@[simp] theorem State.setCam_eth (k : Nat) (x : Cam) : (s.setCam k x).eth = s.eth := rfl
@[simp] theorem State.setCam_fline (k : Nat) (x : Cam) : (s.setCam k x).fline = s.fline := rfl
@[simp] theorem State.setCam_job (k : Nat) (x : Cam) : (s.setCam k x).job = s.job := rfl
@[simp] theorem State.setCam_fire (k : Nat) (x : Cam) : (s.setCam k x).fire = s.fire := rfl
@[simp] theorem State.setCam_ports (k : Nat) (x : Cam) : (s.setCam k x).ports = s.ports := rfl
@[simp] theorem State.setCam_segs (k : Nat) (x : Cam) : (s.setCam k x).segs = s.segs := rfl
@[simp] theorem State.setCam_col (k : Nat) (x : Cam) : (s.setCam k x).col = s.col := rfl
@[simp] theorem State.setCam_ing (k : Nat) (x : Cam) : (s.setCam k x).ing = s.ing := rfl
@[simp] theorem State.setCam_pipes (k : Nat) (x : Cam) : (s.setCam k x).pipes = s.pipes := rfl
@[simp] theorem State.setCam_dmc (k : Nat) (x : Cam) : (s.setCam k x).dmc = s.dmc := rfl
@[simp] theorem State.setCam_sec (k : Nat) (x : Cam) : (s.setCam k x).sec = s.sec := rfl
@[simp] theorem State.setCam_sens (k : Nat) (x : Cam) : (s.setCam k x).sens = s.sens := rfl
@[simp] theorem State.setCam_xing (k : Nat) (x : Cam) : (s.setCam k x).xing = s.xing := rfl
@[simp] theorem State.setCam_pwr (k : Nat) (x : Cam) : (s.setCam k x).pwr = s.pwr := rfl
@[simp] theorem State.setCam_cBase (k : Nat) (x : Cam) : (s.setCam k x).cBase = s.cBase := rfl
@[simp] theorem State.setCam_rd (k : Nat) (x : Cam) (o : Nat) : (s.setCam k x).rd o = s.rd o := rfl
@[simp] theorem State.setCam_get (k : Nat) (x : Cam) (f : Fld) (i j : Nat) : (s.setCam k x).get f i j = s.get f i j := rfl
@[simp] theorem State.setCam_on (k : Nat) (x : Cam) (f : Fld) (i j : Nat) : (s.setCam k x).on f i j = s.on f i j := rfl
theorem State.cam_setCam (k : Nat) (x : Cam) (k' : Nat) : (s.setCam k x).cam k' = if k' = k then x else s.cam k' := Tab.get_put
@[simp] theorem State.cam_setCam_same (k : Nat) (x : Cam) : (s.setCam k x).cam k = x := Tab.get_put_same

/-! ### setPipe -/

@[simp] theorem State.setPipe_pending (b : Nat) (x : BarPipe) : (s.setPipe b x).pending = s.pending := rfl
@[simp] theorem State.setPipe_now (b : Nat) (x : BarPipe) : (s.setPipe b x).now = s.now := rfl
@[simp] theorem State.setPipe_freeCtr (b : Nat) (x : BarPipe) : (s.setPipe b x).freeCtr = s.freeCtr := rfl
@[simp] theorem State.setPipe_fused8816 (b : Nat) (x : BarPipe) : (s.setPipe b x).fused8816 = s.fused8816 := rfl
@[simp] theorem State.setPipe_regs (b : Nat) (x : BarPipe) : (s.setPipe b x).regs = s.regs := rfl
@[simp] theorem State.setPipe_latch (b : Nat) (x : BarPipe) : (s.setPipe b x).latch = s.latch := rfl
@[simp] theorem State.setPipe_flt (b : Nat) (x : BarPipe) : (s.setPipe b x).flt = s.flt := rfl
@[simp] theorem State.setPipe_eng (b : Nat) (x : BarPipe) : (s.setPipe b x).eng = s.eng := rfl
@[simp] theorem State.setPipe_engines (b : Nat) (x : BarPipe) : (s.setPipe b x).engines = s.engines := rfl
@[simp] theorem State.setPipe_gates (b : Nat) (x : BarPipe) : (s.setPipe b x).gates = s.gates := rfl
@[simp] theorem State.setPipe_pchan (b : Nat) (x : BarPipe) : (s.setPipe b x).pchan = s.pchan := rfl
@[simp] theorem State.setPipe_tchan (b : Nat) (x : BarPipe) : (s.setPipe b x).tchan = s.tchan := rfl
@[simp] theorem State.setPipe_spr (b : Nat) (x : BarPipe) : (s.setPipe b x).spr = s.spr := rfl
@[simp] theorem State.setPipe_groups (b : Nat) (x : BarPipe) : (s.setPipe b x).groups = s.groups := rfl
@[simp] theorem State.setPipe_liveB (b : Nat) (x : BarPipe) : (s.setPipe b x).liveB = s.liveB := rfl
@[simp] theorem State.setPipe_prf (b : Nat) (x : BarPipe) : (s.setPipe b x).prf = s.prf := rfl
@[simp] theorem State.setPipe_host (b : Nat) (x : BarPipe) : (s.setPipe b x).host = s.host := rfl
@[simp] theorem State.setPipe_tarn (b : Nat) (x : BarPipe) : (s.setPipe b x).tarn = s.tarn := rfl
@[simp] theorem State.setPipe_tb (b : Nat) (x : BarPipe) : (s.setPipe b x).tb = s.tb := rfl
@[simp] theorem State.setPipe_enc (b : Nat) (x : BarPipe) : (s.setPipe b x).enc = s.enc := rfl
@[simp] theorem State.setPipe_str (b : Nat) (x : BarPipe) : (s.setPipe b x).str = s.str := rfl
@[simp] theorem State.setPipe_eth (b : Nat) (x : BarPipe) : (s.setPipe b x).eth = s.eth := rfl
@[simp] theorem State.setPipe_fline (b : Nat) (x : BarPipe) : (s.setPipe b x).fline = s.fline := rfl
@[simp] theorem State.setPipe_job (b : Nat) (x : BarPipe) : (s.setPipe b x).job = s.job := rfl
@[simp] theorem State.setPipe_fire (b : Nat) (x : BarPipe) : (s.setPipe b x).fire = s.fire := rfl
@[simp] theorem State.setPipe_ports (b : Nat) (x : BarPipe) : (s.setPipe b x).ports = s.ports := rfl
@[simp] theorem State.setPipe_segs (b : Nat) (x : BarPipe) : (s.setPipe b x).segs = s.segs := rfl
@[simp] theorem State.setPipe_cams (b : Nat) (x : BarPipe) : (s.setPipe b x).cams = s.cams := rfl
@[simp] theorem State.setPipe_col (b : Nat) (x : BarPipe) : (s.setPipe b x).col = s.col := rfl
@[simp] theorem State.setPipe_ing (b : Nat) (x : BarPipe) : (s.setPipe b x).ing = s.ing := rfl
@[simp] theorem State.setPipe_dmc (b : Nat) (x : BarPipe) : (s.setPipe b x).dmc = s.dmc := rfl
@[simp] theorem State.setPipe_sec (b : Nat) (x : BarPipe) : (s.setPipe b x).sec = s.sec := rfl
@[simp] theorem State.setPipe_sens (b : Nat) (x : BarPipe) : (s.setPipe b x).sens = s.sens := rfl
@[simp] theorem State.setPipe_xing (b : Nat) (x : BarPipe) : (s.setPipe b x).xing = s.xing := rfl
@[simp] theorem State.setPipe_pwr (b : Nat) (x : BarPipe) : (s.setPipe b x).pwr = s.pwr := rfl
@[simp] theorem State.setPipe_cBase (b : Nat) (x : BarPipe) : (s.setPipe b x).cBase = s.cBase := rfl
@[simp] theorem State.setPipe_rd (b : Nat) (x : BarPipe) (o : Nat) : (s.setPipe b x).rd o = s.rd o := rfl
@[simp] theorem State.setPipe_get (b : Nat) (x : BarPipe) (f : Fld) (i j : Nat) : (s.setPipe b x).get f i j = s.get f i j := rfl
@[simp] theorem State.setPipe_on (b : Nat) (x : BarPipe) (f : Fld) (i j : Nat) : (s.setPipe b x).on f i j = s.on f i j := rfl
theorem State.pipe_setPipe (b : Nat) (x : BarPipe) (k' : Nat) : (s.setPipe b x).pipe k' = if k' = b then x else s.pipe k' := Tab.get_put
@[simp] theorem State.pipe_setPipe_same (b : Nat) (x : BarPipe) : (s.setPipe b x).pipe b = x := Tab.get_put_same

@[simp] theorem State.wr_engine (off : Nat) (v : Word) (k : Nat) : (s.wr off v).engine k = s.engine k := rfl
@[simp] theorem State.set_engine (f : Fld) (v i j k : Nat) : (s.set f v i j).engine k = s.engine k := rfl
@[simp] theorem State.wr_gate (off : Nat) (v : Word) (k : Nat) : (s.wr off v).gate k = s.gate k := rfl
@[simp] theorem State.set_gate (f : Fld) (v i j k : Nat) : (s.set f v i j).gate k = s.gate k := rfl
@[simp] theorem State.wr_group (off : Nat) (v : Word) (k : Nat) : (s.wr off v).group k = s.group k := rfl
@[simp] theorem State.set_group (f : Fld) (v i j k : Nat) : (s.set f v i j).group k = s.group k := rfl
@[simp] theorem State.wr_encoder (off : Nat) (v : Word) (k : Nat) : (s.wr off v).encoder k = s.encoder k := rfl
@[simp] theorem State.set_encoder (f : Fld) (v i j k : Nat) : (s.set f v i j).encoder k = s.encoder k := rfl
@[simp] theorem State.wr_pchanOf (off : Nat) (v : Word) (k : Nat) : (s.wr off v).pchanOf k = s.pchanOf k := rfl
@[simp] theorem State.set_pchanOf (f : Fld) (v i j k : Nat) : (s.set f v i j).pchanOf k = s.pchanOf k := rfl
@[simp] theorem State.wr_tchanOf (off : Nat) (v : Word) (k : Nat) : (s.wr off v).tchanOf k = s.tchanOf k := rfl
@[simp] theorem State.set_tchanOf (f : Fld) (v i j k : Nat) : (s.set f v i j).tchanOf k = s.tchanOf k := rfl
@[simp] theorem State.wr_fireBar (off : Nat) (v : Word) (k : Nat) : (s.wr off v).fireBar k = s.fireBar k := rfl
@[simp] theorem State.set_fireBar (f : Fld) (v i j k : Nat) : (s.set f v i j).fireBar k = s.fireBar k := rfl
@[simp] theorem State.wr_port (off : Nat) (v : Word) (k : Nat) : (s.wr off v).port k = s.port k := rfl
@[simp] theorem State.set_port (f : Fld) (v i j k : Nat) : (s.set f v i j).port k = s.port k := rfl
@[simp] theorem State.wr_seg (off : Nat) (v : Word) (k : Nat) : (s.wr off v).seg k = s.seg k := rfl
@[simp] theorem State.set_seg (f : Fld) (v i j k : Nat) : (s.set f v i j).seg k = s.seg k := rfl
@[simp] theorem State.wr_chan (off : Nat) (v : Word) (k : Nat) : (s.wr off v).chan k = s.chan k := rfl
@[simp] theorem State.set_chan (f : Fld) (v i j k : Nat) : (s.set f v i j).chan k = s.chan k := rfl
@[simp] theorem State.wr_cam (off : Nat) (v : Word) (k : Nat) : (s.wr off v).cam k = s.cam k := rfl
@[simp] theorem State.set_cam (f : Fld) (v i j k : Nat) : (s.set f v i j).cam k = s.cam k := rfl
@[simp] theorem State.wr_pipe (off : Nat) (v : Word) (k : Nat) : (s.wr off v).pipe k = s.pipe k := rfl
@[simp] theorem State.set_pipe (f : Fld) (v i j k : Nat) : (s.set f v i j).pipe k = s.pipe k := rfl

end Sys2Proof.Machine
end

