-- ==== Sys2Proof/Laws/Engine.lean ====
section
/-! SUPPORT. The frame of every engine instruction (R53, R54, R78): what execAt does in each of its cases. -/

set_option Elab.async false

namespace Sys2Proof.Machine

variable {s t : State} {e words : Nat} {word : Word} {guard : Engine → Bool} {legal : Bool} {body : State → State}

theorem State.execAt_idle (h : s.running e = false) : s.execAt e words word guard legal body = s := by
  simp [State.execAt, h]

theorem State.execAt_fetches (h : Fetches s e words t) : s.execAt e words word guard legal body =
    if !guard (t.engine e) then t.retire e (t.engine e) words
    else if !legal then t.trap e .illegal (word.setWidth 64) words else body t := by
  obtain ⟨h1, h2, h3, h4⟩ := h
  subst h4
  simp [State.execAt, h1, h3, Nat.not_lt.mpr h2]

/-- A true guard and a legal word: the body runs. -/
theorem State.execAt_body (h : Fetches s e words t) (hg : guard (t.engine e) = true) (hl : legal = true) :
    s.execAt e words word guard legal body = body t := by
  simp [State.execAt_fetches h, hg, hl]

/-- A false guard: one step without effect (R53). -/
theorem State.execAt_false (h : Fetches s e words t) (hg : guard (t.engine e) = false) :
    s.execAt e words word guard legal body = t.retire e (t.engine e) words := by
  simp [State.execAt_fetches h, hg]

/-- A word that is not legal traps ILLEGAL (R54). -/
theorem State.execAt_illegal (h : Fetches s e words t) (hg : guard (t.engine e) = true) (hl : legal = false) :
    s.execAt e words word guard legal body = t.trap e .illegal (word.setWidth 64) words := by
  simp [State.execAt_fetches h, hg, hl]

/-- A fetch with an uncorrectable byte traps UNCORR_FETCH (R360). -/
theorem State.execAt_uncorr (h1 : s.running e = true) (h2 : (s.engine e).pc.toNat + 4 * words ≤ localSize)
    (h3 : (s.fetch e words).bad = true) : s.execAt e words word guard legal body =
      (s.fetch e words).st.trap e .uncorrFetch ((((s.fetch e words).st).engine e).pc.setWidth 64) words := by
  simp [State.execAt, h1, h3, Nat.not_lt.mpr h2]

/-- A register write that takes effect. -/
theorem State.busWrite_reaches {off : Nat} {f : State → State} (h : Reaches s off) : s.busWrite off f = f s := by
  unfold State.busWrite
  rw [h.island, h.present]
  simp [h.alive]

end Sys2Proof.Machine
end

