-- ==== Sys2Proof/Laws/Fault.lean ====
section
/-! SUPPORT. DEV.STATE after a vector, a host event, a state change, Halted and Grave. -/

set_option Elab.async false

namespace Sys2Proof.Machine

/-- DEV.STATE keeps its value when another register's field is set. -/
theorem State.set_dev {s : State} {f : Fld} {v i j : Nat} (h : f.off i j ≠ 4) : (s.set f v i j).dev = s.dev :=
  State.get_set_off (Ne.symm h)

@[simp] theorem State.raiseVec_dev {s : State} {v : Nat} : (s.raiseVec v).dev = s.dev := by
  simp only [State.raiseVec]
  split
  · exact State.set_dev (by simp only [Fld.off, F.MSIX_PBA_PENDING]; omega)
  · rfl

@[simp] theorem State.hostEvent_dev {s : State} {c : Nat} {p : Word} : (s.hostEvent c p).dev = s.dev := by
  simp only [State.hostEvent]
  split
  · rfl
  · split <;> rfl

/-- DEV.STATE takes the state it is given. -/
theorem State.setDev_dev {s : State} {st : Nat} (h : st < 16) : (s.setDev st).dev = st := by
  simp only [State.setDev]
  split
  · assumption
  · rw [State.hostEvent_dev, State.raiseVec_dev, State.dev, State.get_set (by decide)]
    exact Nat.mod_eq_of_lt h

/-- Once a Device reaction has been taken, the device is in Halted or stays in Grave (R426). -/
theorem State.enterHalted_dev {s : State} : s.enterHalted.dev = stHalted ∨ s.enterHalted.dev = stGrave := by
  simp only [State.enterHalted]
  split
  · assumption
  · exact Or.inl (State.setDev_dev (by decide))

/-- Once a Grave reaction has been taken, the device is in Grave (R427). -/
theorem State.enterGrave_dev {s : State} {c : Nat} {a : Word} : (s.enterGrave c a).dev = stGrave := by
  simp only [State.enterGrave]
  split
  · assumption
  · exact State.setDev_dev (by decide)

end Sys2Proof.Machine
end

