-- ==== Sys2Proof/Laws/Flags.lean ====
section
/-! SUPPORT. The bits that a WAIT finds ready (R62). -/

set_option Elab.async false

namespace Sys2Proof.Machine

variable {s : State} {e : Nat} {mask : DWord}

theorem readyBits_lt (n : Nat) : readyBits s e mask n < 2 ^ n := by
  induction n with
  | zero => exact Nat.one_pos
  | succ n ih =>
    simp only [readyBits, Nat.pow_succ]
    split <;> omega

theorem readyBits_testBit (n i : Nat) : (readyBits s e mask n).testBit i =
    (decide (i < n) && (mask.getLsbD i && s.on F.ENG_EVROUTE_EN e i && decide (0 < s.get F.ENG_EVROUTE_COUNT e i))) := by
  induction n with
  | zero => simp [readyBits]
  | succ n ih =>
    have hlt := readyBits_lt (s := s) (e := e) (mask := mask) n
    by_cases hi : i = n
    · subst hi
      have hself : (readyBits s e mask i).testBit i = false := Nat.testBit_lt_two_pow hlt
      simp only [readyBits]
      split
      · rename_i hc
        rw [Nat.add_comm, Nat.testBit_two_pow_add_eq, hself]
        simp [hc]
      · rename_i hc
        rw [Nat.add_zero, hself]
        simp only [Bool.not_eq_true] at hc
        simp [hc]
    · have hstep : decide (i < n + 1) = decide (i < n) := by
        by_cases hl : i < n <;> simp [hl] <;> omega
      simp only [readyBits, hstep]
      split
      · rw [← ih]
        rcases Nat.lt_or_ge i n with h | h
        · rw [Nat.add_comm, Nat.testBit_two_pow_add_gt h]
        · have h1 : readyBits s e mask n + 2 ^ n < 2 ^ i :=
            Nat.lt_of_lt_of_le (by omega : readyBits s e mask n + 2 ^ n < 2 ^ (n + 1)) (Nat.pow_le_pow_right (by omega) (by omega))
          rw [Nat.testBit_lt_two_pow h1, Nat.testBit_lt_two_pow (by omega)]
      · rw [Nat.add_zero, ih]

end Sys2Proof.Machine
end

