-- ==== Sys2Proof/Laws/Keeps.lean ====
section
/-! SUPPORT. What every command keeps (Keeps): it is a preorder, and the shapes from which the operations are built keep it. -/

set_option Elab.async false

namespace Sys2Proof.Machine

theorem OtpGrows.refl (s : State) : OtpGrows s s :=
  ⟨fun _ _ h => h, fun _ h => h, fun _ => Nat.le_refl _, List.prefix_refl _⟩

theorem OtpGrows.trans {s t u : State} (a : OtpGrows s t) (b : OtpGrows t u) : OtpGrows s u :=
  ⟨fun g k h => b.groups g k (a.groups g k h), fun k h => b.revoked k (a.revoked k h),
   fun k => Nat.le_trans (a.svn k) (b.svn k), a.records.trans b.records⟩

theorem OtpGrows.of_eq {s t : State} (e : t.sec = s.sec) (f : t.sens = s.sens) : OtpGrows s t := by
  refine ⟨fun g k h => ?_, fun k h => ?_, fun k => ?_, ?_⟩
  · rwa [State.lcsGroup, e]
  · rwa [e]
  · rw [State.svnOf, State.svnOf, e]
  · rw [f]

theorem Keeps.refl (s : State) : Keeps s s := ⟨rfl, rfl, rfl, Nat.le_refl _, id, fun _ => OtpGrows.refl s⟩

theorem Keeps.trans {s t u : State} (a : Keeps s t) (b : Keeps t u) : Keeps s u :=
  ⟨b.pending.trans a.pending, b.fused.trans a.fused, b.now.trans a.now, Nat.le_trans a.free b.free,
   fun h => b.memory (a.memory h), fun h => (a.otp h).trans (b.otp (a.memory h))⟩

/-- A state with the same queue, part, time, free values, register file, memories and OTP as one that is kept. -/
theorem Keeps.upd {s0 t0 : State} (h : Keeps s0 t0)
    {latch_ : Tab (Option Word)} {flt_ : FltState} {eng_ : EngState} {engines_ : Tab Engine} {gates_ : Tab Gate}
    {pchan_ : Tab Chan} {tchan_ : Tab Chan} {spr_ : SprState} {groups_ : Tab Group} {liveB_ : Tab Bool} {prf_ : PrfState}
    {host_ : HostState} {tarn_ : TarnState} {tb_ : Tab TimeBase} {enc_ : Tab Encoder} {str_ : StretchState}
    {eth_ : EthState} {fline_ : Tab DWord} {job_ : JobState} {fire_ : Tab FireBar} {ports_ : Tab Port} {segs_ : Tab Seg}
    {cams_ : Tab Cam} {col_ : ColState} {ing_ : IngState} {pipes_ : Tab BarPipe} {dmc_ : DmcState} {sec_ : SecState}
    {sens_ : SensState} {xing_ : XingState} {pwr_ : PowerState} {cBase_ : Nat}
    (h1 : host_.mem = t0.host.mem := by rfl) (h2 : tarn_.data = t0.tarn.data := by rfl) (h3 : tarn_.chk = t0.tarn.chk := by rfl)
    (h4 : tarn_.valid = t0.tarn.valid := by rfl) (h5 : dmc_.data = t0.dmc.data := by rfl) (h6 : sec_.groups = t0.sec.groups := by rfl)
    (h7 : sec_.revoked = t0.sec.revoked := by rfl) (h8 : sec_.svn = t0.sec.svn := by rfl) (h9 : sens_.otp = t0.sens.otp := by rfl) :
    Keeps s0 (State.mk
      t0.pending t0.now t0.freeCtr t0.fused8816 t0.regs latch_ flt_ eng_ engines_ gates_ pchan_ tchan_ spr_ groups_
      liveB_ prf_ host_ tarn_ tb_ enc_ str_ eth_ fline_ job_ fire_ ports_ segs_ cams_ col_ ing_ pipes_ dmc_ sec_ sens_
      xing_ pwr_ cBase_) := by
  refine h.trans ⟨rfl, rfl, rfl, Nat.le_refl _, ?_, fun _ => ⟨?_, ?_, ?_, ?_⟩⟩
  · simp only [Memory.wf, h1, h2, h3, h4, h5, h6, h8]; exact id
  · intro g k; simp only [State.lcsGroup, h6]; exact id
  · intro k; simp only [h7]; exact id
  · intro k; simp only [State.svnOf, h8]; exact Nat.le_refl _
  · simp only [h9]; exact List.prefix_refl _

/-- What Keeps says of the result of an operation that may answer nothing. -/
def OptK {α : Type} (s0 : State) (f : α → State) (o : Option α) : Prop := ∀ t, o = some t → Keeps s0 (f t)

theorem OptK.none {α : Type} {s0 : State} {f : α → State} : OptK s0 f none := fun _ h => nomatch h

theorem OptK.some {α : Type} {s0 : State} {f : α → State} {x : α} (h : Keeps s0 (f x)) : OptK s0 f (some x) := by
  intro t e
  cases e
  exact h

theorem OptK.of {α : Type} {s0 : State} {f : α → State} {o : Option α} {x : α} (h : OptK s0 f o) (e : o = Option.some x) :
    Keeps s0 (f x) := h x e

theorem OptK.getD {s0 : State} {o : Option State} {d : State} (h : OptK s0 id o) (hd : Keeps s0 d) : Keeps s0 (o.getD d) := by
  cases o with
  | none => exact hd
  | some x => exact h x rfl

theorem keeps_ite {s0 a b : State} {c : Prop} [Decidable c] (ha : Keeps s0 a) (hb : Keeps s0 b) : Keeps s0 (if c then a else b) := by
  split
  · exact ha
  · exact hb

theorem keeps_cond {s0 a b : State} {c : Bool} (ha : Keeps s0 a) (hb : Keeps s0 b) : Keeps s0 (bif c then a else b) := by
  cases c
  · exact hb
  · exact ha

theorem foldl_keeps {α : Type} {s0 s : State} {f : State → α → State} {l : List α} (h : Keeps s0 s)
    (hf : ∀ t a, Keeps s0 t → Keeps s0 (f t a)) : Keeps s0 (l.foldl f s) := by
  induction l generalizing s with
  | nil => exact h
  | cons a l ih => exact ih (hf s a h)

/-- What Keeps says of the state inside a result. -/
def PK {α : Type} (s0 : State) (f : α → State) (x : α) : Prop := Keeps s0 (f x)

theorem PK.out {α : Type} {s0 : State} {f : α → State} {x : α} (h : PK s0 f x) : Keeps s0 (f x) := h

theorem PK.out2 {α : Type} {s0 : State} {x : α × State} (h : PK s0 (·.2) x) : Keeps s0 x.2 := h

theorem PK.of {α : Type} {s0 : State} {f : α → State} {o x : α} (h : PK s0 f o) (e : o = x) : Keeps s0 (f x) := e ▸ h

theorem PK.mk2 {α : Type} {s0 s : State} {a : α} (h : Keeps s0 s) : PK s0 (·.2) (a, s) := h

theorem PK.ite {α : Type} {s0 : State} {f : α → State} {a b : α} {c : Prop} [Decidable c] (ha : PK s0 f a) (hb : PK s0 f b) :
    PK s0 f (if c then a else b) := by
  split
  · exact ha
  · exact hb

theorem OptK.ite {α : Type} {s0 : State} {f : α → State} {a b : Option α} {c : Prop} [Decidable c] (ha : OptK s0 f a)
    (hb : OptK s0 f b) : OptK s0 f (if c then a else b) := by
  split
  · exact ha
  · exact hb

theorem foldl_keepsP {α β : Type} (p : β → State) {s0 : State} {x : β} {f : β → α → β} {l : List α} (h : PK s0 p x)
    (hf : ∀ y a, PK s0 p y → PK s0 p (f y a)) : PK s0 p (l.foldl f x) := by
  induction l generalizing x with
  | nil => exact h
  | cons a l ih => exact ih (hf x a h)

theorem foldl_keeps2 {α γ : Type} {s0 : State} {x : γ × State} {f : γ × State → α → γ × State} {l : List α}
    (h : PK s0 (·.2) x) (hf : ∀ y a, PK s0 (·.2) y → PK s0 (·.2) (f y a)) : PK s0 (·.2) (l.foldl f x) :=
  foldl_keepsP _ h hf

theorem Keeps.of {s0 o x : State} (h : Keeps s0 o) (e : o = x) : Keeps s0 x := e ▸ h

/-- The canonical form of the memories, one by one. -/
theorem Memory.wf_iff (s : State) : Memory.wf s = true ↔
    Tab.wf regReset s.regs = true ∧ Tab.wf (fun _ => 0) s.tarn.data = true ∧ Tab.wf (fun _ => 0) s.tarn.chk = true ∧
    Tab.wf (fun _ => false) s.tarn.valid = true ∧ Tab.wf (fun _ => 0) s.dmc.data = true ∧ Tab.wf (fun _ => 0) s.host.mem = true ∧
    Tab.wf (fun _ => 0) s.sec.groups = true ∧ Tab.wf (fun _ => 0) s.sec.svn = true := by
  simp [Memory.wf, and_assoc]

/-- A change of the register file that keeps its canonical form. -/
theorem Keeps.regs {s0 s : State} {r : Tab Word} (h : Keeps s0 s) (hr : Tab.wf regReset s.regs = true → Tab.wf regReset r = true) :
    Keeps s0 { s with regs := r } := by
  refine h.trans ⟨rfl, rfl, rfl, Nat.le_refl _, fun hm => ?_, fun _ => OtpGrows.of_eq rfl rfl⟩
  rw [Memory.wf_iff] at hm ⊢
  exact ⟨hr hm.1, hm.2⟩

theorem State.wr_keeps {s0 s : State} {off : Nat} {v : Word} (h : Keeps s0 s) : Keeps s0 (s.wr off v) :=
  h.regs Tab.put_wf

/-- A change of the protected memories that keeps their canonical forms. -/
theorem Keeps.tarn {s0 s : State} {x : TarnState} (h : Keeps s0 s)
    (hd : Tab.wf (fun _ => 0) s.tarn.data = true → Tab.wf (fun _ => 0) x.data = true)
    (hc : Tab.wf (fun _ => 0) s.tarn.chk = true → Tab.wf (fun _ => 0) x.chk = true)
    (hv : Tab.wf (fun _ => false) s.tarn.valid = true → Tab.wf (fun _ => false) x.valid = true) :
    Keeps s0 { s with tarn := x } := by
  refine h.trans ⟨rfl, rfl, rfl, Nat.le_refl _, fun hm => ?_, fun _ => OtpGrows.of_eq rfl rfl⟩
  rw [Memory.wf_iff] at hm ⊢
  obtain ⟨h1, h2, h3, h4, h5⟩ := hm
  exact ⟨h1, hd h2, hc h3, hv h4, h5⟩

/-- A change of DRAM that keeps its canonical form. -/
theorem Keeps.dram {s0 s : State} {x : DmcState} (h : Keeps s0 s)
    (hd : Tab.wf (fun _ => 0) s.dmc.data = true → Tab.wf (fun _ => 0) x.data = true) : Keeps s0 { s with dmc := x } := by
  refine h.trans ⟨rfl, rfl, rfl, Nat.le_refl _, fun hm => ?_, fun _ => OtpGrows.of_eq rfl rfl⟩
  rw [Memory.wf_iff] at hm ⊢
  obtain ⟨h1, h2, h3, h4, h5, h6⟩ := hm
  exact ⟨h1, h2, h3, h4, hd h5, h6⟩

/-- A change of what the device wrote to host memory that keeps its canonical form. -/
theorem Keeps.hostMem {s0 s : State} {x : HostState} (h : Keeps s0 s)
    (hd : Tab.wf (fun _ => 0) s.host.mem = true → Tab.wf (fun _ => 0) x.mem = true) : Keeps s0 { s with host := x } := by
  refine h.trans ⟨rfl, rfl, rfl, Nat.le_refl _, fun hm => ?_, fun _ => OtpGrows.of_eq rfl rfl⟩
  rw [Memory.wf_iff] at hm ⊢
  obtain ⟨h1, h2, h3, h4, h5, h6, h7⟩ := hm
  exact ⟨h1, h2, h3, h4, h5, hd h6, h7⟩

/-- A change of the sensors' state that adds shutdown records at the end. -/
theorem Keeps.sens {s0 s : State} {x : SensState} (h : Keeps s0 s) (hx : s.sens.otp <+: x.otp) : Keeps s0 { s with sens := x } :=
  h.trans ⟨rfl, rfl, rfl, Nat.le_refl _, fun hm => hm, fun _ => ⟨fun _ _ e => e, fun _ e => e, fun _ => Nat.le_refl _, hx⟩⟩

/-- A change of the security state that keeps its OTP words canonical and under which OTP only grows. -/
theorem Keeps.sec {s0 s : State} {x : SecState} (h : Keeps s0 s)
    (hg : Tab.wf (fun _ => 0) s.sec.groups = true → Tab.wf (fun _ => 0) x.groups = true)
    (hv : Tab.wf (fun _ => 0) s.sec.svn = true → Tab.wf (fun _ => 0) x.svn = true)
    (ho : Memory.wf s = true → OtpGrows s { s with sec := x }) : Keeps s0 { s with sec := x } := by
  refine h.trans ⟨rfl, rfl, rfl, Nat.le_refl _, fun hm => ?_, ho⟩
  rw [Memory.wf_iff] at hm ⊢
  obtain ⟨h1, h2, h3, h4, h5, h6, h7, h8⟩ := hm
  exact ⟨h1, h2, h3, h4, h5, h6, hg h7, hv h8⟩

end Sys2Proof.Machine
end

