-- ==== Sys2Proof/Laws/KeepsRegs.lean ====
section
/-! SUPPORT. What every operation and every command of Machine/Regs.lean keeps (Keeps). -/

set_option Elab.async false

namespace Sys2Proof.Machine

theorem State.set_keeps {s0 : State} {s : State} {f : Fld} {v : Nat} {i : Nat} {j : Nat} (h_1 : Keeps s0 s) : Keeps s0 (@State.set s f v i j) := by
  unfold State.set
  exact (State.wr_keeps h_1)

theorem State.bump_keeps {s0 : State} {s : State} {f : Fld} {n : Nat} {i : Nat} {j : Nat} (h_1 : Keeps s0 s) : Keeps s0 (@State.bump s f n i j) := by
  unfold State.bump
  exact (State.set_keeps h_1)

theorem State.set64_keeps {s0 : State} {s : State} {lo : Fld} {hi : Fld} {v : Nat} {i : Nat} (h_1 : Keeps s0 s) : Keeps s0 (@State.set64 s lo hi v i) := by
  unfold State.set64
  exact (State.set_keeps (State.set_keeps h_1))

theorem State.swWrite_keeps {s0 : State} {s : State} {off : Nat} {v : Word} (h_1 : Keeps s0 s) : Keeps s0 (@State.swWrite s off v) := by
  unfold State.swWrite
  split
  · exact h_1
  · exact (State.wr_keeps h_1)

end Sys2Proof.Machine
end

