-- ==== Sys2Proof/Laws/KeepsOps.lean ====
section
/-! SUPPORT. What every operation and every command of Machine/Ops.lean keeps (Keeps). -/

set_option Elab.async false

namespace Sys2Proof.Machine

theorem State.drawFree_keeps {s0 s : State} (h : Keeps s0 s) : PK s0 (·.2) s.drawFree :=
  h.trans ⟨rfl, rfl, rfl, Nat.le_succ _, id, fun _ => OtpGrows.of_eq rfl rfl⟩

theorem State.reportRep_keeps {s0 : State} {s : State} {code : Nat} {r : WaitRep} (h_1 : Keeps s0 s) : Keeps s0 (@State.reportRep s code r) := by
  unfold State.reportRep
  exact (Keeps.upd h_1)

theorem State.report_keeps {s0 : State} {s : State} {code : Nat} {arg : Word} {line : Option DWord} (h_1 : Keeps s0 s) : Keeps s0 (@State.report s code arg line) := by
  unfold State.report
  exact (State.reportRep_keeps h_1)

theorem State.reportLimited_keeps {s0 : State} {s : State} {code : Nat} {key : Nat} {period : Nat} {arg : Word} {line : Option DWord} (h_1 : Keeps s0 s) : Keeps s0 (@State.reportLimited s code key period arg line) := by
  unfold State.reportLimited
  extract_lets -merge +onlyGivenNames v1
  clear_value v1
  extract_lets -merge +onlyGivenNames v3
  clear_value v3
  apply keeps_ite
  · exact h_1
  · extract_lets -merge +onlyGivenNames u5 v6
    clear_value u5
    have h8 : Keeps s0 v6 := (Keeps.upd h_1)
    clear_value v6
    exact (State.report_keeps h8)

theorem State.clearLimit_keeps {s0 : State} {s : State} {code : Nat} {key : Nat} (h_1 : Keeps s0 s) : Keeps s0 (@State.clearLimit s code key) := by
  unfold State.clearLimit
  exact (Keeps.upd h_1)

theorem reportOverflows_keeps {s0 : State} {x0 : List Nat} {x1 : State} (h_1 : Keeps s0 x1) : Keeps s0 (@reportOverflows x0 x1) := by
  induction x0 generalizing x1 with
  | nil =>
    rw [reportOverflows.eq_1]
    exact h_1
  | cons a t ih =>
    rw [reportOverflows.eq_2]
    exact (ih (State.report_keeps h_1))

theorem State.postEvent_keeps {s0 s : State} {src : Nat} (h : Keeps s0 s) : Keeps s0 (s.postEvent src) :=
  reportOverflows_keeps (h.regs Tab.mapE_wf)

theorem State.raiseVec_keeps {s0 : State} {s : State} {v : Nat} (h_1 : Keeps s0 s) : Keeps s0 (@State.raiseVec s v) := by
  unfold State.raiseVec
  exact (keeps_ite (State.set_keeps h_1) (Keeps.upd h_1))

theorem State.completeRaw_keeps {s0 : State} {s : State} {m : Msg} {status : Nat} {r0 : Word} {r1 : Word} (h_1 : Keeps s0 s) : Keeps s0 (@State.completeRaw s m status r0 r1) := by
  unfold State.completeRaw
  extract_lets -merge +onlyGivenNames v1
  clear_value v1
  extract_lets -merge +onlyGivenNames v3
  clear_value v3
  exact (Keeps.upd h_1)

theorem State.complete_keeps {s0 : State} {s : State} {m : Msg} {st : Status} {r0 : Word} {r1 : Word} (h_1 : Keeps s0 s) : Keeps s0 (@State.complete s m st r0 r1) := by
  unfold State.complete
  exact (State.completeRaw_keeps h_1)

theorem State.hostEvent_keeps {s0 : State} {s : State} {code : Nat} {param : Word} (h_1 : Keeps s0 s) : Keeps s0 (@State.hostEvent s code param) := by
  unfold State.hostEvent
  split
  · extract_lets -merge +onlyGivenNames u4 v5
    have h7 : Keeps s0 v5 := (Keeps.upd h_1)
    clear_value v5
    exact (State.complete_keeps h7)
  · exact (keeps_ite (Keeps.upd h_1) (Keeps.upd h_1))

theorem State.setDev_keeps {s0 : State} {s : State} {st : Nat} (h_1 : Keeps s0 s) : Keeps s0 (@State.setDev s st) := by
  unfold State.setDev
  apply keeps_ite
  · exact h_1
  · extract_lets -merge +onlyGivenNames v1
    have h2 : Keeps s0 v1 := (State.set_keeps h_1)
    clear_value v1
    exact (State.hostEvent_keeps (State.raiseVec_keeps h2))

theorem State.noteStop_keeps {s0 : State} {s : State} {i : Nat} {crossing : Nat} (h_1 : Keeps s0 s) : Keeps s0 (@State.noteStop s i crossing) := by
  unfold State.noteStop
  exact (keeps_ite h_1 (State.report_keeps (Keeps.upd h_1)))

theorem State.busWrite_keeps {s0 : State} {s : State} {off : Nat} {f : State → State} (h_1 : Keeps s0 s) (h_2 : ∀ y1, Keeps s0 y1 → Keeps s0 (f y1)) : Keeps s0 (@State.busWrite s off f) := by
  unfold State.busWrite
  apply keeps_ite
  · exact h_1
  · split
    · exact (State.noteStop_keeps h_1)
    · exact (h_2 _ h_1)

theorem noteByte_keeps {s0 : State} {bar : Option Nat} {line : Option DWord} {k : Nat} {r : ByteRes} {s : State} (h_1 : Keeps s0 s) : Keeps s0 (@noteByte bar line k r s) := by
  unfold noteByte
  extract_lets -merge +onlyGivenNames v1
  clear_value v1
  extract_lets -merge +onlyGivenNames v3
  clear_value v3
  extract_lets -merge +onlyGivenNames v5
  have h6 : ∀ a7 a8 a9, Keeps s0 a7 → Keeps s0 (v5 a7 a8 a9) := (fun _ _ _ h10 => (State.wr_keeps h10))
  clear_value v5
  split
  · exact h_1
  · exact (State.reportLimited_keeps (h6 _ _ _ (State.bump_keeps h_1)))
  · exact (State.report_keeps (h6 _ _ _ (State.bump_keeps h_1)))

theorem noteAll_keeps {s0 : State} {bar : Option Nat} {line : Option DWord} {x2 : List (Nat × Byte × ByteRes)} {x3 : State} (h_1 : Keeps s0 x3) : Keeps s0 (@noteAll bar line x2 x3) := by
  induction x2 generalizing x3 with
  | nil =>
    rw [noteAll.eq_1]
    exact h_1
  | cons a t ih =>
    rw [noteAll.eq_2]
    exact (ih (noteByte_keeps h_1))

theorem State.readKeys_keeps {s0 : State} {s : State} {keys : List Nat} {bar : Option Nat} {line : Option DWord} (h_1 : Keeps s0 s) : PK s0 (·.st) (@State.readKeys s keys bar line) := by
  unfold State.readKeys
  extract_lets -merge +onlyGivenNames v1
  clear_value v1
  apply PK.ite
  · extract_lets -merge +onlyGivenNames v3
    clear_value v3
    extract_lets -merge +onlyGivenNames v5
    clear_value v5
    exact (State.set_keeps h_1)
  · extract_lets -merge +onlyGivenNames v7
    clear_value v7
    exact (noteAll_keeps h_1)

theorem State.clearLine_keeps {s0 s : State} {pk : Nat} (h : Keeps s0 s) : Keeps s0 (s.clearLine pk) := by
  unfold State.clearLine
  refine h.tarn ?_ ?_ ?_
  · exact fun w => Tab.drop_wf (p := fun k => k / 64 == pk / 64) w
  · exact fun w => Tab.drop_wf (p := fun k => k / 64 == pk / 64) w
  · exact fun w => Tab.put_wf w

theorem State.storeRaw_keeps {s0 s : State} {pk : Nat} {d : Byte} {x : BitVec 5} (h : Keeps s0 s) : Keeps s0 (s.storeRaw pk d x) :=
  h.tarn Tab.put_wf Tab.put_wf id

theorem State.writeKey_keeps {s0 : State} {s : State} {masked : Bool} {k : Nat} {d : Byte} (h_1 : Keeps s0 s) : Keeps s0 (@State.writeKey s masked k d) := by
  unfold State.writeKey
  extract_lets -merge +onlyGivenNames v1
  clear_value v1
  extract_lets -merge +onlyGivenNames v3
  clear_value v3
  extract_lets -merge +onlyGivenNames v5
  have h6 : Keeps s0 v5 := (keeps_ite h_1 (State.clearLine_keeps h_1))
  clear_value v5
  apply keeps_ite
  · extract_lets -merge +onlyGivenNames v7
    clear_value v7
    exact (State.storeRaw_keeps h6)
  · exact (State.storeRaw_keeps h6)

theorem State.writeKeys_keeps {s0 s : State} {masked : Bool} {ks : List Nat} {ds : List Byte} (h : Keeps s0 s) :
    Keeps s0 (s.writeKeys masked ks ds) := by
  induction ks generalizing s ds with
  | nil => cases ds <;> exact h
  | cons k ks ih =>
    cases ds with
    | nil => exact h
    | cons d ds => exact ih (State.writeKey_keeps h)

theorem State.readTarn_keeps {s0 : State} {s : State} {a : Nat} {n : Nat} {bar : Option Nat} {line : Option DWord} (h_1 : Keeps s0 s) : PK s0 (·.st) (@State.readTarn s a n bar line) := by
  unfold State.readTarn
  exact (State.readKeys_keeps h_1)

theorem State.readLocal_keeps {s0 : State} {s : State} {e : Nat} {a : Nat} {n : Nat} (h_1 : Keeps s0 s) : PK s0 (·.st) (@State.readLocal s e a n) := by
  unfold State.readLocal
  exact (State.readKeys_keeps h_1)

theorem State.writeTarn_keeps {s0 : State} {s : State} {a : Nat} {bs : List Byte} {masked : Bool} (h_1 : Keeps s0 s) : Keeps s0 (@State.writeTarn s a bs masked) := by
  unfold State.writeTarn
  exact (State.writeKeys_keeps h_1)

theorem State.writeLocal_keeps {s0 : State} {s : State} {e : Nat} {a : Nat} {bs : List Byte} {masked : Bool} (h_1 : Keeps s0 s) : Keeps s0 (@State.writeLocal s e a bs masked) := by
  unfold State.writeLocal
  exact (State.writeKeys_keeps h_1)

theorem State.writeTarnGuarded_keeps {s0 : State} {s : State} {a : Nat} {bs : List Byte} {masked : Bool} (h_1 : Keeps s0 s) : Keeps s0 (@State.writeTarnGuarded s a bs masked) := by
  unfold State.writeTarnGuarded
  exact (keeps_ite (State.report_keeps h_1) (State.writeTarn_keeps h_1))

theorem foldl_put_wf {α : Type} {d : Nat → Byte} {l : List α} {t : Tab Byte} {k : α → Nat} {v : α → Byte}
    (h : Tab.wf d t = true) : Tab.wf d (l.foldl (fun t e => Tab.put d t (k e) (v e)) t) = true := by
  induction l generalizing t with
  | nil => exact h
  | cons a l ih => exact ih (Tab.put_wf h)

theorem State.writeHost_keeps {s0 s : State} {a : Nat} {bs : List Byte} (h : Keeps s0 s) : Keeps s0 (s.writeHost a bs) :=
  h.hostMem foldl_put_wf

theorem State.setEngine_keeps {s0 : State} {s : State} {e : Nat} {x : Engine} (h_1 : Keeps s0 s) : Keeps s0 (@State.setEngine s e x) := by
  unfold State.setEngine
  exact (Keeps.upd h_1)

theorem State.setGate_keeps {s0 : State} {s : State} {g : Nat} {x : Gate} (h_1 : Keeps s0 s) : Keeps s0 (@State.setGate s g x) := by
  unfold State.setGate
  exact (Keeps.upd h_1)

theorem State.setGroup_keeps {s0 : State} {s : State} {g : Nat} {x : Group} (h_1 : Keeps s0 s) : Keeps s0 (@State.setGroup s g x) := by
  unfold State.setGroup
  exact (Keeps.upd h_1)

theorem State.setEstate_keeps {s0 : State} {s : State} {e : Nat} {st : Nat} (h_1 : Keeps s0 s) : Keeps s0 (@State.setEstate s e st) := by
  unfold State.setEstate
  exact (State.set_keeps h_1)

theorem State.triggerTake_keeps {s0 : State} {s : State} {r : Nat} (h_1 : Keeps s0 s) : Keeps s0 (@State.triggerTake s r) := by
  unfold State.triggerTake
  exact (keeps_ite h_1 (Keeps.upd h_1))

theorem triggerHeld_keeps {s0 : State} {e : Nat} {x1 : Nat} {x2 : State} (h_1 : Keeps s0 x2) : Keeps s0 (@triggerHeld e x1 x2) := by
  induction x1 generalizing x2 with
  | zero =>
    rw [triggerHeld.eq_1]
    exact h_1
  | succ n ih =>
    rw [triggerHeld.eq_2]
    exact (keeps_ite (State.triggerTake_keeps (ih h_1)) (ih h_1))

theorem State.stopEngine_keeps {s0 : State} {s : State} {e : Nat} {st : Nat} (h_1 : Keeps s0 s) : Keeps s0 (@State.stopEngine s e st) := by
  unfold State.stopEngine
  extract_lets -merge +onlyGivenNames v1
  have h2 : Keeps s0 v1 := (State.setEstate_keeps h_1)
  clear_value v1
  extract_lets -merge +onlyGivenNames v3
  have h4 : Keeps s0 v3 := by
    unfold v3
    split
    · exact (State.setGate_keeps h2)
    · exact h2
  clear_value v3
  extract_lets -merge +onlyGivenNames u10 v11
  clear_value u10
  have h13 : Keeps s0 v11 := (State.setEngine_keeps h4)
  clear_value v11
  exact (keeps_ite (triggerHeld_keeps h13) h13)

theorem State.setEncoder_keeps {s0 : State} {s : State} {k : Nat} {x : Encoder} (h_1 : Keeps s0 s) : Keeps s0 (@State.setEncoder s k x) := by
  unfold State.setEncoder
  exact (Keeps.upd h_1)

end Sys2Proof.Machine
end

