-- ==== Sys2Proof/Laws/KeepsPress.lean ====
section
/-! SUPPORT. What every operation and every command of Machine/Press.lean keeps (Keeps). -/

set_option Elab.async false

namespace Sys2Proof.Machine

theorem State.setFireBar_keeps {s0 : State} {s : State} {b : Nat} {x : FireBar} (h_1 : Keeps s0 s) : Keeps s0 (@State.setFireBar s b x) := by
  unfold State.setFireBar
  exact (Keeps.upd h_1)

theorem State.setPort_keeps {s0 : State} {s : State} {p : Nat} {x : Port} (h_1 : Keeps s0 s) : Keeps s0 (@State.setPort s p x) := by
  unfold State.setPort
  exact (Keeps.upd h_1)

theorem State.setSeg_keeps {s0 : State} {s : State} {sg : Nat} {x : Seg} (h_1 : Keeps s0 s) : Keeps s0 (@State.setSeg s sg x) := by
  unfold State.setSeg
  exact (Keeps.upd h_1)

theorem setLeads_keeps {s0 : State} {x0 : Nat} {x1 : State} (h_1 : Keeps s0 x1) : Keeps s0 (@setLeads x0 x1) := by
  induction x0 generalizing x1 with
  | zero =>
    rw [setLeads.eq_1]
    exact h_1
  | succ n ih =>
    rw [setLeads.eq_2]
    exact (State.set_keeps (ih h_1))

end Sys2Proof.Machine
end

