-- ==== Sys2Proof/Laws/KeepsAudit.lean ====
section
/-! SUPPORT. What every operation and every command of Machine/Audit.lean keeps (Keeps). -/

set_option Elab.async false

namespace Sys2Proof.Machine

theorem State.drawWords_keeps {s0 s : State} {n : Nat} (h : Keeps s0 s) : PK s0 (·.2) (s.drawWords n) := by
  induction n generalizing s with
  | zero => exact h
  | succ n ih => exact ih (State.drawFree_keeps h)

theorem State.drawBytes_keeps {s0 : State} {s : State} {n : Nat} (h_1 : Keeps s0 s) : PK s0 (·.2) (@State.drawBytes s n) := by
  unfold State.drawBytes
  split
  · rename_i w1 w2 e3
    have k4 : Keeps s0 w2 := PK.of (f := (·.2)) (State.drawWords_keeps h_1) e3
    exact (PK.mk2 k4)

theorem State.seal_keeps {s0 : State} {s : State} (h_1 : Keeps s0 s) : Keeps s0 (@State.seal s) := by
  unfold State.seal
  split
  · extract_lets -merge +onlyGivenNames v5
    clear_value v5
    split
    · rename_i w7 w8 e9
      have k10 : Keeps s0 w8 := PK.of (f := (·.2)) (State.drawBytes_keeps h_1) e9
      extract_lets -merge +onlyGivenNames v11
      clear_value v11
      exact (Keeps.upd k10)
  · exact h_1

theorem State.audit_keeps {s0 : State} {s : State} {type : Nat} {arg : List Word} (h_1 : Keeps s0 s) : Keeps s0 (@State.audit s type arg) := by
  unfold State.audit
  apply keeps_ite
  · exact (State.report_keeps (State.bump_keeps h_1))
  · extract_lets -merge +onlyGivenNames v1
    clear_value v1
    extract_lets -merge +onlyGivenNames v3
    clear_value v3
    extract_lets -merge +onlyGivenNames u5 v6
    have h8 : Keeps s0 v6 := (Keeps.upd h_1)
    exact (keeps_ite (State.seal_keeps h8) h8)

theorem State.setKeySlot_keeps {s0 : State} {s : State} {k : Nat} {x : Option KeySlot} (h_1 : Keeps s0 s) : Keeps s0 (@State.setKeySlot s k x) := by
  unfold State.setKeySlot
  exact (Keeps.upd h_1)

theorem State.countLine_keeps {s0 : State} {s : State} {k : Nat} {beyond : Bool} (h_1 : Keeps s0 s) : Keeps s0 (@State.countLine s k beyond) := by
  unfold State.countLine
  split
  · exact h_1
  · extract_lets -merge +onlyGivenNames v4
    clear_value v4
    extract_lets -merge +onlyGivenNames v6
    have h7 : Keeps s0 v6 := (State.setKeySlot_keeps h_1)
    clear_value v6
    exact (keeps_ite (State.audit_keeps h7) h7)

end Sys2Proof.Machine
end

