-- ==== Sys2Proof/Laws/KeepsOperands.lean ====
section
/-! SUPPORT. What every operation and every command of Machine/Operands.lean keeps (Keeps). -/

set_option Elab.async false

namespace Sys2Proof.Machine

theorem State.trap_keeps {s0 : State} {s : State} {e : Nat} {c : Cause} {val : DWord} {words : Nat} (h_1 : Keeps s0 s) : Keeps s0 (@State.trap s e c val words) := by
  unfold State.trap
  extract_lets -merge +onlyGivenNames v1
  clear_value v1
  extract_lets -merge +onlyGivenNames v3
  clear_value v3
  extract_lets -merge +onlyGivenNames v5
  clear_value v5
  extract_lets -merge +onlyGivenNames v7
  have h8 : Keeps s0 v7 := (State.set_keeps h_1)
  clear_value v7
  exact (keeps_ite (State.report_keeps (State.stopEngine_keeps (State.setEngine_keeps h8))) (State.setEngine_keeps h8))

theorem State.retire_keeps {s0 : State} {s : State} {e : Nat} {x : Engine} {words : Nat} (h_1 : Keeps s0 s) : Keeps s0 (@State.retire s e x words) := by
  unfold State.retire
  exact (State.setEngine_keeps h_1)

theorem State.fetch_keeps {s0 : State} {s : State} {e : Nat} {words : Nat} (h_1 : Keeps s0 s) : PK s0 (·.st) (@State.fetch s e words) := by
  unfold State.fetch
  exact (State.readLocal_keeps h_1)

theorem State.execAt_keeps {s0 : State} {s : State} {e : Nat} {words : Nat} {word : Word} {guard : Engine → Bool} {legal : Bool} {body : State → State} (h_1 : Keeps s0 s) (h_2 : ∀ y1, Keeps s0 y1 → Keeps s0 (body y1)) : Keeps s0 (@State.execAt s e words word guard legal body) := by
  unfold State.execAt
  apply keeps_ite
  · exact h_1
  · apply keeps_ite
    · exact (State.trap_keeps h_1)
    · extract_lets -merge +onlyGivenNames v1
      have h2 : PK s0 (·.st) v1 := (State.fetch_keeps h_1)
      clear_value v1
      extract_lets -merge +onlyGivenNames v3
      have h4 : Keeps s0 v3 := (PK.out h2)
      extract_lets -merge +onlyGivenNames v5
      clear_value v5
      exact (keeps_ite (State.trap_keeps h4) (keeps_ite (State.retire_keeps h4) (keeps_ite (State.trap_keeps h4) (h_2 _ h4))))

theorem State.execA_keeps {s0 : State} {s : State} {op : Nat} {e : Eng} {w : FmtA} {legal : Bool} {body : State → State} (h_1 : Keeps s0 s) (h_2 : ∀ y1, Keeps s0 y1 → Keeps s0 (body y1)) : Keeps s0 (@State.execA s op e w legal body) := by
  unfold State.execA
  exact (State.execAt_keeps h_1 h_2)

theorem State.execI_keeps {s0 : State} {s : State} {op : Nat} {e : Eng} {w : FmtI} {legal : Bool} {body : State → State} (h_1 : Keeps s0 s) (h_2 : ∀ y1, Keeps s0 y1 → Keeps s0 (body y1)) : Keeps s0 (@State.execI s op e w legal body) := by
  unfold State.execI
  exact (State.execAt_keeps h_1 h_2)

theorem State.execX_keeps {s0 : State} {s : State} {op : Nat} {e : Eng} {w : FmtX} {legal : Bool} {body : State → State} (h_1 : Keeps s0 s) (h_2 : ∀ y1, Keeps s0 y1 → Keeps s0 (body y1)) : Keeps s0 (@State.execX s op e w legal body) := by
  unfold State.execX
  exact (State.execAt_keeps h_1 h_2)

theorem State.setD_keeps {s0 : State} {s : State} {e : Nat} {d : BitVec 5} {v : DWord} {words : Nat} (h_1 : Keeps s0 s) : Keeps s0 (@State.setD s e d v words) := by
  unfold State.setD
  exact (State.retire_keeps h_1)

end Sys2Proof.Machine
end

