-- ==== Sys2Proof/Laws/KeepsFlags.lean ====
section
/-! SUPPORT. What every operation and every command of Machine/Flags.lean keeps (Keeps). -/

set_option Elab.async false

namespace Sys2Proof.Machine

theorem consume_keeps {s0 : State} {e : Nat} {bits : DWord} {x2 : Nat} {x3 : State} (h_1 : Keeps s0 x3) : Keeps s0 (@consume e bits x2 x3) := by
  induction x2 generalizing x3 with
  | zero =>
    rw [consume.eq_1]
    exact h_1
  | succ n ih =>
    rw [consume.eq_2]
    exact (keeps_ite (State.set_keeps (ih h_1)) (ih h_1))

theorem State.recordSlack_keeps {s0 : State} {s : State} {g : Nat} {q : Int} (h_1 : Keeps s0 s) : Keeps s0 (@State.recordSlack s g q) := by
  unfold State.recordSlack
  apply keeps_ite
  · exact h_1
  · extract_lets -merge +onlyGivenNames v1
    clear_value v1
    extract_lets -merge +onlyGivenNames v3
    have h4 : Keeps s0 v3 := (State.set_keeps (State.set_keeps h_1))
    clear_value v3
    extract_lets -merge +onlyGivenNames v5
    have h6 : Keeps s0 v5 := (State.set_keeps (keeps_ite (State.set_keeps h4) h4))
    clear_value v5
    extract_lets -merge +onlyGivenNames u7 v8
    clear_value u7
    have h10 : Keeps s0 v8 := (keeps_ite (Keeps.upd h6) h6)
    clear_value v8
    exact (keeps_ite (State.postEvent_keeps h10) h10)

theorem State.recordMiss_keeps {s0 : State} {s : State} {g : Nat} {bar : Option Nat} {line : Option DWord} (h_1 : Keeps s0 s) : Keeps s0 (@State.recordMiss s g bar line) := by
  unfold State.recordMiss
  apply keeps_ite
  · exact h_1
  · extract_lets -merge +onlyGivenNames v1
    have h2 : Keeps s0 v1 := (State.bump_keeps h_1)
    clear_value v1
    extract_lets -merge +onlyGivenNames u3 v4
    clear_value u3
    have h6 : Keeps s0 v4 := (Keeps.upd h2)
    clear_value v4
    exact (keeps_ite (State.report_keeps h6) h6)

end Sys2Proof.Machine
end

