-- ==== Sys2Proof/Laws/KeepsEvents.lean ====
section
/-! SUPPORT. What every operation and every command of Machine/Events.lean keeps (Keeps). -/

set_option Elab.async false

namespace Sys2Proof.Machine

theorem doWait_keeps {s0 : State} {e : Eng} {w : FmtA} {s : State} (h_1 : Keeps s0 s) : Keeps s0 (@doWait e w s) := by
  unfold doWait
  refine State.execA_keeps h_1 ?_
  · intro _ h1
    extract_lets -merge +onlyGivenNames v2
    clear_value v2
    extract_lets -merge +onlyGivenNames v4
    clear_value v4
    extract_lets -merge +onlyGivenNames v6
    clear_value v6
    extract_lets -merge +onlyGivenNames v8
    apply keeps_ite
    · exact (State.trap_keeps h1)
    · split
      · exact (State.setD_keeps (consume_keeps h1))
      · extract_lets -merge +onlyGivenNames v13
        clear_value v13
        exact (State.setEstate_keeps (State.setEngine_keeps h1))

theorem execWait_keeps {s0 : State} {e : Eng} {w : FmtA} {s : State} (h_1 : Keeps s0 s) : ∃ sn, @execWait e w s = .next sn ∧ Keeps s0 sn := by
  unfold execWait
  exact ⟨_, rfl, (doWait_keeps h_1)⟩

theorem State.endWait_keeps {s0 : State} {s : State} {e : Nat} {d : BitVec 5} {bits : DWord} (h_1 : Keeps s0 s) : Keeps s0 (@State.endWait s e d bits) := by
  unfold State.endWait
  extract_lets -merge +onlyGivenNames u1 v2
  clear_value u1
  have h4 : Keeps s0 v2 := (State.setEngine_keeps h_1)
  clear_value v2
  exact (State.setEstate_keeps (State.setD_keeps h4))

theorem doWaitWake_keeps {s0 : State} {e : Eng} {s : State} (h_1 : Keeps s0 s) : Keeps s0 (@doWaitWake e s) := by
  unfold doWaitWake
  split
  · exact h_1
  · apply keeps_ite
    · exact h_1
    · split
      · exact h_1
      · exact (State.endWait_keeps (consume_keeps h_1))

theorem execWaitWake_keeps {s0 : State} {e : Eng} {s : State} (h_1 : Keeps s0 s) : ∃ sn, @execWaitWake e s = .next sn ∧ Keeps s0 sn := by
  unfold execWaitWake
  exact ⟨_, rfl, (doWaitWake_keeps h_1)⟩

theorem doWaitTimeout_keeps {s0 : State} {e : Eng} {s : State} (h_1 : Keeps s0 s) : Keeps s0 (@doWaitTimeout e s) := by
  unfold doWaitTimeout
  split
  · exact h_1
  · apply keeps_ite
    · exact h_1
    · split
      · exact h_1
      · apply keeps_ite
        · exact h_1
        · split
          · exact (State.endWait_keeps (consume_keeps h_1))
          · exact (State.endWait_keeps h_1)

theorem execWaitTimeout_keeps {s0 : State} {e : Eng} {s : State} (h_1 : Keeps s0 s) : ∃ sn, @execWaitTimeout e s = .next sn ∧ Keeps s0 sn := by
  unfold execWaitTimeout
  exact ⟨_, rfl, (doWaitTimeout_keeps h_1)⟩

theorem doEvcnt_keeps {s0 : State} {e : Eng} {w : FmtA} {s : State} (h_1 : Keeps s0 s) : Keeps s0 (@doEvcnt e w s) := by
  unfold doEvcnt
  exact (State.execA_keeps h_1 (fun _ h1 => (State.setD_keeps h1)))

theorem execEvcnt_keeps {s0 : State} {e : Eng} {w : FmtA} {s : State} (h_1 : Keeps s0 s) : ∃ sn, @execEvcnt e w s = .next sn ∧ Keeps s0 sn := by
  unfold execEvcnt
  exact ⟨_, rfl, (doEvcnt_keeps h_1)⟩

theorem State.setPchan_keeps {s0 : State} {s : State} {k : Nat} {c : Chan} (h_1 : Keeps s0 s) : Keeps s0 (@State.setPchan s k c) := by
  unfold State.setPchan
  exact (Keeps.upd h_1)

theorem State.setTchan_keeps {s0 : State} {s : State} {k : Nat} {c : Chan} (h_1 : Keeps s0 s) : Keeps s0 (@State.setTchan s k c) := by
  unfold State.setTchan
  exact (Keeps.upd h_1)

theorem State.pchanTest_keeps {s0 : State} {s : State} {k : Nat} (h_1 : Keeps s0 s) : Keeps s0 (@State.pchanTest s k) := by
  unfold State.pchanTest
  extract_lets -merge +onlyGivenNames v1
  clear_value v1
  exact (keeps_ite (State.postEvent_keeps (State.setPchan_keeps h_1)) h_1)

theorem State.tchanTest_keeps {s0 : State} {s : State} {k : Nat} (h_1 : Keeps s0 s) : Keeps s0 (@State.tchanTest s k) := by
  unfold State.tchanTest
  extract_lets -merge +onlyGivenNames v1
  clear_value v1
  exact (keeps_ite (State.postEvent_keeps (State.setTchan_keeps h_1)) h_1)

theorem doArmp_keeps {s0 : State} {e : Eng} {w : FmtA} {s : State} (h_1 : Keeps s0 s) : Keeps s0 (@doArmp e w s) := by
  unfold doArmp
  refine State.execA_keeps h_1 ?_
  · intro _ h1
    extract_lets -merge +onlyGivenNames v2
    clear_value v2
    extract_lets -merge +onlyGivenNames v4
    clear_value v4
    extract_lets -merge +onlyGivenNames v6
    have h7 : Keeps s0 v6 := (State.pchanTest_keeps h1)
    clear_value v6
    extract_lets -merge +onlyGivenNames v8
    clear_value v8
    extract_lets -merge +onlyGivenNames u10 v11
    clear_value u10
    have h13 : Keeps s0 v11 := (keeps_ite (State.setPchan_keeps h7) (State.pchanTest_keeps (State.setPchan_keeps h7)))
    clear_value v11
    exact (State.setD_keeps h13)

theorem execArmp_keeps {s0 : State} {e : Eng} {w : FmtA} {s : State} (h_1 : Keeps s0 s) : ∃ sn, @execArmp e w s = .next sn ∧ Keeps s0 sn := by
  unfold execArmp
  exact ⟨_, rfl, (doArmp_keeps h_1)⟩

theorem doArmt_keeps {s0 : State} {e : Eng} {w : FmtA} {s : State} (h_1 : Keeps s0 s) : Keeps s0 (@doArmt e w s) := by
  unfold doArmt
  refine State.execA_keeps h_1 ?_
  · intro _ h1
    extract_lets -merge +onlyGivenNames v2
    clear_value v2
    extract_lets -merge +onlyGivenNames v4
    clear_value v4
    extract_lets -merge +onlyGivenNames v6
    have h7 : Keeps s0 v6 := (State.tchanTest_keeps h1)
    clear_value v6
    extract_lets -merge +onlyGivenNames v8
    clear_value v8
    extract_lets -merge +onlyGivenNames u10 v11
    clear_value u10
    have h13 : Keeps s0 v11 := (keeps_ite (State.setTchan_keeps h7) (State.tchanTest_keeps (State.setTchan_keeps h7)))
    clear_value v11
    exact (State.setD_keeps h13)

theorem execArmt_keeps {s0 : State} {e : Eng} {w : FmtA} {s : State} (h_1 : Keeps s0 s) : ∃ sn, @execArmt e w s = .next sn ∧ Keeps s0 sn := by
  unfold execArmt
  exact ⟨_, rfl, (doArmt_keeps h_1)⟩

theorem execPositionComparePulse_keeps {s0 : State} {k : Fin 32} {s : State} (h_1 : Keeps s0 s) : ∃ sn, @execPositionComparePulse k s = .next sn ∧ Keeps s0 sn := by
  unfold execPositionComparePulse
  exact ⟨_, rfl, (State.pchanTest_keeps h_1)⟩

theorem execTimeComparePulse_keeps {s0 : State} {k : Fin 32} {s : State} (h_1 : Keeps s0 s) : ∃ sn, @execTimeComparePulse k s = .next sn ∧ Keeps s0 sn := by
  unfold execTimeComparePulse
  exact ⟨_, rfl, (State.tchanTest_keeps h_1)⟩

theorem State.setDeadline_keeps {s0 : State} {s : State} {g : Nat} {d : Option DWord} (h_1 : Keeps s0 s) : Keeps s0 (@State.setDeadline s g d) := by
  unfold State.setDeadline
  exact (Keeps.upd h_1)

theorem doDln_keeps {s0 : State} {e : Eng} {w : FmtA} {s : State} (h_1 : Keeps s0 s) : Keeps s0 (@doDln e w s) := by
  unfold doDln
  extract_lets -merge +onlyGivenNames v1
  clear_value v1
  refine State.execA_keeps h_1 ?_
  · intro _ h3
    apply keeps_ite
    · extract_lets -merge +onlyGivenNames v4
      clear_value v4
      exact (State.setD_keeps (State.setDeadline_keeps h3))
    · split
      · exact (State.setD_keeps h3)
      · exact (State.setD_keeps (State.recordSlack_keeps (State.setDeadline_keeps h3)))

theorem execDln_keeps {s0 : State} {e : Eng} {w : FmtA} {s : State} (h_1 : Keeps s0 s) : ∃ sn, @execDln e w s = .next sn ∧ Keeps s0 sn := by
  unfold execDln
  exact ⟨_, rfl, (doDln_keeps h_1)⟩

theorem doSend_keeps {s0 : State} {e : Eng} {w : FmtA} {s : State} (h_1 : Keeps s0 s) : Keeps s0 (@doSend e w s) := by
  unfold doSend
  refine State.execA_keeps h_1 ?_
  · intro _ h1
    extract_lets -merge +onlyGivenNames v2
    clear_value v2
    extract_lets -merge +onlyGivenNames v4
    clear_value v4
    apply keeps_ite
    · exact (State.setD_keeps h1)
    · extract_lets -merge +onlyGivenNames v6
      clear_value v6
      apply keeps_ite
      · exact (State.setD_keeps h1)
      · extract_lets -merge +onlyGivenNames v8
        clear_value v8
        exact (State.setD_keeps (State.postEvent_keeps (State.setEngine_keeps h1)))

theorem execSend_keeps {s0 : State} {e : Eng} {w : FmtA} {s : State} (h_1 : Keeps s0 s) : ∃ sn, @execSend e w s = .next sn ∧ Keeps s0 sn := by
  unfold execSend
  exact ⟨_, rfl, (doSend_keeps h_1)⟩

theorem doRecv_keeps {s0 : State} {e : Eng} {w : FmtA} {s : State} (h_1 : Keeps s0 s) : Keeps s0 (@doRecv e w s) := by
  unfold doRecv
  refine State.execA_keeps h_1 ?_
  · intro _ h1
    extract_lets -merge +onlyGivenNames v2
    clear_value v2
    split
    · exact (State.retire_keeps h1)
    · extract_lets -merge +onlyGivenNames v8
      clear_value v8
      exact (State.retire_keeps h1)

theorem execRecv_keeps {s0 : State} {e : Eng} {w : FmtA} {s : State} (h_1 : Keeps s0 s) : ∃ sn, @execRecv e w s = .next sn ∧ Keeps s0 sn := by
  unfold execRecv
  exact ⟨_, rfl, (doRecv_keeps h_1)⟩

end Sys2Proof.Machine
end

