-- ==== Sys2Proof/Laws/KeepsEng.lean ====
section
/-! SUPPORT. What every operation and every command of Machine/Eng.lean keeps (Keeps). -/

set_option Elab.async false

namespace Sys2Proof.Machine

theorem doPaceUpdate_keeps {s0 : State} {count : BitVec 16} {s : State} (h_1 : Keeps s0 s) : Keeps s0 (@doPaceUpdate count s) := by
  unfold doPaceUpdate
  extract_lets -merge +onlyGivenNames v1
  have h2 : Keeps s0 v1 := (State.set_keeps h_1)
  clear_value v1
  extract_lets -merge +onlyGivenNames v3
  clear_value v3
  extract_lets -merge +onlyGivenNames v5
  clear_value v5
  extract_lets -merge +onlyGivenNames u7 v8
  clear_value u7
  have h10 : Keeps s0 v8 := (Keeps.upd h2)
  clear_value v8
  exact (keeps_ite (State.report_keeps h10) h10)

theorem execPaceUpdate_keeps {s0 : State} {count : BitVec 16} {s : State} (h_1 : Keeps s0 s) : ∃ sn, @execPaceUpdate count s = .next sn ∧ Keeps s0 sn := by
  unfold execPaceUpdate
  exact ⟨_, rfl, (doPaceUpdate_keeps h_1)⟩

theorem State.avsWrite_keeps {s0 : State} {s : State} {code : Nat} (h_1 : Keeps s0 s) : Keeps s0 (@State.avsWrite s code) := by
  unfold State.avsWrite
  extract_lets -merge +onlyGivenNames v1
  have h2 : Keeps s0 v1 := (State.set_keeps h_1)
  clear_value v1
  exact (Keeps.upd h2)

theorem State.voltageRead_keeps {s0 : State} {s : State} {mv : Nat} (h_1 : Keeps s0 s) : Keeps s0 (@State.voltageRead s mv) := by
  unfold State.voltageRead
  extract_lets -merge +onlyGivenNames v1
  have h2 : Keeps s0 v1 := (State.set_keeps h_1)
  clear_value v1
  extract_lets -merge +onlyGivenNames v3
  clear_value v3
  extract_lets -merge +onlyGivenNames v5
  clear_value v5
  exact (Keeps.upd h2)

theorem doAvsEnable_keeps {s0 : State} {v : Word} {regulator : Option Nat} {s : State} (h_1 : Keeps s0 s) : Keeps s0 (@doAvsEnable v regulator s) := by
  unfold doAvsEnable
  extract_lets -merge +onlyGivenNames v1
  clear_value v1
  extract_lets -merge +onlyGivenNames v3
  have h4 : Keeps s0 v3 := (State.swWrite_keeps h_1)
  clear_value v3
  apply keeps_ite
  · exact h4
  · extract_lets -merge +onlyGivenNames v5
    have h6 : Keeps s0 v5 := (State.set_keeps h4)
    clear_value v5
    split
    · exact (State.report_keeps h6)
    · extract_lets -merge +onlyGivenNames v8
      clear_value v8
      exact (State.avsWrite_keeps (State.set_keeps h6))

theorem execAvsEnable_keeps {s0 : State} {v : Word} {regulator : Option Nat} {s : State} (h_1 : Keeps s0 s) : ∃ sn, @execAvsEnable v regulator s = .next sn ∧ Keeps s0 sn := by
  unfold execAvsEnable
  exact ⟨_, rfl, (State.busWrite_keeps h_1 (fun _ h1 => (doAvsEnable_keeps h1)))⟩

theorem doAvsEvaluation_keeps {s0 : State} {s : State} (h_1 : Keeps s0 s) : Keeps s0 (@doAvsEvaluation s) := by
  unfold doAvsEvaluation
  apply keeps_ite
  · exact h_1
  · extract_lets -merge +onlyGivenNames v1
    clear_value v1
    extract_lets -merge +onlyGivenNames v3
    clear_value v3
    extract_lets -merge +onlyGivenNames v5
    clear_value v5
    extract_lets -merge +onlyGivenNames v7
    clear_value v7
    extract_lets -merge +onlyGivenNames v9
    clear_value v9
    extract_lets -merge +onlyGivenNames v11
    clear_value v11
    extract_lets -merge +onlyGivenNames u13 v14
    clear_value u13
    have h16 : Keeps s0 v14 := (Keeps.upd h_1)
    clear_value v14
    extract_lets -merge +onlyGivenNames v17
    have h18 : Keeps s0 v17 := (State.set_keeps h16)
    clear_value v17
    extract_lets -merge +onlyGivenNames v19
    have h20 : Keeps s0 v19 := (keeps_ite (State.report_keeps h18) h18)
    clear_value v19
    exact (keeps_ite (State.avsWrite_keeps h20) h20)

theorem execAvsEvaluation_keeps {s0 : State} {s : State} (h_1 : Keeps s0 s) : ∃ sn, @execAvsEvaluation s = .next sn ∧ Keeps s0 sn := by
  unfold execAvsEvaluation
  exact ⟨_, rfl, (doAvsEvaluation_keeps h_1)⟩

theorem State.settle_keeps {s0 : State} {s : State} (h_1 : Keeps s0 s) : Keeps s0 (@State.settle s) := by
  unfold State.settle
  exact (Keeps.upd h_1)

theorem doAvsTransactionDone_keeps {s0 : State} {reply : AvsReply} {s : State} (h_1 : Keeps s0 s) : Keeps s0 (@doAvsTransactionDone reply s) := by
  unfold doAvsTransactionDone
  split
  · exact (State.voltageRead_keeps h_1)
  · exact (State.settle_keeps (State.set_keeps h_1))
  · exact (keeps_ite (Keeps.upd h_1) (State.report_keeps (State.settle_keeps h_1)))
  · exact h_1

theorem execAvsTransactionDone_keeps {s0 : State} {reply : AvsReply} {s : State} (h_1 : Keeps s0 s) : ∃ sn, @execAvsTransactionDone reply s = .next sn ∧ Keeps s0 sn := by
  unfold execAvsTransactionDone
  exact ⟨_, rfl, (doAvsTransactionDone_keeps h_1)⟩

theorem doAvsSettleEnd_keeps {s0 : State} {s : State} (h_1 : Keeps s0 s) : Keeps s0 (@doAvsSettleEnd s) := by
  unfold doAvsSettleEnd
  split
  · exact h_1
  · exact (keeps_ite h_1 (State.postEvent_keeps (State.set_keeps (Keeps.upd h_1))))

theorem execAvsSettleEnd_keeps {s0 : State} {s : State} (h_1 : Keeps s0 s) : ∃ sn, @execAvsSettleEnd s = .next sn ∧ Keeps s0 sn := by
  unfold execAvsSettleEnd
  exact ⟨_, rfl, (doAvsSettleEnd_keeps h_1)⟩

theorem doAvsMismatch_keeps {s0 : State} {s : State} (h_1 : Keeps s0 s) : Keeps s0 (@doAvsMismatch s) := by
  unfold doAvsMismatch
  split
  · exact h_1
  · exact (keeps_ite h_1 (State.report_keeps (Keeps.upd h_1)))

theorem execAvsMismatch_keeps {s0 : State} {s : State} (h_1 : Keeps s0 s) : ∃ sn, @execAvsMismatch s = .next sn ∧ Keeps s0 sn := by
  unfold execAvsMismatch
  exact ⟨_, rfl, (doAvsMismatch_keeps h_1)⟩

theorem doAvslimWrite_keeps {s0 : State} {v : Word} {s : State} (h_1 : Keeps s0 s) : Keeps s0 (@doAvslimWrite v s) := by
  unfold doAvslimWrite
  exact (keeps_ite (State.set_keeps h_1) (State.swWrite_keeps h_1))

theorem execAvslimWrite_keeps {s0 : State} {v : Word} {s : State} (h_1 : Keeps s0 s) : ∃ sn, @execAvslimWrite v s = .next sn ∧ Keeps s0 sn := by
  unfold execAvslimWrite
  exact ⟨_, rfl, (State.busWrite_keeps h_1 (fun _ h1 => (doAvslimWrite_keeps h1)))⟩

theorem doEvrouteWrite_keeps {s0 : State} {e : Eng} {i : Fin 64} {v : Word} {s : State} (h_1 : Keeps s0 s) : Keeps s0 (@doEvrouteWrite e i v s) := by
  unfold doEvrouteWrite
  extract_lets -merge +onlyGivenNames v1
  clear_value v1
  extract_lets -merge +onlyGivenNames v3
  clear_value v3
  extract_lets -merge +onlyGivenNames v5
  have h6 : Keeps s0 v5 := (State.swWrite_keeps h_1)
  clear_value v5
  exact (keeps_ite (State.wr_keeps h6) h6)

theorem execEvrouteWrite_keeps {s0 : State} {e : Eng} {i : Fin 64} {v : Word} {s : State} (h_1 : Keeps s0 s) : ∃ sn, @execEvrouteWrite e i v s = .next sn ∧ Keeps s0 sn := by
  unfold execEvrouteWrite
  exact ⟨_, rfl, (State.busWrite_keeps h_1 (fun _ h1 => (doEvrouteWrite_keeps h1)))⟩

theorem raiseSw_keeps {s0 : State} {v : Word} {x1 : Nat} {x2 : State} (h_1 : Keeps s0 x2) : Keeps s0 (@raiseSw v x1 x2) := by
  induction x1 generalizing x2 with
  | zero =>
    rw [raiseSw.eq_1]
    exact h_1
  | succ n ih =>
    rw [raiseSw.eq_2]
    exact (keeps_ite (State.postEvent_keeps (ih h_1)) (ih h_1))

theorem execSwevRaise_keeps {s0 : State} {v : Word} {s : State} (h_1 : Keeps s0 s) : ∃ sn, @execSwevRaise v s = .next sn ∧ Keeps s0 sn := by
  unfold execSwevRaise
  exact ⟨_, rfl, (State.busWrite_keeps h_1 (fun _ h1 => (raiseSw_keeps h1)))⟩

theorem doGaugeClrmin_keeps {s0 : State} {g : Fin 16} {v : Word} {s : State} (h_1 : Keeps s0 s) : Keeps s0 (@doGaugeClrmin g v s) := by
  unfold doGaugeClrmin
  extract_lets -merge +onlyGivenNames v1
  clear_value v1
  extract_lets -merge +onlyGivenNames v3
  have h4 : Keeps s0 v3 := (State.swWrite_keeps h_1)
  clear_value v3
  extract_lets -merge +onlyGivenNames v5
  have h6 : Keeps s0 v5 := (keeps_ite (State.set_keeps h4) h4)
  clear_value v5
  exact (keeps_ite (State.set_keeps (State.set_keeps h6)) h6)

theorem execGaugeClrmin_keeps {s0 : State} {g : Fin 16} {v : Word} {s : State} (h_1 : Keeps s0 s) : ∃ sn, @execGaugeClrmin g v s = .next sn ∧ Keeps s0 sn := by
  unfold execGaugeClrmin
  exact ⟨_, rfl, (State.busWrite_keeps h_1 (fun _ h1 => (doGaugeClrmin_keeps h1)))⟩

theorem State.tryRecord_keeps {s0 : State} {s : State} {b : Nat} {n : Nat} (h_1 : Keeps s0 s) : Keeps s0 (@State.tryRecord s b n) := by
  unfold State.tryRecord
  extract_lets -merge +onlyGivenNames v1
  clear_value v1
  apply keeps_ite
  · exact h_1
  · split
    · exact (State.recordSlack_keeps (State.setFireBar_keeps h_1))
    · exact h_1

theorem State.lineDone_keeps {s0 : State} {s : State} {b : Nat} {n : Nat} (h_1 : Keeps s0 s) : Keeps s0 (@State.lineDone s b n) := by
  unfold State.lineDone
  extract_lets -merge +onlyGivenNames v1
  clear_value v1
  exact (keeps_ite h_1 (State.tryRecord_keeps (State.setFireBar_keeps h_1)))

theorem doDeadlineMiss_keeps {s0 : State} {g : Fin 16} {line : DWord} {s : State} (h_1 : Keeps s0 s) : Keeps s0 (@doDeadlineMiss g line s) := by
  unfold doDeadlineMiss
  apply keeps_ite
  · extract_lets -merge +onlyGivenNames v1
    clear_value v1
    split
    · exact h_1
    · exact (keeps_ite h_1 (State.recordMiss_keeps (State.setFireBar_keeps h_1)))
  · split
    · exact h_1
    · exact (keeps_ite h_1 (State.recordMiss_keeps (Keeps.upd h_1)))

theorem execDeadlineMiss_keeps {s0 : State} {g : Fin 16} {line : DWord} {s : State} (h_1 : Keeps s0 s) : ∃ sn, @execDeadlineMiss g line s = .next sn ∧ Keeps s0 sn := by
  unfold execDeadlineMiss
  exact ⟨_, rfl, (doDeadlineMiss_keeps h_1)⟩

end Sys2Proof.Machine
end

