-- ==== Sys2Proof/Laws/KeepsCal.lean ====
section
/-! SUPPORT. What every operation and every command of Machine/Cal.lean keeps (Keeps). -/

set_option Elab.async false

namespace Sys2Proof.Machine

theorem State.setCalUnit_keeps {s0 : State} {s : State} {u : Nat} {x : CalUnit} (h_1 : Keeps s0 s) : Keeps s0 (@State.setCalUnit s u x) := by
  unfold State.setCalUnit
  exact (Keeps.upd h_1)

theorem State.calDone_keeps {s0 : State} {s : State} {u : Nat} (h_1 : Keeps s0 s) : Keeps s0 (@State.calDone s u) := by
  unfold State.calDone
  extract_lets -merge +onlyGivenNames v1
  have h2 : Keeps s0 v1 := (State.bump_keeps (State.set_keeps h_1))
  clear_value v1
  extract_lets -merge +onlyGivenNames v3
  have h4 : Keeps s0 v3 := (State.set_keeps (State.set_keeps (State.set_keeps h2)))
  clear_value v3
  exact (State.setCalUnit_keeps h4)

theorem State.calEndPort_keeps {s0 : State} {s : State} {p : Nat} (h_1 : Keeps s0 s) : Keeps s0 (@State.calEndPort s p) := by
  unfold State.calEndPort
  exact (State.set_keeps (State.set_keeps (State.set_keeps h_1)))

end Sys2Proof.Machine
end

