-- ==== Sys2Proof/Laws/KeepsDram.lean ====
section
/-! SUPPORT. What every operation and every command of Machine/Dram.lean keeps (Keeps). -/

set_option Elab.async false

namespace Sys2Proof.Machine

theorem State.setChan_keeps {s0 : State} {s : State} {c : Nat} {x : DramChan} (h_1 : Keeps s0 s) : Keeps s0 (@State.setChan s c x) := by
  unfold State.setChan
  exact (Keeps.upd h_1)

theorem State.dramRange_keeps {s0 : State} {s : State} {a : Nat} (h_1 : Keeps s0 s) : Keeps s0 (@State.dramRange s a) := by
  unfold State.dramRange
  exact (State.reportLimited_keeps h_1)

theorem putBytes_wf {t : Tab Byte} {a : Nat} {bs : List Byte} (h : Tab.wf (fun _ => 0) t = true) :
    Tab.wf (fun _ => 0) (putBytes t a bs) = true := by
  induction bs generalizing t a with
  | nil => exact h
  | cons b bs ih => exact ih (Tab.put_wf h)

theorem State.flipSym_keeps {s0 s : State} {a j i m : Nat} (h : Keeps s0 s) : Keeps s0 (s.flipSym a j i m) := by
  unfold State.flipSym
  exact h.dram (fun w => putBytes_wf w)

theorem State.writeLine_keeps {s0 s : State} {a : Nat} {bs : List Byte} (h : Keeps s0 s) : Keeps s0 (s.writeLine a bs) := by
  have h' : Keeps s0 { s with dmc := { s.dmc with data := putBytes s.dmc.data a bs, chk := clearChk s.dmc.chk a } } :=
    h.dram (fun w => putBytes_wf w)
  unfold State.writeLine
  extract_lets -merge +onlyGivenNames u1 v1 c
  have h1 : Keeps s0 v1 := h'
  clear_value v1
  split
  · exact h1
  · exact keeps_ite (State.flipSym_keeps (State.flipSym_keeps (State.setChan_keeps h1))) (State.flipSym_keeps (State.setChan_keeps h1))

theorem State.dmcLog_keeps {s0 : State} {s : State} {c : Nat} {a : Nat} {ue : Nat} {sym : Nat} {beat : Nat} (h_1 : Keeps s0 s) : Keeps s0 (@State.dmcLog s c a ue sym beat) := by
  unfold State.dmcLog
  extract_lets -merge +onlyGivenNames v1
  have h2 : Keeps s0 v1 := (State.set_keeps h_1)
  clear_value v1
  exact (State.wr_keeps h2)

theorem State.noteBurst_keeps {s0 : State} {s : State} {c : Nat} {a : Nat} {r : BurstRes} (h_1 : Keeps s0 s) : Keeps s0 (@State.noteBurst s c a r) := by
  unfold State.noteBurst
  split
  · exact h_1
  · extract_lets -merge +onlyGivenNames v3
    have h4 : Keeps s0 v3 := (State.dmcLog_keeps (State.bump_keeps (State.bump_keeps h_1)))
    clear_value v3
    extract_lets -merge +onlyGivenNames v5
    have h6 : Keeps s0 v5 := (State.reportLimited_keeps h4)
    clear_value v5
    extract_lets -merge +onlyGivenNames v7
    clear_value v7
    exact (keeps_ite (State.report_keeps h6) h6)
  · exact (State.report_keeps (State.dmcLog_keeps (State.bump_keeps h_1)))

theorem State.decodeBurst_keeps {s0 : State} {s : State} {a : Nat} {stored : List (List Nat)} {err : List (Fin 16 × Fin 10 × BitVec 4)} (h_1 : Keeps s0 s) : PK s0 (·.st) (@State.decodeBurst s a stored err) := by
  unfold State.decodeBurst
  extract_lets -merge +onlyGivenNames v1
  clear_value v1
  extract_lets -merge +onlyGivenNames v3
  clear_value v3
  extract_lets -merge +onlyGivenNames v5
  clear_value v5
  apply PK.ite
  · extract_lets -merge +onlyGivenNames v7
    have h8 : Keeps s0 v7 := by
      unfold v7
      apply keeps_ite
      · exact h_1
      · split
        · exact h_1
        · exact (State.set_keeps (State.set_keeps (State.set_keeps h_1)))
    clear_value v7
    exact h8
  · split
    · extract_lets -merge +onlyGivenNames v15
      exact (State.noteBurst_keeps h_1)

theorem State.readBurst_keeps {s0 : State} {s : State} {a : Nat} (h_1 : Keeps s0 s) : PK s0 (·.st) (@State.readBurst s a) := by
  unfold State.readBurst
  exact (State.decodeBurst_keeps h_1)

theorem readLines_keeps {s0 : State} {x0 : Nat} {x1 : Nat} {x2 : State} (h_1 : Keeps s0 x2) : PK s0 (·.st) (@readLines x0 x1 x2) := by
  induction x0 generalizing x1 x2 with
  | zero =>
    rw [readLines.eq_1]
    exact h_1
  | succ n ih =>
    rw [readLines.eq_2]
    exact (PK.out (ih (PK.out (State.readBurst_keeps h_1))))

theorem State.readDram_keeps {s0 : State} {s : State} {a : Nat} {n : Nat} (h_1 : Keeps s0 s) : PK s0 (·.st) (@State.readDram s a n) := by
  unfold State.readDram
  extract_lets -merge +onlyGivenNames v1
  clear_value v1
  extract_lets -merge +onlyGivenNames v3
  have h4 : PK s0 (·.st) v3 := (readLines_keeps h_1)
  clear_value v3
  exact (PK.out h4)

theorem State.writePart_keeps {s0 s : State} {a : Nat} {bs : List Byte} (h : Keeps s0 s) : Keeps s0 (s.writePart a bs) := by
  unfold State.writePart
  extract_lets -merge +onlyGivenNames line
  split
  · exact State.writeLine_keeps h
  · have h1 : Keeps s0 (s.readBurst line).st := (State.readBurst_keeps h).out
    exact h1.dram (fun w => by dsimp only; split <;> exact putBytes_wf w)

theorem writeDramLines_keeps {s0 s : State} {k a : Nat} {bs : List Byte} (h : Keeps s0 s) :
    Keeps s0 (writeDramLines k a bs s) := by
  induction k generalizing s a bs with
  | zero => exact h
  | succ k ih =>
    cases bs with
    | nil => exact h
    | cons b bs => exact ih (State.writePart_keeps h)

theorem State.writeDram_keeps {s0 : State} {s : State} {a : Nat} {bs : List Byte} (h_1 : Keeps s0 s) : Keeps s0 (@State.writeDram s a bs) := by
  unfold State.writeDram
  exact (writeDramLines_keeps h_1)

end Sys2Proof.Machine
end

