-- ==== Sys2Proof/Laws/KeepsFetch.lean ====
section
/-! SUPPORT. What every operation and every command of Machine/Fetch.lean keeps (Keeps). -/

set_option Elab.async false

namespace Sys2Proof.Machine

theorem State.setPipe_keeps {s0 : State} {s : State} {b : Nat} {x : BarPipe} (h_1 : Keeps s0 s) : Keeps s0 (@State.setPipe s b x) := by
  unfold State.setPipe
  exact (Keeps.upd h_1)

theorem State.readRec_keeps {s0 : State} {s : State} {k : Nat} {bar : Option Nat} {line : Option DWord} (h_1 : Keeps s0 s) : PK s0 (·.2) (@State.readRec s k bar line) := by
  unfold State.readRec
  apply PK.ite
  · exact (PK.mk2 h_1)
  · extract_lets -merge +onlyGivenNames v1
    have h2 : PK s0 (·.st) v1 := (State.readTarn_keeps h_1)
    clear_value v1
    extract_lets -merge +onlyGivenNames v3
    clear_value v3
    exact (PK.mk2 (PK.out h2))

theorem State.setGroupOf_keeps {s0 : State} {s : State} {b : Nat} {g : FetchGroup} (h_1 : Keeps s0 s) : Keeps s0 (@State.setGroupOf s b g) := by
  unfold State.setGroupOf
  exact (State.setPipe_keeps h_1)

theorem State.refuse_keeps {s0 : State} {s : State} {b : Nat} {g : FetchGroup} {code : Nat} {cause : Nat} {report : Bool} (h_1 : Keeps s0 s) : Keeps s0 (@State.refuse s b g code cause report) := by
  unfold State.refuse
  extract_lets -merge +onlyGivenNames v1
  have h2 : Keeps s0 v1 := (State.setGroupOf_keeps h_1)
  clear_value v1
  exact (keeps_ite (State.report_keeps h2) h2)

theorem State.readEntry_keeps {s0 : State} {s : State} {b : Nat} {g : FetchGroup} (h_1 : Keeps s0 s) : Keeps s0 (@State.readEntry s b g) := by
  unfold State.readEntry
  split
  · rename_i w1 e2
    have k3 : Keeps s0 w1 := PK.of (f := (·.2)) (State.readRec_keeps h_1) e2
    exact k3
  · rename_i w4 w5 e6
    have k7 : Keeps s0 w5 := PK.of (f := (·.2)) (State.readRec_keeps h_1) e6
    extract_lets -merge +onlyGivenNames v8
    clear_value v8
    apply keeps_ite
    · exact (State.dramRange_keeps k7)
    · extract_lets -merge +onlyGivenNames v10
      have h11 : PK s0 (·.st) v10 := (State.readDram_keeps k7)
      clear_value v10
      extract_lets -merge +onlyGivenNames v12
      have h13 : Keeps s0 v12 := (PK.out h11)
      extract_lets -merge +onlyGivenNames v14
      clear_value v14
      apply keeps_ite
      · exact (State.refuse_keeps h13)
      · apply keeps_ite
        · exact h13
        · extract_lets -merge +onlyGivenNames v16
          clear_value v16
          extract_lets -merge +onlyGivenNames v18
          clear_value v18
          extract_lets -merge +onlyGivenNames v20
          clear_value v20
          apply keeps_ite
          · exact (State.refuse_keeps (State.dramRange_keeps h13))
          · extract_lets -merge +onlyGivenNames v22
            have h23 : PK s0 (·.st) v22 := (State.readDram_keeps h13)
            clear_value v22
            extract_lets -merge +onlyGivenNames v24
            have h25 : Keeps s0 v24 := (PK.out h23)
            extract_lets -merge +onlyGivenNames v26
            clear_value v26
            extract_lets -merge +onlyGivenNames v28
            have h29 : Keeps s0 v28 := (State.setGroupOf_keeps h25)
            clear_value v28
            exact (keeps_ite (State.refuse_keeps h29) (keeps_ite (State.refuse_keeps h29) (keeps_ite (State.refuse_keeps h29) (keeps_ite (State.refuse_keeps (State.dramRange_keeps h29)) h29))))

theorem rereadEntries_keeps {s0 : State} {b : Nat} {x1 : List FetchGroup} {x2 : State} (h_1 : Keeps s0 x2) : Keeps s0 (@rereadEntries b x1 x2) := by
  induction x1 generalizing x2 with
  | nil =>
    rw [rereadEntries.eq_1]
    exact h_1
  | cons a t ih =>
    rw [rereadEntries.eq_2]
    exact (ih (keeps_ite h_1 (State.readEntry_keeps h_1)))

theorem State.fetchLine_keeps {s0 : State} {s : State} {b : Nat} {n : Nat} (h_1 : Keeps s0 s) : Keeps s0 (@State.fetchLine s b n) := by
  unfold State.fetchLine
  extract_lets -merge +onlyGivenNames u1 v2
  clear_value u1
  have h4 : Keeps s0 v2 := (State.setPipe_keeps h_1)
  clear_value v2
  apply keeps_ite
  · exact h4
  · extract_lets -merge +onlyGivenNames v5
    have h6 : Keeps s0 v5 := by
      unfold v5
      split
      · exact h4
      · split
        · exact h4
        · extract_lets -merge +onlyGivenNames v13
          clear_value v13
          apply keeps_ite
          · exact h4
          · extract_lets -merge +onlyGivenNames v15
            clear_value v15
            split
            · rename_i w17 e18
              have k19 : Keeps s0 w17 := PK.of (f := (·.2)) (State.readRec_keeps h4) e18
              exact (State.setPipe_keeps k19)
            · rename_i w20 w21 e22
              have k23 : Keeps s0 w21 := PK.of (f := (·.2)) (State.readRec_keeps h4) e22
              extract_lets -merge +onlyGivenNames v24
              clear_value v24
              exact (State.setPipe_keeps k23)
    clear_value v5
    exact (rereadEntries_keeps h6)

theorem State.updLevel_keeps {s0 : State} {s : State} {b : Nat} (h_1 : Keeps s0 s) : Keeps s0 (@State.updLevel s b) := by
  unfold State.updLevel
  extract_lets -merge +onlyGivenNames v1
  clear_value v1
  extract_lets -merge +onlyGivenNames v3
  clear_value v3
  extract_lets -merge +onlyGivenNames v5
  have h6 : Keeps s0 v5 := (State.set_keeps h_1)
  clear_value v5
  extract_lets -merge +onlyGivenNames v7
  clear_value v7
  exact (keeps_ite (keeps_ite (State.setPipe_keeps (State.set_keeps h6)) h6) (keeps_ite (State.setPipe_keeps (State.bump_keeps (State.set_keeps h6))) h6))

theorem doPanicLong_keeps {s0 : State} {b : Fin 8} {s : State} (h_1 : Keeps s0 s) : Keeps s0 (@doPanicLong b s) := by
  unfold doPanicLong
  extract_lets -merge +onlyGivenNames v1
  clear_value v1
  split
  · exact h_1
  · exact (keeps_ite h_1 (State.report_keeps (State.setPipe_keeps h_1)))

theorem execPanicLong_keeps {s0 : State} {b : Fin 8} {s : State} (h_1 : Keeps s0 s) : ∃ sn, @execPanicLong b s = .next sn ∧ Keeps s0 sn := by
  unfold execPanicLong
  exact ⟨_, rfl, (doPanicLong_keeps h_1)⟩

theorem State.fetchArrive_keeps {s0 : State} {s : State} {b : Nat} {inst : Nat} {group : Nat} {stripe : Nat} {a : Nat} {bytes : List Byte} {bad : Bool} (h_1 : Keeps s0 s) : Keeps s0 (@State.fetchArrive s b inst group stripe a bytes bad) := by
  unfold State.fetchArrive
  split
  · exact h_1
  · exact (keeps_ite h_1 (keeps_ite (State.updLevel_keeps (State.refuse_keeps h_1)) (State.updLevel_keeps (State.setGroupOf_keeps h_1))))

theorem State.restoreHist_keeps {s0 : State} {s : State} {b : Nat} {g : FetchGroup} (h_1 : Keeps s0 s) : PK s0 (·.2) (@State.restoreHist s b g) := by
  unfold State.restoreHist
  extract_lets -merge +onlyGivenNames v1
  clear_value v1
  extract_lets -merge +onlyGivenNames v3
  clear_value v3
  apply PK.ite
  · exact (PK.mk2 (State.dramRange_keeps h_1))
  · extract_lets -merge +onlyGivenNames v5
    have h6 : PK s0 (·.st) v5 := (State.readDram_keeps h_1)
    clear_value v5
    exact (PK.mk2 (PK.out h6))

theorem State.setStripeHist_keeps {s0 : State} {s : State} {b : Nat} {k : Nat} {x : Option StripeHist} (h_1 : Keeps s0 s) : Keeps s0 (@State.setStripeHist s b k x) := by
  unfold State.setStripeHist
  exact (State.setPipe_keeps h_1)

theorem State.startHist_keeps {s0 : State} {s : State} {b : Nat} {g : FetchGroup} {h : BlockHdr} (h_1 : Keeps s0 s) : PK s0 (·.2) (@State.startHist s b g h) := by
  unfold State.startHist
  apply PK.ite
  · exact (PK.mk2 h_1)
  · apply PK.ite
    · exact (PK.mk2 h_1)
    · split
      · exact (PK.ite (PK.mk2 h_1) (State.restoreHist_keeps h_1))
      · exact (State.restoreHist_keeps h_1)

theorem State.blockEnd_keeps {s0 : State} {s : State} {b : Nat} {g : FetchGroup} {h : BlockHdr} {rest : List Bool} {hs : Hists} (h_1 : Keeps s0 s) : Keeps s0 (@State.blockEnd s b g h rest hs) := by
  unfold State.blockEnd
  apply keeps_ite
  · exact (State.refuse_keeps (State.setStripeHist_keeps h_1))
  · apply keeps_ite
    · exact (State.refuse_keeps (State.setStripeHist_keeps h_1))
    · apply keeps_ite
      · extract_lets -merge +onlyGivenNames v1
        clear_value v1
        extract_lets -merge +onlyGivenNames v3
        clear_value v3
        exact (keeps_ite (State.writeDram_keeps h_1) (State.dramRange_keeps h_1))
      · exact h_1

theorem State.takeRowSet_keeps {s0 : State} {s : State} {b : Nat} {g : FetchGroup} (h_1 : Keeps s0 s) : OptK s0 id (@State.takeRowSet s b g) := by
  unfold State.takeRowSet
  split
  · exact OptK.none
  · extract_lets -merge +onlyGivenNames v4
    clear_value v4
    apply OptK.ite
    · exact OptK.none
    · extract_lets -merge +onlyGivenNames v6
      clear_value v6
      extract_lets -merge +onlyGivenNames v8
      clear_value v8
      extract_lets -merge +onlyGivenNames v10
      have h11 : ∀ a12 a13, Keeps s0 a13 → OptK s0 id (v10 a12 a13) := (fun _ _ h14 => (OptK.ite OptK.none (OptK.some (State.refuse_keeps (State.setStripeHist_keeps h14)))))
      clear_value v10
      extract_lets -merge +onlyGivenNames v15
      have h16 : PK s0 (·.2) v15 := (PK.ite (State.startHist_keeps h_1) (PK.mk2 h_1))
      clear_value v15
      split
      · exact (OptK.some (State.refuse_keeps (State.setStripeHist_keeps h16)))
      · split
        · exact (h11 _ _ h16)
        · split
          · exact (h11 _ _ h16)
          · extract_lets -merge +onlyGivenNames v31
            clear_value v31
            extract_lets -merge +onlyGivenNames v33
            clear_value v33
            split
            · extract_lets -merge +onlyGivenNames v38
              clear_value v38
              extract_lets -merge +onlyGivenNames v40
              have h41 : Keeps s0 v40 := (State.setGroupOf_keeps h16)
              clear_value v40
              extract_lets -merge +onlyGivenNames v42
              have h43 : Keeps s0 v42 := (State.setStripeHist_keeps h41)
              clear_value v42
              extract_lets -merge +onlyGivenNames u44 u45 v46
              clear_value u44
              clear_value u45
              have h49 : Keeps s0 v46 := (keeps_ite (State.setPipe_keeps h43) h43)
              clear_value v46
              exact (OptK.some (keeps_ite (State.blockEnd_keeps h49) h49))

theorem firstReady_keeps {s0 s : State} {b : Nat} {l : List FetchGroup} (h : Keeps s0 s) : OptK s0 id (firstReady s b l) := by
  induction l with
  | nil => exact OptK.none
  | cons g l ih =>
    rw [firstReady]
    split
    · next e => exact OptK.some (OptK.of (State.takeRowSet_keeps h) e)
    · exact ih

theorem State.updAhead_keeps {s0 : State} {s : State} {b : Nat} (h_1 : Keeps s0 s) : Keeps s0 (@State.updAhead s b) := by
  unfold State.updAhead
  split
  · extract_lets -merge +onlyGivenNames v4
    clear_value v4
    extract_lets -merge +onlyGivenNames v6
    clear_value v6
    extract_lets -merge +onlyGivenNames v8
    clear_value v8
    exact (State.set_keeps h_1)

theorem doDecodeRowSet_keeps {s0 : State} {b : Fin 8} {s : State} (h_1 : Keeps s0 s) : Keeps s0 (@doDecodeRowSet b s) := by
  unfold doDecodeRowSet
  apply keeps_ite
  · exact h_1
  · split
    · exact h_1
    · rename_i w2 e3
      have k4 : Keeps s0 w2 := OptK.of (firstReady_keeps h_1) e3
      exact (State.updLevel_keeps (State.updAhead_keeps k4))

theorem execDecodeRowSet_keeps {s0 : State} {b : Fin 8} {s : State} (h_1 : Keeps s0 s) : ∃ sn, @execDecodeRowSet b s = .next sn ∧ Keeps s0 sn := by
  unfold execDecodeRowSet
  exact ⟨_, rfl, (doDecodeRowSet_keeps h_1)⟩

end Sys2Proof.Machine
end

