-- ==== Sys2Proof/Laws/KeepsDramCtl.lean ====
section
/-! SUPPORT. What every operation and every command of Machine/DramCtl.lean keeps (Keeps). -/

set_option Elab.async false

namespace Sys2Proof.Machine

theorem State.relieve_keeps {s0 : State} {s : State} {c : Nat} {n : Nat} (h_1 : Keeps s0 s) : Keeps s0 (@State.relieve s c n) := by
  unfold State.relieve
  split
  · exact h_1
  · exact (State.setChan_keeps h_1)

theorem State.refreshRank_keeps {s0 : State} {s : State} {c : Nat} {r : Nat} {n : Nat} (h_1 : Keeps s0 s) : Keeps s0 (@State.refreshRank s c r n) := by
  unfold State.refreshRank
  extract_lets -merge +onlyGivenNames v1
  have h2 : Keeps s0 v1 := (State.setChan_keeps h_1)
  clear_value v1
  split
  · exact h2
  · exact (State.setChan_keeps h2)

theorem State.issueAll_keeps {s0 : State} {s : State} {c : Nat} (h_1 : Keeps s0 s) : Keeps s0 (@State.issueAll s c) := by
  unfold State.issueAll
  extract_lets -merge +onlyGivenNames v1
  clear_value v1
  extract_lets -merge +onlyGivenNames u3 v4
  clear_value u3
  have h6 : Keeps s0 v4 := (State.setChan_keeps h_1)
  clear_value v4
  exact (foldl_keeps h6 (fun _ _ h7 => (State.refreshRank_keeps h7)))

theorem State.enqueueReq_keeps {s0 : State} {s : State} {c : Nat} {p : DramPort} {write : Bool} {who : Option (Nat × Nat × Nat)} {ls : List Nat} (h_1 : Keeps s0 s) : Keeps s0 (@State.enqueueReq s c p write who ls) := by
  unfold State.enqueueReq
  extract_lets -merge +onlyGivenNames v1
  clear_value v1
  extract_lets -merge +onlyGivenNames v3
  clear_value v3
  extract_lets -merge +onlyGivenNames v5
  clear_value v5
  extract_lets -merge +onlyGivenNames v7
  have h8 : Keeps s0 v7 := (State.setChan_keeps h_1)
  clear_value v7
  exact (keeps_ite (State.set_keeps h8) h8)

theorem State.acceptReq_keeps {s0 : State} {s : State} {p : DramPort} {write : Bool} {who : Option (Nat × Nat × Nat)} {a : Nat} {n : Nat} (h_1 : Keeps s0 s) : OptK s0 id (@State.acceptReq s p write who a n) := by
  unfold State.acceptReq
  extract_lets -merge +onlyGivenNames v1
  clear_value v1
  extract_lets -merge +onlyGivenNames v3
  clear_value v3
  exact (OptK.ite (OptK.some (foldl_keeps h_1 (fun _ _ h5 => (State.enqueueReq_keeps h5)))) OptK.none)

theorem doDramRequest_keeps {s0 : State} {port : DramPort} {req : DramOp} {s : State} (h_1 : Keeps s0 s) : Keeps s0 (@doDramRequest port req s) := by
  unfold doDramRequest
  apply keeps_ite
  · exact h_1
  · split
    · split
      · apply keeps_ite
        · exact h_1
        · split
          · exact h_1
          · split
            · exact h_1
            · apply keeps_ite
              · exact (State.refuse_keeps (State.dramRange_keeps h_1))
              · split
                · exact h_1
                · rename_i w13 e14
                  have k15 : Keeps s0 w13 := OptK.of (State.acceptReq_keeps h_1) e14
                  exact (State.setGroupOf_keeps k15)
      · exact h_1
    · exact (keeps_ite h_1 (keeps_ite (State.dramRange_keeps h_1) (OptK.getD (State.acceptReq_keeps h_1) h_1)))
    · apply keeps_ite
      · exact h_1
      · apply keeps_ite
        · exact (State.dramRange_keeps h_1)
        · split
          · exact h_1
          · rename_i w22 e23
            have k24 : Keeps s0 w22 := OptK.of (State.acceptReq_keeps h_1) e23
            exact (State.writeDram_keeps k24)

theorem execDramRequest_keeps {s0 : State} {port : DramPort} {req : DramOp} {s : State} (h_1 : Keeps s0 s) : ∃ sn, @execDramRequest port req s = .next sn ∧ Keeps s0 sn := by
  unfold execDramRequest
  exact ⟨_, rfl, (doDramRequest_keeps h_1)⟩

theorem State.issueReq_keeps {s0 : State} {s : State} {c : Nat} {i : Nat} {r : DReq} (h_1 : Keeps s0 s) : Keeps s0 (@State.issueReq s c i r) := by
  unfold State.issueReq
  extract_lets -merge +onlyGivenNames v1
  split
  · extract_lets -merge +onlyGivenNames v6
    clear_value v6
    extract_lets -merge +onlyGivenNames v8
    clear_value v8
    extract_lets -merge +onlyGivenNames v10
    clear_value v10
    extract_lets -merge +onlyGivenNames v12
    extract_lets -merge +onlyGivenNames v14
    extract_lets -merge +onlyGivenNames v16
    clear_value v16
    extract_lets -merge +onlyGivenNames v18
    clear_value v18
    exact (State.setChan_keeps h_1)

theorem State.issuePostponed_keeps {s0 : State} {s : State} {c : Nat} (h_1 : Keeps s0 s) : Keeps s0 (@State.issuePostponed s c) := by
  unfold State.issuePostponed
  split
  · exact h_1
  · exact (State.refreshRank_keeps (State.setChan_keeps h_1))

theorem doDramCommandSlot_keeps {s0 : State} {c : Fin 4} {s : State} (h_1 : Keeps s0 s) : Keeps s0 (@doDramCommandSlot c s) := by
  unfold doDramCommandSlot
  apply keeps_ite
  · exact h_1
  · extract_lets -merge +onlyGivenNames v1
    have h2 : Keeps s0 v1 := (foldl_keeps h_1 (fun _ _ h3 => (State.setChan_keeps h3)))
    clear_value v1
    extract_lets -merge +onlyGivenNames v4
    clear_value v4
    extract_lets -merge +onlyGivenNames v6
    clear_value v6
    apply keeps_ite
    · exact (State.refreshRank_keeps h2)
    · extract_lets -merge +onlyGivenNames v8
      clear_value v8
      extract_lets -merge +onlyGivenNames v10
      clear_value v10
      extract_lets -merge +onlyGivenNames v12
      have h13 : Keeps s0 v12 := (keeps_ite (State.reportLimited_keeps h2) h2)
      clear_value v12
      extract_lets -merge +onlyGivenNames u14 v15
      clear_value u14
      have h17 : Keeps s0 v15 := (State.setChan_keeps h13)
      clear_value v15
      split
      · exact (State.issueReq_keeps h17)
      · exact (keeps_ite (State.issuePostponed_keeps h17) h17)

theorem execDramCommandSlot_keeps {s0 : State} {c : Fin 4} {s : State} (h_1 : Keeps s0 s) : ∃ sn, @execDramCommandSlot c s = .next sn ∧ Keeps s0 sn := by
  unfold execDramCommandSlot
  exact ⟨_, rfl, (doDramCommandSlot_keeps h_1)⟩

theorem doBurstDecode_keeps {s0 : State} {c : Fin 4} {err : List (Fin 16 × Fin 10 × BitVec 4)} {s : State} (h_1 : Keeps s0 s) : Keeps s0 (@doBurstDecode c err s) := by
  unfold doBurstDecode
  split
  · exact h_1
  · split
    · exact (State.setChan_keeps h_1)
    · extract_lets -merge +onlyGivenNames u10 v11
      clear_value u10
      have h13 : Keeps s0 v11 := (State.setChan_keeps h_1)
      clear_value v11
      extract_lets -merge +onlyGivenNames v14
      have h15 : PK s0 (·.st) v14 := (State.decodeBurst_keeps h13)
      clear_value v14
      extract_lets -merge +onlyGivenNames v16
      have h17 : Keeps s0 v16 := (PK.out h15)
      split
      · exact (State.fetchArrive_keeps h17)
      · exact (Keeps.upd h17)

theorem execBurstDecode_keeps {s0 : State} {c : Fin 4} {err : List (Fin 16 × Fin 10 × BitVec 4)} {s : State} (h_1 : Keeps s0 s) : ∃ sn, @execBurstDecode c err s = .next sn ∧ Keeps s0 sn := by
  unfold execBurstDecode
  exact ⟨_, rfl, (doBurstDecode_keeps h_1)⟩

theorem doRefreshInterval_keeps {s0 : State} {c : Fin 4} {rank : Fin 2} {s : State} (h_1 : Keeps s0 s) : Keeps s0 (@doRefreshInterval c rank s) := by
  unfold doRefreshInterval
  apply keeps_ite
  · exact h_1
  · extract_lets -merge +onlyGivenNames v1
    clear_value v1
    extract_lets -merge +onlyGivenNames v3
    clear_value v3
    exact (keeps_ite (State.setChan_keeps h_1) (State.refreshRank_keeps h_1))

theorem execRefreshInterval_keeps {s0 : State} {c : Fin 4} {rank : Fin 2} {s : State} (h_1 : Keeps s0 s) : ∃ sn, @execRefreshInterval c rank s = .next sn ∧ Keeps s0 sn := by
  unfold execRefreshInterval
  exact ⟨_, rfl, (doRefreshInterval_keeps h_1)⟩

theorem State.setRfNext_keeps {s0 : State} {s : State} {t : Nat} (h_1 : Keeps s0 s) : Keeps s0 (@State.setRfNext s t) := by
  unfold State.setRfNext
  exact (State.set64_keeps h_1)

theorem State.startWindow_keeps {s0 : State} {s : State} (h_1 : Keeps s0 s) : Keeps s0 (@State.startWindow s) := by
  unfold State.startWindow
  extract_lets -merge +onlyGivenNames v1
  have h2 : Keeps s0 v1 := (foldl_keeps h_1 (fun _ _ h3 => (State.relieve_keeps (State.setChan_keeps h3))))
  clear_value v1
  exact (Keeps.upd h2)

theorem doRefreshWindow_keeps {s0 : State} {s : State} (h_1 : Keeps s0 s) : Keeps s0 (@doRefreshWindow s) := by
  unfold doRefreshWindow
  exact (keeps_ite h_1 (State.startWindow_keeps (State.setRfNext_keeps h_1)))

theorem execRefreshWindow_keeps {s0 : State} {s : State} (h_1 : Keeps s0 s) : ∃ sn, @execRefreshWindow s = .next sn ∧ Keeps s0 sn := by
  unfold execRefreshWindow
  exact ⟨_, rfl, (doRefreshWindow_keeps h_1)⟩

theorem State.noteMr4_keeps {s0 : State} {s : State} {m : Mr4} (h_1 : Keeps s0 s) : Keeps s0 (@State.noteMr4 s m) := by
  unfold State.noteMr4
  extract_lets -merge +onlyGivenNames v1
  clear_value v1
  extract_lets -merge +onlyGivenNames v3
  clear_value v3
  extract_lets -merge +onlyGivenNames v5
  clear_value v5
  exact (State.setChan_keeps h_1)

theorem doMr4Poll_keeps {s0 : State} {codes : List Mr4} {s : State} (h_1 : Keeps s0 s) : Keeps s0 (@doMr4Poll codes s) := by
  unfold doMr4Poll
  apply keeps_ite
  · exact h_1
  · extract_lets -merge +onlyGivenNames v1
    clear_value v1
    extract_lets -merge +onlyGivenNames v3
    clear_value v3
    extract_lets -merge +onlyGivenNames v5
    clear_value v5
    extract_lets -merge +onlyGivenNames v7
    have h8 : Keeps s0 v7 := (foldl_keeps h_1 (fun _ _ h9 => (State.noteMr4_keeps h9)))
    clear_value v7
    extract_lets -merge +onlyGivenNames v10
    have h11 : Keeps s0 v10 := (State.set_keeps h8)
    clear_value v10
    extract_lets -merge +onlyGivenNames v12
    clear_value v12
    extract_lets -merge +onlyGivenNames u14 v15
    have h17 : Keeps s0 v15 := (Keeps.upd h11)
    clear_value v15
    extract_lets -merge +onlyGivenNames v18
    have h19 : Keeps s0 v18 := by
      unfold v18
      split
      · exact (State.report_keeps h17)
      · exact h17
    clear_value v18
    extract_lets -merge +onlyGivenNames v23
    clear_value v23
    extract_lets -merge +onlyGivenNames v25
    clear_value v25
    extract_lets -merge +onlyGivenNames v27
    have h28 : Keeps s0 v27 := (State.set_keeps h19)
    clear_value v27
    apply keeps_ite
    · apply keeps_ite
      · extract_lets -merge +onlyGivenNames v29
        clear_value v29
        extract_lets -merge +onlyGivenNames v31
        have h32 : Keeps s0 v31 := (State.set_keeps h28)
        clear_value v31
        extract_lets -merge +onlyGivenNames v33
        have h34 : Keeps s0 v33 := (keeps_ite (State.setRfNext_keeps h32) (State.startWindow_keeps (State.setRfNext_keeps h32)))
        clear_value v33
        exact (State.report_keeps h34)
      · exact (keeps_ite (State.set_keeps h28) h28)
    · exact (foldl_keeps h28 (fun _ _ h35 => (keeps_ite h35 (State.report_keeps (State.issueAll_keeps h35)))))

theorem execMr4Poll_keeps {s0 : State} {codes : List Mr4} {s : State} (h_1 : Keeps s0 s) : ∃ sn, @execMr4Poll codes s = .next sn ∧ Keeps s0 sn := by
  unfold execMr4Poll
  exact ⟨_, rfl, (doMr4Poll_keeps h_1)⟩

theorem doSelfRefreshEntry_keeps {s0 : State} {c : Fin 4} {s : State} (h_1 : Keeps s0 s) : Keeps s0 (@doSelfRefreshEntry c s) := by
  unfold doSelfRefreshEntry
  exact (keeps_ite h_1 (State.set_keeps (State.setChan_keeps h_1)))

theorem execSelfRefreshEntry_keeps {s0 : State} {c : Fin 4} {s : State} (h_1 : Keeps s0 s) : ∃ sn, @execSelfRefreshEntry c s = .next sn ∧ Keeps s0 sn := by
  unfold execSelfRefreshEntry
  exact ⟨_, rfl, (doSelfRefreshEntry_keeps h_1)⟩

theorem State.updDmcStat_keeps {s0 : State} {s : State} (h_1 : Keeps s0 s) : Keeps s0 (@State.updDmcStat s) := by
  unfold State.updDmcStat
  exact (State.set_keeps (State.set_keeps h_1))

theorem State.checkLtol_keeps {s0 : State} {s : State} (h_1 : Keeps s0 s) : Keeps s0 (@State.checkLtol s) := by
  unfold State.checkLtol
  exact (keeps_ite (State.report_keeps h_1) h_1)

theorem State.dmcEnable_keeps {s0 : State} {s : State} (h_1 : Keeps s0 s) : Keeps s0 (@State.dmcEnable s) := by
  unfold State.dmcEnable
  extract_lets -merge +onlyGivenNames v1
  have h2 : Keeps s0 v1 := (State.updDmcStat_keeps h_1)
  clear_value v1
  extract_lets -merge +onlyGivenNames v3
  clear_value v3
  extract_lets -merge +onlyGivenNames v5
  have h6 : Keeps s0 v5 := (State.set_keeps h2)
  clear_value v5
  extract_lets -merge +onlyGivenNames u7 v8
  have h10 : Keeps s0 v8 := (Keeps.upd h6)
  clear_value v8
  apply keeps_ite
  · extract_lets -merge +onlyGivenNames v11
    have h12 : Keeps s0 v11 := (State.set_keeps h10)
    clear_value v11
    extract_lets -merge +onlyGivenNames v13
    have h14 : Keeps s0 v13 := (State.set_keeps h12)
    clear_value v13
    exact (State.checkLtol_keeps (State.setRfNext_keeps h14))
  · exact (State.wr_keeps h10)

theorem State.dmcFrame_keeps {s0 : State} {s : State} (h_1 : Keeps s0 s) : Keeps s0 (@State.dmcFrame s) := by
  unfold State.dmcFrame
  exact (keeps_ite h_1 (keeps_ite (State.checkLtol_keeps h_1) (State.dmcEnable_keeps h_1)))

theorem State.writeDmcCtl_keeps {s0 : State} {s : State} {v : Word} (h_1 : Keeps s0 s) : Keeps s0 (@State.writeDmcCtl s v) := by
  unfold State.writeDmcCtl
  extract_lets -merge +onlyGivenNames v1
  clear_value v1
  extract_lets -merge +onlyGivenNames v3
  clear_value v3
  apply keeps_ite
  · exact (State.set_keeps h_1)
  · extract_lets -merge +onlyGivenNames v5
    have h6 : Keeps s0 v5 := (State.swWrite_keeps h_1)
    clear_value v5
    exact (keeps_ite (State.dmcEnable_keeps h6) (State.updDmcStat_keeps h6))

theorem doTsetWrite_keeps {s0 : State} {k : Fin 2} {v : Word} {s : State} (h_1 : Keeps s0 s) : Keeps s0 (@doTsetWrite k v s) := by
  unfold doTsetWrite
  extract_lets -merge +onlyGivenNames v1
  have h2 : Keeps s0 v1 := (State.set_keeps (State.swWrite_keeps h_1))
  clear_value v1
  exact (Keeps.upd h2)

theorem execTsetWrite_keeps {s0 : State} {k : Fin 2} {v : Word} {s : State} (h_1 : Keeps s0 s) : ∃ sn, @execTsetWrite k v s = .next sn ∧ Keeps s0 sn := by
  unfold execTsetWrite
  exact ⟨_, rfl, (State.busWrite_keeps h_1 (fun _ h1 => (doTsetWrite_keeps h1)))⟩

theorem doTimingDerived_keeps {s0 : State} {k : Fin 2} {cl : BitVec 8} {s : State} (h_1 : Keeps s0 s) : Keeps s0 (@doTimingDerived k cl s) := by
  unfold doTimingDerived
  split
  · exact h_1
  · extract_lets -merge +onlyGivenNames u4 v5
    have h7 : Keeps s0 v5 := (Keeps.upd h_1)
    clear_value v5
    exact (State.set_keeps (State.set_keeps (State.set_keeps h7)))

theorem execTimingDerived_keeps {s0 : State} {k : Fin 2} {cl : BitVec 8} {s : State} (h_1 : Keeps s0 s) : ∃ sn, @execTimingDerived k cl s = .next sn ∧ Keeps s0 sn := by
  unfold execTimingDerived
  exact ⟨_, rfl, (doTimingDerived_keeps h_1)⟩

theorem doFrequencyChange_keeps {s0 : State} {v : Word} {s : State} (h_1 : Keeps s0 s) : Keeps s0 (@doFrequencyChange v s) := by
  unfold doFrequencyChange
  extract_lets -merge +onlyGivenNames v1
  clear_value v1
  apply keeps_ite
  · exact (State.swWrite_keeps h_1)
  · apply keeps_ite
    · exact (State.set_keeps h_1)
    · extract_lets -merge +onlyGivenNames v3
      have h4 : Keeps s0 v3 := (State.set_keeps (State.swWrite_keeps h_1))
      clear_value v3
      extract_lets -merge +onlyGivenNames v5
      have h6 : Keeps s0 v5 := (keeps_ite (State.startWindow_keeps h4) (foldl_keeps h4 (fun _ _ h7 => (State.issueAll_keeps h7))))
      clear_value v5
      exact (Keeps.upd h6)

theorem execFrequencyChange_keeps {s0 : State} {v : Word} {s : State} (h_1 : Keeps s0 s) : ∃ sn, @execFrequencyChange v s = .next sn ∧ Keeps s0 sn := by
  unfold execFrequencyChange
  exact ⟨_, rfl, (State.busWrite_keeps h_1 (fun _ h1 => (doFrequencyChange_keeps h1)))⟩

theorem State.resumeDram_keeps {s0 : State} {s : State} (h_1 : Keeps s0 s) : Keeps s0 (@State.resumeDram s) := by
  unfold State.resumeDram
  extract_lets -merge +onlyGivenNames v1
  have h2 : Keeps s0 v1 := (State.set_keeps h_1)
  clear_value v1
  extract_lets -merge +onlyGivenNames v3
  have h4 : Keeps s0 v3 := (foldl_keeps h2 (fun _ _ h5 => (State.set_keeps (State.setChan_keeps h5))))
  clear_value v3
  extract_lets -merge +onlyGivenNames u6 v7
  have h9 : Keeps s0 v7 := (Keeps.upd h4)
  clear_value v7
  exact (keeps_ite (State.setRfNext_keeps h9) h9)

theorem doFrequencyChangeDone_keeps {s0 : State} {ok : Bool} {s : State} (h_1 : Keeps s0 s) : Keeps s0 (@doFrequencyChangeDone ok s) := by
  unfold doFrequencyChangeDone
  split
  · exact h_1
  · apply keeps_ite
    · exact h_1
    · apply keeps_ite
      · extract_lets -merge +onlyGivenNames v5
        have h6 : Keeps s0 v5 := (State.resumeDram_keeps (State.set_keeps h_1))
        clear_value v5
        extract_lets -merge +onlyGivenNames u7 v8
        have h10 : Keeps s0 v8 := (Keeps.upd h6)
        clear_value v8
        exact (State.set_keeps (State.set_keeps h10))
      · exact (State.report_keeps (State.resumeDram_keeps h_1))

theorem execFrequencyChangeDone_keeps {s0 : State} {ok : Bool} {s : State} (h_1 : Keeps s0 s) : ∃ sn, @execFrequencyChangeDone ok s = .next sn ∧ Keeps s0 sn := by
  unfold execFrequencyChangeDone
  exact ⟨_, rfl, (doFrequencyChangeDone_keeps h_1)⟩

theorem State.clearSymce_keeps {s0 : State} {s : State} (h_1 : Keeps s0 s) : Keeps s0 (@State.clearSymce s) := by
  unfold State.clearSymce
  exact (foldl_keeps h_1 (fun _ _ h1 => (State.set_keeps h1)))

theorem State.setScrubAt_keeps {s0 : State} {s : State} {n : Nat} (h_1 : Keeps s0 s) : Keeps s0 (@State.setScrubAt s n) := by
  unfold State.setScrubAt
  exact (Keeps.upd h_1)

theorem doPatrolScrub_keeps {s0 s : State} (h : Keeps s0 s) : Keeps s0 (doPatrolScrub s) := by
  unfold doPatrolScrub
  refine keeps_ite h ?_
  extract_lets -merge +onlyGivenNames place t
  have ht : Keeps s0 t := keeps_ite (State.clearSymce_keeps h) h
  clear_value t
  extract_lets -merge +onlyGivenNames a next v
  have hv : Keeps s0 v := State.setScrubAt_keeps ht
  clear_value v
  extract_lets -merge +onlyGivenNames r w
  have hr : PK s0 (·.st) r := State.readBurst_keeps hv
  clear_value r
  have hw : Keeps s0 w := hr.out
  exact keeps_ite hw (hw.dram (fun g => putBytes_wf g))

theorem execPatrolScrub_keeps {s0 : State} {s : State} (h_1 : Keeps s0 s) : ∃ sn, @execPatrolScrub s = .next sn ∧ Keeps s0 sn := by
  unfold execPatrolScrub
  exact ⟨_, rfl, (doPatrolScrub_keeps h_1)⟩

theorem doEccInject_keeps {s0 : State} {c : Fin 4} {v : Word} {s : State} (h_1 : Keeps s0 s) : Keeps s0 (@doEccInject c v s) := by
  unfold doEccInject
  extract_lets -merge +onlyGivenNames v1
  have h2 : Keeps s0 v1 := (State.swWrite_keeps h_1)
  clear_value v1
  exact (keeps_ite (State.setChan_keeps h2) h2)

theorem execEccInject_keeps {s0 : State} {c : Fin 4} {v : Word} {s : State} (h_1 : Keeps s0 s) : ∃ sn, @execEccInject c v s = .next sn ∧ Keeps s0 sn := by
  unfold execEccInject
  exact ⟨_, rfl, (State.busWrite_keeps h_1 (fun _ h1 => (doEccInject_keeps h1)))⟩

theorem State.writeEcctest_keeps {s0 : State} {s : State} {c : Nat} {v : Word} (h_1 : Keeps s0 s) : Keeps s0 (@State.writeEcctest s c v) := by
  unfold State.writeEcctest
  extract_lets -merge +onlyGivenNames v1
  clear_value v1
  extract_lets -merge +onlyGivenNames v3
  have h4 : Keeps s0 v3 := (State.swWrite_keeps h_1)
  clear_value v3
  exact (keeps_ite (State.wr_keeps h4) h4)

theorem State.oscRun_keeps {s0 : State} {s : State} {c : Nat} {drift : Nat} (h_1 : Keeps s0 s) : Keeps s0 (@State.oscRun s c drift) := by
  unfold State.oscRun
  extract_lets -merge +onlyGivenNames v1
  clear_value v1
  extract_lets -merge +onlyGivenNames u3 v4
  have h6 : Keeps s0 v4 := (State.calDone_keeps (Keeps.upd h_1))
  clear_value v4
  apply keeps_ite
  · exact h6
  · extract_lets -merge +onlyGivenNames u7 v8
    clear_value u7
    have h10 : Keeps s0 v8 := (State.setChan_keeps h6)
    clear_value v8
    exact (keeps_ite (State.report_keeps h10) h10)

theorem doDqsOscillatorRun_keeps {s0 : State} {c : Fin 4} {drift : Nat} {s : State} (h_1 : Keeps s0 s) : Keeps s0 (@doDqsOscillatorRun c drift s) := by
  unfold doDqsOscillatorRun
  exact (keeps_ite h_1 (State.oscRun_keeps h_1))

theorem execDqsOscillatorRun_keeps {s0 : State} {c : Fin 4} {drift : Nat} {s : State} (h_1 : Keeps s0 s) : ∃ sn, @execDqsOscillatorRun c drift s = .next sn ∧ Keeps s0 sn := by
  unfold execDqsOscillatorRun
  exact ⟨_, rfl, (doDqsOscillatorRun_keeps h_1)⟩

theorem doDramTraining_keeps {s0 : State} {c : Fin 4} {ok : Bool} {s : State} (h_1 : Keeps s0 s) : Keeps s0 (@doDramTraining c ok s) := by
  unfold doDramTraining
  apply keeps_ite
  · exact h_1
  · apply keeps_ite
    · extract_lets -merge +onlyGivenNames v1
      have h2 : Keeps s0 v1 := (State.set_keeps h_1)
      clear_value v1
      exact (State.updDmcStat_keeps (State.set_keeps h2))
    · exact (State.updDmcStat_keeps (State.report_keeps (State.set_keeps h_1)))

theorem execDramTraining_keeps {s0 : State} {c : Fin 4} {ok : Bool} {s : State} (h_1 : Keeps s0 s) : ∃ sn, @execDramTraining c ok s = .next sn ∧ Keeps s0 sn := by
  unfold execDramTraining
  exact ⟨_, rfl, (doDramTraining_keeps h_1)⟩

end Sys2Proof.Machine
end

