-- ==== Sys2Proof/Laws/KeepsFaultHub.lean ====
section
/-! SUPPORT. What every operation and every command of Machine/FaultHub.lean keeps (Keeps). -/

set_option Elab.async false

namespace Sys2Proof.Machine

theorem State.setHist_keeps {s0 : State} {s : State} {slot : Nat} {w : Nat} {v : Nat} (h_1 : Keeps s0 s) : Keeps s0 (@State.setHist s slot w v) := by
  unfold State.setHist
  exact (State.wr_keeps h_1)

theorem State.mergeInto_keeps {s0 : State} {s : State} {slot : Nat} {n : Nat} (h_1 : Keeps s0 s) : Keeps s0 (@State.mergeInto s slot n) := by
  unfold State.mergeInto
  extract_lets -merge +onlyGivenNames v1
  clear_value v1
  extract_lets -merge +onlyGivenNames v3
  clear_value v3
  extract_lets -merge +onlyGivenNames v5
  clear_value v5
  exact (State.setHist_keeps h_1)

theorem State.newEntry_keeps {s0 : State} {s : State} {slot : Nat} {code : Nat} {cls : Nat} {r : WaitRep} (h_1 : Keeps s0 s) : Keeps s0 (@State.newEntry s slot code cls r) := by
  unfold State.newEntry
  extract_lets -merge +onlyGivenNames v1
  clear_value v1
  extract_lets -merge +onlyGivenNames v3
  clear_value v3
  extract_lets -merge +onlyGivenNames v5
  clear_value v5
  extract_lets -merge +onlyGivenNames v7
  clear_value v7
  extract_lets -merge +onlyGivenNames v9
  extract_lets -merge +onlyGivenNames v11
  have h12 : Keeps s0 v11 := (State.setHist_keeps h_1)
  clear_value v11
  extract_lets -merge +onlyGivenNames v13
  have h14 : Keeps s0 v13 := (State.setHist_keeps h12)
  clear_value v13
  extract_lets -merge +onlyGivenNames v15
  have h16 : Keeps s0 v15 := (State.setHist_keeps (State.setHist_keeps (State.setHist_keeps h14)))
  clear_value v15
  extract_lets -merge +onlyGivenNames v17
  have h18 : Keeps s0 v17 := (State.setHist_keeps (State.setHist_keeps (State.setHist_keeps h16)))
  clear_value v17
  extract_lets -merge +onlyGivenNames v19
  have h20 : Keeps s0 v19 := (keeps_ite (State.set_keeps h18) h18)
  clear_value v19
  extract_lets -merge +onlyGivenNames v21
  have h22 : Keeps s0 v21 := (State.set_keeps h20)
  clear_value v21
  extract_lets -merge +onlyGivenNames v23
  have h24 : Keeps s0 v23 := (State.postEvent_keeps h22)
  clear_value v23
  exact (State.hostEvent_keeps (State.raiseVec_keeps h24))

theorem State.firstFault_keeps {s0 : State} {s : State} {slot : Nat} {code : Nat} {cls : Nat} (h_1 : Keeps s0 s) : Keeps s0 (@State.firstFault s slot code cls) := by
  unfold State.firstFault
  apply keeps_ite
  · exact h_1
  · extract_lets -merge +onlyGivenNames v1
    clear_value v1
    extract_lets -merge +onlyGivenNames v3
    clear_value v3
    extract_lets -merge +onlyGivenNames v5
    have h6 : Keeps s0 v5 := (keeps_ite (State.setHist_keeps h_1) h_1)
    clear_value v5
    extract_lets -merge +onlyGivenNames v7
    have h8 : Keeps s0 v7 := (State.set_keeps (State.set_keeps h6))
    clear_value v7
    exact (State.set64_keeps (State.set_keeps (State.set_keeps h8)))

theorem State.recordReport_keeps {s0 : State} {s : State} {code : Nat} {r : WaitRep} (h_1 : Keeps s0 s) : Keeps s0 (@State.recordReport s code r) := by
  unfold State.recordReport
  extract_lets -merge +onlyGivenNames v1
  clear_value v1
  extract_lets -merge +onlyGivenNames v3
  clear_value v3
  extract_lets -merge +onlyGivenNames v5
  clear_value v5
  extract_lets -merge +onlyGivenNames v7
  have h8 : Keeps s0 v7 := (State.bump_keeps (State.set_keeps h_1))
  clear_value v7
  extract_lets -merge +onlyGivenNames v9
  have h10 : Keeps s0 v9 := (keeps_ite (State.set_keeps h8) h8)
  clear_value v9
  apply keeps_ite
  · exact h10
  · split
    · extract_lets -merge +onlyGivenNames v13
      have h14 : Keeps s0 v13 := (State.mergeInto_keeps h10)
      clear_value v13
      exact (keeps_ite h14 (State.firstFault_keeps h14))
    · split
      · apply keeps_ite
        · exact h10
        · extract_lets -merge +onlyGivenNames v19
          have h20 : Keeps s0 v19 := (keeps_ite (State.report_keeps (State.bump_keeps h10)) h10)
          clear_value v19
          extract_lets -merge +onlyGivenNames v21
          have h22 : Keeps s0 v21 := (State.newEntry_keeps h20)
          clear_value v21
          exact (keeps_ite h22 (State.firstFault_keeps h22))
      · exact h10

theorem State.takeWaiting_keeps {s0 : State} {s : State} {code : Nat} (h_1 : Keeps s0 s) : OptK s0 (·.2) (@State.takeWaiting s code) := by
  unfold State.takeWaiting
  split
  · exact OptK.none
  · exact (OptK.some (PK.mk2 (Keeps.upd h_1)))

theorem doRailWalk_keeps {s0 : State} {answers : Bool} {s : State} (h_1 : Keeps s0 s) : Keeps s0 (@doRailWalk answers s) := by
  unfold doRailWalk
  extract_lets -merge +onlyGivenNames v1
  clear_value v1
  split
  · exact h_1
  · apply keeps_ite
    · exact h_1
    · extract_lets -merge +onlyGivenNames v6
      clear_value v6
      extract_lets -merge +onlyGivenNames v8
      extract_lets -merge +onlyGivenNames v10
      clear_value v10
      extract_lets -merge +onlyGivenNames v12
      clear_value v12
      exact (Keeps.upd h_1)

theorem execRailWalk_keeps {s0 : State} {answers : Bool} {s : State} (h_1 : Keeps s0 s) : ∃ sn, @execRailWalk answers s = .next sn ∧ Keeps s0 sn := by
  unfold execRailWalk
  exact ⟨_, rfl, (doRailWalk_keeps h_1)⟩

theorem doRailTestTimeout_keeps {s0 : State} {s : State} (h_1 : Keeps s0 s) : Keeps s0 (@doRailTestTimeout s) := by
  unfold doRailTestTimeout
  split
  · exact h_1
  · apply keeps_ite
    · exact h_1
    · extract_lets -merge +onlyGivenNames u5 v6
      clear_value u5
      have h8 : Keeps s0 v6 := (Keeps.upd h_1)
      clear_value v6
      exact (keeps_ite h8 (State.reportRep_keeps h8))

theorem execRailTestTimeout_keeps {s0 : State} {s : State} (h_1 : Keeps s0 s) : ∃ sn, @execRailTestTimeout s = .next sn ∧ Keeps s0 sn := by
  unfold execRailTestTimeout
  exact ⟨_, rfl, (doRailTestTimeout_keeps h_1)⟩

theorem doBrokenPair_keeps {s0 : State} {code : BitVec 16} {ns : Nat} {s : State} (h_1 : Keeps s0 s) : Keeps s0 (@doBrokenPair code ns s) := by
  unfold doBrokenPair
  extract_lets -merge +onlyGivenNames v1
  clear_value v1
  exact (keeps_ite h_1 (State.reportRep_keeps (State.set_keeps h_1)))

theorem execBrokenPair_keeps {s0 : State} {code : BitVec 16} {ns : Nat} {s : State} (h_1 : Keeps s0 s) : ∃ sn, @execBrokenPair code ns s = .next sn ∧ Keeps s0 sn := by
  unfold execBrokenPair
  exact ⟨_, rfl, (doBrokenPair_keeps h_1)⟩

theorem doInject_keeps {s0 : State} {v : Word} {s : State} (h_1 : Keeps s0 s) : Keeps s0 (@doInject v s) := by
  unfold doInject
  extract_lets -merge +onlyGivenNames v1
  have h2 : Keeps s0 v1 := (State.swWrite_keeps h_1)
  clear_value v1
  apply keeps_ite
  · exact h2
  · extract_lets -merge +onlyGivenNames v3
    clear_value v3
    extract_lets -merge +onlyGivenNames v5
    clear_value v5
    apply keeps_ite
    · exact (State.set_keeps h2)
    · extract_lets -merge +onlyGivenNames v7
      clear_value v7
      exact (Keeps.upd h2)

theorem execInjectFault_keeps {s0 : State} {v : Word} {s : State} (h_1 : Keeps s0 s) : ∃ sn, @execInjectFault v s = .next sn ∧ Keeps s0 sn := by
  unfold execInjectFault
  exact ⟨_, rfl, (State.busWrite_keeps h_1 (fun _ h1 => (doInject_keeps h1)))⟩

theorem doClrall_keeps {s0 s : State} {v : Word} (h : Keeps s0 s) : Keeps s0 (doClrall v s) :=
  keeps_ite h (h.regs Tab.mapE_wf)

theorem execClrall_keeps {s0 : State} {v : Word} {s : State} (h_1 : Keeps s0 s) : ∃ sn, @execClrall v s = .next sn ∧ Keeps s0 sn := by
  unfold execClrall
  exact ⟨_, rfl, (State.busWrite_keeps h_1 (fun _ h1 => (doClrall_keeps h1)))⟩

theorem doFirstFaultClear_keeps {s0 : State} {v : Word} {s : State} (h_1 : Keeps s0 s) : Keeps s0 (@doFirstFaultClear v s) := by
  unfold doFirstFaultClear
  exact (keeps_ite h_1 (State.set64_keeps (State.wr_keeps (State.wr_keeps h_1))))

theorem execFirstFaultClear_keeps {s0 : State} {v : Word} {s : State} (h_1 : Keeps s0 s) : ∃ sn, @execFirstFaultClear v s = .next sn ∧ Keeps s0 sn := by
  unfold execFirstFaultClear
  exact ⟨_, rfl, (State.busWrite_keeps h_1 (fun _ h1 => (doFirstFaultClear_keeps h1)))⟩

theorem doClassWrite_keeps {s0 : State} {code : BitVec 16} {v : Word} {s : State} (h_1 : Keeps s0 s) : Keeps s0 (@doClassWrite code v s) := by
  unfold doClassWrite
  extract_lets -merge +onlyGivenNames v1
  clear_value v1
  split
  · exact h_1
  · extract_lets -merge +onlyGivenNames v6
    clear_value v6
    extract_lets -merge +onlyGivenNames v8
    clear_value v8
    extract_lets -merge +onlyGivenNames v10
    clear_value v10
    extract_lets -merge +onlyGivenNames v12
    clear_value v12
    extract_lets -merge +onlyGivenNames v14
    have h15 : Keeps s0 v14 := (State.swWrite_keeps h_1)
    clear_value v14
    apply keeps_ite
    · exact (State.set_keeps h15)
    · extract_lets -merge +onlyGivenNames v16
      have h17 : Keeps s0 v16 := (State.set_keeps h15)
      clear_value v16
      exact (keeps_ite h17 (State.set_keeps h17))

theorem execClassWrite_keeps {s0 : State} {code : BitVec 16} {v : Word} {s : State} (h_1 : Keeps s0 s) : ∃ sn, @execClassWrite code v s = .next sn ∧ Keeps s0 sn := by
  unfold execClassWrite
  exact ⟨_, rfl, (State.busWrite_keeps h_1 (fun _ h1 => (doClassWrite_keeps h1)))⟩

end Sys2Proof.Machine
end

