-- ==== Sys2Proof/Laws/KeepsHost.lean ====
section
/-! SUPPORT. What every operation and every command of Machine/Host.lean keeps (Keeps). -/

set_option Elab.async false

namespace Sys2Proof.Machine

theorem State.hostRead_keeps {s0 : State} {s : State} {v : Word} (h_1 : Keeps s0 s) : Keeps s0 (@State.hostRead s v) := by
  unfold State.hostRead
  exact (Keeps.upd h_1)

theorem doBar0HoleAccess_keeps {s0 : State} {write : Bool} {off : BitVec 21} {size : Nat} {s : State} (h_1 : Keeps s0 s) : Keeps s0 (@doBar0HoleAccess write off size s) := by
  unfold doBar0HoleAccess
  exact (keeps_ite (State.report_keeps (keeps_ite h_1 (State.hostRead_keeps h_1))) (keeps_ite (State.report_keeps (keeps_ite h_1 (State.hostRead_keeps h_1))) h_1))

theorem execBar0HoleAccess_keeps {s0 : State} {write : Bool} {off : BitVec 21} {size : Nat} {s : State} (h_1 : Keeps s0 s) : ∃ sn, @execBar0HoleAccess write off size s = .next sn ∧ Keeps s0 sn := by
  unfold execBar0HoleAccess
  exact ⟨_, rfl, (doBar0HoleAccess_keeps h_1)⟩

theorem State.bar2Result_keeps {s0 : State} {s : State} {bs : List Byte} {bad : Bool} (h_1 : Keeps s0 s) : Keeps s0 (@State.bar2Result s bs bad) := by
  unfold State.bar2Result
  exact (Keeps.upd h_1)

theorem State.bar2Read_keeps {s0 : State} {s : State} {off : Nat} {n : Nat} (h_1 : Keeps s0 s) : Keeps s0 (@State.bar2Read s off n) := by
  unfold State.bar2Read
  extract_lets -merge +onlyGivenNames v1
  clear_value v1
  extract_lets -merge +onlyGivenNames v3
  clear_value v3
  extract_lets -merge +onlyGivenNames v5
  clear_value v5
  apply keeps_ite
  · exact h_1
  · apply keeps_ite
    · exact (State.report_keeps (State.bar2Result_keeps h_1))
    · apply keeps_ite
      · extract_lets -merge +onlyGivenNames v7
        have h8 : PK s0 (·.st) v7 := (State.readTarn_keeps h_1)
        clear_value v7
        exact (State.bar2Result_keeps (PK.out h8))
      · apply keeps_ite
        · exact (State.report_keeps (State.bar2Result_keeps h_1))
        · extract_lets -merge +onlyGivenNames v9
          clear_value v9
          apply keeps_ite
          · exact (State.report_keeps (State.bar2Result_keeps h_1))
          · apply keeps_ite
            · exact (State.report_keeps (State.bar2Result_keeps (State.dramRange_keeps h_1)))
            · extract_lets -merge +onlyGivenNames v11
              have h12 : PK s0 (·.st) v11 := (State.readDram_keeps h_1)
              clear_value v11
              exact (State.bar2Result_keeps (PK.out h12))

theorem State.bar2Write_keeps {s0 : State} {s : State} {off : Nat} {bs : List (Option Byte)} (h_1 : Keeps s0 s) : Keeps s0 (@State.bar2Write s off bs) := by
  unfold State.bar2Write
  extract_lets -merge +onlyGivenNames v1
  clear_value v1
  apply keeps_ite
  · exact h_1
  · apply keeps_ite
    · exact (State.report_keeps h_1)
    · apply keeps_ite
      · exact (foldl_keeps h_1 (fun _ _ h3 => (State.writeTarnGuarded_keeps h3)))
      · apply keeps_ite
        · exact (State.report_keeps h_1)
        · extract_lets -merge +onlyGivenNames v4
          clear_value v4
          exact (keeps_ite (State.report_keeps h_1) (keeps_ite (State.report_keeps (State.dramRange_keeps h_1)) (foldl_keeps h_1 (fun _ _ h6 => (State.writeDram_keeps h6)))))

theorem doBar2Request_keeps {s0 : State} {off : BitVec 26} {op : Bar2Op} {s : State} (h_1 : Keeps s0 s) : Keeps s0 (@doBar2Request off op s) := by
  unfold doBar2Request
  extract_lets -merge +onlyGivenNames v1
  clear_value v1
  split
  · extract_lets -merge +onlyGivenNames u4 v5
    have h7 : Keeps s0 v5 := (Keeps.upd h_1)
    clear_value v5
    extract_lets -merge +onlyGivenNames v8
    clear_value v8
    exact (State.bar2Read_keeps (State.bar2Read_keeps h7))
  · apply keeps_ite
    · exact h_1
    · extract_lets -merge +onlyGivenNames v11
      clear_value v11
      exact (State.bar2Write_keeps (State.bar2Write_keeps h_1))

theorem execBar2Request_keeps {s0 : State} {off : BitVec 26} {op : Bar2Op} {s : State} (h_1 : Keeps s0 s) : ∃ sn, @execBar2Request off op s = .next sn ∧ Keeps s0 sn := by
  unfold execBar2Request
  exact ⟨_, rfl, (doBar2Request_keeps h_1)⟩

theorem doAperWrite_keeps {s0 : State} {v : Word} {s : State} (h_1 : Keeps s0 s) : Keeps s0 (@doAperWrite v s) := by
  unfold doAperWrite
  exact (keeps_ite (State.report_keeps h_1) (State.swWrite_keeps h_1))

theorem execAperWrite_keeps {s0 : State} {v : Word} {s : State} (h_1 : Keeps s0 s) : ∃ sn, @execAperWrite v s = .next sn ∧ Keeps s0 sn := by
  unfold execAperWrite
  exact ⟨_, rfl, (State.busWrite_keeps h_1 (fun _ h1 => (doAperWrite_keeps h1)))⟩

theorem State.setFeatoff_keeps {s0 : State} {s : State} (h_1 : Keeps s0 s) : Keeps s0 (@State.setFeatoff s) := by
  unfold State.setFeatoff
  exact (State.set_keeps h_1)

theorem State.setDevQuiet_keeps {s0 : State} {s : State} {st : Nat} (h_1 : Keeps s0 s) : Keeps s0 (@State.setDevQuiet s st) := by
  unfold State.setDevQuiet
  exact (keeps_ite h_1 (State.raiseVec_keeps (State.set_keeps h_1)))

theorem doNegGo_keeps {s0 : State} {v : Word} {s : State} (h_1 : Keeps s0 s) : Keeps s0 (@doNegGo v s) := by
  unfold doNegGo
  extract_lets -merge +onlyGivenNames v1
  clear_value v1
  extract_lets -merge +onlyGivenNames v3
  have h4 : Keeps s0 v3 := (State.swWrite_keeps h_1)
  clear_value v3
  extract_lets -merge +onlyGivenNames v5
  clear_value v5
  apply keeps_ite
  · exact h4
  · extract_lets -merge +onlyGivenNames v7
    clear_value v7
    extract_lets -merge +onlyGivenNames v9
    clear_value v9
    extract_lets -merge +onlyGivenNames v11
    clear_value v11
    apply keeps_ite
    · extract_lets -merge +onlyGivenNames v13
      have h14 : Keeps s0 v13 := (State.set_keeps (State.set_keeps h4))
      clear_value v13
      exact (keeps_ite (State.setDevQuiet_keeps h14) h14)
    · exact (State.set_keeps h4)

theorem execNegGo_keeps {s0 : State} {v : Word} {s : State} (h_1 : Keeps s0 s) : ∃ sn, @execNegGo v s = .next sn ∧ Keeps s0 sn := by
  unfold execNegGo
  exact ⟨_, rfl, (State.busWrite_keeps h_1 (fun _ h1 => (doNegGo_keeps h1)))⟩

theorem State.resetRing_keeps {s0 : State} {s : State} (h_1 : Keeps s0 s) : Keeps s0 (@State.resetRing s) :=
  h_1.regs Tab.drop_wf

theorem State.mapMsgs_keeps {s0 : State} {s : State} {f : Msg → Msg} (h_1 : Keeps s0 s) : Keeps s0 (@State.mapMsgs s f) := by
  unfold State.mapMsgs
  extract_lets -merge +onlyGivenNames v1
  clear_value v1
  extract_lets -merge +onlyGivenNames v3
  clear_value v3
  extract_lets -merge +onlyGivenNames v5
  clear_value v5
  extract_lets -merge +onlyGivenNames v7
  clear_value v7
  exact (Keeps.upd h_1)

theorem doPcieReset_keeps {s0 : State} {_kind : LinkReset} {s : State} (h_1 : Keeps s0 s) : Keeps s0 (@doPcieReset _kind s) := by
  unfold doPcieReset
  extract_lets -merge +onlyGivenNames v1
  have h2 : Keeps s0 v1 := (State.mapMsgs_keeps (State.resetRing_keeps h_1))
  clear_value v1
  extract_lets -merge +onlyGivenNames v3
  clear_value v3
  extract_lets -merge +onlyGivenNames u5 v6
  have h8 : Keeps s0 v6 := (Keeps.upd h2)
  clear_value v6
  extract_lets -merge +onlyGivenNames v9
  have h10 : Keeps s0 v9 := (keeps_ite (State.setDevQuiet_keeps (State.setFeatoff_keeps h8)) h8)
  clear_value v9
  exact (State.report_keeps h10)

theorem execPcieReset_keeps {s0 : State} {kind : LinkReset} {s : State} (h_1 : Keeps s0 s) : ∃ sn, @execPcieReset kind s = .next sn ∧ Keeps s0 sn := by
  unfold execPcieReset
  exact ⟨_, rfl, (doPcieReset_keeps h_1)⟩

theorem State.stopQueue_keeps {s0 : State} {s : State} {q : Nat} (h_1 : Keeps s0 s) : Keeps s0 (@State.stopQueue s q) := by
  unfold State.stopQueue
  extract_lets -merge +onlyGivenNames v1
  clear_value v1
  extract_lets -merge +onlyGivenNames v3
  have h4 : Keeps s0 v3 := (State.mapMsgs_keeps h_1)
  clear_value v3
  exact (Keeps.upd h4)

theorem State.startQueue_keeps {s0 : State} {s : State} {q : Nat} (h_1 : Keeps s0 s) : Keeps s0 (@State.startQueue s q) := by
  unfold State.startQueue
  extract_lets -merge +onlyGivenNames v1
  have h2 : Keeps s0 v1 := (State.set_keeps (State.wr_keeps h_1))
  clear_value v1
  extract_lets -merge +onlyGivenNames v3
  have h4 : Keeps s0 v3 := (State.set_keeps (State.set_keeps h2))
  clear_value v3
  exact (Keeps.upd h4)

theorem doQueuePairConfig_keeps {s0 : State} {q : Fin 64} {v : Word} {s : State} (h_1 : Keeps s0 s) : Keeps s0 (@doQueuePairConfig q v s) := by
  unfold doQueuePairConfig
  extract_lets -merge +onlyGivenNames v1
  clear_value v1
  extract_lets -merge +onlyGivenNames v3
  have h4 : Keeps s0 v3 := (State.set_keeps h_1)
  clear_value v3
  apply keeps_ite
  · exact (keeps_ite h4 (State.stopQueue_keeps (State.set_keeps h4)))
  · extract_lets -merge +onlyGivenNames v5
    have h6 : Keeps s0 v5 := (State.set_keeps h4)
    clear_value v5
    extract_lets -merge +onlyGivenNames v7
    have h8 : Keeps s0 v7 := (keeps_ite h6 (State.set_keeps h6))
    clear_value v7
    exact (keeps_ite (State.report_keeps h8) (keeps_ite (State.startQueue_keeps (State.set_keeps h8)) h8))

theorem execQueuePairConfig_keeps {s0 : State} {q : Fin 64} {v : Word} {s : State} (h_1 : Keeps s0 s) : ∃ sn, @execQueuePairConfig q v s = .next sn ∧ Keeps s0 sn := by
  unfold execQueuePairConfig
  exact ⟨_, rfl, (State.busWrite_keeps h_1 (fun _ h1 => (doQueuePairConfig_keeps h1)))⟩

theorem State.writeQbase_keeps {s0 : State} {s : State} {q : Nat} {off : Nat} {lo : Bool} {v : Word} (h_1 : Keeps s0 s) : Keeps s0 (@State.writeQbase s q off lo v) := by
  unfold State.writeQbase
  exact (keeps_ite h_1 (State.wr_keeps h_1))

theorem doSqTailDoorbell_keeps {s0 : State} {q : Fin 64} {v : Word} {s : State} (h_1 : Keeps s0 s) : Keeps s0 (@doSqTailDoorbell q v s) := by
  unfold doSqTailDoorbell
  extract_lets -merge +onlyGivenNames v1
  clear_value v1
  exact (keeps_ite (State.report_keeps h_1) (keeps_ite (State.report_keeps (State.set_keeps h_1)) (State.postEvent_keeps (State.set_keeps h_1))))

theorem execSqTailDoorbell_keeps {s0 : State} {q : Fin 64} {v : Word} {s : State} (h_1 : Keeps s0 s) : ∃ sn, @execSqTailDoorbell q v s = .next sn ∧ Keeps s0 sn := by
  unfold execSqTailDoorbell
  exact ⟨_, rfl, (State.busWrite_keeps h_1 (fun _ h1 => (doSqTailDoorbell_keeps h1)))⟩

theorem doCqHeadDoorbell_keeps {s0 : State} {q : Fin 64} {v : Word} {s : State} (h_1 : Keeps s0 s) : Keeps s0 (@doCqHeadDoorbell q v s) := by
  unfold doCqHeadDoorbell
  extract_lets -merge +onlyGivenNames v1
  clear_value v1
  extract_lets -merge +onlyGivenNames v3
  clear_value v3
  extract_lets -merge +onlyGivenNames v5
  clear_value v5
  extract_lets -merge +onlyGivenNames v7
  clear_value v7
  apply keeps_ite
  · exact (State.report_keeps h_1)
  · apply keeps_ite
    · exact (State.report_keeps (State.set_keeps h_1))
    · extract_lets -merge +onlyGivenNames v9
      clear_value v9
      extract_lets -merge +onlyGivenNames v11
      clear_value v11
      extract_lets -merge +onlyGivenNames v13
      have h14 : Keeps s0 v13 := (State.set_keeps h_1)
      clear_value v13
      extract_lets -merge +onlyGivenNames v15
      have h16 : Keeps s0 v15 := (keeps_ite (State.set_keeps h14) h14)
      clear_value v15
      exact (Keeps.upd h16)

theorem execCqHeadDoorbell_keeps {s0 : State} {q : Fin 64} {v : Word} {s : State} (h_1 : Keeps s0 s) : ∃ sn, @execCqHeadDoorbell q v s = .next sn ∧ Keeps s0 sn := by
  unfold execCqHeadDoorbell
  exact ⟨_, rfl, (State.busWrite_keeps h_1 (fun _ h1 => (doCqHeadDoorbell_keeps h1)))⟩

theorem doEntryStart_keeps {s0 : State} {q : Fin 64} {entry : Option (List Word)} {s : State} (h_1 : Keeps s0 s) : Keeps s0 (@doEntryStart q entry s) := by
  unfold doEntryStart
  apply keeps_ite
  · exact h_1
  · extract_lets -merge +onlyGivenNames v1
    clear_value v1
    split
    · split
      · rename_i w3 w4 e5
        have k6 : Keeps s0 w4 := PK.of (f := (·.2)) (State.drawFree_keeps h_1) e5
        extract_lets -merge +onlyGivenNames v7
        have h8 : Keeps s0 v7 := (State.set_keeps k6)
        clear_value v7
        extract_lets -merge +onlyGivenNames v9
        clear_value v9
        exact (State.report_keeps (State.complete_keeps h8))
    · extract_lets -merge +onlyGivenNames v12
      clear_value v12
      extract_lets -merge +onlyGivenNames v14
      clear_value v14
      apply keeps_ite
      · exact h_1
      · extract_lets -merge +onlyGivenNames v16
        have h17 : Keeps s0 v16 := (State.set_keeps h_1)
        clear_value v16
        extract_lets -merge +onlyGivenNames u18 v19
        have h21 : Keeps s0 v19 := (Keeps.upd h17)
        clear_value v19
        split
        · exact (State.complete_keeps h21)
        · exact (Keeps.upd h21)

theorem execEntryStart_keeps {s0 : State} {q : Fin 64} {entry : Option (List Word)} {s : State} (h_1 : Keeps s0 s) : ∃ sn, @execEntryStart q entry s = .next sn ∧ Keeps s0 sn := by
  unfold execEntryStart
  exact ⟨_, rfl, (doEntryStart_keeps h_1)⟩

theorem doCompletionPost_keeps {s0 : State} {q : Fin 64} {ok : Bool} {s : State} (h_1 : Keeps s0 s) : Keeps s0 (@doCompletionPost q ok s) := by
  unfold doCompletionPost
  split
  · exact h_1
  · extract_lets -merge +onlyGivenNames v4
    clear_value v4
    extract_lets -merge +onlyGivenNames v6
    clear_value v6
    apply keeps_ite
    · exact (Keeps.upd h_1)
    · apply keeps_ite
      · extract_lets -merge +onlyGivenNames v8
        have h9 : Keeps s0 v8 := (State.set_keeps h_1)
        clear_value v8
        apply keeps_ite
        · exact h9
        · extract_lets -merge +onlyGivenNames u10 v11
          have h13 : Keeps s0 v11 := (Keeps.upd h9)
          clear_value v11
          exact (State.report_keeps h13)
      · extract_lets -merge +onlyGivenNames v14
        clear_value v14
        extract_lets -merge +onlyGivenNames v16
        clear_value v16
        extract_lets -merge +onlyGivenNames v18
        have h19 : Keeps s0 v18 := (keeps_ite (State.writeHost_keeps h_1) (State.report_keeps h_1))
        clear_value v18
        extract_lets -merge +onlyGivenNames v20
        have h21 : Keeps s0 v20 := (State.set_keeps h19)
        clear_value v20
        extract_lets -merge +onlyGivenNames v22
        clear_value v22
        extract_lets -merge +onlyGivenNames u24 v25
        have h27 : Keeps s0 v25 := (Keeps.upd h21)
        clear_value v25
        extract_lets -merge +onlyGivenNames v28
        have h29 : Keeps s0 v28 := (State.set_keeps h27)
        clear_value v28
        exact (keeps_ite (State.raiseVec_keeps h29) h29)

theorem execCompletionPost_keeps {s0 : State} {q : Fin 64} {ok : Bool} {s : State} (h_1 : Keeps s0 s) : ∃ sn, @execCompletionPost q ok s = .next sn ∧ Keeps s0 sn := by
  unfold execCompletionPost
  exact ⟨_, rfl, (doCompletionPost_keeps h_1)⟩

theorem doCoalesceTimeout_keeps {s0 : State} {q : Fin 64} {s : State} (h_1 : Keeps s0 s) : Keeps s0 (@doCoalesceTimeout q s) := by
  unfold doCoalesceTimeout
  split
  · exact h_1
  · extract_lets -merge +onlyGivenNames v5
    clear_value v5
    apply keeps_ite
    · exact h_1
    · extract_lets -merge +onlyGivenNames u7 v8
      have h10 : Keeps s0 v8 := (Keeps.upd h_1)
      clear_value v8
      exact (State.raiseVec_keeps h10)

theorem execCoalesceTimeout_keeps {s0 : State} {q : Fin 64} {s : State} (h_1 : Keeps s0 s) : ∃ sn, @execCoalesceTimeout q s = .next sn ∧ Keeps s0 sn := by
  unfold execCoalesceTimeout
  exact ⟨_, rfl, (doCoalesceTimeout_keeps h_1)⟩

theorem doVectorUnmask_keeps {s0 : State} {v : Fin 128} {s : State} (h_1 : Keeps s0 s) : Keeps s0 (@doVectorUnmask v s) := by
  unfold doVectorUnmask
  extract_lets -merge +onlyGivenNames v1
  have h2 : Keeps s0 v1 := (State.set_keeps h_1)
  clear_value v1
  extract_lets -merge +onlyGivenNames v3
  clear_value v3
  exact (keeps_ite (State.raiseVec_keeps (State.set_keeps h2)) h2)

theorem execVectorUnmask_keeps {s0 : State} {v : Fin 128} {s : State} (h_1 : Keeps s0 s) : ∃ sn, @execVectorUnmask v s = .next sn ∧ Keeps s0 sn := by
  unfold execVectorUnmask
  exact ⟨_, rfl, (State.busWrite_keeps h_1 (fun _ h1 => (doVectorUnmask_keeps h1)))⟩

theorem doRaise_keeps {s0 : State} {v : Word} {s : State} (h_1 : Keeps s0 s) : Keeps s0 (@doRaise v s) := by
  unfold doRaise
  exact (State.raiseVec_keeps h_1)

theorem execRaise_keeps {s0 : State} {v : Word} {s : State} (h_1 : Keeps s0 s) : ∃ sn, @execRaise v s = .next sn ∧ Keeps s0 sn := by
  unfold execRaise
  exact ⟨_, rfl, (State.busWrite_keeps h_1 (fun _ h1 => (doRaise_keeps h1)))⟩

theorem doDevStatus_keeps {s0 : State} {tok : Nat} {s : State} (h_1 : Keeps s0 s) : Keeps s0 (@doDevStatus tok s) := by
  unfold doDevStatus
  split
  · exact h_1
  · exact (State.complete_keeps h_1)

theorem execDevStatus_keeps {s0 : State} {tok : Nat} {s : State} (h_1 : Keeps s0 s) : ∃ sn, @execDevStatus tok s = .next sn ∧ Keeps s0 sn := by
  unfold execDevStatus
  exact ⟨_, rfl, (doDevStatus_keeps h_1)⟩

theorem doEventArm_keeps {s0 : State} {tok : Nat} {s : State} (h_1 : Keeps s0 s) : Keeps s0 (@doEventArm tok s) := by
  unfold doEventArm
  split
  · exact h_1
  · apply keeps_ite
    · exact h_1
    · apply keeps_ite
      · exact (State.complete_keeps h_1)
      · apply keeps_ite
        · exact (State.complete_keeps h_1)
        · split
          · exact (Keeps.upd h_1)
          · extract_lets -merge +onlyGivenNames v9
            clear_value v9
            extract_lets -merge +onlyGivenNames u11 v12
            have h14 : Keeps s0 v12 := (Keeps.upd h_1)
            clear_value v12
            exact (State.complete_keeps h14)

theorem execEventArm_keeps {s0 : State} {tok : Nat} {s : State} (h_1 : Keeps s0 s) : ∃ sn, @execEventArm tok s = .next sn ∧ Keeps s0 sn := by
  unfold execEventArm
  exact ⟨_, rfl, (doEventArm_keeps h_1)⟩

theorem State.hostFail_keeps {s0 : State} {s : State} {m : Msg} (h_1 : Keeps s0 s) : Keeps s0 (@State.hostFail s m) := by
  unfold State.hostFail
  exact (State.report_keeps (State.complete_keeps h_1))

theorem doFaultRead_keeps {s0 : State} {tok : Nat} {ok : Bool} {s : State} (h_1 : Keeps s0 s) : Keeps s0 (@doFaultRead tok ok s) := by
  unfold doFaultRead
  split
  · exact h_1
  · apply keeps_ite
    · exact (State.complete_keeps h_1)
    · apply keeps_ite
      · exact (State.hostFail_keeps h_1)
      · extract_lets -merge +onlyGivenNames v4
        clear_value v4
        extract_lets -merge +onlyGivenNames v6
        clear_value v6
        extract_lets -merge +onlyGivenNames v8
        have h9 : Keeps s0 v8 := (State.writeHost_keeps h_1)
        clear_value v8
        split
        · exact (State.complete_keeps h9)
        · split
          · rename_i w13 w14 e15
            have k16 : Keeps s0 w14 := PK.of (f := (·.2)) (State.drawFree_keeps h9) e15
            exact (State.complete_keeps k16)

theorem execFaultRead_keeps {s0 : State} {tok : Nat} {ok : Bool} {s : State} (h_1 : Keeps s0 s) : ∃ sn, @execFaultRead tok ok s = .next sn ∧ Keeps s0 sn := by
  unfold execFaultRead
  exact ⟨_, rfl, (doFaultRead_keeps h_1)⟩

theorem State.measRead_keeps {s0 : State} {s : State} {tok : Nat} {kind : Nat} {ok : Bool} {bytes : List Byte} {after : State → State} (h_1 : Keeps s0 s) (h_2 : ∀ y1, Keeps s0 y1 → Keeps s0 (after y1)) : Keeps s0 (@State.measRead s tok kind ok bytes after) := by
  unfold State.measRead
  split
  · exact h_1
  · exact (keeps_ite h_1 (keeps_ite (State.complete_keeps h_1) (keeps_ite (State.hostFail_keeps h_1) (State.complete_keeps (h_2 _ (State.writeHost_keeps h_1))))))

theorem doMeasReadDram_keeps {s0 : State} {tok : Nat} {ok : Bool} {s : State} (h_1 : Keeps s0 s) : Keeps s0 (@doMeasReadDram tok ok s) := by
  unfold doMeasReadDram
  exact (State.measRead_keeps h_1 (fun _ h1 => (foldl_keeps h1 (fun _ _ h2 => (State.setChan_keeps h2)))))

theorem execMeasReadDram_keeps {s0 : State} {tok : Nat} {ok : Bool} {s : State} (h_1 : Keeps s0 s) : ∃ sn, @execMeasReadDram tok ok s = .next sn ∧ Keeps s0 sn := by
  unfold execMeasReadDram
  exact ⟨_, rfl, (doMeasReadDram_keeps h_1)⟩

end Sys2Proof.Machine
end

