-- ==== Sys2Proof/Laws/KeepsIngest.lean ====
section
/-! SUPPORT. What every operation and every command of Machine/Ingest.lean keeps (Keeps). -/

set_option Elab.async false

namespace Sys2Proof.Machine

theorem State.setIngJob_keeps {s0 : State} {s : State} {j : IngJob} (h_1 : Keeps s0 s) : Keeps s0 (@State.setIngJob s j) := by
  unfold State.setIngJob
  exact (Keeps.upd h_1)

theorem State.setEncLane_keeps {s0 : State} {s : State} {l : Nat} {x : Option EncLane} (h_1 : Keeps s0 s) : Keeps s0 (@State.setEncLane s l x) := by
  unfold State.setEncLane
  exact (Keeps.upd h_1)

theorem State.updIng_keeps {s0 : State} {s : State} (h_1 : Keeps s0 s) : Keeps s0 (@State.updIng s) := by
  unfold State.updIng
  extract_lets -merge +onlyGivenNames v1
  clear_value v1
  extract_lets -merge +onlyGivenNames v3
  clear_value v3
  extract_lets -merge +onlyGivenNames v5
  have h6 : Keeps s0 v5 := by
    unfold v5
    refine foldl_keeps ?_ ?_
    · exact h_1
    · intro _ _ h7
      split
      · exact (State.wr_keeps h7)
      · exact (State.set_keeps (State.set_keeps (State.set_keeps h7)))
  clear_value v5
  extract_lets -merge +onlyGivenNames v11
  have h12 : Keeps s0 v11 := (State.set_keeps h6)
  clear_value v11
  extract_lets -merge +onlyGivenNames v13
  have h14 : Keeps s0 v13 := (State.set_keeps h12)
  clear_value v13
  extract_lets -merge +onlyGivenNames v15
  have h16 : Keeps s0 v15 := (State.set_keeps h14)
  clear_value v15
  extract_lets -merge +onlyGivenNames v17
  have h18 : Keeps s0 v17 := (State.set_keeps h16)
  clear_value v17
  exact (State.set_keeps h18)

theorem State.bufWrite_keeps {s0 : State} {s : State} {a : Nat} {bs : List Byte} (h_1 : Keeps s0 s) : Keeps s0 (@State.bufWrite s a bs) := by
  unfold State.bufWrite
  exact (keeps_ite (State.writeTarn_keeps h_1) h_1)

theorem takeBuffers_keeps {s0 : State} {l : Nat} {x1 : Nat} {x2 : EncLane} {x3 : State} (h_1 : Keeps s0 x3) : PK s0 (·.2) (@takeBuffers l x1 x2 x3) := by
  induction x1 generalizing x2 x3 with
  | zero =>
    rw [takeBuffers.eq_1]
    exact (PK.mk2 h_1)
  | succ n ih =>
    rw [takeBuffers.eq_2]
    apply PK.ite
    · exact (PK.mk2 h_1)
    · split
      · exact (PK.mk2 h_1)
      · extract_lets -merge +onlyGivenNames v5
        clear_value v5
        exact (ih (State.setEncLane_keeps (State.bufWrite_keeps h_1)))

theorem State.blockCoded_keeps {s0 : State} {s : State} {x : EncLane} (h_1 : Keeps s0 s) : Keeps s0 (@State.blockCoded s x) := by
  unfold State.blockCoded
  split
  · exact h_1
  · exact (State.setIngJob_keeps h_1)

theorem State.laneGoesOn_keeps {s0 : State} {s : State} {l : Nat} {x : EncLane} (h_1 : Keeps s0 s) : Keeps s0 (@State.laneGoesOn s l x) := by
  unfold State.laneGoesOn
  exact (keeps_ite (State.blockCoded_keeps (State.setEncLane_keeps h_1)) (State.report_keeps (State.setEncLane_keeps h_1)))

theorem feedLanes_keeps {s0 : State} {x0 : Nat} {x1 : State} (h_1 : Keeps s0 x1) : Keeps s0 (@feedLanes x0 x1) := by
  induction x0 generalizing x1 with
  | zero =>
    rw [feedLanes.eq_1]
    exact h_1
  | succ n ih =>
    rw [feedLanes.eq_2]
    split
    · split
      · rename_i w7 w8 e9
        have k10 : Keeps s0 w8 := PK.of (f := (·.2)) (takeBuffers_keeps h_1) e9
        exact (keeps_ite (ih (State.laneGoesOn_keeps k10)) (keeps_ite (State.laneGoesOn_keeps k10) (ih k10)))
    · exact h_1

theorem State.dropLane_keeps {s0 : State} {s : State} {l : Nat} (h_1 : Keeps s0 s) : Keeps s0 (@State.dropLane s l) := by
  unfold State.dropLane
  exact (feedLanes_keeps (State.setEncLane_keeps h_1))

theorem State.dropLanes_keeps {s0 : State} {s : State} {tok : Nat} (h_1 : Keeps s0 s) : Keeps s0 (@State.dropLanes s tok) := by
  unfold State.dropLanes
  exact (foldl_keeps h_1 (fun _ _ h1 => (State.setEncLane_keeps h1)))

theorem State.freeUnits_keeps {s0 : State} {s : State} {u : Nat} (h_1 : Keeps s0 s) : Keeps s0 (@State.freeUnits s u) := by
  unfold State.freeUnits
  exact (State.set_keeps h_1)

theorem State.freeStore_keeps {s0 : State} {s : State} {panel : Nat} (h_1 : Keeps s0 s) : Keeps s0 (@State.freeStore s panel) := by
  unfold State.freeStore
  extract_lets -merge +onlyGivenNames v1
  clear_value v1
  extract_lets -merge +onlyGivenNames v3
  have h4 : Keeps s0 v3 := (State.freeUnits_keeps h_1)
  clear_value v3
  exact (Keeps.upd h4)

theorem rollBack_keeps {s0 : State} {mine : List Nat} {x1 : Nat} {x2 : State} (h_1 : Keeps s0 x2) : Keeps s0 (@rollBack mine x1 x2) := by
  induction x1 generalizing x2 with
  | zero =>
    rw [rollBack.eq_1]
    exact h_1
  | succ n ih =>
    rw [rollBack.eq_2]
    split
    · exact h_1
    · apply keeps_ite
      · exact h_1
      · extract_lets -merge +onlyGivenNames v4
        clear_value v4
        extract_lets -merge +onlyGivenNames v6
        clear_value v6
        extract_lets -merge +onlyGivenNames v8
        have h9 : Keeps s0 v8 := (State.set_keeps (State.freeUnits_keeps h_1))
        clear_value v8
        exact (ih (Keeps.upd h9))

theorem State.writeEntry_keeps {s0 : State} {s : State} {panel : Nat} {entry : Nat} {addr : Nat} {lines : Nat} {bytes : Nat} (h_1 : Keeps s0 s) : Keeps s0 (@State.writeEntry s panel entry addr lines bytes) := by
  unfold State.writeEntry
  extract_lets -merge +onlyGivenNames v1
  clear_value v1
  exact (keeps_ite (State.writeDram_keeps h_1) (State.dramRange_keeps h_1))

theorem State.placeBlock_keeps {s0 : State} {s : State} {panel : Nat} {entry : Nat} {lines : Nat} {bs : List Byte} (h_1 : Keeps s0 s) : OptK s0 (·.2) (@State.placeBlock s panel entry lines bs) := by
  unfold State.placeBlock
  extract_lets -merge +onlyGivenNames v1
  clear_value v1
  split
  · exact OptK.none
  · extract_lets -merge +onlyGivenNames v7
    clear_value v7
    extract_lets -merge +onlyGivenNames v9
    clear_value v9
    extract_lets -merge +onlyGivenNames v11
    have h12 : Keeps s0 v11 := (keeps_ite (State.writeDram_keeps h_1) (State.dramRange_keeps h_1))
    clear_value v11
    extract_lets -merge +onlyGivenNames v13
    have h14 : Keeps s0 v13 := (State.set_keeps h12)
    clear_value v13
    extract_lets -merge +onlyGivenNames v15
    have h16 : Keeps s0 v15 := (State.set_keeps h14)
    clear_value v15
    extract_lets -merge +onlyGivenNames v17
    clear_value v17
    extract_lets -merge +onlyGivenNames u19 v20
    clear_value u19
    have h22 : Keeps s0 v20 := (State.bump_keeps (Keeps.upd h16))
    clear_value v20
    extract_lets -merge +onlyGivenNames v23
    clear_value v23
    extract_lets -merge +onlyGivenNames v25
    have h26 : Keeps s0 v25 := (keeps_ite (State.bufWrite_keeps h22) h22)
    clear_value v25
    exact (OptK.some (PK.mk2 (State.bufWrite_keeps h26)))

theorem State.endIngest_keeps {s0 : State} {s : State} {j : IngJob} {st : Status} {bytes : Nat} (h_1 : Keeps s0 s) : Keeps s0 (@State.endIngest s j st bytes) := by
  unfold State.endIngest
  extract_lets -merge +onlyGivenNames v1
  have h2 : Keeps s0 v1 := (State.dropLanes_keeps h_1)
  clear_value v1
  extract_lets -merge +onlyGivenNames u3 v4
  clear_value u3
  have h6 : Keeps s0 v4 := (feedLanes_keeps (Keeps.upd h2))
  clear_value v4
  exact (State.updIng_keeps (State.complete_keeps h6))

theorem State.freeEnvelope_keeps {s0 : State} {s : State} {j : IngJob} (h_1 : Keeps s0 s) : Keeps s0 (@State.freeEnvelope s j) := by
  unfold State.freeEnvelope
  exact (rollBack_keeps h_1)

theorem State.noFit_keeps {s0 : State} {s : State} {j : IngJob} (h_1 : Keeps s0 s) : Keeps s0 (@State.noFit s j) := by
  unfold State.noFit
  exact (keeps_ite h_1 (keeps_ite (State.updIng_keeps (State.setIngJob_keeps h_1)) (State.report_keeps (State.endIngest_keeps (State.freeEnvelope_keeps h_1)))))

theorem State.storeFor_keeps {s0 : State} {s : State} {j : IngJob} {group : Nat} {stripe : Nat} {lines : Nat} {bs : List Byte} (h_1 : Keeps s0 s) : OptK s0 id (@State.storeFor s j group stripe lines bs) := by
  unfold State.storeFor
  extract_lets -merge +onlyGivenNames v1
  clear_value v1
  extract_lets -merge +onlyGivenNames v3
  clear_value v3
  split
  · exact OptK.none
  · rename_i w6 w7 e8
    have k9 : Keeps s0 w7 := OptK.of (State.placeBlock_keeps h_1) e8
    extract_lets -merge +onlyGivenNames v10
    clear_value v10
    extract_lets -merge +onlyGivenNames v12
    extract_lets -merge +onlyGivenNames v14
    have h15 : Keeps s0 v14 := (keeps_ite k9 (State.writeEntry_keeps k9))
    clear_value v14
    exact (OptK.some (State.setIngJob_keeps h15))

theorem State.ingestDone_keeps {s0 : State} {s : State} {tok : Nat} (h_1 : Keeps s0 s) : Keeps s0 (@State.ingestDone s tok) := by
  unfold State.ingestDone
  split
  · exact h_1
  · exact (keeps_ite (State.updIng_keeps h_1) (keeps_ite (State.report_keeps (State.endIngest_keeps h_1)) (State.endIngest_keeps h_1)))

theorem State.addIngest_keeps {s0 : State} {s : State} {j : IngJob} (h_1 : Keeps s0 s) : Keeps s0 (@State.addIngest s j) := by
  unfold State.addIngest
  exact (State.updIng_keeps (Keeps.upd h_1))

theorem State.startEnvelope_keeps {s0 : State} {s : State} {m : Msg} {b : Job} {j : IngJob} {e : List Byte} (h_1 : Keeps s0 s) : Keeps s0 (@State.startEnvelope s m b j e) := by
  unfold State.startEnvelope
  extract_lets -merge +onlyGivenNames v1
  clear_value v1
  extract_lets -merge +onlyGivenNames v3
  have h4 : ∀ a5 a6, Keeps s0 (v3 a5 a6) := (fun _ _ => (State.report_keeps (State.complete_keeps h_1)))
  clear_value v3
  apply keeps_ite
  · exact (h4 _ _)
  · apply keeps_ite
    · exact (h4 _ _)
    · apply keeps_ite
      · exact (h4 _ _)
      · apply keeps_ite
        · exact (State.complete_keeps h_1)
        · split
          · exact (h4 _ _)
          · extract_lets -merge +onlyGivenNames v10
            clear_value v10
            exact (State.addIngest_keeps h_1)

theorem doIngest_keeps {s0 : State} {tok : Nat} {data : Option (List Byte)} {s : State} (h_1 : Keeps s0 s) : Keeps s0 (@doIngest tok data s) := by
  unfold doIngest
  split
  · exact h_1
  · apply keeps_ite
    · exact h_1
    · extract_lets -merge +onlyGivenNames v4
      clear_value v4
      extract_lets -merge +onlyGivenNames v6
      clear_value v6
      extract_lets -merge +onlyGivenNames v8
      clear_value v8
      extract_lets -merge +onlyGivenNames v10
      clear_value v10
      apply keeps_ite
      · exact (State.complete_keeps h_1)
      · apply keeps_ite
        · exact (State.complete_keeps h_1)
        · apply keeps_ite
          · exact (State.complete_keeps h_1)
          · split
            · exact (State.complete_keeps h_1)
            · split
              · exact (State.complete_keeps h_1)
              · apply keeps_ite
                · exact (State.complete_keeps h_1)
                · apply keeps_ite
                  · exact (State.complete_keeps h_1)
                  · apply keeps_ite
                    · exact (State.complete_keeps h_1)
                    · apply keeps_ite
                      · exact (State.complete_keeps h_1)
                      · extract_lets -merge +onlyGivenNames v18
                        clear_value v18
                        split
                        · exact (State.hostFail_keeps h_1)
                        · extract_lets -merge +onlyGivenNames v21
                          clear_value v21
                          exact (keeps_ite (State.addIngest_keeps h_1) (keeps_ite (State.addIngest_keeps h_1) (State.startEnvelope_keeps h_1)))

theorem execIngest_keeps {s0 : State} {tok : Nat} {data : Option (List Byte)} {s : State} (h_1 : Keeps s0 s) : ∃ sn, @execIngest tok data s = .next sn ∧ Keeps s0 sn := by
  unfold execIngest
  exact ⟨_, rfl, (doIngest_keeps h_1)⟩

theorem State.laneWrites_keeps {s0 : State} {s : State} {l : Nat} {x : EncLane} (h_1 : Keeps s0 s) : Keeps s0 (@State.laneWrites s l x) := by
  unfold State.laneWrites
  extract_lets -merge +onlyGivenNames v1
  have h2 : Keeps s0 v1 := (State.setEncLane_keeps (State.bufWrite_keeps h_1))
  clear_value v1
  split
  · rename_i w3 w4 e5
    have k6 : Keeps s0 w4 := PK.of (f := (·.2)) (takeBuffers_keeps h2) e5
    extract_lets -merge +onlyGivenNames v7
    have h8 : Keeps s0 v7 := (State.laneGoesOn_keeps k6)
    clear_value v7
    apply keeps_ite
    · split
      · exact (State.dropLane_keeps h8)
      · exact (State.report_keeps (State.endIngest_keeps h8))
    · exact (State.updIng_keeps h8)

theorem State.setIngBlock_keeps {s0 : State} {s : State} {j : IngJob} {b : IngBlock} (h_1 : Keeps s0 s) : Keeps s0 (@State.setIngBlock s j b) := by
  unfold State.setIngBlock
  exact (State.setIngJob_keeps h_1)

theorem doEncodeBlock_keeps {s0 : State} {l : Fin 16} {mismatch : Bool} {s : State} (h_1 : Keeps s0 s) : Keeps s0 (@doEncodeBlock l mismatch s) := by
  unfold doEncodeBlock
  apply keeps_ite
  · exact h_1
  · split
    · split
      · exact (keeps_ite (State.laneWrites_keeps h_1) h_1)
      · exact h_1
    · split
      · exact h_1
      · split
        · exact h_1
        · extract_lets -merge +onlyGivenNames v14
          clear_value v14
          apply keeps_ite
          · extract_lets -merge +onlyGivenNames v16
            have h17 : Keeps s0 v16 := (State.bump_keeps h_1)
            clear_value v16
            exact (keeps_ite (State.report_keeps (State.setIngBlock_keeps h17)) (State.report_keeps (State.endIngest_keeps h17)))
          · extract_lets -merge +onlyGivenNames v18
            clear_value v18
            extract_lets -merge +onlyGivenNames v20
            clear_value v20
            exact (State.laneWrites_keeps (State.setIngBlock_keeps h_1))

theorem execEncodeBlock_keeps {s0 : State} {l : Fin 16} {mismatch : Bool} {s : State} (h_1 : Keeps s0 s) : ∃ sn, @execEncodeBlock l mismatch s = .next sn ∧ Keeps s0 sn := by
  unfold execEncodeBlock
  exact ⟨_, rfl, (doEncodeBlock_keeps h_1)⟩

theorem State.laneBytes_keeps {s0 : State} {s : State} {l : Nat} {x : EncLane} (h_1 : Keeps s0 s) : PK s0 (·.2) (@State.laneBytes s l x) := by
  unfold State.laneBytes
  extract_lets -merge +onlyGivenNames v1
  clear_value v1
  extract_lets -merge +onlyGivenNames v3
  clear_value v3
  extract_lets -merge +onlyGivenNames v5
  clear_value v5
  apply PK.ite
  · exact (PK.mk2 h_1)
  · refine foldl_keeps2 ?_ ?_
    · exact (PK.mk2 h_1)
    · intro _ _ h7
      extract_lets -merge +onlyGivenNames v8
      have h9 : PK s0 (·.st) v8 := (State.readTarn_keeps (PK.out h7))
      clear_value v8
      exact (PK.mk2 (PK.out h9))

theorem doBlockStore_keeps {s0 : State} {tok : Nat} {s : State} (h_1 : Keeps s0 s) : Keeps s0 (@doBlockStore tok s) := by
  unfold doBlockStore
  split
  · exact h_1
  · split
    · exact h_1
    · split
      · exact h_1
      · extract_lets -merge +onlyGivenNames v11
        clear_value v11
        split
        · rename_i w15 w16 e17
          have k18 : Keeps s0 w16 := by
            refine PK.of (f := (·.2)) ?_ e17
            split
            · exact (PK.mk2 h_1)
            · exact (State.laneBytes_keeps h_1)
          split
          · exact (State.noFit_keeps h_1)
          · rename_i w20 e21
            have k22 : Keeps s0 w20 := OptK.of (State.storeFor_keeps k18) e21
            extract_lets -merge +onlyGivenNames v23
            have h24 : Keeps s0 v23 := by
              unfold v23
              split
              · exact k22
              · exact (State.setEncLane_keeps k22)
            clear_value v23
            exact (State.ingestDone_keeps h24)

theorem execBlockStore_keeps {s0 : State} {tok : Nat} {s : State} (h_1 : Keeps s0 s) : ∃ sn, @execBlockStore tok s = .next sn ∧ Keeps s0 sn := by
  unfold execBlockStore
  exact ⟨_, rfl, (doBlockStore_keeps h_1)⟩

theorem doStoreWaitTimeout_keeps {s0 : State} {tok : Nat} {s : State} (h_1 : Keeps s0 s) : Keeps s0 (@doStoreWaitTimeout tok s) := by
  unfold doStoreWaitTimeout
  split
  · exact h_1
  · split
    · exact h_1
    · exact (keeps_ite (State.report_keeps (State.endIngest_keeps (State.freeEnvelope_keeps h_1))) h_1)

theorem execStoreWaitTimeout_keeps {s0 : State} {tok : Nat} {s : State} (h_1 : Keeps s0 s) : ∃ sn, @execStoreWaitTimeout tok s = .next sn ∧ Keeps s0 sn := by
  unfold execStoreWaitTimeout
  exact ⟨_, rfl, (doStoreWaitTimeout_keeps h_1)⟩

theorem doSpillwayReturn_keeps {s0 : State} {l : Fin 16} {s : State} (h_1 : Keeps s0 s) : Keeps s0 (@doSpillwayReturn l s) := by
  unfold doSpillwayReturn
  split
  · exact h_1
  · split
    · exact h_1
    · exact (keeps_ite h_1 (State.updIng_keeps (feedLanes_keeps (State.setEncLane_keeps h_1))))

theorem execSpillwayReturn_keeps {s0 : State} {l : Fin 16} {s : State} (h_1 : Keeps s0 s) : ∃ sn, @execSpillwayReturn l s = .next sn ∧ Keeps s0 sn := by
  unfold execSpillwayReturn
  exact ⟨_, rfl, (doSpillwayReturn_keeps h_1)⟩

theorem doSpillTimeout_keeps {s0 : State} {s : State} (h_1 : Keeps s0 s) : Keeps s0 (@doSpillTimeout s) := by
  unfold doSpillTimeout
  extract_lets -merge +onlyGivenNames v1
  clear_value v1
  extract_lets -merge +onlyGivenNames v3
  clear_value v3
  apply keeps_ite
  · exact h_1
  · split
    · exact h_1
    · extract_lets -merge +onlyGivenNames v9
      have h10 : Keeps s0 v9 := (State.setEncLane_keeps h_1)
      clear_value v9
      exact (State.report_keeps (State.updIng_keeps (feedLanes_keeps h10)))

theorem execSpillTimeout_keeps {s0 : State} {s : State} (h_1 : Keeps s0 s) : ∃ sn, @execSpillTimeout s = .next sn ∧ Keeps s0 sn := by
  unfold execSpillTimeout
  exact ⟨_, rfl, (doSpillTimeout_keeps h_1)⟩

theorem State.refuseBlock_keeps {s0 : State} {s : State} {j : IngJob} {code : Nat} (h_1 : Keeps s0 s) : Keeps s0 (@State.refuseBlock s j code) := by
  unfold State.refuseBlock
  exact (keeps_ite (State.updIng_keeps (State.setIngJob_keeps h_1)) (State.report_keeps (State.endIngest_keeps h_1)))

theorem doPrecompressedBlock_keeps {s0 : State} {tok : Nat} {s : State} (h_1 : Keeps s0 s) : Keeps s0 (@doPrecompressedBlock tok s) := by
  unfold doPrecompressedBlock
  split
  · exact h_1
  · apply keeps_ite
    · exact h_1
    · split
      · exact h_1
      · split
        · exact (State.refuseBlock_keeps h_1)
        · extract_lets -merge +onlyGivenNames v12
          clear_value v12
          split
          · exact (State.refuseBlock_keeps h_1)
          · extract_lets -merge +onlyGivenNames v18
            extract_lets -merge +onlyGivenNames v20
            clear_value v20
            extract_lets -merge +onlyGivenNames v22
            clear_value v22
            extract_lets -merge +onlyGivenNames v24
            clear_value v24
            extract_lets -merge +onlyGivenNames v26
            clear_value v26
            extract_lets -merge +onlyGivenNames v28
            have h29 : Keeps s0 v28 := (State.setIngJob_keeps h_1)
            clear_value v28
            split
            · exact (State.noFit_keeps h29)
            · rename_i w31 e32
              have k33 : Keeps s0 w31 := OptK.of (State.storeFor_keeps h29) e32
              exact (State.ingestDone_keeps k33)

theorem execPrecompressedBlock_keeps {s0 : State} {tok : Nat} {s : State} (h_1 : Keeps s0 s) : ∃ sn, @execPrecompressedBlock tok s = .next sn ∧ Keeps s0 sn := by
  unfold execPrecompressedBlock
  exact ⟨_, rfl, (doPrecompressedBlock_keeps h_1)⟩

theorem State.markSecure_keeps {s0 : State} {s : State} {j : IngJob} (h_1 : Keeps s0 s) : Keeps s0 (@State.markSecure s j) := by
  unfold State.markSecure
  split
  · exact h_1
  · extract_lets -merge +onlyGivenNames v4
    clear_value v4
    extract_lets -merge +onlyGivenNames u6 v7
    clear_value u6
    have h9 : Keeps s0 v7 := (Keeps.upd h_1)
    clear_value v7
    exact (State.bufWrite_keeps h9)

theorem doGcmTagCheck_keeps {s0 : State} {tok : Nat} {s : State} (h_1 : Keeps s0 s) : Keeps s0 (@doGcmTagCheck tok s) := by
  unfold doGcmTagCheck
  split
  · exact h_1
  · apply keeps_ite
    · exact h_1
    · apply keeps_ite
      · exact (State.report_keeps (State.endIngest_keeps (State.freeEnvelope_keeps h_1)))
      · extract_lets -merge +onlyGivenNames v4
        have h5 : Keeps s0 v4 := (foldl_keeps h_1 (fun _ _ h6 => (State.writeEntry_keeps h6)))
        clear_value v4
        extract_lets -merge +onlyGivenNames v7
        clear_value v7
        split
        · exact (State.report_keeps (State.endIngest_keeps h5))
        · exact (State.endIngest_keeps (State.markSecure_keeps h5))

theorem execGcmTagCheck_keeps {s0 : State} {tok : Nat} {s : State} (h_1 : Keeps s0 s) : ∃ sn, @execGcmTagCheck tok s = .next sn ∧ Keeps s0 sn := by
  unfold execGcmTagCheck
  exact ⟨_, rfl, (doGcmTagCheck_keeps h_1)⟩

theorem State.writeIngCtl_keeps {s0 : State} {s : State} {v : Word} (h_1 : Keeps s0 s) : Keeps s0 (@State.writeIngCtl s v) := by
  unfold State.writeIngCtl
  extract_lets -merge +onlyGivenNames v1
  clear_value v1
  extract_lets -merge +onlyGivenNames v3
  have h4 : Keeps s0 v3 := (State.swWrite_keeps h_1)
  clear_value v3
  apply keeps_ite
  · exact h4
  · extract_lets -merge +onlyGivenNames v5
    have h6 : Keeps s0 v5 := (State.set_keeps h4)
    clear_value v5
    extract_lets -merge +onlyGivenNames v7
    have h8 : Keeps s0 v7 := (keeps_ite (State.set_keeps (State.set_keeps h6)) h6)
    clear_value v7
    exact (State.updIng_keeps h8)

theorem State.abortIngests_keeps {s0 : State} {s : State} (h_1 : Keeps s0 s) : Keeps s0 (@State.abortIngests s) := by
  unfold State.abortIngests
  extract_lets -merge +onlyGivenNames v1
  have h2 : Keeps s0 v1 := (foldl_keeps h_1 (fun _ _ h3 => (State.endIngest_keeps h3)))
  clear_value v1
  exact (foldl_keeps h2 (fun _ _ h4 => (State.complete_keeps h4)))

end Sys2Proof.Machine
end

