-- ==== Sys2Proof/Laws/KeepsGates.lean ====
section
/-! SUPPORT. What every operation and every command of Machine/Gates.lean keeps (Keeps). -/

set_option Elab.async false

namespace Sys2Proof.Machine

theorem State.startBeat_keeps {s0 : State} {s : State} {r : Nat} (h_1 : Keeps s0 s) : Keeps s0 (@State.startBeat s r) := by
  unfold State.startBeat
  extract_lets -merge +onlyGivenNames v1
  clear_value v1
  exact (Keeps.upd h_1)

theorem State.raiseRecord_keeps {s0 : State} {s : State} {r : Nat} {claim : Word} (h_1 : Keeps s0 s) : Keeps s0 (@State.raiseRecord s r claim) := by
  unfold State.raiseRecord
  apply keeps_ite
  · exact h_1
  · extract_lets -merge +onlyGivenNames v1
    clear_value v1
    extract_lets -merge +onlyGivenNames v3
    clear_value v3
    extract_lets -merge +onlyGivenNames v5
    have h6 : Keeps s0 v5 := (State.set_keeps h_1)
    clear_value v5
    apply keeps_ite
    · exact h6
    · extract_lets -merge +onlyGivenNames v7
      have h8 : Keeps s0 v7 := (State.startBeat_keeps h6)
      clear_value v7
      apply keeps_ite
      · split
        · exact (State.setEstate_keeps h8)
        · exact h8
      · exact h8

theorem State.readEng_keeps {s0 : State} {s : State} {e : Nat} {a : Nat} {n : Nat} (h_1 : Keeps s0 s) : PK s0 (·.st) (@State.readEng s e a n) := by
  unfold State.readEng
  exact (PK.ite (State.readLocal_keeps h_1) (State.readTarn_keeps h_1))

theorem doDesc_keeps {s0 : State} {e : Eng} {w : FmtA} {s : State} (h_1 : Keeps s0 s) : Keeps s0 (@doDesc e w s) := by
  unfold doDesc
  refine State.execA_keeps h_1 ?_
  · intro _ h1
    extract_lets -merge +onlyGivenNames v2
    clear_value v2
    extract_lets -merge +onlyGivenNames v4
    clear_value v4
    extract_lets -merge +onlyGivenNames v6
    clear_value v6
    apply keeps_ite
    · exact (State.trap_keeps h1)
    · apply keeps_ite
      · exact (State.setD_keeps h1)
      · apply keeps_ite
        · exact (State.trap_keeps h1)
        · apply keeps_ite
          · exact (State.trap_keeps h1)
          · extract_lets -merge +onlyGivenNames v8
            have h9 : PK s0 (·.st) v8 := (State.readEng_keeps h1)
            clear_value v8
            extract_lets -merge +onlyGivenNames v10
            have h11 : Keeps s0 v10 := (PK.out h9)
            apply keeps_ite
            · exact (State.trap_keeps h11)
            · extract_lets -merge +onlyGivenNames u12 v13
              clear_value u12
              have h15 : Keeps s0 v13 := (State.setGate_keeps h11)
              clear_value v13
              exact (State.setEngine_keeps h15)

theorem execDesc_keeps {s0 : State} {e : Eng} {w : FmtA} {s : State} (h_1 : Keeps s0 s) : ∃ sn, @execDesc e w s = .next sn ∧ Keeps s0 sn := by
  unfold execDesc
  exact ⟨_, rfl, (doDesc_keeps h_1)⟩

theorem doGclm_keeps {s0 : State} {e : Eng} {w : FmtA} {s : State} (h_1 : Keeps s0 s) : Keeps s0 (@doGclm e w s) := by
  unfold doGclm
  refine State.execA_keeps h_1 ?_
  · intro _ h1
    extract_lets -merge +onlyGivenNames v2
    clear_value v2
    exact (State.setD_keeps h1)

theorem execGclm_keeps {s0 : State} {e : Eng} {w : FmtA} {s : State} (h_1 : Keeps s0 s) : ∃ sn, @execGclm e w s = .next sn ∧ Keeps s0 sn := by
  unfold execGclm
  exact ⟨_, rfl, (doGclm_keeps h_1)⟩

theorem State.endDesc_keeps {s0 : State} {s : State} {e : Nat} {result : DWord} (h_1 : Keeps s0 s) : Keeps s0 (@State.endDesc s e result) := by
  unfold State.endDesc
  split
  · exact (State.setD_keeps (State.setEngine_keeps h_1))
  · exact h_1

theorem State.acceptDesc_keeps {s0 : State} {s : State} {g : Nat} {d : Desc} (h_1 : Keeps s0 s) : Keeps s0 (@State.acceptDesc s g d) := by
  unfold State.acceptDesc
  extract_lets -merge +onlyGivenNames v1
  clear_value v1
  extract_lets -merge +onlyGivenNames v3
  have h4 : Keeps s0 v3 := (keeps_ite (State.raiseRecord_keeps (State.setGate_keeps h_1)) h_1)
  clear_value v3
  apply keeps_ite
  · extract_lets -merge +onlyGivenNames v5
    have h6 : Keeps s0 v5 := (State.bump_keeps h4)
    clear_value v5
    exact (keeps_ite (State.postEvent_keeps h6) h6)
  · extract_lets -merge +onlyGivenNames v7
    have h8 : Keeps s0 v7 := (keeps_ite (State.set64_keeps h4) h4)
    clear_value v7
    exact (State.setGate_keeps h8)

theorem doGateGrant_keeps {s0 : State} {g : Fin 34} {e : Eng} {s : State} (h_1 : Keeps s0 s) : Keeps s0 (@doGateGrant g e s) := by
  unfold doGateGrant
  extract_lets -merge +onlyGivenNames v1
  clear_value v1
  split
  · exact h_1
  · apply keeps_ite
    · exact h_1
    · extract_lets -merge +onlyGivenNames v6
      have h7 : Keeps s0 v6 := (State.setGate_keeps h_1)
      clear_value v6
      exact (keeps_ite (State.endDesc_keeps (State.report_keeps h7)) (keeps_ite (State.endDesc_keeps (State.report_keeps h7)) (State.endDesc_keeps (State.acceptDesc_keeps h7))))

theorem execGateGrant_keeps {s0 : State} {g : Fin 34} {e : Eng} {s : State} (h_1 : Keeps s0 s) : ∃ sn, @execGateGrant g e s = .next sn ∧ Keeps s0 sn := by
  unfold execGateGrant
  exact ⟨_, rfl, (doGateGrant_keeps h_1)⟩

theorem State.markDone_keeps {s0 : State} {s : State} {g : Nat} (h_1 : Keeps s0 s) : Keeps s0 (@State.markDone s g) := by
  unfold State.markDone
  split
  · exact h_1
  · exact (State.setGate_keeps h_1)

theorem doUnitCompletion_keeps {s0 : State} {g : Fin 34} {s : State} (h_1 : Keeps s0 s) : Keeps s0 (@doUnitCompletion g s) := by
  unfold doUnitCompletion
  split
  · exact h_1
  · apply keeps_ite
    · exact h_1
    · extract_lets -merge +onlyGivenNames u5 v6
      clear_value u5
      have h8 : Keeps s0 v6 := (State.setGate_keeps h_1)
      clear_value v6
      exact (keeps_ite (State.postEvent_keeps h8) h8)

theorem doUnitStall_keeps {s0 : State} {g : Fin 34} {s : State} (h_1 : Keeps s0 s) : Keeps s0 (@doUnitStall g s) := by
  unfold doUnitStall
  split
  · exact h_1
  · extract_lets -merge +onlyGivenNames v5
    clear_value v5
    exact (keeps_ite h_1 (State.report_keeps (State.setGate_keeps h_1)))

theorem execUnitStall_keeps {s0 : State} {g : Fin 34} {s : State} (h_1 : Keeps s0 s) : ∃ sn, @execUnitStall g s = .next sn ∧ Keeps s0 sn := by
  unfold execUnitStall
  exact ⟨_, rfl, (doUnitStall_keeps h_1)⟩

theorem doClaim_keeps {s0 : State} {e : Eng} {w : FmtA} {s : State} (h_1 : Keeps s0 s) : Keeps s0 (@doClaim e w s) := by
  unfold doClaim
  refine State.execA_keeps h_1 ?_
  · intro _ h1
    extract_lets -merge +onlyGivenNames v2
    clear_value v2
    extract_lets -merge +onlyGivenNames v4
    clear_value v4
    extract_lets -merge +onlyGivenNames v6
    clear_value v6
    apply keeps_ite
    · exact (State.trap_keeps h1)
    · apply keeps_ite
      · exact (State.trap_keeps h1)
      · extract_lets -merge +onlyGivenNames v8
        clear_value v8
        extract_lets -merge +onlyGivenNames v10
        have h11 : Keeps s0 v10 := (State.set_keeps (State.set_keeps h1))
        clear_value v10
        exact (State.setD_keeps (State.setEngine_keeps h11))

theorem execClaim_keeps {s0 : State} {e : Eng} {w : FmtA} {s : State} (h_1 : Keeps s0 s) : ∃ sn, @execClaim e w s = .next sn ∧ Keeps s0 sn := by
  unfold execClaim
  exact ⟨_, rfl, (doClaim_keeps h_1)⟩

theorem doYield_keeps {s0 : State} {e : Eng} {w : FmtA} {s : State} (h_1 : Keeps s0 s) : Keeps s0 (@doYield e w s) := by
  unfold doYield
  refine State.execA_keeps h_1 ?_
  · intro _ h1
    extract_lets -merge +onlyGivenNames v2
    have h3 : Keeps s0 v2 := (State.set_keeps (State.set_keeps h1))
    clear_value v2
    exact (State.retire_keeps h3)

theorem execYield_keeps {s0 : State} {e : Eng} {w : FmtA} {s : State} (h_1 : Keeps s0 s) : ∃ sn, @execYield e w s = .next sn ∧ Keeps s0 sn := by
  unfold execYield
  exact ⟨_, rfl, (doYield_keeps h_1)⟩

theorem beatRoles_keeps {s0 : State} {e : Nat} {x1 : Nat} {x2 : State} (h_1 : Keeps s0 x2) : Keeps s0 (@beatRoles e x1 x2) := by
  induction x1 generalizing x2 with
  | zero =>
    rw [beatRoles.eq_1]
    exact h_1
  | succ n ih =>
    rw [beatRoles.eq_2]
    exact (keeps_ite (Keeps.upd (keeps_ite (State.startBeat_keeps (ih h_1)) (ih h_1))) (keeps_ite (State.startBeat_keeps (ih h_1)) (ih h_1)))

theorem doBeat_keeps {s0 : State} {by_ : Accessor} {s : State} (h_1 : Keeps s0 s) : Keeps s0 (@doBeat by_ s) := by
  unfold doBeat
  split
  · exact h_1
  · exact (beatRoles_keeps h_1)

theorem execBeat_keeps {s0 : State} {by_ : Accessor} {s : State} (h_1 : Keeps s0 s) : ∃ sn, @execBeat by_ s = .next sn ∧ Keeps s0 sn := by
  unfold execBeat
  exact ⟨_, rfl, (State.busWrite_keeps h_1 (fun _ h1 => (doBeat_keeps h1)))⟩

theorem State.setFailed_keeps {s0 : State} {s : State} {e : Nat} (h_1 : Keeps s0 s) : Keeps s0 (@State.setFailed s e) := by
  unfold State.setFailed
  exact (State.set_keeps h_1)

theorem doGiveup_keeps {s0 : State} {by_ : Accessor} {s : State} (h_1 : Keeps s0 s) : Keeps s0 (@doGiveup by_ s) := by
  unfold doGiveup
  split
  · exact h_1
  · extract_lets -merge +onlyGivenNames v2
    have h3 : Keeps s0 v2 := (State.setFailed_keeps h_1)
    clear_value v2
    split
    · exact (State.report_keeps h3)
    · exact (foldl_keeps h3 (fun _ _ h7 => (State.triggerTake_keeps (State.report_keeps h7))))

theorem execGiveup_keeps {s0 : State} {by_ : Accessor} {s : State} (h_1 : Keeps s0 s) : ∃ sn, @execGiveup by_ s = .next sn ∧ Keeps s0 sn := by
  unfold execGiveup
  exact ⟨_, rfl, (State.busWrite_keeps h_1 (fun _ h1 => (doGiveup_keeps h1)))⟩

theorem doAssert_keeps {s0 : State} {by_ : Accessor} {v : Word} {s : State} (h_1 : Keeps s0 s) : Keeps s0 (@doAssert by_ v s) := by
  unfold doAssert
  split
  · exact h_1
  · exact (keeps_ite (State.raiseRecord_keeps h_1) h_1)

theorem execAssertClaim_keeps {s0 : State} {by_ : Accessor} {v : Word} {s : State} (h_1 : Keeps s0 s) : ∃ sn, @execAssertClaim by_ v s = .next sn ∧ Keeps s0 sn := by
  unfold execAssertClaim
  exact ⟨_, rfl, (State.busWrite_keeps h_1 (fun _ h1 => (doAssert_keeps h1)))⟩

theorem State.seqMail_keeps {s0 : State} {s : State} {t : Nat} {lo : DWord} {hi : DWord} (h_1 : Keeps s0 s) : Keeps s0 (@State.seqMail s t lo hi) := by
  unfold State.seqMail
  extract_lets -merge +onlyGivenNames v1
  clear_value v1
  exact (keeps_ite h_1 (State.postEvent_keeps (State.setEngine_keeps h_1)))

theorem doHeartbeatTimeout_keeps {s0 : State} {r : Fin 16} {standby : Bool} {s : State} (h_1 : Keeps s0 s) : Keeps s0 (@doHeartbeatTimeout r standby s) := by
  unfold doHeartbeatTimeout
  split
  · exact h_1
  · extract_lets -merge +onlyGivenNames v4
    clear_value v4
    extract_lets -merge +onlyGivenNames v6
    clear_value v6
    extract_lets -merge +onlyGivenNames v8
    clear_value v8
    split
    · exact h_1
    · apply keeps_ite
      · exact h_1
      · apply keeps_ite
        · extract_lets -merge +onlyGivenNames u11 v12
          clear_value u11
          have h14 : Keeps s0 v12 := (Keeps.upd h_1)
          clear_value v12
          exact (State.triggerTake_keeps (State.report_keeps h14))
        · extract_lets -merge +onlyGivenNames v15
          clear_value v15
          extract_lets -merge +onlyGivenNames v17
          clear_value v17
          extract_lets -merge +onlyGivenNames u19 u20 v21
          clear_value u19
          clear_value u20
          have h24 : Keeps s0 v21 := (keeps_ite (Keeps.upd h_1) (Keeps.upd h_1))
          clear_value v21
          exact (State.report_keeps (State.seqMail_keeps h24))

theorem execHeartbeatTimeout_keeps {s0 : State} {r : Fin 16} {standby : Bool} {s : State} (h_1 : Keeps s0 s) : ∃ sn, @execHeartbeatTimeout r standby s = .next sn ∧ Keeps s0 sn := by
  unfold execHeartbeatTimeout
  exact ⟨_, rfl, (doHeartbeatTimeout_keeps h_1)⟩

end Sys2Proof.Machine
end

