-- ==== Sys2Proof/Laws/KeepsLinkOps.lean ====
section
/-! SUPPORT. What every operation and every command of Machine/LinkOps.lean keeps (Keeps). -/

set_option Elab.async false

namespace Sys2Proof.Machine

theorem State.sendPlain_keeps {s0 : State} {s : State} {p : Nat} {mtype : Nat} {dst : Nat} {arg : Nat} {body : List Word} (h_1 : Keeps s0 s) : Keeps s0 (@State.sendPlain s p mtype dst arg body) := by
  unfold State.sendPlain
  extract_lets -merge +onlyGivenNames v1
  clear_value v1
  exact (State.setPort_keeps h_1)

theorem State.sendAcked_keeps {s0 : State} {s : State} {p : Nat} {mtype : Nat} {dst : Nat} {body : List Word} (h_1 : Keeps s0 s) : Keeps s0 (@State.sendAcked s p mtype dst body) := by
  unfold State.sendAcked
  extract_lets -merge +onlyGivenNames v1
  clear_value v1
  extract_lets -merge +onlyGivenNames v3
  clear_value v3
  extract_lets -merge +onlyGivenNames v5
  clear_value v5
  exact (State.setPort_keeps h_1)

theorem State.sendSetup_keeps {s0 : State} {s : State} {sg : Nat} (h_1 : Keeps s0 s) : Keeps s0 (@State.sendSetup s sg) := by
  unfold State.sendSetup
  extract_lets -merge +onlyGivenNames v1
  clear_value v1
  extract_lets -merge +onlyGivenNames v3
  clear_value v3
  extract_lets -merge +onlyGivenNames v5
  clear_value v5
  exact (State.sendAcked_keeps h_1)

theorem State.sendCapq_keeps {s0 : State} {s : State} {sg : Nat} (h_1 : Keeps s0 s) : Keeps s0 (@State.sendCapq s sg) := by
  unfold State.sendCapq
  exact (State.sendAcked_keeps h_1)

theorem State.sendPing_keeps {s0 : State} {s : State} {sg : Nat} (h_1 : Keeps s0 s) : Keeps s0 (@State.sendPing s sg) := by
  unfold State.sendPing
  exact (State.sendAcked_keeps h_1)

theorem State.sendAdmit_keeps {s0 : State} {s : State} {sg : Nat} (h_1 : Keeps s0 s) : Keeps s0 (@State.sendAdmit s sg) := by
  unfold State.sendAdmit
  exact (State.sendAcked_keeps h_1)

theorem State.sendDerate_keeps {s0 : State} {s : State} {sg : Nat} {on : Bool} (h_1 : Keeps s0 s) : Keeps s0 (@State.sendDerate s sg on) := by
  unfold State.sendDerate
  exact (State.sendAcked_keeps h_1)

theorem State.sendQuiet_keeps {s0 : State} {s : State} {sg : Nat} {n : Nat} (h_1 : Keeps s0 s) : Keeps s0 (@State.sendQuiet s sg n) := by
  unfold State.sendQuiet
  exact (State.sendPlain_keeps h_1)

theorem State.sendUnstage_keeps {s0 : State} {s : State} {p : Nat} {mask : Nat} {g : Nat} (h_1 : Keeps s0 s) : Keeps s0 (@State.sendUnstage s p mask g) := by
  unfold State.sendUnstage
  exact (State.sendAcked_keeps h_1)

theorem State.sendStage_keeps {s0 : State} {s : State} {g : Nat} {line : Nat} {b : StagedBlock} {mask : Nat} (h_1 : Keeps s0 s) : Keeps s0 (@State.sendStage s g line b mask) := by
  unfold State.sendStage
  extract_lets -merge +onlyGivenNames v1
  clear_value v1
  extract_lets -merge +onlyGivenNames v3
  clear_value v3
  extract_lets -merge +onlyGivenNames v5
  clear_value v5
  exact (State.setPort_keeps h_1)

theorem State.setRates_keeps {s0 : State} {s : State} {b : Nat} (h_1 : Keeps s0 s) : Keeps s0 (@State.setRates s b) := by
  unfold State.setRates
  extract_lets -merge +onlyGivenNames v1
  clear_value v1
  apply keeps_ite
  · exact (State.set_keeps (State.set_keeps h_1))
  · extract_lets -merge +onlyGivenNames v3
    clear_value v3
    exact (State.set_keeps (State.set_keeps h_1))

theorem State.setSegLead_keeps {s0 : State} {s : State} (h_1 : Keeps s0 s) : Keeps s0 (@State.setSegLead s) := by
  unfold State.setSegLead
  extract_lets -merge +onlyGivenNames v1
  clear_value v1
  exact (State.set_keeps h_1)

theorem State.setEff_keeps {s0 : State} {s : State} {b : Nat} (h_1 : Keeps s0 s) : Keeps s0 (@State.setEff s b) := by
  unfold State.setEff
  exact (State.set_keeps h_1)

theorem State.setHmin_keeps {s0 : State} {s : State} {b : Nat} (h_1 : Keeps s0 s) : Keeps s0 (@State.setHmin s b) := by
  unfold State.setHmin
  extract_lets -merge +onlyGivenNames v1
  clear_value v1
  extract_lets -merge +onlyGivenNames u3 v4
  clear_value u3
  have h6 : Keeps s0 v4 := (State.setFireBar_keeps h_1)
  clear_value v4
  exact (State.setEff_keeps h6)

theorem State.setBufdMin_keeps {s0 : State} {s : State} {p : Nat} (h_1 : Keeps s0 s) : Keeps s0 (@State.setBufdMin s p) := by
  unfold State.setBufdMin
  extract_lets -merge +onlyGivenNames v1
  clear_value v1
  exact (State.set_keeps h_1)

theorem State.segSetChanged_keeps {s0 : State} {s : State} {p : Nat} (h_1 : Keeps s0 s) : Keeps s0 (@State.segSetChanged s p) := by
  unfold State.segSetChanged
  extract_lets -merge +onlyGivenNames v1
  have h2 : Keeps s0 v1 := (State.setSegLead_keeps (State.setBufdMin_keeps h_1))
  clear_value v1
  split
  · exact (State.setRates_keeps h2)
  · exact h2

theorem State.setSegState_keeps {s0 : State} {s : State} {sg : Nat} {st : Nat} (h_1 : Keeps s0 s) : Keeps s0 (@State.setSegState s sg st) := by
  unfold State.setSegState
  extract_lets -merge +onlyGivenNames v1
  have h2 : Keeps s0 v1 := (State.set_keeps h_1)
  clear_value v1
  extract_lets -merge +onlyGivenNames v3
  have h4 : Keeps s0 v3 := (keeps_ite (State.sendCapq_keeps h2) (keeps_ite (State.sendSetup_keeps h2) h2))
  clear_value v3
  exact (State.segSetChanged_keeps h4)

theorem segsAbsent_keeps {s0 : State} {p : Nat} {x1 : Nat} {x2 : State} (h_1 : Keeps s0 x2) : Keeps s0 (@segsAbsent p x1 x2) := by
  induction x1 generalizing x2 with
  | zero =>
    rw [segsAbsent.eq_1]
    exact h_1
  | succ n ih =>
    rw [segsAbsent.eq_2]
    exact (keeps_ite (keeps_ite (ih h_1) (State.setSeg_keeps (ih h_1))) (State.set_keeps (keeps_ite (ih h_1) (State.setSeg_keeps (ih h_1)))))

theorem State.dropSegments_keeps {s0 : State} {s : State} {p : Nat} (h_1 : Keeps s0 s) : Keeps s0 (@State.dropSegments s p) := by
  unfold State.dropSegments
  extract_lets -merge +onlyGivenNames v1
  have h2 : Keeps s0 v1 := (segsAbsent_keeps h_1)
  clear_value v1
  extract_lets -merge +onlyGivenNames v3
  clear_value v3
  extract_lets -merge +onlyGivenNames v5
  clear_value v5
  extract_lets -merge +onlyGivenNames v7
  have h8 : Keeps s0 v7 := (State.setPort_keeps h2)
  clear_value v7
  exact (State.segSetChanged_keeps (State.set_keeps h8))

theorem State.portDown_keeps {s0 : State} {s : State} {p : Nat} (h_1 : Keeps s0 s) : Keeps s0 (@State.portDown s p) := by
  unfold State.portDown
  extract_lets -merge +onlyGivenNames v1
  clear_value v1
  extract_lets -merge +onlyGivenNames v3
  have h4 : Keeps s0 v3 := (State.setPort_keeps h_1)
  clear_value v3
  extract_lets -merge +onlyGivenNames v5
  have h6 : Keeps s0 v5 := (State.set_keeps (State.calEndPort_keeps (State.set_keeps (State.set_keeps h4))))
  clear_value v5
  extract_lets -merge +onlyGivenNames v7
  have h8 : Keeps s0 v7 := (State.set_keeps (State.set_keeps (State.set_keeps (State.set_keeps h6))))
  clear_value v7
  exact (State.report_keeps (State.dropSegments_keeps h8))

end Sys2Proof.Machine
end

