-- ==== Sys2Proof/Laws/KeepsWeb.lean ====
section
/-! SUPPORT. What every operation and every command of Machine/Web.lean keeps (Keeps). -/

set_option Elab.async false

namespace Sys2Proof.Machine

theorem State.setSpeed_keeps {s0 : State} {s : State} {k : Nat} {mag : Nat} {neg : Bool} (h_1 : Keeps s0 s) : Keeps s0 (@State.setSpeed s k mag neg) := by
  unfold State.setSpeed
  exact (State.set_keeps h_1)

theorem State.periodSpeed_keeps {s0 : State} {s : State} {k : Nat} {ivs : List Nat} {neg : Bool} (h_1 : Keeps s0 s) : Keeps s0 (@State.periodSpeed s k ivs neg) := by
  unfold State.periodSpeed
  extract_lets -merge +onlyGivenNames v1
  clear_value v1
  exact (keeps_ite h_1 (State.setSpeed_keeps h_1))

theorem State.stretchEdge_keeps {s0 : State} {s : State} {k : Nat} {reversed : Bool} {forward : Bool} (h_1 : Keeps s0 s) : Keeps s0 (@State.stretchEdge s k reversed forward) := by
  unfold State.stretchEdge
  apply keeps_ite
  · exact h_1
  · extract_lets -merge +onlyGivenNames u1 v2
    clear_value u1
    have h4 : Keeps s0 v2 := (Keeps.upd h_1)
    clear_value v2
    apply keeps_ite
    · exact h4
    · apply keeps_ite
      · exact h_1
      · extract_lets -merge +onlyGivenNames v5
        clear_value v5
        extract_lets -merge +onlyGivenNames v7
        clear_value v7
        extract_lets -merge +onlyGivenNames v9
        have h10 : ∀ a11, Keeps s0 a11 → Keeps s0 (v9 a11) := (fun _ h12 => (Keeps.upd h12))
        clear_value v9
        apply keeps_ite
        · exact (h10 _ h_1)
        · extract_lets -merge +onlyGivenNames v13
          clear_value v13
          extract_lets -merge +onlyGivenNames v15
          clear_value v15
          apply keeps_ite
          · exact h_1
          · apply keeps_ite
            · exact (h10 _ h_1)
            · extract_lets -merge +onlyGivenNames v17
              clear_value v17
              extract_lets -merge +onlyGivenNames v19
              clear_value v19
              extract_lets -merge +onlyGivenNames v21
              have h22 : Keeps s0 v21 := (h10 _ (State.set_keeps h_1))
              clear_value v21
              exact (keeps_ite (State.report_keeps h22) h22)

theorem State.countEdge_keeps {s0 : State} {s : State} {k : Nat} {neg : Bool} (h_1 : Keeps s0 s) : Keeps s0 (@State.countEdge s k neg) := by
  unfold State.countEdge
  extract_lets -merge +onlyGivenNames v1
  clear_value v1
  extract_lets -merge +onlyGivenNames v3
  clear_value v3
  extract_lets -merge +onlyGivenNames v5
  clear_value v5
  extract_lets -merge +onlyGivenNames v7
  clear_value v7
  extract_lets -merge +onlyGivenNames v9
  clear_value v9
  extract_lets -merge +onlyGivenNames v11
  clear_value v11
  extract_lets -merge +onlyGivenNames v13
  clear_value v13
  extract_lets -merge +onlyGivenNames v15
  clear_value v15
  extract_lets -merge +onlyGivenNames v17
  have h18 : Keeps s0 v17 := (State.set_keeps h_1)
  clear_value v17
  extract_lets -merge +onlyGivenNames v19
  have h20 : Keeps s0 v19 := (keeps_ite (State.reportLimited_keeps (State.set_keeps h18)) h18)
  clear_value v19
  extract_lets -merge +onlyGivenNames v21
  clear_value v21
  extract_lets -merge +onlyGivenNames v23
  clear_value v23
  extract_lets -merge +onlyGivenNames v25
  clear_value v25
  extract_lets -merge +onlyGivenNames u27 u28 u29 u30 v31
  clear_value u27
  clear_value u28
  have h34 : Keeps s0 u29 := (State.setEncoder_keeps h20)
  clear_value u29
  have h35 : Keeps s0 u30 := (keeps_ite h34 (State.periodSpeed_keeps h34))
  clear_value u30
  have h36 : Keeps s0 v31 := (keeps_ite (State.set_keeps (State.setEncoder_keeps h20)) (keeps_ite (keeps_ite (State.setEncoder_keeps h20) (State.set_keeps (State.periodSpeed_keeps (State.setEncoder_keeps h20)))) (keeps_ite (State.set_keeps (State.set_keeps (State.periodSpeed_keeps (State.setEncoder_keeps h20)))) (keeps_ite (State.set_keeps h35) h35))))
  clear_value v31
  extract_lets -merge +onlyGivenNames u37 u38 v39
  clear_value u37
  clear_value u38
  have h42 : Keeps s0 v39 := (keeps_ite (Keeps.upd h36) h36)
  clear_value v39
  exact (State.stretchEdge_keeps h42)

theorem doEncoderEdge_keeps {s0 : State} {k : Fin 2} {a : Bool} {b : Bool} {s : State} (h_1 : Keeps s0 s) : Keeps s0 (@doEncoderEdge k a b s) := by
  unfold doEncoderEdge
  apply keeps_ite
  · exact h_1
  · extract_lets -merge +onlyGivenNames v1
    clear_value v1
    extract_lets -merge +onlyGivenNames v3
    clear_value v3
    extract_lets -merge +onlyGivenNames v5
    clear_value v5
    extract_lets -merge +onlyGivenNames v7
    have h8 : Keeps s0 v7 := (State.setEncoder_keeps h_1)
    clear_value v7
    apply keeps_ite
    · exact h8
    · apply keeps_ite
      · extract_lets -merge +onlyGivenNames u9 v10
        clear_value u9
        have h12 : Keeps s0 v10 := (State.setEncoder_keeps h8)
        clear_value v10
        extract_lets -merge +onlyGivenNames v13
        have h14 : Keeps s0 v13 := (State.set_keeps (State.bump_keeps h12))
        clear_value v13
        extract_lets -merge +onlyGivenNames u15 v16
        clear_value u15
        have h18 : Keeps s0 v16 := (Keeps.upd h14)
        clear_value v16
        exact (State.reportLimited_keeps h18)
      · extract_lets -merge +onlyGivenNames v19
        clear_value v19
        exact (State.countEdge_keeps h8)

theorem execEncoderEdge_keeps {s0 : State} {k : Fin 2} {a : Bool} {b : Bool} {s : State} (h_1 : Keeps s0 s) : ∃ sn, @execEncoderEdge k a b s = .next sn ∧ Keeps s0 sn := by
  unfold execEncoderEdge
  exact ⟨_, rfl, (doEncoderEdge_keeps h_1)⟩

theorem doSignalLoss_keeps {s0 : State} {k : Fin 2} {s : State} (h_1 : Keeps s0 s) : Keeps s0 (@doSignalLoss k s) := by
  unfold doSignalLoss
  apply keeps_ite
  · exact h_1
  · extract_lets -merge +onlyGivenNames u1 u2 v3
    have h4 : Keeps s0 u1 := (State.set_keeps h_1)
    clear_value u1
    clear_value u2
    have h6 : Keeps s0 v3 := (Keeps.upd h4)
    clear_value v3
    exact (State.report_keeps h6)

theorem execSignalLoss_keeps {s0 : State} {k : Fin 2} {s : State} (h_1 : Keeps s0 s) : ∃ sn, @execSignalLoss k s = .next sn ∧ Keeps s0 sn := by
  unfold execSignalLoss
  exact ⟨_, rfl, (doSignalLoss_keeps h_1)⟩

theorem doEncoderSignalReturn_keeps {s0 : State} {k : Fin 2} {s : State} (h_1 : Keeps s0 s) : Keeps s0 (@doEncoderSignalReturn k s) := by
  unfold doEncoderSignalReturn
  exact (State.set_keeps h_1)

theorem execEncoderSignalReturn_keeps {s0 : State} {k : Fin 2} {s : State} (h_1 : Keeps s0 s) : ∃ sn, @execEncoderSignalReturn k s = .next sn ∧ Keeps s0 sn := by
  unfold execEncoderSignalReturn
  exact ⟨_, rfl, (doEncoderSignalReturn_keeps h_1)⟩

theorem doIndexEdge_keeps {s0 : State} {k : Fin 2} {s : State} (h_1 : Keeps s0 s) : Keeps s0 (@doIndexEdge k s) := by
  unfold doIndexEdge
  apply keeps_ite
  · exact h_1
  · extract_lets -merge +onlyGivenNames v1
    clear_value v1
    extract_lets -merge +onlyGivenNames v3
    clear_value v3
    extract_lets -merge +onlyGivenNames v5
    have h6 : Keeps s0 v5 := (State.set64_keeps h_1)
    clear_value v5
    extract_lets -merge +onlyGivenNames v7
    have h8 : Keeps s0 v7 := (State.setEncoder_keeps h6)
    clear_value v7
    split
    · exact h8
    · exact (keeps_ite h8 (State.report_keeps (State.set_keeps h8)))

theorem execIndexEdge_keeps {s0 : State} {k : Fin 2} {s : State} (h_1 : Keeps s0 s) : ∃ sn, @execIndexEdge k s = .next sn ∧ Keeps s0 sn := by
  unfold execIndexEdge
  exact ⟨_, rfl, (doIndexEdge_keeps h_1)⟩

theorem doSpeedWindowEnd_keeps {s0 : State} {k : Fin 2} {s : State} (h_1 : Keeps s0 s) : Keeps s0 (@doSpeedWindowEnd k s) := by
  unfold doSpeedWindowEnd
  extract_lets -merge +onlyGivenNames v1
  clear_value v1
  apply keeps_ite
  · exact h_1
  · extract_lets -merge +onlyGivenNames v3
    clear_value v3
    extract_lets -merge +onlyGivenNames v5
    clear_value v5
    extract_lets -merge +onlyGivenNames v7
    clear_value v7
    extract_lets -merge +onlyGivenNames v9
    clear_value v9
    extract_lets -merge +onlyGivenNames v11
    have h12 : Keeps s0 v11 := (State.set_keeps h_1)
    clear_value v11
    extract_lets -merge +onlyGivenNames v13
    clear_value v13
    extract_lets -merge +onlyGivenNames v15
    have h16 : Keeps s0 v15 := (keeps_ite (State.setSpeed_keeps h12) h12)
    clear_value v15
    exact (State.setEncoder_keeps h16)

theorem execSpeedWindowEnd_keeps {s0 : State} {k : Fin 2} {s : State} (h_1 : Keeps s0 s) : ∃ sn, @execSpeedWindowEnd k s = .next sn ∧ Keeps s0 sn := by
  unfold execSpeedWindowEnd
  exact ⟨_, rfl, (doSpeedWindowEnd_keeps h_1)⟩

theorem doStandstill_keeps {s0 : State} {k : Fin 2} {s : State} (h_1 : Keeps s0 s) : Keeps s0 (@doStandstill k s) := by
  unfold doStandstill
  extract_lets -merge +onlyGivenNames v1
  clear_value v1
  split
  · exact h_1
  · apply keeps_ite
    · exact h_1
    · extract_lets -merge +onlyGivenNames v6
      have h7 : Keeps s0 v6 := (State.set_keeps (State.set_keeps (State.set_keeps h_1)))
      clear_value v6
      extract_lets -merge +onlyGivenNames v8
      have h9 : Keeps s0 v8 := (State.set_keeps (State.set_keeps h7))
      clear_value v8
      exact (State.setEncoder_keeps h9)

theorem execStandstill_keeps {s0 : State} {k : Fin 2} {s : State} (h_1 : Keeps s0 s) : ∃ sn, @execStandstill k s = .next sn ∧ Keeps s0 sn := by
  unfold execStandstill
  exact ⟨_, rfl, (doStandstill_keeps h_1)⟩

theorem State.writeEncCtl_keeps {s0 : State} {s : State} {k : Nat} {v : Word} (h_1 : Keeps s0 s) : Keeps s0 (@State.writeEncCtl s k v) := by
  unfold State.writeEncCtl
  extract_lets -merge +onlyGivenNames v1
  clear_value v1
  extract_lets -merge +onlyGivenNames v3
  have h4 : Keeps s0 v3 := (State.swWrite_keeps h_1)
  clear_value v3
  apply keeps_ite
  · extract_lets -merge +onlyGivenNames v5
    clear_value v5
    extract_lets -merge +onlyGivenNames v7
    have h8 : Keeps s0 v7 := (State.set_keeps (State.set_keeps (State.set_keeps h4)))
    clear_value v7
    extract_lets -merge +onlyGivenNames v9
    have h10 : Keeps s0 v9 := (State.set_keeps h8)
    clear_value v9
    exact (State.setEncoder_keeps h10)
  · exact h4

theorem State.writeEncGctl_keeps {s0 : State} {s : State} {v : Word} (h_1 : Keeps s0 s) : Keeps s0 (@State.writeEncGctl s v) := by
  unfold State.writeEncGctl
  extract_lets -merge +onlyGivenNames v1
  clear_value v1
  extract_lets -merge +onlyGivenNames v3
  clear_value v3
  extract_lets -merge +onlyGivenNames v5
  have h6 : Keeps s0 v5 := (State.swWrite_keeps h_1)
  clear_value v5
  extract_lets -merge +onlyGivenNames v7
  have h8 : Keeps s0 v7 := (keeps_ite (State.set_keeps h6) h6)
  clear_value v7
  extract_lets -merge +onlyGivenNames v9
  clear_value v9
  extract_lets -merge +onlyGivenNames u11 v12
  clear_value u11
  have h14 : Keeps s0 v12 := (keeps_ite (Keeps.upd h8) h8)
  clear_value v12
  apply keeps_ite
  · extract_lets -merge +onlyGivenNames v15
    have h16 : Keeps s0 v15 := (State.set_keeps h14)
    clear_value v15
    exact (Keeps.upd h16)
  · exact h14

theorem State.writeEncPos_keeps {s0 : State} {s : State} {k : Nat} {hi : Bool} {v : Word} (h_1 : Keeps s0 s) : Keeps s0 (@State.writeEncPos s k hi v) := by
  unfold State.writeEncPos
  apply keeps_ite
  · exact h_1
  · extract_lets -merge +onlyGivenNames v1
    clear_value v1
    extract_lets -merge +onlyGivenNames v3
    clear_value v3
    extract_lets -merge +onlyGivenNames v5
    clear_value v5
    exact (State.setEncoder_keeps h_1)

end Sys2Proof.Machine
end

