-- ==== Sys2Proof/Laws/KeepsGroupRegs.lean ====
section
/-! SUPPORT. What every operation and every command of Machine/GroupRegs.lean keeps (Keeps). -/

set_option Elab.async false

namespace Sys2Proof.Machine

theorem State.keep_keeps {s0 : State} {s : State} {off : Nat} {old : Word} {lo : Nat} {wid : Nat} (h_1 : Keeps s0 s) : Keeps s0 (@State.keep s off old lo wid) := by
  unfold State.keep
  exact (State.wr_keeps h_1)

theorem State.writeIbf_keeps {s0 : State} {s : State} {off : Nat} {v : Word} (h_1 : Keeps s0 s) : Keeps s0 (@State.writeIbf s off v) := by
  unfold State.writeIbf
  extract_lets -merge +onlyGivenNames v1
  clear_value v1
  extract_lets -merge +onlyGivenNames v3
  clear_value v3
  exact (keeps_ite h_1 (State.swWrite_keeps h_1))

theorem State.writeMapbase_keeps {s0 : State} {s : State} {v : Word} (h_1 : Keeps s0 s) : Keeps s0 (@State.writeMapbase s v) := by
  unfold State.writeMapbase
  exact (keeps_ite h_1 (State.swWrite_keeps h_1))

theorem State.writeBand_keeps {s0 : State} {s : State} {b : Nat} {v : Word} (h_1 : Keeps s0 s) : Keeps s0 (@State.writeBand s b v) := by
  unfold State.writeBand
  extract_lets -merge +onlyGivenNames v1
  clear_value v1
  extract_lets -merge +onlyGivenNames v3
  clear_value v3
  extract_lets -merge +onlyGivenNames v5
  have h6 : Keeps s0 v5 := (State.swWrite_keeps h_1)
  clear_value v5
  exact (keeps_ite (State.keep_keeps h6) h6)

theorem setupPorts_keeps {s0 : State} {x0 : List Nat} {x1 : State} (h_1 : Keeps s0 x1) : Keeps s0 (@setupPorts x0 x1) := by
  induction x0 generalizing x1 with
  | nil =>
    rw [setupPorts.eq_1]
    exact h_1
  | cons a t ih =>
    rw [setupPorts.eq_2]
    exact (ih (foldl_keeps h_1 (fun _ _ h1 => (State.sendSetup_keeps h1))))

theorem State.writeScn_keeps {s0 : State} {s : State} {off : Nat} {v : Word} (h_1 : Keeps s0 s) : Keeps s0 (@State.writeScn s off v) := by
  unfold State.writeScn
  apply keeps_ite
  · exact (State.writeMapbase_keeps h_1)
  · apply keeps_ite
    · exact (State.swWrite_keeps h_1)
    · extract_lets -merge +onlyGivenNames v1
      clear_value v1
      extract_lets -merge +onlyGivenNames v3
      clear_value v3
      apply keeps_ite
      · exact (State.writeBand_keeps h_1)
      · apply keeps_ite
        · extract_lets -merge +onlyGivenNames v5
          clear_value v5
          extract_lets -merge +onlyGivenNames v7
          have h8 : Keeps s0 v7 := (State.swWrite_keeps h_1)
          clear_value v7
          exact (keeps_ite (State.keep_keeps h8) (keeps_ite h8 (setupPorts_keeps (State.setRates_keeps h8))))
        · exact (State.swWrite_keeps h_1)

theorem State.setLeadsOf_keeps {s0 : State} {s : State} {b : Nat} (h_1 : Keeps s0 s) : Keeps s0 (@State.setLeadsOf s b) := by
  unfold State.setLeadsOf
  exact (State.setSegLead_keeps (foldl_keeps h_1 (fun _ _ h1 => (keeps_ite h1 (State.set_keeps h1)))))

theorem State.writeFire_keeps {s0 : State} {s : State} {off : Nat} {v : Word} (h_1 : Keeps s0 s) : Keeps s0 (@State.writeFire s off v) := by
  unfold State.writeFire
  extract_lets -merge +onlyGivenNames v1
  clear_value v1
  apply keeps_ite
  · extract_lets -merge +onlyGivenNames v3
    have h4 : Keeps s0 v3 := (State.swWrite_keeps h_1)
    clear_value v3
    extract_lets -merge +onlyGivenNames v5
    extract_lets -merge +onlyGivenNames v7
    extract_lets -merge +onlyGivenNames v9
    exact (keeps_ite (setupPorts_keeps h4) h4)
  · apply keeps_ite
    · extract_lets -merge +onlyGivenNames v11
      clear_value v11
      extract_lets -merge +onlyGivenNames v13
      clear_value v13
      extract_lets -merge +onlyGivenNames v15
      have h16 : Keeps s0 v15 := (State.swWrite_keeps h_1)
      clear_value v15
      apply keeps_ite
      · extract_lets -merge +onlyGivenNames v17
        have h18 : Keeps s0 v17 := (keeps_ite (State.keep_keeps h16) h16)
        clear_value v17
        exact (keeps_ite h18 (State.setRates_keeps (State.setLeadsOf_keeps h18)))
      · exact (keeps_ite (State.setEff_keeps h16) h16)
    · exact (State.swWrite_keeps h_1)

theorem State.writeSegen_keeps {s0 : State} {s : State} {p : Nat} {w : Nat} {v : Word} (h_1 : Keeps s0 s) : Keeps s0 (@State.writeSegen s p w v) := by
  unfold State.writeSegen
  extract_lets -merge +onlyGivenNames v1
  have h2 : Keeps s0 v1 := (State.wr_keeps h_1)
  clear_value v1
  extract_lets -merge +onlyGivenNames v3
  clear_value v3
  extract_lets -merge +onlyGivenNames v5
  have h6 : Keeps s0 v5 := (keeps_ite (foldl_keeps h2 (fun _ _ h7 => (keeps_ite (State.setSegState_keeps h7) h7))) h2)
  clear_value v5
  exact (State.segSetChanged_keeps h6)

theorem State.writeHlk_keeps {s0 : State} {s : State} {off : Nat} {v : Word} (h_1 : Keeps s0 s) : Keeps s0 (@State.writeHlk s off v) := by
  unfold State.writeHlk
  exact (keeps_ite (State.writeSegen_keeps h_1) (State.swWrite_keeps h_1))

theorem State.writeEnc_keeps {s0 : State} {s : State} {off : Nat} {v : Word} (h_1 : Keeps s0 s) : Keeps s0 (@State.writeEnc s off v) := by
  unfold State.writeEnc
  split
  · exact (keeps_ite (State.writeEncCtl_keeps h_1) (keeps_ite (State.writeEncGctl_keeps h_1) (keeps_ite (State.writeEncPos_keeps h_1) (keeps_ite (State.writeEncPos_keeps h_1) (keeps_ite h_1 (State.swWrite_keeps h_1))))))
  · exact h_1

theorem State.setCam_keeps {s0 : State} {s : State} {k : Nat} {x : Cam} (h_1 : Keeps s0 s) : Keeps s0 (@State.setCam s k x) := by
  unfold State.setCam
  exact (Keeps.upd h_1)

theorem State.writePctl_keeps {s0 : State} {s : State} {k : Nat} {v : Word} (h_1 : Keeps s0 s) : Keeps s0 (@State.writePctl s k v) := by
  unfold State.writePctl
  extract_lets -merge +onlyGivenNames v1
  clear_value v1
  extract_lets -merge +onlyGivenNames v3
  clear_value v3
  extract_lets -merge +onlyGivenNames v5
  extract_lets -merge +onlyGivenNames v7
  have h8 : Keeps s0 v7 := (State.swWrite_keeps h_1)
  clear_value v7
  extract_lets -merge +onlyGivenNames v9
  have h10 : Keeps s0 v9 := (keeps_ite (State.keep_keeps h8) h8)
  clear_value v9
  extract_lets -merge +onlyGivenNames v11
  clear_value v11
  exact (keeps_ite (keeps_ite (State.report_keeps (State.set_keeps (State.set_keeps h10))) (State.setCam_keeps h10)) (keeps_ite (State.set_keeps (State.setCam_keeps h10)) h10))

theorem State.writeCam_keeps {s0 : State} {s : State} {off : Nat} {v : Word} (h_1 : Keeps s0 s) : Keeps s0 (@State.writeCam s off v) := by
  unfold State.writeCam
  extract_lets -merge +onlyGivenNames v1
  clear_value v1
  extract_lets -merge +onlyGivenNames v3
  clear_value v3
  exact (keeps_ite (State.writePctl_keeps h_1) (keeps_ite h_1 (State.swWrite_keeps h_1)))

theorem State.blockWrite_keeps {s0 : State} {s : State} {off : Nat} {v : Word} (h_1 : Keeps s0 s) : Keeps s0 (@State.blockWrite s off v) := by
  unfold State.blockWrite
  apply keeps_ite
  · exact h_1
  · split
    · exact (State.writeIbf_keeps h_1)
    · exact (State.writeScn_keeps h_1)
    · exact (State.writeFire_keeps h_1)
    · exact (State.writeEnc_keeps h_1)
    · exact (State.writeHlk_keeps h_1)
    · exact (State.writeCam_keeps h_1)
    · exact (State.swWrite_keeps h_1)

theorem execMapbaseWrite_keeps {s0 : State} {v : Word} {s : State} (h_1 : Keeps s0 s) : ∃ sn, @execMapbaseWrite v s = .next sn ∧ Keeps s0 sn := by
  unfold execMapbaseWrite
  exact ⟨_, rfl, (State.busWrite_keeps h_1 (fun _ h1 => (State.writeMapbase_keeps h1)))⟩

theorem execBandStart_keeps {s0 : State} {b : Fin 8} {v : Word} {s : State} (h_1 : Keeps s0 s) : ∃ sn, @execBandStart b v s = .next sn ∧ Keeps s0 sn := by
  unfold execBandStart
  exact ⟨_, rfl, (State.busWrite_keeps h_1 (fun _ h1 => (State.writeBand_keeps h1)))⟩

theorem doSegenWrite_keeps {s0 : State} {p : Fin 16} {w : Fin 4} {v : Word} {s : State} (h_1 : Keeps s0 s) : Keeps s0 (@doSegenWrite p w v s) := by
  unfold doSegenWrite
  exact (keeps_ite h_1 (keeps_ite (State.report_keeps h_1) (State.writeSegen_keeps h_1)))

theorem execSegenWrite_keeps {s0 : State} {p : Fin 16} {w : Fin 4} {v : Word} {s : State} (h_1 : Keeps s0 s) : ∃ sn, @execSegenWrite p w v s = .next sn ∧ Keeps s0 sn := by
  unfold execSegenWrite
  exact ⟨_, rfl, (State.busWrite_keeps h_1 (fun _ h1 => (doSegenWrite_keeps h1)))⟩

end Sys2Proof.Machine
end

