-- ==== Sys2Proof/Laws/KeepsCommit.lean ====
section
/-! SUPPORT. What every operation and every command of Machine/Commit.lean keeps (Keeps). -/

set_option Elab.async false

namespace Sys2Proof.Machine

theorem doTquery_keeps {s0 : State} {v : Word} {s : State} (h_1 : Keeps s0 s) : Keeps s0 (@doTquery v s) := by
  unfold doTquery
  extract_lets -merge +onlyGivenNames v1
  clear_value v1
  split
  · exact (State.set_keeps (State.set_keeps (State.set_keeps h_1)))
  · exact (State.wr_keeps h_1)

theorem execTquery_keeps {s0 : State} {v : Word} {s : State} (h_1 : Keeps s0 s) : ∃ sn, @execTquery v s = .next sn ∧ Keeps s0 sn := by
  unfold execTquery
  exact ⟨_, rfl, (State.busWrite_keeps h_1 (fun _ h1 => (doTquery_keeps h1)))⟩

theorem unstageAll_keeps {s0 : State} {g : Nat} {x1 : List Nat} {x2 : List StagedBlock} {x3 : State} (h_1 : Keeps s0 x3) : Keeps s0 (@unstageAll g x1 x2 x3) := by
  induction x1 generalizing x2 x3 with
  | nil =>
    rw [unstageAll.eq_1]
    exact h_1
  | cons a t ih =>
    rw [unstageAll.eq_2]
    exact (ih (keeps_ite (State.sendUnstage_keeps h_1) h_1))

theorem State.abortGroup_keeps {s0 : State} {s : State} {g : Nat} {cause : Nat} (h_1 : Keeps s0 s) : Keeps s0 (@State.abortGroup s g cause) := by
  unfold State.abortGroup
  extract_lets -merge +onlyGivenNames v1
  clear_value v1
  extract_lets -merge +onlyGivenNames v3
  have h4 : Keeps s0 v3 := (unstageAll_keeps h_1)
  clear_value v3
  extract_lets -merge +onlyGivenNames u5 v6
  clear_value u5
  have h8 : Keeps s0 v6 := (State.setGroup_keeps h4)
  clear_value v6
  exact (State.postEvent_keeps (State.set_keeps (State.set_keeps h8)))

theorem State.cmtReport_keeps {s0 : State} {s : State} {code : Nat} {g : Nat} (h_1 : Keeps s0 s) : Keeps s0 (@State.cmtReport s code g) := by
  unfold State.cmtReport
  exact (State.report_keeps h_1)

theorem State.groupApplied_keeps {s0 : State} {s : State} {g : Nat} (h_1 : Keeps s0 s) : Keeps s0 (@State.groupApplied s g) := by
  unfold State.groupApplied
  extract_lets -merge +onlyGivenNames v1
  clear_value v1
  exact (keeps_ite (State.postEvent_keeps (State.set_keeps h_1)) h_1)

theorem State.switchTab_keeps {s0 : State} {s : State} {t : TabEntry} (h_1 : Keeps s0 s) : Keeps s0 (@State.switchTab s t) := by
  unfold State.switchTab
  split
  · exact (Keeps.upd h_1)
  · exact h_1

theorem State.notePbase_keeps {s0 : State} {s : State} {g : Nat} {s' : State} {off : Nat} (h_1 : Keeps s0 s) (h_2 : Keeps s0 s') : Keeps s0 (@State.notePbase s g s' off) := by
  unfold State.notePbase
  apply keeps_ite
  · extract_lets -merge +onlyGivenNames v1
    clear_value v1
    extract_lets -merge +onlyGivenNames v3
    clear_value v3
    exact (State.set_keeps (State.set_keeps h_2))
  · exact h_2

theorem State.switchIf_keeps {s0 : State} {s : State} {g : Nat} {pw : Nat × Word → Bool} {pt : TabEntry → Bool} (h_1 : Keeps s0 s) : Keeps s0 (@State.switchIf s g pw pt) := by
  unfold State.switchIf
  extract_lets -merge +onlyGivenNames v1
  clear_value v1
  extract_lets -merge +onlyGivenNames v3
  clear_value v3
  extract_lets -merge +onlyGivenNames v5
  clear_value v5
  apply keeps_ite
  · exact h_1
  · extract_lets -merge +onlyGivenNames v7
    have h8 : Keeps s0 v7 := (State.setGroup_keeps h_1)
    clear_value v7
    extract_lets -merge +onlyGivenNames v9
    have h10 : Keeps s0 v9 := (State.set_keeps h8)
    clear_value v9
    extract_lets -merge +onlyGivenNames v11
    have h12 : Keeps s0 v11 := (foldl_keeps h10 (fun _ _ h13 => (State.notePbase_keeps h13 (State.blockWrite_keeps h13))))
    clear_value v11
    exact (foldl_keeps h12 (fun _ _ h14 => (State.switchTab_keeps h14)))

theorem State.switchNoBar_keeps {s0 : State} {s : State} {g : Nat} (h_1 : Keeps s0 s) : Keeps s0 (@State.switchNoBar s g) := by
  unfold State.switchNoBar
  exact (State.switchIf_keeps h_1)

theorem State.beginGroup_keeps {s0 : State} {s : State} {g : Nat} (h_1 : Keeps s0 s) : Keeps s0 (@State.beginGroup s g) := by
  unfold State.beginGroup
  extract_lets -merge +onlyGivenNames u1 v2
  clear_value u1
  have h4 : Keeps s0 v2 := (State.setGroup_keeps h_1)
  clear_value v2
  extract_lets -merge +onlyGivenNames v5
  clear_value v5
  extract_lets -merge +onlyGivenNames v7
  have h8 : Keeps s0 v7 := (State.switchIf_keeps h4)
  clear_value v7
  exact (State.groupApplied_keeps h8)

theorem State.startUnit1_keeps {s0 : State} {s : State} {u : SwUnit} {b : Nat} {n : Nat} {g : Nat} (h_1 : Keeps s0 s) : Keeps s0 (@State.startUnit1 s u b n g) := by
  unfold State.startUnit1
  apply keeps_ite
  · exact h_1
  · extract_lets -merge +onlyGivenNames v1
    clear_value v1
    extract_lets -merge +onlyGivenNames v3
    clear_value v3
    extract_lets -merge +onlyGivenNames v5
    clear_value v5
    extract_lets -merge +onlyGivenNames v7
    clear_value v7
    extract_lets -merge +onlyGivenNames v9
    clear_value v9
    extract_lets -merge +onlyGivenNames v11
    apply keeps_ite
    · exact h_1
    · extract_lets -merge +onlyGivenNames v13
      clear_value v13
      extract_lets -merge +onlyGivenNames v15
      have h16 : Keeps s0 v15 := (State.setGroup_keeps h_1)
      clear_value v15
      extract_lets -merge +onlyGivenNames v17
      have h18 : Keeps s0 v17 := (State.switchIf_keeps h16)
      clear_value v17
      extract_lets -merge +onlyGivenNames v19
      have h20 : Keeps s0 v19 := (keeps_ite h18 (keeps_ite (State.switchNoBar_keeps h18) (keeps_ite (State.switchNoBar_keeps h18) h18)))
      clear_value v19
      extract_lets -merge +onlyGivenNames v21
      have h22 : Keeps s0 v21 := (keeps_ite h20 (State.switchIf_keeps h20))
      clear_value v21
      extract_lets -merge +onlyGivenNames v23
      have h24 : Keeps s0 v23 := (keeps_ite (State.switchNoBar_keeps h22) h22)
      clear_value v23
      exact (State.groupApplied_keeps h24)

theorem State.startUnit_keeps {s0 : State} {s : State} {u : SwUnit} {b : Nat} {n : Nat} (h_1 : Keeps s0 s) : Keeps s0 (@State.startUnit s u b n) := by
  unfold State.startUnit
  exact (foldl_keeps h_1 (fun _ _ h1 => (State.startUnit1_keeps h1)))

theorem doTimeSwitch_keeps {s0 : State} {g : Fin 64} {s : State} (h_1 : Keeps s0 s) : Keeps s0 (@doTimeSwitch g s) := by
  unfold doTimeSwitch
  exact (keeps_ite (State.beginGroup_keeps (State.set_keeps h_1)) h_1)

theorem execTimeSwitch_keeps {s0 : State} {g : Fin 64} {s : State} (h_1 : Keeps s0 s) : ∃ sn, @execTimeSwitch g s = .next sn ∧ Keeps s0 sn := by
  unfold execTimeSwitch
  exact ⟨_, rfl, (doTimeSwitch_keeps h_1)⟩

theorem State.checkGroup_keeps {s0 : State} {s : State} {b : Nat} {m : Nat} {g : Nat} (h_1 : Keeps s0 s) : Keeps s0 (@State.checkGroup s b m g) := by
  unfold State.checkGroup
  extract_lets -merge +onlyGivenNames v1
  clear_value v1
  extract_lets -merge +onlyGivenNames v3
  clear_value v3
  extract_lets -merge +onlyGivenNames v5
  clear_value v5
  apply keeps_ite
  · exact h_1
  · split
    · exact (State.setGroup_keeps h_1)
    · exact (State.report_keeps (State.abortGroup_keeps h_1))

theorem State.applySegs_keeps {s0 : State} {s : State} {b : Nat} {n : Nat} {g : Nat} (h_1 : Keeps s0 s) : Keeps s0 (@State.applySegs s b n g) := by
  unfold State.applySegs
  extract_lets -merge +onlyGivenNames v1
  clear_value v1
  extract_lets -merge +onlyGivenNames v3
  clear_value v3
  apply keeps_ite
  · exact h_1
  · extract_lets -merge +onlyGivenNames v5
    clear_value v5
    extract_lets -merge +onlyGivenNames v7
    clear_value v7
    extract_lets -merge +onlyGivenNames v9
    have h10 : Keeps s0 v9 := (State.setGroup_keeps h_1)
    clear_value v9
    exact (State.startUnit1_keeps h10)

theorem State.groupsAtBoundary_keeps {s0 : State} {s : State} {b : Nat} {m : Nat} (h_1 : Keeps s0 s) : Keeps s0 (@State.groupsAtBoundary s b m) := by
  unfold State.groupsAtBoundary
  extract_lets -merge +onlyGivenNames v1
  have h2 : Keeps s0 v1 := (foldl_keeps h_1 (fun _ _ h3 => (State.checkGroup_keeps h3)))
  clear_value v1
  exact (foldl_keeps h2 (fun _ _ h4 => (State.applySegs_keeps h4)))

theorem State.groupsAtJobStop_keeps {s0 : State} {s : State} (h_1 : Keeps s0 s) : Keeps s0 (@State.groupsAtJobStop s) := by
  unfold State.groupsAtJobStop
  refine foldl_keeps ?_ ?_
  · exact h_1
  · intro _ _ h1
    extract_lets -merge +onlyGivenNames v2
    clear_value v2
    exact (keeps_ite (State.abortGroup_keeps h1) (keeps_ite (State.groupApplied_keeps (State.switchIf_keeps h1)) h1))

theorem State.groupsAtHalt_keeps {s0 : State} {s : State} (h_1 : Keeps s0 s) : Keeps s0 (@State.groupsAtHalt s) := by
  unfold State.groupsAtHalt
  exact (foldl_keeps h_1 (fun _ _ h1 => (keeps_ite (State.abortGroup_keeps h1) (keeps_ite (State.groupApplied_keeps (State.switchIf_keeps h1)) h1))))

theorem State.openGroup_keeps {s0 : State} {s : State} {role : Nat} {excl : Bool} (h_1 : Keeps s0 s) : OptK s0 (·.2) (@State.openGroup s role excl) := by
  unfold State.openGroup
  split
  · exact OptK.none
  · extract_lets -merge +onlyGivenNames u4 v5
    clear_value u4
    have h7 : Keeps s0 v5 := (State.setGroup_keeps h_1)
    clear_value v5
    extract_lets -merge +onlyGivenNames v8
    have h9 : Keeps s0 v8 := (State.wr_keeps (State.wr_keeps (State.wr_keeps h7)))
    clear_value v8
    extract_lets -merge +onlyGivenNames v10
    have h11 : Keeps s0 v10 := (State.set64_keeps h9)
    clear_value v10
    exact (OptK.some (PK.mk2 (State.set_keeps (State.set_keeps (State.set_keeps h11)))))

theorem State.groupWord_keeps {s0 : State} {s : State} {g : Nat} {off : Nat} {v : Word} (h_1 : Keeps s0 s) : Keeps s0 (@State.groupWord s g off v) := by
  unfold State.groupWord
  apply keeps_ite
  · exact (State.cmtReport_keeps (State.abortGroup_keeps h_1))
  · apply keeps_ite
    · exact (State.cmtReport_keeps (State.abortGroup_keeps h_1))
    · extract_lets -merge +onlyGivenNames v1
      clear_value v1
      exact (State.set_keeps (State.setGroup_keeps h_1))

theorem State.groupTab_keeps {s0 : State} {s : State} {g : Nat} {t : TabEntry} (h_1 : Keeps s0 s) : Keeps s0 (@State.groupTab s g t) := by
  unfold State.groupTab
  apply keeps_ite
  · exact (State.cmtReport_keeps (State.abortGroup_keeps h_1))
  · extract_lets -merge +onlyGivenNames v1
    clear_value v1
    extract_lets -merge +onlyGivenNames v3
    clear_value v3
    exact (State.set_keeps (State.setGroup_keeps h_1))

theorem State.groupDesc_keeps {s0 : State} {s : State} {g : Nat} {addr : Nat} (h_1 : Keeps s0 s) : Keeps s0 (@State.groupDesc s g addr) := by
  unfold State.groupDesc
  extract_lets -merge +onlyGivenNames v1
  have h2 : ∀ a3, Keeps s0 a3 → Keeps s0 (v1 a3) := (fun _ h4 => (State.cmtReport_keeps (State.abortGroup_keeps h4)))
  clear_value v1
  apply keeps_ite
  · exact (State.cmtReport_keeps (State.abortGroup_keeps h_1))
  · apply keeps_ite
    · exact (h2 _ h_1)
    · extract_lets -merge +onlyGivenNames v5
      have h6 : PK s0 (·.st) v5 := (State.readTarn_keeps h_1)
      clear_value v5
      extract_lets -merge +onlyGivenNames v7
      have h8 : Keeps s0 v7 := (PK.out h6)
      apply keeps_ite
      · exact (h2 _ h8)
      · split
        · exact (h2 _ h8)
        · exact (keeps_ite (h2 _ h8) (State.groupTab_keeps h8))
        · apply keeps_ite
          · exact (h2 _ h8)
          · extract_lets -merge +onlyGivenNames v21
            have h22 : PK s0 (·.st) v21 := (State.readTarn_keeps h8)
            clear_value v21
            exact (keeps_ite (h2 _ (PK.out h22)) (State.groupTab_keeps (PK.out h22)))

theorem State.stageGroup_keeps {s0 : State} {s : State} {g : Nat} {line : Nat} (h_1 : Keeps s0 s) : Keeps s0 (@State.stageGroup s g line) := by
  unfold State.stageGroup
  extract_lets -merge +onlyGivenNames v1
  clear_value v1
  extract_lets -merge +onlyGivenNames v3
  clear_value v3
  extract_lets -merge +onlyGivenNames v5
  have h6 : Keeps s0 v5 := (State.setGroup_keeps h_1)
  clear_value v5
  extract_lets -merge +onlyGivenNames v7
  have h8 : Keeps s0 v7 := (foldl_keeps h6 (fun _ _ h9 => (State.sendStage_keeps h9)))
  clear_value v7
  extract_lets -merge +onlyGivenNames v10
  clear_value v10
  extract_lets -merge +onlyGivenNames v12
  have h13 : Keeps s0 v12 := (foldl_keeps h8 (fun _ _ h14 => (State.setSeg_keeps h14)))
  clear_value v12
  exact (foldl_keeps h13 (fun _ _ h15 => (State.sendQuiet_keeps h15)))

theorem State.commitGroup_keeps {s0 : State} {s : State} {g : Nat} {kind : Nat} {sel : Nat} {v : DWord} (h_1 : Keeps s0 s) : PK s0 (·.2) (@State.commitGroup s g kind sel v) := by
  unfold State.commitGroup
  extract_lets -merge +onlyGivenNames v1
  have h2 : Keeps s0 v1 := (State.set_keeps (State.set_keeps h_1))
  clear_value v1
  extract_lets -merge +onlyGivenNames u3 v4
  clear_value u3
  clear_value v4
  extract_lets -merge +onlyGivenNames v7
  have h8 : Keeps s0 v7 := (State.setGroup_keeps h2)
  clear_value v7
  extract_lets -merge +onlyGivenNames v9
  clear_value v9
  apply PK.ite
  · exact (PK.mk2 (State.cmtReport_keeps (State.abortGroup_keeps h8)))
  · apply PK.ite
    · exact (PK.mk2 (State.cmtReport_keeps (State.abortGroup_keeps h8)))
    · split
      · extract_lets -merge +onlyGivenNames v13
        have h14 : Keeps s0 v13 := (State.abortGroup_keeps h8)
        clear_value v13
        exact (PK.mk2 (keeps_ite (State.cmtReport_keeps h14) h14))
      · apply PK.ite
        · exact (PK.mk2 (State.cmtReport_keeps (State.abortGroup_keeps h8)))
        · extract_lets -merge +onlyGivenNames v18
          clear_value v18
          apply PK.ite
          · exact (PK.mk2 (State.cmtReport_keeps (State.abortGroup_keeps h8)))
          · extract_lets -merge +onlyGivenNames v20
            have h21 : Keeps s0 v20 := (keeps_ite (State.cmtReport_keeps (State.set_keeps h8)) h8)
            clear_value v20
            extract_lets -merge +onlyGivenNames v22
            clear_value v22
            extract_lets -merge +onlyGivenNames v24
            have h25 : Keeps s0 v24 := (State.set_keeps (State.set_keeps h21))
            clear_value v24
            extract_lets -merge +onlyGivenNames v26
            have h27 : Keeps s0 v26 := (State.set_keeps (State.set64_keeps h25))
            clear_value v26
            extract_lets -merge +onlyGivenNames v28
            have h29 : Keeps s0 v28 := (State.stageGroup_keeps h27)
            clear_value v28
            extract_lets -merge +onlyGivenNames v30
            exact (PK.mk2 (keeps_ite (State.beginGroup_keeps (State.set_keeps h29)) h29))

theorem State.cgOwned_keeps {s0 : State} {s : State} {op : Nat} {e : Eng} {g : Nat} {body : State → State} (h_1 : Keeps s0 s) (h_2 : ∀ y1, Keeps s0 y1 → Keeps s0 (body y1)) : Keeps s0 (@State.cgOwned s op e g body) := by
  unfold State.cgOwned
  exact (keeps_ite (State.trap_keeps h_1) (keeps_ite (State.trap_keeps h_1) (h_2 _ h_1)))

theorem doCgopen_keeps {s0 : State} {e : Eng} {w : FmtA} {s : State} (h_1 : Keeps s0 s) : Keeps s0 (@doCgopen e w s) := by
  unfold doCgopen
  refine State.execA_keeps h_1 ?_
  · intro _ h1
    extract_lets -merge +onlyGivenNames v2
    clear_value v2
    apply keeps_ite
    · exact (State.trap_keeps h1)
    · apply keeps_ite
      · exact (State.trap_keeps h1)
      · split
        · exact (State.setD_keeps h1)
        · rename_i w5 w6 e7
          have k8 : Keeps s0 w6 := OptK.of (State.openGroup_keeps h1) e7
          exact (State.setD_keeps k8)

theorem execCgopen_keeps {s0 : State} {e : Eng} {w : FmtA} {s : State} (h_1 : Keeps s0 s) : ∃ sn, @execCgopen e w s = .next sn ∧ Keeps s0 sn := by
  unfold execCgopen
  exact ⟨_, rfl, (doCgopen_keeps h_1)⟩

theorem State.cgNotOpen_keeps {s0 : State} {s : State} {g : Nat} (h_1 : Keeps s0 s) : Keeps s0 (@State.cgNotOpen s g) := by
  unfold State.cgNotOpen
  extract_lets -merge +onlyGivenNames v1
  clear_value v1
  exact (keeps_ite (State.cmtReport_keeps h_1) h_1)

theorem doCgw_keeps {s0 : State} {e : Eng} {w : FmtA} {s : State} (h_1 : Keeps s0 s) : Keeps s0 (@doCgw e w s) := by
  unfold doCgw
  refine State.execA_keeps h_1 ?_
  · intro _ h1
    extract_lets -merge +onlyGivenNames v2
    clear_value v2
    extract_lets -merge +onlyGivenNames v4
    clear_value v4
    refine State.cgOwned_keeps h1 ?_
    · intro _ h6
      extract_lets -merge +onlyGivenNames v7
      have h8 : Keeps s0 v7 := (keeps_ite (State.groupWord_keeps h6) (State.cgNotOpen_keeps h6))
      clear_value v7
      exact (State.retire_keeps h8)

theorem execCgw_keeps {s0 : State} {e : Eng} {w : FmtA} {s : State} (h_1 : Keeps s0 s) : ∃ sn, @execCgw e w s = .next sn ∧ Keeps s0 sn := by
  unfold execCgw
  exact ⟨_, rfl, (doCgw_keeps h_1)⟩

theorem doCgt_keeps {s0 : State} {e : Eng} {w : FmtA} {s : State} (h_1 : Keeps s0 s) : Keeps s0 (@doCgt e w s) := by
  unfold doCgt
  refine State.execA_keeps h_1 ?_
  · intro _ h1
    extract_lets -merge +onlyGivenNames v2
    clear_value v2
    extract_lets -merge +onlyGivenNames v4
    clear_value v4
    refine State.cgOwned_keeps h1 ?_
    · intro _ h6
      extract_lets -merge +onlyGivenNames v7
      have h8 : Keeps s0 v7 := (keeps_ite (State.groupDesc_keeps h6) (State.cgNotOpen_keeps h6))
      clear_value v7
      exact (State.retire_keeps h8)

theorem execCgt_keeps {s0 : State} {e : Eng} {w : FmtA} {s : State} (h_1 : Keeps s0 s) : ∃ sn, @execCgt e w s = .next sn ∧ Keeps s0 sn := by
  unfold execCgt
  exact ⟨_, rfl, (doCgt_keeps h_1)⟩

theorem doCgc_keeps {s0 : State} {e : Eng} {w : FmtA} {s : State} (h_1 : Keeps s0 s) : Keeps s0 (@doCgc e w s) := by
  unfold doCgc
  extract_lets -merge +onlyGivenNames v1
  clear_value v1
  extract_lets -merge +onlyGivenNames v3
  clear_value v3
  extract_lets -merge +onlyGivenNames v5
  refine State.execA_keeps h_1 ?_
  · intro _ h7
    extract_lets -merge +onlyGivenNames v8
    clear_value v8
    extract_lets -merge +onlyGivenNames v10
    clear_value v10
    refine State.cgOwned_keeps h7 ?_
    · intro _ h12
      apply keeps_ite
      · split
        · rename_i w13 w14 e15
          have k16 : Keeps s0 w14 := PK.of (f := (·.2)) (State.commitGroup_keeps h12) e15
          exact (State.setD_keeps k16)
        · rename_i w17 e18
          have k19 : Keeps s0 w17 := PK.of (f := (·.2)) (State.commitGroup_keeps h12) e18
          exact (State.setD_keeps k19)
      · exact (State.setD_keeps h12)

theorem execCgc_keeps {s0 : State} {e : Eng} {w : FmtA} {s : State} (h_1 : Keeps s0 s) : ∃ sn, @execCgc e w s = .next sn ∧ Keeps s0 sn := by
  unfold execCgc
  exact ⟨_, rfl, (doCgc_keeps h_1)⟩

theorem State.cgaGroup_keeps {s0 : State} {s : State} {g : Nat} (h_1 : Keeps s0 s) : Keeps s0 (@State.cgaGroup s g) := by
  unfold State.cgaGroup
  extract_lets -merge +onlyGivenNames v1
  clear_value v1
  exact (keeps_ite h_1 (keeps_ite (State.abortGroup_keeps h_1) (keeps_ite (State.set64_keeps (State.wr_keeps (State.wr_keeps (State.wr_keeps h_1)))) h_1)))

theorem doCga_keeps {s0 : State} {e : Eng} {w : FmtA} {s : State} (h_1 : Keeps s0 s) : Keeps s0 (@doCga e w s) := by
  unfold doCga
  refine State.execA_keeps h_1 ?_
  · intro _ h1
    extract_lets -merge +onlyGivenNames v2
    clear_value v2
    refine State.cgOwned_keeps h1 ?_
    · intro _ h4
      extract_lets -merge +onlyGivenNames v5
      have h6 : Keeps s0 v5 := (State.cgaGroup_keeps h4)
      clear_value v5
      exact (State.retire_keeps h6)

theorem execCga_keeps {s0 : State} {e : Eng} {w : FmtA} {s : State} (h_1 : Keeps s0 s) : ∃ sn, @execCga e w s = .next sn ∧ Keeps s0 sn := by
  unfold execCga
  exact ⟨_, rfl, (doCga_keeps h_1)⟩

theorem doCgs_keeps {s0 : State} {e : Eng} {w : FmtA} {s : State} (h_1 : Keeps s0 s) : Keeps s0 (@doCgs e w s) := by
  unfold doCgs
  refine State.execA_keeps h_1 ?_
  · intro _ h1
    extract_lets -merge +onlyGivenNames v2
    clear_value v2
    exact (State.setD_keeps h1)

theorem execCgs_keeps {s0 : State} {e : Eng} {w : FmtA} {s : State} (h_1 : Keeps s0 s) : ∃ sn, @execCgs e w s = .next sn ∧ Keeps s0 sn := by
  unfold execCgs
  exact ⟨_, rfl, (doCgs_keeps h_1)⟩

end Sys2Proof.Machine
end

