-- ==== Sys2Proof/Laws/KeepsHeadPhy.lean ====
section
/-! SUPPORT. What every operation and every command of Machine/HeadPhy.lean keeps (Keeps). -/

set_option Elab.async false

namespace Sys2Proof.Machine

theorem State.putTaps_keeps {s0 : State} {s : State} {p : Nat} {l : Nat} {a : Int} {b : Int} {c : Int} (h_1 : Keeps s0 s) : Keeps s0 (@State.putTaps s p l a b c) := by
  unfold State.putTaps
  extract_lets -merge +onlyGivenNames v1
  have h2 : Keeps s0 v1 := (State.set_keeps (State.set_keeps h_1))
  clear_value v1
  exact (State.set_keeps (State.set_keeps h2))

theorem calAdvance_keeps {s0 : State} {p : Nat} {x1 : Nat} {x2 : TapCal} {x3 : State} (h_1 : Keeps s0 x3) : PK s0 (·.2) (@calAdvance p x1 x2 x3) := by
  induction x1 generalizing x2 x3 with
  | zero =>
    rw [calAdvance.eq_1]
    exact (PK.mk2 h_1)
  | succ n ih =>
    rw [calAdvance.eq_2]
    apply PK.ite
    · exact (PK.mk2 h_1)
    · extract_lets -merge +onlyGivenNames v1
      clear_value v1
      apply PK.ite
      · exact (ih h_1)
      · split
        · exact (PK.ite (PK.mk2 (State.putTaps_keeps h_1)) (ih (State.report_keeps h_1)))

theorem calFrame_keeps {s0 : State} {p : Nat} {f : TrainFrame} {c : TapCal} {s : State} (h_1 : Keeps s0 s) : PK s0 (·.2) (@calFrame p f c s) := by
  unfold calFrame
  extract_lets -merge +onlyGivenNames v1
  clear_value v1
  extract_lets -merge +onlyGivenNames v3
  clear_value v3
  apply PK.ite
  · exact (PK.mk2 h_1)
  · split
    · exact (PK.mk2 h_1)
    · split
      · exact (calAdvance_keeps h_1)
      · apply PK.ite
        · exact (calAdvance_keeps h_1)
        · split
          · extract_lets -merge +onlyGivenNames v13
            have h14 : Keeps s0 v13 := (State.putTaps_keeps h_1)
            clear_value v13
            extract_lets -merge +onlyGivenNames v15
            clear_value v15
            exact (calAdvance_keeps h14)

theorem deskew_keeps {s0 : State} {p : Nat} {skew : Int} {tries : Nat} {s : State} (h_1 : Keeps s0 s) : PK s0 (·.2) (@deskew p skew tries s) := by
  unfold deskew
  apply PK.ite
  · exact (PK.mk2 h_1)
  · apply PK.ite
    · exact (PK.mk2 h_1)
    · extract_lets -merge +onlyGivenNames v1
      clear_value v1
      extract_lets -merge +onlyGivenNames v3
      clear_value v3
      exact (PK.ite (PK.mk2 h_1) (PK.mk2 (State.set_keeps h_1)))

theorem State.startLink_keeps {s0 : State} {s : State} {p : Nat} (h_1 : Keeps s0 s) : Keeps s0 (@State.startLink s p) := by
  unfold State.startLink
  extract_lets -merge +onlyGivenNames v1
  clear_value v1
  extract_lets -merge +onlyGivenNames v3
  have h4 : Keeps s0 v3 := (State.setPort_keeps h_1)
  clear_value v3
  extract_lets -merge +onlyGivenNames v5
  have h6 : Keeps s0 v5 := (State.set_keeps (State.set_keeps (State.set_keeps (State.set_keeps h4))))
  clear_value v5
  exact (State.set_keeps (State.set_keeps (State.set_keeps (State.set_keeps (State.set_keeps h6)))))

theorem State.linkFail_keeps {s0 : State} {s : State} {p : Nat} {code : Nat} (h_1 : Keeps s0 s) : Keeps s0 (@State.linkFail s p code) := by
  unfold State.linkFail
  extract_lets -merge +onlyGivenNames v1
  have h2 : Keeps s0 v1 := (State.report_keeps h_1)
  clear_value v1
  extract_lets -merge +onlyGivenNames v3
  clear_value v3
  extract_lets -merge +onlyGivenNames v5
  clear_value v5
  exact (keeps_ite (State.report_keeps (State.set_keeps (State.setPort_keeps h2))) (State.set_keeps (State.setPort_keeps h2)))

theorem State.setCable_keeps {s0 : State} {s : State} {p : Nat} {rho : Nat} (h_1 : Keeps s0 s) : Keeps s0 (@State.setCable s p rho) := by
  unfold State.setCable
  extract_lets -merge +onlyGivenNames v1
  clear_value v1
  extract_lets -merge +onlyGivenNames v3
  clear_value v3
  extract_lets -merge +onlyGivenNames v5
  clear_value v5
  extract_lets -merge +onlyGivenNames v7
  have h8 : Keeps s0 v7 := (State.set_keeps (State.set_keeps (State.set_keeps h_1)))
  clear_value v7
  extract_lets -merge +onlyGivenNames v9
  have h10 : Keeps s0 v9 := (State.set_keeps (State.set_keeps h8))
  clear_value v9
  exact (keeps_ite (State.report_keeps h10) h10)

theorem State.setPdly_keeps {s0 : State} {s : State} {p : Nat} (h_1 : Keeps s0 s) : Keeps s0 (@State.setPdly s p) := by
  unfold State.setPdly
  extract_lets -merge +onlyGivenNames v1
  have h2 : Keeps s0 v1 := (State.set_keeps h_1)
  clear_value v1
  split
  · exact (State.setHmin_keeps h2)
  · exact h2

theorem State.linkUp_keeps {s0 : State} {s : State} {p : Nat} {rho : Nat} (h_1 : Keeps s0 s) : Keeps s0 (@State.linkUp s p rho) := by
  unfold State.linkUp
  extract_lets -merge +onlyGivenNames v1
  have h2 : Keeps s0 v1 := (State.setPdly_keeps (State.setCable_keeps h_1))
  clear_value v1
  extract_lets -merge +onlyGivenNames v3
  clear_value v3
  extract_lets -merge +onlyGivenNames v5
  clear_value v5
  extract_lets -merge +onlyGivenNames v7
  have h8 : Keeps s0 v7 := (State.setPort_keeps h2)
  clear_value v7
  extract_lets -merge +onlyGivenNames v9
  have h10 : Keeps s0 v9 := (State.set_keeps (State.set_keeps (State.set_keeps h8)))
  clear_value v9
  extract_lets -merge +onlyGivenNames v11
  have h12 : Keeps s0 v11 := (State.bump_keeps h10)
  clear_value v11
  exact (State.sendAcked_keeps (State.set_keeps h12))

theorem State.deskewStep_keeps {s0 : State} {s : State} {p : Nat} {skew : Int} (h_1 : Keeps s0 s) : Keeps s0 (@State.deskewStep s p skew) := by
  unfold State.deskewStep
  apply keeps_ite
  · exact (keeps_ite (State.set_keeps (State.setPort_keeps h_1)) h_1)
  · split
    · rename_i w1 e2
      have k3 : Keeps s0 w1 := PK.of (f := (·.2)) (deskew_keeps h_1) e2
      exact (State.set_keeps (State.setPort_keeps k3))
    · rename_i w4 w5 e6
      have k7 : Keeps s0 w5 := PK.of (f := (·.2)) (deskew_keeps h_1) e6
      exact (State.setPort_keeps k7)
    · rename_i w8 e9
      have k10 : Keeps s0 w8 := PK.of (f := (·.2)) (deskew_keeps h_1) e9
      exact (State.linkFail_keeps k10)

theorem State.equaliseStep_keeps {s0 : State} {s : State} {p : Nat} {f : TrainFrame} (h_1 : Keeps s0 s) : Keeps s0 (@State.equaliseStep s p f) := by
  unfold State.equaliseStep
  split
  · exact h_1
  · split
    · rename_i w4 w5 e6
      have k7 : Keeps s0 w5 := PK.of (f := (·.2)) (calFrame_keeps h_1) e6
      exact (State.setPort_keeps k7)
    · rename_i w8 e9
      have k10 : Keeps s0 w8 := PK.of (f := (·.2)) (calFrame_keeps h_1) e9
      exact (keeps_ite (State.setPort_keeps k10) (State.set_keeps (State.setPort_keeps k10)))

theorem State.echoStep_keeps {s0 : State} {s : State} {p : Nat} {f : TrainFrame} (h_1 : Keeps s0 s) : Keeps s0 (@State.echoStep s p f) := by
  unfold State.echoStep
  apply keeps_ite
  · exact h_1
  · extract_lets -merge +onlyGivenNames v1
    clear_value v1
    extract_lets -merge +onlyGivenNames v3
    clear_value v3
    extract_lets -merge +onlyGivenNames v5
    clear_value v5
    exact (keeps_ite (State.setPort_keeps h_1) (State.linkUp_keeps (State.setPort_keeps h_1)))

theorem State.twoLanes_keeps {s0 : State} {s : State} {p : Nat} {l : Nat} (h_1 : Keeps s0 s) : Keeps s0 (@State.twoLanes s p l) := by
  unfold State.twoLanes
  extract_lets -merge +onlyGivenNames v1
  clear_value v1
  extract_lets -merge +onlyGivenNames v3
  clear_value v3
  exact (State.set_keeps (State.setPort_keeps h_1))

theorem State.failLane_keeps {s0 : State} {s : State} {p : Nat} {l : Nat} (h_1 : Keeps s0 s) : Keeps s0 (@State.failLane s p l) := by
  unfold State.failLane
  extract_lets -merge +onlyGivenNames u1 v2
  clear_value u1
  have h4 : Keeps s0 v2 := (State.setPort_keeps h_1)
  clear_value v2
  extract_lets -merge +onlyGivenNames v5
  have h6 : Keeps s0 v5 := (State.calEndPort_keeps (State.set_keeps h4))
  clear_value v5
  exact (State.report_keeps (State.bump_keeps h6))

theorem State.laneReady_keeps {s0 : State} {s : State} {p : Nat} {j : LaneJob} (h_1 : Keeps s0 s) : Keeps s0 (@State.laneReady s p j) := by
  unfold State.laneReady
  apply keeps_ite
  · exact (State.calDone_keeps (State.bump_keeps (State.set_keeps (State.set_keeps (State.twoLanes_keeps h_1)))))
  · extract_lets -merge +onlyGivenNames v1
    have h2 : Keeps s0 v1 := (State.report_keeps h_1)
    clear_value v1
    exact (keeps_ite (State.twoLanes_keeps h2) (State.setPort_keeps h2))

theorem State.laneStep_keeps {s0 : State} {s : State} {p : Nat} {f : TrainFrame} {j : LaneJob} (h_1 : Keeps s0 s) : Keeps s0 (@State.laneStep s p f j) := by
  unfold State.laneStep
  extract_lets -merge +onlyGivenNames v1
  clear_value v1
  extract_lets -merge +onlyGivenNames v3
  have h4 : ∀ a5 a6, Keeps s0 a5 → Keeps s0 (v3 a5 a6) := (fun _ _ h7 => (State.setPort_keeps h7))
  clear_value v3
  apply keeps_ite
  · exact (State.failLane_keeps h_1)
  · split
    · exact (keeps_ite (h4 _ _ h_1) h_1)
    · split
      · rename_i w11 w12 e13
        have k14 : Keeps s0 w12 := PK.of (f := (·.2)) (calFrame_keeps h_1) e13
        exact (h4 _ _ k14)
      · rename_i w15 e16
        have k17 : Keeps s0 w15 := PK.of (f := (·.2)) (calFrame_keeps h_1) e16
        exact (h4 _ _ k17)
    · apply keeps_ite
      · exact h_1
      · split
        · rename_i w20 e21
          have k22 : Keeps s0 w20 := PK.of (f := (·.2)) (deskew_keeps h_1) e21
          exact (State.laneReady_keeps k22)
        · rename_i w23 w24 e25
          have k26 : Keeps s0 w24 := PK.of (f := (·.2)) (deskew_keeps h_1) e25
          exact (h4 _ _ k26)
        · rename_i w27 e28
          have k29 : Keeps s0 w27 := PK.of (f := (·.2)) (deskew_keeps h_1) e28
          exact (State.report_keeps (h4 _ _ k29))
    · exact (keeps_ite (State.twoLanes_keeps h_1) h_1)

theorem State.noteLocks_keeps {s0 : State} {s : State} {p : Nat} {clk : Bool} {a : Bool} {b : Bool} (h_1 : Keeps s0 s) : Keeps s0 (@State.noteLocks s p clk a b) := by
  unfold State.noteLocks
  exact (State.set_keeps (State.set_keeps (State.set_keeps h_1)))

theorem State.laneReports_keeps {s0 : State} {s : State} {p : Nat} {clk : Bool} {lockA : Bool} {lockB : Bool} {badA : Bool} {badB : Bool} (h_1 : Keeps s0 s) : Keeps s0 (@State.laneReports s p clk lockA lockB badA badB) := by
  unfold State.laneReports
  extract_lets -merge +onlyGivenNames v1
  have h2 : Keeps s0 v1 := (State.noteLocks_keeps h_1)
  clear_value v1
  extract_lets -merge +onlyGivenNames v3
  clear_value v3
  extract_lets -merge +onlyGivenNames v5
  clear_value v5
  apply keeps_ite
  · exact h2
  · apply keeps_ite
    · exact (State.portDown_keeps h2)
    · split
      · exact (keeps_ite (State.portDown_keeps h2) (keeps_ite (State.failLane_keeps h2) (keeps_ite (State.failLane_keeps h2) h2)))
      · extract_lets -merge +onlyGivenNames v14
        clear_value v14
        extract_lets -merge +onlyGivenNames v16
        clear_value v16
        apply keeps_ite
        · apply keeps_ite
          · extract_lets -merge +onlyGivenNames v18
            have h19 : Keeps s0 v18 := (State.report_keeps (State.set_keeps h2))
            clear_value v18
            exact (State.failLane_keeps h19)
          · exact (State.portDown_keeps h2)
        · exact (keeps_ite (State.failLane_keeps h2) h2)
      · exact (keeps_ite (State.portDown_keeps h2) h2)

theorem doUpstreamTrainingFrame_keeps {s0 : State} {p : Fin 16} {f : TrainFrame} {s : State} (h_1 : Keeps s0 s) : Keeps s0 (@doUpstreamTrainingFrame p f s) := by
  unfold doUpstreamTrainingFrame
  extract_lets -merge +onlyGivenNames v1
  clear_value v1
  extract_lets -merge +onlyGivenNames v3
  clear_value v3
  extract_lets -merge +onlyGivenNames v5
  clear_value v5
  extract_lets -merge +onlyGivenNames v7
  clear_value v7
  split
  · extract_lets -merge +onlyGivenNames v9
    have h10 : Keeps s0 v9 := (keeps_ite h_1 (State.set_keeps h_1))
    clear_value v9
    extract_lets -merge +onlyGivenNames v11
    clear_value v11
    extract_lets -merge +onlyGivenNames v13
    clear_value v13
    extract_lets -merge +onlyGivenNames v15
    clear_value v15
    extract_lets -merge +onlyGivenNames v17
    have h18 : Keeps s0 v17 := (State.setPort_keeps h10)
    clear_value v17
    extract_lets -merge +onlyGivenNames v19
    have h20 : Keeps s0 v19 := (keeps_ite (State.set_keeps h18) h18)
    clear_value v19
    exact (keeps_ite (State.set_keeps (State.set_keeps h20)) h20)
  · apply keeps_ite
    · exact h_1
    · extract_lets -merge +onlyGivenNames u21 v22
      clear_value u21
      have h24 : Keeps s0 v22 := (State.noteLocks_keeps (State.setPort_keeps h_1))
      clear_value v22
      exact (keeps_ite (State.deskewStep_keeps (State.set_keeps h24)) h24)
  · exact (keeps_ite (State.deskewStep_keeps h_1) h_1)
  · exact (State.equaliseStep_keeps h_1)
  · exact (State.echoStep_keeps h_1)
  · split
    · exact h_1
    · exact (State.laneStep_keeps h_1)
  · exact h_1

theorem execUpstreamTrainingFrame_keeps {s0 : State} {p : Fin 16} {f : TrainFrame} {s : State} (h_1 : Keeps s0 s) : ∃ sn, @execUpstreamTrainingFrame p f s = .next sn ∧ Keeps s0 sn := by
  unfold execUpstreamTrainingFrame
  exact ⟨_, rfl, (doUpstreamTrainingFrame_keeps h_1)⟩

theorem State.writeHlpCtl_keeps {s0 : State} {s : State} {p : Nat} {v : Word} (h_1 : Keeps s0 s) : Keeps s0 (@State.writeHlpCtl s p v) := by
  unfold State.writeHlpCtl
  extract_lets -merge +onlyGivenNames v1
  clear_value v1
  extract_lets -merge +onlyGivenNames v3
  clear_value v3
  extract_lets -merge +onlyGivenNames v5
  clear_value v5
  extract_lets -merge +onlyGivenNames v7
  extract_lets -merge +onlyGivenNames v9
  have h10 : Keeps s0 v9 := (State.swWrite_keeps h_1)
  clear_value v9
  extract_lets -merge +onlyGivenNames v11
  have h12 : Keeps s0 v11 := (keeps_ite h10 (State.wr_keeps h10))
  clear_value v11
  extract_lets -merge +onlyGivenNames v13
  clear_value v13
  extract_lets -merge +onlyGivenNames v15
  clear_value v15
  apply keeps_ite
  · exact (State.wr_keeps h12)
  · apply keeps_ite
    · extract_lets -merge +onlyGivenNames v17
      clear_value v17
      extract_lets -merge +onlyGivenNames v19
      have h20 : Keeps s0 v19 := (State.setPort_keeps h12)
      clear_value v19
      extract_lets -merge +onlyGivenNames v21
      have h22 : Keeps s0 v21 := (State.set_keeps (State.calEndPort_keeps (State.set_keeps (State.set_keeps h20))))
      clear_value v21
      extract_lets -merge +onlyGivenNames v23
      have h24 : Keeps s0 v23 := (State.set_keeps (State.set_keeps (State.set_keeps (State.set_keeps h22))))
      clear_value v23
      exact (keeps_ite (State.dropSegments_keeps h24) h24)
    · exact (keeps_ite (keeps_ite (State.set_keeps h12) (State.startLink_keeps (State.set_keeps (State.setPort_keeps h12)))) h12)

theorem execPortEnable_keeps {s0 : State} {p : Fin 16} {v : Word} {s : State} (h_1 : Keeps s0 s) : ∃ sn, @execPortEnable p v s = .next sn ∧ Keeps s0 sn := by
  unfold execPortEnable
  exact ⟨_, rfl, (State.busWrite_keeps h_1 (fun _ h1 => (State.writeHlpCtl_keeps h1)))⟩

theorem execPortDisable_keeps {s0 : State} {p : Fin 16} {v : Word} {s : State} (h_1 : Keeps s0 s) : ∃ sn, @execPortDisable p v s = .next sn ∧ Keeps s0 sn := by
  unfold execPortDisable
  exact ⟨_, rfl, (State.busWrite_keeps h_1 (fun _ h1 => (State.writeHlpCtl_keeps h1)))⟩

theorem doLinkupTimeout_keeps {s0 : State} {p : Fin 16} {s : State} (h_1 : Keeps s0 s) : Keeps s0 (@doLinkupTimeout p s) := by
  unfold doLinkupTimeout
  extract_lets -merge +onlyGivenNames v1
  clear_value v1
  exact (keeps_ite (State.linkFail_keeps h_1) h_1)

theorem execLinkupTimeout_keeps {s0 : State} {p : Fin 16} {s : State} (h_1 : Keeps s0 s) : ∃ sn, @execLinkupTimeout p s = .next sn ∧ Keeps s0 sn := by
  unfold execLinkupTimeout
  exact ⟨_, rfl, (doLinkupTimeout_keeps h_1)⟩

theorem doLinkupRestart_keeps {s0 : State} {p : Fin 16} {s : State} (h_1 : Keeps s0 s) : Keeps s0 (@doLinkupRestart p s) := by
  unfold doLinkupRestart
  split
  · exact h_1
  · exact (keeps_ite (State.startLink_keeps h_1) h_1)

theorem execLinkupRestart_keeps {s0 : State} {p : Fin 16} {s : State} (h_1 : Keeps s0 s) : ∃ sn, @execLinkupRestart p s = .next sn ∧ Keeps s0 sn := by
  unfold execLinkupRestart
  exact ⟨_, rfl, (doLinkupRestart_keeps h_1)⟩

theorem doSlip_keeps {s0 : State} {p : Fin 16} {v : Word} {s : State} (h_1 : Keeps s0 s) : Keeps s0 (@doSlip p v s) := by
  unfold doSlip
  extract_lets -merge +onlyGivenNames v1
  clear_value v1
  extract_lets -merge +onlyGivenNames v3
  clear_value v3
  exact (keeps_ite h_1 (keeps_ite (State.set_keeps h_1) (keeps_ite (State.set_keeps h_1) (keeps_ite (State.set_keeps h_1) h_1))))

theorem execSlip_keeps {s0 : State} {p : Fin 16} {v : Word} {s : State} (h_1 : Keeps s0 s) : ∃ sn, @execSlip p v s = .next sn ∧ Keeps s0 sn := by
  unfold execSlip
  exact ⟨_, rfl, (State.busWrite_keeps h_1 (fun _ h1 => (doSlip_keeps h1)))⟩

theorem doFfeWrite_keeps {s0 : State} {p : Fin 16} {l : Fin 2} {v : Word} {s : State} (h_1 : Keeps s0 s) : Keeps s0 (@doFfeWrite p l v s) := by
  unfold doFfeWrite
  extract_lets -merge +onlyGivenNames v1
  clear_value v1
  extract_lets -merge +onlyGivenNames v3
  clear_value v3
  extract_lets -merge +onlyGivenNames v5
  clear_value v5
  exact (keeps_ite h_1 (State.putTaps_keeps h_1))

theorem execFfeWrite_keeps {s0 : State} {p : Fin 16} {l : Fin 2} {v : Word} {s : State} (h_1 : Keeps s0 s) : ∃ sn, @execFfeWrite p l v s = .next sn ∧ Keeps s0 sn := by
  unfold execFfeWrite
  exact ⟨_, rfl, (State.busWrite_keeps h_1 (fun _ h1 => (doFfeWrite_keeps h1)))⟩

theorem doRecalibrate_keeps {s0 : State} {p : Fin 16} {v : Word} {s : State} (h_1 : Keeps s0 s) : Keeps s0 (@doRecalibrate p v s) := by
  unfold doRecalibrate
  extract_lets -merge +onlyGivenNames v1
  have h2 : Keeps s0 v1 := (State.swWrite_keeps h_1)
  clear_value v1
  apply keeps_ite
  · exact h2
  · apply keeps_ite
    · exact (State.set_keeps h2)
    · extract_lets -merge +onlyGivenNames v3
      clear_value v3
      extract_lets -merge +onlyGivenNames u5 v6
      clear_value u5
      have h8 : Keeps s0 v6 := (State.setPort_keeps h2)
      clear_value v6
      exact (State.set_keeps (State.set_keeps h8))

theorem execRecalibrate_keeps {s0 : State} {p : Fin 16} {v : Word} {s : State} (h_1 : Keeps s0 s) : ∃ sn, @execRecalibrate p v s = .next sn ∧ Keeps s0 sn := by
  unfold execRecalibrate
  exact ⟨_, rfl, (State.busWrite_keeps h_1 (fun _ h1 => (doRecalibrate_keeps h1)))⟩

theorem State.checkerLock_keeps {s0 : State} {s : State} {p : Nat} (h_1 : Keeps s0 s) : Keeps s0 (@State.checkerLock s p) := by
  unfold State.checkerLock
  exact (keeps_ite (State.set_keeps h_1) (keeps_ite h_1 (State.set_keeps h_1)))

theorem doPatternInject_keeps {s0 : State} {p : Fin 16} {v : Word} {s : State} (h_1 : Keeps s0 s) : Keeps s0 (@doPatternInject p v s) := by
  unfold doPatternInject
  extract_lets -merge +onlyGivenNames v1
  have h2 : Keeps s0 v1 := (State.checkerLock_keeps (State.swWrite_keeps h_1))
  clear_value v1
  extract_lets -merge +onlyGivenNames v3
  exact (keeps_ite (keeps_ite (State.bump_keeps h2) h2) h2)

theorem execPatternInject_keeps {s0 : State} {p : Fin 16} {v : Word} {s : State} (h_1 : Keeps s0 s) : ∃ sn, @execPatternInject p v s = .next sn ∧ Keeps s0 sn := by
  unfold execPatternInject
  exact ⟨_, rfl, (State.busWrite_keeps h_1 (fun _ h1 => (doPatternInject_keeps h1)))⟩

theorem doFrameInject_keeps {s0 : State} {p : Fin 16} {v : Word} {s : State} (h_1 : Keeps s0 s) : Keeps s0 (@doFrameInject p v s) := by
  unfold doFrameInject
  extract_lets -merge +onlyGivenNames v1
  have h2 : Keeps s0 v1 := (State.swWrite_keeps h_1)
  clear_value v1
  extract_lets -merge +onlyGivenNames v3
  clear_value v3
  exact (keeps_ite h2 (State.setPort_keeps h2))

theorem execFrameInject_keeps {s0 : State} {p : Fin 16} {v : Word} {s : State} (h_1 : Keeps s0 s) : ∃ sn, @execFrameInject p v s = .next sn ∧ Keeps s0 sn := by
  unfold execFrameInject
  exact ⟨_, rfl, (State.busWrite_keeps h_1 (fun _ h1 => (doFrameInject_keeps h1)))⟩

end Sys2Proof.Machine
end

