-- ==== Sys2Proof/Laws/KeepsLink.lean ====
section
/-! SUPPORT. What every operation and every command of Machine/Link.lean keeps (Keeps). -/

set_option Elab.async false

namespace Sys2Proof.Machine

theorem fillLines_keeps {s0 : State} {p : Nat} {b : Nat} {x2 : Nat} {x3 : Nat} {x4 : State} (h_1 : Keeps s0 x4) : PK s0 (·.2) (@fillLines p b x2 x3 x4) := by
  induction x2 generalizing x3 x4 with
  | zero =>
    rw [fillLines.eq_1]
    exact (PK.mk2 h_1)
  | succ n ih =>
    rw [fillLines.eq_2]
    split
    · extract_lets -merge +onlyGivenNames v2
      clear_value v2
      apply PK.ite
      · exact (PK.mk2 h_1)
      · extract_lets -merge +onlyGivenNames v4
        have h5 : Keeps s0 v4 := (State.startUnit_keeps h_1)
        clear_value v4
        extract_lets -merge +onlyGivenNames v6
        clear_value v6
        apply PK.ite
        · exact (PK.mk2 h_1)
        · extract_lets -merge +onlyGivenNames v8
          clear_value v8
          extract_lets -merge +onlyGivenNames v10
          clear_value v10
          extract_lets -merge +onlyGivenNames v12
          have h13 : Keeps s0 v12 := (State.bump_keeps h5)
          clear_value v12
          extract_lets -merge +onlyGivenNames v14
          clear_value v14
          extract_lets -merge +onlyGivenNames u16 v17
          clear_value u16
          have h19 : Keeps s0 v17 := (State.setPort_keeps h13)
          clear_value v17
          split
          · rename_i w20 w21 e22
            have k23 : Keeps s0 w21 := PK.of (f := (·.2)) (ih h19) e22
            exact (PK.mk2 k23)
    · split
      · exact (ih (State.setPort_keeps h_1))
      · apply PK.ite
        · exact (PK.mk2 h_1)
        · extract_lets -merge +onlyGivenNames v31
          clear_value v31
          split
          · exact (PK.mk2 h_1)
          · extract_lets -merge +onlyGivenNames v36
            have h37 : PK s0 (·.st) v36 := (State.readTarn_keeps h_1)
            clear_value v36
            extract_lets -merge +onlyGivenNames v38
            have h39 : Keeps s0 v38 := (PK.out h37)
            apply PK.ite
            · extract_lets -merge +onlyGivenNames v40
              clear_value v40
              extract_lets -merge +onlyGivenNames v42
              have h43 : Keeps s0 v42 := (State.setFireBar_keeps h39)
              clear_value v42
              exact (ih (State.setPort_keeps h43))
            · extract_lets -merge +onlyGivenNames v44
              clear_value v44
              extract_lets -merge +onlyGivenNames v46
              clear_value v46
              extract_lets -merge +onlyGivenNames u48 v49
              clear_value u48
              have h51 : Keeps s0 v49 := (State.setPort_keeps h39)
              clear_value v49
              split
              · rename_i w52 w53 e54
                have k55 : Keeps s0 w53 := PK.of (f := (·.2)) (ih h51) e54
                exact (PK.mk2 k55)

theorem State.noteSent_keeps {s0 : State} {s : State} {p : Nat} {m : List Word} (h_1 : Keeps s0 s) : Keeps s0 (@State.noteSent s p m) := by
  unfold State.noteSent
  extract_lets -merge +onlyGivenNames v1
  clear_value v1
  extract_lets -merge +onlyGivenNames v3
  clear_value v3
  extract_lets -merge +onlyGivenNames v5
  clear_value v5
  apply keeps_ite
  · extract_lets -merge +onlyGivenNames v7
    clear_value v7
    extract_lets -merge +onlyGivenNames v9
    clear_value v9
    extract_lets -merge +onlyGivenNames v11
    clear_value v11
    exact (State.setGroup_keeps h_1)
  · extract_lets -merge +onlyGivenNames v13
    clear_value v13
    exact (State.setPort_keeps h_1)

theorem State.lineMsgs_keeps {s0 : State} {s : State} {p : Nat} {room : Nat} (h_1 : Keeps s0 s) : PK s0 (·.2) (@State.lineMsgs s p room) := by
  unfold State.lineMsgs
  split
  · exact (fillLines_keeps h_1)
  · exact (PK.mk2 h_1)

theorem State.frameMsgs_keeps {s0 : State} {s : State} {p : Nat} (h_1 : Keeps s0 s) : PK s0 (·.2) (@State.frameMsgs s p) := by
  unfold State.frameMsgs
  extract_lets -merge +onlyGivenNames v1
  clear_value v1
  split
  · split
    · split
      · extract_lets -merge +onlyGivenNames v15
        have h16 : Keeps s0 v15 := (State.setPort_keeps h_1)
        clear_value v15
        apply PK.ite
        · split
          · rename_i w17 w18 e19
            have k20 : Keeps s0 w18 := PK.of (f := (·.2)) (State.lineMsgs_keeps h16) e19
            exact (PK.mk2 k20)
        · exact (PK.mk2 h16)

theorem State.sendFrame_keeps {s0 : State} {s : State} {p : Nat} {k : Nat} {msgs : List (List Word)} (h_1 : Keeps s0 s) : Keeps s0 (@State.sendFrame s p k msgs) := by
  unfold State.sendFrame
  extract_lets -merge +onlyGivenNames v1
  clear_value v1
  extract_lets -merge +onlyGivenNames v3
  clear_value v3
  extract_lets -merge +onlyGivenNames v5
  clear_value v5
  extract_lets -merge +onlyGivenNames v7
  clear_value v7
  extract_lets -merge +onlyGivenNames v9
  clear_value v9
  extract_lets -merge +onlyGivenNames v11
  clear_value v11
  extract_lets -merge +onlyGivenNames v13
  clear_value v13
  extract_lets -merge +onlyGivenNames v15
  clear_value v15
  exact (foldl_keeps (State.setPort_keeps h_1) (fun _ _ h17 => (State.noteSent_keeps h17)))

theorem doDownstreamFrame_keeps {s0 : State} {p : Fin 16} {s : State} (h_1 : Keeps s0 s) : Keeps s0 (@doDownstreamFrame p s) := by
  unfold doDownstreamFrame
  apply keeps_ite
  · exact h_1
  · extract_lets -merge +onlyGivenNames v1
    clear_value v1
    extract_lets -merge +onlyGivenNames u3 v4
    clear_value u3
    have h6 : Keeps s0 v4 := (keeps_ite (State.setPort_keeps h_1) h_1)
    clear_value v4
    extract_lets -merge +onlyGivenNames v7
    have h8 : PK s0 (·.2) v7 := (State.frameMsgs_keeps h6)
    clear_value v7
    exact (State.sendFrame_keeps (PK.out h8))

theorem execDownstreamFrame_keeps {s0 : State} {p : Fin 16} {s : State} (h_1 : Keeps s0 s) : ∃ sn, @execDownstreamFrame p s = .next sn ∧ Keeps s0 sn := by
  unfold execDownstreamFrame
  exact ⟨_, rfl, (doDownstreamFrame_keeps h_1)⟩

theorem State.upEvent_keeps {s0 : State} {s : State} {p : Nat} {m : List Word} {t : Nat} (h_1 : Keeps s0 s) : Keeps s0 (@State.upEvent s p m t) := by
  unfold State.upEvent
  exact (keeps_ite (State.postEvent_keeps h_1) h_1)

theorem State.fromSeg_keeps {s0 : State} {s : State} {p : Nat} {m : List Word} (h_1 : Keeps s0 s) : Keeps s0 (@State.fromSeg s p m) := by
  unfold State.fromSeg
  extract_lets -merge +onlyGivenNames v1
  clear_value v1
  exact (keeps_ite (State.setSegState_keeps (State.setSeg_keeps h_1)) h_1)

theorem State.takePend_keeps {s0 : State} {s : State} {p : Nat} {tok : Nat} (h_1 : Keeps s0 s) : PK s0 (·.2) (@State.takePend s p tok) := by
  unfold State.takePend
  extract_lets -merge +onlyGivenNames v1
  clear_value v1
  exact (PK.mk2 (State.setPort_keeps h_1))

theorem doAck_keeps {s0 : State} {p : Fin 16} {m : List Word} {s : State} (h_1 : Keeps s0 s) : Keeps s0 (@doAck p m s) := by
  unfold doAck
  apply keeps_ite
  · exact h_1
  · extract_lets -merge +onlyGivenNames v1
    have h2 : Keeps s0 v1 := (State.fromSeg_keeps h_1)
    clear_value v1
    split
    · rename_i w3 e4
      have k5 : Keeps s0 w3 := PK.of (f := (·.2)) (State.takePend_keeps h2) e4
      exact k5
    · rename_i w6 w7 e8
      have k9 : Keeps s0 w7 := PK.of (f := (·.2)) (State.takePend_keeps h2) e8
      extract_lets -merge +onlyGivenNames v10
      clear_value v10
      exact (keeps_ite k9 (keeps_ite (State.setSegState_keeps k9) (keeps_ite (State.setSeg_keeps k9) k9)))

theorem execAckMsg_keeps {s0 : State} {p : Fin 16} {m : List Word} {s : State} (h_1 : Keeps s0 s) : ∃ sn, @execAckMsg p m s = .next sn ∧ Keeps s0 sn := by
  unfold execAckMsg
  exact ⟨_, rfl, (doAck_keeps (State.upEvent_keeps h_1))⟩

theorem presence_keeps {s0 : State} {p : Nat} {mask : Nat} {x2 : Nat} {x3 : State} (h_1 : Keeps s0 x3) : Keeps s0 (@presence p mask x2 x3) := by
  induction x2 generalizing x3 with
  | zero =>
    rw [presence.eq_1]
    exact h_1
  | succ n ih =>
    rw [presence.eq_2]
    exact (keeps_ite (keeps_ite (State.setSegState_keeps (ih h_1)) (ih h_1)) (keeps_ite (ih h_1) (State.setSegState_keeps (State.setSeg_keeps (ih h_1)))))

theorem doBncap_keeps {s0 : State} {p : Fin 16} {m : List Word} {s : State} (h_1 : Keeps s0 s) : Keeps s0 (@doBncap p m s) := by
  unfold doBncap
  apply keeps_ite
  · exact h_1
  · split
    · rename_i w1 w2 e3
      have k4 : Keeps s0 w2 := PK.of (f := (·.2)) (State.takePend_keeps h_1) e3
      apply keeps_ite
      · exact k4
      · apply keeps_ite
        · exact (State.set_keeps (State.portDown_keeps (State.report_keeps k4)))
        · extract_lets -merge +onlyGivenNames u5 v6
          clear_value u5
          have h8 : Keeps s0 v6 := (State.setPort_keeps k4)
          clear_value v6
          extract_lets -merge +onlyGivenNames v9
          have h10 : Keeps s0 v9 := (State.set_keeps (State.set_keeps h8))
          clear_value v9
          exact (presence_keeps (State.setPdly_keeps h10))

theorem execBncap_keeps {s0 : State} {p : Fin 16} {m : List Word} {s : State} (h_1 : Keeps s0 s) : ∃ sn, @execBncap p m s = .next sn ∧ Keeps s0 sn := by
  unfold execBncap
  exact ⟨_, rfl, (doBncap_keeps (State.upEvent_keeps h_1))⟩

theorem doCap_keeps {s0 : State} {p : Fin 16} {m : List Word} {s : State} (h_1 : Keeps s0 s) : Keeps s0 (@doCap p m s) := by
  unfold doCap
  apply keeps_ite
  · exact h_1
  · extract_lets -merge +onlyGivenNames v1
    have h2 : Keeps s0 v1 := (State.fromSeg_keeps h_1)
    clear_value v1
    extract_lets -merge +onlyGivenNames v3
    clear_value v3
    extract_lets -merge +onlyGivenNames v5
    clear_value v5
    split
    · exact h2
    · extract_lets -merge +onlyGivenNames v10
      have h11 : Keeps s0 v10 := (State.setPort_keeps h2)
      clear_value v10
      extract_lets -merge +onlyGivenNames v12
      clear_value v12
      extract_lets -merge +onlyGivenNames u14 v15
      clear_value u14
      have h17 : Keeps s0 v15 := (State.setSeg_keeps h11)
      clear_value v15
      apply keeps_ite
      · exact (State.report_keeps (State.setSegState_keeps h17))
      · extract_lets -merge +onlyGivenNames v18
        have h19 : Keeps s0 v18 := (State.set_keeps (State.setSegState_keeps h17))
        clear_value v18
        extract_lets -merge +onlyGivenNames v20
        clear_value v20
        split
        · exact h19
        · exact (keeps_ite h19 (keeps_ite (State.sendAdmit_keeps h19) (State.report_keeps h19)))

theorem execCap_keeps {s0 : State} {p : Fin 16} {m : List Word} {s : State} (h_1 : Keeps s0 s) : ∃ sn, @execCap p m s = .next sn ∧ Keeps s0 sn := by
  unfold execCap
  exact ⟨_, rfl, (doCap_keeps (State.upEvent_keeps h_1))⟩

theorem doSlotinfo_keeps {s0 : State} {p : Fin 16} {m : List Word} {s : State} (h_1 : Keeps s0 s) : Keeps s0 (@doSlotinfo p m s) := by
  unfold doSlotinfo
  apply keeps_ite
  · exact h_1
  · extract_lets -merge +onlyGivenNames v1
    have h2 : Keeps s0 v1 := (State.fromSeg_keeps h_1)
    clear_value v1
    extract_lets -merge +onlyGivenNames v3
    clear_value v3
    extract_lets -merge +onlyGivenNames v5
    clear_value v5
    extract_lets -merge +onlyGivenNames v7
    clear_value v7
    extract_lets -merge +onlyGivenNames v9
    clear_value v9
    extract_lets -merge +onlyGivenNames v11
    clear_value v11
    extract_lets -merge +onlyGivenNames v13
    clear_value v13
    extract_lets -merge +onlyGivenNames v15
    have h16 : Keeps s0 v15 := (State.setSeg_keeps h2)
    clear_value v15
    extract_lets -merge +onlyGivenNames v17
    have h18 : Keeps s0 v17 := (State.set_keeps h16)
    clear_value v17
    extract_lets -merge +onlyGivenNames v19
    clear_value v19
    extract_lets -merge +onlyGivenNames v21
    have h22 : Keeps s0 v21 := (State.setRates_keeps (State.setSegLead_keeps h18))
    clear_value v21
    apply keeps_ite
    · extract_lets -merge +onlyGivenNames v23
      clear_value v23
      extract_lets -merge +onlyGivenNames v25
      have h26 : Keeps s0 v25 := (State.setPort_keeps h22)
      clear_value v25
      extract_lets -merge +onlyGivenNames u27 v28
      clear_value u27
      have h30 : Keeps s0 v28 := (State.setSeg_keeps h26)
      clear_value v28
      split
      · exact (keeps_ite (State.report_keeps h30) h30)
    · exact h22

theorem execSlotinfo_keeps {s0 : State} {p : Fin 16} {m : List Word} {s : State} (h_1 : Keeps s0 s) : ∃ sn, @execSlotinfo p m s = .next sn ∧ Keeps s0 sn := by
  unfold execSlotinfo
  exact ⟨_, rfl, (doSlotinfo_keeps (State.upEvent_keeps h_1))⟩

theorem doStaged_keeps {s0 : State} {p : Fin 16} {m : List Word} {s : State} (h_1 : Keeps s0 s) : Keeps s0 (@doStaged p m s) := by
  unfold doStaged
  apply keeps_ite
  · exact h_1
  · extract_lets -merge +onlyGivenNames v1
    have h2 : Keeps s0 v1 := (State.fromSeg_keeps h_1)
    clear_value v1
    extract_lets -merge +onlyGivenNames v3
    clear_value v3
    extract_lets -merge +onlyGivenNames v5
    clear_value v5
    extract_lets -merge +onlyGivenNames v7
    clear_value v7
    extract_lets -merge +onlyGivenNames v9
    clear_value v9
    extract_lets -merge +onlyGivenNames v11
    clear_value v11
    apply keeps_ite
    · exact h2
    · extract_lets -merge +onlyGivenNames v13
      clear_value v13
      extract_lets -merge +onlyGivenNames v15
      clear_value v15
      exact (State.setGroup_keeps h2)

theorem execStaged_keeps {s0 : State} {p : Fin 16} {m : List Word} {s : State} (h_1 : Keeps s0 s) : ∃ sn, @execStaged p m s = .next sn ∧ Keeps s0 sn := by
  unfold execStaged
  exact ⟨_, rfl, (doStaged_keeps (State.upEvent_keeps h_1))⟩

theorem doStageTimeout_keeps {s0 : State} {g : Fin 64} {k : Nat} {s : State} (h_1 : Keeps s0 s) : Keeps s0 (@doStageTimeout g k s) := by
  unfold doStageTimeout
  extract_lets -merge +onlyGivenNames v1
  clear_value v1
  split
  · exact h_1
  · apply keeps_ite
    · exact h_1
    · extract_lets -merge +onlyGivenNames v6
      clear_value v6
      exact (State.sendStage_keeps (State.setGroup_keeps h_1))

theorem execStageTimeout_keeps {s0 : State} {g : Fin 64} {k : Nat} {s : State} (h_1 : Keeps s0 s) : ∃ sn, @execStageTimeout g k s = .next sn ∧ Keeps s0 sn := by
  unfold execStageTimeout
  exact ⟨_, rfl, (doStageTimeout_keeps h_1)⟩

theorem doApplied_keeps {s0 : State} {p : Fin 16} {m : List Word} {s : State} (h_1 : Keeps s0 s) : Keeps s0 (@doApplied p m s) := by
  unfold doApplied
  apply keeps_ite
  · exact h_1
  · extract_lets -merge +onlyGivenNames v1
    have h2 : Keeps s0 v1 := (State.fromSeg_keeps h_1)
    clear_value v1
    extract_lets -merge +onlyGivenNames v3
    clear_value v3
    extract_lets -merge +onlyGivenNames v5
    clear_value v5
    extract_lets -merge +onlyGivenNames v7
    clear_value v7
    extract_lets -merge +onlyGivenNames v9
    have h10 : Keeps s0 v9 := (State.setGroup_keeps h2)
    clear_value v9
    apply keeps_ite
    · extract_lets -merge +onlyGivenNames v11
      clear_value v11
      exact (State.setSegState_keeps (State.setSeg_keeps h10))
    · exact h10

theorem execApplied_keeps {s0 : State} {p : Fin 16} {m : List Word} {s : State} (h_1 : Keeps s0 s) : ∃ sn, @execApplied p m s = .next sn ∧ Keeps s0 sn := by
  unfold execApplied
  exact ⟨_, rfl, (doApplied_keeps (State.upEvent_keeps h_1))⟩

theorem doAppliedTimeout_keeps {s0 : State} {g : Fin 64} {sg : Fin 2048} {s : State} (h_1 : Keeps s0 s) : Keeps s0 (@doAppliedTimeout g sg s) := by
  unfold doAppliedTimeout
  extract_lets -merge +onlyGivenNames v1
  clear_value v1
  apply keeps_ite
  · exact h_1
  · extract_lets -merge +onlyGivenNames v3
    clear_value v3
    extract_lets -merge +onlyGivenNames v5
    clear_value v5
    extract_lets -merge +onlyGivenNames v7
    have h8 : Keeps s0 v7 := (State.setGroup_keeps h_1)
    clear_value v7
    extract_lets -merge +onlyGivenNames v9
    have h10 : Keeps s0 v9 := (State.report_keeps h8)
    clear_value v9
    extract_lets -merge +onlyGivenNames v11
    have h12 : Keeps s0 v11 := (State.sendQuiet_keeps h10)
    clear_value v11
    extract_lets -merge +onlyGivenNames v13
    clear_value v13
    extract_lets -merge +onlyGivenNames v15
    have h16 : Keeps s0 v15 := (State.wr_keeps h12)
    clear_value v15
    extract_lets -merge +onlyGivenNames u17 v18
    clear_value u17
    have h20 : Keeps s0 v18 := (State.setSeg_keeps h16)
    clear_value v18
    exact (keeps_ite (State.setSegState_keeps h20) (State.segSetChanged_keeps h20))

theorem execAppliedTimeout_keeps {s0 : State} {g : Fin 64} {sg : Fin 2048} {s : State} (h_1 : Keeps s0 s) : ∃ sn, @execAppliedTimeout g sg s = .next sn ∧ Keeps s0 sn := by
  unfold execAppliedTimeout
  exact ⟨_, rfl, (doAppliedTimeout_keeps h_1)⟩

theorem doBnstat_keeps {s0 : State} {p : Fin 16} {m : List Word} {s : State} (h_1 : Keeps s0 s) : Keeps s0 (@doBnstat p m s) := by
  unfold doBnstat
  apply keeps_ite
  · exact h_1
  · extract_lets -merge +onlyGivenNames v1
    clear_value v1
    extract_lets -merge +onlyGivenNames v3
    have h4 : Keeps s0 v3 := (State.bump_keeps h_1)
    clear_value v3
    extract_lets -merge +onlyGivenNames v5
    have h6 : Keeps s0 v5 := (keeps_ite (presence_keeps h4) h4)
    clear_value v5
    exact (State.laneReports_keeps h6)

theorem execBnstat_keeps {s0 : State} {p : Fin 16} {m : List Word} {s : State} (h_1 : Keeps s0 s) : ∃ sn, @execBnstat p m s = .next sn ∧ Keeps s0 sn := by
  unfold execBnstat
  exact ⟨_, rfl, (doBnstat_keeps (State.upEvent_keeps h_1))⟩

theorem doPingPeriod_keeps {s0 : State} {p : Fin 16} {s : State} (h_1 : Keeps s0 s) : Keeps s0 (@doPingPeriod p s) := by
  unfold doPingPeriod
  exact (keeps_ite h_1 (foldl_keeps h_1 (fun _ _ h1 => (State.sendPing_keeps h1))))

theorem execPingPeriod_keeps {s0 : State} {p : Fin 16} {s : State} (h_1 : Keeps s0 s) : ∃ sn, @execPingPeriod p s = .next sn ∧ Keeps s0 sn := by
  unfold execPingPeriod
  exact ⟨_, rfl, (doPingPeriod_keeps h_1)⟩

theorem State.giveUp_keeps {s0 : State} {s : State} {p : Nat} {q : Pend} (h_1 : Keeps s0 s) : Keeps s0 (@State.giveUp s p q) := by
  unfold State.giveUp
  extract_lets -merge +onlyGivenNames v1
  have h2 : Keeps s0 v1 := (PK.out (State.takePend_keeps h_1))
  extract_lets -merge +onlyGivenNames v3
  clear_value v3
  extract_lets -merge +onlyGivenNames v5
  have h6 : ∀ a7, Keeps s0 a7 → Keeps s0 (v5 a7) := (fun _ h8 => (State.report_keeps (State.segSetChanged_keeps (State.set_keeps h8))))
  clear_value v5
  extract_lets -merge +onlyGivenNames v9
  have h10 : Keeps s0 v9 := (State.report_keeps h2)
  clear_value v9
  apply keeps_ite
  · extract_lets -merge +onlyGivenNames v11
    clear_value v11
    extract_lets -merge +onlyGivenNames u13 v14
    clear_value u13
    have h16 : Keeps s0 v14 := (State.setSeg_keeps h10)
    clear_value v14
    exact (keeps_ite (h6 _ h16) h16)
  · exact (keeps_ite (h6 _ (State.setSeg_keeps h10)) h10)

end Sys2Proof.Machine
end

