-- ==== Sys2Proof/Laws/KeepsScreen.lean ====
section
/-! SUPPORT. What every operation and every command of Machine/Screen.lean keeps (Keeps). -/

set_option Elab.async false

namespace Sys2Proof.Machine

theorem State.noteSeen_keeps {s0 : State} {s : State} {b : Nat} {n : Nat} {keys : List Nat} (h_1 : Keeps s0 s) : Keeps s0 (@State.noteSeen s b n keys) := by
  unfold State.noteSeen
  exact (foldl_keeps h_1 (fun _ _ h1 => (PK.out (State.readKeys_keeps h1))))

theorem State.underrun_keeps {s0 : State} {s : State} {b : Nat} {n : Nat} {inst : Nat} {g : Nat} {stripe : Nat} {cause : Nat} (h_1 : Keeps s0 s) : Keeps s0 (@State.underrun s b n inst g stripe cause) := by
  unfold State.underrun
  extract_lets -merge +onlyGivenNames v1
  have h2 : Keeps s0 v1 := (State.set_keeps (State.set_keeps (State.bump_keeps h_1)))
  clear_value v1
  exact (keeps_ite h2 (State.report_keeps (State.setPipe_keeps h2)))

theorem State.separate_keeps {s0 : State} {s : State} {b : Nat} {n : Nat} (h_1 : Keeps s0 s) : PK s0 (·.2) (@State.separate s b n) := by
  unfold State.separate
  extract_lets -merge +onlyGivenNames v1
  clear_value v1
  extract_lets -merge +onlyGivenNames v3
  clear_value v3
  split
  · exact (PK.mk2 h_1)
  · apply PK.ite
    · exact (PK.mk2 h_1)
    · split
      · exact (PK.mk2 h_1)
      · split
        · exact (PK.mk2 h_1)
        · extract_lets -merge +onlyGivenNames v14
          clear_value v14
          extract_lets -merge +onlyGivenNames v16
          clear_value v16
          split
          · exact (PK.mk2 h_1)
          · extract_lets -merge +onlyGivenNames v21
            clear_value v21
            extract_lets -merge +onlyGivenNames v23
            clear_value v23
            extract_lets -merge +onlyGivenNames v25
            clear_value v25
            apply PK.ite
            · exact (PK.ite (PK.mk2 h_1) (PK.mk2 (State.report_keeps (State.setPipe_keeps h_1))))
            · extract_lets -merge +onlyGivenNames v27
              clear_value v27
              extract_lets -merge +onlyGivenNames v29
              clear_value v29
              extract_lets -merge +onlyGivenNames v31
              clear_value v31
              extract_lets -merge +onlyGivenNames v33
              clear_value v33
              extract_lets -merge +onlyGivenNames v35
              clear_value v35
              apply PK.ite
              · extract_lets -merge +onlyGivenNames v37
                have h38 : Keeps s0 v37 := (keeps_ite h_1 (State.report_keeps (State.setPipe_keeps h_1)))
                clear_value v37
                exact (PK.mk2 h38)
              · extract_lets -merge +onlyGivenNames v39
                clear_value v39
                extract_lets -merge +onlyGivenNames v41
                clear_value v41
                extract_lets -merge +onlyGivenNames v43
                clear_value v43
                extract_lets -merge +onlyGivenNames v45
                clear_value v45
                extract_lets -merge +onlyGivenNames v47
                clear_value v47
                extract_lets -merge +onlyGivenNames v49
                clear_value v49
                split
                · exact (PK.mk2 h_1)
                · exact (PK.mk2 (State.underrun_keeps h_1))

theorem State.checkHead_keeps {s0 : State} {s : State} {b : Nat} {n : Nat} {h : ThrHead} (h_1 : Keeps s0 s) : Keeps s0 (@State.checkHead s b n h) := by
  unfold State.checkHead
  extract_lets -merge +onlyGivenNames v1
  clear_value v1
  extract_lets -merge +onlyGivenNames v3
  extract_lets -merge +onlyGivenNames u5 v6
  clear_value u5
  have h8 : Keeps s0 v6 := (State.setPipe_keeps h_1)
  clear_value v6
  extract_lets -merge +onlyGivenNames v9
  have h10 : Keeps s0 v9 := (State.set_keeps h8)
  clear_value v9
  exact (keeps_ite (State.report_keeps h10) h10)

theorem applyPatches_keeps {s0 : State} {b : Nat} {n : Nat} {tiles : List (Nat × Nat)} {x3 : Nat} {x4 : State} (h_1 : Keeps s0 x4) : Keeps s0 (@applyPatches b n tiles x3 x4) := by
  induction x3 generalizing x4 with
  | zero =>
    rw [applyPatches.eq_1]
    exact h_1
  | succ n ih =>
    rw [applyPatches.eq_2]
    refine ih ?_
    · apply keeps_ite
      · exact h_1
      · extract_lets -merge +onlyGivenNames v1
        clear_value v1
        extract_lets -merge +onlyGivenNames v3
        clear_value v3
        extract_lets -merge +onlyGivenNames v5
        have h6 : Keeps s0 v5 := (State.set_keeps h_1)
        clear_value v5
        exact (keeps_ite (State.writeTarn_keeps h6) (State.report_keeps h6))

theorem State.lineReport_keeps {s0 : State} {s : State} {b : Nat} {n : Nat} {key : Nat} {code : Nat} {arg : Word} (h_1 : Keeps s0 s) : Keeps s0 (@State.lineReport s b n key code arg) := by
  unfold State.lineReport
  extract_lets -merge +onlyGivenNames v1
  clear_value v1
  exact (keeps_ite h_1 (State.report_keeps (State.setPipe_keeps h_1)))

theorem State.dutyStages_keeps {s0 : State} {s : State} {b : Nat} {n : Nat} {e : ScnEnv} {lv : List (List Nat)} (h_1 : Keeps s0 s) : PK s0 (·.2) (@State.dutyStages s b n e lv) := by
  unfold State.dutyStages
  apply PK.ite
  · exact (PK.mk2 h_1)
  · extract_lets -merge +onlyGivenNames v1
    clear_value v1
    extract_lets -merge +onlyGivenNames v3
    clear_value v3
    extract_lets -merge +onlyGivenNames v5
    clear_value v5
    extract_lets -merge +onlyGivenNames v7
    clear_value v7
    extract_lets -merge +onlyGivenNames v9
    clear_value v9
    extract_lets -merge +onlyGivenNames v11
    clear_value v11
    extract_lets -merge +onlyGivenNames v13
    have h14 : Keeps s0 v13 := (keeps_ite h_1 (State.lineReport_keeps (State.bump_keeps h_1)))
    clear_value v13
    extract_lets -merge +onlyGivenNames v15
    clear_value v15
    extract_lets -merge +onlyGivenNames v17
    clear_value v17
    apply PK.ite
    · exact (PK.mk2 h14)
    · extract_lets -merge +onlyGivenNames v19
      clear_value v19
      extract_lets -merge +onlyGivenNames v21
      clear_value v21
      extract_lets -merge +onlyGivenNames v23
      clear_value v23
      extract_lets -merge +onlyGivenNames v25
      clear_value v25
      extract_lets -merge +onlyGivenNames v27
      have h28 : Keeps s0 v27 := by
        unfold v27
        split
        · exact h14
        · extract_lets -merge +onlyGivenNames v34
          clear_value v34
          exact (State.lineReport_keeps (State.bump_keeps h14))
      clear_value v27
      exact (PK.mk2 h28)

theorem State.endBand_keeps {s0 : State} {s : State} {b : Nat} (h_1 : Keeps s0 s) : Keeps s0 (@State.endBand s b) := by
  unfold State.endBand
  exact (State.set_keeps (State.set_keeps (State.setPipe_keeps h_1)))

theorem State.startBand_keeps {s0 : State} {s : State} {b : Nat} {n : Nat} (h_1 : Keeps s0 s) : Keeps s0 (@State.startBand s b n) := by
  unfold State.startBand
  extract_lets -merge +onlyGivenNames u1 v2
  clear_value u1
  have h4 : Keeps s0 v2 := by
    unfold v2
    split
    · exact (keeps_ite (State.set_keeps (State.setPipe_keeps h_1)) h_1)
    · exact h_1
  clear_value v2
  split
  · exact (keeps_ite (State.endBand_keeps h4) h4)
  · exact h4

theorem State.stages_keeps {s0 : State} {s : State} {b : Nat} {n : Nat} {h : ThrHead} {sep : List SepCol} (h_1 : Keeps s0 s) : PK s0 (·.2) (@State.stages s b n h sep) := by
  unfold State.stages
  extract_lets -merge +onlyGivenNames v1
  clear_value v1
  extract_lets -merge +onlyGivenNames v3
  clear_value v3
  extract_lets -merge +onlyGivenNames v5
  clear_value v5
  extract_lets -merge +onlyGivenNames v7
  clear_value v7
  extract_lets -merge +onlyGivenNames v9
  clear_value v9
  split
  · extract_lets -merge +onlyGivenNames v14
    clear_value v14
    extract_lets -merge +onlyGivenNames v16
    clear_value v16
    extract_lets -merge +onlyGivenNames v18
    clear_value v18
    extract_lets -merge +onlyGivenNames v20
    clear_value v20
    extract_lets -merge +onlyGivenNames v22
    clear_value v22
    extract_lets -merge +onlyGivenNames v24
    clear_value v24
    extract_lets -merge +onlyGivenNames v26
    clear_value v26
    extract_lets -merge +onlyGivenNames v28
    clear_value v28
    extract_lets -merge +onlyGivenNames v30
    have h31 : Keeps s0 v30 := (State.noteSeen_keeps h_1)
    clear_value v30
    extract_lets -merge +onlyGivenNames v32
    have h33 : Keeps s0 v32 := (State.bump_keeps h31)
    clear_value v32
    extract_lets -merge +onlyGivenNames v34
    have h35 : Keeps s0 v34 := by
      unfold v34
      split
      · exact h33
      · exact (State.lineReport_keeps (State.set_keeps (State.bump_keeps h33)))
    clear_value v34
    extract_lets -merge +onlyGivenNames v38
    have h39 : Keeps s0 v38 := (keeps_ite h35 (State.lineReport_keeps (State.bump_keeps h35)))
    clear_value v38
    extract_lets -merge +onlyGivenNames v40
    clear_value v40
    exact (State.dutyStages_keeps h39)

theorem State.screen_keeps {s0 : State} {s : State} {b : Nat} {n : Nat} {sep : List SepCol} (h_1 : Keeps s0 s) : PK s0 (·.2) (@State.screen s b n sep) := by
  unfold State.screen
  extract_lets -merge +onlyGivenNames v1
  clear_value v1
  extract_lets -merge +onlyGivenNames v3
  clear_value v3
  extract_lets -merge +onlyGivenNames v5
  have h6 : Keeps s0 v5 := (applyPatches_keeps h_1)
  clear_value v5
  extract_lets -merge +onlyGivenNames v7
  have h8 : Keeps s0 v7 := (State.startBand_keeps h6)
  clear_value v7
  extract_lets -merge +onlyGivenNames v9
  clear_value v9
  extract_lets -merge +onlyGivenNames v11
  have h12 : Keeps s0 v11 := (State.noteSeen_keeps h8)
  clear_value v11
  extract_lets -merge +onlyGivenNames v13
  have h14 : Keeps s0 v13 := (keeps_ite h12 (State.checkHead_keeps h12))
  clear_value v13
  extract_lets -merge +onlyGivenNames v15
  clear_value v15
  split
  · rename_i w18 w19 e20
    have k21 : Keeps s0 w19 := by
      refine PK.of (f := (·.2)) ?_ e20
      apply PK.ite
      · exact (PK.mk2 h14)
      · split
        · exact (PK.mk2 h14)
        · exact (State.stages_keeps h14)
    extract_lets -merge +onlyGivenNames v22
    clear_value v22
    extract_lets -merge +onlyGivenNames v24
    have h25 : Keeps s0 v24 := (State.setPipe_keeps k21)
    clear_value v24
    extract_lets -merge +onlyGivenNames v26
    have h27 : Keeps s0 v26 := by
      unfold v26
      split
      · exact (keeps_ite (State.endBand_keeps h25) h25)
      · exact h25
    clear_value v26
    exact (PK.mk2 h27)

theorem State.putLine_keeps {s0 : State} {s : State} {b : Nat} {n : Nat} {lv : List (List Nat)} (h_1 : Keeps s0 s) : Keeps s0 (@State.putLine s b n lv) := by
  unfold State.putLine
  refine foldl_keeps ?_ ?_
  · exact h_1
  · intro _ _ h1
    split
    · exact h1
    · exact (State.writeTarn_keeps h1)

theorem State.prunePipe_keeps {s0 : State} {s : State} {b : Nat} {n : Nat} (h_1 : Keeps s0 s) : Keeps s0 (@State.prunePipe s b n) := by
  unfold State.prunePipe
  extract_lets -merge +onlyGivenNames v1
  clear_value v1
  split
  · exact h_1
  · split
    · extract_lets -merge +onlyGivenNames v9
      clear_value v9
      extract_lets -merge +onlyGivenNames v11
      clear_value v11
      extract_lets -merge +onlyGivenNames v13
      clear_value v13
      exact (State.setPipe_keeps h_1)

theorem doBarLine_keeps {s0 : State} {b : Fin 8} {s : State} (h_1 : Keeps s0 s) : Keeps s0 (@doBarLine b s) := by
  unfold doBarLine
  extract_lets -merge +onlyGivenNames v1
  clear_value v1
  split
  · exact h_1
  · extract_lets -merge +onlyGivenNames v6
    clear_value v6
    apply keeps_ite
    · exact h_1
    · apply keeps_ite
      · exact (State.setGate_keeps h_1)
      · extract_lets -merge +onlyGivenNames v8
        have h9 : Keeps s0 v8 := (State.startUnit_keeps h_1)
        clear_value v8
        extract_lets -merge +onlyGivenNames u10 v11
        clear_value u10
        have h13 : Keeps s0 v11 := (State.setPipe_keeps h9)
        clear_value v11
        split
        · rename_i w14 w15 e16
          have k17 : Keeps s0 w15 := PK.of (f := (·.2)) (State.separate_keeps h13) e16
          extract_lets -merge +onlyGivenNames v18
          clear_value v18
          extract_lets -merge +onlyGivenNames v20
          have h21 : Keeps s0 v20 := (State.noteSeen_keeps k17)
          clear_value v20
          split
          · rename_i w22 w23 e24
            have k25 : Keeps s0 w23 := PK.of (f := (·.2)) (State.screen_keeps h21) e24
            extract_lets -merge +onlyGivenNames v26
            have h27 : Keeps s0 v26 := (State.updAhead_keeps (State.updLevel_keeps (State.prunePipe_keeps k25)))
            clear_value v26
            exact (State.setPipe_keeps (State.putLine_keeps h27))

theorem execBarLine_keeps {s0 : State} {b : Fin 8} {s : State} (h_1 : Keeps s0 s) : ∃ sn, @execBarLine b s = .next sn ∧ Keeps s0 sn := by
  unfold execBarLine
  exact ⟨_, rfl, (doBarLine_keeps h_1)⟩

theorem doLineComplete_keeps {s0 : State} {b : Fin 8} {line : DWord} {s : State} (h_1 : Keeps s0 s) : Keeps s0 (@doLineComplete b line s) := by
  unfold doLineComplete
  extract_lets -merge +onlyGivenNames v1
  clear_value v1
  extract_lets -merge +onlyGivenNames v3
  clear_value v3
  apply keeps_ite
  · exact h_1
  · extract_lets -merge +onlyGivenNames v5
    clear_value v5
    extract_lets -merge +onlyGivenNames v7
    have h8 : Keeps s0 v7 := (State.setPipe_keeps h_1)
    clear_value v7
    exact (State.lineDone_keeps (State.setGate_keeps h8))

theorem execLineComplete_keeps {s0 : State} {b : Fin 8} {line : DWord} {s : State} (h_1 : Keeps s0 s) : ∃ sn, @execLineComplete b line s = .next sn ∧ Keeps s0 sn := by
  unfold execLineComplete
  exact ⟨_, rfl, (doLineComplete_keeps h_1)⟩

end Sys2Proof.Machine
end

