-- ==== Sys2Proof/Laws/KeepsFire.lean ====
section
/-! SUPPORT. What every operation and every command of Machine/Fire.lean keeps (Keeps). -/

set_option Elab.async false

namespace Sys2Proof.Machine

theorem State.dropFireDesc_keeps {s0 : State} {s : State} {b : Nat} (h_1 : Keeps s0 s) : Keeps s0 (@State.dropFireDesc s b) := by
  unfold State.dropFireDesc
  extract_lets -merge +onlyGivenNames v1
  clear_value v1
  extract_lets -merge +onlyGivenNames v3
  have h4 : Keeps s0 v3 := (State.setGate_keeps h_1)
  clear_value v3
  exact (State.report_keeps h4)

theorem State.finishFireOps_keeps {s0 : State} {s : State} {b : Nat} {p : Nat → Bool} (h_1 : Keeps s0 s) : Keeps s0 (@State.finishFireOps s b p) := by
  unfold State.finishFireOps
  extract_lets -merge +onlyGivenNames v1
  clear_value v1
  exact (State.setGate_keeps h_1)

theorem State.auditJobEnd_keeps {s0 : State} {s : State} {j : Job} (h_1 : Keeps s0 s) : Keeps s0 (@State.auditJobEnd s j) := by
  unfold State.auditJobEnd
  refine foldl_keeps ?_ ?_
  · exact h_1
  · intro _ _ h1
    split
    · exact (State.audit_keeps h1)
    · exact h1

theorem State.clearPipes_keeps {s0 : State} {s : State} (h_1 : Keeps s0 s) : Keeps s0 (@State.clearPipes s) := by
  unfold State.clearPipes
  refine foldl_keeps ?_ ?_
  · exact h_1
  · intro _ _ h1
    extract_lets -merge +onlyGivenNames v2
    clear_value v2
    extract_lets -merge +onlyGivenNames u4 v5
    clear_value u4
    clear_value v5
    exact (State.updLevel_keeps (State.setPipe_keeps h1))

theorem State.finishJob_keeps {s0 : State} {s : State} (h_1 : Keeps s0 s) : Keeps s0 (@State.finishJob s) := by
  unfold State.finishJob
  split
  · exact h_1
  · extract_lets -merge +onlyGivenNames v4
    have h5 : Keeps s0 v4 := (State.abortIngests_keeps h_1)
    clear_value v4
    extract_lets -merge +onlyGivenNames v6
    have h7 : Keeps s0 v6 := (foldl_keeps h5 (fun _ _ h8 => (State.freeStore_keeps h8)))
    clear_value v6
    extract_lets -merge +onlyGivenNames v9
    have h10 : Keeps s0 v9 := (State.groupsAtJobStop_keeps h7)
    clear_value v9
    extract_lets -merge +onlyGivenNames v11
    have h12 : Keeps s0 v11 := (State.auditJobEnd_keeps h10)
    clear_value v11
    extract_lets -merge +onlyGivenNames u13 v14
    clear_value u13
    have h16 : Keeps s0 v14 := (Keeps.upd h12)
    clear_value v14
    extract_lets -merge +onlyGivenNames v17
    have h18 : Keeps s0 v17 := (setLeads_keeps (State.clearPipes_keeps h16))
    clear_value v17
    exact (keeps_ite (State.setDev_keeps h18) h18)

theorem State.abortPrint_keeps {s0 : State} {s : State} (h_1 : Keeps s0 s) : Keeps s0 (@State.abortPrint s) := by
  unfold State.abortPrint
  extract_lets -merge +onlyGivenNames v1
  clear_value v1
  extract_lets -merge +onlyGivenNames u3 v4
  clear_value u3
  have h6 : Keeps s0 v4 := (Keeps.upd h_1)
  clear_value v4
  exact (foldl_keeps h6 (fun _ _ h7 => (State.complete_keeps h7)))

theorem State.saveMap_keeps {s0 : State} {s : State} (h_1 : Keeps s0 s) : Keeps s0 (@State.saveMap s) := by
  unfold State.saveMap
  extract_lets -merge +onlyGivenNames v1
  have h2 : PK s0 (·.st) v1 := (State.readTarn_keeps h_1)
  clear_value v1
  extract_lets -merge +onlyGivenNames v3
  have h4 : Keeps s0 v3 := (PK.out h2)
  extract_lets -merge +onlyGivenNames v5
  clear_value v5
  extract_lets -merge +onlyGivenNames u7 v8
  clear_value u7
  have h10 : Keeps s0 v8 := (Keeps.upd h4)
  clear_value v8
  exact (keeps_ite h10 (Keeps.upd h10))

theorem State.endOp_keeps {s0 : State} {s : State} {o : PrintOp} (h_1 : Keeps s0 s) : Keeps s0 (@State.endOp s o) := by
  unfold State.endOp
  apply keeps_ite
  · extract_lets -merge +onlyGivenNames v1
    have h2 : Keeps s0 v1 := (keeps_ite (State.setDev_keeps h_1) h_1)
    clear_value v1
    exact (State.complete_keeps h2)
  · exact (keeps_ite (State.complete_keeps (State.saveMap_keeps (State.finishJob_keeps h_1))) (State.complete_keeps (State.finishJob_keeps h_1)))

theorem State.checkStopped_keeps {s0 : State} {s : State} (h_1 : Keeps s0 s) : Keeps s0 (@State.checkStopped s) := by
  unfold State.checkStopped
  apply keeps_ite
  · exact h_1
  · extract_lets -merge +onlyGivenNames v1
    clear_value v1
    extract_lets -merge +onlyGivenNames u3 v4
    clear_value u3
    have h6 : Keeps s0 v4 := (foldl_keeps (Keeps.upd h_1) (fun _ _ h7 => (State.endOp_keeps h7)))
    clear_value v4
    exact (keeps_ite (State.finishJob_keeps h6) h6)

theorem State.finalStop_keeps {s0 : State} {s : State} {b : Nat} (h_1 : Keeps s0 s) : Keeps s0 (@State.finalStop s b) := by
  unfold State.finalStop
  extract_lets -merge +onlyGivenNames v1
  clear_value v1
  extract_lets -merge +onlyGivenNames v3
  have h4 : Keeps s0 v3 := (State.set64_keeps (State.set_keeps h_1))
  clear_value v3
  exact (State.checkStopped_keeps (State.finishFireOps_keeps h4))

theorem State.stopBar_keeps {s0 : State} {s : State} {b : Nat} {n : Nat} (h_1 : Keeps s0 s) : Keeps s0 (@State.stopBar s b n) := by
  unfold State.stopBar
  apply keeps_ite
  · exact h_1
  · extract_lets -merge +onlyGivenNames v1
    clear_value v1
    extract_lets -merge +onlyGivenNames v3
    clear_value v3
    extract_lets -merge +onlyGivenNames v5
    clear_value v5
    extract_lets -merge +onlyGivenNames v7
    have h8 : Keeps s0 v7 := (State.setFireBar_keeps h_1)
    clear_value v7
    exact (keeps_ite (State.finalStop_keeps h8) h8)

theorem State.stopJob_keeps {s0 : State} {s : State} {flag : Option Fld} {on : Nat → Bool} (h_1 : Keeps s0 s) : Keeps s0 (@State.stopJob s flag on) := by
  unfold State.stopJob
  extract_lets -merge +onlyGivenNames v1
  clear_value v1
  extract_lets -merge +onlyGivenNames v3
  have h4 : Keeps s0 v3 := by
    unfold v3
    refine foldl_keeps ?_ ?_
    · exact h_1
    · intro _ _ h5
      split
      · exact (keeps_ite (State.set_keeps h5) h5)
      · exact h5
  clear_value v3
  extract_lets -merge +onlyGivenNames v7
  clear_value v7
  extract_lets -merge +onlyGivenNames v9
  have h10 : Keeps s0 v9 := (keeps_ite (State.setDev_keeps h4) h4)
  clear_value v9
  extract_lets -merge +onlyGivenNames v11
  have h12 : Keeps s0 v11 := (keeps_ite (State.abortPrint_keeps h10) h10)
  clear_value v11
  exact (foldl_keeps h12 (fun _ _ h13 => (State.stopBar_keeps h13)))

theorem State.checkGroups_keeps {s0 : State} {s : State} {b : Nat} {m : Nat} (h_1 : Keeps s0 s) : Keeps s0 (@State.checkGroups s b m) := by
  unfold State.checkGroups
  exact (foldl_keeps h_1 (fun _ _ h1 => (State.checkGroup_keeps h1)))

theorem State.freePanels_keeps {s0 : State} {s : State} (h_1 : Keeps s0 s) : Keeps s0 (@State.freePanels s) := by
  unfold State.freePanels
  split
  · exact h_1
  · split
    · exact h_1
    · extract_lets -merge +onlyGivenNames v7
      clear_value v7
      extract_lets -merge +onlyGivenNames v9
      clear_value v9
      refine foldl_keeps ?_ ?_
      · exact h_1
      · intro _ _ h11
        split
        · exact h11
        · apply keeps_ite
          · exact h11
          · apply keeps_ite
            · extract_lets -merge +onlyGivenNames v15
              have h16 : Keeps s0 v15 := (State.freeStore_keeps h11)
              clear_value v15
              extract_lets -merge +onlyGivenNames v17
              clear_value v17
              exact (Keeps.upd h16)
            · exact h11

theorem State.startFetch_keeps {s0 : State} {s : State} {b : Nat} {n : Nat} (h_1 : Keeps s0 s) : Keeps s0 (@State.startFetch s b n) := by
  unfold State.startFetch
  exact (State.freePanels_keeps (State.fetchLine_keeps (State.startUnit_keeps h_1)))

theorem State.noteTelem_keeps {s0 : State} {s : State} {sg : Nat} {line : Nat} (h_1 : Keeps s0 s) : Keeps s0 (@State.noteTelem s sg line) := by
  unfold State.noteTelem
  exact (State.setSeg_keeps h_1)

theorem State.startBar_keeps {s0 : State} {s : State} {b : Nat} {n : Nat} (h_1 : Keeps s0 s) : Keeps s0 (@State.startBar s b n) := by
  unfold State.startBar
  extract_lets -merge +onlyGivenNames v1
  clear_value v1
  extract_lets -merge +onlyGivenNames v3
  clear_value v3
  extract_lets -merge +onlyGivenNames v5
  have h6 : Keeps s0 v5 := (State.setFireBar_keeps h_1)
  clear_value v5
  extract_lets -merge +onlyGivenNames v7
  have h8 : Keeps s0 v7 := (State.set_keeps (State.set_keeps (State.set_keeps (State.set_keeps h6))))
  clear_value v7
  extract_lets -merge +onlyGivenNames u9 v10
  have h12 : Keeps s0 v10 := (Keeps.upd h8)
  clear_value v10
  extract_lets -merge +onlyGivenNames v13
  have h14 : Keeps s0 v13 := (foldl_keeps h12 (fun _ _ h15 => (keeps_ite (State.noteTelem_keeps h15) h15)))
  clear_value v13
  extract_lets -merge +onlyGivenNames v16
  have h17 : Keeps s0 v16 := (foldl_keeps h14 (fun _ _ h18 => (State.setPort_keeps h18)))
  clear_value v16
  extract_lets -merge +onlyGivenNames v19
  clear_value v19
  extract_lets -merge +onlyGivenNames v21
  have h22 : Keeps s0 v21 := (State.setPipe_keeps h17)
  clear_value v21
  extract_lets -merge +onlyGivenNames v23
  have h24 : Keeps s0 v23 := (State.checkGroups_keeps h22)
  clear_value v23
  extract_lets -merge +onlyGivenNames v25
  have h26 : Keeps s0 v25 := (foldl_keeps h24 (fun _ _ h27 => (State.startFetch_keeps h27)))
  clear_value v25
  exact (State.updLevel_keeps (State.startUnit_keeps h26))

theorem doStart_keeps {s0 : State} {b : Fin 8} {s : State} (h_1 : Keeps s0 s) : Keeps s0 (@doStart b s) := by
  unfold doStart
  split
  · exact h_1
  · apply keeps_ite
    · exact h_1
    · apply keeps_ite
      · exact (State.dropFireDesc_keeps h_1)
      · extract_lets -merge +onlyGivenNames v4
        clear_value v4
        exact (State.startBar_keeps (State.setFireBar_keeps h_1))

theorem execFireStart_keeps {s0 : State} {b : Fin 8} {s : State} (h_1 : Keeps s0 s) : ∃ sn, @execFireStart b s = .next sn ∧ Keeps s0 sn := by
  unfold execFireStart
  exact ⟨_, rfl, (doStart_keeps h_1)⟩

theorem doStop_keeps {s0 : State} {b : Fin 8} {s : State} (h_1 : Keeps s0 s) : Keeps s0 (@doStop b s) := by
  unfold doStop
  split
  · exact h_1
  · apply keeps_ite
    · exact h_1
    · apply keeps_ite
      · exact (State.dropFireDesc_keeps h_1)
      · extract_lets -merge +onlyGivenNames v4
        clear_value v4
        exact (State.stopBar_keeps (State.setFireBar_keeps h_1))

theorem execFireStop_keeps {s0 : State} {b : Fin 8} {s : State} (h_1 : Keeps s0 s) : ∃ sn, @execFireStop b s = .next sn ∧ Keeps s0 sn := by
  unfold execFireStop
  exact ⟨_, rfl, (doStop_keeps h_1)⟩

theorem State.meterLine_keeps {s0 : State} {s : State} {b : Nat} {n : Nat} (h_1 : Keeps s0 s) : Keeps s0 (@State.meterLine s b n) := by
  unfold State.meterLine
  apply keeps_ite
  · exact h_1
  · split
    · exact h_1
    · split
      · exact (State.countLine_keeps h_1)
      · extract_lets -merge +onlyGivenNames v8
        have h9 : Keeps s0 v8 := (State.countLine_keeps h_1)
        clear_value v8
        apply keeps_ite
        · exact h9
        · extract_lets -merge +onlyGivenNames v10
          clear_value v10
          extract_lets -merge +onlyGivenNames u12 v13
          have h15 : Keeps s0 v13 := (Keeps.upd h9)
          clear_value v13
          extract_lets -merge +onlyGivenNames v16
          have h17 : Keeps s0 v16 := (keeps_ite (State.setDev_keeps h15) h15)
          clear_value v16
          extract_lets -merge +onlyGivenNames v18
          have h19 : Keeps s0 v18 := (foldl_keeps (State.abortPrint_keeps h17) (fun _ _ h20 => (State.stopBar_keeps h20)))
          clear_value v18
          extract_lets -merge +onlyGivenNames v21
          have h22 : Keeps s0 v21 := by
            unfold v21
            split
            · exact (State.audit_keeps h19)
            · exact h19
          clear_value v21
          exact (State.report_keeps h22)

theorem State.discardLine_keeps {s0 : State} {s : State} {p : Nat} {n : Nat} (h_1 : Keeps s0 s) : Keeps s0 (@State.discardLine s p n) := by
  unfold State.discardLine
  extract_lets -merge +onlyGivenNames v1
  clear_value v1
  exact (State.setPort_keeps h_1)

theorem State.sendFire_keeps {s0 : State} {s : State} {p : Nat} {n : Nat} {t : Nat} {flags : Nat} (h_1 : Keeps s0 s) : Keeps s0 (@State.sendFire s p n t flags) := by
  unfold State.sendFire
  exact (keeps_ite h_1 (State.setPort_keeps h_1))

theorem State.commitLine_keeps {s0 : State} {s : State} {b : Nat} {n : Nat} {t : Nat} {flags : Nat → Nat} (h_1 : Keeps s0 s) : Keeps s0 (@State.commitLine s b n t flags) := by
  unfold State.commitLine
  extract_lets -merge +onlyGivenNames v1
  clear_value v1
  extract_lets -merge +onlyGivenNames v3
  have h4 : Keeps s0 v3 := (State.setFireBar_keeps h_1)
  clear_value v3
  extract_lets -merge +onlyGivenNames v5
  have h6 : Keeps s0 v5 := (keeps_ite (State.set_keeps h4) h4)
  clear_value v5
  extract_lets -merge +onlyGivenNames v7
  have h8 : Keeps s0 v7 := (foldl_keeps h6 (fun _ _ h9 => (State.sendFire_keeps h9)))
  clear_value v7
  extract_lets -merge +onlyGivenNames v10
  have h11 : Keeps s0 v10 := (State.tryRecord_keeps h8)
  clear_value v10
  exact (State.startUnit_keeps h11)

theorem State.decideLine_keeps {s0 : State} {s : State} {b : Nat} {n : Nat} {c : Nat} {t : Nat} (h_1 : Keeps s0 s) : PK s0 (·.2) (@State.decideLine s b n c t) := by
  unfold State.decideLine
  extract_lets -merge +onlyGivenNames v1
  clear_value v1
  extract_lets -merge +onlyGivenNames v3
  clear_value v3
  extract_lets -merge +onlyGivenNames v5
  clear_value v5
  extract_lets -merge +onlyGivenNames v7
  clear_value v7
  extract_lets -merge +onlyGivenNames v9
  clear_value v9
  extract_lets -merge +onlyGivenNames v11
  clear_value v11
  extract_lets -merge +onlyGivenNames v13
  clear_value v13
  extract_lets -merge +onlyGivenNames v15
  clear_value v15
  extract_lets -merge +onlyGivenNames v17
  have h18 : Keeps s0 v17 := (State.setFireBar_keeps h_1)
  clear_value v17
  apply PK.ite
  · extract_lets -merge +onlyGivenNames v19
    have h20 : Keeps s0 v19 := (State.report_keeps h18)
    clear_value v19
    exact (PK.mk2 (State.stopJob_keeps h20))
  · extract_lets -merge +onlyGivenNames v21
    clear_value v21
    apply PK.ite
    · extract_lets -merge +onlyGivenNames v23
      clear_value v23
      extract_lets -merge +onlyGivenNames v25
      clear_value v25
      extract_lets -merge +onlyGivenNames v27
      have h28 : Keeps s0 v27 := (State.setFireBar_keeps h18)
      clear_value v27
      extract_lets -merge +onlyGivenNames v29
      have h30 : Keeps s0 v29 := (keeps_ite (State.report_keeps h28) h28)
      clear_value v29
      exact (PK.mk2 (State.commitLine_keeps (State.bump_keeps h30)))
    · apply PK.ite
      · extract_lets -merge +onlyGivenNames v31
        clear_value v31
        extract_lets -merge +onlyGivenNames v33
        clear_value v33
        extract_lets -merge +onlyGivenNames v35
        have h36 : Keeps s0 v35 := (State.setFireBar_keeps h18)
        clear_value v35
        extract_lets -merge +onlyGivenNames v37
        have h38 : Keeps s0 v37 := (keeps_ite (State.report_keeps h36) h36)
        clear_value v37
        exact (PK.mk2 (State.commitLine_keeps (State.bump_keeps h38)))
      · extract_lets -merge +onlyGivenNames v39
        clear_value v39
        extract_lets -merge +onlyGivenNames v41
        clear_value v41
        extract_lets -merge +onlyGivenNames v43
        extract_lets -merge +onlyGivenNames v45
        clear_value v45
        extract_lets -merge +onlyGivenNames v47
        have h48 : Keeps s0 v47 := (State.setFireBar_keeps h18)
        clear_value v47
        extract_lets -merge +onlyGivenNames v49
        have h50 : Keeps s0 v49 := (State.bump_keeps h48)
        clear_value v49
        extract_lets -merge +onlyGivenNames v51
        have h52 : Keeps s0 v51 := (keeps_ite (State.report_keeps h50) h50)
        clear_value v51
        apply PK.ite
        · extract_lets -merge +onlyGivenNames v53
          have h54 : Keeps s0 v53 := (State.report_keeps h52)
          clear_value v53
          exact (PK.mk2 (State.stopJob_keeps h54))
        · extract_lets -merge +onlyGivenNames v55
          have h56 : Keeps s0 v55 := (foldl_keeps h52 (fun _ _ h57 => (State.discardLine_keeps h57)))
          clear_value v55
          extract_lets -merge +onlyGivenNames v58
          have h59 : Keeps s0 v58 := (State.commitLine_keeps h56)
          clear_value v58
          exact (PK.mk2 (State.meterLine_keeps h59))

theorem evalLines_keeps {s0 : State} {b : Nat} {c : Nat} {v : Nat} {ppos : Int} {x4 : Nat} {x5 : State} (h_1 : Keeps s0 x5) : Keeps s0 (@evalLines b c v ppos x4 x5) := by
  induction x4 generalizing x5 with
  | zero =>
    rw [evalLines.eq_1]
    exact h_1
  | succ n ih =>
    rw [evalLines.eq_2]
    apply keeps_ite
    · exact h_1
    · extract_lets -merge +onlyGivenNames v1
      clear_value v1
      extract_lets -merge +onlyGivenNames v3
      clear_value v3
      apply keeps_ite
      · exact h_1
      · extract_lets -merge +onlyGivenNames v5
        have h6 : PK s0 (·.2) v5 := (State.decideLine_keeps h_1)
        clear_value v5
        extract_lets -merge +onlyGivenNames v7
        have h8 : Keeps s0 v7 := (PK.out h6)
        exact (keeps_ite (ih h8) h8)

theorem doFireEvaluation_keeps {s0 : State} {b : Fin 8} {s : State} (h_1 : Keeps s0 s) : Keeps s0 (@doFireEvaluation b s) := by
  unfold doFireEvaluation
  extract_lets -merge +onlyGivenNames v1
  clear_value v1
  extract_lets -merge +onlyGivenNames v3
  clear_value v3
  apply keeps_ite
  · exact h_1
  · extract_lets -merge +onlyGivenNames v5
    clear_value v5
    exact (evalLines_keeps h_1)

theorem execFireEvaluation_keeps {s0 : State} {b : Fin 8} {s : State} (h_1 : Keeps s0 s) : ∃ sn, @execFireEvaluation b s = .next sn ∧ Keeps s0 sn := by
  unfold execFireEvaluation
  exact ⟨_, rfl, (doFireEvaluation_keeps h_1)⟩

theorem State.jobEvents_keeps {s0 : State} {s : State} {b : Nat} {n : Nat} (h_1 : Keeps s0 s) : Keeps s0 (@State.jobEvents s b n) := by
  unfold State.jobEvents
  split
  · exact h_1
  · extract_lets -merge +onlyGivenNames v4
    extract_lets -merge +onlyGivenNames v6
    extract_lets -merge +onlyGivenNames u8 v9
    clear_value u8
    have h11 : Keeps s0 v9 := (keeps_ite (State.hostEvent_keeps (Keeps.upd h_1)) h_1)
    clear_value v9
    apply keeps_ite
    · exact h11
    · split
      · exact h11
      · extract_lets -merge +onlyGivenNames v15
        clear_value v15
        extract_lets -merge +onlyGivenNames v17
        have h18 : Keeps s0 v17 := (keeps_ite h11 (State.hostEvent_keeps h11))
        clear_value v17
        exact (keeps_ite (State.hostEvent_keeps (Keeps.upd h18)) h18)

theorem State.fetchAt_keeps {s0 : State} {s : State} {b : Nat} {n : Nat} (h_1 : Keeps s0 s) : Keeps s0 (@State.fetchAt s b n) := by
  unfold State.fetchAt
  extract_lets -merge +onlyGivenNames v1
  clear_value v1
  extract_lets -merge +onlyGivenNames v3
  clear_value v3
  exact (foldl_keeps h_1 (fun _ _ h5 => (State.startFetch_keeps h5)))

theorem State.watchPassed_keeps {s0 : State} {s : State} {b : Nat} {n : Nat} (h_1 : Keeps s0 s) : Keeps s0 (@State.watchPassed s b n) := by
  unfold State.watchPassed
  exact (keeps_ite (Keeps.upd h_1) h_1)

theorem doLineBoundary_keeps {s0 : State} {b : Fin 8} {s : State} (h_1 : Keeps s0 s) : Keeps s0 (@doLineBoundary b s) := by
  unfold doLineBoundary
  extract_lets -merge +onlyGivenNames v1
  clear_value v1
  split
  · exact h_1
  · apply keeps_ite
    · exact h_1
    · extract_lets -merge +onlyGivenNames v7
      have h8 : Keeps s0 v7 := (State.setFireBar_keeps h_1)
      clear_value v7
      extract_lets -merge +onlyGivenNames v9
      have h10 : Keeps s0 v9 := (Keeps.upd h8)
      clear_value v9
      extract_lets -merge +onlyGivenNames v11
      have h12 : Keeps s0 v11 := (State.postEvent_keeps h10)
      clear_value v11
      extract_lets -merge +onlyGivenNames v13
      have h14 : Keeps s0 v13 := (State.groupsAtBoundary_keeps h12)
      clear_value v13
      extract_lets -merge +onlyGivenNames v15
      have h16 : Keeps s0 v15 := (keeps_ite (State.fetchAt_keeps h14) h14)
      clear_value v15
      extract_lets -merge +onlyGivenNames v17
      have h18 : Keeps s0 v17 := (State.watchPassed_keeps (State.jobEvents_keeps h16))
      clear_value v17
      extract_lets -merge +onlyGivenNames v19
      have h20 : Keeps s0 v19 := (State.finishFireOps_keeps h18)
      clear_value v19
      exact (keeps_ite (State.finalStop_keeps h20) h20)

end Sys2Proof.Machine
end

