-- ==== Sys2Proof/Laws/KeepsSecurity.lean ====
section
/-! SUPPORT. What every operation and every command of Machine/Security.lean keeps (Keeps). -/

set_option Elab.async false

namespace Sys2Proof.Machine

theorem State.loadLcs_keeps {s0 : State} {s : State} (h_1 : Keeps s0 s) : Keeps s0 (@State.loadLcs s) := by
  unfold State.loadLcs
  exact (State.set_keeps (State.set_keeps h_1))

theorem State.drawChallenge_keeps {s0 : State} {s : State} (h_1 : Keeps s0 s) : Keeps s0 (@State.drawChallenge s) := by
  unfold State.drawChallenge
  refine foldl_keeps ?_ ?_
  · exact h_1
  · intro _ _ h1
    split
    · rename_i w2 w3 e4
      have k5 : Keeps s0 w3 := PK.of (f := (·.2)) (State.drawFree_keeps h1) e4
      exact (State.set_keeps k5)

theorem State.zeroise_keeps {s0 : State} {s : State} (h_1 : Keeps s0 s) : Keeps s0 (@State.zeroise s) := by
  unfold State.zeroise
  exact (Keeps.upd h_1)

theorem State.readArgs_keeps {s0 : State} {s : State} {a : Nat} {n : Nat} (h_1 : Keeps s0 s) : PK s0 (·.2) (@State.readArgs s a n) := by
  unfold State.readArgs
  apply PK.ite
  · exact (PK.mk2 h_1)
  · extract_lets -merge +onlyGivenNames v1
    have h2 : PK s0 (·.st) v1 := (State.readTarn_keeps h_1)
    clear_value v1
    exact (PK.mk2 (PK.out h2))

theorem State.commitSvn_keeps {s0 s : State} {w : List Byte} (h : Keeps s0 s) : Keeps s0 (s.commitSvn w) := by
  have k : ∀ kind m, Keeps s0 { s with sec := { s.sec with svn := Tab.put (fun _ => 0) s.sec.svn kind (max (s.svnOf kind) m) } } := by
    intro kind m
    refine h.sec id (fun g => Tab.put_wf g) (fun hw => ⟨fun _ _ e => e, fun _ e => e, fun j => ?_, List.prefix_refl _⟩)
    show s.svnOf j ≤ Tab.get _ (Tab.put _ s.sec.svn kind _) j
    rw [Tab.get_put]
    split
    · next e => rw [e]; exact Nat.le_max_left _ _
    · exact Nat.le_refl _
  unfold State.commitSvn
  extract_lets -merge +onlyGivenNames kind svn
  refine keeps_ite h ?_
  exact keeps_ite (State.report_keeps (k kind _)) (k kind _)

theorem State.secStart_keeps {s0 : State} {s : State} {op : Nat} {v : Word} (h_1 : Keeps s0 s) : Keeps s0 (@State.secStart s op v) := by
  unfold State.secStart
  extract_lets -merge +onlyGivenNames v1
  have h2 : Keeps s0 v1 := (State.set_keeps (State.swWrite_keeps h_1))
  clear_value v1
  extract_lets -merge +onlyGivenNames v3
  clear_value v3
  extract_lets -merge +onlyGivenNames v5
  clear_value v5
  extract_lets -merge +onlyGivenNames v7
  have h8 : ∀ a9 a10 a11, Keeps s0 a9 → Keeps s0 (v7 a9 a10 a11) := (fun _ _ _ h12 => (Keeps.upd h12))
  clear_value v7
  apply keeps_ite
  · split
    · rename_i w13 e14
      have k15 : Keeps s0 w13 := PK.of (f := (·.2)) (State.readArgs_keeps h2) e14
      exact (h8 _ _ _ k15)
    · rename_i w16 w17 e18
      have k19 : Keeps s0 w17 := PK.of (f := (·.2)) (State.readArgs_keeps h2) e18
      extract_lets -merge +onlyGivenNames v20
      clear_value v20
      extract_lets -merge +onlyGivenNames v22
      clear_value v22
      apply keeps_ite
      · exact (h8 _ _ _ k19)
      · apply keeps_ite
        · exact (h8 _ _ _ k19)
        · apply keeps_ite
          · exact (h8 _ _ _ (Keeps.upd k19))
          · split
            · rename_i w24 e25
              have k26 : Keeps s0 w24 := PK.of (f := (·.2)) (State.readArgs_keeps k19) e25
              exact (h8 _ _ _ k26)
            · rename_i w27 w28 e29
              have k30 : Keeps s0 w28 := PK.of (f := (·.2)) (State.readArgs_keeps k19) e29
              exact (h8 _ _ _ k30)
  · exact (h8 _ _ _ h2)

theorem doSecGo_keeps {s0 : State} {op : Nat} {mine : Bool} {v : Word} {s : State} (h_1 : Keeps s0 s) : Keeps s0 (@doSecGo op mine v s) := by
  unfold doSecGo
  exact (keeps_ite h_1 (keeps_ite (State.set_keeps (State.swWrite_keeps h_1)) (State.secStart_keeps h_1)))

theorem execVerify_keeps {s0 : State} {v : Word} {s : State} (h_1 : Keeps s0 s) : ∃ sn, @execVerify v s = .next sn ∧ Keeps s0 sn := by
  unfold execVerify
  exact ⟨_, rfl, (State.busWrite_keeps h_1 (fun _ h1 => (doSecGo_keeps h1)))⟩

theorem execRelease_keeps {s0 : State} {v : Word} {s : State} (h_1 : Keeps s0 s) : ∃ sn, @execRelease v s = .next sn ∧ Keeps s0 sn := by
  unfold execRelease
  exact ⟨_, rfl, (State.busWrite_keeps h_1 (fun _ h1 => (doSecGo_keeps h1)))⟩

theorem execLicence_keeps {s0 : State} {v : Word} {s : State} (h_1 : Keeps s0 s) : ∃ sn, @execLicence v s = .next sn ∧ Keeps s0 sn := by
  unfold execLicence
  exact ⟨_, rfl, (State.busWrite_keeps h_1 (fun _ h1 => (doSecGo_keeps h1)))⟩

theorem execKeydrop_keeps {s0 : State} {v : Word} {s : State} (h_1 : Keeps s0 s) : ∃ sn, @execKeydrop v s = .next sn ∧ Keeps s0 sn := by
  unfold execKeydrop
  exact ⟨_, rfl, (State.busWrite_keeps h_1 (fun _ h1 => (doSecGo_keeps h1)))⟩

theorem execLcsAdvance_keeps {s0 : State} {v : Word} {s : State} (h_1 : Keeps s0 s) : ∃ sn, @execLcsAdvance v s = .next sn ∧ Keeps s0 sn := by
  unfold execLcsAdvance
  exact ⟨_, rfl, (State.busWrite_keeps h_1 (fun _ h1 => (doSecGo_keeps h1)))⟩

theorem execKeyreg_keeps {s0 : State} {v : Word} {s : State} (h_1 : Keeps s0 s) : ∃ sn, @execKeyreg v s = .next sn ∧ Keeps s0 sn := by
  unfold execKeyreg
  exact ⟨_, rfl, (State.busWrite_keeps h_1 (fun _ h1 => (doSecGo_keeps h1)))⟩

theorem execRevoke_keeps {s0 : State} {v : Word} {s : State} (h_1 : Keeps s0 s) : ∃ sn, @execRevoke v s = .next sn ∧ Keeps s0 sn := by
  unfold execRevoke
  exact ⟨_, rfl, (State.busWrite_keeps h_1 (fun _ h1 => (doSecGo_keeps h1)))⟩

theorem execAuditRead_keeps {s0 : State} {v : Word} {s : State} (h_1 : Keeps s0 s) : ∃ sn, @execAuditRead v s = .next sn ∧ Keeps s0 sn := by
  unfold execAuditRead
  exact ⟨_, rfl, (State.busWrite_keeps h_1 (fun _ h1 => (doSecGo_keeps h1)))⟩

theorem execAuditSeal_keeps {s0 : State} {v : Word} {s : State} (h_1 : Keeps s0 s) : ∃ sn, @execAuditSeal v s = .next sn ∧ Keeps s0 sn := by
  unfold execAuditSeal
  exact ⟨_, rfl, (State.busWrite_keeps h_1 (fun _ h1 => (doSecGo_keeps h1)))⟩

theorem execMeterRead_keeps {s0 : State} {v : Word} {s : State} (h_1 : Keeps s0 s) : ∃ sn, @execMeterRead v s = .next sn ∧ Keeps s0 sn := by
  unfold execMeterRead
  exact ⟨_, rfl, (State.busWrite_keeps h_1 (fun _ h1 => (doSecGo_keeps h1)))⟩

theorem execDbgUnlock_keeps {s0 : State} {v : Word} {s : State} (h_1 : Keeps s0 s) : ∃ sn, @execDbgUnlock v s = .next sn ∧ Keeps s0 sn := by
  unfold execDbgUnlock
  exact ⟨_, rfl, (State.busWrite_keeps h_1 (fun _ h1 => (doSecGo_keeps h1)))⟩

theorem State.secEnd_keeps {s0 : State} {s : State} {status : Option Nat} {result : Option Nat} (h_1 : Keeps s0 s) : Keeps s0 (@State.secEnd s status result) := by
  unfold State.secEnd
  split
  · rename_i w1 w2 e3
    have k4 : Keeps s0 w2 := PK.of (f := (·.2)) (State.drawFree_keeps h_1) e3
    split
    · rename_i w5 w6 e7
      have k8 : Keeps s0 w6 := PK.of (f := (·.2)) (State.drawFree_keeps k4) e7
      extract_lets -merge +onlyGivenNames v9
      have h10 : Keeps s0 v9 := (State.set_keeps (State.set_keeps k8))
      extract_lets -merge +onlyGivenNames v11
      have h12 : Keeps s0 v11 := (State.set_keeps h10)
      exact (Keeps.upd h12)

theorem State.verifyDone_keeps {s0 : State} {s : State} {c : SecCmd} (h_1 : Keeps s0 s) : Keeps s0 (@State.verifyDone s c) := by
  unfold State.verifyDone
  extract_lets -merge +onlyGivenNames v1
  clear_value v1
  extract_lets -merge +onlyGivenNames v3
  clear_value v3
  extract_lets -merge +onlyGivenNames v5
  have h6 : ∀ a7 a8, Keeps s0 a7 → Keeps s0 (v5 a7 a8) := (fun _ _ h9 => (State.audit_keeps (State.secEnd_keeps h9)))
  clear_value v5
  apply keeps_ite
  · exact (h6 _ _ h_1)
  · split
    · rename_i w10 e11
      have k12 : Keeps s0 w10 := PK.of (f := (·.2)) (State.readArgs_keeps h_1) e11
      exact (h6 _ _ k12)
    · rename_i w13 w14 e15
      have k16 : Keeps s0 w14 := PK.of (f := (·.2)) (State.readArgs_keeps h_1) e15
      apply keeps_ite
      · exact (h6 _ _ k16)
      · split
        · exact (State.secEnd_keeps k16)
        · extract_lets -merge +onlyGivenNames v20
          have h21 : Keeps s0 v20 := (State.set_keeps (State.set_keeps k16))
          clear_value v20
          exact (State.secEnd_keeps (State.commitSvn_keeps h21))

theorem State.freeVerified_keeps {s0 : State} {s : State} {k : Nat} (h_1 : Keeps s0 s) : Keeps s0 (@State.freeVerified s k) := by
  unfold State.freeVerified
  extract_lets -merge +onlyGivenNames v1
  have h2 : Keeps s0 v1 := (State.set_keeps (State.set_keeps h_1))
  exact (Keeps.upd h2)

theorem State.releaseDone_keeps {s0 : State} {s : State} {c : SecCmd} (h_1 : Keeps s0 s) : Keeps s0 (@State.releaseDone s c) := by
  unfold State.releaseDone
  apply keeps_ite
  · exact (State.secEnd_keeps h_1)
  · extract_lets -merge +onlyGivenNames v1
    clear_value v1
    extract_lets -merge +onlyGivenNames u3 v4
    have h6 : Keeps s0 v4 := (keeps_ite (Keeps.upd h_1) (State.freeVerified_keeps h_1))
    clear_value v4
    exact (State.secEnd_keeps h6)

theorem State.loadLicence_keeps {s0 : State} {s : State} {k : Nat} {p : List Byte} {key : List Byte} (h_1 : Keeps s0 s) : Keeps s0 (@State.loadLicence s k p key) := by
  unfold State.loadLicence
  extract_lets -merge +onlyGivenNames v1
  clear_value v1
  extract_lets -merge +onlyGivenNames v3
  clear_value v3
  extract_lets -merge +onlyGivenNames v5
  have h6 : Keeps s0 v5 := (State.setKeySlot_keeps h_1)
  clear_value v5
  exact (State.audit_keeps h6)

theorem State.licenceDone_keeps {s0 : State} {s : State} {c : SecCmd} (h_1 : Keeps s0 s) : Keeps s0 (@State.licenceDone s c) := by
  unfold State.licenceDone
  extract_lets -merge +onlyGivenNames v1
  clear_value v1
  extract_lets -merge +onlyGivenNames v3
  clear_value v3
  extract_lets -merge +onlyGivenNames v5
  clear_value v5
  apply keeps_ite
  · exact (State.secEnd_keeps h_1)
  · apply keeps_ite
    · exact (State.secEnd_keeps h_1)
    · apply keeps_ite
      · exact (State.secEnd_keeps h_1)
      · apply keeps_ite
        · exact (State.secEnd_keeps (State.bump_keeps h_1))
        · apply keeps_ite
          · exact (State.secEnd_keeps h_1)
          · split
            · apply keeps_ite
              · exact (State.secEnd_keeps h_1)
              · split
                · exact (State.secEnd_keeps h_1)
                · exact (State.secEnd_keeps (State.loadLicence_keeps h_1))
            · apply keeps_ite
              · exact (State.secEnd_keeps h_1)
              · split
                · exact (State.secEnd_keeps h_1)
                · split
                  · exact (State.secEnd_keeps h_1)
                  · exact (State.secEnd_keeps (State.loadLicence_keeps h_1))

theorem State.keydropDone_keeps {s0 : State} {s : State} {c : SecCmd} (h_1 : Keeps s0 s) : Keeps s0 (@State.keydropDone s c) := by
  unfold State.keydropDone
  split
  · exact (State.secEnd_keeps h_1)
  · extract_lets -merge +onlyGivenNames v4
    have h5 : Keeps s0 v4 := (State.setKeySlot_keeps h_1)
    clear_value v4
    extract_lets -merge +onlyGivenNames u6 v7
    have h9 : Keeps s0 v7 := (Keeps.upd h5)
    clear_value v7
    exact (State.secEnd_keeps (State.audit_keeps h9))

theorem State.putGroup_keeps {s0 s : State} {g : Nat} {v : BitVec 16} (h : Keeps s0 s)
    (hv : ∀ k, (s.lcsGroup g).getLsbD k = true → v.getLsbD k = true) : Keeps s0 (s.putGroup g v) := by
  refine h.sec (fun w => Tab.put_wf w) id (fun hw => ⟨fun j k e => ?_, fun _ e => e, fun _ => Nat.le_refl _, List.prefix_refl _⟩)
  show (Tab.get _ (Tab.put _ s.sec.groups g v) j).getLsbD k = true
  rw [Tab.get_put]
  split
  · next q => subst q; exact hv k e
  · exact e

theorem State.enterLcs_keeps {s0 s : State} {dst : Nat} {key : List Byte} (h : Keeps s0 s) : Keeps s0 (s.enterLcs dst key) := by
  have h1 : Keeps s0 (s.putGroup dst 0xFFFF) := by
    refine State.putGroup_keeps h (fun k e => ?_)
    have hk : k < 16 := BitVec.lt_of_getLsbD e
    have : (0xFFFF : BitVec 16) = BitVec.allOnes 16 := by decide
    rw [this, BitVec.getLsbD_allOnes]
    exact decide_eq_true hk
  unfold State.enterLcs
  extract_lets -merge +onlyGivenNames src t
  have ht : Keeps s0 t := h1
  clear_value t
  extract_lets -merge +onlyGivenNames u5 u6 w
  have h5 : Keeps s0 u5 := State.zeroise_keeps ht
  have hw : Keeps s0 w := by
    unfold w
    apply keeps_ite
    · split
      · rename_i a b e
        have hb : Keeps s0 b := PK.of (f := (·.2)) (State.drawBytes_keeps ht) e
        exact Keeps.upd hb
    · exact keeps_ite (State.set_keeps ht) (keeps_ite (State.zeroise_keeps ht) (Keeps.upd h5))
  clear_value w
  exact State.audit_keeps (State.loadLcs_keeps hw)

theorem State.lcsDone_keeps {s0 : State} {s : State} {c : SecCmd} (h_1 : Keeps s0 s) : Keeps s0 (@State.lcsDone s c) := by
  unfold State.lcsDone
  extract_lets -merge +onlyGivenNames v1
  clear_value v1
  extract_lets -merge +onlyGivenNames v3
  clear_value v3
  extract_lets -merge +onlyGivenNames v5
  have h6 : Keeps s0 v5 := by
    unfold v5
    apply keeps_ite
    · exact (State.secEnd_keeps h_1)
    · apply keeps_ite
      · exact (State.secEnd_keeps h_1)
      · apply keeps_ite
        · exact (State.secEnd_keeps h_1)
        · split
          · exact (State.secEnd_keeps h_1)
          · exact (State.secEnd_keeps h_1)
          · exact (State.secEnd_keeps (State.enterLcs_keeps h_1))
  clear_value v5
  exact (State.drawChallenge_keeps h6)

theorem State.keyregDone_keeps {s0 : State} {s : State} {c : SecCmd} (h_1 : Keeps s0 s) : Keeps s0 (@State.keyregDone s c) := by
  unfold State.keyregDone
  extract_lets -merge +onlyGivenNames v1
  clear_value v1
  extract_lets -merge +onlyGivenNames v3
  clear_value v3
  extract_lets -merge +onlyGivenNames v5
  clear_value v5
  extract_lets -merge +onlyGivenNames v7
  clear_value v7
  apply keeps_ite
  · exact (State.secEnd_keeps h_1)
  · apply keeps_ite
    · exact (State.secEnd_keeps h_1)
    · apply keeps_ite
      · exact (State.secEnd_keeps h_1)
      · apply keeps_ite
        · apply keeps_ite
          · exact (State.secEnd_keeps h_1)
          · apply keeps_ite
            · exact (State.secEnd_keeps h_1)
            · extract_lets -merge +onlyGivenNames u9 v10
              have h12 : Keeps s0 v10 := (Keeps.upd h_1)
              clear_value v10
              exact (State.secEnd_keeps (State.audit_keeps h12))
        · apply keeps_ite
          · exact (State.secEnd_keeps h_1)
          · apply keeps_ite
            · exact (State.secEnd_keeps h_1)
            · apply keeps_ite
              · exact (State.secEnd_keeps h_1)
              · extract_lets -merge +onlyGivenNames u13 v14
                have h16 : Keeps s0 v14 := by
                  refine h_1.sec id id (fun _ => ⟨fun _ _ e => e, fun k e => ?_, fun _ => Nat.le_refl _, List.prefix_refl _⟩)
                  show (_ ||| _ : BitVec 5).getLsbD k = true
                  rw [BitVec.getLsbD_or, e, Bool.true_or]
                clear_value v14
                exact (State.secEnd_keeps (State.audit_keeps (State.loadLcs_keeps h16)))

theorem State.writeArgs_keeps {s0 : State} {s : State} {a : Nat} {bs : List Byte} (h_1 : Keeps s0 s) : OptK s0 id (@State.writeArgs s a bs) := by
  unfold State.writeArgs
  exact (OptK.ite OptK.none (OptK.some (State.writeTarn_keeps h_1)))

theorem State.auditReadDone_keeps {s0 : State} {s : State} {c : SecCmd} (h_1 : Keeps s0 s) : Keeps s0 (@State.auditReadDone s c) := by
  unfold State.auditReadDone
  extract_lets -merge +onlyGivenNames v1
  clear_value v1
  extract_lets -merge +onlyGivenNames v3
  clear_value v3
  split
  · exact (State.secEnd_keeps h_1)
  · rename_i w6 e7
    have k8 : Keeps s0 w6 := OptK.of (State.writeArgs_keeps h_1) e7
    exact (State.secEnd_keeps k8)

theorem State.meterReadDone_keeps {s0 : State} {s : State} {c : SecCmd} (h_1 : Keeps s0 s) : Keeps s0 (@State.meterReadDone s c) := by
  unfold State.meterReadDone
  split
  · exact (State.secEnd_keeps h_1)
  · rename_i w2 e3
    have k4 : Keeps s0 w2 := OptK.of (State.writeArgs_keeps h_1) e3
    exact (State.secEnd_keeps k4)

theorem State.auditSealDone_keeps {s0 : State} {s : State} (h_1 : Keeps s0 s) : Keeps s0 (@State.auditSealDone s) := by
  unfold State.auditSealDone
  exact (keeps_ite (State.secEnd_keeps h_1) (State.secEnd_keeps (State.seal_keeps h_1)))

theorem State.dbgDone_keeps {s0 : State} {s : State} {c : SecCmd} (h_1 : Keeps s0 s) : Keeps s0 (@State.dbgDone s c) := by
  unfold State.dbgDone
  extract_lets -merge +onlyGivenNames v1
  clear_value v1
  extract_lets -merge +onlyGivenNames v3
  clear_value v3
  extract_lets -merge +onlyGivenNames v5
  have h6 : Keeps s0 v5 := (keeps_ite (State.secEnd_keeps h_1) (keeps_ite (State.secEnd_keeps h_1) (keeps_ite (State.secEnd_keeps h_1) (keeps_ite (State.secEnd_keeps h_1) (State.secEnd_keeps (State.audit_keeps (State.zeroise_keeps (State.set_keeps h_1))))))))
  clear_value v5
  exact (State.drawChallenge_keeps h6)

theorem doSecurityCommandDone_keeps {s0 : State} {s : State} (h_1 : Keeps s0 s) : Keeps s0 (@doSecurityCommandDone s) := by
  unfold doSecurityCommandDone
  split
  · exact h_1
  · split
    · exact (State.verifyDone_keeps h_1)
    · exact (State.releaseDone_keeps h_1)
    · exact (State.licenceDone_keeps h_1)
    · exact (State.keydropDone_keeps h_1)
    · exact (State.lcsDone_keeps h_1)
    · exact (State.keyregDone_keeps h_1)
    · exact (State.auditReadDone_keeps h_1)
    · exact (State.auditSealDone_keeps h_1)
    · exact (State.meterReadDone_keeps h_1)
    · exact (State.dbgDone_keeps h_1)
    · exact (State.secEnd_keeps h_1)

theorem execSecurityCommandDone_keeps {s0 : State} {s : State} (h_1 : Keeps s0 s) : ∃ sn, @execSecurityCommandDone s = .next sn ∧ Keeps s0 sn := by
  unfold execSecurityCommandDone
  exact ⟨_, rfl, (doSecurityCommandDone_keeps h_1)⟩

theorem doAuditAck_keeps {s0 : State} {v : Word} {s : State} (h_1 : Keeps s0 s) : Keeps s0 (@doAuditAck v s) := by
  unfold doAuditAck
  split
  · exact h_1
  · extract_lets -merge +onlyGivenNames v4
    have h5 : Keeps s0 v4 := (State.set_keeps h_1)
    clear_value v4
    extract_lets -merge +onlyGivenNames u6 v7
    have h9 : Keeps s0 v7 := (Keeps.upd h5)
    clear_value v7
    exact (State.audit_keeps h9)

theorem execAuditAck_keeps {s0 : State} {v : Word} {s : State} (h_1 : Keeps s0 s) : ∃ sn, @execAuditAck v s = .next sn ∧ Keeps s0 sn := by
  unfold execAuditAck
  exact ⟨_, rfl, (State.busWrite_keeps h_1 (fun _ h1 => (doAuditAck_keeps h1)))⟩

theorem State.cutOtp_keeps {s0 s : State} {c : SecCmd} (h : Keeps s0 s) : Keeps s0 (s.cutOtp c) := by
  unfold State.cutOtp
  extract_lets -merge +onlyGivenNames dst
  refine keeps_ite h ?_
  split
  · rename_i w t e
    have ht : Keeps s0 t := PK.of (f := (·.2)) (State.drawFree_keeps h) e
    refine keeps_ite (State.putGroup_keeps ht (fun k hk => ?_)) ht
    rw [BitVec.getLsbD_ofNat]
    simp only [Nat.testBit_or, Bool.and_eq_true, decide_eq_true_eq]
    refine ⟨BitVec.lt_of_getLsbD hk, ?_⟩
    show Nat.testBit (Nat.lor _ _) k = true
    rw [show Nat.lor (t.lcsGroup dst).toNat (w.toNat % 65536) = (t.lcsGroup dst).toNat ||| (w.toNat % 65536) from rfl,
      Nat.testBit_or]
    simp [BitVec.testBit_toNat, hk]

theorem State.endGlitch_keeps {s0 : State} {s : State} (h_1 : Keeps s0 s) : Keeps s0 (@State.endGlitch s) := by
  unfold State.endGlitch
  split
  · exact h_1
  · extract_lets -merge +onlyGivenNames v4
    have h5 : Keeps s0 v4 := (State.secEnd_keeps (State.cutOtp_keeps h_1))
    clear_value v4
    exact (keeps_ite (State.drawChallenge_keeps h5) h5)

theorem State.latchTamper_keeps {s0 : State} {s : State} {cause : Nat} (h_1 : Keeps s0 s) : Keeps s0 (@State.latchTamper s cause) := by
  unfold State.latchTamper
  extract_lets -merge +onlyGivenNames v1
  have h2 : Keeps s0 v1 := (State.set_keeps (State.set_keeps h_1))
  clear_value v1
  exact (keeps_ite (Keeps.upd h2) (State.report_keeps (State.audit_keeps h2)))

theorem doGlitch_keeps {s0 : State} {s : State} (h_1 : Keeps s0 s) : Keeps s0 (@doGlitch s) := by
  unfold doGlitch
  apply keeps_ite
  · split
    · rename_i w1 w2 e3
      have k4 : Keeps s0 w2 := PK.of (f := (·.2)) (State.drawFree_keeps h_1) e3
      exact (State.latchTamper_keeps (State.zeroise_keeps k4))
  · extract_lets -merge +onlyGivenNames v5
    clear_value v5
    extract_lets -merge +onlyGivenNames v7
    have h8 : Keeps s0 v7 := (State.endGlitch_keeps (State.bump_keeps h_1))
    clear_value v7
    extract_lets -merge +onlyGivenNames u9 v10
    have h12 : Keeps s0 v10 := (Keeps.upd h8)
    clear_value v10
    extract_lets -merge +onlyGivenNames v13
    have h14 : Keeps s0 v13 := (State.report_keeps (State.audit_keeps h12))
    clear_value v13
    apply keeps_ite
    · exact h14
    · extract_lets -merge +onlyGivenNames u15 v16
      have h18 : Keeps s0 v16 := (Keeps.upd h14)
      clear_value v16
      exact (State.latchTamper_keeps h18)

theorem execGlitch_keeps {s0 : State} {s : State} (h_1 : Keeps s0 s) : ∃ sn, @execGlitch s = .next sn ∧ Keeps s0 sn := by
  unfold execGlitch
  exact ⟨_, rfl, (doGlitch_keeps h_1)⟩

theorem doTamper_keeps {s0 : State} {temperature : Bool} {s : State} (h_1 : Keeps s0 s) : Keeps s0 (@doTamper temperature s) := by
  unfold doTamper
  exact (State.latchTamper_keeps (State.zeroise_keeps h_1))

theorem execTamper_keeps {s0 : State} {temperature : Bool} {s : State} (h_1 : Keeps s0 s) : ∃ sn, @execTamper temperature s = .next sn ∧ Keeps s0 sn := by
  unfold execTamper
  exact ⟨_, rfl, (doTamper_keeps h_1)⟩

theorem doJtagInstruction_keeps {s0 : State} {t : TapInstr} {s : State} (h_1 : Keeps s0 s) : Keeps s0 (@doJtagInstruction t s) := by
  unfold doJtagInstruction
  exact (keeps_ite (Keeps.upd h_1) h_1)

theorem execJtagInstruction_keeps {s0 : State} {t : TapInstr} {s : State} (h_1 : Keeps s0 s) : ∃ sn, @execJtagInstruction t s = .next sn ∧ Keeps s0 sn := by
  unfold execJtagInstruction
  exact ⟨_, rfl, (doJtagInstruction_keeps h_1)⟩

end Sys2Proof.Machine
end

