-- ==== Sys2Proof/Laws/KeepsSens.lean ====
section
/-! SUPPORT. What every operation and every command of Machine/Sens.lean keeps (Keeps). -/

set_option Elab.async false

namespace Sys2Proof.Machine

theorem State.setAdcChan_keeps {s0 : State} {s : State} {c : Nat} {x : AdcChan} (h_1 : Keeps s0 s) : Keeps s0 (@State.setAdcChan s c x) := by
  unfold State.setAdcChan
  exact (Keeps.upd h_1)

theorem State.adcLimits_keeps {s0 : State} {s : State} {c : Nat} {mv : Nat} (h_1 : Keeps s0 s) : Keeps s0 (@State.adcLimits s c mv) := by
  unfold State.adcLimits
  extract_lets -merge +onlyGivenNames v1
  clear_value v1
  extract_lets -merge +onlyGivenNames v3
  clear_value v3
  extract_lets -merge +onlyGivenNames v5
  clear_value v5
  extract_lets -merge +onlyGivenNames v7
  clear_value v7
  extract_lets -merge +onlyGivenNames v9
  have h10 : Keeps s0 v9 := (State.setAdcChan_keeps h_1)
  clear_value v9
  extract_lets -merge +onlyGivenNames v11
  have h12 : Keeps s0 v11 := (State.set_keeps h10)
  clear_value v11
  extract_lets -merge +onlyGivenNames v13
  clear_value v13
  extract_lets -merge +onlyGivenNames v15
  have h16 : Keeps s0 v15 := (keeps_ite (State.set_keeps (State.set_keeps h12)) h12)
  clear_value v15
  extract_lets -merge +onlyGivenNames v17
  have h18 : Keeps s0 v17 := (keeps_ite (State.report_keeps (State.set_keeps h16)) h16)
  clear_value v17
  exact (keeps_ite (State.report_keeps (State.set_keeps h18)) h18)

theorem doAdcConversion_keeps {s0 : State} {raw : BitVec 12} {s : State} (h_1 : Keeps s0 s) : Keeps s0 (@doAdcConversion raw s) := by
  unfold doAdcConversion
  apply keeps_ite
  · exact h_1
  · split
    · exact h_1
    · extract_lets -merge +onlyGivenNames u4 v5
      have h7 : Keeps s0 v5 := (Keeps.upd h_1)
      extract_lets -merge +onlyGivenNames v8
      extract_lets -merge +onlyGivenNames v10
      extract_lets -merge +onlyGivenNames v12
      clear_value v12
      apply keeps_ite
      · exact (State.setAdcChan_keeps h7)
      · extract_lets -merge +onlyGivenNames v14
        clear_value v14
        extract_lets -merge +onlyGivenNames v16
        have h17 : Keeps s0 v16 := (State.setAdcChan_keeps h7)
        clear_value v16
        exact (State.adcLimits_keeps h17)

theorem execAdcConversion_keeps {s0 : State} {raw : BitVec 12} {s : State} (h_1 : Keeps s0 s) : ∃ sn, @execAdcConversion raw s = .next sn ∧ Keeps s0 sn := by
  unfold execAdcConversion
  exact ⟨_, rfl, (doAdcConversion_keeps h_1)⟩

theorem State.adcCal_keeps {s0 : State} {s : State} {rl : Nat} {rh : Nat} (h_1 : Keeps s0 s) : Keeps s0 (@State.adcCal s rl rh) := by
  unfold State.adcCal
  exact (keeps_ite (State.calDone_keeps (Keeps.upd h_1)) (State.report_keeps h_1))

theorem doAdcSelfCalibration_keeps {s0 : State} {rl : BitVec 12} {rh : BitVec 12} {s : State} (h_1 : Keeps s0 s) : Keeps s0 (@doAdcSelfCalibration rl rh s) := by
  unfold doAdcSelfCalibration
  exact (keeps_ite (State.adcCal_keeps h_1) h_1)

theorem execAdcSelfCalibration_keeps {s0 : State} {rl : BitVec 12} {rh : BitVec 12} {s : State} (h_1 : Keeps s0 s) : ∃ sn, @execAdcSelfCalibration rl rh s = .next sn ∧ Keeps s0 sn := by
  unfold execAdcSelfCalibration
  exact ⟨_, rfl, (doAdcSelfCalibration_keeps h_1)⟩

theorem State.failSensor_keeps {s0 : State} {s : State} {n : Nat} (h_1 : Keeps s0 s) : Keeps s0 (@State.failSensor s n) := by
  unfold State.failSensor
  extract_lets -merge +onlyGivenNames v1
  have h2 : Keeps s0 v1 := (State.report_keeps (State.set_keeps h_1))
  extract_lets -merge +onlyGivenNames u3 v4
  have h6 : Keeps s0 v4 := (Keeps.upd h2)
  exact (keeps_ite (State.report_keeps h6) h6)

theorem State.checkSensor_keeps {s0 : State} {rs : List (BitVec 16)} {s : State} {n : Nat} (h_1 : Keeps s0 s) : Keeps s0 (@State.checkSensor rs s n) := by
  unfold State.checkSensor
  apply keeps_ite
  · exact h_1
  · extract_lets -merge +onlyGivenNames v1
    clear_value v1
    extract_lets -merge +onlyGivenNames v3
    have h4 : ∀ a5 a6, Keeps s0 a5 → Keeps s0 (v3 a5 a6) := (fun _ _ h7 => (Keeps.upd h7))
    clear_value v3
    apply keeps_ite
    · exact (State.failSensor_keeps h_1)
    · extract_lets -merge +onlyGivenNames v8
      clear_value v8
      apply keeps_ite
      · exact (h4 _ _ h_1)
      · split
        · exact h_1
        · apply keeps_ite
          · extract_lets -merge +onlyGivenNames v13
            clear_value v13
            exact (keeps_ite (State.failSensor_keeps h_1) (h4 _ _ h_1))
          · exact (h4 _ _ h_1)

theorem State.putSensor_keeps {s0 : State} {rs : List (BitVec 16)} {s : State} {n : Nat} (h_1 : Keeps s0 s) : Keeps s0 (@State.putSensor rs s n) := by
  unfold State.putSensor
  apply keeps_ite
  · extract_lets -merge +onlyGivenNames v1
    have h2 : Keeps s0 v1 := (State.set_keeps h_1)
    clear_value v1
    split
    · exact h2
    · exact (State.set_keeps h2)
  · exact (State.set_keeps (State.set_keeps h_1))

theorem State.tjLimits_keeps {s0 : State} {s : State} {src : Nat} {t : Int} (h_1 : Keeps s0 s) : Keeps s0 (@State.tjLimits s src t) := by
  unfold State.tjLimits
  extract_lets -merge +onlyGivenNames v1
  clear_value v1
  extract_lets -merge +onlyGivenNames v3
  clear_value v3
  extract_lets -merge +onlyGivenNames v5
  clear_value v5
  extract_lets -merge +onlyGivenNames v7
  clear_value v7
  extract_lets -merge +onlyGivenNames v9
  have h10 : ∀ a11 a12 a13 a14, Keeps s0 a11 → PK s0 (·.1) (v9 a11 a12 a13 a14) := (fun _ _ _ _ h15 => (PK.ite (keeps_ite h15 (State.report_keeps h15)) h15))
  clear_value v9
  split
  · rename_i w16 w17 e18
    have k19 : Keeps s0 w16 := PK.of (f := (·.1)) (h10 _ _ _ _ h_1) e18
    split
    · rename_i w20 w21 e22
      have k23 : Keeps s0 w20 := PK.of (f := (·.1)) (h10 _ _ _ _ k19) e22
      exact (Keeps.upd k23)

theorem State.thermalShutdown_keeps {s0 : State} {s : State} {n : Nat} {t : Int} (h_1 : Keeps s0 s) : Keeps s0 (@State.thermalShutdown s n t) := by
  unfold State.thermalShutdown
  apply keeps_ite
  · exact h_1
  · extract_lets -merge +onlyGivenNames v1
    have h2 : Keeps s0 v1 := (State.report_keeps h_1)
    clear_value v1
    exact (Keeps.upd h2)

theorem State.setDue_keeps {s0 : State} {s : State} {u : Nat} (h_1 : Keeps s0 s) : Keeps s0 (@State.setDue s u) := by
  unfold State.setDue
  exact (keeps_ite h_1 (State.setCalUnit_keeps (State.set_keeps h_1)))

theorem State.convUnit_keeps {s0 : State} {s : State} {u : Nat} (h_1 : Keeps s0 s) : Keeps s0 (@State.convUnit s u) := by
  unfold State.convUnit
  extract_lets -merge +onlyGivenNames v1
  clear_value v1
  apply keeps_ite
  · exact (State.setCalUnit_keeps (State.set_keeps h_1))
  · split
    · exact (State.setCalUnit_keeps (State.set_keeps h_1))
    · extract_lets -merge +onlyGivenNames v6
      clear_value v6
      extract_lets -merge +onlyGivenNames v8
      clear_value v8
      exact (keeps_ite (State.setDue_keeps h_1) h_1)

theorem doTempConversion_keeps {s0 : State} {rs : List (BitVec 16)} {s : State} (h_1 : Keeps s0 s) : Keeps s0 (@doTempConversion rs s) := by
  unfold doTempConversion
  apply keeps_ite
  · exact h_1
  · extract_lets -merge +onlyGivenNames v1
    have h2 : Keeps s0 v1 := (foldl_keeps h_1 (fun _ _ h3 => (State.checkSensor_keeps h3)))
    clear_value v1
    extract_lets -merge +onlyGivenNames v4
    have h5 : Keeps s0 v4 := (foldl_keeps h2 (fun _ _ h6 => (State.putSensor_keeps h6)))
    clear_value v4
    extract_lets -merge +onlyGivenNames v7
    have h8 : Keeps s0 v7 := (State.set_keeps h5)
    clear_value v7
    extract_lets -merge +onlyGivenNames v9
    have h10 : Keeps s0 v9 := by
      unfold v9
      split
      · exact h8
      · exact (State.tjLimits_keeps (State.set_keeps (State.set_keeps h8)))
    clear_value v9
    extract_lets -merge +onlyGivenNames v15
    clear_value v15
    extract_lets -merge +onlyGivenNames v17
    have h18 : Keeps s0 v17 := by
      unfold v17
      split
      · exact h10
      · exact (State.thermalShutdown_keeps h10)
    clear_value v17
    extract_lets -merge +onlyGivenNames u22 v23
    have h25 : Keeps s0 v23 := (Keeps.upd h18)
    clear_value v23
    exact (foldl_keeps h25 (fun _ _ h26 => (State.convUnit_keeps h26)))

theorem execTempConversion_keeps {s0 : State} {rs : List (BitVec 16)} {s : State} (h_1 : Keeps s0 s) : ∃ sn, @execTempConversion rs s = .next sn ∧ Keeps s0 sn := by
  unfold execTempConversion
  exact ⟨_, rfl, (doTempConversion_keeps h_1)⟩

theorem State.loadOtrec_keeps {s0 : State} {s : State} (h_1 : Keeps s0 s) : Keeps s0 (@State.loadOtrec s) := by
  unfold State.loadOtrec
  extract_lets -merge +onlyGivenNames v1
  have h2 : Keeps s0 v1 := (State.set_keeps (State.set_keeps h_1))
  clear_value v1
  exact (foldl_keeps h2 (fun _ _ h3 => (State.wr_keeps h3)))

theorem doShutdownRecord_keeps {s0 s : State} (h : Keeps s0 s) : Keeps s0 (doShutdownRecord s) := by
  unfold doShutdownRecord
  split
  · exact h
  · rename_i n c e
    have h1 : Keeps s0 { s with sens := { s.sens with shutRec := none } } := Keeps.upd h
    refine keeps_ite (State.set_keeps h1) ?_
    exact h1.sens (List.prefix_append _ _)

theorem execShutdownRecord_keeps {s0 : State} {s : State} (h_1 : Keeps s0 s) : ∃ sn, @execShutdownRecord s = .next sn ∧ Keeps s0 sn := by
  unfold execShutdownRecord
  exact ⟨_, rfl, (doShutdownRecord_keeps h_1)⟩

theorem State.loadDone_keeps {s0 : State} {s : State} {res : Nat} (h_1 : Keeps s0 s) : Keeps s0 (@State.loadDone s res) := by
  unfold State.loadDone
  extract_lets -merge +onlyGivenNames v1
  have h2 : Keeps s0 v1 := (State.set_keeps (State.set_keeps h_1))
  clear_value v1
  split
  · exact h2
  · exact (State.complete_keeps (Keeps.upd h2))

theorem doMeasLoad_keeps {s0 : State} {tok : Nat} {s : State} (h_1 : Keeps s0 s) : Keeps s0 (@doMeasLoad tok s) := by
  unfold doMeasLoad
  split
  · exact h_1
  · extract_lets -merge +onlyGivenNames v4
    clear_value v4
    extract_lets -merge +onlyGivenNames v6
    clear_value v6
    apply keeps_ite
    · exact h_1
    · apply keeps_ite
      · exact (State.complete_keeps h_1)
      · apply keeps_ite
        · exact (State.complete_keeps h_1)
        · apply keeps_ite
          · exact (State.complete_keeps h_1)
          · extract_lets -merge +onlyGivenNames v8
            have h9 : Keeps s0 v8 := (State.set_keeps h_1)
            clear_value v8
            extract_lets -merge +onlyGivenNames u10 v11
            have h13 : Keeps s0 v11 := (Keeps.upd h9)
            clear_value v11
            exact (keeps_ite (State.loadDone_keeps h13) (keeps_ite (State.loadDone_keeps h13) (State.sendAcked_keeps (State.set_keeps h13))))

theorem execMeasLoad_keeps {s0 : State} {tok : Nat} {s : State} (h_1 : Keeps s0 s) : ∃ sn, @execMeasLoad tok s = .next sn ∧ Keeps s0 sn := by
  unfold execMeasLoad
  exact ⟨_, rfl, (doMeasLoad_keeps h_1)⟩

theorem doLoadres_keeps {s0 : State} {p : Fin 16} {m : List Word} {s : State} (h_1 : Keeps s0 s) : Keeps s0 (@doLoadres p m s) := by
  unfold doLoadres
  apply keeps_ite
  · exact h_1
  · extract_lets -merge +onlyGivenNames v1
    have h2 : Keeps s0 v1 := (State.fromSeg_keeps h_1)
    clear_value v1
    split
    · exact h2
    · extract_lets -merge +onlyGivenNames v6
      have h7 : Keeps s0 v6 := (PK.out (State.takePend_keeps h2))
      extract_lets -merge +onlyGivenNames v8
      have h9 : Keeps s0 v8 := (foldl_keeps h7 (fun _ _ h10 => (State.wr_keeps h10)))
      clear_value v8
      split
      · exact (keeps_ite (State.loadDone_keeps h9) (State.loadDone_keeps (State.report_keeps h9)))
      · exact (State.loadDone_keeps h9)
      · exact (State.loadDone_keeps h9)
      · split
        · rename_i w16 w17 e18
          have k19 : Keeps s0 w17 := PK.of (f := (·.2)) (State.drawFree_keeps h9) e18
          exact (State.loadDone_keeps k19)

theorem execLoadres_keeps {s0 : State} {p : Fin 16} {m : List Word} {s : State} (h_1 : Keeps s0 s) : ∃ sn, @execLoadres p m s = .next sn ∧ Keeps s0 sn := by
  unfold execLoadres
  exact ⟨_, rfl, (doLoadres_keeps (State.upEvent_keeps h_1))⟩

theorem State.ageUnit_keeps {s0 : State} {s : State} {u : Nat} (h_1 : Keeps s0 s) : Keeps s0 (@State.ageUnit s u) := by
  unfold State.ageUnit
  extract_lets -merge +onlyGivenNames v1
  clear_value v1
  extract_lets -merge +onlyGivenNames v3
  clear_value v3
  apply keeps_ite
  · exact h_1
  · extract_lets -merge +onlyGivenNames v5
    have h6 : Keeps s0 v5 := (keeps_ite (State.setDue_keeps h_1) h_1)
    clear_value v5
    extract_lets -merge +onlyGivenNames v7
    clear_value v7
    exact (keeps_ite (State.report_keeps (State.setCalUnit_keeps h6)) h6)

theorem State.runUnit_keeps {s0 : State} {rl : Nat} {rh : Nat} {s : State} {u : Nat} (h_1 : Keeps s0 s) : Keeps s0 (@State.runUnit rl rh s u) := by
  unfold State.runUnit
  apply keeps_ite
  · exact h_1
  · apply keeps_ite
    · extract_lets -merge +onlyGivenNames v1
      clear_value v1
      apply keeps_ite
      · exact h_1
      · extract_lets -merge +onlyGivenNames v3
        clear_value v3
        exact (State.set_keeps (doRecalibrate_keeps h_1))
    · exact (keeps_ite (keeps_ite h_1 (State.set_keeps h_1)) (keeps_ite (State.adcCal_keeps h_1) h_1))

theorem doCalibrationPass_keeps {s0 : State} {rl : BitVec 12} {rh : BitVec 12} {s : State} (h_1 : Keeps s0 s) : Keeps s0 (@doCalibrationPass rl rh s) := by
  unfold doCalibrationPass
  extract_lets -merge +onlyGivenNames v1
  have h2 : Keeps s0 v1 := (foldl_keeps h_1 (fun _ _ h3 => (State.ageUnit_keeps h3)))
  clear_value v1
  exact (keeps_ite (foldl_keeps h2 (fun _ _ h4 => (State.runUnit_keeps h4))) h2)

theorem execCalibrationPass_keeps {s0 : State} {rl : BitVec 12} {rh : BitVec 12} {s : State} (h_1 : Keeps s0 s) : ∃ sn, @execCalibrationPass rl rh s = .next sn ∧ Keeps s0 sn := by
  unfold execCalibrationPass
  exact ⟨_, rfl, (doCalibrationPass_keeps h_1)⟩

theorem doMeasReadRails_keeps {s0 : State} {tok : Nat} {ok : Bool} {s : State} (h_1 : Keeps s0 s) : Keeps s0 (@doMeasReadRails tok ok s) := by
  unfold doMeasReadRails
  exact (State.measRead_keeps h_1 (fun _ h1 => (foldl_keeps h1 (fun _ _ h2 => (State.setAdcChan_keeps h2)))))

theorem execMeasReadRails_keeps {s0 : State} {tok : Nat} {ok : Bool} {s : State} (h_1 : Keeps s0 s) : ∃ sn, @execMeasReadRails tok ok s = .next sn ∧ Keeps s0 sn := by
  unfold execMeasReadRails
  exact ⟨_, rfl, (doMeasReadRails_keeps h_1)⟩

theorem doMeasReadTemperatures_keeps {s0 : State} {tok : Nat} {ok : Bool} {s : State} (h_1 : Keeps s0 s) : Keeps s0 (@doMeasReadTemperatures tok ok s) := by
  unfold doMeasReadTemperatures
  exact (State.measRead_keeps h_1 (fun _ h1 => h1))

theorem execMeasReadTemperatures_keeps {s0 : State} {tok : Nat} {ok : Bool} {s : State} (h_1 : Keeps s0 s) : ∃ sn, @execMeasReadTemperatures tok ok s = .next sn ∧ Keeps s0 sn := by
  unfold execMeasReadTemperatures
  exact ⟨_, rfl, (doMeasReadTemperatures_keeps h_1)⟩

end Sys2Proof.Machine
end

