-- ==== Sys2Proof/Laws/KeepsHalt.lean ====
section
/-! SUPPORT. What every operation and every command of Machine/Halt.lean keeps (Keeps). -/

set_option Elab.async false

namespace Sys2Proof.Machine

theorem State.jobReaction_keeps {s0 : State} {s : State} (h_1 : Keeps s0 s) : Keeps s0 (@State.jobReaction s) := by
  unfold State.jobReaction
  extract_lets -merge +onlyGivenNames v1
  have h2 : Keeps s0 v1 := (State.set_keeps h_1)
  clear_value v1
  exact (keeps_ite (State.stopJob_keeps h2) h2)

theorem State.haltEngine_keeps {s0 : State} {s : State} {e : Nat} (h_1 : Keeps s0 s) : Keeps s0 (@State.haltEngine s e) := by
  unfold State.haltEngine
  exact (State.setEstate_keeps (State.setEngine_keeps h_1))

theorem State.clearGate_keeps {s0 : State} {s : State} {g : Nat} (h_1 : Keeps s0 s) : Keeps s0 (@State.clearGate s g) := by
  unfold State.clearGate
  exact (State.setGate_keeps h_1)

theorem State.clearStandby_keeps {s0 : State} {s : State} (h_1 : Keeps s0 s) : Keeps s0 (@State.clearStandby s) := by
  unfold State.clearStandby
  extract_lets -merge +onlyGivenNames v1
  have h2 : Keeps s0 v1 := (State.set_keeps (State.set_keeps h_1))
  clear_value v1
  exact (Keeps.upd h2)

theorem State.haltAll_keeps {s0 : State} {s : State} (h_1 : Keeps s0 s) : Keeps s0 (@State.haltAll s) := by
  unfold State.haltAll
  extract_lets -merge +onlyGivenNames v1
  have h2 : Keeps s0 v1 := (foldl_keeps h_1 (fun _ _ h3 => (State.haltEngine_keeps h3)))
  clear_value v1
  extract_lets -merge +onlyGivenNames v4
  have h5 : Keeps s0 v4 := (foldl_keeps h2 (fun _ _ h6 => (State.clearGate_keeps h6)))
  clear_value v4
  extract_lets -merge +onlyGivenNames v7
  have h8 : Keeps s0 v7 := (foldl_keeps h5 (fun _ _ h9 => (State.setFireBar_keeps h9)))
  clear_value v7
  exact (State.clearStandby_keeps (State.groupsAtHalt_keeps h8))

theorem State.enterHalted_keeps {s0 : State} {s : State} (h_1 : Keeps s0 s) : Keeps s0 (@State.enterHalted s) := by
  unfold State.enterHalted
  exact (keeps_ite h_1 (State.setDev_keeps (State.haltAll_keeps h_1)))

theorem State.graveOff_keeps {s0 : State} {s : State} (h_1 : Keeps s0 s) : Keeps s0 (@State.graveOff s) := by
  unfold State.graveOff
  extract_lets -merge +onlyGivenNames v1
  have h2 : Keeps s0 v1 := (foldl_keeps h_1 (fun _ _ h3 => (State.writeHlpCtl_keeps h3)))
  clear_value v1
  extract_lets -merge +onlyGivenNames v4
  have h5 : Keeps s0 v4 := (foldl_keeps h2 (fun _ _ h6 => (State.set_keeps (State.set_keeps h6))))
  clear_value v4
  exact (foldl_keeps h5 (fun _ _ h7 => (State.setCam_keeps h7)))

theorem State.graveRecord_keeps {s0 : State} {s : State} {code : Nat} {arg : Word} (h_1 : Keeps s0 s) : Keeps s0 (@State.graveRecord s code arg) := by
  unfold State.graveRecord
  exact (keeps_ite h_1 (State.set_keeps (State.set_keeps (State.set_keeps h_1))))

theorem State.enterGrave_keeps {s0 : State} {s : State} {code : Nat} {arg : Word} (h_1 : Keeps s0 s) : Keeps s0 (@State.enterGrave s code arg) := by
  unfold State.enterGrave
  apply keeps_ite
  · exact h_1
  · extract_lets -merge +onlyGivenNames v1
    have h2 : Keeps s0 v1 := (keeps_ite h_1 (State.haltAll_keeps h_1))
    clear_value v1
    exact (State.setDev_keeps (State.graveRecord_keeps (State.graveOff_keeps h2)))

theorem State.react_keeps {s0 : State} {s : State} {code : Nat} {cls : Nat} {arg : Word} (h_1 : Keeps s0 s) : Keeps s0 (@State.react s code cls arg) := by
  unfold State.react
  exact (keeps_ite (State.jobReaction_keeps h_1) (keeps_ite (State.enterHalted_keeps h_1) (keeps_ite (State.enterGrave_keeps h_1) h_1)))

end Sys2Proof.Machine
end

