-- ==== Sys2Proof/Laws/KeepsXing.lean ====
section
/-! SUPPORT. What every operation and every command of Machine/Xing.lean keeps (Keeps). -/

set_option Elab.async false

namespace Sys2Proof.Machine

theorem State.setLock_keeps {s0 : State} {s : State} {p : Nat} {on : Bool} (h_1 : Keeps s0 s) : Keeps s0 (@State.setLock s p on) := by
  unfold State.setLock
  extract_lets -merge +onlyGivenNames v1
  clear_value v1
  exact (State.set_keeps h_1)

theorem State.dropReq_keeps {s0 : State} {s : State} {r : DReq} (h_1 : Keeps s0 s) : Keeps s0 (@State.dropReq s r) := by
  unfold State.dropReq
  extract_lets -merge +onlyGivenNames v1
  clear_value v1
  extract_lets -merge +onlyGivenNames v3
  have h4 : Keeps s0 v3 := (State.dramRange_keeps h_1)
  clear_value v3
  split
  · split
    · exact (State.refuse_keeps h4)
    · exact h4
  · exact h4

theorem State.dropQueue_keeps {s0 : State} {s : State} {c : Nat} (h_1 : Keeps s0 s) : Keeps s0 (@State.dropQueue s c) := by
  unfold State.dropQueue
  extract_lets -merge +onlyGivenNames v1
  clear_value v1
  exact (foldl_keeps (State.setChan_keeps h_1) (fun _ _ h3 => (State.dropReq_keeps h3)))

theorem State.stopIsland_keeps {s0 : State} {s : State} {i : Nat} (h_1 : Keeps s0 s) : Keeps s0 (@State.stopIsland s i) := by
  unfold State.stopIsland
  apply keeps_ite
  · exact h_1
  · extract_lets -merge +onlyGivenNames v1
    have h2 : Keeps s0 v1 := (State.set_keeps (State.set_keeps h_1))
    clear_value v1
    exact (keeps_ite (State.dropQueue_keeps h2) h2)

theorem State.stopFed_keeps {s0 : State} {s : State} {p : Nat → Bool} (h_1 : Keeps s0 s) : Keeps s0 (@State.stopFed s p) := by
  unfold State.stopFed
  exact (foldl_keeps h_1 (fun _ _ h1 => (keeps_ite (State.stopIsland_keeps h1) h1)))

theorem doReferenceWindow_keeps {s0 : State} {count : Nat} {s : State} (h_1 : Keeps s0 s) : Keeps s0 (@doReferenceWindow count s) := by
  unfold doReferenceWindow
  extract_lets -merge +onlyGivenNames v1
  clear_value v1
  extract_lets -merge +onlyGivenNames v3
  clear_value v3
  extract_lets -merge +onlyGivenNames u5 v6
  clear_value u5
  have h8 : Keeps s0 v6 := (State.set_keeps (Keeps.upd h_1))
  clear_value v6
  exact (keeps_ite (State.enterHalted_keeps (State.report_keeps (State.stopFed_keeps h8))) h8)

theorem execReferenceWindow_keeps {s0 : State} {count : Nat} {s : State} (h_1 : Keeps s0 s) : ∃ sn, @execReferenceWindow count s = .next sn ∧ Keeps s0 sn := by
  unfold execReferenceWindow
  exact ⟨_, rfl, (doReferenceWindow_keeps h_1)⟩

theorem doPllUnlock_keeps {s0 : State} {p : Fin 4} {s : State} (h_1 : Keeps s0 s) : Keeps s0 (@doPllUnlock p s) := by
  unfold doPllUnlock
  extract_lets -merge +onlyGivenNames v1
  have h2 : ∀ a3, Keeps s0 a3 → Keeps s0 (v1 a3) := (fun _ h4 => (State.report_keeps h4))
  clear_value v1
  exact (keeps_ite (State.enterHalted_keeps (h2 _ (State.stopFed_keeps (State.setLock_keeps h_1)))) (keeps_ite (h2 _ (Keeps.upd h_1)) h_1))

theorem execPllUnlock_keeps {s0 : State} {p : Fin 4} {s : State} (h_1 : Keeps s0 s) : ∃ sn, @execPllUnlock p s = .next sn ∧ Keeps s0 sn := by
  unfold execPllUnlock
  exact ⟨_, rfl, (doPllUnlock_keeps h_1)⟩

theorem doPllLock_keeps {s0 : State} {p : Fin 4} {s : State} (h_1 : Keeps s0 s) : Keeps s0 (@doPllLock p s) := by
  unfold doPllLock
  exact (State.setLock_keeps h_1)

theorem execPllLock_keeps {s0 : State} {p : Fin 4} {s : State} (h_1 : Keeps s0 s) : ∃ sn, @execPllLock p s = .next sn ∧ Keeps s0 sn := by
  unfold execPllLock
  exact ⟨_, rfl, (doPllLock_keeps h_1)⟩

theorem doCrossingStop_keeps {s0 : State} {i : Fin 29} {crossing : BitVec 20} {s : State} (h_1 : Keeps s0 s) : Keeps s0 (@doCrossingStop i crossing s) := by
  unfold doCrossingStop
  exact (keeps_ite h_1 (State.noteStop_keeps (State.stopIsland_keeps h_1)))

theorem execCrossingStop_keeps {s0 : State} {i : Fin 29} {crossing : BitVec 20} {s : State} (h_1 : Keeps s0 s) : ∃ sn, @execCrossingStop i crossing s = .next sn ∧ Keeps s0 sn := by
  unfold execCrossingStop
  exact ⟨_, rfl, (doCrossingStop_keeps h_1)⟩

theorem State.runIsland_keeps {s0 : State} {s : State} {i : Nat} (h_1 : Keeps s0 s) : Keeps s0 (@State.runIsland s i) := by
  unfold State.runIsland
  exact (State.set_keeps (Keeps.upd h_1))

theorem doCrossingResume_keeps {s0 : State} {i : Fin 29} {s : State} (h_1 : Keeps s0 s) : Keeps s0 (@doCrossingResume i s) := by
  unfold doCrossingResume
  extract_lets -merge +onlyGivenNames v1
  clear_value v1
  exact (keeps_ite (State.runIsland_keeps h_1) h_1)

theorem execCrossingResume_keeps {s0 : State} {i : Fin 29} {s : State} (h_1 : Keeps s0 s) : ∃ sn, @execCrossingResume i s = .next sn ∧ Keeps s0 sn := by
  unfold execCrossingResume
  exact ⟨_, rfl, (doCrossingResume_keeps h_1)⟩

theorem doOnesidedDetect_keeps {s0 : State} {i : Fin 29} {core : Bool} {crossing : BitVec 20} {s : State} (h_1 : Keeps s0 s) : Keeps s0 (@doOnesidedDetect i core crossing s) := by
  unfold doOnesidedDetect
  apply keeps_ite
  · exact h_1
  · extract_lets -merge +onlyGivenNames v1
    have h2 : Keeps s0 v1 := (State.set_keeps (State.set_keeps h_1))
    clear_value v1
    extract_lets -merge +onlyGivenNames v3
    have h4 : Keeps s0 v3 := (keeps_ite (State.set_keeps h2) h2)
    clear_value v3
    extract_lets -merge +onlyGivenNames v5
    have h6 : Keeps s0 v5 := (keeps_ite (State.dropQueue_keeps h4) h4)
    clear_value v5
    exact (State.report_keeps h6)

theorem execOnesidedDetect_keeps {s0 : State} {i : Fin 29} {core : Bool} {crossing : BitVec 20} {s : State} (h_1 : Keeps s0 s) : ∃ sn, @execOnesidedDetect i core crossing s = .next sn ∧ Keeps s0 sn := by
  unfold execOnesidedDetect
  exact ⟨_, rfl, (doOnesidedDetect_keeps h_1)⟩

theorem doIslandReset_keeps {s0 : State} {v : Word} {s : State} (h_1 : Keeps s0 s) : Keeps s0 (@doIslandReset v s) := by
  unfold doIslandReset
  extract_lets -merge +onlyGivenNames v1
  have h2 : Keeps s0 v1 := (State.swWrite_keeps h_1)
  clear_value v1
  extract_lets -merge +onlyGivenNames v3
  clear_value v3
  exact (keeps_ite h2 (keeps_ite (State.set_keeps h2) (State.set_keeps (State.set_keeps (State.runIsland_keeps h2)))))

theorem execIslandReset_keeps {s0 : State} {v : Word} {s : State} (h_1 : Keeps s0 s) : ∃ sn, @execIslandReset v s = .next sn ∧ Keeps s0 sn := by
  unfold execIslandReset
  exact ⟨_, rfl, (State.busWrite_keeps h_1 (fun _ h1 => (doIslandReset_keeps h1)))⟩

theorem doOscTrimUpdate_keeps {s0 : State} {s : State} (h_1 : Keeps s0 s) : Keeps s0 (@doOscTrimUpdate s) := by
  unfold doOscTrimUpdate
  extract_lets -merge +onlyGivenNames v1
  clear_value v1
  extract_lets -merge +onlyGivenNames v3
  clear_value v3
  extract_lets -merge +onlyGivenNames v5
  clear_value v5
  exact (State.set_keeps h_1)

theorem execOscTrimUpdate_keeps {s0 : State} {s : State} (h_1 : Keeps s0 s) : ∃ sn, @execOscTrimUpdate s = .next sn ∧ Keeps s0 sn := by
  unfold execOscTrimUpdate
  exact ⟨_, rfl, (doOscTrimUpdate_keeps h_1)⟩

theorem doOscMeasure_keeps {s0 : State} {count : Nat} {s : State} (h_1 : Keeps s0 s) : Keeps s0 (@doOscMeasure count s) := by
  unfold doOscMeasure
  apply keeps_ite
  · exact h_1
  · extract_lets -merge +onlyGivenNames v1
    clear_value v1
    extract_lets -merge +onlyGivenNames v3
    clear_value v3
    extract_lets -merge +onlyGivenNames v5
    have h6 : Keeps s0 v5 := (State.set_keeps (State.set_keeps h_1))
    clear_value v5
    exact (keeps_ite (State.report_keeps h6) h6)

theorem execOscMeasure_keeps {s0 : State} {count : Nat} {s : State} (h_1 : Keeps s0 s) : ∃ sn, @execOscMeasure count s = .next sn ∧ Keeps s0 sn := by
  unfold execOscMeasure
  exact ⟨_, rfl, (doOscMeasure_keeps h_1)⟩

end Sys2Proof.Machine
end

