-- ==== Sys2Proof/Laws/KeepsPower.lean ====
section
/-! SUPPORT. What every operation and every command of Machine/Power.lean keeps (Keeps). -/

set_option Elab.async false

namespace Sys2Proof.Machine

theorem State.keepRegs_keeps {s0 s old : State} {p : Nat → Bool} (h : Keeps s0 s)
    (ho : Tab.wf regReset s.regs = true → Tab.wf regReset old.regs = true) : Keeps s0 (s.keepRegs old p) :=
  h.regs fun e => Tab.filter_wf (ho e)

theorem State.resetDevice_keeps {s0 old : State} {soft : Bool} (h : Keeps s0 old) : Keeps s0 (old.resetDevice soft) := by
  unfold State.resetDevice
  extract_lets -merge +onlyGivenNames a b c d e f g v
  have hv : Keeps old (v.keepRegs old (fun off => vauxReg off || (soft && softReg off))) := by
    refine ⟨rfl, rfl, rfl, Nat.le_refl _, fun hm => ?_, fun _ => ⟨fun _ _ e => e, fun _ e => e, fun _ => Nat.le_refl _, List.prefix_refl _⟩⟩
    rw [Memory.wf_iff] at hm ⊢
    exact ⟨Tab.filter_wf hm.1, rfl, rfl, rfl, rfl, hm.2.2.2.2.2.1, hm.2.2.2.2.2.2⟩
  extract_lets -merge +onlyGivenNames w
  have hw : Keeps s0 w := h.trans hv
  clear_value w
  extract_lets -merge +onlyGivenNames x
  have hx : Keeps s0 x := State.set_keeps (State.set_keeps (State.set_keeps hw))
  clear_value x
  extract_lets -merge +onlyGivenNames y z
  have hz : Keeps s0 z := keeps_ite (State.set_keeps hx) (Keeps.upd hx)
  clear_value z
  exact State.drawChallenge_keeps hz

theorem doPowerOnReset_keeps {s0 : State} {t : ResetTrigger} {s : State} (h_1 : Keeps s0 s) : Keeps s0 (@doPowerOnReset t s) := by
  unfold doPowerOnReset
  apply keeps_ite
  · exact h_1
  · extract_lets -merge +onlyGivenNames v1
    have h2 : Keeps s0 v1 := (State.resetDevice_keeps (State.endGlitch_keeps h_1))
    clear_value v1
    split
    · extract_lets -merge +onlyGivenNames v3
      have h4 : Keeps s0 v3 := (State.set_keeps h2)
      clear_value v3
      exact (Keeps.upd h4)
    · extract_lets -merge +onlyGivenNames v5
      have h6 : Keeps s0 v5 := (State.set_keeps h2)
      clear_value v5
      exact (Keeps.upd h6)
    · extract_lets -merge +onlyGivenNames v7
      have h8 : Keeps s0 v7 := (State.set_keeps h2)
      clear_value v7
      exact (Keeps.upd h8)
    · extract_lets -merge +onlyGivenNames v9
      have h10 : Keeps s0 v9 := (State.set_keeps h2)
      clear_value v9
      exact (Keeps.upd h10)

theorem execPowerOnReset_keeps {s0 : State} {t : ResetTrigger} {s : State} (h_1 : Keeps s0 s) : ∃ sn, @execPowerOnReset t s = .next sn ∧ Keeps s0 sn := by
  unfold execPowerOnReset
  exact ⟨_, rfl, (doPowerOnReset_keeps h_1)⟩

theorem State.softReset_keeps {s0 : State} {s : State} (h_1 : Keeps s0 s) : Keeps s0 (@State.softReset s) := by
  unfold State.softReset
  extract_lets -merge +onlyGivenNames v1
  have h2 : Keeps s0 v1 := (State.set_keeps (State.resetDevice_keeps h_1))
  clear_value v1
  exact (Keeps.upd h2)

theorem doSoftwareReset_keeps {s0 : State} {v : Word} {flash : Bool} {s : State} (h_1 : Keeps s0 s) : Keeps s0 (@doSoftwareReset v flash s) := by
  unfold doSoftwareReset
  exact (keeps_ite h_1 (keeps_ite (State.set_keeps (State.endGlitch_keeps h_1)) (keeps_ite (State.set_keeps h_1) (State.softReset_keeps h_1))))

theorem execSoftwareReset_keeps {s0 : State} {v : Word} {flash : Bool} {s : State} (h_1 : Keeps s0 s) : ∃ sn, @execSoftwareReset v flash s = .next sn ∧ Keeps s0 sn := by
  unfold execSoftwareReset
  exact ⟨_, rfl, (State.busWrite_keeps h_1 (fun _ h1 => (doSoftwareReset_keeps h1)))⟩

theorem doDeferredReset_keeps {s0 : State} {s : State} (h_1 : Keeps s0 s) : Keeps s0 (@doDeferredReset s) := by
  unfold doDeferredReset
  exact (keeps_ite h_1 (State.softReset_keeps h_1))

theorem execDeferredReset_keeps {s0 : State} {s : State} (h_1 : Keeps s0 s) : ∃ sn, @execDeferredReset s = .next sn ∧ Keeps s0 sn := by
  unfold execDeferredReset
  exact ⟨_, rfl, (doDeferredReset_keeps h_1)⟩

theorem doJtagReset_keeps {s0 : State} {s : State} (h_1 : Keeps s0 s) : Keeps s0 (@doJtagReset s) := by
  unfold doJtagReset
  exact (Keeps.upd h_1)

theorem execJtagReset_keeps {s0 : State} {s : State} (h_1 : Keeps s0 s) : ∃ sn, @execJtagReset s = .next sn ∧ Keeps s0 sn := by
  unfold execJtagReset
  exact ⟨_, rfl, (doJtagReset_keeps h_1)⟩

theorem doVcoreRemoval_keeps {s0 : State} {s : State} (h_1 : Keeps s0 s) : Keeps s0 (@doVcoreRemoval s) := by
  unfold doVcoreRemoval
  apply keeps_ite
  · exact h_1
  · extract_lets -merge +onlyGivenNames v1
    have h2 : Keeps s0 v1 := (State.set_keeps (State.resetDevice_keeps (State.endGlitch_keeps h_1)))
    clear_value v1
    exact (Keeps.upd h2)

theorem execVcoreRemoval_keeps {s0 : State} {s : State} (h_1 : Keeps s0 s) : ∃ sn, @execVcoreRemoval s = .next sn ∧ Keeps s0 sn := by
  unfold execVcoreRemoval
  exact ⟨_, rfl, (doVcoreRemoval_keeps h_1)⟩

theorem doVauxLoss_keeps {s0 : State} {s : State} (h_1 : Keeps s0 s) : Keeps s0 (@doVauxLoss s) := by
  unfold doVauxLoss
  extract_lets -merge +onlyGivenNames v1
  have h2 : Keeps s0 v1 := (State.zeroise_keeps (State.endGlitch_keeps h_1))
  clear_value v1
  extract_lets -merge +onlyGivenNames v3
  have h4 : Keeps s0 v3 := (State.wr_keeps (State.wr_keeps (State.wr_keeps h2)))
  clear_value v3
  extract_lets -merge +onlyGivenNames v5
  have h6 : Keeps s0 v5 := (State.set_keeps (State.set_keeps (State.set_keeps h4)))
  clear_value v5
  extract_lets -merge +onlyGivenNames v7
  clear_value v7
  exact (Keeps.upd h6)

theorem execVauxLoss_keeps {s0 : State} {s : State} (h_1 : Keeps s0 s) : ∃ sn, @execVauxLoss s = .next sn ∧ Keeps s0 sn := by
  unfold execVauxLoss
  exact ⟨_, rfl, (doVauxLoss_keeps h_1)⟩

theorem State.enterStandby_keeps {s0 : State} {s : State} (h_1 : Keeps s0 s) : Keeps s0 (@State.enterStandby s) := by
  unfold State.enterStandby
  extract_lets -merge +onlyGivenNames v1
  clear_value v1
  extract_lets -merge +onlyGivenNames v3
  have h4 : Keeps s0 v3 := (foldl_keeps h_1 (fun _ _ h5 => (State.writeHlpCtl_keeps h5)))
  clear_value v3
  extract_lets -merge +onlyGivenNames v6
  have h7 : Keeps s0 v6 := (foldl_keeps h4 (fun _ _ h8 => (State.set_keeps (State.setChan_keeps h8))))
  clear_value v6
  extract_lets -merge +onlyGivenNames v9
  have h10 : Keeps s0 v9 := (foldl_keeps h7 (fun _ _ h11 => (State.writePctl_keeps h11)))
  clear_value v9
  extract_lets -merge +onlyGivenNames v12
  have h13 : Keeps s0 v12 := (keeps_ite (State.avsWrite_keeps h10) h10)
  clear_value v12
  extract_lets -merge +onlyGivenNames v14
  have h15 : Keeps s0 v14 := (State.set_keeps (State.set_keeps h13))
  clear_value v14
  exact (Keeps.upd h15)

theorem doStandbyEntry_keeps {s0 : State} {v : Word} {s : State} (h_1 : Keeps s0 s) : Keeps s0 (@doStandbyEntry v s) := by
  unfold doStandbyEntry
  extract_lets -merge +onlyGivenNames v1
  have h2 : Keeps s0 v1 := (State.set_keeps h_1)
  clear_value v1
  apply keeps_ite
  · exact h2
  · apply keeps_ite
    · exact (State.set_keeps h2)
    · apply keeps_ite
      · extract_lets -merge +onlyGivenNames v3
        have h4 : Keeps s0 v3 := (State.set_keeps h2)
        clear_value v3
        exact (Keeps.upd h4)
      · exact (State.enterStandby_keeps h2)

theorem execStandbyEntry_keeps {s0 : State} {v : Word} {s : State} (h_1 : Keeps s0 s) : ∃ sn, @execStandbyEntry v s = .next sn ∧ Keeps s0 sn := by
  unfold execStandbyEntry
  exact ⟨_, rfl, (State.busWrite_keeps h_1 (fun _ h1 => (doStandbyEntry_keeps h1)))⟩

theorem State.standbyWaited_keeps {s0 : State} {s : State} (h_1 : Keeps s0 s) : Keeps s0 (@State.standbyWaited s) := by
  unfold State.standbyWaited
  exact (keeps_ite (State.enterStandby_keeps h_1) h_1)

theorem doStandbyExit_keeps {s0 : State} {v : Word} {s : State} (h_1 : Keeps s0 s) : Keeps s0 (@doStandbyExit v s) := by
  unfold doStandbyExit
  extract_lets -merge +onlyGivenNames v1
  have h2 : Keeps s0 v1 := (State.set_keeps h_1)
  clear_value v1
  apply keeps_ite
  · exact h2
  · apply keeps_ite
    · extract_lets -merge +onlyGivenNames v3
      have h4 : Keeps s0 v3 := (State.set_keeps h2)
      clear_value v3
      exact (Keeps.upd h4)
    · extract_lets -merge +onlyGivenNames v5
      have h6 : Keeps s0 v5 := (foldl_keeps h2 (fun _ _ h7 => (State.set_keeps (State.setChan_keeps h7))))
      clear_value v5
      extract_lets -merge +onlyGivenNames v8
      have h9 : Keeps s0 v8 := (foldl_keeps h6 (fun _ _ h10 => (State.writeHlpCtl_keeps h10)))
      clear_value v8
      extract_lets -merge +onlyGivenNames v11
      have h12 : Keeps s0 v11 := (State.set_keeps (State.set_keeps h9))
      clear_value v11
      exact (Keeps.upd h12)

theorem execStandbyExit_keeps {s0 : State} {v : Word} {s : State} (h_1 : Keeps s0 s) : ∃ sn, @execStandbyExit v s = .next sn ∧ Keeps s0 sn := by
  unfold execStandbyExit
  exact ⟨_, rfl, (State.busWrite_keeps h_1 (fun _ h1 => (doStandbyExit_keeps h1)))⟩

theorem State.standbyExited_keeps {s0 : State} {s : State} (h_1 : Keeps s0 s) : Keeps s0 (@State.standbyExited s) := by
  unfold State.standbyExited
  split
  · exact h_1
  · apply keeps_ite
    · extract_lets -merge +onlyGivenNames v4
      have h5 : Keeps s0 v4 := (State.set_keeps h_1)
      clear_value v4
      exact (Keeps.upd h5)
    · exact h_1

theorem State.writeWdog_keeps {s0 : State} {s : State} {v : Word} (h_1 : Keeps s0 s) : Keeps s0 (@State.writeWdog s v) := by
  unfold State.writeWdog
  extract_lets -merge +onlyGivenNames v1
  have h2 : Keeps s0 v1 := (State.swWrite_keeps h_1)
  clear_value v1
  exact (Keeps.upd h2)

theorem doWatchdogExpiry_keeps {s0 : State} {s : State} (h_1 : Keeps s0 s) : Keeps s0 (@doWatchdogExpiry s) := by
  unfold doWatchdogExpiry
  exact (keeps_ite h_1 (State.report_keeps (Keeps.upd h_1)))

theorem execWatchdogExpiry_keeps {s0 : State} {s : State} (h_1 : Keeps s0 s) : ∃ sn, @execWatchdogExpiry s = .next sn ∧ Keeps s0 sn := by
  unfold execWatchdogExpiry
  exact ⟨_, rfl, (doWatchdogExpiry_keeps h_1)⟩

theorem doBusTransaction_keeps {s0 : State} {v : Word} {s : State} (h_1 : Keeps s0 s) : Keeps s0 (@doBusTransaction v s) := by
  unfold doBusTransaction
  extract_lets -merge +onlyGivenNames v1
  have h2 : Keeps s0 v1 := (State.swWrite_keeps h_1)
  clear_value v1
  apply keeps_ite
  · exact h2
  · apply keeps_ite
    · exact (State.set_keeps h2)
    · extract_lets -merge +onlyGivenNames v3
      clear_value v3
      exact (State.set_keeps (Keeps.upd h2))

theorem execBusTransaction_keeps {s0 : State} {v : Word} {s : State} (h_1 : Keeps s0 s) : ∃ sn, @execBusTransaction v s = .next sn ∧ Keeps s0 sn := by
  unfold execBusTransaction
  exact ⟨_, rfl, (State.busWrite_keeps h_1 (fun _ h1 => (doBusTransaction_keeps h1)))⟩

theorem doBusTransactionDone_keeps {s0 : State} {ok : Bool} {data : Word} {s : State} (h_1 : Keeps s0 s) : Keeps s0 (@doBusTransactionDone ok data s) := by
  unfold doBusTransactionDone
  split
  · exact h_1
  · extract_lets -merge +onlyGivenNames u4 v5
    clear_value u4
    have h7 : Keeps s0 v5 := (State.set_keeps (Keeps.upd h_1))
    clear_value v5
    apply keeps_ite
    · exact (State.report_keeps (State.set_keeps h7))
    · extract_lets -merge +onlyGivenNames v8
      clear_value v8
      exact (State.set_keeps h7)

theorem execBusTransactionDone_keeps {s0 : State} {ok : Bool} {data : Word} {s : State} (h_1 : Keeps s0 s) : ∃ sn, @execBusTransactionDone ok data s = .next sn ∧ Keeps s0 sn := by
  unfold execBusTransactionDone
  exact ⟨_, rfl, (doBusTransactionDone_keeps h_1)⟩

end Sys2Proof.Machine
end

