-- ==== Sys2Proof/Laws/KeepsCam.lean ====
section
/-! SUPPORT. What every operation and every command of Machine/Cam.lean keeps (Keeps). -/

set_option Elab.async false

namespace Sys2Proof.Machine

theorem doCameraEnable_keeps {s0 : State} {k : Fin 2} {v : Word} {io : Bool} {s : State} (h_1 : Keeps s0 s) : Keeps s0 (@doCameraEnable k v io s) := by
  unfold doCameraEnable
  exact (State.writePctl_keeps (State.set_keeps h_1))

theorem execCameraEnable_keeps {s0 : State} {k : Fin 2} {v : Word} {io : Bool} {s : State} (h_1 : Keeps s0 s) : ∃ sn, @execCameraEnable k v io s = .next sn ∧ Keeps s0 sn := by
  unfold execCameraEnable
  exact ⟨_, rfl, (State.busWrite_keeps h_1 (fun _ h1 => (doCameraEnable_keeps h1)))⟩

theorem doCameraClockPresent_keeps {s0 : State} {k : Fin 2} {khz : Word} {s : State} (h_1 : Keeps s0 s) : Keeps s0 (@doCameraClockPresent k khz s) := by
  unfold doCameraClockPresent
  exact (State.setCam_keeps (State.set_keeps h_1))

theorem execCameraClockPresent_keeps {s0 : State} {k : Fin 2} {khz : Word} {s : State} (h_1 : Keeps s0 s) : ∃ sn, @execCameraClockPresent k khz s = .next sn ∧ Keeps s0 sn := by
  unfold execCameraClockPresent
  exact ⟨_, rfl, (doCameraClockPresent_keeps h_1)⟩

theorem doCameraAbsent_keeps {s0 : State} {k : Fin 2} {s : State} (h_1 : Keeps s0 s) : Keeps s0 (@doCameraAbsent k s) := by
  unfold doCameraAbsent
  extract_lets -merge +onlyGivenNames v1
  clear_value v1
  apply keeps_ite
  · exact h_1
  · extract_lets -merge +onlyGivenNames v3
    have h4 : Keeps s0 v3 := (State.setCam_keeps (State.set_keeps h_1))
    clear_value v3
    exact (keeps_ite h4 (State.report_keeps h4))

theorem execCameraAbsent_keeps {s0 : State} {k : Fin 2} {s : State} (h_1 : Keeps s0 s) : ∃ sn, @execCameraAbsent k s = .next sn ∧ Keeps s0 sn := by
  unfold execCameraAbsent
  exact ⟨_, rfl, (doCameraAbsent_keeps h_1)⟩

theorem doFrameStart_keeps {s0 : State} {k : Fin 2} {s : State} (h_1 : Keeps s0 s) : Keeps s0 (@doFrameStart k s) := by
  unfold doFrameStart
  extract_lets -merge +onlyGivenNames v1
  clear_value v1
  apply keeps_ite
  · exact h_1
  · extract_lets -merge +onlyGivenNames v3
    clear_value v3
    extract_lets -merge +onlyGivenNames v5
    clear_value v5
    extract_lets -merge +onlyGivenNames v7
    have h8 : Keeps s0 v7 := (State.setCam_keeps h_1)
    clear_value v7
    extract_lets -merge +onlyGivenNames v9
    have h10 : Keeps s0 v9 := (State.set_keeps h8)
    clear_value v9
    exact (keeps_ite (State.report_keeps h10) h10)

theorem execFrameStart_keeps {s0 : State} {k : Fin 2} {s : State} (h_1 : Keeps s0 s) : ∃ sn, @execFrameStart k s = .next sn ∧ Keeps s0 sn := by
  unfold execFrameStart
  exact ⟨_, rfl, (doFrameStart_keeps h_1)⟩

theorem State.noteDrop_keeps {s0 : State} {s : State} {k : Nat} {num : Nat} {uncorr : Bool} (h_1 : Keeps s0 s) : Keeps s0 (@State.noteDrop s k num uncorr) := by
  unfold State.noteDrop
  extract_lets -merge +onlyGivenNames v1
  clear_value v1
  extract_lets -merge +onlyGivenNames v3
  clear_value v3
  extract_lets -merge +onlyGivenNames v5
  clear_value v5
  extract_lets -merge +onlyGivenNames v7
  have h8 : Keeps s0 v7 := (State.bump_keeps (State.setCam_keeps h_1))
  clear_value v7
  exact (keeps_ite h8 (State.report_keeps h8))

theorem State.noteLong_keeps {s0 : State} {s : State} {k : Nat} (h_1 : Keeps s0 s) : Keeps s0 (@State.noteLong s k) := by
  unfold State.noteLong
  extract_lets -merge +onlyGivenNames v1
  clear_value v1
  split
  · exact h_1
  · extract_lets -merge +onlyGivenNames v6
    have h7 : Keeps s0 v6 := (State.setCam_keeps h_1)
    clear_value v6
    extract_lets -merge +onlyGivenNames v8
    have h9 : Keeps s0 v8 := (keeps_ite (State.set_keeps h7) h7)
    clear_value v8
    exact (keeps_ite h9 (State.report_keeps h9))

theorem fixLine_keeps {s0 : State} {n : Nat} {c : Nat} {v : List Nat} {s : State} (h_1 : Keeps s0 s) : PK s0 (·.2) (@fixLine n c v s) := by
  unfold fixLine
  extract_lets -merge +onlyGivenNames v1
  clear_value v1
  apply PK.ite
  · exact (PK.mk2 h_1)
  · apply PK.ite
    · split
      · rename_i w3 w4 e5
        have k6 : Keeps s0 w4 := PK.of (f := (·.2)) (State.drawWords_keeps h_1) e5
        exact (PK.mk2 k6)
    · extract_lets -merge +onlyGivenNames v7
      clear_value v7
      exact (PK.mk2 h_1)

theorem doCameraLine_keeps {s0 : State} {k : Fin 2} {ds : List (BitVec 16)} {s : State} (h_1 : Keeps s0 s) : Keeps s0 (@doCameraLine k ds s) := by
  unfold doCameraLine
  extract_lets -merge +onlyGivenNames v1
  clear_value v1
  apply keeps_ite
  · exact h_1
  · extract_lets -merge +onlyGivenNames v3
    clear_value v3
    extract_lets -merge +onlyGivenNames v5
    clear_value v5
    extract_lets -merge +onlyGivenNames v7
    clear_value v7
    extract_lets -merge +onlyGivenNames v9
    clear_value v9
    extract_lets -merge +onlyGivenNames v11
    have h12 : Keeps s0 v11 := (State.set_keeps h_1)
    clear_value v11
    extract_lets -merge +onlyGivenNames v13
    clear_value v13
    extract_lets -merge +onlyGivenNames v15
    have h16 : Keeps s0 v15 := (State.setCam_keeps h12)
    clear_value v15
    apply keeps_ite
    · exact (State.noteLong_keeps h16)
    · extract_lets -merge +onlyGivenNames v17
      clear_value v17
      extract_lets -merge +onlyGivenNames v19
      clear_value v19
      split
      · rename_i w21 w22 e23
        have k24 : Keeps s0 w22 := PK.of (f := (·.2)) (PK.ite (fixLine_keeps h16) (PK.mk2 h16)) e23
        extract_lets -merge +onlyGivenNames v25
        clear_value v25
        extract_lets -merge +onlyGivenNames v27
        clear_value v27
        extract_lets -merge +onlyGivenNames v29
        have h30 : Keeps s0 v29 := (State.setCam_keeps k24)
        clear_value v29
        extract_lets -merge +onlyGivenNames u31 u32 v33
        clear_value u31
        have h35 : Keeps s0 u32 := (State.setCam_keeps h30)
        clear_value u32
        have h36 : Keeps s0 v33 := (keeps_ite h30 (keeps_ite h35 (State.report_keeps h35)))
        clear_value v33
        extract_lets -merge +onlyGivenNames v37
        have h38 : Keeps s0 v37 := (keeps_ite h36 (State.noteDrop_keeps h36))
        clear_value v37
        exact (keeps_ite (State.set_keeps h38) h38)

theorem execCameraLine_keeps {s0 : State} {k : Fin 2} {ds : List (BitVec 16)} {s : State} (h_1 : Keeps s0 s) : ∃ sn, @execCameraLine k ds s = .next sn ∧ Keeps s0 sn := by
  unfold execCameraLine
  exact ⟨_, rfl, (doCameraLine_keeps h_1)⟩

theorem State.endFrame_keeps {s0 : State} {s : State} {k : Nat} (h_1 : Keeps s0 s) : Keeps s0 (@State.endFrame s k) := by
  unfold State.endFrame
  extract_lets -merge +onlyGivenNames v1
  clear_value v1
  extract_lets -merge +onlyGivenNames v3
  clear_value v3
  extract_lets -merge +onlyGivenNames v5
  clear_value v5
  split
  · rename_i w11 w12 e13
    have k14 : Keeps s0 w12 := by
      refine PK.of (f := (·.2)) ?_ e13
      apply PK.ite
      · exact (PK.mk2 h_1)
      · split
        · rename_i w7 w8 e9
          have k10 : Keeps s0 w8 := PK.of (f := (·.2)) (State.drawFree_keeps h_1) e9
          exact (PK.mk2 k10)
    extract_lets -merge +onlyGivenNames v15
    clear_value v15
    extract_lets -merge +onlyGivenNames v17
    clear_value v17
    extract_lets -merge +onlyGivenNames v19
    have h20 : Keeps s0 v19 := (State.set_keeps (State.setCam_keeps k14))
    clear_value v19
    apply keeps_ite
    · exact h20
    · extract_lets -merge +onlyGivenNames v21
      clear_value v21
      extract_lets -merge +onlyGivenNames v23
      clear_value v23
      extract_lets -merge +onlyGivenNames v25
      clear_value v25
      exact (State.report_keeps (State.setCam_keeps h20))

theorem doFrameEnd_keeps {s0 : State} {k : Fin 2} {s : State} (h_1 : Keeps s0 s) : Keeps s0 (@doFrameEnd k s) := by
  unfold doFrameEnd
  exact (keeps_ite (State.endFrame_keeps h_1) h_1)

theorem execFrameEnd_keeps {s0 : State} {k : Fin 2} {s : State} (h_1 : Keeps s0 s) : ∃ sn, @execFrameEnd k s = .next sn ∧ Keeps s0 sn := by
  unfold execFrameEnd
  exact ⟨_, rfl, (doFrameEnd_keeps h_1)⟩

theorem doCameraClockTimeout_keeps {s0 : State} {k : Fin 2} {s : State} (h_1 : Keeps s0 s) : Keeps s0 (@doCameraClockTimeout k s) := by
  unfold doCameraClockTimeout
  apply keeps_ite
  · exact h_1
  · extract_lets -merge +onlyGivenNames v1
    have h2 : Keeps s0 v1 := (keeps_ite (State.set_keeps h_1) h_1)
    clear_value v1
    exact (State.endFrame_keeps h2)

theorem execCameraClockTimeout_keeps {s0 : State} {k : Fin 2} {s : State} (h_1 : Keeps s0 s) : ∃ sn, @execCameraClockTimeout k s = .next sn ∧ Keeps s0 sn := by
  unfold execCameraClockTimeout
  exact ⟨_, rfl, (doCameraClockTimeout_keeps h_1)⟩

theorem State.refuseCam_keeps {s0 : State} {s : State} {d : Desc} (h_1 : Keeps s0 s) : Keeps s0 (@State.refuseCam s d) := by
  unfold State.refuseCam
  extract_lets -merge +onlyGivenNames v1
  clear_value v1
  exact (State.report_keeps (State.setGate_keeps h_1))

theorem State.takeCam_keeps {s0 : State} {s : State} (h_1 : Keeps s0 s) : Keeps s0 (@State.takeCam s) := by
  unfold State.takeCam
  exact (Keeps.upd h_1)

theorem State.finishCam_keeps {s0 : State} {s : State} {op : Nat} {k : Nat} (h_1 : Keeps s0 s) : Keeps s0 (@State.finishCam s op k) := by
  unfold State.finishCam
  extract_lets -merge +onlyGivenNames v1
  clear_value v1
  extract_lets -merge +onlyGivenNames v3
  clear_value v3
  exact (State.setGate_keeps h_1)

theorem State.camDesc_keeps {s0 : State} {s : State} {op : Nat} {act : Desc → State → State} (h_1 : Keeps s0 s) (h_2 : ∀ y1 y2, Keeps s0 y2 → Keeps s0 (act y1 y2)) : Keeps s0 (@State.camDesc s op act) := by
  unfold State.camDesc
  split
  · exact h_1
  · extract_lets -merge +onlyGivenNames v4
    clear_value v4
    extract_lets -merge +onlyGivenNames v6
    clear_value v6
    exact (keeps_ite h_1 (keeps_ite (State.refuseCam_keeps h_1) (h_2 _ _ h_1)))

theorem doArm_keeps {s0 : State} {s : State} (h_1 : Keeps s0 s) : Keeps s0 (@doArm s) := by
  unfold doArm
  refine State.camDesc_keeps h_1 ?_
  · intro _ _ h1
    extract_lets -merge +onlyGivenNames v2
    clear_value v2
    exact (State.setCam_keeps (State.takeCam_keeps h1))

theorem execArm_keeps {s0 : State} {s : State} (h_1 : Keeps s0 s) : ∃ sn, @execArm s = .next sn ∧ Keeps s0 sn := by
  unfold execArm
  exact ⟨_, rfl, (doArm_keeps h_1)⟩

theorem doDisarm_keeps {s0 : State} {s : State} (h_1 : Keeps s0 s) : Keeps s0 (@doDisarm s) := by
  unfold doDisarm
  refine State.camDesc_keeps h_1 ?_
  · intro _ _ h1
    extract_lets -merge +onlyGivenNames v2
    clear_value v2
    extract_lets -merge +onlyGivenNames u4 v5
    clear_value u4
    have h7 : Keeps s0 v5 := (State.setCam_keeps (State.takeCam_keeps h1))
    clear_value v5
    exact (State.finishCam_keeps (State.finishCam_keeps h7))

theorem execDisarm_keeps {s0 : State} {s : State} (h_1 : Keeps s0 s) : ∃ sn, @execDisarm s = .next sn ∧ Keeps s0 sn := by
  unfold execDisarm
  exact ⟨_, rfl, (doDisarm_keeps h_1)⟩

theorem doPatch_keeps {s0 : State} {s : State} (h_1 : Keeps s0 s) : Keeps s0 (@doPatch s) := by
  unfold doPatch
  refine State.camDesc_keeps h_1 ?_
  · intro _ _ h1
    extract_lets -merge +onlyGivenNames v2
    clear_value v2
    apply keeps_ite
    · exact h1
    · extract_lets -merge +onlyGivenNames v4
      have h5 : PK s0 (·.st) v4 := (State.readTarn_keeps h1)
      clear_value v4
      extract_lets -merge +onlyGivenNames v6
      have h7 : Keeps s0 v6 := (State.takeCam_keeps (PK.out h5))
      clear_value v6
      extract_lets -merge +onlyGivenNames v8
      clear_value v8
      extract_lets -merge +onlyGivenNames v10
      clear_value v10
      extract_lets -merge +onlyGivenNames v12
      clear_value v12
      extract_lets -merge +onlyGivenNames v14
      clear_value v14
      extract_lets -merge +onlyGivenNames v16
      clear_value v16
      extract_lets -merge +onlyGivenNames v18
      clear_value v18
      exact (State.setCam_keeps h7)

theorem execPatch_keeps {s0 : State} {s : State} (h_1 : Keeps s0 s) : ∃ sn, @execPatch s = .next sn ∧ Keeps s0 sn := by
  unfold execPatch
  exact ⟨_, rfl, (doPatch_keeps h_1)⟩

theorem doBand_keeps {s0 : State} {s : State} (h_1 : Keeps s0 s) : Keeps s0 (@doBand s) := by
  unfold doBand
  refine State.camDesc_keeps h_1 ?_
  · intro _ _ h1
    extract_lets -merge +onlyGivenNames v2
    clear_value v2
    apply keeps_ite
    · exact h1
    · extract_lets -merge +onlyGivenNames v4
      clear_value v4
      exact (State.setCam_keeps (State.takeCam_keeps h1))

theorem execBand_keeps {s0 : State} {s : State} (h_1 : Keeps s0 s) : ∃ sn, @execBand s = .next sn ∧ Keeps s0 sn := by
  unfold execBand
  exact ⟨_, rfl, (doBand_keeps h_1)⟩

theorem doTriggerPulse_keeps {s0 : State} {k : Fin 2} {s : State} (h_1 : Keeps s0 s) : Keeps s0 (@doTriggerPulse k s) := by
  unfold doTriggerPulse
  extract_lets -merge +onlyGivenNames v1
  clear_value v1
  split
  · exact h_1
  · apply keeps_ite
    · exact h_1
    · extract_lets -merge +onlyGivenNames v6
      clear_value v6
      extract_lets -merge +onlyGivenNames v8
      have h9 : Keeps s0 v8 := (State.setCam_keeps h_1)
      clear_value v8
      exact (State.finishCam_keeps h9)

theorem execTriggerPulse_keeps {s0 : State} {k : Fin 2} {s : State} (h_1 : Keeps s0 s) : ∃ sn, @execTriggerPulse k s = .next sn ∧ Keeps s0 sn := by
  unfold execTriggerPulse
  exact ⟨_, rfl, (doTriggerPulse_keeps h_1)⟩

theorem doStrobe_keeps {s0 : State} {k : Fin 2} {s : State} (h_1 : Keeps s0 s) : Keeps s0 (@doStrobe k s) := by
  unfold doStrobe
  extract_lets -merge +onlyGivenNames v1
  clear_value v1
  split
  · exact h_1
  · exact (keeps_ite h_1 (State.setCam_keeps h_1))

theorem execStrobe_keeps {s0 : State} {k : Fin 2} {s : State} (h_1 : Keeps s0 s) : ∃ sn, @execStrobe k s = .next sn ∧ Keeps s0 sn := by
  unfold execStrobe
  exact ⟨_, rfl, (doStrobe_keeps h_1)⟩

theorem State.filterLine_keeps {s0 : State} {s : State} {k : Nat} {frame : Nat} {v : List Nat} (h_1 : Keeps s0 s) : PK s0 (·.2) (@State.filterLine s k frame v) := by
  unfold State.filterLine
  extract_lets -merge +onlyGivenNames v1
  clear_value v1
  extract_lets -merge +onlyGivenNames v3
  clear_value v3
  extract_lets -merge +onlyGivenNames v5
  clear_value v5
  extract_lets -merge +onlyGivenNames v7
  clear_value v7
  extract_lets -merge +onlyGivenNames v9
  clear_value v9
  apply PK.ite
  · exact (PK.mk2 h_1)
  · extract_lets -merge +onlyGivenNames v11
    have h12 : PK s0 (·.st) v11 := (State.readTarn_keeps h_1)
    clear_value v11
    extract_lets -merge +onlyGivenNames v13
    clear_value v13
    extract_lets -merge +onlyGivenNames v15
    clear_value v15
    exact (PK.mk2 (PK.out h12))

theorem State.emitBlock_keeps {s0 : State} {s : State} {k : Nat} {j : Nat} {b : CamStream} (h_1 : Keeps s0 s) : Keeps s0 (@State.emitBlock s k j b) := by
  unfold State.emitBlock
  extract_lets -merge +onlyGivenNames v1
  clear_value v1
  extract_lets -merge +onlyGivenNames v3
  clear_value v3
  extract_lets -merge +onlyGivenNames v5
  clear_value v5
  extract_lets -merge +onlyGivenNames v7
  clear_value v7
  split
  · rename_i w9 w10 e11
    have k12 : Keeps s0 w10 := PK.of (f := (·.2)) (State.drawBytes_keeps h_1) e11
    extract_lets -merge +onlyGivenNames v13
    clear_value v13
    apply keeps_ite
    · exact k12
    · extract_lets -merge +onlyGivenNames v15
      clear_value v15
      extract_lets -merge +onlyGivenNames v17
      clear_value v17
      extract_lets -merge +onlyGivenNames v19
      clear_value v19
      extract_lets -merge +onlyGivenNames v21
      have h22 : Keeps s0 v21 := (keeps_ite (State.writeTarn_keeps k12) k12)
      clear_value v21
      exact (State.set_keeps h22)

theorem State.streamLine_keeps {s0 : State} {s : State} {k : Nat} {l : CamLine} {flags : Nat} {out : List Nat} {j : Nat} (h_1 : Keeps s0 s) : Keeps s0 (@State.streamLine s k l flags out j) := by
  unfold State.streamLine
  apply keeps_ite
  · exact h_1
  · extract_lets -merge +onlyGivenNames v1
    extract_lets -merge +onlyGivenNames v3
    extract_lets -merge +onlyGivenNames v5
    extract_lets -merge +onlyGivenNames v7
    extract_lets -merge +onlyGivenNames v9
    apply keeps_ite
    · exact h_1
    · extract_lets -merge +onlyGivenNames v11
      extract_lets -merge +onlyGivenNames v13
      extract_lets -merge +onlyGivenNames v15
      extract_lets -merge +onlyGivenNames v17
      extract_lets -merge +onlyGivenNames v19
      extract_lets -merge +onlyGivenNames v21
      exact (keeps_ite (State.emitBlock_keeps (State.setCam_keeps h_1)) (State.setCam_keeps h_1))

theorem State.measurePatch_keeps {s0 : State} {s : State} {k : Nat} {n : Nat} {usable : Bool} {out : List Nat} (h_1 : Keeps s0 s) : Keeps s0 (@State.measurePatch s k n usable out) := by
  unfold State.measurePatch
  extract_lets -merge +onlyGivenNames v1
  clear_value v1
  split
  · exact h_1
  · apply keeps_ite
    · exact (State.finishCam_keeps (State.writeTarn_keeps (State.setCam_keeps h_1)))
    · apply keeps_ite
      · exact h_1
      · extract_lets -merge +onlyGivenNames v6
        clear_value v6
        extract_lets -merge +onlyGivenNames v8
        clear_value v8
        exact (State.setCam_keeps h_1)

theorem State.bandEntry_keeps {s0 : State} {s : State} {k : Nat} {op : BandOp} {i : Nat} {noz : Nat} {z : NozAcc} (h_1 : Keeps s0 s) : PK s0 (·.2) (@State.bandEntry s k op i noz z) := by
  unfold State.bandEntry
  apply PK.ite
  · exact (PK.mk2 h_1)
  · extract_lets -merge +onlyGivenNames v1
    clear_value v1
    extract_lets -merge +onlyGivenNames v3
    clear_value v3
    extract_lets -merge +onlyGivenNames v5
    clear_value v5
    split
    · rename_i w11 w12 e13
      have k14 : Keeps s0 w12 := by
        refine PK.of (f := (·.2)) ?_ e13
        apply PK.ite
        · exact (PK.mk2 h_1)
        · apply PK.ite
          · split
            · rename_i w7 w8 e9
              have k10 : Keeps s0 w8 := PK.of (f := (·.2)) (State.drawFree_keeps h_1) e9
              exact (PK.mk2 k10)
          · exact (PK.mk2 h_1)
      split
      · rename_i w19 w20 e21
        have k22 : Keeps s0 w20 := by
          refine PK.of (f := (·.2)) ?_ e21
          apply PK.ite
          · split
            · rename_i w15 w16 e17
              have k18 : Keeps s0 w16 := PK.of (f := (·.2)) (State.drawFree_keeps k14) e17
              exact (PK.mk2 k18)
          · exact (PK.mk2 k14)
        exact (PK.mk2 k22)

theorem bandEntries_keeps {s0 : State} {k : Nat} {op : BandOp} {i : Nat} {x3 : Nat} {x4 : Nat} {x5 : State} (h_1 : Keeps s0 x5) : PK s0 (·.2) (@bandEntries k op i x3 x4 x5) := by
  induction x3 generalizing x4 x5 with
  | zero =>
    rw [bandEntries.eq_1]
    exact (PK.mk2 h_1)
  | succ n ih =>
    rw [bandEntries.eq_2]
    split
    · rename_i w1 w2 e3
      have k4 : Keeps s0 w2 := PK.of (f := (·.2)) (State.bandEntry_keeps h_1) e3
      split
      · rename_i w5 w6 e7
        have k8 : Keeps s0 w6 := PK.of (f := (·.2)) (ih k4) e7
        exact (PK.mk2 k8)

theorem State.measureBand_keeps {s0 : State} {s : State} {k : Nat} {n : Nat} {usable : Bool} {out : List Nat} (h_1 : Keeps s0 s) : Keeps s0 (@State.measureBand s k n usable out) := by
  unfold State.measureBand
  extract_lets -merge +onlyGivenNames v1
  clear_value v1
  split
  · exact h_1
  · apply keeps_ite
    · extract_lets -merge +onlyGivenNames v6
      have h7 : Keeps s0 v6 := (State.setCam_keeps h_1)
      clear_value v6
      extract_lets -merge +onlyGivenNames v8
      have h9 : Keeps s0 v8 := by
        unfold v8
        refine foldl_keeps ?_ ?_
        · exact h7
        · intro _ _ h10
          split
          · rename_i w11 w12 e13
            have k14 : Keeps s0 w12 := PK.of (f := (·.2)) (bandEntries_keeps h10) e13
            exact (State.writeTarn_keeps k14)
      clear_value v8
      exact (State.finishCam_keeps h9)
    · exact (keeps_ite h_1 (State.setCam_keeps h_1))

theorem State.frameDone_keeps {s0 : State} {s : State} {k : Nat} {num : Nat} (h_1 : Keeps s0 s) : Keeps s0 (@State.frameDone s k num) := by
  unfold State.frameDone
  extract_lets -merge +onlyGivenNames v1
  clear_value v1
  split
  · exact h_1
  · extract_lets -merge +onlyGivenNames v6
    clear_value v6
    extract_lets -merge +onlyGivenNames v8
    clear_value v8
    extract_lets -merge +onlyGivenNames v10
    have h11 : Keeps s0 v10 := (State.wr_keeps (State.setCam_keeps h_1))
    clear_value v10
    exact (State.postEvent_keeps (State.bump_keeps h11))

theorem State.lineOut_keeps {s0 : State} {s : State} {k : Nat} {l : CamLine} (h_1 : Keeps s0 s) : PK s0 (·.2) (@State.lineOut s k l) := by
  unfold State.lineOut
  extract_lets -merge +onlyGivenNames v1
  have h2 : ∀ a3 a4, Keeps s0 a3 → PK s0 (·.2) (v1 a3 a4) := by
    intro _ _ h5
    unfold v1
    extract_lets -merge +onlyGivenNames v6
    clear_value v6
    apply PK.ite
    · exact (PK.mk2 h5)
    · split
      · rename_i w8 w9 e10
        have k11 : Keeps s0 w9 := PK.of (f := (·.2)) (State.drawWords_keeps h5) e10
        exact (PK.mk2 k11)
  clear_value v1
  apply PK.ite
  · exact (h2 _ _ h_1)
  · apply PK.ite
    · exact (h2 _ _ h_1)
    · split
      · rename_i w12 w13 w14 w15 e16
        have k17 : Keeps s0 w15 := PK.of (f := (·.2)) (State.filterLine_keeps h_1) e16
        exact (PK.ite (h2 _ _ (State.noteDrop_keeps k17)) (PK.mk2 (State.setCam_keeps k17)))

theorem doPipelineLine_keeps {s0 : State} {s : State} (h_1 : Keeps s0 s) : Keeps s0 (@doPipelineLine s) := by
  unfold doPipelineLine
  extract_lets -merge +onlyGivenNames v1
  extract_lets -merge +onlyGivenNames v3
  clear_value v3
  extract_lets -merge +onlyGivenNames v5
  clear_value v5
  extract_lets -merge +onlyGivenNames v7
  clear_value v7
  split
  · exact h_1
  · extract_lets -merge +onlyGivenNames v13
    clear_value v13
    extract_lets -merge +onlyGivenNames u15 u16 v17
    have h18 : Keeps s0 u15 := (State.setCam_keeps h_1)
    clear_value u15
    clear_value u16
    have h20 : Keeps s0 v17 := (Keeps.upd h18)
    clear_value v17
    split
    · rename_i w21 w22 w23 e24
      have k25 : Keeps s0 w23 := PK.of (f := (·.2)) (State.lineOut_keeps h20) e24
      extract_lets -merge +onlyGivenNames u26 v27
      clear_value u26
      have h29 : Keeps s0 v27 := (State.setCam_keeps k25)
      clear_value v27
      extract_lets -merge +onlyGivenNames v30
      clear_value v30
      extract_lets -merge +onlyGivenNames v32
      have h33 : Keeps s0 v32 := (foldl_keeps h29 (fun _ _ h34 => (State.streamLine_keeps h34)))
      clear_value v32
      extract_lets -merge +onlyGivenNames v35
      have h36 : Keeps s0 v35 := by
        unfold v35
        split
        · exact h33
        · exact (State.measureBand_keeps (State.measurePatch_keeps h33))
      clear_value v35
      exact (keeps_ite (State.frameDone_keeps h36) h36)

theorem execPipelineLine_keeps {s0 : State} {s : State} (h_1 : Keeps s0 s) : ∃ sn, @execPipelineLine s = .next sn ∧ Keeps s0 sn := by
  unfold execPipelineLine
  exact ⟨_, rfl, (doPipelineLine_keeps h_1)⟩

end Sys2Proof.Machine
end

