-- ==== Sys2Proof/Laws/KeepsColLoop.lean ====
section
/-! SUPPORT. What every operation and every command of Machine/ColLoop.lean keeps (Keeps). -/

set_option Elab.async false

namespace Sys2Proof.Machine

theorem State.readLiveBank_keeps {s0 : State} {s : State} {id : Nat} {n : Nat} (h_1 : Keeps s0 s) : PK s0 (·.2) (@State.readLiveBank s id n) := by
  unfold State.readLiveBank
  split
  · exact (PK.mk2 h_1)
  · extract_lets -merge +onlyGivenNames v4
    have h5 : PK s0 (·.st) v4 := (State.readTarn_keeps h_1)
    clear_value v4
    exact (PK.mk2 (PK.out h5))

theorem State.densities_keeps {s0 : State} {s : State} {recs : List PatchRec} {sums : List (Nat × Nat)} (h_1 : Keeps s0 s) : PK s0 (·.2) (@State.densities s recs sums) := by
  unfold State.densities
  refine foldl_keeps2 ?_ ?_
  · exact (PK.mk2 h_1)
  · intro _ _ h1
    extract_lets -merge +onlyGivenNames v2
    clear_value v2
    split
    · exact (PK.mk2 (PK.out h1))
    · split
      · rename_i w7 w8 e9
        have k10 : Keeps s0 w8 := PK.of (f := (·.2)) (State.drawFree_keeps (PK.out h1)) e9
        exact (PK.mk2 k10)

theorem State.qOf_keeps {s0 : State} {s : State} {b : Nat} {tone : Nat} (h_1 : Keeps s0 s) : PK s0 (·.2) (@State.qOf s b tone) := by
  unfold State.qOf
  extract_lets -merge +onlyGivenNames v1
  clear_value v1
  extract_lets -merge +onlyGivenNames v3
  clear_value v3
  extract_lets -merge +onlyGivenNames v5
  have h6 : PK s0 (·.st) v5 := (State.readTarn_keeps h_1)
  clear_value v5
  extract_lets -merge +onlyGivenNames v7
  have h8 : PK s0 (·.st) v7 := (State.readTarn_keeps (PK.out h6))
  clear_value v7
  extract_lets -merge +onlyGivenNames v9
  clear_value v9
  extract_lets -merge +onlyGivenNames v11
  clear_value v11
  exact (PK.mk2 (PK.out h8))

theorem State.loopLimit_keeps {s0 : State} {s : State} {b : Nat} (h_1 : Keeps s0 s) : Keeps s0 (@State.loopLimit s b) := by
  unfold State.loopLimit
  exact (keeps_ite h_1 (State.report_keeps (Keeps.upd h_1)))

theorem State.loopAlarm_keeps {s0 : State} {s : State} {r : LoopRec} {b : Nat} {ps : List LoopPatch} (h_1 : Keeps s0 s) : Keeps s0 (@State.loopAlarm s r b ps) := by
  unfold State.loopAlarm
  extract_lets -merge +onlyGivenNames v1
  clear_value v1
  extract_lets -merge +onlyGivenNames u3 v4
  clear_value u3
  have h6 : Keeps s0 v4 := (Keeps.upd h_1)
  clear_value v4
  exact (keeps_ite (State.report_keeps h6) h6)

theorem State.trimBar_keeps {s0 : State} {s : State} {r : LoopRec} {b : Nat} {recs : List PatchRec} {ds : List Int} (h_1 : Keeps s0 s) : PK s0 (·.2) (@State.trimBar s r b recs ds) := by
  unfold State.trimBar
  extract_lets -merge +onlyGivenNames v1
  clear_value v1
  split
  · rename_i w8 w9 e10
    have k11 : Keeps s0 w9 := by
      refine PK.of (f := (·.2)) ?_ e10
      refine foldl_keeps2 ?_ ?_
      · exact (PK.mk2 h_1)
      · intro _ _ h3
        split
        · rename_i w4 w5 e6
          have k7 : Keeps s0 w5 := PK.of (f := (·.2)) (State.qOf_keeps (PK.out h3)) e6
          exact (PK.mk2 k7)
    extract_lets -merge +onlyGivenNames v12
    have h13 : Keeps s0 v12 := (State.loopAlarm_keeps k11)
    clear_value v12
    extract_lets -merge +onlyGivenNames v14
    clear_value v14
    apply PK.ite
    · exact (PK.mk2 h13)
    · extract_lets -merge +onlyGivenNames v16
      clear_value v16
      extract_lets -merge +onlyGivenNames v18
      clear_value v18
      split
      · rename_i w20 w21 e22
        have k23 : Keeps s0 w21 := PK.of (f := (·.2)) (State.readLiveBank_keeps h13) e22
        extract_lets -merge +onlyGivenNames v24
        clear_value v24
        extract_lets -merge +onlyGivenNames v26
        clear_value v26
        extract_lets -merge +onlyGivenNames v28
        clear_value v28
        extract_lets -merge +onlyGivenNames v30
        have h31 : Keeps s0 v30 := (keeps_ite k23 (State.loopLimit_keeps k23))
        clear_value v30
        split
        · exact (PK.mk2 h31)
        · exact (PK.ite (PK.mk2 h31) (PK.mk2 (State.writeTarn_keeps h31)))

theorem State.releaseEnded_keeps {s0 : State} {s : State} (h_1 : Keeps s0 s) : Keeps s0 (@State.releaseEnded s) := by
  unfold State.releaseEnded
  extract_lets -merge +onlyGivenNames v1
  clear_value v1
  extract_lets -merge +onlyGivenNames v3
  have h4 : Keeps s0 v3 := (foldl_keeps h_1 (fun _ _ h5 => (State.cgaGroup_keeps h5)))
  clear_value v3
  exact (Keeps.upd h4)

theorem commitTrim_keeps {s0 : State} {ahead : Nat} {ids : List Nat} {x2 : Nat} {x3 : State} (h_1 : Keeps s0 x3) : Keeps s0 (@commitTrim ahead ids x2 x3) := by
  induction x2 generalizing x3 with
  | zero =>
    rw [commitTrim.eq_1]
    exact h_1
  | succ n ih =>
    rw [commitTrim.eq_2]
    split
    · exact h_1
    · rename_i w2 w3 e4
      have k5 : Keeps s0 w3 := OptK.of (State.openGroup_keeps h_1) e4
      extract_lets -merge +onlyGivenNames v6
      have h7 : Keeps s0 v6 := (foldl_keeps k5 (fun _ _ h8 => (State.groupTab_keeps h8)))
      clear_value v6
      extract_lets -merge +onlyGivenNames v9
      clear_value v9
      extract_lets -merge +onlyGivenNames v11
      clear_value v11
      split
      · rename_i w13 w14 e15
        have k16 : Keeps s0 w14 := PK.of (f := (·.2)) (State.commitGroup_keeps h7) e15
        exact (Keeps.upd k16)
      · rename_i w17 e18
        have k19 : Keeps s0 w17 := PK.of (f := (·.2)) (State.commitGroup_keeps h7) e18
        extract_lets -merge +onlyGivenNames v20
        clear_value v20
        extract_lets -merge +onlyGivenNames v22
        have h23 : Keeps s0 v22 := (State.cgaGroup_keeps k19)
        clear_value v22
        exact (keeps_ite (ih h23) h23)

theorem State.dropPeriods_keeps {s0 : State} {s : State} (h_1 : Keeps s0 s) : Keeps s0 (@State.dropPeriods s) := by
  unfold State.dropPeriods
  exact (Keeps.upd h_1)

theorem State.colPoll_keeps {s0 : State} {s : State} (h_1 : Keeps s0 s) : Keeps s0 (@State.colPoll s) := by
  unfold State.colPoll
  extract_lets -merge +onlyGivenNames v1
  have h2 : Keeps s0 v1 := (State.releaseEnded_keeps h_1)
  clear_value v1
  split
  · exact h2
  · apply keeps_ite
    · extract_lets -merge +onlyGivenNames v7
      have h8 : Keeps s0 v7 := (State.cgaGroup_keeps h2)
      clear_value v7
      exact (State.dropPeriods_keeps (Keeps.upd h8))
    · apply keeps_ite
      · refine State.dropPeriods_keeps ?_
        · extract_lets -merge +onlyGivenNames v9
          have h10 : Keeps s0 v9 := (State.cgaGroup_keeps h2)
          clear_value v9
          exact (Keeps.upd h10)
      · exact h2

theorem State.colPeriod_keeps {s0 : State} {s : State} {addr : Nat} (h_1 : Keeps s0 s) : Keeps s0 (@State.colPeriod s addr) := by
  unfold State.colPeriod
  split
  · rename_i w1 w2 e3
    have k4 : Keeps s0 w2 := PK.of (f := (·.2)) (State.readLiveBank_keeps h_1) e3
    split
    · rename_i w5 w6 e7
      have k8 : Keeps s0 w6 := PK.of (f := (·.2)) (State.readLiveBank_keeps k4) e7
      extract_lets -merge +onlyGivenNames v9
      clear_value v9
      extract_lets -merge +onlyGivenNames v11
      clear_value v11
      extract_lets -merge +onlyGivenNames v13
      have h14 : PK s0 (·.st) v13 := (State.readTarn_keeps k8)
      clear_value v13
      extract_lets -merge +onlyGivenNames v15
      have h16 : Keeps s0 v15 := (PK.out h14)
      extract_lets -merge +onlyGivenNames v17
      clear_value v17
      extract_lets -merge +onlyGivenNames v19
      clear_value v19
      extract_lets -merge +onlyGivenNames v21
      clear_value v21
      apply keeps_ite
      · extract_lets -merge +onlyGivenNames v23
        clear_value v23
        extract_lets -merge +onlyGivenNames u25 v26
        clear_value u25
        have h28 : Keeps s0 v26 := (Keeps.upd h16)
        clear_value v26
        exact (keeps_ite (State.report_keeps (Keeps.upd h28)) h28)
      · extract_lets -merge +onlyGivenNames u29 v30
        clear_value u29
        have h32 : Keeps s0 v30 := (Keeps.upd h16)
        clear_value v30
        apply keeps_ite
        · exact h32
        · extract_lets -merge +onlyGivenNames v33
          clear_value v33
          extract_lets -merge +onlyGivenNames v35
          have h36 : Keeps s0 v35 := (State.dropPeriods_keeps h32)
          clear_value v35
          apply keeps_ite
          · exact h36
          · split
            · rename_i w37 w38 e39
              have k40 : Keeps s0 w38 := PK.of (f := (·.2)) (State.densities_keeps h36) e39
              split
              · rename_i w46 w47 e48
                have k49 : Keeps s0 w47 := by
                  refine PK.of (f := (·.2)) ?_ e48
                  refine foldl_keeps2 ?_ ?_
                  · exact (PK.mk2 k40)
                  · intro _ _ h41
                    split
                    · rename_i w42 w43 e44
                      have k45 : Keeps s0 w43 := PK.of (f := (·.2)) (State.trimBar_keeps (PK.out h41)) e44
                      exact (PK.mk2 k45)
                exact (keeps_ite k49 (commitTrim_keeps k49))

theorem State.colTrims_keeps {s0 : State} {s : State} {r : LoopRec} {b : Nat} {es : List (Nat × Nat × Nat × Nat × Nat)} (h_1 : Keeps s0 s) : Keeps s0 (@State.colTrims s r b es) := by
  unfold State.colTrims
  apply keeps_ite
  · exact h_1
  · extract_lets -merge +onlyGivenNames v1
    clear_value v1
    extract_lets -merge +onlyGivenNames v3
    clear_value v3
    extract_lets -merge +onlyGivenNames v5
    clear_value v5
    split
    · rename_i w7 w8 e9
      have k10 : Keeps s0 w8 := PK.of (f := (·.2)) (State.readLiveBank_keeps h_1) e9
      extract_lets -merge +onlyGivenNames v11
      clear_value v11
      extract_lets -merge +onlyGivenNames v13
      have h14 : Keeps s0 v13 := (keeps_ite (State.loopLimit_keeps k10) k10)
      clear_value v13
      extract_lets -merge +onlyGivenNames v15
      clear_value v15
      split
      · exact h14
      · exact (keeps_ite h14 (commitTrim_keeps (State.writeTarn_keeps h14)))

theorem commitChunks_keeps {s0 : State} {b : Nat} {x1 : Nat} {x2 : List (List (Nat × Word))} {x3 : State} (h_1 : Keeps s0 x3) : PK s0 (·.2) (@commitChunks b x1 x2 x3) := by
  induction x2 generalizing x1 x3 with
  | nil =>
    rw [commitChunks.eq_1]
    exact (PK.mk2 h_1)
  | cons a t ih =>
    rw [commitChunks.eq_2]
    split
    · exact (PK.mk2 h_1)
    · rename_i w2 w3 e4
      have k5 : Keeps s0 w3 := OptK.of (State.openGroup_keeps h_1) e4
      extract_lets -merge +onlyGivenNames v6
      clear_value v6
      extract_lets -merge +onlyGivenNames v8
      have h9 : Keeps s0 v8 := (foldl_keeps k5 (fun _ _ h10 => (State.groupWord_keeps (State.groupWord_keeps h10))))
      clear_value v8
      extract_lets -merge +onlyGivenNames v11
      have h12 : Keeps s0 v11 := (PK.out (State.commitGroup_keeps h9))
      exact (ih (Keeps.upd h12))

theorem State.commitPatches_keeps {s0 : State} {s : State} (h_1 : Keeps s0 s) : Keeps s0 (@State.commitPatches s) := by
  unfold State.commitPatches
  extract_lets -merge +onlyGivenNames v1
  clear_value v1
  refine foldl_keeps ?_ ?_
  · exact (Keeps.upd h_1)
  · intro _ _ h3
    split
    · rename_i w4 w5 w6 e7
      have k8 : Keeps s0 w6 := PK.of (f := (·.2)) (commitChunks_keeps h3) e7
      exact (keeps_ite k8 (Keeps.upd k8))

theorem State.bandDone_keeps {s0 : State} {s : State} {d : Desc} (h_1 : Keeps s0 s) : Keeps s0 (@State.bandDone s d) := by
  unfold State.bandDone
  extract_lets -merge +onlyGivenNames v1
  clear_value v1
  extract_lets -merge +onlyGivenNames v3
  clear_value v3
  extract_lets -merge +onlyGivenNames v5
  have h6 : PK s0 (·.st) v5 := (State.readTarn_keeps h_1)
  clear_value v5
  extract_lets -merge +onlyGivenNames v7
  have h8 : Keeps s0 v7 := (PK.out h6)
  extract_lets -merge +onlyGivenNames v9
  clear_value v9
  split
  · rename_i w11 w12 e13
    have k14 : Keeps s0 w12 := PK.of (f := (·.2)) (State.readLiveBank_keeps h8) e13
    extract_lets -merge +onlyGivenNames v15
    have h16 : Keeps s0 v15 := (State.colTrims_keeps k14)
    clear_value v15
    split
    · rename_i w34 w35 e36
      have k37 : Keeps s0 w35 := by
        refine PK.of (f := (·.2)) ?_ e36
        refine foldl_keeps2 ?_ ?_
        · exact (PK.mk2 h16)
        · intro _ _ h17
          apply PK.ite
          · exact h17
          · extract_lets -merge +onlyGivenNames v18
            have h19 : Keeps s0 v18 := (PK.out h17)
            split
            · extract_lets -merge +onlyGivenNames v23
              clear_value v23
              apply PK.ite
              · exact h17
              · split
                · extract_lets -merge +onlyGivenNames v28
                  clear_value v28
                  extract_lets -merge +onlyGivenNames v30
                  have h31 : Keeps s0 v30 := (keeps_ite (State.report_keeps h19) h19)
                  clear_value v30
                  extract_lets -merge +onlyGivenNames v32
                  have h33 : Keeps s0 v32 := (keeps_ite (State.report_keeps h31) h31)
                  clear_value v32
                  exact (PK.mk2 h33)
      exact (keeps_ite k37 (State.commitPatches_keeps (Keeps.upd k37)))

theorem placeBands_keeps {s0 : State} {stop : Nat} {x1 : Nat} {x2 : Nat} {x3 : State} (h_1 : Keeps s0 x3) : Keeps s0 (@placeBands stop x1 x2 x3) := by
  induction x1 generalizing x2 x3 with
  | zero =>
    rw [placeBands.eq_1]
    exact h_1
  | succ n ih =>
    rw [placeBands.eq_2]
    split
    · exact h_1
    · extract_lets -merge +onlyGivenNames v4
      clear_value v4
      apply keeps_ite
      · exact h_1
      · split
        · exact h_1
        · rename_i w7 w8 e9
          have k10 : Keeps s0 w8 := OptK.of (State.openGroup_keeps h_1) e9
          extract_lets -merge +onlyGivenNames v11
          have h12 : Keeps s0 v11 := (State.groupWord_keeps k10)
          clear_value v11
          extract_lets -merge +onlyGivenNames v13
          have h14 : Keeps s0 v13 := (PK.out (State.commitGroup_keeps h12))
          exact (ih (Keeps.upd h14))

theorem State.gapBands_keeps {s0 : State} {s : State} {m : Nat} (h_1 : Keeps s0 s) : Keeps s0 (@State.gapBands s m) := by
  unfold State.gapBands
  split
  · exact h_1
  · extract_lets -merge +onlyGivenNames v4
    clear_value v4
    extract_lets -merge +onlyGivenNames v6
    clear_value v6
    extract_lets -merge +onlyGivenNames v8
    clear_value v8
    apply keeps_ite
    · exact h_1
    · extract_lets -merge +onlyGivenNames v10
      clear_value v10
      extract_lets -merge +onlyGivenNames v12
      have h13 : Keeps s0 v12 := (placeBands_keeps h_1)
      clear_value v12
      exact (keeps_ite h13 (State.report_keeps (Keeps.upd h13)))

theorem State.colBoundary_keeps {s0 : State} {s : State} {b : Nat} {n : Nat} (h_1 : Keeps s0 s) : Keeps s0 (@State.colBoundary s b n) := by
  unfold State.colBoundary
  extract_lets -merge +onlyGivenNames v1
  have h2 : Keeps s0 v1 := (State.colPoll_keeps h_1)
  clear_value v1
  apply keeps_ite
  · exact h2
  · extract_lets -merge +onlyGivenNames v3
    have h4 : Keeps s0 v3 := (State.commitPatches_keeps h2)
    clear_value v3
    exact (keeps_ite (State.gapBands_keeps h4) h4)

theorem doBoundary_keeps {s0 : State} {b : Fin 8} {s : State} (h_1 : Keeps s0 s) : Keeps s0 (@doBoundary b s) := by
  unfold doBoundary
  extract_lets -merge +onlyGivenNames v1
  clear_value v1
  extract_lets -merge +onlyGivenNames v3
  have h4 : Keeps s0 v3 := (doLineBoundary_keeps h_1)
  clear_value v3
  exact (keeps_ite (State.colBoundary_keeps h4) h4)

theorem execLineBoundary_keeps {s0 : State} {b : Fin 8} {s : State} (h_1 : Keeps s0 s) : ∃ sn, @execLineBoundary b s = .next sn ∧ Keeps s0 sn := by
  unfold execLineBoundary
  exact ⟨_, rfl, (doBoundary_keeps h_1)⟩

theorem doCompletion_keeps {s0 : State} {g : Fin 34} {s : State} (h_1 : Keeps s0 s) : Keeps s0 (@doCompletion g s) := by
  unfold doCompletion
  split
  · exact h_1
  · apply keeps_ite
    · exact h_1
    · extract_lets -merge +onlyGivenNames v5
      have h6 : Keeps s0 v5 := (doUnitCompletion_keeps h_1)
      clear_value v5
      apply keeps_ite
      · extract_lets -merge +onlyGivenNames v7
        clear_value v7
        exact (State.setFireBar_keeps h6)
      · apply keeps_ite
        · extract_lets -merge +onlyGivenNames u9 v10
          clear_value u9
          have h12 : Keeps s0 v10 := (Keeps.upd h6)
          clear_value v10
          exact (keeps_ite h12 (keeps_ite (State.colPeriod_keeps (State.colPoll_keeps h12)) (keeps_ite (State.bandDone_keeps (State.colPoll_keeps h12)) h12)))
        · exact h6

theorem execUnitCompletion_keeps {s0 : State} {g : Fin 34} {s : State} (h_1 : Keeps s0 s) : ∃ sn, @execUnitCompletion g s = .next sn ∧ Keeps s0 sn := by
  unfold execUnitCompletion
  exact ⟨_, rfl, (doCompletion_keeps h_1)⟩

theorem doMeasReadCameras_keeps {s0 : State} {tok : Nat} {ok : Bool} {s : State} (h_1 : Keeps s0 s) : Keeps s0 (@doMeasReadCameras tok ok s) := by
  unfold doMeasReadCameras
  exact (State.measRead_keeps h_1 (fun _ h1 => h1))

theorem execMeasReadCameras_keeps {s0 : State} {tok : Nat} {ok : Bool} {s : State} (h_1 : Keeps s0 s) : ∃ sn, @execMeasReadCameras tok ok s = .next sn ∧ Keeps s0 sn := by
  unfold execMeasReadCameras
  exact ⟨_, rfl, (doMeasReadCameras_keeps h_1)⟩

end Sys2Proof.Machine
end

