-- ==== Sys2Proof/Laws/KeepsTarnRows.lean ====
section
/-! SUPPORT. What every operation and every command of Machine/TarnRows.lean keeps (Keeps). -/

set_option Elab.async false

namespace Sys2Proof.Machine

theorem doTarnAccess_keeps {s0 : State} {m : Fin 50} {off : Nat} {req : TarnReq} {op : TarnOp} {s : State} (h_1 : Keeps s0 s) : Keeps s0 (@doTarnAccess m off req op s) := by
  unfold doTarnAccess
  apply keeps_ite
  · exact h_1
  · extract_lets -merge +onlyGivenNames v1
    clear_value v1
    split
    · apply keeps_ite
      · exact h_1
      · extract_lets -merge +onlyGivenNames v4
        have h5 : PK s0 (·.st) v4 := (State.readKeys_keeps h_1)
        clear_value v4
        extract_lets -merge +onlyGivenNames v6
        have h7 : Keeps s0 v6 := (PK.out h5)
        exact (Keeps.upd h7)
    · exact (keeps_ite h_1 (State.writeKeys_keeps h_1))

theorem execTarnAccess_keeps {s0 : State} {m : Fin 50} {off : Nat} {req : TarnReq} {op : TarnOp} {s : State} (h_1 : Keeps s0 s) : ∃ sn, @execTarnAccess m off req op s = .next sn ∧ Keeps s0 sn := by
  unfold execTarnAccess
  exact ⟨_, rfl, (doTarnAccess_keeps h_1)⟩

theorem State.clearValid_keeps {s0 s : State} {m lo hi : Nat} (h : Keeps s0 s) : Keeps s0 (s.clearValid m lo hi) := by
  unfold State.clearValid
  exact h.tarn id id (fun w => Tab.drop_wf w)

theorem doTarnInit_keeps {s0 s : State} {v : Word} (h : Keeps s0 s) : Keeps s0 (doTarnInit v s) := by
  unfold doTarnInit
  refine keeps_ite (State.set_keeps h) ?_
  extract_lets -merge +onlyGivenNames t
  have ht : Keeps s0 t := State.swWrite_keeps h
  clear_value t
  refine keeps_ite ht (keeps_ite (State.set_keeps ht) ?_)
  exact Keeps.tarn (State.set_keeps ht) id id id

theorem execTarnInit_keeps {s0 : State} {v : Word} {s : State} (h_1 : Keeps s0 s) : ∃ sn, @execTarnInit v s = .next sn ∧ Keeps s0 sn := by
  unfold execTarnInit
  exact ⟨_, rfl, (State.busWrite_keeps h_1 (fun _ h1 => (doTarnInit_keeps h1)))⟩

theorem State.initTick_keeps {s0 : State} {s : State} (h_1 : Keeps s0 s) : Keeps s0 (@State.initTick s) := by
  unfold State.initTick
  apply keeps_ite
  · exact h_1
  · extract_lets -merge +onlyGivenNames v1
    clear_value v1
    extract_lets -merge +onlyGivenNames v3
    clear_value v3
    extract_lets -merge +onlyGivenNames v5
    have h6 : Keeps s0 v5 := (State.clearValid_keeps h_1)
    clear_value v5
    exact (Keeps.upd h6)

theorem doTarnInitDone_keeps {s0 : State} {s : State} (h_1 : Keeps s0 s) : Keeps s0 (@doTarnInitDone s) := by
  unfold doTarnInitDone
  apply keeps_ite
  · exact h_1
  · extract_lets -merge +onlyGivenNames v1
    have h2 : Keeps s0 v1 := (State.clearValid_keeps h_1)
    clear_value v1
    exact (State.set_keeps (Keeps.upd h2))

theorem execTarnInitDone_keeps {s0 : State} {s : State} (h_1 : Keeps s0 s) : ∃ sn, @execTarnInitDone s = .next sn ∧ Keeps s0 sn := by
  unfold execTarnInitDone
  exact ⟨_, rfl, (doTarnInitDone_keeps h_1)⟩

theorem State.copyByte_keeps {s0 : State} {s : State} {k : Nat} {src : Nat} {dst : Nat} (h_1 : Keeps s0 s) : Keeps s0 (@State.copyByte s k src dst) := by
  unfold State.copyByte
  extract_lets -merge +onlyGivenNames v1
  clear_value v1
  extract_lets -merge +onlyGivenNames v3
  clear_value v3
  split
  · exact (State.storeRaw_keeps h_1)
  · exact (State.storeRaw_keeps (noteByte_keeps h_1))
  · exact (State.storeRaw_keeps h_1)

theorem copyBytes_keeps {s0 : State} {home : Nat} {src : Nat} {dst : Nat} {x3 : Nat} {x4 : State} (h_1 : Keeps s0 x4) : Keeps s0 (@copyBytes home src dst x3 x4) := by
  induction x3 generalizing x4 with
  | zero =>
    rw [copyBytes.eq_1]
    exact h_1
  | succ n ih =>
    rw [copyBytes.eq_2]
    exact (State.copyByte_keeps (ih h_1))

theorem State.copyLine_keeps {s0 s : State} {home src dst : Nat} (h : Keeps s0 s) : Keeps s0 (s.copyLine home src dst) := by
  unfold State.copyLine
  exact keeps_ite (copyBytes_keeps (State.clearLine_keeps h)) (h.tarn id id (fun w => Tab.put_wf w))

theorem doRemapWrite_keeps {s0 : State} {m : Fin 50} {k : Fin 16} {v : Word} {s : State} (h_1 : Keeps s0 s) : Keeps s0 (@doRemapWrite m k v s) := by
  unfold doRemapWrite
  extract_lets -merge +onlyGivenNames v1
  clear_value v1
  extract_lets -merge +onlyGivenNames v3
  clear_value v3
  apply keeps_ite
  · exact h_1
  · apply keeps_ite
    · exact (State.set_keeps h_1)
    · extract_lets -merge +onlyGivenNames v5
      clear_value v5
      extract_lets -merge +onlyGivenNames v7
      clear_value v7
      extract_lets -merge +onlyGivenNames v9
      have h10 : ∀ a11, Keeps s0 a11 → Keeps s0 (v9 a11) := (fun _ h12 => (State.copyLine_keeps h12))
      clear_value v9
      extract_lets -merge +onlyGivenNames v13
      have h14 : ∀ a15, Keeps s0 a15 → Keeps s0 (v13 a15) := (fun _ h16 => (State.copyLine_keeps h16))
      clear_value v13
      extract_lets -merge +onlyGivenNames v17
      have h18 : Keeps s0 v17 := (keeps_ite (h10 _ h_1) h_1)
      clear_value v17
      extract_lets -merge +onlyGivenNames v19
      have h20 : Keeps s0 v19 := (keeps_ite (h14 _ h18) h18)
      clear_value v19
      extract_lets -merge +onlyGivenNames v21
      have h22 : Keeps s0 v21 := (State.set_keeps (State.set_keeps h20))
      clear_value v21
      exact (State.set_keeps h22)

theorem execRemapWrite_keeps {s0 : State} {m : Fin 50} {k : Fin 16} {v : Word} {s : State} (h_1 : Keeps s0 s) : ∃ sn, @execRemapWrite m k v s = .next sn ∧ Keeps s0 sn := by
  unfold execRemapWrite
  exact ⟨_, rfl, (State.busWrite_keeps h_1 (fun _ h1 => (doRemapWrite_keeps h1)))⟩

theorem doDmahaltWrite_keeps {s0 : State} {v : Word} {s : State} (h_1 : Keeps s0 s) : Keeps s0 (@doDmahaltWrite v s) := by
  unfold doDmahaltWrite
  exact (State.swWrite_keeps h_1)

theorem execDmahaltWrite_keeps {s0 : State} {v : Word} {s : State} (h_1 : Keeps s0 s) : ∃ sn, @execDmahaltWrite v s = .next sn ∧ Keeps s0 sn := by
  unfold execDmahaltWrite
  exact ⟨_, rfl, (State.busWrite_keeps h_1 (fun _ h1 => (doDmahaltWrite_keeps h1)))⟩

theorem doCheckerTestWrite_keeps {s0 : State} {m : Fin 50} {v : Word} {s : State} (h_1 : Keeps s0 s) : Keeps s0 (@doCheckerTestWrite m v s) := by
  unfold doCheckerTestWrite
  exact (keeps_ite h_1 (State.swWrite_keeps h_1))

theorem execCheckerTestWrite_keeps {s0 : State} {m : Fin 50} {v : Word} {s : State} (h_1 : Keeps s0 s) : ∃ sn, @execCheckerTestWrite m v s = .next sn ∧ Keeps s0 sn := by
  unfold execCheckerTestWrite
  exact ⟨_, rfl, (State.busWrite_keeps h_1 (fun _ h1 => (doCheckerTestWrite_keeps h1)))⟩

theorem scrubBytes_keeps {s0 : State} {hard : Bool} {home : Nat} {phys : Nat} {x3 : Nat} {x4 : State} (h_1 : Keeps s0 x4) : Keeps s0 (@scrubBytes hard home phys x3 x4) := by
  induction x3 generalizing x4 with
  | zero =>
    rw [scrubBytes.eq_1]
    exact h_1
  | succ n ih =>
    rw [scrubBytes.eq_2]
    split
    · exact (ih h_1)
    · extract_lets -merge +onlyGivenNames v6
      have h7 : Keeps s0 v6 := (noteByte_keeps (ih h_1))
      clear_value v6
      exact (keeps_ite h7 (State.storeRaw_keeps h7))
    · exact (noteByte_keeps (ih h_1))

theorem doTarnScrub_keeps {s0 : State} {hard : Bool} {s : State} (h_1 : Keeps s0 s) : Keeps s0 (@doTarnScrub hard s) := by
  unfold doTarnScrub
  apply keeps_ite
  · exact h_1
  · extract_lets -merge +onlyGivenNames v1
    clear_value v1
    extract_lets -merge +onlyGivenNames v3
    clear_value v3
    split
    · exact (Keeps.upd h_1)
    · extract_lets -merge +onlyGivenNames v10
      clear_value v10
      extract_lets -merge +onlyGivenNames v12
      clear_value v12
      extract_lets -merge +onlyGivenNames u14 v15
      have h17 : Keeps s0 v15 := (keeps_ite (State.report_keeps (Keeps.upd h_1)) h_1)
      clear_value v15
      extract_lets -merge +onlyGivenNames v18
      clear_value v18
      extract_lets -merge +onlyGivenNames v20
      have h21 : Keeps s0 v20 := (scrubBytes_keeps h17)
      clear_value v20
      extract_lets -merge +onlyGivenNames u22 v23
      have h25 : Keeps s0 v23 := (Keeps.upd h21)
      clear_value v23
      apply keeps_ite
      · exact h25
      · split
        · exact (keeps_ite h25 (State.report_keeps (Keeps.upd h25)))
        · apply keeps_ite
          · extract_lets -merge +onlyGivenNames v29
            have h30 : Keeps s0 v29 := (State.copyLine_keeps h25)
            clear_value v29
            extract_lets -merge +onlyGivenNames v31
            have h32 : Keeps s0 v31 := (State.set_keeps (State.set_keeps h30))
            clear_value v31
            exact (State.report_keeps (State.set_keeps h32))
          · exact h25

theorem execTarnScrub_keeps {s0 : State} {hard : Bool} {s : State} (h_1 : Keeps s0 s) : ∃ sn, @execTarnScrub hard s = .next sn ∧ Keeps s0 sn := by
  unfold execTarnScrub
  exact ⟨_, rfl, (doTarnScrub_keeps h_1)⟩

end Sys2Proof.Machine
end

