-- ==== Sys2Proof/Laws/KeepsTime.lean ====
section
/-! SUPPORT. What every operation and every command of Machine/Time.lean keeps (Keeps). -/

set_option Elab.async false

namespace Sys2Proof.Machine

theorem State.tickTb_keeps {s0 : State} {s : State} {k : Nat} (h_1 : Keeps s0 s) : Keeps s0 (@State.tickTb s k) := by
  unfold State.tickTb
  apply keeps_ite
  · exact h_1
  · extract_lets -merge +onlyGivenNames v1
    clear_value v1
    extract_lets -merge +onlyGivenNames v3
    clear_value v3
    exact (Keeps.upd h_1)

theorem disarmOn_keeps {s0 : State} {k : Nat} {x1 : Nat} {x2 : State} (h_1 : Keeps s0 x2) : Keeps s0 (@disarmOn k x1 x2) := by
  induction x1 generalizing x2 with
  | zero =>
    rw [disarmOn.eq_1]
    exact h_1
  | succ n ih =>
    rw [disarmOn.eq_2]
    exact (keeps_ite (Keeps.upd (ih h_1)) (ih h_1))

theorem State.resetTb_keeps {s0 : State} {s : State} {k : Nat} (h_1 : Keeps s0 s) : Keeps s0 (@State.resetTb s k) := by
  unfold State.resetTb
  apply keeps_ite
  · exact (State.report_keeps (State.set_keeps h_1))
  · extract_lets -merge +onlyGivenNames v1
    clear_value v1
    extract_lets -merge +onlyGivenNames u3 v4
    clear_value u3
    have h6 : Keeps s0 v4 := (Keeps.upd h_1)
    clear_value v4
    exact (disarmOn_keeps (State.set_keeps (State.set_keeps h6)))

theorem State.stepGo_keeps {s0 : State} {s : State} {k : Nat} (h_1 : Keeps s0 s) : Keeps s0 (@State.stepGo s k) := by
  unfold State.stepGo
  extract_lets -merge +onlyGivenNames v1
  clear_value v1
  apply keeps_ite
  · exact (State.report_keeps (State.set_keeps h_1))
  · extract_lets -merge +onlyGivenNames v3
    have h4 : Keeps s0 v3 := (State.set_keeps h_1)
    clear_value v3
    exact (Keeps.upd h4)

theorem State.writeTbctl_keeps {s0 : State} {s : State} {k : Nat} {v : Word} (h_1 : Keeps s0 s) : Keeps s0 (@State.writeTbctl s k v) := by
  unfold State.writeTbctl
  extract_lets -merge +onlyGivenNames v1
  clear_value v1
  extract_lets -merge +onlyGivenNames v3
  have h4 : Keeps s0 v3 := (State.swWrite_keeps h_1)
  clear_value v3
  extract_lets -merge +onlyGivenNames v5
  have h6 : Keeps s0 v5 := (keeps_ite (State.set_keeps h4) h4)
  clear_value v5
  extract_lets -merge +onlyGivenNames v7
  have h8 : Keeps s0 v7 := (keeps_ite (State.set_keeps h6) h6)
  clear_value v7
  extract_lets -merge +onlyGivenNames v9
  have h10 : Keeps s0 v9 := (keeps_ite (State.resetTb_keeps h8) h8)
  clear_value v9
  exact (keeps_ite (State.stepGo_keeps h10) h10)

theorem execTimeStep_keeps {s0 : State} {k : Fin 4} {v : Word} {s : State} (h_1 : Keeps s0 s) : ∃ sn, @execTimeStep k v s = .next sn ∧ Keeps s0 sn := by
  unfold execTimeStep
  exact ⟨_, rfl, (State.busWrite_keeps h_1 (fun _ h1 => (State.writeTbctl_keeps h1)))⟩

theorem execTimeBaseReset_keeps {s0 : State} {k : Fin 4} {v : Word} {s : State} (h_1 : Keeps s0 s) : ∃ sn, @execTimeBaseReset k v s = .next sn ∧ Keeps s0 sn := by
  unfold execTimeBaseReset
  exact ⟨_, rfl, (State.busWrite_keeps h_1 (fun _ h1 => (State.writeTbctl_keeps h1)))⟩

theorem doRateWrite_keeps {s0 : State} {k : Fin 4} {v : Word} {s : State} (h_1 : Keeps s0 s) : Keeps s0 (@doRateWrite k v s) := by
  unfold doRateWrite
  extract_lets -merge +onlyGivenNames v1
  clear_value v1
  extract_lets -merge +onlyGivenNames v3
  clear_value v3
  extract_lets -merge +onlyGivenNames v5
  have h6 : Keeps s0 v5 := (State.set_keeps h_1)
  clear_value v5
  exact (keeps_ite h6 (State.report_keeps (State.set_keeps h6)))

theorem execRateWrite_keeps {s0 : State} {k : Fin 4} {v : Word} {s : State} (h_1 : Keeps s0 s) : ∃ sn, @execRateWrite k v s = .next sn ∧ Keeps s0 sn := by
  unfold execRateWrite
  exact ⟨_, rfl, (State.busWrite_keeps h_1 (fun _ h1 => (doRateWrite_keeps h1)))⟩

theorem State.snapTb_keeps {s0 : State} {s : State} {k : Nat} (h_1 : Keeps s0 s) : Keeps s0 (@State.snapTb s k) := by
  unfold State.snapTb
  extract_lets -merge +onlyGivenNames v1
  clear_value v1
  exact (State.set_keeps (State.set_keeps (State.set_keeps h_1)))

theorem doSnapshot_keeps {s0 : State} {v : Word} {s : State} (h_1 : Keeps s0 s) : Keeps s0 (@doSnapshot v s) := by
  unfold doSnapshot
  apply keeps_ite
  · exact h_1
  · extract_lets -merge +onlyGivenNames v1
    have h2 : Keeps s0 v1 := (State.snapTb_keeps (State.snapTb_keeps (State.snapTb_keeps (State.snapTb_keeps h_1))))
    clear_value v1
    extract_lets -merge +onlyGivenNames v3
    have h4 : Keeps s0 v3 := (State.set64_keeps h2)
    clear_value v3
    exact (State.set_keeps (State.set64_keeps h4))

theorem execSnapshot_keeps {s0 : State} {v : Word} {s : State} (h_1 : Keeps s0 s) : ∃ sn, @execSnapshot v s = .next sn ∧ Keeps s0 sn := by
  unfold execSnapshot
  exact ⟨_, rfl, (State.busWrite_keeps h_1 (fun _ h1 => (doSnapshot_keeps h1)))⟩

theorem State.txDone_keeps {s0 : State} {s : State} {j : Nat} {q : Nat} {i : Nat} {status : Nat} {stamp : Nat} (h_1 : Keeps s0 s) : Keeps s0 (@State.txDone s j q i status stamp) := by
  unfold State.txDone
  extract_lets -merge +onlyGivenNames v1
  clear_value v1
  extract_lets -merge +onlyGivenNames v3
  clear_value v3
  extract_lets -merge +onlyGivenNames v5
  have h6 : Keeps s0 v5 := (State.writeTarn_keeps h_1)
  clear_value v5
  extract_lets -merge +onlyGivenNames v7
  have h8 : Keeps s0 v7 := (State.writeTarn_keeps h6)
  clear_value v7
  extract_lets -merge +onlyGivenNames v9
  have h10 : Keeps s0 v9 := (State.writeTarn_keeps h8)
  clear_value v9
  extract_lets -merge +onlyGivenNames u11 v12
  clear_value u11
  have h14 : Keeps s0 v12 := (Keeps.upd h10)
  clear_value v12
  exact (State.set_keeps h14)

theorem State.txSend_keeps {s0 : State} {s : State} {j : Nat} {q : Nat} {i : Nat} {status : Nat} {d : TxDesc} (h_1 : Keeps s0 s) : Keeps s0 (@State.txSend s j q i status d) := by
  unfold State.txSend
  extract_lets -merge +onlyGivenNames v1
  have h2 : PK s0 (·.st) v1 := (State.readTarn_keeps h_1)
  clear_value v1
  extract_lets -merge +onlyGivenNames v3
  have h4 : Keeps s0 v3 := (PK.out h2)
  extract_lets -merge +onlyGivenNames v5
  clear_value v5
  extract_lets -merge +onlyGivenNames v7
  clear_value v7
  extract_lets -merge +onlyGivenNames v9
  clear_value v9
  extract_lets -merge +onlyGivenNames v11
  clear_value v11
  extract_lets -merge +onlyGivenNames v13
  clear_value v13
  extract_lets -merge +onlyGivenNames u15 v16
  clear_value u15
  have h18 : Keeps s0 v16 := (Keeps.upd h4)
  clear_value v16
  extract_lets -merge +onlyGivenNames v19
  clear_value v19
  exact (State.txDone_keeps h18)

theorem doFrameTransmit_keeps {s0 : State} {j : Fin 2} {s : State} (h_1 : Keeps s0 s) : Keeps s0 (@doFrameTransmit j s) := by
  unfold doFrameTransmit
  apply keeps_ite
  · exact h_1
  · split
    · exact h_1
    · apply keeps_ite
      · exact (State.report_keeps (State.txDone_keeps h_1))
      · apply keeps_ite
        · extract_lets -merge +onlyGivenNames v6
          have h7 : Keeps s0 v6 := (State.reportLimited_keeps h_1)
          clear_value v6
          exact (keeps_ite (State.txSend_keeps h7) (State.txDone_keeps h7))
        · exact (State.txSend_keeps h_1)

theorem execFrameTransmit_keeps {s0 : State} {j : Fin 2} {s : State} (h_1 : Keeps s0 s) : ∃ sn, @execFrameTransmit j s = .next sn ∧ Keeps s0 sn := by
  unfold execFrameTransmit
  exact ⟨_, rfl, (doFrameTransmit_keeps h_1)⟩

theorem doFrameReceive_keeps {s0 : State} {j : Fin 2} {f : List Byte} {fcsOk : Bool} {s : State} (h_1 : Keeps s0 s) : Keeps s0 (@doFrameReceive j f fcsOk s) := by
  unfold doFrameReceive
  apply keeps_ite
  · exact h_1
  · apply keeps_ite
    · exact (State.bump_keeps h_1)
    · apply keeps_ite
      · exact (State.bump_keeps h_1)
      · extract_lets -merge +onlyGivenNames v1
        clear_value v1
        apply keeps_ite
        · exact h_1
        · extract_lets -merge +onlyGivenNames v3
          clear_value v3
          extract_lets -merge +onlyGivenNames v5
          clear_value v5
          extract_lets -merge +onlyGivenNames v7
          clear_value v7
          extract_lets -merge +onlyGivenNames v9
          clear_value v9
          extract_lets -merge +onlyGivenNames v11
          clear_value v11
          extract_lets -merge +onlyGivenNames v13
          clear_value v13
          extract_lets -merge +onlyGivenNames v15
          clear_value v15
          extract_lets -merge +onlyGivenNames v17
          clear_value v17
          exact (State.set_keeps (State.writeTarn_keeps h_1))

theorem execFrameReceive_keeps {s0 : State} {j : Fin 2} {f : List Byte} {fcsOk : Bool} {s : State} (h_1 : Keeps s0 s) : ∃ sn, @execFrameReceive j f fcsOk s = .next sn ∧ Keeps s0 sn := by
  unfold execFrameReceive
  exact ⟨_, rfl, (doFrameReceive_keeps h_1)⟩

theorem doEthLinkLoss_keeps {s0 : State} {j : Fin 2} {s : State} (h_1 : Keeps s0 s) : Keeps s0 (@doEthLinkLoss j s) := by
  unfold doEthLinkLoss
  exact (keeps_ite (State.report_keeps (State.set_keeps h_1)) h_1)

theorem execEthLinkLoss_keeps {s0 : State} {j : Fin 2} {s : State} (h_1 : Keeps s0 s) : ∃ sn, @execEthLinkLoss j s = .next sn ∧ Keeps s0 sn := by
  unfold execEthLinkLoss
  exact ⟨_, rfl, (doEthLinkLoss_keeps h_1)⟩

theorem doEthLinkUp_keeps {s0 : State} {j : Fin 2} {s : State} (h_1 : Keeps s0 s) : Keeps s0 (@doEthLinkUp j s) := by
  unfold doEthLinkUp
  exact (keeps_ite (State.set_keeps h_1) h_1)

theorem execEthLinkUp_keeps {s0 : State} {j : Fin 2} {s : State} (h_1 : Keeps s0 s) : ∃ sn, @execEthLinkUp j s = .next sn ∧ Keeps s0 sn := by
  unfold execEthLinkUp
  exact ⟨_, rfl, (doEthLinkUp_keeps h_1)⟩

end Sys2Proof.Machine
end

