-- ==== Sys2Proof/Laws/KeepsIo.lean ====
section
/-! SUPPORT. What every operation and every command of Machine/Io.lean keeps (Keeps). -/

set_option Elab.async false

namespace Sys2Proof.Machine

theorem State.latchHi_keeps {s0 : State} {s : State} {off : Nat} (h_1 : Keeps s0 s) : Keeps s0 (@State.latchHi s off) := by
  unfold State.latchHi
  split
  · exact (Keeps.upd h_1)
  · exact h_1

theorem State.ioRead_keeps {s0 : State} {s : State} {off : Nat} (h_1 : Keeps s0 s) : PK s0 (·.2) (@State.ioRead s off) := by
  unfold State.ioRead
  split
  · exact (PK.mk2 h_1)
  · apply PK.ite
    · exact (PK.mk2 h_1)
    · split
      · exact (PK.mk2 (State.noteStop_keeps h_1))
      · extract_lets -merge +onlyGivenNames v9
        have h10 : Keeps s0 v9 := (foldl_keeps h_1 (fun _ _ h11 => (State.latchHi_keeps h11)))
        clear_value v9
        split
        · exact (PK.mk2 (Keeps.upd h10))
        · extract_lets -merge +onlyGivenNames v15
          clear_value v15
          exact (PK.mk2 (keeps_ite (State.wr_keeps h10) h10))

theorem State.hostIoRead_keeps {s0 : State} {s : State} {off : BitVec 21} (h_1 : Keeps s0 s) : Keeps s0 (@State.hostIoRead s off) := by
  unfold State.hostIoRead
  apply keeps_ite
  · exact (doBar0HoleAccess_keeps h_1)
  · split
    · rename_i w1 w2 e3
      have k4 : Keeps s0 w2 := PK.of (f := (·.2)) (State.ioRead_keeps h_1) e3
      exact (State.hostRead_keeps k4)

theorem doReadClear_keeps {s0 : State} {off : BitVec 21} {s : State} (h_1 : Keeps s0 s) : Keeps s0 (@doReadClear off s) := by
  unfold doReadClear
  exact (State.hostIoRead_keeps h_1)

theorem execReadClear_keeps {s0 : State} {off : BitVec 21} {s : State} (h_1 : Keeps s0 s) : ∃ sn, @execReadClear off s = .next sn ∧ Keeps s0 sn := by
  unfold execReadClear
  exact ⟨_, rfl, (doReadClear_keeps h_1)⟩

theorem doLatchingRead_keeps {s0 : State} {off : BitVec 21} {s : State} (h_1 : Keeps s0 s) : Keeps s0 (@doLatchingRead off s) := by
  unfold doLatchingRead
  exact (State.hostIoRead_keeps h_1)

theorem execLatchingRead_keeps {s0 : State} {off : BitVec 21} {s : State} (h_1 : Keeps s0 s) : ∃ sn, @execLatchingRead off s = .next sn ∧ Keeps s0 sn := by
  unfold execLatchingRead
  exact ⟨_, rfl, (doLatchingRead_keeps h_1)⟩

theorem State.writeAvsctl_keeps {s0 : State} {s : State} {v : Word} (h_1 : Keeps s0 s) : Keeps s0 (@State.writeAvsctl s v) := by
  unfold State.writeAvsctl
  apply keeps_ite
  · exact (doAvsEnable_keeps h_1)
  · split
    · rename_i w1 w2 e3
      have k4 : Keeps s0 w2 := PK.of (f := (·.2)) (State.drawFree_keeps h_1) e3
      exact (doAvsEnable_keeps k4)

theorem State.writeQcoal_keeps {s0 : State} {s : State} {q : Nat} {off : Nat} {v : Word} (h_1 : Keeps s0 s) : Keeps s0 (@State.writeQcoal s q off v) := by
  unfold State.writeQcoal
  exact (keeps_ite (State.report_keeps h_1) (State.swWrite_keeps h_1))

theorem State.writeSprCtl_keeps {s0 : State} {s : State} {v : Word} (h_1 : Keeps s0 s) : Keeps s0 (@State.writeSprCtl s v) := by
  unfold State.writeSprCtl
  extract_lets -merge +onlyGivenNames v1
  clear_value v1
  extract_lets -merge +onlyGivenNames v3
  have h4 : Keeps s0 v3 := (State.swWrite_keeps h_1)
  clear_value v3
  exact (keeps_ite (foldl_keeps h4 (fun _ _ h5 => (State.startBeat_keeps h5))) h4)

theorem State.writeRctl_keeps {s0 : State} {s : State} {r : Nat} {v : Word} (h_1 : Keeps s0 s) : Keeps s0 (@State.writeRctl s r v) := by
  unfold State.writeRctl
  extract_lets -merge +onlyGivenNames v1
  have h2 : Keeps s0 v1 := (State.startBeat_keeps (State.swWrite_keeps h_1))
  clear_value v1
  extract_lets -merge +onlyGivenNames v3
  clear_value v3
  exact (Keeps.upd h2)

theorem State.writeGrave_keeps {s0 : State} {s : State} {v : Word} (h_1 : Keeps s0 s) : Keeps s0 (@State.writeGrave s v) := by
  unfold State.writeGrave
  exact (keeps_ite (State.wr_keeps (State.wr_keeps h_1)) h_1)

theorem State.writeAch_keeps {s0 : State} {s : State} {c : Nat} {off : Nat} {v : Word} (h_1 : Keeps s0 s) : Keeps s0 (@State.writeAch s c off v) := by
  unfold State.writeAch
  extract_lets -merge +onlyGivenNames v1
  clear_value v1
  extract_lets -merge +onlyGivenNames v3
  have h4 : Keeps s0 v3 := (State.swWrite_keeps h_1)
  clear_value v3
  exact (keeps_ite (State.set_keeps h4) h4)

theorem State.writeVector_keeps {s0 : State} {s : State} {v : Nat} {w : Word} (h_1 : Keeps s0 s) : Keeps s0 (@State.writeVector s v w) := by
  unfold State.writeVector
  exact (keeps_ite (doVectorUnmask_keeps h_1) (State.set_keeps h_1))

theorem State.writeLow_keeps {s0 : State} {s : State} {r : RegDef} {i : Nat} {j : Nat} {off : Nat} {v : Word} (h_1 : Keeps s0 s) : Keeps s0 (@State.writeLow s r i j off v) := by
  unfold State.writeLow
  split
  · exact (doNegGo_keeps h_1)
  · exact (doAperWrite_keeps h_1)
  · exact (doRaise_keeps h_1)
  · exact (doQueuePairConfig_keeps h_1)
  · exact (State.writeQcoal_keeps h_1)
  · exact (State.writeQbase_keeps h_1)
  · exact (State.writeQbase_keeps h_1)
  · exact (State.writeQbase_keeps h_1)
  · exact (State.writeQbase_keeps h_1)
  · exact (doSqTailDoorbell_keeps h_1)
  · exact (doCqHeadDoorbell_keeps h_1)
  · exact (State.writeAvsctl_keeps h_1)
  · exact (doAvslimWrite_keeps h_1)
  · exact (raiseSw_keeps h_1)
  · exact (doGaugeClrmin_keeps h_1)
  · exact (doEvrouteWrite_keeps h_1)
  · exact (doTquery_keeps h_1)
  · exact (State.writeIngCtl_keeps h_1)
  · exact (keeps_ite h_1 (State.swWrite_keeps h_1))
  · exact (keeps_ite h_1 (State.swWrite_keeps h_1))
  · exact (keeps_ite h_1 (State.swWrite_keeps h_1))
  · exact (keeps_ite h_1 (State.swWrite_keeps h_1))
  · exact (keeps_ite h_1 (State.swWrite_keeps h_1))
  · exact (keeps_ite h_1 (State.swWrite_keeps h_1))
  · exact (keeps_ite h_1 (State.swWrite_keeps h_1))
  · exact (State.swWrite_keeps h_1)

theorem State.writeMid_keeps {s0 : State} {s : State} {r : RegDef} {i : Nat} {j : Nat} {off : Nat} {v : Word} (h_1 : Keeps s0 s) : Keeps s0 (@State.writeMid s r i j off v) := by
  unfold State.writeMid
  split
  · exact (State.writeHlpCtl_keeps h_1)
  · exact (doSlip_keeps h_1)
  · exact (doFfeWrite_keeps h_1)
  · exact (doRecalibrate_keeps h_1)
  · exact (doPatternInject_keeps h_1)
  · exact (State.checkerLock_keeps (State.swWrite_keeps h_1))
  · exact (doFrameInject_keeps h_1)
  · exact (State.writeDmcCtl_keeps h_1)
  · exact (keeps_ite h_1 (State.swWrite_keeps h_1))
  · exact (doFrequencyChange_keeps h_1)
  · exact (doTsetWrite_keeps h_1)
  · exact (doEccInject_keeps h_1)
  · exact (State.writeEcctest_keeps h_1)
  · exact (doTarnInit_keeps h_1)
  · exact (doDmahaltWrite_keeps h_1)
  · exact (doCheckerTestWrite_keeps h_1)
  · exact (doRemapWrite_keeps h_1)
  · exact (doSnapshot_keeps h_1)
  · exact (State.writeTbctl_keeps h_1)
  · exact (doRateWrite_keeps h_1)
  · exact (keeps_ite h_1 (State.swWrite_keeps h_1))
  · exact (keeps_ite h_1 (State.swWrite_keeps h_1))
  · exact (keeps_ite h_1 (State.swWrite_keeps h_1))
  · exact (keeps_ite (State.set_keeps h_1) (State.swWrite_keeps h_1))
  · exact (keeps_ite h_1 (State.swWrite_keeps h_1))
  · exact (State.swWrite_keeps h_1)

theorem State.writeHigh_keeps {s0 : State} {s : State} {by_ : Accessor} {r : RegDef} {i : Nat} {j : Nat} {off : Nat} {v : Word} (h_1 : Keeps s0 s) : Keeps s0 (@State.writeHigh s by_ r i j off v) := by
  unfold State.writeHigh
  split
  · exact (doIslandReset_keeps h_1)
  · exact (doFirstFaultClear_keeps h_1)
  · exact (doInject_keeps h_1)
  · exact (State.writeGrave_keeps h_1)
  · exact (doClrall_keeps h_1)
  · exact (doClassWrite_keeps h_1)
  · exact (State.writeSprCtl_keeps h_1)
  · exact (doBeat_keeps h_1)
  · exact (doGiveup_keeps h_1)
  · exact (doAssert_keeps h_1)
  · exact (State.writeRctl_keeps h_1)
  · exact (State.writeAch_keeps h_1)
  · exact (keeps_ite (doSecGo_keeps h_1) (State.swWrite_keeps h_1))
  · exact (doAuditAck_keeps h_1)
  · split
    · rename_i w16 w17 e18
      have k19 : Keeps s0 w17 := PK.of (f := (·.2)) (State.drawFree_keeps h_1) e18
      exact (doSoftwareReset_keeps k19)
  · exact (keeps_ite (doStandbyEntry_keeps h_1) (doStandbyExit_keeps h_1))
  · exact (State.writeWdog_keeps h_1)
  · exact (doBusTransaction_keeps h_1)
  · exact (State.writeVector_keeps h_1)
  · exact (State.swWrite_keeps h_1)

theorem State.ioWrite_keeps {s0 : State} {s : State} {by_ : Accessor} {off : Nat} {v : Word} (h_1 : Keeps s0 s) : Keeps s0 (@State.ioWrite s by_ off v) := by
  unfold State.ioWrite
  split
  · exact h_1
  · split
    · exact (State.writeLow_keeps h_1)
    · exact (State.writeLow_keeps h_1)
    · exact (State.writeLow_keeps h_1)
    · exact (State.writeLow_keeps h_1)
    · exact (State.writeLow_keeps h_1)
    · exact (State.blockWrite_keeps h_1)
    · exact (State.blockWrite_keeps h_1)
    · exact (State.blockWrite_keeps h_1)
    · exact (State.blockWrite_keeps h_1)
    · exact (State.blockWrite_keeps h_1)
    · exact (keeps_ite (doSegenWrite_keeps h_1) (State.blockWrite_keeps h_1))
    · exact (State.writeMid_keeps h_1)
    · exact (State.writeMid_keeps h_1)
    · exact (State.writeMid_keeps h_1)
    · exact (State.writeMid_keeps h_1)
    · exact (State.writeHigh_keeps h_1)

theorem doRegisterWrite_keeps {s0 : State} {by_ : Accessor} {off : BitVec 21} {v : Word} {s : State} (h_1 : Keeps s0 s) : Keeps s0 (@doRegisterWrite by_ off v s) := by
  unfold doRegisterWrite
  exact (keeps_ite (keeps_ite (doBar0HoleAccess_keeps h_1) h_1) (State.busWrite_keeps h_1 (fun _ h1 => (State.ioWrite_keeps h1))))

theorem execRegisterWrite_keeps {s0 : State} {by_ : Accessor} {off : BitVec 21} {v : Word} {s : State} (h_1 : Keeps s0 s) : ∃ sn, @execRegisterWrite by_ off v s = .next sn ∧ Keeps s0 sn := by
  unfold execRegisterWrite
  exact ⟨_, rfl, (doRegisterWrite_keeps h_1)⟩

end Sys2Proof.Machine
end

