-- ==== Sys2Proof/Laws/KeepsProf.lean ====
section
/-! SUPPORT. What every operation and every command of Machine/Prof.lean keeps (Keeps). -/

set_option Elab.async false

namespace Sys2Proof.Machine

theorem State.setPver_keeps {s0 : State} {s : State} {k : Nat} {p : Option Profile} (h_1 : Keeps s0 s) : Keeps s0 (@State.setPver s k p) := by
  unfold State.setPver
  exact (State.set_keeps h_1)

theorem State.showPver_keeps {s0 : State} {s : State} (h_1 : Keeps s0 s) : Keeps s0 (@State.showPver s) := by
  unfold State.showPver
  exact (State.setPver_keeps (State.setPver_keeps (State.setPver_keeps (State.setPver_keeps h_1))))

theorem State.stageImage_keeps {s0 : State} {s : State} {m : Msg} {img : List Byte} {frame : Frame} (h_1 : Keeps s0 s) : Keeps s0 (@State.stageImage s m img frame) := by
  unfold State.stageImage
  split
  · split
    · rename_i w2 w3 e4
      have k5 : Keeps s0 w3 := PK.of (f := (·.2)) (State.drawFree_keeps h_1) e4
      exact (State.complete_keeps k5)
  · apply keeps_ite
    · exact (State.complete_keeps h_1)
    · extract_lets -merge +onlyGivenNames v8
      clear_value v8
      apply keeps_ite
      · exact (State.complete_keeps h_1)
      · extract_lets -merge +onlyGivenNames u10 v11
        clear_value u10
        have h13 : Keeps s0 v11 := (Keeps.upd h_1)
        clear_value v11
        exact (State.complete_keeps (State.setPver_keeps h13))

theorem doPrfStage_keeps {s0 : State} {tok : Nat} {img : Option ImageData} {s : State} (h_1 : Keeps s0 s) : Keeps s0 (@doPrfStage tok img s) := by
  unfold doPrfStage
  split
  · exact h_1
  · split
    · exact (State.hostFail_keeps h_1)
    · extract_lets -merge +onlyGivenNames v5
      clear_value v5
      split
      · apply keeps_ite
        · exact (State.audit_keeps (State.complete_keeps h_1))
        · extract_lets -merge +onlyGivenNames v10
          have h11 : Keeps s0 v10 := (keeps_ite (State.commitSvn_keeps h_1) h_1)
          clear_value v10
          exact (State.stageImage_keeps h11)

theorem execPrfStage_keeps {s0 : State} {tok : Nat} {img : Option ImageData} {s : State} (h_1 : Keeps s0 s) : ∃ sn, @execPrfStage tok img s = .next sn ∧ Keeps s0 sn := by
  unfold execPrfStage
  exact ⟨_, rfl, (doPrfStage_keeps h_1)⟩

theorem State.sppWrites_keeps {s0 : State} {s : State} {ws : List (Nat × Word)} (h_1 : Keeps s0 s) : Keeps s0 (@State.sppWrites s ws) := by
  unfold State.sppWrites
  exact (foldl_keeps h_1 (fun _ _ h1 => (State.ioWrite_keeps h1)))

theorem State.writeSettings_keeps {s0 : State} {s : State} {es : List (Nat × Word)} (h_1 : Keeps s0 s) : Keeps s0 (@State.writeSettings s es) := by
  unfold State.writeSettings
  extract_lets -merge +onlyGivenNames v1
  clear_value v1
  extract_lets -merge +onlyGivenNames v3
  have h4 : Keeps s0 v3 := (State.sppWrites_keeps h_1)
  clear_value v3
  extract_lets -merge +onlyGivenNames v5
  have h6 : Keeps s0 v5 := (State.sppWrites_keeps h4)
  clear_value v5
  extract_lets -merge +onlyGivenNames v7
  have h8 : Keeps s0 v7 := (State.sppWrites_keeps h6)
  clear_value v7
  exact (State.sppWrites_keeps h8)

theorem State.whileOpen_keeps {s0 : State} {s : State} {g : Nat} {f : State → State} (h_1 : Keeps s0 s) (h_2 : ∀ y1, Keeps s0 y1 → Keeps s0 (f y1)) : Keeps s0 (@State.whileOpen s g f) := by
  unfold State.whileOpen
  exact (keeps_ite (h_2 _ h_1) h_1)

theorem State.profTable_keeps {s0 : State} {s : State} {g : Nat} {id : BitVec 16} {bs : List Byte} (h_1 : Keeps s0 s) : Keeps s0 (@State.profTable s g id bs) := by
  unfold State.profTable
  refine State.whileOpen_keeps h_1 ?_
  · intro _ h1
    split
    · extract_lets -merge +onlyGivenNames v8
      clear_value v8
      apply keeps_ite
      · exact h1
      · extract_lets -merge +onlyGivenNames v10
        have h11 : Keeps s0 v10 := (keeps_ite (State.writeTarn_keeps h1) h1)
        clear_value v10
        exact (State.groupTab_keeps h11)
    · exact (State.cmtReport_keeps (State.abortGroup_keeps h1))

theorem State.fillGroup_keeps {s0 : State} {s : State} {g : Nat} {p : Profile} {segs : List (BitVec 16 × Nat × BitVec 128 × List Byte)} (h_1 : Keeps s0 s) : Keeps s0 (@State.fillGroup s g p segs) := by
  unfold State.fillGroup
  extract_lets -merge +onlyGivenNames v1
  clear_value v1
  extract_lets -merge +onlyGivenNames v3
  clear_value v3
  extract_lets -merge +onlyGivenNames v5
  have h6 : Keeps s0 v5 := (foldl_keeps h_1 (fun _ _ h7 => (State.whileOpen_keeps h7 (fun _ h8 => (State.groupWord_keeps h8)))))
  clear_value v5
  extract_lets -merge +onlyGivenNames v9
  have h10 : Keeps s0 v9 := (foldl_keeps h6 (fun _ _ h11 => (State.profTable_keeps h11)))
  clear_value v9
  exact (foldl_keeps h10 (fun _ _ h12 => (State.whileOpen_keeps h12 (fun _ h13 => (State.groupTab_keeps h13)))))

theorem State.prfEnd_keeps {s0 : State} {s : State} {m : Option Msg} {st : Status} {r0 : Word} {r1 : Word} (h_1 : Keeps s0 s) : Keeps s0 (@State.prfEnd s m st r0 r1) := by
  unfold State.prfEnd
  split
  · exact (State.complete_keeps h_1)
  · exact h_1

theorem State.applyProfile_keeps {s0 : State} {s : State} {p : Profile} {m : Option Msg} {kind : Nat} {watch : Nat} (h_1 : Keeps s0 s) : Keeps s0 (@State.applyProfile s p m kind watch) := by
  unfold State.applyProfile
  apply keeps_ite
  · exact (State.prfEnd_keeps h_1)
  · apply keeps_ite
    · exact (State.prfEnd_keeps h_1)
    · extract_lets -merge +onlyGivenNames v1
      clear_value v1
      apply keeps_ite
      · exact (State.prfEnd_keeps h_1)
      · split
        · exact (State.prfEnd_keeps h_1)
        · rename_i w4 w5 e6
          have k7 : Keeps s0 w5 := OptK.of (State.openGroup_keeps h_1) e6
          extract_lets -merge +onlyGivenNames v8
          clear_value v8
          extract_lets -merge +onlyGivenNames v10
          clear_value v10
          extract_lets -merge +onlyGivenNames v12
          clear_value v12
          extract_lets -merge +onlyGivenNames v14
          clear_value v14
          extract_lets -merge +onlyGivenNames v16
          clear_value v16
          extract_lets -merge +onlyGivenNames v18
          have h19 : Keeps s0 v18 := (State.writeSettings_keeps k7)
          clear_value v18
          extract_lets -merge +onlyGivenNames v20
          have h21 : Keeps s0 v20 := (State.sppWrites_keeps h19)
          clear_value v20
          extract_lets -merge +onlyGivenNames v22
          clear_value v22
          extract_lets -merge +onlyGivenNames u24 v25
          clear_value u24
          have h27 : Keeps s0 v25 := (keeps_ite h21 (Keeps.upd h21))
          clear_value v25
          extract_lets -merge +onlyGivenNames v28
          have h29 : Keeps s0 v28 := (State.fillGroup_keeps h27)
          clear_value v28
          extract_lets -merge +onlyGivenNames v30
          have h31 : Keeps s0 v30 := by
            unfold v30
            refine State.whileOpen_keeps h29 ?_
            · intro _ h32
              refine PK.out2 ?_
              split
              · exact (State.commitGroup_keeps h32)
              · exact (State.commitGroup_keeps h32)
          clear_value v30
          extract_lets -merge +onlyGivenNames u34 v35
          clear_value u34
          have h37 : Keeps s0 v35 := (Keeps.upd h31)
          clear_value v35
          exact (keeps_ite (Keeps.upd h37) h37)

theorem State.movedProfiles_keeps {s0 : State} {s : State} {d : PrfPend} {n : Nat} (h_1 : Keeps s0 s) : Keeps s0 (@State.movedProfiles s d n) := by
  unfold State.movedProfiles
  extract_lets -merge +onlyGivenNames v1
  clear_value v1
  extract_lets -merge +onlyGivenNames v3
  clear_value v3
  extract_lets -merge +onlyGivenNames v5
  clear_value v5
  exact (State.showPver_keeps (Keeps.upd h_1))

theorem State.profileSwitched_keeps {s0 : State} {s : State} {n : Nat} {ports : Bool} (h_1 : Keeps s0 s) : Keeps s0 (@State.profileSwitched s n ports) := by
  unfold State.profileSwitched
  extract_lets -merge +onlyGivenNames v1
  have h2 : Keeps s0 v1 := (setLeads_keeps h_1)
  clear_value v1
  extract_lets -merge +onlyGivenNames v3
  have h4 : Keeps s0 v3 := (foldl_keeps h2 (fun _ _ h5 => (State.setRates_keeps (State.setHmin_keeps h5))))
  clear_value v3
  extract_lets -merge +onlyGivenNames v6
  have h7 : Keeps s0 v6 := (keeps_ite (foldl_keeps h4 (fun _ _ h8 => (keeps_ite h8 (State.writeHlpCtl_keeps h8)))) h4)
  clear_value v6
  exact (State.dmcFrame_keeps (State.dropPeriods_keeps (Keeps.upd h7)))

theorem State.prfApplied_keeps {s0 : State} {s : State} {d : PrfPend} (h_1 : Keeps s0 s) : Keeps s0 (@State.prfApplied s d) := by
  unfold State.prfApplied
  extract_lets -merge +onlyGivenNames v1
  extract_lets -merge +onlyGivenNames v3
  clear_value v3
  extract_lets -merge +onlyGivenNames v5
  clear_value v5
  extract_lets -merge +onlyGivenNames v7
  have h8 : Keeps s0 v7 := (State.sppWrites_keeps h_1)
  clear_value v7
  extract_lets -merge +onlyGivenNames v9
  clear_value v9
  extract_lets -merge +onlyGivenNames v11
  have h12 : Keeps s0 v11 := (State.cgaGroup_keeps (State.profileSwitched_keeps (State.movedProfiles_keeps h8)))
  clear_value v11
  extract_lets -merge +onlyGivenNames v13
  have h14 : Keeps s0 v13 := (keeps_ite (State.hostEvent_keeps h12) h12)
  clear_value v13
  exact (State.prfEnd_keeps h14)

theorem State.prfAborted_keeps {s0 : State} {s : State} {d : PrfPend} (h_1 : Keeps s0 s) : Keeps s0 (@State.prfAborted s d) := by
  unfold State.prfAborted
  extract_lets -merge +onlyGivenNames v1
  clear_value v1
  extract_lets -merge +onlyGivenNames v3
  have h4 : Keeps s0 v3 := (State.writeSettings_keeps h_1)
  clear_value v3
  extract_lets -merge +onlyGivenNames v5
  have h6 : Keeps s0 v5 := (State.sppWrites_keeps h4)
  clear_value v5
  extract_lets -merge +onlyGivenNames u7 v8
  clear_value u7
  have h10 : Keeps s0 v8 := (State.cgaGroup_keeps (Keeps.upd h6))
  clear_value v8
  extract_lets -merge +onlyGivenNames v11
  have h12 : Keeps s0 v11 := (State.prfEnd_keeps h10)
  clear_value v11
  exact (keeps_ite (State.applyProfile_keeps h12) h12)

theorem State.prfSettle_keeps {s0 : State} {s : State} (h_1 : Keeps s0 s) : Keeps s0 (@State.prfSettle s) := by
  unfold State.prfSettle
  split
  · exact h_1
  · extract_lets -merge +onlyGivenNames v4
    clear_value v4
    exact (keeps_ite (State.prfApplied_keeps h_1) (keeps_ite (State.prfAborted_keeps h_1) h_1))

theorem State.moveProfile_keeps {s0 : State} {s : State} {p : Profile} {m : Option Msg} {kind : Nat} {watch : Nat} (h_1 : Keeps s0 s) : Keeps s0 (@State.moveProfile s p m kind watch) := by
  unfold State.moveProfile
  exact (State.prfSettle_keeps (State.applyProfile_keeps h_1))

theorem doPrfProve_keeps {s0 : State} {tok : Nat} {s : State} (h_1 : Keeps s0 s) : Keeps s0 (@doPrfProve tok s) := by
  unfold doPrfProve
  split
  · exact h_1
  · apply keeps_ite
    · exact h_1
    · apply keeps_ite
      · exact (State.complete_keeps h_1)
      · split
        · exact (State.complete_keeps h_1)
        · exact (keeps_ite (State.complete_keeps h_1) (State.moveProfile_keeps h_1))

theorem execPrfProve_keeps {s0 : State} {tok : Nat} {s : State} (h_1 : Keeps s0 s) : ∃ sn, @execPrfProve tok s = .next sn ∧ Keeps s0 sn := by
  unfold execPrfProve
  exact ⟨_, rfl, (doPrfProve_keeps h_1)⟩

theorem doPrfPromote_keeps {s0 : State} {tok : Nat} {s : State} (h_1 : Keeps s0 s) : Keeps s0 (@doPrfPromote tok s) := by
  unfold doPrfPromote
  split
  · exact h_1
  · split
    · exact (State.complete_keeps h_1)
    · extract_lets -merge +onlyGivenNames v7
      clear_value v7
      extract_lets -merge +onlyGivenNames v9
      have h10 : Keeps s0 v9 := (Keeps.upd h_1)
      clear_value v9
      exact (State.complete_keeps (State.showPver_keeps h10))

theorem execPrfPromote_keeps {s0 : State} {tok : Nat} {s : State} (h_1 : Keeps s0 s) : ∃ sn, @execPrfPromote tok s = .next sn ∧ Keeps s0 sn := by
  unfold execPrfPromote
  exact ⟨_, rfl, (doPrfPromote_keeps h_1)⟩

theorem doPrfAbandon_keeps {s0 : State} {tok : Nat} {s : State} (h_1 : Keeps s0 s) : Keeps s0 (@doPrfAbandon tok s) := by
  unfold doPrfAbandon
  split
  · exact h_1
  · exact (keeps_ite h_1 (keeps_ite (State.complete_keeps h_1) (State.moveProfile_keeps h_1)))

theorem execPrfAbandon_keeps {s0 : State} {tok : Nat} {s : State} (h_1 : Keeps s0 s) : ∃ sn, @execPrfAbandon tok s = .next sn ∧ Keeps s0 sn := by
  unfold execPrfAbandon
  exact ⟨_, rfl, (doPrfAbandon_keeps h_1)⟩

theorem doPrfRollback_keeps {s0 : State} {tok : Nat} {s : State} (h_1 : Keeps s0 s) : Keeps s0 (@doPrfRollback tok s) := by
  unfold doPrfRollback
  split
  · exact h_1
  · apply keeps_ite
    · exact h_1
    · split
      · exact (State.complete_keeps h_1)
      · exact (keeps_ite (State.complete_keeps h_1) (State.moveProfile_keeps h_1))

theorem execPrfRollback_keeps {s0 : State} {tok : Nat} {s : State} (h_1 : Keeps s0 s) : ∃ sn, @execPrfRollback tok s = .next sn ∧ Keeps s0 sn := by
  unfold execPrfRollback
  exact ⟨_, rfl, (doPrfRollback_keeps h_1)⟩

theorem doPrfStarter_keeps {s0 : State} {tok : Nat} {s : State} (h_1 : Keeps s0 s) : Keeps s0 (@doPrfStarter tok s) := by
  unfold doPrfStarter
  split
  · exact h_1
  · exact (keeps_ite h_1 (State.moveProfile_keeps h_1))

theorem execPrfStarter_keeps {s0 : State} {tok : Nat} {s : State} (h_1 : Keeps s0 s) : ∃ sn, @execPrfStarter tok s = .next sn ∧ Keeps s0 sn := by
  unfold execPrfStarter
  exact ⟨_, rfl, (doPrfStarter_keeps h_1)⟩

theorem doPrfStatus_keeps {s0 : State} {tok : Nat} {ok : Bool} {s : State} (h_1 : Keeps s0 s) : Keeps s0 (@doPrfStatus tok ok s) := by
  unfold doPrfStatus
  split
  · exact h_1
  · apply keeps_ite
    · exact (State.complete_keeps h_1)
    · apply keeps_ite
      · exact (State.hostFail_keeps h_1)
      · extract_lets -merge +onlyGivenNames v4
        clear_value v4
        extract_lets -merge +onlyGivenNames v6
        clear_value v6
        extract_lets -merge +onlyGivenNames v8
        have h9 : Keeps s0 v8 := (State.writeHost_keeps h_1)
        clear_value v8
        exact (State.complete_keeps h9)

theorem execPrfStatus_keeps {s0 : State} {tok : Nat} {ok : Bool} {s : State} (h_1 : Keeps s0 s) : ∃ sn, @execPrfStatus tok ok s = .next sn ∧ Keeps s0 sn := by
  unfold execPrfStatus
  exact ⟨_, rfl, (doPrfStatus_keeps h_1)⟩

theorem State.revertProfile_keeps {s0 : State} {s : State} (h_1 : Keeps s0 s) : Keeps s0 (@State.revertProfile s) := by
  unfold State.revertProfile
  apply keeps_ite
  · exact h_1
  · extract_lets -merge +onlyGivenNames v1
    have h2 : Keeps s0 v1 := (State.report_keeps h_1)
    clear_value v1
    extract_lets -merge +onlyGivenNames u3 v4
    clear_value u3
    have h6 : Keeps s0 v4 := (Keeps.upd h2)
    clear_value v4
    exact (State.moveProfile_keeps h6)

end Sys2Proof.Machine
end

