-- ==== Sys2Proof/Laws/KeepsJob.lean ====
section
/-! SUPPORT. What every operation and every command of Machine/Job.lean keeps (Keeps). -/

set_option Elab.async false

namespace Sys2Proof.Machine

theorem State.newJobReports_keeps {s0 : State} {s : State} (h_1 : Keeps s0 s) : Keeps s0 (@State.newJobReports s) := by
  unfold State.newJobReports
  exact (Keeps.upd h_1)

theorem doJobOpen_keeps {s0 : State} {tok : Nat} {s : State} (h_1 : Keeps s0 s) : Keeps s0 (@doJobOpen tok s) := by
  unfold doJobOpen
  split
  · exact h_1
  · extract_lets -merge +onlyGivenNames v4
    clear_value v4
    extract_lets -merge +onlyGivenNames v6
    clear_value v6
    extract_lets -merge +onlyGivenNames v8
    clear_value v8
    apply keeps_ite
    · exact (State.complete_keeps h_1)
    · apply keeps_ite
      · exact (State.complete_keeps h_1)
      · apply keeps_ite
        · exact (State.complete_keeps h_1)
        · extract_lets -merge +onlyGivenNames v10
          clear_value v10
          extract_lets -merge +onlyGivenNames v12
          clear_value v12
          extract_lets -merge +onlyGivenNames u14 u15 v16
          clear_value u14
          clear_value u15
          have h19 : Keeps s0 v16 := (Keeps.upd h_1)
          clear_value v16
          exact (State.complete_keeps (setLeads_keeps (State.newJobReports_keeps h19)))

theorem execJobOpen_keeps {s0 : State} {tok : Nat} {s : State} (h_1 : Keeps s0 s) : ∃ sn, @execJobOpen tok s = .next sn ∧ Keeps s0 sn := by
  unfold execJobOpen
  exact ⟨_, rfl, (doJobOpen_keeps h_1)⟩

theorem State.addPanel_keeps {s0 : State} {s : State} {j : Job} {p : Panel} {bytes : Nat} (h_1 : Keeps s0 s) : Keeps s0 (@State.addPanel s j p bytes) := by
  unfold State.addPanel
  extract_lets -merge +onlyGivenNames v1
  clear_value v1
  extract_lets -merge +onlyGivenNames v3
  have h4 : Keeps s0 v3 := (keeps_ite (State.writeDram_keeps h_1) (State.dramRange_keeps h_1))
  clear_value v3
  extract_lets -merge +onlyGivenNames v5
  have h6 : Keeps s0 v5 := (State.bufWrite_keeps h4)
  clear_value v5
  exact (Keeps.upd h6)

theorem doPanelDefine_keeps {s0 : State} {tok : Nat} {s : State} (h_1 : Keeps s0 s) : Keeps s0 (@doPanelDefine tok s) := by
  unfold doPanelDefine
  split
  · exact h_1
  · split
    · exact (State.complete_keeps h_1)
    · apply keeps_ite
      · exact (State.complete_keeps h_1)
      · extract_lets -merge +onlyGivenNames v7
        clear_value v7
        extract_lets -merge +onlyGivenNames v9
        clear_value v9
        extract_lets -merge +onlyGivenNames v11
        clear_value v11
        split
        · exact (State.complete_keeps h_1)
        · extract_lets -merge +onlyGivenNames v16
          clear_value v16
          apply keeps_ite
          · exact (State.complete_keeps h_1)
          · extract_lets -merge +onlyGivenNames v18
            clear_value v18
            exact (State.complete_keeps (State.addPanel_keeps h_1))

theorem execPanelDefine_keeps {s0 : State} {tok : Nat} {s : State} (h_1 : Keeps s0 s) : ∃ sn, @execPanelDefine tok s = .next sn ∧ Keeps s0 sn := by
  unfold execPanelDefine
  exact ⟨_, rfl, (doPanelDefine_keeps h_1)⟩

theorem doJobClose_keeps {s0 : State} {tok : Nat} {s : State} (h_1 : Keeps s0 s) : Keeps s0 (@doJobClose tok s) := by
  unfold doJobClose
  split
  · exact h_1
  · split
    · exact (State.complete_keeps h_1)
    · exact (keeps_ite (State.complete_keeps h_1) (State.complete_keeps (Keeps.upd h_1)))

theorem execJobClose_keeps {s0 : State} {tok : Nat} {s : State} (h_1 : Keeps s0 s) : ∃ sn, @execJobClose tok s = .next sn ∧ Keeps s0 sn := by
  unfold execJobClose
  exact ⟨_, rfl, (doJobClose_keeps h_1)⟩

theorem State.stopAll_keeps {s0 : State} {s : State} {kind : Nat} {m : Msg} {line : Nat} {at_ : Nat → Nat} (h_1 : Keeps s0 s) : Keeps s0 (@State.stopAll s kind m line at_) := by
  unfold State.stopAll
  extract_lets -merge +onlyGivenNames u1 v2
  clear_value u1
  have h4 : Keeps s0 v2 := (Keeps.upd h_1)
  clear_value v2
  extract_lets -merge +onlyGivenNames v5
  clear_value v5
  exact (keeps_ite (State.checkStopped_keeps h4) (foldl_keeps h4 (fun _ _ h7 => (State.stopBar_keeps h7))))

theorem doJobCancel_keeps {s0 : State} {tok : Nat} {s : State} (h_1 : Keeps s0 s) : Keeps s0 (@doJobCancel tok s) := by
  unfold doJobCancel
  split
  · exact h_1
  · exact (keeps_ite h_1 (keeps_ite (State.complete_keeps h_1) (State.stopAll_keeps (State.abortIngests_keeps (State.abortPrint_keeps h_1)))))

theorem execJobCancel_keeps {s0 : State} {tok : Nat} {s : State} (h_1 : Keeps s0 s) : ∃ sn, @execJobCancel tok s = .next sn ∧ Keeps s0 sn := by
  unfold execJobCancel
  exact ⟨_, rfl, (doJobCancel_keeps h_1)⟩

theorem State.launch_keeps {s0 : State} {s : State} {j : Job} {n : Nat} (h_1 : Keeps s0 s) : Keeps s0 (@State.launch s j n) := by
  unfold State.launch
  extract_lets -merge +onlyGivenNames v1
  clear_value v1
  extract_lets -merge +onlyGivenNames v3
  have h4 : Keeps s0 v3 := (foldl_keeps h_1 (fun _ _ h5 => (keeps_ite (State.startBar_keeps h5) (State.report_keeps h5))))
  clear_value v3
  extract_lets -merge +onlyGivenNames v6
  have h7 : Keeps s0 v6 := (State.setDev_keeps h4)
  clear_value v6
  split
  · extract_lets -merge +onlyGivenNames u12 v13
    clear_value u12
    have h15 : Keeps s0 v13 := (Keeps.upd h7)
    clear_value v13
    exact (foldl_keeps h15 (fun _ _ h16 => (State.stopBar_keeps h16)))
  · exact h7

theorem State.startAt_keeps {s0 : State} {s : State} {m : Msg} {j : Job} (h_1 : Keeps s0 s) : Keeps s0 (@State.startAt s m j) := by
  unfold State.startAt
  split
  · exact (State.complete_keeps h_1)
  · exact (State.complete_keeps h_1)
  · extract_lets -merge +onlyGivenNames v5
    clear_value v5
    extract_lets -merge +onlyGivenNames u7 v8
    clear_value u7
    have h10 : Keeps s0 v8 := (Keeps.upd h_1)
    clear_value v8
    exact (State.complete_keeps (State.launch_keeps h10))

theorem doPrintStart_keeps {s0 : State} {tok : Nat} {s : State} (h_1 : Keeps s0 s) : Keeps s0 (@doPrintStart tok s) := by
  unfold doPrintStart
  split
  · exact h_1
  · split
    · exact (State.complete_keeps h_1)
    · exact (keeps_ite (State.complete_keeps h_1) (keeps_ite (State.complete_keeps h_1) (State.startAt_keeps h_1)))

theorem execPrintStart_keeps {s0 : State} {tok : Nat} {s : State} (h_1 : Keeps s0 s) : ∃ sn, @execPrintStart tok s = .next sn ∧ Keeps s0 sn := by
  unfold execPrintStart
  exact ⟨_, rfl, (doPrintStart_keeps h_1)⟩

theorem doPrintResume_keeps {s0 : State} {tok : Nat} {s : State} (h_1 : Keeps s0 s) : Keeps s0 (@doPrintResume tok s) := by
  unfold doPrintResume
  split
  · exact h_1
  · split
    · exact (State.complete_keeps h_1)
    · exact (keeps_ite (State.complete_keeps h_1) (keeps_ite (State.complete_keeps h_1) (State.startAt_keeps h_1)))

theorem execPrintResume_keeps {s0 : State} {tok : Nat} {s : State} (h_1 : Keeps s0 s) : ∃ sn, @execPrintResume tok s = .next sn ∧ Keeps s0 sn := by
  unfold execPrintResume
  exact ⟨_, rfl, (doPrintResume_keeps h_1)⟩

theorem doPrintPause_keeps {s0 : State} {tok : Nat} {s : State} (h_1 : Keeps s0 s) : Keeps s0 (@doPrintPause tok s) := by
  unfold doPrintPause
  split
  · exact h_1
  · apply keeps_ite
    · exact h_1
    · split
      · exact (State.complete_keeps h_1)
      · apply keeps_ite
        · exact (State.complete_keeps h_1)
        · apply keeps_ite
          · exact (State.complete_keeps h_1)
          · extract_lets -merge +onlyGivenNames v7
            clear_value v7
            exact (State.stopAll_keeps h_1)

theorem execPrintPause_keeps {s0 : State} {tok : Nat} {s : State} (h_1 : Keeps s0 s) : ∃ sn, @execPrintPause tok s = .next sn ∧ Keeps s0 sn := by
  unfold execPrintPause
  exact ⟨_, rfl, (doPrintPause_keeps h_1)⟩

theorem doPrintStop_keeps {s0 : State} {tok : Nat} {s : State} (h_1 : Keeps s0 s) : Keeps s0 (@doPrintStop tok s) := by
  unfold doPrintStop
  split
  · exact h_1
  · apply keeps_ite
    · exact h_1
    · split
      · exact (State.complete_keeps h_1)
      · apply keeps_ite
        · exact (State.complete_keeps h_1)
        · extract_lets -merge +onlyGivenNames v7
          clear_value v7
          exact (State.stopAll_keeps h_1)

theorem execPrintStop_keeps {s0 : State} {tok : Nat} {s : State} (h_1 : Keeps s0 s) : ∃ sn, @execPrintStop tok s = .next sn ∧ Keeps s0 sn := by
  unfold execPrintStop
  exact ⟨_, rfl, (doPrintStop_keeps h_1)⟩

theorem doMeasReadTelemetry_keeps {s0 : State} {tok : Nat} {ok : Bool} {s : State} (h_1 : Keeps s0 s) : Keeps s0 (@doMeasReadTelemetry tok ok s) := by
  unfold doMeasReadTelemetry
  exact (State.measRead_keeps h_1 (fun _ h1 => h1))

theorem execMeasReadTelemetry_keeps {s0 : State} {tok : Nat} {ok : Bool} {s : State} (h_1 : Keeps s0 s) : ∃ sn, @execMeasReadTelemetry tok ok s = .next sn ∧ Keeps s0 sn := by
  unfold execMeasReadTelemetry
  exact ⟨_, rfl, (doMeasReadTelemetry_keeps h_1)⟩

theorem doMeasReadCables_keeps {s0 : State} {tok : Nat} {ok : Bool} {s : State} (h_1 : Keeps s0 s) : Keeps s0 (@doMeasReadCables tok ok s) := by
  unfold doMeasReadCables
  exact (State.measRead_keeps h_1 (fun _ h1 => h1))

theorem execMeasReadCables_keeps {s0 : State} {tok : Nat} {ok : Bool} {s : State} (h_1 : Keeps s0 s) : ∃ sn, @execMeasReadCables tok ok s = .next sn ∧ Keeps s0 sn := by
  unfold execMeasReadCables
  exact ⟨_, rfl, (doMeasReadCables_keeps h_1)⟩

theorem doMeasReadSlack_keeps {s0 : State} {tok : Nat} {ok : Bool} {s : State} (h_1 : Keeps s0 s) : Keeps s0 (@doMeasReadSlack tok ok s) := by
  unfold doMeasReadSlack
  exact (State.measRead_keeps h_1 (fun _ h1 => h1))

theorem execMeasReadSlack_keeps {s0 : State} {tok : Nat} {ok : Bool} {s : State} (h_1 : Keeps s0 s) : ∃ sn, @execMeasReadSlack tok ok s = .next sn ∧ Keeps s0 sn := by
  unfold execMeasReadSlack
  exact ⟨_, rfl, (doMeasReadSlack_keeps h_1)⟩

theorem doMeasReadEncoders_keeps {s0 : State} {tok : Nat} {ok : Bool} {s : State} (h_1 : Keeps s0 s) : Keeps s0 (@doMeasReadEncoders tok ok s) := by
  unfold doMeasReadEncoders
  exact (State.measRead_keeps h_1 (fun _ h1 => h1))

theorem execMeasReadEncoders_keeps {s0 : State} {tok : Nat} {ok : Bool} {s : State} (h_1 : Keeps s0 s) : ∃ sn, @execMeasReadEncoders tok ok s = .next sn ∧ Keeps s0 sn := by
  unfold execMeasReadEncoders
  exact ⟨_, rfl, (doMeasReadEncoders_keeps h_1)⟩

theorem doMeasReadCapabilities_keeps {s0 : State} {tok : Nat} {ok : Bool} {s : State} (h_1 : Keeps s0 s) : Keeps s0 (@doMeasReadCapabilities tok ok s) := by
  unfold doMeasReadCapabilities
  exact (State.measRead_keeps h_1 (fun _ h1 => h1))

theorem execMeasReadCapabilities_keeps {s0 : State} {tok : Nat} {ok : Bool} {s : State} (h_1 : Keeps s0 s) : ∃ sn, @execMeasReadCapabilities tok ok s = .next sn ∧ Keeps s0 sn := by
  unfold execMeasReadCapabilities
  exact ⟨_, rfl, (doMeasReadCapabilities_keeps h_1)⟩

end Sys2Proof.Machine
end

