-- ==== Sys2Proof/Laws/KeepsBoot.lean ====
section
/-! SUPPORT. What every operation and every command of Machine/Boot.lean keeps (Keeps). -/

set_option Elab.async false

namespace Sys2Proof.Machine

theorem State.latchStraps_keeps {s0 : State} {s : State} {v : BitVec 3} (h_1 : Keeps s0 s) : Keeps s0 (@State.latchStraps s v) := by
  unfold State.latchStraps
  apply keeps_ite
  · exact h_1
  · extract_lets -merge +onlyGivenNames v1
    have h2 : Keeps s0 v1 := (State.wr_keeps h_1)
    clear_value v1
    exact (keeps_ite (State.report_keeps (State.set_keeps h2)) h2)

theorem State.resumeHours_keeps {s0 : State} {s : State} (h_1 : Keeps s0 s) : Keeps s0 (@State.resumeHours s) := by
  unfold State.resumeHours
  split
  · exact h_1
  · exact (Keeps.upd h_1)

theorem State.vauxEvents_keeps {s0 : State} {s : State} (h_1 : Keeps s0 s) : Keeps s0 (@State.vauxEvents s) := by
  unfold State.vauxEvents
  extract_lets -merge +onlyGivenNames v1
  clear_value v1
  extract_lets -merge +onlyGivenNames u3 u4 v5
  have h7 : Keeps s0 u4 := (Keeps.upd h_1)
  clear_value u4
  have h8 : Keeps s0 v5 := (keeps_ite h_1 (State.report_keeps (State.audit_keeps h7)))
  clear_value v5
  exact (keeps_ite h8 (State.audit_keeps (State.set_keeps (Keeps.upd h8))))

theorem State.loadTrims_keeps {s0 : State} {s : State} (h_1 : Keeps s0 s) : Keeps s0 (@State.loadTrims s) := by
  unfold State.loadTrims
  exact (foldl_keeps h_1 (fun _ _ h1 => (State.set_keeps h1)))

theorem State.loadOtp_keeps {s0 : State} {s : State} (h_1 : Keeps s0 s) : Keeps s0 (@State.loadOtp s) := by
  unfold State.loadOtp
  extract_lets -merge +onlyGivenNames v1
  have h2 : Keeps s0 v1 := (State.loadTrims_keeps (State.loadOtrec_keeps (State.loadLcs_keeps h_1)))
  clear_value v1
  exact (keeps_ite (State.report_keeps h2) h2)

theorem State.markAbsent_keeps {s0 : State} {s : State} (h_1 : Keeps s0 s) : Keeps s0 (@State.markAbsent s) := by
  unfold State.markAbsent
  exact (keeps_ite (foldl_keeps h_1 (fun _ _ h1 => (State.set_keeps h1))) h_1)

theorem State.bootAudit_keeps {s0 : State} {s : State} {code : Nat} (h_1 : Keeps s0 s) : Keeps s0 (@State.bootAudit s code) := by
  unfold State.bootAudit
  exact (State.audit_keeps (State.report_keeps h_1))

theorem State.verifyBoot_keeps {s0 : State} {s : State} {i : BootInfo} (h_1 : Keeps s0 s) : PK s0 (·.2) (@State.verifyBoot s i) := by
  unfold State.verifyBoot
  extract_lets -merge +onlyGivenNames v1
  extract_lets -merge +onlyGivenNames v3
  clear_value v3
  extract_lets -merge +onlyGivenNames v5
  clear_value v5
  extract_lets -merge +onlyGivenNames v7
  clear_value v7
  apply PK.ite
  · exact (PK.mk2 (State.report_keeps h_1))
  · apply PK.ite
    · exact (PK.mk2 h_1)
    · apply PK.ite
      · exact (PK.mk2 (State.bootAudit_keeps h_1))
      · extract_lets -merge +onlyGivenNames v9
        have h10 : Keeps s0 v9 := (keeps_ite h_1 (keeps_ite (State.bootAudit_keeps h_1) (State.bootAudit_keeps h_1)))
        clear_value v9
        exact (PK.ite (PK.mk2 (State.bootAudit_keeps h10)) (PK.mk2 h10))

theorem State.bootEngine_keeps {s0 : State} {s : State} {r : Nat} (h_1 : Keeps s0 s) : Keeps s0 (@State.bootEngine s r) := by
  unfold State.bootEngine
  split
  · rename_i w1 w2 e3
    have k4 : Keeps s0 w2 := PK.of (f := (·.2)) (State.drawFree_keeps h_1) e3
    extract_lets -merge +onlyGivenNames u5 v6
    clear_value u5
    have h8 : Keeps s0 v6 := (State.setEngine_keeps k4)
    clear_value v6
    exact (State.setEstate_keeps (State.set_keeps (State.set_keeps h8)))

theorem State.bootChan_keeps {s0 : State} {s : State} {c : Nat} {f : ChanFound} (h_1 : Keeps s0 s) : Keeps s0 (@State.bootChan s c f) := by
  unfold State.bootChan
  apply keeps_ite
  · exact h_1
  · extract_lets -merge +onlyGivenNames v1
    have h2 : ∀ a3, Keeps s0 a3 → Keeps s0 (v1 a3) := (fun _ h4 => (State.report_keeps (State.set_keeps h4)))
    clear_value v1
    split
    · exact (State.set_keeps h_1)
    · exact (h2 _ h_1)
    · apply keeps_ite
      · exact (h2 _ h_1)
      · extract_lets -merge +onlyGivenNames u6 v7
        have h9 : Keeps s0 v7 := (Keeps.upd h_1)
        clear_value v7
        extract_lets -merge +onlyGivenNames v10
        have h11 : Keeps s0 v10 := (State.set_keeps (State.set_keeps (State.set_keeps h9)))
        clear_value v10
        exact (State.set_keeps (State.set_keeps h11))

theorem State.matchPops_keeps {s0 : State} {s : State} (h_1 : Keeps s0 s) : Keeps s0 (@State.matchPops s) := by
  unfold State.matchPops
  extract_lets -merge +onlyGivenNames v1
  clear_value v1
  split
  · extract_lets -merge +onlyGivenNames v7
    clear_value v7
    extract_lets -merge +onlyGivenNames v9
    clear_value v9
    extract_lets -merge +onlyGivenNames v11
    have h12 : Keeps s0 v11 := (foldl_keeps h_1 (fun _ _ h13 => (State.set_keeps h13)))
    clear_value v11
    extract_lets -merge +onlyGivenNames v14
    have h15 : Keeps s0 v14 := (keeps_ite (State.set_keeps h12) h12)
    clear_value v14
    exact (keeps_ite (State.report_keeps h15) h15)
  · exact h_1

theorem State.bootDram_keeps {s0 : State} {s : State} {chans : Vector ChanFound 4} (h_1 : Keeps s0 s) : Keeps s0 (@State.bootDram s chans) := by
  unfold State.bootDram
  extract_lets -merge +onlyGivenNames v1
  have h2 : Keeps s0 v1 := (foldl_keeps h_1 (fun _ _ h3 => (State.bootChan_keeps h3)))
  clear_value v1
  split
  · rename_i w4 w5 e6
    have k7 : Keeps s0 w5 := PK.of (f := (·.2)) (State.drawFree_keeps h2) e6
    exact (State.matchPops_keeps (State.set_keeps k7))

theorem doBootStart_keeps {s0 : State} {i : BootInfo} {s : State} (h_1 : Keeps s0 s) : Keeps s0 (@doBootStart i s) := by
  unfold doBootStart
  apply keeps_ite
  · exact h_1
  · extract_lets -merge +onlyGivenNames u1 u2 v3
    have h4 : Keeps s0 u1 := (State.resumeHours_keeps h_1)
    clear_value u1
    have h6 : Keeps s0 v3 := h4.tarn (fun _ => rfl) (fun _ => rfl) (fun _ => rfl)
    clear_value v3
    extract_lets -merge +onlyGivenNames v7
    have h8 : Keeps s0 v7 := (State.markAbsent_keeps (State.latchStraps_keeps (State.loadOtp_keeps h6)))
    clear_value v7
    extract_lets -merge +onlyGivenNames v9
    have h10 : Keeps s0 v9 := (State.setDev_keeps (State.setLock_keeps h8))
    clear_value v9
    extract_lets -merge +onlyGivenNames u11 v12
    clear_value u11
    have h14 : Keeps s0 v12 := (Keeps.upd h10)
    clear_value v12
    extract_lets -merge +onlyGivenNames v15
    have h16 : Keeps s0 v15 := (keeps_ite (State.report_keeps h14) h14)
    clear_value v15
    extract_lets -merge +onlyGivenNames u17 v18
    clear_value u17
    have h20 : Keeps s0 v18 := (State.vauxEvents_keeps (Keeps.upd h16))
    clear_value v18
    split
    · rename_i w21 e22
      have k23 : Keeps s0 w21 := PK.of (f := (·.2)) (State.verifyBoot_keeps h20) e22
      exact k23
    · rename_i w24 e25
      have k26 : Keeps s0 w24 := PK.of (f := (·.2)) (State.verifyBoot_keeps h20) e25
      extract_lets -merge +onlyGivenNames u27 v28
      clear_value u27
      have h30 : Keeps s0 v28 := (foldl_keeps (Keeps.upd k26) (fun _ _ h31 => (State.bootEngine_keeps h31)))
      clear_value v28
      exact (State.bootDram_keeps h30)

theorem execBootStart_keeps {s0 : State} {i : BootInfo} {s : State} (h_1 : Keeps s0 s) : ∃ sn, @execBootStart i s = .next sn ∧ Keeps s0 sn := by
  unfold execBootStart
  exact ⟨_, rfl, (doBootStart_keeps h_1)⟩

theorem State.loadSlots_keeps {s0 : State} {s : State} {standing : Bool} {previous : Bool} (h_1 : Keeps s0 s) : Keeps s0 (@State.loadSlots s standing previous) := by
  unfold State.loadSlots
  extract_lets -merge +onlyGivenNames v1
  clear_value v1
  extract_lets -merge +onlyGivenNames v3
  clear_value v3
  exact (State.showPver_keeps (Keeps.upd h_1))

theorem State.loadMap_keeps {s0 : State} {s : State} (h_1 : Keeps s0 s) : Keeps s0 (@State.loadMap s) := by
  unfold State.loadMap
  split
  · exact h_1
  · exact (State.bufWrite_keeps h_1)

theorem doBootComplete_keeps {s0 : State} {standing : Bool} {previous : Bool} {s : State} (h_1 : Keeps s0 s) : Keeps s0 (@doBootComplete standing previous s) := by
  unfold doBootComplete
  apply keeps_ite
  · exact h_1
  · extract_lets -merge +onlyGivenNames v1
    have h2 : Keeps s0 v1 := (State.sppWrites_keeps h_1)
    clear_value v1
    extract_lets -merge +onlyGivenNames v3
    have h4 : Keeps s0 v3 := (State.loadSlots_keeps h2)
    clear_value v3
    extract_lets -merge +onlyGivenNames v5
    have h6 : Keeps s0 v5 := (State.loadMap_keeps (State.moveProfile_keeps h4))
    clear_value v5
    extract_lets -merge +onlyGivenNames v7
    have h8 : Keeps s0 v7 := (State.set_keeps h6)
    clear_value v7
    exact (State.setDev_keeps (State.setFeatoff_keeps h8))

theorem execBootComplete_keeps {s0 : State} {standing : Bool} {previous : Bool} {s : State} (h_1 : Keeps s0 s) : ∃ sn, @execBootComplete standing previous s = .next sn ∧ Keeps s0 sn := by
  unfold execBootComplete
  exact ⟨_, rfl, (doBootComplete_keeps h_1)⟩

end Sys2Proof.Machine
end

