-- ==== Sys2Proof/Laws/KeepsCheckpoint.lean ====
section
/-! SUPPORT. What every operation and every command of Machine/Checkpoint.lean keeps (Keeps). -/

set_option Elab.async false

namespace Sys2Proof.Machine

theorem State.readBank_keeps {s0 : State} {s : State} {a : Nat} (h_1 : Keeps s0 s) : PK s0 (·.2) (@State.readBank s a) := by
  unfold State.readBank
  extract_lets -merge +onlyGivenNames v1
  have h2 : PK s0 (·.st) v1 := (State.readTarn_keeps h_1)
  clear_value v1
  extract_lets -merge +onlyGivenNames v3
  clear_value v3
  apply PK.ite
  · exact (PK.mk2 (PK.out h2))
  · extract_lets -merge +onlyGivenNames v5
    have h6 : PK s0 (·.st) v5 := (State.readTarn_keeps (PK.out h2))
    clear_value v5
    exact (PK.ite (PK.mk2 (PK.out h6)) (PK.mk2 (PK.out h6)))

theorem State.currentBank_keeps {s0 : State} {s : State} {slot : Nat} (h_1 : Keeps s0 s) : PK s0 (·.2) (@State.currentBank s slot) := by
  unfold State.currentBank
  split
  · rename_i w1 w2 e3
    have k4 : Keeps s0 w2 := PK.of (f := (·.2)) (State.readBank_keeps h_1) e3
    split
    · rename_i w5 w6 e7
      have k8 : Keeps s0 w6 := PK.of (f := (·.2)) (State.readBank_keeps k4) e7
      exact (PK.mk2 k8)

theorem doCkpt_keeps {s0 : State} {e : Eng} {w : FmtA} {s : State} (h_1 : Keeps s0 s) : Keeps s0 (@doCkpt e w s) := by
  unfold doCkpt
  refine State.execA_keeps h_1 ?_
  · intro _ h1
    extract_lets -merge +onlyGivenNames v2
    clear_value v2
    extract_lets -merge +onlyGivenNames v4
    clear_value v4
    extract_lets -merge +onlyGivenNames v6
    clear_value v6
    extract_lets -merge +onlyGivenNames v8
    clear_value v8
    apply keeps_ite
    · exact (State.trap_keeps h1)
    · apply keeps_ite
      · exact (State.trap_keeps h1)
      · apply keeps_ite
        · exact (State.trap_keeps h1)
        · apply keeps_ite
          · exact (State.trap_keeps h1)
          · extract_lets -merge +onlyGivenNames v10
            have h11 : PK s0 (·.st) v10 := (State.readLocal_keeps h1)
            clear_value v10
            apply keeps_ite
            · exact (State.trap_keeps (PK.out h11))
            · split
              · rename_i w12 w13 e14
                have k15 : Keeps s0 w13 := PK.of (f := (·.2)) (State.currentBank_keeps (PK.out h11)) e14
                split
                · extract_lets -merge +onlyGivenNames v19
                  clear_value v19
                  extract_lets -merge +onlyGivenNames v21
                  clear_value v21
                  extract_lets -merge +onlyGivenNames v23
                  clear_value v23
                  extract_lets -merge +onlyGivenNames v25
                  have h26 : Keeps s0 v25 := (State.writeTarnGuarded_keeps k15)
                  clear_value v25
                  extract_lets -merge +onlyGivenNames v27
                  have h28 : Keeps s0 v27 := (State.writeTarnGuarded_keeps h26)
                  clear_value v27
                  exact (State.setD_keeps h28)

theorem execCkpt_keeps {s0 : State} {e : Eng} {w : FmtA} {s : State} (h_1 : Keeps s0 s) : ∃ sn, @execCkpt e w s = .next sn ∧ Keeps s0 sn := by
  unfold execCkpt
  exact ⟨_, rfl, (doCkpt_keeps h_1)⟩

theorem doRstr_keeps {s0 : State} {e : Eng} {w : FmtA} {s : State} (h_1 : Keeps s0 s) : Keeps s0 (@doRstr e w s) := by
  unfold doRstr
  refine State.execA_keeps h_1 ?_
  · intro _ h1
    extract_lets -merge +onlyGivenNames v2
    clear_value v2
    extract_lets -merge +onlyGivenNames v4
    clear_value v4
    extract_lets -merge +onlyGivenNames v6
    clear_value v6
    apply keeps_ite
    · exact (State.trap_keeps h1)
    · apply keeps_ite
      · exact (State.trap_keeps h1)
      · apply keeps_ite
        · exact (State.trap_keeps h1)
        · split
          · rename_i w8 e9
            have k10 : Keeps s0 w8 := PK.of (f := (·.2)) (State.currentBank_keeps h1) e9
            exact (State.setD_keeps k10)
          · rename_i w11 w12 w13 e14
            have k15 : Keeps s0 w13 := PK.of (f := (·.2)) (State.currentBank_keeps h1) e14
            apply keeps_ite
            · exact (State.trap_keeps k15)
            · extract_lets -merge +onlyGivenNames v16
              have h17 : Keeps s0 v16 := (State.writeLocal_keeps k15)
              clear_value v16
              extract_lets -merge +onlyGivenNames u18 v19
              clear_value u18
              have h21 : Keeps s0 v19 := (State.setEngine_keeps h17)
              clear_value v19
              exact (State.setD_keeps h21)

theorem execRstr_keeps {s0 : State} {e : Eng} {w : FmtA} {s : State} (h_1 : Keeps s0 s) : ∃ sn, @execRstr e w s = .next sn ∧ Keeps s0 sn := by
  unfold execRstr
  exact ⟨_, rfl, (doRstr_keeps h_1)⟩

end Sys2Proof.Machine
end

