-- ==== Sys2Proof/Laws/KeepsControl.lean ====
section
/-! SUPPORT. What every operation and every command of Machine/Control.lean keeps (Keeps). -/

set_option Elab.async false

namespace Sys2Proof.Machine

theorem State.jumpTo_keeps {s0 : State} {s : State} {e : Nat} {x : Engine} {target : DWord} (h_1 : Keeps s0 s) : Keeps s0 (@State.jumpTo s e x target) := by
  unfold State.jumpTo
  exact (keeps_ite (State.trap_keeps h_1) (keeps_ite (State.trap_keeps h_1) (State.setEngine_keeps h_1)))

theorem doBr_keeps {s0 : State} {e : Eng} {w : FmtB} {s : State} (h_1 : Keeps s0 s) : Keeps s0 (@doBr e w s) := by
  unfold doBr
  refine State.execAt_keeps h_1 ?_
  · intro _ h1
    extract_lets -merge +onlyGivenNames v2
    clear_value v2
    extract_lets -merge +onlyGivenNames v4
    clear_value v4
    exact (State.jumpTo_keeps h1)

theorem execBr_keeps {s0 : State} {e : Eng} {w : FmtB} {s : State} (h_1 : Keeps s0 s) : ∃ sn, @execBr e w s = .next sn ∧ Keeps s0 sn := by
  unfold execBr
  exact ⟨_, rfl, (doBr_keeps h_1)⟩

theorem doJmpr_keeps {s0 : State} {e : Eng} {w : FmtA} {s : State} (h_1 : Keeps s0 s) : Keeps s0 (@doJmpr e w s) := by
  unfold doJmpr
  refine State.execA_keeps h_1 ?_
  · intro _ h1
    extract_lets -merge +onlyGivenNames v2
    clear_value v2
    exact (State.jumpTo_keeps h1)

theorem execJmpr_keeps {s0 : State} {e : Eng} {w : FmtA} {s : State} (h_1 : Keeps s0 s) : ∃ sn, @execJmpr e w s = .next sn ∧ Keeps s0 sn := by
  unfold execJmpr
  exact ⟨_, rfl, (doJmpr_keeps h_1)⟩

theorem doTrap_keeps {s0 : State} {e : Eng} {w : FmtA} {s : State} (h_1 : Keeps s0 s) : Keeps s0 (@doTrap e w s) := by
  unfold doTrap
  exact (State.execA_keeps h_1 (fun _ h1 => (State.trap_keeps h1)))

theorem execTrap_keeps {s0 : State} {e : Eng} {w : FmtA} {s : State} (h_1 : Keeps s0 s) : ∃ sn, @execTrap e w s = .next sn ∧ Keeps s0 sn := by
  unfold execTrap
  exact ⟨_, rfl, (doTrap_keeps h_1)⟩

theorem doRett_keeps {s0 : State} {e : Eng} {w : FmtA} {s : State} (h_1 : Keeps s0 s) : Keeps s0 (@doRett e w s) := by
  unfold doRett
  refine State.execA_keeps h_1 ?_
  · intro _ h1
    extract_lets -merge +onlyGivenNames v2
    clear_value v2
    apply keeps_ite
    · exact (State.trap_keeps h1)
    · extract_lets -merge +onlyGivenNames v4
      clear_value v4
      extract_lets -merge +onlyGivenNames v6
      clear_value v6
      exact (State.setEngine_keeps h1)

theorem execRett_keeps {s0 : State} {e : Eng} {w : FmtA} {s : State} (h_1 : Keeps s0 s) : ∃ sn, @execRett e w s = .next sn ∧ Keeps s0 sn := by
  unfold execRett
  exact ⟨_, rfl, (doRett_keeps h_1)⟩

theorem doHalt_keeps {s0 : State} {e : Eng} {w : FmtA} {s : State} (h_1 : Keeps s0 s) : Keeps s0 (@doHalt e w s) := by
  unfold doHalt
  exact (State.execA_keeps h_1 (fun _ h1 => (State.stopEngine_keeps (State.retire_keeps h1))))

theorem execHalt_keeps {s0 : State} {e : Eng} {w : FmtA} {s : State} (h_1 : Keeps s0 s) : ∃ sn, @execHalt e w s = .next sn ∧ Keeps s0 sn := by
  unfold execHalt
  exact ⟨_, rfl, (doHalt_keeps h_1)⟩

theorem doNop_keeps {s0 : State} {e : Eng} {w : FmtA} {s : State} (h_1 : Keeps s0 s) : Keeps s0 (@doNop e w s) := by
  unfold doNop
  exact (State.execA_keeps h_1 (fun _ h1 => (State.retire_keeps h1)))

theorem execNop_keeps {s0 : State} {e : Eng} {w : FmtA} {s : State} (h_1 : Keeps s0 s) : ∃ sn, @execNop e w s = .next sn ∧ Keeps s0 sn := by
  unfold execNop
  exact ⟨_, rfl, (doNop_keeps h_1)⟩

theorem doMfs_keeps {s0 : State} {e : Eng} {w : FmtS} {s : State} (h_1 : Keeps s0 s) : Keeps s0 (@doMfs e w s) := by
  unfold doMfs
  exact (State.execAt_keeps h_1 (fun _ h1 => (State.retire_keeps h1)))

theorem execMfs_keeps {s0 : State} {e : Eng} {w : FmtS} {s : State} (h_1 : Keeps s0 s) : ∃ sn, @execMfs e w s = .next sn ∧ Keeps s0 sn := by
  unfold execMfs
  exact ⟨_, rfl, (doMfs_keeps h_1)⟩

theorem doMts_keeps {s0 : State} {e : Eng} {w : FmtS} {s : State} (h_1 : Keeps s0 s) : Keeps s0 (@doMts e w s) := by
  unfold doMts
  refine State.execAt_keeps h_1 ?_
  · intro _ h1
    extract_lets -merge +onlyGivenNames v2
    clear_value v2
    exact (State.retire_keeps h1)

theorem execMts_keeps {s0 : State} {e : Eng} {w : FmtS} {s : State} (h_1 : Keeps s0 s) : ∃ sn, @execMts e w s = .next sn ∧ Keeps s0 sn := by
  unfold execMts
  exact ⟨_, rfl, (doMts_keeps h_1)⟩

theorem doSelft_keeps {s0 : State} {e : Eng} {w : FmtA} {mismatch : DWord} {s : State} (h_1 : Keeps s0 s) : Keeps s0 (@doSelft e w mismatch s) := by
  unfold doSelft
  exact (State.execA_keeps h_1 (fun _ h1 => (State.setD_keeps h1)))

theorem execSelft_keeps {s0 : State} {e : Eng} {w : FmtA} {mismatch : DWord} {s : State} (h_1 : Keeps s0 s) : ∃ sn, @execSelft e w mismatch s = .next sn ∧ Keeps s0 sn := by
  unfold execSelft
  exact ⟨_, rfl, (doSelft_keeps h_1)⟩

theorem doFence_keeps {s0 : State} {e : Eng} {w : FmtA} {s : State} (h_1 : Keeps s0 s) : Keeps s0 (@doFence e w s) := by
  unfold doFence
  exact (State.execA_keeps h_1 (fun _ h1 => (State.retire_keeps h1)))

theorem execFence_keeps {s0 : State} {e : Eng} {w : FmtA} {s : State} (h_1 : Keeps s0 s) : ∃ sn, @execFence e w s = .next sn ∧ Keeps s0 sn := by
  unfold execFence
  exact ⟨_, rfl, (doFence_keeps h_1)⟩

end Sys2Proof.Machine
end

