-- ==== Sys2Proof/Laws/KeepsEngIo.lean ====
section
/-! SUPPORT. What every operation and every command of Machine/EngIo.lean keeps (Keeps). -/

set_option Elab.async false

namespace Sys2Proof.Machine

theorem State.loadMem_keeps {s0 : State} {s : State} {e : Nat} {d : BitVec 5} {a : DWord} {sz : Nat} {sgn : Bool} {words : Nat} (h_1 : Keeps s0 s) : Keeps s0 (@State.loadMem s e d a sz sgn words) := by
  unfold State.loadMem
  extract_lets -merge +onlyGivenNames v1
  clear_value v1
  extract_lets -merge +onlyGivenNames v3
  clear_value v3
  apply keeps_ite
  · exact (State.trap_keeps h_1)
  · apply keeps_ite
    · extract_lets -merge +onlyGivenNames v5
      have h6 : PK s0 (·.st) v5 := (PK.ite (State.readLocal_keeps h_1) (State.readTarn_keeps h_1))
      clear_value v5
      exact (keeps_ite (State.trap_keeps (PK.out h6)) (State.setD_keeps (PK.out h6)))
    · apply keeps_ite
      · exact (State.trap_keeps h_1)
      · apply keeps_ite
        · exact (State.trap_keeps h_1)
        · apply keeps_ite
          · exact (State.trap_keeps h_1)
          · split
            · rename_i w7 w8 e9
              have k10 : Keeps s0 w8 := PK.of (f := (·.2)) (State.ioRead_keeps h_1) e9
              exact (State.setD_keeps k10)

theorem State.storeMem_keeps {s0 : State} {s : State} {e : Eng} {d : BitVec 5} {a : DWord} {sz : Nat} {words : Nat} (h_1 : Keeps s0 s) : Keeps s0 (@State.storeMem s e d a sz words) := by
  unfold State.storeMem
  extract_lets -merge +onlyGivenNames v1
  clear_value v1
  extract_lets -merge +onlyGivenNames v3
  clear_value v3
  extract_lets -merge +onlyGivenNames v5
  clear_value v5
  extract_lets -merge +onlyGivenNames v7
  clear_value v7
  apply keeps_ite
  · exact (State.trap_keeps h_1)
  · apply keeps_ite
    · extract_lets -merge +onlyGivenNames v9
      have h10 : Keeps s0 v9 := (State.writeLocal_keeps h_1)
      clear_value v9
      exact (State.retire_keeps h10)
    · apply keeps_ite
      · extract_lets -merge +onlyGivenNames v11
        have h12 : Keeps s0 v11 := (State.writeTarnGuarded_keeps h_1)
        clear_value v11
        exact (State.retire_keeps h12)
      · apply keeps_ite
        · exact (State.trap_keeps h_1)
        · apply keeps_ite
          · exact (State.trap_keeps h_1)
          · apply keeps_ite
            · exact (State.trap_keeps h_1)
            · extract_lets -merge +onlyGivenNames v13
              have h14 : Keeps s0 v13 := (doRegisterWrite_keeps h_1)
              clear_value v13
              exact (keeps_ite h14 (State.retire_keeps h14))

theorem doLd_keeps {s0 : State} {e : Eng} {w : FmtM} {s : State} (h_1 : Keeps s0 s) : Keeps s0 (@doLd e w s) := by
  unfold doLd
  exact (State.execAt_keeps h_1 (fun _ h1 => (State.loadMem_keeps h1)))

theorem execLd_keeps {s0 : State} {e : Eng} {w : FmtM} {s : State} (h_1 : Keeps s0 s) : ∃ sn, @execLd e w s = .next sn ∧ Keeps s0 sn := by
  unfold execLd
  exact ⟨_, rfl, (doLd_keeps h_1)⟩

theorem doSt_keeps {s0 : State} {e : Eng} {w : FmtM} {s : State} (h_1 : Keeps s0 s) : Keeps s0 (@doSt e w s) := by
  unfold doSt
  exact (State.execAt_keeps h_1 (fun _ h1 => (State.storeMem_keeps h1)))

theorem execSt_keeps {s0 : State} {e : Eng} {w : FmtM} {s : State} (h_1 : Keeps s0 s) : ∃ sn, @execSt e w s = .next sn ∧ Keeps s0 sn := by
  unfold execSt
  exact ⟨_, rfl, (doSt_keeps h_1)⟩

theorem doLdx_keeps {s0 : State} {e : Eng} {w : FmtX} {s : State} (h_1 : Keeps s0 s) : Keeps s0 (@doLdx e w s) := by
  unfold doLdx
  extract_lets -merge +onlyGivenNames v1
  clear_value v1
  extract_lets -merge +onlyGivenNames v3
  clear_value v3
  exact (State.execX_keeps h_1 (fun _ h5 => (State.loadMem_keeps h5)))

theorem execLdx_keeps {s0 : State} {e : Eng} {w : FmtX} {s : State} (h_1 : Keeps s0 s) : ∃ sn, @execLdx e w s = .next sn ∧ Keeps s0 sn := by
  unfold execLdx
  exact ⟨_, rfl, (doLdx_keeps h_1)⟩

theorem doStx_keeps {s0 : State} {e : Eng} {w : FmtX} {s : State} (h_1 : Keeps s0 s) : Keeps s0 (@doStx e w s) := by
  unfold doStx
  exact (State.execX_keeps h_1 (fun _ h1 => (State.storeMem_keeps h1)))

theorem execStx_keeps {s0 : State} {e : Eng} {w : FmtX} {s : State} (h_1 : Keeps s0 s) : ∃ sn, @execStx e w s = .next sn ∧ Keeps s0 sn := by
  unfold execStx
  exact ⟨_, rfl, (doStx_keeps h_1)⟩

end Sys2Proof.Machine
end

