-- ==== Sys2Proof/Laws/KeepsEngMem.lean ====
section
/-! SUPPORT. What every operation and every command of Machine/EngMem.lean keeps (Keeps). -/

set_option Elab.async false

namespace Sys2Proof.Machine

theorem doAtom_keeps {s0 : State} {e : Eng} {w : FmtA} {s : State} (h_1 : Keeps s0 s) : Keeps s0 (@doAtom e w s) := by
  unfold doAtom
  refine State.execA_keeps h_1 ?_
  · intro _ h1
    extract_lets -merge +onlyGivenNames v2
    clear_value v2
    extract_lets -merge +onlyGivenNames v4
    clear_value v4
    apply keeps_ite
    · exact (State.trap_keeps h1)
    · apply keeps_ite
      · exact (State.trap_keeps h1)
      · extract_lets -merge +onlyGivenNames v6
        have h7 : PK s0 (·.st) v6 := (State.readTarn_keeps h1)
        clear_value v6
        extract_lets -merge +onlyGivenNames v8
        have h9 : Keeps s0 v8 := (PK.out h7)
        apply keeps_ite
        · exact (State.trap_keeps h9)
        · extract_lets -merge +onlyGivenNames v10
          clear_value v10
          extract_lets -merge +onlyGivenNames v12
          have h13 : Keeps s0 v12 := by
            unfold v12
            split
            · exact (State.writeTarnGuarded_keeps h9)
            · exact h9
          clear_value v12
          exact (State.setD_keeps h13)

theorem execAtom_keeps {s0 : State} {e : Eng} {w : FmtA} {s : State} (h_1 : Keeps s0 s) : ∃ sn, @execAtom e w s = .next sn ∧ Keeps s0 sn := by
  unfold execAtom
  exact ⟨_, rfl, (doAtom_keeps h_1)⟩

theorem State.dmaEntry_keeps {s0 : State} {s : State} {e : Nat} {j : DmaJob} {status : Nat} (h_1 : Keeps s0 s) : Keeps s0 (@State.dmaEntry s e j status) := by
  unfold State.dmaEntry
  extract_lets -merge +onlyGivenNames v1
  clear_value v1
  extract_lets -merge +onlyGivenNames v3
  clear_value v3
  extract_lets -merge +onlyGivenNames v5
  extract_lets -merge +onlyGivenNames v7
  have h8 : Keeps s0 v7 := (State.setEngine_keeps h_1)
  clear_value v7
  exact (keeps_ite (State.postEvent_keeps h8) h8)

theorem State.dmaIssue_keeps {s0 : State} {s : State} {e : Nat} {j : DmaJob} {d : BitVec 5} (h_1 : Keeps s0 s) : Keeps s0 (@State.dmaIssue s e j d) := by
  unfold State.dmaIssue
  extract_lets -merge +onlyGivenNames u1 v2
  clear_value u1
  have h4 : Keeps s0 v2 := (keeps_ite (State.dmaEntry_keeps h_1) (State.set_keeps (State.setEngine_keeps h_1)))
  clear_value v2
  exact (State.setD_keeps h4)

theorem doDma_keeps {s0 : State} {e : Eng} {w : FmtA} {s : State} (h_1 : Keeps s0 s) : Keeps s0 (@doDma e w s) := by
  unfold doDma
  refine State.execA_keeps h_1 ?_
  · intro _ h1
    extract_lets -merge +onlyGivenNames v2
    clear_value v2
    extract_lets -merge +onlyGivenNames v4
    clear_value v4
    apply keeps_ite
    · exact (State.trap_keeps h1)
    · apply keeps_ite
      · exact (State.trap_keeps h1)
      · extract_lets -merge +onlyGivenNames v6
        have h7 : PK s0 (·.st) v6 := (State.readEng_keeps h1)
        clear_value v6
        extract_lets -merge +onlyGivenNames v8
        have h9 : Keeps s0 v8 := (PK.out h7)
        apply keeps_ite
        · exact (State.trap_keeps h9)
        · split
          · exact (State.trap_keeps h9)
          · exact (keeps_ite (State.setEngine_keeps h9) (State.dmaIssue_keeps h9))

theorem execDma_keeps {s0 : State} {e : Eng} {w : FmtA} {s : State} (h_1 : Keeps s0 s) : ∃ sn, @execDma e w s = .next sn ∧ Keeps s0 sn := by
  unfold execDma
  exact ⟨_, rfl, (doDma_keeps h_1)⟩

theorem State.dmaRead_keeps {s0 : State} {s : State} {e : Nat} {sp : Nat} {a : Nat} {n : Nat} (h_1 : Keeps s0 s) : PK s0 (·.2.2) (@State.dmaRead s e sp a n) := by
  unfold State.dmaRead
  split
  · extract_lets -merge +onlyGivenNames v1
    have h2 : PK s0 (·.st) v1 := (State.readLocal_keeps h_1)
    clear_value v1
    exact (PK.mk2 (PK.out h2))
  · extract_lets -merge +onlyGivenNames v3
    have h4 : PK s0 (·.st) v3 := (State.readTarn_keeps h_1)
    clear_value v3
    exact (PK.mk2 (PK.out h4))
  · extract_lets -merge +onlyGivenNames v6
    have h7 : PK s0 (·.st) v6 := (State.readDram_keeps h_1)
    clear_value v6
    exact (PK.mk2 (PK.out h7))

theorem State.dmaWrite_keeps {s0 : State} {s : State} {e : Nat} {sp : Nat} {a : Nat} {bs : List Byte} (h_1 : Keeps s0 s) : Keeps s0 (@State.dmaWrite s e sp a bs) := by
  unfold State.dmaWrite
  split
  · exact (State.writeLocal_keeps h_1)
  · exact (State.writeTarnGuarded_keeps h_1)
  · exact (State.writeDram_keeps h_1)

theorem dmaBeats_keeps {s0 : State} {e : Nat} {sp : Nat} {dp : Nat} {x3 : Nat} {x4 : Nat} {x5 : Nat} {x6 : Nat} {x7 : State} (h_1 : Keeps s0 x7) : PK s0 (·.2) (@dmaBeats e sp dp x3 x4 x5 x6 x7) := by
  induction x3 generalizing x4 x5 x6 x7 with
  | zero =>
    rw [dmaBeats.eq_1]
    exact (PK.mk2 h_1)
  | succ n ih =>
    rw [dmaBeats.eq_2]
    apply PK.ite
    · exact (PK.mk2 h_1)
    · extract_lets -merge +onlyGivenNames v1
      clear_value v1
      split
      · rename_i w3 w4 w5 e6
        have k7 : Keeps s0 w5 := PK.of (f := (·.2.2)) (State.dmaRead_keeps h_1) e6
        exact (PK.ite (PK.mk2 k7) (ih (State.dmaWrite_keeps k7)))

theorem State.dmaTransfer_keeps {s0 : State} {s : State} {e : Nat} {j : DmaJob} (h_1 : Keeps s0 s) : PK s0 (·.2) (@State.dmaTransfer s e j) := by
  unfold State.dmaTransfer
  exact (PK.ite (PK.mk2 (State.dramRange_keeps h_1)) (PK.ite (PK.mk2 (State.dramRange_keeps h_1)) (dmaBeats_keeps h_1)))

theorem doDmaCompletion_keeps {s0 : State} {e : Eng} {k : Fin 8} {s : State} (h_1 : Keeps s0 s) : Keeps s0 (@doDmaCompletion e k s) := by
  unfold doDmaCompletion
  split
  · exact h_1
  · split
    · rename_i w4 w5 e6
      have k7 : Keeps s0 w5 := PK.of (f := (·.2)) (State.dmaTransfer_keeps h_1) e6
      extract_lets -merge +onlyGivenNames v8
      have h9 : Keeps s0 v8 := (keeps_ite (State.set_keeps k7) k7)
      clear_value v8
      extract_lets -merge +onlyGivenNames v10
      clear_value v10
      extract_lets -merge +onlyGivenNames v12
      have h13 : Keeps s0 v12 := (State.set_keeps (State.setEngine_keeps h9))
      clear_value v12
      extract_lets -merge +onlyGivenNames v14
      have h15 : Keeps s0 v14 := (State.dmaEntry_keeps h13)
      clear_value v14
      split
      · exact (State.dmaIssue_keeps (State.setEngine_keeps h15))
      · exact h15

theorem execDmaCompletion_keeps {s0 : State} {e : Eng} {k : Fin 8} {s : State} (h_1 : Keeps s0 s) : ∃ sn, @execDmaCompletion e k s = .next sn ∧ Keeps s0 sn := by
  unfold execDmaCompletion
  exact ⟨_, rfl, (doDmaCompletion_keeps h_1)⟩

theorem State.imageCode_keeps {s0 : State} {s : State} {a : Nat} {t : Nat} {self : Option Nat} (h_1 : Keeps s0 s) : PK s0 (·.2) (@State.imageCode s a t self) := by
  unfold State.imageCode
  apply PK.ite
  · exact (PK.mk2 h_1)
  · apply PK.ite
    · exact (PK.mk2 h_1)
    · apply PK.ite
      · exact (PK.mk2 h_1)
      · apply PK.ite
        · exact (PK.mk2 h_1)
        · extract_lets -merge +onlyGivenNames v1
          have h2 : PK s0 (·.st) v1 := (State.readTarn_keeps h_1)
          clear_value v1
          extract_lets -merge +onlyGivenNames v3
          have h4 : Keeps s0 v3 := (PK.out h2)
          extract_lets -merge +onlyGivenNames v5
          clear_value v5
          apply PK.ite
          · exact (PK.mk2 h4)
          · apply PK.ite
            · exact (PK.mk2 h4)
            · extract_lets -merge +onlyGivenNames v7
              have h8 : PK s0 (·.st) v7 := (State.readTarn_keeps h4)
              clear_value v7
              extract_lets -merge +onlyGivenNames v9
              have h10 : Keeps s0 v9 := (PK.out h8)
              apply PK.ite
              · exact (PK.mk2 h10)
              · apply PK.ite
                · exact (PK.mk2 h10)
                · apply PK.ite
                  · exact (PK.mk2 h10)
                  · extract_lets -merge +onlyGivenNames v11
                    have h12 : PK s0 (·.st) v11 := (State.readTarn_keeps h10)
                    clear_value v11
                    exact (PK.ite (PK.mk2 (PK.out h12)) (PK.ite (PK.mk2 (PK.out h12)) (PK.mk2 (PK.out h12))))

theorem State.startLoad_keeps {s0 : State} {s : State} {t : Nat} {l : LoadJob} (h_1 : Keeps s0 s) : Keeps s0 (@State.startLoad s t l) := by
  unfold State.startLoad
  extract_lets -merge +onlyGivenNames u1 v2
  clear_value u1
  have h4 : Keeps s0 v2 := (State.setEngine_keeps h_1)
  clear_value v2
  extract_lets -merge +onlyGivenNames v5
  have h6 : Keeps s0 v5 := (foldl_keeps h4 (fun _ _ h7 => (State.set_keeps (State.set_keeps h7))))
  clear_value v5
  extract_lets -merge +onlyGivenNames v8
  have h9 : Keeps s0 v8 := (State.set_keeps h6)
  clear_value v8
  exact (State.setEstate_keeps h9)

theorem doEload_keeps {s0 : State} {e : Eng} {w : FmtA} {s : State} (h_1 : Keeps s0 s) : Keeps s0 (@doEload e w s) := by
  unfold doEload
  refine State.execA_keeps h_1 ?_
  · intro _ h1
    extract_lets -merge +onlyGivenNames v2
    clear_value v2
    extract_lets -merge +onlyGivenNames v4
    clear_value v4
    extract_lets -merge +onlyGivenNames v6
    clear_value v6
    extract_lets -merge +onlyGivenNames v8
    have h9 : PK s0 (·.2) v8 := (State.imageCode_keeps h1)
    clear_value v8
    extract_lets -merge +onlyGivenNames v10
    have h11 : Keeps s0 v10 := (PK.out h9)
    apply keeps_ite
    · extract_lets -merge +onlyGivenNames v12
      have h13 : Keeps s0 v12 := (State.startLoad_keeps h11)
      clear_value v12
      exact (State.setEngine_keeps h13)
    · exact (State.setD_keeps h11)

theorem execEload_keeps {s0 : State} {e : Eng} {w : FmtA} {s : State} (h_1 : Keeps s0 s) : ∃ sn, @execEload e w s = .next sn ∧ Keeps s0 sn := by
  unfold execEload
  exact ⟨_, rfl, (doEload_keeps h_1)⟩

theorem State.applyRoute_keeps {s0 : State} {s : State} {t : Nat} {w : Word} (h_1 : Keeps s0 s) : Keeps s0 (@State.applyRoute s t w) := by
  unfold State.applyRoute
  extract_lets -merge +onlyGivenNames v1
  clear_value v1
  exact (State.set_keeps (State.set_keeps h_1))

theorem State.startImage_keeps {s0 : State} {s : State} {t : Nat} {addr : Nat} (h_1 : Keeps s0 s) : Keeps s0 (@State.startImage s t addr) := by
  unfold State.startImage
  extract_lets -merge +onlyGivenNames v1
  clear_value v1
  extract_lets -merge +onlyGivenNames v3
  have h4 : PK s0 (·.st) v3 := (State.readTarn_keeps h_1)
  clear_value v3
  extract_lets -merge +onlyGivenNames v5
  clear_value v5
  extract_lets -merge +onlyGivenNames v7
  have h8 : PK s0 (·.st) v7 := (State.readTarn_keeps (PK.out h4))
  clear_value v7
  extract_lets -merge +onlyGivenNames v9
  have h10 : PK s0 (·.st) v9 := (State.readTarn_keeps (PK.out h8))
  clear_value v9
  extract_lets -merge +onlyGivenNames v11
  have h12 : Keeps s0 v11 := (State.writeLocal_keeps (State.writeLocal_keeps (PK.out h10)))
  clear_value v11
  extract_lets -merge +onlyGivenNames v13
  have h14 : Keeps s0 v13 := (foldl_keeps h12 (fun _ _ h15 => (State.applyRoute_keeps h15)))
  clear_value v13
  extract_lets -merge +onlyGivenNames u16 v17
  clear_value u16
  have h19 : Keeps s0 v17 := (State.setEngine_keeps h14)
  clear_value v17
  exact (State.setEstate_keeps (State.set_keeps (State.set_keeps h19)))

theorem State.endTakeover_keeps {s0 : State} {s : State} {t : Nat} {role : Nat} {epoch : Nat} (h_1 : Keeps s0 s) : Keeps s0 (@State.endTakeover s t role epoch) := by
  unfold State.endTakeover
  extract_lets -merge +onlyGivenNames v1
  have h2 : Keeps s0 v1 := (State.seqMail_keeps h_1)
  clear_value v1
  extract_lets -merge +onlyGivenNames v3
  clear_value v3
  exact (State.set_keeps (State.set_keeps h2))

theorem doImageStart_keeps {s0 : State} {e : Eng} {s : State} (h_1 : Keeps s0 s) : Keeps s0 (@doImageStart e s) := by
  unfold doImageStart
  split
  · exact h_1
  · extract_lets -merge +onlyGivenNames v4
    have h5 : Keeps s0 v4 := (State.startImage_keeps h_1)
    clear_value v4
    extract_lets -merge +onlyGivenNames v6
    have h7 : Keeps s0 v6 := (foldl_keeps h5 (fun _ _ h8 => (keeps_ite (State.freeVerified_keeps h8) h8)))
    clear_value v6
    split
    · exact (State.endTakeover_keeps h7)
    · split
      · exact (keeps_ite (State.setD_keeps (State.setEngine_keeps h7)) h7)
      · exact h7

theorem execImageStart_keeps {s0 : State} {e : Eng} {s : State} (h_1 : Keeps s0 s) : ∃ sn, @execImageStart e s = .next sn ∧ Keeps s0 sn := by
  unfold execImageStart
  exact ⟨_, rfl, (doImageStart_keeps h_1)⟩

theorem takeSpare_keeps {s0 : State} {r : Nat} {old : Nat} {addr : Nat} {epoch : Nat} {x4 : Nat} {x5 : State} (h_1 : Keeps s0 x5) : PK s0 (·.2) (@takeSpare r old addr epoch x4 x5) := by
  induction x4 generalizing x5 with
  | zero =>
    rw [takeSpare.eq_1]
    exact (PK.mk2 h_1)
  | succ n ih =>
    rw [takeSpare.eq_2]
    apply PK.ite
    · extract_lets -merge +onlyGivenNames v1
      have h2 : PK s0 (·.2) v1 := (State.imageCode_keeps h_1)
      clear_value v1
      extract_lets -merge +onlyGivenNames v3
      have h4 : Keeps s0 v3 := (PK.out h2)
      exact (PK.ite (PK.mk2 (State.startLoad_keeps (State.set_keeps h4))) (ih (State.report_keeps (State.setFailed_keeps h4))))
    · exact (ih h_1)

theorem doColdTakeover_keeps {s0 : State} {r : Fin 16} {s : State} (h_1 : Keeps s0 s) : Keeps s0 (@doColdTakeover r s) := by
  unfold doColdTakeover
  apply keeps_ite
  · exact h_1
  · extract_lets -merge +onlyGivenNames u1 v2
    clear_value u1
    have h4 : Keeps s0 v2 := (Keeps.upd h_1)
    clear_value v2
    split
    · exact h4
    · extract_lets -merge +onlyGivenNames v8
      have h9 : Keeps s0 v8 := (State.bump_keeps (State.set_keeps (State.set_keeps h4)))
      clear_value v8
      extract_lets -merge +onlyGivenNames v10
      have h11 : Keeps s0 v10 := (State.report_keeps h9)
      clear_value v10
      extract_lets -merge +onlyGivenNames v12
      have h13 : Keeps s0 v12 := (keeps_ite h11 (State.stopEngine_keeps h11))
      clear_value v12
      extract_lets -merge +onlyGivenNames v14
      clear_value v14
      extract_lets -merge +onlyGivenNames v16
      clear_value v16
      apply keeps_ite
      · exact (State.report_keeps (State.set_keeps h13))
      · extract_lets -merge +onlyGivenNames v18
        have h19 : PK s0 (·.2) v18 := (takeSpare_keeps h13)
        clear_value v18
        extract_lets -merge +onlyGivenNames v20
        have h21 : Keeps s0 v20 := (PK.out h19)
        exact (keeps_ite h21 (State.report_keeps (State.set_keeps h21)))

theorem execColdTakeover_keeps {s0 : State} {r : Fin 16} {s : State} (h_1 : Keeps s0 s) : ∃ sn, @execColdTakeover r s = .next sn ∧ Keeps s0 sn := by
  unfold execColdTakeover
  exact ⟨_, rfl, (doColdTakeover_keeps h_1)⟩

end Sys2Proof.Machine
end

