-- ==== Sys2Proof/Laws/KeepsInteger.lean ====
section
/-! SUPPORT. What every operation and every command of Machine/Integer.lean keeps (Keeps). -/

set_option Elab.async false

namespace Sys2Proof.Machine

theorem doAlu_keeps {s0 : State} {e : Eng} {w : FmtA} {s : State} (h_1 : Keeps s0 s) : Keeps s0 (@doAlu e w s) := by
  unfold doAlu
  refine State.execA_keeps h_1 ?_
  · intro _ h1
    extract_lets -merge +onlyGivenNames v2
    clear_value v2
    exact (State.setD_keeps h1)

theorem execAlu_keeps {s0 : State} {e : Eng} {w : FmtA} {s : State} (h_1 : Keeps s0 s) : ∃ sn, @execAlu e w s = .next sn ∧ Keeps s0 sn := by
  unfold execAlu
  exact ⟨_, rfl, (doAlu_keeps h_1)⟩

theorem doCmp_keeps {s0 : State} {e : Eng} {w : FmtA} {s : State} (h_1 : Keeps s0 s) : Keeps s0 (@doCmp e w s) := by
  unfold doCmp
  refine State.execA_keeps h_1 ?_
  · intro _ h1
    extract_lets -merge +onlyGivenNames v2
    clear_value v2
    exact (State.retire_keeps h1)

theorem execCmp_keeps {s0 : State} {e : Eng} {w : FmtA} {s : State} (h_1 : Keeps s0 s) : ∃ sn, @execCmp e w s = .next sn ∧ Keeps s0 sn := by
  unfold execCmp
  exact ⟨_, rfl, (doCmp_keeps h_1)⟩

theorem doPlog_keeps {s0 : State} {e : Eng} {w : FmtA} {s : State} (h_1 : Keeps s0 s) : Keeps s0 (@doPlog e w s) := by
  unfold doPlog
  refine State.execA_keeps h_1 ?_
  · intro _ h1
    extract_lets -merge +onlyGivenNames v2
    clear_value v2
    exact (State.retire_keeps h1)

theorem execPlog_keeps {s0 : State} {e : Eng} {w : FmtA} {s : State} (h_1 : Keeps s0 s) : ∃ sn, @execPlog e w s = .next sn ∧ Keeps s0 sn := by
  unfold execPlog
  exact ⟨_, rfl, (doPlog_keeps h_1)⟩

theorem doMul_keeps {s0 : State} {e : Eng} {w : FmtA} {s : State} (h_1 : Keeps s0 s) : Keeps s0 (@doMul e w s) := by
  unfold doMul
  refine State.execA_keeps h_1 ?_
  · intro _ h1
    extract_lets -merge +onlyGivenNames v2
    clear_value v2
    exact (State.setD_keeps h1)

theorem execMul_keeps {s0 : State} {e : Eng} {w : FmtA} {s : State} (h_1 : Keeps s0 s) : ∃ sn, @execMul e w s = .next sn ∧ Keeps s0 sn := by
  unfold execMul
  exact ⟨_, rfl, (doMul_keeps h_1)⟩

theorem doDiv_keeps {s0 : State} {e : Eng} {w : FmtA} {s : State} (h_1 : Keeps s0 s) : Keeps s0 (@doDiv e w s) := by
  unfold doDiv
  refine State.execA_keeps h_1 ?_
  · intro _ h1
    extract_lets -merge +onlyGivenNames v2
    clear_value v2
    exact (keeps_ite (State.trap_keeps h1) (State.setD_keeps h1))

theorem execDiv_keeps {s0 : State} {e : Eng} {w : FmtA} {s : State} (h_1 : Keeps s0 s) : ∃ sn, @execDiv e w s = .next sn ∧ Keeps s0 sn := by
  unfold execDiv
  exact ⟨_, rfl, (doDiv_keeps h_1)⟩

theorem doSel_keeps {s0 : State} {e : Eng} {w : FmtA} {s : State} (h_1 : Keeps s0 s) : Keeps s0 (@doSel e w s) := by
  unfold doSel
  refine State.execA_keeps h_1 ?_
  · intro _ h1
    extract_lets -merge +onlyGivenNames v2
    clear_value v2
    exact (State.setD_keeps h1)

theorem execSel_keeps {s0 : State} {e : Eng} {w : FmtA} {s : State} (h_1 : Keeps s0 s) : ∃ sn, @execSel e w s = .next sn ∧ Keeps s0 sn := by
  unfold execSel
  exact ⟨_, rfl, (doSel_keeps h_1)⟩

theorem doMovi_keeps {s0 : State} {e : Eng} {w : FmtI} {s : State} (h_1 : Keeps s0 s) : Keeps s0 (@doMovi e w s) := by
  unfold doMovi
  refine State.execI_keeps h_1 ?_
  · intro _ h1
    extract_lets -merge +onlyGivenNames v2
    clear_value v2
    extract_lets -merge +onlyGivenNames v4
    clear_value v4
    extract_lets -merge +onlyGivenNames v6
    clear_value v6
    exact (State.setD_keeps h1)

theorem execMovi_keeps {s0 : State} {e : Eng} {w : FmtI} {s : State} (h_1 : Keeps s0 s) : ∃ sn, @execMovi e w s = .next sn ∧ Keeps s0 sn := by
  unfold execMovi
  exact ⟨_, rfl, (doMovi_keeps h_1)⟩

theorem doAddi_keeps {s0 : State} {e : Eng} {w : FmtI} {s : State} (h_1 : Keeps s0 s) : Keeps s0 (@doAddi e w s) := by
  unfold doAddi
  exact (State.execI_keeps h_1 (fun _ h1 => (State.setD_keeps h1)))

theorem execAddi_keeps {s0 : State} {e : Eng} {w : FmtI} {s : State} (h_1 : Keeps s0 s) : ∃ sn, @execAddi e w s = .next sn ∧ Keeps s0 sn := by
  unfold execAddi
  exact ⟨_, rfl, (doAddi_keeps h_1)⟩

theorem doAndi_keeps {s0 : State} {e : Eng} {w : FmtI} {s : State} (h_1 : Keeps s0 s) : Keeps s0 (@doAndi e w s) := by
  unfold doAndi
  exact (State.execI_keeps h_1 (fun _ h1 => (State.setD_keeps h1)))

theorem execAndi_keeps {s0 : State} {e : Eng} {w : FmtI} {s : State} (h_1 : Keeps s0 s) : ∃ sn, @execAndi e w s = .next sn ∧ Keeps s0 sn := by
  unfold execAndi
  exact ⟨_, rfl, (doAndi_keeps h_1)⟩

theorem doOri_keeps {s0 : State} {e : Eng} {w : FmtI} {s : State} (h_1 : Keeps s0 s) : Keeps s0 (@doOri e w s) := by
  unfold doOri
  exact (State.execI_keeps h_1 (fun _ h1 => (State.setD_keeps h1)))

theorem execOri_keeps {s0 : State} {e : Eng} {w : FmtI} {s : State} (h_1 : Keeps s0 s) : ∃ sn, @execOri e w s = .next sn ∧ Keeps s0 sn := by
  unfold execOri
  exact ⟨_, rfl, (doOri_keeps h_1)⟩

theorem doXori_keeps {s0 : State} {e : Eng} {w : FmtI} {s : State} (h_1 : Keeps s0 s) : Keeps s0 (@doXori e w s) := by
  unfold doXori
  exact (State.execI_keeps h_1 (fun _ h1 => (State.setD_keeps h1)))

theorem execXori_keeps {s0 : State} {e : Eng} {w : FmtI} {s : State} (h_1 : Keeps s0 s) : ∃ sn, @execXori e w s = .next sn ∧ Keeps s0 sn := by
  unfold execXori
  exact ⟨_, rfl, (doXori_keeps h_1)⟩

theorem doShi_keeps {s0 : State} {e : Eng} {w : FmtI} {s : State} (h_1 : Keeps s0 s) : Keeps s0 (@doShi e w s) := by
  unfold doShi
  exact (State.execI_keeps h_1 (fun _ h1 => (State.setD_keeps h1)))

theorem execShi_keeps {s0 : State} {e : Eng} {w : FmtI} {s : State} (h_1 : Keeps s0 s) : ∃ sn, @execShi e w s = .next sn ∧ Keeps s0 sn := by
  unfold execShi
  exact ⟨_, rfl, (doShi_keeps h_1)⟩

theorem cmpImm_keeps {s0 : State} {op : Nat} {c : DWord → DWord → Bool} {e : Eng} {w : FmtI} {s : State} (h_1 : Keeps s0 s) : Keeps s0 (@cmpImm op c e w s) := by
  unfold cmpImm
  refine State.execI_keeps h_1 ?_
  · intro _ h1
    extract_lets -merge +onlyGivenNames v2
    clear_value v2
    exact (State.retire_keeps h1)

theorem execCmpeqi_keeps {s0 : State} {e : Eng} {w : FmtI} {s : State} (h_1 : Keeps s0 s) : ∃ sn, @execCmpeqi e w s = .next sn ∧ Keeps s0 sn := by
  unfold execCmpeqi
  exact ⟨_, rfl, (cmpImm_keeps h_1)⟩

theorem execCmplti_keeps {s0 : State} {e : Eng} {w : FmtI} {s : State} (h_1 : Keeps s0 s) : ∃ sn, @execCmplti e w s = .next sn ∧ Keeps s0 sn := by
  unfold execCmplti
  exact ⟨_, rfl, (cmpImm_keeps h_1)⟩

theorem execCmpltui_keeps {s0 : State} {e : Eng} {w : FmtI} {s : State} (h_1 : Keeps s0 s) : ∃ sn, @execCmpltui e w s = .next sn ∧ Keeps s0 sn := by
  unfold execCmpltui
  exact ⟨_, rfl, (cmpImm_keeps h_1)⟩

theorem doMovx_keeps {s0 : State} {e : Eng} {w : FmtX} {s : State} (h_1 : Keeps s0 s) : Keeps s0 (@doMovx e w s) := by
  unfold doMovx
  refine State.execX_keeps h_1 ?_
  · intro _ h1
    extract_lets -merge +onlyGivenNames v2
    clear_value v2
    exact (State.setD_keeps h1)

theorem execMovx_keeps {s0 : State} {e : Eng} {w : FmtX} {s : State} (h_1 : Keeps s0 s) : ∃ sn, @execMovx e w s = .next sn ∧ Keeps s0 sn := by
  unfold execMovx
  exact ⟨_, rfl, (doMovx_keeps h_1)⟩

theorem doAddx_keeps {s0 : State} {e : Eng} {w : FmtX} {s : State} (h_1 : Keeps s0 s) : Keeps s0 (@doAddx e w s) := by
  unfold doAddx
  exact (State.execX_keeps h_1 (fun _ h1 => (State.setD_keeps h1)))

theorem execAddx_keeps {s0 : State} {e : Eng} {w : FmtX} {s : State} (h_1 : Keeps s0 s) : ∃ sn, @execAddx e w s = .next sn ∧ Keeps s0 sn := by
  unfold execAddx
  exact ⟨_, rfl, (doAddx_keeps h_1)⟩

end Sys2Proof.Machine
end

