-- ==== Sys2Proof/Laws/KeepsReact.lean ====
section
/-! SUPPORT. What every operation and every command of Machine/React.lean keeps (Keeps). -/

set_option Elab.async false

namespace Sys2Proof.Machine

theorem State.acknowledge_keeps {s0 : State} {s : State} {code : Nat} {r : WaitRep} (h_1 : Keeps s0 s) : Keeps s0 (@State.acknowledge s code r) := by
  unfold State.acknowledge
  extract_lets -merge +onlyGivenNames v1
  clear_value v1
  extract_lets -merge +onlyGivenNames v3
  have h4 : Keeps s0 v3 := (State.recordReport_keeps h_1)
  clear_value v3
  apply keeps_ite
  · exact h4
  · extract_lets -merge +onlyGivenNames v5
    have h6 : Keeps s0 v5 := (State.react_keeps h4)
    clear_value v5
    exact (keeps_ite h6 (State.revertProfile_keeps h6))

theorem State.endTest_keeps {s0 : State} {s : State} {code : Nat} (h_1 : Keeps s0 s) : Keeps s0 (@State.endTest s code) := by
  unfold State.endTest
  split
  · exact h_1
  · exact (keeps_ite (Keeps.upd h_1) h_1)

theorem doFaultReport_keeps {s0 : State} {code : BitVec 16} {s : State} (h_1 : Keeps s0 s) : Keeps s0 (@doFaultReport code s) := by
  unfold doFaultReport
  extract_lets -merge +onlyGivenNames v1
  clear_value v1
  apply keeps_ite
  · exact h_1
  · split
    · exact h_1
    · rename_i w4 w5 e6
      have k7 : Keeps s0 w5 := OptK.of (State.takeWaiting_keeps (State.endTest_keeps h_1)) e6
      exact (State.acknowledge_keeps k7)

theorem execFaultReport_keeps {s0 : State} {code : BitVec 16} {s : State} (h_1 : Keeps s0 s) : ∃ sn, @execFaultReport code s = .next sn ∧ Keeps s0 sn := by
  unfold execFaultReport
  exact ⟨_, rfl, (doFaultReport_keeps h_1)⟩

theorem State.noteTransient_keeps {s0 : State} {s : State} {code : Nat} (h_1 : Keeps s0 s) : Keeps s0 (@State.noteTransient s code) := by
  unfold State.noteTransient
  apply keeps_ite
  · exact h_1
  · extract_lets -merge +onlyGivenNames v1
    have h2 : Keeps s0 v1 := (State.set_keeps h_1)
    clear_value v1
    split
    · exact h2
    · extract_lets -merge +onlyGivenNames v6
      clear_value v6
      exact (keeps_ite (State.setHist_keeps h2) h2)

theorem doLevelSourceIdle_keeps {s0 : State} {code : BitVec 16} {s : State} (h_1 : Keeps s0 s) : Keeps s0 (@doLevelSourceIdle code s) := by
  unfold doLevelSourceIdle
  extract_lets -merge +onlyGivenNames v1
  clear_value v1
  exact (keeps_ite h_1 (State.noteTransient_keeps (Keeps.upd h_1)))

theorem execLevelSourceIdle_keeps {s0 : State} {code : BitVec 16} {s : State} (h_1 : Keeps s0 s) : ∃ sn, @execLevelSourceIdle code s = .next sn ∧ Keeps s0 sn := by
  unfold execLevelSourceIdle
  exact ⟨_, rfl, (doLevelSourceIdle_keeps h_1)⟩

end Sys2Proof.Machine
end

