-- ==== Sys2Proof/Laws/KeepsUplink.lean ====
section
/-! SUPPORT. What every operation and every command of Machine/Uplink.lean keeps (Keeps). -/

set_option Elab.async false

namespace Sys2Proof.Machine

theorem State.segReport_keeps {s0 : State} {s : State} {code : Nat} {sg : Nat} (h_1 : Keeps s0 s) : Keeps s0 (@State.segReport s code sg) := by
  unfold State.segReport
  exact (State.report_keeps h_1)

theorem State.softLimit_keeps {s0 : State} {s : State} {sg : Nat} (h_1 : Keeps s0 s) : Keeps s0 (@State.softLimit s sg) := by
  unfold State.softLimit
  exact (keeps_ite h_1 (State.segReport_keeps (State.sendDerate_keeps (State.set_keeps h_1))))

theorem State.hardLimit_keeps {s0 : State} {s : State} {sg : Nat} (h_1 : Keeps s0 s) : Keeps s0 (@State.hardLimit s sg) := by
  unfold State.hardLimit
  exact (keeps_ite h_1 (State.segReport_keeps (State.stopJob_keeps (State.set_keeps h_1))))

theorem State.hotClear_keeps {s0 : State} {s : State} {sg : Nat} {t : Int} (h_1 : Keeps s0 s) : Keeps s0 (@State.hotClear s sg t) := by
  unfold State.hotClear
  exact (keeps_ite (State.set_keeps h_1) h_1)

theorem State.headLimits_keeps {s0 : State} {s : State} {sg : Nat} {t : Int} (h_1 : Keeps s0 s) : Keeps s0 (@State.headLimits s sg t) := by
  unfold State.headLimits
  extract_lets -merge +onlyGivenNames v1
  clear_value v1
  extract_lets -merge +onlyGivenNames v3
  clear_value v3
  extract_lets -merge +onlyGivenNames v5
  clear_value v5
  extract_lets -merge +onlyGivenNames v7
  have h8 : Keeps s0 v7 := (keeps_ite (State.softLimit_keeps h_1) (keeps_ite (State.sendDerate_keeps (State.set_keeps h_1)) h_1))
  clear_value v7
  exact (keeps_ite (State.hardLimit_keeps h8) (State.hotClear_keeps h8))

theorem State.segTrim_keeps {s0 : State} {s : State} {sg : Nat} {t : Int} {v : Nat} (h_1 : Keeps s0 s) : Keeps s0 (@State.segTrim s sg t v) := by
  unfold State.segTrim
  extract_lets -merge +onlyGivenNames v1
  clear_value v1
  extract_lets -merge +onlyGivenNames v3
  clear_value v3
  extract_lets -merge +onlyGivenNames v5
  clear_value v5
  extract_lets -merge +onlyGivenNames v7
  clear_value v7
  extract_lets -merge +onlyGivenNames v9
  have h10 : Keeps s0 v9 := (State.set_keeps h_1)
  clear_value v9
  exact (keeps_ite h10 (State.segReport_keeps (State.setSeg_keeps h10)))

theorem doTelem_keeps {s0 : State} {p : Fin 16} {m : List Word} {s : State} (h_1 : Keeps s0 s) : Keeps s0 (@doTelem p m s) := by
  unfold doTelem
  apply keeps_ite
  · exact h_1
  · extract_lets -merge +onlyGivenNames v1
    have h2 : Keeps s0 v1 := (State.fromSeg_keeps h_1)
    clear_value v1
    extract_lets -merge +onlyGivenNames v3
    clear_value v3
    extract_lets -merge +onlyGivenNames v5
    clear_value v5
    extract_lets -merge +onlyGivenNames v7
    clear_value v7
    extract_lets -merge +onlyGivenNames v9
    clear_value v9
    extract_lets -merge +onlyGivenNames u11 v12
    clear_value u11
    have h14 : Keeps s0 v12 := (State.setSeg_keeps h2)
    clear_value v12
    extract_lets -merge +onlyGivenNames v15
    have h16 : Keeps s0 v15 := (State.set_keeps (State.set_keeps h14))
    clear_value v15
    exact (State.headLimits_keeps (State.segTrim_keeps h16))

theorem execTelem_keeps {s0 : State} {p : Fin 16} {m : List Word} {s : State} (h_1 : Keeps s0 s) : ∃ sn, @execTelem p m s = .next sn ∧ Keeps s0 sn := by
  unfold execTelem
  exact ⟨_, rfl, (doTelem_keeps (State.upEvent_keeps h_1))⟩

theorem doTelemetryStale_keeps {s0 : State} {sg : Fin 2048} {s : State} (h_1 : Keeps s0 s) : Keeps s0 (@doTelemetryStale sg s) := by
  unfold doTelemetryStale
  extract_lets -merge +onlyGivenNames v1
  clear_value v1
  extract_lets -merge +onlyGivenNames v3
  clear_value v3
  extract_lets -merge +onlyGivenNames v5
  clear_value v5
  exact (keeps_ite h_1 (State.segReport_keeps (State.softLimit_keeps (State.set_keeps h_1))))

theorem execTelemetryStale_keeps {s0 : State} {sg : Fin 2048} {s : State} (h_1 : Keeps s0 s) : ∃ sn, @execTelemetryStale sg s = .next sn ∧ Keeps s0 sn := by
  unfold execTelemetryStale
  exact ⟨_, rfl, (doTelemetryStale_keeps h_1)⟩

theorem State.linesLost_keeps {s0 : State} {s : State} {sg : Nat} {count : Nat} {tag : Nat} (h_1 : Keeps s0 s) : Keeps s0 (@State.linesLost s sg count tag) := by
  unfold State.linesLost
  extract_lets -merge +onlyGivenNames v1
  clear_value v1
  extract_lets -merge +onlyGivenNames v3
  have h4 : Keeps s0 v3 := (State.bump_keeps h_1)
  clear_value v3
  exact (keeps_ite (State.report_keeps h4) h4)

theorem doSegEvent_keeps {s0 : State} {p : Fin 16} {m : List Word} {s : State} (h_1 : Keeps s0 s) : Keeps s0 (@doSegEvent p m s) := by
  unfold doSegEvent
  apply keeps_ite
  · exact h_1
  · extract_lets -merge +onlyGivenNames v1
    have h2 : Keeps s0 v1 := (State.fromSeg_keeps h_1)
    clear_value v1
    extract_lets -merge +onlyGivenNames v3
    clear_value v3
    extract_lets -merge +onlyGivenNames v5
    clear_value v5
    split
    · exact (State.hardLimit_keeps h2)
    · exact (State.hotClear_keeps h2)
    · exact (State.linesLost_keeps h2)
    · exact (State.linesLost_keeps h2)
    · exact (keeps_ite (State.report_keeps (State.setSegState_keeps h2)) h2)
    · exact h2

theorem execSegEvent_keeps {s0 : State} {p : Fin 16} {m : List Word} {s : State} (h_1 : Keeps s0 s) : ∃ sn, @execSegEvent p m s = .next sn ∧ Keeps s0 sn := by
  unfold execSegEvent
  exact ⟨_, rfl, (doSegEvent_keeps (State.upEvent_keeps h_1))⟩

theorem doFloss_keeps {s0 : State} {p : Fin 16} {m : List Word} {s : State} (h_1 : Keeps s0 s) : Keeps s0 (@doFloss p m s) := by
  unfold doFloss
  apply keeps_ite
  · exact h_1
  · extract_lets -merge +onlyGivenNames v1
    have h2 : Keeps s0 v1 := (State.bump_keeps h_1)
    clear_value v1
    extract_lets -merge +onlyGivenNames v3
    clear_value v3
    split
    · extract_lets -merge +onlyGivenNames v9
      clear_value v9
      exact (keeps_ite h2 (State.bump_keeps (State.setPort_keeps h2)))
    · exact h2

theorem execFloss_keeps {s0 : State} {p : Fin 16} {m : List Word} {s : State} (h_1 : Keeps s0 s) : ∃ sn, @execFloss p m s = .next sn ∧ Keeps s0 sn := by
  unfold execFloss
  exact ⟨_, rfl, (doFloss_keeps (State.upEvent_keeps h_1))⟩

theorem doAckTimeout_keeps {s0 : State} {p : Fin 16} {tok : BitVec 12} {s : State} (h_1 : Keeps s0 s) : Keeps s0 (@doAckTimeout p tok s) := by
  unfold doAckTimeout
  extract_lets -merge +onlyGivenNames v1
  clear_value v1
  split
  · exact h_1
  · apply keeps_ite
    · exact h_1
    · apply keeps_ite
      · extract_lets -merge +onlyGivenNames v6
        clear_value v6
        extract_lets -merge +onlyGivenNames v8
        clear_value v8
        extract_lets -merge +onlyGivenNames v10
        clear_value v10
        exact (State.setPort_keeps h_1)
      · extract_lets -merge +onlyGivenNames v12
        have h13 : Keeps s0 v12 := (State.giveUp_keeps h_1)
        clear_value v12
        exact (keeps_ite (State.loadDone_keeps h13) h13)

theorem execAckTimeout_keeps {s0 : State} {p : Fin 16} {tok : BitVec 12} {s : State} (h_1 : Keeps s0 s) : ∃ sn, @execAckTimeout p tok s = .next sn ∧ Keeps s0 sn := by
  unfold execAckTimeout
  exact ⟨_, rfl, (doAckTimeout_keeps h_1)⟩

theorem State.upMessage_keeps {s0 : State} {s : State} {p : Fin 16} {m : List Word} (h_1 : Keeps s0 s) : Keeps s0 (@State.upMessage s p m) := by
  unfold State.upMessage
  extract_lets -merge +onlyGivenNames v1
  clear_value v1
  extract_lets -merge +onlyGivenNames v3
  have h4 : Keeps s0 v3 := (State.upEvent_keeps h_1)
  clear_value v3
  exact (keeps_ite (doAck_keeps h4) (keeps_ite (doBncap_keeps h4) (keeps_ite (doCap_keeps h4) (keeps_ite (doSlotinfo_keeps h4) (keeps_ite (doStaged_keeps h4) (keeps_ite (doApplied_keeps h4) (keeps_ite (doTelem_keeps h4) (keeps_ite (doSegEvent_keeps h4) (keeps_ite (doLoadres_keeps h4) (keeps_ite (doBnstat_keeps h4) (keeps_ite (doFloss_keeps h4) (State.reportLimited_keeps h_1))))))))))))

theorem upMessages_keeps {s0 s : State} {p : Fin 16} {k : Nat} {m : List Word} (h : Keeps s0 s) :
    Keeps s0 (upMessages p k m s) := by
  induction k generalizing s m with
  | zero => exact h
  | succ k ih =>
    cases m with
    | nil => exact h
    | cons w m =>
      rw [upMessages]
      exact keeps_ite h (ih (State.upMessage_keeps h))

theorem doUpstreamFrame_keeps {s0 : State} {p : Fin 16} {f : List Word} {s : State} (h_1 : Keeps s0 s) : Keeps s0 (@doUpstreamFrame p f s) := by
  unfold doUpstreamFrame
  apply keeps_ite
  · exact h_1
  · apply keeps_ite
    · extract_lets -merge +onlyGivenNames v1
      have h2 : Keeps s0 v1 := (State.bump_keeps h_1)
      clear_value v1
      extract_lets -merge +onlyGivenNames v3
      clear_value v3
      extract_lets -merge +onlyGivenNames u5 v6
      clear_value u5
      have h8 : Keeps s0 v6 := (State.setPort_keeps h2)
      clear_value v6
      exact (keeps_ite (State.portDown_keeps (State.report_keeps h8)) h8)
    · extract_lets -merge +onlyGivenNames u9 v10
      clear_value u9
      have h12 : Keeps s0 v10 := (State.setPort_keeps h_1)
      clear_value v10
      exact (upMessages_keeps h12)

theorem execUpstreamFrame_keeps {s0 : State} {p : Fin 16} {f : List Word} {s : State} (h_1 : Keeps s0 s) : ∃ sn, @execUpstreamFrame p f s = .next sn ∧ Keeps s0 sn := by
  unfold execUpstreamFrame
  exact ⟨_, rfl, (doUpstreamFrame_keeps h_1)⟩

end Sys2Proof.Machine
end

