-- ==== Sys2Proof/Laws/Link.lean ====
section
/-! SUPPORT. What sending a frame does to a head port: the frame number rises by one and the frame is kept for a resend (R271, R302); what an
idle frame carries (R284, R292). -/

set_option Elab.async false

namespace Sys2Proof.Machine

theorem State.noteSent_port (p : Nat) (m : List Word) (s : State) : ((s.noteSent p m).port p).k = (s.port p).k ∧ ((s.noteSent p m).port p).sent = (s.port p).sent := by
  simp only [State.noteSent]
  split
  · exact ⟨rfl, rfl⟩
  · rw [show (s.setPort p _).port p = _ from Tab.get_put_same]; exact ⟨rfl, rfl⟩
theorem State.noteAll_port (p : Nat) : ∀ (ms : List (List Word)) (s : State),
    ((ms.foldl (fun s m => s.noteSent p m) s).port p).k = (s.port p).k ∧ ((ms.foldl (fun s m => s.noteSent p m) s).port p).sent = (s.port p).sent
  | [], _ => ⟨rfl, rfl⟩
  | m :: t, s => by
    have h := State.noteAll_port p t (s.noteSent p m)
    have g := State.noteSent_port p m s
    exact ⟨h.1.trans g.1, h.2.trans g.2⟩
theorem State.sendFrame_port (s : State) (p k : Nat) (msgs : List (List Word)) :
    ((s.sendFrame p k msgs).port p).k = k + 1 ∧ ((s.sendFrame p k msgs).port p).sent = ({ k := k, msgs := msgs } :: (s.port p).sent).take 64 := by
  unfold State.sendFrame
  extract_lets x mode lane e hit bits out y
  have g := State.noteAll_port p msgs (s.setPort p y)
  have h : (s.setPort p y).port p = y := Tab.get_put_same
  rw [h] at g
  exact ⟨g.1.trans rfl, g.2.trans rfl⟩
theorem State.lineMsgs_none (s : State) (p r : Nat) (h : frameOwner s.liveFrame p = none) : s.lineMsgs p r = ([], s) := by
  unfold State.lineMsgs; rw [h]
theorem State.frameMsgs_nil (s : State) (p : Nat) (h1 : (s.port p).fireQ = []) (h2 : (s.port p).resendQ = []) (h3 : (s.port p).ctlQ = [])
    (h4 : frameOwner s.liveFrame p = none) : (s.frameMsgs p).1 = [] := by
  have g : ∀ (y : Port) (r : Nat), (s.setPort p y).lineMsgs p r = ([], s.setPort p y) := fun y r => State.lineMsgs_none _ p r h4
  simp only [State.frameMsgs, h1, h2, h3, takeFit, if_true, and_self, g, List.append_nil]
theorem State.setPort_port (s : State) (p : Nat) (y : Port) : (s.setPort p y).port p = y := Tab.get_put_same

end Sys2Proof.Machine
end

