-- ==== Sys2Proof/Laws/Power.lean ====
section
/-! SUPPORT. What a reset of the device leaves (R498), field by field. -/

set_option Elab.async false

namespace Sys2Proof.Machine

variable (s : State) (soft : Bool)

@[simp] theorem State.drawChallenge_engines : s.drawChallenge.engines = s.engines := rfl
@[simp] theorem State.drawChallenge_now : s.drawChallenge.now = s.now := rfl
@[simp] theorem State.drawChallenge_pending : s.drawChallenge.pending = s.pending := rfl
@[simp] theorem State.drawChallenge_sec : s.drawChallenge.sec = s.sec := rfl
@[simp] theorem State.drawChallenge_sens : s.drawChallenge.sens = s.sens := rfl
@[simp] theorem State.drawChallenge_dmc : s.drawChallenge.dmc = s.dmc := rfl
@[simp] theorem State.drawChallenge_tarn : s.drawChallenge.tarn = s.tarn := rfl
@[simp] theorem State.drawChallenge_job : s.drawChallenge.job = s.job := rfl
@[simp] theorem State.drawChallenge_gates : s.drawChallenge.gates = s.gates := rfl
@[simp] theorem State.drawChallenge_groups : s.drawChallenge.groups = s.groups := rfl

@[simp] theorem State.resetDevice_engines : (s.resetDevice soft).engines = [] := by
  unfold State.resetDevice; rw [State.drawChallenge_engines]; cases soft <;> rfl
@[simp] theorem State.resetDevice_now : (s.resetDevice soft).now = s.now := by
  unfold State.resetDevice; rw [State.drawChallenge_now]; cases soft <;> rfl
@[simp] theorem State.resetDevice_pending : (s.resetDevice soft).pending = s.pending := by
  unfold State.resetDevice; rw [State.drawChallenge_pending]; cases soft <;> rfl
@[simp] theorem State.resetDevice_slots : (s.resetDevice soft).sec.slots = s.sec.slots := by
  unfold State.resetDevice; rw [State.drawChallenge_sec]; cases soft <;> rfl
@[simp] theorem State.resetDevice_audit : (s.resetDevice soft).sec.audit = s.sec.audit := by
  unfold State.resetDevice; rw [State.drawChallenge_sec]; cases soft <;> rfl
@[simp] theorem State.resetDevice_otp : (s.resetDevice soft).sens.otp = s.sens.otp := by
  unfold State.resetDevice; rw [State.drawChallenge_sens]; cases soft <;> rfl
@[simp] theorem State.resetDevice_dmc : (s.resetDevice soft).dmc = DmcState.reset := by
  unfold State.resetDevice; rw [State.drawChallenge_dmc]; cases soft <;> rfl
@[simp] theorem State.resetDevice_tarn : (s.resetDevice soft).tarn = TarnState.reset := by
  unfold State.resetDevice; rw [State.drawChallenge_tarn]; cases soft <;> rfl
@[simp] theorem State.resetDevice_job : (s.resetDevice soft).job = JobState.reset := by
  unfold State.resetDevice; rw [State.drawChallenge_job]; cases soft <;> rfl

@[simp] theorem State.drawChallenge_dev : s.drawChallenge.dev = s.dev := by
  have o : ∀ i, F.SEC_DBGCHAL_WORD.off i 0 ≠ 4 := fun i => by simp only [Fld.off, F.SEC_DBGCHAL_WORD]; omega
  have d : ∀ x : State, x.drawFree.2.dev = x.dev := fun _ => rfl
  have key : ∀ (l : List Nat) (x : State), (l.foldl (fun s i => let (w, s) := s.drawFree; s.set F.SEC_DBGCHAL_WORD w.toNat i) x).dev = x.dev := by
    intro l
    induction l with
    | nil => intro x; rfl
    | cons a t ih =>
      intro x
      exact (ih _).trans ((State.set_dev (o a)).trans (d x))
  exact key _ s

/-- Every reset of the device leaves DEV.STATE at Reset (R498). -/
@[simp] theorem State.resetDevice_dev : (s.resetDevice soft).dev = stReset := by
  have hk : ∀ (x y : State) (p : Nat → Bool), p 4 = false → (x.keepRegs y p).dev = stReset := by
    intro x y p hp
    have : Tab.get regReset (Tab.drop (fun k => !p k) y.regs) 4 = regReset 4 := Tab.get_drop (by simp [hp])
    have e : (x.keepRegs y p).rd 4 = regReset 4 := by
      rw [← this]; simp [State.keepRegs, State.rd, Tab.drop]
    show fieldOf ((x.keepRegs y p).rd 4) 28 4 = stReset
    rw [e]; decide +kernel
  have n1 : F.SEC_TAMPER_LATCH.off 0 0 ≠ 4 := by decide
  have n2 : F.SEC_TAMPER_CAUSE.off 0 0 ≠ 4 := by decide
  have n3 : F.SEC_LCS_VAUXLOST.off 0 0 ≠ 4 := by decide
  have n4 : F.FLT_HSTAT_FILL.off 0 0 ≠ 4 := by decide
  have hs : ∀ (x : State) (c : SecState), ({ x with sec := c } : State).dev = x.dev := fun _ _ => rfl
  unfold State.resetDevice
  rw [State.drawChallenge_dev]
  cases soft
  · rw [if_neg Bool.false_ne_true]
    refine (hs _ _).trans ?_
    rw [State.set_dev n3, State.set_dev n2, State.set_dev n1]
    exact hk _ _ _ (by decide)
  · rw [if_pos rfl, State.set_dev n4, State.set_dev n3, State.set_dev n2, State.set_dev n1]
    exact hk _ _ _ (by decide)

end Sys2Proof.Machine
end

