-- ==== Sys2Proof/Laws/Step.lean ====
section
/-! SUPPORT. What a step on an empty queue keeps: all that a command keeps but the time. -/

set_option Elab.async false

namespace Sys2Proof.Machine

/-- A later time changes neither the memories nor OTP. -/
theorem Keeps.atTime (s : State) (n : Nat) : Memory.wf { s with now := n } = Memory.wf s ∧ OtpGrows s { s with now := n } :=
  ⟨rfl, fun _ _ h => h, fun _ h => h, fun _ => Nat.le_refl _, List.prefix_refl _⟩

/-- One tick keeps everything but the time, which is 4 ns later. -/
theorem State.tick_keeps {s0 s : State} (h : Keeps s0 { s with now := s.now + 4 }) : Keeps s0 s.tick :=
  State.tickTb_keeps (State.tickTb_keeps (State.tickTb_keeps (State.tickTb_keeps h)))

/-- A step on an empty queue keeps everything but the time, which is 4 ns later. -/
theorem State.idle_keeps (s : State) : Keeps { s with now := s.now + 4 } s.idle :=
  State.prfSettle_keeps (State.standbyExited_keeps (State.standbyWaited_keeps (State.initTick_keeps (State.tick_keeps (Keeps.refl _)))))

theorem State.idle_now (s : State) : s.idle.now = s.now + 4 := (State.idle_keeps s).now

theorem State.idle_wf {s : State} (h : Memory.wf s = true) : Memory.wf s.idle = true := (State.idle_keeps s).memory h

theorem State.idle_otp {s : State} (h : Memory.wf s = true) : OtpGrows s s.idle :=
  (Keeps.atTime s (s.now + 4)).2.trans ((State.idle_keeps s).otp h)

end Sys2Proof.Machine
end

