-- ==== Sys2Proof/Laws/Web.lean ====
section
/-! SUPPORT. What the encoder operations do to the encoders' own records: reports, speeds and the stretch window leave them, and a counted
edge moves the position by SCALE (R222, R224). -/

set_option Elab.async false

namespace Sys2Proof.Machine

@[simp] theorem State.report_enc (s : State) (c : Nat) (a : Word) (l) : (s.report c a l).enc = s.enc := rfl
@[simp] theorem State.reportLimited_enc (s : State) (c k p : Nat) (a : Word) (l) : (s.reportLimited c k p a l).enc = s.enc := by
  simp only [State.reportLimited]; split
  · rfl
  · exact State.report_enc _ _ _ _
@[simp] theorem State.stretchEdge_enc (s : State) (k : Nat) (r f : Bool) : (s.stretchEdge k r f).enc = s.enc := by
  simp only [State.stretchEdge]
  repeat' split
  all_goals rfl
@[simp] theorem State.periodSpeed_enc (s : State) (k : Nat) (i) (n : Bool) : (s.periodSpeed k i n).enc = s.enc := by
  simp only [State.periodSpeed]; split
  · rfl
  · rfl
theorem State.encoder_of_enc {s t : State} (h : t.enc = s.enc) (k : Nat) : t.encoder k = s.encoder k := by
  simp only [State.encoder, h]
theorem State.countEdge_pe (s : State) (k : Nat) (neg : Bool) : ((s.countEdge k neg).encoder k).pe =
    (if neg then (s.encoder k).pe + 2 ^ 80 - s.get F.ENC_SCALE_SCALE k else (s.encoder k).pe + s.get F.ENC_SCALE_SCALE k) % 2 ^ 80 := by
  simp only [State.countEdge]
  rw [State.encoder_of_enc (State.stretchEdge_enc _ _ _ _)]
  have w : ∀ (s : State) (i : List Nat) (n : Bool), (s.periodSpeed k i n).encoder k = s.encoder k := fun s i n => State.encoder_of_enc (State.periodSpeed_enc s k i n) k
  have g : ∀ (s : State) (f : Fld) (v i j : Nat), (s.set f v i j).encoder k = s.encoder k := fun _ _ _ _ _ => rfl
  have g' : ∀ (s : State) (x), ({ s with str := x } : State).encoder k = s.encoder k := fun _ _ => rfl
  have y : ∀ (c : Prop) [Decidable c] (a b : State), (if c then a else b).encoder k = if c then a.encoder k else b.encoder k := by
    intro c _ a b; split <;> rfl
  have z : ∀ (c : Prop) [Decidable c] (a b : Encoder), (if c then a else b).pe = if c then a.pe else b.pe := by
    intro c _ a b; split <;> rfl
  simp only [y, g, g', w, State.encoder_setEncoder_same, z, ite_self]

end Sys2Proof.Machine
end

