-- ==== Sys2Proof/Tests/Slice0.lean ====
section
/-! SUPPORT. Tests: WellFormed refuses ill-formed commands; for every statement of Certificates/Slice0/Obligations.lean, states and
operands that meet its hypotheses, clause by clause and at the ends of the ranges; and single commands with the result the spec gives. -/

set_option Elab.async false

open Sys2Proof Sys2Proof.Machine

namespace Sys2Proof.Tests

/-! ### Small states -/

/-- The state with some register fields set: field, value, index, second index. -/
def fields (l : List (Fld × Nat × Nat × Nat)) (s : State) : State := l.foldl (fun s e => s.set e.1 e.2.1 e.2.2.1 e.2.2.2) s

/-- The reset state with some register fields set. -/
def mk (l : List (Fld × Nat × Nat × Nat)) : State := fields l State.reset

/-- Whether a register write takes effect, as a Bool. -/
def canReach (s : State) (off : Nat) : Bool := decide (s.dev ≠ stGrave) && !s.fused off && (s.deadIsland off).isNone

theorem reaches_of {s : State} {off : Nat} (h : canReach s off = true) : Reaches s off := by
  simp only [canReach, Bool.and_eq_true, decide_eq_true_eq, Bool.not_eq_true', Option.isNone_iff_eq_none] at h
  exact ⟨h.1.1, h.1.2, h.2⟩

/-- Whether an engine fetches `n` words, as a Bool; the state after that fetch is `(s.fetch e n).st`. -/
def canFetch (s : State) (e n : Nat) : Bool :=
  s.running e && decide ((s.engine e).pc.toNat + 4 * n ≤ localSize) && !(s.fetch e n).bad

theorem fetches_of {s : State} {e n : Nat} (h : canFetch s e n = true) : Fetches s e n (s.fetch e n).st := by
  simp only [canFetch, Bool.and_eq_true, decide_eq_true_eq, Bool.not_eq_true'] at h
  exact ⟨h.1.1, h.1.2, h.2, rfl⟩

/-- Engine 0 running with the registers of `x`, holding role 1, and some more fields set. -/
def engSt (x : Engine) (l : List (Fld × Nat × Nat × Nat) := []) : State :=
  (mk ([(F.ENG_ESTAT_STATE, 2, 0, 0), (F.ENG_ESTAT_HOLDS, 1, 0, 0), (F.ENG_ESTAT_ROLE, 1, 0, 0)] ++ l)).setEngine 0 x

/-- An engine with some general registers. -/
def regsE (l : List (Nat × DWord)) : Engine := l.foldl (fun x e => x.setReg e.1 e.2) Engine.reset

/-- An instruction word of format A with no guard. -/
def fa (d a b : Nat) (fn : Nat := 0) : FmtA :=
  { n := false, p := 0, d := BitVec.ofNat 5 d, a := BitVec.ofNat 5 a, b := BitVec.ofNat 5 b, fn := BitVec.ofNat 6 fn }

/-- The state after engine 0 fetched one word. -/
def ft (s : State) (n : Nat := 1) : State := (s.fetch 0 n).st

/-- The state whose Tarn holds the given bytes from offset `a` of tarn 0 on, in valid lines, and nothing else. -/
def withTarn (a : Nat) (bs : List Byte) (s : State) : State :=
  { s with tarn := { s.tarn with
    data := (bs.zipIdx.map (fun e => (a + e.2, e.1))).filter (fun e => decide (e.2 ≠ 0)),
    valid := (List.range ((bs.length + 63) / 64)).map (fun i => (a / 64 + i, true)) } }

/-! ### WellFormed -/

theorem test_wf_refuses :
    (Instr.registerWrite .host 0x6 0).wf = false ∧ (Instr.readClear 0x2).wf = false ∧ (Instr.latchingRead 0x1).wf = false ∧
    (Instr.bar0HoleAccess true 0 0).wf = false ∧ (Instr.bar2Request 0 (.read 0)).wf = false ∧ (Instr.bar2Request 0 (.read 4097)).wf = false ∧
    (Instr.bar2Request 0x3FFFFFF (.read 2)).wf = false ∧ (Instr.bar2Request 0 (.write [])).wf = false ∧
    (Instr.bar2Request 0x3FFFFFF (.write [none, none])).wf = false ∧ (Instr.entryStart 0 (some [0])).wf = false ∧
    (Instr.avsEnable 0 (some 65536)).wf = false ∧ (Instr.upstreamFrame 0 []).wf = false := by decide +kernel

theorem test_wf_refuses_messages : ∀ m ∈ [[], [(0 : Word), 0], [0x00400000]],
    (Instr.ackMsg 0 m).wf = false ∧ (Instr.bncap 0 m).wf = false ∧ (Instr.cap 0 m).wf = false ∧ (Instr.slotinfo 0 m).wf = false ∧
    (Instr.staged 0 m).wf = false ∧ (Instr.applied 0 m).wf = false ∧ (Instr.telem 0 m).wf = false ∧ (Instr.segEvent 0 m).wf = false ∧
    (Instr.loadres 0 m).wf = false ∧ (Instr.bnstat 0 m).wf = false ∧ (Instr.floss 0 m).wf = false := by decide +kernel

theorem test_wf_refuses_memories :
    (Instr.dramRequest .ing (.read 0 0)).wf = false ∧ (Instr.dramRequest .ing (.read 0xFFFFFFFFFF 2)).wf = false ∧
    (Instr.dramRequest .ing (.write 0 [])).wf = false ∧ (Instr.dramRequest .ing (.write 0xFFFFFFFFFF [0, 0])).wf = false ∧
    (Instr.burstDecode 0 (List.replicate 161 (0, 0, 0))).wf = false ∧
    (Instr.mr4Poll (List.replicate 9 { chan := 0, rank := 0, code := 0, doubled := false, beyond := false })).wf = false ∧
    (Instr.tarnAccess 0 0 .dma (.read 0)).wf = false ∧ (Instr.tarnAccess 0 63 .dma (.read 2)).wf = false ∧
    (Instr.tarnAccess 0 0 .dma (.write [])).wf = false ∧ (Instr.tarnAccess 0 63 .dma (.write [0, 0])).wf = false ∧
    (Instr.tempConversion []).wf = false := by decide +kernel

theorem test_wf_accepts :
    (Instr.registerWrite .host 0x4 0).wf = true ∧ (Instr.bar2Request 0x3FFFFFF (.read 1)).wf = true ∧
    (Instr.bar2Request 0 (.read 4096)).wf = true ∧ (Instr.ackMsg 0 [0x00400000, 0]).wf = true ∧
    (Instr.dramRequest .ing (.write 0xFFFFFFFFFF [0])).wf = true ∧ (Instr.tarnAccess 0 63 .dma (.read 1)).wf = true := by decide +kernel

/-! ### The block as a whole -/

theorem test_witness_EmptyQueueIsOneTick : State.reset.pending = [] := rfl

theorem test_witness_StepInvariants : ∃ t, Memory.wf State.reset = true ∧ step State.reset = .next t ∧ t.now = 4 :=
  ⟨_, by decide +kernel, rfl, by decide +kernel⟩

/-! ### Engine instructions -/

theorem test_witness_FalseGuardHasNoEffect :
    canFetch (engSt Engine.reset) 0 1 = true ∧ canFetch (engSt Engine.reset) 0 2 = true ∧
    guardOf true 0 ((ft (engSt Engine.reset)).engine 0) = false ∧ guardOf false 7 ((ft (engSt Engine.reset)).engine 0) = false := by
  decide +kernel

/-- The last places of the local store that hold one word and two. -/
theorem test_witness_fetch_ends :
    canFetch (engSt { Engine.reset with pc := 0x3FFFC }) 0 1 = true ∧ canFetch (engSt { Engine.reset with pc := 0x3FFF8 }) 0 2 = true ∧
    canFetch (engSt { Engine.reset with pc := 0x3FFFC }) 0 2 = false := by decide +kernel

theorem test_witness_TrapEntry :
    (engSt { Engine.reset with status := 1, tvec := 8 }).engine 0 = { Engine.reset with status := 1, tvec := 8 } ∧
    ((engSt { Engine.reset with tvec := 8 }).engine 0).status.toNat % 2 = 0 ∧ ((engSt { Engine.reset with tvec := 8 }).engine 0).tvec ≠ 0 ∧
    canFetch (engSt Engine.reset) 0 1 = true ∧ guardOf false 0 ((ft (engSt Engine.reset)).engine 0) = true ∧
    14 < (fa 0 0 0 15).fn.toNat ∧ (12 < (fa 0 0 1 13).fn.toNat ∧ (fa 0 0 1 13).b ≠ 0) ∧ 6 < (fa 0 0 0 7).fn.toNat ∧ 7 < (fa 8 0 0).d.toNat ∧
    2 < (fa 0 0 0 3).fn.toNat ∧ 3 < (fa 0 0 0 4).fn.toNat ∧ (fa 1 0 0).d ≠ 0 ∧ ((ft (engSt Engine.reset)).engine 0).status.toNat % 2 = 0 := by
  decide +kernel

theorem test_witness_IntegerResults :
    let s := engSt (regsE [(1, 7), (2, 5)])
    let x := (ft s).engine 0
    canFetch s 0 1 = true ∧ canFetch s 0 2 = true ∧ guardOf (fa 3 1 2).n (fa 3 1 2).p x = true ∧
    (∀ fn ∈ List.range 15, (aluFn fn (if fn < 13 then 2 else 0) (x.reg 1) (x.reg 2)).isSome = true) ∧
    (∀ fn ∈ List.range 3, (mulFn fn (x.reg 1) (x.reg 2)).isSome = true) ∧
    (x.reg 2 ≠ 0 ∧ ∀ fn ∈ List.range 4, (divFn fn (x.reg 1) (x.reg 2)).isSome = true) ∧
    (∀ fn ∈ List.range 3, ∀ n ∈ [0, 63], (shiFn fn n (x.reg 1)).isSome = true) ∧
    (∀ fn ∈ List.range 7, (cmpFn fn (x.reg 1) (x.reg 2)).isSome = true) ∧
    (∀ fn ∈ List.range 4, (plogFn fn (x.pred 0) (x.pred 7)).isSome = true) := by decide +kernel

theorem test_witness_RegistersReadBack : (0 : Nat) < 8 ∧ (7 : Nat) < 8 := by decide

theorem test_witness_DivisionCorners :
    let s := engSt (regsE [(1, BitVec.intMin 64), (2, -1)])
    canFetch s 0 1 = true ∧ guardOf false 0 ((ft s).engine 0) = true ∧ ((ft s).engine 0).reg 1 = BitVec.intMin 64 ∧
    ((ft s).engine 0).reg 2 = -1 ∧ (fa 3 1 2 2).fn = 2 ∧ (fa 3 1 2 3).fn = 3 ∧ ((ft s).engine 0).reg 0 = 0 ∧ (fa 3 1 0 3).fn.toNat < 4 := by
  decide +kernel

/-- An aligned word at the end of the local store, one that is not aligned, and one outside the three spaces. -/
theorem test_witness_LocalLoadsAndStores :
    let s := engSt (regsE [(1, 0x3FFFC), (2, 0x3FFFE), (3, 0x40000)])
    let m (a : Nat) : FmtM := { d := 4, a := BitVec.ofNat 5 a, s := false, sz := 2, off := 0 }
    let x (fn : Nat) : FmtX := { n := false, p := 0, d := 4, a := 1, fn := BitVec.ofNat 11 fn, imm := 0 }
    canFetch s 0 1 = true ∧ canFetch s 0 2 = true ∧ guardOf false 0 ((ft s 2).engine 0) = true ∧
    ((ft s).addrM 0 (m 1)).toNat % 4 = 0 ∧ inLocal ((ft s).addrM 0 (m 1)).toNat 4 = true ∧ ((ft s).readLocal 0 0x3FFFC 4).bad = false ∧
    (∀ fn ∈ [2, 6], ((ft s 2).addrX 0 (x fn)).toNat = 0x3FFFC ∧ (x fn).fn.toNat < 8) ∧ inLocal 0x3FFFC 4 = true ∧
    ((ft s).addrM 0 (m 2)).toNat % 4 ≠ 0 ∧
    (((ft s).addrM 0 (m 3)).toNat % 4 = 0 ∧ inLocal 0x40000 4 = false ∧ inTarn 0x40000 4 = false ∧ inIo 0x40000 4 = false) := by
  decide +kernel

theorem test_witness_AtomicsAndFence :
    let s := engSt (regsE [(1, 0x10000008), (2, 3), (4, 9)])
    let x := (ft s).engine 0
    canFetch s 0 1 = true ∧ guardOf false 0 x = true ∧ inTarn 0x10000008 8 = true ∧ (x.reg 1).toNat = 0x10000008 ∧
    ((ft s).readTarn 8 8).bad = false ∧ (∀ fn ∈ List.range 3, (atomNew fn 0 0 (x.reg 2)).isSome = true) ∧
    atomNew 0 0 (x.reg 4) (x.reg 2) = none := by decide +kernel

theorem test_witness_ControlInstructions :
    let s := engSt (regsE [(1, 0x3FFFC), (2, 0x3FFFE), (3, 0x40000)])
    let r := engSt { Engine.reset with status := 7 }
    let x := (ft s).engine 0
    let b (d : BitVec 20) : FmtB := { n := false, p := 0, l := true, disp := d }
    canFetch s 0 1 = true ∧ guardOf false 0 x = true ∧
    (((x.pc.setWidth 64 : DWord) + 4 * (b 0xFFFF).disp.signExtend 64).toNat % 4 = 0 ∧
      ((x.pc.setWidth 64 : DWord) + 4 * (b 0xFFFF).disp.signExtend 64).toNat < localSize) ∧
    ((x.reg 1).toNat % 4 = 0 ∧ (x.reg 1).toNat < localSize) ∧ (x.reg 2).toNat % 4 ≠ 0 ∧
    ((x.reg 3).toNat % 4 = 0 ∧ localSize ≤ (x.reg 3).toNat) ∧
    canFetch r 0 1 = true ∧ ((ft r).engine 0).status.toNat % 2 = 1 := by decide +kernel

theorem test_witness_SpecialRegisters :
    let s := engSt (regsE [(1, 9)])
    canFetch s 0 1 = true ∧ guardOf false 0 ((ft s).engine 0) = true ∧
    (∀ n ∈ [0, 6, 8, 11, 0x10, 0x17, 0x20, 0x24, 0x28, 0x2B], s.mfsVal 0 n ≠ none ∧ (ft s).mfsVal 0 n ≠ none) ∧
    (∀ n ∈ [3, 4, 0x20, 0x24, 0x2B], (((ft s).engine 0).mts n (((ft s).engine 0).reg 1)).isSome = true) ∧
    (fa 3 0 0).a = 0 ∧ (fa 3 0 0).b = 0 ∧ (fa 3 0 0).fn = 0 := by decide +kernel

/-- Input 63 of engine 0 enabled with a count of 1: a WAIT that wakes, one that sleeps, and one that never would. -/
theorem test_witness_WaitingOnEvents :
    let l := [(F.ENG_EVROUTE_EN, 1, 0, 63), (F.ENG_EVROUTE_COUNT, 1, 0, 63)]
    let s := engSt (regsE [(1, 0x8000000000000000), (2, 1)]) l
    let x := (ft s).engine 0
    let z (t : Option DWord) (m : DWord) := (fields (l ++ [(F.ENG_ESTAT_STATE, 3, 0, 0)]) State.reset).setEngine 0
      { Engine.reset with wait := some { mask := m, all := true, until_ := t, d := 3 } }
    canFetch s 0 1 = true ∧ guardOf false 0 x = true ∧ x.reg 1 ≠ 0 ∧
    (waitCond (ft s) 0 (x.reg 1) true = some (x.reg 1) ∧ waitCond (ft s) 0 (x.reg 1) false = some (x.reg 1)) ∧
    (waitCond (ft s) 0 (x.reg 0) false = none ∧ x.reg 0 = 0 ∧ x.reg 2 ≠ 0) ∧ waitCond (ft s) 0 1 true = none ∧
    ((z none (x.reg 1)).estate 0 = esWaiting ∧ waitCond (z none (x.reg 1)) 0 (x.reg 1) true = some (x.reg 1)) ∧
    ((0 : DWord).toNat ≤ (z (some 0) 1).tbNs 0 ∧ waitCond (z (some 0) 1) 0 1 true = none) ∧
    waitCond (z (some 0) (x.reg 1)) 0 (x.reg 1) true = some (x.reg 1) := by decide +kernel

theorem test_witness_CompareChannels :
    let s := engSt (regsE [(1, 9)])
    let p := s.setPchan 31 { armed := true, target := 0, sel := 1 }
    let q := s.setTchan 31 { armed := true, target := 0, sel := 3 }
    canFetch s 0 1 = true ∧ guardOf false 0 ((ft s).engine 0) = true ∧ (fa 3 1 31 1).b = BitVec.ofNat 5 31 ∧ (fa 3 1 31 1).fn.toNat < 2 ∧
    (fa 3 1 0 3).b = BitVec.ofNat 5 0 ∧ (fa 3 1 0 3).fn.toNat < 4 ∧
    ((p.pchanOf 31).armed = true ∧ posReached p (p.pchanOf 31) = true) ∧
    ((q.tchanOf 31).armed = true ∧ timeReached q (q.tchanOf 31) = true) := by decide +kernel

theorem test_witness_ProgramDeadlines :
    let s := engSt (regsE [(1, 9)])
    let p := s.setDeadline 15 (some 0)
    (canFetch s 0 1 = true ∧ guardOf false 0 ((ft s).engine 0) = true ∧ 8 ≤ (fa 3 1 8).b.toNat ∧ (fa 3 1 15).b.toNat ≤ 15) ∧
    ((ft s).deadlineOf 15 = none ∧ (ft p).deadlineOf 15 = some 0 ∧ canFetch p 0 1 = true) ∧
    (p.deadlineOf 15 = some 0 ∧ (0 : DWord).toNat ≤ p.tbNs 0 ∧ Tab.get (fun _ => false) p.eng.passed 15 = false) := by decide +kernel

theorem test_witness_Mailboxes :
    let s := engSt (regsE [(1, 17), (2, 18)])
    let m : Mail := { src := 0, lo := 1, hi := 2 }
    let full := s.setEngine 17 { Engine.reset with mailbox := List.replicate 16 m }
    let r := engSt { Engine.reset with mailbox := [m] }
    canFetch s 0 1 = true ∧ guardOf false 0 ((ft s).engine 0) = true ∧ (fa 3 1 4).b.toNat % 2 = 0 ∧
    (((ft s).engine 0).reg 1).toNat ≤ 17 ∧ ((ft s).engine 17).mailbox.length < 16 ∧
    (canFetch full 0 1 = true ∧ 16 ≤ ((ft full).engine 17).mailbox.length) ∧ 17 < (((ft s).engine 0).reg 2).toNat ∧
    ((ft s).engine 0).mailbox = [] ∧ (canFetch r 0 1 = true ∧ ((ft r).engine 0).mailbox = [m]) := by decide +kernel

/-- A Tarn line that holds 32 bytes of a transfer of 8 bytes from the local store to Tarn; 8 in flight; a halted channel. -/
def dmaSt (n : Nat) (l : List (Fld × Nat × Nat × Nat)) : State :=
  let j : DmaJob := { srcSp := 0, dstSp := 1, tag := 0, len := 8, src := 0, dst := 0, ev := false }
  let bytes := leBytes 4 0x01000000 ++ leBytes 4 8 ++ List.replicate 8 0 ++ leBytes 4 0x10000000 ++ List.replicate 12 0
  withTarn 0 bytes (engSt { regsE [(1, 0x10000000), (2, 0x10000040)] with dma := List.replicate n j } l)

theorem test_witness_EngineDma :
    let s := dmaSt 7 []
    let f := dmaSt 8 []
    let h := dmaSt 0 [(F.TARN_DMAHALT_HALT, 1, 0, 0)]
    let w := f.setEngine 0 { f.engine 0 with stall := some (.dma { srcSp := 0, dstSp := 1, tag := 0, len := 8, src := 0, dst := 0, ev := true } 3) }
    (canFetch s 0 1 = true ∧ guardOf false 0 ((ft s).engine 0) = true ∧ ((ft s).readEng 0 0x10000000 32).bad = false ∧
      (dmaForm ((ft s).readEng 0 0x10000000 32).bytes).isSome = true ∧ (((ft s).readEng 0 0x10000000 32).st.engine 0).dma.length < 8 ∧
      bitN (((ft s).readEng 0 0x10000000 32).st.get F.TARN_DMAHALT_HALT) 0 = 0) ∧
    (((ft s).readEng 0 0x10000040 32).bad = false ∧ dmaForm ((ft s).readEng 0 0x10000040 32).bytes = none) ∧
    (canFetch h 0 1 = true ∧ (dmaForm ((ft h).readEng 0 0x10000000 32).bytes).isSome = true ∧
      bitN (((ft h).readEng 0 0x10000000 32).st.get F.TARN_DMAHALT_HALT) 0 = 1) ∧
    (canFetch f 0 1 = true ∧ 8 ≤ (((ft f).readEng 0 0x10000000 32).st.engine 0).dma.length) ∧
    ((f.engine 0).dma[7]?).isSome = true ∧ (f.engine 0).stall = none ∧ ((w.engine 0).dma[0]?).isSome = true ∧ (w.engine 0).stall.isSome = true := by
  decide +kernel

/-- A descriptor of engine 0 for gate 0x21 (role 11) with claim 33. -/
def descOf (op : Nat) (role : Nat := 11) (done : Bool := true) : Desc :=
  { op := BitVec.ofNat 8 op, role := BitVec.ofNat 4 role, fence := false, cev := true, tag := 7, claim := 33, line := 0, w4 := 0, w5 := 0, w6 := 0, w7 := 0,
    engine := 0, at_ := 0, done := done }

/-- A gate that holds one descriptor, and presents one. -/
def gateSt (g : Nat) (d : Desc) (claim : Word := 0) (l : List (Fld × Nat × Nat × Nat) := []) : State :=
  ({ mk l with now := 1001 }).setGate g { claim := claim, queue := [d], presented := [d], stopped := false }

theorem test_witness_DescriptorsAtGates :
    let s := engSt (regsE [(1, 0x10000000), (2, 0x21), (3, 0x22)])
    let y := (mk [(F.ENG_ESTAT_STATE, 2, 0, 0)])
    (canFetch s 0 1 = true ∧ guardOf false 0 ((ft s).engine 0) = true ∧ (ft s).holds 0 = true ∧ (ft s).gateExists 0x21 = true ∧
      ((ft s).readEng 0 0x10000000 32).bad = false ∧ (ft s).gateExists 0x22 = false) ∧
    (canFetch y 0 1 = true ∧ (ft y).holds 0 = false) ∧
    ((gateSt 33 (descOf 1)).gate 33).presented.find? (fun x => x.engine == 0) = some (descOf 1) ∧
    (descOf 1 10).role.toNat ≠ gateRole 33 ∧ ((descOf 1).role.toNat = gateRole 33 ∧ (descOf 1).claim.toNat < (34 : Word).toNat) ∧
    (33 : Word).toNat ≤ (descOf 1).claim.toNat ∧
    (gateMarks 0 = false ∧ gateMarks 9 = true ∧ gateMarks 16 = true ∧ gateMarks 33 = true ∧ (descOf 1).done = true) ∧
    ((descOf 3).op = 3 ∧ (descOf 4).op = 4) ∧ (gateSt 33 (descOf 3) 0 [(F.DEV_FEATACT_BITS, 32, 0, 0)]).feature 5 = true ∧
    (descOf 1).at_ + max 1 (({ mk [(F.ENG_STALLTO_TIMEOUT, 0, 0, 0)] with now := 1001 } : State).get F.ENG_STALLTO_TIMEOUT) * 1000 < 1001 := by
  decide +kernel

theorem test_witness_ClaimAndYield :
    let s := engSt { regsE [(1, 15), (2, 0x7FFFFFF), (3, 0x8000000), (4, 14)] with roles := 0x8000 }
    let x := (ft s).engine 0
    let held := mk [(F.SPR_RCLAIM_CLAIM, 33, 15, 0), (F.SPR_RCTL_WATCH, 1, 15, 0), (F.SPR_RCTL_HBTO, 1, 15, 0), (F.SPR_CTL_EN, 1, 0, 0)]
    let hb : State := { held with now := 1000000, spr := { held.spr with beatAt := [(15, some 0)] } }
    let tk (l : List (Fld × Nat × Nat × Nat)) : State := { fields l held with spr := { held.spr with pendingTake := [15] } }
    let cold (s : State) :=
      let u := ((({ s with spr := { s.spr with pendingTake := s.spr.pendingTake.filter (· ≠ 15) } } : State).set F.SPR_TKSTAT_BUSY 1).set
        F.SPR_TKSTAT_ROLE 15).bump F.SPR_TKSTAT_COUNT |>.report C.spr_takeover (mkArg none (some 15) 1)
      let w := if u.estate 1 = esHalted then u else u.stopEngine 1 esHalted
      (w.get F.SPR_IMG_ADDR 15, (takeSpare 15 1 (w.get F.SPR_IMG_ADDR 15 * 64) (w.get F.SPR_RCLAIM_CLAIM 15 / 32 + 1) 18 w).1)
    (canFetch s 0 1 = true ∧ guardOf false 0 x = true ∧ x.reg 2 ≠ 0 ∧ (x.reg 2).toNat < 2 ^ 27 ∧ x.roles.getLsbD 15 = true ∧
      2 ^ 27 ≤ (x.reg 3).toNat ∧ x.reg 0 = 0 ∧ x.roles.getLsbD 14 = false) ∧
    (canReach s 0x11000c = true ∧ canReach s 0x110010 = true ∧ canReach s 0x110014 = true ∧ s.holds 0 = true) ∧
    heldRoles (s.setFailed 0) 0 16 = [] ∧
    heldRoles ((mk [(F.SPR_RCLAIM_CLAIM, 32, 15, 0)]).setFailed 0) 0 16 = [15] ∧
    (hb.holderOf 15 = some 1 ∧ hb.on F.SPR_RCTL_WATCH 15 = true ∧ hb.on F.SPR_RCTL_PAIR 15 = false ∧
      hb.elapsedUs 0 (hb.hbto 15) = true ∧ hb.takeoverBusy 15 = false) ∧
    ((tk []).takeoverAllowed = true ∧ (tk []).on F.SPR_TKSTAT_BUSY = false ∧ listMin? (tk []).spr.pendingTake = some 15 ∧ (tk []).holderOf 15 = some 1) ∧
    (cold (tk [])).1 = 0 ∧ ((cold (tk [(F.SPR_IMG_ADDR, 1, 15, 0)])).1 ≠ 0 ∧ (cold (tk [(F.SPR_IMG_ADDR, 1, 15, 0)])).2 = false) := by
  decide +kernel

/-- An engine image of 64 bytes of text, entered at 0, with its check value (R79). -/
def image : List Byte :=
  let h := leBytes 4 0x4A4E5559 ++ leBytes 4 1 ++ leBytes 4 0 ++ leBytes 4 0 ++ leBytes 4 64 ++ List.replicate 28 0
  let t : List Byte := List.replicate 64 0
  let z : List Byte := List.replicate 12 0
  h ++ leBytes 4 (crc32c (h ++ [0, 0, 0, 0] ++ z ++ t)).toNat ++ z ++ t

theorem test_witness_EngineImages :
    let s := withTarn 0 image (engSt (regsE [(1, 0x10000000), (2, 17), (3, 18)]))
    let j (b : Option Nat) : LoadJob := { addr := 0x10000000, by_ := b, role := 15, epoch := 1 }
    let l (b : Option Nat) := ((engSt Engine.reset).setEngine 0 { Engine.reset with loading := some (j b) }).setEngine 1
      { Engine.reset with stall := some (.eload 0 3) }
    let v := (l (some 1)).startImage 0 0x10000000
    canFetch s 0 1 = true ∧ guardOf false 0 ((ft s).engine 0) = true ∧ ((ft s).imageCode 0x10000000 17 (some 0)).1 = 0 ∧
    ((ft s).imageCode 0x10000000 18 (some 0)).1 = 6 ∧ ((l none).engine 0).loading.map (·.by_) = some none ∧
    (((l (some 1)).engine 0).loading.map (·.by_) = some (some 1) ∧ v.sec.relPend = [] ∧ (v.engine 1).stall = some (.eload 0 3)) := by
  decide +kernel

/-- Engine 0 of role 1 with group 63 in a state, owned by a role, and its registers 1 and 2. -/
def grpSt (st role : Nat) (r : List (Nat × DWord)) : State :=
  engSt (regsE r) [(F.CMT_GSTAT_STATE, st, 63, 0), (F.CMT_GSTAT_ROLE, role, 63, 0)]

theorem test_witness_CommitGroupInstructions :
    let o := grpSt cgOpen 1 [(1, 63), (2, 1), (3, 0x70000)]
    let full := engSt Engine.reset ((List.range 64).map (fun g => (F.CMT_GSTAT_STATE, cgOpen, g, 0)))
    let n := mk [(F.ENG_ESTAT_STATE, 2, 0, 0)]
    (canFetch o 0 1 = true ∧ guardOf false 0 ((ft o).engine 0) = true ∧ (ft o).holds 0 = true ∧ (ft o).gstate 63 = cgOpen ∧
      (ft o).get F.CMT_GSTAT_ROLE 63 = (ft o).roleOf 0 ∧ (((ft o).engine 0).reg 1).toNat = 63 ∧ (((ft o).engine 0).reg 2).toNat < 2) ∧
    ((ft o).openGroup 1 true).isSome = true ∧ (canFetch full 0 1 = true ∧ (ft full).openGroup 1 true = none) ∧
    ((ft o).commitGroup 63 0 0 0).1.isSome = true ∧ ((fa 3 1 2 35).fn.toNat / 8 = 4 ∧ (fa 3 1 2 35).fn.toNat % 8 ≤ 3) ∧
    ((ft o).commitGroup 63 2 7 0).1 = none ∧ (canFetch n 0 1 = true ∧ (ft n).holds 0 = false) ∧
    (let p := grpSt cgAborted 2 [(1, 63)]
     canFetch p 0 1 = true ∧ (ft p).gstate 63 ≠ cgFree ∧ (ft p).get F.CMT_GSTAT_ROLE 63 ≠ (ft p).roleOf 0) := by decide +kernel

/-- The standing profile's frame with one table, the patch table. -/
def tableSt : State :=
  let f : Frame := { Frame.empty with tables := [{ id := 0x3F00, bankA := 0x10000000, bankB := 0x10001000, size := 4096 }] }
  { State.reset with prf := { PrfState.reset with live := some { Profile.empty with frame := f } } }

theorem test_witness_TimeGroupsAndTables :
    let s := mk [(F.CMT_GSTAT_STATE, cgCommitted, 63, 0), (F.CMT_GBND_KIND, 4, 63, 0)]
    (s.gstate 63 = cgCommitted ∧ s.get F.CMT_GBND_KIND 63 = 4 ∧ (s.group 63).bval.toNat ≤ s.tbNs (s.get F.CMT_GBND_SEL 63) ∧
      (s.group 63).begun = false) ∧
    canReach tableSt 0x30004 = true ∧ (tableSize (fieldOf (0x3F00 : Word) 0 16)).isSome = true ∧
    (tableSt.bankAddr (fieldOf (0x3F00 : Word) 0 16) true).isSome = true ∧ tableSize (fieldOf (0x0000 : Word) 0 16) = none := by decide +kernel

/-- The shortest and the longest checkpoint at an aligned place, with the slot area in Tarn; and a slot that holds one of 64 bytes. -/
theorem test_witness_Checkpoints :
    let e (l : List (Nat × DWord)) : Engine := { regsE l with ckbase := 0x10000000 }
    let s := engSt (e [(1, 0x3FFC0), (2, 64), (3, 1)])
    let x := (ft s).engine 0
    let z : List Byte := List.replicate 64 0
    let h := leBytes 8 1 ++ List.replicate 12 0 ++ leBytes 4 64 ++ leBytes 4 0
    let q := withTarn 0x10000 (h ++ leBytes 4 (crc32c (h ++ z)).toNat ++ List.replicate 32 0 ++ z) s
    canFetch s 0 1 = true ∧ guardOf false 0 x = true ∧ (ft s).holds 0 = true ∧ (x.reg 2).toNat % 64 = 0 ∧
    (x.reg 1).toNat + (x.reg 2).toNat ≤ localSize ∧ inTarn (ckSlot x 1) 0x10000 = true ∧ ((ft s).readLocal 0 0x3FFC0 64).bad = false ∧
    (32704 % 64 = 0 ∧ 64 + 32704 ≤ localSize) ∧ ((ft s).currentBank (ckSlot x 1 - 0x10000000)).1.isNone = true ∧
    (canFetch q 0 1 = true ∧ (((ft q).currentBank (ckSlot x 1 - 0x10000000)).1.map (fun k => (k.1, k.2.seq, k.2.data.length))) = some (0, 1, 64) ∧
      (x.reg 1).toNat + 64 ≤ localSize) := by decide +kernel

theorem test_witness_EngineBlockWrites :
    let on := mk [(F.ENG_EVROUTE_EN, 1, 17, 63), (F.ENG_GAUGE_EN, 1, 15, 0), (F.ENG_PACE_MIN, 2, 0, 0)]
    let low : State := { on with eng := { on.eng with paceLow := 9 } }
    let avs := mk [(F.ENG_AVSCTL_EN, 1, 0, 0)]
    let eng (x : EngState) : State := { State.reset with now := 2000000, eng := x }
    (canReach on (R.ENG_EVROUTE.off 17 63) = true ∧ fieldOf (on.rd (R.ENG_EVROUTE.off 17 63)) 31 1 = 1 ∧ fieldOf (0x80000000 : Word) 31 1 = 1 ∧
      ¬(fieldOf (State.reset.rd (R.ENG_EVROUTE.off 17 63)) 31 1 = 1 ∧ fieldOf (0 : Word) 31 1 = 1)) ∧
    canReach on 0x20024 = true ∧ (canReach on (R.ENG_GAUGE.off 15 0) = true ∧ on.on F.ENG_GAUGE_EN 15 = true) ∧
    (State.reset.on F.ENG_GAUGE_EN 15 = false ∧ ((State.reset.swWrite (R.ENG_GAUGE.off 15 0) 0xC0000000).set F.ENG_SLACKMIN_VALUE 0x7FFFFF 15).on
      F.ENG_GAUGE_EN 15 = true) ∧
    (satAdd 11 on.eng.paceLow 1 ≠ 10 ∧ satAdd 11 low.eng.paceLow 1 = 10 ∧ low.get F.ENG_PACE_MIN ≠ 0 ∧ (1 : BitVec 16).toNat < low.get F.ENG_PACE_MIN) ∧
    (canReach State.reset 0x20010 = true ∧ State.reset.on F.ENG_AVSCTL_EN = false ∧
      (State.reset.swWrite 0x20010 0x80000000).on F.ENG_AVSCTL_EN = true) ∧
    (avs.on F.ENG_AVSCTL_EN = true ∧ avs.on F.ENG_AVSSTAT_BUSY = false) ∧
    (eng { EngState.reset with avsReq := some 3, avsFails := 2 }).eng.avsReq = some 3 ∧
    (let x := eng { EngState.reset with settleEnd := some 2000000, differs := some 0 }
     x.eng.settleEnd = some 2000000 ∧ 2000000 ≤ x.now ∧ x.eng.differs = some 0 ∧ 0 + 1000000 < x.now) ∧
    (canReach State.reset 0x20014 = true ∧ min 30 (fieldOf (0x1F1F : Word) 8 8) < fieldOf (0x1F1F : Word) 0 8 ∧
      fieldOf (0x1F1E : Word) 0 8 ≤ min 30 (fieldOf (0x1F1E : Word) 8 8)) := by decide +kernel

/-! ### Registers, the host and jobs -/

/-- The word 0 of a message with an opcode. -/
def op0 (opc : Nat) (more : Nat := 0) : Word := BitVec.ofNat 32 (opc * 2 ^ 24 + more)

/-- Message 7 of queue pair 0: opcode, LEN and some arguments. -/
def msg (opc : Nat) (args : List (Nat × Word) := []) (len : Nat := 0) : Msg :=
  let put (ws : List Word) (e : Nat × Word) := ws.set (if e.1 = 0 then 1 else e.1 + 4) e.2
  { tok := 7, q := 0, words := args.foldl put (op0 opc :: 0 :: 0 :: 0 :: BitVec.ofNat 32 len :: List.replicate 11 0), sqhead := 0, live := true }

/-- A state with one started message. -/
def withMsg (m : Msg) (s : State) : State := { s with host := { s.host with started := [m] } }

theorem test_witness_RegisterAccesses :
    let g := mk [(F.DEV_STATE_STATE, 8, 0, 0)]
    let f := { State.reset with fused8816 := true }
    (0x4 % 4 = 0 ∧ (regBehind 0x4).isSome = true ∧ canReach State.reset 0x4 = true) ∧ g.dev = stGrave ∧
    (f.fused (R.HLP_CTL.off 15 0) = true ∧ (regBehind (R.HLP_CTL.off 15 0)).isSome = true ∧ R.HLP_CTL.off 15 0 < 2 ^ 21 ∧
      R.HLP_CTL.off 15 0 % 4 = 0) ∧ ((0 : Nat) ≤ 31 ∧ 31 < 32 ∧ 32 ≤ 32 ∧ 5 < 2 ^ 32) := by decide +kernel

theorem test_witness_HostWindows :
    let s := State.reset
    (2 ≠ 4 ∨ 0 % 4 ≠ 0) ∧ (4 = 4 ∧ (0x3000 : BitVec 21).toNat % 4 = 0 ∧ regBehind 0x3000 = none) ∧
    (({ s with host := { s.host with rdata2 := [], poisoned := false } } : State).lcs ≠ lcRetired ∧ 0 + 4096 ≤ tarnSize ∧
      (tarnSize - 1) + 1 ≤ tarnSize) ∧ (s.dev ≠ stGrave ∧ s.lcs ≠ lcRetired) ∧ canReach s 0x10000 = true ∧ fieldOf (0 : Word) 31 1 = 0 ∧
    (fieldOf (0x80000000 : Word) 31 1 = 1 ∧ s.feature 8 = false) := by decide +kernel

theorem test_witness_Negotiation :
    let ok := mk [(F.DEV_STATE_STATE, 3, 0, 0), (F.DEV_FEATREQ_BITS, 1, 0, 0), (F.DEV_FEATOFF_BITS, 1, 0, 0)]
    let v : Word := BitVec.ofNat 32 (2 ^ 31 + (ok.get F.DEV_NEG_IFMIN) * 2 ^ F.DEV_NEG_IFVER.lo)
    let good (s : State) :=
      let u := s.swWrite 0x1c v
      let req := u.get F.DEV_FEATREQ_BITS
      decide (fieldOf v 31 1 = 1) && !s.on F.DEV_NEG_DONE && decide (u.dev = stNegotiate) &&
        (decide (Nat.land req (u.get F.DEV_FEATOFF_BITS) = req ∧ bitN req 0 = 1 ∧ u.get F.DEV_NEG_IFMIN ≤ u.get F.DEV_NEG_IFVER ∧
          u.get F.DEV_NEG_IFVER ≤ u.get F.DEV_NEG_IFMAX))
    canReach ok 0x1c = true ∧ good ok = true ∧ good (ok.set F.DEV_FEATREQ_BITS 3) = false ∧
    (ok.set F.DEV_NEG_DONE 1).on F.DEV_NEG_DONE = true ∧ Memory.wf ok = true := by decide +kernel

/-- Queue pair `q` running with the given ring indices. -/
def queueSt (q size tail head cq cqh : Nat) (l : List (Fld × Nat × Nat × Nat) := []) : State :=
  mk ([(F.DEV_STATE_STATE, 4, 0, 0), (F.DEV_NEG_DONE, 1, 0, 0), (F.RING_QCFG_EN, 1, q, 0), (F.RING_QCFG_SIZE, size, q, 0), (F.RING_SQTAIL_INDEX, tail, q, 0),
    (F.RING_QSTAT_SQHEAD, head, q, 0), (F.RING_QSTAT_CQTAIL, cq, q, 0), (F.RING_CQHEAD_INDEX, cqh, q, 0)] ++ l)

theorem test_witness_QueuePairs :
    let s := queueSt 0 3 3 0 3 0
    let off := mk []
    (canReach s (R.RING_QCFG.off 63 0) = true ∧ s.on F.RING_QCFG_EN 0 = true ∧ off.on F.RING_QCFG_EN 63 = false ∧
      off.qOwn 63 = true ∧ off.feature 1 = false ∧ (off.set F.RING_QCFG_SIZE 3 0).qOwn 0 = false) ∧
    (canReach s (R.RING_SQTAIL.off 0 0) = true ∧ fieldOf (3 : Word) 0 12 ≤ s.qsize 0 ∧ s.qsize 0 < fieldOf (4 : Word) 0 12) ∧
    (canReach s (R.RING_CQHEAD.off 0 0) = true ∧ s.qsize 0 + 1 ≤ 4 ∧
      ¬ringDist 4 (s.get F.RING_CQHEAD_INDEX 0) (s.get F.RING_QSTAT_CQTAIL 0) < ringDist 4 (s.get F.RING_CQHEAD_INDEX 0) 3 ∧
      (ringDist 4 1 2 < ringDist 4 1 3)) ∧
    (s.serves 0 = true ∧ s.host.started = [] ∧ startStatus (msg 0x01) = none ∧ startStatus (msg 0x55) = some .badopc) := by decide +kernel

theorem test_witness_CompletionsAndInterrupts :
    let c : Cmpl := { q := 0, cid := 1, status := 0, res0 := 0, res1 := 0, sqhead := 1 }
    let s : State := { queueSt 0 3 1 0 3 1 with host := { HostState.reset with held := [c] } }
    let d := s.set F.RING_QSTAT_CQTAIL 0 0
    let full : State := { queueSt 0 3 1 0 3 0 with host := { HostState.reset with held := [c], cqFullRep := [(0, true)] } }
    let w : State := { mk [(F.DEV_FEATACT_BITS, 512, 0, 0), (F.RING_QCOAL_TIME, 1, 0, 0)] with now := 1000, host := { HostState.reset with times := [(0, [1])] } }
    (s.host.held.find? (fun c => c.q == 0) = some c ∧ s.on F.RING_QCFG_EN 0 = true ∧ (3 + 1) % (s.qsize 0 + 1) ≠ s.get F.RING_CQHEAD_INDEX 0 ∧
      d.coalesces 0 = false) ∧
    ((3 + 1) % (full.qsize 0 + 1) = full.get F.RING_CQHEAD_INDEX 0 ∧ Tab.get (fun _ => false) full.host.cqFullRep 0 = true) ∧
    (Tab.get (fun _ => []) w.host.times 0 = [1] ∧ w.get F.RING_QCOAL_TIME 0 ≠ 0 ∧ w.coalesces 0 = true ∧
      1 + 1000 * w.get F.RING_QCOAL_TIME 0 ≤ w.now + 1) ∧
    (canReach s (R.MSIX_CTRL.off 127 0) = true ∧ bitN ((s.set F.MSIX_CTRL_MASK 0 127).get F.MSIX_PBA_PENDING 3) 31 = 0 ∧
      bitN ((mk [(F.MSIX_PBA_PENDING, 0x80000000, 3, 0)]).get F.MSIX_PBA_PENDING (127 / 32)) (127 % 32) = 1) ∧
    canReach s 0x10008 = true := by decide +kernel

theorem test_witness_StatusEventsAndHistory :
    let arm (n : Nat) (l : List (Fld × Nat × Nat × Nat)) (ev : List (Nat × Word)) : State :=
      { mk l with host := { HostState.reset with started := [msg 0x03], armed := List.replicate n { msg 0x03 with tok := 8 }, events := ev } }
    let on := [(F.DEV_FEATACT_BITS, 1024, 0, 0)]
    let h := withMsg (msg 0x02 [] 32) (mk [(F.FLT_HIST_WORD, 1, 0, 0)])
    (withMsg (msg 0x01) State.reset).msgOf 7 0x01 = some (msg 0x01) ∧
    ((arm 0 [] []).msgOf 7 0x03 = some (msg 0x03) ∧ (arm 0 [] []).feature 10 = false ∧ (arm 0 on []).feature 10 = true ∧
      16 ≤ (arm 16 on []).host.armed.length ∧ (∀ x ∈ (arm 16 on []).host.armed, x.tok ≠ 7) ∧ (arm 15 on []).host.armed.length < 16 ∧
      (arm 0 on []).host.events = [] ∧ (arm 0 on [(1, 2)]).host.events = [(1, 2)]) ∧
    (h.msgOf 7 0x02 = some (msg 0x02 [] 32) ∧ (msg 0x02 [] 32).len % 32 = 0 ∧ (msg 0x02 [] 33).len % 32 ≠ 0) ∧
    ((((heldSlots h 32).filter (fun k => ((msg 0x02).arg 0).toNat ≤ h.hist k 0)).foldr (insertSeq h) []).take 1).getLast?.isSome = true := by
  decide +kernel

theorem test_witness_MeasurementReads :
    let s := withMsg (msg 0x40 [(0, 8)] 64) State.reset
    s.msgOf 7 0x40 = some (msg 0x40 [(0, 8)] 64) ∧ ((msg 0x40 [(0, 8)]).arg 0).toNat = 8 ∧
    (s.camEntry 0 ++ s.camEntry 1).length ≤ 64 ∧ 0 < (s.camEntry 0 ++ s.camEntry 1).length ∧
    s.tempRecord.length ≤ 4096 ∧ (cableRecord s).length ≤ 4096 ∧ (slackRecord s).length ≤ 4096 ∧ s.encRecord.length ≤ 4096 ∧
    ((List.range 24).flatMap s.railEntry).length ≤ 4096 ∧ ((List.range 4).flatMap s.popEntry).length ≤ 4096 ∧ 0 < s.tempRecord.length := by
  decide +kernel

/-- The shortest profile image: a header with version 1.1 and its check value (R101). -/
def prfImage : ImageData :=
  let b (crc : Nat) := leBytes 4 0x464F5250 ++ leBytes 4 0x01000001 ++ leBytes 4 0 ++ leBytes 4 64 ++ List.replicate 20 0 ++ leBytes 4 crc ++
    List.replicate 24 0
  { bytes := b (crc32c (crcImage (b 0))).toNat, frame := Frame.empty }

theorem test_witness_ProfileMessages :
    let pr := { Profile.empty with version := 0x01000001 }
    let s := withMsg (msg 0x10 [] 64) State.reset
    let bs := prfImage.bytes.take 64
    let u := if s.lcs = lcProvisioned ∨ s.lcs = lcCertified then s.commitSvn (bs.take wrapSize) else s
    let prov := withMsg (msg 0x10 [] 64) (mk [(F.SEC_LCS_STATE, 1, 0, 0)])
    let pm (opc : Nat) (x : PrfState) (len : Nat := 0) : State := { withMsg (msg opc [(0, 65535)] len) State.reset with prf := x }
    (s.msgOf 7 0x10 = some (msg 0x10 [] 64) ∧ (s.unwrap bs).1 = 0 ∧ parseProfile (s.unwrap bs).2 Frame.empty = some pr ∧
      verFormat pr.version = 1 ∧ s.prf.standing = none ∧ u.prf.standing = none ∧ u.stageCheck pr = 0) ∧
    u.stageCheck { pr with regs := [(0, 0)] } ≠ 0 ∧ (prov.unwrap bs).1 ≠ 0 ∧
    (let x : PrfState := { PrfState.reset with draft := some pr }
     (pm 0x11 x).msgOf 7 0x11 = some (msg 0x11 [(0, 65535)]) ∧ ((msg 0x11 [(0, 65535)]).arg 0).toNat < 65536 ∧ x.proving = none ∧ x.pend = none) ∧
    (let x : PrfState := { PrfState.reset with proving := some pr, previous := some pr }
     ∀ opc ∈ [0x12, 0x13, 0x14, 0x15], (pm opc x).msgOf 7 opc = some (msg opc [(0, 65535)])) ∧
    ((msg 0x16 [] 31).len < 32 ∧ 32 ≤ (msg 0x16 [] 32).len ∧ (pm 0x16 PrfState.reset 32).msgOf 7 0x16 = some (msg 0x16 [(0, 65535)] 32)) := by
  decide +kernel

/-- A closed job of one panel of one line of one sample that is not repeated. -/
def job1 (closed : Bool) (start : Option Nat) : Job :=
  { id := 1, count := 1, gap := 0, r1200 := false, x0 := 0, closed := closed, start := start, seenStart := false, seq := none,
    panels := [{ form := 1, w := 1, h := 1, reps := 1, bg := 0, secure := false, keyid := 0, mapAddr := 0, freed := false }] }

/-- A frame with bar 0 on tile 0 of port 0. -/
def frame1 : Frame := { Frame.empty with bars := [(0, { tiles := [(0, 0)], lookahead := 64, depth := 1, dist := 0 })] }

/-- A device with that frame and job, in a device state, with one started message. -/
def jobSt (dev : Nat) (j : Option Job) (m : Msg) (l : List (Fld × Nat × Nat × Nat) := []) : State :=
  { withMsg m (mk ((F.DEV_STATE_STATE, dev, 0, 0) :: l)) with
    job := { JobState.reset with job := j }, prf := { PrfState.reset with live := some { Profile.empty with frame := frame1 } } }

theorem test_witness_FrameStaysWhileAJobIsOpen :
    let s (opc : Nat) (x : PrfState) : State := { jobSt 4 (some (job1 true none)) (msg opc) with prf := x }
    (s 0x11 { PrfState.reset with draft := some { Profile.empty with frame := frame1 } }).job.job ≠ none ∧ frame1 ≠ Frame.empty ∧
    (s 0x11 PrfState.reset).liveFrame = Frame.empty ∧ (s 0x11 PrfState.reset).prf.pend = none ∧
    (∀ opc ∈ [0x11, 0x13, 0x14, 0x15], (s opc PrfState.reset).msgOf 7 opc = some (msg opc)) ∧ ((msg 0x11).arg 0).toNat < 65536 := by
  decide +kernel

theorem test_witness_JobsAndPrinting :
    let jo := msg 0x20 [(0, 1), (1, 65535)]
    let s := jobSt 4 none jo
    let pd := msg 0x21 [(1, 1), (2, 1), (3, 1), (5, 1)]
    let j0 : Job := { job1 false none with panels := [] }
    let d := jobSt 4 (some j0) pd [(F.ING_MAPSIZE_MIB, 1, 0, 0)]
    let run (opc dev : Nat) (j : Job) (args : List (Nat × Word) := []) := jobSt dev (some j) (msg opc args)
    (s.msgOf 7 0x20 = some jo ∧ s.noLinePath = false ∧ s.job.job = none ∧ 1 ≤ (jo.arg 0).toNat ∧ (jo.arg 1).toNat < 65536 ∧ jo.arg 2 = 0 ∧
      (0x1000 : Word).toNat ≤ 4096) ∧
    (d.msgOf 7 0x21 = some pd ∧ d.panelStatus j0 (pd.arg 0).toNat 1 1 (pd.arg 4).toNat (pd.arg 5).toNat = none ∧
      d.ing.mapNext + cdiv 1 64 * stripesOf 1 * 16 ≤ d.get F.ING_MAPSIZE_MIB * 2 ^ 20 ∧
      d.panelStatus j0 1 1 1 0 0 = some .badfield) ∧
    ((run 0x23 4 (job1 false none)).msgOf 7 0x23 = some (msg 0x23) ∧ (job1 false none).count ≤ (job1 false none).panels.length ∧
      j0.panels.length < j0.count) ∧
    ((run 0x24 4 j0).msgOf 7 0x24 = some (msg 0x24) ∧ (run 0x24 4 j0).waitsStop 7 = false) ∧
    (let p := run 0x30 4 (job1 true none)
     p.msgOf 7 0x30 = some (msg 0x30) ∧ p.dev = stReady ∧ p.mayNotPrint = false ∧ (job1 true none).start = none ∧
       p.jobExhausted (job1 true none) = false ∧ p.auditFull = false ∧ p.startLine (msg 0x30) = .line p.leadLine) ∧
    (let p := run 0x32 6 (job1 true (some 0))
     p.msgOf 7 0x32 = some (msg 0x32) ∧ p.dev = stPaused ∧ p.mayNotPrint = false ∧ p.anyBarActive = false ∧
       p.allSegs.any (fun sg => p.on F.FIRE_SEG_HOT sg) = false ∧ (p.set F.FIRE_SEG_HOT 1).allSegs.any (fun sg => (p.set F.FIRE_SEG_HOT 1).on F.FIRE_SEG_HOT sg) = true) ∧
    (let p := run 0x31 5 (job1 true (some 0)) [(0, 1)]
     p.msgOf 7 0x31 = some (msg 0x31 [(0, 1)]) ∧ p.printing = true ∧ (msg 0x31 [(0, 1)]).arg 0 = 1 ∧ (msg 0x31).arg 0 = 0) ∧
    (let p := run 0x33 6 (job1 true (some 0))
     p.msgOf 7 0x33 = some (msg 0x33) ∧ p.waitsStop 7 = false ∧ p.printingOrPaused = true) := by decide +kernel

/-- A panel whose licence slot is used up. -/
theorem test_witness_exhausted :
    let k : KeySlot := { keyid := 5, lseq := 1, design := 0, key := [], metered := true, limit := 0, used := 0, beyond := 0 }
    let s : State := { State.reset with sec := { SecState.reset with slots := [(0, some k)] } }
    s.jobExhausted { job1 true none with panels := (job1 true none).panels.map (fun p => { p with secure := true, keyid := 5 }) } = true := by
  decide +kernel

/-- An INGEST of the one line of `job1` (kind 0 raw, 1 pre-compressed, 2 secure) on a device with a store of 1 MiB and lane 0. -/
def ingSt (kind len : Nat) (l : List (Fld × Nat × Nat × Nat) := []) : State :=
  jobSt 4 (some (job1 false none)) (msg 0x22 [(2, 1), (3, BitVec.ofNat 32 kind)] len)
    ([(F.ING_CTL_EN, 1, 0, 0), (F.ING_CTL_LANEN, 1, 0, 0), (F.ING_STSIZE_MIB, 1, 0, 0), (F.ING_STFREE_UNITS, 16384, 0, 0)] ++ l)

/-- Its one block, coded or not, and its INGEST in progress. -/
def blk1 (coded : Option (List Byte)) (tries : Nat := 0) : IngBlock :=
  { group := 0, stripe := 0, rows := [[(0, [0]), (1, [0]), (2, [0])]], flush := true, notLane := none, tries := tries, coded := coded, lane := none }
def ijob (kind : Nat) (bs : List IngBlock) (data : List Byte := []) : IngJob :=
  { IngJob.begin (msg 0x22 [(2, 1), (3, BitVec.ofNat 32 kind)] 6) 0 0 1 kind with blocks := bs, data := data }
def ingWith (js : List IngJob) (l : List (Fld × Nat × Nat × Nat) := []) (lanes : Tab (Option EncLane) := []) : State :=
  { ingSt 0 6 l with ing := { IngState.reset with jobs := js, lanes := lanes } }
def code1 : List Byte := State.reset.codeBlock { form := 1, w := 1, h := 1, reps := 1, bg := 0, secure := false, keyid := 0, mapAddr := 0, freed := false } 0 (blk1 none)
def lane1 (spw : List Nat) (done : Bool) (oos : Option Nat := none) : EncLane :=
  { tok := 7, group := 0, stripe := 0, code := code1, need := 0, spw := spw, oosAt := oos, again := none, done := done }

theorem test_witness_IngestStarts :
    let s (k len : Nat) (l : List (Fld × Nat × Nat × Nat) := []) := ingSt k len l
    let m (k len : Nat) := msg 0x22 [(2, 1), (3, BitVec.ofNat 32 k)] len
    (∀ k ∈ [0, 1], (s k 6).msgOf 7 0x22 = some (m k 6)) ∧ (s 0 6).ingJob 7 = none ∧ (s 0 6).ing.jobs.length < 4 ∧
    4 ≤ (ingWith (List.replicate 4 (ijob 0 []))).ing.jobs.length ∧
    ((m 0 6).arg 3 = 0 ∧ (s 0 6 [(F.ING_CTL_EN, 0, 0, 0)]).on F.ING_CTL_EN = false ∧ (s 0 6).on F.ING_CTL_EN = true ∧
      (s 0 6).job.job = some (job1 false none) ∧ (job1 false none).panels[0]?.isSome = true ∧ (s 0 6).get F.ING_CTL_LANEN ≠ 0) ∧
    (0 % 64 = 0 ∧ ((m 0 6).arg 2).toNat = 1 ∧ 0 + 1 ≤ 1 ∧ ¬(1 = 3 ∧ 1 % 2 = 1) ∧ (m 0 6).len = linesBytes 1 1 0 1) ∧
    (job1 false none).panels.all (fun p => !(s 0 6).tooFast (job1 false none) p) = true ∧
    ((m 1 6).arg 3 = 1 ∧ (s 1 6 [(F.DEV_FEATACT_BITS, 4, 0, 0)]).feature 2 = true) := by decide +kernel

theorem test_witness_IngestBlocks :
    let r := ingWith [ijob 0 [blk1 none]]
    let c := ingWith [ijob 0 [blk1 (some code1)]]
    let n := ingWith [ijob 0 [blk1 (some code1)]] [(F.ING_STFREE_UNITS, 0, 0, 0)]
    (r.on F.ING_CTL_EN = true ∧ bitN (r.get F.ING_CTL_LANEN) 0 = 1 ∧ r.encLane 0 = none ∧
      pickBlock 0 r.ing.jobs = some (ijob 0 [blk1 none], blk1 none) ∧ r.job.job = some (job1 false none) ∧ r.on F.ING_CTL_DAC = true ∧
      (ingWith [] [(F.ING_CTL_DAC, 0, 0, 0)]).on F.ING_CTL_DAC = false ∧ (blk1 none 1).tries ≠ 0) ∧
    (c.ingJob 7 = some (ijob 0 [blk1 (some code1)]) ∧ c.laneOf 7 0 0 = none ∧
      (c.storeFor (ijob 0 [blk1 (some code1)]) 0 0 (leAt code1 0x0C 2) code1).isSome = true) ∧
    (n.storeFor (ijob 0 [blk1 (some code1)]) 0 0 (leAt code1 0x0C 2) code1).isNone = true := by decide +kernel

theorem test_witness_IngestLane :
    let c := ingWith [ijob 0 [blk1 (some code1)]] [] [(15, some (lane1 [] false))]
    c.laneOf 7 0 0 = some (15, lane1 [] false) ∧
    ((c.laneBytes 15 (lane1 [] false)).2.storeFor (ijob 0 [blk1 (some code1)]) 0 0 (leAt code1 0x0C 2) (c.laneBytes 15 (lane1 [] false)).1).isSome =
      true := by decide +kernel

theorem test_witness_IngestRest :
    let w : State := { ingWith [{ ijob 0 [] with waitAt := some 0 }] [(F.ING_OOSTO_TIMEOUT, 0, 0, 0)] with now := 1000000 }
    let p := (job1 false none).panels
    let bad := ingWith [ijob 1 [] (0 :: code1)]
    let good := ingWith [ijob 1 [] code1]
    let env (ok : Bool) : IngJob := { ijob 2 [] with group := 1, tagOk := ok }
    let sp := ingWith [] [] [(15, some (lane1 [3] true))]
    let oo : State := { ingWith [] [(F.ING_OOSTO_TIMEOUT, 0, 0, 0)] [(15, some (lane1 [3] false (some 0)))] with now := 1000000 }
    (w.ingJob 7).map (·.waitAt) = some (some 0) ∧ w.elapsedUs 0 (1000 * max 1 (w.get F.ING_OOSTO_TIMEOUT)) = true ∧
    p.all (fun p => match bad.checkBlock (ijob 1 [] (0 :: code1)) p with | .error _ => true | .ok _ => false) = true ∧
    p.all (fun p => match good.checkBlock (ijob 1 [] code1) p with
      | .error _ => false
      | .ok (h, n) => n == code1.length && !h.cont && !good.on F.ING_CTL_PCCHK && (good.storeFor (ijob 1 [] code1) 0 0 h.lines code1).isSome) = true ∧
    (ijob 1 [] code1).group < (ijob 1 [] code1).groupEnd ∧ (∀ ok ∈ [true, false], (env ok).groupEnd ≤ (env ok).group ∧ (env ok).data = []) ∧
    (sp.encLane 15 = some (lane1 [3] true) ∧ (lane1 [3] true).done = true) ∧
    ((oo.busyLanes.filter (fun e => e.2.again.isNone)).all
        (fun e => e.2.oosAt.any (fun n => oo.elapsedUs n (max 1 (oo.get F.ING_OOSTO_TIMEOUT)))) = true ∧
      mostSpw (oo.busyLanes.filter (fun e => e.2.again.isNone)) = some (15, lane1 [3] false (some 0))) := by decide +kernel

/-! ### The line path -/

/-- Bar 0 on tile 0 of port 0, with some fields set, a fire scheduler and a pipeline. -/
def barSt (l : List (Fld × Nat × Nat × Nat)) (x : FireBar) (d : List Desc := []) (p : BarPipe := BarPipe.reset) (now : Nat := 0) : State :=
  { (mk l) with now := now, prf := { PrfState.reset with live := some { Profile.empty with frame := frame1 } }, fire := [(0, x)], pipes := [(0, p)],
                gates := [(1, { Gate.reset with queue := d }), (9, { Gate.reset with queue := d })] }

theorem test_witness_FiringALine :
    let st (op : Nat) (l : List (Fld × Nat × Nat × Nat) := []) := barSt ((F.FIRE_CTL_EN, 1, 0, 0) :: l) FireBar.reset [descOf op 0 false]
    let act := [(F.FIRE_STAT_STATE, 1, 0, 0)]
    let mv := [(F.FIRE_CTL_EN, 1, 0, 0), (F.FIRE_STAT_STATE, 1, 0, 0), (F.DEV_STATE_STATE, 5, 0, 0), (F.ENC_SPEED_VALUE, 1, 0, 0), (F.ENC_STAT_STILL, 0, 0, 0),
      (F.ENC_STAT_UNKNOWN, 0, 0, 0), (F.FIRE_HORIZON_EFF, 2000, 0, 0), (F.FIRE_TMIN_LTU, 5, 0, 0)]
    let s := barSt mv { FireBar.reset with tPrev := some 0, hmin := 0 }
    let far := barSt mv { FireBar.reset with next := 1, first := 1 }
    let pitched : State := { far with prf := { PrfState.reset with live := some { Profile.empty with frame := { frame1 with pitch := 0x00100000 } } } }
    ((st 1).nextFireDesc 0 = some (descOf 1 0 false) ∧ ((st 1).gate (fireGate 0)).stopped = false ∧ (descOf 1).plain = true ∧
      (st 1).barActive 0 = false ∧ (st 1 act).barActive 0 = true ∧ (st 1).on F.FIRE_CTL_EN 0 = true ∧ (frameBar (st 1).liveFrame 0).isSome = true) ∧
    ((descOf 3).op ≠ 2 ∧ (descOf 3).op ≠ 1 ∧ (st 2).nextFireDesc 0 = some (descOf 2 0 false) ∧ (descOf 2).op = 2) ∧
    State.reset.getI F.ENC_SPEED_VALUE 0 ≤ 0 ∧
    (0 < s.getI F.ENC_SPEED_VALUE 0 ∧ s.on F.ENC_STAT_STILL 0 = false ∧ s.on F.ENC_STAT_UNKNOWN 0 = false ∧ s.mayCommit 0 = true ∧
      fireDelay ((s.firePos 0 0 : Int) * 65536) (s.barPosQ16 0) 1 ≤ s.get F.FIRE_HORIZON_EFF 0) ∧
    (pitched.mayCommit 0 = true ∧
      pitched.get F.FIRE_HORIZON_EFF 0 < fireDelay ((pitched.firePos 0 1 : Int) * 65536) (pitched.barPosQ16 0) 1) ∧
    (let d := s.decideLine 0 0 s.fireC 0
     d.1 = false ∨ d.2.mayCommit 0 = false ∨
       d.2.get F.FIRE_HORIZON_EFF 0 < fireDelay ((d.2.firePos 0 (d.2.fireBar 0).next : Int) * 65536) (d.2.barPosQ16 0) 1 ∨ (d.2.fireBar 0).next = 1) ∧
    ((s.fireBar 0).tPrev = some 0 ∧ (s.fireBar 0).hmin ≤ 5 ∧ 10 * 5 ≤ 11 * (0 + 5 - 0) ∧ s.get F.FIRE_TMIN_LTU 0 = 5 ∧ 5 ≤ (s.fireBar 0).credit + (0 + 5) - 0 ∧
      (s.fireBar 0).tLast = none ∧
      (let e := barSt (mv ++ [(F.HLP_STAT_STATE, 6, 0, 0)]) { FireBar.reset with tPrev := some 0, hmin := 0, complete := [(0, 0)] }
       let w := e.setPort 0 { Port.reset with nextLine := 1 }
       w.barPorts 0 = [0] ∧ w.lineSent 0 0 0 = true)) := by decide +kernel

theorem test_witness_LinePipeline :
    let h := parseHdr (code1.take 32)
    let g : FetchGroup := { inst := 0, panel := 0, recIx := 0, form := 1, width := 1, group := 0, stripe := 0, found := true, addr := 0, lines := 1,
                            hdr := some h, cause := 0, asked := 8, got := 8, parts := [], win := code1.drop 32, bit := 0, line := 0, tables := [],
                            crc := 0xFFFFFFFF }
    let r := barSt [(F.IBF_CTL_EN, 1, 0, 0), (F.IBF_LANES_COUNT, 1, 0, 0)] FireBar.reset [] { BarPipe.reset with groups := [g] }
    let q := barSt [] FireBar.reset [descOf 0 0 false]
    let w := barSt [] FireBar.reset [] { BarPipe.reset with written := [7] }
    let b := barSt [] { FireBar.reset with sched := [(4, 0), (3, 1)] }
    let p := barSt [(F.IBF_STAT_PANIC, 1, 0, 0), (F.IBF_LTOL_US, 1, 0, 0)] FireBar.reset [] { BarPipe.reset with panicAt := some 0 } 1001
    (r.on F.IBF_CTL_EN 0 = true ∧ r.get F.IBF_LANES_COUNT 0 ≠ 0 ∧ (firstReady r 0 (decodeOrder (r.pipe 0).groups)).isSome = true) ∧
    q.get F.IBF_LANES_COUNT 0 = 0 ∧
    ((q.gate 1).queue.find? (fun d => !d.done && !(q.pipe 0).written.contains d.line.toNat) = some (descOf 0 0 false) ∧ (q.gate 1).stopped = false ∧
      (frameBar q.liveFrame 0).isSome = true) ∧
    ((w.pipe 0).written.contains (7 : DWord).toNat = true ∧ (w.pipe 0).written.contains (8 : DWord).toNat = false) ∧
    (firstDue (b.fireBar 0).sched = some (4, 0) ∧ 0 ≤ b.fireC ∧ firstDue [(3, 1)] = some (3, 1) ∧ b.fireC < 1) ∧
    ((p.pipe 0).panicAt = some 0 ∧ (p.pipe 0).panicRep = false ∧ p.on F.IBF_STAT_PANIC 0 = true ∧ 0 + 1000 * p.get F.IBF_LTOL_US 0 < p.now ∧
      ({ p with now := 1000 } : State).now ≤ 0 + 1000 * p.get F.IBF_LTOL_US 0) := by decide +kernel

theorem test_witness_LineRegisters :
    let s := State.reset
    let off := R.SCN_BAND.off 7 0
    let on := mk [(F.SCN_CTL_EN, 1, 7, 0)]
    let pr := mk [(F.DEV_STATE_STATE, 6, 0, 0)]
    (canReach s off = true ∧ s.on F.SCN_STAT_BAND 7 = false ∧ (s.swWrite off 0x80000000).on F.SCN_STAT_BAND 7 = false ∧
      ((mk [(F.SCN_STAT_BAND, 1, 7, 0)]).swWrite off 0).on F.SCN_STAT_BAND 7 = true) ∧
    (canReach s 0x60000 = true ∧ scnAnyEn on 8 = true ∧ scnAnyEn s 8 = false ∧ tarnSize < fieldOf (0x3FF : Word) 0 10 * 65536 + s.mapBytes ∧
      fieldOf (0x2C0 : Word) 0 10 * 65536 + s.mapBytes ≤ tarnSize) ∧
    (canReach s (R.HLK_SEGEN.off 15 3) = true ∧ pr.printingOrPaused = true ∧ s.printingOrPaused = false) := by decide +kernel

theorem test_witness_EncoderInputs :
    let s := mk [(F.ENC_CTL_EN, 1, 1, 0), (F.ENC_STAT_STILL, 0, 1, 0), (F.ENC_STILL_US, 1, 0, 0), (F.ENC_ZCPR_VALUE, 5, 1, 0)]
    let e (x : Encoder) (now : Nat) : State := { s.setEncoder 1 x with now := now }
    let up := mk [(F.ENC_CTL_EN, 1, 1, 0), (F.ENC_STAT_MODE, 1, 1, 0)]
    s.on F.ENC_STAT_LOS 1 = false ∧ s.on F.ENC_CTL_EN 1 = true ∧ State.reset.on F.ENC_CTL_EN 1 = false ∧
    ((s.encoder 1).lines.getLsbD 0 = false ∧ (s.encoder 1).lines.getLsbD 1 = false ∧ ((true = false) ≠ (false = false)) ∧ true ≠ false) ∧
    (mk [(F.ENC_STAT_LOS, 1, 1, 0)]).on F.ENC_STAT_LOS 1 = true ∧
    ((s.encoder 1).idxNet = none ∧ s.get F.ENC_ZCPR_VALUE 1 = 5 ∧
      ((e { Encoder.reset with idxNet := some 4 } 0).encoder 1).idxNet = some 4 ∧ (4 : Int) ≠ (5 : Nat)) ∧
    ((s.encoder 1).winStart + (s.encoder 1).winLen ≤ (e Encoder.reset 100000).sample ∧ s.on F.ENC_STAT_MODE 1 = false ∧
      up.on F.ENC_STAT_MODE 1 = true) ∧
    (let x := e { Encoder.reset with lastEdge := some 0 } 1000
     (x.encoder 1).lastEdge = some 0 ∧ x.on F.ENC_STAT_STILL 1 = false ∧ 0 + max 1 (x.get F.ENC_STILL_US) * 250 ≤ x.sample ∧
       ({ x with now := 996 } : State).sample < 0 + max 1 (x.get F.ENC_STILL_US) * 250) := by decide +kernel

theorem test_witness_HeadPortLinkUp :
    let s := State.reset
    let st (n : Nat) (l : List (Fld × Nat × Nat × Nat) := []) := mk ((F.HLP_STAT_STATE, n, 15, 0) :: l)
    let off := R.HLP_CTL.off 15 0
    let f (g : Bool) : TrainFrame := { good := g, clk := true, lockA := true, lockB := true, echo := false, precap := false, skew := 0, eyeA := 0, eyeB := 0,
                                       ubit := 0, rt := 0 }
    let en (v : Word) := s.swWrite off v
    (canReach s off = true ∧ s.portPresent 15 = true ∧ fieldOf (s.rd off) 31 1 = 0 ∧ s.get F.HLP_STAT_STATE 15 = 0 ∧
      (en 0x80000000).portPresent 15 = true ∧ (en 0x80000000).on F.HLP_CTL_EN 15 = true ∧ (en 0x80000000).on F.HLP_CTL_TEST 15 = false ∧
      (en 0xFFFFFFFF).on F.HLP_CTL_TEST 15 = true) ∧
    (∀ n ∈ [1, 3, 4, 5, 6, 7, 8], (st n).get F.HLP_STAT_STATE 15 = n) ∧
    ((f true).good && ((f true).ubit.toNat == (st 3).get F.HLP_SKEW_UBIT 15)) = true ∧ (f false).good = false ∧
    (let u := (st 6).setPort 15 { Port.reset with lane := some { lane := 1, recal := false, phase := .lock } }
     (u.port 15).lane.isSome = true) ∧
    ((0 : Int) = 0 ∧ 31 < (-32 : Int).natAbs ∧ (31 : Int) ≠ 0 ∧ (31 : Int).natAbs ≤ 31 ∧ 3 < 4) ∧
    (let l : State := { st 5 with now := 1001000 }
     (l.port 15).startAt + 1000 * max 1 (1000) < l.now ∧ ({ st 5 [(F.HLP_CTL_LUTO, 1000, 15, 0)] with now := 1001000 } : State).get F.HLP_CTL_LUTO 15 = 1000) ∧
    (let r : State := { (st 1 [(F.HLP_CTL_EN, 1, 15, 0)]).setPort 15 { Port.reset with pauseEnd := some 8 } with now := 8 }
     (r.port 15).pauseEnd = some 8 ∧ r.on F.HLP_CTL_EN 15 = true ∧ 8 ≤ r.now ∧ ({ r with now := 7 } : State).now < 8) ∧
    (let m := mk [(F.HLP_CTL_MANUAL, 1, 15, 0)]
     canReach m (R.HLP_SLIP.off 15 0) = true ∧ m.on F.HLP_CTL_MANUAL 15 = true ∧ m.portUp 15 = false ∧ fieldOf (0xB : Word) 0 1 = 1 ∧
       fieldOf (0xB : Word) 1 1 = 1 ∧ fieldOf (0xB : Word) 2 2 = 2 ∧ fieldOf (0x5 : Word) 1 1 = 0 ∧ fieldOf (0x5 : Word) 2 2 = 1) := by decide +kernel

theorem test_witness_HeadPortRegisters :
    let s := State.reset
    let up := mk [(F.HLP_STAT_STATE, 6, 15, 0), (F.HLP_STAT_MODE, 0, 15, 0)]
    (canReach s (R.HLP_FFE.off 15 1) = true ∧ up.carries 15 1 = true ∧ s.carries 15 1 = false ∧ s.calibrating 15 1 = false ∧
      tapsOk (toSigned 8 (fieldOf (0x0000F0 : Word) 0 8)) (toSigned 8 (fieldOf (0x0000F0 : Word) 8 8)) (toSigned 8 (fieldOf (0x0000F0 : Word) 16 8)) = true ∧
      tapsOk (toSigned 8 (fieldOf (0x000011 : Word) 0 8)) 0 0 = false) ∧
    (canReach s (R.HLP_CAL.off 15 0) = true ∧ (s.swWrite (R.HLP_CAL.off 15 0) 0x80000000).portUp 15 = false ∧
      (let u := up.swWrite (R.HLP_CAL.off 15 0) 0xC0000000
       u.portUp 15 = true ∧ u.get F.HLP_STAT_MODE 15 = 0 ∧ u.on F.HLP_STAT_CALRUN 15 = false)) ∧
    (canReach s (R.HLP_PGEN.off 15 0) = true ∧ fieldOf (0 : Word) 25 1 = 0 ∧
      (let t := mk [(F.HLP_STAT_STATE, 8, 15, 0), (F.HLP_CTL_LOOP, 1, 15, 0), (F.HLP_PCHK_EN, 1, 15, 0), (F.HLP_PCHK_SRC, 1, 15, 0),
         (F.HLP_PGEN_EN, 1, 15, 0), (F.HLP_PGEN_LA, 1, 15, 0)]
       let v : Word := t.rd (R.HLP_PGEN.off 15 0) ||| 0x02000000
       let u := (t.swWrite (R.HLP_PGEN.off 15 0) v).checkerLock 15
       fieldOf v 25 1 = 1 ∧ u.loopChecked 15 = true ∧ u.on F.HLP_PCHK_LOCK 15 = true ∧ u.get F.HLP_PGEN_PAT 15 < 4)) ∧
    (canReach s (R.HLP_INJ.off 15 0) = true ∧ fieldOf (0xC0000000 : Word) 31 1 = 1 ∧
      (up.swWrite (R.HLP_INJ.off 15 0) 0xC0000000).carries 15 (fieldOf (0xC0000000 : Word) 30 1) = true) := by decide +kernel

/-- An upstream message: MTYPE, SRC, ARG and its other words (R291). -/
def upm (t src arg : Nat) (ws : List Word := []) : List Word := BitVec.ofNat 32 (t * 2 ^ 26 + ws.length * 2 ^ 22 + src * 2 ^ 15 + arg) :: ws

/-- Port 0 up in the frame of `barSt`, with some fields set and an unanswered message of a type with token 5. -/
def upSt (mtype : Nat) (l : List (Fld × Nat × Nat × Nat) := []) : State :=
  (barSt ((F.HLP_STAT_STATE, 6, 0, 0) :: l) FireBar.reset).setPort 0 { Port.reset with
    pend := [{ tok := 5, mtype := mtype, dst := 1, words := [], due := some 0, tries := 1 }] }

theorem test_witness_LinkFrames :
    let s := upSt 0x09
    let z : List Word := List.replicate 15 0
    let f := z ++ [crc32c (z.flatMap beField)]
    s.portUp 0 = true ∧ State.reset.portUp 0 = false ∧ (f.length = 16 ∧ crc32c ((f.take 15).flatMap beField) = f.getD 15 0) ∧
    ((z ++ [0]).length = 16 ∧ crc32c (((z ++ [0]).take 15).flatMap beField) ≠ (z ++ [0]).getD 15 0) ∧ (s.port 0).upBad < 7 ∧
    7 ≤ ((s.setPort 0 { s.port 0 with upBad := 7 }).port 0).upBad ∧
    (((s.port 0).pend.find? (fun q => q.tok == (5 : BitVec 12).toNat)).map (fun q => (q.due, q.tries, q.mtype))) = some (some 0, 1, 9) ∧
    ((some 0).any (fun t => decide (t ≤ s.now)) = true ∧ (none : Option Nat).any (fun t => decide (t ≤ s.now)) = false) ∧
    (1 < max 1 ((upSt 9 [(F.HLK_CFG_RETRY, 2, 0, 0)]).get F.HLK_CFG_RETRY) ∧ max 1 ((upSt 9 [(F.HLK_CFG_RETRY, 1, 0, 0)]).get F.HLK_CFG_RETRY) ≤ 1) ∧
    (upSt 9 [(F.HLK_CFG_PING, 1, 0, 0)]).get F.HLK_CFG_PING ≠ 0 := by decide +kernel

theorem test_witness_AcksAndCapabilities :
    let u (m : Nat) (l : List (Fld × Nat × Nat × Nat) := []) := (upSt m l).postEvent 0x140
    let v (m : Nat) (w : List Word) (l : List (Fld × Nat × Nat × Nat) := []) := (u m l).fromSeg 0 w
    let cap : List Word := [0x02000001, 0, 0, 0, 0x0000020F, 0, 0, 0, 0, 0, 0, 0]
    (State.reset.upOk 0 (upm 0x20 1 5) 0x20 = false ∧ (upSt 9).portUp 0 = true ∧ (u 9).portUp 0 = true ∧ upType (upm 0x20 1 5) = 0x20) ∧
    (((v 0x0E (upm 0x20 1 5) [(F.HLK_SEG_STATE, 3, 1, 0)]).takePend 0 5).1.map (·.mtype) = some 0x0E ∧ upArg (upm 0x20 1 5) / 4096 = 0 ∧
      upArg (upm 0x20 1 0x1005) / 4096 ≠ 0 ∧ ((v 0x0E (upm 0x20 1 5) [(F.HLK_SEG_STATE, 3, 1, 0)]).takePend 0 5).2.segState 1 = sgStandby ∧
      ((v 0x0E (upm 0x20 1 6)).takePend 0 6).1.isNone = true ∧ ((v 0x0C (upm 0x20 1 5)).takePend 0 5).1.map (·.mtype) = some 0x0C) ∧
    (let b := upm 0x21 0 5 [0x01000000, 0, 3516]
     upType b = 0x21 ∧ ((u 9).takePend 0 (upArg b % 4096)).1.isSome = true ∧ fieldOf (b.getD 1 0) 24 8 = 1 ∧ fieldOf (b.getD 3 0) 0 16 ≤ 3516 ∧
       3516 < fieldOf ((upm 0x21 0 5 [0x01000000, 0, 3517]).getD 3 0) 0 16) ∧
    (let c := upm 0x22 1 5 cap
     upType c = 0x22 ∧ ((v 9 c).port 0).pend.any (fun q => q.tok == upArg c % 4096 && q.mtype == 0x09) = true ∧
       (v 9 c).capPasses 1 cap = true ∧ (v 9 c).capPasses 1 (cap.set 0 0) = false ∧ ((v 9 c).seg 1).held = none) ∧
    (let w := upm 0x23 1 7 [0, 0, 0]
     upType w = 0x23 ∧ ((v 9 w).seg 1).capAt = none) := by decide +kernel

theorem test_witness_OtherUpstream :
    let u (l : List (Fld × Nat × Nat × Nat) := []) := (upSt 9 l).postEvent 0x140
    let blk : StagedBlock := { param := 0, port := 0, mask := 2, waiting := 2, data := [], due := some 0, tries := 1 }
    let g (b : List StagedBlock) (k : Nat) : State := (upSt 9 [(F.CMT_GSTAT_STATE, cgCommitted, 63, 0), (F.HLK_CFG_RETRY, k, 0, 0)]).setGroup 63
      { Group.reset with blocks := b, unapplied := [(1, 0)] }
    let st := upm 0x24 1 5 [63]
    let tel (l : Option Nat) (now : Nat) : State := { (upSt 9 [(F.HLK_SEG_STATE, 4, 1, 0), (F.FIRE_STAT_STATE, 2, 0, 0)]).setSeg 1
      { Seg.reset with telLine := l } with fline := [(0, BitVec.ofNat 64 now)] }
    (upType st = 0x24 ∧ fieldOf (st.getD 1 0) 0 6 = 63 ∧ blk.port = (0 : Fin 16).val ∧ blk.param.toNat = fieldOf (st.getD 1 0) 16 16 ∧
      bitN blk.waiting (upSrc st) = 1 ∧ ((u).fromSeg 0 st).group 63 = Group.reset) ∧
    (upType (upm 0x25 1 63) = 0x25 ∧ upArg (upm 0x25 1 63) % 64 = 63 ∧ (((u).fromSeg 0 (upm 0x25 1 63)).seg 1).joinGroup = none) ∧
    upType (upm 0x26 1 0 [0, 0]) = 0x26 ∧ (∀ a ∈ [1, 2, 3, 4, 5, 6], upType (upm 0x27 1 a [0]) = 0x27 ∧ upArg (upm 0x27 1 a [0]) % 256 = a) ∧
    (upArg (upm 0x27 1 7 [0]) % 256 = 7 ∧ ((u [(F.HLK_SEG_STATE, 4, 1, 0)]).fromSeg 0 (upm 0x27 1 7 [0])).segState 1 = sgActive) ∧
    upType (upm 0x29 0 31 [1]) = 0x29 ∧ (upType (upm 0x2A 0 4095) = 0x2A ∧ frameOwner ((u).bump F.HLK_FECUNC_COUNT 1 0).liveFrame 0 = some 0 ∧
      frameOwner State.reset.liveFrame 0 = none) ∧
    (((g [blk] 2).group 63).blocks[0]? = some blk ∧ blk.waiting ≠ 0 ∧ blk.due.any (fun t => decide (t ≤ (g [blk] 2).now)) = true ∧
      blk.tries < max 1 ((g [blk] 2).get F.HLK_CFG_RETRY) ∧ (g [blk] 2).gstate 63 = cgCommitted ∧ max 1 ((g [blk] 1).get F.HLK_CFG_RETRY) ≤ blk.tries) ∧
    (((g [] 1).group 63).unapplied.any (fun e => e.1 == 1 && decide (e.2 ≤ (g [] 1).now)) = true ∧
      ((g [] 1).group 63).unapplied.any (fun e => e.1 == 2047 && decide (e.2 ≤ (g [] 1).now)) = false) ∧
    (let lim := max 1 (State.reset.get F.FIRE_GCFG_TELSTALE) * max 1 (State.reset.get F.FIRE_GCFG_TELLINES)
     let t := tel (some 0) (lim - 1)
     t.segState 1 = sgActive ∧ (t.segBar 1).isSome = true ∧ t.barActive 0 = true ∧ t.on F.FIRE_SEG_STALE 1 = false ∧
       (t.seg 1).telLine = some 0 ∧ 0 + lim ≤ ((t.flineOf 0).toNat + 1) % 2 ^ 64 ∧
       ((tel (some 0) (lim - 2)).flineOf 0).toNat + 1 < 0 + lim) := by decide +kernel

/-- A FLOSS that has a frame to send again, and a CAP of the same segment after a relink. -/
theorem test_witness_resend :
    let m : List Word := [BitVec.ofNat 32 (1 * 2 ^ 26 + 2 * 2 ^ 22), 0, 0]
    let s := (barSt [(F.HLP_STAT_STATE, 6, 0, 0), (F.FIRE_STAT_STATE, 1, 0, 0)] FireBar.reset).setPort 0
      { Port.reset with sent := [{ k := 4095, msgs := [m] }] }
    let w := (s.postEvent 0x140).bump F.HLK_FECUNC_COUNT 1 0
    frameOwner w.liveFrame 0 = some 0 ∧ (w.port 0).sent.any (fun c => c.k % 4096 == upArg (upm 0x2A 0 4095) % 4096) = true ∧
    w.resendable 0 0 m = true ∧ (w.set F.HLK_CFG_RESEND 1).on F.HLK_CFG_RESEND = true := by decide +kernel

/-! ### Memories -/

/-- One DRAM channel of 1 MiB, trained and enabled, with some fields set, and its channel state. -/
def dramSt (l : List (Fld × Nat × Nat × Nat)) (x : DramChan := DramChan.reset) (now : Nat := 0) : State :=
  { mk ([(F.DMC_CTL_EN, 1, 0, 0), (F.DMC_CTL_CHEN, 1, 0, 0), (F.DMC_CHSTAT_STATE, 4, 0, 0), (F.DMC_CHSTAT_CAPMIB, 1, 0, 0),
      (F.DMC_CHSTAT_RANKS, 1, 0, 0)] ++ l) with now := now, dmc := { DmcState.reset with chans := if x = DramChan.reset then [] else [(0, x)] } }

/-- A request of port `p` for its first line. -/
def req1 (p : DramPort) (w : Bool := false) : DReq := { port := p, lines := [(0, [])], write := w, at_ := 0, who := none }

theorem test_witness_DramRequests :
    let s := dramSt []
    let full := dramSt [] { DramChan.reset with queue := List.replicate 64 (req1 .ing true) }
    let rt := dramSt [(F.IBF_CTL_EN, 1, 7, 0)] { DramChan.reset with queue := List.replicate 64 (req1 .ing) }
    let q := dramSt [] { DramChan.reset with queue := [req1 .ing] }
    let is_ := dramSt [] { DramChan.reset with issued := [req1 .ing] }
    let l := dramSt [(F.DMC_CHSTAT_STATE, 5, 0, 0)]
    State.reset.on F.DMC_CTL_EN = false ∧ (s.on F.DMC_CTL_EN = true ∧ s.on F.DMC_STAT_FCBUSY = false) ∧
    (s.dramOk 0xFFFFF 1 = true ∧ s.dramOk 0xFFFFF 2 = false) ∧ (s.acceptReq .ing true none 0 1).isSome = true ∧
    (full.acceptReq .ing true none 0 1).isNone = true ∧ (rt.acceptReq (.rt 7) false none 0 64).isSome = true ∧
    (s.lineChans (lineAddrs 0 64) = [0] ∧ [0].all (fun c => s.hasPlace c .dma) = true ∧ s.devPlaces 1 = true) ∧
    (State.devPlaces { s with dmc := { s.dmc with chans := (List.range 4).map (fun c => (c, { DramChan.reset with queue := List.replicate 64 (req1 .ing) })) } }
      1 = false) ∧
    (l.slotOpen 0 = false ∧ s.slotOpen 0 = true ∧ (s.chan 0).hold = [] ∧ s.fullBanks 0 = []) ∧
    (let u := q.setChan 0 { q.chan 0 with drain := q.drainNow 0 }
     (u.slotPick 0 (q.chan 0).queue.zipIdx (u.chan 0).queue (u.chan 0).drain 5 0).isSome = true) ∧
    (let u := s.setChan 0 { s.chan 0 with drain := s.drainNow 0 }
     (u.slotPick 0 (s.chan 0).queue.zipIdx (u.chan 0).queue (u.chan 0).drain 5 0).isNone = true ∧ (u.chan 0).queue = [] ∧ u.anyPanic = false) ∧
    (is_.chan 0).issued = [req1 .ing] ∧ (s.chan 0).issued = [] := by decide +kernel

theorem test_witness_fetcher_request :
    let h := parseHdr (code1.take 32)
    let g : FetchGroup := { inst := 0, panel := 0, recIx := 0, form := 1, width := 1, group := 0, stripe := 0, found := true, addr := 0, lines := 1,
                            hdr := some h, cause := 0, asked := 0, got := 0, parts := [], win := [], bit := 0, line := 0, tables := [], crc := 0 }
    let s : State := { dramSt [(F.IBF_CTL_EN, 1, 7, 0), (F.IBF_SIZING_MAXW, 1, 7, 0)] with pipes := [(7, { BarPipe.reset with groups := [g] })] }
    s.on F.IBF_CTL_EN 7 = true ∧ (s.pipe 7).groups.find? (fun g => g.inst == 0 && g.group == 0 && g.stripe == 0) = some g ∧
    (s.nextFetch 7 g).any (fun e => !s.touchesStopped e.1 e.2 && (s.acceptReq (.rt 7) false (some (0, 0, 0)) e.1 e.2).isSome) = true := by
  decide +kernel

theorem test_witness_DramUpkeep :
    let s := dramSt [(F.DMC_SRCFG_SREN, 1, 0, 0), (F.DMC_SRCFG_SRIDLE, 1, 0, 0)] DramChan.reset 1000
    let x (n : Nat) (q : List DReq) := dramSt [] { DramChan.reset with queue := q, postponed := if n = 0 then [] else [(0, n)] }
    let cl := dramSt [(F.DMC_STAT_CLASSL, 1, 0, 0), (F.DMC_RFNEXTLO_NS, 1, 0, 0)]
    let at1 : State := { cl with tb := [(0, { TimeBase.reset with ns := 1 })] }
    (s.on F.DMC_STAT_CLASSL = false ∧ s.chanInUse 0 = true ∧ s.get F.DMC_CHSTAT_STATE 0 = 4 ∧ 0 < s.get F.DMC_CHSTAT_RANKS 0) ∧
    ((((x 3 [req1 .ing]).chan 0).queue ≠ []) ∧ Tab.get (fun _ => 0) ((x 3 [req1 .ing]).chan 0).postponed 0 < 4 ∧
      4 ≤ Tab.get (fun _ => 0) ((x 4 [req1 .ing]).chan 0).postponed 0 ∧ ((x 0 []).chan 0).queue = [] ∧ (x 0 []).anyPanic = false) ∧
    (cl.on F.DMC_CTL_EN = true ∧ cl.on F.DMC_STAT_CLASSL = true ∧ cl.tbNs 0 < cl.rfNext ∧ at1.rfNext ≤ at1.tbNs 0) ∧
    (s.flight 0 = [] ∧ s.on F.DMC_SRCFG_SREN = true ∧ s.leastLtol = none ∧ (s.chan 0).lastReq + 1000 * max 1 (s.get F.DMC_SRCFG_SRIDLE) ≤ s.now ∧
      ({ s with now := 999 } : State).now < (s.chan 0).lastReq + 1000 * max 1 (s.get F.DMC_SRCFG_SRIDLE)) ∧
    canReach s (R.DMC_TSET.off 1 0) = true ∧
    (Tab.get (fun _ => none) ({ s with dmc := { s.dmc with derive := [(1, some 10000)] } } : State).dmc.derive 1 = some 10000) ∧
    (let t := dramSt [(F.DMC_TSET_VALID, 1, 1, 0)]
     canReach t (R.DMC_FCHG.off 0 0) = true ∧ fieldOf (0xC0000000 : Word) 31 1 = 1 ∧ t.printing = false ∧
       fieldOf (0xC0000000 : Word) 30 1 ≠ t.get F.DMC_STAT_ACTSET ∧ t.on F.DMC_TSET_VALID (fieldOf (0xC0000000 : Word) 30 1) = true ∧
       fieldOf (0x80000000 : Word) 30 1 = t.get F.DMC_STAT_ACTSET) ∧
    (let t : State := { dramSt [] with dmc := { DmcState.reset with change := some (1, 0) } }
     t.dmc.change = some (1, 0) ∧ ∀ c ∈ t.chans, (t.flight c).isEmpty = true) ∧
    (s.dmc.change = none ∧ (dramSt [(F.DMC_CHSTAT_STATE, 2, 0, 0)]).get F.DMC_CHSTAT_STATE 0 = 2 ∧ s.get F.DMC_CHSTAT_STATE 0 ≠ 2) := by decide +kernel

theorem test_witness_DramScrub :
    let s : State := { dramSt [(F.DMC_SCRUB_EN, 1, 0, 0)] with dmc := { DmcState.reset with scrubAt := 1 } }
    let r := (s.setScrubAt (s.dmc.scrubAt + 1)).readBurst (s.dmc.scrubAt * 64)
    (s.on F.DMC_CTL_EN = true ∧ s.on F.DMC_SCRUB_EN = true ∧ s.on F.DMC_STAT_FCBUSY = false ∧ 0 < s.dmc.scrubAt ∧
      s.dmc.scrubAt + 1 < s.dramBytes / 64 ∧ r.bad = false ∧ r.st.on F.DMC_ECCTEST_RAW (r.st.chanAddr (s.dmc.scrubAt * 64)).1 = false) ∧
    (canReach s (R.DMC_INJ.off 3 0) = true ∧ fieldOf (0x80000000 : Word) 31 1 = 1 ∧ fieldOf (0 : Word) 31 1 = 0) ∧
    (let d := dramSt [(F.DMC_RCAL_DRIFT, 5, 0, 0)]
     d.chanInUse 0 = true ∧ 5 ≤ d.get F.DMC_RCAL_DRIFT ∧ (d.get F.DMC_RCAL_DRIFT < 20 ∧ 20 ≤ 4 * d.get F.DMC_RCAL_DRIFT) ∧ 4 * d.get F.DMC_RCAL_DRIFT < 21) :=
  by decide +kernel

theorem test_witness_ProtectedMemories :
    let s := State.reset
    let b := mk [(F.TARN_INIT_BUSY, 1, 0, 0)]
    let sc : State := { mk [(F.TARN_CTL_SCRUB, 1, 0, 0)] with tarn := { TarnState.reset with valid := [(1, true)], scrubLate := true } }
    let nm := mk [(F.TARN_RMAP_VALID, 1, 49, 3), (F.TARN_RMAP_LINE, 9, 49, 3)]
    (memExists 24 = false ∧ memExists 31 = false ∧ memExists 23 = true ∧ memExists 32 = true ∧ memExists 49 = true) ∧
    (memSize 23 - 64 + 64 ≤ memSize 23 ∧ 0 + 1 ≤ memSize 49) ∧
    (canReach s 0xc0008 = true ∧ fieldOf (0x80000000 : Word) 31 1 = 1 ∧ b.on F.TARN_INIT_BUSY = true ∧ s.on F.TARN_INIT_BUSY = false ∧
      memExists (fieldOf (0x80000018 : Word) 0 6) = false ∧ memExists (fieldOf (0x80000017 : Word) 0 6) = true ∧
      ((s.swWrite (R.TARN_INIT.off 0 0) 0x80000017).printing = false) ∧ 24 ≤ fieldOf (0x80000031 : Word) 0 6) ∧
    ((mk [(F.TARN_CTL_SCRUB, 0, 0, 0)]).on F.TARN_CTL_SCRUB = false ∧ sc.on F.TARN_CTL_SCRUB = true ∧ nextScrub sc sc.tarn.scrubAt sc.tarn.valid = some (1, 0, 1) ∧
      sc.tarn.scrubLate = true ∧ nextScrub sc 2 sc.tarn.valid = none) ∧
    (canReach nm (R.TARN_RMAP.off 49 2) = true ∧ spareCount 49 ≤ 4 ∧ (2 < spareCount 49) ∧ rmapNames nm 49 2 9 16 = true ∧ lineCount 49 ≤ 4096 ∧
      (rmapNames nm 49 2 8 16 = false ∧ 8 < lineCount 49)) ∧
    canReach s 0xc0010 = true ∧
    (canReach s (R.TARN_TCTL.off 49 0) = true ∧ (mk [(F.DEV_STATE_STATE, 5, 0, 0)]).printingOrPaused = true ∧ fieldOf (0x40000000 : Word) 30 2 ≠ 0 ∧
      s.printingOrPaused = false ∧ fieldOf (0x3FFFFFFF : Word) 30 2 = 0) ∧
    ((posBit 12).isSome = true ∧ (posBit 3).isSome = true ∧ (12 : Fin 13) ≠ 3) := by decide +kernel

/-! ### Cameras, time, clocks, faults and sensing -/

/-- Camera 1 with its port state and some fields set. -/
def camSt (l : List (Fld × Nat × Nat × Nat)) (x : Cam) (d : List Desc := []) (now : Nat := 0) : State :=
  { mk ([(F.CAM_PCTL_EN, 1, 1, 0), (F.CAM_GEOM_W, 16, 1, 0), (F.CAM_GEOM_H, 2, 1, 0), (F.CAM_PCTL_FMT, 3, 1, 0)] ++ l) with
    now := now, cams := if x = Cam.reset then [] else [(1, x)], gates := [(33, { Gate.reset with queue := d })] }

theorem test_witness_CameraFrames :
    let s := camSt [] Cam.reset
    let f : CamFrame := { num := 0, late := false, short := false, long := false, drop := false, lineErr := false, uncorr := false, done := false }
    let o (n : Nat) := camSt [] { Cam.reset with open_ := true, received := n, num := 1, frames := [f] }
    let off := R.CAM_PCTL.off 1 0
    let wr (v : Word) (io : Nat) := (State.reset.set F.CAM_PSTAT_IOSENSE io 1).swWrite off v
    let ds : List (BitVec 16) := List.replicate 16 0
    (s.on F.CAM_PCTL_EN 1 = true ∧ (s.cam 1).open_ = false ∧ (s.cam 1).enAt + 1000000 ≤ ({ s with now := 1000000 } : State).now) ∧
    (canReach State.reset off = true ∧ fieldOf ((State.reset.set F.CAM_PSTAT_IOSENSE 1 1).rd off) 31 1 = 0 ∧
      (wr 0x80000000 1).on F.CAM_PCTL_EN 1 = true ∧ (wr 0x80000000 1).get F.CAM_PCTL_IOV 1 ≠ (wr 0x80000000 1).get F.CAM_PSTAT_IOSENSE 1 ∧
      (wr 0x80000000 0).get F.CAM_PCTL_IOV 1 = (wr 0x80000000 0).get F.CAM_PSTAT_IOSENSE 1) ∧
    (((o 0).cam 1).open_ = true ∧ ((o 1).cam 1).received < (o 1).camH 1 ∧ (o 2).camH 1 ≤ ((o 2).cam 1).received ∧
      (o 1).camUsed 1 + (o 1).camW 1 ≤ 32768 ∧ (widen ((o 1).camFmt 1) ds).length / (o 1).camComps 1 = (o 1).camW 1) ∧
    (2 ≤ ((o 2).cam 1).received ∧ (∀ f ∈ ((o 2).cam 1).frames, f.num ≠ ((o 2).cam 1).cur ∨ f.done = false) ∧
      (o 2).get F.XING_CTL_CAMTO < 10 ∨ 10 ≤ (o 2).get F.XING_CTL_CAMTO) ∧
    ((o 2).set F.XING_CTL_CAMTO 9).get F.XING_CTL_CAMTO < 10 := by decide +kernel

theorem test_witness_CameraGateAndPipeline :
    let d (op w4 : Nat) : Desc := { descOf op with w4 := BitVec.ofNat 32 w4, w6 := 0x10000000 }
    let dis : Desc := { descOf 2 with w4 := 1 }
    let s (e : Desc) := camSt [] Cam.reset [e]
    let ln (pads : Nat) (drop : Bool) : CamLine := { frame := 0, idx := 0, stamp := 0, pads := pads, drop := drop, pix := [1] }
    let tr := camSt [(F.CAM_TINT_WPU, 4, 1, 0)] { Cam.reset with trig := some 1, strobes := [5] }
    (∀ op ∈ [1, 3, 4], (s (d op 1)).nextCamDesc = some (d op 1) ∧ (s (d op 1)).camDescOk (d op 1) = true ∧ (s (d op 0)).camDescOk (d op 0) = false) ∧
    ((s dis).nextCamDesc = some dis ∧ (s dis).camDescOk dis = true ∧ (s (d 2 1)).camDescOk (d 2 1) = false ∧ ((s dis).gate 33).stopped = false) ∧
    (((s dis).cam 1).patch.isNone = true ∧ ((s dis).cam 1).band.isNone = true) ∧
    ((tr.cam 1).trig = some 1 ∧ tr.pos < 1 ∧ ((camSt [] { Cam.reset with trig := some 0 }).cam 1).trig = some 0 ∧ 0 ≤ tr.pos ∧ (tr.cam 1).open_ = false) ∧
    ((tr.cam 1).strobes = [5] ∧ tr.now < 5 ∧ 5 ≤ ({ tr with now := 5 } : State).now) ∧
    (let q := camSt [] { Cam.reset with queue := [ln 2 false, ln 0 true], prev := [3] }
     let j := if (q.cam (1 - q.col.served % 2)).queue ≠ [] then 1 - q.col.served % 2 else 1 - (1 - q.col.served % 2)
     (q.cam j).queue = [ln 2 false, ln 0 true] ∧ 0 < (ln 2 false).pads ∧ (q.cam j).prev ≠ [] ∧ (ln 0 true).pads = 0 ∧ (ln 0 true).drop = true) := by
  decide +kernel

theorem test_witness_TimeBases :
    let off := R.TIME_TBCTL.off 3 0
    let s := mk [(F.TIME_TBCTL_EN, 1, 3, 0)]
    let w (s : State) (v : Word) := s.swWrite off v
    let g := mk [(F.TIME_TBCTL_EN, 1, 3, 0), (F.CMT_GSTAT_STATE, 2, 63, 0), (F.CMT_GBND_KIND, 4, 63, 0), (F.CMT_GBND_SEL, 3, 63, 0)]
    let step := s.rd off ||| 0x20000000
    let rst := s.rd off ||| 0x40000000
    (canReach s off = true ∧ s.on F.TIME_TBCTL_EN 3 = true ∧ fieldOf step 30 1 = 0 ∧ fieldOf step 29 1 = 1 ∧ fieldOf rst 30 1 = 1 ∧ fieldOf rst 29 1 = 0) ∧
    ((w s step).on F.TIME_TBSTAT_STEPPED 3 = false ∧ (w s step).get F.TIME_STEPA_VALUE 3 < 1000000000 ∧
      (w (s.set F.TIME_TBSTAT_STEPPED 1 3) step).on F.TIME_TBSTAT_STEPPED 3 = true ∧
      1000000000 ≤ (w (s.set F.TIME_STEPA_VALUE 1000000000 3) step).get F.TIME_STEPA_VALUE 3 ∧
      (w (s.set F.TIME_STEPA_VALUE 999999999 3) step).get F.TIME_STEPA_VALUE 3 < 1000000000) ∧
    ((w s rst).printingOrPaused = false ∧ timeGroupOn (w s rst) 3 64 = false ∧ timeGroupOn (w g rst) 3 64 = true) ∧
    (canReach s 0xe0000 = true ∧ fieldOf (0x80000000 : Word) 31 1 = 1) ∧ ((0 : Nat) < 1000000000 ∧ (8589934 : Int).natAbs ≤ 8589934 ∧ (0 : Nat) < 2 ^ 32) ∧
    (canReach s (R.TIME_RATE.off 3 0) = true ∧ ((8589934 : Word).toInt ≤ 8589934 ∧ -8589934 ≤ (8589934 : Word).toInt) ∧ 8589934 < (8589935 : Word).toInt ∧
      (0xFF7CED91 : Word).toInt < -8589934 ∧ (s.tbase 3).stepReq = false) := by decide +kernel

/-- Queue 7 of port 1 with one descriptor, whose control word is given, for launch at 0 ns of TB0, which stands at `ns`. -/
def ethSt (w0 ns : Nat) : State :=
  { withTarn 0 (leBytes 4 w0 ++ leBytes 4 0x10000000 ++ List.replicate 24 0) (mk [(F.TIME_ECTL_EN, 1, 1, 0), (F.TIME_ESTAT_LINK, 1, 1, 0),
      (F.TIME_QCFG_EN, 1, 1, 7), (F.TIME_QTAIL_INDEX, 1, 1, 7), (F.TIME_RXCFG_VALUE, 1, 1, 0)]) with tb := [(0, { TimeBase.reset with ns := ns })] }

theorem test_witness_EthernetFrames :
    let s := ethSt 0 1
    let f (n : Nat) : List Byte := List.replicate 6 0xFF ++ List.replicate n 0
    let picks (s : State) (p : Nat → Nat → TxDesc → Bool) : Bool := (txPick s 1 8).any (fun e => p e.1 e.2.1 e.2.2)
    let late (s : State) (send : Bool) : Bool := picks s (fun q i d => !d.bad && s.txLate 1 q i d && d.lateSend == send)
    s.on F.TIME_ECTL_EN 1 = true ∧ s.on F.TIME_ESTAT_LINK 1 = true ∧ State.reset.on F.TIME_ESTAT_LINK 1 = false ∧ State.reset.on F.TIME_ECTL_EN 1 = false ∧
    picks s (fun _ _ d => d.bad) = true ∧ late (ethSt 0x2000003C 900000000) false = true ∧ late (ethSt 0x2200003C 900000000) true = true ∧
    picks (ethSt 0x2000003C 1) (fun q i d => !d.bad && !(ethSt 0x2000003C 1).txLate 1 q i d) = true ∧
    (s.rxPass 1 (f 54) = true ∧ (f 54).length = 60 ∧ (f 53).length < 60 ∧ s.rxPass 1 (List.replicate 60 1) = false ∧ 0 < s.get F.TIME_RXCFG_VALUE 1 % 256) :=
  by decide +kernel

theorem test_witness_ClockIslands :
    let s := mk [(F.XING_STAT_LOCK, 15, 0, 0), (F.XING_STAT_REFOK, 1, 0, 0)]
    let bt : State := { mk [(F.DEV_STATE_STATE, 2, 0, 0)] with now := 1000000, pwr := { PowerState.reset with bootOk := true } }
    let off := R.XING_IRST.off 0 0
    (247 ≤ 253 ∧ 246 < 247 ∧ 253 < 254 ∧ s.xing.refBad = 0 ∧ ({ s with xing := { s.xing with refBad := 1 } } : State).xing.refBad = 1) ∧
    (∀ p ∈ [0, 1, 2, 3], s.pllLocked p = true) ∧
    (bt.pllLocked 0 = false ∧ bt.dev = stBoot ∧ bt.pwr.bootOk = true ∧ bt.pwr.bootAt + 1000000 ≤ bt.now) ∧
    (s.island 28 = 0 ∧ s.island 17 = 0 ∧ s.on F.DMC_STAT_FCBUSY = false ∧ (mk [(F.DMC_STAT_FCBUSY, 1, 0, 0)]).on F.DMC_STAT_FCBUSY = true ∧
      ((camSt [] { Cam.reset with open_ := true }).cam (25 - 24)).open_ = true) ∧
    ((mk [(F.XING_ISTAT_STATE, 1, 16, 0)]).island 16 = 1 ∧ islandPll 16 = some 1 ∧ s.xing.refBad < 2 ∧ s.island 16 ≠ 1) ∧
    (s.island 0 ≠ 3 ∧ s.on F.XING_ISTAT_ONESIDED 0 = false) ∧
    (canReach s off = true ∧ fieldOf (0x80000019 : Word) 31 1 = 1 ∧ fieldOf (0x8000001C : Word) 0 5 ≤ 28 ∧ (s.swWrite off 0x80000019).island 25 ≠ 3 ∧
      (s.swWrite off 0x80000019).islandUsed 25 = false ∧ (s.swWrite off 0x8000001C).islandUsed 28 = true) ∧
    (s.pllLocked 0 = true ∧ s.on F.XING_STAT_REFOK = true ∧ State.reset.on F.XING_STAT_REFOK = false) := by decide +kernel

/-- One waiting report of a code. -/
def repSt (code : Nat) (dry : Bool) (l : List (Fld × Nat × Nat × Nat) := []) : State :=
  { mk l with flt := { FltState.reset with waiting := [(code, [{ arg := 7, line := none, pend := 0, injected := dry, dry := dry, rail := false }])] } }

theorem test_witness_FaultReactions :
    let code (cls : Nat) : Nat := ((allCodes.find? (fun c => decide (State.reset.classOf c = cls))).getD 0)
    let s (cls : Nat) (l : List (Fld × Nat × Nat × Nat) := []) := repSt (code cls) false l
    let w (s : State) (c : Nat) : State := ({ s with flt := { s.flt with waiting := [] } } : State).recordReport c
      { arg := 7, line := none, pend := 0, injected := false, dry := false, rail := false }
    let z := ({ s 1 with flt := FltState.reset } : State)
    (∀ cls ∈ [1, 2, 3, 4, 5], codeRow (code cls) ≠ none ∧ (s cls).waitingReps (code cls) ≠ [] ∧ (s cls).classOf (code cls) = cls ∧
      (s cls).on F.FLT_CCFG_RAILBAD (code cls / 256) (code cls % 256) = false ∧ (s cls).flt.walkTest = none) ∧
    (code 1 ≠ C.eng_deadline_miss ∧ code 1 ≠ C.ibf_underrun) ∧
    ((w (s 3) (code 3)).dev ≠ stHalted ∧ (w (s 3) (code 3)).dev ≠ stGrave ∧ (w (s 3) (code 3)).printing = false ∧
      (w (s 3 [(F.DEV_STATE_STATE, 5, 0, 0)]) (code 3)).printing = true) ∧
    (w (s 4 [(F.DEV_STATE_STATE, 7, 0, 0)]) (code 4)).dev = stHalted ∧ (w (s 5 [(F.DEV_STATE_STATE, 7, 0, 0)]) (code 5)).dev = stHalted ∧
    (w (s 5) (code 5)).dev ≠ stHalted ∧
    ((mk [(F.FLT_CCFG_RAILBAD, 1, code 1 / 256, code 1 % 256)]).on F.FLT_CCFG_RAILBAD (code 1 / 256) (code 1 % 256) = true ∧ z.waitingReps (code 1) = []) ∧
    (z.quietFor (code 1) = false ∧ ((mk [(F.FLT_CCFG_QUIET, 1, code 1 / 256, code 1 % 256)]).quietFor (code 1)) = true ∧ z.mergeSlot (code 1) 7 = none ∧
      z.histSlot = (some 1, false) ∧ ((w z (code 1)).mergeSlot (code 1) 7) = some 1) := by decide +kernel

theorem test_witness_FaultHubUpkeep :
    let s := State.reset
    let c := C.cam_absent
    let wk (n : Nat) (t : Option (Nat × Nat)) (now : Nat) : State := { s with now := now, flt := { FltState.reset with walkNext := n, walkTest := t } }
    let row : CodeRow := (codeRow c).getD { code := 0, dflt := 0, lo := 0, hi := 0, level := false }
    ((codeRow c).isSome = true ∧ s.on F.FLT_CCFG_RAILBAD (c / 256) (c % 256) = false ∧ max 1 (s.get F.FLT_CTL_SKEW) < 41 ∧ 40 ≤ max 1 (s.get F.FLT_CTL_SKEW)) ∧
    (allCodes[1]?.isSome = true ∧ s.get F.FLT_CTL_RWALK ≠ 0 ∧ (wk 1 none 0).flt.walkAt ≤ (wk 1 none 0).now ∧ 0 < 1 ∧ 1 + 1 < allCodes.length ∧
      s.waitingReps (allCodes.getD 1 0) = [] ∧ Tab.get (fun _ => false) s.flt.levels (allCodes.getD 1 0) = false) ∧
    ((wk 1 (some (c, 0)) 2000).flt.walkTest = some (c, 0) ∧ 0 + 2000 ≤ (wk 1 (some (c, 0)) 2000).now) ∧
    (canReach s 0x100020 = true ∧ fieldOf (0x8000FFFF : Word) 31 1 = 1 ∧ codeRow (fieldOf (0x8000FFFF : Word) 0 16) = none ∧
      (s.swWrite (R.FLT_INJ.off 0 0) (BitVec.ofNat 32 (2 ^ 31 + c))).get F.SEC_LCS_STATE = 0 ∧ codeRow (fieldOf (BitVec.ofNat 32 (2 ^ 31 + c)) 0 16) ≠ none ∧
      (mk [(F.SEC_LCS_STATE, 1, 0, 0)]).get F.SEC_LCS_STATE = 1) ∧
    (canReach s 0x100030 = true ∧ fieldOf (1 : Word) 0 1 = 1 ∧ canReach s 0x100014 = true) ∧
    (canReach s (R.FLT_CCFG.off (c / 256) (c % 256)) = true ∧ c / 256 ≠ 0x13 ∧ clampN row.lo row.hi (fieldOf (0x00070000 : Word) 16 3) ≠ 7 ∧
      clampN row.lo row.hi row.dflt = row.dflt) ∧
    (let l : State := { s with flt := { FltState.reset with levels := [(c, true)] } }
     isLevel c = true ∧ Tab.get (fun _ => false) l.flt.levels c = true ∧ l.waitingReps c = [] ∧ l.levelEnded c = true) := by decide +kernel

/-! ### Sensing, security, resets and Boot -/

theorem test_witness_SensingAndShutdown :
    let on := [(F.SENS_CTL_EN, 1, 0, 0)]
    let z := mk on
    let s := mk (on ++ [(F.SENS_ACH_EN, 1, 3, 0)] ++ (List.range 24).filterMap (fun c => if c = 3 then none else some (F.SENS_ACH_EN, 0, c, 0)))
    let ok (rl rh : Nat) : Bool := decide (472 ≤ rl ∧ rl ≤ 552 ∧ rl + 2980 ≤ rh ∧ rh ≤ rl + 3164)
    let rs (a b : Int) : List (BitVec 16) := (List.range 12).map (fun n => BitVec.ofInt 16 (if n = 5 then a else b))
    let ns (a b : Int) := State.reset.goodNeighbours (rs a b) 5
    let d := State.reset.get F.SENS_TCFG_DIFF
    let cnt : State := { State.reset with sens := { State.reset.sens with dis := [(5, 100)] } }
    let tj (a b : Int) : Option (Nat × Int) :=
      let a' := (List.range 12).foldl (State.putSensor (rs a b)) ((List.range 12).foldl (State.checkSensor (rs a b)) State.reset)
      (a'.set F.SENS_TJ_NFAIL a'.failedCount).hottest (rs a b)
    (z.on F.SENS_CTL_EN = true ∧ z.nextAdc = some 16 ∧ ((z.adcChan 16).n + 1 ≠ 2 ^ min 8 (z.get F.SENS_ACH_AVG 16))) ∧
    (s.nextAdc = some 3 ∧ (let t := fields [(F.SENS_ACH_AVG, 0, 3, 0)] s; t.nextAdc = some 3 ∧ (t.adcChan 3).n + 1 = 2 ^ min 8 (t.get F.SENS_ACH_AVG 3))) ∧
    (ok 472 3452 = true ∧ ok 552 3716 = true ∧ ok 471 3500 = false ∧ ok 553 3600 = false ∧ ok 512 3491 = false ∧ ok 512 3677 = false) ∧
    (State.reset.tsFailed 5 = false ∧ reading (rs (-881) 0) 5 < -880 ∧ reading (rs (-880) 0) 5 = -880 ∧ reading (rs 2400 0) 5 = 2400 ∧ 2400 < reading (rs 2401 0) 5) ∧
    ((mk [(F.SENS_TS_FAILED, 1, 1, 0), (F.SENS_TS_FAILED, 1, 4, 0), (F.SENS_TS_FAILED, 1, 6, 0)]).goodNeighbours (rs 0 0) 5).length = 1 ∧
    (2 ≤ (ns d 0).length ∧ median (ns d 0) = some 0 ∧ (reading (rs d 0) 5 - 0).natAbs ≤ d ∧ d < (reading (rs (d + 1) 0) 5 - 0).natAbs ∧
      Tab.get (fun _ => 0) State.reset.sens.dis 5 + 1 < max 1 (State.reset.get F.SENS_TCFG_N) ∧ max 1 (cnt.get F.SENS_TCFG_N) ≤ Tab.get (fun _ => 0) cnt.sens.dis 5 + 1) ∧
    ((rs 0 0).length = 12 ∧ tj 16 0 = some (5, 16) ∧ State.reset.isHot (rs 2000 2000) 5 = true ∧ State.reset.isHot (rs 1999 2000) 5 = false) ∧
    (({ State.reset with sens := { State.reset.sens with shutRec := some (5, 0) } } : State).sens.shutRec = some (5, 0) ∧ State.reset.sens.otp.length < 32 ∧
      32 ≤ ({ State.reset with sens := { State.reset.sens with otp := List.replicate 32 0 } } : State).sens.otp.length ∧ State.reset.sens.shutRec = none) := by
  decide +kernel

/-- A started MEAS_LOAD, with segment 0 of port 0 in a state and its CAP word. -/
def loadSt (a : Word) (dev st : Nat) (cap : Word) (l : List (Fld × Nat × Nat × Nat) := []) : State :=
  { withMsg (msg 0x41 [(0, a)]) (mk ([(F.DEV_STATE_STATE, dev, 0, 0), (F.HLK_SEG_STATE, st, 0, 0)] ++ l)) with
    segs := [(0, { Seg.reset with cap := [cap] })] }

theorem test_witness_LoadsAndCalibration :
    let ask (a : Word) (dev st : Nat) (cap : Word) (l : List (Fld × Nat × Nat × Nat)) := loadSt a dev st cap l
    let m (a : Word) := msg 0x41 [(0, a)]
    let good := ask 0 4 sgStandby 0x100 []
    let z (s : State) : State := { s.set F.SENS_LSTAT_SEG 0 with sens := { (s.set F.SENS_LSTAT_SEG 0).sens with load := some (m 0, 0) } }
    let p : Pend := { tok := 5, mtype := 0x12, dst := 2, words := [], due := none, tries := 0 }
    let up (st w4 : Word) : List Word := [BitVec.ofNat 32 (0x28 * 2 ^ 26 + 2 * 2 ^ 15 + 5), st <<< 24, 0, 0, w4, 0, 0, 0, 0, 0, 0, 0, 0]
    let link := (mk [(F.HLP_STAT_STATE, 6, 1, 0)]).setPort 1 { Port.reset with pend := [p] }
    let due := mk [(F.SENS_CUSTAT_DUE, 1, 0, 0), (F.SENS_CUNIT_EN, 1, 0, 0), (F.HLP_STAT_STATE, 6, 0, 0)]
    let dram := mk [(F.SENS_CUSTAT_DUE, 1, 32, 0), (F.SENS_CUNIT_EN, 1, 32, 0), (F.DMC_CHSTAT_STATE, 4, 0, 0)]
    (∀ a ∈ [0, 0x10000, 1], (ask (BitVec.ofNat 32 a) 4 3 0 []).msgOf 7 0x41 = some (m (BitVec.ofNat 32 a)) ∧
      (ask (BitVec.ofNat 32 a) 4 3 0 []).sens.load = none) ∧
    ((0xFFE0 : Nat) < 2 ^ 16 ∧ 0xFFE0 % 32 = 0 ∧ (1 : Nat) % 32 ≠ 0) ∧
    ((ask 0 5 3 0 []).dev ≠ stReady ∧ (ask 0 4 3 0 [(F.SYS_PMODE_STBY, 1, 0, 0)]).on F.SYS_PMODE_STBY = true ∧ good.dev = stReady ∧ good.on F.SYS_PMODE_STBY = false ∧
      (ask 0 4 3 0 [(F.SENS_LSTAT_BUSY, 1, 0, 0)]).on F.SENS_LSTAT_BUSY = true ∧ good.on F.SENS_LSTAT_BUSY = false) ∧
    ((z (ask 0 4 sgLost 0 [])).segState 0 = sgLost ∧ (z good).segState 0 = sgStandby ∧ (z (ask 0 4 sgActive 0 [])).segState 0 = sgActive ∧
      fieldOf (((z (ask 0 4 sgActive 0 [])).seg 0).cap.getD 0 0) 8 1 = 0 ∧ fieldOf (((z good).seg 0).cap.getD 0 0) 8 1 = 1) ∧
    (∀ e ∈ [(0, 0), (0, 1), (2, 0), (3, 0)],
      let ws := up (BitVec.ofNat 32 e.1) (BitVec.ofNat 32 e.2)
      (link.upEvent 1 ws 0x28).upOk 1 ws 0x28 = true ∧ fieldOf (ws.getD 1 0) 24 8 = e.1 ∧ ws.getD 4 0 = BitVec.ofNat 32 e.2 ∧
      ((((link.upEvent 1 ws 0x28).fromSeg 1 ws).port 1).pend.find? (fun q => q.tok == upArg ws % 4096 && q.mtype == 0x12 && q.dst == upSrc ws)) = some p) ∧
    (((List.range 37).foldl State.ageUnit (mk [(F.SENS_CSCH_AUTO, 1, 0, 0)])).on F.SENS_CSCH_AUTO = true ∧
      ((List.range 37).foldl State.ageUnit (mk [(F.SENS_CSCH_AUTO, 0, 0, 0)])).on F.SENS_CSCH_AUTO = false) ∧
    (due.on F.SENS_CUSTAT_DUE 0 = true ∧ due.on F.SENS_CUNIT_EN 0 = true ∧ due.unitLive 0 = true ∧
      (fields [(F.HLP_STAT_MODE, 1, 0, 0)] due).get F.HLP_STAT_MODE (0 / 2) ≠ 0 ∧ (fields [(F.HLP_STAT_CALRUN, 1, 0, 0)] due).on F.HLP_STAT_CALRUN 0 = true ∧
      max 1 ((fields [(F.HLP_STAT_CALRUN, 1, 3, 0), (F.SENS_CSCH_MAXPAR, 0, 0, 0)] due).get F.SENS_CSCH_MAXPAR) ≤
        (fields [(F.HLP_STAT_CALRUN, 1, 3, 0), (F.SENS_CSCH_MAXPAR, 0, 0, 0)] due).calsRunning) ∧
    (dram.on F.SENS_CUSTAT_DUE 32 = true ∧ dram.on F.SENS_CUNIT_EN 32 = true ∧ dram.unitLive 32 = true ∧ State.reset.on F.SENS_CUSTAT_DUE 0 = false) := by
  decide +kernel

/-- A security command in progress. -/
def secCmd (op arg status : Nat) (data : List Byte) : SecCmd := { op := op, arg := arg, addr := 0x10000000, status := status, data := data }
def withCmd (c : SecCmd) : State := { State.reset with sec := { State.reset.sec with cmd := some c } }
/-- A key slot. -/
def slot1 : KeySlot := { keyid := 9, lseq := 4, design := 0, key := [], metered := false, limit := 0, used := 0, beyond := 0 }

theorem test_witness_SecurityCommands :
    let bad := mk [(F.SEC_CMD_BUSY, 1, 0, 0)]
    let v (op : Nat) : Word := BitVec.ofNat 32 (2 ^ 31 + op)
    let lic := List.replicate 0x180 (0 : Byte) ++ leBytes 4 9 ++ leBytes 4 4 ++ List.replicate 184 0
    let p := lic.drop 0x180
    let ks : State := { State.reset with sec := { State.reset.sec with slots := [(2, some slot1)] } }
    let image : List Byte := List.replicate 0x184 0 ++ leBytes 4 1
    (canReach State.reset 0x130004 = true ∧ State.reset.on F.SEC_CMD_BUSY = false ∧ bad.on F.SEC_CMD_BUSY = true ∧
      (∀ op ∈ [1, 2, 3, 4, 5, 6, 7, 8, 9, 10], fieldOf (v op) 31 1 = 1 ∧ fieldOf (v op) 0 8 = op)) ∧
    ((fields [(F.SEC_CMDADDR_ADDR, 0x400000, 0, 0)] State.reset).asksRevoke = false ∧
      (withTarn 0 image (mk [(F.SEC_CMDADDR_ADDR, 0x400000, 0, 0)])).asksRevoke = true) ∧
    (State.reset.sec.cmd = none ∧ (∀ op ∈ [1, 2, 3, 4, 5, 6, 7, 8, 9, 10], (withCmd (secCmd op 0 0 [])).sec.cmd = some (secCmd op 0 0 []))) ∧
    ((secCmd 1 0 0 lic).status = 0 ∧ (secCmd 1 0 2 lic).status ≠ 0 ∧
      (let r := (withTarn 0x180 [1] State.reset).readArgs (0x10000000 + 0x180) (leAt lic 0x0C 4); r.1.isSome = true ∧ r.2.freeRegion = some 0)) ∧
    (ks.keySlot (secCmd 4 2 0 []).arg = some slot1) ∧
    (p.length = 192 ∧ zeroBytes p 0x14 12 = true ∧ zeroBytes p 0x81 3 = true ∧ ks.auditFull = false ∧ leAt p 0x10 4 = 0 ∧
      ks.slotOf (w32 (leAt p 0 4)) = some 2 ∧ ks.keySlot 2 = some slot1 ∧ leAt p 4 4 ≤ slot1.lseq.toNat) ∧
    ((mk [(F.DEV_FEATACT_BITS, 16, 0, 0)]).feature 4 = true ∧ State.reset.get F.SEC_LCS_STATE ≠ lsProvisioned ∧ State.reset.get F.SEC_LCS_STATE ≠ lsOpen) := by
  decide +kernel

theorem test_witness_AuditAndTamper :
    let sl (e : Nat) : State := { State.reset with sec := { State.reset.sec with seals := [(e, [])] } }
    let full : State := { State.reset with sec := { State.reset.sec with audNext := auditRing } }
    let g (l : List Nat) : State := { State.reset with now := 1000000000, sec := { State.reset.sec with glitchAt := l } }
    let recent (s : State) := (s.now :: s.sec.glitchAt).filter (fun t => s.now < t + 1000000000)
    let at_ (n : Nat) : State := { State.reset with sec := { State.reset.sec with audNext := n } }
    (canReach State.reset 0x130018 = true ∧ (sl 7).sec.seals.find? (fun e => e.1 % 2 ^ 32 == (7 : Word).toNat) = some (7, []) ∧
      (sl 7).sec.seals.find? (fun e => e.1 % 2 ^ 32 == (8 : Word).toNat) = none) ∧
    (full.auditFull = true ∧ State.reset.auditFull = false ∧ (at_ 254).auditFull = false ∧ ((at_ 253).sec.audNext + 1) % 256 ≠ 0) ∧
    (State.reset.pwr.vcoreOff = none ∧ (recent (g [1])).length = 2 ∧ (recent (g [1, 2])).length = 3 ∧ (recent (g [0, 0])).length = 1) ∧
    (State.reset.tapAllowed .bypass = true ∧ (mk [(F.SEC_LCS_STATE, 2, 0, 0)]).get F.SEC_LCS_STATE = lsCertified ∧
      (mk [(F.SEC_LCS_STATE, 2, 0, 0)]).tapAllowed .sample = false) := by decide +kernel

theorem test_witness_Resets :
    let grave := mk [(F.DEV_STATE_STATE, 8, 0, 0)]
    let ok : Word := 0x80005AFE
    let soft (v : Word) : Bool := fieldOf v 31 1 == 1 && fieldOf v 0 16 == 0x5AFE
    let e : AuditEntry := { seq := 3, time := 0, type := 9, lcs := 0, arg := [], chain := [] }
    let rec_ : State := { State.reset with sens := { State.reset.sens with shutRec := some (1, 1) } }
    (grave.dev = stGrave ∧ State.reset.dev ≠ stGrave ∧ State.reset.pwr.vcoreOff = none) ∧
    (canReach State.reset 0x140000 = true ∧ soft ok = true ∧ soft 0x5AFE = false ∧ soft 0x80005AFF = false ∧ (mk [(F.SYS_RST_PEND, 1, 0, 0)]).on F.SYS_RST_PEND = true ∧
      State.reset.on F.SYS_RST_PEND = false ∧ (withCmd (secCmd 1 0 0 [])).sec.cmd ≠ none ∧ State.reset.sec.cmd = none ∧ rec_.sens.shutRec ≠ none ∧
      State.reset.sens.shutRec = none) ∧
    (let a : State := { State.reset with sec := { State.reset.sec with audit := [e] } }
     a.sec.cmd = none ∧ a.sec.audit = [e]) := by decide +kernel

theorem test_witness_StandbyAndBus :
    let rdy := mk [(F.DEV_STATE_STATE, 4, 0, 0)]
    let u (s : State) (v : Word) := s.set F.SYS_PMODE_REFUSED (if fieldOf v 29 1 = 1 then 0 else s.get F.SYS_PMODE_REFUSED)
    let sb := mk [(F.SYS_PMODE_STBY, 1, 0, 0)]
    let wd := { mk [(F.SYS_WDOG_EN, 1, 0, 0)] with now := 100000000 }
    let go (bus : Nat) : Word := BitVec.ofNat 32 (2 ^ 31 + bus * 2 ^ 26)
    let b (bus : Nat) (l : List (Fld × Nat × Nat × Nat)) := (mk l).swWrite (R.SYS_BUSCMD.off 0 0) (go bus)
    let op : BusOp := { bus := 3, addr := 0, wlen := 0, rlen := 0, data := 0 }
    (canReach rdy 0x14000c = true ∧ fieldOf (0x80000000 : Word) 31 1 = 1 ∧ (u rdy 0x80000000).on F.SYS_PMODE_STBY = false ∧ (u rdy 0x80000000).dev = stReady ∧
      (u State.reset 0x80000000).dev ≠ stReady ∧ (u rdy 0x80000000).job.job = none ∧ (u rdy 0x80000000).ing.jobs = [] ∧
      (u (fields [(F.DMC_STAT_FCBUSY, 1, 0, 0)] rdy) 0x80000000).on F.DMC_STAT_FCBUSY = true ∧ (u rdy 0x80000000).on F.DMC_STAT_FCBUSY = false) ∧
    ((u sb 0).on F.SYS_PMODE_STBY = true ∧ (u sb 0).pwr.stbyWait = false ∧ fieldOf (0 : Word) 31 1 = 0 ∧
      (u { sb with pwr := { sb.pwr with stbyWait := true } } 0).pwr.stbyWait = true) ∧
    (wd.on F.SYS_WDOG_EN = true ∧ wd.pwr.wdogRep = false ∧ wd.pwr.wdogAt + 1000000 * max 10 (wd.get F.SYS_WDOG_MS) ≤ wd.now + 0 ∧
      ({ wd with now := 99999999 } : State).now < wd.pwr.wdogAt + 1000000 * max 10 (wd.get F.SYS_WDOG_MS)) ∧
    (canReach State.reset 0x140018 = true ∧ fieldOf (go 3) 31 1 = 1 ∧ (b 1 [(F.SYS_BUSCMD_BUSY, 1, 0, 0)]).on F.SYS_BUSCMD_BUSY = true ∧
      fieldOf (go 3) 26 2 = 3 ∧ (b 3 [(F.ENG_AVSCTL_EN, 1, 0, 0)]).on F.ENG_AVSCTL_EN = true ∧ (b 3 []).on F.SYS_BUSCMD_BUSY = false ∧
      (b 3 []).on F.ENG_AVSCTL_EN = false ∧ fieldOf (go 2) 26 2 ≠ 3) ∧
    (({ State.reset with pwr := { State.reset.pwr with bus := some op } } : State).pwr.bus = some op ∧ State.reset.pwr.bus = none) := by decide +kernel

theorem test_witness_Booting :
    let i (flash a b st : Bool) : BootInfo := { straps := 0, pbLocked := true, flash := flash, copyA := a, copyB := b, starter := st, chans := Vector.replicate 4 .absent }
    let f (s : State) (i : BootInfo) : State :=
      let a := { s.resumeHours with tarn := { s.tarn with data := [], chk := [], valid := [] } }
      let b := (a.loadOtp.latchStraps i.straps).markAbsent
      let c := (b.setLock 0 i.pbLocked).setDev stBoot
      let d : State := { c with pwr := { c.pwr with bootAt := c.now, bootOk := false } }
      let e := if d.pwr.brown then d.report C.sys_brownout (mkArg none none 0) else d
      ({ e with pwr := { e.pwr with brown := false } } : State).vauxEvents
    let prov : State := { State.reset with sec := { State.reset.sec with groups := [(1, 0xFFFF)] } }
    let bt (l : List (Fld × Nat × Nat × Nat)) : State := { mk ((F.DEV_STATE_STATE, 2, 0, 0) :: l) with pwr := { State.reset.pwr with bootOk := true } }
    (State.reset.dev = stReset ∧ (mk [(F.DEV_STATE_STATE, 4, 0, 0)]).dev ≠ stReset) ∧
    (((f State.reset (i true false false false)).verifyBoot (i true false false false)).1 = true ∧
      ((f State.reset (i false true true true)).verifyBoot (i false true true true)).1 = false ∧
      (f prov (i true false false true)).lcs ≠ lcBlank ∧ (f prov (i true false false true)).lcs ≠ lcOpen ∧
      ((f prov (i true true false true)).verifyBoot (i true true false true)).1 = true) ∧
    ((bt []).dev = stBoot ∧ (bt []).pwr.bootOk = true ∧ (bt []).training = false ∧ (bt [(F.DMC_CHSTAT_STATE, 2, 3, 0)]).training = true ∧
      State.reset.pwr.bootOk = false) := by decide +kernel

/-! ### Results that the spec's worked examples give, and known answers of the algorithms it names -/

/-- FIPS 180-4 (SHA-384 of "abc"), the GCM specification (test case 13) and CRC-32C ("123456789"). -/
theorem test_known_answers :
    (sha384 [0x61, 0x62, 0x63]).take 4 = [0xcb, 0x00, 0x75, 0x3f] ∧
    gcmOpen (List.replicate 32 0) (List.replicate 12 0) [] []
      [0x53, 0x0f, 0x8a, 0xfb, 0xc7, 0x45, 0x36, 0xb9, 0xa9, 0x63, 0xb4, 0xf1, 0xc4, 0xcb, 0x73, 0x8b] = ([], true) ∧
    crc32c [0x31, 0x32, 0x33, 0x34, 0x35, 0x36, 0x37, 0x38, 0x39] = 0xE3069283 := by decide +kernel

/-- Chapter 06, "the start of a framed row": the 24 bits of its six samples. -/
theorem test_framed_row :
    packMsb 3 (encodeRow 10 (ChanHist.fresh 6 10) [512, 512, 512, 512, 530, 534]) = [0xAF, 0xF8, 0x88] := by decide +kernel

/-- Chapter 07, "one column on IB2": the weights of its four nodes, of which the first case holds. -/
theorem test_lattice_weights : latWeights 24 22 18 = [(8, 0, 0, 0), (2, 1, 0, 0), (4, 1, 1, 0), (18, 1, 1, 1)] := by decide +kernel

/-- Chapter 09: the speed of the reference-press encoder in PERIOD mode. -/
theorem test_speed : speedMag 4 42949673 6000 = 27962027 := by decide +kernel

/-- Chapter 10, "one line of IB0": t of the evaluation that commits, and of the one before it. -/
theorem test_fire_delay :
    fireDelay 454577978015744 (454577978015744 - 114500000) 27962027 = 28117 ∧
    fireDelay 454577978015744 (454577978015744 - 114630312) 27962027 = 28149 := by decide +kernel

/-- Chapter 04: the fire position of line 5,000,300 of IB0. -/
theorem test_fire_position :
    ({ State.reset with prf := { PrfState.reset with live := some { Profile.empty with frame := { frame1 with pitch := 90910141 } } } } : State).firePos 0 5000300 =
      6936309479 := by decide +kernel

/-- Chapter 12: the FIRE message of line 5,000,300 on HP0. -/
theorem test_fire_message :
    ((mk [(F.FIRE_PDLY_DLY, 106, 0, 0)]).setPort 0 { Port.reset with epoch := some 1200000 }).fireMsg 0 5000300 3000028117 0 =
      [0x0C3FF000, 0x4C6C0000, 0xB2BE7BEB, 0] := by decide +kernel

/-- Chapter 10: the trim of a segment from its report. -/
theorem test_trim : trimOf (-40) (-9) 696 640 30120 30000 = -13 := by decide +kernel

/-- Chapter 13: the check symbols of a beat, the decoding of its failing device, and the address of the reference press. -/
theorem test_beat_and_address :
    beatCheck [0, 0, 0, 0x10] = 0x86 ∧ decodeBeat [0, 0, 0, 5, 0, 0, 0, 1, 6, 8] = .fix 3 5 ∧
    (let s := mk [(F.DMC_CTL_CHEN, 3, 0, 0), (F.DMC_CHSTAT_STATE, 4, 0, 0), (F.DMC_CHSTAT_STATE, 4, 1, 0), (F.DMC_ILV_GRAIN, 4, 0, 0), (F.DMC_CTL_HASH, 1, 0, 0),
        (F.DMC_CHSTAT_RANKS, 1, 0, 0), (F.DMC_CHSTAT_RANKS, 1, 1, 0), (F.DMC_CHSTAT_DENGB, 8, 0, 0), (F.DMC_CHSTAT_DENGB, 8, 1, 0)]
     s.chanAddr 0x12345678 = (1, 0x091A2678) ∧ s.bankRow 1 0x091A2678 = (1 * 8 + 4, 1165)) := by decide +kernel

/-- Chapter 14, "a dead nozzle record": the check field of byte 0x80, and the correction of the inverted bit. -/
theorem test_tarn_byte : encode5 0x80 = 0x1C ∧ decodeByte 0x00 0x1C = (0x80, .corrected 28) := by decide +kernel

/-- Chapter 15, "one update on IB2": the changes of its patches and of knots 18 and 19. -/
theorem test_trim_update :
    let r := parseLoop ([1, 4] ++ leBytes 2 128 ++ leBytes 2 512 ++ leBytes 2 4096 ++ leBytes 2 5 ++ List.replicate 54 0)
    let ps : Array LoopPatch := #[{ q := 12000, t := 420, d := 420 }, { q := 16000, t := 560, d := 545 }, { q := 20000, t := 700, d := 680 }, { q := 24000, t := 840, d := 838 }]
    (List.range 4).map (loopDelta r ps) = [0, 214, 285, 0] ∧ knotDelta ps #[0, 214, 285, 0] 18 = 257 ∧ knotDelta ps #[0, 214, 285, 0] 19 = 275 := by decide +kernel

/-- A state whose Tarn holds 16-bit words at ascending offsets of tarn 0, and nothing else. -/
def words16 (l : List (Nat × Nat)) (s : State) : State :=
  { s with tarn := { s.tarn with
    data := (l.flatMap (fun e => [(e.1, BitVec.ofNat 8 e.2), (e.1 + 1, BitVec.ofNat 8 (e.2 / 256))])).filter (fun e => decide (e.2 ≠ 0)),
    valid := (l.map (fun e => e.1 / 64)).eraseDups.map (fun k => (k, true)) } }

/-- Chapter 07, "one column on IB2": D of the column, with its lattice at offset 0 and its curve and trims behind it. -/
theorem test_column :
    let s := words16 [(40160, 20480), (40160 + 33 * 33 * 2, 19520), (40160 + 33 * 34 * 2, 19840), (40160 + (33 * 34 + 1) * 2, 20800),
      (100000 + 2 * 1282, 18900), (100000 + 2 * 1283, 18915), (120000 + 36, 65536 - 120), (120000 + 38, 65536 - 88)] State.reset
    let x := s.colourOf { lat := 0, lin := 100000, trim := 120000, tlen := true } 600 470 530
    x.kind = 1 ∧ x.d = 18803 ∧ x.bad = false ∧ x.odd = [] := by decide +kernel

/-- Chapter 08, "five columns on IB2": column 10,001 after stage 3, and its level after stage 6. -/
theorem test_screened_column :
    let s := words16 [(1024 + (620 * 512 + 273) * 2, 52000)] State.reset
    let e : ScnEnv := { tiles := [(4, 4)], cols := 2048, map := #[], colt := 0 }
    let h : ThrHead := { at_ := 0, aw := 512, ah := 768, p := [0, 21845, 43690, 65535], r := [196611, 196611, 196611], lmax := 3, valid := true, odd := [], bad := false }
    let k : ColClass := { fn := some (0, 1937), cls := 1, odd := [], bad := false }
    ((s.levelOfCol 2 5000300 e h 65535 10001 { k := k, kind := 1, d := 18803, t1 := 19023, t2 := 26074 } (0, 1937)).1) = 1 ∧
    receivers #[{ k := k, kind := 1, d := 0, t1 := 0, t2 := 0 }, { k := k, kind := 1, d := 0, t1 := 0, t2 := 0 }, { k := { k with cls := 2 }, kind := 1, d := 0, t1 := 0, t2 := 0 },
      { k := k, kind := 1, d := 0, t1 := 0, t2 := 0 }, { k := k, kind := 1, d := 0, t1 := 0, t2 := 0 }] 24 8 2 = [(0, 8), (1, 24), (3, 24), (4, 8)] := by decide +kernel

end Sys2Proof.Tests
end

/-! The statements of the family `00_scope`: what every command keeps (O3), and the accesses of registers (O28). -/

namespace Sys2Proof.Machine

/-! ### Every command -/

/-- One case per command, as `exec` has one arm per command; each cites the lemma that stands with the operations of its chapter. -/
theorem exec_keeps {s0 s : State} (c : Instr) (h : Keeps s0 s) : ∃ t, exec c s = .next t ∧ Keeps s0 t :=
  match c with
  | .registerWrite .. => execRegisterWrite_keeps h
  | .readClear .. => execReadClear_keeps h
  | .latchingRead .. => execLatchingRead_keeps h
  | .bar0HoleAccess .. => execBar0HoleAccess_keeps h
  | .bar2Request .. => execBar2Request_keeps h
  | .aperWrite .. => execAperWrite_keeps h
  | .pcieReset .. => execPcieReset_keeps h
  | .negGo .. => execNegGo_keeps h
  | .queuePairConfig .. => execQueuePairConfig_keeps h
  | .sqTailDoorbell .. => execSqTailDoorbell_keeps h
  | .cqHeadDoorbell .. => execCqHeadDoorbell_keeps h
  | .entryStart .. => execEntryStart_keeps h
  | .completionPost .. => execCompletionPost_keeps h
  | .coalesceTimeout .. => execCoalesceTimeout_keeps h
  | .vectorUnmask .. => execVectorUnmask_keeps h
  | .raise .. => execRaise_keeps h
  | .devStatus .. => execDevStatus_keeps h
  | .faultRead .. => execFaultRead_keeps h
  | .eventArm .. => execEventArm_keeps h
  | .prfStage .. => execPrfStage_keeps h
  | .prfProve .. => execPrfProve_keeps h
  | .prfPromote .. => execPrfPromote_keeps h
  | .prfAbandon .. => execPrfAbandon_keeps h
  | .prfRollback .. => execPrfRollback_keeps h
  | .prfStarter .. => execPrfStarter_keeps h
  | .prfStatus .. => execPrfStatus_keeps h
  | .jobOpen .. => execJobOpen_keeps h
  | .panelDefine .. => execPanelDefine_keeps h
  | .ingest .. => execIngest_keeps h
  | .jobClose .. => execJobClose_keeps h
  | .jobCancel .. => execJobCancel_keeps h
  | .printStart .. => execPrintStart_keeps h
  | .printPause .. => execPrintPause_keeps h
  | .printResume .. => execPrintResume_keeps h
  | .printStop .. => execPrintStop_keeps h
  | .measReadRails .. => execMeasReadRails_keeps h
  | .measReadTemperatures .. => execMeasReadTemperatures_keeps h
  | .measReadTelemetry .. => execMeasReadTelemetry_keeps h
  | .measReadCables .. => execMeasReadCables_keeps h
  | .measReadSlack .. => execMeasReadSlack_keeps h
  | .measReadEncoders .. => execMeasReadEncoders_keeps h
  | .measReadDram .. => execMeasReadDram_keeps h
  | .measReadCapabilities .. => execMeasReadCapabilities_keeps h
  | .measReadCameras .. => execMeasReadCameras_keeps h
  | .measLoad .. => execMeasLoad_keeps h
  | .alu .. => execAlu_keeps h
  | .cmp .. => execCmp_keeps h
  | .plog .. => execPlog_keeps h
  | .mul .. => execMul_keeps h
  | .div .. => execDiv_keeps h
  | .sel .. => execSel_keeps h
  | .movi .. => execMovi_keeps h
  | .addi .. => execAddi_keeps h
  | .andi .. => execAndi_keeps h
  | .ori .. => execOri_keeps h
  | .xori .. => execXori_keeps h
  | .shi .. => execShi_keeps h
  | .cmpeqi .. => execCmpeqi_keeps h
  | .cmplti .. => execCmplti_keeps h
  | .cmpltui .. => execCmpltui_keeps h
  | .movx .. => execMovx_keeps h
  | .addx .. => execAddx_keeps h
  | .ld .. => execLd_keeps h
  | .st .. => execSt_keeps h
  | .ldx .. => execLdx_keeps h
  | .stx .. => execStx_keeps h
  | .atom .. => execAtom_keeps h
  | .fence .. => execFence_keeps h
  | .br .. => execBr_keeps h
  | .jmpr .. => execJmpr_keeps h
  | .trap .. => execTrap_keeps h
  | .rett .. => execRett_keeps h
  | .halt .. => execHalt_keeps h
  | .nop .. => execNop_keeps h
  | .mfs .. => execMfs_keeps h
  | .mts .. => execMts_keeps h
  | .selft .. => execSelft_keeps h
  | .wait .. => execWait_keeps h
  | .waitWake .. => execWaitWake_keeps h
  | .waitTimeout .. => execWaitTimeout_keeps h
  | .evcnt .. => execEvcnt_keeps h
  | .armp .. => execArmp_keeps h
  | .armt .. => execArmt_keeps h
  | .dln .. => execDln_keeps h
  | .send .. => execSend_keeps h
  | .recv .. => execRecv_keeps h
  | .dma .. => execDma_keeps h
  | .desc .. => execDesc_keeps h
  | .gclm .. => execGclm_keeps h
  | .cgopen .. => execCgopen_keeps h
  | .cgw .. => execCgw_keeps h
  | .cgt .. => execCgt_keeps h
  | .cgc .. => execCgc_keeps h
  | .cga .. => execCga_keeps h
  | .cgs .. => execCgs_keeps h
  | .ckpt .. => execCkpt_keeps h
  | .rstr .. => execRstr_keeps h
  | .claim .. => execClaim_keeps h
  | .yield .. => execYield_keeps h
  | .eload .. => execEload_keeps h
  | .imageStart .. => execImageStart_keeps h
  | .gateGrant .. => execGateGrant_keeps h
  | .fireStart .. => execFireStart_keeps h
  | .fireStop .. => execFireStop_keeps h
  | .unitCompletion .. => execUnitCompletion_keeps h
  | .unitStall .. => execUnitStall_keeps h
  | .evrouteWrite .. => execEvrouteWrite_keeps h
  | .swevRaise .. => execSwevRaise_keeps h
  | .gaugeClrmin .. => execGaugeClrmin_keeps h
  | .lineComplete .. => execLineComplete_keeps h
  | .deadlineMiss .. => execDeadlineMiss_keeps h
  | .paceUpdate .. => execPaceUpdate_keeps h
  | .avsEnable .. => execAvsEnable_keeps h
  | .avsEvaluation => execAvsEvaluation_keeps h
  | .avsTransactionDone .. => execAvsTransactionDone_keeps h
  | .avsSettleEnd => execAvsSettleEnd_keeps h
  | .avsMismatch => execAvsMismatch_keeps h
  | .avslimWrite .. => execAvslimWrite_keeps h
  | .lineBoundary .. => execLineBoundary_keeps h
  | .timeSwitch .. => execTimeSwitch_keeps h
  | .tquery .. => execTquery_keeps h
  | .encodeBlock .. => execEncodeBlock_keeps h
  | .blockStore .. => execBlockStore_keeps h
  | .storeWaitTimeout .. => execStoreWaitTimeout_keeps h
  | .precompressedBlock .. => execPrecompressedBlock_keeps h
  | .gcmTagCheck .. => execGcmTagCheck_keeps h
  | .spillwayReturn .. => execSpillwayReturn_keeps h
  | .spillTimeout => execSpillTimeout_keeps h
  | .decodeRowSet .. => execDecodeRowSet_keeps h
  | .panicLong .. => execPanicLong_keeps h
  | .barLine .. => execBarLine_keeps h
  | .bandStart .. => execBandStart_keeps h
  | .mapbaseWrite .. => execMapbaseWrite_keeps h
  | .encoderEdge .. => execEncoderEdge_keeps h
  | .signalLoss .. => execSignalLoss_keeps h
  | .indexEdge .. => execIndexEdge_keeps h
  | .speedWindowEnd .. => execSpeedWindowEnd_keeps h
  | .standstill .. => execStandstill_keeps h
  | .positionComparePulse .. => execPositionComparePulse_keeps h
  | .fireEvaluation .. => execFireEvaluation_keeps h
  | .telemetryStale .. => execTelemetryStale_keeps h
  | .portEnable .. => execPortEnable_keeps h
  | .portDisable .. => execPortDisable_keeps h
  | .upstreamTrainingFrame .. => execUpstreamTrainingFrame_keeps h
  | .linkupTimeout .. => execLinkupTimeout_keeps h
  | .linkupRestart .. => execLinkupRestart_keeps h
  | .slip .. => execSlip_keeps h
  | .ffeWrite .. => execFfeWrite_keeps h
  | .recalibrate .. => execRecalibrate_keeps h
  | .patternInject .. => execPatternInject_keeps h
  | .frameInject .. => execFrameInject_keeps h
  | .downstreamFrame .. => execDownstreamFrame_keeps h
  | .upstreamFrame .. => execUpstreamFrame_keeps h
  | .ackMsg .. => execAckMsg_keeps h
  | .bncap .. => execBncap_keeps h
  | .cap .. => execCap_keeps h
  | .slotinfo .. => execSlotinfo_keeps h
  | .staged .. => execStaged_keeps h
  | .applied .. => execApplied_keeps h
  | .telem .. => execTelem_keeps h
  | .segEvent .. => execSegEvent_keeps h
  | .loadres .. => execLoadres_keeps h
  | .bnstat .. => execBnstat_keeps h
  | .floss .. => execFloss_keeps h
  | .ackTimeout .. => execAckTimeout_keeps h
  | .stageTimeout .. => execStageTimeout_keeps h
  | .appliedTimeout .. => execAppliedTimeout_keeps h
  | .pingPeriod .. => execPingPeriod_keeps h
  | .segenWrite .. => execSegenWrite_keeps h
  | .dramRequest .. => execDramRequest_keeps h
  | .dramCommandSlot .. => execDramCommandSlot_keeps h
  | .burstDecode .. => execBurstDecode_keeps h
  | .refreshInterval .. => execRefreshInterval_keeps h
  | .refreshWindow => execRefreshWindow_keeps h
  | .mr4Poll .. => execMr4Poll_keeps h
  | .selfRefreshEntry .. => execSelfRefreshEntry_keeps h
  | .tsetWrite .. => execTsetWrite_keeps h
  | .timingDerived .. => execTimingDerived_keeps h
  | .frequencyChange .. => execFrequencyChange_keeps h
  | .frequencyChangeDone .. => execFrequencyChangeDone_keeps h
  | .patrolScrub => execPatrolScrub_keeps h
  | .eccInject .. => execEccInject_keeps h
  | .dqsOscillatorRun .. => execDqsOscillatorRun_keeps h
  | .dramTraining .. => execDramTraining_keeps h
  | .tarnAccess .. => execTarnAccess_keeps h
  | .tarnInit .. => execTarnInit_keeps h
  | .tarnInitDone => execTarnInitDone_keeps h
  | .tarnScrub .. => execTarnScrub_keeps h
  | .remapWrite .. => execRemapWrite_keeps h
  | .dmahaltWrite .. => execDmahaltWrite_keeps h
  | .dmaCompletion .. => execDmaCompletion_keeps h
  | .checkerTestWrite .. => execCheckerTestWrite_keeps h
  | .cameraEnable .. => execCameraEnable_keeps h
  | .frameStart .. => execFrameStart_keeps h
  | .cameraLine .. => execCameraLine_keeps h
  | .frameEnd .. => execFrameEnd_keeps h
  | .pipelineLine => execPipelineLine_keeps h
  | .cameraAbsent .. => execCameraAbsent_keeps h
  | .cameraClockTimeout .. => execCameraClockTimeout_keeps h
  | .triggerPulse .. => execTriggerPulse_keeps h
  | .strobe .. => execStrobe_keeps h
  | .arm => execArm_keeps h
  | .disarm => execDisarm_keeps h
  | .patch => execPatch_keeps h
  | .band => execBand_keeps h
  | .timeStep .. => execTimeStep_keeps h
  | .timeBaseReset .. => execTimeBaseReset_keeps h
  | .rateWrite .. => execRateWrite_keeps h
  | .snapshot .. => execSnapshot_keeps h
  | .timeComparePulse .. => execTimeComparePulse_keeps h
  | .frameTransmit .. => execFrameTransmit_keeps h
  | .frameReceive .. => execFrameReceive_keeps h
  | .ethLinkLoss .. => execEthLinkLoss_keeps h
  | .referenceWindow .. => execReferenceWindow_keeps h
  | .pllUnlock .. => execPllUnlock_keeps h
  | .crossingStop .. => execCrossingStop_keeps h
  | .onesidedDetect .. => execOnesidedDetect_keeps h
  | .islandReset .. => execIslandReset_keeps h
  | .oscTrimUpdate => execOscTrimUpdate_keeps h
  | .oscMeasure .. => execOscMeasure_keeps h
  | .faultReport .. => execFaultReport_keeps h
  | .brokenPair .. => execBrokenPair_keeps h
  | .levelSourceIdle .. => execLevelSourceIdle_keeps h
  | .railWalk .. => execRailWalk_keeps h
  | .railTestTimeout => execRailTestTimeout_keeps h
  | .injectFault .. => execInjectFault_keeps h
  | .clrall .. => execClrall_keeps h
  | .firstFaultClear .. => execFirstFaultClear_keeps h
  | .classWrite .. => execClassWrite_keeps h
  | .beat .. => execBeat_keeps h
  | .giveup .. => execGiveup_keeps h
  | .assertClaim .. => execAssertClaim_keeps h
  | .heartbeatTimeout .. => execHeartbeatTimeout_keeps h
  | .coldTakeover .. => execColdTakeover_keeps h
  | .adcConversion .. => execAdcConversion_keeps h
  | .adcSelfCalibration .. => execAdcSelfCalibration_keeps h
  | .tempConversion .. => execTempConversion_keeps h
  | .shutdownRecord => execShutdownRecord_keeps h
  | .calibrationPass .. => execCalibrationPass_keeps h
  | .verify .. => execVerify_keeps h
  | .release .. => execRelease_keeps h
  | .licence .. => execLicence_keeps h
  | .keydrop .. => execKeydrop_keeps h
  | .lcsAdvance .. => execLcsAdvance_keeps h
  | .keyreg .. => execKeyreg_keeps h
  | .revoke .. => execRevoke_keeps h
  | .auditRead .. => execAuditRead_keeps h
  | .auditSeal .. => execAuditSeal_keeps h
  | .meterRead .. => execMeterRead_keeps h
  | .dbgUnlock .. => execDbgUnlock_keeps h
  | .securityCommandDone => execSecurityCommandDone_keeps h
  | .auditAck .. => execAuditAck_keeps h
  | .glitch => execGlitch_keeps h
  | .tamper .. => execTamper_keeps h
  | .jtagInstruction .. => execJtagInstruction_keeps h
  | .powerOnReset .. => execPowerOnReset_keeps h
  | .bootStart .. => execBootStart_keeps h
  | .bootComplete .. => execBootComplete_keeps h
  | .vcoreRemoval => execVcoreRemoval_keeps h
  | .softwareReset .. => execSoftwareReset_keeps h
  | .deferredReset => execDeferredReset_keeps h
  | .jtagReset => execJtagReset_keeps h
  | .standbyEntry .. => execStandbyEntry_keeps h
  | .standbyExit .. => execStandbyExit_keeps h
  | .watchdogExpiry => execWatchdogExpiry_keeps h
  | .busTransaction .. => execBusTransaction_keeps h
  | .busTransactionDone .. => execBusTransactionDone_keeps h
  | .encoderSignalReturn .. => execEncoderSignalReturn_keeps h
  | .ethLinkUp .. => execEthLinkUp_keeps h
  | .cameraClockPresent .. => execCameraClockPresent_keeps h
  | .pllLock .. => execPllLock_keeps h
  | .crossingResume .. => execCrossingResume_keeps h
  | .vauxLoss => execVauxLoss_keeps h

/-- Settles O3: the command keeps what its own start state keeps of itself. -/
theorem everyCommandCompletesAndKeeps : Obligations.EveryCommandCompletesAndKeeps := by
  unfold Obligations.EveryCommandCompletesAndKeeps
  exact fun c s => exec_keeps c (Keeps.refl s)

/-! ### Access codes (R8) -/

/-- W1C: the mask that the write leaves in place is the complement of what was written. -/
theorem testBit_accWrite_w1c {wid old new i : Nat} (hn : new < 2 ^ wid) (hi : i < wid) :
    (accWrite .w1c wid old new).testBit i = (old.testBit i && !new.testBit i) := by
  have mask : (2 ^ wid - 1 - new).testBit i = !new.testBit i := by
    rw [Nat.sub_sub, Nat.add_comm 1, Nat.testBit_two_pow_sub_succ hn, decide_eq_true hi, Bool.true_and]
  calc (old &&& (2 ^ wid - 1 - new)).testBit i
      = (old.testBit i && (2 ^ wid - 1 - new).testBit i) := Nat.testBit_and ..
    _ = (old.testBit i && !new.testBit i) := by rw [mask]

theorem testBit_accWrite_w1s {wid old new i : Nat} :
    (accWrite .w1s wid old new).testBit i = (old.testBit i || new.testBit i) :=
  Nat.testBit_or ..

theorem readMask_wo {lo hi rst : Nat} {w : Word} : readMask [{ hi := hi, lo := lo, acc := .wo, rst := rst }] w = 0 := by
  simp [readMask]

/-- A field that is not WO shows what it holds, at its place in the word. -/
theorem readMask_shown {lo hi rst : Nat} {acc : Acc} {w : Word} (ha : acc ≠ .wo) :
    readMask [{ hi := hi, lo := lo, acc := acc, rst := rst }] w / 2 ^ lo = fieldOf w lo (hi + 1 - lo) := by
  simp [readMask, ha]

theorem fieldOf_readClear_rc {lo hi rst : Nat} {w : Word} (hl : lo ≤ hi) (hh : hi < 32) :
    fieldOf (readClear [{ hi := hi, lo := lo, acc := .rc, rst := rst }] w) lo (hi + 1 - lo) = 0 := by
  have fits : lo + (hi + 1 - lo) ≤ 32 := by omega
  calc fieldOf (fieldPut w lo (hi + 1 - lo) 0) lo (hi + 1 - lo)
      = 0 % 2 ^ (hi + 1 - lo) := fieldOf_fieldPut fits
    _ = 0 := Nat.zero_mod _

/-! ### Host accesses of a register -/

/-- The Grave (R427) and the fuses (R2) each make a register ignore a write. -/
theorem State.busWrite_ignored {s : State} {off : Nat} {f : State → State} (h : s.dev = stGrave ∨ s.fused off = true) :
    s.busWrite off f = s := by
  simp [State.busWrite, h]

/-- A register disabled by fuse reads as 0, and the read leaves the state as it was (R2). -/
theorem State.ioRead_fused {s : State} {off : Nat} (h : s.fused off = true) : s.ioRead off = (0, s) := by
  unfold State.ioRead
  split
  · rfl
  · exact if_pos h

section
variable {s : State} {off : BitVec 21} {x : RegDef × Nat × Nat} (aligned : off.toNat % 4 = 0) (found : regBehind off.toNat = some x)
include aligned found

theorem execRegisterWrite_of_register {by_ : Accessor} {v : Word} :
    execRegisterWrite by_ off v s = .next (s.busWrite off.toNat (fun s => s.ioWrite by_ off.toNat v)) := by
  simp [execRegisterWrite, doRegisterWrite, aligned, found]

theorem State.hostIoRead_of_register : s.hostIoRead off = (s.ioRead off.toNat).2.hostRead (s.ioRead off.toNat).1 := by
  simp [State.hostIoRead, aligned, found]

end

/-- Settles O28: the access codes bit by bit, then the host's write and its two reads of an offset that has a register. -/
theorem registerAccesses : Obligations.RegisterAccesses := by
  unfold Obligations.RegisterAccesses
  constructor
  · intro wid old new lo hi w _ _ hn
    exact ⟨rfl, rfl, rfl, rfl, fun _ hi => testBit_accWrite_w1c hn hi, fun _ _ => testBit_accWrite_w1s,
      fun hl hh => ⟨readMask_wo, readMask_shown (by decide), fieldOf_readClear_rc hl hh⟩⟩
  · intro s by_ off v r i j aligned found
    have write : exec (.registerWrite by_ off v) s = .next (s.busWrite off.toNat fun s => s.ioWrite by_ off.toNat v) :=
      execRegisterWrite_of_register aligned found
    have read := State.hostIoRead_of_register (s := s) aligned found
    refine ⟨fun reaches => ?_, fun ignored => ?_, congrArg _ read, congrArg _ read, State.ioRead_fused⟩
    · rw [write, State.busWrite_reaches reaches]
    · rw [write, State.busWrite_ignored ignored]

end Sys2Proof.Machine

/-! The statements of the family `02_engine_array`: loads and stores (O12), deadlines (O18), descriptors at role gates (O21), the engine
block with pace and the voltage loop (O27), and firing with the line pipeline behind it (O39). -/

namespace Sys2Proof.Machine

/-! ### Instructions whose body runs (R53, R54) -/

section
variable {s t : State} {e : Eng} {op : Nat} {legal : Bool} {body : State → State}

theorem State.execA_body {w : FmtA} (h : Fetches s e 1 t) (hg : guardOf w.n w.p (t.engine e) = true) (hl : legal = true) :
    s.execA op e w legal body = body t :=
  State.execAt_body h hg hl

theorem State.execX_body {w : FmtX} (h : Fetches s e 2 t) (hg : guardOf w.n w.p (t.engine e) = true) (hl : legal = true) :
    s.execX op e w legal body = body t :=
  State.execAt_body h hg hl

end

/-! ### Loads and stores (R58) -/

section
variable {s t : State} {e : Eng}

/-- LD with a defined extension is the load of its effective address. -/
theorem doLd_eq_loadMem {w : FmtM} (h : Fetches s e 1 t) (legal : ¬(w.s = true ∧ w.sz = 3)) :
    doLd e w s = t.loadMem e w.d (t.addrM e w) w.sz.toNat w.s 1 :=
  State.execAt_body h rfl (by simpa [imp_iff_not_or] using legal)

theorem doSt_eq_storeMem {w : FmtM} (h : Fetches s e 1 t) (legal : w.s = false) :
    doSt e w s = t.storeMem e w.d (t.addrM e w) w.sz.toNat 1 :=
  State.execAt_body h rfl (by simp [legal])

theorem doLdx_eq_loadMem {w : FmtX} (h : Fetches s e 2 t) (hg : guardOf w.n w.p (t.engine e) = true) (hf : w.fn.toNat < 8)
    (legal : ¬(w.fn.getLsbD 2 = true ∧ w.fn.toNat % 4 = 3)) :
    doLdx e w s = t.loadMem e w.d (t.addrX e w) (w.fn.toNat % 4) (w.fn.getLsbD 2) 2 := by
  have legal' : (decide (w.fn.toNat < 8) && !(w.fn.getLsbD 2 && w.fn.toNat % 4 == 3)) = true := by
    simpa [hf, imp_iff_not_or] using legal
  exact State.execX_body h hg legal'

theorem doStx_eq_storeMem {w : FmtX} (h : Fetches s e 2 t) (hg : guardOf w.n w.p (t.engine e) = true) (hf : w.fn.toNat < 4) :
    doStx e w s = t.storeMem e w.d (t.addrX e w) (w.fn.toNat % 4) 2 :=
  State.execX_body h hg (decide_eq_true hf)

end

/-- Settles O12: each instruction is the load or the store of its effective address, and that access meets the local store, a misaligned
address or no space at all. -/
theorem localLoadsAndStores : Obligations.LocalLoadsAndStores := by
  unfold Obligations.LocalLoadsAndStores
  refine ⟨fun e s t => ⟨fun h w => ?_, fun h w hg hf => ?_⟩, fun e s t h w zero => ⟨fun misaligned => ?_, fun aligned noLocal noTarn noIo => ?_⟩⟩
  · intro a n aligned inside
    constructor
    · intro legal good
      exact congrArg _ ((doLd_eq_loadMem h legal).trans (State.loadMem_local aligned inside good))
    · intro legal
      exact congrArg _ ((doSt_eq_storeMem h legal).trans (State.storeMem_local aligned inside))
  · intro a n aligned inside
    constructor
    · intro legal good
      exact congrArg _ ((doLdx_eq_loadMem h hg hf legal).trans (State.loadMem_local aligned inside good))
    · intro legal
      exact congrArg _ ((doStx_eq_storeMem h hg legal).trans (State.storeMem_local aligned inside))
  all_goals
    have ld := doLd_eq_loadMem h (w := w) (by simp [zero])
    have st := doSt_eq_storeMem h zero
    simp only [List.forall_mem_cons, List.not_mem_nil, false_implies, implies_true, and_true]
  · exact ⟨congrArg _ (ld.trans (State.loadMem_misaligned misaligned)), congrArg _ (st.trans (State.storeMem_misaligned misaligned))⟩
  · exact ⟨congrArg _ (ld.trans (State.loadMem_nowhere aligned noLocal noTarn noIo)),
      congrArg _ (st.trans (State.storeMem_nowhere aligned noLocal noTarn noIo))⟩

/-! ### Deadlines (R42, R43, R65) -/

section
variable {s t : State} {e : Eng} {w : FmtA} (h : Fetches s e 1 t) (hg : guardOf w.n w.p (t.engine e) = true)
  (lo : 8 ≤ w.b.toNat) (hi : w.b.toNat ≤ 15)
include h hg lo hi

theorem doDln_set (sets : w.fn = 0) : doDln e w s =
    (t.setDeadline w.b.toNat (some ((t.engine e).reg w.a.toNat))).setD e w.d (if (t.deadlineOf w.b.toNat).isSome then 1 else 0) := by
  refine (State.execA_body h hg (by simp [lo, hi, sets])).trans ?_
  simp only [sets, if_true]

/-- A completion mark ends the pending deadline and records its slack. -/
theorem doDln_met {d : DWord} (mark : w.fn = 1) (ha : w.a = 0) (pending : t.deadlineOf w.b.toNat = some d) : doDln e w s =
    ((t.setDeadline w.b.toNat none).recordSlack w.b.toNat ((d.toNat : Int) - (t.tbNs 0 : Int))).setD e w.d 0 := by
  refine (State.execA_body h hg (by simp [lo, hi, mark, ha])).trans ?_
  simp [mark, pending]

theorem doDln_none (mark : w.fn = 1) (ha : w.a = 0) (idle : t.deadlineOf w.b.toNat = none) : doDln e w s = t.setD e w.d 1 := by
  refine (State.execA_body h hg (by simp [lo, hi, mark, ha])).trans ?_
  simp [mark, idle]

end

/-- A deadline that a program set is missed once, when the time base has reached it. -/
theorem doDeadlineMiss_program {s : State} {g : Fin 16} {n d : DWord} (hg : 8 ≤ g.val) (pending : s.deadlineOf g = some d)
    (due : d.toNat ≤ s.tbNs 0) (first : Tab.get (fun _ => false) s.eng.passed g = false) : doDeadlineMiss g n s =
      ({ s with eng := { s.eng with passed := Tab.put (fun _ => false) s.eng.passed g true } } : State).recordMiss g none none := by
  simp [doDeadlineMiss, Nat.not_lt.mpr hg, pending, Nat.not_lt.mpr due, first]

/-- Settles O18: DLN by its two functions and by the deadline that it finds, then the miss of a deadline. -/
theorem programDeadlines : Obligations.ProgramDeadlines := by
  unfold Obligations.ProgramDeadlines
  intro e s t w d lo hi
  refine ⟨fun h hg => ⟨fun sets => ?_, fun mark ha pending => ?_, fun mark ha idle => ?_⟩, fun g n hg pending due first => ?_⟩
  · exact congrArg _ (doDln_set h hg lo hi sets)
  · exact congrArg _ (doDln_met h hg lo hi mark ha pending)
  · exact congrArg _ (doDln_none h hg lo hi mark ha idle)
  · exact congrArg _ (doDeadlineMiss_program hg pending due first)

/-! ### Descriptors (R28 to R31, R45, R69) -/

section
variable {s t : State} {e : Eng} {w : FmtA} (h : Fetches s e 1 t) (hg : guardOf w.n w.p (t.engine e) = true)
include h hg

/-- A descriptor that can be read is presented at its gate, and the engine waits. -/
theorem doDesc_presents (hf : w.fn = 0) (role : t.holds e = true) :
    let a := (t.engine e).reg w.a.toNat
    let g := ((t.engine e).reg w.b.toNat).toNat % 256
    let r := t.readEng e a.toNat 32
    let v := r.st.setGate g { r.st.gate g with presented := (r.st.gate g).presented ++ [mkDesc r.st e r.bytes] }
    t.gateExists g = true → a.toNat % 32 = 0 → (inLocal a.toNat 32 || inTarn a.toNat 32) = true → r.bad = false →
      doDesc e w s = v.setEngine e { v.engine e with stall := some (.desc g w.d) } := by
  intro a g r v there aligned inside good
  refine (State.execA_body h hg (decide_eq_true hf)).trans ?_
  simp [a, g, r, v, role, there, aligned, inside, good]

theorem doDesc_norole (hf : w.fn = 0) (role : t.holds e = false) : doDesc e w s = t.trap e .norole 0x59 1 := by
  refine (State.execA_body h hg (decide_eq_true hf)).trans ?_
  simp [role]

theorem doDesc_nogate (hf : w.fn = 0) (role : t.holds e = true)
    (absent : t.gateExists (((t.engine e).reg w.b.toNat).toNat % 256) = false) : doDesc e w s = t.setD e w.d 3 := by
  refine (State.execA_body h hg (decide_eq_true hf)).trans ?_
  simp [role, absent]

theorem doGclm_claim : doGclm e w s = t.setD e w.d (if t.gateExists (((t.engine e).reg w.a.toNat).toNat % 256) then
    (t.gate (((t.engine e).reg w.a.toNat).toNat % 256)).claim.setWidth 64 else 0) :=
  State.execA_body h hg rfl

end

/-- GATE_GRANT of a presented descriptor while the queue has room: its role and then its claim decide. -/
theorem doGateGrant_presented {s : State} {g : Fin 34} {e : Eng} {d : Desc}
    (found : (s.gate g).presented.find? (fun x => x.engine == e.val) = some d) (room : (s.gate g).queue.length < 16) :
    let u := s.setGate g { s.gate g with presented := (s.gate g).presented.filter (fun x => x.engine ≠ e.val) }
    let stale := u.report C.eng_gate_stale (mkArg none (some g.val) d.claim.toNat)
    doGateGrant g e s = if d.role.toNat ≠ gateRole g then stale.endDesc e 2
      else if d.claim.toNat < (s.gate g).claim.toNat then stale.endDesc e 1 else (u.acceptDesc g d).endDesc e 0 := by
  simp only [doGateGrant, found, Nat.not_le.mpr room, if_false]

/-- The unit holds the descriptor no longer: it is finished, or the unit marks none, and the unit runs. -/
theorem unit_releases {s : State} {g : Nat} {d : Desc} (runs : (s.gate g).stopped = false) (finished : gateMarks g = false ∨ d.done = true) :
    ((gateMarks g && !d.done) || (s.gate g).stopped) = false := by
  rcases finished with free | done
  · simp [free, runs]
  · simp [done, runs]

section
variable {s : State} {g : Fin 34} {d : Desc} {rest : List Desc} (front : (s.gate g).queue = d :: rest)
  (runs : (s.gate g).stopped = false)
include front runs

theorem doUnitCompletion_front (finished : gateMarks g = false ∨ d.done = true) :
    let u := s.setGate g { s.gate g with queue := rest }
    doUnitCompletion g s = if d.cev then u.postEvent (0x0C0 + g.val) else u := by
  simp [doUnitCompletion, front, unit_releases runs finished]

/-- What UNIT_COMPLETION does besides at a FIRE gate and at the CAM gate. -/
theorem doCompletion_front (finished : gateMarks g = false ∨ d.done = true) :
    let v := doUnitCompletion g s
    let c : State := { v with col := { v.col with taken := v.col.taken - 1 } }
    doCompletion g s =
      if 9 ≤ g.val ∧ g.val ≤ 16 then v.setFireBar (g - 9) { v.fireBar (g - 9) with taken := (v.fireBar (g - 9)).taken - 1 }
      else if g.val = camGate then
        if c.feature 5 = false then c else if d.op = 3 then c.colPoll.colPeriod d.w6.toNat else if d.op = 4 then c.colPoll.bandDone d else c
      else v := by
  simp [doCompletion, front, unit_releases runs finished]

theorem doUnitStall_late (late : d.at_ + max 1 (s.get F.ENG_STALLTO_TIMEOUT) * 1000 < s.now) : doUnitStall g s =
    (s.setGate g { s.gate g with stopped := true }).report C.eng_unit_stall (mkArg none (some g.val) d.tag.toNat) := by
  simp [doUnitStall, front, runs, late]

end

/-- Settles O21: DESC and GCLM by their checks, the grant by role and claim, the completion by the kind of the gate, and the stall. -/
theorem descriptorsAtGates : Obligations.DescriptorsAtGates := by
  unfold Obligations.DescriptorsAtGates
  refine ⟨fun e s t => ⟨fun h w hg => ?_, fun g d found room => ?_⟩, fun s g d rest front runs => ⟨fun finished => ?_, fun late => ?_⟩⟩
  · exact ⟨fun hf role there aligned inside good => congrArg _ (doDesc_presents h hg hf role there aligned inside good),
      fun hf role => congrArg _ (doDesc_norole h hg hf role), fun hf role absent => congrArg _ (doDesc_nogate h hg hf role absent),
      congrArg _ (doGclm_claim h hg)⟩
  · have grant := doGateGrant_presented found room
    refine ⟨fun wrong => ?_, fun role stale => ?_, fun role fresh => ?_⟩
    · exact congrArg _ (grant.trans (if_pos wrong))
    · exact congrArg _ (grant.trans ((if_neg (not_not_intro role)).trans (if_pos stale)))
    · exact congrArg _ (grant.trans ((if_neg (not_not_intro role)).trans (if_neg (Nat.not_lt.mpr fresh))))
  · intro u v c
    have ends : exec (.unitCompletion g) s = .next (doCompletion g s) := rfl
    have left : doUnitCompletion g s = v := doUnitCompletion_front front runs finished
    rw [ends, doCompletion_front front runs finished, left]
    refine ⟨fun noFire noCam => ?_, fun lo hi => ?_, fun cam no3 no4 => ?_, fun cam on is3 => ?_, fun cam on is4 => ?_⟩
    · rw [if_neg noFire, if_neg noCam]
    · rw [if_pos ⟨lo, hi⟩]
    all_goals
      have noFire : ¬(9 ≤ g.val ∧ g.val ≤ 16) := by rw [cam]; decide
      rw [if_neg noFire, if_pos cam]
    · rw [if_neg no3, if_neg no4, ite_self]
    · rw [if_neg (ne_false_of_eq_true on), if_pos is3]
    · rw [if_neg (ne_false_of_eq_true on), if_neg (by simp [is4]), if_pos is4]
  · exact congrArg _ (doUnitStall_late front runs late)

/-! ### Engine-block registers (R34, R48, R109) -/

section
variable {s : State} {v : Word}

/-- An event input that stays enabled keeps its source (R34). -/
theorem doEvrouteWrite_eq {e : Eng} {i : Fin 64} :
    let off := R.ENG_EVROUTE.off e i
    doEvrouteWrite e i v s = if fieldOf (s.rd off) 31 1 = 1 ∧ fieldOf v 31 1 = 1 then
      (s.swWrite off v).wr off (fieldPut ((s.swWrite off v).rd off) 0 10 (fieldOf (s.rd off) 0 10)) else s.swWrite off v := rfl

/-- A write of ENG.GAUGE but for the rise of EN (R48). -/
def State.gaugeWritten (s : State) (g : Fin 16) (v : Word) : State :=
  if fieldOf v 30 1 = 1 then (s.swWrite (R.ENG_GAUGE.off g 0) v).set F.ENG_SLACKMIN_VALUE 0x7FFFFF g
  else s.swWrite (R.ENG_GAUGE.off g 0) v

theorem doGaugeClrmin_stays {g : Fin 16} (was : s.on F.ENG_GAUGE_EN g = true) : doGaugeClrmin g v s = s.gaugeWritten g v := by
  simp [doGaugeClrmin, State.gaugeWritten, was]

theorem doGaugeClrmin_rises {g : Fin 16} (was : s.on F.ENG_GAUGE_EN g = false) (is : (s.gaugeWritten g v).on F.ENG_GAUGE_EN g = true) :
    doGaugeClrmin g v s = ((s.gaugeWritten g v).set F.ENG_SLACK_VALID 0 g).set F.ENG_SLACKMIN_VALID 0 g := by
  unfold State.gaugeWritten at *
  simp only [doGaugeClrmin, was, is, Bool.not_false, Bool.and_self, if_true]

end

/-! ### Pace and the voltage loop (R44 to R46) -/

section
variable {s : State} {v : Word}

/-- The pace of the last 1 µs, and the length of the run of low counts (R45). -/
def State.paced (s : State) (count : BitVec 16) : State :=
  let u := s.set F.ENG_PACE_COUNT count.toNat
  let low := if u.get F.ENG_PACE_MIN ≠ 0 ∧ count.toNat < u.get F.ENG_PACE_MIN then satAdd 11 u.eng.paceLow 1 else 0
  { u with eng := { u.eng with paceLow := low } }

theorem doPaceUpdate_eq {count : BitVec 16} : doPaceUpdate count s =
    if (s.paced count).eng.paceLow = 10 then (s.paced count).report C.eng_pace_low (mkArg none none 0) else s.paced count := rfl

section
variable (was : s.on F.ENG_AVSCTL_EN = false) (is : (s.swWrite 0x20010 v).on F.ENG_AVSCTL_EN = true)
include was is

/-- When EN rises, the first request follows the regulator's answer (R46). -/
theorem doAvsEnable_answered {mv : Nat} :
    let u := (s.swWrite 0x20010 v).set F.ENG_AVSSTAT_CALM 0
    doAvsEnable v (some mv) s =
      (u.set F.ENG_AVSSTAT_VREAD (vreadCode mv)).avsWrite (clampN u.vminCode u.vmaxCode (cdiv (mv - 700) 5)) := by
  have off : R.ENG_AVSCTL.off 0 0 = 0x20010 := rfl
  simp only [doAvsEnable, off, was, is, Bool.not_true, Bool.or_self, Bool.false_eq_true, if_false]

theorem doAvsEnable_unanswered :
    doAvsEnable v none s = ((s.swWrite 0x20010 v).set F.ENG_AVSSTAT_CALM 0).report C.eng_avs_bus (mkArg none none 0) := by
  have off : R.ENG_AVSCTL.off 0 0 = 0x20010 := rfl
  simp only [doAvsEnable, off, was, is, Bool.not_true, Bool.or_self, Bool.false_eq_true, if_false]

end

/-- What R44 gives for the slack, the request and the calm count of a state. -/
def State.avsEvaluated (s : State) : Nat × Nat :=
  avsEval (s.eng.missFlag && s.on F.ENG_AVSCTL_MISSJUMP) s.eng.least (s.get F.ENG_AVSTHR_LOW) (s.get F.ENG_AVSTHR_HIGH) s.vminCode s.vmaxCode
    (s.get F.ENG_AVSSTAT_VREQ) (max 1 (s.get F.ENG_AVSCTL_UPSTEP)) (max 1 (s.get F.ENG_AVSCTL_HOLD)) (s.get F.ENG_AVSSTAT_CALM)

theorem doAvsEvaluation_runs (on : s.on F.ENG_AVSCTL_EN = true) (free : s.on F.ENG_AVSSTAT_BUSY = false) :
    let q := s.get F.ENG_AVSSTAT_VREQ
    let low : Int := s.get F.ENG_AVSTHR_LOW
    let u := ({ s with eng := { s.eng with missFlag := false, least := none, lastEval := s.tbNs 0 } } : State).set F.ENG_AVSSTAT_CALM
      s.avsEvaluated.2
    let w := if s.eng.least.any (fun x => decide (x < low)) && q == u.vmaxCode then u.report C.eng_slack_low (mkArg none none 0) else u
    doAvsEvaluation s = if s.avsEvaluated.1 ≠ q then w.avsWrite s.avsEvaluated.1 else w := by
  simp only [doAvsEvaluation, on, free, Bool.not_true, Bool.or_self, Bool.false_eq_true, if_false]
  rfl

/-- The reply to an AVSBus write in progress (R45): a failed one is retried while fewer than three have failed. -/
theorem doAvsTransactionDone_reply {code : Nat} (req : s.eng.avsReq = some code) :
    doAvsTransactionDone .accepted s = (s.set F.ENG_AVSSTAT_VREQ code).settle ∧
    doAvsTransactionDone .failed s = if s.eng.avsFails < 2 then { s with eng := { s.eng with avsFails := s.eng.avsFails + 1 } }
      else s.settle.report C.eng_avs_bus (mkArg none none 0) := by
  simp only [doAvsTransactionDone, req, and_self]

theorem doAvsSettleEnd_due {n : Nat} (settles : s.eng.settleEnd = some n) (due : n ≤ s.now) : doAvsSettleEnd s =
    (({ s with eng := { s.eng with settleEnd := none } } : State).set F.ENG_AVSSTAT_BUSY 0).postEvent 0x162 := by
  simp only [doAvsSettleEnd, settles, Nat.not_lt.mpr due, if_false]

theorem doAvsMismatch_due {n : Nat} (differs : s.eng.differs = some n) (due : n + 1000000 < s.now) : doAvsMismatch s =
    ({ s with eng := { s.eng with differs := none } } : State).report C.eng_avs_mismatch (mkArg none none 0) := by
  simp only [doAvsMismatch, differs, Nat.not_le.mpr due, if_false]

/-- AVSLIM takes no write that would make VMIN greater than VMAX (R48). -/
theorem doAvslimWrite_eq : doAvslimWrite v s =
    if min 30 (fieldOf v 8 8) < fieldOf v 0 8 then s.set F.ENG_AVSSTAT_LIMERR 1 else s.swWrite 0x20014 v := rfl

end

/-- A register write that reaches its register has the register's own effect. -/
theorem next_busWrite {s : State} {off : Nat} {f : State → State} (h : Reaches s off) {t : State} (eq : f s = t) :
    (.next (s.busWrite off f) : Host.Outcome State Fault Refusal) = .next t :=
  congrArg _ ((State.busWrite_reaches h).trans eq)

/-- Settles O27: the writes that reach their register, each by what the register does, and then the commands of pace and the voltage loop. -/
theorem engineBlockWrites : Obligations.EngineBlockWrites := by
  unfold Obligations.EngineBlockWrites
  refine ⟨fun s e i g v => ⟨fun reaches => ⟨fun stays => ?_, fun moves => ?_⟩, fun reaches => ?_, fun reaches => ⟨fun was => ?_, fun was is => ?_⟩⟩,
    fun s count v mv => ⟨?_, ?_, ?_, ?_, ?_, ?_, ?_⟩⟩
  · exact fun after => next_busWrite reaches (doEvrouteWrite_eq.trans (if_pos ⟨stays, after⟩))
  · exact next_busWrite reaches (doEvrouteWrite_eq.trans (if_neg moves))
  · exact next_busWrite reaches rfl
  · exact next_busWrite reaches (doGaugeClrmin_stays was)
  · exact next_busWrite reaches (doGaugeClrmin_rises was is)
  · exact ⟨fun few => congrArg _ (doPaceUpdate_eq.trans (if_neg few)), fun ten => congrArg _ (doPaceUpdate_eq.trans (if_pos ten))⟩
  · exact fun reaches was is => ⟨next_busWrite reaches (doAvsEnable_answered was is), next_busWrite reaches (doAvsEnable_unanswered was is)⟩
  · intro on free
    have runs := doAvsEvaluation_runs on free
    exact ⟨fun same => congrArg _ (runs.trans (if_neg (not_not_intro same))), fun other => congrArg _ (runs.trans (if_pos other))⟩
  · refine ⟨rfl, fun code req => ?_⟩
    obtain ⟨accepted, failed⟩ := doAvsTransactionDone_reply req
    exact ⟨congrArg _ accepted, fun few => congrArg _ (failed.trans (if_pos few)),
      fun third => congrArg _ (failed.trans (if_neg (Nat.not_lt.mpr third)))⟩
  · exact fun n settles due => congrArg _ (doAvsSettleEnd_due settles due)
  · exact fun n differs due => congrArg _ (doAvsMismatch_due differs due)
  · exact fun reaches => ⟨fun above => next_busWrite reaches (doAvslimWrite_eq.trans (if_pos above)),
      fun within => next_busWrite reaches (doAvslimWrite_eq.trans (if_neg (Nat.not_lt.mpr within)))⟩

/-! ### START and STOP (R245) -/

section
variable {s : State} {b : Fin 8} {d : Desc} (front : s.nextFireDesc b = some d) (runs : (s.gate (fireGate b)).stopped = false)
include front runs

theorem doStart_accepts (op : d.op = 1) (plain : d.plain = true) (idle : s.barActive b = false) (on : s.on F.FIRE_CTL_EN b = true)
    (bar : (frameBar s.liveFrame b).isSome = true) :
    doStart b s = (s.setFireBar b { s.fireBar b with taken := (s.fireBar b).taken + 1 }).startBar b d.line.toNat := by
  have framed : (frameBar s.liveFrame b).isNone = false := Option.isNone_eq_false_iff.mpr bar
  simp [doStart, front, runs, op, plain, idle, on, framed]

theorem doStart_drops (noStop : d.op ≠ 2)
    (bad : d.op ≠ 1 ∨ d.plain = false ∨ s.barActive b = true ∨ s.on F.FIRE_CTL_EN b = false) : doStart b s = s.dropFireDesc b := by
  have drops : d.op ≠ 1 ∨ (!d.plain) = true ∨ s.barActive b = true ∨ (!s.on F.FIRE_CTL_EN b) = true ∨
      (frameBar s.liveFrame b).isNone = true := by
    rcases bad with h | h | h | h
    · exact .inl h
    all_goals simp [h]
  simp only [doStart, front, runs, noStop, drops, Bool.false_eq_true, or_self, if_false, if_true]

theorem doStop_accepts (op : d.op = 2) (plain : d.plain = true) (active : s.barActive b = true) :
    doStop b s = (s.setFireBar b { s.fireBar b with taken := (s.fireBar b).taken + 1 }).stopBar b d.line.toNat := by
  simp [doStop, front, runs, op, plain, active]

theorem doStop_drops (op : d.op = 2) (bad : d.plain = false ∨ s.barActive b = false) : doStop b s = s.dropFireDesc b := by
  simp [doStop, front, runs, op, bad]

end

/-! ### FIRE_EVALUATION (R240) -/

section
variable {s : State} {b : Nat}

/-- The delay that R240 gives the next line of bar `b`, at a bar position and a speed that the whole evaluation uses. -/
def State.nextDelay (s : State) (b v : Nat) (ppos : Int) : Nat := fireDelay ((s.firePos b (s.fireBar b).next : Int) * 65536) ppos v

/-- An evaluation stops where the bar may not commit or its next line lies beyond the horizon. -/
theorem evalLines_stops {c v : Nat} {ppos : Int} (k : Nat)
    (stop : s.mayCommit b = false ∨ s.get F.FIRE_HORIZON_EFF b < s.nextDelay b v ppos) : evalLines b c v ppos k s = s := by
  cases k with
  | zero => rfl
  | succ k =>
    rcases stop with h | h
    · simp [evalLines, h]
    · unfold State.nextDelay at h
      simp [evalLines, h]

/-- A line within the horizon is decided, and the evaluation goes on if it commits. -/
theorem evalLines_decides {c v k : Nat} {ppos : Int} (may : s.mayCommit b = true)
    (near : s.nextDelay b v ppos ≤ s.get F.FIRE_HORIZON_EFF b) :
    let d := s.decideLine b (s.fireBar b).next c (s.nextDelay b v ppos)
    evalLines b c v ppos (k + 1) s = if d.1 then evalLines b c v ppos k d.2 else d.2 := by
  unfold State.nextDelay at *
  simp [evalLines, may, Nat.not_lt.mpr near]

/-- One evaluation may decide at least one line. -/
theorem State.evalFuel_pos {v : Nat} {ppos : Int} : ∃ k, s.evalFuel b v ppos = k + 1 := ⟨_, rfl⟩

end

section
variable {s : State} {b : Fin 8}

theorem doFireEvaluation_still (h : s.getI F.ENC_SPEED_VALUE s.refEnc ≤ 0 ∨ s.on F.ENC_STAT_STILL s.refEnc = true ∨
    s.on F.ENC_STAT_UNKNOWN s.refEnc = true) : doFireEvaluation b s = s :=
  if_pos (by tauto)

section
variable (moves : 0 < s.getI F.ENC_SPEED_VALUE s.refEnc) (still : s.on F.ENC_STAT_STILL s.refEnc = false)
  (known : s.on F.ENC_STAT_UNKNOWN s.refEnc = false) (may : s.mayCommit b = true)
include moves still known may

theorem doFireEvaluation_moving :
    let v := (s.getI F.ENC_SPEED_VALUE s.refEnc).toNat
    doFireEvaluation b s = evalLines b s.fireC v (s.barPosQ16 b) (s.evalFuel b v (s.barPosQ16 b)) s :=
  if_neg (by simp [moves, still, known, may])

theorem doFireEvaluation_beyond
    (beyond : s.get F.FIRE_HORIZON_EFF b < s.nextDelay b (s.getI F.ENC_SPEED_VALUE s.refEnc).toNat (s.barPosQ16 b)) :
    doFireEvaluation b s = s :=
  (doFireEvaluation_moving moves still known may).trans (evalLines_stops _ (.inr beyond))

/-- The evaluation ends with a line that does not commit, or after which the bar commits none within the horizon. -/
theorem doFireEvaluation_ends :
    let delay := fun (u : State) => u.nextDelay b (s.getI F.ENC_SPEED_VALUE s.refEnc).toNat (s.barPosQ16 b)
    delay s ≤ s.get F.FIRE_HORIZON_EFF b →
    let d := s.decideLine b (s.fireBar b).next s.fireC (delay s)
    d.1 = false ∨ d.2.mayCommit b = false ∨ d.2.get F.FIRE_HORIZON_EFF b < delay d.2 → doFireEvaluation b s = d.2 := by
  intro delay near d ends
  obtain ⟨k, fuel⟩ := s.evalFuel_pos (b := b) (v := (s.getI F.ENC_SPEED_VALUE s.refEnc).toNat) (ppos := s.barPosQ16 b)
  rw [doFireEvaluation_moving moves still known may, fuel, evalLines_decides may near]
  rcases ends with uncommitted | stop
  · exact if_neg (ne_true_of_eq_false uncommitted)
  · exact (congrArg (ite (d.1 = true) · d.2) (evalLines_stops k stop)).trans (ite_self _)

end

end

/-! ### A line that is fired (R243, R246, R248) -/

/-- The bar once the time up to `tn` has given it credit and ended its run of overspeed lines. -/
def State.credited (s : State) (b tn t0 : Nat) : State :=
  s.setFireBar b { s.fireBar b with credit := (s.fireBar b).credit + tn - t0, ovRun := 0 }

/-- The bar once a line has been fired at `tn` out of a credit, with every frame sent in time. -/
def State.firedAt (s : State) (b tn credit tmin : Nat) : State :=
  s.setFireBar b { s.fireBar b with tLast := some tn, credit := min (credit - tmin) tmin, lateRun := 0 }

section
variable {s : State} {b n c t t0 : Nat} (prev : (s.fireBar b).tPrev = some t0) (ahead : (s.fireBar b).hmin ≤ t)
  (slow : 10 * s.get F.FIRE_TMIN_LTU b ≤ 11 * (c + t - t0)) (rated : s.get F.FIRE_TMIN_LTU b ≠ 0xFFFFFF)
  (enough : s.get F.FIRE_TMIN_LTU b ≤ (s.fireBar b).credit + (c + t) - t0)
  (burst : ∀ l, (s.fireBar b).tLast = some l → l + s.get F.FIRE_TBURST_LTU b ≤ c + t)

include burst in
theorem State.burst_rested : ((s.fireBar b).tLast.isNone ||
    (s.fireBar b).tLast.any (fun l => decide (l + s.get F.FIRE_TBURST_LTU b ≤ c + t))) = true := by
  cases last : (s.fireBar b).tLast with
  | none => rfl
  | some l => simpa using burst l last

include prev ahead slow rated enough burst in
theorem State.decideLine_fires (sent : ∀ p ∈ (s.credited b (c + t) t0).barPorts b, (s.credited b (c + t) t0).lineSent b p n = true) :
    let w := (s.credited b (c + t) t0).firedAt b (c + t) ((s.fireBar b).credit + (c + t) - t0) (s.get F.FIRE_TMIN_LTU b)
    s.decideLine b n c t = (true, ((w.bump F.FIRE_LATECNT_COUNT 0 b).commitLine b n (c + t) (fun _ => 0)).meterLine b n) := by
  have later : ¬t < (s.fireBar b).hmin := Nat.not_lt.mpr ahead
  have noOver : ¬11 * (c + t - t0) < 10 * s.get F.FIRE_TMIN_LTU b := Nat.not_lt.mpr slow
  have rested := State.burst_rested burst
  have noneLate : ((s.credited b (c + t) t0).barPorts b).filter (fun p => !(s.credited b (c + t) t0).lineSent b p n) = [] := by
    simpa [List.filter_eq_nil_iff] using sent
  have positive (k : Nat) : ¬max 1 k ≤ 0 := by omega
  simp only [State.credited, prev] at noneLate
  simp [State.decideLine, State.credited, State.firedAt, later, prev, rated, noOver, enough, rested, noneLate, positive]

end

/-! ### The line pipeline (R40, R178, R182, R196, R243) -/

section
variable {s : State} {b : Fin 8}

theorem doDecodeRowSet_takes {u : State} (on : s.on F.IBF_CTL_EN b = true) (lanes : s.get F.IBF_LANES_COUNT b ≠ 0)
    (ready : firstReady s b (decodeOrder (s.pipe b).groups) = some u) : doDecodeRowSet b s = (u.updAhead b).updLevel b := by
  simp [doDecodeRowSet, on, lanes, ready]

theorem doDecodeRowSet_idle (h : s.on F.IBF_CTL_EN b = false ∨ s.get F.IBF_LANES_COUNT b = 0) : doDecodeRowSet b s = s := by
  rcases h with off | noLanes
  · simp [doDecodeRowSet, off]
  · simp [doDecodeRowSet, noLanes]

/-- BAR_LINE of the first descriptor not processed: separation, screening and the port FIFOs, and the line counts as written. -/
theorem doBarLine_writes {d : Desc}
    (front : (s.gate (1 + b.val)).queue.find? (fun d => !d.done && !(s.pipe b).written.contains d.line.toNat) = some d)
    (runs : (s.gate (1 + b.val)).stopped = false) (bar : (frameBar s.liveFrame b).isSome = true) :
    let n := d.line.toNat
    let s0 := s.startUnit .pipe b n
    let s1 := s0.setPipe b { s0.pipe b with sep := some n }
    let sep := (s1.separate b n).1
    let s2 := (s1.separate b n).2.noteSeen b n (sep.flatMap (·.odd))
    let cols := sep.zipIdx.map (fun c => if c.2 < sep.findIdx (·.bad) then c.1 else SepCol.blank)
    let s3 := (((s2.screen b n cols).2.prunePipe b n).updLevel b).updAhead b
    doBarLine b s = (s3.putLine b n (s2.screen b n cols).1).setPipe b { s3.pipe b with written := n :: (s3.pipe b).written } := by
  have framed : (frameBar s.liveFrame b).isNone = false := Option.isNone_eq_false_iff.mpr bar
  simp only [doBarLine, front, runs, framed, Bool.false_eq_true, if_false]

theorem doLineComplete_unwritten {line : DWord} (h : (s.pipe b).written.contains line.toNat = false) : doLineComplete b line s = s :=
  if_pos (by rw [h]; rfl)

theorem doLineComplete_written {line : DWord} (h : (s.pipe b).written.contains line.toNat = true) :
    let u := s.setPipe b { s.pipe b with written := (s.pipe b).written.filter (· != line.toNat) }
    doLineComplete b line s =
      (u.setGate (1 + b.val) { u.gate (1 + b.val) with queue := markLine line.toNat (u.gate (1 + b.val)).queue }).lineDone b line.toNat :=
  if_neg (by rw [h]; exact Bool.false_ne_true)

theorem doBoundary_early {n t : Nat} (first : firstDue (s.fireBar b).sched = some (n, t)) (early : s.fireC < t) : doBoundary b s = s := by
  simp [doBoundary, doLineBoundary, first, early]

/-- LINE_BOUNDARY of the committed line whose instant comes first, once that instant is there. -/
theorem doBoundary_due {n t : Nat} (first : firstDue (s.fireBar b).sched = some (n, t)) (due : t ≤ s.fireC) :
    let x := s.fireBar b
    let s1 := s.setFireBar b { x with sched := x.sched.filter (fun e => e.1 != n), started := true }
    let s2 : State := { s1 with fline := Tab.put (fun _ => BitVec.allOnes 64) s1.fline b (w64 n) }
    let s3 := (s2.postEvent b).groupsAtBoundary b n
    let s4 := if s3.barActive b then s3.fetchAt b n else s3
    let s5 := ((s4.jobEvents b n).watchPassed b n).finishFireOps b (· == 1)
    let s6 := if (s5.fireBar b).atStop && s5.barActive b then s5.finalStop b else s5
    doBoundary b s = s6.colBoundary b (s6.flineOf b).toNat := by
  simp only [doBoundary, doLineBoundary, first, Option.any_some, due, decide_true, if_true, Nat.not_lt.mpr due, if_false]

theorem doPanicLong_reports {t : Nat} (since : (s.pipe b).panicAt = some t) (first : (s.pipe b).panicRep = false)
    (panic : s.on F.IBF_STAT_PANIC b = true) (long : t + 1000 * s.get F.IBF_LTOL_US b < s.now) : doPanicLong b s =
      (s.setPipe b { s.pipe b with panicRep := true }).report C.ibf_panic_long (mkArg (some b) none 0) (some (s.flineOf b)) := by
  simp [doPanicLong, since, first, panic, long]

theorem doPanicLong_short {t : Nat} (since : (s.pipe b).panicAt = some t) (short : s.now ≤ t + 1000 * s.get F.IBF_LTOL_US b) :
    doPanicLong b s = s := by
  simp [doPanicLong, since, Nat.not_lt.mpr short]

end

/-! ### Registers that the line path guards (R202, R215, R317) -/

section
variable {s : State} {v : Word}

theorem State.writeBand_eq {b : Nat} :
    let off := R.SCN_BAND.off b 0
    s.writeBand b v = if (s.swWrite off v).on F.SCN_STAT_BAND b then (s.swWrite off v).keep off (s.rd off) 31 1 else s.swWrite off v := rfl

theorem State.writeMapbase_refused (h : scnAnyEn s 8 = true ∨ tarnSize < fieldOf v 0 10 * 65536 + s.mapBytes) : s.writeMapbase v = s := by
  simp [State.writeMapbase, h]

theorem State.writeMapbase_taken (idle : scnAnyEn s 8 = false) (fits : fieldOf v 0 10 * 65536 + s.mapBytes ≤ tarnSize) :
    s.writeMapbase v = s.swWrite (R.SCN_MAPBASE.off 0 0) v := by
  simp [State.writeMapbase, idle, Nat.not_lt.mpr fits]

/-- A write of another register than DEV.STATE leaves the device in its state. -/
theorem State.printingOrPaused_wr {off : Nat} (h : off ≠ 4) : (s.wr off v).printingOrPaused = s.printingOrPaused := by
  have dev : (s.wr off v).dev = s.dev := congrArg (fieldOf · _ _) (State.rd_wr_ne (Ne.symm h))
  simp only [State.printingOrPaused, dev]

variable {p : Fin 16} {w : Fin 4} (present : s.fused (R.HLK_SEGEN.off p w) = false)
include present

theorem doSegenWrite_printing (h : s.printingOrPaused = true) :
    doSegenWrite p w v s = s.report C.hlk_segen_direct (mkArg none (some p.val) 0) := by
  simp [doSegenWrite, present, h]

theorem doSegenWrite_idle (h : s.printingOrPaused = false) :
    doSegenWrite p w v s = (s.wr (R.HLK_SEGEN.off p w) v).segSetChanged p := by
  have elsewhere : R.HLK_SEGEN.off p w ≠ 4 := by simp only [RegDef.off, R.HLK_SEGEN]; omega
  simp [doSegenWrite, State.writeSegen, present, h, State.printingOrPaused_wr elsewhere]

end

/-- Settles O39: the gate operations, one evaluation and its fired line, and then the commands of the line pipeline. -/
theorem firingALine : Obligations.FiringALine := by
  unfold Obligations.FiringALine
  refine ⟨fun s b => ⟨fun d front runs => ?gate, ?evaluation, fun n c t t0 prev => ?fired⟩,
    fun s b v => ⟨?decode, ?idle, ?line, ?complete, ?boundary, ?panic, ?band, ?mapbase, ?segen⟩⟩
  case gate =>
    exact ⟨fun op plain idle on bar => congrArg _ (doStart_accepts front runs op plain idle on bar),
      fun noStop bad => congrArg _ (doStart_drops front runs noStop bad),
      fun op plain active => congrArg _ (doStop_accepts front runs op plain active),
      fun op bad => congrArg _ (doStop_drops front runs op bad)⟩
  case evaluation =>
    refine ⟨fun still => congrArg _ (doFireEvaluation_still still), fun moves still known may => ?_⟩
    exact ⟨fun beyond => congrArg _ (doFireEvaluation_beyond moves still known may beyond),
      fun near ends => congrArg _ (doFireEvaluation_ends moves still known may near ends)⟩
  case fired =>
    exact fun ahead slow rated enough burst sent => State.decideLine_fires prev ahead slow rated enough burst sent
  case decode => exact fun on lanes u ready => congrArg _ (doDecodeRowSet_takes on lanes ready)
  case idle => exact fun h => congrArg _ (doDecodeRowSet_idle h)
  case line =>
    intro d front runs bar n s0 s1 sep s2 cols s3 t
    refine ⟨congrArg _ (doBarLine_writes front runs bar), ?_⟩
    have written : (t.pipe b).written = n :: (s3.pipe b).written := by rw [State.pipe_setPipe_same]
    rw [written, List.contains_cons, beq_self_eq_true, Bool.true_or]
  case complete =>
    exact fun line => ⟨fun h => congrArg _ (doLineComplete_unwritten h), fun h => congrArg _ (doLineComplete_written h)⟩
  case boundary =>
    exact fun n t first => ⟨fun early => congrArg _ (doBoundary_early first early),
      fun due => ⟨Tab.get_put_same, congrArg _ (doBoundary_due first due)⟩⟩
  case panic =>
    exact fun t since first panic => ⟨fun long => congrArg _ (doPanicLong_reports since first panic long),
      fun short => congrArg _ (doPanicLong_short since short)⟩
  case band =>
    exact fun reaches => ⟨fun _ ends => next_busWrite reaches (State.writeBand_eq.trans (if_neg (ne_true_of_eq_false ends))),
      fun goes => next_busWrite reaches (State.writeBand_eq.trans (if_pos goes))⟩
  case mapbase =>
    exact fun reaches => ⟨fun refused => next_busWrite reaches (State.writeMapbase_refused refused),
      fun idle fits => next_busWrite reaches (State.writeMapbase_taken idle fits)⟩
  case segen =>
    exact fun p w reaches => ⟨fun printing => next_busWrite reaches (doSegenWrite_printing reaches.present printing),
      fun idle => next_busWrite reaches (doSegenWrite_idle reaches.present idle)⟩

end Sys2Proof.Machine

/-! The statements of the family `03_yunaja_instruction_set`: registers and results (O7 to O11), atomics and control (O13 to O15), waiting,
channels, mailboxes and DMA (O16, O17, O19, O20), claims and images (O22, O23), and commit groups and checkpoints (O24, O26). -/

namespace Sys2Proof.Machine

/-- A command answers the state that its meaning gives. -/
theorem next_of_eq {s t : State} (h : s = t) : (.next s : Host.Outcome State Fault Refusal) = .next t :=
  congrArg _ h

/-! ### Registers and predicates (R50) -/

theorem Engine.reg_setReg {x : Engine} {r q : Nat} {v : DWord} :
    (x.setReg r v).reg q = if q = 0 then 0 else if q = r then v else x.reg q := by
  unfold Engine.reg Engine.setReg
  split
  · rfl
  · next hq =>
    split
    · next hr => rw [hr, if_neg hq]
    · exact Tab.get_put

/-- A predicate register is one field of `p`, seen as a register word. -/
theorem bitN_eq_fieldOf {p : BitVec 8} {k : Nat} : bitN p.toNat k = fieldOf (p.setWidth 32) k 1 := by
  have fits : p.toNat < 2 ^ 32 := Nat.lt_trans p.isLt (by decide)
  simp only [bitN, fieldOf, BitVec.toNat_setWidth, Nat.mod_eq_of_lt fits, Nat.pow_one]

/-- Writing a predicate is replacing its field of `p`. -/
theorem setPred_eq_fieldPut {x : Engine} {r : Nat} {b : Bool} (nonzero : r ≠ 0) (hr : r < 8) :
    (x.setPred r b).p.setWidth 32 = fieldPut (x.p.setWidth 32) r 1 b.toNat := by
  have small : x.p.toNat < 256 := x.p.isLt
  have bound : x.p.toNat - bitN x.p.toNat r * 2 ^ r + (if b then 2 ^ r else 0) < 256 := by
    unfold bitN
    interval_cases r <;> split <;> omega
  have written : (if b then 2 ^ r else 0) = b.toNat % 2 ^ 1 * 2 ^ r := by cases b <;> simp
  simp only [Engine.setPred, if_neg nonzero]
  apply BitVec.eq_of_toNat_eq
  rw [BitVec.toNat_setWidth, BitVec.toNat_ofNat, Nat.mod_eq_of_lt bound, fieldPut, BitVec.toNat_ofNat, bitN_eq_fieldOf, written,
    BitVec.toNat_setWidth, Nat.mod_eq_of_lt (a := x.p.toNat) (by omega)]

theorem Engine.pred_setPred {x : Engine} {r q : Nat} {b : Bool} (hr : r < 8) :
    (x.setPred r b).pred q = if q = 0 then true else if q = r then b else x.pred q := by
  by_cases zero : r = 0
  · by_cases hq0 : q = 0 <;> simp [Engine.setPred, Engine.pred, zero, hq0]
  · unfold Engine.pred
    rw [bitN_eq_fieldOf, bitN_eq_fieldOf, setPred_eq_fieldPut zero hr]
    split
    · rfl
    · split
      · next same =>
        rw [same, fieldOf_fieldPut (by omega)]
        cases b <;> rfl
      · next other => rw [fieldOf_fieldPut_ne (by omega) (by omega)]

/-- Settles O10: a register by the table that holds it, a predicate by its field of `p`. -/
theorem registersReadBack : Obligations.RegistersReadBack := by
  unfold Obligations.RegistersReadBack
  exact fun x r q v b => ⟨Engine.reg_setReg, fun hr _ => Engine.pred_setPred hr⟩

/-! ### False guards (R53) -/

section
variable {s t : State} {e : Eng} {op : Nat} {legal : Bool} {body : State → State}

theorem State.execA_false {w : FmtA} (h : Fetches s e 1 t) (hg : guardOf w.n w.p (t.engine e) = false) :
    s.execA op e w legal body = t.retire e (t.engine e) 1 :=
  State.execAt_false h hg

theorem State.execX_false {w : FmtX} (h : Fetches s e 2 t) (hg : guardOf w.n w.p (t.engine e) = false) :
    s.execX op e w legal body = t.retire e (t.engine e) 2 :=
  State.execAt_false h hg

theorem State.execA_illegal {w : FmtA} (h : Fetches s e 1 t) (hg : guardOf w.n w.p (t.engine e) = true) (hl : legal = false) :
    s.execA op e w legal body = t.trap e .illegal ((wordA op w).setWidth 64) 1 :=
  State.execAt_illegal h hg hl

/-- Format I has no guard. -/
theorem State.execI_body {w : FmtI} (h : Fetches s e 1 t) (hl : legal = true) : s.execI op e w legal body = body t :=
  State.execAt_body h rfl hl

end

/-- Settles O7: the guard is p[P] XOR N, and every one of these instructions is the frame of its format. -/
theorem falseGuardHasNoEffect : Obligations.FalseGuardHasNoEffect := by
  unfold Obligations.FalseGuardHasNoEffect
  refine ⟨fun x => ⟨rfl, rfl⟩, fun e s t => ⟨fun h => ⟨fun w mm hg => ?_, fun w hg => ?_, fun w hg => ?_⟩, fun h w hg => ?_⟩⟩
  · simp only [List.forall_mem_cons, List.not_mem_nil, false_implies, implies_true, and_true]
    repeat' apply And.intro
    all_goals exact next_of_eq (State.execA_false h hg)
  · simp only [List.forall_mem_cons, List.not_mem_nil, false_implies, implies_true, and_true]
    exact ⟨next_of_eq (State.execAt_false h hg), next_of_eq (State.execAt_false h hg)⟩
  · exact next_of_eq (State.execAt_false h hg)
  · simp only [List.forall_mem_cons, List.not_mem_nil, false_implies, implies_true, and_true]
    repeat' apply And.intro
    all_goals exact next_of_eq (State.execX_false h hg)

/-! ### The functions that are defined (R54, R56, R57) -/

/-- ALU defines FN 0 to 12, and with B = 0 also CLZ and POPC. -/
theorem aluFn_isSome {fn : Nat} {r : BitVec 5} {a b : DWord} : (aluFn fn r a b).isSome = decide (fn ≤ 12 ∨ (fn ≤ 14 ∧ r = 0)) := by
  match fn with
  | 0 | 1 | 2 | 3 | 4 | 5 | 6 | 7 | 8 | 9 | 10 | 11 | 12 => rfl
  | 13 | 14 => by_cases zero : r = 0 <;> simp only [aluFn, zero] <;> rfl
  | n + 15 => simp [aluFn]

theorem mulFn_isSome {fn : Nat} {a b : DWord} : (mulFn fn a b).isSome = decide (fn ≤ 2) := by
  match fn with
  | 0 | 1 | 2 => rfl
  | n + 3 => simp [mulFn]

theorem divFn_isSome {fn : Nat} {a b : DWord} : (divFn fn a b).isSome = decide (fn ≤ 3) := by
  match fn with
  | 0 | 1 | 2 | 3 => rfl
  | n + 4 => simp [divFn]

theorem shiFn_isSome {fn n : Nat} {a : DWord} : (shiFn fn n a).isSome = decide (fn ≤ 3) := by
  match fn with
  | 0 | 1 | 2 | 3 => rfl
  | k + 4 => simp [shiFn]

theorem cmpFn_isSome {fn : Nat} {a b : DWord} : (cmpFn fn a b).isSome = decide (fn ≤ 6) := by
  match fn with
  | 0 | 1 | 2 | 3 | 4 | 5 | 6 => rfl
  | n + 7 => simp [cmpFn]

theorem plogFn_isSome {fn : Nat} {a b : Bool} : (plogFn fn a b).isSome = decide (fn ≤ 3) := by
  match fn with
  | 0 | 1 | 2 | 3 => rfl
  | n + 4 => simp [plogFn]

/-! ### Traps (R54, R77, R78) -/

/-- The engine with the saved registers of a trap (R78). -/
def Engine.trapped (x : Engine) (c : Cause) (val : DWord) (words : Nat) : Engine :=
  { x with epc := x.pc, ecause := BitVec.ofNat 8 c.code, eval := val, status := BitVec.ofNat 3 (x.status.toNat % 2 + words * 2) }

section
variable {s : State} {e : Eng} {c : Cause} {val : DWord} {words : Nat}

theorem State.trap_unhandled (h : (s.engine e).status.toNat % 2 = 1 ∨ (s.engine e).tvec = 0) : s.trap e c val words =
    (((s.set F.ENG_ESTAT_TRAP c.code e).setEngine e ((s.engine e).trapped c val words)).stopEngine e esTrapped).report
      C.eng_trap_unhandled (mkArg none (some e) c.code) :=
  if_pos h

theorem State.trap_handled (outside : (s.engine e).status.toNat % 2 = 0) (handler : (s.engine e).tvec ≠ 0) : s.trap e c val words =
    (s.set F.ENG_ESTAT_TRAP c.code e).setEngine e { (s.engine e).trapped c val words with
      status := BitVec.ofNat 3 (1 + words * 2), pc := (s.engine e).tvec } :=
  if_neg (not_or.mpr ⟨by omega, handler⟩)

end

/-- Settles O8: the two ways a trap is taken, and then each word by the check that refuses it. -/
theorem trapEntry : Obligations.TrapEntry := by
  unfold Obligations.TrapEntry
  refine ⟨fun s e c val words => ⟨State.trap_unhandled, State.trap_handled⟩, fun e s t h w hg => ?_⟩
  refine ⟨fun bad => ?alu, fun bad => ?cmp, fun bad => ?mul, fun bad => ?div, fun bad => ?trap, fun outside => ?rett⟩
  case rett => exact next_of_eq ((State.execA_body h hg rfl).trans (if_pos outside))
  all_goals refine next_of_eq (State.execA_illegal h hg ?_)
  case alu =>
    rw [aluFn_isSome]
    refine decide_eq_false ?_
    rintro (low | ⟨high, zero⟩)
    · omega
    · obtain above | ⟨_, nonzero⟩ := bad
      · omega
      · exact nonzero zero
  case cmp =>
    rw [cmpFn_isSome, ← Bool.decide_and]
    exact decide_eq_false (by omega)
  case mul => simpa [mulFn_isSome] using bad
  case div => simpa [divFn_isSome] using bad
  case trap => exact decide_eq_false (by tauto)

/-! ### Results (R56, R57) -/

section
variable {s t : State} {e : Eng}

section
variable {w : FmtA} (h : Fetches s e 1 t) (hg : guardOf w.n w.p (t.engine e) = true)
include h hg

theorem doAlu_result {v : DWord} (hv : aluFn w.fn.toNat w.b ((t.engine e).reg w.a.toNat) ((t.engine e).reg w.b.toNat) = some v) :
    doAlu e w s = t.setD e w.d v := by
  have legal : (aluFn w.fn.toNat w.b 0 0).isSome = true := by
    rw [aluFn_isSome, ← aluFn_isSome, hv]; rfl
  exact (State.execA_body h hg legal).trans (by simp only [hv, Option.getD_some])

theorem doMul_result {v : DWord} (hv : mulFn w.fn.toNat ((t.engine e).reg w.a.toNat) ((t.engine e).reg w.b.toNat) = some v) :
    doMul e w s = t.setD e w.d v := by
  have legal : (mulFn w.fn.toNat 0 0).isSome = true := by
    rw [mulFn_isSome, ← mulFn_isSome, hv]; rfl
  exact (State.execA_body h hg legal).trans (by simp only [hv, Option.getD_some])

theorem doDiv_result {v : DWord} (divisor : (t.engine e).reg w.b.toNat ≠ 0)
    (hv : divFn w.fn.toNat ((t.engine e).reg w.a.toNat) ((t.engine e).reg w.b.toNat) = some v) : doDiv e w s = t.setD e w.d v := by
  have legal : (divFn w.fn.toNat 1 1).isSome = true := by
    rw [divFn_isSome, ← divFn_isSome, hv]; rfl
  exact (State.execA_body h hg legal).trans (by simp only [if_neg divisor, hv, Option.getD_some])

theorem doDiv_zero (zero : (t.engine e).reg w.b.toNat = 0) (hf : w.fn.toNat < 4) : doDiv e w s = t.trap e .divzero 0 1 := by
  have legal : (divFn w.fn.toNat 1 1).isSome = true := by
    rw [divFn_isSome]; exact decide_eq_true (Nat.le_of_lt_succ hf)
  exact (State.execA_body h hg legal).trans (if_pos zero)

theorem doSel_result (hf : w.fn.toNat < 8) : doSel e w s = t.setD e w.d
    (if (t.engine e).pred w.fn.toNat then (t.engine e).reg w.a.toNat else (t.engine e).reg w.b.toNat) :=
  (State.execA_body h hg (decide_eq_true hf)).trans (by simp only [Nat.mod_eq_of_lt hf])

theorem doCmp_result {v : Bool} (hd : w.d.toNat < 8)
    (hv : cmpFn w.fn.toNat ((t.engine e).reg w.a.toNat) ((t.engine e).reg w.b.toNat) = some v) :
    doCmp e w s = t.retire e ((t.engine e).setPred w.d.toNat v) 1 := by
  have defined : (cmpFn w.fn.toNat 0 0).isSome = true := by
    rw [cmpFn_isSome, ← cmpFn_isSome, hv]; rfl
  refine (State.execA_body h hg (by rw [defined, decide_eq_true hd]; rfl)).trans ?_
  simp only [hv, Option.getD_some, Nat.mod_eq_of_lt hd]

theorem doPlog_result {v : Bool} (hd : w.d.toNat < 8) (ha : w.a.toNat < 8) (hb : w.b.toNat < 8)
    (hv : plogFn w.fn.toNat ((t.engine e).pred w.a.toNat) ((t.engine e).pred w.b.toNat) = some v) :
    doPlog e w s = t.retire e ((t.engine e).setPred w.d.toNat v) 1 := by
  have defined : (plogFn w.fn.toNat false false).isSome = true := by
    rw [plogFn_isSome, ← plogFn_isSome, hv]; rfl
  refine (State.execA_body h hg (by simp [defined, hd, ha, hb])).trans ?_
  simp only [hv, Option.getD_some]

end

section
variable {w : FmtI} (h : Fetches s e 1 t)
include h

/-- MOVI by its mode FN[3:2]. -/
theorem doMovi_zeroExtends (hf : w.fn.toNat < 4) : doMovi e w s = t.setD e w.d (zext16 w.imm <<< (16 * (w.fn.toNat % 4))) := by
  have mode : w.fn.toNat / 4 = 0 := by omega
  exact (State.execI_body h (decide_eq_true (by omega))).trans (by simp only [mode])

theorem doMovi_replaces (lo : 4 ≤ w.fn.toNat) (hi : w.fn.toNat < 8) : doMovi e w s = t.setD e w.d
    (((t.engine e).reg w.d.toNat &&& ~~~((0xFFFF : DWord) <<< (16 * (w.fn.toNat % 4)))) ||| (zext16 w.imm <<< (16 * (w.fn.toNat % 4)))) := by
  have mode : w.fn.toNat / 4 = 1 := by omega
  exact (State.execI_body h (decide_eq_true (by omega))).trans (by simp only [mode])

theorem doMovi_signExtends (lo : 8 ≤ w.fn.toNat) (hi : w.fn.toNat < 12) :
    doMovi e w s = t.setD e w.d (sext16 w.imm <<< (16 * (w.fn.toNat % 4))) := by
  have mode : w.fn.toNat / 4 = 2 := by omega
  exact (State.execI_body h (decide_eq_true hi)).trans (by simp only [mode])

theorem doShi_result {v : DWord} (small : w.imm.toNat < 64) (hv : shiFn w.fn.toNat w.imm.toNat ((t.engine e).reg w.d.toNat) = some v) :
    doShi e w s = t.setD e w.d v := by
  have defined : (shiFn w.fn.toNat 0 0).isSome = true := by
    rw [shiFn_isSome, ← shiFn_isSome, hv]; rfl
  refine (State.execI_body h (by rw [defined, decide_eq_true small]; rfl)).trans ?_
  simp only [Nat.mod_eq_of_lt small, hv, Option.getD_some]

theorem cmpImm_result {op : Nat} {c : DWord → DWord → Bool} (hf : w.fn.toNat < 8) :
    cmpImm op c e w s = t.retire e ((t.engine e).setPred w.fn.toNat (c ((t.engine e).reg w.d.toNat) (sext16 w.imm))) 1 :=
  (State.execI_body h (decide_eq_true hf)).trans (by simp only [Nat.mod_eq_of_lt hf])

end

theorem doMovx_result {w : FmtX} (h : Fetches s e 2 t) (hg : guardOf w.n w.p (t.engine e) = true) :
    (w.fn = 0 → doMovx e w s = t.setD e w.d (sext32 w.imm) 2) ∧
    (w.fn = 1 → doMovx e w s = t.setD e w.d ((w.imm.setWidth 64 <<< 32) ||| ((t.engine e).reg w.a.toNat &&& 0xFFFFFFFF)) 2) ∧
    (w.fn = 2 → doMovx e w s = t.setD e w.d (w.imm.setWidth 64) 2) := by
  refine ⟨fun mode => ?_, fun mode => ?_, fun mode => ?_⟩
  all_goals exact (State.execX_body h hg (by simp [mode])).trans (by simp [mode])

end

/-- Settles O9: each instruction by the result of its function. -/
theorem integerResults : Obligations.IntegerResults := by
  unfold Obligations.IntegerResults
  refine ⟨fun e s t => ⟨fun h => ⟨fun w v hg => ?formA, fun w => ?formI⟩, fun h w hg => ?formX⟩,
    fun e s t h => ⟨fun w v hg hd => ?predA, fun w hf => ?predI⟩⟩
  case formA =>
    exact ⟨fun hv => next_of_eq (doAlu_result h hg hv), fun hv => next_of_eq (doMul_result h hg hv),
      fun divisor hv => next_of_eq (doDiv_result h hg divisor hv), fun hf => next_of_eq (doSel_result h hg hf)⟩
  case formI =>
    exact ⟨fun hf => next_of_eq (doMovi_zeroExtends h hf), fun lo hi => next_of_eq (doMovi_replaces h lo hi),
      fun lo hi => next_of_eq (doMovi_signExtends h lo hi), fun hf => next_of_eq (State.execI_body h (decide_eq_true hf)),
      fun hf => next_of_eq (State.execI_body h (decide_eq_true hf)),
      fun hf => next_of_eq (State.execI_body h (decide_eq_true hf)),
      fun hf => next_of_eq (State.execI_body h (decide_eq_true hf)),
      fun small v hv => next_of_eq (doShi_result h small hv)⟩
  case formX =>
    obtain ⟨signs, upper, zeros⟩ := doMovx_result h hg
    exact ⟨fun mode => next_of_eq (signs mode), fun mode => next_of_eq (upper mode), fun mode => next_of_eq (zeros mode),
      fun hf => next_of_eq (State.execX_body h hg (decide_eq_true hf))⟩
  case predA =>
    exact ⟨fun hv => next_of_eq (doCmp_result h hg hd hv), fun ha hb hv => next_of_eq (doPlog_result h hg hd ha hb hv)⟩
  case predI =>
    exact ⟨next_of_eq (cmpImm_result h hf), next_of_eq (cmpImm_result h hf), next_of_eq (cmpImm_result h hf)⟩

/-- Settles O11: the quotient and the remainder that wrap, and the zero divisor. -/
theorem divisionCorners : Obligations.DivisionCorners := by
  unfold Obligations.DivisionCorners
  intro e s t w h hg a b
  have minusOne : b = -1 → b ≠ 0 := fun hb => by rw [hb]; decide
  refine ⟨fun ha hb hf => ?_, fun ha hb hf => ?_, fun zero hf => next_of_eq (doDiv_zero h hg zero hf)⟩
  · have quotient : divFn w.fn.toNat a b = some (BitVec.intMin 64) := by rw [ha, hb, hf]; decide
    exact next_of_eq (doDiv_result h hg (minusOne hb) quotient)
  · have remainder : divFn w.fn.toNat a b = some 0 := by rw [ha, hb, hf]; decide
    exact next_of_eq (doDiv_result h hg (minusOne hb) remainder)

/-! ### Atomics and the fence (R60) -/

section
variable {s t : State} {e : Eng} {w : FmtA} (h : Fetches s e 1 t) (hg : guardOf w.n w.p (t.engine e) = true)
include h hg

/-- ATOM on an aligned word of Tarn that reads without error: what its function gives, if anything, is stored. -/
theorem doAtom_tarn (hf : w.fn.toNat < 3) :
    let x := t.engine e
    let a := (x.reg w.a.toNat).toNat
    let r := t.readTarn (a - 0x10000000) 8
    let old := w64 (leNat r.bytes)
    inTarn a 8 = true → a % 8 = 0 → r.bad = false → doAtom e w s =
      (match atomNew w.fn.toNat old (x.reg w.d.toNat) (x.reg w.b.toNat) with
        | some v => r.st.writeTarnGuarded (a - 0x10000000) (leBytes 8 v.toNat) true
        | none => r.st).setD e w.d old := by
  intro x a r old inside aligned good
  have inSpace : ¬(!inTarn a 8) = true := by simp [inside]
  exact (State.execA_body h hg (decide_eq_true hf)).trans ((if_neg inSpace).trans ((if_neg (not_not_intro aligned)).trans
    (if_neg (ne_true_of_eq_false good))))

end

/-- Settles O13: what ATOM stores decides the two cases, and FENCE is legal with every field 0. -/
theorem atomicsAndFence : Obligations.AtomicsAndFence := by
  unfold Obligations.AtomicsAndFence
  refine fun e s t h => ⟨fun w hg hf => ?_, next_of_eq (State.execA_body h rfl rfl)⟩
  intro x a r old inside aligned good
  have atom := doAtom_tarn h hg hf inside aligned good
  constructor
  · intro v stores
    rw [stores] at atom
    exact next_of_eq atom
  · intro fails
    rw [fails] at atom
    exact next_of_eq atom

/-! ### Branches, jumps and control (R61) -/

@[simp] theorem Engine.setReg_steps {x : Engine} {r : Nat} {v : DWord} : (x.setReg r v).steps = x.steps := by
  unfold Engine.setReg
  split <;> rfl

section
variable {s : State} {e : Nat} {x : Engine} {target n : DWord}

/-- A jump into the local store retires; `n` instructions had retired before it. -/
theorem State.jumpTo_inside (before : x.steps = n) (aligned : target.toNat % 4 = 0) (inside : target.toNat < localSize) :
    s.jumpTo e x target = s.setEngine e { x with pc := target.setWidth 32, steps := n + 1 } := by
  subst before
  exact (if_neg (not_not_intro aligned)).trans (if_neg (Nat.not_le.mpr inside))

theorem State.jumpTo_misaligned (misaligned : target.toNat % 4 ≠ 0) : s.jumpTo e x target = s.trap e .align target 1 :=
  if_pos misaligned

theorem State.jumpTo_outside (aligned : target.toNat % 4 = 0) (outside : localSize ≤ target.toNat) :
    s.jumpTo e x target = s.trap e .space target 1 :=
  (if_neg (not_not_intro aligned)).trans (if_pos outside)

end

section
variable {s t : State} {e : Eng} (h : Fetches s e 1 t)
include h

theorem doBr_eq_jumpTo {w : FmtB} (hg : guardOf w.n w.p (t.engine e) = true) : doBr e w s =
    t.jumpTo e (if w.l then (t.engine e).setReg 31 ((t.engine e).pc.setWidth 64 + 4) else t.engine e)
      ((t.engine e).pc.setWidth 64 + 4 * w.disp.signExtend 64) :=
  State.execAt_body h hg rfl

section
variable {w : FmtA} (hg : guardOf w.n w.p (t.engine e) = true)
include hg

theorem doJmpr_eq_jumpTo (hb : w.b = 0) (hf : w.fn = 0) : doJmpr e w s =
    t.jumpTo e ((t.engine e).setReg w.d.toNat ((t.engine e).pc.setWidth 64 + 4)) ((t.engine e).reg w.a.toNat) :=
  State.execA_body h hg (decide_eq_true ⟨hb, hf⟩)

/-- RETT in a handler: FN[0] decides whether the trapped instruction is passed over. -/
theorem doRett_returns (inside : (t.engine e).status.toNat % 2 = 1) : doRett e w s = t.setEngine e
    { t.engine e with
      pc := if w.fn.toNat % 2 = 1 then (t.engine e).epc + w32 (4 * ((t.engine e).status.toNat / 2)) else (t.engine e).epc,
      status := BitVec.ofNat 3 (2 * ((t.engine e).status.toNat / 2)), steps := (t.engine e).steps + 1 } :=
  (State.execA_body h hg rfl).trans (if_neg (by omega))

end

end

/-- Settles O14: branches and jumps by their target, and the control instructions by what they do. -/
theorem controlInstructions : Obligations.ControlInstructions := by
  unfold Obligations.ControlInstructions
  refine ⟨fun e s t h => ⟨fun w hg => ?_, fun w hg => ?_⟩, fun e s t h w hg hb hf => ?_⟩
  · intro target aligned inside
    have before : (if w.l then (t.engine e).setReg 31 ((t.engine e).pc.setWidth 64 + 4) else t.engine e).steps = (t.engine e).steps := by
      split
      · exact Engine.setReg_steps
      · rfl
    exact next_of_eq ((doBr_eq_jumpTo h hg).trans (State.jumpTo_inside before aligned inside))
  · refine ⟨fun hb hf aligned inside => ?jmpr, fun hd ha hb => ?trap, fun inside => ?rett, ?halt, fun hd ha hb hf => ?nop⟩
    case jmpr => exact next_of_eq ((doJmpr_eq_jumpTo h hg hb hf).trans (State.jumpTo_inside Engine.setReg_steps aligned inside))
    case trap => exact next_of_eq (State.execA_body h hg (decide_eq_true ⟨hd, ha, hb⟩))
    case rett => exact next_of_eq (doRett_returns h hg inside)
    case halt => exact next_of_eq (State.execA_body h hg rfl)
    case nop => exact next_of_eq (State.execA_body h hg (decide_eq_true ⟨hd, ha, hb, hf⟩))
  · have jump := doJmpr_eq_jumpTo h hg hb hf
    exact ⟨fun misaligned => next_of_eq (jump.trans (State.jumpTo_misaligned misaligned)),
      fun aligned outside => next_of_eq (jump.trans (State.jumpTo_outside aligned outside))⟩

/-! ### Special registers (R51, R75) -/

/-- Which special registers MTS writes does not depend on the engine or on the value. -/
theorem Engine.mts_isSome {x y : Engine} {n : Nat} {v u : DWord} : (x.mts n v).isSome = (y.mts n u).isSome := by
  unfold Engine.mts
  split <;> rfl

section
variable {s t : State} {e : Eng} {w : FmtS} (h : Fetches s e 1 t) (hg : guardOf w.n w.p (t.engine e) = true)
include h hg

theorem doMfs_reads {v : DWord} (defined : s.mfsVal e w.sr.toNat ≠ none) (hv : t.mfsVal e w.sr.toNat = some v) :
    doMfs e w s = t.retire e (((t.engine e).afterMfs w.sr.toNat).setReg w.d.toNat v) 1 :=
  (State.execAt_body h hg (Option.isSome_iff_ne_none.mpr defined)).trans (by simp only [hv, Option.getD_some])

theorem doMts_writes {y : Engine} (hy : (t.engine e).mts w.sr.toNat ((t.engine e).reg w.a.toNat) = some y) :
    doMts e w s = t.retire e y 1 := by
  have legal : (Engine.reset.mts w.sr.toNat 0).isSome = true := by
    rw [Engine.mts_isSome, hy]; rfl
  exact (State.execAt_body h hg legal).trans (by simp only [hy, Option.getD_some])

end

/-- Settles O15: MFS and MTS of a defined register, and SELFT with its fields 0. -/
theorem specialRegisters : Obligations.SpecialRegisters := by
  unfold Obligations.SpecialRegisters
  exact fun e s t h => ⟨fun w v hg defined hv => next_of_eq (doMfs_reads h hg defined hv),
    fun w y hg hy => next_of_eq (doMts_writes h hg hy),
    fun w mm hg ha hb hf => next_of_eq (State.execA_body h hg (decide_eq_true ⟨ha, hb, hf⟩))⟩

/-! ### Waiting (R62, R63) -/

/-- An enabled input of a mask with a pending count (R62). -/
theorem readyBits_getLsbD {s : State} {e : Nat} {mask : DWord} (i : Fin 64) : (w64 (readyBits s e mask 64)).getLsbD i =
    (mask.getLsbD i && s.on F.ENG_EVROUTE_EN e i && decide (0 < s.get F.ENG_EVROUTE_COUNT e i)) := by
  rw [w64, BitVec.getLsbD_ofNat, readyBits_testBit, decide_eq_true i.isLt, Bool.true_and, Bool.true_and]

section
variable {s : State} {e : Nat} {mask bits : DWord}

theorem waitCond_zero {all : Bool} : waitCond s e 0 all = none := by
  unfold waitCond
  exact if_pos rfl

theorem waitCond_all_eq (nonzero : mask ≠ 0) :
    waitCond s e mask true = if w64 (readyBits s e mask 64) = mask then some mask else none :=
  if_neg nonzero

theorem waitCond_any_eq (nonzero : mask ≠ 0) : waitCond s e mask false =
    if w64 (readyBits s e mask 64) = 0 then none else some (w64 (readyBits s e mask 64)) :=
  if_neg nonzero

theorem ne_zero_of_waitCond {all : Bool} (h : waitCond s e mask all = some bits) : mask ≠ 0 := by
  rintro rfl
  rw [waitCond_zero] at h
  cases h

/-- ALL takes the whole mask, every input of it ready. -/
theorem waitCond_all_some (h : waitCond s e mask true = some bits) : bits = mask ∧ w64 (readyBits s e mask 64) = mask := by
  rw [waitCond_all_eq (ne_zero_of_waitCond h)] at h
  split at h
  · next ready => exact ⟨(Option.some.inj h).symm, ready⟩
  · cases h

/-- ANY takes the ready inputs, of which there is one. -/
theorem waitCond_any_some (h : waitCond s e mask false = some bits) : bits = w64 (readyBits s e mask 64) ∧ bits ≠ 0 := by
  rw [waitCond_any_eq (ne_zero_of_waitCond h)] at h
  split at h
  · cases h
  · next ready =>
    obtain rfl := Option.some.inj h
    exact ⟨rfl, ready⟩

end

section
variable {s t : State} {e : Eng} {w : FmtA} (h : Fetches s e 1 t) (hg : guardOf w.n w.p (t.engine e) = true) (hf : w.fn.toNat < 2)
include h hg hf

theorem doWait_dead (mask : (t.engine e).reg w.a.toNat = 0) (tmo : (t.engine e).reg w.b.toNat = 0) :
    doWait e w s = t.trap e .waitDead 0 1 :=
  (State.execA_body h hg (decide_eq_true hf)).trans (if_pos ⟨mask, tmo⟩)

section
variable (live : (t.engine e).reg w.a.toNat ≠ 0 ∨ (t.engine e).reg w.b.toNat ≠ 0)
include live

theorem doWait_ready {bits : DWord} (ready : waitCond t e ((t.engine e).reg w.a.toNat) (decide (w.fn.toNat = 1)) = some bits) :
    doWait e w s = (consume e bits 64 t).setD e w.d bits := by
  refine (State.execA_body h hg (decide_eq_true hf)).trans ((if_neg (by tauto)).trans ?_)
  simp only [ready]

theorem doWait_sleeps (notReady : waitCond t e ((t.engine e).reg w.a.toNat) (decide (w.fn.toNat = 1)) = none) :
    doWait e w s = (t.setEngine e { t.engine e with
      wait := some { mask := (t.engine e).reg w.a.toNat, all := decide (w.fn.toNat = 1),
                     until_ := if (t.engine e).reg w.b.toNat = 0 then none else some (w64 (t.tbNs 0) + (t.engine e).reg w.b.toNat),
                     d := w.d } }).setEstate e esWaiting := by
  refine (State.execA_body h hg (decide_eq_true hf)).trans ((if_neg (by tauto)).trans ?_)
  simp only [notReady]

end

end

section
variable {s : State} {e : Eng} {w : WaitSt} (sleeps : (s.engine e).wait = some w) (waiting : s.estate e = esWaiting)
include sleeps waiting

theorem doWaitWake_ready {bits : DWord} (ready : waitCond s e w.mask w.all = some bits) :
    doWaitWake e s = (consume e bits 64 s).endWait e w.d bits := by
  simp only [doWaitWake, sleeps, waiting, ready, ne_eq, not_true_eq_false, if_false]

section
variable {i : DWord} (limit : w.until_ = some i) (due : i.toNat ≤ s.tbNs 0)
include limit due

/-- At the timeout a condition that is true wins. -/
theorem doWaitTimeout_wakes {bits : DWord} (ready : waitCond s e w.mask w.all = some bits) :
    doWaitTimeout e s = (consume e bits 64 s).endWait e w.d bits := by
  simp only [doWaitTimeout, sleeps, waiting, limit, Nat.not_lt.mpr due, ready, ne_eq, not_true_eq_false, if_false]

theorem doWaitTimeout_expires (notReady : waitCond s e w.mask w.all = none) : doWaitTimeout e s = s.endWait e w.d 0 := by
  simp only [doWaitTimeout, sleeps, waiting, limit, Nat.not_lt.mpr due, notReady, ne_eq, not_true_eq_false, if_false]

end

end

/-- Settles O16: WAIT by its condition, EVCNT, the two ends of a sleeping WAIT, and then the condition itself by its ready inputs. -/
theorem waitingOnEvents : Obligations.WaitingOnEvents := by
  unfold Obligations.WaitingOnEvents
  refine ⟨fun e s t => ⟨fun h w hg => ⟨fun hf live => ?wait, fun hf mask tmo => ?dead, fun ha hb => ?evcnt⟩,
    fun w sleeps waiting => ?sleeping⟩, fun s e mask => ⟨?zero, fun bits taken => ?all, fun bits taken => ?any⟩⟩
  case wait =>
    exact ⟨fun bits ready => next_of_eq (doWait_ready h hg hf live ready), fun notReady => next_of_eq (doWait_sleeps h hg hf live notReady)⟩
  case dead => exact next_of_eq (doWait_dead h hg hf mask tmo)
  case evcnt => exact next_of_eq (State.execA_body h hg (decide_eq_true ⟨ha, hb⟩))
  case sleeping =>
    exact ⟨fun bits ready => next_of_eq (doWaitWake_ready sleeps waiting ready),
      fun i limit due notReady => next_of_eq (doWaitTimeout_expires sleeps waiting limit due notReady),
      fun i bits limit due ready => next_of_eq (doWaitTimeout_wakes sleeps waiting limit due ready)⟩
  case zero => exact ⟨waitCond_zero, waitCond_zero⟩
  case all =>
    obtain ⟨whole, ready⟩ := waitCond_all_some taken
    refine ⟨whole, ne_zero_of_waitCond taken, fun i masked => ?_⟩
    have bit := readyBits_getLsbD (s := s) (e := e) (mask := mask) i
    rw [ready, masked] at bit
    simpa using bit.symm
  case any =>
    obtain ⟨rfl, nonempty⟩ := waitCond_any_some taken
    exact ⟨nonempty, readyBits_getLsbD⟩

/-! ### Compare channels (R64) -/

section
variable {s t : State} {e : Eng} {w : FmtA} {k : Fin 32}

/-- A channel number written in field B. -/
theorem toNat_ofNat_channel : (BitVec.ofNat 5 k.val).toNat = k.val := by
  rw [BitVec.toNat_ofNat, Nat.mod_eq_of_lt k.isLt]

section
variable (h : Fetches s e 1 t) (hg : guardOf w.n w.p (t.engine e) = true) (hb : w.b = BitVec.ofNat 5 k.val)
include h hg hb

theorem doArmp_arms (hf : w.fn.toNat < 2) : doArmp e w s =
    ((((t.pchanTest k).setPchan k { armed := true, target := (t.engine e).reg w.a.toNat, sel := BitVec.ofNat 2 w.fn.toNat }).pchanTest
      k).setD e w.d (if ((t.pchanTest k).pchanOf k).armed then 1 else 0)) := by
  have arms : ¬bitN w.fn.toNat 1 = 1 := by simp only [bitN]; omega
  refine (State.execA_body h hg (decide_eq_true (by omega))).trans ?_
  simp only [if_neg arms, hb, toNat_ofNat_channel, Nat.mod_eq_of_lt hf]

theorem doArmt_arms (hf : w.fn.toNat < 4) : doArmt e w s =
    ((((t.tchanTest k).setTchan k { armed := true, target := (t.engine e).reg w.a.toNat, sel := BitVec.ofNat 2 w.fn.toNat }).tchanTest
      k).setD e w.d (if ((t.tchanTest k).tchanOf k).armed then 1 else 0)) := by
  have arms : ¬bitN w.fn.toNat 2 = 1 := by simp only [bitN]; omega
  refine (State.execA_body h hg (decide_eq_true (by omega))).trans ?_
  simp only [if_neg arms, hb, toNat_ofNat_channel, Nat.mod_eq_of_lt hf]

end

theorem State.pchanTest_pulses (armed : (s.pchanOf k).armed = true) (reached : posReached s (s.pchanOf k) = true) :
    s.pchanTest k = (s.setPchan k { s.pchanOf k with armed := false }).postEvent (0x010 + k) :=
  if_pos (by rw [armed, reached]; rfl)

theorem State.tchanTest_pulses (armed : (s.tchanOf k).armed = true) (reached : timeReached s (s.tchanOf k) = true) :
    s.tchanTest k = (s.setTchan k { s.tchanOf k with armed := false }).postEvent (0x030 + k) :=
  if_pos (by rw [armed, reached]; rfl)

end

/-- Settles O17: ARMP and ARMT of a target, and the test of an armed channel that has reached its own. -/
theorem compareChannels : Obligations.CompareChannels := by
  unfold Obligations.CompareChannels
  intro e s t k
  refine ⟨fun h w hg hb => ?_, fun armed reached => ?_, fun armed reached => ?_⟩
  · exact ⟨fun hf => next_of_eq (doArmp_arms h hg hb hf), fun hf => next_of_eq (doArmt_arms h hg hb hf)⟩
  · exact next_of_eq (State.pchanTest_pulses armed reached)
  · exact next_of_eq (State.tchanTest_pulses armed reached)

/-! ### Mailboxes (R66) -/

section
variable {s t : State} {e : Eng} {w : FmtA} (h : Fetches s e 1 t) (hg : guardOf w.n w.p (t.engine e) = true)
include h hg

section
variable (hb : w.b.toNat % 2 = 0) (hf : w.fn = 0)
include hb hf

theorem doSend_nowhere (far : 17 < ((t.engine e).reg w.a.toNat).toNat) : doSend e w s = t.setD e w.d 2 :=
  (State.execA_body h hg (decide_eq_true ⟨hb, hf⟩)).trans (if_pos far)

theorem doSend_full (near : ((t.engine e).reg w.a.toNat).toNat ≤ 17)
    (full : 16 ≤ (t.engine ((t.engine e).reg w.a.toNat).toNat).mailbox.length) : doSend e w s = t.setD e w.d 1 :=
  (State.execA_body h hg (decide_eq_true ⟨hb, hf⟩)).trans ((if_neg (Nat.not_lt.mpr near)).trans (if_pos full))

theorem doSend_room :
    let x := t.engine e
    let dest := (x.reg w.a.toNat).toNat
    dest ≤ 17 → (t.engine dest).mailbox.length < 16 → doSend e w s = ((t.setEngine dest { t.engine dest with
      mailbox := (t.engine dest).mailbox ++ [{ src := BitVec.ofNat 5 e, lo := x.reg w.b.toNat, hi := x.reg (w.b.toNat + 1) }] }).postEvent
        (0x090 + dest)).setD e w.d 0 :=
  fun near room => (State.execA_body h hg (decide_eq_true ⟨hb, hf⟩)).trans ((if_neg (Nat.not_lt.mpr near)).trans (if_neg (Nat.not_le.mpr room)))

end

section
variable (hd : w.d.toNat % 2 = 0) (hb : w.b = 0) (hf : w.fn.toNat < 8)
include hd hb hf

theorem doRecv_empty (empty : (t.engine e).mailbox = []) :
    doRecv e w s = t.retire e ((t.engine e).setPred w.fn.toNat false) 1 := by
  refine (State.execA_body h hg (decide_eq_true ⟨hd, hb, hf⟩)).trans ?_
  simp only [empty, Nat.mod_eq_of_lt hf]

theorem doRecv_takes {m : Mail} {rest : List Mail} (front : (t.engine e).mailbox = m :: rest) : doRecv e w s = t.retire e
    (((({ t.engine e with mailbox := rest, msrc := m.src } : Engine).setReg w.d.toNat m.lo).setReg (w.d.toNat + 1) m.hi).setPred
      w.fn.toNat true) 1 := by
  refine (State.execA_body h hg (decide_eq_true ⟨hd, hb, hf⟩)).trans ?_
  simp only [front, Nat.mod_eq_of_lt hf]

end

end

/-- Settles O19: SEND by its destination and the room there, RECV by the front of the engine's mailbox. -/
theorem mailboxes : Obligations.Mailboxes := by
  unfold Obligations.Mailboxes
  refine fun e s t h w hg => ⟨fun hb hf => ?_, fun hd hb hf => ?_⟩
  · exact ⟨fun near room => next_of_eq (doSend_room h hg hb hf near room), fun near full => next_of_eq (doSend_full h hg hb hf near full),
      fun far => next_of_eq (doSend_nowhere h hg hb hf far)⟩
  · exact ⟨fun empty => next_of_eq (doRecv_empty h hg hd hb hf empty),
      fun m rest front => next_of_eq (doRecv_takes h hg hd hb hf front)⟩

/-! ### DMA (R67, R68, R361) -/

section
variable {s : State} {e : Nat} {j : DmaJob} {d : BitVec 5}

theorem State.dmaIssue_halted (halted : bitN (s.get F.TARN_DMAHALT_HALT) e = 1) : s.dmaIssue e j d = (s.dmaEntry e j 3).setD e d 0 := by
  unfold State.dmaIssue
  rw [if_pos halted]

theorem State.dmaIssue_flies (runs : bitN (s.get F.TARN_DMAHALT_HALT) e = 0) : s.dmaIssue e j d =
    ((s.setEngine e { s.engine e with dma := (s.engine e).dma ++ [j] }).set F.ENG_ESTAT_DMAFLT ((s.engine e).dma.length + 1) e).setD e d 0 := by
  unfold State.dmaIssue
  rw [if_neg (by rw [runs]; decide)]

end

section
variable {s t : State} {e : Eng} {w : FmtA} (h : Fetches s e 1 t) (hg : guardOf w.n w.p (t.engine e) = true)
  (hb : w.b = 0) (hf : w.fn = 0)
include h hg hb hf

/-- DMA with a descriptor that can be read: its form decides, and then the places of the channel. -/
theorem doDma_reads :
    let a := (t.engine e).reg w.a.toNat
    let r := t.readEng e a.toNat 32
    a.toNat % 32 = 0 → (inLocal a.toNat 32 || inTarn a.toNat 32) = true → r.bad = false → doDma e w s =
      match dmaForm r.bytes with
      | none => r.st.trap e .dmaForm a 1
      | some j => if 8 ≤ (r.st.engine e).dma.length then r.st.setEngine e { r.st.engine e with stall := some (.dma j w.d) }
          else r.st.dmaIssue e j w.d := by
  intro a r aligned inside good
  have inSpace : ¬(!(inLocal a.toNat 32 || inTarn a.toNat 32)) = true := by simp only [inside]; decide
  exact (State.execA_body h hg (decide_eq_true ⟨hb, hf⟩)).trans ((if_neg (not_not_intro aligned)).trans ((if_neg inSpace).trans
    (if_neg (ne_true_of_eq_false good))))

end

/-- What a transfer leaves once it ended (R68, R361): the channel halted at an uncorrectable source, its place free, its completion recorded. -/
def State.dmaEnded (s : State) (e : Eng) (k : Nat) (j : DmaJob) : State :=
  let p := s.dmaTransfer e j
  let u := if p.1 = 2 then p.2.set F.TARN_DMAHALT_HALT (Nat.lor (p.2.get F.TARN_DMAHALT_HALT) (2 ^ e.val)) else p.2
  ((u.setEngine e { u.engine e with dma := (u.engine e).dma.eraseIdx k }).set F.ENG_ESTAT_DMAFLT ((u.engine e).dma.length - 1) e).dmaEntry
    e j p.1

section
variable {s : State} {e : Eng} {k : Fin 8} {j : DmaJob} (flies : (s.engine e).dma[k.val]? = some j)
include flies

theorem doDmaCompletion_ends (free : ∀ i d, ((s.dmaEnded e k j).engine e).stall ≠ some (.dma i d)) :
    doDmaCompletion e k s = s.dmaEnded e k j := by
  unfold doDmaCompletion
  simp only [flies]
  split
  · next i d waits => exact absurd waits (free i d)
  · rfl

theorem doDmaCompletion_issues {i : DmaJob} {d : BitVec 5} (waits : ((s.dmaEnded e k j).engine e).stall = some (.dma i d)) :
    doDmaCompletion e k s =
      ((s.dmaEnded e k j).setEngine e { (s.dmaEnded e k j).engine e with stall := none }).dmaIssue e i d := by
  unfold State.dmaEnded at *
  simp only [doDmaCompletion, flies, waits]

end

/-- Settles O20: DMA by its descriptor and the state of its channel, DMA_COMPLETION by whether a DMA waits for the place. -/
theorem engineDma : Obligations.EngineDma := by
  unfold Obligations.EngineDma
  refine fun e s t => ⟨fun h w hg hb hf => ?_, fun k j flies => ?_⟩
  · intro a r x aligned inside good
    have dma := doDma_reads h hg hb hf aligned inside good
    refine ⟨fun malformed => ?malformed, fun j formed room runs => ?flies, fun j formed room halted => ?halted, fun j formed full => ?full⟩
    case malformed =>
      rw [malformed] at dma
      exact next_of_eq dma
    all_goals rw [formed] at dma
    case flies => exact next_of_eq ((dma.trans (if_neg (Nat.not_le.mpr room))).trans (State.dmaIssue_flies runs))
    case halted => exact next_of_eq ((dma.trans (if_neg (Nat.not_le.mpr room))).trans (State.dmaIssue_halted halted))
    case full => exact next_of_eq (dma.trans (if_pos full))
  · exact ⟨fun free => next_of_eq (doDmaCompletion_ends flies free), fun i d waits => next_of_eq (doDmaCompletion_issues flies waits)⟩

/-! ### Claims and takeovers (R74, R436, R439, R441) -/

section
variable {s t : State} {e : Eng} {w : FmtA} (h : Fetches s e 1 t) (hg : guardOf w.n w.p (t.engine e) = true)
include h hg

theorem doClaim_takes :
    let x := t.engine e
    let r := (x.reg w.a.toNat).toNat % 16
    let ep := x.reg w.b.toNat
    let c := w32 (ep.toNat * 32 + e.val)
    ep ≠ 0 → ep.toNat < 2 ^ 27 → x.roles.getLsbD r = true → doClaim e w s =
      ((((t.set F.ENG_ESTAT_ROLE r e).set F.ENG_ESTAT_HOLDS 1 e).setEngine e { x with claim := c }).setD e w.d (c.setWidth 64)) := by
  intro x r ep c nonzero small allowed
  refine (State.execA_body h hg rfl).trans ((if_neg ?_).trans (if_neg ?_))
  · exact not_or.mpr ⟨nonzero, Nat.not_le.mpr small⟩
  · exact ne_true_of_eq_false (congrArg _ allowed)

theorem doClaim_epoch (bad : (t.engine e).reg w.b.toNat = 0 ∨ 2 ^ 27 ≤ ((t.engine e).reg w.b.toNat).toNat) :
    doClaim e w s = t.trap e .claimRange ((t.engine e).reg w.b.toNat) 1 :=
  (State.execA_body h hg rfl).trans (if_pos bad)

theorem doClaim_role (nonzero : (t.engine e).reg w.b.toNat ≠ 0) (small : ((t.engine e).reg w.b.toNat).toNat < 2 ^ 27)
    (refused : (t.engine e).roles.getLsbD (((t.engine e).reg w.a.toNat).toNat % 16) = false) :
    doClaim e w s = t.trap e .claimRange (w64 (((t.engine e).reg w.a.toNat).toNat % 16)) 1 :=
  (State.execA_body h hg rfl).trans ((if_neg (not_or.mpr ⟨nonzero, Nat.not_le.mpr small⟩)).trans (if_pos (congrArg _ refused)))

end

section
variable {s : State} {e : Eng}

theorem doGiveup_idle (idle : heldRoles (s.setFailed e) e 16 = []) :
    doGiveup (.engine e) s = (s.setFailed e).report C.spr_diag_fail (mkArg none none e.val) := by
  simp only [doGiveup, idle]

theorem doGiveup_holder {k : Nat} {ks : List Nat} (held : heldRoles (s.setFailed e) e 16 = k :: ks) : doGiveup (.engine e) s =
    (k :: ks).foldl (fun s r => (s.report C.spr_diag_fail (mkArg none (some r) e.val)).triggerTake r) (s.setFailed e) := by
  simp only [doGiveup, held]

end

/-- A missed beat of the holder of a role that has no standby (R439). -/
theorem doHeartbeatTimeout_alone {s : State} {r : Fin 16} {h t : Nat} (holder : s.holderOf r = some h)
    (since : Tab.get (fun _ => none) s.spr.beatAt r.val = some t) (watched : s.on F.SPR_RCTL_WATCH r = true)
    (alone : s.on F.SPR_RCTL_PAIR r = false) (late : s.elapsedUs t (s.hbto r) = true) (free : s.takeoverBusy r = false) :
    doHeartbeatTimeout r false s =
      (({ s with spr := { s.spr with beatAt := Tab.put (fun _ => none) s.spr.beatAt r.val none } } : State).report C.spr_hb_lost
        (mkArg none (some r.val) h)).triggerTake r := by
  simp only [doHeartbeatTimeout, holder, Bool.false_eq_true, if_false, since, watched, alone, late, free, Bool.not_true, Bool.false_and,
    Bool.or_self, Bool.not_false, if_true]

/-- A cold takeover of role `r` has begun (R441, steps 1 and 2): it is announced, and the holder `h` is stopped. -/
def State.takeoverBegun (s : State) (r : Fin 16) (h : Nat) : State :=
  let u := ((({ s with spr := { s.spr with pendingTake := s.spr.pendingTake.filter (· ≠ r.val) } } : State).set F.SPR_TKSTAT_BUSY 1).set
    F.SPR_TKSTAT_ROLE r).bump F.SPR_TKSTAT_COUNT |>.report C.spr_takeover (mkArg none (some r.val) h)
  if u.estate h = esHalted then u else u.stopEngine h esHalted

/-- COLD_TAKEOVER of the lowest role that waits: a spare is tried only where an image is named (R441). -/
theorem doColdTakeover_lowest {s : State} {r : Fin 16} {h : Nat} (allowed : s.takeoverAllowed = true) (free : s.on F.SPR_TKSTAT_BUSY = false)
    (lowest : listMin? s.spr.pendingTake = some r.val) (holder : s.holderOf r = some h) :
    let w := s.takeoverBegun r h
    let p := takeSpare r h (w.get F.SPR_IMG_ADDR r * 64) (w.get F.SPR_RCLAIM_CLAIM r / 32 + 1) 18 w
    doColdTakeover r s =
      if w.get F.SPR_IMG_ADDR r * 64 = 0 then (w.set F.SPR_TKSTAT_BUSY 0).report C.spr_no_spare (mkArg none (some r.val) h)
      else if p.1 then p.2 else (p.2.set F.SPR_TKSTAT_BUSY 0).report C.spr_no_spare (mkArg none (some r.val) h) := by
  intro w p
  have goes : ¬(!s.takeoverAllowed || s.on F.SPR_TKSTAT_BUSY || listMin? s.spr.pendingTake != some r.val) = true := by
    rw [allowed, free, lowest, bne_self_eq_false]
    decide
  have sameHolder : ({ s with spr := { s.spr with pendingTake := s.spr.pendingTake.filter (· ≠ r.val) } } : State).holderOf r = some h := holder
  refine (if_neg goes).trans ?_
  simp only [sameHolder]
  rfl

/-- Settles O22: CLAIM by its epoch and role, YIELD, the writes of SPR that an engine makes, a missed beat and the cold takeover. -/
theorem claimAndYield : Obligations.ClaimAndYield := by
  unfold Obligations.ClaimAndYield
  refine ⟨fun e s t h w hg => ⟨?takes, ?epoch, ?role, ?yield⟩, fun e s v r => ⟨?beat, ?idle, ?holder, ?assert, ?heartbeat, ?takeover⟩⟩
  case takes => exact fun nonzero small allowed => next_of_eq (doClaim_takes h hg nonzero small allowed)
  case epoch => exact fun bad => next_of_eq (doClaim_epoch h hg bad)
  case role => exact fun nonzero small refused => next_of_eq (doClaim_role h hg nonzero small refused)
  case yield => exact next_of_eq (State.execA_body h hg rfl)
  case beat => exact fun reaches => next_busWrite reaches rfl
  case idle => exact fun reaches idle => next_busWrite reaches (doGiveup_idle idle)
  case holder => exact fun reaches k ks held => next_busWrite reaches (doGiveup_holder held)
  case assert => exact fun reaches holds => next_busWrite reaches (if_pos holds)
  case heartbeat =>
    exact fun h t holder since watched alone late free => next_of_eq (doHeartbeatTimeout_alone holder since watched alone late free)
  case takeover =>
    intro h allowed free lowest holder u w p
    have takeover := doColdTakeover_lowest allowed free lowest holder
    have named : w.get F.SPR_IMG_ADDR r ≠ 0 → ¬w.get F.SPR_IMG_ADDR r * 64 = 0 := by omega
    refine ⟨fun image found => ?_, fun image missing => ?_, fun image => ?_⟩
    · exact next_of_eq (takeover.trans ((if_neg (named image)).trans (if_pos found)))
    · exact next_of_eq (takeover.trans ((if_neg (named image)).trans (if_neg (ne_true_of_eq_false missing))))
    · exact next_of_eq (takeover.trans (if_pos (by rw [show (s.takeoverBegun r h).get F.SPR_IMG_ADDR r = 0 from image])))

/-! ### Program images (R79 to R81) -/

section
variable {s t : State} {e : Eng} {w : FmtA} (h : Fetches s e 1 t) (hg : guardOf w.n w.p (t.engine e) = true) (hf : w.fn = 0)
include h hg hf

theorem doEload_loads :
    let a := ((t.engine e).reg w.a.toNat).toNat
    let k := ((t.engine e).reg w.b.toNat).toNat
    let c := t.imageCode a k (some e.val)
    let u := c.2.startLoad k { addr := a, by_ := some e.val, role := 0, epoch := 0 }
    c.1 = 0 → doEload e w s = u.setEngine e { u.engine e with stall := some (.eload k w.d) } :=
  fun good => (State.execA_body h hg (decide_eq_true hf)).trans (if_pos good)

theorem doEload_refuses :
    let c := t.imageCode ((t.engine e).reg w.a.toNat).toNat ((t.engine e).reg w.b.toNat).toNat (some e.val)
    c.1 ≠ 0 → doEload e w s = c.2.setD e w.d (w64 c.1) :=
  fun bad => (State.execA_body h hg (decide_eq_true hf)).trans (if_neg bad)

end

/-- The image runs, and a region whose release waited for it is free (R81, R477). -/
def State.imageRuns (s : State) (e : Eng) (l : LoadJob) : State :=
  (s.startImage e l.addr).sec.relPend.foldl (fun s k => if s.get F.SEC_VBASE_VALUE k = l.addr then s.freeVerified k else s)
    (s.startImage e l.addr)

section
variable {s : State} {e : Eng} {l : LoadJob} (loads : (s.engine e).loading = some l)
include loads

theorem doImageStart_takeover (by_ : l.by_ = none) : doImageStart e s = (s.imageRuns e l).endTakeover e l.role l.epoch := by
  simp only [doImageStart, loads, by_]
  rfl

theorem doImageStart_eload {i : Nat} {d : BitVec 5} (by_ : l.by_ = some i)
    (waits : ((s.imageRuns e l).engine i).stall = some (.eload e.val d)) : doImageStart e s =
      ((s.imageRuns e l).setEngine i { (s.imageRuns e l).engine i with stall := none }).setD i d 0 := by
  unfold State.imageRuns at *
  simp only [doImageStart, loads, by_, waits, if_true]

end

/-- Settles O23: ELOAD by the code of the image, IMAGE_START by what asked for the load. -/
theorem engineImages : Obligations.EngineImages := by
  unfold Obligations.EngineImages
  refine fun e s t => ⟨fun h w hg hf => ?_, fun l loads => ?_⟩
  · intro a k c u
    have loads : c.1 = 0 → doEload e w s = u.setEngine e { u.engine e with stall := some (.eload k w.d) } := doEload_loads h hg hf
    have refuses : c.1 ≠ 0 → doEload e w s = c.2.setD e w.d (w64 c.1) := doEload_refuses h hg hf
    exact ⟨fun good => next_of_eq (loads good), fun bad => next_of_eq (refuses bad)⟩
  · exact ⟨fun by_ => next_of_eq (doImageStart_takeover loads by_),
      fun i d by_ waits => next_of_eq (doImageStart_eload loads by_ waits)⟩

/-! ### Commit groups (R70, R71, R82 to R97) -/

/-- The group is the engine's to use (R71): it holds a role, and no other role owns the group. -/
def State.mayUse (s : State) (e : Eng) (g : Nat) : Prop :=
  s.holds e = true ∧ (g < 64 → s.gstate g ≠ cgFree → s.get F.CMT_GSTAT_ROLE g = s.roleOf e)

section
variable {s : State} {op g : Nat} {e : Eng} {body : State → State}

theorem State.cgOwned_runs (mine : s.mayUse e g) : s.cgOwned op e g body = body s := by
  obtain ⟨role, owner⟩ := mine
  have notOther : ¬(g < 64 ∧ s.gstate g ≠ cgFree ∧ s.get F.CMT_GSTAT_ROLE g ≠ s.roleOf e) :=
    fun ⟨small, used, other⟩ => other (owner small used)
  exact (if_neg (by simp [role])).trans (if_neg notOther)

theorem State.cgOwned_norole (role : s.holds e = false) : s.cgOwned op e g body = s.trap e .norole (w64 op) 1 :=
  if_pos (by simp [role])

theorem State.cgOwned_other (role : s.holds e = true) (small : g < 64) (used : s.gstate g ≠ cgFree)
    (other : s.get F.CMT_GSTAT_ROLE g ≠ s.roleOf e) : s.cgOwned op e g body = s.trap e .owner (w64 g) 1 :=
  (if_neg (by simp [role])).trans (if_pos ⟨small, used, other⟩)

end

section
variable {s t : State} {e : Eng} {w : FmtA} (h : Fetches s e 1 t) (hg : guardOf w.n w.p (t.engine e) = true)
include h hg

/-- CGOPEN with an operand of 0 or 1 asks for a group. -/
theorem doCgopen_asks (role : t.holds e = true) (small : ((t.engine e).reg w.a.toNat).toNat < 2) : doCgopen e w s =
    match t.openGroup (t.roleOf e) ((t.engine e).reg w.a.toNat == 1) with
    | none => t.setD e w.d (BitVec.allOnes 64)
    | some (g, u) => u.setD e w.d (w64 g) := by
  have noRole : ¬(!t.holds e) = true := by simp [role]
  exact (State.execA_body h hg rfl).trans ((if_neg noRole).trans (if_neg (by omega)))

theorem doCgopen_norole (role : t.holds e = false) : doCgopen e w s = t.trap e .norole 0x60 1 :=
  (State.execA_body h hg rfl).trans (if_pos (by simp [role]))

theorem doCgw_eq_cgOwned : doCgw e w s = t.cgOwned 0x61 e ((t.engine e).reg w.d.toNat).toNat fun s =>
    let g := ((t.engine e).reg w.d.toNat).toNat
    let u := if g < 64 ∧ s.gstate g = cgOpen then
        s.groupWord g ((t.engine e).reg w.a.toNat).toNat (((t.engine e).reg w.b.toNat).setWidth 32)
      else s.cgNotOpen g
    u.retire e (u.engine e) 1 :=
  State.execA_body h hg rfl

theorem doCgt_eq_cgOwned : doCgt e w s = t.cgOwned 0x62 e ((t.engine e).reg w.d.toNat).toNat fun s =>
    let g := ((t.engine e).reg w.d.toNat).toNat
    let u := if g < 64 ∧ s.gstate g = cgOpen then s.groupDesc g ((t.engine e).reg w.a.toNat).toNat else s.cgNotOpen g
    u.retire e (u.engine e) 1 :=
  State.execA_body h hg rfl

theorem doCga_eq_cgOwned : doCga e w s = t.cgOwned 0x64 e ((t.engine e).reg w.a.toNat).toNat fun s =>
    (s.cgaGroup ((t.engine e).reg w.a.toNat).toNat).retire e ((s.cgaGroup ((t.engine e).reg w.a.toNat).toNat).engine e) 1 :=
  State.execA_body h hg rfl

section
variable (mine : t.mayUse e ((t.engine e).reg w.d.toNat).toNat)
  (isOpen : ((t.engine e).reg w.d.toNat).toNat < 64 ∧ t.gstate ((t.engine e).reg w.d.toNat).toNat = cgOpen)
include mine isOpen

theorem doCgw_open :
    let u := t.groupWord ((t.engine e).reg w.d.toNat).toNat ((t.engine e).reg w.a.toNat).toNat (((t.engine e).reg w.b.toNat).setWidth 32)
    doCgw e w s = u.retire e (u.engine e) 1 := by
  refine (doCgw_eq_cgOwned h hg).trans ((State.cgOwned_runs mine).trans ?_)
  simp only [if_pos isOpen]

theorem doCgt_open :
    let u := t.groupDesc ((t.engine e).reg w.d.toNat).toNat ((t.engine e).reg w.a.toNat).toNat
    doCgt e w s = u.retire e (u.engine e) 1 := by
  refine (doCgt_eq_cgOwned h hg).trans ((State.cgOwned_runs mine).trans ?_)
  simp only [if_pos isOpen]

end

/-- CGC on an Open group commits it, and g[D] takes the ticket, or all ones when the group aborts. -/
theorem doCgc_open :
    let kind := w.fn.toNat / 8
    let sel := w.fn.toNat % 8
    let g := ((t.engine e).reg w.a.toNat).toNat
    let c := t.commitGroup g kind sel ((t.engine e).reg w.b.toNat)
    kind ≤ 4 → ((kind = 0 ∨ kind = 3) → sel = 0) → (kind = 4 → sel ≤ 3) → t.mayUse e g → (g < 64 ∧ t.gstate g = cgOpen) →
      doCgc e w s = match c.1 with
        | some n => c.2.setD e w.d (w64 n)
        | none => c.2.setD e w.d (BitVec.allOnes 64) := by
  intro kind sel g c known plain base mine isOpen
  refine (State.execA_body h hg (decide_eq_true ⟨known, plain, base⟩)).trans ((State.cgOwned_runs mine).trans ((if_pos isOpen).trans ?_))
  show (match c with
    | (some n, u) => u.setD e w.d (w64 n)
    | (none, u) => u.setD e w.d (BitVec.allOnes 64)) = _
  obtain ⟨_ | n, u⟩ := c <;> rfl

end

/-- Settles O24: each instruction on a group that the engine may use, and then the two traps of one that it may not. -/
theorem commitGroupInstructions : Obligations.CommitGroupInstructions := by
  unfold Obligations.CommitGroupInstructions
  intro e s t h w hg x d a mine isOpen
  refine ⟨fun role small => ?cgopen, fun own opened => ⟨?cgw, ?cgt⟩, ?cgc, fun own => ?cga, ?cgs, fun role => ?norole,
    fun role small used other => ?owner⟩
  case cgopen =>
    have opens := doCgopen_asks h hg role small
    refine ⟨fun g u found => ?_, fun full => ?_⟩
    · rw [found] at opens
      exact next_of_eq opens
    · rw [full] at opens
      exact next_of_eq opens
  case cgw => exact next_of_eq (doCgw_open h hg own opened)
  case cgt => exact next_of_eq (doCgt_open h hg own opened)
  case cgc =>
    intro kind sel c known plain base own opened
    have commits := doCgc_open h hg known plain base own opened
    refine ⟨fun n ticket => ?_, fun aborts => ?_⟩
    · rw [ticket] at commits
      exact next_of_eq commits
    · rw [aborts] at commits
      exact next_of_eq commits
  case cga => exact next_of_eq ((doCga_eq_cgOwned h hg).trans (State.cgOwned_runs own))
  case cgs => exact next_of_eq (State.execA_body h hg rfl)
  case norole =>
    exact ⟨next_of_eq (doCgopen_norole h hg role), next_of_eq ((doCgw_eq_cgOwned h hg).trans (State.cgOwned_norole role)),
      next_of_eq ((doCgt_eq_cgOwned h hg).trans (State.cgOwned_norole role)),
      next_of_eq ((doCga_eq_cgOwned h hg).trans (State.cgOwned_norole role))⟩
  case owner => exact next_of_eq ((doCga_eq_cgOwned h hg).trans (State.cgOwned_other role small used other))

/-! ### Checkpoints (R72, R73) -/

/-- The bank and the sequence number of the next checkpoint (R72). -/
def ckNext (cur : Option (Nat × CkBank)) : Nat × Nat :=
  match cur with
  | none => (0, 1)
  | some (i, k) => (1 - i, (k.seq + 1) % 2 ^ 64)

/-- The header of a checkpoint up to its CRC (R72). -/
def ckHeader (x : Engine) (seq len role : Nat) : List Byte :=
  leBytes 8 seq ++ leBytes 8 x.line.toNat ++ leBytes 4 x.claim.toNat ++ leBytes 4 len ++ leBytes 4 role

section
variable {s t : State} {e : Eng} {w : FmtA} (h : Fetches s e 1 t) (hg : guardOf w.n w.p (t.engine e) = true)
include h hg

theorem doCkpt_writes :
    let x := t.engine e
    let a := (x.reg w.a.toNat).toNat
    let len := (x.reg w.b.toNat).toNat
    let slot := ckSlot x (t.roleOf e)
    let d := t.readLocal e a len
    let c := d.st.currentBank (slot - 0x10000000)
    let q := ckNext c.1
    let hd := ckHeader x q.2 len (c.2.roleOf e)
    let base := slot - 0x10000000 + q.1 * 0x8000
    t.holds e = true → len % 64 = 0 → 64 ≤ len → len ≤ 32704 → a % 64 = 0 → a + len ≤ localSize → inTarn slot 0x10000 = true →
      d.bad = false → doCkpt e w s = ((c.2.writeTarnGuarded (base + 64) d.bytes true).writeTarnGuarded base
        (hd ++ leBytes 4 (crc32c (hd ++ d.bytes)).toNat ++ List.replicate 32 0) true).setD e w.d (w64 q.2) := by
  intro x a len slot d c q hd base role whole lo hi aligned inside tarn good
  have hasRole : ¬(!t.holds e) = true := by simp [role]
  have inSlot : ¬(!inTarn slot 0x10000) = true := by simp [tarn]
  have length : ¬(len % 64 ≠ 0 ∨ len < 64 ∨ 32704 < len ∨ a % 64 ≠ 0) := by omega
  refine (State.execA_body h hg rfl).trans ((if_neg hasRole).trans ((if_neg length).trans ((if_neg (Nat.not_lt.mpr inside)).trans
    ((if_neg inSlot).trans ((if_neg (ne_true_of_eq_false good)).trans ?_)))))
  rfl

/-- RSTR of a slot in Tarn: the current checkpoint is copied where it fits. -/
theorem doRstr_reads :
    let x := t.engine e
    let a := (x.reg w.a.toNat).toNat
    let slot := ckSlot x ((x.reg w.b.toNat).toNat % 16)
    let c := t.currentBank (slot - 0x10000000)
    a % 64 = 0 → a < localSize → inTarn slot 0x10000 = true → doRstr e w s = match c.1 with
      | none => c.2.setD e w.d (BitVec.allOnes 64)
      | some (_, k) => if localSize < a + k.data.length then c.2.trap e .space (w64 a) 1
          else
            let u := c.2.writeLocal e a k.data
            (u.setEngine e { u.engine e with line := k.line }).setD e w.d (w64 k.data.length) := by
  intro x a slot c aligned inside tarn
  have inSlot : ¬(!inTarn slot 0x10000) = true := by simp [tarn]
  refine (State.execA_body h hg rfl).trans ((if_neg (not_not_intro aligned)).trans ((if_neg (Nat.not_le.mpr inside)).trans
    ((if_neg inSlot).trans ?_)))
  show (match c with
    | (none, u) => u.setD e w.d (BitVec.allOnes 64)
    | (some (_, k), u) => _) = _
  obtain ⟨_ | ⟨i, k⟩, u⟩ := c <;> rfl

end

/-- Settles O26: CKPT of a range that may be written, RSTR by the checkpoint that it finds. -/
theorem checkpoints : Obligations.Checkpoints := by
  unfold Obligations.Checkpoints
  intro e s t h w hg x a
  constructor
  · intro len slot d c q hd base u role whole lo hi aligned inside tarn good
    exact next_of_eq (doCkpt_writes h hg role whole lo hi aligned inside tarn good)
  · intro slot c aligned inside tarn
    have restores := doRstr_reads h hg aligned inside tarn
    refine ⟨fun absent => ?_, fun i k found fits => ?_⟩
    · rw [absent] at restores
      exact next_of_eq restores
    · rw [found] at restores
      exact next_of_eq (restores.trans (if_neg (Nat.not_lt.mpr fits)))

end Sys2Proof.Machine

/-! The statements of the family `04_commit_groups_and_profiles`: TIME groups and tables (O25), the profile messages (O35), and the frame
that stays while a job is open (O36). -/

namespace Sys2Proof.Machine

/-! ### TIME groups (R90) -/

theorem doTimeSwitch_due {s : State} {g : Fin 64} (committed : s.gstate g = cgCommitted) (time : s.get F.CMT_GBND_KIND g = 4)
    (due : (s.group g).bval.toNat ≤ s.tbNs (s.get F.CMT_GBND_SEL g)) (fresh : (s.group g).begun = false) :
    doTimeSwitch g s = (s.set F.CMT_GSTAT_STATE cgApplying g).beginGroup g :=
  if_pos ⟨committed, time, due, by simp [fresh]⟩

/-! ### TQUERY (R88, R109) -/

section
variable {s : State} {v : Word}

theorem doTquery_placed {n a : Nat} (known : tableSize (fieldOf v 0 16) = some n) (placed : s.bankAddr (fieldOf v 0 16) true = some a) :
    doTquery v s =
      ((s.set F.CMT_TANS_VALID 1).set F.CMT_TANS_LIVE (s.bankB (fieldOf v 0 16)).toNat).set F.CMT_TANS_STANDBY (a / 64) := by
  simp only [doTquery, known, placed]

theorem doTquery_unknown (unknown : tableSize (fieldOf v 0 16) = none) : doTquery v s = s.wr 0x30008 0 := by
  simp only [doTquery, unknown]
  rfl

end

/-- Settles O25: the switch of a TIME group that is due, then TQUERY of a table that is placed and of an id that no table has. -/
theorem timeGroupsAndTables : Obligations.TimeGroupsAndTables := by
  unfold Obligations.TimeGroupsAndTables
  intro s g v
  refine ⟨fun committed time due fresh => ?switch, fun reaches n a known placed => ?placed, fun reaches unknown => ?unknown⟩
  case switch => exact next_of_eq (doTimeSwitch_due committed time due fresh)
  case placed => exact next_busWrite reaches (doTquery_placed known placed)
  case unknown => exact next_busWrite reaches (doTquery_unknown unknown)

/-! ### PRF_STAGE (R103) -/

section
variable {s : State} {m : Msg} {img : List Byte} {f : Frame} {p : Profile} (parsed : parseProfile img f = some p)
  (format : verFormat p.version = 1) (newer : s.prf.standing.any (fun q => decide (verSerial p.version ≤ verSerial q.version)) = false)
include parsed format newer

/-- An image of format 1 that is newer than the Standing is judged by its check code. -/
theorem State.stageImage_newer : s.stageImage m img f =
    if s.stageCheck p ≠ 0 then s.complete m .check 0 (w32 (s.stageCheck p))
    else (({ s with prf := { s.prf with draft := some p } } : State).setPver 4 (some p)).complete m .ok p.version := by
  simp only [State.stageImage, parsed, format, newer, ne_eq, not_true_eq_false, Bool.false_eq_true, or_self, if_false]

theorem State.stageImage_draft (passes : s.stageCheck p = 0) : s.stageImage m img f =
    (({ s with prf := { s.prf with draft := some p } } : State).setPver 4 (some p)).complete m .ok p.version :=
  (State.stageImage_newer parsed format newer).trans (if_neg (not_not_intro passes))

theorem State.stageImage_check (fails : s.stageCheck p ≠ 0) : s.stageImage m img f = s.complete m .check 0 (w32 (s.stageCheck p)) :=
  (State.stageImage_newer parsed format newer).trans (if_pos fails)

end

section
variable {s : State} {tok : Nat} {m : Msg} (started : s.msgOf tok 0x10 = some m)
include started

theorem doPrfStage_unread : doPrfStage tok none s = s.hostFail m := by
  simp only [doPrfStage, started]

section
variable {d : ImageData}

theorem doPrfStage_unsigned (bad : (s.unwrap (d.bytes.take m.len)).1 ≠ 0) :
    doPrfStage tok (some d) s = (s.complete m .signature).audit 8 [w32 (s.unwrap (d.bytes.take m.len)).1, 2, 0] := by
  simp only [doPrfStage, started]
  exact if_pos bad

/-- An image whose signature passes is staged, once its security version number is committed where images are signed (R477). -/
theorem doPrfStage_signed (good : (s.unwrap (d.bytes.take m.len)).1 = 0) :
    let bs := d.bytes.take m.len
    let u := if s.lcs = lcProvisioned ∨ s.lcs = lcCertified then s.commitSvn (bs.take wrapSize) else s
    doPrfStage tok (some d) s = u.stageImage m (s.unwrap bs).2 d.frame := by
  simp only [doPrfStage, started]
  exact if_neg (not_not_intro good)

end

end

/-! ### The moves of a profile (R103) -/

section
variable {s : State} {tok : Nat} {m : Msg} {p : Profile} (free : s.prf.pend.any (fun d => d.msg.any (fun x => x.tok == tok)) = false)
include free

section
variable (started : s.msgOf tok 0x11 = some m) (range : (m.arg 0).toNat < 65536)
include started range

theorem doPrfProve_moves (draft : s.prf.draft = some p) (idle : s.prf.proving = none) :
    doPrfProve tok s = s.moveProfile p (some m) 0 (m.arg 0).toNat := by
  simp [doPrfProve, started, free, draft, idle, Nat.not_le.mpr range]

theorem doPrfProve_state (refused : s.prf.draft = none ∨ s.prf.proving ≠ none) : doPrfProve tok s = s.complete m .state := by
  simp only [doPrfProve, started, free, Bool.false_eq_true, if_false, Nat.not_le.mpr range]
  cases draft : s.prf.draft with
  | none => rfl
  | some p =>
    have proving : s.prf.proving ≠ none := refused.resolve_left (by simp [draft])
    exact if_pos (Option.isSome_iff_ne_none.mpr proving)

end

/-- An abandonment applies the Standing, or the Starter where there is none. -/
theorem doPrfAbandon_moves (started : s.msgOf tok 0x13 = some m) (proving : s.prf.proving ≠ none) :
    doPrfAbandon tok s = s.moveProfile (s.prf.standing.getD s.prf.starter) (some m) 1 0 := by
  simp [doPrfAbandon, started, free, proving, State.fallback]

theorem doPrfAbandon_state (started : s.msgOf tok 0x13 = some m) (idle : s.prf.proving = none) :
    doPrfAbandon tok s = s.complete m .state := by
  simp [doPrfAbandon, started, free, idle]

theorem doPrfRollback_moves (started : s.msgOf tok 0x14 = some m) (previous : s.prf.previous = some p) (idle : s.prf.proving = none) :
    doPrfRollback tok s = s.moveProfile p (some m) 2 0 := by
  simp [doPrfRollback, started, free, previous, idle]

theorem doPrfStarter_moves (started : s.msgOf tok 0x15 = some m) :
    doPrfStarter tok s = s.moveProfile s.prf.starter (some m) 3 0 := by
  simp [doPrfStarter, started, free]

end

/-! ### PRF_PROMOTE and PRF_STATUS (R103, R108, R130) -/

section
variable {s : State} {tok : Nat} {m : Msg} (started : s.msgOf tok 0x12 = some m)
include started

theorem doPrfPromote_promotes {p : Profile} (proving : s.prf.proving = some p) : doPrfPromote tok s =
    ({ s with prf := { s.prf with standing := some p, previous := s.prf.standing, proving := none, watchEnd := none,
                                  flash := p :: s.prf.standing.toList } } : State).showPver.complete m .ok p.version := by
  simp only [doPrfPromote, started, proving]

theorem doPrfPromote_state (idle : s.prf.proving = none) : doPrfPromote tok s = s.complete m .state := by
  simp only [doPrfPromote, started, idle]

end

section
variable {s : State} {tok : Nat} {m : Msg} (started : s.msgOf tok 0x16 = some m)
include started

theorem doPrfStatus_short {ok : Bool} (short : m.len < 32) : doPrfStatus tok ok s = s.complete m .badfield := by
  simp only [doPrfStatus, started, short, if_true]

theorem doPrfStatus_noGroup (fits : 32 ≤ m.len) (noGroup : s.prf.pend = none) : doPrfStatus tok true s =
    (s.writeHost m.ptr ((List.range 5).flatMap (fun k => leBytes 4 (s.get F.CMT_PVER_VERSION k)) ++ (leBytes 4 0xFFFFFFFF ++ leBytes 4 0) ++
      leBytes 4 0)).complete m .ok (w32 (s.get F.CMT_PVER_VERSION 0)) := by
  simp only [doPrfStatus, started, noGroup, Nat.not_lt.mpr fits, Bool.not_true, Bool.false_eq_true, if_false]

end

/-- Settles O35: the image that is staged, the four moves, promotion and the status record, each by the conditions of its row. -/
theorem profileMessages : Obligations.ProfileMessages := by
  unfold Obligations.ProfileMessages
  intro s tok m p
  refine ⟨?stage, ?moves, fun started => ⟨fun proving => ?promote, fun idle => ?promoteRefused⟩,
    fun started => ⟨fun short ok => ?statusShort, fun fits noGroup => ?status⟩⟩
  case stage =>
    intro started d bs u
    refine ⟨?unread, fun bad => ?unsigned, fun good parsed format newer keeps => ?signed⟩
    case unread => exact next_of_eq (doPrfStage_unread started)
    case unsigned => exact next_of_eq (doPrfStage_unsigned started bad)
    case signed =>
      have staged : doPrfStage tok (some d) s = u.stageImage m (s.unwrap bs).2 d.frame := doPrfStage_signed started good
      rw [← keeps] at newer
      exact ⟨fun passes => next_of_eq (staged.trans (State.stageImage_draft parsed format newer passes)),
        fun fails => next_of_eq (staged.trans (State.stageImage_check parsed format newer fails))⟩
  case moves =>
    intro waits free
    refine ⟨fun started range draft idle => ?prove, fun started range refused => ?proveRefused, fun started proving => ?abandon,
      fun started idle => ?abandonRefused, fun started previous idle => ?rollback, fun started => ?starter⟩
    case prove => exact next_of_eq (doPrfProve_moves free started range draft idle)
    case proveRefused => exact next_of_eq (doPrfProve_state free started range refused)
    case abandon => exact next_of_eq (doPrfAbandon_moves free started proving)
    case abandonRefused => exact next_of_eq (doPrfAbandon_state free started idle)
    case rollback => exact next_of_eq (doPrfRollback_moves free started previous idle)
    case starter => exact next_of_eq (doPrfStarter_moves free started)
  case promote => exact next_of_eq (doPrfPromote_promotes started proving)
  case promoteRefused => exact next_of_eq (doPrfPromote_state started idle)
  case statusShort => exact next_of_eq (doPrfStatus_short started short)
  case status => exact next_of_eq (doPrfStatus_noGroup started fits noGroup)

/-! ### The frame while a job is open (R102, R105) -/

section
variable {s : State} {m : Msg} {p : Profile} {kind watch : Nat}

/-- A completion leaves the profiles and their group as they were. -/
@[simp] theorem State.complete_prf {st : Status} {r0 r1 : Word} : (s.complete m st r0 r1).prf = s.prf := rfl

theorem State.prfSettle_noGroup (noGroup : s.prf.pend = none) : s.prfSettle = s := by
  simp only [State.prfSettle, noGroup]

theorem State.frameRefused_of_job (job : s.job.job ≠ none) (differs : p.frame ≠ s.liveFrame ∨ s.settingsStand p = false) :
    s.frameRefused p = true := by
  simpa [State.frameRefused, Option.isSome_iff_ne_none, job] using differs

/-- A move that R102 or R105 refuses ends with FRAME, and where no group waits there is nothing to settle after it. -/
theorem State.moveProfile_refused (refused : s.frameRefused p = true) (noGroup : s.prf.pend = none) :
    s.moveProfile p (some m) kind watch = s.complete m .frame := by
  have ends : s.applyProfile p (some m) kind watch = s.complete m .frame := if_pos refused
  calc s.moveProfile p (some m) kind watch
      = (s.complete m .frame).prfSettle := congrArg State.prfSettle ends
    _ = s.complete m .frame := State.prfSettle_noGroup (by simp [noGroup])

end

/-- Settles O36: each message makes its move, and the move is refused. -/
theorem frameStaysWhileAJobIsOpen : Obligations.FrameStaysWhileAJobIsOpen := by
  unfold Obligations.FrameStaysWhileAJobIsOpen
  intro s tok m p job differs noGroup
  have free : s.prf.pend.any (fun d => d.msg.any (fun x => x.tok == tok)) = false := by simp [noGroup]
  have refused : ∀ kind watch, s.moveProfile p (some m) kind watch = s.complete m .frame := fun _ _ =>
    State.moveProfile_refused (State.frameRefused_of_job job differs) noGroup
  refine ⟨fun started range draft idle => ?prove, fun started proving standing => ?abandon,
    fun started previous idle => ?rollback, fun started starter => ?starter⟩
  case prove => exact next_of_eq ((doPrfProve_moves free started range draft idle).trans (refused ..))
  case abandon =>
    have moves := doPrfAbandon_moves free started proving
    rw [standing] at moves
    exact next_of_eq (moves.trans (refused ..))
  case rollback => exact next_of_eq ((doPrfRollback_moves free started previous idle).trans (refused ..))
  case starter =>
    have moves := doPrfStarter_moves free started
    rw [starter] at moves
    exact next_of_eq (moves.trans (refused ..))

end Sys2Proof.Machine

/-! The statements of the family `05_host_link_and_negotiation`: what reset leaves (O6), the host's windows (O29), negotiation and the link
reset (O30), queue pairs and completions (O31, O32), the messages that read or arm (O33, O34), jobs and printing (O37), and INGEST (O38). -/

namespace Sys2Proof.Machine

/-! ### Reset values (R136, R418, R433, R450, R463, R467, R514) -/

/-- Nothing is stored over the reset columns yet, so that a register reads as its column. -/
theorem State.rd_reset {off : Nat} : State.reset.rd off = regReset off := rfl

theorem Memory.wf_reset : Memory.wf State.reset = true := rfl

/-- Every code has a row of its own, and in CCFG the class of that row (R433). -/
theorem reset_codeClasses : ∀ row ∈ (List.range 21).flatMap codeRows,
    State.reset.get F.FLT_CCFG_CLASS (row.code / 256) (row.code % 256) = row.dflt ∧ row.lo ≤ row.dflt ∧ row.dflt ≤ row.hi := by
  decide +kernel

/-- Settles O6: the tables of reset are empty, so that what is left is to evaluate the reset columns of the fields and codes named. -/
theorem resetValues : Obligations.ResetValues := by
  unfold Obligations.ResetValues
  refine ⟨Memory.wf_reset, rfl, ?dev, rfl, rfl, fun _ => State.rd_reset, ?fields, reset_codeClasses⟩
  case dev => decide +kernel
  case fields => decide +kernel

/-! ### BAR0 and BAR2 (R114 to R116) -/

section
variable {s : State} {write : Bool} {off : BitVec 21} {size : Nat}

theorem doBar0HoleAccess_size (bad : size ≠ 4 ∨ off.toNat % 4 ≠ 0) : doBar0HoleAccess write off size s =
    (if write then s else s.hostRead 0xFFFFFFFF).report C.ring_bar0_size (mkArg none none (off.toNat / 4)) :=
  if_pos bad

theorem doBar0HoleAccess_hole (word : size = 4) (aligned : off.toNat % 4 = 0) (hole : regBehind off.toNat = none) :
    doBar0HoleAccess write off size s =
      (if write then s else s.hostRead 0).report C.ring_bar0_hole (mkArg none none (off.toNat / 4)) :=
  (if_neg (by simp [word, aligned])).trans (if_pos (by simp [hole]))

end

section
variable {s : State} {a n : Nat} {bs : List (Option Byte)}

theorem State.bar2Read_tarn (retired : s.lcs ≠ lcRetired) (pos : 0 < n) (inside : a < tarnSize) :
    s.bar2Read a n = (s.readTarn a n).st.bar2Result (s.readTarn a n).bytes (s.readTarn a n).bad :=
  (if_neg pos.ne').trans ((if_neg retired).trans (if_pos inside))

theorem State.bar2Write_tarn (retired : s.lcs ≠ lcRetired) (nonempty : bs ≠ []) (inside : a < tarnSize) :
    s.bar2Write a bs = (enabledRuns a bs).foldl (fun s e => s.writeTarnGuarded e.1 e.2 true) s :=
  (if_neg nonempty).trans ((if_neg retired).trans (if_pos inside))

/-- A request that ends inside Tarn has no part in the aperture. -/
theorem bar2Part_tarn (inside : a + n ≤ tarnSize) : (if a < tarnSize then min n (tarnSize - a) else n) = n := by
  split <;> omega

end

section
variable {s : State} {a : BitVec 26}

theorem doBar2Request_reads_tarn {n : Nat} (retired : s.lcs ≠ lcRetired) (pos : 0 < n) (inside : a.toNat + n ≤ tarnSize) :
    let t : State := { s with host := { s.host with rdata2 := [], poisoned := false } }
    doBar2Request a (.read n) s = (t.readTarn a.toNat n).st.bar2Result (t.readTarn a.toNat n).bytes (t.readTarn a.toNat n).bad := by
  intro t
  have whole : doBar2Request a (.read n) s = (t.bar2Read a.toNat n).bar2Read (a.toNat + n) (n - n) := by
    simp only [doBar2Request, bar2Part_tarn inside]
    rfl
  rw [whole, Nat.sub_self, State.bar2Read_tarn (s := t) retired pos (by omega)]
  rfl

theorem doBar2Request_writes_tarn {bs : List (Option Byte)} (alive : s.dev ≠ stGrave) (retired : s.lcs ≠ lcRetired) (nonempty : bs ≠ [])
    (inside : a.toNat + bs.length ≤ tarnSize) : doBar2Request a (.write bs) s =
      (enabledRuns a.toNat bs).foldl (fun s e => s.writeTarnGuarded e.1 e.2 true) s := by
  have pos : 0 < bs.length := List.length_pos_iff.mpr nonempty
  have whole : doBar2Request a (.write bs) s = (s.bar2Write a.toNat bs).bar2Write (a.toNat + bs.length) [] := by
    simp only [doBar2Request, alive, if_false, bar2Part_tarn inside, List.take_length, List.drop_length]
  rw [whole, State.bar2Write_tarn retired nonempty (by omega)]
  rfl

/-- The aperture is enabled where its feature is (R118). -/
theorem doAperWrite_eq {v : Word} : doAperWrite v s = if fieldOf v 31 1 = 1 ∧ !s.feature 8 then
    s.report C.ring_feature (mkArg none none 8) else s.swWrite 0x10000 v := rfl

end

/-- Settles O29: the two ways in which BAR0 has no register for an access, a request that ends inside Tarn, and the aperture's enable. -/
theorem hostWindows : Obligations.HostWindows := by
  unfold Obligations.HostWindows
  intro s off a size n v bs
  refine ⟨fun bad => ?size, fun word aligned hole => ?hole, ?read, fun alive retired nonempty inside => ?write,
    fun reaches => ⟨fun may => ?enabled, fun en noFeature => ?refused⟩⟩
  case size => exact ⟨next_of_eq (doBar0HoleAccess_size bad), next_of_eq (doBar0HoleAccess_size bad)⟩
  case hole => exact ⟨next_of_eq (doBar0HoleAccess_hole word aligned hole), next_of_eq (doBar0HoleAccess_hole word aligned hole)⟩
  case read =>
    intro t retired pos inside r
    exact next_of_eq (doBar2Request_reads_tarn retired pos inside)
  case write => exact next_of_eq (doBar2Request_writes_tarn alive retired nonempty inside)
  case enabled =>
    have allowed : ¬(fieldOf v 31 1 = 1 ∧ !s.feature 8) := by
      obtain zero | feature := may
      · simp [zero]
      · simp [feature]
    exact next_busWrite reaches (doAperWrite_eq.trans (if_neg allowed))
  case refused => exact next_busWrite reaches (doAperWrite_eq.trans (if_pos ⟨en, by simp [noFeature]⟩))

/-! ### Negotiation (R118, R119) -/

section
variable {s : State} {v : Word}

theorem doNegGo_done (done : s.on F.DEV_NEG_DONE = true) : doNegGo v s = s.swWrite 0x1c v :=
  if_pos (by simp [done])

/-- GO in Negotiate judges the request as it stands after the write. -/
theorem doNegGo_judges (go : fieldOf v 31 1 = 1) (undecided : s.on F.DEV_NEG_DONE = false) (st : (s.swWrite 0x1c v).dev = stNegotiate) :
    let u := s.swWrite 0x1c v
    let req := u.get F.DEV_FEATREQ_BITS
    let ver := u.get F.DEV_NEG_IFVER
    doNegGo v s =
      if Nat.land req (u.get F.DEV_FEATOFF_BITS) = req ∧ bitN req 0 = 1 ∧ u.get F.DEV_NEG_IFMIN ≤ ver ∧ ver ≤ u.get F.DEV_NEG_IFMAX then
        ((u.set F.DEV_FEATACT_BITS req).set F.DEV_NEG_DONE 1).setDevQuiet stReady
      else u.set F.DEV_NEG_REFUSED 1 := by
  have off : R.DEV_NEG.off 0 0 = 0x1c := rfl
  simp [doNegGo, off, go, undecided, st, and_assoc]

end

/-! ### The link reset (R119) -/

section
variable {s : State} {off : Nat}

theorem State.rd_set_ne {f : Fld} {v i j : Nat} (h : off ≠ f.off i j) : (s.set f v i j).rd off = s.rd off :=
  State.rd_wr_ne h

/-- A vector leaves every register but the pending bits as it was, and of the host's state all but the count of its interrupts. -/
theorem State.rd_raiseVec {v : Nat} (h : off < 0x1f0000) : (s.raiseVec v).rd off = s.rd off := by
  unfold State.raiseVec
  split
  · exact State.rd_set_ne (by simp only [Fld.off, F.MSIX_PBA_PENDING]; omega)
  · rfl

theorem State.raiseVec_host {v : Nat} : ∃ r, (s.raiseVec v).host = { s.host with raised := r } := by
  unfold State.raiseVec
  split
  · exact ⟨s.host.raised, rfl⟩
  · exact ⟨_, rfl⟩

theorem State.rd_setDevQuiet {st : Nat} (h : off < 0x1f0000) (other : off ≠ 4) : (s.setDevQuiet st).rd off = s.rd off := by
  unfold State.setDevQuiet
  split
  · rfl
  · exact (State.rd_raiseVec h).trans (State.rd_set_ne other)

theorem State.setDevQuiet_host {st : Nat} : ∃ r, (s.setDevQuiet st).host = { s.host with raised := r } := by
  unfold State.setDevQuiet
  split
  · exact ⟨s.host.raised, rfl⟩
  · exact State.raiseVec_host

theorem State.setDevQuiet_dev {st : Nat} (h : st < 16) : (s.setDevQuiet st).dev = st := by
  unfold State.setDevQuiet
  split
  · assumption
  · rw [State.raiseVec_dev, State.dev, State.get_set (by decide)]
    exact Nat.mod_eq_of_lt h

/-- The registers of the link: the RING block, the vectors and DEV.NEG. -/
def isLinkReg (k : Nat) : Bool := (0x10000 ≤ k && k < 0x20000) || (0x1f0000 ≤ k && k < 0x200000) || k == 0x1c

theorem State.rd_resetRing : s.resetRing.rd off = Tab.get regReset (Tab.drop isLinkReg s.regs) off := rfl

theorem State.rd_resetRing_in (h : (0x10000 ≤ off ∧ off < 0x20000) ∨ off = 0x1c) : s.resetRing.rd off = regReset off := by
  have link : isLinkReg off = true := by simp [isLinkReg]; omega
  exact State.rd_resetRing.trans (Tab.get_drop link)

theorem State.rd_resetRing_out (wf : Memory.wf s = true) (h : off < 0x10000) (other : off ≠ 0x1c) : s.resetRing.rd off = s.rd off := by
  have regs : Tab.wf regReset s.regs = true := by
    simp only [Memory.wf, Bool.and_eq_true] at wf
    tauto
  have apart : isLinkReg off = false := by simp [isLinkReg]; omega
  exact State.rd_resetRing.trans (Tab.get_drop_ne regs apart)

end

/-- What the loss of the link leaves before the device leaves Ready: the block at reset, and no message with a completion to come. -/
def State.linkLost (s : State) : State :=
  let t := s.resetRing.mapMsgs Msg.dead
  { t with host := { t.host with
    started := (cutOff t.host.started t.ing.jobs).filter (fun m => m.opc ≠ 0x03),
    held := [], phase := [], times := [], cqFullRep := [], armed := [] } }

/-- Ready becomes Negotiate, with the features on offer again. -/
def State.leaveReady (s : State) : State := if s.dev = stReady then s.setFeatoff.setDevQuiet stNegotiate else s

section
variable {s : State} {off : Nat}

theorem doPcieReset_eq {kind : LinkReset} : doPcieReset kind s = s.linkLost.leaveReady.report C.ring_link_reset (mkArg none none 0) := rfl

theorem State.linkLost_rd : s.linkLost.rd off = s.resetRing.rd off := rfl

theorem State.linkLost_dead {m : Msg} (h : m ∈ s.linkLost.host.started) : m.live = false := by
  obtain ⟨x, -, rfl⟩ := List.mem_map.mp (List.mem_filter.mp h).1
  rfl

theorem State.leaveReady_host : ∃ r, s.leaveReady.host = { s.host with raised := r } := by
  unfold State.leaveReady
  split
  · exact State.setDevQuiet_host
  · exact ⟨s.host.raised, rfl⟩

theorem State.leaveReady_rd (h : off < 0x1f0000) (noState : off ≠ 4) (noOffer : off ≠ 0x10) : s.leaveReady.rd off = s.rd off := by
  unfold State.leaveReady
  split
  · exact (State.rd_setDevQuiet h noState).trans (State.rd_set_ne noOffer)
  · rfl

theorem State.leaveReady_dev : s.leaveReady.dev = if s.dev = stReady then stNegotiate else s.dev := by
  unfold State.leaveReady
  split
  · exact State.setDevQuiet_dev (by decide)
  · rfl

theorem State.linkLost_dev (wf : Memory.wf s = true) : s.linkLost.dev = s.dev :=
  congrArg (fieldOf · 28 4) (State.linkLost_rd.trans (State.rd_resetRing_out wf (by decide) (by decide)))

end

/-- Settles O30: a write of DEV.NEG that is judged or is late, and what the loss of the link leaves. -/
theorem negotiation : Obligations.Negotiation := by
  unfold Obligations.Negotiation
  intro s v kind
  refine ⟨fun reaches => ?neg, fun wf => ?reset⟩
  case neg =>
    intro u req ver ok
    refine ⟨fun go undecided st good => ?_, fun go undecided st bad => ?_, fun done => ?_⟩
    · exact next_busWrite reaches ((doNegGo_judges go undecided st).trans (if_pos good))
    · exact next_busWrite reaches ((doNegGo_judges go undecided st).trans (if_neg bad))
    · exact next_busWrite reaches (doNegGo_done done)
  case reset =>
    obtain ⟨r, host⟩ := State.leaveReady_host (s := s.linkLost)
    refine ⟨_, rfl, s.linkLost.leaveReady, doPcieReset_eq, ?_, ?_, ?_, ?_, ?_, ?_⟩
    · rw [host]; rfl
    · rw [host]; rfl
    · rw [host]; exact fun _ => State.linkLost_dead
    · exact (State.leaveReady_rd (by decide) (by decide) (by decide)).trans (State.rd_resetRing_in (Or.inr rfl))
    · exact fun off lo hi =>
        (State.leaveReady_rd (by omega) (by omega) (by omega)).trans (State.rd_resetRing_in (Or.inl ⟨lo, hi⟩))
    · rw [State.leaveReady_dev, State.linkLost_dev wf]

/-! ### Queue pairs and their doorbells (R120 to R123) -/

section
variable {s : State} {q : Fin 64} {v : Word}

theorem doQueuePairConfig_enabled (was : s.on F.RING_QCFG_EN q = true) :
    let u := s.set F.RING_QCFG_IV (fieldOf v 16 7) q
    doQueuePairConfig q v s = if fieldOf v 31 1 = 1 then u else (u.set F.RING_QCFG_EN 0 q).stopQueue q := by
  simp only [doQueuePairConfig, was, if_true]

/-- A queue pair as a write configures it while it is not enabled (R120). -/
def State.queueConfigured (s : State) (q : Nat) (v : Word) : State :=
  let w := (s.set F.RING_QCFG_IV (fieldOf v 16 7) q).set F.RING_QCFG_SIZE (fieldOf v 0 12) q
  if 16 ≤ q then w else w.set F.RING_QCFG_OWN (fieldOf v 29 1) q

/-- A write that enables a queue pair needs the feature of an engine-owned one (R120). -/
theorem doQueuePairConfig_enables (was : s.on F.RING_QCFG_EN q = false) (en : fieldOf v 31 1 = 1) :
    let x := s.queueConfigured q v
    doQueuePairConfig q v s = if x.qOwn q && !x.feature 1 then x.report C.ring_feature (mkArg none (some q.val) 1)
      else (x.set F.RING_QCFG_EN 1 q).startQueue q := by
  simp only [doQueuePairConfig, was, en, Bool.false_eq_true, if_false, beq_self_eq_true, Bool.or_true, Bool.and_true, if_true]
  rfl

theorem doSqTailDoorbell_disabled (off : s.on F.RING_QCFG_EN q = false) :
    doSqTailDoorbell q v s = s.report C.ring_doorbell_range (mkArg none (some q.val) (fieldOf v 0 12)) :=
  if_pos (by simp [off])

theorem doSqTailDoorbell_enabled (on : s.on F.RING_QCFG_EN q = true) : doSqTailDoorbell q v s =
    if s.qsize q < fieldOf v 0 12 then
      (s.set F.RING_QCFG_ERR 1 q).report C.ring_doorbell_range (mkArg none (some q.val) (fieldOf v 0 12))
    else (s.set F.RING_SQTAIL_INDEX (fieldOf v 0 12) q).postEvent (0x050 + q.val) :=
  if_neg (by simp [on])

/-- The registers of a CQ whose head moves to `h`: a head that consumes makes a full CQ not full (R122). -/
def State.cqHeadMoved (s : State) (q h : Nat) : State :=
  let t := s.set F.RING_CQHEAD_INDEX h q
  if 0 < ringDist (s.qsize q + 1) (s.get F.RING_CQHEAD_INDEX q) h then t.set F.RING_QSTAT_CQFULL 0 q else t

section
variable (on : s.on F.RING_QCFG_EN q = true)
include on

theorem doCqHeadDoorbell_refuses
    (bad : s.qsize q + 1 ≤ fieldOf v 0 12 ∨ ringDist (s.qsize q + 1) (s.get F.RING_CQHEAD_INDEX q) (s.get F.RING_QSTAT_CQTAIL q) <
      ringDist (s.qsize q + 1) (s.get F.RING_CQHEAD_INDEX q) (fieldOf v 0 12)) :
    doCqHeadDoorbell q v s = (s.set F.RING_QCFG_ERR 1 q).report C.ring_doorbell_range (mkArg none (some q.val) (fieldOf v 0 12)) :=
  (if_neg (by simp [on])).trans (if_pos bad)

theorem doCqHeadDoorbell_moves
    (good : ¬(s.qsize q + 1 ≤ fieldOf v 0 12 ∨ ringDist (s.qsize q + 1) (s.get F.RING_CQHEAD_INDEX q) (s.get F.RING_QSTAT_CQTAIL q) <
      ringDist (s.qsize q + 1) (s.get F.RING_CQHEAD_INDEX q) (fieldOf v 0 12))) :
    ∃ x, doCqHeadDoorbell q v s = { s.cqHeadMoved q (fieldOf v 0 12) with host := x } :=
  ⟨_, (if_neg (by simp [on])).trans (if_neg good)⟩

end

theorem State.cqHeadMoved_head {k : Nat} : (s.cqHeadMoved k (fieldOf v 0 12)).get F.RING_CQHEAD_INDEX k = fieldOf v 0 12 := by
  have head : (s.set F.RING_CQHEAD_INDEX (fieldOf v 0 12) k).get F.RING_CQHEAD_INDEX k = fieldOf v 0 12 :=
    (State.get_set (by decide)).trans (Nat.mod_eq_of_lt (fieldOf_lt ..))
  unfold State.cqHeadMoved
  split
  · exact (State.get_set_off (by simp only [Fld.off, F.RING_CQHEAD_INDEX, F.RING_QSTAT_CQFULL]; omega)).trans head
  · exact head

theorem State.cqHeadMoved_full {k h : Nat} (consumes : 0 < ringDist (s.qsize k + 1) (s.get F.RING_CQHEAD_INDEX k) h) :
    (s.cqHeadMoved k h).get F.RING_QSTAT_CQFULL k = 0 := by
  simp only [State.cqHeadMoved, consumes, if_true]
  exact State.get_set (by decide)

theorem State.cqHeadMoved_tail {k h : Nat} : (s.cqHeadMoved k h).get F.RING_QSTAT_CQTAIL k = s.get F.RING_QSTAT_CQTAIL k := by
  have tail : (s.set F.RING_CQHEAD_INDEX h k).get F.RING_QSTAT_CQTAIL k = s.get F.RING_QSTAT_CQTAIL k :=
    State.get_set_off (by simp only [Fld.off, F.RING_CQHEAD_INDEX, F.RING_QSTAT_CQTAIL]; omega)
  unfold State.cqHeadMoved
  split
  · exact (State.get_set_ne (by decide) (by decide)).trans tail
  · exact tail

end

/-! ### The start of an entry (R128, R129) -/

/-- The message of the oldest pending entry of a queue pair. -/
def State.entryMsg (s : State) (q : Nat) (ws : List Word) : Msg :=
  { tok := s.host.nextTok, q := q, words := ws, sqhead := (s.get F.RING_QSTAT_SQHEAD q + 1) % (s.qsize q + 1), live := true }

/-- The head of a queue pair moves past its oldest pending entry, whose message takes the next token. -/
def State.entryTaken (s : State) (q : Nat) : State :=
  let u := s.set F.RING_QSTAT_SQHEAD ((s.get F.RING_QSTAT_SQHEAD q + 1) % (s.qsize q + 1)) q
  { u with host := { u.host with nextTok := u.host.nextTok + 1 } }

section
variable {s : State} {q : Fin 64} {ws : List Word}

/-- Neither a fence nor a message of the same series holds the entry back (R129). -/
theorem State.entry_free
    (unfenced : ¬((s.entryMsg q ws).fence = true ∧ ∃ x ∈ s.host.started, x.q = q.val ∧ x.live = true))
    (alone : ¬(isSerial (s.entryMsg q ws).opc = true ∧ q.val = 0 ∧ ∃ x ∈ s.host.started, isSerial x.opc = true)) :
    ¬(((s.entryMsg q ws).fence && s.host.started.any (fun x => x.q == q.val && x.live)) ||
    (isSerial (s.entryMsg q ws).opc && q.val == 0 && s.host.started.any (fun x => isSerial x.opc))) = true := by
  simpa [and_assoc] using And.intro unfenced alone

variable (served : s.serves q = true)
include served

/-- An entry that cannot be read ends with HOSTDMA, with a CID that is a free value. -/
theorem doEntryStart_unread :
    let head := (s.get F.RING_QSTAT_SQHEAD q + 1) % (s.qsize q + 1)
    let f := s.drawFree
    let d : Msg := { tok := f.2.host.nextTok, q := q, words := [f.1 &&& 0xFFFF], sqhead := head, live := true }
    doEntryStart q none s =
      ((f.2.set F.RING_QSTAT_SQHEAD head q).complete d .hostdma).report C.ring_host_dma (mkArg none (some q.val) 0) :=
  if_neg (by simp [served])

section
variable (unfenced : ¬((s.entryMsg q ws).fence = true ∧ ∃ x ∈ s.host.started, x.q = q.val ∧ x.live = true))
  (alone : ¬(isSerial (s.entryMsg q ws).opc = true ∧ q.val = 0 ∧ ∃ x ∈ s.host.started, isSerial x.opc = true))
include unfenced alone

theorem doEntryStart_ends {st : Status} (ends : startStatus (s.entryMsg q ws) = some st) :
    doEntryStart q (some ws) s = (s.entryTaken q).complete (s.entryMsg q ws) st := by
  refine (if_neg (by simp [served])).trans ((if_neg (State.entry_free unfenced alone)).trans ?_)
  simp only [State.entryMsg] at ends ⊢
  simp only [ends]
  rfl

theorem doEntryStart_starts (starts : startStatus (s.entryMsg q ws) = none) :
    let w := s.entryTaken q
    doEntryStart q (some ws) s = { w with host := { w.host with started := w.host.started ++ [s.entryMsg q ws] } } := by
  refine (if_neg (by simp [served])).trans ((if_neg (State.entry_free unfenced alone)).trans ?_)
  simp only [State.entryMsg] at starts ⊢
  simp only [starts]
  rfl

end

end

/-- Settles O31: a write of each register of a queue pair, then the entry that is read and the one that is not. -/
theorem queuePairs : Obligations.QueuePairs := by
  unfold Obligations.QueuePairs
  refine ⟨fun s q v => ⟨fun reaches => ?config, fun reaches => ?tail, fun reaches on => ?head⟩, fun s q ws served => ?entry⟩
  case config =>
    intro u
    refine ⟨fun was stays => ?_, fun was stops => ?_, fun was => ?_⟩
    · exact next_busWrite reaches ((doQueuePairConfig_enabled was).trans (if_pos stays))
    · exact next_busWrite reaches ((doQueuePairConfig_enabled was).trans (if_neg (by omega)))
    · intro w x en
      refine ⟨fun may => ?_, fun own noFeature => ?_⟩
      · have allowed : ¬(x.qOwn q && !x.feature 1) = true := by simpa [or_iff_not_imp_left] using may
        exact next_busWrite reaches ((doQueuePairConfig_enables was en).trans (if_neg allowed))
      · have refused : (x.qOwn q && !x.feature 1) = true := by simp [own, noFeature]
        exact next_busWrite reaches ((doQueuePairConfig_enables was en).trans (if_pos refused))
  case tail =>
    intro t
    refine ⟨fun on fits => ?_, fun on beyond => ?_, fun off => ?_⟩
    · exact next_busWrite reaches ((doSqTailDoorbell_enabled on).trans (if_neg (Nat.not_lt.mpr fits)))
    · exact next_busWrite reaches ((doSqTailDoorbell_enabled on).trans (if_pos beyond))
    · exact next_busWrite reaches (doSqTailDoorbell_disabled off)
  case head =>
    intro h n old far
    refine ⟨fun bad => ?_, fun inside near => ?_⟩
    · exact next_busWrite reaches (doCqHeadDoorbell_refuses on bad)
    · obtain ⟨x, moves⟩ := doCqHeadDoorbell_moves on (not_or.mpr ⟨Nat.not_le.mpr inside, near⟩)
      exact ⟨_, next_busWrite reaches moves, State.cqHeadMoved_head, State.cqHeadMoved_full, State.cqHeadMoved_tail⟩
  case entry =>
    intro head m u w
    refine ⟨fun unfenced alone => ⟨fun st ends => ?_, fun starts => ?_⟩, ?_⟩
    · exact next_of_eq (doEntryStart_ends served unfenced alone ends)
    · exact next_of_eq (doEntryStart_starts served unfenced alone starts)
    · exact next_of_eq (doEntryStart_unread served)

/-! ### Completions (R122, R124, R126, R135) -/

section
variable {s : State} {q : Fin 64} {c : Cmpl}

/-- The state once the held completion `c` stands in its slot and the tail has moved on, before any interrupt. -/
def State.completionWritten (s : State) (q : Nat) (c : Cmpl) : State :=
  let n := s.qsize q + 1
  let tail := s.get F.RING_QSTAT_CQTAIL q
  let phase := Tab.get (fun _ => false) s.host.phase q
  let b := s.writeHost (s.get64 F.RING_CQBASELO_ADDR F.RING_CQBASEHI_ADDR q + 16 * tail) (c.bytes phase)
  let d := b.set F.RING_QSTAT_CQTAIL ((tail + 1) % n) q
  let ts := Tab.get (fun _ => []) d.host.times q ++ [d.now + 1]
  ({ d with host := { d.host with
    held := d.host.held.erase c,
    phase := if tail + 1 = n then Tab.put (fun _ => false) d.host.phase q (!phase) else d.host.phase,
    times := Tab.put (fun _ => []) d.host.times q ts } } : State).set F.RING_QSTAT_CQFULL 0 q

section
variable (oldest : s.host.held.find? (fun c => c.q == q.val) = some c) (on : s.on F.RING_QCFG_EN q = true)
include oldest on

theorem doCompletionPost_raises (room : (s.get F.RING_QSTAT_CQTAIL q + 1) % (s.qsize q + 1) ≠ s.get F.RING_CQHEAD_INDEX q)
    (atOnce : (s.completionWritten q c).coalesces q = false) :
    doCompletionPost q true s = (s.completionWritten q c).raiseVec ((s.completionWritten q c).get F.RING_QCFG_IV q) := by
  simp only [doCompletionPost, oldest, on, Bool.not_true, Bool.false_eq_true, if_false, room]
  exact if_pos (by rw [Bool.or_eq_true]; exact Or.inl (by rw [Bool.not_eq_true']; exact atOnce))

theorem doCompletionPost_full (full : (s.get F.RING_QSTAT_CQTAIL q + 1) % (s.qsize q + 1) = s.get F.RING_CQHEAD_INDEX q)
    (again : Tab.get (fun _ => false) s.host.cqFullRep q.val = true) {ok : Bool} :
    doCompletionPost q ok s = s.set F.RING_QSTAT_CQFULL 1 q := by
  simp only [doCompletionPost, oldest, on, Bool.not_true, Bool.false_eq_true, if_false, full, if_true]
  exact if_pos again

end

theorem doCoalesceTimeout_late {n : Nat} {rest : List Nat} (first : Tab.get (fun _ => []) s.host.times q.val = n :: rest) (fresh : n ≠ 0)
    (time : s.get F.RING_QCOAL_TIME q ≠ 0) (holds : s.coalesces q = true) (late : n + 1000 * s.get F.RING_QCOAL_TIME q ≤ s.now + 1) :
    doCoalesceTimeout q s =
      ({ s with host := { s.host with times := Tab.put (fun _ => []) s.host.times q.val (0 :: rest) } } : State).raiseVec
        (s.get F.RING_QCFG_IV q) := by
  simp only [doCoalesceTimeout, first]
  exact if_neg (by simp [fresh, time, holds, late])

theorem doVectorUnmask_eq {v : Fin 128} :
    let u := s.set F.MSIX_CTRL_MASK 0 v
    let w := u.get F.MSIX_PBA_PENDING (v / 32)
    doVectorUnmask v s = if bitN w (v % 32) = 1 then (u.set F.MSIX_PBA_PENDING (w - 2 ^ (v.val % 32)) (v / 32)).raiseVec v else u := rfl

end

/-- Settles O32: a completion that has room and one that meets a full CQ, a late one, and the two writes that raise a vector. -/
theorem completionsAndInterrupts : Obligations.CompletionsAndInterrupts := by
  unfold Obligations.CompletionsAndInterrupts
  intro s q v x
  refine ⟨fun c oldest on => ?post, fun n rest first fresh time holds late => ?late, fun reaches => ?unmask, fun reaches => ?raise⟩
  case post =>
    intro n tail phase b d ts w
    exact ⟨fun room atOnce => next_of_eq (doCompletionPost_raises oldest on room atOnce),
      fun full again => next_of_eq (doCompletionPost_full oldest on full again)⟩
  case late => exact next_of_eq (doCoalesceTimeout_late first fresh time holds late)
  case unmask =>
    intro u w
    exact ⟨fun clear => next_busWrite reaches (doVectorUnmask_eq.trans (if_neg fun pending => absurd (clear.symm.trans pending) (by decide))),
      fun pending => next_busWrite reaches (doVectorUnmask_eq.trans (if_pos pending))⟩
  case raise => exact next_busWrite reaches rfl

/-! ### DEV_STATUS, EVENT_ARM and FAULT_READ (R130, R132, R430) -/

section
variable {s : State} {tok : Nat} {m : Msg}

theorem doDevStatus_answers (started : s.msgOf tok 0x01 = some m) :
    doDevStatus tok s = s.complete m .ok (s.rd 0x4) (s.rd (R.CMT_PVER.off 0 0)) := by
  simp only [doDevStatus, started]
  rfl

theorem not_armed {l : List Msg} (fresh : ∀ x ∈ l, x.tok ≠ tok) : l.any (fun x => x.tok == tok) = false := by
  simpa using fresh

section
variable (started : s.msgOf tok 0x03 = some m) (fresh : ∀ x ∈ s.host.armed, x.tok ≠ tok)
include started fresh

theorem doEventArm_notneg (off : s.feature 10 = false) : doEventArm tok s = s.complete m .notneg := by
  have idle := not_armed fresh
  simp [doEventArm, started, idle, off]

section
variable (on : s.feature 10 = true)
include on

theorem doEventArm_busy (full : 16 ≤ s.host.armed.length) : doEventArm tok s = s.complete m .busy := by
  have idle := not_armed fresh
  simp [doEventArm, started, idle, on, full]

theorem doEventArm_waits (room : s.host.armed.length < 16) (noEvent : s.host.events = []) :
    doEventArm tok s = { s with host := { s.host with armed := s.host.armed ++ [m] } } := by
  have idle := not_armed fresh
  simp [doEventArm, started, idle, on, Nat.not_le.mpr room, noEvent]

theorem doEventArm_takes {code : Nat} {param : Word} {rest : List (Nat × Word)} (room : s.host.armed.length < 16)
    (held : s.host.events = (code, param) :: rest) :
    doEventArm tok s = ({ s with host := { s.host with events := rest, eventLost := false } } : State).complete m .ok
      (w32 (code + (if s.host.eventLost then 2 ^ 31 else 0))) param := by
  have idle := not_armed fresh
  simp [doEventArm, started, idle, on, Nat.not_le.mpr room, held]

end

end

section
variable (started : s.msgOf tok 0x02 = some m)
include started

theorem doFaultRead_badfield {ok : Bool} (odd : m.len % 32 ≠ 0) : doFaultRead tok ok s = s.complete m .badfield := by
  simp only [doFaultRead, started]
  exact if_pos odd

section
variable (whole : m.len % 32 = 0)
include whole

theorem doFaultRead_unwritten : doFaultRead tok false s = s.hostFail m := by
  simp only [doFaultRead, started]
  exact if_neg (not_not_intro whole)

/-- The entries from ARG0 on are written in the order of their SEQ, and RES1 names the one after the last. -/
theorem doFaultRead_writes {k : Nat} :
    let ks := (((heldSlots s 32).filter (fun k => (m.arg 0).toNat ≤ s.hist k 0)).foldr (insertSeq s) []).take (m.len / 32)
    let u := s.writeHost m.ptr (ks.flatMap s.histBytes)
    ks.getLast? = some k → doFaultRead tok true s = u.complete m .ok (w32 ks.length) (w32 (nextSeq (u.hist k 0))) := by
  intro ks u last
  simp only [doFaultRead, started]
  refine (if_neg (not_not_intro whole)).trans ?_
  simp only [ks] at last
  simp only [last]
  rfl

end

end

end

/-- Settles O33: DEV_STATUS, EVENT_ARM by what it finds, and FAULT_READ by its length and by whether the host took the entries. -/
theorem statusEventsAndHistory : Obligations.StatusEventsAndHistory := by
  unfold Obligations.StatusEventsAndHistory
  intro s tok m
  refine ⟨fun started => ?status, fun started fresh => ?arm, fun started => ?history⟩
  case status => exact next_of_eq (doDevStatus_answers started)
  case arm =>
    exact ⟨fun off => next_of_eq (doEventArm_notneg started fresh off),
      fun on full => next_of_eq (doEventArm_busy started fresh on full),
      fun on room noEvent => next_of_eq (doEventArm_waits started fresh on room noEvent),
      fun code param rest on room held => next_of_eq (doEventArm_takes started fresh on room held)⟩
  case history =>
    refine ⟨fun odd ok => next_of_eq (doFaultRead_badfield started odd),
      fun whole => next_of_eq (doFaultRead_unwritten started whole),
      fun whole => ?_⟩
    intro ks u k last
    exact next_of_eq (doFaultRead_writes started whole last)

/-! ### MEAS_READ (R131) -/

section
variable {s : State} {tok kind : Nat} {m : Msg} {bytes : List Byte} {after : State → State}
  (started : s.msgOf tok 0x40 = some m) (asked : (m.arg 0).toNat = kind)
include started asked

theorem State.measRead_misfit {ok : Bool} (short : m.len < bytes.length) : s.measRead tok kind ok bytes after = s.complete m .badfield := by
  simp only [State.measRead, started, asked, short, ne_eq, not_true_eq_false, if_false, if_true]

theorem State.measRead_fits {ok : Bool} (fits : bytes.length ≤ m.len) : s.measRead tok kind ok bytes after =
    if ok then (after (s.writeHost m.ptr bytes)).complete m .ok (w32 bytes.length) else s.hostFail m := by
  cases ok <;>
    simp only [State.measRead, started, asked, Nat.not_lt.mpr fits, ne_eq, not_true_eq_false, if_false, if_true, Bool.not_true,
      Bool.not_false, Bool.false_eq_true]

end

/-- What a command that reads one kind of record answers, once its message asks for that kind. -/
theorem measRead_outcomes {s : State} {tok kind : Nat} {m : Msg} {bytes : List Byte} {after : State → State} {c : Bool → Instr}
    (started : s.msgOf tok 0x40 = some m) (reads : ∀ ok, exec (c ok) s = .next (s.measRead tok kind ok bytes after))
    (asked : (m.arg 0).toNat = kind) :
    (bytes.length ≤ m.len → exec (c true) s = .next ((after (s.writeHost m.ptr bytes)).complete m .ok (w32 bytes.length)) ∧
      exec (c false) s = .next (s.hostFail m)) ∧
    (m.len < bytes.length → ∀ ok, exec (c ok) s = .next (s.complete m .badfield)) :=
  ⟨fun fits => ⟨(reads true).trans (next_of_eq (State.measRead_fits started asked fits)),
      (reads false).trans (next_of_eq (State.measRead_fits started asked fits))⟩,
    fun short ok => (reads ok).trans (next_of_eq (State.measRead_misfit started asked short))⟩

/-- Settles O34: each command is the read of its record. -/
theorem measurementReads : Obligations.MeasurementReads := by
  unfold Obligations.MeasurementReads
  intro s tok m started reads
  have each : ∀ kind c bytes after, (∀ ok, exec (c ok) s = .next (s.measRead tok kind ok bytes after)) → reads kind c bytes after :=
    fun _ _ _ _ isRead => measRead_outcomes started isRead
  clear_value reads
  refine ⟨each _ _ _ _ ?_, each _ _ _ _ ?_, each _ _ _ _ ?_, each _ _ _ _ ?_, each _ _ _ _ ?_, each _ _ _ _ ?_, each _ _ _ _ ?_,
    each _ _ _ _ ?_, each _ _ _ _ ?_⟩
  all_goals exact fun _ => rfl

/-! ### Jobs and panels (R130, R139, R145) -/

section
variable {s : State} {tok : Nat} {m : Msg}

section
variable (started : s.msgOf tok 0x20 = some m)
include started

theorem doJobOpen_state (job : s.job.job ≠ none) : doJobOpen tok s = s.complete m .state := by
  simp [doJobOpen, started, Option.isSome_iff_ne_none, job]

theorem doJobOpen_opens (path : s.noLinePath = false) (idle : s.job.job = none) (lo : 1 ≤ (m.arg 0).toNat) (hi : (m.arg 0).toNat ≤ 4096)
    (gap : (m.arg 1).toNat < 65536) (res : m.arg 2 = 0) : doJobOpen tok s =
      (setLeads 8 ({ s with
        job := { s.job with job := some (Job.create s.job.nextId (m.arg 0).toNat (m.arg 1).toNat (m.arg 3).toNat false), ending := false,
                            nextId := (s.job.nextId + 1) % 2 ^ 32 },
        ing := { s.ing with mapNext := 0 } } : State).newJobReports).complete m .ok (w32 s.job.nextId) := by
  have fields : ¬((m.arg 0).toNat = 0 ∨ 4096 < (m.arg 0).toNat ∨ 65536 ≤ (m.arg 1).toNat ∨ 2 ≤ (m.arg 2).toNat) := by
    have zero : (m.arg 2).toNat = 0 := by rw [res]; rfl
    omega
  simp only [doJobOpen, started, idle, path, fields]
  simp [res]

end

section
variable {j : Job} (started : s.msgOf tok 0x21 = some m) (job : s.job.job = some j)
include started job

theorem doPanelDefine_closed (closed : j.closed = true) : doPanelDefine tok s = s.complete m .state := by
  simp only [doPanelDefine, started, job, closed, if_true]

section
variable (unclosed : j.closed = false)
include unclosed

theorem doPanelDefine_refused {st : Status}
    (bad : s.panelStatus j (m.arg 0).toNat (m.arg 1).toNat (m.arg 2).toNat (m.arg 4).toNat (m.arg 5).toNat = some st) :
    doPanelDefine tok s = s.complete m st := by
  simp only [doPanelDefine, started, job, unclosed, Bool.false_eq_true, if_false, bad]

theorem doPanelDefine_records
    (good : s.panelStatus j (m.arg 0).toNat (m.arg 1).toNat (m.arg 2).toNat (m.arg 4).toNat (m.arg 5).toNat = none)
    (fits : s.ing.mapNext + cdiv (m.arg 2).toNat 64 * stripesOf (m.arg 1).toNat * 16 ≤ s.get F.ING_MAPSIZE_MIB * 2 ^ 20) :
    doPanelDefine tok s = (s.addPanel j (Panel.mk (m.arg 5).toNat (m.arg 1).toNat (m.arg 2).toNat (m.arg 3).toNat (m.arg 4) false 0
      (s.get F.ING_MAPBASE_MIB * 2 ^ 20 + s.ing.mapNext) false)
      (cdiv (m.arg 2).toNat 64 * stripesOf (m.arg 1).toNat * 16)).complete m .ok := by
  simp only [doPanelDefine, started, job, unclosed, Bool.false_eq_true, if_false, good]
  exact if_neg (Nat.not_lt.mpr fits)

end

end

section
variable {j : Job} (started : s.msgOf tok 0x23 = some m) (job : s.job.job = some j)
include started job

theorem doJobClose_closes (unclosed : j.closed = false) (all : j.count ≤ j.panels.length) :
    doJobClose tok s = ({ s with job := { s.job with job := some { j with closed := true } } } : State).complete m .ok := by
  simp [doJobClose, started, job, unclosed, Nat.not_lt.mpr all]

theorem doJobClose_state (few : j.panels.length < j.count) : doJobClose tok s = s.complete m .state := by
  simp [doJobClose, started, job, few]

end

theorem doJobCancel_stops (started : s.msgOf tok 0x24 = some m) (fresh : s.waitsStop tok = false) (job : s.job.job ≠ none) :
    doJobCancel tok s = s.abortPrint.abortIngests.stopAll 2 m 0 (fun b => (s.fireBar b).next) := by
  simp [doJobCancel, started, fresh, job]

end

/-! ### PRINT_START and PRINT_RESUME (R130, R485) -/

section
variable {s : State} {tok : Nat} {m : Msg} {j : Job}

/-- Printing starts once its line is resolved; a job that has started keeps its first line. -/
theorem State.startAt_line {n : Nat} (line : s.startLine m = .line n) :
    let k := { j with start := some (j.start.getD n) }
    s.startAt m j = ((({ s with job := { s.job with job := some k } } : State).launch k n).complete m .ok (w32 n) (w32 (n / 2 ^ 32))) := by
  simp only [State.startAt, line]

section
variable (started : s.msgOf tok 0x30 = some m) (job : s.job.job = some j)
include started job

theorem doPrintStart_open (unclosed : j.closed = false) : doPrintStart tok s = s.complete m .state := by
  simp [doPrintStart, started, job, unclosed]

section
variable (ready : s.dev = stReady) (may : s.mayNotPrint = false) (fresh : j.start = none) (closed : j.closed = true)
include ready may fresh closed

theorem doPrintStart_exhausted (exhausted : s.jobExhausted j = true) : doPrintStart tok s = s.complete m .licence := by
  simp [doPrintStart, started, job, ready, may, fresh, closed, exhausted]

theorem doPrintStart_starts (licensed : s.jobExhausted j = false) (room : s.auditFull = false) : doPrintStart tok s = s.startAt m j := by
  simp [doPrintStart, started, job, ready, may, fresh, closed, licensed, room]

end

end

section
variable {nj : Nat} (started : s.msgOf tok 0x32 = some m) (job : s.job.job = some j)
include started job

theorem doPrintResume_hot (hot : s.allSegs.any (fun sg => s.on F.FIRE_SEG_HOT sg) = true) : doPrintResume tok s = s.complete m .state := by
  simp only [doPrintResume, started, job, hot, Bool.or_true, if_true]

theorem doPrintResume_resumes (begun : j.start = some nj) (paused : s.dev = stPaused) (may : s.mayNotPrint = false) (still : s.anyBarActive = false)
    (licensed : s.jobExhausted j = false) (cool : s.allSegs.any (fun sg => s.on F.FIRE_SEG_HOT sg) = false) :
    doPrintResume tok s = s.startAt m j := by
  simp only [doPrintResume, started, job, begun, paused, may, still, licensed, cool, Option.isNone_some, ne_eq, not_true_eq_false,
    decide_false, Bool.or_self, Bool.false_eq_true, if_false]

end

end

/-! ### PRINT_PAUSE and PRINT_STOP (R130, R205) -/

section
variable {s : State} {tok : Nat} {m : Msg} {j : Job} (fresh : s.waitsStop tok = false) (job : s.job.job = some j)
include fresh job

/-- ARG0 chooses the line before which the bars stop: where the next panel starts, or the first line that can still be stopped. -/
theorem doPrintPause_stops (started : s.msgOf tok 0x31 = some m) (printing : s.printing = true) (arg : (m.arg 0).toNat ≤ 1) :
    let x := if m.arg 0 = 0 then nextInstLine j s.leadLine else s.leadLine
    doPrintPause tok s = s.stopAll 0 m x (fun _ => x) := by
  simp only [doPrintPause, started, fresh, job, printing, Bool.not_true, Bool.false_eq_true, if_false, Nat.not_lt.mpr arg]

theorem doPrintStop_stops (started : s.msgOf tok 0x33 = some m) (begun : j.start ≠ none) (active : s.printingOrPaused = true) :
    doPrintStop tok s = s.stopAll 1 m s.leadLine (fun _ => s.leadLine) := by
  simp [doPrintStop, started, fresh, job, begun, active]

end

/-- Settles O37: each message of a job by the conditions of its row, in the order in which a job goes through them. -/
theorem jobsAndPrinting : Obligations.JobsAndPrinting := by
  unfold Obligations.JobsAndPrinting
  intro s tok m j
  refine ⟨fun started path => ?opening, fun started job => ?panel, fun started job => ?close, fun started fresh job => ?cancel,
    fun started job ready may fresh => ?start, fun started job paused may still licensed nj begun => ?resume,
    fun started fresh job printing => ?pause, fun started fresh job begun active => ?stop⟩
  case opening =>
    exact ⟨fun job => next_of_eq (doJobOpen_state started job),
      fun idle lo hi gap res => next_of_eq (doJobOpen_opens started path idle lo hi gap res)⟩
  case panel =>
    intro w h form bytes status
    exact ⟨fun closed => next_of_eq (doPanelDefine_closed started job closed),
      fun unclosed _ bad => next_of_eq (doPanelDefine_refused started job unclosed bad),
      fun unclosed good fits => next_of_eq (doPanelDefine_records started job unclosed good fits)⟩
  case close =>
    exact ⟨fun unclosed all => next_of_eq (doJobClose_closes started job unclosed all), fun few => next_of_eq (doJobClose_state started job few)⟩
  case cancel => exact next_of_eq (doJobCancel_stops started fresh job)
  case start =>
    refine ⟨fun unclosed => ?_, fun closed exhausted => ?_, fun closed licensed room n line => ?_⟩
    · exact next_of_eq (doPrintStart_open started job unclosed)
    · exact next_of_eq (doPrintStart_exhausted started job ready may fresh closed exhausted)
    · have starts := (doPrintStart_starts started job ready may fresh closed licensed room).trans (State.startAt_line line)
      rw [fresh] at starts
      exact next_of_eq starts
  case resume =>
    refine ⟨fun hot => ?_, fun cool n line => ?_⟩
    · exact next_of_eq (doPrintResume_hot started job hot)
    · have resumes := (doPrintResume_resumes started job begun paused may still licensed cool).trans (State.startAt_line line)
      rw [begun] at resumes
      exact next_of_eq resumes
  case pause =>
    refine ⟨fun zero => ?_, fun one => ?_⟩
    · have stops := doPrintPause_stops fresh job started printing (by simp [zero])
      rw [if_pos zero] at stops
      exact next_of_eq stops
    · have stops := doPrintPause_stops fresh job started printing (by simp [one])
      rw [if_neg (by simp [one])] at stops
      exact next_of_eq stops
  case stop => exact next_of_eq (doPrintStop_stops fresh job started begun active)

/-! ### The INGEST message (R134, R142, R146) -/

section
variable {s : State} {tok : Nat} {m : Msg} (started : s.msgOf tok 0x22 = some m)
include started

theorem doIngest_waits {d : Option (List Byte)} (four : 4 ≤ s.ing.jobs.length) : doIngest tok d s = s := by
  simp only [doIngest, started, four, or_true, if_true]

section
variable (fresh : s.ingJob tok = none) (few : s.ing.jobs.length < 4)
include fresh few

theorem doIngest_disabled {d : Option (List Byte)} (raw : m.arg 3 = 0) (off : s.on F.ING_CTL_EN = false) :
    doIngest tok d s = s.complete m .state := by
  simp [doIngest, started, fresh, Nat.not_le.mpr few, raw, off]

section
variable {b : Job} {p : Panel} {d : Option (List Byte)} (on : s.on F.ING_CTL_EN = true) (job : s.job.job = some b)
  (panel : b.panels[(m.arg 0).toNat]? = some p) (lanes : s.get F.ING_CTL_LANEN ≠ 0)
include on job panel lanes

theorem doIngest_badfield (raw : m.arg 3 = 0)
    (bad : (m.arg 1).toNat % 64 ≠ 0 ∨ (m.arg 2).toNat = 0 ∨ p.h < (m.arg 1).toNat + (m.arg 2).toNat) :
    doIngest tok d s = s.complete m .badfield := by
  have zero : (m.arg 3).toNat = 0 := by rw [raw]; rfl
  have refused : (m.arg 1).toNat % 64 ≠ 0 ∨ (m.arg 2).toNat = 0 ∨ p.h < (m.arg 1).toNat + (m.arg 2).toNat ∨
      (p.form = 3 ∧ (m.arg 2).toNat % 2 = 1) := by tauto
  simp only [doIngest, started, fresh, Nat.not_le.mpr few, zero, on, job, panel, lanes]
  exact if_pos refused

section
variable (aligned : (m.arg 1).toNat % 64 = 0) (lines : (m.arg 2).toNat ≠ 0) (inside : (m.arg 1).toNat + (m.arg 2).toNat ≤ p.h)
  (pairs : ¬(p.form = 3 ∧ (m.arg 2).toNat % 2 = 1))
include aligned lines inside pairs

/-- An accepted raw message gets its blocks; one whose buffer cannot be read ends with HOSTDMA. -/
theorem doIngest_raw (raw : m.arg 3 = 0) (len : m.len = linesBytes p.form p.w (m.arg 1).toNat (m.arg 2).toNat)
    (slow : s.tooFast b p = false) {bs : List Byte} :
    doIngest tok (some bs) s = s.addIngest { IngJob.begin m (m.arg 0).toNat (m.arg 1).toNat (m.arg 2).toNat 0 with
      blocks := rawBlocks p.form p.w p.h (m.arg 1).toNat (parseLines p.form p.w (m.arg 1).toNat (m.arg 2).toNat (bs.take m.len)) } ∧
    doIngest tok none s = s.hostFail m := by
  simp [doIngest, started, fresh, Nat.not_le.mpr few, raw, on, job, panel, lanes, aligned, lines, Nat.not_lt.mpr inside, pairs, len, slow]

theorem doIngest_precompressed (pre : m.arg 3 = 1) (feature : s.feature 2 = true) {bs : List Byte} :
    doIngest tok (some bs) s = s.addIngest { IngJob.begin m (m.arg 0).toNat (m.arg 1).toNat (m.arg 2).toNat 1 with data := bs.take m.len } := by
  simp [doIngest, started, fresh, Nat.not_le.mpr few, pre, feature, on, job, panel, lanes, aligned, lines, Nat.not_lt.mpr inside, pairs]

end

end

end

end

/-! ### Encode lanes (R163, R167, R169) -/

section
variable {s : State} {l : Fin 16} {j : IngJob} {b : IngBlock} {g : Job} {p : Panel} {mismatch : Bool}
  (on : s.on F.ING_CTL_EN = true) (enabled : bitN (s.get F.ING_CTL_LANEN) l = 1) (free : s.encLane l = none)
  (next : pickBlock l s.ing.jobs = some (j, b)) (job : s.job.job = some g) (panel : g.panels[j.panel]? = some p)
include on enabled free next job panel

/-- A free lane takes the next block, and the checker decoder judges what the lane makes of it. -/
theorem doEncodeBlock_takes :
    let code := s.codeBlock p j.panel b
    let x : EncLane := { tok := j.msg.tok, group := b.group, stripe := b.stripe, code := code,
                         need := cdiv (code.length - 32 - s.primSize) 4096, spw := [], oosAt := none, again := none, done := false }
    let arg := codecArg none j.panel b.stripe b.group
    let u := s.bump F.ING_VERCNT_COUNT
    doEncodeBlock l mismatch s = if mismatch && s.on F.ING_CTL_DAC then
        if b.tries = 0 then (u.setIngBlock j { b with notLane := some l.val, tries := 1 }).report C.codec_verify_mismatch arg
        else (u.endIngest j .aborted j.stored).report C.codec_verify_fail arg
      else (s.setIngBlock j { b with lane := some l.val }).laneWrites l x := by
  simp only [doEncodeBlock, on, enabled, free, next, job, panel, Option.bind_some]
  rfl

end

/-! ### The store (R143, R144) -/

/-- The next block of an INGEST's buffer is due: every one before it is stored, and none was refused. -/
theorem precompressed_due {j : IngJob} (kind : j.kind ≠ 0) (idle : j.blocks = []) (unjudged : j.verdict = none) (more : j.group < j.groupEnd) :
    ¬(j.kind = 0 ∨ j.blocks ≠ [] ∨ j.verdict.isSome = true ∨ j.groupEnd ≤ j.group) := by
  simp [kind, idle, unjudged, more]

section
variable {s : State} {tok : Nat} {j : IngJob} (mine : s.ingJob tok = some j)
include mine

section
variable {b : IngBlock} {rest : List IngBlock} {code : List Byte} (first : j.blocks = b :: rest) (coded : b.coded = some code)
include first coded

section
variable (noLane : s.laneOf tok b.group b.stripe = none)
include noLane

theorem doBlockStore_stores {t : State} (stored : s.storeFor j b.group b.stripe (leAt code 0x0C 2) code = some t) :
    doBlockStore tok s = t.ingestDone tok := by
  simp only [doBlockStore, mine, first, coded, noLane, stored]

theorem doBlockStore_noFit (full : s.storeFor j b.group b.stripe (leAt code 0x0C 2) code = none) : doBlockStore tok s = s.noFit j := by
  simp only [doBlockStore, mine, first, coded, noLane, full]

end

/-- A block that stands in a lane's buffers is read from there; a lane without Spillway buffers is free at once. -/
theorem doBlockStore_fromLane {n : Nat} {x : EncLane} {t : State} (lane : s.laneOf tok b.group b.stripe = some (n, x))
    (stored : (s.laneBytes n x).2.storeFor j b.group b.stripe (leAt code 0x0C 2) (s.laneBytes n x).1 = some t) :
    doBlockStore tok s = (t.setEncLane n (if x.spw = [] then none else some { x with done := true })).ingestDone tok := by
  simp only [doBlockStore, mine, first, coded, lane, stored]

end

theorem doStoreWaitTimeout_expires {n : Nat} (waits : j.waitAt = some n)
    (late : s.elapsedUs n (1000 * max 1 (s.get F.ING_OOSTO_TIMEOUT)) = true) : doStoreWaitTimeout tok s =
      ((s.freeEnvelope j).endIngest j .nospace j.stored).report C.ing_store_full (mkArg none none j.panel) := by
  simp only [doStoreWaitTimeout, mine, waits, late, if_true]

/-! ### Pre-compressed and secure blocks (R147, R149) -/

section
variable {g : Job} {p : Panel} (kind : j.kind ≠ 0) (idle : j.blocks = []) (unjudged : j.verdict = none) (more : j.group < j.groupEnd)
  (job : s.job.job = some g) (panel : g.panels[j.panel]? = some p)
include kind idle unjudged more job panel

theorem doPrecompressedBlock_refuses {code : Nat} (bad : s.checkBlock j p = .error code) :
    doPrecompressedBlock tok s = s.refuseBlock j code := by
  simp only [doPrecompressedBlock, mine, job, panel, bad, Option.bind_some]
  exact if_neg (precompressed_due kind idle unjudged more)

/-- Without the checker decoder, a block that passes its check is stored as it stands in the buffer. -/
theorem doPrecompressedBlock_stores {h : BlockHdr} {n : Nat} {t : State} (good : s.checkBlock j p = .ok (h, n))
    (unchecked : s.on F.ING_CTL_PCCHK = false) :
    let last := j.stripe + 1 = s.jobStripes j
    let k : IngJob := { j with
      data := j.data.drop n, group := if last then j.group + 1 else j.group,
      stripe := if last then 0 else j.stripe + 1, hists := Tab.put (fun _ => none) j.hists j.stripe none,
      blocks := [{ group := j.group, stripe := j.stripe, rows := [], flush := h.flush, notLane := none, tries := 0,
                   coded := some (j.data.take n), lane := none }] }
    (s.setIngJob k).storeFor k j.group j.stripe h.lines (j.data.take n) = some t → doPrecompressedBlock tok s = t.ingestDone tok := by
  intro last k stored
  have passes : s.pccheck j h ((j.data.take n).drop 32) = .ok none := if_pos (by simp [unchecked])
  simp only [k, last] at stored
  simp only [doPrecompressedBlock, mine, job, panel, good, passes, Option.bind_some, Option.map_none, stored]
  exact if_neg (precompressed_due kind idle unjudged more)

end

section
variable (secure : j.kind = 2) (idle : j.blocks = []) (all : j.groupEnd ≤ j.group) (unjudged : j.verdict = none)
include secure idle all unjudged

theorem doGcmTagCheck_fails (bad : j.tagOk = false) : doGcmTagCheck tok s =
    ((s.freeEnvelope j).endIngest j .signature 0).report C.ing_gcm_tag (mkArg none none j.panel) := by
  simp [doGcmTagCheck, mine, secure, idle, Nat.not_lt.mpr all, unjudged, bad]

theorem doGcmTagCheck_maps (good : j.tagOk = true) (empty : j.data = []) : doGcmTagCheck tok s =
    ((j.unmapped.foldl (fun s e => s.writeEntry j.panel e.1 e.2.1 e.2.2.1 e.2.2.2) s).markSecure j).endIngest j .ok j.stored := by
  simp [doGcmTagCheck, mine, secure, idle, Nat.not_lt.mpr all, unjudged, good, empty]

end

end

/-! ### The Spillway (R170) -/

section
variable {s : State} {l : Fin 16} {x : EncLane}

theorem doSpillwayReturn_returns {k : Nat} {rest : List Nat} (lane : s.encLane l = some x) (holds : x.spw = k :: rest) (done : x.done = true) :
    doSpillwayReturn l s = (feedLanes 4096 (s.setEncLane l (if rest = [] then none else some { x with spw := rest }))).updIng := by
  simp only [doSpillwayReturn, lane, holds, done, Bool.not_true, Bool.false_eq_true, if_false]

/-- Once every lane with a block in progress is out of space for too long, the one with the most buffers gives them up. -/
theorem doSpillTimeout_abandons
    (old : ∀ e ∈ s.busyLanes.filter (fun e => e.2.again.isNone),
      ∃ n, e.2.oosAt = some n ∧ s.elapsedUs n (max 1 (s.get F.ING_OOSTO_TIMEOUT)) = true)
    (most : mostSpw (s.busyLanes.filter (fun e => e.2.again.isNone)) = some (l.val, x)) : doSpillTimeout s =
      ((feedLanes 4096 (s.setEncLane l (some { x with spw := [], oosAt := none, again := some x.spw.length }))).updIng).report
        C.codec_spill_abandon (x.arg (s.panelOfTok x.tok)) := by
  have allOld : (s.busyLanes.filter (fun e => e.2.again.isNone)).all
      (fun e => e.2.oosAt.any (fun t => s.elapsedUs t (max 1 (s.get F.ING_OOSTO_TIMEOUT)))) = true :=
    List.all_eq_true.mpr fun e he => by
      obtain ⟨n, at_, late⟩ := old e he
      simpa [at_] using late
  simp only [doSpillTimeout, allOld, most, Bool.not_true, Bool.false_eq_true, if_false]
  rfl

end

/-- Settles O38: the message by its conditions, then its blocks: coded by a lane, stored, checked, mapped once the tag is good, and the
buffers that come back. -/
theorem ingestStarts : Obligations.IngestStarts := by
  unfold Obligations.IngestStarts
  refine ⟨fun s tok m b p bs started fresh => ?message, fun s tok l j b => ⟨?encode, fun mine => ?job, ?back, ?timeout⟩⟩
  case message =>
    intro k first count
    refine ⟨fun four d => ?_, fun few raw => ⟨fun off d => ?_, fun on job panel lanes => ⟨fun bad d => ?_, ?_⟩⟩, ?_⟩
    · exact next_of_eq (doIngest_waits started four)
    · exact next_of_eq (doIngest_disabled started fresh few raw off)
    · exact next_of_eq (doIngest_badfield started fresh few on job panel lanes raw bad)
    · intro aligned lines inside pairs len slow
      obtain ⟨accepted, unread⟩ := doIngest_raw started fresh few on job panel lanes aligned lines inside pairs raw len slow (bs := bs)
      exact ⟨next_of_eq accepted, next_of_eq unread⟩
    · intro few pre feature on job panel lanes aligned lines inside pairs
      exact next_of_eq (doIngest_precompressed started fresh few on job panel lanes aligned lines inside pairs pre feature)
  case encode =>
    intro g p mismatch on enabled free next job panel code x arg u
    have takes := doEncodeBlock_takes on enabled free next job panel (mismatch := mismatch)
    refine ⟨fun good => ?_, fun differs dac fresh => ?_, fun differs dac again => ?_⟩
    · exact next_of_eq (takes.trans (if_neg (by rcases good with good | good <;> simp [good])))
    · exact next_of_eq (takes.trans ((if_pos (by simp [differs, dac])).trans (if_pos fresh)))
    · exact next_of_eq (takes.trans ((if_pos (by simp [differs, dac])).trans (if_neg again)))
  case job =>
    refine ⟨fun rest code first coded noLane => ⟨fun t stored => ?_, fun full => ?_⟩, fun rest code n x t first coded lane stored => ?_,
      fun n waits late => ?_, fun g p code kind idle unjudged more job panel bad => ?_, ?_, fun secure idle all unjudged => ⟨?_, ?_⟩⟩
    · exact next_of_eq (doBlockStore_stores mine first coded noLane stored)
    · exact next_of_eq (doBlockStore_noFit mine first coded noLane full)
    · exact next_of_eq (doBlockStore_fromLane mine first coded lane stored)
    · exact next_of_eq (doStoreWaitTimeout_expires mine waits late)
    · have refuses := doPrecompressedBlock_refuses mine (by omega) idle unjudged more job panel bad
      exact next_of_eq (refuses.trans (if_neg (by omega)))
    · intro g p h n t kind idle unjudged more job panel good unchecked last k stored
      exact next_of_eq (doPrecompressedBlock_stores mine kind idle unjudged more job panel good unchecked stored)
    · exact fun bad => next_of_eq (doGcmTagCheck_fails mine secure idle all unjudged bad)
    · exact fun good empty => next_of_eq (doGcmTagCheck_maps mine secure idle all unjudged good empty)
  case back => exact fun x k rest lane holds done => next_of_eq (doSpillwayReturn_returns lane holds done)
  case timeout =>
    intro lanes old x most u
    exact next_of_eq (doSpillTimeout_abandons old most)

end Sys2Proof.Machine

/-! The statements of the family `09_web_position_and_encoders`: the encoder inputs and their speed windows (O40). -/

namespace Sys2Proof.Machine

/-! ### Flags of the registers -/

section
variable {s : State} {f g : Fld} {v i j : Nat}

theorem State.on_set (fits : f.lo + f.wid ≤ 32) : (s.set f v i j).on f i j = (v % 2 ^ f.wid == 1) :=
  congrArg (· == 1) (State.get_set fits)

theorem State.on_set_ne {k l : Nat} (fits : f.lo + f.wid ≤ 32) (apart : g.lo + g.wid ≤ f.lo ∨ f.lo + f.wid ≤ g.lo) :
    (s.set f v i j).on g k l = s.on g k l :=
  congrArg (· == 1) (State.get_set_ne fits apart)

theorem State.on_set_off {k l : Nat} (elsewhere : g.off k l ≠ f.off i j) : (s.set f v i j).on g k l = s.on g k l :=
  congrArg (· == 1) (State.get_set_off elsewhere)

end

/-! ### Lines and signal loss (R221, R222) -/

/-- The filtered lines A and B of encoder `k` take new levels; Z keeps its own. -/
def State.takeLines (s : State) (k : Nat) (a b : Bool) : State :=
  s.setEncoder k { s.encoder k with lines := BitVec.ofNat 3 (a.toNat + 2 * b.toNat + 4 * ((s.encoder k).lines.getLsbD 2).toNat) }

/-- Both lines changed at one sample: nothing is counted, averaging restarts, and the stretch window is discarded. -/
def State.illegalEdge (s : State) (k : Nat) : State :=
  let w := ((s.setEncoder k { s.encoder k with restart := true }).bump F.ENC_ILLCNT_VALUE 1 k).set F.ENC_STAT_ILL 1 k
  ({ w with str := { w.str with open_ := false } } : State).reportLimited C.enc_illegal k 1000000 (mkArg none (some k) 0)

/-- The sign of the count of one changed line, by DIR. -/
def State.countsDown (s : State) (k : Nat) (a b : Bool) : Bool :=
  let c := quadCount ((s.encoder k).lines.getLsbD 0) ((s.encoder k).lines.getLsbD 1) a b
  if s.on F.ENC_CTL_DIR k then 0 < c else c < 0

section
variable {s : State} {k : Fin 2} {a b : Bool}

theorem doEncoderEdge_lost (lost : s.on F.ENC_STAT_LOS k = true) : doEncoderEdge k a b s = s := if_pos lost

theorem doSignalLoss_lost (lost : s.on F.ENC_STAT_LOS k = true) : doSignalLoss k s = s := if_pos lost

theorem doSignalLoss_reports (present : s.on F.ENC_STAT_LOS k = false) :
    let u := s.set F.ENC_STAT_LOS 1 k
    doSignalLoss k s = ({ u with str := { u.str with open_ := false } } : State).report C.enc_signal_loss (mkArg none (some k.val) 0) :=
  if_neg (by simp [present])

/-- What an edge does while the signal is there: disabled or unchanged lines count nothing, then both changed, then one changed. -/
theorem doEncoderEdge_present (present : s.on F.ENC_STAT_LOS k = false) : doEncoderEdge k a b s =
    if s.on F.ENC_CTL_EN k = false ∨ (a = (s.encoder k).lines.getLsbD 0 ∧ b = (s.encoder k).lines.getLsbD 1) then s.takeLines k a b
    else if a ≠ (s.encoder k).lines.getLsbD 0 ∧ b ≠ (s.encoder k).lines.getLsbD 1 then (s.takeLines k a b).illegalEdge k
    else (s.takeLines k a b).countEdge k (s.countsDown k a b) := by
  simp only [doEncoderEdge, present, Bool.false_eq_true, if_false, State.setEncoder_on, Bool.not_eq_true']
  rfl

theorem doEncoderEdge_uncounted (present : s.on F.ENC_STAT_LOS k = false)
    (h : s.on F.ENC_CTL_EN k = false ∨ (a = (s.encoder k).lines.getLsbD 0 ∧ b = (s.encoder k).lines.getLsbD 1)) :
    doEncoderEdge k a b s = s.takeLines k a b :=
  (doEncoderEdge_present present).trans (if_pos h)

theorem doEncoderEdge_illegal (present : s.on F.ENC_STAT_LOS k = false) (on : s.on F.ENC_CTL_EN k = true)
    (ha : a ≠ (s.encoder k).lines.getLsbD 0) (hb : b ≠ (s.encoder k).lines.getLsbD 1) :
    doEncoderEdge k a b s = (s.takeLines k a b).illegalEdge k :=
  (doEncoderEdge_present present).trans ((if_neg (not_or.mpr ⟨by simp [on], fun ⟨same, _⟩ => ha same⟩)).trans (if_pos ⟨ha, hb⟩))

theorem doEncoderEdge_counts (present : s.on F.ENC_STAT_LOS k = false) (on : s.on F.ENC_CTL_EN k = true)
    (one : (a = (s.encoder k).lines.getLsbD 0) ≠ (b = (s.encoder k).lines.getLsbD 1)) :
    doEncoderEdge k a b s = (s.takeLines k a b).countEdge k (s.countsDown k a b) := by
  have changed : ¬(a = (s.encoder k).lines.getLsbD 0 ∧ b = (s.encoder k).lines.getLsbD 1) :=
    fun ⟨ha, hb⟩ => one (propext (iff_of_true ha hb))
  have legal : ¬(a ≠ (s.encoder k).lines.getLsbD 0 ∧ b ≠ (s.encoder k).lines.getLsbD 1) :=
    fun ⟨ha, hb⟩ => one (propext (iff_of_false ha hb))
  exact (doEncoderEdge_present present).trans ((if_neg (not_or.mpr ⟨by simp [on], changed⟩)).trans (if_neg legal))

/-- New levels leave the position to the count that follows. -/
theorem State.takeLines_countEdge_pe {neg : Bool} : (((s.takeLines k a b).countEdge k neg).encoder k).pe =
    (if neg then (s.encoder k).pe + 2 ^ 80 - s.get F.ENC_SCALE_SCALE k else (s.encoder k).pe + s.get F.ENC_SCALE_SCALE k) % 2 ^ 80 := by
  rw [State.countEdge_pe, State.takeLines, State.encoder_setEncoder_same, State.setEncoder_get]

end

/-! ### Index edges (R223) -/

/-- The position is latched and the net count starts again. -/
def State.latchIndex (s : State) (k : Nat) : State :=
  (s.set64 F.ENC_ZPOSLO_WPU F.ENC_ZPOSHI_WPU ((s.encoder k).pe / 65536) k).setEncoder k { s.encoder k with idxNet := some 0 }

section
variable {s : State} {k : Fin 2} (on : s.on F.ENC_CTL_EN k = true) (present : s.on F.ENC_STAT_LOS k = false)
include on present

theorem doIndexEdge_first (first : (s.encoder k).idxNet = none) : doIndexEdge k s = s.latchIndex k := by
  simp only [doIndexEdge, on, present, first, Bool.not_true, Bool.or_false, Bool.false_eq_true, if_false]
  rfl

/-- Every later index edge checks the net count since the one before. -/
theorem doIndexEdge_checks {net : Int} (counted : (s.encoder k).idxNet = some net) : doIndexEdge k s =
    if s.get F.ENC_ZCPR_VALUE k = 0 ∨ net = s.get F.ENC_ZCPR_VALUE k then s.latchIndex k
    else ((s.latchIndex k).set F.ENC_STAT_ZERR 1 k).report C.enc_index_mismatch
      (mkArg none (some k.val) (ofSigned 20 (net - s.get F.ENC_ZCPR_VALUE k))) := by
  simp only [doIndexEdge, on, present, counted, Bool.not_true, Bool.or_false, Bool.false_eq_true, if_false]
  rfl

theorem doIndexEdge_latches (agrees : (s.encoder k).idxNet = none ∨ s.get F.ENC_ZCPR_VALUE k = 0 ∨
    (s.encoder k).idxNet = some (s.get F.ENC_ZCPR_VALUE k : Int)) : doIndexEdge k s = s.latchIndex k := by
  cases counted : (s.encoder k).idxNet with
  | none => exact doIndexEdge_first on present counted
  | some net =>
    refine (doIndexEdge_checks on present counted).trans (if_pos ?_)
    simpa [counted] using agrees

end

/-! ### Speed windows (R227) -/

/-- SPEED is a register of its own, apart from the flags of STAT. -/
theorem encSpeed_off_ne_stat {k : Nat} {f : Fld} (stat : f.off k 0 = R.ENC_STAT.off k 0) : F.ENC_SPEED_VALUE.off k 0 ≠ f.off k 0 := by
  rw [stat]
  simp only [Fld.off, RegDef.off, F.ENC_SPEED_VALUE, R.ENC_STAT]
  omega

theorem State.setSpeed_on_mode {s : State} {k mag : Nat} {neg : Bool} :
    (s.setSpeed k mag neg).on F.ENC_STAT_MODE k = s.on F.ENC_STAT_MODE k :=
  State.on_set_off (encSpeed_off_ne_stat rfl).symm

theorem State.setSpeed_speedWin {s : State} {k mag : Nat} {neg : Bool} : (s.setSpeed k mag neg).speedWin = s.speedWin :=
  congrArg (clampN 10 1000) (State.get_set_off (by simp only [Fld.off, F.ENC_SPDCFG_WIN, F.ENC_SPEED_VALUE]; omega))

theorem State.setMode_speedWin {s : State} {k v : Nat} : (s.set F.ENC_STAT_MODE v k).speedWin = s.speedWin :=
  congrArg (clampN 10 1000) (State.get_set_off (by simp only [Fld.off, F.ENC_SPDCFG_WIN, F.ENC_STAT_MODE]; omega))

/-- Whether the window that ends leaves encoder `k` in COUNT mode: SWDN holds the mode it has, SWUP raises it. -/
def State.windowCounts (s : State) (k : Nat) : Bool :=
  if s.on F.ENC_STAT_MODE k then decide (min (s.get F.ENC_SPDCFG_SWDN) (s.get F.ENC_SPDCFG_SWUP) ≤ (s.encoder k).winEdges)
  else decide (s.get F.ENC_SPDCFG_SWUP ≤ (s.encoder k).winEdges) && decide (0 < (s.encoder k).winEdges) && !(s.encoder k).winMixed

/-- The mode by the window's edges, and in COUNT mode the speed of the window. -/
def State.windowSpeed (s : State) (k : Nat) : State :=
  let x := s.encoder k
  let u := s.set F.ENC_STAT_MODE (s.windowCounts k).toNat k
  if s.windowCounts k && 1 < x.winEdges && 0 < x.winLast - x.winFirst && !u.on F.ENC_STAT_UNKNOWN k then
    u.setSpeed k (speedMag (x.winEdges - 1) (u.get F.ENC_SCALE_SCALE k) (x.winLast - x.winFirst)) (u.on F.ENC_STAT_DIRN k)
  else u

section
variable {s : State} {k : Nat}

theorem State.windowSpeed_on_mode : (s.windowSpeed k).on F.ENC_STAT_MODE k = s.windowCounts k := by
  have mode : (s.set F.ENC_STAT_MODE (s.windowCounts k).toNat k).on F.ENC_STAT_MODE k = s.windowCounts k := by
    rw [State.on_set (by decide)]
    cases s.windowCounts k <;> rfl
  simp only [State.windowSpeed]
  split
  · exact State.setSpeed_on_mode.trans mode
  · exact mode

theorem State.windowSpeed_speedWin : (s.windowSpeed k).speedWin = s.speedWin := by
  simp only [State.windowSpeed]
  split
  · exact State.setSpeed_speedWin.trans State.setMode_speedWin
  · exact State.setMode_speedWin

end

theorem doSpeedWindowEnd_ends {s : State} {k : Fin 2} (on : s.on F.ENC_CTL_EN k = true)
    (ended : (s.encoder k).winStart + (s.encoder k).winLen ≤ s.sample) : doSpeedWindowEnd k s =
      (s.windowSpeed k).setEncoder k { s.encoder k with
        winStart := (s.encoder k).winStart + (s.encoder k).winLen, winLen := s.speedWin * 250, winEdges := 0, winMixed := false } := by
  rw [← State.windowSpeed_speedWin (k := k)]
  exact if_neg (by simp [on, ended])

/-! ### Standstill (R229) -/

/-- The flags and the speed of an encoder that stands still. -/
def State.standsStill (s : State) (k : Nat) : State :=
  ((((s.set F.ENC_SPEED_VALUE 0 k).set F.ENC_STAT_STILL 1 k).set F.ENC_STAT_UNKNOWN 1 k).set F.ENC_STAT_SETTLING 0 k).set
    F.ENC_STAT_MODE 0 k

section
variable {s : State} {k : Nat}

theorem State.standsStill_speed : (s.standsStill k).get F.ENC_SPEED_VALUE k = 0 := by
  have flag : ∀ {t : State} {f : Fld} {v : Nat}, f.off k 0 = R.ENC_STAT.off k 0 →
      (t.set f v k).get F.ENC_SPEED_VALUE k = t.get F.ENC_SPEED_VALUE k := fun stat => State.get_set_off (encSpeed_off_ne_stat stat)
  unfold State.standsStill
  rw [flag rfl, flag rfl, flag rfl, flag rfl]
  exact State.get_set (by decide)

theorem State.standsStill_flags : (s.standsStill k).on F.ENC_STAT_STILL k = true ∧ (s.standsStill k).on F.ENC_STAT_UNKNOWN k = true ∧
    (s.standsStill k).on F.ENC_STAT_SETTLING k = false ∧ (s.standsStill k).on F.ENC_STAT_MODE k = false := by
  simp (disch := decide) only [State.standsStill, State.on_set_ne, State.on_set]
  decide

end

section
variable {s : State} {k : Fin 2} {n : Nat} (last : (s.encoder k).lastEdge = some n)
include last

theorem doStandstill_early (early : s.sample < n + max 1 (s.get F.ENC_STILL_US) * 250) : doStandstill k s = s := by
  simp [doStandstill, last, early]

theorem doStandstill_stops (moved : s.on F.ENC_STAT_STILL k = false) (late : n + max 1 (s.get F.ENC_STILL_US) * 250 ≤ s.sample) :
    doStandstill k s = (s.standsStill k).setEncoder k { s.encoder k with intervals := [], settle := 0 } := by
  simp only [doStandstill, last, moved, Nat.not_lt.mpr late, decide_false, Bool.or_false, Bool.false_eq_true, if_false]
  rfl

end

/-- Settles O40: an edge by the lines that changed, the loss of the signal and its return, the index, a window's end, and standstill. -/
theorem encoderInputs : Obligations.EncoderInputs := by
  unfold Obligations.EncoderInputs
  refine fun s k a b => ⟨fun present => ⟨?uncounted, ?counted, ?illegal⟩, ?lost, ?loss, ⟨_, rfl, rfl, ?returned⟩, ?index,
    ?window, ?still⟩
  case uncounted => exact fun h => next_of_eq (doEncoderEdge_uncounted present h)
  case counted => exact fun on one => ⟨next_of_eq (doEncoderEdge_counts present on one), State.takeLines_countEdge_pe⟩
  case illegal => exact fun on ha hb => next_of_eq (doEncoderEdge_illegal present on ha hb)
  case lost => exact fun lost => ⟨next_of_eq (doEncoderEdge_lost lost), next_of_eq (doSignalLoss_lost lost)⟩
  case loss => exact fun present => next_of_eq (doSignalLoss_reports present)
  case returned => exact State.on_set (by decide)
  case index =>
    refine fun on present => ⟨fun agrees => next_of_eq (doIndexEdge_latches on present agrees), fun net counted checked differs => ?_⟩
    exact next_of_eq ((doIndexEdge_checks on present counted).trans (if_neg (not_or.mpr ⟨checked, differs⟩)))
  case window =>
    intro on ended
    refine ⟨_, next_of_eq (doSpeedWindowEnd_ends on ended), fun period => ?_, fun count => ?_, State.encoder_setEncoder_same ..⟩
    · exact ((State.setEncoder_on ..).trans State.windowSpeed_on_mode).trans (if_neg (by simp [period]))
    · exact ((State.setEncoder_on ..).trans State.windowSpeed_on_mode).trans (if_pos count)
  case still =>
    refine fun n last moved => ⟨fun early => next_of_eq (doStandstill_early last early), fun late => ?_⟩
    obtain ⟨still, unknown, settling, mode⟩ := State.standsStill_flags (s := s) (k := k)
    exact ⟨_, next_of_eq (doStandstill_stops last moved late), (State.setEncoder_get ..).trans State.standsStill_speed,
      (State.setEncoder_on ..).trans still, (State.setEncoder_on ..).trans unknown, (State.setEncoder_on ..).trans settling,
      (State.setEncoder_on ..).trans mode, State.encoder_setEncoder_same ..⟩

end Sys2Proof.Machine

/-! The statements of the family `10_firing`: upstream messages and their timeouts (O43). -/

namespace Sys2Proof.Machine

/-! ### The delivery of an upstream message (R33, R291) -/

section
variable {s u t : State} {p : Fin 16} {m : List Word} {k : Nat} {f : State → State}

theorem State.upOk_eq_true (up : s.portUp p = true) (kind : upType m = k) : s.upOk p m k = true := by
  simp [State.upOk, up, kind]

/-- A message of another type, or on a port that is not Up, posts no event and has no effect. -/
theorem next_of_ignored (bad : s.upOk p m k = false) (ignores : f s = s) :
    (.next (f (s.upEvent p m k)) : Host.Outcome State Fault Refusal) = .next s :=
  next_of_eq ((congrArg f (if_neg (by simp [bad]))).trans ignores)

/-- A message that is taken works on the state in which its port's event is posted, if that leaves the port Up. -/
theorem next_of_delivered (up : s.portUp p = true) (still : (s.postEvent (0x140 + p)).portUp p = true) (kind : upType m = k)
    (takes : (s.postEvent (0x140 + p)).upOk p m k = true → f (s.postEvent (0x140 + p)) = t) :
    (.next (f (s.upEvent p m k)) : Host.Outcome State Fault Refusal) = .next t :=
  next_of_eq ((congrArg f (if_pos (State.upOk_eq_true up kind))).trans (takes (State.upOk_eq_true still kind)))

end

/-! ### ACK and BNCAP (R294, R305, R310) -/

section
variable {s w : State} {p : Fin 16} {m : List Word} {q : Pend}

theorem doAck_unknown (ok : s.upOk p m 0x20 = true) (unknown : (s.fromSeg p m).takePend p (upArg m % 4096) = (none, w)) :
    doAck p m s = w := by
  simp [doAck, ok, unknown]

/-- The answer ends its exchange; what else it does is by its result and by the type of the message it answers. -/
theorem doAck_ends (ok : s.upOk p m 0x20 = true) (pending : (s.fromSeg p m).takePend p (upArg m % 4096) = (some q, w)) :
    doAck p m s =
      if upArg m / 4096 ≠ 0 then w
      else if q.mtype = 0x0E ∧ w.segState (p * 128 + q.dst) = sgStandby then w.setSegState (p * 128 + q.dst) sgActive
      else if q.mtype = 0x0C then w.setSeg (p * 128 + q.dst) { w.seg (p * 128 + q.dst) with pingMiss := 0 }
      else w := by
  simp [doAck, ok, pending]

/-- The bar node's declaration fails the port, or gives FAN and the presence mask. -/
theorem doBncap_answers (ok : s.upOk p m 0x21 = true) (pending : s.takePend p (upArg m % 4096) = (some q, w)) :
    doBncap p m s =
      if fieldOf (m.getD 1 0) 24 8 ≠ 1 ∨ 3516 < fieldOf (m.getD 3 0) 0 16 then
        ((w.report C.hlk_bn_refused (mkArg none (some p) 0)).portDown p).set F.HLK_PSTAT_BNSTATE 3 p
      else
        let w1 := w.setPort p { w.port p with bncap := m.drop 1 }
        let w2 := (w1.set F.HLK_PSTAT_BNSTATE 2 p).set F.HLK_PSTAT_FAN (fieldOf (m.getD 2 0) 0 16) p
        presence p (maskOf m 4) 128 (w2.setPdly p) := by
  simp [doBncap, ok, pending]

end

/-! ### CAP and SLOTINFO (R311, R312, R316) -/

/-- The segment's descriptor is kept, and its eight SLOTINFO are due within 1 ms. -/
def State.takeCap (s : State) (p : Nat) (m : List Word) (q : Pend) : State :=
  let w := s.setPort p { s.port p with
    pend := (s.port p).pend.map (fun r => if r.tok = q.tok then { r with due := some (s.now + 1000000) } else r) }
  w.setSeg (p * 128 + upSrc m) { w.seg (p * 128 + upSrc m) with cap := m.drop 1, capAt := some w.now }

/-- A segment whose descriptor passes is in Standby with the BUFD it declares. -/
def State.acceptCap (s : State) (sg : Nat) (m : List Word) : State :=
  (s.setSegState sg sgStandby).set F.HLK_SEG_BUFD (fieldOf ((m.drop 1).getD 4 0) 8 8) sg

/-- What a segment declares about one waveform slot, and the lead of its active slot. -/
def State.declareSlot (s : State) (sg : Nat) (m : List Word) : State :=
  let e := (upArg m % 8, fieldOf (m.getD 1 0) 31 1 == 1, fieldOf (m.getD 1 0) 24 4, (m.getD 2 0).toNat, (m.getD 3 0).toNat)
  let w := s.setSeg sg { s.seg sg with slots := (s.seg sg).slots.filter (fun t => t.1 != upArg m % 8) ++ [e] }
  w.set F.HLK_SEG_LEAD (min 65535 (w.activeSlot sg).2.2.2) sg

section
variable {s : State} {p : Fin 16} {m : List Word} {q : Pend}

section
variable (ok : s.upOk p m 0x22 = true)
  (pending : ((s.fromSeg p m).port p).pend.find? (fun q => q.tok == upArg m % 4096 && q.mtype == 0x09) = some q)
include ok pending

theorem doCap_refuses (fails : ((s.fromSeg p m).takeCap p m q).capPasses (p * 128 + upSrc m) (m.drop 1) = false) :
    doCap p m s = (((s.fromSeg p m).takeCap p m q).setSegState (p * 128 + upSrc m) sgRefused).report C.hlk_seg_incompatible
      (mkArg none (some p) (upSrc m)) := by
  simp only [doCap, ok, pending, Bool.not_true, Bool.false_eq_true, if_false]
  exact if_pos (congrArg Bool.not fails)

section
variable (passes : ((s.fromSeg p m).takeCap p m q).capPasses (p * 128 + upSrc m) (m.drop 1) = true)
include passes

theorem doCap_firstLink
    (new : ((((s.fromSeg p m).takeCap p m q).acceptCap (p * 128 + upSrc m) m).seg (p * 128 + upSrc m)).held = none) :
    doCap p m s = ((s.fromSeg p m).takeCap p m q).acceptCap (p * 128 + upSrc m) m := by
  simp only [State.takeCap, State.acceptCap] at passes new ⊢
  simp only [doCap, ok, pending, passes, new, Bool.not_true, Bool.false_eq_true, if_false]

/-- After a relink the same segment, enabled and of no bar, is admitted again. -/
theorem doCap_readmits {h : Nat × Nat}
    (held : ((((s.fromSeg p m).takeCap p m q).acceptCap (p * 128 + upSrc m) m).seg (p * 128 + upSrc m)).held = some h)
    (enabled : (((s.fromSeg p m).takeCap p m q).acceptCap (p * 128 + upSrc m) m).segen (p * 128 + upSrc m) = true)
    (same : h = (capSerial (m.drop 1), capSlotgen (m.drop 1)))
    (free : (((s.fromSeg p m).takeCap p m q).acceptCap (p * 128 + upSrc m) m).segBar (p * 128 + upSrc m) = none) :
    doCap p m s = (((s.fromSeg p m).takeCap p m q).acceptCap (p * 128 + upSrc m) m).sendAdmit (p * 128 + upSrc m) := by
  simp only [State.takeCap, State.acceptCap] at passes held enabled free ⊢
  simp only [doCap, ok, pending, passes, held, enabled, same, free, Option.any_none, Bool.not_true, Bool.not_false, Bool.false_eq_true,
    and_self, if_false, if_true]

end

end

/-- A SLOTINFO that no CAPQ waits for only declares its slot. -/
theorem doSlotinfo_declares (ok : s.upOk p m 0x23 = true) (unasked : ((s.fromSeg p m).seg (p * 128 + upSrc m)).capAt = none) :
    let x := (s.fromSeg p m).declareSlot (p * 128 + upSrc m) m
    doSlotinfo p m s = x.setSegLead.setRates ((x.segBar (p * 128 + upSrc m)).getD 0) := by
  simp [doSlotinfo, State.declareSlot, ok, unasked]

end

/-! ### STAGED and APPLIED (R308, R318) -/

/-- Whether a staged block of port `p` waits for the answer that a STAGED message gives. -/
def StagedBlock.answeredBy (p : Nat) (m : List Word) (b : StagedBlock) : Bool :=
  b.port == p && b.param.toNat == fieldOf (m.getD 1 0) 16 16 && bitN b.waiting (upSrc m) == 1

section
variable {s : State} {p : Fin 16} {m : List Word}

/-- A STAGED that a block of its group waits for ends that wait, and a failure names the first segment that failed. -/
theorem doStaged_answers (ok : s.upOk p m 0x24 = true) :
    let v := s.fromSeg p m
    let x := v.group (fieldOf (m.getD 1 0) 0 6)
    doStaged p m s =
      if !x.blocks.any (StagedBlock.answeredBy p m) then v
      else v.setGroup (fieldOf (m.getD 1 0) 0 6) { x with
        blocks := x.blocks.map (fun b => if b.answeredBy p m then { b with waiting := b.waiting - 2 ^ upSrc m } else b),
        failed := if upArg m / 4096 = 0 then x.failed else x.failed.orElse (fun _ => some (p.val * 128 + upSrc m)) } :=
  if_neg (by simp [ok])

/-- An APPLIED is no longer waited for; the one of a segment's JOIN makes the segment Active. -/
theorem doApplied_answers (ok : s.upOk p m 0x25 = true) :
    let v := s.fromSeg p m
    let g := upArg m % 64
    let sg := p * 128 + upSrc m
    let w := v.setGroup g { v.group g with unapplied := (v.group g).unapplied.filter (fun e => e.1 != sg) }
    doApplied p m s =
      if (w.seg sg).joinGroup = some g then
        (w.setSeg sg { w.seg sg with joinGroup := none,
                                     telLine := some (((w.flineOf ((w.segBar sg).getD 0)).toNat + 1) % 2 ^ 64) }).setSegState sg sgActive
      else w :=
  if_neg (by simp [ok])

end

/-! ### EVENT (R314) -/

section
variable {s : State} {p : Fin 16} {m : List Word} (ok : s.upOk p m 0x27 = true)
include ok

theorem doSegEvent_hot (code : upArg m % 256 = 0x01) : doSegEvent p m s = (s.fromSeg p m).hardLimit (p * 128 + upSrc m) := by
  simp [doSegEvent, ok, code]

theorem doSegEvent_hotClear (code : upArg m % 256 = 0x02) :
    doSegEvent p m s = (s.fromSeg p m).hotClear (p * 128 + upSrc m) (toSigned 16 (fieldOf (m.getD 1 0) 0 16)) := by
  simp [doSegEvent, ok, code]

theorem doSegEvent_dataMissing (code : upArg m % 256 = 0x03) :
    doSegEvent p m s = (s.fromSeg p m).linesLost (p * 128 + upSrc m) (fieldOf (m.getD 1 0) 0 16) (fieldOf (m.getD 1 0) 16 16) := by
  simp [doSegEvent, ok, code]

theorem doSegEvent_fireMissing (code : upArg m % 256 = 0x05) :
    doSegEvent p m s = (s.fromSeg p m).linesLost (p * 128 + upSrc m) 1 (fieldOf (m.getD 1 0) 0 16) := by
  simp [doSegEvent, ok, code]

theorem doSegEvent_noAction (code : upArg m % 256 = 0x04 ∨ upArg m % 256 = 0x06) : doSegEvent p m s = s.fromSeg p m := by
  rcases code with code | code <;> simp [doSegEvent, ok, code]

theorem doSegEvent_restart (code : upArg m % 256 = 0x07) (active : (s.fromSeg p m).segState (p * 128 + upSrc m) = sgActive) :
    doSegEvent p m s = ((s.fromSeg p m).setSegState (p * 128 + upSrc m) sgStandby).report C.hlk_seg_changed
      (mkArg none (some p.val) (upSrc m)) := by
  simp [doSegEvent, ok, code, active]

end

/-! ### FLOSS (R302) -/

section
variable {s w : State} {p : Fin 16} {m : List Word} (ok : s.upOk p m 0x2A = true) (counted : s.bump F.HLK_FECUNC_COUNT 1 p = w)
include ok counted

theorem doFloss_unowned (unowned : frameOwner w.liveFrame p = none) : doFloss p m s = w := by
  simp only [doFloss, ok, counted, unowned, Bool.not_true, Bool.false_eq_true, if_false]

/-- The messages of the lost frame that are still worth sending go again. -/
theorem doFloss_resends {b : Nat} {c : FrameCopy} (owned : frameOwner w.liveFrame p = some b)
    (kept : (w.port p).sent.find? (fun c => c.k % 4096 == upArg m % 4096) = some c) (enabled : w.on F.HLK_CFG_RESEND = true)
    (worth : c.msgs.filter (w.resendable p b) ≠ []) :
    doFloss p m s = (w.setPort p { w.port p with
      resendQ := (w.port p).resendQ ++ c.msgs.filter (w.resendable p b) }).bump F.HLK_RESEND_COUNT 1 p := by
  simp only [doFloss, ok, counted, owned, kept, Bool.not_true, Bool.false_eq_true, if_false]
  exact if_neg (by simp [enabled, worth])

end

/-! ### The timeouts of a block and of an APPLIED (R308) -/

section
variable {s : State} {g : Fin 64} {k : Nat} {b : StagedBlock} (block : (s.group g).blocks[k]? = some b)
include block

theorem doStageTimeout_resends (waits : b.waiting ≠ 0) (late : b.due.any (fun t => decide (t ≤ s.now)) = true)
    (fewer : b.tries < max 1 (s.get F.HLK_CFG_RETRY)) (committed : s.gstate g = cgCommitted) :
    let b' := { b with due := none, tries := b.tries + 1 }
    doStageTimeout g k s =
      (s.setGroup g { s.group g with blocks := (s.group g).blocks.set k b' }).sendStage g (s.gline g) b' b.waiting := by
  simp only [doStageTimeout, block]
  refine if_neg ?_
  rintro (answered | early | spent | other)
  · exact waits answered
  · simp [late] at early
  · exact fewer.not_ge spent
  · exact other committed

/-- A block that no segment has to answer, or that was sent as often as it may be, is not sent again. -/
theorem doStageTimeout_stands (ended : b.waiting = 0 ∨ max 1 (s.get F.HLK_CFG_RETRY) ≤ b.tries) : doStageTimeout g k s = s := by
  simp only [doStageTimeout, block]
  exact if_pos (ended.imp_right fun spent => .inr (.inl spent))

end

/-- The end of a segment's answer time: SEGEN is cleared after QUIET, and the segment leaves the set that fires. -/
def State.dropUnapplied (s : State) (g sg : Nat) : State :=
  let q := sg % 128
  let u1 := s.setGroup g { s.group g with unapplied := (s.group g).unapplied.filter (fun e => e.1 != sg) }
  let u2 := u1.report C.cmt_seg_apply_missed (mkArg none (some (sg / 128)) q)
  let u3 := u2.sendQuiet sg (u2.fireBar ((u2.segBar sg).getD 0)).next
  let off := R.HLK_SEGEN.off (sg / 128) (q / 32)
  let u4 := u3.wr off (fieldPut (u3.rd off) (q % 32) 1 0)
  let u5 := u4.setSeg sg { u4.seg sg with joinGroup := none }
  if u5.segState sg = sgActive then u5.setSegState sg sgStandby else u5.segSetChanged (sg / 128)

theorem doAppliedTimeout_eq {s : State} {g : Fin 64} {sg : Fin 2048} : doAppliedTimeout g sg s =
    if (s.group g).unapplied.any (fun e => e.1 == sg.val && decide (e.2 ≤ s.now)) = false then s else s.dropUnapplied g sg := by
  simp only [doAppliedTimeout, Bool.not_eq_true']
  rfl

/-! ### Stale telemetry (R252) -/

/-- The number of lines after which a segment without a report is stale. -/
def State.staleAfter (s : State) : Nat := max 1 (s.get F.FIRE_GCFG_TELSTALE) * max 1 (s.get F.FIRE_GCFG_TELLINES)

section
variable {s : State} {sg : Fin 2048}

theorem doTelemetryStale_derates {l : Nat} (active : s.segState sg = sgActive) (owned : (s.segBar sg).isSome = true)
    (fires : s.barActive (s.barOf sg) = true) (fresh : s.on F.FIRE_SEG_STALE sg = false) (last : (s.seg sg).telLine = some l)
    (late : l + s.staleAfter ≤ ((s.flineOf (s.barOf sg)).toNat + 1) % 2 ^ 64) :
    doTelemetryStale sg s = ((s.set F.FIRE_SEG_STALE 1 sg).softLimit sg).segReport C.fire_telemetry_stale sg := by
  have owner : (s.segBar sg).isNone = false := Option.isNone_eq_false_iff.mpr owned
  exact if_neg (by simpa [active, owner, fires, fresh, last, State.staleAfter] using late)

/-- A segment that is not Active, whose bar does not fire, or whose last report is recent is not stale. -/
theorem doTelemetryStale_stands (quiet : s.segState sg ≠ sgActive ∨ s.barActive (s.barOf sg) = false ∨
    ∃ l, (s.seg sg).telLine = some l ∧ ((s.flineOf (s.barOf sg)).toNat + 1) % 2 ^ 64 < l + s.staleAfter) :
    doTelemetryStale sg s = s := by
  refine if_pos ?_
  rcases quiet with other | idle | ⟨l, last, recent⟩
  · exact .inl other
  · exact .inr (.inr (.inl (by simp [idle])))
  · exact .inr (.inr (.inr (.inr (by simpa [last, State.staleAfter] using recent))))

end

/-- Settles O43: a message that is not taken, each message that is, and the three timeouts. -/
theorem upstreamMessages : Obligations.UpstreamMessages := by
  unfold Obligations.UpstreamMessages
  intro s p m
  refine ⟨?ignored, ?delivered, fun g k b block => ⟨?resends, ?stands⟩, fun g sg => ⟨?answered, ?missed⟩, fun sg => ⟨?stale, ?fresh⟩⟩
  case ignored =>
    intro t bad
    refine ⟨?_, ?_, ?_, ?_, ?_, ?_, ?_, ?_, ?_, ?_⟩
    all_goals
      rintro rfl
      exact next_of_ignored bad (if_pos (by simp [bad]))
  case delivered =>
    intro u v sg tok up still
    refine ⟨fun ack => ⟨?unknown, ?ends⟩, fun bncap q w pending => ⟨?refused, ?declared⟩, fun cap q pending => ⟨?fails, ?first, ?again⟩,
      fun slot unasked => ?slotinfo, fun staged => ⟨?unawaited, ?awaited⟩, fun applied => ⟨?data, ?join⟩, ?telem, fun event => ?event,
      ?bnstat, fun floss => ⟨?unowned, ?resend⟩⟩
    case unknown => exact fun w unknown => next_of_delivered up still ack fun ok => doAck_unknown ok unknown
    case ends =>
      refine fun q w pending => ⟨fun refused => ?_, fun good admission standby => ?_, fun good ping => ?_⟩
      all_goals refine next_of_delivered up still ack fun ok => (doAck_ends ok pending).trans ?_
      · exact if_pos refused
      · simp [good, admission, standby]
      · simp [good, ping]
    case refused => exact fun bad => next_of_delivered up still bncap fun ok => (doBncap_answers ok pending).trans (if_pos bad)
    case declared =>
      refine fun version latency => next_of_delivered up still bncap fun ok => (doBncap_answers ok pending).trans (if_neg ?_)
      exact not_or.mpr ⟨not_not.mpr version, latency.not_gt⟩
    case fails => exact fun fails => next_of_delivered up still cap fun ok => doCap_refuses ok pending fails
    case first => exact fun passes new => next_of_delivered up still cap fun ok => doCap_firstLink ok pending passes new
    case again =>
      exact fun h passes held enabled same free =>
        next_of_delivered up still cap fun ok => doCap_readmits ok pending passes held enabled same free
    case slotinfo => exact next_of_delivered up still slot fun ok => doSlotinfo_declares ok unasked
    case unawaited =>
      exact fun unawaited => next_of_delivered up still staged fun ok =>
        (doStaged_answers ok).trans (if_pos (congrArg Bool.not unawaited))
    case awaited =>
      exact fun awaited => next_of_delivered up still staged fun ok =>
        (doStaged_answers ok).trans (if_neg (ne_true_of_eq_false (congrArg Bool.not awaited)))
    case data => exact fun other => next_of_delivered up still applied fun ok => (doApplied_answers ok).trans (if_neg other)
    case join => exact fun join => next_of_delivered up still applied fun ok => (doApplied_answers ok).trans (if_pos join)
    case telem => exact fun telem => next_of_delivered up still telem fun ok => if_neg (by simp [ok])
    case event =>
      refine ⟨fun code => ?_, fun code => ?_, fun code => ?_, fun code => ?_, fun code => ?_, fun code active => ?_⟩
      · exact next_of_delivered up still event fun ok => doSegEvent_hot ok code
      · exact next_of_delivered up still event fun ok => doSegEvent_hotClear ok code
      · exact next_of_delivered up still event fun ok => doSegEvent_dataMissing ok code
      · exact next_of_delivered up still event fun ok => doSegEvent_fireMissing ok code
      · exact next_of_delivered up still event fun ok => doSegEvent_noAction ok code
      · exact next_of_delivered up still event fun ok => doSegEvent_restart ok code active
    case bnstat => exact fun bnstat => next_of_delivered up still bnstat fun ok => if_neg (by simp [ok])
    case unowned => exact fun unowned => next_of_delivered up still floss fun ok => doFloss_unowned ok rfl unowned
    case resend =>
      exact fun b c owned kept enabled worth =>
        next_of_delivered up still floss fun ok => doFloss_resends ok rfl owned kept enabled worth
  case resends => exact fun waits late fewer committed => next_of_eq (doStageTimeout_resends block waits late fewer committed)
  case stands => exact fun ended => next_of_eq (doStageTimeout_stands block ended)
  case answered => exact fun answered => next_of_eq (doAppliedTimeout_eq.trans (if_pos answered))
  case missed => exact fun missed => next_of_eq (doAppliedTimeout_eq.trans (if_neg (by simp [missed])))
  case stale =>
    exact fun active owned fires fresh ⟨l, last, late⟩ => next_of_eq (doTelemetryStale_derates active owned fires fresh last late)
  case fresh => exact fun quiet => next_of_eq (doTelemetryStale_stands quiet)

end Sys2Proof.Machine

/-! The statements of the family `11_head_link_physical`: head ports and their link-up (O41), and link frames (O42). -/

namespace Sys2Proof.Machine

/-! ### Enabling a port (R265, R277) -/

section
variable {s : State} {p : Fin 16} {v : Word}

/-- A write that sets EN of a Down port puts it in Test by TEST, and starts a link-up otherwise. -/
theorem State.writeHlpCtl_enables (was : fieldOf (s.rd (R.HLP_CTL.off p 0)) 31 1 = 0) (down : s.get F.HLP_STAT_STATE p = 0)
    (present : (s.swWrite (R.HLP_CTL.off p 0) v).portPresent p = true) (en : (s.swWrite (R.HLP_CTL.off p 0) v).on F.HLP_CTL_EN p = true) :
    s.writeHlpCtl p v =
      let u := s.swWrite (R.HLP_CTL.off p 0) v
      if u.on F.HLP_CTL_TEST p then u.set F.HLP_STAT_STATE 8 p
      else ((u.setPort p { u.port p with attempts := 0 }).set F.HLP_RTT_VALID 0 p).startLink p := by
  simp [State.writeHlpCtl, was, down, present, en]

end

/-! ### Upstream training frames (R264 to R267) -/

/-- A good frame that lies at the word boundary of the port. -/
def State.hits (s : State) (p : Nat) (f : TrainFrame) : Bool := f.good && (f.ubit.toNat == s.get F.HLP_SKEW_UBIT p)

section
variable {s : State} {p : Fin 16} {f : TrainFrame}

/-- A frame that is not good starts the search for the word boundary again. -/
theorem doUpstreamTrainingFrame_searchLost (state : s.get F.HLP_STAT_STATE p = 1) (bad : f.good = false) :
    doUpstreamTrainingFrame p f s = s.setPort p { s.port p with good := 0, precap := f.precap } := by
  simp [doUpstreamTrainingFrame, state, bad]

theorem doUpstreamTrainingFrame_deskews (state : s.get F.HLP_STAT_STATE p = 3) :
    doUpstreamTrainingFrame p f s = if s.hits p f then s.deskewStep p (toSigned 6 f.skew.toNat) else s := by
  simp only [doUpstreamTrainingFrame, state]
  rfl

theorem doUpstreamTrainingFrame_equalises (state : s.get F.HLP_STAT_STATE p = 4) :
    doUpstreamTrainingFrame p f s = s.equaliseStep p { f with good := s.hits p f } := by
  simp only [doUpstreamTrainingFrame, state, State.hits]

theorem doUpstreamTrainingFrame_echoes (state : s.get F.HLP_STAT_STATE p = 5) :
    doUpstreamTrainingFrame p f s = s.echoStep p { f with good := s.hits p f } := by
  simp only [doUpstreamTrainingFrame, state, State.hits]

theorem doUpstreamTrainingFrame_trainsLane {j : LaneJob} (state : s.get F.HLP_STAT_STATE p = 6) (rests : (s.port p).lane = some j) :
    doUpstreamTrainingFrame p f s = s.laneStep p f j := by
  simp only [doUpstreamTrainingFrame, state, rests]

/-- Down, Failed and Test take no training frame. -/
theorem doUpstreamTrainingFrame_ignored
    (state : s.get F.HLP_STAT_STATE p = 0 ∨ s.get F.HLP_STAT_STATE p = 7 ∨ s.get F.HLP_STAT_STATE p = 8) :
    doUpstreamTrainingFrame p f s = s := by
  obtain state | state | state := state <;> simp only [doUpstreamTrainingFrame, state]

end

section
variable {s : State} {p t : Nat} {sk : Int}

/-- A reading of 0 aligns the lanes; one beyond the range of a delay, or after four corrections, fails. -/
theorem deskew_ends (ends : sk = 0 ∨ 31 < sk.natAbs ∨ 4 ≤ t) : deskew p sk t s = (if sk = 0 then .aligned else .failed, s) := by
  by_cases zero : sk = 0
  · simp [deskew, zero]
  · simp [deskew, zero, ends.resolve_left zero]

/-- Any other reading delays the earlier lane; that a sum beyond the range of a delay fails the attempt is log entry 83. -/
theorem deskew_moves (skewed : sk ≠ 0) (inRange : sk.natAbs ≤ 31) (left : t < 4) :
    let g := if 0 < sk then F.HLP_SKEW_DA else F.HLP_SKEW_DB
    deskew p sk t s = if 31 < s.get g p + sk.natAbs then (.failed, s) else (.moved (t + 1), s.set g (s.get g p + sk.natAbs) p) :=
  (if_neg skewed).trans (if_neg (not_or.mpr ⟨inRange.not_gt, left.not_ge⟩))

end

/-! ### The limit of an attempt and its restart (R268) -/

section
variable {s : State} {p : Fin 16} {t : Nat}

theorem doLinkupTimeout_eq : doLinkupTimeout p s =
    if 1 ≤ s.get F.HLP_STAT_STATE p ∧ s.get F.HLP_STAT_STATE p ≤ 5 ∧
        (s.port p).startAt + 1000 * max 1 (s.get F.HLP_CTL_LUTO p) < s.now then s.linkFail p C.hlp_linkup_timeout
    else s := rfl

theorem doLinkupRestart_paused (paused : (s.port p).pauseEnd = some t) :
    doLinkupRestart p s = if s.on F.HLP_CTL_EN p = true ∧ t ≤ s.now then s.startLink p else s := by
  simp [doLinkupRestart, paused]

end

/-! ### Slips, taps, recalibration and injections (R267, R269, R273, R277, R279) -/

section
variable {s : State} {p : Fin 16} {v : Word}

theorem doSlip_ignored (closed : s.on F.HLP_CTL_MANUAL p = false ∨ s.portUp p = true) : doSlip p v s = s := by
  obtain closed | closed := closed <;> exact if_pos (by simp [closed])

/-- A slip of a manual port that is not Up moves the boundary or the delay that its kind and lane name. -/
theorem doSlip_slips (go : fieldOf v 0 1 = 1) (manual : s.on F.HLP_CTL_MANUAL p = true) (notUp : s.portUp p = false) :
    doSlip p v s =
      if fieldOf v 1 1 = 1 ∧ fieldOf v 2 2 = 2 then s.set F.HLP_SKEW_UBIT ((s.get F.HLP_SKEW_UBIT p + 1) % 512) p
      else if fieldOf v 1 1 = 0 ∧ fieldOf v 2 2 = 0 then s.set F.HLP_SKEW_DA ((s.get F.HLP_SKEW_DA p + 1) % 32) p
      else if fieldOf v 1 1 = 0 ∧ fieldOf v 2 2 = 1 then s.set F.HLP_SKEW_DB ((s.get F.HLP_SKEW_DB p + 1) % 32) p
      else s :=
  if_neg (by simp [go, manual, notUp])

/-- A lane takes the taps written while it neither carries frames nor is calibrated, if they lie in their range. -/
theorem doFfeWrite_eq {l : Fin 2} :
    let a := toSigned 8 (fieldOf v 0 8)
    let b := toSigned 8 (fieldOf v 8 8)
    let c := toSigned 8 (fieldOf v 16 8)
    doFfeWrite p l v s =
      if s.portPresent p = false ∨ s.carries p l = true ∨ s.calibrating p l = true ∨ tapsOk a b c = false then s
      else s.putTaps p l a b c := by
  simp only [doFfeWrite, Bool.or_eq_true, Bool.not_eq_true', or_assoc]

/-- GO takes lane LANE of a port in two-lane mode out of service to calibrate it, and is refused in any other mode. -/
theorem doRecalibrate_go (go : fieldOf v 31 1 = 1) :
    let u := s.swWrite (R.HLP_CAL.off p 0) v
    let l := fieldOf v 30 1
    doRecalibrate p v s =
      if u.portUp p = false ∨ u.get F.HLP_STAT_MODE p ≠ 0 ∨ u.on F.HLP_STAT_CALRUN p = true then u.set F.HLP_CAL_REFUSED 1 p
      else ((u.setPort p { u.port p with lane := some { lane := l, recal := true, phase := .eq (TapCal.start l) } }).set
        F.HLP_STAT_MODE (if l = 0 then 2 else 1) p).set F.HLP_STAT_CALRUN 1 p := by
  simp [doRecalibrate, go, or_assoc]

/-- The generator of a port whose loopback is checked runs in Test. -/
theorem State.loopChecked_generates (checked : s.loopChecked p = true) :
    s.get F.HLP_STAT_STATE p = 8 ∧ s.on F.HLP_PGEN_EN p = true := by
  simp only [State.loopChecked, Bool.and_eq_true, beq_iff_eq] at checked
  obtain ⟨⟨⟨⟨⟨test, _⟩, generates⟩, _⟩, _⟩, _⟩ := checked
  exact ⟨test, generates⟩

theorem doPatternInject_uncounted
    (uncounted : let u := (s.swWrite (R.HLP_PGEN.off p 0) v).checkerLock p
      fieldOf v 25 1 = 0 ∨ u.loopChecked p = false ∨ u.on F.HLP_PCHK_LOCK p = false) :
    doPatternInject p v s = (s.swWrite (R.HLP_PGEN.off p 0) v).checkerLock p := by
  obtain idle | idle | idle := uncounted <;> simp [doPatternInject, idle]

/-- A locked checker counts the inverted bit of a PRBS pattern; that it locks as soon as the loop is set up is log entry 12. -/
theorem doPatternInject_counts (inject : fieldOf v 25 1 = 1)
    (checked : ((s.swWrite (R.HLP_PGEN.off p 0) v).checkerLock p).loopChecked p = true)
    (locked : ((s.swWrite (R.HLP_PGEN.off p 0) v).checkerLock p).on F.HLP_PCHK_LOCK p = true)
    (prbs : ((s.swWrite (R.HLP_PGEN.off p 0) v).checkerLock p).get F.HLP_PGEN_PAT p < 4) :
    doPatternInject p v s = ((s.swWrite (R.HLP_PGEN.off p 0) v).checkerLock p).bump F.HLP_PERR_COUNT 1 p := by
  obtain ⟨test, generates⟩ := State.loopChecked_generates checked
  simp [doPatternInject, inject, test, generates, checked, locked, prbs.ne, (prbs.trans (by decide : 4 < 5)).ne]

/-- GO arms an injection into the next frame of a lane that carries frames. -/
theorem doFrameInject_eq :
    let u := s.swWrite (R.HLP_INJ.off p 0) v
    let l := fieldOf v 30 1
    doFrameInject p v s =
      if fieldOf v 31 1 = 0 ∨ u.carries p l = false then u
      else u.setPort p { u.port p with inj := some { lane := l, nbits := clampN 1 16 (fieldOf v 20 5), start := fieldOf v 0 11 } } := by
  simp [doFrameInject]

end

/-- Settles O41: each write by what its register does, a training frame by the port's state, a skew reading by its size. -/
theorem headPortLinkUp : Obligations.HeadPortLinkUp := by
  unfold Obligations.HeadPortLinkUp
  refine fun s p v f => ⟨fun reaches => ⟨next_busWrite reaches rfl, next_busWrite reaches rfl, ?enables⟩,
    ⟨?deskews, ?misses, ?equalises, ?echoes, ?lane, ?ignored, ?searchLost⟩,
    fun c sk t => ⟨deskew_ends, deskew_moves⟩, ⟨?late, ?inTime⟩, fun t paused => ⟨?restarts, ?waits⟩,
    fun reaches go manual notUp => ⟨?boundary, ?delayA, ?delayB⟩, fun reaches closed => next_busWrite reaches (doSlip_ignored closed),
    fun l reaches => ⟨?tapsStay, ?taps⟩, fun reaches go => ⟨?refused, ?recalibrates⟩, fun reaches => ⟨?uncounted, ?counted⟩,
    fun reaches => ⟨?unarmed, ?armed⟩⟩
  case enables =>
    intro _ was down u present en
    refine ⟨fun test => ?_, fun normal => ?_⟩
    · exact (State.writeHlpCtl_enables was down present en).trans (if_pos test)
    · exact (State.writeHlpCtl_enables was down present en).trans (if_neg (ne_true_of_eq_false normal))
  case deskews => exact fun state hit => next_of_eq ((doUpstreamTrainingFrame_deskews state).trans (if_pos hit))
  case misses => exact fun state miss => next_of_eq ((doUpstreamTrainingFrame_deskews state).trans (if_neg (ne_true_of_eq_false miss)))
  case equalises => exact fun state => next_of_eq (doUpstreamTrainingFrame_equalises state)
  case echoes => exact fun state => next_of_eq (doUpstreamTrainingFrame_echoes state)
  case lane => exact fun state j rests => next_of_eq (doUpstreamTrainingFrame_trainsLane state rests)
  case ignored => exact fun state => next_of_eq (doUpstreamTrainingFrame_ignored state)
  case searchLost =>
    exact fun state bad => ⟨_, next_of_eq (doUpstreamTrainingFrame_searchLost state bad), congrArg Port.good (State.port_setPort_same ..),
      (State.setPort_get ..).trans state⟩
  case late => exact fun training most late => next_of_eq (doLinkupTimeout_eq.trans (if_pos ⟨training, most, late⟩))
  case inTime => exact fun inTime => next_of_eq (doLinkupTimeout_eq.trans (if_neg (by omega)))
  case restarts => exact fun en ended => next_of_eq ((doLinkupRestart_paused paused).trans (if_pos ⟨en, ended⟩))
  case waits => exact fun early => next_of_eq ((doLinkupRestart_paused paused).trans (if_neg fun ⟨_, ended⟩ => early.not_ge ended))
  case boundary => exact fun kind lane => next_busWrite reaches ((doSlip_slips go manual notUp).trans (if_pos ⟨kind, lane⟩))
  case delayA => exact fun kind lane => next_busWrite reaches ((doSlip_slips go manual notUp).trans (by simp [kind, lane]))
  case delayB => exact fun kind lane => next_busWrite reaches ((doSlip_slips go manual notUp).trans (by simp [kind, lane]))
  case tapsStay => exact fun stay => next_busWrite reaches (doFfeWrite_eq.trans (if_pos (Or.inr stay)))
  case taps => exact fun present idle settled ok => next_busWrite reaches (doFfeWrite_eq.trans (if_neg (by simp [present, idle, settled, ok])))
  case refused => exact fun refused => next_busWrite reaches ((doRecalibrate_go go).trans (if_pos refused))
  case recalibrates =>
    exact fun up both still => next_busWrite reaches ((doRecalibrate_go go).trans (if_neg (by simp [up, both, still])))
  case uncounted => exact fun uncounted => next_busWrite reaches (doPatternInject_uncounted uncounted)
  case counted => exact fun inject checked locked prbs => next_busWrite reaches (doPatternInject_counts inject checked locked prbs)
  case unarmed => exact fun unarmed => next_busWrite reaches (doFrameInject_eq.trans (if_pos unarmed))
  case armed => exact fun go carries => next_busWrite reaches (doFrameInject_eq.trans (if_neg (by simp [go, carries])))

/-! ### Downstream frames (R271, R284, R302, R304) -/

/-- Frame 0 of a link fixes its epoch. -/
def State.startsEpoch (s : State) (p : Nat) : State :=
  if (s.port p).k = 0 then s.setPort p { s.port p with epoch := some s.fireC } else s

section
variable {s : State} {p : Nat}

/-- An epoch moves no message and no port between bars. -/
theorem State.startsEpoch_queues :
    ((s.startsEpoch p).port p).fireQ = (s.port p).fireQ ∧ ((s.startsEpoch p).port p).resendQ = (s.port p).resendQ ∧
    ((s.startsEpoch p).port p).ctlQ = (s.port p).ctlQ ∧ (s.startsEpoch p).liveFrame = s.liveFrame := by
  unfold State.startsEpoch
  split
  · simp only [State.port_setPort_same, true_and]
    rfl
  · exact ⟨rfl, rfl, rfl, rfl⟩

/-- A port that no bar owns and whose queues are empty sends an idle frame. -/
theorem State.startsEpoch_frameMsgs_idle (fire : (s.port p).fireQ = []) (resend : (s.port p).resendQ = []) (ctl : (s.port p).ctlQ = [])
    (unowned : frameOwner s.liveFrame p = none) : ((s.startsEpoch p).frameMsgs p).1 = [] := by
  obtain ⟨sameFire, sameResend, sameCtl, sameFrame⟩ := State.startsEpoch_queues (s := s) (p := p)
  exact State.frameMsgs_nil _ _ (sameFire.trans fire) (sameResend.trans resend) (sameCtl.trans ctl) (sameFrame ▸ unowned)

theorem State.sendFrame_sent_head {k : Nat} {msgs : List (List Word)} :
    ((s.sendFrame p k msgs).port p).sent.head? = some { k := k, msgs := msgs } := by
  rw [(State.sendFrame_port s p k msgs).2]
  rfl

end

section
variable {s : State} {p : Fin 16}

theorem doDownstreamFrame_down (down : s.portUp p = false) : doDownstreamFrame p s = s := if_pos (by simp [down])

theorem doDownstreamFrame_up (up : s.portUp p = true) : doDownstreamFrame p s =
    ((s.startsEpoch p).frameMsgs p).2.sendFrame p (s.port p).k ((s.startsEpoch p).frameMsgs p).1 :=
  if_neg (by simp [up])

end

/-! ### Upstream frames (R272, R290) -/

/-- A bad frame is counted, in all and in a row. -/
def State.countBad (s : State) (p : Nat) : State :=
  let u := s.bump F.HLK_UPCRC_COUNT 1 p
  u.setPort p { u.port p with upBad := (u.port p).upBad + 1 }

section
variable {s : State} {p : Fin 16} {f : List Word}

theorem doUpstreamFrame_down (down : s.portUp p = false) : doUpstreamFrame p f s = s := if_pos (by simp [down])

/-- The CRC decides between the delivery of a frame's messages and its count; the eighth bad frame in a row takes the port down. -/
theorem doUpstreamFrame_up (up : s.portUp p = true) (whole : f.length = 16) : doUpstreamFrame p f s =
    if crc32c ((f.take 15).flatMap beField) ≠ f.getD 15 0 then
      if 8 ≤ (s.port p).upBad + 1 then ((s.countBad p).report C.hlp_up_loss (mkArg none (some p.val) 0)).portDown p
      else s.countBad p
    else upMessages p 14 ((f.drop 1).take (min 14 (fieldOf (f.getD 0 0) 12 4))) (s.setPort p { s.port p with upBad := 0 }) :=
  if_neg (by simp [up, whole])

end

/-! ### Unanswered messages and PING (R305, R315) -/

/-- Message `q` waits for an answer again from the end of the frame that carries it once more. -/
def State.sendAgain (s : State) (p : Nat) (q : Pend) : State :=
  s.setPort p { s.port p with
    pend := (s.port p).pend.map (fun r => if r.tok = q.tok then { r with due := none, tries := r.tries + 1 } else r),
    ctlQ := (s.port p).ctlQ ++ [q.words] }

section
variable {s : State} {p : Fin 16} {tok : BitVec 12} {q : Pend}

section
variable (pending : (s.port p).pend.find? (fun q => q.tok == tok.toNat) = some q)
include pending

theorem doAckTimeout_waits (waits : q.due.any (fun t => decide (t ≤ s.now)) = false) : doAckTimeout p tok s = s := by
  simp only [doAckTimeout, pending, waits, Bool.not_false, if_true]

theorem doAckTimeout_resends (due : q.due.any (fun t => decide (t ≤ s.now)) = true) (left : q.tries < max 1 (s.get F.HLK_CFG_RETRY))
    (up : s.portUp p = true) : doAckTimeout p tok s = s.sendAgain p q := by
  simp only [doAckTimeout, pending, due, Bool.not_true, Bool.false_eq_true, if_false, left, up, if_true, State.sendAgain]

/-- After the last retry the message is given up; a LOADREQ ends MEAS_LOAD too. -/
theorem doAckTimeout_givesUp (due : q.due.any (fun t => decide (t ≤ s.now)) = true)
    (last : max 1 (s.get F.HLK_CFG_RETRY) ≤ q.tries) :
    doAckTimeout p tok s = if q.mtype = 0x12 then (s.giveUp p q).loadDone 3 else s.giveUp p q := by
  simp only [doAckTimeout, pending, due, Bool.not_true, Bool.false_eq_true, if_false, last.not_gt]

end

theorem doPingPeriod_down (down : s.portUp p = false) : doPingPeriod p s = s := if_pos (by simp [down])

theorem doPingPeriod_pings (up : s.portUp p = true) (enabled : s.get F.HLK_CFG_PING ≠ 0) : doPingPeriod p s =
    (((List.range 128).map (p.val * 128 + ·)).filter (fun sg => s.segState sg == sgStandby || s.segState sg == sgActive)).foldl
      (fun s sg => s.sendPing sg) s :=
  if_neg (by simp [up, enabled])

end

/-- Settles O42: frames both ways on a port that is not Up and on one that is, the timeout of a message, and PING. -/
theorem linkFrames : Obligations.LinkFrames := by
  unfold Obligations.LinkFrames
  refine fun s p f tok => ⟨fun down => ⟨?_, ?_, ?_⟩, fun up => ?downstream,
    fun up whole => ⟨fun good => ?good, fun bad => ⟨?counted, ?eighth⟩⟩, fun q pending => ⟨?waits, ?resends, ?givesUp, ?loadFails⟩,
    fun up enabled => next_of_eq (doPingPeriod_pings up enabled)⟩
  · exact next_of_eq (doDownstreamFrame_down down)
  · exact next_of_eq (doUpstreamFrame_down down)
  · exact next_of_eq (doPingPeriod_down down)
  case downstream =>
    exact ⟨next_of_eq (doDownstreamFrame_up up), (State.sendFrame_port ..).1, State.sendFrame_sent_head, State.startsEpoch_frameMsgs_idle⟩
  case good => exact next_of_eq ((doUpstreamFrame_up up whole).trans (if_neg (not_not.mpr good)))
  case counted =>
    exact fun few => next_of_eq ((doUpstreamFrame_up up whole).trans ((if_pos bad).trans (if_neg (by omega))))
  case eighth =>
    exact fun seven => next_of_eq ((doUpstreamFrame_up up whole).trans ((if_pos bad).trans (if_pos (Nat.succ_le_succ seven))))
  case waits => exact fun waits => next_of_eq (doAckTimeout_waits pending waits)
  case resends => exact fun due left up => next_of_eq (doAckTimeout_resends pending due left up)
  case givesUp => exact fun due last other => next_of_eq ((doAckTimeout_givesUp pending due last).trans (if_neg other))
  case loadFails => exact fun due last load => next_of_eq ((doAckTimeout_givesUp pending due last).trans (if_pos load))

end Sys2Proof.Machine

/-! The statements of the family `13_dram_controller`: requests, command slots and upkeep of DRAM (O44). -/

namespace Sys2Proof.Machine

/-! ### Requests (R329, R331, R333) -/

section
variable {s u : State} {port : DramPort} {addr : BitVec 40}

theorem doDramRequest_closed {req : DramOp} (closed : s.on F.DMC_CTL_EN = false ∨ s.on F.DMC_STAT_FCBUSY = true) :
    doDramRequest port req s = s :=
  if_pos (by rcases closed with off | busy <;> simp [*])

section
variable (en : s.on F.DMC_CTL_EN = true) (free : s.on F.DMC_STAT_FCBUSY = false)
include en free

section
variable {bytes : List Byte} (nonempty : bytes ≠ [])
include nonempty

theorem doDramRequest_write_outside (outside : s.dramOk addr.toNat bytes.length = false) :
    doDramRequest port (.write addr bytes) s = s.dramRange addr.toNat := by
  simp [doDramRequest, en, free, nonempty, outside]

/-- An accepted write is in DRAM at once; one that finds no place waits. -/
theorem doDramRequest_write_inside (inside : s.dramOk addr.toNat bytes.length = true) : doDramRequest port (.write addr bytes) s =
    (s.acceptReq port true none addr.toNat bytes.length).elim s (·.writeDram addr.toNat bytes) := by
  simp only [doDramRequest, en, free, nonempty, inside, Bool.not_true, Bool.or_self, Bool.false_eq_true, if_false]
  cases s.acceptReq port true none addr.toNat bytes.length <;> rfl

end

theorem doDramRequest_read_outside {len : Nat} (pos : len ≠ 0) (outside : s.dramOk addr.toNat len = false) :
    doDramRequest port (.read addr len) s = s.dramRange addr.toNat := by
  simp [doDramRequest, en, free, pos, outside]

theorem doDramRequest_read_inside {len : Nat} (pos : len ≠ 0) (inside : s.dramOk addr.toNat len = true) :
    doDramRequest port (.read addr len) s = (s.acceptReq port false none addr.toNat len).getD s := by
  simp [doDramRequest, en, free, pos, inside]

theorem doDramRequest_fetch {b : Fin 8} {inst group stripe a n : Nat} {g : FetchGroup} (on : s.on F.IBF_CTL_EN b = true)
    (found : (s.pipe b).groups.find? (fun g => g.inst == inst && g.group == group && g.stripe == stripe) = some g)
    (next : s.nextFetch b g = some (a, n)) (runs : s.touchesStopped a n = false)
    (accepted : s.acceptReq (.rt b) false (some (inst, group, stripe)) a n = some u) :
    doDramRequest (.rt b) (.fetch inst group stripe) s = u.setGroupOf b { g with asked := g.asked + n } := by
  simp [doDramRequest, en, free, on, found, next, runs, accepted]

end

section
variable {w : Bool} {who : Option (Nat × Nat × Nat)} {a n : Nat}

theorem State.acceptReq_full (full : s.devPlaces (s.lineChans (lineAddrs a n)).length = false) : s.acceptReq port w who a n = none :=
  if_neg (by simp [full])

theorem State.acceptReq_room (places : (s.lineChans (lineAddrs a n)).all (fun c => s.hasPlace c port) = true)
    (room : s.devPlaces (s.lineChans (lineAddrs a n)).length = true) : s.acceptReq port w who a n =
      some ((s.lineChans (lineAddrs a n)).foldl (fun s c => s.enqueueReq c port w who (lineAddrs a n)) s) :=
  if_pos (by rw [places, room]; rfl)

end

end

/-! ### Command slots and bursts (R334, R345) -/

/-- A command slot first settles whether writes go first. -/
def State.settleDrain (s : State) (c : Nat) : State := s.setChan c { s.chan c with drain := s.drainNow c }

section
variable {s : State} {c : Fin 4} {err : List (Fin 16 × Fin 10 × BitVec 4)}

theorem doDramCommandSlot_closed (closed : s.slotOpen c = false) : doDramCommandSlot c s = s :=
  if_pos (by simp [closed])

/-- While no bank is held open by prediction and none has used up its activations, a slot issues the request that R334 picks; with
none queued and no port in panic it issues a postponed REFab. -/
theorem doDramCommandSlot_open (opened : s.slotOpen c = true) (rested : (s.chan c).hold = []) (fresh : s.fullBanks c = []) :
    doDramCommandSlot c s =
      let u := s.settleDrain c
      (u.slotPick c (s.chan c).queue.zipIdx (u.chan c).queue (u.chan c).drain 5 0).elim
        (if (u.chan c).queue = [] ∧ u.anyPanic = false then u.issuePostponed c else u) (fun e => u.issueReq c e.2 e.1) := by
  have held : (s.chan c).hold.foldl (fun s e => s.setChan c ((s.chan c).expire s.now e.1)) s = s := by rw [rested]; rfl
  have every (l : List (DReq × Nat)) : l.filter (fun e => s.isHit c e.1 || !([] : List Nat).contains (s.reqBank e.1).1) = l := by simp
  simp only [doDramCommandSlot, State.settleDrain, opened, held, fresh, every, List.isEmpty_nil, Bool.not_true, Bool.and_false,
    Bool.false_eq_true, if_false, Nat.lt_irrefl, Bool.not_eq_true']
  split <;> next pick => rw [pick]; rfl

theorem doBurstDecode_idle (idle : (s.chan c).issued = []) : doBurstDecode c err s = s := by
  simp [doBurstDecode, idle]

/-- A burst of a request that no fetcher waits for is decoded where it ends. -/
theorem doBurstDecode_reads {r : DReq} {rest : List DReq} {a : Nat} {beats : List (List Nat)} {more : List (Nat × List (List Nat))}
    (issued : (s.chan c).issued = r :: rest) (lines : r.lines = (a, beats) :: more) (who : r.who = none) : doBurstDecode c err s =
      let u := s.setChan c { s.chan c with issued := if more = [] then rest else { r with lines := more } :: rest }
      let d := u.decodeBurst a beats err
      { d.st with dmc := { d.st.dmc with out := d.bytes, outBad := d.bad } } := by
  simp [doBurstDecode, issued, lines, who]

end

/-! ### Refresh and self-refresh (R336 to R339) -/

section
variable {s : State} {c : Fin 4} (en : s.on F.DMC_CTL_EN = true)
include en

section
variable {rank : Fin 2} (classS : s.on F.DMC_STAT_CLASSL = false) (used : s.chanInUse c = true) (active : s.get F.DMC_CHSTAT_STATE c = 4)
include classS used active

/-- A REFab is postponed while requests wait or a port is in panic, and four at most are. -/
theorem doRefreshInterval_class_s (present : rank.val < s.get F.DMC_CHSTAT_RANKS c) : doRefreshInterval c rank s =
    let x := s.chan c
    let n := Tab.get (fun _ => 0) x.postponed rank.val
    if (x.queue ≠ [] ∨ s.anyPanic = true) ∧ n < 4 then
      s.setChan c { x with postponed := Tab.put (fun _ => 0) x.postponed rank.val (n + 1) }
    else s.refreshRank c rank 1 :=
  if_neg (by simp [en, classS, used, active, present])

/-- Once its idle time has passed, an idle channel sleeps with its banks precharged and no REFab owed. -/
theorem doSelfRefreshEntry_idle (free : s.on F.DMC_STAT_FCBUSY = false) (idle : s.flight c = []) (may : s.on F.DMC_SRCFG_SREN = true)
    (calm : s.anyPanic = false) (noBar : s.leastLtol = none) : doSelfRefreshEntry c s =
      if s.now < (s.chan c).lastReq + 1000 * max 1 (s.get F.DMC_SRCFG_SRIDLE) then s
      else (s.setChan c { (s.chan c).precharge with postponed := [] }).set F.DMC_CHSTAT_STATE 5 c := by
  simp [doSelfRefreshEntry, en, classS, free, used, active, idle, may, calm, noBar]

end

theorem doRefreshWindow_class_l (classL : s.on F.DMC_STAT_CLASSL = true) (free : s.on F.DMC_STAT_FCBUSY = false) : doRefreshWindow s =
    if s.tbNs 0 < s.rfNext then s else (s.setRfNext (s.rfNext + s.get F.DMC_RFWIN_INTERVAL)).startWindow := by
  simp [doRefreshWindow, en, classL, free]

end

/-! ### MR4 polls (R340) -/

/-- What a poll shows: the registers, and whether a rank is above its operating range. -/
def State.mr4View (s : State) : Tab Word × Bool := (s.regs, s.dmc.beyond)

/-- What the codes of a poll leave: the heat of each rank, the hottest code and whether a rank is above its operating range. -/
def State.mr4Noted (s : State) (used : List Mr4) : State :=
  let t := (used.foldl (fun s m => s.noteMr4 m) s).set F.DMC_TEMP_MR4MAX ((used.map (·.code.toNat)).foldl max 0)
  { t with dmc := { t.dmc with beyond := used.any (·.beyond) } }

/-- The report of the first rank above its operating range. -/
def State.mr4Reported (s : State) (used : List Mr4) : State :=
  match used.find? (·.beyond) with
  | some m => s.report C.dmc_dram_overtemp (mkArg none (some m.chan.val) m.rank.val)
  | none => s

/-- What a poll leaves in either class: the codes noted, the report made, and STAT.HOT. -/
def State.mr4Settled (s : State) (used : List Mr4) : State :=
  let t := (s.mr4Noted used).mr4Reported used
  t.set F.DMC_STAT_HOT (if t.chans.any t.chanHot then 1 else 0)

/-- The codes of a poll that name ranks of channels in use. -/
def State.mr4Used (s : State) (codes : List Mr4) : List Mr4 :=
  codes.filter (fun m => s.chanInUse m.chan && decide (m.rank.val < s.get F.DMC_CHSTAT_RANKS m.chan))

section
variable {s t : State} {used codes : List Mr4} {f : Fld} {i j : Nat}

theorem State.get_of_mr4View (same : t.mr4View = s.mr4View) : t.get f i j = s.get f i j := by
  have regs : t.regs = s.regs := congrArg Prod.fst same
  simp only [State.get, State.rd, regs]

theorem State.foldl_mr4View {α : Type} {l : List α} {f : State → α → State} (keeps : ∀ s a, (f s a).mr4View = s.mr4View) :
    (l.foldl f s).mr4View = s.mr4View :=
  List.foldlRecOn l f (motive := fun t => t.mr4View = s.mr4View) rfl (fun t same a _ => (keeps t a).trans same)

theorem State.refreshRank_mr4View {c r n : Nat} : (s.refreshRank c r n).mr4View = s.mr4View := by
  unfold State.refreshRank
  simp only
  split <;> rfl

theorem State.issueAll_mr4View {c : Nat} : (s.issueAll c).mr4View = s.mr4View :=
  State.foldl_mr4View (s := s.setChan c { s.chan c with postponed := [] }) fun _ _ => State.refreshRank_mr4View

theorem State.mr4Reported_mr4View : (s.mr4Reported used).mr4View = s.mr4View := by
  unfold State.mr4Reported
  split <;> rfl

theorem State.mr4Settled_max :
    (s.mr4Settled used).get F.DMC_TEMP_MR4MAX = (used.map (·.code.toNat)).foldl max 0 % 256 :=
  calc (s.mr4Settled used).get F.DMC_TEMP_MR4MAX
    _ = ((s.mr4Noted used).mr4Reported used).get F.DMC_TEMP_MR4MAX := State.get_set_off (by decide)
    _ = (s.mr4Noted used).get F.DMC_TEMP_MR4MAX := State.get_of_mr4View State.mr4Reported_mr4View
    _ = _ := State.get_set (by decide)

theorem State.mr4Settled_beyond : (s.mr4Settled used).dmc.beyond = used.any (·.beyond) :=
  congrArg Prod.snd (State.mr4Reported_mr4View (s := s.mr4Noted used))

/-- The class of the controller stays. -/
theorem State.mr4Settled_classl : (s.mr4Settled used).get F.DMC_STAT_CLASSL = s.get F.DMC_STAT_CLASSL :=
  calc (s.mr4Settled used).get F.DMC_STAT_CLASSL
    _ = ((s.mr4Noted used).mr4Reported used).get F.DMC_STAT_CLASSL := State.get_set_ne (by decide) (by decide)
    _ = (s.mr4Noted used).get F.DMC_STAT_CLASSL := State.get_of_mr4View State.mr4Reported_mr4View
    _ = (used.foldl (fun s m => s.noteMr4 m) s).get F.DMC_STAT_CLASSL := State.get_set_off (by decide)
    _ = s.get F.DMC_STAT_CLASSL := State.get_of_mr4View (State.foldl_mr4View fun _ _ => rfl)

theorem doMr4Poll_off (off : s.on F.DMC_CTL_EN = false) : doMr4Poll codes s = s :=
  if_pos (by simp [off])

/-- In Class S a poll then only issues the postponed REFab of the channels that became hot, and reports them. -/
theorem doMr4Poll_class_s_mr4View (en : s.on F.DMC_CTL_EN = true) (classS : s.on F.DMC_STAT_CLASSL = false) :
    (doMr4Poll codes s).mr4View = (s.mr4Settled (s.mr4Used codes)).mr4View := by
  have stays : ¬ (s.mr4Settled (s.mr4Used codes)).on F.DMC_STAT_CLASSL = true := by
    rw [State.on, State.mr4Settled_classl]
    exact Bool.eq_false_iff.mp classS
  rw [doMr4Poll, if_neg (by simp [en])]
  refine (congrArg State.mr4View (if_neg stays)).trans (State.foldl_mr4View fun t c => ?_)
  split
  · rfl
  · exact State.issueAll_mr4View

end

/-! ### Timing sets and frequency change (R342, R343) -/

section
variable {s : State}

theorem doTimingDerived_stands {k : Fin 2} {cl : BitVec 8} {t0 : Nat} (runs : Tab.get (fun _ => none) s.dmc.derive k.val = some t0) :
    doTimingDerived k cl s =
      let u : State := { s with dmc := { s.dmc with derive := Tab.put (fun _ => none) s.dmc.derive k.val none } }
      ((u.set F.DMC_TSET_VALID 1 k).set F.DMC_TSET_CL cl.toNat k).set F.DMC_TSET_TRFC u.trfc k := by
  simp only [doTimingDerived, runs]

section
variable {v : Word} (go : fieldOf v 31 1 = 1)
include go

theorem doFrequencyChange_refused (bad : s.printing = true ∨ s.on F.DMC_STAT_FCBUSY = true ∨
    fieldOf v 30 1 = s.get F.DMC_STAT_ACTSET ∨ s.on F.DMC_TSET_VALID (fieldOf v 30 1) = false) :
    doFrequencyChange v s = s.set F.DMC_FCHG_REFUSED 1 := by
  have start : ¬ fieldOf v 31 1 = 0 := by omega
  exact (if_neg start).trans (if_pos (by simpa [or_assoc] using bad))

/-- A change that may start runs from the instant of its write. -/
theorem doFrequencyChange_starts (still : s.printing = false) (free : s.on F.DMC_STAT_FCBUSY = false)
    (other : fieldOf v 30 1 ≠ s.get F.DMC_STAT_ACTSET) (valid : s.on F.DMC_TSET_VALID (fieldOf v 30 1) = true) :
    (doFrequencyChange v s).dmc.change = some (fieldOf v 30 1, (doFrequencyChange v s).now) := by
  have start : ¬ fieldOf v 31 1 = 0 := by omega
  rw [doFrequencyChange, if_neg start, if_neg (by simp [still, free, other, valid])]

end

theorem doFrequencyChangeDone_idle {ok : Bool} (idle : s.dmc.change = none) : doFrequencyChangeDone ok s = s := by
  simp only [doFrequencyChangeDone, idle]

/-- A change ends once the requests in flight have: back on the former set, or on the new one, which is then trained. -/
theorem doFrequencyChangeDone_ends {ok : Bool} {k t0 : Nat} (runs : s.dmc.change = some (k, t0))
    (quiet : ∀ c ∈ s.chans, (s.flight c).isEmpty = true) : doFrequencyChangeDone ok s =
      let u := (s.set F.DMC_STAT_ACTSET k).resumeDram
      let w : State := { u with dmc := { u.dmc with trained := k :: u.dmc.trained.filter (· != k) } }
      if ok then (w.set F.DMC_FCHG_DONE 1).set F.DMC_FCHG_LAST (min 65535 ((w.now - t0) / 1000))
      else s.resumeDram.report C.dmc_recal_fail (mkArg none none k) := by
  have noFlight : s.chans.any (fun c => !(s.flight c).isEmpty) = false := by simpa [List.any_eq_false] using quiet
  simp only [doFrequencyChangeDone, runs, noFlight, Bool.false_eq_true, if_false]

end

/-! ### Patrol scrub, injection, oscillators and training (R347 to R349) -/

section
variable {s : State} {c : Fin 4}

/-- The scrub reads its next line, and writes it back unless the line is uncorrectable or its channel is in raw test. -/
theorem doPatrolScrub_inside (en : s.on F.DMC_CTL_EN = true) (scrubs : s.on F.DMC_SCRUB_EN = true)
    (free : s.on F.DMC_STAT_FCBUSY = false) (begun : 0 < s.dmc.scrubAt) (left : s.dmc.scrubAt + 1 < s.dramBytes / 64) : doPatrolScrub s =
      let r := (s.setScrubAt (s.dmc.scrubAt + 1)).readBurst (s.dmc.scrubAt * 64)
      if r.bad || r.st.on F.DMC_ECCTEST_RAW (r.st.chanAddr (s.dmc.scrubAt * 64)).1 then r.st
      else { r.st with dmc := { r.st.dmc with data := putBytes r.st.dmc.data (s.dmc.scrubAt * 64) r.bytes,
                                              chk := clearChk r.st.dmc.chk (s.dmc.scrubAt * 64) } } := by
  have populated : s.dramBytes ≠ 0 := by intro zero; simp [zero] at left
  have within : ¬ s.dramBytes / 64 ≤ s.dmc.scrubAt := by omega
  simp [doPatrolScrub, en, scrubs, free, populated, within, begun.ne', left.ne]

theorem doEccInject_off {v : Word} (off : fieldOf v 31 1 = 0) : doEccInject c v s = s.swWrite (R.DMC_INJ.off c 0) v :=
  if_neg (by omega)

theorem doEccInject_arms {v : Word} (on : fieldOf v 31 1 = 1) : doEccInject c v s =
    let u := s.swWrite (R.DMC_INJ.off c 0) v
    u.setChan c { u.chan c with inj := some (u.rd (R.DMC_INJ.off c 0)) } :=
  if_pos on

theorem doDqsOscillatorRun_runs {drift : Nat} (en : s.on F.DMC_CTL_EN = true) (free : s.on F.DMC_STAT_FCBUSY = false)
    (used : s.chanInUse c = true) (may : s.on F.DMC_STAT_CLASSL = false ∨ s.now < s.dmc.winEnd) :
    doDqsOscillatorRun c drift s = s.oscRun c drift :=
  if_neg (by rcases may with classS | inWindow <;> simp [*])

theorem doDramTraining_ends {ok : Bool} (trains : s.get F.DMC_CHSTAT_STATE c = 2) : doDramTraining c ok s =
    let u := s.set F.DMC_CHSTAT_STATE 4 c
    if ok then (u.set F.DMC_STAT_TRAINED (Nat.lor (u.get F.DMC_STAT_TRAINED) (2 ^ c.val))).updDmcStat
    else ((s.set F.DMC_CHSTAT_STATE 3 c).report C.dmc_train_fail (mkArg none (some c.val) 0)).updDmcStat :=
  if_neg (not_not.mpr trains)

theorem doDramTraining_other {ok : Bool} (other : s.get F.DMC_CHSTAT_STATE c ≠ 2) : doDramTraining c ok s = s :=
  if_pos other

end

/-- Settles O44: requests and command slots first, then refresh, self-refresh, the timing sets, the frequency change, the scrub,
injection, the oscillators and training. -/
theorem dramRequests : Obligations.DramRequests := by
  unfold Obligations.DramRequests
  refine ⟨fun s port addr c => ⟨?closed, fun en free => ⟨?write, ?read, ?fetch⟩, ⟨?full, ?room⟩, ?slotClosed, ?slotOpen, ?burst⟩,
    fun s c k v => ⟨?refresh, ?window, ?mr4Off, ?mr4, ?selfRefresh, ?tset, ?derived, ?change, ?changeDone, ?scrub, ?inject, ?drift,
      ?training, ?trained⟩⟩
  case closed => exact fun closed req => next_of_eq (doDramRequest_closed closed)
  case write =>
    refine fun bytes nonempty => ⟨fun outside => next_of_eq (doDramRequest_write_outside en free nonempty outside), fun inside => ?_⟩
    have writes := doDramRequest_write_inside (port := port) en free nonempty inside
    exact ⟨fun u accepted => next_of_eq (writes.trans (by rw [accepted]; rfl)),
      fun waits => next_of_eq (writes.trans (by rw [waits]; rfl))⟩
  case read =>
    exact fun len pos => ⟨fun outside => next_of_eq (doDramRequest_read_outside en free pos outside),
      fun inside => next_of_eq (doDramRequest_read_inside en free pos inside)⟩
  case fetch =>
    rintro b inst group stripe g a n rfl on found next runs u accepted
    exact next_of_eq (doDramRequest_fetch en free on found next runs accepted)
  case full => exact fun full w => State.acceptReq_full full
  case room => exact fun places room w => State.acceptReq_room places room
  case slotClosed => exact fun closed => next_of_eq (doDramCommandSlot_closed closed)
  case slotOpen =>
    intro opened rested fresh u pick
    have slot : doDramCommandSlot c s = pick.elim _ _ := doDramCommandSlot_open opened rested fresh
    refine ⟨fun r i picked => ?_, fun noPick busy => ?_, fun noPick idle calm => ?_⟩
    · exact next_of_eq (slot.trans (by rw [picked]; rfl))
    · refine next_of_eq (slot.trans ((congrArg (Option.elim · _ _) noPick).trans (if_neg ?_)))
      rintro ⟨empty, calm⟩
      exact busy.elim (· empty) (fun panic => Bool.false_ne_true (calm.symm.trans panic))
    · exact next_of_eq (slot.trans ((congrArg (Option.elim · _ _) noPick).trans (if_pos ⟨idle, calm⟩)))
  case burst =>
    exact fun err => ⟨fun idle => next_of_eq (doBurstDecode_idle idle),
      fun r rest a beats more issued lines who => next_of_eq (doBurstDecode_reads issued lines who)⟩
  case refresh =>
    intro rank en classS used active present x n
    have interval := doRefreshInterval_class_s en classS used active present
    refine ⟨fun waits few => next_of_eq (interval.trans (if_pos ⟨waits, few⟩)), fun done => next_of_eq (interval.trans (if_neg ?_))⟩
    rintro ⟨waits, few⟩
    rcases done with ⟨empty, calm⟩ | four
    · exact waits.elim (· empty) (fun panic => Bool.false_ne_true (calm.symm.trans panic))
    · exact few.not_ge four
  case window =>
    intro en classL free
    have window := doRefreshWindow_class_l en classL free
    exact ⟨fun early => next_of_eq (window.trans (if_pos early)), fun due => next_of_eq (window.trans (if_neg due.not_gt))⟩
  case mr4Off => exact fun codes off => next_of_eq (doMr4Poll_off off)
  case mr4 =>
    intro codes en classS used
    have view : (doMr4Poll codes s).mr4View = (s.mr4Settled used).mr4View := doMr4Poll_class_s_mr4View en classS
    exact ⟨_, rfl, (State.get_of_mr4View view).trans State.mr4Settled_max, (congrArg Prod.snd view).trans State.mr4Settled_beyond⟩
  case selfRefresh =>
    intro en classS free used active idle may calm noBar
    have entry := doSelfRefreshEntry_idle en classS used active free idle may calm noBar
    exact ⟨fun due => next_of_eq (entry.trans (if_neg due.not_gt)), fun early => next_of_eq (entry.trans (if_pos early))⟩
  case tset => exact fun reaches => next_busWrite reaches rfl
  case derived => exact fun cl t0 runs => next_of_eq (doTimingDerived_stands runs)
  case change =>
    exact fun reaches go => ⟨fun bad => next_busWrite reaches (doFrequencyChange_refused go bad),
      fun still free other valid => ⟨_, next_busWrite reaches rfl, doFrequencyChange_starts go still free other valid⟩⟩
  case changeDone =>
    refine fun ok => ⟨fun idle => next_of_eq (doFrequencyChangeDone_idle idle), fun set t0 runs quiet => ⟨?_, ?_⟩⟩
    · exact next_of_eq ((doFrequencyChangeDone_ends runs quiet).trans (if_neg Bool.false_ne_true))
    · exact next_of_eq ((doFrequencyChangeDone_ends runs quiet).trans (if_pos rfl))
  case scrub =>
    intro en scrubs free begun left r
    have scrub := doPatrolScrub_inside en scrubs free begun left
    exact ⟨fun bad => next_of_eq (scrub.trans (if_pos (by simp [r, bad]))),
      fun good kept => next_of_eq (scrub.trans (if_neg (by simp [r, good, kept])))⟩
  case inject =>
    exact fun reaches => ⟨fun off => next_busWrite reaches (doEccInject_off off), fun on => next_busWrite reaches (doEccInject_arms on)⟩
  case drift =>
    intro drift en free used may u w
    have run := doDqsOscillatorRun_runs (drift := drift) en free used may
    refine ⟨fun small => ?_, fun above within => ?_, fun above beyond => ?_⟩
    · exact next_of_eq (run.trans (if_pos small))
    · exact next_of_eq (run.trans ((if_neg above.not_ge).trans (if_neg within.not_gt)))
    · exact next_of_eq (run.trans ((if_neg above.not_ge).trans (if_pos beyond)))
  case training =>
    intro trains u
    exact ⟨next_of_eq ((doDramTraining_ends trains).trans (if_pos rfl)),
      next_of_eq ((doDramTraining_ends trains).trans (if_neg Bool.false_ne_true))⟩
  case trained => exact fun other ok => next_of_eq (doDramTraining_other other)

end Sys2Proof.Machine

/-! The statement of the family `14_tarn_memory_protection`: what a step keeps of the form of the memories (O4). -/

namespace Sys2Proof.Machine

/-! ### One step -/

/-- What a command answers keeps what its start state has: `exec` answers one state, and that one keeps it. -/
theorem keeps_of_exec_next {s t : State} {c : Instr} (done : exec c s = .next t) : Keeps s t := by
  obtain ⟨u, answers, keeps⟩ := exec_keeps c (Keeps.refl s)
  obtain rfl : u = t := Host.Outcome.next.inj (answers.symm.trans done)
  exact keeps

/-- All that a step can do (log entries 2 and 17): a tick on an empty queue, or the front command, which keeps what the state has with
the rest of the queue. -/
theorem step_next_cases {s t : State} (h : step s = .next t) :
    (s.pending = [] ∧ t = s.idle) ∨ ∃ c rest, s.pending = c :: rest ∧ Keeps { s with pending := rest } t := by
  unfold step at h
  split at h
  case h_1 empty => exact .inl ⟨empty, (Host.Outcome.next.inj h).symm⟩
  case h_2 c rest front => exact .inr ⟨c, rest, front, keeps_of_exec_next h⟩

/-- The queue is no memory: taking its front leaves the memories as they were. -/
theorem Memory.wf_pending {s : State} {queue : List Instr} : Memory.wf { s with pending := queue } = Memory.wf s := rfl

/-- Settles O4: the tick by what it keeps of the memories, the front command by what every command keeps. -/
theorem stepKeepsMemoriesCanonical : Obligations.StepKeepsMemoriesCanonical := by
  unfold Obligations.StepKeepsMemoriesCanonical
  intro s t canonical h
  obtain ⟨-, rfl⟩ | ⟨c, rest, -, keeps⟩ := step_next_cases h
  · exact State.idle_wf canonical
  · exact keeps.memory (Memory.wf_pending.trans canonical)

end Sys2Proof.Machine

/-! The statements of the family `15_camera_and_colour_loop`: the camera ports with their frames and lines (O46), and gate CAM with the
triggers and the pipeline (O47). -/

namespace Sys2Proof.Machine

/-! ### The port of a camera (R371, R389) -/

section
variable {s : State} {k : Fin 2} {v : Word}

theorem doCameraAbsent_due (en : s.on F.CAM_PCTL_EN k = true) (due : (s.cam k).enAt + 1000000 ≤ s.now) : doCameraAbsent k s =
    let u := (s.set F.CAM_PSTAT_PRESENT 0 k).setCam k { s.cam k with absentRep := true, khz := 0 }
    if (s.cam k).absentRep then u else u.report C.cam_absent (mkArg none (some k.val) 0) := by
  simp [doCameraAbsent, en, Nat.not_lt.mpr due]

/-- A write of PCTL that raises EN: the bank voltage decides whether the port starts afresh (R371, R372). -/
theorem State.writePctl_raises (was : fieldOf (s.rd (R.CAM_PCTL.off k 0)) 31 1 = 0)
    (en : (s.swWrite (R.CAM_PCTL.off k 0) v).on F.CAM_PCTL_EN k = true) : s.writePctl k v =
    let w := s.swWrite (R.CAM_PCTL.off k 0) v
    if w.get F.CAM_PCTL_IOV k ≠ w.get F.CAM_PSTAT_IOSENSE k then
      ((w.set F.CAM_PCTL_EN 0 k).set F.CAM_PSTAT_IOERR 1 k).report C.cam_io_mismatch (mkArg none (some k.val) 0)
    else w.setCam k { w.cam k with
      enAt := w.now, absentRep := false, open_ := false, num := 0, received := 0, frames := [], queue := [], accOf := none, prev := [],
      streams := [], pulse := none, pulseH := none, frameCnt := 0, dropCnt := 0 } := by
  simp [State.writePctl, was, en]

end

/-! ### The start and the end of a frame (R372, R415) -/

section
variable {s : State} {k : Fin 2}

theorem doFrameStart_opens (en : s.on F.CAM_PCTL_EN k = true) (closed : (s.cam k).open_ = false) : doFrameStart k s =
    let x := s.cam k
    let late := x.pulse.any (fun t => decide (t + 1000 * s.get F.CAM_TRIG_LATE k < s.now))
    let f : CamFrame := { num := x.num, late := late, short := false, long := false, drop := false, lineErr := false, uncorr := false,
                          done := false }
    let u := (s.setCam k { x with
      open_ := true, num := (x.num + 1) % 2 ^ 32, received := 0, stamp0 := s.pos, firstAt := s.now, lastAt := s.now,
      frames := x.frames ++ [f], pulseH := none }).set F.CAM_PSTAT_INFRAME 1 k
    if late then u.report C.cam_frame_late (mkArg none (some k.val) 0) else u :=
  if_neg (by simp [en, closed])

/-- A frame that has all its lines, and whose record the pipeline still needs, ends without PAD lines. -/
theorem State.endFrame_complete (complete : s.camH k ≤ (s.cam k).received) (two : 2 ≤ (s.cam k).received)
    (undone : ∀ f ∈ (s.cam k).frames, f.num ≠ (s.cam k).cur ∨ f.done = false) : s.endFrame k =
    let x := s.cam k
    (s.setCam k { x with
      open_ := false, lastLines := min 65535 x.received, period := (x.lastAt - x.firstAt) / (x.received - 1), pulse := x.pulseH,
      pulseH := none }).set F.CAM_PSTAT_INFRAME 0 k := by
  have kept : (s.cam k).frames.any (fun f => f.num == (s.cam k).cur && f.done) = false := by
    simpa [List.any_eq_false, ← imp_iff_not_or] using undone
  simp [State.endFrame, complete, two, kept]

theorem doFrameEnd_open (inFrame : (s.cam k).open_ = true) : doFrameEnd k s = s.endFrame k :=
  if_pos inFrame

/-- With CAMTO below 10 the crossing does not watch the clock, and PRESENT stays (log entry 71). -/
theorem doCameraClockTimeout_unwatched (inFrame : (s.cam k).open_ = true) (unwatched : s.get F.XING_CTL_CAMTO < 10) :
    doCameraClockTimeout k s = s.endFrame k := by
  simp [doCameraClockTimeout, inFrame, Nat.not_le.mpr unwatched]

end

/-! ### A line of a frame (R370, R372, R373, R376) -/

/-- A line counts for its frame, whether it is kept or not: LASTW, the lines received, and the times of the first and the last. -/
def State.countCamLine (s : State) (k : Nat) (row : List Nat) : State :=
  let x := s.cam k
  (s.set F.CAM_PSTAT_LASTW (min 65535 (row.length / s.camComps k)) k).setCam k
    { x with received := x.received + 1, firstAt := if x.received = 0 then s.now else x.firstAt, lastAt := s.now }

section
variable {s : State} {k : Fin 2} {ds : List (BitVec 16)} (en : s.on F.CAM_PCTL_EN k = true) (inFrame : (s.cam k).open_ = true)
include en inFrame

theorem doCameraLine_tooMany (full : (s.countCamLine k (widen (s.camFmt k) ds)).camH k ≤ (s.cam k).received) :
    doCameraLine k ds s = (s.countCamLine k (widen (s.camFmt k) ds)).noteLong k :=
  (if_neg (by simp [en, inFrame])).trans (if_pos full)

theorem doCameraLine_fits {row : List Nat} {u : State} (widened : widen (s.camFmt k) ds = row) (counted : s.countCamLine k row = u)
    (wanted : (s.cam k).received < u.camH k) (room : u.camUsed k + s.camW k ≤ 32768)
    (wide : row.length / s.camComps k = s.camW k) : doCameraLine k ds s =
      let y := u.cam k
      let fixed := fixLine (s.camW k * s.camComps k) (s.camComps k) row u
      let z := fixed.2.setCam k { y with queue := y.queue ++ [{
        frame := y.cur, idx := y.received - 1, stamp := fixed.2.pos, pads := 0, drop := false, pix := fixed.1 }] }
      if y.received = z.camH k then z.set F.CAM_PSTAT_INFRAME 0 k else z := by
  simp only [State.countCamLine] at counted
  simp only [doCameraLine, widened, State.set_now, counted]
  simp [en, inFrame, wanted.not_ge, room, wide]

end

/-- Settles O46: the port first, then the start of a frame, its lines and its end. -/
theorem cameraFrames : Obligations.CameraFrames := by
  unfold Obligations.CameraFrames
  refine fun s k khz v io ds => ⟨rfl, ?absent, ?enable, ?start, ?line, ?finish⟩
  case absent => exact fun en due => next_of_eq (doCameraAbsent_due en due)
  case enable =>
    intro reaches u w was en
    have raises : doCameraEnable k v io s = _ := State.writePctl_raises was en
    exact ⟨fun other => next_busWrite reaches (raises.trans (if_pos other)),
      fun same => next_busWrite reaches (raises.trans (if_neg (not_not_intro same)))⟩
  case start => exact fun en closed => next_of_eq (doFrameStart_opens en closed)
  case line =>
    exact fun en inFrame => ⟨fun full => next_of_eq (doCameraLine_tooMany en inFrame full),
      fun wanted room wide => next_of_eq (doCameraLine_fits en inFrame rfl rfl wanted room wide)⟩
  case finish =>
    intro inFrame complete two undone u
    have ends : s.endFrame k = u s := State.endFrame_complete complete two undone
    exact ⟨next_of_eq ((doFrameEnd_open inFrame).trans ends),
      fun unwatched => next_of_eq ((doCameraClockTimeout_unwatched inFrame unwatched).trans ends)⟩

/-! ### Gate CAM (R379) -/

section
variable {s : State} {d : Desc} {op : Nat} {act : Desc → State → State} (next : s.nextCamDesc = some d) (own : d.op.toNat = op)
  (running : (s.gate camGate).stopped = false)
include next own running

theorem State.camDesc_refuses (bad : s.camDescOk d = false) : s.camDesc op act = s.refuseCam d := by
  simp [State.camDesc, next, own, running, bad]

theorem State.camDesc_acts (ok : s.camDescOk d = true) : s.camDesc op act = act d s := by
  simp [State.camDesc, next, own, running, ok]

end

section
variable {s : State} {d : Desc} (next : s.nextCamDesc = some d) (running : (s.gate camGate).stopped = false) (ok : s.camDescOk d = true)
include next running ok

theorem doPatch_waits (own : d.op.toNat = 3) (busy : (s.cam (d.w4.toNat % 2)).patch ≠ none) : doPatch s = s :=
  (State.camDesc_acts next own running ok).trans (if_pos (Option.isSome_iff_ne_none.mpr busy))

theorem doBand_waits (own : d.op.toNat = 4) (busy : (s.cam (d.w4.toNat % 2)).band ≠ none) : doBand s = s :=
  (State.camDesc_acts next own running ok).trans (if_pos (Option.isSome_iff_ne_none.mpr busy))

/-- PATCH takes the patch table as the live bank holds it (R380). -/
theorem doPatch_takes (own : d.op.toNat = 3) (free : (s.cam (d.w4.toNat % 2)).patch = none) : doPatch s =
    let k := d.w4.toNat % 2
    let r := s.readTarn ((s.bankAddr 0x3F00 false).getD 0) 4096
    let u := r.st.takeCam
    let origin := leNat (r.bytes.take 8)
    let period := max 1 (leNat ((r.bytes.drop 8).take 4))
    let nmin := u.lineNear d.w7.toNat
    u.setCam k { u.cam k with patch := some {
      addr := d.w6.toNat - 0x10000000, origin := origin, period := period, guard := leNat ((r.bytes.drop 14).take 2),
      first := if nmin ≤ origin then origin else origin + cdiv (nmin - origin) period * period,
      recs := parsePatches r.bytes, acc := (parsePatches r.bytes).map (fun _ => (0, 0, 0)) } } :=
  (State.camDesc_acts next own running ok).trans (if_neg (by simp [free]))

theorem doBand_takes (own : d.op.toNat = 4) (free : (s.cam (d.w4.toNat % 2)).band = none) : doBand s =
    let k := d.w4.toNat % 2
    s.takeCam.setCam k { s.cam k with band := some {
      bar := fieldOf d.w4 1 3, white := fieldOf d.w4 16 16, dash := clampN 1 16 (fieldOf d.w4 9 5), pitch := max 4 (fieldOf d.w4 4 5),
      aexp := d.w5.toNat, addr := d.w6.toNat - 0x10000000, start := s.lineNear d.w7.toNat, acc := [] } } :=
  (State.camDesc_acts next own running ok).trans (if_neg (by simp [free]))

end

/-! ### Triggers and strobes (R374) -/

section
variable {s : State} {k : Fin 2} {t : Nat}

theorem doTriggerPulse_early (armed : (s.cam k).trig = some t) (early : s.pos < t) : doTriggerPulse k s = s := by
  simp [doTriggerPulse, armed, early]

/-- With no frame in progress a pulse is noted for the next frame, and none for the one after it (R372). -/
theorem doTriggerPulse_betweenFrames (armed : (s.cam k).trig = some t) (reached : t ≤ s.pos) (closed : (s.cam k).open_ = false) :
    doTriggerPulse k s = (s.setCam k { s.cam k with
      trig := nextTarget t (s.get F.CAM_TINT_WPU k) s.pos
      trigEnd := s.now + 10 * max 1 (s.get F.CAM_TRIG_WIDTH k)
      strobes := if s.get F.CAM_STRB_WIDTH k = 0 then (s.cam k).strobes
        else (s.cam k).strobes ++ [s.now + 10 * s.get F.CAM_STRB_DELAY k]
      pulse := (s.cam k).pulse.orElse (fun _ => some s.now) }).finishCam 1 k := by
  simp [doTriggerPulse, armed, reached.not_gt, closed]

theorem doStrobe_oldest {more : List Nat} (oldest : (s.cam k).strobes = t :: more) : doStrobe k s =
    if s.now < t then s
    else s.setCam k { s.cam k with strobes := more, strbEnd := s.now + 10 * s.get F.CAM_STRB_WIDTH k } := by
  simp [doStrobe, oldest]

end

/-! ### A line through the pipeline (R373, R375 to R378) -/

/-- The port that the pipeline serves next: not the one served last, when both hold a line (R376). -/
def State.portToServe (s : State) : Nat :=
  let other := 1 - s.col.served % 2
  if (s.cam other).queue ≠ [] then other else 1 - other

/-- The pipeline takes a line from the input buffer of a port; a PAD line stands there for as many lines as it pads. -/
def State.takeLine (s : State) (k : Nat) (l : CamLine) (rest : List CamLine) : State :=
  let left := if 1 < l.pads then { l with idx := l.idx + 1, pads := l.pads - 1 } :: rest else rest
  { s.setCam k { s.cam k with queue := left } with col := { s.col with served := k } }

/-- A taken line goes through the filters, the streams and the measurement, and its frame is done with its last line. -/
def State.passLine (s : State) (k : Nat) (l : CamLine) : State :=
  let o := s.lineOut k l
  let w := o.2.setCam k { o.2.cam k with prev := o.1.1 }
  let late := (((w.cam k).frame l.frame).any (·.late)).toNat * 8
  let y := (List.range 4).foldl (fun s i => s.streamLine k l (o.1.2 + late) o.1.1 i) w
  let z := match y.printedLine k l.stamp with
    | none => y
    | some n => (y.measurePatch k n (o.1.2 == 0) o.1.1).measureBand k n (o.1.2 == 0) o.1.1
  if l.idx + 1 = z.camH k then z.frameDone k l.frame else z

section
variable {s : State} {k : Nat} {l : CamLine}

theorem doPipelineLine_takes {rest : List CamLine} (front : (s.cam s.portToServe).queue = l :: rest) :
    doPipelineLine s = (s.takeLine s.portToServe l rest).passLine s.portToServe l := by
  unfold doPipelineLine
  extract_lets
  split
  case h_1 empty => exact absurd (front.symm.trans empty) (List.cons_ne_nil _ _)
  case h_2 l' rest' taken =>
    obtain ⟨rfl, rfl⟩ := List.cons.inj (front.symm.trans taken)
    rfl

theorem State.lineOut_pad (pad : 0 < l.pads) (before : (s.cam k).prev ≠ []) : s.lineOut k l = (((s.cam k).prev, 1), s) :=
  (if_pos pad).trans (if_pos before)

theorem State.lineOut_drop (received : l.pads = 0) (dropped : l.drop = true) (before : (s.cam k).prev ≠ []) :
    s.lineOut k l = (((s.cam k).prev, 2), s) :=
  (if_neg (Nat.not_lt.mpr received.le)).trans ((if_pos dropped).trans (if_pos before))

end

/-- Settles O47: the descriptors of gate CAM, the trigger pulse and its strobe, and then the line that the pipeline takes. -/
theorem cameraGateAndPipeline : Obligations.CameraGateAndPipeline := by
  unfold Obligations.CameraGateAndPipeline
  refine fun s d k t l rest => ⟨fun next running => ⟨fun bad => ?refused, fun ok => ⟨?arm, ?disarm, ?patchWaits, ?patch, ?bandWaits, ?band⟩⟩,
    ?early, ?pulse, ?strobe, ?line⟩
  case refused =>
    have refuses {op : BitVec 8} {act : Desc → State → State} (own : d.op = op) : s.camDesc op.toNat act = s.refuseCam d :=
      State.camDesc_refuses next (congrArg BitVec.toNat own) running bad
    exact ⟨fun own => next_of_eq (refuses own), fun own => next_of_eq (refuses own), fun own => next_of_eq (refuses own),
      fun own => next_of_eq (refuses own)⟩
  case arm => exact fun own => next_of_eq (State.camDesc_acts next (congrArg BitVec.toNat own) running ok)
  case disarm => exact fun own => next_of_eq (State.camDesc_acts next (congrArg BitVec.toNat own) running ok)
  case patchWaits => exact fun own busy => next_of_eq (doPatch_waits next running ok (congrArg BitVec.toNat own) busy)
  case patch => exact fun own free => next_of_eq (doPatch_takes next running ok (congrArg BitVec.toNat own) free)
  case bandWaits => exact fun own busy => next_of_eq (doBand_waits next running ok (congrArg BitVec.toNat own) busy)
  case band => exact fun own free => next_of_eq (doBand_takes next running ok (congrArg BitVec.toNat own) free)
  case early => exact fun armed early => next_of_eq (doTriggerPulse_early armed early)
  case pulse => exact fun armed reached closed => next_of_eq (doTriggerPulse_betweenFrames armed reached closed)
  case strobe =>
    exact fun t more oldest => ⟨fun early => next_of_eq ((doStrobe_oldest oldest).trans (if_pos early)),
      fun due => next_of_eq ((doStrobe_oldest oldest).trans (if_neg due.not_gt))⟩
  case line =>
    exact fun front => ⟨next_of_eq (doPipelineLine_takes front), State.lineOut_pad, State.lineOut_drop⟩

end Sys2Proof.Machine

/-! The statements of the family `16_time_bases_and_ethernet` to `22_power_up_package_and_pins`, with those of the block as a whole: steps
(O1, O2, O5), time bases and Ethernet (O48 to O50), clock islands (O51), the fault hub (O52, O53), sensing and calibration (O54, O55), security
(O56, O57), and resets, Standby and the management bus (O58, O59). -/

namespace Sys2Proof.Machine

/-! ### A step -/

/-- Settles O5: the tick by what it keeps of OTP, the front command by what every command keeps. -/
theorem otpNeverShrinks : Obligations.OtpNeverShrinks := by
  unfold Obligations.OtpNeverShrinks
  intro s t canonical h
  obtain ⟨-, rfl⟩ | ⟨c, rest, -, keeps⟩ := step_next_cases h
  · exact State.idle_otp canonical
  · have same : OtpGrows s { s with pending := rest } := OtpGrows.of_eq rfl rfl
    exact same.trans (keeps.otp (Memory.wf_pending.trans canonical))

/-- Settles O1: the queue holds a front, so the step runs it. -/
theorem stepTakesTheFront : Obligations.StepTakesTheFront := by
  unfold Obligations.StepTakesTheFront
  exact fun s c rest => rfl

theorem step_of_empty {s : State} (empty : s.pending = []) : step s = .next s.idle := by
  simp only [step, empty]

/-- Settles O2: what the tick keeps is what a command keeps, from the later time on. -/
theorem emptyQueueIsOneTick : Obligations.EmptyQueueIsOneTick := by
  unfold Obligations.EmptyQueueIsOneTick
  exact fun s empty => ⟨s.idle, step_of_empty empty, s.idle_now, s.idle_keeps⟩

/-! ### Writes of TBCTL (R393, R402) -/

/-- TBCTL as a write leaves it: EN of TB0 stays 1 (R402). -/
def State.writtenTbctl (s : State) (k : Nat) (v : Word) : State :=
  let u := s.swWrite (R.TIME_TBCTL.off k 0) v
  if k = 0 then u.set F.TIME_TBCTL_EN 1 0 else u

section
variable {s : State} {k : Nat} {v : Word}

/-- A time base that runs is not started again by the write. -/
theorem State.writeTbctl_running (running : s.on F.TIME_TBCTL_EN k = true) : s.writeTbctl k v =
    let w := s.writtenTbctl k v
    let x := if fieldOf v 30 1 = 1 then w.resetTb k else w
    if fieldOf v 29 1 = 1 then x.stepGo k else x := by
  simp only [State.writeTbctl, State.writtenTbctl, running, Bool.not_true, Bool.false_and, Bool.false_eq_true, if_false]

theorem State.writeTbctl_steps (running : s.on F.TIME_TBCTL_EN k = true) (rst : fieldOf v 30 1 = 0) (go : fieldOf v 29 1 = 1) :
    s.writeTbctl k v = (s.writtenTbctl k v).stepGo k := by
  simp [State.writeTbctl_running running, rst, go]

theorem State.writeTbctl_resets (running : s.on F.TIME_TBCTL_EN k = true) (rst : fieldOf v 30 1 = 1) (go : fieldOf v 29 1 = 0) :
    s.writeTbctl k v = (s.writtenTbctl k v).resetTb k := by
  simp [State.writeTbctl_running running, rst, go]

theorem State.stepGo_refused
    (bad : s.on F.TIME_TBSTAT_STEPPED k = true ∨ (k = 0 ∧ s.printingOrPaused = true) ∨
      (s.on F.TIME_TBCTL_STEPREL k = false ∧ 1000000000 ≤ s.get F.TIME_STEPA_VALUE k)) :
    s.stepGo k = (s.set F.TIME_TBSTAT_STEPREF 1 k).report C.time_step_refused (mkArg none (some k) 0) :=
  if_pos (by simpa [or_assoc] using bad)

theorem State.stepGo_taken (fresh : s.on F.TIME_TBSTAT_STEPPED k = false) (still : k ≠ 0 ∨ s.printingOrPaused = false)
    (inRange : s.on F.TIME_TBCTL_STEPREL k = true ∨ s.get F.TIME_STEPA_VALUE k < 1000000000) : s.stepGo k =
    let y := s.set F.TIME_TBSTAT_STEPPED 1 k
    { y with tb := Tab.put (fun _ => TimeBase.reset) y.tb k { y.tbase k with stepReq := true } } :=
  if_neg (by simpa [fresh, or_iff_not_imp_left] using And.intro still inRange)

theorem State.resetTb_refused (bad : s.printingOrPaused = true ∨ timeGroupOn s k 64 = true) :
    s.resetTb k = (s.set F.TIME_TBSTAT_RSTREF 1 k).report C.time_reset_refused (mkArg none (some k) 0) :=
  if_pos (by simpa using bad)

theorem State.resetTb_taken (still : s.printingOrPaused = false) (noGroup : timeGroupOn s k 64 = false) : s.resetTb k =
    let y : State := { s with tb := Tab.put (fun _ => TimeBase.reset) s.tb k TimeBase.reset
                              eth := { s.eth with late := s.eth.late ++ launchOn s k } }
    disarmOn k 32 ((y.set F.TIME_RATE_RATE 0 k).set F.TIME_TBSTAT_STEPPED 0 k) :=
  if_neg (by simp [still, noGroup])

/-- SNAP.GO takes the time bases, then C, then the web position (R395). -/
theorem doSnapshot_go (go : fieldOf v 31 1 = 1) : doSnapshot v s =
    let u := (((s.snapTb 0).snapTb 1).snapTb 2).snapTb 3
    let w := u.set64 F.TIME_SNAPCLO_VALUE F.TIME_SNAPCHI_VALUE u.fireC
    (w.set64 F.TIME_SNAPPLO_VALUE F.TIME_SNAPPHI_VALUE w.pos).set F.TIME_SNAP_VALID 1 :=
  if_neg (by simp [go])

end

/-! ### Steps and ticks (R391 to R393) -/

section
variable {a b c : Nat} {x : TimeBase}

/-- A relative step adds its signed distance modulo the range of the time base. -/
theorem stepTb_relative :
    let t := stepTb true a b c x
    t.frac = x.frac ∧ t.ns < 1000000000 ∧ t.sec < 2 ^ 48 ∧
    ∃ q : Int, ((t.sec * 1000000000 + t.ns : Nat) : Int) =
      ((x.sec * 1000000000 + x.ns : Nat) : Int) + toSigned 64 (b * 2 ^ 32 + a) + q * (2 ^ 48 * 1000000000) := by
  simp only [stepTb, if_true]
  generalize htotal : (x.sec : Int) * 1000000000 + x.ns + toSigned 64 (b * 2 ^ 32 + a) = total
  have lo : 0 ≤ total % (2 ^ 48 * 1000000000) := Int.emod_nonneg _ (by decide)
  have hi : total % (2 ^ 48 * 1000000000) < 2 ^ 48 * 1000000000 := Int.emod_lt_of_pos _ (by decide)
  have parts := Int.emod_add_mul_ediv total (2 ^ 48 * 1000000000)
  refine ⟨trivial, Nat.mod_lt _ (by decide), by omega, -(total / (2 ^ 48 * 1000000000)), ?_⟩
  rw [Nat.div_add_mod', Int.toNat_of_nonneg lo]
  subst htotal
  push_cast at parts ⊢
  linarith

/-- An increment stays in the form of a time base, and but for the last second of the range it adds 4 ns and RATE. -/
theorem advanceTb_adds (ns : x.ns < 1000000000) (frac : x.frac < 2 ^ 32) (sec : x.sec < 2 ^ 48) {r : Int} (small : r.natAbs ≤ 8589934) :
    let t := advanceTb r x
    t.ns < 1000000000 ∧ t.frac < 2 ^ 32 ∧ t.sec < 2 ^ 48 ∧
    ((((t.sec * 1000000000 + t.ns) * 2 ^ 32 + t.frac : Nat) : Int) =
        (((x.sec * 1000000000 + x.ns) * 2 ^ 32 + x.frac : Nat) : Int) + 4 * 2 ^ 32 + r ∨ x.sec = 2 ^ 48 - 1) := by
  simp only [advanceTb]
  split <;> refine ⟨?_, ?_, ?_, ?_⟩ <;> dsimp only <;> omega

end

theorem State.tickTb_running {s : State} {k : Nat} (running : s.on F.TIME_TBCTL_EN k = true) (noStep : (s.tbase k).stepReq = false) :
    (s.tickTb k).tbase k = advanceTb (s.getI F.TIME_RATE_RATE k) (s.tbase k) := by
  simp only [State.tickTb, running, noStep, Bool.not_true, Bool.false_eq_true, if_false]
  exact Tab.get_put_same

/-- Settles O48: a step and a reset by what TBCTL asks of the state that its write leaves, then the snapshot, and the arithmetic of a time base. -/
theorem timeBases : Obligations.TimeBases := by
  unfold Obligations.TimeBases
  refine fun s k v x a b c => ⟨?tbctl, ?snapshot, stepTb_relative, rfl, fun ns frac sec r small => advanceTb_adds ns frac sec small⟩
  case tbctl =>
    intro reaches running u w
    refine ⟨fun rst go => ⟨fun bad => ?stepRefused, fun fresh still inRange => ?stepTaken⟩,
      fun rst go => ⟨fun bad => ?resetRefused, fun still noGroup => ?resetTaken⟩⟩
    case stepRefused =>
      have bad' := bad.imp_right (Or.imp_left (And.imp_left (congrArg Fin.val)))
      exact next_busWrite reaches ((State.writeTbctl_steps running rst go).trans (State.stepGo_refused bad'))
    case stepTaken =>
      have still' := still.imp_left (Fin.val_ne_of_ne)
      exact next_busWrite reaches ((State.writeTbctl_steps running rst go).trans (State.stepGo_taken fresh still' inRange))
    case resetRefused =>
      exact next_busWrite reaches ((State.writeTbctl_resets running rst go).trans (State.resetTb_refused bad))
    case resetTaken =>
      exact next_busWrite reaches ((State.writeTbctl_resets running rst go).trans (State.resetTb_taken still noGroup))
  case snapshot => exact fun reaches go => next_busWrite reaches (doSnapshot_go go)

/-! ### RATE (R392) -/

section
variable {s : State} {k : Fin 4} {v : Word}

theorem doRateWrite_stored (lo : -8589934 ≤ v.toInt) (hi : v.toInt ≤ 8589934) :
    doRateWrite k v s = s.set F.TIME_RATE_RATE (ofSigned 32 v.toInt) k := by
  simp [doRateWrite, clampI, lo.not_gt, hi.not_gt]

theorem doRateWrite_clamped {c : Int} (clamps : clampI (-8589934) 8589934 v.toInt = c) (other : c ≠ v.toInt) : doRateWrite k v s =
    ((s.set F.TIME_RATE_RATE (ofSigned 32 c) k).set F.TIME_TBSTAT_RATECLAMP 1 k).report C.time_rate_limit (mkArg none (some k.val) 0) := by
  simp [doRateWrite, clamps, other]

end

/-- Settles O49: the three ranges of the written value, and the tick. -/
theorem ratesAreClamped : Obligations.RatesAreClamped := by
  unfold Obligations.RatesAreClamped
  refine fun s k v => ⟨?write, State.tickTb_running⟩
  intro reaches clamped
  refine ⟨fun lo hi => ?_, fun above => ?_, fun below => ?_⟩
  · exact next_busWrite reaches (doRateWrite_stored lo hi)
  · have clamps : clampI (-8589934) 8589934 v.toInt = 8589934 := by unfold clampI; omega
    exact next_busWrite reaches (doRateWrite_clamped clamps above.ne)
  · have clamps : clampI (-8589934) 8589934 v.toInt = -8589934 := if_pos below
    exact next_busWrite reaches (doRateWrite_clamped clamps below.ne')

/-! ### Ethernet (R396 to R401) -/

section
variable {s : State} {j : Fin 2} {f : List Byte}

theorem doEthLinkLoss_down (down : s.on F.TIME_ESTAT_LINK j = false) : doEthLinkLoss j s = s :=
  if_neg (by simp [down])

theorem doEthLinkUp_disabled (off : s.on F.TIME_ECTL_EN j = false) : doEthLinkUp j s = s :=
  if_neg (by simp [off])

section
variable (en : s.on F.TIME_ECTL_EN j = true) (link : s.on F.TIME_ESTAT_LINK j = true)
include en link

/-- A port that works handles the head it serves next: bad, late or eligible (R399, R400). -/
theorem doFrameTransmit_picked {q i : Nat} {d : TxDesc} (picked : txPick s j 8 = some (q, i, d)) : doFrameTransmit j s =
    if d.bad then (s.txDone j q i 3 0).report C.eth_desc_bad (mkArg none (some j.val) q)
    else if s.txLate j q i d then
      let u := s.reportLimited C.eth_late_frame (j.val * 8 + q) 1000000 (mkArg none (some j.val) q)
      if d.lateSend then u.txSend j q i 2 d else u.txDone j q i 1 0
    else s.txSend j q i 0 d := by
  simp [doFrameTransmit, en, link, picked]

theorem doFrameReceive_badFcs : doFrameReceive j f false s = s.bump F.TIME_FCSERR_COUNT 1 j := by
  simp [doFrameReceive, en, link]

theorem doFrameReceive_dropped (drops : s.rxPass j f = false ∨ f.length < 60 ∨ 9212 < f.length) :
    doFrameReceive j f true s = s.bump F.TIME_RXDROP_COUNT 1 j :=
  (if_neg (by simp [en, link])).trans ((if_neg (by simp)).trans (if_pos (by simpa [or_assoc] using drops)))

/-- A frame that the filter passes stands in the ring behind its timestamps, at its start where it does not fit before the end (R401). -/
theorem doFrameReceive_written (passes : s.rxPass j f = true) (long : 60 ≤ f.length) (short : f.length ≤ 9212)
    (ring : 0 < s.get F.TIME_RXCFG_VALUE j % 256) : doFrameReceive j f true s =
    let len := cdiv (32 + f.length) 32 * 32
    let p := s.get F.TIME_RXPTR_OFFSET j
    let at_ := if s.get F.TIME_RXCFG_VALUE j % 256 * 16384 < p + len then 0 else p
    let t0 := s.stamp16 0 (s.getI F.TIME_RXLAT_LAT j)
    let tp := s.stamp16 (s.get F.TIME_ECTL_PTB j) (s.getI F.TIME_RXLAT_LAT j)
    let row := (leBytes 8 (t0 / 65536) ++ leBytes 2 t0 ++ leBytes 8 (tp / 65536) ++ leBytes 2 tp ++ leBytes 2 f.length ++
      leBytes 2 (rxFlags f) ++ List.replicate 8 0) ++ f ++ List.replicate (len - 32 - f.length) 0
    (s.writeTarn (s.get F.TIME_RXBASE_VALUE j * 64 + at_) row).set F.TIME_RXPTR_OFFSET (at_ + len) j :=
  (if_neg (by simp [en, link])).trans ((if_neg (by simp)).trans ((if_neg (by simp [passes, long, short])).trans (if_neg (by omega))))

end

end

/-- Settles O50: what a port that works does with its next head and with a frame, and then the link. -/
theorem ethernetFrames : Obligations.EthernetFrames := by
  unfold Obligations.EthernetFrames
  refine fun s j f => ⟨fun en link => ⟨fun q i d picked => ?transmit, ?badFcs, ?dropped, ?written, next_of_eq (if_pos link)⟩,
    fun down => next_of_eq (doEthLinkLoss_down down), fun en => next_of_eq (if_pos en), fun off => next_of_eq (doEthLinkUp_disabled off)⟩
  case transmit =>
    have handles := doFrameTransmit_picked en link picked
    refine ⟨fun bad => ?_, fun good late send => ?_, fun good late drop => ?_, fun good onTime => ?_⟩
    · exact next_of_eq (handles.trans (if_pos bad))
    · exact next_of_eq (handles.trans (by simp [good, late, send]))
    · exact next_of_eq (handles.trans (by simp [good, late, drop]))
    · exact next_of_eq (handles.trans (by simp [good, onTime]))
  case badFcs => exact next_of_eq (doFrameReceive_badFcs en link)
  case dropped => exact fun drops => next_of_eq (doFrameReceive_dropped en link drops)
  case written => exact fun passes long short ring => next_of_eq (doFrameReceive_written en link passes long short ring)

end Sys2Proof.Machine

namespace Sys2Proof.Machine

/-! ### The reference and the PLLs (R405, R406) -/

section
variable {s : State} {n : Nat}

theorem doReferenceWindow_inside (lo : 247 ≤ n) (hi : n ≤ 253) : doReferenceWindow n s =
    ({ s with xing := { s.xing with refBad := 0 } } : State).set F.XING_STAT_REFOK 1 := by
  simp [doReferenceWindow, lo, hi]

/-- The first window outside its limits only clears REFOK. -/
theorem doReferenceWindow_outside (out : n < 247 ∨ 253 < n) (first : s.xing.refBad = 0) : doReferenceWindow n s =
    ({ s with xing := { s.xing with refBad := 1 } } : State).set F.XING_STAT_REFOK 0 := by
  have bad : ¬(247 ≤ n ∧ n ≤ 253) := by omega
  simp [doReferenceWindow, bad, first]

/-- The second one in a row loses the reference: every island fed by a PLL stops. -/
theorem doReferenceWindow_outsideTwice (out : n < 247 ∨ 253 < n) (second : s.xing.refBad = 1) : doReferenceWindow n s =
    ((((({ s with xing := { s.xing with refBad := 2 } } : State).set F.XING_STAT_REFOK 0).stopFed (fun _ => true)).report
      C.xing_ref_loss (mkArg none none 0)).enterHalted) := by
  have bad : ¬(247 ≤ n ∧ n ≤ 253) := by omega
  simp [doReferenceWindow, bad, second]

/-- PB without lock 1 ms after Boot begins stops Boot. -/
theorem doPllUnlock_boot (unlocked : s.pllLocked 0 = false) (boot : s.dev = stBoot) (ok : s.pwr.bootOk = true)
    (late : s.pwr.bootAt + 1000000 ≤ s.now) : doPllUnlock 0 s =
    ({ s with pwr := { s.pwr with bootOk := false } } : State).report C.xing_pll_unlock (mkArg none none 0) := by
  simp [doPllUnlock, unlocked, boot, ok, late]

/-- A bit of LOCK that is put into its place reads as 1 there. -/
theorem bitN_lock : ∀ (v : Fin 16) (p : Fin 4),
    bitN ((v.val - bitN v (3 - p) * 2 ^ (3 - p.val) + true.toNat * 2 ^ (3 - p.val)) % 2 ^ 4) (3 - p) = 1 := by
  decide

theorem State.pllLocked_setLock {p : Fin 4} : (s.setLock p true).pllLocked p = true := by
  have fits : F.XING_STAT_LOCK.lo + F.XING_STAT_LOCK.wid ≤ 32 := by decide
  simp only [State.pllLocked, State.setLock, State.get_set fits, beq_iff_eq]
  exact bitN_lock ⟨s.get F.XING_STAT_LOCK, State.get_lt⟩ p

end

/-! ### Crossings and island resets (R410 to R415) -/

section
variable {s : State} {i : Fin 29} {crossing : BitVec 20} {v : Word}

theorem doCrossingStop_stops (running : s.island i = 0) (free : i.val < 17 ∨ 20 < i.val ∨ s.on F.DMC_STAT_FCBUSY = false)
    (inFrame : i.val = 24 ∨ i.val = 25 → (s.cam (i.val - 24)).open_ = true) :
    doCrossingStop i crossing s = (s.stopIsland i).noteStop i crossing.toNat := by
  have dram : (17 ≤ i.val && i.val ≤ 20 && s.on F.DMC_STAT_FCBUSY) = false := by
    obtain below | above | idle := free
    · simp [below.not_ge]
    · simp [above.not_ge]
    · simp [idle]
  have camera : ((i.val == 24 || i.val == 25) && !(s.cam (i.val - 24)).open_) = false := by
    simpa [or_iff_not_imp_left, -not_or] using fun other => inFrame other
  exact if_neg (by simp only [running, dram, camera]; decide)

/-- During a frequency change the islands of the channels are not stopped (R405). -/
theorem doCrossingStop_change (lo : 17 ≤ i.val) (hi : i.val ≤ 20) (busy : s.on F.DMC_STAT_FCBUSY = true) :
    doCrossingStop i crossing s = s :=
  if_pos (by simp [lo, hi, busy])

theorem doCrossingResume_runs (stopped : s.island i = 1) (fed : ∀ q, islandPll i = some q → s.pllLocked q = true ∧ s.xing.refBad < 2) :
    doCrossingResume i s = s.runIsland i := by
  unfold doCrossingResume
  cases pll : islandPll i with
  | none => simp [stopped]
  | some q =>
    obtain ⟨locked, good⟩ := fed q pll
    simp [stopped, locked, good]

theorem doCrossingResume_other (other : s.island i ≠ 1) : doCrossingResume i s = s := by
  simp [doCrossingResume, other]

/-- An end reset alone, of an island that is no DRAM channel: both ends are held until the island is reset (R411). -/
theorem doOnesidedDetect_holds (present : s.island i ≠ 3) (first : s.on F.XING_ISTAT_ONESIDED i = false) (noDram : i.val < 17 ∨ 20 < i.val)
    {core : Bool} : doOnesidedDetect i core crossing s =
    let u := (s.set F.XING_ISTAT_STATE 2 i).set F.XING_ISTAT_ONESIDED 1 i
    let w := if core then u.set F.XING_ISTAT_GEN (u.get F.XING_ISTAT_GEN i + 1) i else u
    w.report C.xing_onesided (mkArg none (some i.val) crossing.toNat) := by
  unfold doOnesidedDetect
  rw [if_neg (by simp [present, first])]
  extract_lets u w x
  have queued : x = w := if_neg (by omega)
  rw [queued]

theorem doIslandReset_go (go : fieldOf v 31 1 = 1) (island : fieldOf v 0 5 ≤ 28)
    (present : (s.swWrite (R.XING_IRST.off 0 0) v).island (fieldOf v 0 5) ≠ 3) : doIslandReset v s =
    let u := s.swWrite (R.XING_IRST.off 0 0) v
    let m := fieldOf v 0 5
    if u.islandUsed m then u.set F.XING_STAT_IRSTREF 1
    else ((u.runIsland m).set F.XING_ISTAT_ONESIDED 0 m).set F.XING_ISTAT_GEN 0 m :=
  if_neg (by simp [go, island, present])

end

/-! ### The internal oscillator (R416, R417) -/

section
variable {s : State} {n : Nat}

theorem doOscMeasure_measures (locked : s.pllLocked 0 = true) (reference : s.on F.XING_STAT_REFOK = true) : doOscMeasure n s =
    let e : Int := (n : Int) - 1000000
    let u := (s.set F.XING_OSC_CORR (ofSigned 12 (clampI (-2048) 2047 (s.getI F.XING_OSC_CORR - trimUnits e)))).set F.XING_OSC_CALVALID 1
    if 20000 < e.natAbs then u.report C.xing_osc_drift (mkArg none none 0) else u :=
  if_neg (by simp [locked, reference])

theorem doOscMeasure_noReference (lost : s.on F.XING_STAT_REFOK = false) : doOscMeasure n s = s :=
  if_pos (by simp [lost])

end

/-- Settles O51: the reference, the PLLs, the crossings, island resets, and then the oscillator. -/
theorem clockIslands : Obligations.ClockIslands := by
  unfold Obligations.ClockIslands
  refine fun s p i crossing n v => ⟨?inside, ?outside, ?unlock, ?boot, rfl, State.pllLocked_setLock, ?stop, ?change, ?resume, ?running,
    ?onesided, ?reset, rfl, ?measure, ?noReference⟩
  case inside => exact fun lo hi => next_of_eq (doReferenceWindow_inside lo hi)
  case outside =>
    exact fun out => ⟨fun first => next_of_eq (doReferenceWindow_outside out first),
      fun second => next_of_eq (doReferenceWindow_outsideTwice out second)⟩
  case unlock => exact fun locked => next_of_eq (if_pos locked)
  case boot => exact fun unlocked boot ok late => next_of_eq (doPllUnlock_boot unlocked boot ok late)
  case stop => exact fun running free inFrame => next_of_eq (doCrossingStop_stops running free inFrame)
  case change => exact fun lo hi busy => next_of_eq (doCrossingStop_change lo hi busy)
  case resume => exact fun stopped fed => next_of_eq (doCrossingResume_runs stopped fed)
  case running => exact fun other => next_of_eq (doCrossingResume_other other)
  case onesided => exact fun present first noDram core => next_of_eq (doOnesidedDetect_holds present first noDram)
  case reset =>
    intro reaches go island u m present
    have resets := doIslandReset_go go island present
    exact ⟨fun used => next_busWrite reaches (resets.trans (if_pos used)),
      fun free => next_busWrite reaches (resets.trans (if_neg (ne_true_of_eq_false free)))⟩
  case measure => exact fun locked reference => next_of_eq (doOscMeasure_measures locked reference)
  case noReference => exact fun lost => next_of_eq (doOscMeasure_noReference lost)

end Sys2Proof.Machine

namespace Sys2Proof.Machine

/-! ### The record of a report (R424, R425, R428) -/

/-- Step 1 of R424: LATCH, the count of the code, and HICLASS. -/
def State.countReport (s : State) (code : Nat) (r : WaitRep) : State :=
  let y := (s.set F.FLT_CCFG_LATCH 1 (code / 256) (code % 256)).bump F.FLT_CCNT_COUNT (1 + r.pend) (code / 256) (code % 256)
  if y.get F.FLT_STAT_HICLASS < s.classOf code then y.set F.FLT_STAT_HICLASS (s.classOf code) else y

/-- Step 3 of R424: the first-fault record follows the entry in a slot, but for a dry injection. -/
def State.noteFirst (s : State) (slot code cls : Nat) (r : WaitRep) : State := if r.dry then s else s.firstFault slot code cls

section
variable {s z : State} {code slot : Nat} {r : WaitRep} (counted : s.countReport code r = z)
include counted

theorem State.recordReport_quiet (quiet : z.quietFor code = true) : s.recordReport code r = z := by
  subst counted
  simp only [State.countReport] at quiet ⊢
  simp only [State.recordReport, quiet, if_true]

variable (loud : z.quietFor code = false)
include loud

theorem State.recordReport_merges (merges : z.mergeSlot code r.arg = some slot) :
    s.recordReport code r = (z.mergeInto slot (1 + r.pend)).noteFirst slot code (s.classOf code) r := by
  subst counted
  simp only [State.countReport, State.noteFirst] at loud merges ⊢
  simp only [State.recordReport, loud, merges, Bool.false_eq_true, if_false]

theorem State.recordReport_newEntry (apart : z.mergeSlot code r.arg = none) (room : z.histSlot = (some slot, false)) :
    s.recordReport code r = (z.newEntry slot code (s.classOf code) r).noteFirst slot code (s.classOf code) r := by
  subst counted
  simp only [State.countReport, State.noteFirst] at loud apart room ⊢
  simp only [State.recordReport, loud, apart, room, Bool.false_and, Bool.false_eq_true, if_false]

end

/-! ### The reactions of the classes (R424, R426, R427) -/

section
variable {s : State} {code cls : Nat} {arg : Word}

/-- Classes Note to Line have no reaction. -/
theorem State.react_low (low : cls ≤ 2) : s.react code cls arg = s := by
  unfold State.react
  rw [if_neg (by omega), if_neg (by omega), if_neg (by omega)]

theorem State.react_job (job : cls = 3) : s.react code cls arg = s.jobReaction := if_pos job

theorem State.react_device (device : cls = 4) : s.react code cls arg = s.enterHalted := by
  simp [State.react, device]

theorem State.react_grave (grave : cls = 5) : s.react code cls arg = s.enterGrave code arg := by
  simp [State.react, grave]

theorem State.set_jobhold_dev : (s.set F.FLT_STAT_JOBHOLD 1).dev = s.dev := State.set_dev (by decide)

theorem State.set_jobhold_printing : (s.set F.FLT_STAT_JOBHOLD 1).printing = s.printing :=
  congrArg (· == stPrinting) State.set_jobhold_dev

theorem State.jobReaction_printing (printing : s.printing = true) :
    s.jobReaction = (s.set F.FLT_STAT_JOBHOLD 1).stopJob none (fun _ => false) :=
  if_pos (State.set_jobhold_printing.trans printing)

theorem State.jobReaction_still (still : s.printing = false) : s.jobReaction = s.set F.FLT_STAT_JOBHOLD 1 :=
  if_neg (ne_true_of_eq_false (State.set_jobhold_printing.trans still))

theorem State.enterHalted_running (notHalted : s.dev ≠ stHalted) (notGrave : s.dev ≠ stGrave) : s.enterHalted = s.haltAll.setDev stHalted :=
  if_neg (by simp [notHalted, notGrave])

theorem State.enterGrave_halted (halted : s.dev = stHalted) : s.enterGrave code arg = (s.graveOff.graveRecord code arg).setDev stGrave := by
  simp [State.enterGrave, halted]

theorem State.enterGrave_running (notHalted : s.dev ≠ stHalted) (notGrave : s.dev ≠ stGrave) :
    s.enterGrave code arg = (s.haltAll.graveOff.graveRecord code arg).setDev stGrave := by
  simp [State.enterGrave, notHalted, notGrave]

end

/-! ### The acknowledgement of a report (R420, R424, R432) -/

section
variable {s u w : State} {code : BitVec 16} {c : Nat} {r : WaitRep}

theorem State.endTest_none (noTest : s.flt.walkTest = none) : s.endTest c = s := by
  simp [State.endTest, noTest]

theorem doFaultReport_empty (nothing : s.waitingReps code.toNat = []) (noTest : s.flt.walkTest = none) : doFaultReport code s = s := by
  simp [doFaultReport, State.endTest_none noTest, State.takeWaiting, nothing]

theorem doFaultReport_takes {rest : List WaitRep}
    (accepted : s.on F.FLT_CCFG_RAILBAD (code.toNat / 256) (code.toNat % 256) = false) (noTest : s.flt.walkTest = none)
    (oldest : s.waitingReps code.toNat = r :: rest) : doFaultReport code s =
    ({ s with flt := { s.flt with waiting := Tab.put (fun _ => []) s.flt.waiting code.toNat rest } } : State).acknowledge code.toNat r := by
  simp [doFaultReport, accepted, State.endTest_none noTest, State.takeWaiting, oldest]

section
variable (recorded : u.recordReport c r = w)
include recorded

theorem State.acknowledge_dry (dry : r.dry = true) : u.acknowledge c r = w :=
  (if_pos dry).trans recorded

variable (real : r.dry = false) {x : State} (reacts : w.react c (u.classOf c) r.arg = x)
include real reacts

/-- The press program reverts a Proving profile after the reaction, where it still runs (R107). -/
theorem State.acknowledge_reverts (watched : revertsProfile c (u.classOf c) = true) :
    u.acknowledge c r = if x.dev = stHalted ∨ x.dev = stGrave then x else x.revertProfile := by
  simp [State.acknowledge, real, recorded, reacts, watched]

theorem State.acknowledge_unwatched (other : revertsProfile c (u.classOf c) = false) : u.acknowledge c r = x := by
  simp [State.acknowledge, real, recorded, reacts, other]

theorem State.acknowledge_stopped (stopped : x.dev = stHalted ∨ x.dev = stGrave) : u.acknowledge c r = x := by
  obtain halted | grave := stopped
  · simp [State.acknowledge, real, recorded, reacts, halted]
  · simp [State.acknowledge, real, recorded, reacts, grave]

end

end

/-- Settles O52: the report is taken, each class has its reaction, and the record goes the way of its entry. -/
theorem faultReactions : Obligations.FaultReactions := by
  unfold Obligations.FaultReactions
  intro s code r rest c ignored
  refine ⟨fun bad => next_of_eq (if_pos bad), fun nothing noTest => next_of_eq (doFaultReport_empty nothing noTest),
    fun accepted noTest oldest => ?taken⟩
  intro u cls w
  have takes : doFaultReport code s = u.acknowledge c r := doFaultReport_takes accepted noTest oldest
  refine ⟨fun dry => next_of_eq (takes.trans (State.acknowledge_dry rfl dry)),
    fun real => ⟨?low, ?job, ?jobPrinting, ?device, ?deviceStopped, ?graveHalted, ?grave⟩, ?record⟩
  case low =>
    intro low noDeadline noUnderrun
    have other : revertsProfile c cls = false := by simpa [revertsProfile, noDeadline, noUnderrun] using Nat.lt_succ_of_le low
    exact next_of_eq (takes.trans (State.acknowledge_unwatched rfl real (State.react_low low) other))
  case job =>
    intro job notHalted notGrave still
    have reacts : w.react c cls r.arg = w.set F.FLT_STAT_JOBHOLD 1 := (State.react_job job).trans (State.jobReaction_still still)
    have watched : revertsProfile c cls = true := by simp [revertsProfile, job]
    have reverts := (State.acknowledge_reverts rfl real reacts watched).trans (if_neg (by simp [State.set_jobhold_dev, notHalted, notGrave]))
    exact next_of_eq (takes.trans reverts)
  case jobPrinting =>
    intro job printing y
    have reacts : w.react c cls r.arg = y := (State.react_job job).trans (State.jobReaction_printing printing)
    have watched : revertsProfile c cls = true := by simp [revertsProfile, job]
    exact next_of_eq (takes.trans (State.acknowledge_reverts rfl real reacts watched))
  case device =>
    intro device notHalted notGrave
    have reacts : w.react c cls r.arg = w.haltAll.setDev stHalted :=
      (State.react_device device).trans (State.enterHalted_running notHalted notGrave)
    exact next_of_eq (takes.trans (State.acknowledge_stopped rfl real reacts (.inl (State.setDev_dev (by decide)))))
  case deviceStopped =>
    intro device stopped
    have reacts : w.react c cls r.arg = w := (State.react_device device).trans (if_pos stopped)
    exact next_of_eq (takes.trans (State.acknowledge_stopped rfl real reacts stopped))
  case graveHalted =>
    intro grave halted
    have reacts : w.react c cls r.arg = (w.graveOff.graveRecord c r.arg).setDev stGrave :=
      (State.react_grave grave).trans (State.enterGrave_halted halted)
    exact next_of_eq (takes.trans (State.acknowledge_stopped rfl real reacts (.inr (State.setDev_dev (by decide)))))
  case grave =>
    intro grave notHalted notGrave
    have reacts : w.react c cls r.arg = (w.haltAll.graveOff.graveRecord c r.arg).setDev stGrave :=
      (State.react_grave grave).trans (State.enterGrave_running notHalted notGrave)
    exact next_of_eq (takes.trans (State.acknowledge_stopped rfl real reacts (.inr (State.setDev_dev (by decide)))))
  case record =>
    intro y z noted
    exact ⟨fun quiet => State.recordReport_quiet rfl quiet, fun loud slot =>
      ⟨fun merges => State.recordReport_merges rfl loud merges, fun apart room => State.recordReport_newEntry rfl loud apart room⟩⟩

/-! ### Pairs and the rail walk (R421, R422) -/

section
variable {s : State} {code : BitVec 16} {ns : Nat}

theorem doBrokenPair_setAside {row : CodeRow} (known : codeRow code.toNat = some row)
    (whole : s.on F.FLT_CCFG_RAILBAD (code.toNat / 256) (code.toNat % 256) = false) (long : max 1 (s.get F.FLT_CTL_SKEW) < ns) :
    doBrokenPair code ns s = (s.set F.FLT_CCFG_RAILBAD 1 (code.toNat / 256) (code.toNat % 256)).reportRep C.flt_rail_broken
      { arg := mkArg none none code.toNat, line := none, pend := 0, injected := false, dry := false, rail := true } :=
  if_neg (by simp only [known, whole, long.not_ge]; simp)

theorem doBrokenPair_short (short : ns ≤ max 1 (s.get F.FLT_CTL_SKEW)) : doBrokenPair code ns s = s :=
  if_pos (by simp only [short, decide_true, Bool.or_true])

/-- A source between the first and the last of the walk, which reports nothing, is tested for 10 µs. -/
theorem doRailWalk_tests {n : Nat} {answers : Bool} (source : allCodes[s.flt.walkNext]? = some n) (period : s.get F.FLT_CTL_RWALK ≠ 0)
    (due : s.flt.walkAt ≤ s.now) (noTest : s.flt.walkTest = none) (begun : 0 < s.flt.walkNext)
    (more : s.flt.walkNext + 1 < allCodes.length) (silent : s.waitingReps n = []) (idle : Tab.get (fun _ => false) s.flt.levels n = false) :
    doRailWalk answers s = { s with flt := { s.flt with
      walkNext := s.flt.walkNext + 1, walkAt := s.now + 10000, walkTest := if answers then none else some (n, s.now) } } := by
  simp only [doRailWalk, source]
  rw [if_neg (by simp [period, due.not_gt, noTest])]
  simp [begun.ne', more.ne, silent, idle]

theorem doRailTestTimeout_silent {n t : Nat} (test : s.flt.walkTest = some (n, t)) (late : t + 2000 ≤ s.now) (silent : s.waitingReps n = []) :
    doRailTestTimeout s = ({ s with flt := { s.flt with walkTest := none } } : State).reportRep C.flt_rail_test
      { arg := mkArg none none n, line := none, pend := 0, injected := false, dry := false, rail := true } := by
  simp [doRailTestTimeout, test, late.not_gt, silent]

end

/-! ### Injections, clears and levels (R423, R428, R429, R432, R433) -/

section
variable {s : State} {v : Word}

theorem doInject_refused (go : fieldOf v 31 1 = 1)
    (bad : codeRow (fieldOf v 0 16) = none ∨ ((s.swWrite (R.FLT_INJ.off 0 0) v).get F.SEC_LCS_STATE ≠ 0 ∧
      (s.swWrite (R.FLT_INJ.off 0 0) v).get F.SEC_LCS_STATE ≠ 3)) :
    doInject v s = (s.swWrite (R.FLT_INJ.off 0 0) v).set F.FLT_STAT_INJREF 1 :=
  (if_neg (by simp [go])).trans (if_pos (by simpa using bad))

theorem doInject_taken (go : fieldOf v 31 1 = 1) (known : codeRow (fieldOf v 0 16) ≠ none)
    (open_ : (s.swWrite (R.FLT_INJ.off 0 0) v).get F.SEC_LCS_STATE = 0 ∨ (s.swWrite (R.FLT_INJ.off 0 0) v).get F.SEC_LCS_STATE = 3) :
    doInject v s =
      let u := s.swWrite (R.FLT_INJ.off 0 0) v
      let n := fieldOf v 0 16
      let r : WaitRep := { arg := mkArg none none 0, line := none, pend := 0, injected := true, dry := fieldOf v 30 1 == 1, rail := false }
      { u with flt := { u.flt with waiting := Tab.put (fun _ => []) u.flt.waiting n (enqueueRep r (u.waitingReps n)) } } :=
  (if_neg (by simp [go])).trans (if_neg (by simpa [known, or_iff_not_imp_left] using open_))

theorem doClrall_go (go : fieldOf v 0 1 = 1) : doClrall v s = { s with
    regs := Tab.mapE regReset
      (fun off w => if 0x108000 ≤ off && off < 0x10A000 then fieldPut (fieldPut w 21 1 0) 20 1 0 else w) s.regs } :=
  if_neg (by simp [go])

theorem doFirstFaultClear_valid (valid : fieldOf v 31 1 = 1) : doFirstFaultClear v s =
    ((s.wr (R.FLT_FFSEQ.off 0 0) 0).wr (R.FLT_FFCODE.off 0 0) 0).set64 F.FLT_FFTIMELO_NS F.FLT_FFTIMEHI_NS 0 :=
  if_neg (by simp [valid])

variable {code : BitVec 16}

/-- CLASS takes the written class, held to the range of its code, unless the lifecycle state freezes it. -/
theorem doClassWrite_clamps {row : CodeRow} (known : codeRow code.toNat = some row)
    (open_ : code.toNat / 256 = 0x13 →
      (s.swWrite (R.FLT_CCFG.off (code.toNat / 256) (code.toNat % 256)) v).get F.SEC_LCS_STATE ≠ 2) :
    doClassWrite code v s =
      let cls := clampN row.lo row.hi (fieldOf v 16 3)
      let u := (s.swWrite (R.FLT_CCFG.off (code.toNat / 256) (code.toNat % 256)) v).set F.FLT_CCFG_CLASS cls (code.toNat / 256) (code.toNat % 256)
      if cls = fieldOf v 16 3 then u else u.set F.FLT_STAT_CLSERR 1 := by
  simp only [doClassWrite, known]
  exact if_neg (not_and.mpr open_)

theorem doLevelSourceIdle_ends (level : isLevel code.toNat = true)
    (accepted : s.on F.FLT_CCFG_RAILBAD (code.toNat / 256) (code.toNat % 256) = false)
    (raised : Tab.get (fun _ => false) s.flt.levels code.toNat = true) (silent : s.waitingReps code.toNat = [])
    (ended : s.levelEnded code.toNat = true) : doLevelSourceIdle code s =
    ({ s with flt := { s.flt with levels := Tab.put (fun _ => false) s.flt.levels code.toNat false } } : State).noteTransient code.toNat :=
  if_neg (by simp only [level, accepted, raised, silent, ended]; decide)

end

/-- Settles O53: each upkeep command by its lemma; the writes reach their registers. -/
theorem faultHubUpkeep : Obligations.FaultHubUpkeep := by
  unfold Obligations.FaultHubUpkeep
  intro s code ns v row c k i
  refine ⟨?broken, ?short, ?walk, ?timeout, ?inject, ?clrall, ?firstFault, ?classes, ?level⟩
  case broken => exact fun known whole long => next_of_eq (doBrokenPair_setAside known whole long)
  case short => exact fun short => next_of_eq (doBrokenPair_short short)
  case walk =>
    exact fun n answers source period due noTest begun more silent idle =>
      next_of_eq (doRailWalk_tests source period due noTest begun more silent idle)
  case timeout => exact fun n t test late silent => next_of_eq (doRailTestTimeout_silent test late silent)
  case inject =>
    exact fun reaches go => ⟨fun bad => next_busWrite reaches (doInject_refused go bad),
      fun known open_ => next_busWrite reaches (doInject_taken go known open_)⟩
  case clrall => exact fun reaches go => next_busWrite reaches (doClrall_go go)
  case firstFault => exact fun reaches valid => next_busWrite reaches (doFirstFaultClear_valid valid)
  case classes => exact fun reaches known _ open_ => next_busWrite reaches (doClassWrite_clamps known open_)
  case level =>
    exact fun level accepted raised silent ended => next_of_eq (doLevelSourceIdle_ends level accepted raised silent ended)

end Sys2Proof.Machine

namespace Sys2Proof.Machine

/-! ### The sense ADC (R450 to R452) -/

section
variable {s : State} {raw rl rh : BitVec 12}

/-- One sample of the channel whose turn it is; the sample that completes an average is held to the limits. -/
theorem doAdcConversion_samples (on : s.on F.SENS_CTL_EN = true) {c : Nat} (turn : s.nextAdc = some c) : doAdcConversion raw s =
    let u : State := { s with sens := { s.sens with last := some c } }
    let x := u.adcChan c
    let avg := min 8 (s.get F.SENS_ACH_AVG c)
    let sum := x.sum + adcCode raw.toNat s.sens.rl s.sens.rh
    if x.n + 1 ≠ 2 ^ avg then u.setAdcChan c { x with sum := sum, n := x.n + 1 }
    else (u.setAdcChan c { x with sum := 0, n := 0 }).adcLimits c (((sum + 2 ^ avg / 2) / 2 ^ avg * s.get F.SENS_ACH_GAIN c + 2048) / 4096) := by
  simp only [doAdcConversion, on, turn, Bool.not_true, Bool.false_eq_true, if_false]
  rfl

theorem State.adcCal_accepted {l h : Nat} (inside : 472 ≤ l ∧ l ≤ 552 ∧ l + 2980 ≤ h ∧ h ≤ l + 3164) :
    s.adcCal l h = ({ s with sens := { s.sens with rl := l, rh := h } } : State).calDone 36 :=
  if_pos inside

theorem State.adcCal_discarded {l h : Nat} (outside : l < 472 ∨ 552 < l ∨ h < l + 2980 ∨ l + 3164 < h) :
    s.adcCal l h = s.report C.sens_adc_cal (mkArg none (some 36) 0) :=
  if_neg (by omega)

end

/-! ### Die temperature (R454 to R459) -/

/-- The count of disagreements of a sensor (R455). -/
def State.countDisagreements (s : State) (n k : Nat) : State :=
  { s with sens := { s.sens with dis := Tab.put (fun _ => 0) s.sens.dis n k } }

section
variable {s : State} {rs : List (BitVec 16)} {n : Nat} (good : s.tsFailed n = false)
include good

theorem State.checkSensor_out (out : reading rs n < -880 ∨ 2400 < reading rs n) : s.checkSensor rs n = s.failSensor n :=
  (if_neg (ne_true_of_eq_false good)).trans (if_pos out)

variable (lo : -880 ≤ reading rs n) (hi : reading rs n ≤ 2400)
include lo hi

theorem State.checkSensor_alone (few : (s.goodNeighbours rs n).length < 2) : s.checkSensor rs n = s.countDisagreements n 0 :=
  (if_neg (ne_true_of_eq_false good)).trans ((if_neg (by omega)).trans (if_pos few))

/-- A sensor with two neighbours or more is compared with their median. -/
theorem State.checkSensor_compares {m : Int} (two : 2 ≤ (s.goodNeighbours rs n).length) (mid : median (s.goodNeighbours rs n) = some m) :
    s.checkSensor rs n =
      let k := Tab.get (fun _ => 0) s.sens.dis n + 1
      if s.get F.SENS_TCFG_DIFF < (reading rs n - m).natAbs then
        if max 1 (s.get F.SENS_TCFG_N) ≤ k then s.failSensor n else s.countDisagreements n k
      else s.countDisagreements n 0 := by
  have inRange : ¬(reading rs n < -880 ∨ 2400 < reading rs n) := by omega
  simp only [State.checkSensor, State.countDisagreements, good, inRange, two.not_gt, mid, Bool.false_eq_true, if_false, Nat.cast_lt]

end

section
variable {s : State} {rs : List (BitVec 16)}

/-- A whole conversion: the checks, the values, the hottest sensor with its limits, the shutdown, and the calibration units. -/
theorem doTempConversion_converts (twelve : rs.length = 12) {b : State}
    (checked : (let a := (List.range 12).foldl (State.putSensor rs) ((List.range 12).foldl (State.checkSensor rs) s)
      a.set F.SENS_TJ_NFAIL a.failedCount) = b) {k : Nat} {t : Int} (hottest : b.hottest rs = some (k, t)) : doTempConversion rs s =
    let c := ((b.set F.SENS_TJ_SRC k).set F.SENS_TJ_TJMAX (ofSigned 16 t)).tjLimits k t
    let hot := (List.range 12).filter (c.isHot rs)
    let d := match hot.find? (fun n => c.sens.hot.contains n) with
      | none => c
      | some n => c.thermalShutdown n (reading rs n)
    (List.range 37).foldl State.convUnit { d with sens := { d.sens with hot := hot } } := by
  refine (if_neg (not_not_intro twelve)).trans ?_
  simp only at checked
  simp only [checked, hottest] <;> rfl

theorem doShutdownRecord_pending {k c : Nat} (pending : s.sens.shutRec = some (k, c)) : doShutdownRecord s =
    let u : State := { s with sens := { s.sens with shutRec := none } }
    if 32 ≤ s.sens.otp.length then u.set F.SENS_OTSTAT_FULL 1
    else { u with sens := { u.sens with otp := u.sens.otp ++ [w32 (2 ^ 31 + k * 2 ^ 27 + c * 2 ^ 19 + u.hours)] } } := by
  simp only [doShutdownRecord, pending]

theorem doShutdownRecord_none (nothing : s.sens.shutRec = none) : doShutdownRecord s = s := by
  simp only [doShutdownRecord, nothing]

end

/-- Settles O54: the ADC, the check of one sensor, a whole conversion, and the shutdown record. -/
theorem sensingAndShutdown : Obligations.SensingAndShutdown := by
  unfold Obligations.SensingAndShutdown
  refine fun s raw rl rh rs n => ⟨fun on => ⟨?sample, ?calibrated, ?discarded⟩, ?sensor, ?conversion, ?record,
    fun nothing => next_of_eq (doShutdownRecord_none nothing)⟩
  case sample =>
    intro c turn u x avg sum
    have samples := doAdcConversion_samples (raw := raw) on turn
    exact ⟨fun more => next_of_eq (samples.trans (if_pos more)), fun last => next_of_eq (samples.trans (if_neg (not_not_intro last)))⟩
  case calibrated => exact fun inside => next_of_eq ((if_pos on).trans (State.adcCal_accepted inside))
  case discarded => exact fun outside => next_of_eq ((if_pos on).trans (State.adcCal_discarded outside))
  case sensor =>
    intro good ns count
    refine ⟨State.checkSensor_out good, fun lo hi => ⟨State.checkSensor_alone good lo hi, fun m two mid => ?_⟩⟩
    have compares := State.checkSensor_compares good lo hi two mid
    exact ⟨fun agrees => compares.trans (if_neg agrees.not_gt), fun differs => compares.trans (if_pos differs)⟩
  case conversion =>
    intro twelve a b k t hottest
    exact next_of_eq (doTempConversion_converts twelve rfl hottest)
  case record =>
    intro k c pending u
    have records := doShutdownRecord_pending pending
    exact ⟨fun room => next_of_eq (records.trans (if_neg room.not_ge)), fun full => next_of_eq (records.trans (if_pos full))⟩

/-! ### MEAS_LOAD (R460, R462) -/

section
variable {s : State} {tok : Nat} {m : Msg} (started : s.msgOf tok 0x41 = some m)
  (fresh : s.sens.load.any (fun e => e.1.tok == tok) = false)
include started fresh

theorem doMeasLoad_badfield (bad : 2 ^ 16 ≤ (m.arg 0).toNat ∨ (m.arg 0).toNat % 32 ≠ 0) : doMeasLoad tok s = s.complete m .badfield := by
  simp only [doMeasLoad, started, fresh, Bool.false_eq_true, if_false]
  exact if_pos bad

variable (small : (m.arg 0).toNat < 2 ^ 16) (whole : (m.arg 0).toNat % 32 = 0)
include small whole

theorem doMeasLoad_segment : doMeasLoad tok s =
    let a := (m.arg 0).toNat
    if s.dev ≠ stReady ∨ s.on F.SYS_PMODE_STBY = true then s.complete m .state
    else if s.on F.SENS_LSTAT_BUSY = true then s.complete m .busy
    else
      let y := s.set F.SENS_LSTAT_SEG a
      let z : State := { y with sens := { y.sens with load := some (m, segOfAddr a) } }
      if z.segState (segOfAddr a) ≠ sgStandby ∧ z.segState (segOfAddr a) ≠ sgActive then z.loadDone 1
      else if fieldOf ((z.seg (segOfAddr a)).cap.getD 0 0) 8 1 = 0 then z.loadDone 2
      else (z.set F.SENS_LSTAT_BUSY 1).sendAcked (segOfAddr a / 128) 0x12 (segOfAddr a % 128) [z.rd (R.SENS_LCFG.off 0 0)] := by
  have inside : ¬(2 ^ 16 ≤ (m.arg 0).toNat ∨ (m.arg 0).toNat % 32 ≠ 0) := by omega
  simp only [doMeasLoad, started, fresh, inside, Bool.false_eq_true, if_false]

end

/-! ### LOADRES (R461, R462) -/

section
variable {s : State} {p : Fin 16} {ws : List Word} {q : Pend}

/-- The twelve words of an answer stand in LRES, and its request is no longer pending. -/
def State.takeLoadres (s : State) (p : Nat) (ws : List Word) (q : Pend) : State :=
  ((ws.drop 1).take 12).zipIdx.foldl (fun s e => s.wr (R.SENS_LRES.off e.2 0) e.1) ((s.fromSeg p ws).takePend p q.tok).2

variable (ok : s.upOk p ws 0x28 = true)
  (asked : ((s.fromSeg p ws).port p).pend.find? (fun q => q.tok == upArg ws % 4096 && q.mtype == 0x12 && q.dst == upSrc ws) = some q)
include ok asked

theorem doLoadres_measured (status : fieldOf (ws.getD 1 0) 24 8 = 0) : doLoadres p ws s =
    let h := s.takeLoadres p ws q
    if ws.getD 4 0 = 0 then h.loadDone 0
    else (h.report C.sens_load_fault (mkArg none (some p.val) q.dst)).loadDone 6 := by
  simp only [doLoadres, ok, asked, status, Bool.not_true, Bool.false_eq_true, if_false, State.takeLoadres]

theorem doLoadres_busy (status : fieldOf (ws.getD 1 0) 24 8 = 2) : doLoadres p ws s = (s.takeLoadres p ws q).loadDone 4 := by
  simp only [doLoadres, ok, asked, status, Bool.not_true, Bool.false_eq_true, if_false, State.takeLoadres]

theorem doLoadres_supply (status : fieldOf (ws.getD 1 0) 24 8 = 3) : doLoadres p ws s = (s.takeLoadres p ws q).loadDone 5 := by
  simp only [doLoadres, ok, asked, status, Bool.not_true, Bool.false_eq_true, if_false, State.takeLoadres]

end

/-! ### The calibration scheduler (R463 to R465) -/

section
variable {s : State} {rl rh u : Nat}

theorem State.runUnit_notDue (fresh : s.on F.SENS_CUSTAT_DUE u = false) : s.runUnit rl rh u = s :=
  if_pos (by simp [fresh])

variable (due : s.on F.SENS_CUSTAT_DUE u = true) (en : s.on F.SENS_CUNIT_EN u = true) (live : s.unitLive u = true)
include due en live

theorem State.runUnit_laneWaits (lane : u < 32) (busy : s.get F.HLP_STAT_MODE (u / 2) ≠ 0 ∨ s.on F.HLP_STAT_CALRUN (u / 2) = true ∨
    max 1 (s.get F.SENS_CSCH_MAXPAR) ≤ s.calsRunning) : s.runUnit rl rh u = s :=
  (if_neg (by simp [due, en, live])).trans ((if_pos lane).trans (if_pos busy))

theorem State.runUnit_channel (lo : 32 ≤ u) (hi : u < 36) :
    s.runUnit rl rh u = if s.on F.DMC_STAT_FCBUSY then s else s.set F.SENS_CUSTAT_RUN 1 u :=
  (if_neg (by simp [due, en, live])).trans ((if_neg lo.not_gt).trans (if_pos hi))

end

/-- Settles O55: MEAS_LOAD, the segment's answer, and a pass of the scheduler. -/
theorem loadsAndCalibration : Obligations.LoadsAndCalibration := by
  unfold Obligations.LoadsAndCalibration
  refine fun s tok m p ws rl rh u => ⟨?measure, ?answer, ⟨fun auto => next_of_eq (if_pos auto),
    fun manual => next_of_eq (if_neg (ne_true_of_eq_false manual))⟩, ?unit, State.runUnit_notDue⟩
  case measure =>
    intro started fresh a sg
    refine ⟨fun bad => next_of_eq (doMeasLoad_badfield started fresh bad), fun small whole => ?_⟩
    have measures := doMeasLoad_segment started fresh small whole
    refine ⟨fun closed => next_of_eq (measures.trans (if_pos closed)), fun ready awake => ?_⟩
    have opened := measures.trans (if_neg (by simp [ready, awake]))
    refine ⟨fun busy => next_of_eq (opened.trans (if_pos busy)), fun free => ?_⟩
    have taken := opened.trans (if_neg (ne_true_of_eq_false free))
    intro y z
    refine ⟨fun off noActive => next_of_eq (taken.trans (if_pos ⟨off, noActive⟩)), fun up => ?_⟩
    have present := taken.trans (if_neg fun off => up.elim off.1 off.2)
    exact ⟨fun cannot => next_of_eq (present.trans (if_pos cannot)),
      fun can => next_of_eq (present.trans (if_neg fun cannot => absurd (cannot.symm.trans can) (by decide)))⟩
  case answer =>
    intro e ok f q asked g h st
    exact ⟨fun zero sound => next_of_eq ((doLoadres_measured ok asked zero).trans (if_pos sound)),
      fun zero fault => next_of_eq ((doLoadres_measured ok asked zero).trans (if_neg fault)),
      fun two => next_of_eq (doLoadres_busy ok asked two), fun three => next_of_eq (doLoadres_supply ok asked three)⟩
  case unit =>
    exact fun due en live => ⟨State.runUnit_laneWaits due en live, State.runUnit_channel due en live⟩

end Sys2Proof.Machine

namespace Sys2Proof.Machine

/-! ### The start of a security command (R480) -/

section
variable {s : State} {v : Word} {op : Nat}

theorem doSecGo_starts (go : fieldOf v 31 1 = 1) (own : fieldOf v 0 8 = op) (free : s.on F.SEC_CMD_BUSY = false) :
    doSecGo op true v s = s.secStart op v := by
  simp [doSecGo, go, own, free]

theorem doSecGo_refused (go : fieldOf v 31 1 = 1) (own : fieldOf v 0 8 = op) (busy : s.on F.SEC_CMD_BUSY = true) :
    doSecGo op true v s = (s.swWrite (R.SEC_CMD.off 0 0) v).set F.SEC_CMD_REFUSED 1 := by
  simp [doSecGo, go, own, busy]

/-- An operation without a wrapper waits for its end with its argument. -/
theorem State.secStart_noWrapper (plain : ¬(op = 1 ∨ op = 3 ∨ op = 5 ∨ op = 6 ∨ op = 10)) : s.secStart op v =
    let u := (s.swWrite (R.SEC_CMD.off 0 0) v).set F.SEC_CMD_BUSY 1
    let held : SecCmd := { op := op, arg := u.get F.SEC_CMD_ARG, addr := u.get F.SEC_CMDADDR_ADDR * 64, status := 0, data := [] }
    { u with sec := { u.sec with cmd := some held } } :=
  if_neg plain

end

/-! ### The end of a security command (R477, R478, R480, R483, R489) -/

section
variable {s : State} {c : SecCmd}

theorem doSecurityCommandDone_none (idle : s.sec.cmd = none) : doSecurityCommandDone s = s := by
  simp only [doSecurityCommandDone, idle]

/-- Checks 5 and 6 of R477 decide the end of a VERIFY whose first checks passed, where a verified region is free. -/
theorem State.verifyDone_checked (good : c.status = 0) {p : List Byte} {u : State} {k : Nat}
    (read : s.readArgs (c.addr + wrapSize) (leAt c.data 0x0C 4) = (some p, u)) (free : u.freeRegion = some k) : s.verifyDone c =
    if wrapSigned c.data p then
      ((((u.set F.SEC_VBASE_VALUE (c.addr + wrapSize) k).set F.SEC_VLEN_VALUE (leAt c.data 6 1 * 2 ^ 29 + leAt c.data 0x0C 4) k).commitSvn
        c.data).secEnd (some 0) (some k))
    else (u.secEnd (some 2) none).audit 8 [w32 2, w32 (leAt c.data 6 1), w32 c.addr] := by
  simp only [State.verifyDone, good, read, free]
  cases wrapSigned c.data p <;> rfl

theorem State.verifyDone_refused (bad : c.status ≠ 0) :
    s.verifyDone c = (s.secEnd (some c.status) none).audit 8 [w32 c.status, w32 (leAt c.data 6 1), w32 c.addr] :=
  if_pos bad

theorem State.keydropDone_held {x : KeySlot} (held : s.keySlot c.arg = some x) : s.keydropDone c =
    let u := s.setKeySlot c.arg none
    let w : State := { u with sec := { u.sec with dropped := (x.keyid, x.lseq) :: u.sec.dropped.filter (fun e => e.1 ≠ x.keyid) } }
    (w.audit 4 [x.keyid, x.lseq, w32 c.arg]).secEnd (some 0) (some c.arg) := by
  simp only [State.keydropDone, held]

/-- A licence that is whole, but whose LSEQ is not above that of the slot with its KEYID. -/
theorem State.licenceDone_stale {p : List Byte} (payload : c.data.drop wrapSize = p) (good : c.status = 0) (whole : p.length = 192)
    (zeros : zeroBytes p 0x14 12 = true) (zeros' : zeroBytes p 0x81 3 = true) (room : s.auditFull = false)
    (metered : leAt p 0x10 4 = 0 ∨ s.feature 4 = true) {k : Nat} {x : KeySlot} (slot : s.slotOf (w32 (leAt p 0 4)) = some k)
    (held : s.keySlot k = some x) (stale : leAt p 4 4 ≤ x.lseq.toNat) :
    s.licenceDone c = s.secEnd (some (if wrapSigned c.data p then 6 else 2)) none := by
  have mayMeter : ¬(0 < leAt p 0x10 4 ∧ s.feature 4 = false) := by
    rintro ⟨metres, off⟩
    obtain zero | on := metered
    · exact metres.ne' zero
    · exact absurd (on.symm.trans off) (by decide)
  cases signed : wrapSigned c.data p
  · simp [State.licenceDone, payload, good, signed]
  · simp [State.licenceDone, payload, good, signed, whole, zeros, zeros', room, mayMeter, slot, held, stale]

theorem State.dbgDone_state (notProvisioned : s.get F.SEC_LCS_STATE ≠ lsProvisioned) (notOpen : s.get F.SEC_LCS_STATE ≠ lsOpen) :
    s.dbgDone c = (s.secEnd (some 3) none).drawChallenge :=
  congrArg State.drawChallenge (if_pos ⟨notProvisioned, notOpen⟩)

end

/-- Settles O56: the start of each operation, its end, and then the ends in detail. -/
theorem securityCommands : Obligations.SecurityCommands := by
  unfold Obligations.SecurityCommands
  refine fun s v c => ⟨?start, ?held, fun idle => next_of_eq (doSecurityCommandDone_none idle), ?finish, ?verify, State.verifyDone_refused,
    fun x held => State.keydropDone_held held, ?licence, State.dbgDone_state⟩
  case start =>
    intro reaches bit go
    have goes {op : Nat} {i : Instr} {f : State → State} (runs : exec i s = .next (s.busWrite 0x130004 f))
        (does : f s = doSecGo op true v s) : go op i := fun own =>
      ⟨fun free => runs.trans (next_busWrite reaches (does.trans (doSecGo_starts bit own free))),
        fun busy => runs.trans (next_busWrite reaches (does.trans (doSecGo_refused bit own busy)))⟩
    exact ⟨goes rfl rfl, goes rfl rfl, goes rfl rfl, goes rfl rfl, goes rfl rfl, fun no => goes rfl (by simp only [no, Bool.not_false]),
      fun yes => goes rfl (by simp only [yes]), goes rfl rfl, goes rfl rfl, goes rfl rfl, goes rfl rfl⟩
  case held => exact fun op plain => State.secStart_noWrapper (by omega)
  case finish =>
    intro pending
    refine ⟨?_, ?_, ?_, ?_, ?_, ?_, ?_, ?_, ?_, ?_⟩ <;> intro own <;>
      exact next_of_eq (by simp only [doSecurityCommandDone, pending, own])
  case verify => exact fun good p u k read free => State.verifyDone_checked good read free
  case licence =>
    intro p good whole zeros zeros' room metered k x slot held stale
    exact State.licenceDone_stale rfl good whole zeros zeros' room metered slot held stale

/-! ### The audit log (R486, R487) -/

section
variable {s : State} {v : Word} {ty : Nat} {arg : List Word}

theorem doAuditAck_held {e : Nat × List Byte} (held : s.sec.seals.find? (fun e => e.1 % 2 ^ 32 == v.toNat) = some e) : doAuditAck v s =
    let u := s.set F.SEC_AUDACK_SEQ v.toNat
    let w : State := { u with sec := { u.sec with acked := max u.sec.acked (e.1 + 1) } }
    w.audit 12 [v, w32 (e.1 / 2 ^ 32), 0] := by
  simp only [doAuditAck, held]

theorem doAuditAck_unknown (unknown : s.sec.seals.find? (fun e => e.1 % 2 ^ 32 == v.toNat) = none) : doAuditAck v s = s := by
  simp only [doAuditAck, unknown]

/-- An entry chains to the one before (R486); one whose SEQ ends 256 entries is sealed as well. -/
theorem State.audit_appends (room : s.auditFull = false) (unsealed : (s.sec.audNext + 1) % 256 ≠ 0) : s.audit ty arg =
    let e : AuditEntry := { seq := s.sec.audNext, time := s.tbNs 0, type := ty, lcs := s.get F.SEC_LCS_STATE, arg := arg, chain := [] }
    let link := (sha384 (s.sec.chain ++ e.head)).take 32
    { s with sec := { s.sec with
      audit := ({ e with chain := link } :: s.sec.audit).take auditRing, audNext := s.sec.audNext + 1, chain := link } } :=
  (if_neg (ne_true_of_eq_false room)).trans (if_neg unsealed)

end

/-! ### Tamper, glitch and the TAP (R488, R489) -/

section
variable {s : State}

/-- While VCORE is present the latch of a tamper event brings its audit entry and its report. -/
theorem State.latchTamper_present (present : s.pwr.vcoreOff = none) {cause : Nat} : s.latchTamper cause =
    (((s.set F.SEC_TAMPER_LATCH 1).set F.SEC_TAMPER_CAUSE cause).audit 9 [w32 cause, 0, 0]).report C.sec_tamper (mkArg none none cause) := by
  simp [State.latchTamper, present]

/-- What a glitch does before the third within a second: it is counted, and the operation in progress ends. -/
def State.noteGlitch (s : State) : State :=
  let recent := (s.now :: s.sec.glitchAt).filter (fun t => s.now < t + 1000000000)
  let u := (s.bump F.SEC_TAMPER_GLITCH).endGlitch
  let w : State := { u with sec := { u.sec with glitchAt := recent.take 3 } }
  (w.audit 9 [0, 0, 0]).report C.sec_glitch (mkArg none none 0)

/-- The key store after the third glitch: each slot keeps its identity and its USED, and may print no further. -/
def State.emptyKeys (s : State) : State :=
  { s with sec := { s.sec with
    slots := Tab.mapE (fun _ => none)
      (fun _ z => z.map (fun (y : KeySlot) => { y with key := List.replicate 32 0, limit := y.used / 2 ^ 32 })) s.sec.slots } }

theorem doGlitch_present (present : s.pwr.vcoreOff = none) : doGlitch s =
    if ((s.now :: s.sec.glitchAt).filter (fun t => s.now < t + 1000000000)).length < 3 then s.noteGlitch
    else s.noteGlitch.emptyKeys.latchTamper 3 :=
  if_neg (by simp [present])

/-- In Certified the TAP offers neither the boundary scan nor the debug port. -/
theorem State.tapAllowed_certified (certified : s.get F.SEC_LCS_STATE = lsCertified) :
    s.tapAllowed .sample = false ∧ s.tapAllowed .extest = false ∧ s.tapAllowed .debugPort = false := by
  simp [State.tapAllowed, certified]

end

/-- Settles O57: acknowledged seals and entries of the log, then tamper and glitch with VCORE present, and the TAP. -/
theorem auditAndTamper : Obligations.AuditAndTamper := by
  unfold Obligations.AuditAndTamper
  refine fun s v ty arg t => ⟨?ack, fun full => if_pos full, State.audit_appends, fun present => ⟨?tamper, ?glitch⟩,
    fun offered => next_of_eq (if_pos offered), fun other => next_of_eq (if_neg (ne_true_of_eq_false other)), rfl, rfl,
    State.tapAllowed_certified⟩
  case ack =>
    exact fun reaches => ⟨fun e held => next_busWrite reaches (doAuditAck_held held),
      fun unknown => next_busWrite reaches (doAuditAck_unknown unknown)⟩
  case tamper => exact fun warm => next_of_eq (State.latchTamper_present (s := s.zeroise) present)
  case glitch =>
    have glitches := doGlitch_present present
    exact ⟨fun few => next_of_eq (glitches.trans (if_pos few)), fun third => next_of_eq (glitches.trans (if_neg third.not_gt))⟩

end Sys2Proof.Machine

namespace Sys2Proof.Machine

/-! ### Resets (R427, R497 to R499) -/

section
variable {s : State} {v : Word} {flash : Bool}

theorem doPowerOnReset_grave (grave : s.dev = stGrave) {t : ResetTrigger} : doPowerOnReset t s = s := if_pos grave

/-- Outside Grave each power-on source resets the device and is recorded (R497, R498). -/
theorem doPowerOnReset_recorded (alive : s.dev ≠ stGrave) :
    let u := s.endGlitch.resetDevice false
    doPowerOnReset .pin s = { u.set F.SYS_RSTCAUSE_PIN 1 with pwr := { u.pwr with brown := false } } ∧
    doPowerOnReset .vio18 s = { u.set F.SYS_RSTCAUSE_BVIO18 1 with pwr := { u.pwr with brown := true } } ∧
    doPowerOnReset .vsram s = { u.set F.SYS_RSTCAUSE_BVSRAM 1 with pwr := { u.pwr with brown := true } } ∧
    doPowerOnReset .vcore s = { u.set F.SYS_RSTCAUSE_BVCORE 1 with pwr := { u.pwr with brown := true } } :=
  ⟨if_neg alive, if_neg alive, if_neg alive, if_neg alive⟩

theorem doVcoreRemoval_present (present : s.pwr.vcoreOff = none) : doVcoreRemoval s =
    let u := (s.endGlitch.resetDevice false).set F.SYS_RSTCAUSE_VCOREOFF 1
    { u with sens := { u.sens with therm := false }, pwr := { u.pwr with vcoreOff := some u.now, brown := false } } :=
  if_neg (by simp [present])

/-- A software reset with its key, outside Grave and while none waits, waits for a security command, a flash operation or a shutdown record. -/
theorem doSoftwareReset_taken (go : fieldOf v 31 1 = 1) (key : fieldOf v 0 16 = 0x5AFE) (alive : s.dev ≠ stGrave)
    (free : s.on F.SYS_RST_PEND = false) : doSoftwareReset v flash s =
    if s.sec.cmd.isSome then s.endGlitch.set F.SYS_RST_PEND 1
    else if flash || s.sens.shutRec.isSome then s.set F.SYS_RST_PEND 1
    else s.softReset :=
  if_neg (by simp [go, key, alive, free])

theorem doDeferredReset_due (pending : s.on F.SYS_RST_PEND = true) (recorded : s.sens.shutRec = none) : doDeferredReset s = s.softReset :=
  if_neg (by simp [pending, recorded])

theorem doDeferredReset_idle (idle : s.on F.SYS_RST_PEND = false) : doDeferredReset s = s :=
  if_pos (by simp [idle])

theorem State.endGlitch_idle (idle : s.sec.cmd = none) : s.endGlitch = s := by
  simp only [State.endGlitch, idle]

/-- The loss of VAUX empties the key store and takes SEQ up after the last entry in flash (R475, R486). -/
theorem doVauxLoss_sec (idle : s.sec.cmd = none) {e : AuditEntry} {rest : List AuditEntry} (log : s.sec.audit = e :: rest) :
    (doVauxLoss s).sec =
      { s.sec with slots := [], dropped := [], audNext := e.seq + 1, vauxTamper := 0, vauxLost := true } := by
  simp [doVauxLoss, State.endGlitch_idle idle, State.zeroise, log]

end

/-- Settles O58: the power-on sources, VCORE, the software reset, the delayed one, the TAP, VAUX, and what every reset leaves. -/
theorem resets : Obligations.Resets := by
  unfold Obligations.Resets
  refine fun s t v flash soft => ⟨fun grave => next_of_eq (doPowerOnReset_grave grave), ?powerOn,
    fun present => next_of_eq (doVcoreRemoval_present present), fun reaches => ⟨fun ignored => next_busWrite reaches (if_pos ignored), ?software⟩,
    fun pending recorded => next_of_eq (doDeferredReset_due pending recorded), fun idle => next_of_eq (doDeferredReset_idle idle), rfl, ?vaux,
    ?leaves⟩
  case powerOn =>
    intro alive
    obtain ⟨pin, vio18, vsram, vcore⟩ := doPowerOnReset_recorded alive
    exact ⟨next_of_eq pin, next_of_eq vio18, next_of_eq vsram, next_of_eq vcore⟩
  case software =>
    intro go key alive free
    have taken := doSoftwareReset_taken (flash := flash) go key alive free
    refine ⟨fun command => ?_, fun idle delayed => ?_, fun idle noFlash recorded => ?_⟩
    · exact next_busWrite reaches (taken.trans (if_pos (Option.isSome_iff_ne_none.mpr command)))
    · have waits : (flash || s.sens.shutRec.isSome) = true := by simpa [Option.isSome_iff_ne_none] using delayed
      exact next_busWrite reaches (taken.trans ((if_neg (by simp [idle])).trans (if_pos waits)))
    · exact next_busWrite reaches (taken.trans ((if_neg (by simp [idle])).trans (if_neg (by simp [noFlash, recorded]))))
  case vaux =>
    intro e rest idle log
    have sec := doVauxLoss_sec idle log
    exact ⟨doVauxLoss s, rfl, by rw [sec], by rw [sec], by rw [sec], by rw [sec], by rw [sec]⟩
  case leaves =>
    exact ⟨State.resetDevice_dev s soft, State.resetDevice_engines s soft, State.resetDevice_job s soft, State.resetDevice_now s soft,
      State.resetDevice_pending s soft, State.resetDevice_otp s soft, State.resetDevice_slots s soft, State.resetDevice_audit s soft,
      State.resetDevice_dmc s soft, State.resetDevice_tarn s soft⟩

/-! ### Standby (R505, R506) -/

/-- PMODE.REFUSED as a write leaves it: cleared by a 1 (R8). -/
def State.ackRefused (s : State) (v : Word) : State :=
  s.set F.SYS_PMODE_REFUSED (if fieldOf v 29 1 = 1 then 0 else s.get F.SYS_PMODE_REFUSED)

section
variable {s u : State} {v : Word} (written : s.ackRefused v = u)
include written

section
variable (enter : fieldOf v 31 1 = 1) (awake : u.on F.SYS_PMODE_STBY = false)
include enter awake

theorem doStandbyEntry_refused (bad : u.dev ≠ stReady ∨ u.job.job.isSome = true ∨ u.ing.jobs ≠ []) :
    doStandbyEntry v s = u.set F.SYS_PMODE_REFUSED 1 := by
  subst written
  exact (if_neg (by simpa [State.ackRefused, enter] using awake)).trans (if_pos (by simpa [State.ackRefused, or_assoc] using bad))

/-- A Standby that may begin waits for a frequency change (R506). -/
theorem doStandbyEntry_begins (ready : u.dev = stReady) (noJob : u.job.job = none) (noIngest : u.ing.jobs = []) : doStandbyEntry v s =
    if u.on F.DMC_STAT_FCBUSY then
      let w := u.set F.SYS_PMODE_STBY 1
      { w with pwr := { w.pwr with stbyWait := true } }
    else u.enterStandby := by
  subst written
  exact (if_neg (by simpa [State.ackRefused, enter] using awake)).trans (if_neg (by
    simpa [State.ackRefused, and_assoc] using And.intro ready (And.intro noJob noIngest)))

end

/-- A write that clears STBY cancels the Standby that still waits, and brings channels and ports back from one that has begun (R506). -/
theorem doStandbyExit_leaves (leave : fieldOf v 31 1 = 0) (asleep : u.on F.SYS_PMODE_STBY = true) : doStandbyExit v s =
    if u.pwr.stbyWait then
      let w := u.set F.SYS_PMODE_STBY 0
      { w with pwr := { w.pwr with stbyWait := false } }
    else
      let w := u.chans.foldl (fun s c => (s.setChan c { s.chan c with lastReq := s.now }).set F.DMC_CHSTAT_STATE 4 c) u
      let x := w.pwr.stbyPorts.foldl (fun s p => s.writeHlpCtl p (fieldPut (s.rd (R.HLP_CTL.off p 0)) 31 1 1)) w
      let y := (x.set F.SYS_PMODE_STBY 0).set F.SYS_PMODE_ACTIVE 0
      { y with pwr := { y.pwr with exitAt := some y.now } } := by
  subst written
  exact if_neg (by simpa [State.ackRefused, leave] using asleep)

end

/-! ### The watchdog and the management bus (R514) -/

section
variable {s : State}

theorem doWatchdogExpiry_expires (on : s.on F.SYS_WDOG_EN = true) (first : s.pwr.wdogRep = false)
    (late : s.pwr.wdogAt + 1000000 * max 10 (s.get F.SYS_WDOG_MS) ≤ s.now) : doWatchdogExpiry s =
    ({ s with pwr := { s.pwr with wdogRep := true } } : State).report C.sys_watchdog (mkArg none none 0) :=
  if_neg (by simp only [on, first, late.not_gt]; decide)

theorem doWatchdogExpiry_early (early : s.now < s.pwr.wdogAt + 1000000 * max 10 (s.get F.SYS_WDOG_MS)) : doWatchdogExpiry s = s :=
  if_pos (by simp only [early, decide_true, Bool.or_true])

variable {v : Word} {u : State}

section
variable (written : s.swWrite (R.SYS_BUSCMD.off 0 0) v = u) (go : fieldOf v 31 1 = 1)
include written go

theorem doBusTransaction_refused (bad : u.on F.SYS_BUSCMD_BUSY = true ∨ (fieldOf v 26 2 = 3 ∧ u.on F.ENG_AVSCTL_EN = true)) :
    doBusTransaction v s = u.set F.SYS_BUSCMD_REFUSED 1 := by
  subst written
  exact (if_neg (by simp [go])).trans (if_pos (by simpa using bad))

theorem doBusTransaction_starts (free : u.on F.SYS_BUSCMD_BUSY = false) (mine : fieldOf v 26 2 ≠ 3 ∨ u.on F.ENG_AVSCTL_EN = false) :
    doBusTransaction v s =
      let op : BusOp := { bus := fieldOf v 26 2, addr := fieldOf v 16 8, wlen := min 4 (fieldOf v 12 4), rlen := min 4 (fieldOf v 8 4),
                          data := u.rd (R.SYS_BUSDATA.off 0 0) }
      { u with pwr := { u.pwr with bus := some op } }.set F.SYS_BUSCMD_BUSY 1 := by
  subst written
  exact (if_neg (by simp [go])).trans (if_neg (by simpa [free, or_iff_not_imp_left] using mine))

end

/-- The bytes that were read replace the low bytes of BUSDATA, or ERR is set and reported. -/
theorem doBusTransactionDone_ends {o : BusOp} (runs : s.pwr.bus = some o) {ok : Bool} {data : Word} : doBusTransactionDone ok data s =
    let u := ({ s with pwr := { s.pwr with bus := none } } : State).set F.SYS_BUSCMD_BUSY 0
    if ok = false then (u.set F.SYS_BUSCMD_ERR 1).report C.sys_bus (mkArg none none 0)
    else
      let w := 2 ^ (8 * (if o.bus = 3 then 4 else o.rlen))
      u.set F.SYS_BUSDATA_DATA (u.get F.SYS_BUSDATA_DATA / w * w + data.toNat % w) := by
  simp only [doBusTransactionDone, runs]
  cases ok <;> rfl

theorem doBusTransactionDone_idle (idle : s.pwr.bus = none) {ok : Bool} {data : Word} : doBusTransactionDone ok data s = s := by
  simp only [doBusTransactionDone, idle]

end

/-- Settles O59: both writes of PMODE, the watchdog, and a transaction of the bus from its start to its end. -/
theorem standbyAndBus : Obligations.StandbyAndBus := by
  unfold Obligations.StandbyAndBus
  refine fun s v data ok => ⟨?standby, fun on first late => next_of_eq (doWatchdogExpiry_expires on first late),
    fun early => next_of_eq (doWatchdogExpiry_early early), ?bus, ?done, fun idle => next_of_eq (doBusTransactionDone_idle idle)⟩
  case standby =>
    intro reaches u
    refine ⟨fun enter awake => ⟨fun bad => ?refused, fun ready noJob noIngest => ?begins⟩, fun leave asleep active => ?exit,
      fun leave asleep waits => ?cancel⟩
    case refused => exact next_busWrite reaches (doStandbyEntry_refused rfl enter awake bad)
    case begins =>
      have begins := doStandbyEntry_begins rfl enter awake ready noJob noIngest
      exact ⟨fun busy => next_busWrite reaches (begins.trans (if_pos busy)),
        fun free => next_busWrite reaches (begins.trans (if_neg (ne_true_of_eq_false free)))⟩
    case exit =>
      exact next_busWrite reaches ((doStandbyExit_leaves rfl leave asleep).trans (if_neg (ne_true_of_eq_false active)))
    case cancel => exact next_busWrite reaches ((doStandbyExit_leaves rfl leave asleep).trans (if_pos waits))
  case bus =>
    intro reaches go u
    exact ⟨fun bad => next_busWrite reaches (doBusTransaction_refused rfl go bad),
      fun free mine => next_busWrite reaches (doBusTransaction_starts rfl go free mine)⟩
  case done =>
    intro o runs
    have ends := doBusTransactionDone_ends runs (ok := ok) (data := data)
    exact ⟨fun failed => next_of_eq (ends.trans (if_pos failed)),
      fun good => next_of_eq (ends.trans (if_neg (ne_false_of_eq_true good)))⟩

end Sys2Proof.Machine
